-- ==== Sys2Proof/Word.lean ====
section
/-! DEFINITION. The word types of the JX1280 (00 R4: every multi-byte value is little-endian) and their plainest
arithmetic. Register values are bit vectors of the register's own width (01 R8). -/
namespace Sys2Proof

/-- One byte of memory. -/
abbrev Byte := BitVec 8
/-- The value of one v register (R9). -/
abbrev V32 := BitVec 32
/-- The value of one k register (R10), and of most special registers (R134). -/
abbrev K64 := BitVec 64
/-- A virtual address: the value of one a register or of the PC (R11, R13). -/
abbrev Addr := BitVec 80

end Sys2Proof
end

