-- ==== Sys2Proof/Config.lean ====
section
/-! DEFINITION. What an implementation fixes and the spec does not give, as opaque constants: nothing in Lean can evaluate
them, so a statement holds whatever they are. Each is named in a log entry. -/
namespace Sys2Proof.Config

/-- Which of the two neighbours a faithful approximation returns (R108): true for the one farther from zero. `op` numbers the
operation, `ty` the type code, `x` the operand bits (log 7). -/
opaque faithfulAway (op ty x : Nat) : Bool
/-- An unconstrained value, the n-th asked for (log 32). -/
opaque freeValue : Nat → Nat
/-- Kilvas's record-signing public key, x then y, 512 bits (R345; log 9). -/
opaque kilvasKey : Nat
/-- Digests of the ROM records of fs0 to fs2 (R341, R354; log 9). -/
opaque romDigest : Nat → Nat
/-- Serial numbers of the ROM records (R356; log 9). -/
opaque romSerial : Nat → Nat
/-- The device identity public key and the signature it makes on a digest (R451; log 9). -/
opaque identityKey : Nat
opaque identitySign : Nat → Nat
/-- The running firmware's digest, the boot ROM's digest, the serial number (R451; log 35). -/
opaque fwDigest : Nat
opaque bootDigest : Nat
opaque serialNumber : Nat
/-- The firmware image the boot ROM finds: security version, and whether its signature verifies (R451; log 35). -/
opaque fwSecver : Nat
opaque fwSignatureOk : Bool
/-- Check 7 of R347: the strips, configured by the bitstream of this record, decode and encode every code (log 10). -/
opaque stripsOk : List Byte → Bool
/-- The Rinesh translator (R458 to R461; log 11): the module's length by its first 64 bytes; where the module keeps its tile types, a
kernel's operation records and the type of each value, which the spec does not print; an element of an elementwise operation whose `flags` name no
word with register operands alone; whether a workgroup of the kernel exceeds check 4
of R168; the code image; the launch headers, which hold the slots that the function's slot digests give and the code address; the
nanoseconds it takes; its version. -/
opaque moduleLength : List Byte → Nat
opaque moduleTypes : List Byte → List ((Bool × Nat) × List (Bool × Nat))
opaque moduleRecords : List Byte → Nat → List (List Byte)
opaque moduleValues : List Byte → Nat → List Nat
opaque moduleElement : Nat → List Nat → Nat
opaque translateTooBig : List Byte → List Byte → Bool
opaque translateCode : List Byte → List Byte → List (Option Nat) → List Byte
opaque translateHeaders : List Byte → List Byte → List (Option Nat) → Nat → List Byte
opaque translateTime : List Byte → List Byte → Nat
opaque translatorVersion : Nat
/-- The sections of a save image that are particular to the part, or whose inner layout the spec does not print: section, image number (R391;
log 16). -/
opaque imageInner : Nat → Nat → Nat
/-- Re-attestation before a function is handed on (R452 step 5), the n-th time: the digests match (log 9). -/
opaque reattests : Nat → Bool
/-- The distance-table entries that the spec does not print (R415; log 33). -/
opaque distance : Nat → Nat → Nat
/-- The L1 way a fill of a full set evicts: core, set, number of lines in the set (R194; log 15). -/
opaque l1Victim : Nat → Nat → Nat → Nat
/-- Uncorrectable errors after which firmware fences a core (R388; log 36). -/
opaque errorThreshold : Nat

end Sys2Proof.Config
end

