-- ==== Sys2Proof/Syntax.lean ====
section
/-! DEFINITION. The instructions of the JX1280 as syntax: ONE inductive `Instr`, one constructor per row of
spec/opcode_table.json. Register numbers and immediates are plain numbers; `wellFormed` (WellFormed.lean) says which are
legal. Rows that have no encoding (events of a unit, host registers and commands) name the unit they happen at and, where
a peer or the host brings data, that data. -/
namespace Sys2Proof

/-- The type codes of R39. Codes B and F are reserved. -/
inductive Ty where
  | i8 | i16 | i32 | i64 | z8 | z16 | z32 | z64 | f16 | bf16 | f32 | b32 | b64 | pred
  deriving DecidableEq, Repr

/-- The rounding codes 0 to 5 of R40. -/
inductive Rm where
  | rne | rtz | rup | rdn | rst | rsat
  deriving DecidableEq, Repr

/-- The conditions of R88 (codes 0 to 5) and of R111 (codes 0 to 7). -/
inductive Cmp where
  | eq | ne | lt | le | gt | ge | un | ord
  deriving DecidableEq, Repr

/-- The combining form of `cmp` and `fcmp` (R88): x[1:0], with pX in x[4:2]. -/
inductive Comb where
  | plain | both (p : Nat) | either (p : Nat)
  deriving DecidableEq, Repr

/-- Operand b of an S word (R25): a register, the 16-bit immediate, or the 61-bit payload of the extension word (R26). -/
inductive Src where
  | reg (r : Nat) | imm (n : Nat) | ext (payload : Nat)
  deriving DecidableEq, Repr

/-- Order codes of R41: 11 is illegal. -/
inductive Ord where
  | plain | acqRel | strong
  deriving DecidableEq, Repr

/-- The operand fields shared by every M word (R36). `index` = 255 means no index; `disp` is the byte displacement (23
bits; 19 bits in the atomics, R245). -/
structure MemOp where
  base  : Nat
  data  : Nat
  index : Nat
  scale : Nat
  order : Ord
  scope : Nat
  disp  : Int
  deriving DecidableEq, Repr

/-- The fields of a P word (R28), as they stand in the word. -/
structure PairFields where
  kimm : Nat
  sop  : Nat
  kd   : Nat
  ka   : Nat
  kb   : Nat
  vop  : Nat
  vd   : Nat
  va   : Nat
  vb   : Nat
  type : Nat
  mod  : Nat
  deriving DecidableEq, Repr

/-- What every copy command of group M carries beside its operands (R315): the barrier of mod[0] (a k register number),
the stamp tag of mod[3:1], and the bound register of `D`. -/
structure CopyOpts where
  bar : Option Nat
  tag : Nat
  bd  : Option Nat
  deriving DecidableEq, Repr

/-- The head of a command (R445): the ring it was read from (0 to 127 a virtual function's, 128 the physical function's),
the function it names, its tag, and flags bit 0 (interrupt on completion). -/
structure Cmd where
  ring   : Nat
  target : Nat
  tag    : Nat
  irq    : Bool
  deriving DecidableEq, Repr

/-- Who sent a reservation, an abort or a payload to a landing zone (R431): device, function on that device, launch header
and group index. -/
structure Sender where
  dev    : Nat
  vf     : Nat
  header : Nat
  group  : Nat
  deriving DecidableEq, Repr

/-- What a remote device asks of this device's memory (R427). -/
inductive RemoteOp where
  | read (bytes : Nat)
  | write (data : List Byte)
  | atomic (op : Nat) (t : Ty) (operand : Nat)
  deriving DecidableEq, Repr

/-- The content of a flit as the link layer hands it on (R422, R423): nothing for this device's units, or a message. -/
inductive FlitBody where
  | empty
  | data (bytes : List Byte)
  deriving DecidableEq, Repr

/-- One instruction, event or command of the JX1280: one constructor per row of spec/opcode_table.json, in its order. -/
inductive Instr where
  -- group A: vector integers (R83)
  | add (t : Ty) (d a : Nat) (b : Src)
  | sub (t : Ty) (d a : Nat) (b : Src)
  | mul (t : Ty) (d a : Nat) (b : Src)
  | mulhi (t : Ty) (d a : Nat) (b : Src)
  | mad (t : Ty) (d a b c : Nat)
  | div (t : Ty) (d a : Nat) (b : Src)
  | rem (t : Ty) (d a : Nat) (b : Src)
  | abs (t : Ty) (d a : Nat)
  | min (t : Ty) (d a : Nat) (b : Src)
  | max (t : Ty) (d a : Nat) (b : Src)
  | and (t : Ty) (d a : Nat) (b : Src)
  | or (t : Ty) (d a : Nat) (b : Src)
  | xor (t : Ty) (d a : Nat) (b : Src)
  | andn (t : Ty) (d a : Nat) (b : Src)
  | shl (t : Ty) (d a : Nat) (b : Src)
  | shr (t : Ty) (d a : Nat) (b : Src)
  | sar (t : Ty) (d a : Nat) (b : Src)
  | rotl (t : Ty) (d a : Nat) (b : Src)
  | clz (t : Ty) (d a : Nat)
  | popc (t : Ty) (d a : Nat)
  | brev (t : Ty) (d a : Nat)
  | bfx (t : Ty) (d a pos len : Nat)
  | bfi (t : Ty) (d a b c : Nat)
  | sel (t : Ty) (d a b p : Nat)
  | cmp (t : Ty) (c : Cmp) (d a : Nat) (b : Src) (x : Comb)
  | mov (t : Ty) (d a : Nat) (neg : Bool)
  | movi (t : Ty) (d : Nat) (b : Src)
  -- group B: floats and conversions (R103)
  | fadd (t : Ty) (d a : Nat) (b : Src) (rm : Rm)
  | fsub (t : Ty) (d a : Nat) (b : Src) (rm : Rm)
  | fmul (t : Ty) (d a : Nat) (b : Src) (rm : Rm)
  | ffma (t : Ty) (d a b c : Nat) (rm : Rm)
  | fmin (t : Ty) (d a : Nat) (b : Src) (nan : Bool)
  | fmax (t : Ty) (d a : Nat) (b : Src) (nan : Bool)
  | fdiv (t : Ty) (d a : Nat) (b : Src) (rm : Rm)
  | frcp (t : Ty) (d a : Nat) (rm : Rm)
  | frsq (t : Ty) (d a : Nat)
  | fsqrt (t : Ty) (d a : Nat) (rm : Rm)
  | fexp2 (t : Ty) (d a : Nat)
  | flog2 (t : Ty) (d a : Nat)
  | fsin (t : Ty) (d a : Nat)
  | fcos (t : Ty) (d a : Nat)
  | fcmp (t : Ty) (c : Cmp) (d a : Nat) (b : Src) (x : Comb)
  | fclass (t : Ty) (d a : Nat)
  | fclassAny (t : Ty) (d a mask : Nat)
  | cvt (dt src : Ty) (d a : Nat) (rm : Rm)
  | fpack (t : Ty) (d a vs slot sel count : Nat) (rm : Rm)
  | funpack (t : Ty) (d a vs slot sel count : Nat) (rm : Rm)
  | fscale (t : Ty) (d a : Nat) (b : Src) (rm : Rm)
  | fscaleStored (t : Ty) (d a vs sel j : Nat) (inv : Bool) (rm : Rm)
  -- group C: lanes (R178)
  | shfl (mode d a : Nat) (b : Src)
  | voteAny (d a : Nat)
  | voteAll (d a : Nat)
  | voteBallot (d a : Nat)
  | voteEq (d a : Nat)
  | redux (op : Nat) (t : Ty) (d a : Nat)
  | matchLanes (t : Ty) (d a : Nat)
  -- group D: uniform (R93)
  | kadd (d a : Nat) (b : Src)
  | ksub (d a : Nat) (b : Src)
  | kmul (d a : Nat) (b : Src)
  | kand (d a : Nat) (b : Src)
  | kor (d a : Nat) (b : Src)
  | kxor (d a : Nat) (b : Src)
  | kshl (d a : Nat) (b : Src)
  | kshr (d a : Nat) (b : Src)
  | ksar (d a : Nat) (b : Src)
  | kmin (t : Ty) (d a : Nat) (b : Src)
  | kmax (t : Ty) (d a : Nat) (b : Src)
  | kcmp (t : Ty) (c : Cmp) (d a : Nat) (b : Src)
  | ksel (d a b p : Nat)
  | kmov (d a : Nat)
  | kmovi (d : Nat) (b : Src)
  | kbfx (t : Ty) (d a pos len : Nat)
  | kpopc (d a : Nat)
  | kclz (d a : Nat)
  | kbcast (t : Ty) (d a : Nat)
  | kpick (t : Ty) (d a : Nat) (b : Src)
  -- group E: addresses (R97)
  | amov (d a : Nat)
  | aset (d a : Nat) (b : Src)
  | aget (d a : Nat)
  | agetHi (d a : Nat)
  | aadd (d a : Nat) (b : Src)
  | aaddv (t : Ty) (d a b scale : Nat)
  | acmp (c : Cmp) (d a b : Nat)
  | adiff (d a b : Nat)
  | aalignDn (d a n : Nat)
  | aalignUp (d a n : Nat)
  -- the P word (R28) and the predicate block (R31)
  | pairWord (f : PairFields)
  | pblk (pred : Nat) (inv : Bool) (count pattern : Nat)
  -- groups F, J and T: control, fences, system (R122, R251)
  | bra (off : Int)
  | brc (p : Nat) (inv : Bool) (off : Int)
  | brkNz (k : Nat) (off : Int)
  | brkZ (k : Nat) (off : Int)
  | jmp (a : Nat) (off : Int)
  | call (off : Int)
  | callr (a : Nat) (off : Int)
  | ret
  | exit
  | regroup (v g : Nat)
  | yield
  | nop
  | sleep (n : Nat)
  | sleepReg (k : Nat)
  | trap (code : Nat)
  | brkpt (id : Nat)
  | fence (order : Nat) (uo : Bool) (scope : Nat)
  | icinv (a n scope : Nat)
  | dcwb (a n : Nat)
  | dcinv (a n : Nat)
  | srd (form d sr : Nat)
  | swr (form a sr : Nat)
  | trapret
  | trapretSkip
  | clock (k : Nat)
  | clockTime (k : Nat)
  -- groups H and I: memory (R136, R241, R246)
  | ld (t : Ty) (m : MemOp)
  | st (t : Ty) (m : MemOp)
  | ldw (t : Ty) (m : MemOp)
  | stw (t : Ty) (m : MemOp)
  | ldk (t : Ty) (m : MemOp)
  | stk (t : Ty) (m : MemOp)
  | lda (m : MemOp)
  | sta (m : MemOp)
  | pf (m : MemOp)
  | lds (t : Ty) (m : MemOp)
  | sts (t : Ty) (m : MemOp)
  | ldsw (t : Ty) (m : MemOp)
  | stsw (t : Ty) (m : MemOp)
  | atom (op : Nat) (t : Ty) (m : MemOp)
  | atomcas (t : Ty) (m : MemOp)
  | atomf (op : Nat) (t : Ty) (m : MemOp)
  | atomord (op : Nat) (t : Ty) (m : MemOp)
  | red (op : Nat) (t : Ty) (m : MemOp)
  | atoms (op : Nat) (t : Ty) (m : MemOp)
  -- group K: barriers, monitors, rings (R183, R310, R313, R314)
  | barw (mask : Nat)
  | tbarInit (b n : Nat)
  | tbarArrive (b : Nat)
  | tbarArriveLanes (b : Nat)
  | tbarExpect (b n : Nat)
  | tbarWait (b p : Nat)
  | tbarTest (d b p : Nat)
  | tbarInval (b : Nat)
  | monArm (d a : Nat)
  | monWait
  | stgAcq (d ring : Nat)
  | stgCommit (ring : Nat)
  | stgTake (d ring : Nat)
  | stgFree (ring : Nat)
  -- group L: tiles (R256)
  | tdef (t b s : Nat)
  | tfree (t : Nat)
  | tstate (d t : Nat)
  | tver (d t : Nat)
  | tld (t a : Nat) (order : Ord) (scope : Nat)
  | tst (t a : Nat) (order : Ord) (scope : Nat)
  | tstAon (t a v : Nat)
  | tldv (t a v : Nat)
  | trot (t : Nat)
  | trotRev (t : Nat)
  | tmap (t a : Nat)
  | tunmap (t : Nat) (order : Ord) (scope : Nat)
  -- group M: copies (R315, R316)
  | cpG2t (t a : Nat) (o : CopyOpts)
  | cpT2g (a t : Nat) (o : CopyOpts)
  | cpG2g (d s n : Nat) (o : CopyOpts)
  | cpGather (e t a v scale k : Nat) (o : CopyOpts)
  | cpScatter (e a v scale t k : Nat) (o : CopyOpts)
  | cpFill (a v n : Nat) (o : CopyOpts)
  | cpFillTile (t v : Nat) (o : CopyOpts)
  | cpT2t (d s g : Nat) (o : CopyOpts)
  | cpT2tReg (s g w : Nat) (o : CopyOpts)
  | cpMcast (d s g m : Nat) (o : CopyOpts)
  | cpStamp (a v mask : Nat) (sys : Bool)
  -- group N: landing zones (R434)
  | lzOpen (d z b c h : Nat)
  | lzClose (z : Nat)
  | lzStatus (d z sel : Nat)
  | lzReserve (d z : Nat)
  | lzReserveWait (d z : Nat)
  | lzSend (z s t w path : Nat)
  | lzSendAny (z s t w path : Nat)
  | lzAbort (d z s : Nat)
  | lzWait (z p : Nat)
  | lzAck (z s : Nat)
  | lzClean (z s : Nat)
  -- group O: channels (R276)
  | chBindW (q c : Nat) (map : Option Nat)
  | chBindR (q c : Nat) (map : Option Nat)
  | chUnbind (q : Nat)
  | chSend (q v : Nat)
  | chRecv (q v : Nat) (p : Option Nat)
  | chTryRecv (q v p : Nat)
  | chTrySend (q v p : Nat)
  | chSendt (q t : Nat)
  | chRecvt (q t : Nat) (p : Option Nat)
  | chClose (q : Nat)
  | chStat (d q sel : Nat)
  | chStatNum (d c sel : Nat)
  -- group P: matrix unit and epilogue processor (R324)
  | mbLoad (mac t slot : Nat)
  | mbFree (mac : Nat)
  | mmaQ (acc mac slot v vs sel : Nat) (ov : Bool)
  | mmaT (acc mac slot t : Nat) (ov : Bool)
  | mfence
  | mwait (acc : Nat)
  | mwaitAll
  | accZero (acc : Nat)
  | accRd (count v acc k : Nat)
  | accWr (count acc v k : Nat)
  | accDrain (t acc ps : Nat) (tv : Option Nat) (k : Nat) (z : Bool)
  | epiLoad (ps t : Nat)
  | mstat (d : Nat)
  | mstatClr (d : Nat)
  -- group Q: format slots (R355); group R: bound registers (R381)
  | fsQuery (d slot sel : Nat)
  | fsLoad (d slot a : Nat)
  | fsFence (slot : Nat)
  | fsFenceDev (slot : Nat)
  | fsPin (slot : Nat)
  | fsUnpin (slot : Nat)
  | bdSet (bd pol type lo hi : Nat)
  | bdClr (bd : Nat)
  | bdStat (d bd sel : Nat)
  | bdStatClr (d bd sel : Nat)
  -- group S: work (R185, R187)
  | spawn (d a : Nat)
  | join (d a : Nat)
  | grow (d k : Nat)
  | gwSignal (k a : Nat)
  | wid (form d sel : Nat)
  | widFrame (d : Nat)
  -- epilogue words (R339)
  | eLd (d v : Nat)
  | eSt (a o n : Nat)
  | eAdd (d a b : Nat)
  | eSub (d a b : Nat)
  | eMul (d a b : Nat)
  | eFma (d a b c : Nat)
  | eMax (d a b : Nat)
  | eMin (d a b : Nat)
  | eAbs (d a : Nat)
  | eExp2 (d a : Nat)
  | eRcp (d a : Nat)
  | eRsq (d a : Nat)
  | eTanh (d a : Nat)
  | eSel (d a b c : Nat)
  | eCmp (d a b cond : Nat)
  | eBias (d a v : Nat)
  | eScale (d a : Nat) (t : Int)
  | eCvt (d a slot rm : Nat)
  | eBound (d a bd : Nat)
  | eEnd
  -- events of the units of a core
  | streakRescue (core warp : Nat)
  | sleepWake (core slot thread : Nat)
  | loadReturn (core id : Nat) (data : List (List Byte))
  | regroupRebuildDone (core slot role : Nat)
  | trotComplete (core slot tile : Nat)
  | tileFillComplete (core slot tile : Nat)
  | tileDrainComplete (core slot tile : Nat)
  | versionWordRetry (core slot tile : Nat)
  | copyCommandStart (core id : Nat)
  | copyCommandComplete (core id : Nat)
  | t2tTargetWrite (core id target : Nat)
  | cpStampStore (core id : Nat)
  | monitorWake (core slot thread : Nat)
  | monitorTimeout (core slot thread : Nat)
  | mbLoadRun (core mac : Nat)
  | mbFreeEffect (core mac : Nat)
  | passStart (core mac : Nat)
  | passComplete (core mac : Nat)
  | macroIdlePowerOff (core mac : Nat)
  | tokenBurstEnd (cluster : Nat)
  | tokenHoldTimeout (cluster : Nat)
  | tokenArrive (die : Nat)
  | drainStart (core : Nat)
  | drainComplete (core : Nat)
  | epiStoreWrite (core ps : Nat)
  | l1WritebackTimeout (core line : Nat)
  | storeBufferAgeOverflow (core slot : Nat)
  -- events of channels, faults, pre-emption and dispatch
  | blockedSendProceed (vf ch : Nat)
  | blockedRecvProceed (vf ch : Nat)
  | channelRefill (vf ch : Nat)
  | stalemateScan
  | faultQueueRetry (vf : Nat)
  | faultService (vf : Nat)
  | faultReplay (core id : Nat)
  | fetchFaultSwapOut (core slot : Nat)
  | preemptPriorityTimeout (vf : Nat)
  | workgroupResume (vf core : Nat)
  | globalDispatch
  | digestMismatchRetry (vf : Nat)
  | launchComplete (vf launch : Nat)
  | launchPlaceRetry (vf : Nat)
  | gwLaunchNode (vf : Nat)
  | gwConditionalNode (vf : Nat)
  | gwWhileNode (vf : Nat)
  | gwJoinNode (vf : Nat)
  | gwWaitStampNode (vf : Nat)
  | gwSignalHostNode (vf : Nat)
  | gwEndNode (vf : Nat)
  | loaderRequest (vf : Nat)
  | formatInstall (core slot : Nat)
  | coreFunctionChange (core vf : Nat)
  | serialPhaseApply (vf launch : Nat)
  | coreFence (core : Nat)
  -- events of the package, the links and the peers
  | migrationWindow
  | migSettle (vf page : Nat)
  | invalidationBroadcast (die : Nat)
  | invalidationComplete
  | powerSample (watts : Nat)
  | timeSync (dev reference : Nat)
  | flitReceive (port : Nat) (crcOk : Bool) (body : FlitBody)
  | portDown (port : Nat)
  | portUp (port : Nat)
  | remoteAccessRequest (dev vf va : Nat) (op : RemoteOp)
  | gangDigest (vf launch dev : Nat) (digest : Nat)
  | gangDeadline (vf launch : Nat)
  | gangStart (vf launch : Nat)
  | lzReservationArrive (name : Nat) (from_ : Sender)
  | lzAbortArrive (name slot : Nat) (from_ : Sender)
  | lzPayloadFlit (name slot offset total : Nat) (data : List Byte) (from_ : Sender)
  | lzStatusStore (core id status : Nat)
  | channelFlitArrive (vf ch : Nat) (data : List Byte)
  | channelCreditReturn (vf ch credits : Nat)
  -- host registers and commands (R444 to R447)
  | cqtailDoorbell (fn value : Nat)
  | cpheadWrite (fn value : Nat)
  | registerWrite (fn offset value : Nat)
  | graphRun (c : Cmd) (graph count start : Nat)
  | formatRecordLoad (c : Cmd) (slot addr : Nat)
  | channelCreate (c : Cmd) (number config spool : Nat)
  | channelReopen (c : Cmd) (number : Nat)
  | channelDestroy (c : Cmd) (number : Nat)
  | keyEnrol (c : Cmd) (index key : Nat)
  | keyRemove (c : Cmd) (index : Nat)
  | slotAttestation (c : Cmd) (nonce addr : Nat)
  | deviceAttestation (c : Cmd) (nonce addr : Nat)
  | readCounters (c : Cmd) (addr : Nat)
  | invalidate (c : Cmd) (base count word : Nat)
  | translate (c : Cmd) (module binding code : Nat)
  | translateDelayedComplete (c : Cmd)
  | setEntries (c : Cmd) (base count flags array : Nat)
  | setWeight (c : Cmd) (weight : Nat)
  | setFrames (c : Cmd) (g b backing size : Nat)
  | setQueues (c : Cmd) (rk fk elog : Nat)
  | joinDomain (c : Cmd) (domain : Nat)
  | setRoute (c : Cmd) (peer : Nat) (ports : List Nat)
  | setLimit (c : Cmd) (watts : Nat)
  | setIdle (c : Cmd) (cycles : Nat)
  | preEmpt (c : Cmd) (launch : Nat)
  | assign (c : Cmd)
  | reset (c : Cmd)
  | healthTestComplete (core : Nat) (passed : Bool)
  | fusedMinimumRaise (version : Nat) (signatureOk : Bool)
  | deviceReset
  | lzReservationReply (core slot thread status zslot : Nat)
  deriving DecidableEq, Repr

end Sys2Proof
end

