-- ==== Sys2Proof/WellFormed.lean ====
section
/-! DEFINITION. Which terms of `Instr` are instructions: `wellFormed`, one line per constructor, from the field tables of the
spec (R9, R24 to R42, and each group's own table). What depends on a thread's register allocation is not here: `vspans`
lists the v registers an instruction names, and the machine holds them against the allocation (R9, R45 check 5). -/
namespace Sys2Proof

/-- Width in bits of a value of the type (R39); a predicate is one bit. -/
def Ty.bits : Ty → Nat
  | .i8 | .z8 => 8
  | .i16 | .z16 | .f16 | .bf16 => 16
  | .i32 | .z32 | .f32 | .b32 => 32
  | .i64 | .z64 | .b64 => 64
  | .pred => 1

/-- Width in bytes. -/
def Ty.bytes (t : Ty) : Nat := t.bits / 8

/-- The 64-bit types, whose vector operands are even register pairs (R9). -/
def Ty.is64 (t : Ty) : Bool := t.bits == 64
/-- The signed integer types (R39). -/
def Ty.signed : Ty → Bool | .i8 | .i16 | .i32 | .i64 => true | _ => false
/-- The floating types. -/
def Ty.isFloat : Ty → Bool | .f16 | .bf16 | .f32 => true | _ => false
/-- The integer types. -/
def Ty.isInt : Ty → Bool | .i8 | .i16 | .i32 | .i64 | .z8 | .z16 | .z32 | .z64 => true | _ => false
/-- The types `add` accepts (R83). -/
def Ty.isArith : Ty → Bool | .i16 | .i32 | .i64 | .z16 | .z32 | .z64 => true | _ => false
/-- The 32- and 64-bit integer types. -/
def Ty.isWide : Ty → Bool | .i32 | .i64 | .z32 | .z64 => true | _ => false
/-- b32 and b64. -/
def Ty.isBits : Ty → Bool | .b32 | .b64 => true | _ => false

/-- A register number of each kind (R24). -/
def isV (r : Nat) : Bool := r < 256
def isK (r : Nat) : Bool := r < 32
def isA (r : Nat) : Bool := r < 16
def isP (r : Nat) : Bool := r < 8
/-- A v register that holds a value of type `t`: even when the type has 64 bits (R9). -/
def isVT (t : Ty) (r : Nat) : Bool := r < 256 && (!t.is64 || r % 2 == 0)

/-- A long immediate fits an operand of 32 bits or less when payload bits [60:32] are all zero or all one (R26). -/
def fits32 (p : Nat) : Bool := p / 4294967296 == 0 || p / 4294967296 == 536870911
/-- Operand b of an S word, by kind of register and by whether the operand is wider than 32 bits (R25, R26). -/
def Src.ok (isReg : Nat → Bool) (wide : Bool) : Src → Bool
  | .reg r => isReg r
  | .imm n => n < 65536
  | .ext p => p < 2305843009213693952 && (wide || fits32 p)

/-- The combining form names a predicate (R88). -/
def Comb.ok : Comb → Bool
  | .plain => true
  | .both p | .either p => isP p

/-- Conditions `cmp` accepts for a type (R88): an order condition needs an integer type. -/
def cmpOk (t : Ty) : Cmp → Bool
  | .eq | .ne => t.isArith || t.isBits
  | .lt | .le | .gt | .ge => t.isArith
  | .un | .ord => false

/-- The types each `redux` operation accepts (R181). -/
def reduxOk (op : Nat) (t : Ty) : Bool :=
  if op < 3 then t.isWide else if op < 6 then t.isBits else op < 9 && t.isFloat

/-- The types each atomic operation accepts (R245). -/
def atomOk (op : Nat) (t : Ty) : Bool :=
  if op < 3 then t.isWide else if op < 7 then t.isBits else (op == 8 || op == 9 || op == 10) && t.isFloat

/-- Base, index, scale and displacement of a memory operand (R36). -/
def MemOp.addrOk (m : MemOp) (lo hi : Int) : Bool :=
  m.base < 16 && m.index < 256 && m.scale < 4 && (m.index != 255 || m.scale == 0) && lo ≤ m.disp && m.disp ≤ hi
def MemOp.dispOk (m : MemOp) : Bool := m.addrOk (-4194304) 4194303
def MemOp.dispAtomOk (m : MemOp) : Bool := m.addrOk (-262144) 262143
/-- The scope field of loads and stores (R145). -/
def MemOp.scopeOk (m : MemOp) : Bool :=
  match m.order with
  | .plain => m.scope < 2
  | .acqRel | .strong => 1 ≤ m.scope && m.scope ≤ 6
/-- The scope field of scratchpad accesses (R242). -/
def MemOp.scopeLdsOk (m : MemOp) : Bool :=
  match m.order with
  | .plain => m.scope == 0
  | .acqRel | .strong => 1 ≤ m.scope && m.scope ≤ 6
/-- The types of `ld` and `st` (R138). -/
def ldOk (t : Ty) (m : MemOp) : Bool := t != .pred && isVT t m.data
/-- The register groups of `ldw` and `stw` (R138). -/
def ldwOk (t : Ty) (m : MemOp) : Bool :=
  match t with
  | .b32 => m.data < 256 && m.data % 4 == 0
  | .b64 => m.data < 256 && m.data % 8 == 0
  | _ => false
/-- The types of `ldk` and `stk` (R138). -/
def ldkOk (t : Ty) (m : MemOp) : Bool := (t.isInt || t == .b64) && isK m.data

/-- Order and scope of a tile instruction (R256, R145). -/
def tileOrdOk (o : Ord) (scope : Nat) : Bool :=
  match o with
  | .plain => scope < 2
  | .acqRel | .strong => 1 ≤ scope && scope ≤ 6

/-- The common fields of a copy command (R315); `bdAllowed` where the command has a D bit. -/
def CopyOpts.ok (o : CopyOpts) (bdAllowed : Bool) : Bool :=
  (match o.bar with | none => true | some k => k < 32) && o.tag < 8 &&
  (match o.bd with | none => true | some b => bdAllowed && b < 16)

/-- The special registers `swr` may name (R134). -/
def srWritable (n : Nat) : Bool := n == 6 || n == 7 || n == 8 || n == 10 || n == 11 || n == 12 || n == 13

/-- The word offset of a branch fits 38 bits (R38). -/
def offOk (o : Int) : Bool := -137438953472 ≤ o && o < 137438953472

def Option.isPred : Option Nat → Bool | none => true | some p => isP p

/-- The scalar operations a pair may hold (R29), by sop index; `true` for those whose kb may be an immediate (R100). -/
def pairScalar (sop : Nat) : Option Bool :=
  if sop < 11 then some true
  else if sop == 13 then some false
  else if sop == 14 then some true
  else if sop == 16 || sop == 17 || sop == 20 then some false
  else if sop == 21 then some true
  else if sop == 22 then some false
  else if sop == 23 then some true
  else if sop == 26 then some false
  else none

/-- The vector operations a pair may hold (R29), by opcode. -/
def pairVector (vop : Nat) : Bool :=
  (vop < 26 && vop != 4 && vop != 21 && vop != 22 && vop != 23) || (32 ≤ vop && vop < 48 && vop != 35) || (64 ≤ vop && vop < 68)

/-- The scalar half's registers are in range (R28), and `kmovi` has an immediate and ka = 0 (R100). -/
def PairFields.scalarOk (f : PairFields) : Bool :=
  match pairScalar f.sop with
  | none => false
  | some immOk =>
    (f.kimm == 0 || (f.kimm == 1 && immOk)) && f.kd < 32 && f.ka < 32 && f.kb < 32 &&
    (f.sop != 14 || (f.kimm == 1 && f.ka == 0)) &&
    (f.sop != 13 && f.sop != 16 && f.sop != 17 && f.sop != 20 && f.sop != 22 || f.kb == 0) &&
    (f.sop != 20 && f.sop != 21 && f.sop != 23 || f.kd < 16) &&
    (f.sop != 20 && f.sop != 22 && f.sop != 23 && f.sop != 26 || f.ka < 16) &&
    (f.sop != 26 || f.kb < 16)

/-- Every field of a P word fits its width (R28). -/
def PairFields.fit (f : PairFields) : Bool :=
  f.kimm < 2 && f.sop < 32 && f.kd < 32 && f.ka < 32 && f.kb < 32 && f.vop < 256 && f.vd < 256 && f.va < 256 &&
  f.vb < 256 && f.type < 16 && f.mod < 16

/-- Field checks of every instruction word (R45 checks 2 to 6), of everything but a pair's vector half (Decode.lean). Events
and commands have no word: `true`. -/
def wellFormed : Instr → Bool
  | .add t d a b | .sub t d a b | .mul t d a b | .min t d a b | .max t d a b =>
    t.isArith && isVT t d && isVT t a && b.ok (isVT t) t.is64
  | .mulhi t d a b | .div t d a b | .rem t d a b => t.isWide && isVT t d && isVT t a && b.ok (isVT t) t.is64
  | .mad t d a b c => t.isWide && isVT t d && isVT t a && isVT t b && isVT t c
  | .abs t d a => (t == .i16 || t == .i32 || t == .i64) && isVT t d && isVT t a
  | .and t d a b | .or t d a b | .xor t d a b | .andn t d a b => t.isBits && isVT t d && isVT t a && b.ok (isVT t) t.is64
  | .shl t d a b | .shr t d a b | .sar t d a b | .rotl t d a b => t.isBits && isVT t d && isVT t a && b.ok isV false
  | .clz t d a | .popc t d a => t.isBits && isV d && isVT t a
  | .brev t d a => t.isBits && isVT t d && isVT t a
  | .bfx t d a pos len => t.isWide && isVT t d && isVT t a && pos < 64 && 1 ≤ len && len ≤ 32
  | .bfi t d a b c => t.isBits && isVT t d && isVT t a && isVT t b && isV c
  | .sel t d a b p => t.isBits && isVT t d && isVT t a && isVT t b && isP p
  | .cmp t c d a b x => cmpOk t c && isP d && isVT t a && b.ok (isVT t) t.is64 && x.ok
  | .mov t d a neg => if t == .pred then isP d && isP a else t.isBits && isVT t d && isVT t a && !neg
  | .movi t d b =>
    (t.isWide || t.isBits || t.isFloat) && isVT t d &&
    (match b with
     | .reg _ => false
     | .imm n => n < 65536
     | .ext p => p < 2305843009213693952 && (t.is64 || fits32 p) && (t != .f16 && t != .bf16 || p / 65536 % 65536 == 0))
  | .fadd t d a b _ | .fsub t d a b _ | .fmul t d a b _ | .fdiv t d a b _ | .fmin t d a b _ | .fmax t d a b _ =>
    t.isFloat && isV d && isV a && b.ok isV false
  | .ffma t d a b c _ => t.isFloat && isV d && isV a && isV b && isV c
  | .frcp t d a _ | .fsqrt t d a _ | .frsq t d a | .fexp2 t d a | .flog2 t d a | .fsin t d a | .fcos t d a =>
    t.isFloat && isV d && isV a
  | .fcmp t _ d a b x => t.isFloat && isP d && isV a && b.ok isV false && x.ok
  | .fclass t d a => t.isFloat && isV d && isV a
  | .fclassAny t d a mask => t.isFloat && isP d && isV a && mask < 1024
  | .cvt dt sty d a rm =>
    (dt.isInt || dt.isFloat) && (sty.isInt || sty.isFloat) && isVT dt d && isVT sty a &&
    (!(dt.isInt && sty.isInt) || rm == .rne || rm == .rsat)
  | .fpack t d a vs slot sel count _ | .funpack t d a vs slot sel count _ =>
    t.isFloat && isV d && isV a && isV vs && slot < 16 && sel < 4 && count < 3
  | .fscale t d a b _ => t.isFloat && isV d && isV a && b.ok isV false
  | .fscaleStored t d a vs sel j _ _ => t.isFloat && isV d && isV a && vs + (sel + j) / 4 < 256 && sel < 4 && j < 8
  | .shfl mode d a b => mode < 4 && isV d && isV a && b.ok isV false
  | .voteAny d a | .voteAll d a => isP d && isP a
  | .voteBallot d a => isV d && isP a
  | .voteEq d a => isP d && isV a
  | .redux op t d a => reduxOk op t && isVT t d && isVT t a
  | .matchLanes t d a => t.isBits && isV d && isVT t a
  | .kadd d a b | .ksub d a b | .kmul d a b | .kand d a b | .kor d a b | .kxor d a b | .kshl d a b | .kshr d a b | .ksar d a b =>
    isK d && isK a && b.ok isK true
  | .kmin t d a b | .kmax t d a b => (t == .i64 || t == .z64) && isK d && isK a && b.ok isK true
  | .kcmp t c d a b => (t == .i64 || t == .z64) && cmpOk t c && isP d && isK a && b.ok isK true
  | .ksel d a b p => isK d && isK a && isK b && isP p
  | .kmov d a | .kpopc d a | .kclz d a => isK d && isK a
  | .kmovi d b => isK d && (match b with | .reg _ => false | .imm n => n < 65536 | .ext p => p < 2305843009213693952)
  | .kbfx t d a pos len => (t == .i64 || t == .z64) && isK d && isK a && pos < 64 && 1 ≤ len && len ≤ 32
  | .kbcast t d a => t.isBits && isVT t d && isK a
  | .kpick t d a b => (t == .i32 || t == .z32 || t == .b64) && isK d && isVT t a && b.ok isK true
  | .amov d a => isA d && isA a
  | .aset d a b => isA d && isK a && (match b with | .reg r => isK r | .imm n => n < 65536 | .ext _ => false)
  | .aget d a | .agetHi d a => isK d && isA a
  | .aadd d a b => isA d && isA a && b.ok isK true
  | .aaddv t d a b scale => (t == .i32 || t == .z32) && isA d && isA a && isV b && scale < 4
  | .acmp c d a b => cmpOk .i64 c && isP d && isA a && isA b
  | .adiff d a b => isK d && isA a && isA b
  | .aalignDn d a n | .aalignUp d a n => isA d && isA a && n < 80
  | .pairWord f => f.fit && f.scalarOk && pairVector f.vop
  | .pblk pred _ count pattern => isP pred && count < 8 && pattern < 2 ^ (count + 1)
  | .bra off | .call off => offOk off
  | .brc p _ off => isP p && offOk off
  | .brkNz k off | .brkZ k off => isK k && offOk off
  | .jmp a off | .callr a off => isA a && offOk off
  | .ret | .exit | .yield | .nop | .trapret | .trapretSkip => true
  | .regroup v g => isV v && g ≤ 32
  | .sleep n => n < 4294967296
  | .sleepReg k => isK k
  | .trap n | .brkpt n => n < 65536
  | .fence o _ scope => o < 4 && 1 ≤ scope && scope ≤ 6
  | .icinv a n scope => isA a && n < 1048576 && 2 ≤ scope && scope ≤ 5
  | .dcwb a n | .dcinv a n => isA a && n < 1048576
  | .srd form d sr => sr < 20 && (if form == 0 then isV d else if form == 1 then isVT .b64 d else if form == 2 then isK d else form == 3 && isA d)
  | .swr form a sr =>
    srWritable sr && (if form == 0 then isV a else if form == 1 then isVT .b64 a else if form == 2 then isK a else form == 3 && isA a)
  | .clock k | .clockTime k => isK k
  | .ld t m | .st t m => ldOk t m && m.dispOk && m.scopeOk
  | .ldw t m | .stw t m => ldwOk t m && m.dispOk && m.scopeOk
  | .ldk t m | .stk t m => ldkOk t m && m.dispOk && m.scopeOk
  | .lda m | .sta m => isA m.data && m.dispOk && m.scopeOk
  | .pf m => m.data < 2 && m.dispOk && m.order == .plain && m.scope == 0
  | .lds t m | .sts t m => ldOk t m && m.dispOk && m.scopeLdsOk
  | .ldsw t m | .stsw t m => ldwOk t m && m.dispOk && m.scopeLdsOk
  | .atom op t m => op < 7 && atomOk op t && isVT t m.data && m.dispAtomOk && m.scope < 7
  | .atomcas t m => t.isBits && (if t.is64 then m.data % 2 == 0 && m.data + 3 < 256 else m.data + 1 < 256) && m.dispAtomOk && m.scope < 7
  | .atomf op t m => 8 ≤ op && atomOk op t && isV m.data && m.dispAtomOk && m.scope < 7
  | .atomord op t m | .atoms op t m => atomOk op t && isVT t m.data && m.dispAtomOk && m.scope < 7
  | .red op t m => op != 6 && atomOk op t && isVT t m.data && m.dispAtomOk && m.scope < 7
  | .barw mask => 1 ≤ mask && mask ≤ 7
  | .tbarInit b n | .tbarExpect b n | .tbarWait b n => isK b && isK n
  | .tbarArrive b | .tbarArriveLanes b | .tbarInval b => isK b
  | .tbarTest d b p => isP d && isK b && isK p
  | .monArm d a => isK d && isA a
  | .monWait => true
  | .stgAcq d ring | .stgTake d ring => isK d && ring < 4
  | .stgCommit ring | .stgFree ring => ring < 4
  | .tdef t b s => t < 64 && isK b && isK s
  | .tfree t | .trot t | .trotRev t => t < 64
  | .tstate d t | .tver d t => isK d && t < 64
  | .tld t a o scope | .tst t a o scope => t < 64 && isA a && tileOrdOk o scope
  | .tstAon t a v | .tldv t a v => t < 64 && isA a && isA v
  | .tmap t a => t < 64 && isA a
  | .tunmap t o scope => t < 64 && tileOrdOk o scope
  | .cpG2t t a o => t < 64 && isA a && o.ok false
  | .cpT2g a t o => t < 64 && isA a && o.ok true
  | .cpG2g d s n o => isA d && isA s && isK n && o.ok false
  | .cpGather e t a v scale k o => e < 10 && t < 64 && isA a && isV v && scale < 4 && isK k && o.ok false
  | .cpScatter e a v scale t k o => e < 10 && t < 64 && isA a && isV v && scale < 4 && isK k && o.ok true
  | .cpFill a v n o => isA a && isK v && isK n && o.ok false
  | .cpFillTile t v o => t < 64 && isK v && o.ok false
  | .cpT2t d s g o => d < 64 && s < 64 && isK g && o.ok false
  | .cpT2tReg s g w o => s < 64 && isK g && isK w && o.ok false
  | .cpMcast d s g m o => d < 64 && s < 64 && isK g && isK m && o.ok false
  | .cpStamp a v mask _ => isA a && isK v && mask < 256
  | .lzOpen d z b c h => isK d && z < 8 && isK b && isK c && isA h
  | .lzClose z => z < 8
  | .lzStatus d z sel => isK d && z < 8 && sel < 5
  | .lzReserve d z | .lzReserveWait d z => isK d && isK z
  | .lzSend z s t w path | .lzSendAny z s t w path => isK z && isK s && t < 64 && isA w && path < 4
  | .lzAbort d z s => isK d && isK z && isK s
  | .lzWait z p | .lzAck z p | .lzClean z p => z < 8 && isK p
  | .chBindW q c m | .chBindR q c m => q < 8 && isK c && (match m with | none => true | some v => isV v)
  | .chUnbind q | .chClose q => q < 8
  | .chSend q v => q < 8 && isV v
  | .chRecv q v p => q < 8 && isV v && Option.isPred p
  | .chTryRecv q v p | .chTrySend q v p => q < 8 && isV v && isP p
  | .chSendt q t => q < 8 && t < 64
  | .chRecvt q t p => q < 8 && t < 64 && Option.isPred p
  | .chStat d q sel => isK d && q < 8 && sel < 12
  | .chStatNum d c sel => isK d && isK c && sel < 12
  | .mbLoad mac t slot => mac < 4 && t < 64 && slot < 16
  | .mbFree mac => mac < 4
  | .mmaQ acc mac slot v vs sel _ => acc < 16 && mac < 4 && slot < 16 && isV v && isV vs && sel < 4
  | .mmaT acc mac slot t _ => acc < 16 && mac < 4 && slot < 16 && t < 64
  | .mfence | .mwaitAll => true
  | .mwait acc | .accZero acc => acc < 16
  | .accRd count v acc k | .accWr count acc v k => count < 4 && isV v && acc < 16 && isK k
  | .accDrain t acc ps tv k _ => t < 64 && acc < 16 && ps < 8 && (match tv with | none => true | some v => v < 64) && isK k
  | .epiLoad ps t => ps < 8 && t < 64
  | .mstat d | .mstatClr d => isK d
  | .fsQuery d slot sel => isK d && slot < 16 && sel < 7
  | .fsLoad d slot a => isK d && slot < 16 && isA a
  | .fsFence slot | .fsFenceDev slot | .fsPin slot | .fsUnpin slot => slot < 16
  | .bdSet bd pol type lo hi => bd < 16 && 1 ≤ pol && pol < 4 && type < 5 && isK lo && isK hi
  | .bdClr bd => bd < 16
  | .bdStat d bd sel | .bdStatClr d bd sel => isK d && bd < 16 && sel < 4
  | .spawn d a | .join d a => isK d && isA a
  | .grow d k => isK d && isK k
  | .gwSignal k a => isK k && isA a
  | .wid form d sel => sel < 7 && (if form == 0 then isV d else form == 1 && isVT .b64 d)
  | .widFrame d => isA d
  | .eLd d v => d < 8 && v < 256
  | .eSt a o n => a < 8 && o < 256 && 1 ≤ n && n ≤ 128
  | .eAdd d a b | .eSub d a b | .eMul d a b | .eMax d a b | .eMin d a b => d < 8 && a < 8 && b < 8
  | .eFma d a b c | .eSel d a b c => d < 8 && a < 8 && b < 8 && c < 8
  | .eAbs d a | .eExp2 d a | .eRcp d a | .eRsq d a | .eTanh d a => d < 8 && a < 8
  | .eCmp d a b cond => d < 8 && a < 8 && b < 8 && cond < 8
  | .eBias d a v => d < 8 && a < 8 && v < 256
  | .eScale d a t => d < 8 && a < 8 && -256 ≤ t && t < 256
  | .eCvt d a slot rm => d < 8 && a < 8 && slot < 16 && rm < 8
  | .eBound d a bd => d < 8 && a < 8 && bd < 16
  | .eEnd => true
  | .streakRescue .. | .sleepWake .. | .loadReturn .. | .regroupRebuildDone .. | .trotComplete .. | .tileFillComplete ..
  | .tileDrainComplete .. | .versionWordRetry .. | .copyCommandStart .. | .copyCommandComplete .. | .t2tTargetWrite .. | .cpStampStore ..
  | .monitorWake .. | .monitorTimeout .. | .mbLoadRun .. | .mbFreeEffect .. | .passStart .. | .passComplete ..
  | .macroIdlePowerOff .. | .tokenBurstEnd .. | .tokenHoldTimeout .. | .tokenArrive .. | .drainStart .. | .drainComplete ..
  | .epiStoreWrite .. | .l1WritebackTimeout .. | .storeBufferAgeOverflow .. | .blockedSendProceed .. | .blockedRecvProceed .. | .channelRefill ..
  | .stalemateScan .. | .faultQueueRetry .. | .faultService .. | .faultReplay .. | .fetchFaultSwapOut .. | .preemptPriorityTimeout ..
  | .workgroupResume .. | .globalDispatch .. | .digestMismatchRetry .. | .launchComplete .. | .launchPlaceRetry .. | .gwLaunchNode ..
  | .gwConditionalNode .. | .gwWhileNode .. | .gwJoinNode .. | .gwWaitStampNode .. | .gwSignalHostNode .. | .gwEndNode ..
  | .loaderRequest .. | .formatInstall .. | .coreFunctionChange .. | .serialPhaseApply .. | .coreFence .. | .migrationWindow ..
  | .migSettle .. | .invalidationBroadcast .. | .invalidationComplete .. | .powerSample .. | .timeSync .. | .flitReceive ..
  | .portDown .. | .portUp .. | .remoteAccessRequest .. | .gangDigest .. | .gangDeadline .. | .gangStart ..
  | .lzReservationArrive .. | .lzAbortArrive .. | .lzPayloadFlit .. | .lzStatusStore .. | .channelFlitArrive .. | .channelCreditReturn ..
  | .cqtailDoorbell .. | .cpheadWrite .. | .registerWrite .. | .graphRun .. | .formatRecordLoad .. | .channelCreate ..
  | .channelReopen .. | .channelDestroy .. | .keyEnrol .. | .keyRemove .. | .slotAttestation .. | .deviceAttestation ..
  | .readCounters .. | .invalidate .. | .translate .. | .translateDelayedComplete .. | .setEntries .. | .setWeight ..
  | .setFrames .. | .setQueues .. | .joinDomain .. | .setRoute .. | .setLimit .. | .setIdle ..
  | .preEmpt .. | .assign .. | .reset .. | .healthTestComplete .. | .fusedMinimumRaise .. | .deviceReset ..
  | .lzReservationReply .. => true

/-- A register span for a value of type `t` (R9). -/
def Ty.span (t : Ty) (r : Nat) : Nat × Nat := (r, if t.is64 then 2 else 1)
/-- The span of operand b. -/
def Src.span (n : Nat) : Src → List (Nat × Nat)
  | .reg r => [(r, n)]
  | .imm _ | .ext _ => []
/-- The index register of a memory operand (R36). -/
def MemOp.span (m : MemOp) : List (Nat × Nat) := if m.index = 255 then [] else [(m.index, 1)]
/-- Registers of one value of type `t`. -/
def Ty.regs (t : Ty) : Nat := if t.is64 then 2 else 1

/-- The v registers an instruction names, as (first, count): each must lie below the thread's allocation (R9, R45 check 5).
Spans that only issue can know (R117, R277, R325 check 3) are checked by the meanings. A pair's vector half is not here
(Decode.lean adds it). -/
def vspans : Instr → List (Nat × Nat)
  | .add t d a b | .sub t d a b | .mul t d a b | .mulhi t d a b | .div t d a b | .rem t d a b | .min t d a b | .max t d a b
  | .and t d a b | .or t d a b | .xor t d a b | .andn t d a b => t.span d :: t.span a :: b.span t.regs
  | .mad t d a b c => [t.span d, t.span a, t.span b, t.span c]
  | .abs t d a | .brev t d a | .bfx t d a _ _ => [t.span d, t.span a]
  | .shl t d a b | .shr t d a b | .sar t d a b | .rotl t d a b => t.span d :: t.span a :: b.span 1
  | .clz t d a | .popc t d a => [(d, 1), t.span a]
  | .bfi t d a b c => [t.span d, t.span a, t.span b, (c, 1)]
  | .sel t d a b _ => [t.span d, t.span a, t.span b]
  | .cmp t _ _ a b _ => t.span a :: b.span t.regs
  | .mov t d a _ => if t = .pred then [] else [t.span d, t.span a]
  | .movi t d _ => [t.span d]
  | .fadd _ d a b _ | .fsub _ d a b _ | .fmul _ d a b _ | .fdiv _ d a b _ | .fmin _ d a b _ | .fmax _ d a b _
  | .fscale _ d a b _ => (d, 1) :: (a, 1) :: b.span 1
  | .ffma _ d a b c _ => [(d, 1), (a, 1), (b, 1), (c, 1)]
  | .frcp _ d a _ | .fsqrt _ d a _ | .frsq _ d a | .fexp2 _ d a | .flog2 _ d a | .fsin _ d a | .fcos _ d a
  | .fclass _ d a => [(d, 1), (a, 1)]
  | .fcmp _ _ _ a b _ => (a, 1) :: b.span 1
  | .fclassAny _ _ a _ => [(a, 1)]
  | .cvt dt sty d a _ => [dt.span d, sty.span a]
  | .fpack _ d a _ _ _ _ _ | .funpack _ d a _ _ _ _ _ => [(d, 1), (a, 1)]
  | .fscaleStored _ d a vs sel j _ _ => [(d, 1), (a, 1), (vs + (sel + j) / 4, 1)]
  | .shfl _ d a b => (d, 1) :: (a, 1) :: b.span 1
  | .voteAny .. | .voteAll .. => []
  | .voteBallot d _ => [(d, 1)]
  | .voteEq _ a => [(a, 1)]
  | .redux _ t d a => [t.span d, t.span a]
  | .matchLanes t d a => [(d, 1), t.span a]
  | .kadd .. | .ksub .. | .kmul .. | .kand .. | .kor .. | .kxor .. | .kshl .. | .kshr .. | .ksar .. | .kmin .. | .kmax ..
  | .kcmp .. | .ksel .. | .kmov .. | .kmovi .. | .kbfx .. | .kpopc .. | .kclz .. => []
  | .kbcast t d _ => [t.span d]
  | .kpick t _ a _ => [t.span a]
  | .amov .. | .aset .. | .aget .. | .agetHi .. | .aadd .. | .acmp .. | .adiff .. | .aalignDn .. | .aalignUp .. => []
  | .aaddv _ _ _ b _ => [(b, 1)]
  | .pairWord _ => []
  | .pblk .. | .bra .. | .brc .. | .brkNz .. | .brkZ .. | .jmp .. | .call .. | .callr .. | .ret | .exit => []
  | .regroup v g => [(v, 1), (0, 8 * g)]
  | .yield | .nop | .sleep .. | .sleepReg .. | .trap .. | .brkpt .. | .fence .. | .icinv .. | .dcwb .. | .dcinv .. => []
  | .srd form d _ => if form = 0 then [(d, 1)] else if form = 1 then [(d, 2)] else []
  | .swr form a _ => if form = 0 then [(a, 1)] else if form = 1 then [(a, 2)] else []
  | .trapret | .trapretSkip | .clock .. | .clockTime .. => []
  | .ld t m | .st t m | .lds t m | .sts t m => t.span m.data :: m.span
  | .ldw t m | .stw t m | .ldsw t m | .stsw t m => (m.data, if t.is64 then 8 else 4) :: m.span
  | .ldk _ m | .stk _ m => m.span
  | .lda m | .sta m | .pf m => m.span
  | .atom _ t m | .atomf _ t m | .atomord _ t m | .red _ t m | .atoms _ t m => t.span m.data :: m.span
  | .atomcas t m => (m.data, 2 * t.regs) :: m.span
  | .barw .. | .tbarInit .. | .tbarArrive .. | .tbarArriveLanes .. | .tbarExpect .. | .tbarWait .. | .tbarTest ..
  | .tbarInval .. | .monArm .. | .monWait | .stgAcq .. | .stgCommit .. | .stgTake .. | .stgFree .. => []
  | .tdef .. | .tfree .. | .tstate .. | .tver .. | .tld .. | .tst .. | .tstAon .. | .tldv .. | .trot .. | .trotRev ..
  | .tmap .. | .tunmap .. => []
  | .cpG2t .. | .cpT2g .. | .cpG2g .. => []
  | .cpGather _ _ _ v _ _ _ | .cpScatter _ _ v _ _ _ _ => [(v, 1)]
  | .cpFill .. | .cpFillTile .. | .cpT2t .. | .cpT2tReg .. | .cpMcast .. | .cpStamp .. => []
  | .lzOpen .. | .lzClose .. | .lzStatus .. | .lzReserve .. | .lzReserveWait .. | .lzSend .. | .lzSendAny .. | .lzAbort ..
  | .lzWait .. | .lzAck .. | .lzClean .. => []
  | .chBindW _ _ m | .chBindR _ _ m => match m with | none => [] | some v => [(v, 1)]
  | .chUnbind .. | .chClose .. | .chSendt .. | .chRecvt .. | .chStat .. | .chStatNum .. => []
  | .chSend _ v | .chRecv _ v _ | .chTryRecv _ v _ | .chTrySend _ v _ => [(v, 1)]
  | .mbLoad .. | .mbFree .. | .mmaT .. | .mfence | .mwait .. | .mwaitAll | .accZero .. | .accDrain .. | .epiLoad ..
  | .mstat .. | .mstatClr .. => []
  | .mmaQ _ _ _ v _ _ _ => [(v, 1)]
  | .accRd _ v _ _ | .accWr _ _ v _ => [(v, 1)]
  | .fsQuery .. | .fsLoad .. | .fsFence .. | .fsFenceDev .. | .fsPin .. | .fsUnpin .. | .bdSet .. | .bdClr .. | .bdStat ..
  | .bdStatClr .. | .spawn .. | .join .. | .grow .. | .gwSignal .. => []
  | .wid form d _ => [(d, if form = 0 then 1 else 2)]
  | .widFrame _ => []
  | .eLd .. | .eSt .. | .eAdd .. | .eSub .. | .eMul .. | .eFma .. | .eMax .. | .eMin .. | .eAbs .. | .eExp2 ..
  | .eRcp .. | .eRsq .. | .eTanh .. | .eSel .. | .eCmp .. | .eBias .. | .eScale .. | .eCvt .. | .eBound .. | .eEnd
  | .streakRescue .. | .sleepWake .. | .loadReturn .. | .regroupRebuildDone .. | .trotComplete .. | .tileFillComplete ..
  | .tileDrainComplete .. | .versionWordRetry .. | .copyCommandStart .. | .copyCommandComplete .. | .t2tTargetWrite .. | .cpStampStore ..
  | .monitorWake .. | .monitorTimeout .. | .mbLoadRun .. | .mbFreeEffect .. | .passStart .. | .passComplete ..
  | .macroIdlePowerOff .. | .tokenBurstEnd .. | .tokenHoldTimeout .. | .tokenArrive .. | .drainStart .. | .drainComplete ..
  | .epiStoreWrite .. | .l1WritebackTimeout .. | .storeBufferAgeOverflow .. | .blockedSendProceed .. | .blockedRecvProceed .. | .channelRefill ..
  | .stalemateScan .. | .faultQueueRetry .. | .faultService .. | .faultReplay .. | .fetchFaultSwapOut .. | .preemptPriorityTimeout ..
  | .workgroupResume .. | .globalDispatch .. | .digestMismatchRetry .. | .launchComplete .. | .launchPlaceRetry .. | .gwLaunchNode ..
  | .gwConditionalNode .. | .gwWhileNode .. | .gwJoinNode .. | .gwWaitStampNode .. | .gwSignalHostNode .. | .gwEndNode ..
  | .loaderRequest .. | .formatInstall .. | .coreFunctionChange .. | .serialPhaseApply .. | .coreFence .. | .migrationWindow ..
  | .migSettle .. | .invalidationBroadcast .. | .invalidationComplete .. | .powerSample .. | .timeSync .. | .flitReceive ..
  | .portDown .. | .portUp .. | .remoteAccessRequest .. | .gangDigest .. | .gangDeadline .. | .gangStart ..
  | .lzReservationArrive .. | .lzAbortArrive .. | .lzPayloadFlit .. | .lzStatusStore .. | .channelFlitArrive .. | .channelCreditReturn ..
  | .cqtailDoorbell .. | .cpheadWrite .. | .registerWrite .. | .graphRun .. | .formatRecordLoad .. | .channelCreate ..
  | .channelReopen .. | .channelDestroy .. | .keyEnrol .. | .keyRemove .. | .slotAttestation .. | .deviceAttestation ..
  | .readCounters .. | .invalidate .. | .translate .. | .translateDelayedComplete .. | .setEntries .. | .setWeight ..
  | .setFrames .. | .setQueues .. | .joinDomain .. | .setRoute .. | .setLimit .. | .setIdle ..
  | .preEmpt .. | .assign .. | .reset .. | .healthTestComplete .. | .fusedMinimumRaise .. | .deviceReset ..
  | .lzReservationReply .. => []

end Sys2Proof
end

