-- ==== Sys2Proof/Decode.lean ====
section
/-! DEFINITION. The decoder and the encoder, both written from the encoding tables of the spec. A word is cut into the fields
of its class (R24, R28, R31, R36 to R38, R44); the fields give a candidate instruction; the candidate is accepted when it is
legal (WellFormed.lean) and when encoding it gives the word back, which is the one check of every must-be-zero field (R23).
Words are numbers; bit 0 is the least significant. Bytes are little-endian (R22). -/
namespace Sys2Proof

/-! ## Fields -/

/-- Bits `lo + n - 1 : lo` of `w`. -/
def field (w lo n : Nat) : Nat := w / 2 ^ lo % 2 ^ n
/-- Values of the given widths, the first in the least significant bits. -/
def pack : List (Nat × Nat) → Nat
  | [] => 0
  | (n, v) :: rest => v + 2 ^ n * pack rest
/-- A signed value in an `n`-bit field. -/
def toField (n : Nat) (i : Int) : Nat := (i % (2 ^ n : Nat)).toNat
/-- The signed value of an `n`-bit field. -/
def ofField (n v : Nat) : Int := if v < 2 ^ (n - 1) then (v : Int) else (v : Int) - (2 ^ n : Nat)
/-- One bit. -/
def bit (b : Bool) : Nat := if b then 1 else 0

/-- Type codes of R39. -/
def Ty.code : Ty → Nat
  | .i8 => 0 | .i16 => 1 | .i32 => 2 | .i64 => 3 | .z8 => 4 | .z16 => 5 | .z32 => 6 | .z64 => 7
  | .f16 => 8 | .bf16 => 9 | .f32 => 10 | .b32 => 12 | .b64 => 13 | .pred => 14
def Ty.ofCode : Nat → Option Ty
  | 0 => some .i8 | 1 => some .i16 | 2 => some .i32 | 3 => some .i64 | 4 => some .z8 | 5 => some .z16 | 6 => some .z32
  | 7 => some .z64 | 8 => some .f16 | 9 => some .bf16 | 10 => some .f32 | 12 => some .b32 | 13 => some .b64
  | 14 => some .pred | _ => none
/-- Rounding codes of R40. -/
def Rm.code : Rm → Nat | .rne => 0 | .rtz => 1 | .rup => 2 | .rdn => 3 | .rst => 4 | .rsat => 5
def Rm.ofCode : Nat → Option Rm
  | 0 => some .rne | 1 => some .rtz | 2 => some .rup | 3 => some .rdn | 4 => some .rst | 5 => some .rsat | _ => none
/-- Condition codes of R88 and R111. -/
def Cmp.code : Cmp → Nat | .eq => 0 | .ne => 1 | .lt => 2 | .le => 3 | .gt => 4 | .ge => 5 | .un => 6 | .ord => 7
def Cmp.ofCode : Nat → Option Cmp
  | 0 => some .eq | 1 => some .ne | 2 => some .lt | 3 => some .le | 4 => some .gt | 5 => some .ge | 6 => some .un
  | 7 => some .ord | _ => none
/-- Order codes of R41. -/
def Ord.code : Ord → Nat | .plain => 0 | .acqRel => 1 | .strong => 2
def Ord.ofCode : Nat → Option Ord | 0 => some .plain | 1 => some .acqRel | 2 => some .strong | _ => none
/-- x[4:0] of `cmp` and `fcmp` (R88). -/
def Comb.code : Comb → Nat | .plain => 0 | .both p => 1 + 4 * p | .either p => 2 + 4 * p
def Comb.ofCode (x : Nat) : Option Comb :=
  if x % 4 = 0 then some .plain else if x % 4 = 1 then some (.both (x / 4)) else if x % 4 = 2 then some (.either (x / 4)) else none

/-! ## The words -/

/-- The S form (R24). -/
structure SWord where
  op : Nat
  d : Nat
  a : Nat
  b : Nat
  c : Nat
  type : Nat
  mod : Nat
  i : Nat
  x : Nat
  deriving DecidableEq, Repr
/-- The M form (R36). -/
structure MWord where
  op : Nat
  base : Nat
  data : Nat
  index : Nat
  scale : Nat
  type : Nat
  order : Nat
  scope : Nat
  disp : Nat
  deriving DecidableEq, Repr
/-- The E form (R37). -/
structure EWord where
  op : Nat
  h1 : Nat := 0
  h2 : Nat := 0
  h3 : Nat := 0
  s1 : Nat := 0
  s2 : Nat := 0
  r1 : Nat := 0
  r2 : Nat := 0
  mod : Nat := 0
  deriving DecidableEq, Repr
/-- The C form (R38). -/
structure CWord where
  op : Nat
  a : Nat := 0
  b : Nat := 0
  off : Nat := 0
  deriving DecidableEq, Repr
/-- The B form (R31). -/
structure BWord where
  count : Nat
  pattern : Nat
  pred : Nat
  inv : Nat
  deriving DecidableEq, Repr
/-- The epilogue word (R44). -/
structure EpWord where
  op : Nat
  ed : Nat := 0
  ea : Nat := 0
  eb : Nat := 0
  ec : Nat := 0
  f : Nat := 0
  deriving DecidableEq, Repr

def SWord.toNat (w : SWord) : Nat :=
  pack [(11, w.x), (1, w.i), (4, w.mod), (4, w.type), (8, w.c), (8, w.b), (8, w.a), (8, w.d), (9, w.op), (3, 0)]
def SWord.ofNat (w : Nat) : SWord :=
  { op := field w 52 9, d := field w 44 8, a := field w 36 8, b := field w 28 8, c := field w 20 8, type := field w 16 4,
    mod := field w 12 4, i := field w 11 1, x := field w 0 11 }
def MWord.toNat (w : MWord) : Nat :=
  pack [(23, w.disp), (3, w.scope), (2, w.order), (4, w.type), (2, w.scale), (7, w.index % 128), (1, w.index / 128),
    (8, w.data), (4, w.base), (7, w.op), (3, 4)]
def MWord.ofNat (w : Nat) : MWord :=
  { op := field w 54 7, base := field w 50 4, data := field w 42 8, index := field w 34 8, scale := field w 32 2,
    type := field w 28 4, order := field w 26 2, scope := field w 23 3, disp := field w 0 23 }
def EWord.toNat (w : EWord) : Nat :=
  pack [(12, w.mod), (8, w.r2), (8, w.r1), (4, w.s2), (4, w.s1), (6, w.h3), (6, w.h2), (6, w.h1), (7, w.op), (3, 5)]
def EWord.ofNat (w : Nat) : EWord :=
  { op := field w 54 7, h1 := field w 48 6, h2 := field w 42 6, h3 := field w 36 6, s1 := field w 32 4, s2 := field w 28 4,
    r1 := field w 20 8, r2 := field w 12 8, mod := field w 0 12 }
def CWord.toNat (w : CWord) : Nat := pack [(38, w.off), (8, w.b), (8, w.a), (7, w.op), (3, 6)]
def CWord.ofNat (w : Nat) : CWord := { op := field w 54 7, a := field w 46 8, b := field w 38 8, off := field w 0 38 }
def BWord.toNat (w : BWord) : Nat := pack [(46, 0), (1, w.inv), (3, w.pred), (8, w.pattern), (3, w.count), (3, 2)]
def BWord.ofNat (w : Nat) : BWord :=
  { count := field w 58 3, pattern := field w 50 8, pred := field w 47 3, inv := field w 46 1 }
def EpWord.toNat (w : EpWord) : Nat := pack [(15, w.f), (3, w.ec), (3, w.eb), (3, w.ea), (3, w.ed), (5, w.op)]
def EpWord.ofNat (w : Nat) : EpWord :=
  { op := field w 27 5, ed := field w 24 3, ea := field w 21 3, eb := field w 18 3, ec := field w 15 3, f := field w 0 15 }
def pairToNat (f : PairFields) : Nat :=
  pack [(4, f.mod), (4, f.type), (8, f.vb), (8, f.va), (8, f.vd), (8, f.vop), (5, f.kb), (5, f.ka), (5, f.kd), (5, f.sop),
    (1, f.kimm), (3, 1)]
def pairOfNat (w : Nat) : PairFields :=
  { kimm := field w 60 1, sop := field w 55 5, kd := field w 50 5, ka := field w 45 5, kb := field w 40 5, vop := field w 32 8,
    vd := field w 24 8, va := field w 16 8, vb := field w 8 8, type := field w 4 4, mod := field w 0 4 }

/-- The fields an instruction is written into. -/
inductive Enc where
  | s (w : SWord) (ext : Option Nat)
  | p (f : PairFields)
  | b (w : BWord)
  | m (w : MWord)
  | e (w : EWord)
  | c (w : CWord)
  | ep (w : EpWord)
  deriving DecidableEq, Repr

/-! ## The encoder -/

/-- An S word whose b is a register. -/
def sReg (op : Nat) (t d a b c mod x : Nat) : Enc := .s { op, d, a, b, c, type := t, mod, i := 0, x } none
/-- An S word whose b may be an immediate (R25). -/
def sSrc (op : Nat) (t d a : Nat) (b : Src) (mod x : Nat) : Enc :=
  match b with
  | .reg r => .s { op, d, a, b := r, c := 0, type := t, mod, i := 0, x } none
  | .imm n => .s { op, d, a, b := n / 256, c := n % 256, type := t, mod, i := 1, x } none
  | .ext p => .s { op, d, a, b := 0, c := 0, type := t, mod, i := 1, x := 1024 + x } (some p)
/-- An M word of a load or store. -/
def mEnc (op t : Nat) (m : MemOp) : Enc :=
  .m { op, base := m.base, data := m.data, index := m.index, scale := m.scale, type := t, order := m.order.code, scope := m.scope,
       disp := toField 23 m.disp }
/-- An M word of group I: the operation in disp[22:19] (R245). -/
def aEnc (op aop t : Nat) (m : MemOp) : Enc :=
  .m { op, base := m.base, data := m.data, index := m.index, scale := m.scale, type := t, order := m.order.code, scope := m.scope,
       disp := toField 19 m.disp + 524288 * aop }
/-- The mod field every copy command shares (R315). -/
def CopyOpts.modBits (o : CopyOpts) : Nat := bit o.bar.isSome + 2 * o.tag + 16 * bit o.bd.isSome
/-- An E word of a copy command. -/
def cpEnc (op h1 h2 r1 r2 : Nat) (o : CopyOpts) (extra : Nat) : Enc :=
  .e { op, h1, h2, h3 := o.bar.getD 0, s1 := o.bd.getD 0, r1, r2, mod := o.modBits + extra }

/-- The fields of an instruction, from the tables of R43, R81, R92, R96, R103, R122, R136, R178, R183, R185, R241, R246,
R251, R256, R276, R310, R313 to R316, R324, R339, R355, R381 and R434. Events and commands have none. -/
def encFields (i : Instr) : Option Enc :=
  match i with
  | .add t d a b => some (sSrc 0 t.code d a b 0 0)
  | .sub t d a b => some (sSrc 1 t.code d a b 0 0)
  | .mul t d a b => some (sSrc 2 t.code d a b 0 0)
  | .mulhi t d a b => some (sSrc 3 t.code d a b 0 0)
  | .mad t d a b c => some (sReg 4 t.code d a b c 0 0)
  | .div t d a b => some (sSrc 5 t.code d a b 0 0)
  | .rem t d a b => some (sSrc 6 t.code d a b 0 0)
  | .abs t d a => some (sReg 7 t.code d a 0 0 0 0)
  | .min t d a b => some (sSrc 8 t.code d a b 0 0)
  | .max t d a b => some (sSrc 9 t.code d a b 0 0)
  | .and t d a b => some (sSrc 10 t.code d a b 0 0)
  | .or t d a b => some (sSrc 11 t.code d a b 0 0)
  | .xor t d a b => some (sSrc 12 t.code d a b 0 0)
  | .andn t d a b => some (sSrc 13 t.code d a b 0 0)
  | .shl t d a b => some (sSrc 14 t.code d a b 0 0)
  | .shr t d a b => some (sSrc 15 t.code d a b 0 0)
  | .sar t d a b => some (sSrc 16 t.code d a b 0 0)
  | .rotl t d a b => some (sSrc 17 t.code d a b 0 0)
  | .clz t d a => some (sReg 18 t.code d a 0 0 0 0)
  | .popc t d a => some (sReg 19 t.code d a 0 0 0 0)
  | .brev t d a => some (sReg 20 t.code d a 0 0 0 0)
  | .bfx t d a pos len => some (sReg 21 t.code d a 0 0 0 (pos + 64 * (len - 1)))
  | .bfi t d a b c => some (sReg 22 t.code d a b c 0 0)
  | .sel t d a b c => some (sReg 23 t.code d a b c 0 0)
  | .cmp t c d a b x => some (sSrc 24 t.code d a b c.code x.code)
  | .mov t d a neg => some (sReg 25 t.code d a 0 0 (bit neg) 0)
  | .movi t d b => some (sSrc 26 t.code d 0 b 0 0)
  | .fadd t d a b rm => some (sSrc 32 t.code d a b rm.code 0)
  | .fsub t d a b rm => some (sSrc 33 t.code d a b rm.code 0)
  | .fmul t d a b rm => some (sSrc 34 t.code d a b rm.code 0)
  | .ffma t d a b c rm => some (sReg 35 t.code d a b c rm.code 0)
  | .fmin t d a b nan => some (sSrc 36 t.code d a b (bit nan) 0)
  | .fmax t d a b nan => some (sSrc 37 t.code d a b (bit nan) 0)
  | .fdiv t d a b rm => some (sSrc 38 t.code d a b rm.code 0)
  | .frcp t d a rm => some (sReg 39 t.code d a 0 0 rm.code 0)
  | .frsq t d a => some (sReg 40 t.code d a 0 0 0 0)
  | .fsqrt t d a rm => some (sReg 41 t.code d a 0 0 rm.code 0)
  | .fexp2 t d a => some (sReg 42 t.code d a 0 0 0 0)
  | .flog2 t d a => some (sReg 43 t.code d a 0 0 0 0)
  | .fsin t d a => some (sReg 44 t.code d a 0 0 0 0)
  | .fcos t d a => some (sReg 45 t.code d a 0 0 0 0)
  | .fcmp t c d a b x => some (sSrc 46 t.code d a b c.code x.code)
  | .fclass t d a => some (sReg 47 t.code d a 0 0 0 0)
  | .fclassAny t d a mask => some (sReg 47 t.code d a 0 0 1 mask)
  | .cvt dt sty d a rm => some (sReg 48 dt.code d a 0 0 rm.code sty.code)
  | .fpack t d a vs slot sel count rm => some (sReg 49 t.code d a vs 0 rm.code (slot + 16 * sel + 64 * count))
  | .funpack t d a vs slot sel count rm => some (sReg 50 t.code d a vs 0 rm.code (slot + 16 * sel + 64 * count))
  | .fscale t d a b rm => some (sSrc 51 t.code d a b rm.code 0)
  | .fscaleStored t d a vs sel j inv rm => some (sReg 51 t.code d a vs 0 rm.code (8 * bit inv + 16 * sel + 64 * j + 512))
  | .shfl mode d a b => some (sSrc 64 12 d a b mode 0)
  | .voteAny d a => some (sReg 65 14 d a 0 0 0 0)
  | .voteAll d a => some (sReg 65 14 d a 0 0 1 0)
  | .voteBallot d a => some (sReg 65 12 d a 0 0 2 0)
  | .voteEq d a => some (sReg 65 12 d a 0 0 3 0)
  | .redux op t d a => some (sReg 66 t.code d a 0 0 op 0)
  | .matchLanes t d a => some (sReg 67 t.code d a 0 0 0 0)
  | .kadd d a b => some (sSrc 96 3 d a b 0 0)
  | .ksub d a b => some (sSrc 97 3 d a b 0 0)
  | .kmul d a b => some (sSrc 98 3 d a b 0 0)
  | .kand d a b => some (sSrc 99 3 d a b 0 0)
  | .kor d a b => some (sSrc 100 3 d a b 0 0)
  | .kxor d a b => some (sSrc 101 3 d a b 0 0)
  | .kshl d a b => some (sSrc 102 3 d a b 0 0)
  | .kshr d a b => some (sSrc 103 3 d a b 0 0)
  | .ksar d a b => some (sSrc 104 3 d a b 0 0)
  | .kmin t d a b => some (sSrc 105 t.code d a b 0 0)
  | .kmax t d a b => some (sSrc 106 t.code d a b 0 0)
  | .kcmp t c d a b => some (sSrc 107 t.code d a b c.code 0)
  | .ksel d a b p => some (sReg 108 3 d a b p 0 0)
  | .kmov d a => some (sReg 109 3 d a 0 0 0 0)
  | .kmovi d b => some (sSrc 110 3 d 0 b 0 0)
  | .kbfx t d a pos len => some (sReg 111 t.code d a 0 0 0 (pos + 64 * (len - 1)))
  | .kpopc d a => some (sReg 112 3 d a 0 0 0 0)
  | .kclz d a => some (sReg 113 3 d a 0 0 0 0)
  | .kbcast t d a => some (sReg 114 t.code d a 0 0 0 0)
  | .kpick t d a b => some (sSrc 115 t.code d a b 0 0)
  | .amov d a => some (sReg 128 0 d a 0 0 0 0)
  | .aset d a b => some (sSrc 129 0 d a b 0 0)
  | .aget d a => some (sReg 130 0 d a 0 0 0 0)
  | .agetHi d a => some (sReg 130 0 d a 0 0 1 0)
  | .aadd d a b => some (sSrc 131 0 d a b 0 0)
  | .aaddv t d a b scale => some (sReg 132 t.code d a b 0 scale 0)
  | .acmp c d a b => some (sReg 133 0 d a b 0 c.code 0)
  | .adiff d a b => some (sReg 134 0 d a b 0 0 0)
  | .aalignDn d a n => some (sReg 135 0 d a 0 0 0 n)
  | .aalignUp d a n => some (sReg 135 0 d a 0 0 1 n)
  | .pairWord f => some (.p f)
  | .pblk pred inv count pattern => some (.b { count, pattern, pred, inv := bit inv })
  | .bra off => some (.c { op := 0, off := toField 38 off })
  | .brc p inv off => some (.c { op := 1, a := p + 8 * bit inv, off := toField 38 off })
  | .brkNz k off => some (.c { op := 2, a := k, off := toField 38 off })
  | .brkZ k off => some (.c { op := 2, a := k, b := 1, off := toField 38 off })
  | .jmp a off => some (.c { op := 3, a, off := toField 38 off })
  | .call off => some (.c { op := 4, off := toField 38 off })
  | .callr a off => some (.c { op := 5, a, off := toField 38 off })
  | .ret => some (.c { op := 6 })
  | .exit => some (.c { op := 7 })
  | .regroup v g => some (.c { op := 8, a := v, off := g })
  | .yield => some (.c { op := 9 })
  | .nop => some (.c { op := 10 })
  | .sleep n => some (.c { op := 11, off := n })
  | .sleepReg k => some (.c { op := 11, a := k, b := 1 })
  | .trap code => some (.c { op := 12, off := code })
  | .brkpt id => some (.c { op := 13, off := id })
  | .fence order uo scope => some (.c { op := 16, a := order + 4 * bit uo, b := scope })
  | .icinv a n scope => some (.c { op := 17, a, b := scope, off := n })
  | .dcwb a n => some (.c { op := 18, a, off := n })
  | .dcinv a n => some (.c { op := 19, a, off := n })
  | .srd form d sr => some (.c { op := 24, a := d, b := sr, off := form })
  | .swr form a sr => some (.c { op := 25, a, b := sr, off := form })
  | .trapret => some (.c { op := 26 })
  | .trapretSkip => some (.c { op := 26, b := 1 })
  | .clock k => some (.c { op := 27, a := k })
  | .clockTime k => some (.c { op := 27, a := k, off := 1 })
  | .ld t m => some (mEnc 0 t.code m)
  | .st t m => some (mEnc 1 t.code m)
  | .ldw t m => some (mEnc 2 t.code m)
  | .stw t m => some (mEnc 3 t.code m)
  | .ldk t m => some (mEnc 4 t.code m)
  | .stk t m => some (mEnc 5 t.code m)
  | .lda m => some (mEnc 6 0 m)
  | .sta m => some (mEnc 7 0 m)
  | .pf m => some (mEnc 8 0 m)
  | .lds t m => some (mEnc 9 t.code m)
  | .sts t m => some (mEnc 10 t.code m)
  | .ldsw t m => some (mEnc 11 t.code m)
  | .stsw t m => some (mEnc 12 t.code m)
  | .atom op t m => some (aEnc 16 op t.code m)
  | .atomcas t m => some (aEnc 17 0 t.code m)
  | .atomf op t m => some (aEnc 18 op t.code m)
  | .atomord op t m => some (aEnc 19 op t.code m)
  | .red op t m => some (aEnc 20 op t.code m)
  | .atoms op t m => some (aEnc 21 op t.code m)
  | .barw mask => some (.e { op := 0, mod := mask })
  | .tbarInit b n => some (.e { op := 1, r1 := b, r2 := n })
  | .tbarArrive b => some (.e { op := 2, r1 := b })
  | .tbarArriveLanes b => some (.e { op := 2, r1 := b, mod := 1 })
  | .tbarExpect b n => some (.e { op := 3, r1 := b, r2 := n })
  | .tbarWait b p => some (.e { op := 4, r1 := b, r2 := p })
  | .tbarTest d b p => some (.e { op := 5, r1 := b, r2 := p, mod := d })
  | .tbarInval b => some (.e { op := 6, r1 := b })
  | .monArm d a => some (.e { op := 7, r1 := d, r2 := a })
  | .monWait => some (.e { op := 8 })
  | .stgAcq d ring => some (.e { op := 9, h1 := ring, r1 := d })
  | .stgCommit ring => some (.e { op := 10, h1 := ring })
  | .stgTake d ring => some (.e { op := 11, h1 := ring, r1 := d })
  | .stgFree ring => some (.e { op := 12, h1 := ring })
  | .tdef t b s => some (.e { op := 16, h1 := t, r1 := b, r2 := s })
  | .tfree t => some (.e { op := 17, h1 := t })
  | .tstate d t => some (.e { op := 18, h1 := t, r1 := d })
  | .tver d t => some (.e { op := 19, h1 := t, r1 := d })
  | .tld t a o scope => some (.e { op := 20, h1 := t, r1 := a, mod := o.code + 4 * scope })
  | .tst t a o scope => some (.e { op := 21, h1 := t, r1 := a, mod := o.code + 4 * scope })
  | .tstAon t a v => some (.e { op := 21, h1 := t, r1 := a, r2 := v, mod := 32 })
  | .tldv t a v => some (.e { op := 22, h1 := t, r1 := a, r2 := v })
  | .trot t => some (.e { op := 23, h1 := t })
  | .trotRev t => some (.e { op := 23, h1 := t, mod := 1 })
  | .tmap t a => some (.e { op := 24, h1 := t, r1 := a })
  | .tunmap t o scope => some (.e { op := 25, h1 := t, mod := o.code + 4 * scope })
  | .cpG2t t a o => some (cpEnc 32 t 0 a 0 o 0)
  | .cpT2g a t o => some (cpEnc 33 t 0 a 0 o 0)
  | .cpG2g d s n o => some (cpEnc 34 0 n d s o 0)
  | .cpGather e t a v scale k o => some (cpEnc 35 t k a v o (32 * scale + 128 * e))
  | .cpScatter e a v scale t k o => some (cpEnc 36 t k a v o (32 * scale + 128 * e))
  | .cpFill a v n o => some (cpEnc 37 0 n a v o 0)
  | .cpFillTile t v o => some (cpEnc 37 t 0 0 v o 32)
  | .cpT2t d s g o => some (cpEnc 38 d s g 0 o 0)
  | .cpT2tReg s g k o => some (cpEnc 38 0 s g k o 32)
  | .cpMcast d s g k o => some (cpEnc 39 d s g k o 0)
  | .cpStamp a v mask sys => some (.e { op := 40, r1 := a, r2 := v, mod := mask + 256 * bit sys })
  | .lzOpen d z b c h => some (.e { op := 48, h1 := z, h2 := c, h3 := h, r1 := d, r2 := b })
  | .lzClose z => some (.e { op := 49, h1 := z })
  | .lzStatus d z sel => some (.e { op := 50, h1 := z, r1 := d, mod := sel })
  | .lzReserve d z => some (.e { op := 51, r1 := d, r2 := z })
  | .lzReserveWait d z => some (.e { op := 51, r1 := d, r2 := z, mod := 1 })
  | .lzSend z s t v path => some (.e { op := 52, h1 := t, h2 := s, r1 := z, r2 := v, mod := path })
  | .lzSendAny z s t v path => some (.e { op := 52, h1 := t, h2 := s, r1 := z, r2 := v, mod := path + 4 })
  | .lzAbort d z s => some (.e { op := 53, h2 := s, r1 := d, r2 := z })
  | .lzWait z p => some (.e { op := 54, h1 := z, r1 := p })
  | .lzAck z p => some (.e { op := 55, h1 := z, r1 := p })
  | .lzClean z p => some (.e { op := 56, h1 := z, r1 := p })
  | .chBindW q c m => some (.e { op := 64, h1 := q, r1 := c, r2 := m.getD 0, mod := 2 * bit m.isSome })
  | .chBindR q c m => some (.e { op := 64, h1 := q, r1 := c, r2 := m.getD 0, mod := 1 + 2 * bit m.isSome })
  | .chUnbind q => some (.e { op := 65, h1 := q })
  | .chSend q v => some (.e { op := 66, h1 := q, r1 := v })
  | .chRecv q v p => some (.e { op := 67, h1 := q, r1 := v, mod := p.getD 0 + 8 * bit p.isSome })
  | .chTryRecv q v p => some (.e { op := 68, h1 := q, r1 := v, mod := p })
  | .chTrySend q v p => some (.e { op := 68, h1 := q, r1 := v, mod := p + 16 })
  | .chSendt q t => some (.e { op := 69, h1 := q, h2 := t })
  | .chRecvt q t p => some (.e { op := 70, h1 := q, h2 := t, mod := p.getD 0 + 8 * bit p.isSome })
  | .chClose q => some (.e { op := 71, h1 := q })
  | .chStat d q sel => some (.e { op := 72, h1 := q, r1 := d, mod := sel })
  | .chStatNum d c sel => some (.e { op := 72, r1 := d, r2 := c, mod := sel + 16 })
  | .mbLoad mac t slot => some (.e { op := 80, h1 := t, h2 := mac, s1 := slot })
  | .mbFree mac => some (.e { op := 81, h2 := mac })
  | .mmaQ acc mac slot v vs sel ov => some (.e { op := 82, h1 := acc, h2 := mac, s1 := slot, r1 := v, r2 := vs, mod := bit ov + 2 * sel })
  | .mmaT acc mac slot t ov => some (.e { op := 83, h1 := acc, h2 := mac, h3 := t, s1 := slot, mod := bit ov })
  | .mfence => some (.e { op := 84 })
  | .mwait acc => some (.e { op := 85, h1 := acc })
  | .mwaitAll => some (.e { op := 85, mod := 1 })
  | .accZero acc => some (.e { op := 86, h1 := acc })
  | .accRd count v acc k => some (.e { op := 87, h1 := acc, r1 := v, r2 := k, mod := count })
  | .accWr count acc v k => some (.e { op := 88, h1 := acc, r1 := v, r2 := k, mod := count })
  | .accDrain t acc ps tv k z => some (.e { op := 89, h1 := t, h2 := acc, h3 := tv.getD 0, r1 := k, mod := ps + 8 * bit tv.isSome + 16 * bit z })
  | .epiLoad ps t => some (.e { op := 90, h1 := t, mod := ps })
  | .mstat d => some (.e { op := 91, r1 := d })
  | .mstatClr d => some (.e { op := 91, r1 := d, mod := 1 })
  | .fsQuery d slot sel => some (.e { op := 96, s1 := slot, r1 := d, mod := sel })
  | .fsLoad d slot a => some (.e { op := 97, s1 := slot, r1 := d, r2 := a })
  | .fsFence slot => some (.e { op := 98, s1 := slot })
  | .fsFenceDev slot => some (.e { op := 98, s1 := slot, mod := 1 })
  | .fsPin slot => some (.e { op := 99, s1 := slot })
  | .fsUnpin slot => some (.e { op := 100, s1 := slot })
  | .bdSet bd pol type lo hi => some (.e { op := 104, s1 := bd, r1 := lo, r2 := hi, mod := pol + 4 * type })
  | .bdClr bd => some (.e { op := 105, s1 := bd })
  | .bdStat d bd sel => some (.e { op := 106, s1 := bd, r1 := d, mod := sel })
  | .bdStatClr d bd sel => some (.e { op := 106, s1 := bd, r1 := d, mod := sel + 4 })
  | .spawn d a => some (.e { op := 112, r1 := d, r2 := a })
  | .join d a => some (.e { op := 113, r1 := d, r2 := a })
  | .grow d k => some (.e { op := 114, r1 := d, r2 := k })
  | .gwSignal k a => some (.e { op := 115, r1 := k, r2 := a })
  | .wid form d sel => some (.e { op := 116, r1 := d, mod := sel + 16 * form })
  | .widFrame d => some (.e { op := 116, r1 := d, mod := 39 })
  | .eLd d v => some (.ep { op := 0, ed := d, f := v })
  | .eSt a o n => some (.ep { op := 1, ea := a, f := o + 256 * (n - 1) })
  | .eAdd d a b => some (.ep { op := 2, ed := d, ea := a, eb := b })
  | .eSub d a b => some (.ep { op := 3, ed := d, ea := a, eb := b })
  | .eMul d a b => some (.ep { op := 4, ed := d, ea := a, eb := b })
  | .eFma d a b c => some (.ep { op := 5, ed := d, ea := a, eb := b, ec := c })
  | .eMax d a b => some (.ep { op := 6, ed := d, ea := a, eb := b })
  | .eMin d a b => some (.ep { op := 7, ed := d, ea := a, eb := b })
  | .eAbs d a => some (.ep { op := 8, ed := d, ea := a })
  | .eExp2 d a => some (.ep { op := 9, ed := d, ea := a })
  | .eRcp d a => some (.ep { op := 10, ed := d, ea := a })
  | .eRsq d a => some (.ep { op := 11, ed := d, ea := a })
  | .eTanh d a => some (.ep { op := 12, ed := d, ea := a })
  | .eSel d a b c => some (.ep { op := 13, ed := d, ea := a, eb := b, ec := c })
  | .eCmp d a b cond => some (.ep { op := 14, ed := d, ea := a, eb := b, f := cond })
  | .eBias d a v => some (.ep { op := 15, ed := d, ea := a, f := v })
  | .eScale d a t => some (.ep { op := 16, ed := d, ea := a, f := toField 9 t })
  | .eCvt d a slot rm => some (.ep { op := 17, ed := d, ea := a, f := slot + 16 * rm })
  | .eBound d a bd => some (.ep { op := 18, ed := d, ea := a, f := bd })
  | .eEnd => some (.ep { op := 19 })
  | .streakRescue .. | .sleepWake .. | .loadReturn .. | .regroupRebuildDone .. | .trotComplete .. | .tileFillComplete ..
  | .tileDrainComplete .. | .versionWordRetry .. | .copyCommandStart .. | .copyCommandComplete .. | .t2tTargetWrite .. | .cpStampStore ..
  | .monitorWake .. | .monitorTimeout .. | .mbLoadRun .. | .mbFreeEffect .. | .passStart .. | .passComplete ..
  | .macroIdlePowerOff .. | .tokenBurstEnd .. | .tokenHoldTimeout .. | .tokenArrive .. | .drainStart .. | .drainComplete ..
  | .epiStoreWrite .. | .l1WritebackTimeout .. | .storeBufferAgeOverflow .. | .blockedSendProceed .. | .blockedRecvProceed .. | .channelRefill ..
  | .stalemateScan .. | .faultQueueRetry .. | .faultService .. | .faultReplay .. | .fetchFaultSwapOut .. | .preemptPriorityTimeout ..
  | .workgroupResume .. | .globalDispatch .. | .digestMismatchRetry .. | .launchComplete .. | .launchPlaceRetry .. | .gwLaunchNode ..
  | .gwConditionalNode .. | .gwWhileNode .. | .gwJoinNode .. | .gwWaitStampNode .. | .gwSignalHostNode .. | .gwEndNode ..
  | .loaderRequest .. | .formatInstall .. | .coreFunctionChange .. | .serialPhaseApply .. | .coreFence .. | .migrationWindow ..
  | .migSettle .. | .invalidationBroadcast .. | .invalidationComplete .. | .powerSample .. | .timeSync .. | .flitReceive ..
  | .portDown .. | .portUp .. | .remoteAccessRequest .. | .gangDigest .. | .gangDeadline .. | .gangStart ..
  | .lzReservationArrive .. | .lzAbortArrive .. | .lzPayloadFlit .. | .lzStatusStore .. | .channelFlitArrive .. | .channelCreditReturn ..
  | .cqtailDoorbell .. | .cpheadWrite .. | .registerWrite .. | .graphRun .. | .formatRecordLoad .. | .channelCreate ..
  | .channelReopen .. | .channelDestroy .. | .keyEnrol .. | .keyRemove .. | .slotAttestation .. | .deviceAttestation ..
  | .readCounters .. | .invalidate .. | .translate .. | .translateDelayedComplete .. | .setEntries .. | .setWeight ..
  | .setFrames .. | .setQueues .. | .joinDomain .. | .setRoute .. | .setLimit .. | .setIdle ..
  | .preEmpt .. | .assign .. | .reset .. | .healthTestComplete .. | .fusedMinimumRaise .. | .deviceReset ..
  | .lzReservationReply .. => none
/-- The 64-bit words of a program instruction, lowest address first; an epilogue word has none. -/
def Enc.words : Enc → List Nat
  | .s w none => [w.toNat]
  | .s w (some x) => [w.toNat, x % 2305843009213693952 + 6917529027641081856]
  | .p f => [pairToNat f]
  | .b w => [w.toNat]
  | .m w => [w.toNat]
  | .e w => [w.toNat]
  | .c w => [w.toNat]
  | .ep _ => []

/-- The words of an instruction: empty for a row that has no 64-bit encoding. -/
def encode (i : Instr) : List Nat := match encFields i with | some e => e.words | none => []
/-- The 32-bit word of an epilogue instruction (R44). -/
def encodeEp (i : Instr) : Option Nat := match encFields i with | some (.ep w) => some w.toNat | _ => none

/-! ## The decoder -/

/-- Why a word is no instruction (R45): every one of them is the illegal-instruction trap, cause 0x01. -/
inductive Reject where
  /-- Fewer bytes than the instruction has. -/
  | short
  /-- Class 111, or an X word where an instruction is expected (R22, R27). -/
  | classCode
  /-- An S word that needs an extension word and is not followed by one (R27). -/
  | noExtension
  /-- No instruction has this opcode, type, mod, order or scope code (R45 checks 2, 3). -/
  | code
  /-- A register, handle or immediate out of its range, or an operand form the instruction does not accept (R45 checks 5, 6). -/
  | operand
  /-- A pair that R29 or R30 excludes (R45 check 7). -/
  | pair
  /-- A must-be-zero bit is set (R23, R45 check 4). -/
  | mustBeZero
  deriving DecidableEq, Repr

/-- Operand b of an S word, by its I bit and extension payload. -/
def SWord.src (w : SWord) (ext : Option Nat) : Src :=
  if w.i = 0 then .reg w.b else match ext with | none => .imm (w.b * 256 + w.c) | some p => .ext p

/-- The instruction an S word's fields name. -/
def sCandidate (w : SWord) (ext : Option Nat) : Option Instr :=
  let s := w.src ext
  match w.op with
  | 0 => (Ty.ofCode w.type).map fun t => .add t w.d w.a s
  | 1 => (Ty.ofCode w.type).map fun t => .sub t w.d w.a s
  | 2 => (Ty.ofCode w.type).map fun t => .mul t w.d w.a s
  | 3 => (Ty.ofCode w.type).map fun t => .mulhi t w.d w.a s
  | 4 => (Ty.ofCode w.type).map fun t => .mad t w.d w.a w.b w.c
  | 5 => (Ty.ofCode w.type).map fun t => .div t w.d w.a s
  | 6 => (Ty.ofCode w.type).map fun t => .rem t w.d w.a s
  | 7 => (Ty.ofCode w.type).map fun t => .abs t w.d w.a
  | 8 => (Ty.ofCode w.type).map fun t => .min t w.d w.a s
  | 9 => (Ty.ofCode w.type).map fun t => .max t w.d w.a s
  | 10 => (Ty.ofCode w.type).map fun t => .and t w.d w.a s
  | 11 => (Ty.ofCode w.type).map fun t => .or t w.d w.a s
  | 12 => (Ty.ofCode w.type).map fun t => .xor t w.d w.a s
  | 13 => (Ty.ofCode w.type).map fun t => .andn t w.d w.a s
  | 14 => (Ty.ofCode w.type).map fun t => .shl t w.d w.a s
  | 15 => (Ty.ofCode w.type).map fun t => .shr t w.d w.a s
  | 16 => (Ty.ofCode w.type).map fun t => .sar t w.d w.a s
  | 17 => (Ty.ofCode w.type).map fun t => .rotl t w.d w.a s
  | 18 => (Ty.ofCode w.type).map fun t => .clz t w.d w.a
  | 19 => (Ty.ofCode w.type).map fun t => .popc t w.d w.a
  | 20 => (Ty.ofCode w.type).map fun t => .brev t w.d w.a
  | 21 => (Ty.ofCode w.type).map fun t => .bfx t w.d w.a (w.x % 64) (w.x / 64 + 1)
  | 22 => (Ty.ofCode w.type).map fun t => .bfi t w.d w.a w.b w.c
  | 23 => (Ty.ofCode w.type).map fun t => .sel t w.d w.a w.b w.c
  | 24 => do return .cmp (← Ty.ofCode w.type) (← Cmp.ofCode w.mod) w.d w.a s (← Comb.ofCode (w.x % 1024))
  | 25 => (Ty.ofCode w.type).map fun t => .mov t w.d w.a (w.mod == 1)
  | 26 => (Ty.ofCode w.type).map fun t => .movi t w.d s
  | 32 => do return .fadd (← Ty.ofCode w.type) w.d w.a s (← Rm.ofCode w.mod)
  | 33 => do return .fsub (← Ty.ofCode w.type) w.d w.a s (← Rm.ofCode w.mod)
  | 34 => do return .fmul (← Ty.ofCode w.type) w.d w.a s (← Rm.ofCode w.mod)
  | 35 => do return .ffma (← Ty.ofCode w.type) w.d w.a w.b w.c (← Rm.ofCode w.mod)
  | 36 => (Ty.ofCode w.type).map fun t => .fmin t w.d w.a s (w.mod == 1)
  | 37 => (Ty.ofCode w.type).map fun t => .fmax t w.d w.a s (w.mod == 1)
  | 38 => do return .fdiv (← Ty.ofCode w.type) w.d w.a s (← Rm.ofCode w.mod)
  | 39 => do return .frcp (← Ty.ofCode w.type) w.d w.a (← Rm.ofCode w.mod)
  | 40 => (Ty.ofCode w.type).map fun t => .frsq t w.d w.a
  | 41 => do return .fsqrt (← Ty.ofCode w.type) w.d w.a (← Rm.ofCode w.mod)
  | 42 => (Ty.ofCode w.type).map fun t => .fexp2 t w.d w.a
  | 43 => (Ty.ofCode w.type).map fun t => .flog2 t w.d w.a
  | 44 => (Ty.ofCode w.type).map fun t => .fsin t w.d w.a
  | 45 => (Ty.ofCode w.type).map fun t => .fcos t w.d w.a
  | 46 => do return .fcmp (← Ty.ofCode w.type) (← Cmp.ofCode w.mod) w.d w.a s (← Comb.ofCode (w.x % 1024))
  | 47 => (Ty.ofCode w.type).map fun t => if w.mod = 0 then .fclass t w.d w.a else .fclassAny t w.d w.a w.x
  | 48 => do return .cvt (← Ty.ofCode w.type) (← Ty.ofCode (w.x % 16)) w.d w.a (← Rm.ofCode w.mod)
  | 49 => do return .fpack (← Ty.ofCode w.type) w.d w.a w.b (w.x % 16) (w.x / 16 % 4) (w.x / 64 % 4) (← Rm.ofCode w.mod)
  | 50 => do return .funpack (← Ty.ofCode w.type) w.d w.a w.b (w.x % 16) (w.x / 16 % 4) (w.x / 64 % 4) (← Rm.ofCode w.mod)
  | 51 => do
      let t ← Ty.ofCode w.type
      let rm ← Rm.ofCode w.mod
      if w.x / 512 % 2 = 1 then return .fscaleStored t w.d w.a w.b (w.x / 16 % 4) (w.x / 64 % 8) (w.x / 8 % 2 == 1) rm
      else return .fscale t w.d w.a s rm
  | 64 => some (.shfl w.mod w.d w.a s)
  | 65 => match w.mod with
    | 0 => some (.voteAny w.d w.a)
    | 1 => some (.voteAll w.d w.a)
    | 2 => some (.voteBallot w.d w.a)
    | 3 => some (.voteEq w.d w.a)
    | _ => none
  | 66 => (Ty.ofCode w.type).map fun t => .redux w.mod t w.d w.a
  | 67 => (Ty.ofCode w.type).map fun t => .matchLanes t w.d w.a
  | 96 => some (.kadd w.d w.a s)
  | 97 => some (.ksub w.d w.a s)
  | 98 => some (.kmul w.d w.a s)
  | 99 => some (.kand w.d w.a s)
  | 100 => some (.kor w.d w.a s)
  | 101 => some (.kxor w.d w.a s)
  | 102 => some (.kshl w.d w.a s)
  | 103 => some (.kshr w.d w.a s)
  | 104 => some (.ksar w.d w.a s)
  | 105 => (Ty.ofCode w.type).map fun t => .kmin t w.d w.a s
  | 106 => (Ty.ofCode w.type).map fun t => .kmax t w.d w.a s
  | 107 => do return .kcmp (← Ty.ofCode w.type) (← Cmp.ofCode w.mod) w.d w.a s
  | 108 => some (.ksel w.d w.a w.b w.c)
  | 109 => some (.kmov w.d w.a)
  | 110 => some (.kmovi w.d s)
  | 111 => (Ty.ofCode w.type).map fun t => .kbfx t w.d w.a (w.x % 64) (w.x / 64 + 1)
  | 112 => some (.kpopc w.d w.a)
  | 113 => some (.kclz w.d w.a)
  | 114 => (Ty.ofCode w.type).map fun t => .kbcast t w.d w.a
  | 115 => (Ty.ofCode w.type).map fun t => .kpick t w.d w.a s
  | 128 => some (.amov w.d w.a)
  | 129 => some (.aset w.d w.a s)
  | 130 => some (if w.mod = 0 then .aget w.d w.a else .agetHi w.d w.a)
  | 131 => some (.aadd w.d w.a s)
  | 132 => (Ty.ofCode w.type).map fun t => .aaddv t w.d w.a w.b w.mod
  | 133 => (Cmp.ofCode w.mod).map fun c => .acmp c w.d w.a w.b
  | 134 => some (.adiff w.d w.a w.b)
  | 135 => some (if w.mod = 0 then .aalignDn w.d w.a w.x else .aalignUp w.d w.a w.x)
  | _ => none

/-- The memory operand of an M word of group H. -/
def MWord.mem (w : MWord) (o : Ord) : MemOp :=
  { base := w.base, data := w.data, index := w.index, scale := w.scale, order := o, scope := w.scope, disp := ofField 23 w.disp }
/-- The memory operand of an M word of group I. -/
def MWord.memAtom (w : MWord) (o : Ord) : MemOp :=
  { base := w.base, data := w.data, index := w.index, scale := w.scale, order := o, scope := w.scope,
    disp := ofField 19 (w.disp % 524288) }

/-- The instruction an M word's fields name. -/
def mCandidate (w : MWord) : Option Instr := do
  let t ← Ty.ofCode w.type
  let o ← Ord.ofCode w.order
  let m := w.mem o
  let g := w.memAtom o
  let aop := w.disp / 524288
  match w.op with
  | 0 => some (.ld t m)
  | 1 => some (.st t m)
  | 2 => some (.ldw t m)
  | 3 => some (.stw t m)
  | 4 => some (.ldk t m)
  | 5 => some (.stk t m)
  | 6 => some (.lda m)
  | 7 => some (.sta m)
  | 8 => some (.pf m)
  | 9 => some (.lds t m)
  | 10 => some (.sts t m)
  | 11 => some (.ldsw t m)
  | 12 => some (.stsw t m)
  | 16 => some (.atom aop t g)
  | 17 => some (.atomcas t g)
  | 18 => some (.atomf aop t g)
  | 19 => some (.atomord aop t g)
  | 20 => some (.red aop t g)
  | 21 => some (.atoms aop t g)
  | _ => none

/-- The instruction a C word's fields name. -/
def cCandidate (w : CWord) : Option Instr :=
  match w.op with
  | 0 => some (.bra (ofField 38 w.off))
  | 1 => some (.brc (w.a % 8) (w.a / 8 % 2 == 1) (ofField 38 w.off))
  | 2 => some (if w.b = 0 then .brkNz w.a (ofField 38 w.off) else .brkZ w.a (ofField 38 w.off))
  | 3 => some (.jmp w.a (ofField 38 w.off))
  | 4 => some (.call (ofField 38 w.off))
  | 5 => some (.callr w.a (ofField 38 w.off))
  | 6 => some .ret
  | 7 => some .exit
  | 8 => some (.regroup w.a w.off)
  | 9 => some .yield
  | 10 => some .nop
  | 11 => some (if w.b = 0 then .sleep w.off else .sleepReg w.a)
  | 12 => some (.trap w.off)
  | 13 => some (.brkpt w.off)
  | 16 => some (.fence (w.a % 4) (w.a / 4 % 2 == 1) w.b)
  | 17 => some (.icinv w.a w.off w.b)
  | 18 => some (.dcwb w.a w.off)
  | 19 => some (.dcinv w.a w.off)
  | 24 => some (.srd w.off w.a w.b)
  | 25 => some (.swr w.off w.a w.b)
  | 26 => some (if w.b = 0 then .trapret else .trapretSkip)
  | 27 => some (if w.off = 0 then .clock w.a else .clockTime w.a)
  | _ => none

/-- The options of a copy command; `d` where the command has a D bit. -/
def EWord.copy (w : EWord) (d : Bool) : CopyOpts :=
  { bar := if w.mod % 2 = 1 then some w.h3 else none, tag := w.mod / 2 % 8,
    bd := if d && w.mod / 16 % 2 == 1 then some w.s1 else none }

/-- The instruction an E word's fields name. -/
def eCandidate (w : EWord) : Option Instr :=
  match w.op with
  | 0 => some (.barw w.mod)
  | 1 => some (.tbarInit w.r1 w.r2)
  | 2 => some (if w.mod = 0 then .tbarArrive w.r1 else .tbarArriveLanes w.r1)
  | 3 => some (.tbarExpect w.r1 w.r2)
  | 4 => some (.tbarWait w.r1 w.r2)
  | 5 => some (.tbarTest w.mod w.r1 w.r2)
  | 6 => some (.tbarInval w.r1)
  | 7 => some (.monArm w.r1 w.r2)
  | 8 => some .monWait
  | 9 => some (.stgAcq w.r1 w.h1)
  | 10 => some (.stgCommit w.h1)
  | 11 => some (.stgTake w.r1 w.h1)
  | 12 => some (.stgFree w.h1)
  | 16 => some (.tdef w.h1 w.r1 w.r2)
  | 17 => some (.tfree w.h1)
  | 18 => some (.tstate w.r1 w.h1)
  | 19 => some (.tver w.r1 w.h1)
  | 20 => (Ord.ofCode (w.mod % 4)).map fun o => .tld w.h1 w.r1 o (w.mod / 4 % 8)
  | 21 => if w.mod / 32 % 2 = 1 then some (.tstAon w.h1 w.r1 w.r2) else (Ord.ofCode (w.mod % 4)).map fun o => .tst w.h1 w.r1 o (w.mod / 4 % 8)
  | 22 => some (.tldv w.h1 w.r1 w.r2)
  | 23 => some (if w.mod = 0 then .trot w.h1 else .trotRev w.h1)
  | 24 => some (.tmap w.h1 w.r1)
  | 25 => (Ord.ofCode (w.mod % 4)).map fun o => .tunmap w.h1 o (w.mod / 4 % 8)
  | 32 => some (.cpG2t w.h1 w.r1 (w.copy false))
  | 33 => some (.cpT2g w.r1 w.h1 (w.copy true))
  | 34 => some (.cpG2g w.r1 w.r2 w.h2 (w.copy false))
  | 35 => some (.cpGather (w.mod / 128) w.h1 w.r1 w.r2 (w.mod / 32 % 4) w.h2 (w.copy false))
  | 36 => some (.cpScatter (w.mod / 128) w.r1 w.r2 (w.mod / 32 % 4) w.h1 w.h2 (w.copy true))
  | 37 => some (if w.mod / 32 % 2 = 0 then .cpFill w.r1 w.r2 w.h2 (w.copy false) else .cpFillTile w.h1 w.r2 (w.copy false))
  | 38 => some (if w.mod / 32 % 2 = 0 then .cpT2t w.h1 w.h2 w.r1 (w.copy false) else .cpT2tReg w.h2 w.r1 w.r2 (w.copy false))
  | 39 => some (.cpMcast w.h1 w.h2 w.r1 w.r2 (w.copy false))
  | 40 => some (.cpStamp w.r1 w.r2 (w.mod % 256) (w.mod / 256 % 2 == 1))
  | 48 => some (.lzOpen w.r1 w.h1 w.r2 w.h2 w.h3)
  | 49 => some (.lzClose w.h1)
  | 50 => some (.lzStatus w.r1 w.h1 w.mod)
  | 51 => some (if w.mod = 0 then .lzReserve w.r1 w.r2 else .lzReserveWait w.r1 w.r2)
  | 52 => some (if w.mod / 4 % 2 = 0 then .lzSend w.r1 w.h2 w.h1 w.r2 (w.mod % 4) else .lzSendAny w.r1 w.h2 w.h1 w.r2 (w.mod % 4))
  | 53 => some (.lzAbort w.r1 w.r2 w.h2)
  | 54 => some (.lzWait w.h1 w.r1)
  | 55 => some (.lzAck w.h1 w.r1)
  | 56 => some (.lzClean w.h1 w.r1)
  | 64 => let v := if w.mod / 2 % 2 = 1 then some w.r2 else none
    some (if w.mod % 2 = 0 then .chBindW w.h1 w.r1 v else .chBindR w.h1 w.r1 v)
  | 65 => some (.chUnbind w.h1)
  | 66 => some (.chSend w.h1 w.r1)
  | 67 => some (.chRecv w.h1 w.r1 (if w.mod / 8 % 2 = 1 then some (w.mod % 8) else none))
  | 68 => some (if w.mod / 16 % 2 = 0 then .chTryRecv w.h1 w.r1 (w.mod % 8) else .chTrySend w.h1 w.r1 (w.mod % 8))
  | 69 => some (.chSendt w.h1 w.h2)
  | 70 => some (.chRecvt w.h1 w.h2 (if w.mod / 8 % 2 = 1 then some (w.mod % 8) else none))
  | 71 => some (.chClose w.h1)
  | 72 => some (if w.mod / 16 % 2 = 0 then .chStat w.r1 w.h1 (w.mod % 16) else .chStatNum w.r1 w.r2 (w.mod % 16))
  | 80 => some (.mbLoad w.h2 w.h1 w.s1)
  | 81 => some (.mbFree w.h2)
  | 82 => some (.mmaQ w.h1 w.h2 w.s1 w.r1 w.r2 (w.mod / 2) (w.mod % 2 == 1))
  | 83 => some (.mmaT w.h1 w.h2 w.s1 w.h3 (w.mod == 1))
  | 84 => some .mfence
  | 85 => some (if w.mod = 0 then .mwait w.h1 else .mwaitAll)
  | 86 => some (.accZero w.h1)
  | 87 => some (.accRd w.mod w.r1 w.h1 w.r2)
  | 88 => some (.accWr w.mod w.h1 w.r1 w.r2)
  | 89 => some (.accDrain w.h1 w.h2 (w.mod % 8) (if w.mod / 8 % 2 = 1 then some w.h3 else none) w.r1 (w.mod / 16 % 2 == 1))
  | 90 => some (.epiLoad w.mod w.h1)
  | 91 => some (if w.mod = 0 then .mstat w.r1 else .mstatClr w.r1)
  | 96 => some (.fsQuery w.r1 w.s1 w.mod)
  | 97 => some (.fsLoad w.r1 w.s1 w.r2)
  | 98 => some (if w.mod = 0 then .fsFence w.s1 else .fsFenceDev w.s1)
  | 99 => some (.fsPin w.s1)
  | 100 => some (.fsUnpin w.s1)
  | 104 => some (.bdSet w.s1 (w.mod % 4) (w.mod / 4) w.r1 w.r2)
  | 105 => some (.bdClr w.s1)
  | 106 => some (if w.mod / 4 % 2 = 0 then .bdStat w.r1 w.s1 (w.mod % 4) else .bdStatClr w.r1 w.s1 (w.mod % 4))
  | 112 => some (.spawn w.r1 w.r2)
  | 113 => some (.join w.r1 w.r2)
  | 114 => some (.grow w.r1 w.r2)
  | 115 => some (.gwSignal w.r1 w.r2)
  | 116 => some (if w.mod / 16 % 4 = 2 then .widFrame w.r1 else .wid (w.mod / 16 % 4) w.r1 (w.mod % 16))
  | _ => none

/-- The instruction an epilogue word's fields name. -/
def epCandidate (w : EpWord) : Option Instr :=
  match w.op with
  | 0 => some (.eLd w.ed w.f)
  | 1 => some (.eSt w.ea (w.f % 256) (w.f / 256 + 1))
  | 2 => some (.eAdd w.ed w.ea w.eb)
  | 3 => some (.eSub w.ed w.ea w.eb)
  | 4 => some (.eMul w.ed w.ea w.eb)
  | 5 => some (.eFma w.ed w.ea w.eb w.ec)
  | 6 => some (.eMax w.ed w.ea w.eb)
  | 7 => some (.eMin w.ed w.ea w.eb)
  | 8 => some (.eAbs w.ed w.ea)
  | 9 => some (.eExp2 w.ed w.ea)
  | 10 => some (.eRcp w.ed w.ea)
  | 11 => some (.eRsq w.ed w.ea)
  | 12 => some (.eTanh w.ed w.ea)
  | 13 => some (.eSel w.ed w.ea w.eb w.ec)
  | 14 => some (.eCmp w.ed w.ea w.eb w.f)
  | 15 => some (.eBias w.ed w.ea w.f)
  | 16 => some (.eScale w.ed w.ea (ofField 9 (w.f % 512)))
  | 17 => some (.eCvt w.ed w.ea (w.f % 16) (w.f / 16))
  | 18 => some (.eBound w.ed w.ea w.f)
  | 19 => some .eEnd
  | _ => none

/-- The S opcodes that accept a long immediate (R83, R93, R97, R103, R178). -/
def acceptsLong (op : Nat) : Bool :=
  op < 4 || op == 5 || op == 6 || (8 ≤ op && op < 18) || op == 24 || op == 26 || (32 ≤ op && op < 35) || (36 ≤ op && op < 39) ||
  op == 46 || op == 51 || op == 64 || (96 ≤ op && op < 108) || op == 110 || op == 115 || op == 131

/-- The word calls for an extension word (R14, R25). -/
def needsExt (w : Nat) : Bool :=
  w / 2305843009213693952 == 0 && field w 11 1 == 1 && field w 10 1 == 1 && acceptsLong (field w 52 9)

/-- The S word a pair's scalar half stands for (R28, R100): type i64 for group D, 0 for group E. -/
def scalarHalf (f : PairFields) : SWord :=
  { op := if f.sop < 20 then 96 + f.sop else 108 + f.sop, d := f.kd, a := f.ka, b := if f.kimm = 1 then 0 else f.kb,
    c := if f.kimm = 1 then f.kb else 0, type := if f.sop < 20 then 3 else 0, mod := 0, i := f.kimm, x := 0 }
/-- The S word a pair's vector half stands for (R28). -/
def vectorHalf (f : PairFields) : SWord :=
  { op := f.vop, d := f.vd, a := f.va, b := f.vb, c := 0, type := f.type, mod := f.mod, i := 0, x := 0 }
/-- `fclass` with a mask of classes, which stands in the x field that a pair does not have: a pair takes mod 0 only (R121). -/
def Instr.testsMask (i : Instr) : Bool := match i with | .fclassAny .. => true | _ => false
/-- The instruction of one half, when its own S form is legal. -/
def halfInstr (w : SWord) : Option Instr := do
  let i ← sCandidate w none
  if wellFormed i && encFields i == some (.s w none) && !i.testsMask then some i else none
/-- Both halves of a pair, when each is legal (R29). -/
def pairHalves (f : PairFields) : Option (Instr × Instr) := do
  let k ← halfInstr (scalarHalf f)
  let v ← halfInstr (vectorHalf f)
  some (k, v)

/-- A legal instruction: well formed, and for a pair both halves legal. -/
def legal (i : Instr) : Bool :=
  wellFormed i && (match i with | .pairWord f => (pairHalves f).isSome | _ => true)

/-- The instruction a word and its extension word name, by class (R22). -/
def candidate (w : Nat) (ext : Option Nat) : Option Instr :=
  match w / 2305843009213693952 with
  | 0 => sCandidate (.ofNat w) (ext.map (· % 2305843009213693952))
  | 1 => some (.pairWord (pairOfNat w))
  | 2 => let b := BWord.ofNat w; some (.pblk b.pred (b.inv == 1) b.count b.pattern)
  | 4 => mCandidate (.ofNat w)
  | 5 => eCandidate (.ofNat w)
  | 6 => cCandidate (.ofNat w)
  | _ => none

/-- Decode one word, with the word after it where `needsExt` asks for it (R14, R45). Total on every number below 2⁶⁴. -/
def decodeWord (w : Nat) (ext : Option Nat) : Except Reject Instr :=
  if w / 2305843009213693952 == 3 || 7 ≤ w / 2305843009213693952 then .error .classCode
  else if needsExt w && !(match ext with | some e => e / 2305843009213693952 == 3 | none => false) then .error .noExtension
  else
    match candidate w (if needsExt w then ext else none) with
    | none => .error .code
    | some i =>
      if !wellFormed i then .error .operand
      else if !legal i then .error .pair
      else if encode i == (if needsExt w then [w, ext.getD 0] else [w]) then .ok i
      else .error .mustBeZero

/-- Decode a 32-bit epilogue word (R44, R339). -/
def decodeEp (w : Nat) : Except Reject Instr :=
  match epCandidate (.ofNat w) with
  | none => .error .code
  | some i => if !wellFormed i then .error .operand else if encodeEp i == some w then .ok i else .error .mustBeZero

/-- The number little-endian bytes hold (R4). -/
def leNat : List Byte → Nat
  | [] => 0
  | b :: bs => b.toNat + 256 * leNat bs
/-- `n` little-endian bytes of a number. -/
def leBytes : Nat → Nat → List Byte
  | 0, _ => []
  | n + 1, v => BitVec.ofNat 8 v :: leBytes n (v / 256)

/-- Decode from bytes in memory order: the instruction and the bytes after it. -/
def decodeBytes (bs : List Byte) : Except Reject (Instr × List Byte) :=
  if bs.length < 8 then .error .short
  else
    let w := leNat (bs.take 8)
    if needsExt w then
      if bs.length < 16 then .error .short
      else (decodeWord w (some (leNat ((bs.drop 8).take 8)))).map (fun i => (i, bs.drop 16))
    else (decodeWord w none).map (fun i => (i, bs.drop 8))

/-- The host's question: what the decoder reads from an instruction whose bits are `w`. 32 bits are an epilogue word; 64 and
more are laid out in memory order and given to `decodeBytes`, with zero bits above. -/
def decodeTableWord (nbits w : Nat) : Option Instr :=
  if nbits ≤ 32 then (decodeEp w).toOption
  else match decodeBytes (leBytes 16 w) with | .ok (i, _) => some i | .error _ => none

end Sys2Proof
end

