-- ==== Sys2Proof/Machine/PhysMap.lean ====
section
/-! DEFINITION. The physical address space (R199 to R202): HBM and the L2 slice, die and stack of an address, the core windows and what each
offset of one names, and who is answered where. -/
namespace Sys2Proof.Machine

/-- Size of HBM (R200). -/
def hbmBytes : Nat := 2 ^ 40
/-- The die whose stacks hold an address of HBM, and which of its two (R200). -/
def homeDie (pa : Nat) : Nat := field pa 37 3
def stackOf (pa : Nat) : Nat := field pa 12 1
/-- The slice of the home die's L2 that holds an address's line (R199). -/
def l2Slice (pa : Nat) : Nat := field pa 7 4 ^^^ field pa 11 4 ^^^ field pa 15 4 ^^^ field pa 19 4

/-- The ranges of R201. -/
inductive PhysPlace where
  | hbm
  | unpopulated
  | window (core off : Nat)
  | firmware
  deriving DecidableEq, Repr
def windowBase : Nat := 0xE000000000000
def windowBytes : Nat := 0x400000
def physPlace (pa : Nat) : PhysPlace :=
  if pa < hbmBytes then .hbm
  else if pa < windowBase then .unpopulated
  else if pa < windowBase + 1280 * windowBytes then .window ((pa - windowBase) / windowBytes) ((pa - windowBase) % windowBytes)
  else .firmware

/-- What an offset of a core's window names (R202). -/
inductive WindowPlace where
  | scratch (byte : Nat)
  | register (row lane byte : Nat)
  | accumulator (tile byte : Nat)
  | reserved
  deriving DecidableEq, Repr
def windowPlace (off : Nat) : WindowPlace :=
  if off < 0x80000 then .scratch off
  else if 0x100000 ≤ off ∧ off < 0x180000 then .register ((off - 0x100000) / 128) (off % 128 / 4) (off % 4)
  else if 0x200000 ≤ off ∧ off < 0x220000 then .accumulator ((off - 0x200000) / 8192) (off % 8192)
  else .reserved
/-- Addresses in a core's window: a scratchpad byte, a lane of a register row, an accumulator tile. -/
def scratchWindow (core byte : Nat) : Nat := windowBase + core * windowBytes + byte
def registerWindow (core row lane : Nat) : Nat := windowBase + core * windowBytes + 0x100000 + 128 * row + 4 * lane
def accWindow (core tile : Nat) : Nat := windowBase + core * windowBytes + 0x200000 + 8192 * tile

/-- Who makes a physical access (R201). -/
inductive PhysAgent where
  /-- A thread or an engine, through translation. -/
  | translated
  /-- A copy engine or a landing-zone payload, at a window. -/
  | window
  | firmware
  deriving DecidableEq, Repr
/-- The access is answered, and not with an error response; the further checks at a window are R203's. -/
def physAnswers (a : PhysAgent) (pa : Nat) : Bool :=
  match physPlace pa, a with
  | .hbm, _ => true
  | .unpopulated, _ => false
  | .window _ off, .firmware => windowPlace off != .reserved
  | .window _ off, .window => (match windowPlace off with | .scratch _ | .register .. => true | _ => false)
  | .window _ _, .translated => false
  | .firmware, a => a == .firmware

end Sys2Proof.Machine
end

