-- ==== Sys2Proof/Machine/Table.lean ====
section
/-! DEFINITION. Finite tables as sorted lists: sparse files, whose unlisted keys hold a default value and which list no entry
equal to it, so that equal files are equal data; and plain tables of records. Registers, memory and every indexed unit of the
machine are held in them. -/
namespace Sys2Proof.Machine

/-- A sparse file: keys strictly rising, no entry equal to the default. -/
abbrev Sparse (α : Type) := List (Nat × α)

/-- The value at `k`: the listed one, or the default. -/
def sget {α : Type} (d : α) : Sparse α → Nat → α
  | [], _ => d
  | (j, x) :: m, k => if j = k then x else if k < j then d else sget d m k

/-- Put `x` at `k` of a sorted list, replacing what stands there. -/
def tset {α : Type} : Sparse α → Nat → α → Sparse α
  | [], k, x => [(k, x)]
  | (j, y) :: m, k, x => if k < j then (k, x) :: (j, y) :: m else if j = k then (k, x) :: m else (j, y) :: tset m k x

/-- Take `k` out. -/
def terase {α : Type} : Sparse α → Nat → Sparse α
  | [], _ => []
  | (j, y) :: m, k => if j = k then m else if k < j then (j, y) :: m else (j, y) :: terase m k

/-- Write a sparse file, keeping its canonical form: the default is not listed. -/
def sset {α : Type} [DecidableEq α] (d : α) (m : Sparse α) (k : Nat) (x : α) : Sparse α :=
  if x = d then terase m k else tset m k x

/-- The record at `k` of a table. -/
def tget {α : Type} : Sparse α → Nat → Option α
  | [], _ => none
  | (j, x) :: m, k => if j = k then some x else if k < j then none else tget m k

/-- Keys strictly rising, each above `lo` where one is given. -/
def sortedFrom {α : Type} : Option Nat → Sparse α → Bool
  | _, [] => true
  | lo, (k, _) :: m => (match lo with | none => true | some l => l < k) && sortedFrom (some k) m

/-- The canonical form of a sparse file. -/
def swf {α : Type} [DecidableEq α] (d : α) (m : Sparse α) : Bool := sortedFrom none m && m.all (fun e => e.2 ≠ d)

/-- Change the record at `k`, where there is one. -/
def tmod {α : Type} (m : Sparse α) (k : Nat) (f : α → α) : Sparse α :=
  match tget m k with | none => m | some x => tset m k (f x)

/-- The lowest number from `n` upward, among `fuel` of them, that satisfies `p`. -/
def firstFrom (p : Nat → Bool) : Nat → Nat → Option Nat
  | 0, _ => none
  | fuel + 1, n => if p n then some n else firstFrom p fuel (n + 1)

/-- Insert into a list sorted by `key`, after every element with the same key. -/
def insertBy {α : Type} (key : α → Nat) (x : α) : List α → List α
  | [] => [x]
  | y :: ys => if key x < key y then x :: y :: ys else y :: insertBy key x ys
/-- A list sorted by ascending `key`; equal keys keep their order. -/
def sortBy {α : Type} (key : α → Nat) : List α → List α
  | [] => []
  | x :: xs => (sortBy key xs |> fun s => insertBy' key x s)
where
  insertBy' (key : α → Nat) (x : α) : List α → List α
    | [] => [x]
    | y :: ys => if key x ≤ key y then x :: y :: ys else y :: insertBy' key x ys

/-- The element of a list with the least key, the first of them. -/
def leastBy {α : Type} (key : α → Nat) : List α → Option α
  | [] => none
  | x :: xs => match leastBy key xs with | none => some x | some y => if key x ≤ key y then some x else some y

/-- A list with element `n` replaced. -/
def setAt {α : Type} : List α → Nat → α → List α
  | [], _, _ => []
  | _ :: xs, 0, y => y :: xs
  | x :: xs, n + 1, y => x :: setAt xs n y

/-- Numbers `from .. from + n - 1`. -/
def upFrom (lo : Nat) : Nat → List Nat
  | 0 => []
  | n + 1 => lo :: upFrom (lo + 1) n

end Sys2Proof.Machine
end

