-- ==== Sys2Proof/Machine/State.lean ====
section
/-! DEFINITION. The state of the JX1280 as plain data: everything the spec gives the machine (INVENTORY.md, State), the
machine's own bookkeeping where the spec leaves a moment open, the reasons a step can stop, and the state after reset. Field
docstrings name the rule. -/
namespace Sys2Proof.Machine

/-- Why the machine stops. All are safe: the model stops where nothing is claimed of the hardware. -/
inductive Fault where
  /-- An instruction was executed with no issue group standing: raised by every meaning of a program instruction when
  `Mach.ig` is empty (the step never does this). Safe. -/
  | noIssueGroup
  /-- An event was executed whose condition does not hold: raised by the meanings of events; the step executes an event of
  the machine's own only when its condition holds, so only an agenda can raise it. Safe. -/
  | notEnabled
  deriving DecidableEq, Repr

/-- Why an instruction has no meaning. -/
inductive Refusal where
  /-- The instruction is not modelled: raised by an arm of `exec` that has no meaning yet. Safe. -/
  | notModelled (mnemonic : String)
  deriving DecidableEq, Repr

/-! ## Threads -/

/-- An open predicate block (R32): the prefix's address, its count field, the slot that runs next, and the guards. -/
structure Block where
  prefixPc : Addr
  count    : Nat
  slot     : Nat
  guards   : BitVec 8
  deriving DecidableEq, Repr

/-- What a thread waits for inside an instruction that executes again (R153, R391 state 6). -/
inductive Wait where
  | tbar (off : Nat) (gen : Nat)
  | stage (ring : Nat) (producer : Bool)
  | monitor
  | tile (t : Nat)
  | rotation (t : Nat) (reverse : Bool)
  /-- A channel: the q register that holds the instruction up, and the others whose mapped registers it names (R271). -/
  | chan (q : Nat) (send : Bool) (need : Nat) (also : List Nat := [])
  | acc (acc : Option Nat)
  | operands
  | fsFence (slot : Nat) (planes : List (Nat × Nat))
  /-- Below 8 a zone register and the phase awaited; from 8 on, the name of a zone to reserve a slot of, plus 8. -/
  | zone (z : Nat) (phase : Bool)
  | faultQueue (n : Nat)
  | fault (id : Nat)
  | held
  deriving DecidableEq, Repr

/-- A thread's standing (R153, R391). -/
inductive Status where
  | ready
  | exited
  | asleep (until_ : Nat)
  | parked (fault : Nat)
  | gathered (key g : Nat)
  | rebuilding
  | atBar (mask : Nat)
  | waiting (w : Wait)
  | fsLoad (req : Nat) (status : Option Nat) (kd : Nat)
  | zoneWait (status : Option (Nat × Nat)) (kd : Nat)
  deriving DecidableEq, Repr

/-- One thread (R8). -/
structure Thread where
  v : Sparse V32 := []
  k : Sparse K64 := []
  a : Sparse Addr := []
  p : Sparse Bool := []
  pc : Addr := 0
  /-- Hardware return stack, newest first (R18). -/
  rs : List Addr := []
  stackbase : Addr := 0
  rsspill : Nat := 0
  /-- NV, DZ, OF, UF, NX in bits 0 to 4 (R63). -/
  fstat : BitVec 5 := 0
  /-- DZ, DV in bits 0, 1 (R60). -/
  istat : BitVec 2 := 0
  rnd : K64 := 0
  pblk : BitVec 16 := 0
  cause : BitVec 8 := 0
  info : BitVec 16 := 0
  trapaddr : Addr := 0
  trappc : Addr := 0
  trapL : Bool := false
  trapH : Bool := false
  blk : Option Block := none
  status : Status := .ready
  /-- Work identifier (R148), current warp and lane (R150). -/
  wid : Nat := 0
  warp : Nat := 0
  lane : Nat := 0
  /-- The monitor: armed line, and whether a store has hit it since (R293). -/
  mon : Option (Nat × Bool) := none
  yieldMark : Bool := false
  /-- Order epoch and sequence of an ordered launch (R397). -/
  epoch : Nat := 0
  oseq : Nat := 0
  /-- When the instruction the thread stands at first waited: issue number and global time. -/
  since : Option (Nat × Nat) := none
  /-- Block state a return or a resume re-enters at the prefix the PC names (R35): count, slot, guards. -/
  reenter : Option (Nat × Nat × BitVec 8) := none
  deriving DecidableEq, Repr

/-! ## Workgroups -/

/-- A launch header as firmware read it (R167). -/
structure Header where
  addr : Nat := 0
  threads : Nat := 1
  widths : List Nat := [1]
  entry : Addr := 0
  handler : Addr := 0
  priv : Addr := 0
  stamp : Addr := 0
  gang : Addr := 0
  slotreq : Addr := 0
  gcount : Addr := 0
  groups : Nat := 1
  seed : K64 := 0
  prio : Nat := 0
  win : Bool := false
  pinned : Bool := false
  cspan : Bool := false
  rollback : Bool := false
  ordered : Bool := false
  rings : List Nat := [0, 0, 0, 0]
  zones : Nat := 0
  qregs : Nat := 0
  macs : List Nat := []
  accs : Nat := 0
  tiles : Nat := 0
  scratch : Nat := 0
  vregs : Nat := 1
  roles : List Nat := [2]
  slotmask : Nat := 0
  deriving DecidableEq, Repr

/-- A trap an engine left for the next instruction that names the tile or accumulator (R371). -/
structure Deferred where
  cause : Nat
  addr : Nat
  info : Nat
  deriving DecidableEq, Repr

/-- Tile states of R205. -/
inductive TileState where
  | empty | filling | ready | draining
  deriving DecidableEq, Repr

/-- What a filling or draining tile is doing (R205, R261 to R265). A `tld` holds the bytes it has read, and a `tst` has stored its own; a
`tunmap`, a `tst.aon` and a `tldv` name the threads that issued them, whose later accesses come after the transfer: a write-back says
whether it is done, a writer of a version word the value it took, a reader its retries and the word it waits to see change. A rotation ends
at a cycle. Jobs that belong to a queued command name it by its number. -/
inductive TileJob where
  | load (data : List Byte)
  | touch
  | store
  | unmap (threads : List Nat) (order : Ord) (scope : Nat) (done : Bool)
  | storeAon (addr ver : Addr) (threads : List Nat) (took : Option K64)
  | loadVer (addr ver : Addr) (threads : List Nat) (n : Nat) (seen : Option K64)
  | rotate (reverse : Bool) (until_ : Nat)
  | command (id : Nat)
  | failed
  deriving DecidableEq, Repr

/-- A tile entry (R204): base and size in 128-byte units, size not minus one. -/
structure Tile where
  state : TileState := .empty
  m : Bool := false
  d : Bool := false
  size : Nat := 0
  base : Nat := 0
  version : V32 := 0
  map : Addr := 0
  job : Option TileJob := none
  /-- The job waits for a page fault to be serviced (R206). -/
  fault : Bool := false
  trap : Option Deferred := none
  deriving DecidableEq, Repr

/-- A stage ring (R297): indices, and the F, P, producer-hold and consumer-hold bits of its stages. -/
structure Ring where
  ip : Nat := 0
  ic : Nat := 0
  full : List Bool := []
  phase : List Bool := []
  heldP : List Bool := []
  heldC : List Bool := []
  deriving DecidableEq, Repr

/-- A q register's binding (R270, R271). -/
structure QBind where
  chan : Nat
  reader : Bool
  map : Option Nat
  deriving DecidableEq, Repr

/-- Slot states of a landing zone (R431). -/
inductive ZState where
  | free | reserved | filling | arrived | torn | closed
  deriving DecidableEq, Repr

/-- One slot of a zone: state, the reserving sender, bytes accepted, which of its bytes stand in the backing area (from, to), and whether a
byte of its payload was refused at a live barrier word (R295). -/
structure ZSlot where
  state : ZState := .free
  sender : Option Sender := none
  got : Nat := 0
  inback : Option (Nat × Nat) := none
  marred : Bool := false
  deriving DecidableEq, Repr

/-- A landing zone (R429 to R433). -/
structure Zone where
  open_ : Bool := false
  name : Nat := 0
  backing : Addr := 0
  base : Nat := 0
  size : Nat := 0
  target : Nat := 1
  phase : Bool := false
  pend : Nat := 0
  slots : List ZSlot := []
  deriving DecidableEq, Repr

/-- A bound register (R380). -/
structure Bound where
  policy : Nat := 0
  type : Nat := 0
  lo : Nat := 0
  hi : Nat := 0
  count : Nat := 0
  v : Bool := false
  first : Addr := 0
  f : Bool := false
  deriving DecidableEq, Repr

/-- A warp's issue state (R155, R303). -/
structure Warp where
  num : Nat := 0
  streak : Nat := 0
  mark : Nat := 0
  opReady : Bool := false
  deriving DecidableEq, Repr

/-- A fused group (R158): its two warps and its threads. -/
structure Fused where
  w : Nat
  x : Nat
  threads : List Nat
  deriving DecidableEq, Repr

/-- A store or `atomord` of an ordered launch, with its key (R397 to R401): `op` 0 a store, else the atomic operation code
plus 1; the data stored, or the operand; the issuing thread, and the load that waits for the old value. -/
structure OrdOp where
  g : Nat
  e : Nat
  t : Nat
  s : Nat
  op : Nat
  type : Ty
  va : Nat
  pa : Nat
  data : List Byte
  core : Nat
  slot : Nat
  load : Option Nat := none
  spilled : Bool := false
  /-- The issuing warp and lane, which a spill record names (R401). -/
  warp : Nat := 0
  lane : Nat := 0
  deriving DecidableEq, Repr

/-- A buffered store of a rollback interval (R384): the device that owns the page (none: this one's HBM), the physical address,
the bytes, the cycle it entered, and its key in an ordered launch (R402). -/
structure BufStore where
  dev : Option Nat
  pa : Nat
  data : List Byte
  time : Nat
  ord : Option OrdOp := none
  /-- The store is to a UO page, which release events do not cover (R220). -/
  uo : Bool := false
  /-- Its virtual address, for the fresh walk that an invalidation asks for (R235). -/
  va : Nat := 0
  deriving DecidableEq, Repr

/-- What a basting holds (R383). -/
structure Basting where
  threads : List Thread
  scratch : Sparse Byte
  tags : List Nat
  tiles : List Tile
  rings : List Ring
  acc : Sparse V32
  bds : List Bound
  /-- Roles that were being rebuilt (R166). -/
  rebuild : List (Nat × Nat)
  deriving DecidableEq, Repr

/-- A workgroup resident on a core, or standing in a save image (R391). -/
structure Wg where
  vf : Nat := 0
  launch : Nat := 0
  hdr : Header := {}
  base : Nat := 0
  g : Nat := 0
  /-- Placed from a group of the launch (true) or from a record (R169). -/
  isGroup : Bool := true
  frame : Addr := 0
  threads : List Thread := []
  warps : List Warp := []
  fused : List Fused := []
  /-- First granule of the scratchpad run (R195), first register row (R202). -/
  gran : Nat := 0
  row : Nat := 0
  tiles : List Tile := []
  tags : List Nat := []
  rings : List Ring := []
  qs : List (Option QBind) := []
  zones : List Zone := []
  bds : List Bound := []
  acc : Sparse V32 := []
  accTrap : List (Nat × Deferred) := []
  /-- Accumulator elements with an uncorrectable error, by their place (R378). -/
  accPoison : List Nat := []
  /-- Physical macro of each granted handle (R474). -/
  macs : List (Nat × Nat) := []
  pins : List Nat := []
  /-- Matrix status (R338). -/
  pflags : BitVec 5 := 0
  dflags : BitVec 5 := 0
  drainErr : Bool := false
  /-- Tags of copy commands that have failed, as a mask (R319, R321). -/
  failTags : Nat := 0
  errps : Nat := 0
  /-- Rollback mode (R387): count, seal reason (0: not sealed), buffer, basting, addresses that have rolled it back since the basting. -/
  rbCount : Nat := 0
  sealed : Nat := 0
  sbuf : List BufStore := []
  basting : Option Basting := none
  rbAddrs : List Nat := []
  /-- Stall counters of R288. -/
  stallSlots : Nat := 0
  stallEmpty : Nat := 0
  stallFull : Nat := 0
  /-- Roles being rebuilt, and when they may issue (R166). -/
  rebuild : List (Nat × Nat) := []
  /-- Program stores this workgroup has loaded (R334). -/
  epiLoaded : List (Nat × List V32) := []
  /-- First issue not before this global time (a gang's tick, R426), and not before this cycle (its granules are ready, R196). -/
  notBefore : Nat := 0
  readyAt : Nat := 0
  waitingGang : Bool := false
  /-- The launch was killed or the last thread exited; resources are settling (R394). -/
  ending : Bool := false
  killed : Bool := false
  /-- The workgroup leaves its core (R390): 1 pre-empted, 2 for a fetch fault. It issues nothing. -/
  leaving : Nat := 0
  /-- The threads whose fetch found no translation, and that address. -/
  fetchAt : Option (List Nat × Nat) := none
  /-- Number of its start among all starts (R389). -/
  started : Nat := 0
  deriving DecidableEq, Repr

/-! ## Memory -/

/-- A valid level-5 translation held by a core (R210, R211). -/
structure Pte where
  frame : Nat := 0
  rm : Bool := false
  dev : Nat := 0
  mig : Nat := 0
  pin : Bool := false
  ds : Bool := false
  kind : Nat := 0
  x : Bool := false
  w : Bool := false
  rd : Bool := false
  large : Bool := false
  malformed : Bool := false
  deriving DecidableEq, Repr

/-- An L1 line (R194): its bytes, which of them are dirty, when it was filled and first written, and the way (the granule) that holds it. -/
structure Line where
  bytes : List Byte
  dirty : List Bool
  filled : Nat
  firstWrite : Option Nat
  way : Nat := 27
  deriving DecidableEq, Repr

/-- Where a load's bytes go (R138): a v register or pair by type, a group of v registers, a k register by type, an a register; or
the PC, for the refill of a `ret` (R19). -/
inductive LoadDst where
  | v (t : Ty) (r : Nat)
  | wide (r : Nat)
  | k (t : Ty) (r : Nat)
  | a (r : Nat)
  | pc
  deriving DecidableEq, Repr

/-- A piece of a lane's data: bytes that have been read, or a count of bytes another agent still owes. -/
inductive Piece where
  | got (bs : List Byte)
  | owed (n : Nat)
  deriving DecidableEq, Repr

/-- A load or returning atomic whose data has not come back (R140): what each lane reads, and which threads receive it (all of
`threads` from the one lane of a uniform load). -/
structure PendLoad where
  id : Nat
  slot : Nat
  dst : LoadDst
  threads : List Nat
  lanes : List (Nat × List Piece)
  /-- The `atomord` of one thread in an ordered launch (R400). -/
  keyed : Bool := false
  /-- The access's order and scope, for what follows it in its thread (R221). -/
  order : Ord := .plain
  scope : Nat := 0
  deriving DecidableEq, Repr

/-- A faulted instruction (R373): an operand-log entry when `log` is set. -/
structure FaultRec where
  id : Nat
  slot : Nat
  threads : List Nat
  pc : Addr
  w : Nat
  ext : Option Nat
  log : Option Nat
  /-- Register state of the faulted threads at the fault, from which the replay reads its sources. -/
  saved : List (Nat × Thread)
  /-- Old values of registers written past the fault, newest first: (thread, bank, register, value). -/
  undo : List (Nat × Nat × Nat × Nat)
  /-- Fault-queue entries still unresolved, and the failing address and lane of the lowest unresolvable one. -/
  pend : Nat
  failed : Option (Nat × Nat × Nat)
  deriving DecidableEq, Repr

/-! ## Format slots -/

/-- A format record on a plane (R343). -/
structure Fmt where
  kind : Nat
  ebits : Nat
  w : Nat
  flags : Nat
  serial : Nat := 0
  keyid : Nat := 0
  digest : Nat := 0
  expbits : Nat := 0
  fracbits : Nat := 0
  bias : Int := 0
  table : List Nat := []
  keyidx : Nat := 0
  kilvas : Bool := false
  deriving DecidableEq, Repr

/-- The planes of a loadable slot on one core (R342). -/
structure Planes where
  p0 : Option Fmt := none
  p1 : Option Fmt := none
  cv : Nat := 0
  /-- Installs waiting for the shadow plane to be free (R350): request number and record. -/
  todo : List (Nat × Fmt) := []
  /-- The cycle at which the shadow plane being written is complete. -/
  writing : Option Nat := none
  deriving DecidableEq, Repr

/-! ## Engines -/

/-- The copy commands of R315, R316 and R438, with their operands as read at issue. -/
inductive CopyKind where
  | g2t (t : Nat) (src : Addr)
  | t2g (dst : Addr) (t : Nat)
  | g2g (dst src : Addr) (n : Nat)
  | gather (t : Nat) (srcs : List Addr) (off sz : Nat)
  | scatter (dsts : List Addr) (t : Nat) (off sz : Nat)
  | fill (dst : Addr) (v : K64) (n : Nat)
  | fillTile (t : Nat) (v : K64)
  | t2t (d s : Nat) (targets : List Nat)
  | t2tReg (s : Nat) (target warp reg : Nat)
  | stamp (addr : Addr) (v : K64) (mask : Nat) (sys : Bool)
  | lzSend (name : Nat) (zslot : Nat) (t : Nat) (addr : Addr) (path : Nat) (any : Bool)
  deriving DecidableEq, Repr

/-- A command in a core's copy engine (R290). -/
structure Copy where
  id : Nat
  slot : Nat
  seq : Nat
  kind : CopyKind
  size : Nat
  bar : Option Nat
  tag : Nat
  bd : Option (Nat × Bound)
  started : Bool := false
  done : List Nat := []
  /-- Source bytes as read (a multicast reads each byte once, R318). -/
  data : List Byte := []
  failed : Bool := false
  waitFault : Option Nat := none
  port : Nat := 0
  /-- The scratchpad offset of an uncorrectable error in the source of a copy to other workgroups (R321). -/
  bad : Option Nat := none
  deriving DecidableEq, Repr

/-- A B operand in a macro (R299): the rows' packed bytes and the record they were read through. -/
structure BTile where
  fmt : Fmt
  bytes : List Byte
  deriving DecidableEq, Repr

/-- One row of a pass: its accumulator row and its packed A bytes with scale bytes (R323). -/
structure ARow where
  row : Nat
  bytes : List Byte
  scales : List Nat
  deriving DecidableEq, Repr

/-- Work queued on the matrix unit (R299 to R304, R332). -/
inductive MatWork where
  | pass (acc : Nat) (ov : Bool) (slotNo plane : Nat) (fmt : Fmt) (bver : Nat) (rows : List ARow) (tile : Option Nat)
  | load (tile : Nat) (slotNo plane : Nat) (fmt : Fmt)
  | free
  | accWr (acc : Nat) (vals : List (Nat × Nat × V32))
  | accZero (acc : Nat)
  deriving DecidableEq, Repr

/-- One queued piece of matrix work: number, issue number, workgroup slot, physical macro. -/
structure MatItem where
  id : Nat
  seq : Nat
  slot : Nat
  mac : Nat
  work : MatWork
  started : Bool := false
  doneAt : Nat := 0
  onToken : Bool := false
  deriving DecidableEq, Repr

/-- A physical macro (R299, R307). -/
structure Mac where
  b : Option BTile := none
  bver : Nat := 0
  powered : Bool := false
  /-- The macro is off and has been woken: it is on from the cycle `busy` on (R307). -/
  waking : Bool := false
  /-- The cycle at which the macro is free again. -/
  busy : Nat := 0
  /-- The cycle at which its queue was last seen to empty. -/
  lastUse : Nat := 0
  deriving DecidableEq, Repr

/-- A drain (R305, R335): queued, then running at a row and a word. -/
structure Drain where
  id : Nat
  seq : Nat
  slot : Nat
  acc : Nat
  ps : Nat
  words : List V32
  td : Nat
  tv : Option Nat
  stride : Nat
  z : Bool
  fmts : List (Nat × Nat × Fmt)
  bds : List (Nat × Bound)
  seed : V32
  running : Bool := false
  row : Nat := 0
  pc : Nat := 0
  /-- e0 to e7 as 64-element rows: key 64 e + element. -/
  e : Sparse V32 := []
  deriving DecidableEq, Repr

/-- An `epi.load`, or a restore of a program store, that waits for queued drains (R334). -/
structure EpiLoad where
  id : Nat
  seq : Nat
  slot : Nat
  ps : Nat
  tile : Option Nat
  words : List V32
  deriving DecidableEq, Repr

/-- One core. -/
structure Core where
  scratch : Sparse Byte := []
  boundary : Nat := 0
  l1 : Sparse Line := []
  icache : Sparse Nat := []
  tlb : Sparse Pte := []
  owner : Option Nat := none
  planesOf : Option Nat := none
  planes : Sparse Planes := []
  stores : Sparse V32 := []
  loads : List PendLoad := []
  copies : List Copy := []
  mats : List MatItem := []
  macs : Sparse Mac := []
  drains : List Drain := []
  epis : List EpiLoad := []
  faults : List FaultRec := []
  /-- The warp granted last (R155): the rotation goes on from the one after it. -/
  lastWarp : Nat := 63
  /-- The cycle of the last slot granted, and the warps that used the slots of that cycle, one list a slot (R155). -/
  grantCycle : Nat := 0
  granted : List (List Nat) := []
  /-- A warp the rotation came to while its fused mate's issue was using its slot: it is granted the next slot (R155, R158). -/
  passed : Option Nat := none
  cycle0 : Nat := 0
  fenced : Bool := false
  errors : Nat := 0
  poison : List Nat := []
  deriving DecidableEq, Repr

/-! ## Virtual functions -/

/-- A channel (R266 to R269), its elements oldest first. -/
structure Chan where
  state : Nat := 1
  t : Bool := false
  x : Bool := false
  peer : Nat := 0
  esize : Nat := 4
  bob : Nat := 0
  smax : Nat := 0
  scur : Nat := 0
  home : Nat := 0
  spool : Addr := 0
  sent : Nat := 0
  recvd : Nat := 0
  growths : Nat := 0
  /-- Writer and reader bindings: core, slot, q register, parked (R269). -/
  wbind : Option (Nat × Nat × Nat) := none
  rbind : Option (Nat × Nat × Nat) := none
  wB : Bool := false
  rB : Bool := false
  wP : Bool := false
  rP : Bool := false
  emptyns : Nat := 0
  fullns : Nat := 0
  bobbin : List (List Byte) := []
  spooled : List (List Byte) := []
  /-- Credits of a cross-device writer (R428); elements waiting for a spool fault. -/
  credits : Nat := 0
  spoolWait : Bool := false
  deriving DecidableEq, Repr

/-- A continuation record in a queue (R169). -/
structure Record where
  code : Addr := 0
  frame : Addr := 0
  launch : Nat := 0
  base : Nat := 0
  prio : Nat := 0
  /-- The 64 bytes as they stood, for a record pushed by a thread. -/
  bytes : List Byte := []
  deriving DecidableEq, Repr

/-- An ownership-table entry (R398): private to an owner, with its pre-image and records, or shared. -/
structure OwnLine where
  shared : Bool := false
  owner : Nat := 0
  pre : Option (List Byte) := none
  recs : List OrdOp := []
  deriving DecidableEq, Repr

/-- The state of a gang launch (R426). -/
structure Gang where
  members : List Nat
  tick : Nat
  digest : Nat
  got : List (Nat × Nat) := []
  placed : Bool := false
  started : Bool := false
  deriving DecidableEq, Repr

/-- A placed launch (R168 to R170). -/
structure Launch where
  id : Nat
  hdr : Header
  stampVal : K64 := 0
  track : Nat := 0
  count : Nat := 0
  nextGroup : Nat := 0
  running : Nat := 0
  records : Nat := 0
  killed : Bool := false
  done : Bool := false
  reserved : Nat := 0
  /-- A unit of the launch was returned by a digest mismatch (R174): whether a slot load has happened since. -/
  mism : Option Bool := none
  /-- What is still to be written when the launch has ended: 0 gcount, 1 the stamp; and whether the write waits for a fault (1) or
  cannot be made (2). -/
  closing : Nat := 0
  fault : Nat := 0
  /-- The launch was killed by a function reset: no stamp is written (R453). -/
  silent : Bool := false
  /-- Since when a unit of level 3 has waited for room (R389). -/
  waitSince : Option Nat := none
  gang : Option Gang := none
  ended : List Nat := []
  own : Sparse OwnLine := []
  held : List OrdOp := []
  /-- Pages of the spill log (R401). -/
  logPages : List Nat := []
  deriving DecidableEq, Repr

/-- The graph walker's context (R176). -/
structure Walker where
  graph : Addr
  count : Nat
  node : Nat
  cmd : Cmd
  placed : List Nat := []
  tracks : List (Nat × Nat) := []
  /-- 1: the launch of the node waits for check 8 (R168). -/
  room : Bool := false
  /-- 1: a page of the walker's access is being brought in; 2: it cannot be; and the address of that access. -/
  fault : Nat := 0
  faultVa : Nat := 0
  deriving DecidableEq, Repr

/-- A fault-queue entry (R376). -/
structure FaultEntry where
  va : Nat
  time : Nat
  core : Nat
  slot : Nat
  warp : Nat
  kind : Nat
  access : Nat
  olog : Nat
  flags : Nat
  lanes : Nat
  wid : Nat
  launch : Nat
  /-- Whom a service releases: fault record, copy command, tile, channel, record queue level, image. -/
  rec_ : Nat
  deriving DecidableEq, Repr

/-- An error-log entry (R382). -/
structure LogEntry where
  time : Nat
  seq : Nat
  source : Nat
  code : Nat
  info : Nat
  core : Nat
  aux : Nat
  addr : Nat
  deriving DecidableEq, Repr

/-- A save image (R391): the workgroup and what its core held for it. -/
structure Image where
  wg : Wg
  scratch : Sparse Byte
  cmds : List Copy
  faults : List FaultRec
  mats : List (Nat × Mac)
  /-- Poisoned words of its scratchpad. -/
  poison : List Nat := []
  /-- Loads that another agent still owes. -/
  loads : List PendLoad := []
  /-- The fault a fetch-fault swap-out waits for (R377): its number; and whether it cannot be resolved. -/
  fetchFault : Option Nat
  time : Nat
  core : Nat
  failed : Bool := false
  /-- The image's number, and the pages it lies in. -/
  id : Nat := 0
  pages : List Nat := []
  deriving DecidableEq, Repr

/-- An entry of the function's slot table (R352); its pins stand with the workgroups that hold them (`Wg.pins`). -/
structure SlotEntry where
  fmt : Option Fmt := none
  gen : Nat := 0
  deriving DecidableEq, Repr

/-- A request to the loader (R346): the workgroup that waits for it names its number; a host command stands in it. `fault` is 1 while
a page of the record is being brought in, and 2 when it cannot be. -/
structure LoadReq where
  id : Nat
  slot : Nat
  addr : Nat
  cmd : Option Cmd
  fault : Nat := 0
  deriving DecidableEq, Repr

/-- A load that has been accepted and has not retired: the cores that have not flipped (R350). -/
structure Install where
  vf : Nat
  req : LoadReq
  cores : List Nat
  deriving DecidableEq, Repr

/-- A zone directory entry (R429): opens so far, and whether a zone holds it. -/
structure ZoneDir where
  gen : Nat := 0
  taken : Bool := false
  deriving DecidableEq, Repr

/-- One virtual function (128 is the physical function, which has rings but no tenant). -/
structure Fn where
  /-- 0 unassigned, 1 active, 2 resetting, 3 ready (R444). -/
  state : Nat := 3
  regs : Sparse K64 := []
  /-- Commands read from the ring and not started yet, 64 bytes each (R445); graph runs that wait for the walker. -/
  cmds : List (List Byte) := []
  runs : List (Cmd × Nat × Nat × Nat) := []
  /-- Translate commands that complete no earlier than a time (R462). -/
  translating : List (Cmd × Nat) := []
  compl : List (List Byte × Bool) := []
  root : Nat := 0
  keys : Sparse Nat := []
  slots : Sparse SlotEntry := []
  chans : Sparse Chan := []
  queues : Sparse (List Record) := []
  qk : List Nat := [10, 10, 10, 10]
  /-- Pages of the four record queues and, under 4, the fault queue. -/
  ringPages : Sparse (List Nat) := []
  faults : List FaultEntry := []
  fk : Nat := 8
  log : List LogEntry := []
  /-- Sequence number of the next error-log entry (R382). -/
  seq : Nat := 0
  elog : Addr := 0
  walker : Option Walker := none
  /-- The launches in the walker's track slots between runs (R177). -/
  tracks : List (Nat × Nat) := []
  zdir : Sparse ZoneDir := []
  weight : Nat := 1
  deficit : Int := 0
  turn : Nat := 0
  /-- Which source of each level was served last (R173). -/
  lastSrc : Sparse Nat := []
  g : Nat := 0
  b : Nat := 0
  held : List Nat := []
  freePages : List Nat := []
  tablePages : List Nat := []
  /-- Host backing: address, bytes (R448). -/
  backing : Nat := 0
  backingSize : Nat := 0
  evicted : Sparse (Nat × Nat) := []
  domain : Option Nat := none
  invSeq : Nat := 0
  launches : List Launch := []
  images : List Image := []
  scan : Option (List Nat × List (Nat × Nat × Nat)) := none
  reported : Option (List Nat × List (Nat × Nat × Nat)) := none
  loads : List LoadReq := []
  scrubbed : Bool := false
  testing : List Nat := []
  resetCmd : Option Cmd := none
  fencedNow : Nat := 0
  ownedCores : List Nat := []
  waitL3 : Option Nat := none
  /-- Pre-empt commands under way: the starts of the workgroups that have not left yet. -/
  preempts : List (Cmd × List Nat) := []
  deriving DecidableEq, Repr

/-! ## The device -/

/-- A translated image (R462): its key, its code, the time its translation took, its visibility mask, and when it was last used. -/
structure TrImage where
  key : Nat
  code : List Byte
  took : Nat
  mask : Nat
  used : Nat
  deriving DecidableEq, Repr

/-- An invalidation the hub holds (R416): its function and range, its number, the completion word or command, the dies that have
acknowledged, and what firmware does once it completes: pages to release (R447), or a page to move to another (R236). -/
structure InvReq where
  vf : Nat
  base : Nat
  count : Nat
  seq : Nat
  word : Option Nat
  cmd : Option (Cmd × Nat)
  acks : List Nat := []
  release : List Nat := []
  /-- A page that migrates, and its new place: a page of this device, or, from 2⁴⁰ on, a device (R236, R427). -/
  move : Option (Nat × Nat) := none
  /-- Devices that have still to acknowledge (R417). -/
  devs : List Nat := []
  deriving DecidableEq, Repr

/-- A page on its way to another device (R427): its function, its old page, the places of its entries, and the device. -/
structure FarMove where
  vf : Nat
  old : Nat
  entries : List Nat
  dev : Nat
  deriving DecidableEq, Repr

/-- The issue group whose instruction is being executed (R156). -/
structure Ig where
  core : Nat
  slot : Nat
  threads : List Nat
  pc : Addr
  w : Nat
  ext : Option Nat
  deriving DecidableEq, Repr

/-- A token a cluster holds (R306): the cluster, the cycle it took it, and whether its hold has run out. -/
structure Token where
  cluster : Nat
  since : Nat
  closed : Bool := false
  deriving DecidableEq, Repr

/-- The token ring of one die (R306): tokens held, the clusters of the die that the passing tokens stand at, and how many tokens are
still to be taken out after the limit was lowered. -/
structure TokenRing where
  held : List Token := []
  ring : List Nat := []
  retire : Nat := 0
  deriving DecidableEq, Repr

/-- Everything but the clock and the agenda. -/
structure Mach where
  ig : Option Ig := none
  pick : Option (Nat × Nat × List Nat) := none
  cores : Sparse Core := []
  /-- Resident workgroups, by core × 64 + slot. -/
  wgs : Sparse Wg := []
  fns : Sparse Fn := []
  /-- HBM and firmware memory by physical address (R200, R201). -/
  mem : List Host.Cell := []
  host : List Host.Cell := []
  /-- Poisoned 128-byte lines of memory (R378). -/
  poison : List Nat := []
  /-- The global dispatcher: function visited last, die served last (R173). -/
  lastFn : Nat := 127
  lastDie : Nat := 7
  lastLoader : Nat := 127
  installs : List Install := []
  hub : List InvReq := []
  /-- Lines marked first to evict from L2 (R200). -/
  l2First : List Nat := []
  /-- Pages on their way to other devices (R427). -/
  moving : List FarMove := []
  limit : Nat := 2400
  tokens : Nat := 7
  idle : Nat := 4096
  devnum : Nat := 0
  rings : Sparse TokenRing := []
  powerStage : Nat := 0
  powerSum : List Nat := []
  portsDown : List Nat := []
  portTries : Sparse Nat := []
  routes : Sparse (List Nat) := []
  /-- Messages sent to peer devices and interrupts and messages posted to the host, oldest first. -/
  linkOut : List (Nat × List Byte) := []
  hostOut : List (Nat × Nat × List Byte) := []
  timeRef : Nat := 0
  slew : Int := 0
  images : List TrImage := []
  access : Sparse Nat := []
  lastMove : Sparse Nat := []
  /-- Frames held by functions (R448): frame to function. -/
  frameOf : Sparse Nat := []
  fwRunning : Bool := true
  fusedMin : Nat := 0
  lastTestOk : Bool := true
  /-- Numbers for commands, loads and faults, and the issue number. -/
  nextId : Nat := 0
  seq : Nat := 0
  /-- The next fresh free value (log 32). -/
  fresh : Nat := 0
  due : List (Nat × Nat) := []
  deriving DecidableEq, Repr

/-- The clock (R421): core cycles since device reset, the global counter in ns, and its ninths of a ns. (The ns still owed to slewing stand in
`Mach.slew`.) -/
structure Clock where
  cycle : Nat := 0
  time : Nat := 0
  frac : Nat := 0
  deriving DecidableEq, Repr

/-- What the environment makes happen next (log 4): an event or command, time passing, a core granting an issue slot, or an
uncorrectable error appearing in memory, in a scratchpad or in an accumulator (R378). -/
inductive Move where
  | event (i : Instr)
  | elapse (cycles : Nat)
  | grant (core : Nat)
  | poisonMem (line : Nat)
  | poisonScratch (core word : Nat)
  | poisonAcc (core slot acc row col : Nat)
  deriving DecidableEq, Repr

/-- The machine. -/
structure State where
  clk : Clock := {}
  agenda : List Move := []
  m : Mach := {}
  deriving DecidableEq, Repr

/-- The machine right after device reset: every unit idle, no function assigned, nothing placed (R421, R444, and the log's
entries for what the spec gives no value). -/
def State.reset : State := {}

end Sys2Proof.Machine
end

