-- ==== Sys2Proof/Machine/Ops.lean ====
section
/-! DEFINITION. The named operations every meaning is built from: the clock, the units of the machine by number, memory, the
page walk and `Translate`, L1, the error log, registers, the issue group and its active lanes, retiring, waiting, and taking a
trap and returning from one. -/
namespace Sys2Proof.Machine

/-! ## The clock (R421) -/

/-- `n` core cycles pass: at 1.8 GHz a cycle is 5/9 ns of the 1 GHz counter. -/
def Clock.tick (c : Clock) (n : Nat) : Clock :=
  { cycle := c.cycle + n, time := c.time + (c.frac + 5 * n) / 9, frac := (c.frac + 5 * n) % 9 }
/-- The time counter as software reads it: 64 bits. -/
def Clock.timeWord (c : Clock) : K64 := BitVec.ofNat 64 c.time

/-! ## Units by number -/

namespace Mach
/-- Core `c`; one nothing has touched is in its reset state. -/
def core (m : Mach) (c : Nat) : Core := (tget m.cores c).getD {}
def setCore (m : Mach) (c : Nat) (x : Core) : Mach := { m with cores := tset m.cores c x }
def modCore (m : Mach) (c : Nat) (f : Core → Core) : Mach := m.setCore c (f (m.core c))
/-- The workgroup in a slot of a core. -/
def wg? (m : Mach) (core slot : Nat) : Option Wg := tget m.wgs (core * 64 + slot)
def setWg (m : Mach) (core slot : Nat) (w : Wg) : Mach := { m with wgs := tset m.wgs (core * 64 + slot) w }
def modWg (m : Mach) (core slot : Nat) (f : Wg → Wg) : Mach :=
  match m.wg? core slot with | none => m | some w => m.setWg core slot (f w)
def delWg (m : Mach) (core slot : Nat) : Mach := { m with wgs := terase m.wgs (core * 64 + slot) }
/-- Resident workgroups of a core, with their slots. -/
def wgsOf (m : Mach) (c : Nat) : List (Nat × Wg) :=
  (m.wgs.filter (fun e => e.1 / 64 == c)).map (fun e => (e.1 % 64, e.2))
def fn (m : Mach) (f : Nat) : Fn := (tget m.fns f).getD {}
def setFn (m : Mach) (f : Nat) (x : Fn) : Mach := { m with fns := tset m.fns f x }
def modFn (m : Mach) (f : Nat) (g : Fn → Fn) : Mach := m.setFn f (g (m.fn f))
/-- The next command, load or fault number. -/
def newId (m : Mach) : Nat × Mach := (m.nextId, { m with nextId := m.nextId + 1 })
/-- A value nothing constrains (log 32), and the counter advanced. -/
def free (m : Mach) : Nat × Mach := (Config.freeValue m.fresh, { m with fresh := m.fresh + 1 })
end Mach

/-! ## Memory as bytes (R200, R414, R443) -/

/-- Firmware's frames are the lowest 512 of 32,768; the capability mirror is the first two pages of frame 1 (log 13). -/
def fwBytes : Nat := 512 * 2 ^ 25
def mirrorBase : Nat := 2 ^ 25

/-- An entry of the distance table (R415): 0 to itself, the four printed figures, and otherwise the part's own (log 33). -/
def distanceOf (u v : Nat) : Nat :=
  if u = v then 0
  else if u = 3 ∧ v = 15 then 29 else if u = 3 ∧ v = 27 then 41 else if u = 3 ∧ v = 183 then 112 else if u = 3 ∧ v = 224 then 47
  else Config.distance u v
/-- The capability block as it stands at reset (R414). -/
def capByte (off : Nat) : Byte :=
  if off < 0x20 then
    ([0x42, 0x43, 1, 0, 0x00, 0x05, 8, 10, 0x08, 0x07, 0xE8, 0x03, 180, 0, 0x00, 0x10, 7, 0, 0x60, 0x09, 0x28, 0x0A, 64, 0, 0, 0, 6, 0, 1, 0] :
      List Byte).getD off 0
  else if 0x1000 ≤ off ∧ off < 0x1000 + 2 * 50625 then
    let i := (off - 0x1000) / 2
    (leBytes 2 (distanceOf (i / 225) (i % 225))).getD (off % 2) 0
  else 0
/-- What an unlisted byte of HBM reads as: the capability mirror's contents at reset, and 0 elsewhere (log 1). -/
def unlisted (a : Nat) : Byte := if mirrorBase ≤ a ∧ a < mirrorBase + 131072 then capByte (a - mirrorBase) else 0

/-- The canonical form: addresses strictly rising, no entry equal to what an unlisted address reads as. -/
def Memory.wf (m : List Host.Cell) : Bool := sortedFrom none m && m.all (fun c => c.2 ≠ unlisted c.1)
def Memory.read (m : List Host.Cell) (a : Nat) : Byte := (tget m a).getD (unlisted a)
def Memory.write (m : List Host.Cell) (a : Nat) (b : Byte) : List Host.Cell := if b = unlisted a then terase m a else tset m a b
/-- `n` bytes from `a` upward. -/
def Memory.readN (m : List Host.Cell) (a : Nat) : Nat → List Byte
  | 0 => []
  | n + 1 => Memory.read m a :: Memory.readN m (a + 1) n
/-- Bytes stored from `a` upward. -/
def Memory.writeL (m : List Host.Cell) (a : Nat) : List Byte → List Host.Cell
  | [] => m
  | b :: bs => Memory.writeL (Memory.write m a b) (a + 1) bs

/-- Host memory (R443): an unlisted byte reads as 0 (log 2). -/
def HostMem.wf (m : List Host.Cell) : Bool := swf (0 : Byte) m
def HostMem.readN (m : List Host.Cell) (a : Nat) : Nat → List Byte
  | 0 => []
  | n + 1 => sget 0 m a :: HostMem.readN m (a + 1) n
def HostMem.writeL (m : List Host.Cell) (a : Nat) : List Byte → List Host.Cell
  | [] => m
  | b :: bs => HostMem.writeL (sset 0 m a b) (a + 1) bs

/-- A little-endian number in physical memory. -/
def Mach.physNat (m : Mach) (pa n : Nat) : Nat := leNat (Memory.readN m.mem pa n)
/-- A store to memory takes the poison off a 128-byte line it rewrites whole (R378). -/
def Mach.physWrite (m : Mach) (pa : Nat) (bs : List Byte) : Mach :=
  { m with mem := Memory.writeL m.mem pa bs,
           poison := m.poison.filter (fun l => !(pa ≤ l * 128 && l * 128 + 128 ≤ pa + bs.length)) }

/-! ## Pages and translation (R208 to R211) -/

/-- A frame address outside HBM or inside firmware's frames (R210). -/
def badFrame (pa : Nat) : Bool := !physAnswers .translated pa || (pa < fwBytes && !(mirrorBase ≤ pa && pa < mirrorBase + 131072))
/-- A frame address in the capability mirror. -/
def inMirror (pa : Nat) : Bool := mirrorBase ≤ pa && pa < mirrorBase + 131072

/-- A page outside the frames an entry may name: of a large page, all 32 MiB (R210). -/
def badPage (large : Bool) (pa : Nat) : Bool := if large then !physAnswers .translated pa || pa < fwBytes else badFrame pa
/-- Is a level-5 entry malformed (R210)? -/
def entryMalformed (e : Nat) : Bool :=
  (field e 0 1 == 1 && field e 4 1 == 1 && field e 5 1 == 1) || field e 13 3 != 0 || field e 52 12 != 0 || field e 1 1 == 1 ||
  4 < field e 10 3 || (field e 2 1 == 1 && field e 16 9 != 0) ||
  (field e 0 1 == 1 && field e 75 1 == 0 && badPage (field e 2 1 == 1) (field e 16 36 * 65536)) ||
  (field e 0 1 == 1 && field e 75 1 == 0 && inMirror (field e 16 36 * 65536) &&
    (field e 4 1 == 1 || field e 5 1 == 1 || field e 6 2 != 0)) ||
  field e 76 2 == 3 || (field e 76 2 != 0 && field e 0 1 == 1)

/-- The fields of a level-5 entry. -/
def pteOf (e : Nat) : Pte :=
  { frame := field e 16 36, rm := field e 75 1 == 1, dev := field e 64 11, mig := field e 10 3, pin := field e 9 1 == 1,
    ds := field e 8 1 == 1, kind := field e 6 2, x := field e 5 1 == 1, w := field e 4 1 == 1, rd := field e 3 1 == 1,
    large := field e 2 1 == 1, malformed := entryMalformed e }

/-- A malformed root or upper-level entry: must-be-zero bits are all but V, T, frame and sw, and the table it names lies where a frame may
(R210). -/
def upperMalformed (e : Nat) : Bool :=
  field e 1 1 == 0 || field e 2 14 != 0 || field e 52 12 != 0 || field e 64 14 != 0 || badFrame (field e 16 36 * 65536)

/-- How a walk ends. -/
inductive WalkRes where
  | none_
  | leaf (p : Pte) (entryAt : Nat)
  deriving DecidableEq, Repr

/-- Walk `levels` tables from the entry at `at_` (R208); `idx` are the remaining 12-bit indices, level 1 first. A malformed upper
entry is a leaf that grants nothing. -/
def walkFrom (m : Mach) (at_ : Nat) : List Nat → WalkRes
  | [] =>
    let e := m.physNat at_ 16
    if field e 0 1 == 0 then .none_
    else if field e 2 1 == 1 then
      -- the first entry of the aligned group of 512 (R208)
      let base := at_ / 8192 * 8192
      let g := m.physNat base 16
      if field g 0 1 == 0 then .none_ else .leaf (pteOf g) base
    else .leaf (pteOf e) at_
  | i :: rest =>
    let e := m.physNat at_ 16
    if field e 0 1 == 0 then .none_
    else if upperMalformed e then .leaf { malformed := true } at_
    else walkFrom m (field e 16 36 * 65536 + 16 * i) rest

/-- The indices of a virtual address at levels 1 to 5 (R208). -/
def vaIndices (va : Nat) : List Nat := [field va 64 12, field va 52 12, field va 40 12, field va 28 12, field va 16 12]
/-- The walk of a function's space from its root table (R209). -/
def walk (m : Mach) (vf va : Nat) : WalkRes := walkFrom m ((m.fn vf).root + 16 * field va 76 4) (vaIndices va)

/-- The kinds of R211. -/
inductive Access where
  | read | write | execute | engineRead | engineWrite
  deriving DecidableEq, Repr
def Access.writes : Access → Bool | .write | .engineWrite => true | _ => false
def Access.engine : Access → Bool | .engineRead | .engineWrite => true | _ => false

/-- What `Translate` answers (R211). `kind` is the page's. -/
inductive Trans where
  | noTranslation
  | channelPage
  | violation
  | discarded
  | zeroData
  | remote (dev pa kind : Nat)
  | ok (pa kind : Nat)
  deriving DecidableEq, Repr

/-- The page kind's right for an access. -/
def Pte.allows (p : Pte) : Access → Bool
  | .read | .engineRead => p.rd
  | .write | .engineWrite => p.w
  | .execute => p.x

/-- The physical address of `va` in a page (R208): a large page keeps 25 offset bits. -/
def Pte.pa (p : Pte) (va : Nat) : Nat :=
  if p.large then p.frame / 512 * 33554432 + va % 33554432 else p.frame * 65536 + va % 65536

/-- `Translate` on a page-table entry (R211). -/
def transPte (p : Pte) (va : Nat) (k : Access) : Trans :=
  if p.kind = 3 ∧ k.engine = false then .channelPage
  else if p.kind ≠ 3 ∧ k.engine = true then .violation
  else if p.malformed || !p.allows k then .violation
  else if p.ds then (if k.writes then .discarded else .zeroData)
  else if p.rm then .remote p.dev (p.pa va) p.kind
  else .ok (p.pa va) p.kind

/-- `Translate(va, kind)` for an agent with no translation cache of its own (R211). -/
def translate (m : Mach) (vf va : Nat) (k : Access) : Trans :=
  match walk m vf va with
  | .none_ => .noTranslation
  | .leaf p _ => transPte p va k

/-- `Translate` on a core: through its translation cache, which it re-walks once before it reports a fault or a refusal
(R211, R234). -/
def Mach.coreTranslate (m : Mach) (core vf va : Nat) (k : Access) : Trans × Mach :=
  let fresh : Trans × Mach :=
    (translate m vf va k,
      match walk m vf va with
      | .leaf p _ => m.modCore core (fun c => { c with tlb := tset c.tlb (va / 65536) p })
      | .none_ => m)
  match tget (m.core core).tlb (va / 65536) with
  | some p =>
    match transPte p va k with
    | .ok pa kind => (.ok pa kind, m)
    | .remote d pa kind => (.remote d pa kind, m)
    | .zeroData => (.zeroData, m)
    | _ => fresh
  | none => fresh

/-! ## L1 (R194, R214, R215) -/

/-- Bytes of the 128-byte line that holds physical address `pa`. -/
def lineOf (pa : Nat) : Nat := pa / 128
/-- Split an access at a page boundary (R228); addresses wrap (R137). -/
def splitPage (va n : Nat) : List (Nat × Nat) :=
  let room := 65536 - va % 65536
  if n ≤ room then [(va, n)] else [(va, room), ((va + room) % 2 ^ 80, n - room)]

/-- The lines that `n` bytes from `pa` touch. -/
def linesOf (pa n : Nat) : List Nat := if n = 0 then [] else upFrom (lineOf pa) (lineOf (pa + n - 1) - lineOf pa + 1)

/-- Mark the monitors armed on lines (R293). -/
def Mach.hitLines (m : Mach) (ls : List Nat) : Mach :=
  { m with wgs := m.wgs.map (fun e => (e.1, { e.2 with threads := e.2.threads.map (fun t =>
      match t.mon with
      | some (l, _) => if ls.contains l then { t with mon := some (l, true) } else t
      | none => t) })) }
/-- A store performed at L2 has written these bytes. -/
def Mach.hitMonitors (m : Mach) (pa n : Nat) : Mach := m.hitLines (linesOf pa n)
/-- The number a monitor keeps for a line of another device's memory, or of host memory: no line of this device has it. -/
def farLine (dev line : Nat) : Nat := (dev + 1) * 2 ^ 60 + line
/-- The same for a store to a page with RM = 1 that this device makes. -/
def Mach.hitFar (m : Mach) (dev pa n : Nat) : Mach := m.hitLines ((linesOf pa n).map (farLine dev))

/-- Merge a line's dirty bytes over memory. -/
def mergeDirty : List Byte → List Bool → List Byte → List Byte
  | b :: bs, d :: ds, x :: xs => (if d then b else x) :: mergeDirty bs ds xs
  | _, _, xs => xs

/-- Perform a line's dirty bytes at L2 (R215). -/
def Mach.writeBack (m : Mach) (core line : Nat) : Mach :=
  match tget (m.core core).l1 line with
  | none => m
  | some l =>
    if l.dirty.any id then
      let old := Memory.readN m.mem (line * 128) 128
      let m := { m with mem := Memory.writeL m.mem (line * 128) (mergeDirty l.bytes l.dirty old) }
      let m := if l.dirty.all id then { m with poison := m.poison.filter (· ≠ line) } else m
      (m.modCore core (fun c =>
        { c with l1 := tset c.l1 line { l with dirty := List.replicate 128 false, firstWrite := none } })).hitMonitors (line * 128) 128
    else m
/-- Write a line back and drop it. -/
def Mach.dropLine (m : Mach) (core line : Nat) : Mach :=
  (m.writeBack core line).modCore core (fun c => { c with l1 := terase c.l1 line })
/-- Write back every dirty line of a core's L1. -/
def Mach.writeBackAll (m : Mach) (core : Nat) : Mach :=
  (m.core core).l1.foldl (fun m e => m.writeBack core e.1) m
/-- Write back and drop every line. -/
def Mach.dropAll (m : Mach) (core : Nat) : Mach :=
  (m.core core).l1.foldl (fun m e => m.dropLine core e.1) m

/-- No core holds a line of a physical page, or an instruction word from it, any more: the dirty bytes are performed first (R235). -/
def Mach.dropPage (m : Mach) (page : Nat) : Mach :=
  m.cores.foldl (fun m e =>
    ((e.2.l1.filter (fun l => l.1 / 512 == page)).foldl (fun m l => m.dropLine e.1 l.1) m).modCore e.1 (fun c =>
      { c with icache := c.icache.filter (fun w => !(w.1 / 8192 == page)) })) m
/-- Every dirty line whose first write is 2²⁰ cycles old is written back (R215). -/
def Mach.ageLines (m : Mach) (clk : Clock) : Mach :=
  m.cores.foldl (fun m e =>
    (e.2.l1.filter (fun l => match l.2.firstWrite with | some t => decide (t + 1048576 ≤ clk.cycle) | none => false)).foldl
      (fun m l => m.writeBack e.1 l.1) m) m

/-- The highest way of a set that is L1's (the boundary and above) and holds no line; its other lines. -/
def Core.freeWay (c : Core) (mates : List (Nat × Line)) : Option Nat :=
  (upFrom c.boundary (28 - c.boundary)).reverse.find? (fun w => !mates.any (fun e => e.2.way == w))
/-- Fill a line into L1, evicting one of its set when every way holds one (R194). DESIGN CHOICE (log 15): which free way, and which line
goes. -/
def Mach.fillLine (m : Mach) (clk : Clock) (core line : Nat) : Mach :=
  match tget (m.core core).l1 line with
  | some _ => m
  | none =>
    let mates := (m.core core).l1.filter (fun e => e.1 % 256 == line % 256)
    let (way, m) : Nat × Mach :=
      match (m.core core).freeWay mates with
      | some w => (w, m)
      | none =>
        match mates[Config.l1Victim core (line % 256) mates.length % mates.length]? with
        | some v => (v.2.way, m.dropLine core v.1)
        | none => (27, m)
    let bytes := Memory.readN m.mem (line * 128) 128
    let l : Line := { bytes, dirty := List.replicate 128 false, filled := clk.cycle, firstWrite := none, way }
    m.modCore core (fun c => { c with l1 := tset c.l1 line l })

/-- A core's view of one physical byte: its L1 copy where it holds one, else memory. -/
def Mach.coreByte (m : Mach) (core pa : Nat) : Byte :=
  match tget (m.core core).l1 (lineOf pa) with
  | some l => l.bytes.getD (pa % 128) 0
  | none => Memory.read m.mem pa
def Mach.coreBytes (m : Mach) (core pa : Nat) : Nat → List Byte
  | 0 => []
  | n + 1 => m.coreByte core pa :: m.coreBytes core (pa + 1) n

/-- Store one byte in the L1 copy of its line. -/
def Mach.l1Byte (m : Mach) (clk : Clock) (core pa : Nat) (b : Byte) : Mach :=
  m.modCore core (fun c =>
    { c with l1 := tmod c.l1 (lineOf pa) (fun l =>
        { l with bytes := setAt l.bytes (pa % 128) b, dirty := setAt l.dirty (pa % 128) true,
                 firstWrite := some (l.firstWrite.getD clk.cycle) }) })
def Mach.l1Bytes (m : Mach) (clk : Clock) (core pa : Nat) : List Byte → Mach
  | [] => m
  | b :: bs => ((m.fillLine clk core (lineOf pa)).l1Byte clk core pa b).l1Bytes clk core (pa + 1) bs

/-- A store performed at the home L2 by an agent that is no core (engines, dispatcher, firmware). -/
def Mach.l2Write (m : Mach) (pa : Nat) (bs : List Byte) : Mach := (m.physWrite pa bs).hitMonitors pa bs.length

/-! ## The error log and the host (R382, R444) -/

/-- Post an interrupt and message to the host: function, vector (0 completion, 1 error log, 2 host message), payload. -/
def Mach.postHost (m : Mach) (vf vec : Nat) (payload : List Byte) : Mach :=
  if ((m.fn vf).regs.any (fun e => e.1 == 104 && e.2.getLsbD vec)) then { m with hostOut := m.hostOut ++ [(vf, 8 + vec, payload)] }
  else { m with hostOut := m.hostOut ++ [(vf, vec, payload)] }

/-- The 32 bytes of an error-log entry (R382). -/
def LogEntry.bytes (e : LogEntry) (vf : Nat) : List Byte :=
  leBytes 8 e.time ++ leBytes 4 e.seq ++ leBytes 1 e.source ++ leBytes 1 e.code ++ leBytes 1 vf ++ leBytes 1 e.info ++
  leBytes 2 e.core ++ leBytes 4 e.aux ++ leBytes 10 e.addr

/-- Write an entry into a function's error log: the ring of 256, the memory at its address where that is mapped, and the
error-log interrupt. -/
def Mach.logErr (m : Mach) (clk : Clock) (vf source code info core aux addr : Nat) : Mach :=
  let f := m.fn vf
  let e : LogEntry := { time := clk.time, seq := f.seq, source, code, info, core, aux, addr }
  let m := m.setFn vf { f with seq := (f.seq + 1) % 4294967296, log := (f.log ++ [e]).drop (f.log.length + 1 - 256) }
  let m :=
    match translate m vf ((f.elog.toNat + 32 * (f.seq % 256)) % 2 ^ 80) .write with
    | .ok pa _ => if f.elog = 0 then m else m.l2Write pa (e.bytes vf)
    | _ => m
  m.postHost vf 1 []

/-! ## Registers -/

namespace Thread
def getV (t : Thread) (r : Nat) : V32 := sget 0 t.v r
def getK (t : Thread) (r : Nat) : K64 := sget 0 t.k r
def getA (t : Thread) (r : Nat) : Addr := sget 0 t.a r
def getP (t : Thread) (r : Nat) : Bool := sget false t.p r
def setV (t : Thread) (r : Nat) (x : V32) : Thread := { t with v := sset 0 t.v r x }
def setK (t : Thread) (r : Nat) (x : K64) : Thread := { t with k := sset 0 t.k r x }
def setA (t : Thread) (r : Nat) (x : Addr) : Thread := { t with a := sset 0 t.a r x }
def setP (t : Thread) (r : Nat) (x : Bool) : Thread := { t with p := sset false t.p r x }
/-- An even register pair as one value, low half first (R9). -/
def getVV (t : Thread) (r : Nat) : K64 := t.getV (r + 1) ++ t.getV r
def setVV (t : Thread) (r : Nat) (x : K64) : Thread := (t.setV r (x.truncate 32)).setV (r + 1) ((x >>> 32).truncate 32)
/-- A thread's guard in its open block; true outside a block (R32). -/
def guard (t : Thread) : Bool := match t.blk with | none => true | some b => b.guards.getLsbD b.slot
/-- The PC a trap names: the prefix inside a block (R15). -/
def namedPc (t : Thread) : Addr := match t.blk with | none => t.pc | some b => b.prefixPc
/-- Go past an instruction of `len` bytes: a covered slot is used up, and the block ends after its last (R32). -/
def advance (t : Thread) (len : Nat) : Thread :=
  { t with pc := t.pc + BitVec.ofNat 80 len,
           blk := match t.blk with
             | none => none
             | some b => if b.count ≤ b.slot then none else some { b with slot := b.slot + 1 },
           since := none }
end Thread

/-- `sr.pblk` as R35 lays it out. -/
def pblkWord (valid : Bool) (count slot : Nat) (guards : BitVec 8) : BitVec 16 :=
  BitVec.ofNat 16 (guards.toNat + 256 * (slot % 16) + 4096 * (count % 8) + 32768 * bit valid)

/-! ## Workgroups and threads -/

def Wg.thread (w : Wg) (t : Nat) : Thread := w.threads.getD t {}
/-- Change the threads named. -/
def Wg.modThreads (w : Wg) (ts : List Nat) (f : Thread → Thread) : Wg :=
  { w with threads := w.threads.mapIdx (fun i t => if ts.contains i then f t else t) }
/-- Role of a warp of the workgroup: 0 copy, 1 matrix, 2 vector (R151). -/
def Wg.role (w : Wg) (warp : Nat) : Nat := w.hdr.roles.getD warp 0
/-- The thread's v registers allocated (R9). -/
def Wg.alloc (w : Wg) : Nat := 8 * w.hdr.vregs
/-- Bytes of scratchpad (R198). -/
def Wg.scratchBytes (w : Wg) : Nat := 32768 * w.hdr.scratch

/-- The issue group's view: the machine, its core and slot, its workgroup, its threads, and those whose guard is true. -/
structure Ctx where
  m : Mach
  ig : Ig
  wg : Wg
  act : List Nat
  deriving DecidableEq, Repr

/-- The issue group standing in a machine (R156). -/
def Mach.ctx? (m : Mach) : Option Ctx :=
  match m.ig with
  | none => none
  | some g =>
    match m.wg? g.core g.slot with
    | none => none
    | some w => some { m, ig := g, wg := w, act := g.threads.filter (fun t => (w.thread t).guard) }

namespace Ctx
/-- Length of the instruction in bytes (R14). -/
def len (c : Ctx) : Nat := match c.ig.ext with | none => 8 | some _ => 16
def core (c : Ctx) : Nat := c.ig.core
def slot (c : Ctx) : Nat := c.ig.slot
def vf (c : Ctx) : Nat := c.wg.vf
/-- The active thread with the lowest work identifier (R156): threads of a workgroup are numbered by it. -/
def leader (c : Ctx) : Option Nat := c.act.head?
def leaderT (c : Ctx) : Thread := c.wg.thread (c.act.headD 0)
/-- Role of the issuing warp (R152); both warps of a fused group share one. -/
def role (c : Ctx) : Nat := c.wg.role (c.wg.thread (c.ig.threads.headD 0)).warp
/-- The workgroup as it stands in a machine that the meaning has already changed. -/
def wgIn (c : Ctx) (m : Mach) : Wg := (m.wg? c.core c.slot).getD c.wg
end Ctx

/-- Change the workgroup of the issue group. -/
def Mach.atWg (m : Mach) (c : Ctx) (f : Wg → Wg) : Mach := m.modWg c.core c.slot f
/-- The instruction is done: every thread of the group goes on to the next one (R14, R156). -/
def Ctx.retire (c : Ctx) (m : Mach) : Mach := m.atWg c (fun w => w.modThreads c.ig.threads (·.advance c.len))
/-- Apply `f` to each active thread, then go on. -/
def Ctx.retireWith (c : Ctx) (m : Mach) (f : Thread → Thread) : Mach :=
  m.atWg c (fun w => (w.modThreads c.act f).modThreads c.ig.threads (·.advance c.len))
/-- Threads separate from their fused group (R159). -/
def Wg.unfuse (w : Wg) (ts : List Nat) : Wg := { w with fused := w.fused.filter (fun f => !f.threads.any ts.contains) }
/-- The threads `ts` wait in the instruction; it executes again when the wait ends (R153). The first wait of the instruction is
remembered. The other threads of the group go on. -/
def Ctx.wait (c : Ctx) (clk : Clock) (m : Mach) (ts : List Nat) (why : Wait) : Mach :=
  let m := { m with seq := m.seq + 1 }
  m.atWg c (fun w =>
    ((w.modThreads ts (fun t => { t with status := .waiting why, since := some (t.since.getD (m.seq, clk.time)) })).modThreads
      (c.ig.threads.filter (fun t => !ts.contains t)) (·.advance c.len)).unfuse ts)
/-- A fused group whose threads no longer share one PC separates (R159); one whose threads have all exited is none. -/
def Wg.splitFused (w : Wg) : Wg :=
  { w with fused := w.fused.filter (fun f =>
      match f.threads.filter (fun i => (w.thread i).status ≠ .exited) with
      | [] => false
      | i :: is => is.all (fun j => (w.thread j).pc == (w.thread i).pc)) }
/-- The whole issue group waits at the instruction, which is never split to issue part of it (R154): no thread goes on. -/
def Ctx.hold (c : Ctx) (clk : Clock) (m : Mach) (why : Wait) : Mach := c.wait clk m c.ig.threads why

/-! ## Traps (R130, R372) -/

/-- Kill a launch: every workgroup of it that has not ended yet ends as killed (R372). The clean-up of R394 follows in the same step
(Exit.lean), the writes of R372 when it is done (`execLaunchComplete`). -/
def Mach.killLaunch (m : Mach) (vf launch : Nat) : Mach :=
  let m := m.modFn vf (fun f => { f with launches := f.launches.map (fun l => if l.id = launch then { l with killed := true } else l) })
  { m with wgs := m.wgs.map (fun e =>
      if e.2.vf = vf ∧ e.2.launch = launch ∧ e.2.ending = false then
        (e.1, { e.2 with killed := true, threads := e.2.threads.map (fun t => { t with status := .exited, blk := none }) })
      else e) }

/-- Is the launch already killed? -/
def Mach.launchKilled (m : Mach) (vf launch : Nat) : Bool :=
  (m.fn vf).launches.any (fun l => l.id == launch && l.killed)

/-- One thread enters its handler (R130): `long` says whether the instruction had an extension word. A block that a return has left to be
re-entered is the trapped block too (R35). -/
def Thread.enterHandler (t : Thread) (handler : Addr) (cause info : Nat) (addr : Addr) (long : Bool) : Thread :=
  { t with
    trappc := t.namedPc, cause := BitVec.ofNat 8 cause, info := BitVec.ofNat 16 info, trapaddr := addr,
    pblk := match t.blk, t.reenter with
      | some b, _ => pblkWord true b.count b.slot b.guards
      | none, some (count, slot, guards) => pblkWord true count slot guards
      | none, none => t.pblk &&& 0x7FFF,
    trapL := long, trapH := true, pc := handler, blk := none, reenter := none, since := none, status := .ready }

/-- The lowest failing lane of a trap (R382): the one its info names, else the lowest of the lanes that trap. -/
def trapLane (cause info low : Nat) : Nat :=
  if cause = 4 then info % 32
  else if (cause = 3 || cause = 5 || cause = 7 || cause = 13) && decide (info % 256 < 32) then info % 256
  else low
/-- TAKING AN EXCEPTION (R130): the threads `ts` of a workgroup trap with one cause, info and address. Each thread that has a
handler and is not in one enters it. A thread that has none, or stands in its handler, hands the trap to the launch, which is
killed; one error-log entry records the cause, the trapping PC and the leader's work identifier (R372, R382). -/
def Mach.takeTrap (m : Mach) (clk : Clock) (core slot : Nat) (ts : List Nat) (cause info : Nat) (addr : Addr) (long : Bool) : Mach :=
  match m.wg? core slot with
  | none => m
  | some w =>
    let lost := ts.filter (fun i => (w.hdr.handler == 0) || (w.thread i).trapH)
    let m' := m.setWg core slot
      ((w.modThreads (ts.filter (fun i => !lost.contains i)) (fun t => t.enterHandler w.hdr.handler cause info addr long)).splitFused)
    match lost with
    | [] => m'
    | i :: _ =>
      if m.launchKilled w.vf w.launch then m'
      else
        let m' := m'.logErr clk w.vf 1 cause (trapLane cause info ((ts.map (fun i => (w.thread i).lane)).foldl min 31)) core
          ((w.thread (ts.headD i)).wid % 4294967296) (w.thread i).namedPc.toNat
        m'.killLaunch w.vf w.launch

/-- Every thread of the issue group traps (R370, checks that apply whatever the guard). -/
def Ctx.trapAll (c : Ctx) (clk : Clock) (m : Mach) (cause info : Nat) (addr : Addr) : Mach :=
  m.takeTrap clk c.core c.slot c.ig.threads cause info addr c.ig.ext.isSome
/-- The active threads trap (R370, checks that read operand values); the others go on. -/
def Ctx.trapAct (c : Ctx) (clk : Clock) (m : Mach) (cause info : Nat) (addr : Addr) : Mach :=
  let m := m.atWg c (fun w => w.modThreads (c.ig.threads.filter (fun t => !c.act.contains t)) (·.advance c.len))
  m.takeTrap clk c.core c.slot c.act cause info addr c.ig.ext.isSome
/-- Cause 0x01, at the instruction word (R369). -/
def Ctx.illegal (c : Ctx) (clk : Clock) (m : Mach) : Mach := c.trapAll clk m 1 0 c.ig.pc
/-- Cause 0x06 with a class, at the instruction word, whatever the guard. -/
def Ctx.badHandle (c : Ctx) (clk : Clock) (m : Mach) (cls : Nat) : Mach := c.trapAll clk m 6 cls c.ig.pc
/-- Cause 0x06 from an operand value: the active threads trap. -/
def Ctx.badValue (c : Ctx) (clk : Clock) (m : Mach) (cls : Nat) : Mach := c.trapAct clk m 6 cls c.ig.pc
/-- Cause 0x02, with the role of the warp in info. -/
def Ctx.badRole (c : Ctx) (clk : Clock) (m : Mach) : Mach := c.trapAll clk m 2 c.role c.ig.pc

/-- RETURN FROM A HANDLER (R131) for one thread that stands in it: the next PC is `trappc`, moved past the instruction with
`skip`; a valid `sr.pblk` is left to be re-entered at the prefix (R35). The target is not yet checked. DESIGN CHOICE (log 95): a skip
from slot 15 goes to slot 0. -/
def Thread.leaveHandler (t : Thread) (skip : Bool) : Thread :=
  let valid := t.pblk.getLsbD 15
  let slot := (t.pblk >>> 8).toNat % 16
  let slot' := if skip && valid then (slot + 1) % 16 else slot
  let pc := if skip && !valid then t.trappc + (if t.trapL then 16 else 8) else t.trappc
  let pblk := if valid then pblkWord false ((t.pblk >>> 12).toNat % 8) slot' (t.pblk.truncate 8) else t.pblk
  { t with
    pc, trappc := if skip && !valid then pc else t.trappc, trapH := false, blk := none, pblk,
    reenter := if valid then some ((t.pblk >>> 12).toNat % 8, slot', t.pblk.truncate 8) else none, since := none }

/-! ## Lifting meanings to the state -/

/-- A program instruction's meaning: on the issue group standing in the machine. -/
def State.group (s : State) (f : Clock → Ctx → Mach) : Host.Outcome State Fault Refusal :=
  match s.m.ctx? with
  | none => .fault .noIssueGroup
  | some c => .next { s with m := f s.clk c }
/-- An event's meaning: on the machine, when its condition holds. -/
def State.event (s : State) (f : Clock → Mach → Option Mach) : Host.Outcome State Fault Refusal :=
  match f s.clk s.m with
  | none => .fault .notEnabled
  | some m => .next { s with m }
/-- A command's meaning: always accepted; what firmware finds wrong stands in the completion. -/
def State.always (s : State) (f : Clock → Mach → Mach) : Host.Outcome State Fault Refusal := .next { s with m := f s.clk s.m }

end Sys2Proof.Machine
end

