-- ==== Sys2Proof/Machine/ChanOps.lean ====
section
/-! DEFINITION. The channel machinery under the channel instructions and the mapped registers: capacities, Enqueue, Refill,
Dequeue, blocking conditions, breaking, bindings (R266 to R275, R284, R428). -/
namespace Sys2Proof.Machine

/-! ## Capacities (R268, R269) -/

/-- Bobbin bytes and elements. -/
def Chan.bobbinBytes (c : Chan) : Nat := 4096 * 2 ^ c.bob
def Chan.bcap (c : Chan) : Nat := c.bobbinBytes / c.esize
/-- Bytes of a spool size code: 0 none, else 4 KiB × 2^(code − 1). -/
def spoolBytes (code : Nat) : Nat := if code = 0 then 0 else 4096 * 2 ^ (code - 1)
def Chan.scap (c : Chan) : Nat := spoolBytes c.scur / c.esize
/-- Elements accepted and not popped (R267). -/
def Chan.avail (c : Chan) : Nat := c.bobbin.length + c.spooled.length
/-- Room (R274); the writer's end of a cross-device channel counts credits (R428). -/
def Chan.free (c : Chan) : Nat :=
  if c.x && c.wbind.isSome then c.credits else (c.bcap - c.bobbin.length) + (c.scap - c.spooled.length)
/-- Closed or broken. -/
def Chan.ended (c : Chan) : Bool := c.state == 2 || c.state == 3

def Mach.chan? (m : Mach) (vf ch : Nat) : Option Chan := tget (m.fn vf).chans ch
def Mach.setChan (m : Mach) (vf ch : Nat) (c : Chan) : Mach := m.modFn vf (fun f => { f with chans := tset f.chans ch c })
def Mach.modChan (m : Mach) (vf ch : Nat) (g : Chan → Chan) : Mach := m.modFn vf (fun f => { f with chans := tmod f.chans ch g })

/-- A message to a peer device: its number and bytes (log 23). -/
def Mach.send (m : Mach) (dev : Nat) (bs : List Byte) : Mach := { m with linkOut := m.linkOut ++ [(dev, bs)] }
/-- A path is up: the route sets it, and its port is not down (R423). -/
def Mach.portUp (m : Mach) (port : Nat) : Bool := decide (port < 144) && !m.portsDown.contains port
/-- A peer is unreachable when no path of its route is up (R423). -/
def Mach.unreachable (m : Mach) (dev : Nat) : Bool :=
  match tget m.routes dev with
  | none => true
  | some ps => !ps.any m.portUp

/-! ## Breaking (R273, R428) -/

/-- The channel breaks: the elements from the `keep`-th of the spool on are discarded and no longer counted as accepted (log 101), those ahead
are still delivered; the log records source 6 with `code`, the channel in aux and an address. -/
def Mach.breakChan (m : Mach) (clk : Clock) (vf ch code keep addr : Nat) : Mach :=
  (m.modChan vf ch (fun c => { c with
    state := 3, spooled := c.spooled.take keep, spoolWait := false,
    sent := (c.sent + (4294967296 - (c.spooled.length - keep))) % 4294967296 })).logErr clk vf 6 code 0 65535 ch addr

/-- Where the element numbered `n` stands in the spool (log 18). -/
def Chan.spoolAddr (c : Chan) (n : Nat) : Nat := (c.spool.toNat + c.esize * (n % (max c.scap 1))) % 2 ^ 80
/-- The number of the `i`-th element of the spool. -/
def Chan.spoolNum (c : Chan) (i : Nat) : Nat := (c.sent + (4294967296 - c.spooled.length) + i) % 4294967296
/-- How the spool's pages let an element be written or read (R273). -/
inductive SpoolRes where
  | ok
  /-- A page with no valid translation: the element waits. -/
  | wait (va : Nat)
  /-- A page of another kind, or data with an uncorrectable error. -/
  | bad (va : Nat)
  deriving DecidableEq, Repr
def Mach.spoolPart (m : Mach) (vf va n : Nat) (write : Bool) : SpoolRes :=
  match translate m vf va (if write then .engineWrite else .engineRead) with
  | .ok pa _ => if !write && (linesOf pa n).any m.poison.contains then .bad va else .ok
  | .remote .. => .ok
  | .noTranslation | .discarded | .zeroData => .wait va
  | _ => .bad va
/-- A whole element: a part that waits comes before one that fails. -/
def Mach.spoolAt (m : Mach) (vf va n : Nat) (write : Bool) : SpoolRes :=
  let rs := (splitPage va n).map (fun p => m.spoolPart vf p.1 p.2 write)
  match rs.findSome? (fun r => match r with | .wait a => some a | _ => none), rs.findSome? (fun r => match r with | .bad a => some a | _ => none) with
  | some a, _ => .wait a
  | none, some a => .bad a
  | none, none => .ok

/-- A fault-queue entry for machinery that is no thread (R376); the queue takes it if there is room. -/
def Mach.postFault (m : Mach) (clk : Clock) (vf : Nat) (e : FaultEntry) : Mach :=
  m.modFn vf (fun f => { f with faults := f.faults ++ [{ e with time := clk.time }] })

/-- The spool's page faults: the channel's machinery waits for it (R273). -/
def Mach.spoolFault (m : Mach) (clk : Clock) (vf ch va access : Nat) : Mach :=
  (m.modChan vf ch (fun c => { c with spoolWait := true })).postFault clk vf
    { va, time := 0, core := 65535, slot := 0, warp := 255, kind := 4, access, olog := 255, flags := 0, lanes := 0, wid := 0, launch := 0,
      rec_ := ch }
/-- Put one element into the channel (R273); behind an element that broke the channel it is discarded. -/
def Mach.enqueue (m : Mach) (clk : Clock) (vf ch : Nat) (data : List Byte) : Mach :=
  match m.chan? vf ch with
  | none => m
  | some c =>
    if c.state = 3 then m
    else if c.x && c.wbind.isSome then
      (m.setChan vf ch { c with credits := c.credits - 1, sent := (c.sent + 1) % 4294967296 }).send c.peer
        (leBytes 1 1 ++ leBytes 2 vf ++ leBytes 2 ch ++ data)
    else if c.spooled.isEmpty && c.bobbin.length < c.bcap then
      m.setChan vf ch { c with bobbin := c.bobbin ++ [data], sent := (c.sent + 1) % 4294967296 }
    else
      let va := c.spoolAddr c.sent
      let m := m.setChan vf ch { c with spooled := c.spooled ++ [data], sent := (c.sent + 1) % 4294967296 }
      match m.spoolAt vf va c.esize true with
      | .ok => m
      | .wait va => m.spoolFault clk vf ch va 1
      | .bad va => m.breakChan clk vf ch 4 c.spooled.length va

/-- One turn of Refill (R273): the spool's oldest element moves to the bobbin's tail. -/
def Mach.refillOne (m : Mach) (clk : Clock) (vf ch : Nat) : Mach :=
  match m.chan? vf ch with
  | none => m
  | some c =>
    match c.spooled with
    | [] => m
    | x :: xs =>
      if c.bobbin.length < c.bcap && !c.spoolWait then
        match m.spoolAt vf (c.spoolAddr (c.spoolNum 0)) c.esize false with
        | .ok => m.setChan vf ch { c with bobbin := c.bobbin ++ [x], spooled := xs }
        | .wait va => m.spoolFault clk vf ch va 0
        | .bad va => m.breakChan clk vf ch 4 0 va
      else m
/-- Refill while its condition holds: at most `n` elements. -/
def Mach.refill (m : Mach) (clk : Clock) (vf ch : Nat) : Nat → Mach
  | 0 => m
  | n + 1 => (m.refillOne clk vf ch).refill clk vf ch n
/-- Refill has something to do. -/
def Chan.canRefill (c : Chan) : Bool := !c.spooled.isEmpty && c.bobbin.length < c.bcap && !c.spoolWait

/-- Take the bobbin's oldest element (R273). A cross-device reader returns a credit to the writer's device (R428). -/
def Mach.dequeue (m : Mach) (vf ch : Nat) : List Byte × Mach :=
  match m.chan? vf ch with
  | none => ([], m)
  | some c =>
    match c.bobbin with
    | [] => ([], m)
    | x :: xs =>
      let m := m.setChan vf ch { c with bobbin := xs, recvd := (c.recvd + 1) % 4294967296 }
      (x, if c.x then m.send c.peer (leBytes 1 2 ++ leBytes 2 vf ++ leBytes 2 ch ++ leBytes 4 1) else m)

/-- How a pop of `n` elements stands (R273, R274, R278). -/
inductive PopState where
  /-- It can take this many now. -/
  | go (k : Nat)
  /-- The elements are there but still in the spool: a refill wait, not a block. -/
  | refill
  /-- Blocked on empty. -/
  | block
  deriving DecidableEq, Repr

def Chan.popState (c : Chan) (n : Nat) : PopState :=
  if n ≤ c.avail then (if n ≤ c.bobbin.length then .go n else .refill)
  else if c.ended then (if c.avail ≤ c.bobbin.length then .go c.avail else .refill)
  else .block

/-- Dequeue `n` elements, oldest first. -/
def Mach.dequeueN (m : Mach) (vf ch : Nat) : Nat → List (List Byte) × Mach
  | 0 => ([], m)
  | n + 1 =>
    let (x, m) := m.dequeue vf ch
    let (xs, m) := m.dequeueN vf ch n
    (x :: xs, m)

/-- Enqueue elements in order. -/
def Mach.enqueueL (m : Mach) (clk : Clock) (vf ch : Nat) : List (List Byte) → Mach
  | [] => m
  | x :: xs => (m.enqueue clk vf ch x).enqueueL clk vf ch xs

/-! ## Bindings (R269, R270) -/

/-- The binding of q register `q`. -/
def Wg.q (w : Wg) (q : Nat) : Option QBind := (w.qs.getD q none)
/-- Set the B bit of an endpoint (R269). -/
def Mach.setB (m : Mach) (vf ch : Nat) (reader b : Bool) : Mach :=
  m.modChan vf ch (fun c => if reader then { c with rB := b } else { c with wB := b })

/-! ## Threads that wait on a channel (R272, R274) -/

/-- The endpoints a thread waits at, and the elements its instruction moves. -/
def Wg.standsAt (w : Wg) (t : Thread) : List (Nat × QBind) × Nat :=
  match t.status with
  | .waiting (.chan q _ n also) => ((q :: also).filterMap (fun q => (w.q q).map (fun b => (q, b))), n)
  | _ => ([], 0)
/-- An operation of `n` elements on an endpoint can proceed. -/
def Mach.endLets (m : Mach) (vf n : Nat) (b : QBind) : Bool :=
  match m.chan? vf b.chan with
  | none => false
  | some c => if b.reader then (match c.popState n with | .go _ => true | _ => false) else decide (n ≤ c.free)
/-- It is a push on a broken channel, which traps (R273). -/
def Mach.endTraps (m : Mach) (vf : Nat) (b : QBind) : Bool :=
  !b.reader && (match m.chan? vf b.chan with | some c => c.state == 3 | none => false)
/-- It is blocked on the endpoint: full, or empty; a refill wait is not blocked (R273, R274). -/
def Mach.endBlocks (m : Mach) (vf n : Nat) (b : QBind) : Bool :=
  match m.chan? vf b.chan with
  | none => false
  | some c => if b.reader then c.popState n == .block else c.state != 3 && decide (c.free < n)
/-- A waiting thread's instruction can proceed on all its endpoints, or ends in a trap. -/
def Mach.chanGoes (m : Mach) (w : Wg) (t : Thread) : Bool :=
  let (es, n) := w.standsAt t
  es.any (fun e => m.endTraps w.vf e.2) || (!es.isEmpty && es.all (fun e => m.endLets w.vf n e.2))
/-- The endpoints a thread is blocked on: channel, and whether it sends. -/
def Mach.blockedOn (m : Mach) (w : Wg) (t : Thread) : List (Nat × Bool) :=
  let (es, n) := w.standsAt t
  (es.filter (fun e => m.endBlocks w.vf n e.2)).map (fun e => (e.2.chan, !e.2.reader))
/-- An instruction that waited before this one on one of these q registers can proceed: it comes first (R272). -/
def Ctx.behind (c : Ctx) (qs : List Nat) : Bool :=
  (c.wg.threads.mapIdx (fun i t => (i, t))).any (fun e =>
    !c.ig.threads.contains e.1 && (c.wg.standsAt e.2).1.any (fun x => qs.contains x.1) && c.m.chanGoes c.wg e.2 &&
    (match e.2.since, c.leaderT.since with | some a, some b => decide (a.1 < b.1) | _, _ => true))
/-- Every endpoint's B bit says whether a thread of its workgroup is blocked on it (R269). -/
def Mach.settleB (m : Mach) : Mach :=
  m.wgs.foldl (fun (m : Mach) e =>
    (e.2.qs.filterMap id).foldl (fun (m : Mach) b =>
      m.setB e.2.vf b.chan b.reader (e.2.threads.any (fun t => (m.blockedOn e.2 t).contains (b.chan, !b.reader)))) m) m

end Sys2Proof.Machine
end

