-- ==== Sys2Proof/Machine/Frames.lean ====
section
/-! DEFINITION. Frames of HBM and pages within them: who holds a frame, granting one within the budget, reclaim, and the walk that
finds or writes a level-5 entry (R209, R448 to R450; log 13). -/
namespace Sys2Proof.Machine

/-- Frames of HBM, and the first that firmware does not keep (R448). -/
def frameCount : Nat := 32768
def firstShared : Nat := 512
/-- A frame's first byte. -/
def frameAt (f : Nat) : Nat := f * 2 ^ 25

/-- The lowest free frame from `lo` up, among `n`. -/
def Mach.freeFrame? (m : Mach) (lo n : Nat) : Option Nat := firstFrom (fun f => (tget m.frameOf f).isNone) n lo
/-- Pages of a frame that are free. -/
def framePages (f : Nat) : List Nat := upFrom (f * 512) 512
/-- Give frame `f` to function `vf`; its pages are zeroed and free. -/
def Mach.giveFrame (m : Mach) (vf f : Nat) : Mach :=
  ({ m with frameOf := tset m.frameOf f vf,
            mem := m.mem.filter (fun c => !(c.1 / 2 ^ 25 == f)), poison := m.poison.filter (fun l => !(l / 262144 == f)) }).modFn vf (fun x =>
    { x with held := x.held ++ [f], freePages := x.freePages ++ framePages f })
/-- A frame goes back to the shared ones. -/
def Mach.dropFrame (m : Mach) (vf f : Nat) : Mach :=
  ({ m with frameOf := terase m.frameOf f }).modFn vf (fun x =>
    { x with held := x.held.filter (· ≠ f), freePages := x.freePages.filter (fun p => !(p / 512 == f)) })
/-- Frames of `vf` whose every page is free leave its holding (R447). -/
def Mach.dropEmpty (m : Mach) (vf : Nat) : Mach :=
  (m.fn vf).held.foldl (fun m f => if ((m.fn vf).freePages.filter (fun p => p / 512 == f)).length == 512 then m.dropFrame vf f else m) m

/-! ## Level-5 entries -/

/-- Where the walk's level-5 entry stands, when every table above it does. -/
def entryAtFrom (m : Mach) (at_ : Nat) : List Nat → Option Nat
  | [] => some at_
  | i :: rest =>
    let e := m.physNat at_ 16
    if field e 0 1 == 0 || upperMalformed e then none else entryAtFrom m (field e 16 36 * 65536 + 16 * i) rest
def entryAt (m : Mach) (vf va : Nat) : Option Nat := entryAtFrom m ((m.fn vf).root + 16 * field va 76 4) (vaIndices va)
/-- Write a 16-byte entry. -/
def Mach.putEntry (m : Mach) (at_ e : Nat) : Mach := { m with mem := Memory.writeL m.mem at_ (leBytes 16 e) }

/-! ## Reclaim (R450) -/

/-- Frames a function holds, the image reservations of its pinned launches among them (R168, R448). -/
def Fn.heldCount (f : Fn) : Nat := f.held.length + (f.launches.map (·.reserved)).foldl (· + ·) 0
/-- The function reclaim takes from: the largest excess over its guarantee. -/
def Mach.victim? (m : Mach) : Option Nat :=
  let above := m.fns.filter (fun e => decide (e.2.g < Fn.heldCount e.2))
  (leastBy (fun e => 1000000 * (100000 - (Fn.heldCount e.2 - e.2.g)) + e.1) above).map (·.1)
/-- Mapped local 64 KiB pages of a function: where each entry stands, its page address, its physical page. -/
def Mach.mappedPages (m : Mach) (vf : Nat) : List (Nat × Nat) :=
  ((m.fn vf).tablePages.filterMap (fun p =>
    some ((upFrom 0 4096).filterMap (fun i =>
      let at_ := p * 65536 + 16 * i
      let e := m.physNat at_ 16
      if field e 0 1 == 1 && field e 1 1 == 0 && field e 2 1 == 0 && field e 75 1 == 0 && (tget m.frameOf (field e 16 36 / 512) == some vf)
      then some (at_, field e 16 36) else none)))).flatten
/-- Drop a page from every translation cache. -/
def Mach.forgetPage (m : Mach) (pa : Nat) : Mach :=
  { m with cores := m.cores.map (fun e => (e.1, { e.2 with tlb := e.2.tlb.filter (fun t => !(t.2.frame == pa)) })) }
/-- Evict one page to host backing: its bytes go to the next slot there, its entry becomes invalid, and firmware remembers where. -/
def Mach.evictPage (m : Mach) (vf at_ page : Nat) : Mach :=
  let f := m.fn vf
  let slot := (firstFrom (fun i => !f.evicted.any (fun e => e.2.1 == f.backing + i * 65536)) (f.evicted.length + 1) 0).getD 0
  let m := m.dropPage page
  let bytes := Memory.readN m.mem (page * 65536) 65536
  let m := { m with host := HostMem.writeL m.host (f.backing + slot * 65536) bytes }
  let e := m.physNat at_ 16
  ((m.putEntry at_ (e - 1)).forgetPage page).modFn vf (fun f =>
    { f with evicted := tset f.evicted at_ (f.backing + slot * 65536, e), freePages := f.freePages ++ [page] })
/-- Pages of a function that reclaim never evicts: tables, queues, spill logs, the images, and pages that an operation which has
translated its address has still to write: ordered launches' held ones and private lines (log 103). -/
def Fn.fixedPages (f : Fn) : List Nat :=
  f.tablePages ++ (f.ringPages.map (·.2)).flatten ++ (f.launches.map (·.logPages)).flatten ++ (f.images.map (·.pages)).flatten ++
  (f.launches.flatMap (fun l => l.held.map (fun o => o.pa / 65536) ++ l.own.map (fun e => e.1 / 512)))
/-- Pages that a rollback store buffer of the function has still to write. -/
def Mach.bufferedPages (m : Mach) (vf : Nat) : List Nat :=
  ((m.wgs.filter (fun e => e.2.vf == vf)).map (·.2) ++ (m.fn vf).images.map (·.wg)).flatMap (fun w =>
    (w.sbuf.filter (fun b => b.dev.isNone)).map (fun b => b.pa / 65536))
/-- Step 1: evict the pages of one of the victim's frames, the least accessed first, and hand the frame back. A frame with a channel's
spool in it stays. Step 2, when nothing of the victim can be evicted: its saved images go to host backing, and the most recently
started workgroup that is not pinned is to leave. -/
def Mach.reclaim (m : Mach) : Mach :=
  match m.victim? with
  | none => m
  | some v =>
    let pages := m.mappedPages v
    let f := m.fn v
    let spool := (pages.filter (fun e => field (m.physNat e.1 16) 6 2 == 3)).map (·.2)
    let can := f.held.filter (fun x => !((f.fixedPages ++ m.bufferedPages v ++ spool).any (fun p => p / 512 == x)))
    let uses (f : Nat) : Nat := ((pages.filter (fun e => e.2 / 512 == f)).map (fun e => ((m.access.filter (fun a => a.1 / 4096 == e.2)).map (·.2)).foldl (· + ·) 0)).foldl (· + ·) 0
    let fits (x : Nat) : Bool := (f.evicted.length + (pages.filter (fun e => e.2 / 512 == x)).length) * 65536 ≤ f.backingSize
    match leastBy uses (can.filter fits) with
    | some f => ((pages.filter (fun e => e.2 / 512 == f)).foldl (fun m e => m.evictPage v e.1 e.2) m).dropFrame v f
    | none =>
      let freed := (f.images.map (·.pages)).flatten
      let m := (m.modFn v (fun f => { f with images := f.images.map (fun i => { i with pages := [] }), freePages := f.freePages ++ freed })).dropEmpty v
      let mine := m.wgs.filter (fun e => e.2.vf == v && !e.2.hdr.pinned && !e.2.ending && e.2.leaving == 0)
      match leastBy (fun e => 2 ^ 64 - e.2.started) mine with
      | some e => { m with wgs := tset m.wgs e.1 { e.2 with leaving := 1 } }
      | none => m

/-- A frame for `vf` (R449); `lo`, `n` say where it should lie. None: the budget refuses it. -/
def Mach.takeFrame (m : Mach) (vf lo n : Nat) : Option Mach :=
  let f := m.fn vf
  let h := f.heldCount
  let free := match m.freeFrame? lo n with | some x => some x | none => m.freeFrame? firstShared (frameCount - firstShared)
  if f.g + f.b ≤ h then none
  else
    match free with
    | some x => some (m.giveFrame vf x)
    | none =>
      if h < f.g then
        let m := m.reclaim
        (m.freeFrame? firstShared (frameCount - firstShared)).map (fun x => m.giveFrame vf x)
      else none
/-- A zeroed 64 KiB page for `vf`: its number, or the frame-budget failure. -/
def Mach.takePage (m : Mach) (vf : Nat) : Option (Nat × Mach) :=
  let go (m : Mach) : Option (Nat × Mach) :=
    match (m.fn vf).freePages with
    | [] => none
    | p :: ps =>
      some (p, ({ m with mem := m.mem.filter (fun c => !(c.1 / 65536 == p)),
                         poison := m.poison.filter (fun l => !(l / 512 == p)) }).modFn vf (fun f => { f with freePages := ps }))
  match go m with
  | some r => some r
  | none => (m.takeFrame vf firstShared (frameCount - firstShared)).bind go
/-- A whole free frame for a large page. -/
def Mach.wholeFrame (m : Mach) (vf : Nat) : Option (Nat × Mach) := do
  let m' ← m.takeFrame vf firstShared (frameCount - firstShared)
  let f ← (m'.fn vf).held.find? (fun f => !(m.fn vf).held.contains f)
  some (f * 512, m'.modFn vf (fun x => { x with freePages := x.freePages.filter (fun p => !(p / 512 == f)) }))
/-- `n` pages, or none of them. -/
def Mach.takePages (m : Mach) (vf : Nat) : Nat → Option (List Nat × Mach)
  | 0 => some ([], m)
  | n + 1 =>
    match m.takePage vf with
    | none => none
    | some (p, m) => (m.takePages vf n).map (fun r => (p :: r.1, r.2))
/-- Pages go back to the function's free ones. -/
def Mach.releasePages (m : Mach) (vf : Nat) (ps : List Nat) : Mach :=
  (m.modFn vf (fun f => { f with freePages := f.freePages ++ ps })).dropEmpty vf

end Sys2Proof.Machine
end

