-- ==== Sys2Proof/Machine/Flags.lean ====
section
/-! DEFINITION. Every flag computation the spec gives: `sr.istat` (R60), `sr.fstat` (R63) and the conditions that set their bits
(R59, R63 to R66). -/
namespace Sys2Proof.Machine

/-- Bits of `sr.istat` (R60): division by zero, and the one signed overflow of a division. -/
def dzInt : BitVec 2 := 1
def dvInt : BitVec 2 := 2
/-- The flag a division or remainder of `a` by `b` sets; `lo` is the most negative value of a signed type (R59). -/
def divFlags (lo : Option Int) (a b : Int) : BitVec 2 :=
  if b = 0 then dzInt else if lo = some a ∧ b = -1 then dvInt else 0

/-- Bits of `sr.fstat` (R63). -/
def nv : BitVec 5 := 1
def dz : BitVec 5 := 2
def of : BitVec 5 := 4
def uf : BitVec 5 := 8
def nx : BitVec 5 := 16
/-- A flag, when its condition holds. -/
def flagIf (b : Bool) (f : BitVec 5) : BitVec 5 := if b then f else 0

end Sys2Proof.Machine
end

