-- ==== Sys2Proof/Machine/Round.lean ====
section
/-! DEFINITION. Exact values and `Round` (R61 to R67): what a floating pattern means, how an exact value is narrowed into a
format with an exponent field or into a table of values, with which flags, and the random draws of `rst`. -/
namespace Sys2Proof.Machine

/-! ## Exact values -/

/-- A finite value (−1)^neg × num × 2^exp; with `sticky`, a value strictly between that and the next `num`. `num` 0 without
`sticky` is a zero with a sign. -/
structure Exact where
  neg : Bool
  num : Nat
  exp : Int
  sticky : Bool := false
  deriving DecidableEq, Repr

/-- What a floating pattern stands for. -/
inductive FVal where
  | nan (signalling : Bool)
  | inf (neg : Bool)
  | fin (x : Exact)
  deriving DecidableEq, Repr

def FVal.isNan : FVal → Bool | .nan _ => true | _ => false
def FVal.isSnan : FVal → Bool | .nan s => s | _ => false
def FVal.neg : FVal → Bool | .nan _ => false | .inf n => n | .fin x => x.neg
def FVal.zero (neg : Bool) : FVal := .fin { neg, num := 0, exp := 0 }
def Exact.isZero (x : Exact) : Bool := x.num == 0 && !x.sticky
def FVal.isZero : FVal → Bool | .fin x => x.isZero | _ => false
/-- Multiply by 2^s. -/
def Exact.scale (x : Exact) (s : Int) : Exact := { x with exp := x.exp + s }
/-- The exponent of the leading bit: ⌊log2 |x|⌋, for a value with `num` above 0. -/
def Exact.lead (x : Exact) : Int := (Nat.log2 x.num : Nat) + x.exp

/-- |x| split at 2^q: the integer part, and the rest as a fraction r / 2^s with the sticky bit. -/
def Exact.split (x : Exact) (q : Int) : Nat × Nat × Nat :=
  if q ≤ x.exp then (x.num * 2 ^ (x.exp - q).toNat, 0, 0)
  else
    let s := (q - x.exp).toNat
    (x.num / 2 ^ s, x.num % 2 ^ s, s)

/-- Signed comparison key of two finite values at a common exponent. -/
def Exact.atExp (x : Exact) (e : Int) : Int :=
  let n : Int := (x.num * 2 ^ (x.exp - e).toNat : Nat)
  if x.neg then -n else n
/-- The numerical comparison of two finite values, −0 equal to +0. -/
def Exact.lt (x y : Exact) : Bool := let e := min x.exp y.exp; decide (x.atExp e < y.atExp e)
def Exact.eqv (x y : Exact) : Bool := let e := min x.exp y.exp; decide (x.atExp e = y.atExp e)

/-! ## Modes (R64) -/

/-- Does the rounding choose `hi`? The excess over `lo` is num / den of the gap (with `sticky`, a little more); `odd` says that
`lo` is not the even candidate of a tie; `u` is the draw of `rst` (R64, R67). -/
def pickHi (m : Rm) (neg : Bool) (u : Nat) (odd : Bool) (num den : Nat) (sticky : Bool) : Bool :=
  match m with
  | .rne | .rsat => den < 2 * num || (2 * num == den && (sticky || odd))
  | .rtz => false
  | .rup => !neg
  | .rdn => neg
  | .rst => u < num * 4294967296 / den

/-- `RoundInt` (R71, R78): the magnitude of the rounded integer, and whether it differs from x. -/
def roundMag (x : Exact) (m : Rm) (u : Nat) : Nat × Bool :=
  let (n, r, s) := x.split 0
  let inexact := r != 0 || x.sticky
  (if inexact && pickHi m x.neg u (n % 2 == 1) r (2 ^ s) x.sticky then n + 1 else n, inexact)

/-! ## Formats with an exponent field (R61, R348) -/

/-- Exponent bits, fraction bits and bias; an all-ones exponent holds the infinities and NaNs. -/
structure FloatFmt where
  ebits : Nat
  fbits : Nat
  bias  : Int
  deriving DecidableEq, Repr

def fmtF32 : FloatFmt := ⟨8, 23, 127⟩
def fmtF16 : FloatFmt := ⟨5, 10, 15⟩
def fmtBf16 : FloatFmt := ⟨8, 7, 127⟩

namespace FloatFmt
def width (F : FloatFmt) : Nat := F.ebits + F.fbits + 1
def expTop (F : FloatFmt) : Nat := 2 ^ F.ebits - 1
/-- Least exponent of a normal value: 1 − bias. -/
def emin (F : FloatFmt) : Int := 1 - F.bias
/-- Exponent of the last place of MAX. -/
def qmax (F : FloatFmt) : Int := (F.expTop : Int) - 1 - F.bias - F.fbits
def signBit (F : FloatFmt) (neg : Bool) : Nat := if neg then 2 ^ (F.ebits + F.fbits) else 0
def infBits (F : FloatFmt) (neg : Bool) : Nat := F.signBit neg + F.expTop * 2 ^ F.fbits
def maxBits (F : FloatFmt) (neg : Bool) : Nat := F.infBits neg - 1
/-- The canonical quiet NaN (R62, R348). -/
def nanBits (F : FloatFmt) : Nat := F.expTop * 2 ^ F.fbits + 2 ^ (F.fbits - 1)

/-- The value of a pattern. -/
def read (F : FloatFmt) (bits : Nat) : FVal :=
  let f := bits % 2 ^ F.fbits
  let e := bits / 2 ^ F.fbits % 2 ^ F.ebits
  let neg := bits / 2 ^ (F.ebits + F.fbits) % 2 == 1
  if e = F.expTop then (if f = 0 then .inf neg else .nan (f < 2 ^ (F.fbits - 1)))
  else if e = 0 then .fin { neg, num := f, exp := F.emin - F.fbits }
  else .fin { neg, num := 2 ^ F.fbits + f, exp := F.emin - F.fbits + ((e : Int) - 1) }

/-- The pattern of n × 2^q, where q is the place of a subnormal or n has its hidden bit. -/
def pack (F : FloatFmt) (neg : Bool) (n : Nat) (q : Int) : Nat :=
  -- adding n carries the hidden bit, or the carry out of a rounded fraction, into the exponent
  F.signBit neg + (q - (F.emin - F.fbits)).toNat * 2 ^ F.fbits + n

/-- Is x, rounded with unbounded exponent, below the smallest normal magnitude (R66)? -/
def tiny (F : FloatFmt) (x : Exact) (m : Rm) (u : Nat) : Bool :=
  let q := x.lead - F.fbits
  let (n, r, s) := x.split q
  let n := if (r != 0 || x.sticky) && pickHi m x.neg u (n % 2 == 1) r (2 ^ s) x.sticky then n + 1 else n
  -- n × 2^q < 2^emin
  if F.emin ≤ q then false else decide (n < 2 ^ (F.emin - q).toNat)

/-- `Round` of a finite exact value (R64 to R67). -/
def roundFin (F : FloatFmt) (x : Exact) (m : Rm) (u : Nat) : Nat × BitVec 5 :=
  if x.isZero then (F.signBit x.neg, 0)
  else
    let q := max (F.emin - F.fbits) (if x.num = 0 then F.emin - F.fbits else x.lead - F.fbits)
    let (q, n, num, den) :=
      if F.qmax < q then
        -- beyond MAX: lo is MAX, and the excess is measured in steps of MAX's last place
        let top := 2 ^ (F.fbits + 1) - 1
        let (n, r, s) := x.split F.qmax
        (F.qmax, top, (n - top) * 2 ^ s + r, 2 ^ s)
      else
        let (n, r, s) := x.split q
        (q, n, r, 2 ^ s)
    if num = 0 ∧ x.sticky = false then (F.pack x.neg n q, 0)
    else
      let hi := pickHi m x.neg u (n % 2 == 1) num den x.sticky
      let n' := if hi then n + 1 else n
      -- only a result that was rounded away from zero lies beyond MAX; it is an infinity, but for `rsat`
      if q = F.qmax ∧ 2 ^ (F.fbits + 1) ≤ n' then (if m = .rsat then F.maxBits x.neg else F.infBits x.neg, of ||| nx)
      else (F.pack x.neg n' q, nx ||| flagIf (x.num = 0 || F.tiny x m u) uf)

/-- `Round` of any value: a NaN becomes the canonical one; `rsat` replaces an infinity by MAX (R62, R65). -/
def round (F : FloatFmt) (v : FVal) (m : Rm) (u : Nat) : Nat × BitVec 5 :=
  match v with
  | .nan _ => (F.nanBits, 0)
  | .inf n => if m = .rsat then (F.maxBits n, of ||| nx) else (F.infBits n, 0)
  | .fin x => F.roundFin x m u

/-- The faithful rounding of an exact value (R108): one of the two neighbours, `away` says which; the flags come from the value. -/
def faithful (F : FloatFmt) (x : Exact) (away : Bool) : Nat × BitVec 5 :=
  let (lo, fl) := F.roundFin x .rtz 0
  if fl = 0 then (lo, 0)
  else if F.qmax + F.fbits < x.lead ∨ (x.lead = F.qmax + F.fbits ∧ 2 ^ (F.fbits + 1) - 1 ≤ (x.split F.qmax).1) then
    (F.infBits x.neg, of ||| nx)
  else (if away then lo + 1 else lo, nx ||| flagIf (x.lead < F.emin) uf)
end FloatFmt

/-! ## Formats given by a table of values (R72, R73, R343) -/

/-- A finite magnitude of a format: its code (without regard to sign) and its value m × 2^x. -/
structure Mag where
  code : Nat
  m    : Nat
  x    : Int
  deriving DecidableEq, Repr

/-- m × 2^x as an integer at exponent `e`. -/
def magAt (m : Nat) (x e : Int) : Nat := m * 2 ^ (x - e).toNat

/-- The two neighbours of |x| among the magnitudes `ms` (ascending): the last one not above it, and the next. -/
def neighbours (e : Int) (v : Nat) (sticky : Bool) : Mag → List Mag → Mag × Option Mag
  | lo, [] => (lo, none)
  | lo, hi :: rest => if magAt hi.m hi.x e < v || (magAt hi.m hi.x e == v) then neighbours e v sticky hi rest else (lo, some hi)

/-- What rounding into a table chose. -/
inductive MagPick where
  | mag (m : Mag) (inexact : Bool)
  | past
  deriving DecidableEq, Repr

/-- `Round` among magnitudes, zero first (R64): exact, a neighbour, or beyond the largest. DESIGN CHOICE (log 87): "lowest fraction bit" has
no meaning for a scaled record that is no library format, and a tie there goes by the parity of the lower neighbour's element code. -/
def pickMag (ms : List Mag) (x : Exact) (m : Rm) (u : Nat) : MagPick :=
  match ms with
  | [] => .past
  | z :: rest =>
    let e := ms.foldl (fun e y => min e y.x) x.exp
    let v := magAt x.num x.exp e
    let (lo, hi) := neighbours e v x.sticky z rest
    let lov := magAt lo.m lo.x e
    if lov = v ∧ x.sticky = false then .mag lo false
    else
      match hi with
      | some hi =>
        let hiv := magAt hi.m hi.x e
        if pickHi m x.neg u (lo.code % 2 == 1) (v - lov) (hiv - lov) x.sticky then .mag hi true else .mag lo true
      | none =>
        -- one step beyond MAX (R64): MAX + (MAX − p)
        let p := match ms.reverse with | _ :: p :: _ => magAt p.m p.x e | _ => 0
        if pickHi m x.neg u (lo.code % 2 == 1) (v - lov) (lov - p) x.sticky then .past else .mag lo true

/-! ## Random draws (R67, R68) -/

/-- `Mix32`. -/
def mix32 (x : BitVec 32) : BitVec 32 :=
  let x := (x ^^^ (x >>> 16)) * 0x7FEB352D#32
  let x := (x ^^^ (x >>> 15)) * 0x846CA68B#32
  x ^^^ (x >>> 16)
/-- `RndNext`: the value drawn, and the generator after it. -/
def rndNext (r : K64) : Nat × K64 :=
  let c : BitVec 32 := r.truncate 32
  let s : BitVec 32 := (r >>> 32).truncate 32
  ((mix32 (mix32 s ^^^ c)).toNat, s ++ (c + 1))
/-- `n` draws. -/
def rndN : Nat → K64 → List Nat × K64
  | 0, r => ([], r)
  | n + 1, r =>
    let (u, r) := rndNext r
    let (us, r) := rndN n r
    (u :: us, r)
/-- The seed of a thread (R68) from the launch header's seed S and the work identifier W. -/
def rndSeed (S W : K64) : K64 :=
  let lo (x : K64) : BitVec 32 := x.truncate 32
  let hi (x : K64) : BitVec 32 := (x >>> 32).truncate 32
  mix32 (lo S ^^^ hi S ^^^ mix32 (lo W ^^^ mix32 (hi W))) ++ (0 : BitVec 32)

end Sys2Proof.Machine
end

