-- ==== Sys2Proof/Machine/Approx.lean ====
section
/-! DEFINITION. The exact values behind the faithful approximations (R108, R109, R340), in fixed point: 1/√, 2^a, log2, sin and
cos in half-turns, tanh. Each is enclosed to far more bits than any f32 neighbour needs (log 7); a transcendental value carries
the sticky bit. -/
namespace Sys2Proof.Machine

/-- Fraction bits of the fixed-point work, guard bits dropped at the end. -/
def fxBits : Nat := 760
def fxOne : Nat := 2 ^ fxBits
def fxGuard : Nat := 40

/-- Newton steps of the integer square root from above. -/
def isqrtGo (n : Nat) : Nat → Nat → Nat
  | 0, x => x
  | k + 1, x => let y := (x + n / x) / 2; if y < x then isqrtGo n k y else x
/-- ⌊√n⌋. -/
def isqrt (n : Nat) : Nat := if n = 0 then 0 else isqrtGo n (Nat.log2 n + 2) (2 ^ (Nat.log2 n / 2 + 1))

/-- Σ of a power series: the term's successor is term × z2 / fxOne, divided by a function of the index; terms alternate in sign
when `alt`. -/
def series (z2 : Nat) (alt : Bool) (num den : Nat → Nat) : Nat → Nat → Nat → Int → Int
  | 0, _, _, acc => acc
  | k + 1, i, t, acc =>
    let v : Int := (t * num i / den i : Nat)
    series z2 alt num den k (i + 1) (t * z2 / fxOne) (if alt && i % 2 == 1 then acc - v else acc + v)

/-- exp(z) for 0 ≤ z < 1 in fixed point: the term divides by its index as it goes. -/
def expGo (z : Nat) : Nat → Nat → Nat → Nat → Nat
  | 0, _, _, acc => acc
  | k + 1, i, t, acc => let t := t * z / fxOne / i; expGo z k (i + 1) t (acc + t)
def fxExp (z : Nat) : Nat := expGo z 160 1 fxOne fxOne
/-- atanh(p / q) for p / q ≤ 1/3. -/
def fxAtanh (p q : Nat) : Nat :=
  let z := p * fxOne / q
  (series (z * z / fxOne) false (fun _ => 1) (fun i => 2 * i + 1) 250 0 z 0).toNat
/-- ln 2. -/
def fxLn2 : Nat := 2 * fxAtanh 1 3
/-- arctan(1 / n). -/
def fxAtan (n : Nat) : Nat :=
  (series (fxOne / (n * n)) true (fun _ => 1) (fun i => 2 * i + 1) 180 0 (fxOne / n) 0).toNat
/-- π, by Machin's formula. -/
def fxPi : Nat := 16 * fxAtan 5 - 4 * fxAtan 239
/-- sin z and cos z for 0 ≤ z ≤ π / 2: each term is the one before × z² / (i (i + 1)), with the other sign. -/
def trigGo (z2 : Nat) : Nat → Nat → Nat → Bool → Int → Int
  | 0, _, _, _, acc => acc
  | k + 1, i, t, minus, acc =>
    let t := t * z2 / fxOne / (i * (i + 1))
    trigGo z2 k (i + 2) t (!minus) (if minus then acc - t else acc + t)
def fxSin (z : Nat) : Nat := (trigGo (z * z / fxOne) 90 2 z true z).toNat
def fxCos (z : Nat) : Nat := (trigGo (z * z / fxOne) 90 1 fxOne true fxOne).toNat

/-- A fixed-point magnitude as a value strictly between neighbours: guard bits dropped, sticky. -/
def ofFx (neg : Bool) (n : Nat) : Exact := { neg, num := n / 2 ^ fxGuard, exp := (fxGuard : Int) - fxBits, sticky := true }
/-- A power of two. -/
def pow2 (neg : Bool) (e : Int) : Exact := { neg, num := 1, exp := e }

/-- 1 / √x for x above 0. -/
def exactRsqrt (x : Exact) : Exact :=
  let (n, e) := if x.exp % 2 = 0 then (x.num, x.exp) else (2 * x.num, x.exp - 1)
  let z := 2 ^ (2 * fxBits) / n
  let r := isqrt z
  { neg := false, num := r, exp := -(fxBits : Int) - e / 2, sticky := r * r * n != 2 ^ (2 * fxBits) }
/-- √x for x above 0. -/
def exactSqrt (x : Exact) : Exact :=
  let (n, e) := if x.exp % 2 = 0 then (x.num, x.exp) else (2 * x.num, x.exp - 1)
  let z := n * 2 ^ 400
  let r := isqrt z
  { neg := false, num := r, exp := e / 2 - 200, sticky := r * r != z }
/-- x / y for finite x, y with y not zero; the sign is a XOR b. -/
def exactDiv (x y : Exact) : Exact :=
  let z := x.num * 2 ^ 400
  { neg := x.neg != y.neg, num := z / y.num, exp := x.exp - y.exp - 400, sticky := z % y.num != 0 }

/-- ⌊x⌋ and the fraction x − ⌊x⌋ in fixed point, with exactness of the fraction being whole known by the second. -/
def floorFx (x : Exact) : Int × Nat :=
  let v : Int := x.atExp (min x.exp 0)
  let d : Int := (2 ^ (-(min x.exp 0)).toNat : Nat)
  (v / d, ((v % d).toNat * fxOne) / d.toNat)
/-- 2^x. Beyond ±1,024 only the side of the range matters. -/
def exactExp2 (x : Exact) : Exact :=
  if x.isZero then pow2 false 0
  else if 11 ≤ x.lead then { pow2 false (if x.neg then -1100 else 1100) with sticky := true }
  else
    let (n, f) := floorFx x
    if f = 0 then pow2 false n
    else (ofFx false (fxExp (f * fxLn2 / fxOne))).scale n
/-- log2 x for x above 0, x a power of two apart. -/
def exactLog2 (x : Exact) : Exact :=
  let e := x.lead
  let top := 2 ^ Nat.log2 x.num
  if x.num = top then { neg := e < 0, num := e.natAbs, exp := 0 }
  else
    let y : Int := (2 * fxAtanh (x.num - top) (x.num + top) * fxOne / fxLn2 : Nat) + e * fxOne
    ofFx (y < 0) y.natAbs
/-- x modulo 2 as (quarter-turn quadrant 0 to 3, remainder in half-turns below 1/2 as a dyadic value). -/
def halfTurns (x : Exact) : Nat × Exact :=
  -- |x| mod 2 at the exponent min(exp, −1)
  let e := min x.exp (-1)
  let one := 2 ^ (-e).toNat
  let v := x.num * 2 ^ (x.exp - e).toNat % (2 * one)
  (v / (one / 2), { neg := false, num := v % (one / 2), exp := e })
/-- π r for a dyadic r below 1/2. -/
def fxTurn (r : Exact) : Nat := if 0 ≤ r.exp then 0 else r.num * fxPi / 2 ^ (-r.exp).toNat
/-- sin(π r) and cos(π r) for 0 ≤ r < 1/2. -/
def sinTurn (r : Exact) : Exact := if r.num = 0 then { neg := false, num := 0, exp := 0 } else ofFx false (fxSin (fxTurn r))
def cosTurn (r : Exact) : Exact := if r.num = 0 then pow2 false 0 else ofFx false (fxCos (fxTurn r))
/-- sin(π x): odd in x; an integer gives a zero with the sign of x (R109). -/
def exactSin (x : Exact) : Exact :=
  let (quad, r) := halfTurns x
  let y := if quad % 2 = 0 then sinTurn r else cosTurn r
  if y.isZero then { y with neg := x.neg } else { y with neg := x.neg != (2 ≤ quad) }
/-- cos(π x): a half-integer gives +0 (R109). -/
def exactCos (x : Exact) : Exact :=
  let (quad, r) := halfTurns x
  let y := if quad % 2 = 0 then cosTurn r else sinTurn r
  if y.isZero then { y with neg := false } else { y with neg := quad == 1 || quad == 2 }
/-- tanh x, for x not zero: (e − 1) / (e + 1) with e = exp(2|x|). -/
def exactTanh (x : Exact) : Exact :=
  if 8 ≤ x.lead then { neg := x.neg, num := 2 ^ 600 - 1, exp := -600, sticky := true }
  else
    -- 2|x| = n ln 2 + r
    let z := if 0 ≤ x.exp then x.num * 2 ^ x.exp.toNat * 2 * fxOne else x.num * 2 * fxOne / 2 ^ (-x.exp).toNat
    let n := z / fxLn2
    let ex := fxExp (z % fxLn2) * 2 ^ n
    if x.lead < -110 then
      -- x − x³/3 + …: just below |x|
      { neg := x.neg, num := x.num * 2 ^ 500 - 1, exp := x.exp - 500, sticky := true }
    else { (ofFx x.neg ((ex - fxOne) * fxOne / (ex + fxOne))) with neg := x.neg }

end Sys2Proof.Machine
end

