-- ==== Sys2Proof/Machine/Operands.lean ====
section
/-! DEFINITION. Operand forms of the register instructions: values by type (R25, R26, R57), one lane's result, and the two ways
a register operation is computed: per lane (R82) and once per issue group (R91). Run.lean runs it. -/
namespace Sys2Proof

/-! ## Values (R57) -/

/-- Reduce an integer modulo 2^n. -/
def wrap (n : Nat) (x : Int) : Nat := (x % (2 ^ n : Nat)).toNat
/-- The signed reading of an n-bit pattern. -/
def sext (n x : Nat) : Int := if x % 2 ^ n < 2 ^ (n - 1) then (x % 2 ^ n : Nat) else (x % 2 ^ n : Nat) - (2 ^ n : Nat)
/-- The value an integer type gives a pattern (R57). -/
def Ty.value (t : Ty) (x : Nat) : Int := if t.signed then sext t.bits x else (x % 2 ^ t.bits : Nat)
/-- The 32-bit register value of a narrow result (R57). -/
def Ty.fill (t : Ty) (x : Nat) : V32 := BitVec.ofInt 32 (t.value x)
/-- The 32-bit source registers of operand b. -/
def Src.regs32 : Src → List Nat
  | .reg r => [r]
  | _ => []
/-- A register of type `t` counts as a 32-bit naming unless the type has 64 bits (R271). -/
def Ty.named (t : Ty) (r : Nat) : List Nat := if t.is64 then [] else [r]
def Src.named (t : Ty) (b : Src) : List Nat := if t.is64 then [] else b.regs32

end Sys2Proof

namespace Sys2Proof.Machine

/-- The bit pattern of a vector operand of type `t` in register `r`: the low bits, or the pair (R9, R57). -/
def Thread.pat (th : Thread) (t : Ty) (r : Nat) : Nat :=
  if t.is64 then (th.getVV r).toNat else (th.getV r).toNat % 2 ^ t.bits
/-- The immediate of an S word as a pattern of `n` bits for a type (R25, R26). -/
def immPat (t : Ty) (n : Nat) : Src → Nat
  | .reg _ => 0
  | .imm x =>
    (match t with
     | .i8 | .i16 | .i32 | .i64 => wrap n (sext 16 x)
     | .f32 => x * 65536
     | _ => x) % 2 ^ n
  | .ext p => wrap n (sext 61 p)

/-- Operand b as a pattern of the type's width (R25). -/
def Thread.srcPat (th : Thread) (t : Ty) : Src → Nat
  | .reg r => th.pat t r
  | s => immPat t t.bits s
/-- Operand b as an unsigned 32-bit count, zero-extended whatever the type (R84). -/
def Thread.srcCount (th : Thread) : Src → Nat
  | .reg r => (th.getV r).toNat
  | s => immPat .z32 32 s
/-- Operand b of a group D instruction of type `t`: 64 bits (R92). -/
def Thread.srcK (th : Thread) (t : Ty) : Src → Nat
  | .reg r => (th.getK r).toNat
  | s => immPat t 64 s

/-! ## One lane's result -/

/-- The registers one lane writes and the flags it raises. -/
structure LaneUpd where
  v : List (Nat × V32) := []
  k : List (Nat × K64) := []
  a : List (Nat × Addr) := []
  p : List (Nat × Bool) := []
  f : BitVec 5 := 0
  i : BitVec 2 := 0
  rnd : Option K64 := none
  deriving DecidableEq, Repr

/-- Write a lane's result (R21: flags are sticky). -/
def LaneUpd.apply (u : LaneUpd) (t : Thread) : Thread :=
  let t := u.v.foldl (fun t e => t.setV e.1 e.2) t
  let t := u.k.foldl (fun t e => t.setK e.1 e.2) t
  let t := u.a.foldl (fun t e => t.setA e.1 e.2) t
  let t := u.p.foldl (fun t e => t.setP e.1 e.2) t
  { t with fstat := t.fstat ||| u.f, istat := t.istat ||| u.i, rnd := u.rnd.getD t.rnd }

/-- A result of type `t` written to vector register `r`: a pair for 64 bits, a filled register below 32 (R9, R57). -/
def vWrite (t : Ty) (r x : Nat) : List (Nat × V32) :=
  if t.is64 then [(r, BitVec.ofNat 32 x), (r + 1, BitVec.ofNat 32 (x / 4294967296))] else [(r, t.fill x)]

/-! ## Register operations -/

/-- A lane's view: its number in the workgroup and its state. -/
abbrev Lane := Nat × Thread

/-- A register operation: the v registers it reads as 32-bit sources and writes as 32-bit results (R271), and each lane's result
from the active lanes of the issue group. -/
structure RegOp where
  src : List Nat
  dst : List Nat
  upd : List Lane → Lane → LaneUpd

/-- A per-lane operation (R82). -/
def perLane (src dst : List Nat) (f : Thread → LaneUpd) : RegOp := { src, dst, upd := fun _ l => f l.2 }
/-- A once-per-group operation: computed from the leader, written by every active lane (R91). -/
def perGroup (f : Thread → LaneUpd) : RegOp :=
  { src := [], dst := [], upd := fun all l => f (match all with | (_, t) :: _ => t | [] => l.2) }

end Sys2Proof.Machine
end

