-- ==== Sys2Proof/Machine/IntOps.lean ====
section
/-! DEFINITION. Group A: the vector integer instructions (R81 to R90). -/
namespace Sys2Proof.Machine

/-! ## Shared forms -/

/-- A two-operand integer operation on exact values, reduced modulo 2^n (R58, R83). -/
def intOp (t : Ty) (d a : Nat) (b : Src) (f : Int → Int → Int) : RegOp :=
  perLane (t.named a ++ b.named t) (t.named d) (fun th =>
    { v := vWrite t d (wrap t.bits (f (t.value (th.pat t a)) (t.value (th.srcPat t b)))) })
/-- A two-operand bit operation (R83). -/
def bitOp (t : Ty) (d a : Nat) (b : Src) (f : Nat → Nat → Nat) : RegOp :=
  perLane (t.named a ++ b.named t) (t.named d) (fun th => { v := vWrite t d (f (th.pat t a) (th.srcPat t b) % 2 ^ t.bits) })
/-- A shift or rotate: the count is one 32-bit register or the zero-extended immediate (R84). -/
def shiftOp (t : Ty) (d a : Nat) (b : Src) (f : Nat → Nat → Nat → Nat) : RegOp :=
  perLane (t.named a ++ b.regs32) (t.named d) (fun th => { v := vWrite t d (f t.bits (th.pat t a) (th.srcCount b) % 2 ^ t.bits) })
/-- A count written to one 32-bit register (R84). -/
def countOp (t : Ty) (d a : Nat) (f : Nat → Nat → Nat) : RegOp :=
  perLane (t.named a) [d] (fun th => { v := [(d, BitVec.ofNat 32 (f t.bits (th.pat t a)))] })
/-- The least value of a signed type. -/
def Ty.least (t : Sys2Proof.Ty) : Option Int := if t.signed then some (-(2 ^ (t.bits - 1) : Nat)) else none

/-! ## Effects (R83 to R86) -/

/-- Shifts of an n-bit pattern (R84). -/
def shlN (n a s : Nat) : Nat := if s < n then a * 2 ^ s % 2 ^ n else 0
def shrN (n a s : Nat) : Nat := if s < n then a / 2 ^ s else 0
def sarN (n a s : Nat) : Nat := wrap n (sext n a / (2 ^ (min s n) : Nat))
def rotlN (n a s : Nat) : Nat := let r := s % n; (a * 2 ^ r % 2 ^ n) + a / 2 ^ (n - r)
/-- Leading zero bits of an n-bit pattern. -/
def clzN (n a : Nat) : Nat := if a = 0 then n else n - (Nat.log2 a + 1)
/-- One bits. -/
def popcN : Nat → Nat → Nat
  | 0, _ => 0
  | n + 1, a => a % 2 + popcN n (a / 2)
/-- Bits in reverse order. -/
def brevN : Nat → Nat → Nat
  | 0, _ => 0
  | n + 1, a => a % 2 * 2 ^ n + brevN n (a / 2)
/-- `bfx` (R85): the field, sign-extended from its own top bit for a signed type. -/
def bfxN (signed : Bool) (n a pos len : Nat) : Nat :=
  let f := if pos < n then a / 2 ^ pos % 2 ^ len else 0
  if signed && decide (pos < n) then wrap n (sext len f) else f % 2 ^ n
/-- `bfi` (R86): `ctl` holds pos in bits [5:0] and len in bits [13:8]. -/
def bfiN (n a b ctl : Nat) : Nat :=
  let pos := ctl % 64
  let len := ctl / 256 % 64
  let hi := min (pos + len) n
  if len = 0 ∨ n ≤ pos then a else a % 2 ^ pos + b % 2 ^ (hi - pos) * 2 ^ pos + a / 2 ^ hi * 2 ^ hi
/-- Truncating division and remainder (R59). -/
def divInt (a b : Int) : Int := if b = 0 then -1 else a.tdiv b
def remInt (a b : Int) : Int := if b = 0 then a else a.tmod b
/-- A condition of R88 on two values. -/
def cmpInt : Cmp → Int → Int → Bool
  | .eq, a, b => a == b
  | .ne, a, b => a != b
  | .lt, a, b => decide (a < b)
  | .le, a, b => decide (a ≤ b)
  | .gt, a, b => decide (b < a)
  | .ge, a, b => decide (b ≤ a)
  | .un, _, _ => false
  | .ord, _, _ => true
/-- The combining form (R88). -/
def combine (t : Thread) (x : Comb) (b : Bool) : Bool :=
  match x with
  | .plain => b
  | .both p => b && t.getP p
  | .either p => b || t.getP p

/-! ## The operations -/

def addOp (t : Ty) (d a : Nat) (b : Src) : RegOp := intOp t d a b (· + ·)
def subOp (t : Ty) (d a : Nat) (b : Src) : RegOp := intOp t d a b (· - ·)
def mulOp (t : Ty) (d a : Nat) (b : Src) : RegOp := intOp t d a b (· * ·)
def mulhiOp (t : Ty) (d a : Nat) (b : Src) : RegOp := intOp t d a b (fun x y => x * y / (2 ^ t.bits : Nat))
def minOp (t : Ty) (d a : Nat) (b : Src) : RegOp := intOp t d a b min
def maxOp (t : Ty) (d a : Nat) (b : Src) : RegOp := intOp t d a b max
def madOp (t : Ty) (d a b c : Nat) : RegOp :=
  perLane (t.named a ++ t.named b ++ t.named c) (t.named d) (fun th =>
    { v := vWrite t d (wrap t.bits (t.value (th.pat t a) * t.value (th.pat t b) + t.value (th.pat t c))) })
/-- Division and remainder set DZ or DV in the lane's own `sr.istat` (R59, R82). -/
def divRemOp (t : Ty) (d a : Nat) (b : Src) (f : Int → Int → Int) : RegOp :=
  perLane (t.named a ++ b.named t) (t.named d) (fun th =>
    let x := t.value (th.pat t a)
    let y := t.value (th.srcPat t b)
    { v := vWrite t d (wrap t.bits (f x y)), i := divFlags (Ty.least t) x y })
def divOp (t : Ty) (d a : Nat) (b : Src) : RegOp := divRemOp t d a b divInt
def remOp (t : Ty) (d a : Nat) (b : Src) : RegOp := divRemOp t d a b remInt
def absOp (t : Ty) (d a : Nat) : RegOp :=
  perLane (t.named a) (t.named d) (fun th => { v := vWrite t d (wrap t.bits ((t.value (th.pat t a)).natAbs : Int)) })
def andOp (t : Ty) (d a : Nat) (b : Src) : RegOp := bitOp t d a b (· &&& ·)
def orOp (t : Ty) (d a : Nat) (b : Src) : RegOp := bitOp t d a b (· ||| ·)
def xorOp (t : Ty) (d a : Nat) (b : Src) : RegOp := bitOp t d a b (· ^^^ ·)
def andnOp (t : Ty) (d a : Nat) (b : Src) : RegOp := bitOp t d a b (fun x y => x &&& (2 ^ t.bits - 1 - y))
def shlOp (t : Ty) (d a : Nat) (b : Src) : RegOp := shiftOp t d a b shlN
def shrOp (t : Ty) (d a : Nat) (b : Src) : RegOp := shiftOp t d a b shrN
def sarOp (t : Ty) (d a : Nat) (b : Src) : RegOp := shiftOp t d a b sarN
def rotlOp (t : Ty) (d a : Nat) (b : Src) : RegOp := shiftOp t d a b rotlN
def clzOp (t : Ty) (d a : Nat) : RegOp := countOp t d a clzN
def popcOp (t : Ty) (d a : Nat) : RegOp := countOp t d a popcN
def brevOp (t : Ty) (d a : Nat) : RegOp := perLane (t.named a) (t.named d) (fun th => { v := vWrite t d (brevN t.bits (th.pat t a)) })
def bfxOp (t : Ty) (d a pos len : Nat) : RegOp :=
  perLane (t.named a) (t.named d) (fun th => { v := vWrite t d (bfxN t.signed t.bits (th.pat t a) pos len) })
def bfiOp (t : Ty) (d a b c : Nat) : RegOp :=
  perLane (t.named a ++ t.named b ++ [c]) (t.named d) (fun th =>
    { v := vWrite t d (bfiN t.bits (th.pat t a) (th.pat t b) (th.getV c).toNat) })
def selOp (t : Ty) (d a b p : Nat) : RegOp :=
  perLane (t.named a ++ t.named b) (t.named d) (fun th => { v := vWrite t d (if th.getP p then th.pat t a else th.pat t b) })
def cmpOp (t : Ty) (c : Cmp) (d a : Nat) (b : Src) (x : Comb) : RegOp :=
  perLane (t.named a ++ b.named t) [] (fun th =>
    { p := [(d, combine th x (cmpInt c (t.value (th.pat t a)) (t.value (th.srcPat t b))))] })
/-- `mov` copies a register, a pair, or a predicate or its complement (R89). -/
def movOp (t : Ty) (d a : Nat) (neg : Bool) : RegOp :=
  if t = .pred then perLane [] [] (fun th => { p := [(d, th.getP a != neg)] })
  else perLane (t.named a) (t.named d) (fun th => { v := vWrite t d (th.pat t a) })
/-- `movi` (R90): a 16-bit float type takes the immediate's low 16 bits. -/
def moviOp (t : Ty) (d : Nat) (b : Src) : RegOp :=
  perLane [] (t.named d) (fun _ => { v := vWrite t d (immPat t t.bits b) })

end Sys2Proof.Machine
end

