-- ==== Sys2Proof/Machine/Float.lean ====
section
/-! DEFINITION. Group B on the register types: arithmetic, minimum and maximum, approximations, comparison, classification,
conversion between fixed types, and `fscale` (R101 to R113, R120). Packing is in Formats.lean. -/
namespace Sys2Proof

/-- The layout of a floating type (R61). -/
def Ty.float : Ty → Machine.FloatFmt
  | .f16 => Machine.fmtF16
  | .bf16 => Machine.fmtBf16
  | _ => Machine.fmtF32
end Sys2Proof

namespace Sys2Proof.Machine

/-! ## Shared forms -/

/-- A result before rounding: the value and the flags its operands raise (R105). -/
abbrev FRes := FVal × BitVec 5
/-- NV for a signalling operand (R62). -/
def snans (vs : List FVal) : BitVec 5 := flagIf (vs.any (·.isSnan)) nv
/-- The canonical NaN of an operation on NaN operands, or the result of `f` (R105). -/
def nanOr (vs : List FVal) (f : FRes) : FRes := if vs.any (·.isNan) then (.nan false, snans vs) else f
def invalid : FRes := (.nan false, nv)

/-- Round a result into a type, drawing once under `rst` (R67). -/
def roundLane (th : Thread) (t : Ty) (rm : Rm) (r : FRes) : Nat × BitVec 5 × Option K64 :=
  let (u, rnd) := if rm = .rst then (let d := rndNext th.rnd; (d.1, some d.2)) else (0, none)
  let (b, fl) := t.float.round r.1 rm u
  (b, fl ||| r.2, rnd)

/-- A rounded operation on a lane's values (R104). -/
def fRound (t : Ty) (d : Nat) (src : List Nat) (rm : Rm) (f : Thread → FRes) : RegOp :=
  perLane src [d] (fun th => let (b, fl, rnd) := roundLane th t rm (f th); { v := [(d, BitVec.ofNat 32 b)], f := fl, rnd })
/-- The value of a v register, or of operand b. -/
def Thread.fval (th : Thread) (t : Ty) (r : Nat) : FVal := t.float.read (th.pat t r)
def Thread.fsrc (th : Thread) (t : Ty) (b : Src) : FVal := t.float.read (th.srcPat t b)

/-! ## Exact results (R104 to R106) -/

/-- Change a value's sign. -/
def FVal.negate : FVal → FVal
  | .nan s => .nan s
  | .inf n => .inf (!n)
  | .fin x => .fin { x with neg := !x.neg }

/-- x + y; `down` gives an exact zero sum its sign (R106). -/
def addFin (x y : Exact) (down : Bool) : Exact :=
  let e := min x.exp y.exp
  let n := x.atExp e + y.atExp e
  if n = 0 then { neg := if x.isZero && y.isZero && x.neg == y.neg then x.neg else down, num := 0, exp := 0 }
  else { neg := n < 0, num := n.natAbs, exp := e }
def addVal (a b : FVal) (down : Bool) : FRes :=
  match a, b with
  | .fin x, .fin y => (.fin (addFin x y down), 0)
  | .inf n, .inf k => if n = k then (.inf n, 0) else invalid
  | .inf n, _ => (.inf n, 0)
  | _, b => (b, 0)
def mulFin (x y : Exact) : Exact := { neg := x.neg != y.neg, num := x.num * y.num, exp := x.exp + y.exp }
def mulVal (a b : FVal) : FRes :=
  match a, b with
  | .fin x, .fin y => (.fin (mulFin x y), 0)
  | a, b => if a.isZero || b.isZero then invalid else (.inf (a.neg != b.neg), 0)
def divVal (a b : FVal) : FRes :=
  match a, b with
  | .fin x, .fin y =>
    if y.isZero then (if x.isZero then invalid else (.inf (x.neg != y.neg), dz))
    else if x.isZero then (FVal.zero (x.neg != y.neg), 0)
    else (.fin (exactDiv x y), 0)
  | .fin x, b => (FVal.zero (x.neg != b.neg), 0)
  | .inf n, .fin y => (.inf (n != y.neg), 0)
  | _, _ => invalid
def sqrtVal : FVal → FRes
  | .fin x => if x.isZero then (.fin x, 0) else if x.neg then invalid else (.fin (exactSqrt x), 0)
  | .inf false => (.inf false, 0)
  | _ => invalid
/-- The exact 1. -/
def oneVal : FVal := .fin { neg := false, num := 1, exp := 0 }

def addF (a b : FVal) (rm : Rm) : FRes := nanOr [a, b] (addVal a b (rm = .rdn))
def subF (a b : FVal) (rm : Rm) : FRes := nanOr [a, b] (addVal a b.negate (rm = .rdn))
def mulF (a b : FVal) : FRes := nanOr [a, b] (mulVal a b)
def divF (a b : FVal) : FRes := nanOr [a, b] (divVal a b)
def rcpF (a : FVal) : FRes := nanOr [a] (divVal oneVal a)
def sqrtF (a : FVal) : FRes := nanOr [a] (sqrtVal a)
/-- `ffma`: 0 × ∞ is invalid also beside a quiet NaN (R105). -/
def fmaF (a b c : FVal) (rm : Rm) : FRes :=
  if a.isNan || b.isNan then (.nan false, snans [a, b, c])
  else
    match mulVal a b with
    | (.nan _, _) => invalid
    | (p, _) => nanOr [c] (addVal p c (rm = .rdn))

/-! ## Minimum, maximum, comparison, class (R107, R111, R112) -/

/-- a before b, −0 below +0. -/
def FVal.below : FVal → FVal → Bool
  | .inf true, .inf true => false
  | .inf true, _ => true
  | .inf false, _ => false
  | .fin _, .inf n => !n
  | .fin x, .fin y => x.lt y || (x.isZero && y.isZero && x.neg && !y.neg)
  | _, _ => false
/-- Numerical comparison of numbers (R111). -/
def FVal.lessThan : FVal → FVal → Bool
  | .fin x, .fin y => x.lt y
  | a, b => a.below b
def FVal.equal : FVal → FVal → Bool
  | .fin x, .fin y => x.eqv y
  | .inf n, .inf k => n == k
  | _, _ => false

/-- `fmin` (less) or `fmax` of two patterns. -/
def minMaxF (t : Ty) (wantLess nan : Bool) (a b : Nat) : Nat × BitVec 5 :=
  let x := t.float.read a
  let y := t.float.read b
  let r :=
    if x.isNan && y.isNan then t.float.nanBits
    else if x.isNan then (if nan then t.float.nanBits else b)
    else if y.isNan then (if nan then t.float.nanBits else a)
    else if wantLess then (if y.below x then b else a) else (if x.below y then b else a)
  (r, snans [x, y])

def cmpF (c : Cmp) (a b : FVal) : Bool × BitVec 5 :=
  let un := a.isNan || b.isNan
  let quiet := match c with | .lt | .le | .gt | .ge => true | _ => false
  let r :=
    match c with
    | .eq => !un && a.equal b
    | .ne => un || !a.equal b
    | .lt => !un && a.lessThan b
    | .le => !un && (a.lessThan b || a.equal b)
    | .gt => !un && b.lessThan a
    | .ge => !un && (b.lessThan a || a.equal b)
    | .un => un
    | .ord => !un
  (r, flagIf ((un && quiet) || a.isSnan || b.isSnan) nv)

/-- The class bit of R112. -/
def classOf (F : FloatFmt) (bits : Nat) : Nat :=
  match F.read bits with
  | .nan s => if s then 8 else 9
  | .inf n => if n then 0 else 7
  | .fin x =>
    if x.isZero then (if x.neg then 3 else 4)
    else if x.num < 2 ^ F.fbits then (if x.neg then 2 else 5) else (if x.neg then 1 else 6)

/-! ## Approximations (R108 to R110) -/

/-- The five of group B. -/
inductive ApproxOp where
  | rsq | exp2 | log2 | sin | cos
  deriving DecidableEq, Repr
def ApproxOp.code : ApproxOp → Nat | .rsq => 0 | .exp2 => 1 | .log2 => 2 | .sin => 3 | .cos => 4
/-- A special result (R110), or the exact value to approximate. -/
inductive ApproxRes where
  | special (r : FRes)
  | value (x : Exact)
  deriving DecidableEq, Repr
def approxVal (op : ApproxOp) (a : FVal) : ApproxRes :=
  match a with
  | .nan s => .special (.nan false, flagIf s nv)
  | .inf n =>
    match op with
    | .rsq => .special (if n then invalid else (FVal.zero false, 0))
    | .exp2 => .special (if n then (FVal.zero false, 0) else (.inf false, 0))
    | .log2 => .special (if n then invalid else (.inf false, 0))
    | .sin | .cos => .special invalid
  | .fin x =>
    match op with
    | .rsq => if x.isZero then .special (.inf x.neg, dz) else if x.neg then .special invalid else .value (exactRsqrt x)
    | .exp2 => .value (exactExp2 x)
    | .log2 => if x.isZero then .special (.inf true, dz) else if x.neg then .special invalid else .value (exactLog2 x)
    | .sin => .value (exactSin x)
    | .cos => .value (exactCos x)
/-- One approximation of a pattern: the neighbour is a fixed function of operation, type and operand bits (R108). -/
def approxF (op : ApproxOp) (t : Ty) (bits : Nat) : Nat × BitVec 5 :=
  match approxVal op (t.float.read bits) with
  | .special (v, fl) => ((t.float.round v .rne 0).1, fl)
  | .value x => t.float.faithful x (Config.faithfulAway op.code t.code bits)

/-! ## Conversion (R78, R113) -/

/-- Clamp to an integer type's range. -/
def Ty.lo (t : Sys2Proof.Ty) : Int := if t.signed then -(2 ^ (t.bits - 1) : Nat) else 0
def Ty.hi (t : Sys2Proof.Ty) : Int := if t.signed then (2 ^ (t.bits - 1) : Nat) - 1 else (2 ^ t.bits : Nat) - 1
def clampTo (t : Sys2Proof.Ty) (x : Int) : Int := max (Ty.lo t) (min (Ty.hi t) x)
/-- A floating value as an integer of a type; `rsat` acts as `rne`. -/
def toIntF (t : Sys2Proof.Ty) (v : FVal) (rm : Rm) (u : Nat) : Int × BitVec 5 :=
  match v with
  | .nan _ => (0, nv)
  | .inf n => (if n then Ty.lo t else Ty.hi t, nv)
  | .fin x =>
    let (n, inexact) := roundMag x rm u
    let y : Int := if x.neg then -(n : Int) else n
    if y < Ty.lo t ∨ Ty.hi t < y then (clampTo t y, nv) else (y, flagIf inexact nx)
/-- An integer as an exact value. -/
def ofInt (x : Int) : FVal := .fin { neg := x < 0, num := x.natAbs, exp := 0 }

/-- One conversion of a pattern (R113): the result pattern, flags, and whether it drew. -/
def cvtBits (dt st : Ty) (rm : Rm) (bits u : Nat) : Nat × BitVec 5 :=
  if st.isFloat then
    let v := st.float.read bits
    if dt.isFloat then
      let (r, fl) := dt.float.round v rm u
      (r, fl ||| snans [v])
    else
      let (n, fl) := toIntF dt v rm u
      (wrap dt.bits n, fl)
  else if dt.isFloat then dt.float.round (ofInt (st.value bits)) rm u
  else if rm = .rsat then (wrap dt.bits (clampTo dt (st.value bits)), 0)
  else (wrap dt.bits (st.value bits), 0)

/-! ## The operations -/

def faddOp (t : Ty) (d a : Nat) (b : Src) (rm : Rm) : RegOp :=
  fRound t d (t.named a ++ b.named t) rm (fun th => addF (th.fval t a) (th.fsrc t b) rm)
def fsubOp (t : Ty) (d a : Nat) (b : Src) (rm : Rm) : RegOp :=
  fRound t d (t.named a ++ b.named t) rm (fun th => subF (th.fval t a) (th.fsrc t b) rm)
def fmulOp (t : Ty) (d a : Nat) (b : Src) (rm : Rm) : RegOp :=
  fRound t d (t.named a ++ b.named t) rm (fun th => mulF (th.fval t a) (th.fsrc t b))
def ffmaOp (t : Ty) (d a b c : Nat) (rm : Rm) : RegOp :=
  fRound t d [a, b, c] rm (fun th => fmaF (th.fval t a) (th.fval t b) (th.fval t c) rm)
def fdivOp (t : Ty) (d a : Nat) (b : Src) (rm : Rm) : RegOp :=
  fRound t d (t.named a ++ b.named t) rm (fun th => divF (th.fval t a) (th.fsrc t b))
def frcpOp (t : Ty) (d a : Nat) (rm : Rm) : RegOp := fRound t d [a] rm (fun th => rcpF (th.fval t a))
def fsqrtOp (t : Ty) (d a : Nat) (rm : Rm) : RegOp := fRound t d [a] rm (fun th => sqrtF (th.fval t a))
def minMaxOp (t : Ty) (d a : Nat) (b : Src) (less nan : Bool) : RegOp :=
  perLane (t.named a ++ b.named t) [d] (fun th =>
    let (r, fl) := minMaxF t less nan (th.pat t a) (th.srcPat t b)
    { v := [(d, BitVec.ofNat 32 r)], f := fl })
def fminOp (t : Ty) (d a : Nat) (b : Src) (nan : Bool) : RegOp := minMaxOp t d a b true nan
def fmaxOp (t : Ty) (d a : Nat) (b : Src) (nan : Bool) : RegOp := minMaxOp t d a b false nan
def approxOp (op : ApproxOp) (t : Ty) (d a : Nat) : RegOp :=
  perLane [a] [d] (fun th => let (r, fl) := approxF op t (th.pat t a); { v := [(d, BitVec.ofNat 32 r)], f := fl })
def frsqOp (t : Ty) (d a : Nat) : RegOp := approxOp .rsq t d a
def fexp2Op (t : Ty) (d a : Nat) : RegOp := approxOp .exp2 t d a
def flog2Op (t : Ty) (d a : Nat) : RegOp := approxOp .log2 t d a
def fsinOp (t : Ty) (d a : Nat) : RegOp := approxOp .sin t d a
def fcosOp (t : Ty) (d a : Nat) : RegOp := approxOp .cos t d a
def fcmpOp (t : Ty) (c : Cmp) (d a : Nat) (b : Src) (x : Comb) : RegOp :=
  perLane (t.named a ++ b.named t) [] (fun th =>
    let (r, fl) := cmpF c (th.fval t a) (th.fsrc t b)
    { p := [(d, combine th x r)], f := fl })
def fclassOp (t : Ty) (d a : Nat) : RegOp :=
  perLane [a] [d] (fun th => { v := [(d, BitVec.ofNat 32 (2 ^ classOf t.float (th.pat t a)))] })
def fclassAnyOp (t : Ty) (d a mask : Nat) : RegOp :=
  perLane [a] [] (fun th => { p := [(d, mask.testBit (classOf t.float (th.pat t a)))] })
def cvtOp (dt st : Ty) (d a : Nat) (rm : Rm) : RegOp :=
  perLane (st.named a) (dt.named d) (fun th =>
    let draw := rm = .rst
    let (u, r) := rndNext th.rnd
    let (x, fl) := cvtBits dt st rm (th.pat st a) u
    { v := vWrite dt d x, f := fl, rnd := if draw then some r else none })
/-- Multiply by 2^s (R120): infinities and zeros pass through. Beyond ±2,000 every value of the types leaves the range on the
same side, so the exponent stops there. -/
def scaleF (v : FVal) (s : Int) : FRes :=
  match v with
  | .fin x => (.fin (if x.isZero then x else x.scale (max (-2000) (min 2000 s))), 0)
  | v => (v, snans [v])
def fscaleOp (t : Ty) (d a : Nat) (b : Src) (rm : Rm) : RegOp :=
  fRound t d (t.named a ++ b.regs32) rm (fun th => scaleF (th.fval t a) (sext 32 (th.srcPat .i32 b)))
/-- The scale byte of block `j` (R75). -/
def Thread.scaleByte (th : Thread) (vs sel j : Nat) : Nat := (th.getV (vs + (sel + j) / 4)).toNat / 256 ^ ((sel + j) % 4) % 256
/-- R120, form 1. DEDUCED (log 92): a scale byte of 0xFF sets no flag, beside a signalling NaN operand either. -/
def fscaleStoredOp (t : Ty) (d a vs sel j : Nat) (inv : Bool) (rm : Rm) : RegOp :=
  fRound t d [a, vs + (sel + j) / 4] rm (fun th =>
    let b := th.scaleByte vs sel j
    let v := th.fval t a
    if b = 255 then (.nan false, 0) else scaleF v (if inv then 127 - (b : Int) else (b : Int) - 127))

end Sys2Proof.Machine
end

