-- ==== Sys2Proof/Machine/LaneOps.lean ====
section
/-! DEFINITION. Group C: the lane instructions (R178 to R182). A peer is an active thread of the issue group in the lane's own
warp. -/
namespace Sys2Proof.Machine

/-- The peer of `l` at lane `j` (R178). -/
def peer (all : List Lane) (l : Lane) (j : Nat) : Option Lane := all.find? (fun e => e.2.warp == l.2.warp && e.2.lane == j)
/-- Bit mask of the peers' lanes that satisfy `f`. -/
def peerMask (all : List Lane) (l : Lane) (f : Thread → Bool) : V32 :=
  all.foldl (fun x e => if e.2.warp == l.2.warp && f e.2 then x ||| BitVec.ofNat 32 (2 ^ e.2.lane) else x) 0

/-- The source lane of `shfl` (R179). -/
def shflLane (mode i b : Nat) : Option Nat :=
  match mode with
  | 0 => some (b % 32)
  | 1 => if i < b then none else some (i - b)
  | 2 => if 31 < i + b then none else some (i + b)
  | _ => some (i ^^^ (b % 32))
def shflOp (mode d a : Nat) (b : Src) : RegOp :=
  { src := a :: b.regs32, dst := [d], upd := fun all l =>
      let from_ := match shflLane mode l.2.lane (l.2.srcCount b) with | some j => peer all l j | none => none
      { v := [(d, (from_.getD l).2.getV a)] } }
def voteAnyOp (d a : Nat) : RegOp := { src := [], dst := [], upd := fun all _ => { p := [(d, all.any (fun e => e.2.getP a))] } }
def voteAllOp (d a : Nat) : RegOp := { src := [], dst := [], upd := fun all _ => { p := [(d, all.all (fun e => e.2.getP a))] } }
def voteBallotOp (d a : Nat) : RegOp := { src := [], dst := [d], upd := fun all l => { v := [(d, peerMask all l (·.getP a))] } }
def voteEqOp (d a : Nat) : RegOp :=
  { src := [a], dst := [], upd := fun all l => { p := [(d, all.all (fun e => e.2.getV a == l.2.getV a))] } }
def matchOp (t : Ty) (d a : Nat) : RegOp :=
  { src := t.named a, dst := [d], upd := fun all l => { v := [(d, peerMask all l (fun e => e.pat t a == l.2.pat t a))] } }

/-- One step of `redux` on patterns, with its flags (R181). -/
def reduxStep (op : Nat) (t : Ty) (x y : Nat) : Nat × BitVec 5 :=
  match op with
  | 0 => (wrap t.bits (t.value x + t.value y), 0)
  | 1 => (if t.value y < t.value x then y else x, 0)
  | 2 => (if t.value x < t.value y then y else x, 0)
  | 3 => (x &&& y, 0)
  | 4 => (x ||| y, 0)
  | 5 => (x ^^^ y, 0)
  | 6 => let r := addF (t.float.read x) (t.float.read y) .rne; let z := t.float.round r.1 .rne 0; (z.1, z.2 ||| r.2)
  | 7 => minMaxF t true false x y
  | _ => minMaxF t false false x y
/-- One level of the tree: neighbours are combined, an odd last element is carried up. -/
def reduxLevel (f : Nat → Nat → Nat × BitVec 5) : List Nat → List Nat × BitVec 5
  | x :: y :: rest =>
    let (z, fl) := f x y
    let (zs, gl) := reduxLevel f rest
    (z :: zs, fl ||| gl)
  | xs => (xs, 0)
/-- The whole tree (R181): `n` levels are enough for 2^n elements. -/
def reduxTree (f : Nat → Nat → Nat × BitVec 5) : Nat → List Nat → Nat × BitVec 5
  | 0, xs => (xs.headD 0, 0)
  | n + 1, xs =>
    match xs with
    | _ :: _ :: _ =>
      let (ys, fl) := reduxLevel f xs
      let (r, gl) := reduxTree f n ys
      (r, fl ||| gl)
    | _ => (xs.headD 0, 0)
def reduxOp (op : Nat) (t : Ty) (d a : Nat) : RegOp :=
  { src := t.named a, dst := t.named d, upd := fun all _ =>
      let (r, fl) := reduxTree (reduxStep op t) 6 (all.map (fun e => e.2.pat t a))
      { v := vWrite t d r, f := fl } }

end Sys2Proof.Machine
end

