-- ==== Sys2Proof/Machine/Ordered.lean ====
section
/-! DEFINITION. The step of an atomic (R245), and ordered execution: keys, the ownership table, holding, rebuilding, and when a held
operation may be applied (R397 to R403). -/
namespace Sys2Proof.Machine

/-- `Step(o, v)` of R245 on patterns: integer, bitwise, exchange, float. -/
def atomStep (op : Nat) (t : Ty) (o v : Nat) : Nat :=
  if op = 6 then v else if op ≤ 5 then (reduxStep op t o v).1 else (reduxStep (op - 2) t o v).1
/-- Bytes of a type. -/
def tyBytes (t : Ty) : Nat := t.bits / 8

/-! ## Keys (R397) -/

/-- Lexicographic order of keys. -/
def OrdOp.before (x y : OrdOp) : Bool :=
  if x.g ≠ y.g then x.g < y.g else if x.e ≠ y.e then x.e < y.e else if x.t ≠ y.t then x.t < y.t else x.s < y.s
/-- The same key and the same line order by address (R397). -/
def OrdOp.beforeOp (x y : OrdOp) : Bool := x.before y || (!y.before x && x.pa < y.pa)

def Mach.launch? (m : Mach) (vf lid : Nat) : Option Launch := (m.fn vf).launches.find? (·.id == lid)
def Mach.modLaunch (m : Mach) (vf lid : Nat) (g : Launch → Launch) : Mach :=
  m.modFn vf (fun f => { f with launches := f.launches.map (fun l => if l.id = lid then g l else l) })

/-- Every workgroup below `g` has ended (R399): its threads have exited and its held operations have been applied. -/
def Launch.lowerEnded (l : Launch) (g : Nat) : Bool :=
  (l.ended.filter (· < g)).length == g && !l.held.any (fun o => o.g < g)

/-! ## Lines (R398, R399) -/

/-- Apply one operation to a line's bytes: the line after it, and the old bytes. -/
def OrdOp.onLine (o : OrdOp) (line : List Byte) : List Byte × List Byte :=
  let off := o.pa % 128
  let n := if o.op = 0 then o.data.length else tyBytes o.type
  let old := (line.drop off).take n
  let new := if o.op = 0 then o.data else leBytes n (atomStep (o.op - 1) o.type (leNat old) (leNat o.data))
  (line.take off ++ new ++ line.drop (off + n), old)
/-- Insert an operation before the first record with a larger key. -/
def insertOp (o : OrdOp) : List OrdOp → List OrdOp
  | [] => [o]
  | x :: xs => if o.beforeOp x then o :: x :: xs else x :: insertOp o xs
/-- Rebuild a line from its pre-image: the line, and the old bytes `o` meets. -/
def rebuild (pre : List Byte) (recs : List OrdOp) (o : OrdOp) : List Byte × List Byte :=
  recs.foldl (fun (s : List Byte × List Byte) x =>
    let r := x.onLine s.1
    (r.1, if x = o then r.2 else s.2)) (pre, [])

/-- Perform an operation at its line: rebuilt through the records when the line keeps a pre-image, else on memory as it stands. -/
def Mach.applyOp (m : Mach) (vf lid : Nat) (o : OrdOp) : List Byte × Mach :=
  let ln := lineOf o.pa
  let m := m.dropLine o.core ln
  let own := match m.launch? vf lid with | some l => (tget l.own ln).getD {} | none => {}
  let put (m : Mach) (bs : List Byte) : Mach :=
    ({ m with mem := Memory.writeL m.mem (ln * 128) bs }).hitMonitors (ln * 128) 128
  match own.pre with
  | some pre =>
    let recs := if own.owner = o.g && !own.shared then own.recs ++ [o] else insertOp o own.recs
    let (bs, old) := rebuild pre recs o
    (old, (put m bs).modLaunch vf lid (fun l => { l with own := tset l.own ln { own with recs } }))
  | none =>
    let (bs, old) := o.onLine (Memory.readN m.mem (ln * 128) 128)
    (old, put m bs)

/-- A spill record (R401). -/
def OrdOp.record (o : OrdOp) (kept : Bool) : List Byte :=
  leBytes 8 o.g ++ leBytes 4 o.e ++ leBytes 2 o.t ++ leBytes 2 0 ++ leBytes 4 o.s ++ leBytes 1 o.op ++ leBytes 1 o.type.code ++
  leBytes 1 o.data.length ++ leBytes 1 (bit kept) ++ leBytes 16 o.va ++ o.data.take 16 ++ List.replicate (16 - o.data.length) 0 ++
  leBytes 2 o.core ++ leBytes 1 o.warp ++ leBytes 1 o.lane ++ leBytes 4 0
/-- The five records of a line's pre-image, under the first record that keeps it (R401). -/
def OrdOp.preRecords (o : OrdOp) (pre : List Byte) : List Byte :=
  let first := ({ o with op := 0, data := [], va := o.va / 128 * 128 }.record false).set 23 2
  first ++ ((upFrom 0 4).map (fun q => first.take 24 ++ (pre.drop (32 * q)).take 32 ++ first.drop 56)).flatten
/-- The bytes of a launch's spill log: its spilled operations in key order, then each private line's pre-image and records (log 16). -/
def Launch.logBytes (l : Launch) : List Byte :=
  ((l.held.filter (·.spilled)).map (·.record false)).flatten ++
  (l.own.map (fun e =>
    (match e.2.pre, e.2.recs with | some pre, o :: _ => o.preRecords pre | _, _ => []) ++ (e.2.recs.map (·.record true)).flatten)).flatten
/-- The pages a spill log of `n` records needs (R401): 1,024 records a page. -/
def logPagesFor (n : Nat) : Nat := (n + 1023) / 1024
/-- Records of a launch's spill log: spilled operations, private-line records, five records a pre-image (R401). -/
def Launch.logRecords (l : Launch) : Nat :=
  (l.held.filter (·.spilled)).length +
    (l.own.map (fun e => e.2.recs.length + (if e.2.pre.isSome then 5 else 0))).foldl (· + ·) 0
/-- Grow the spill log; a log that cannot grow kills the launch, source 11 code 1 (R401). -/
def Mach.growLog (m : Mach) (clk : Clock) (vf lid : Nat) : Mach :=
  match m.launch? vf lid with
  | none => m
  | some l =>
    if logPagesFor l.logRecords ≤ l.logPages.length then m
    else
      match m.takePage vf with
      | some (p, m) => m.modLaunch vf lid (fun l => { l with logPages := l.logPages ++ [p] })
      | none => (m.logErr clk vf 11 1 0 65535 0 l.hdr.addr).killLaunch vf lid

/-- An operation reaches the ownership table (R398): applied at once, with its old bytes, or held (R400, R401: the seventeenth
operation at a die's unit is spilled). -/
def Mach.ordArrive (m : Mach) (clk : Clock) (vf lid : Nat) (o : OrdOp) : Option (List Byte) × Mach :=
  match m.launch? vf lid with
  | none => (some [], m)
  | some l =>
    let ln := lineOf o.pa
    let low := l.lowerEnded o.g
    match tget l.own ln with
    | none =>
      let pre := if low then none else some (Memory.readN (m.dropLine o.core ln).mem (ln * 128) 128)
      let m := (m.dropLine o.core ln).modLaunch vf lid (fun l => { l with own := tset l.own ln { owner := o.g, pre } })
      let (old, m) := m.applyOp vf lid o
      (some old, m.growLog clk vf lid)
    | some own =>
      if !own.shared && own.owner = o.g then
        let (old, m) := m.applyOp vf lid o
        (some old, m.growLog clk vf lid)
      else
        let die := o.pa / 2 ^ 37
        let full := decide (16 ≤ (l.held.filter (fun x => !x.spilled && x.pa / 2 ^ 37 == die)).length)
        let m := m.modLaunch vf lid (fun l =>
          { l with own := tset l.own ln { own with shared := true }, held := l.held ++ [{ o with spilled := full }] })
        (none, m.growLog clk vf lid)

/-- A smaller key than `o`'s can still reach the table (R400): a lower workgroup that has not exited or started, an earlier epoch, a lower
thread of the same epoch, or a store that waits in a store buffer (R402). -/
def Mach.canPrecede (m : Mach) (vf lid : Nat) (l : Launch) (o : OrdOp) : Bool :=
  let waits (w : Wg) : Bool := w.vf == vf && w.launch == lid && w.sbuf.any (fun b => match b.ord with | some x => x.beforeOp o | none => false)
  (l.ended.filter (· < o.g)).length != o.g || m.wgs.any (fun e => waits e.2) || (m.fn vf).images.any (fun i => waits i.wg) ||
  (let threads := ((m.wgs.filter (fun e => e.2.vf == vf && e.2.launch == lid && e.2.g == o.g)).map (·.2.threads)).flatten ++
      (((m.fn vf).images.filter (fun i => i.wg.launch == lid && i.wg.g == o.g)).map (·.wg.threads)).flatten
   threads.any (fun t => t.status ≠ .exited && (t.epoch < o.e || (t.epoch == o.e && t.wid % 2 ^ l.hdr.widths.headD 1 < o.t))))

/-- The held operation of a launch that may be applied now (R400): the smallest key, with nothing smaller to come. -/
def Mach.serialNext? (m : Mach) (vf : Nat) (l : Launch) : Option OrdOp :=
  match l.held with
  | [] => none
  | x :: xs =>
    let o := xs.foldl (fun a b => if b.beforeOp a then b else a) x
    if m.canPrecede vf l.id l o then none else some o

/-- Fill room in the holding buffers from the spill log, in key order (R401). -/
def unspill (held : List OrdOp) (die : Nat) : List OrdOp :=
  if 16 ≤ (held.filter (fun x => !x.spilled && x.pa / 2 ^ 37 == die)).length then held
  else
    match held.filter (fun x => x.spilled && x.pa / 2 ^ 37 == die) with
    | [] => held
    | x :: xs =>
      let o := xs.foldl (fun a b => if b.beforeOp a then b else a) x
      held.map (fun y => if y = o then { y with spilled := false } else y)

/-- Give a pending load one owed piece. -/
def fillPiece (bs : List Byte) : List Piece → List Piece
  | [] => []
  | .owed _ :: ps => .got bs :: ps
  | p :: ps => p :: fillPiece bs ps
/-- Hand the old value of a held `atomord` to the load that waits for it, on a core or in a save image (R400). -/
def Mach.answerLoad (m : Mach) (id thread : Nat) (bs : List Byte) : Mach :=
  let on (ps : List PendLoad) : List PendLoad := ps.map (fun p =>
    if p.id = id then { p with lanes := p.lanes.map (fun l => if l.1 = thread then (l.1, fillPiece bs l.2) else l) } else p)
  { m with cores := m.cores.map (fun (c : Nat × Core) => (c.1, { c.2 with loads := on c.2.loads })),
           fns := m.fns.map (fun (f : Nat × Fn) => (f.1, { f.2 with images := f.2.images.map (fun (i : Image) => { i with loads := on i.loads }) })) }

/-- The serial phase of one held operation (R400, R401). -/
def Mach.serialApply (m : Mach) (vf lid : Nat) (o : OrdOp) : Mach :=
  let m := m.modLaunch vf lid (fun l => { l with held := unspill (l.held.filter (· ≠ o)) (o.pa / 2 ^ 37) })
  let (old, m) := m.applyOp vf lid o
  match o.load with
  | some id => m.answerLoad id o.t old
  | none => m

/-- Drop the pre-images and records that no lower workgroup can need (R399). -/
def Launch.prune (l : Launch) : Launch :=
  { l with own := l.own.map (fun e => if l.lowerEnded e.2.owner then (e.1, { e.2 with pre := none, recs := [] }) else e) }

/-- SERIAL_PHASE_APPLY: the next held operation of a launch is performed. -/
def execSerialPhaseApply (vf launch : Nat) (s : State) : Host.Outcome State Fault Refusal :=
  s.event (fun clk m => do
    let l ← m.launch? vf launch
    let o ← m.serialNext? vf l
    let m := ((m.serialApply vf launch o).modLaunch vf launch Launch.prune).growLog clk vf launch
    -- threads of the launch that wait for held operations look again
    some { m with wgs := m.wgs.map (fun (e : Nat × Wg) =>
      if e.2.vf = vf ∧ e.2.launch = launch then
        (e.1, { e.2 with threads := e.2.threads.map (fun t => if t.status == .waiting .held then { t with status := .ready } else t) })
      else e) })

end Sys2Proof.Machine
end

