-- ==== Sys2Proof/Machine/Store.lean ====
section
/-! DEFINITION. What holds stores back and lets them go: remote stores, the rollback store buffer, sealing, basting and rollback
(R383 to R387), and the release and acquire of R220 to R225 (log 5). -/
namespace Sys2Proof.Machine

/-! ## Stores that leave the core -/

/-- A store to a page with RM = 1 (R214): host memory when the page names this device (R443), else a message to its owner. -/
def Mach.remoteStore (m : Mach) (dev pa : Nat) (bs : List Byte) : Mach :=
  (if dev = m.devnum then { m with host := HostMem.writeL m.host pa bs }
   else m.send dev (leBytes 1 3 ++ leBytes 8 pa ++ bs)).hitFar dev pa bs.length
/-- Perform a buffered store. -/
def Mach.performBuf (m : Mach) (clk : Clock) (core vf lid : Nat) (b : BufStore) : Mach :=
  match b.ord with
  | some o => (m.ordArrive clk vf lid o).2
  | none =>
    match b.dev with
    | some d => m.remoteStore d b.pa b.data
    | none => ((linesOf b.pa b.data.length).foldl (fun m l => m.dropLine core l) m).l2Write b.pa b.data
/-- Drain the store buffer in the order the stores entered it (R384). -/
def Mach.drainStores (m : Mach) (clk : Clock) (core slot : Nat) : Mach :=
  match m.wg? core slot with
  | none => m
  | some w => w.sbuf.foldl (fun m b => m.performBuf clk core w.vf w.launch b) (m.setWg core slot { w with sbuf := [] })
/-- Seal the interval for a reason (R385): in rollback mode, when it is not sealed yet. -/
def Mach.seal (m : Mach) (clk : Clock) (core slot reason : Nat) : Mach :=
  match m.wg? core slot with
  | none => m
  | some w =>
    if w.hdr.rollback && w.sealed == 0 then (m.drainStores clk core slot).modWg core slot (fun w => { w with sealed := reason }) else m
/-- The 64-byte chunks a store buffer holds (R384). -/
def bufChunks (bs : List BufStore) : List (Option Nat × Nat) :=
  (bs.map (fun b => (upFrom (b.pa / 64) ((b.pa + b.data.length + 63) / 64 - b.pa / 64)).map (fun c => (b.dev, c)))).flatten.eraseDups
/-- Put a store into the buffer; the 1,025th chunk seals the interval instead, and the store goes straight on (R384). -/
def Mach.bufferStore (m : Mach) (clk : Clock) (core slot : Nat) (b : BufStore) : Mach :=
  match m.wg? core slot with
  | none => m
  | some w =>
    if 1024 < (bufChunks (w.sbuf ++ [b])).length then
      (m.seal clk core slot 3).performBuf clk core w.vf w.launch b
    else m.setWg core slot { w with sbuf := w.sbuf ++ [b] }
/-- A workgroup's loads see its buffered stores (R384). -/
def overlay (bs : List BufStore) (dev : Option Nat) (pa : Nat) : List Byte → List Byte
  | [] => []
  | x :: xs =>
    (bs.foldl (fun x b => if b.dev = dev ∧ b.pa ≤ pa ∧ pa < b.pa + b.data.length then b.data.getD (pa - b.pa) x else x) x) ::
      overlay bs dev (pa + 1) xs

/-! ## Release and acquire (R220 to R225) -/

/-- A release or strong head of scope `scope`: the core's earlier stores are performed at L2 when the scope is wider than the
core; in rollback mode a buffered store that it covers and that must be performed seals the interval (R384). `uo`: it covers stores to UO
pages (R220). -/
def Mach.release (m : Mach) (clk : Clock) (core slot scope : Nat) (uo : Bool := false) : Mach :=
  let covers (b : BufStore) : Bool := uo || !b.uo
  let m := if 2 ≤ scope then (match m.wg? core slot with | some w => if w.sbuf.any covers then m.seal clk core slot 3 else m | none => m) else m
  if 3 ≤ scope then m.writeBackAll core else m
/-- An acquire tail of scope `scope`: later loads fetch from L2 when the scope is wider than the core. -/
def Mach.acquire (m : Mach) (core scope : Nat) : Mach := if 3 ≤ scope then m.dropAll core else m

/-! ## Basting and rollback (R383, R386) -/

/-- Bytes of a slot (R430), and the scratchpad offset of slot `i`. -/
def Zone.slotBytes (z : Zone) : Nat := 1024 * 2 ^ z.size
def Zone.slotAt (z : Zone) (i : Nat) : Nat := z.base + i * z.slotBytes
/-- A scratchpad offset in a zone slot that is filling or has arrived: a rollback leaves its bytes (R439). -/
def Wg.inPayload (w : Wg) (off : Nat) : Bool :=
  w.zones.any (fun z => z.open_ && (z.slots.mapIdx (fun i s => (i, s))).any (fun s =>
    (s.2.state == .filling || s.2.state == .arrived) && decide (z.slotAt s.1 ≤ off) && decide (off < z.slotAt s.1 + z.slotBytes)))

/-- Take a basting: the buffer drains, and the interval begins anew. -/
def Mach.baste (m : Mach) (clk : Clock) (core slot : Nat) : Mach :=
  let m := m.drainStores clk core slot
  match m.wg? core slot with
  | none => m
  | some w =>
    let lo := w.gran * 32768
    let b : Basting :=
      { threads := w.threads, scratch := (m.core core).scratch.filter (fun e => lo ≤ e.1 && e.1 < lo + w.scratchBytes),
        tags := w.tags, tiles := w.tiles, rings := w.rings, acc := w.acc, bds := w.bds, rebuild := w.rebuild }
    m.setWg core slot { w with basting := some b, sealed := 0, rbAddrs := [] }
/-- An engine command of the workgroup that writes its scratchpad or accumulators, or a transfer of one of its tiles, is under way (R383); or
a register has still to receive a load's data, or a fault to be serviced: log 100. -/
def Mach.enginesBusy (m : Mach) (core slot : Nat) : Bool :=
  let c := m.core core
  c.copies.any (·.slot == slot) || c.mats.any (·.slot == slot) || c.drains.any (·.slot == slot) ||
  c.loads.any (·.slot == slot) || c.faults.any (·.slot == slot) ||
  (match m.wg? core slot with
    | some w => w.tiles.any (fun x => (x.state == .filling || x.state == .draining) && x.trap.isNone)
    | none => false)
/-- A basted thread goes on: one that waited in an instruction executes it again; its monitor is clear (R386). -/
def Thread.again (t : Thread) (live : Nat → Bool) : Thread :=
  let t := { t with mon := none }
  match t.status with
  | .waiting _ | .zoneWait .. => { t with status := .ready, since := none }
  | .fsLoad id none _ => if live id then t else { t with status := .ready, since := none }
  | _ => t
/-- `Rollback(wg)`: engine commands are cancelled, the buffer is discarded, the basting is restored, monitors are cleared. -/
def Mach.rollback (m : Mach) (core slot addr : Nat) : Mach :=
  match m.wg? core slot with
  | none => m
  | some w =>
    match w.basting with
    | none => m
    | some b =>
      let lo := w.gran * 32768
      let m := m.modCore core (fun c =>
        { c with
          scratch := sortBy (·.1) (c.scratch.filter (fun e => !(lo ≤ e.1 && e.1 < lo + w.scratchBytes) || w.inPayload (e.1 - lo)) ++
            b.scratch.filter (fun e => !w.inPayload (e.1 - lo))),
          copies := c.copies.filter (·.slot ≠ slot), mats := c.mats.filter (·.slot ≠ slot),
          drains := c.drains.filter (·.slot ≠ slot), epis := c.epis.filter (·.slot ≠ slot),
          loads := c.loads.filter (·.slot ≠ slot), faults := c.faults.filter (·.slot ≠ slot) })
      m.setWg core slot
        { w with threads := b.threads.map (·.again (fun id => (m.fn w.vf).loads.any (·.id == id))), rebuild := b.rebuild, tags := b.tags, tiles := b.tiles, rings := b.rings,
                 acc := b.acc, bds := b.bds, sbuf := [], fused := [], rbCount := min (w.rbCount + 1) 65535, rbAddrs := w.rbAddrs ++ [addr] }

/-- A workgroup consumes an uncorrectable error (R378, R386): a rollback, or the launch is killed, or `trap` is what happens
outside rollback mode. -/
def Mach.consume (m : Mach) (clk : Clock) (core slot addr : Nat) (trap : Mach → Mach) : Mach :=
  match m.wg? core slot with
  | none => m
  | some w =>
    if !w.hdr.rollback then trap m
    else if w.sealed ≠ 0 then (m.logErr clk w.vf 9 1 0 core 0 addr).killLaunch w.vf w.launch
    else if w.rbAddrs.contains addr then (m.logErr clk w.vf 9 2 0 core 0 addr).killLaunch w.vf w.launch
    else m.rollback core slot addr

end Sys2Proof.Machine
end

