-- ==== Sys2Proof/Machine/Access.lean ====
section
/-! DEFINITION. One memory access of one thread: page crossing (R228), Check (R147), recoverable faults and the operand log (R373 to
R376), and reading and writing bytes where R214 performs them. -/
namespace Sys2Proof.Machine

/-- One lane's access: thread, lane number, address, bytes. -/
structure Acc where
  thread : Nat
  lane : Nat
  va : Nat
  n : Nat
  deriving DecidableEq, Repr
/-- A part of an access within one page, translated. -/
structure Part where
  thread : Nat
  lane : Nat
  va : Nat
  n : Nat
  tr : Trans
  deriving DecidableEq, Repr
/-- A page on which an access faults (R373): the lowest failing lane's address on it, that lane, the mask of lanes, and the fault kind
(1 no translation, 2 discarded). -/
structure PageFault where
  va : Nat
  lane : Nat
  lanes : Nat
  kind : Nat
  deriving DecidableEq, Repr

/-- The worse of two answers of `Translate` on one page: an atomic needs both rights (R248). -/
def worse (a b : Trans) : Trans :=
  match a, b with
  | .channelPage, _ | _, .channelPage => .channelPage
  | .violation, _ | _, .violation => .violation
  | .noTranslation, _ | _, .noTranslation => .noTranslation
  | .discarded, _ | _, .discarded => .discarded
  | _, b => b
/-- `Translate` for every kind an access needs. -/
def Mach.transAll (m : Mach) (core vf va : Nat) : List Access → Trans × Mach
  | [] => (.violation, m)
  | [k] => m.coreTranslate core vf va k
  | k :: ks =>
    let (a, m) := m.coreTranslate core vf va k
    let (b, m) := m.transAll core vf va ks
    (worse a b, m)
/-- The parts of a list of accesses, each translated. -/
def Mach.partsOf (m : Mach) (core vf : Nat) (ks : List Access) : List Acc → List Part × Mach
  | [] => ([], m)
  | a :: as =>
    let (ps, m) := (splitPage a.va a.n).foldl (fun (s : List Part × Mach) (p : Nat × Nat) =>
      let (t, m) := s.2.transAll core vf p.1 ks
      (s.1 ++ [Part.mk a.thread a.lane p.1 p.2 t], m)) ([], m)
    let (qs, m) := m.partsOf core vf ks as
    (ps ++ qs, m)

/-- What Check answers (R147). -/
inductive CheckRes where
  | trap (cause lane addr : Nat)
  | pages (ps : List PageFault)
  | ok (ps : List Part)
  deriving DecidableEq, Repr

/-- Gather faulting parts into one entry a page, in ascending order of the lowest lane (R373). `ps` come by ascending lane. -/
def pageFaults : List Part → List PageFault → List PageFault
  | [], acc => acc
  | p :: ps, acc =>
    let kind := match p.tr with | .discarded => 2 | _ => 1
    let pg := p.va / 65536
    if acc.any (fun f => f.va / 65536 == pg) then
      pageFaults ps (acc.map (fun f => if f.va / 65536 == pg then { f with lanes := f.lanes ||| 2 ^ p.lane } else f))
    else pageFaults ps (acc ++ [PageFault.mk p.va p.lane (2 ^ p.lane) kind])

/-- The conditions of R147 in order, over parts given by ascending lane. An unreachable device counts as a fault firmware cannot
resolve (R423). -/
def checkParts (m : Mach) (align : Nat) (accs : List Acc) (ps : List Part) : CheckRes :=
  match accs.find? (fun a => a.va % align != 0) with
  | some a => .trap 3 a.lane a.va
  | none =>
    match ps.find? (fun p => p.tr == .channelPage) with
    | some p => .trap 13 p.lane p.va
    | none =>
      match ps.find? (fun p => p.tr == .violation) with
      | some p => .trap 5 p.lane p.va
      | none =>
        match ps.filter (fun p => p.tr == .noTranslation || p.tr == .discarded) with
        | [] =>
          match ps.find? (fun p => match p.tr with | .remote d _ _ => d != m.devnum && m.unreachable d | _ => false) with
          | some p => .trap 4 (p.lane + 256) p.va
          | none => .ok ps
        | fs => .pages (pageFaults fs [])

/-! ## Recoverable faults (R373, R375, R376) -/

/-- Room in a function's fault queue for `n` entries. -/
def Mach.faultRoom (m : Mach) (vf n : Nat) : Bool := let f := m.fn vf; f.faults.length + n ≤ 2 ^ f.fk
/-- Number of a warp on its core (R149). -/
def Wg.coreWarp (w : Wg) (warp : Nat) : Nat := (w.warps.getD warp {}).num
/-- The lowest operand-log entry that is free (R373). -/
def Core.freeLog (c : Core) : Option Nat := firstFrom (fun i => !c.faults.any (fun r => r.log == some i)) 64 0

/-- Write the entries of one faulted instruction. -/
def Ctx.postFaults (c : Ctx) (clk : Clock) (m : Mach) (ps : List PageFault) (access id olog lf kindOr : Nat) : Mach :=
  ps.foldl (fun m p =>
    m.postFault clk c.vf
      { va := p.va, time := clk.time, core := c.core, slot := c.slot, warp := c.wg.coreWarp c.leaderT.warp,
        kind := if kindOr = 0 then p.kind else kindOr, access, olog,
        flags := lf + (if c.wg.hdr.ordered then 2 else 0), lanes := p.lanes, wid := c.leaderT.wid, launch := c.wg.hdr.addr, rec_ := id }) m

/-- A record of the faulted instruction. -/
def Ctx.faultRec (c : Ctx) (id : Nat) (log : Option Nat) (n : Nat) : FaultRec :=
  { id, slot := c.slot, threads := c.act, pc := c.ig.pc, w := c.ig.w, ext := c.ig.ext, log,
    saved := c.act.map (fun i => (i, c.wg.thread i)), undo := [], pend := n, failed := none }

/-- An instruction that is no M word stops at itself until its fault is serviced (R373): no operand-log entry. -/
def Ctx.faultStop (c : Ctx) (clk : Clock) (m : Mach) (access kind : Nat) (ps : List PageFault) : Mach :=
  if !m.faultRoom c.vf ps.length then c.wait clk m c.act (.faultQueue ps.length)
  else
    let (id, m) := m.newId
    let m := c.postFaults clk m ps access id 255 0 kind
    let m := m.modCore c.core (fun k => { k with faults := k.faults ++ [c.faultRec id none ps.length] })
    c.wait clk m c.act (.fault id)
/-- A faulted M word (R373): its threads go on past it under the operand log, or, with the log full, stop at it (R375). -/
def Ctx.faultGo (c : Ctx) (clk : Clock) (m : Mach) (access : Nat) (ps : List PageFault) : Mach :=
  if !m.faultRoom c.vf ps.length then c.wait clk m c.act (.faultQueue ps.length)
  else
    let (id, m) := m.newId
    match (m.core c.core).freeLog with
    | some i =>
      let m := c.postFaults clk m ps access id i 0 0
      c.retire (m.modCore c.core (fun k => { k with faults := k.faults ++ [c.faultRec id (some i) ps.length] }))
    | none =>
      let m := c.postFaults clk m ps access id 255 1 0
      let m := m.modCore c.core (fun k => { k with faults := k.faults ++ [c.faultRec id none ps.length] })
      c.wait clk m c.act (.fault id)

/-! ## How a memory instruction runs -/

/-- A memory instruction being issued or replayed: the context its sources come from, and what follows when it completes, traps
or faults. `leader` is the lane that data traps name. -/
structure MemRun where
  c : Ctx
  clk : Clock
  replay : Bool
  /-- In a replay: the faulted threads stand at the instruction again (R374). -/
  undo : Mach → Mach := id
  /-- In a replay that faults again (R147 row 5 after row 4): the access code and the pages; the instruction waits for them too. -/
  again : Nat → List PageFault → Mach → Mach := fun _ _ m => m

/-- Undo what a faulted instruction's threads did past it (R374) and stand them at it again: registers newest first, the three saved
special registers, the PC and the block. -/
def undoThread (r : FaultRec) (i : Nat) (t : Thread) : Thread :=
  match r.saved.find? (fun e => e.1 == i) with
  | none => t
  | some (_, old) =>
    let t := (r.undo.filter (fun u => u.1 == i)).foldl (fun t (u : Nat × Nat × Nat × Nat) =>
      match u.2.1 with
      | 0 => t.setV u.2.2.1 (BitVec.ofNat 32 u.2.2.2)
      | 1 => t.setK u.2.2.1 (BitVec.ofNat 64 u.2.2.2)
      | 2 => t.setA u.2.2.1 (BitVec.ofNat 80 u.2.2.2)
      | _ => t.setP u.2.2.1 (u.2.2.2 == 1)) t
    { t with fstat := old.fstat, istat := old.istat, rnd := old.rnd, pc := old.pc, blk := old.blk, since := none, status := .ready }

namespace MemRun
/-- The instruction is done. -/
def done (r : MemRun) (m : Mach) : Mach := if r.replay then m else r.c.retire m
/-- The active threads trap; in a replay they first stand at the instruction again (R374). -/
def trap (r : MemRun) (m : Mach) (cause info addr : Nat) : Mach :=
  if r.replay then
    (r.undo m).takeTrap r.clk r.c.core r.c.slot r.c.act cause info (BitVec.ofNat 80 addr) r.c.ig.ext.isSome
  else r.c.trapAct r.clk m cause info (BitVec.ofNat 80 addr)
/-- A trap of Check: an error response is logged with its address (R147 row 3, R382). -/
def checkTrap (r : MemRun) (m : Mach) (cause lane addr : Nat) : Mach :=
  let m := if cause = 5 then m.logErr r.clk r.c.vf 1 5 lane r.c.core (r.c.leaderT.wid % 4294967296) addr else m
  r.trap m cause lane addr
/-- Run Check on accesses given by lane, then go on with the translated parts. -/
def checked (r : MemRun) (m : Mach) (align : Nat) (ks : List Access) (code : Nat) (accs : List Acc) (k : List Part → Mach → Mach) : Mach :=
  let accs := sortBy (·.lane) accs
  let (ps, m) := m.partsOf r.c.core r.c.vf ks accs
  match checkParts m align accs ps with
  | .trap cause lane addr => r.checkTrap m cause lane addr
  | .pages fs => if r.replay then r.again code fs m else r.c.faultGo r.clk m code fs
  | .ok ps => k ps m
end MemRun

/-- Check for an instruction that is no M word: a fault stops its threads at it (R373). A spill or a refill (`kind` 9) that no service can
resolve is cause 0x0E (R19). -/
def Ctx.checkedStop (c : Ctx) (clk : Clock) (m : Mach) (align : Nat) (ks : List Access) (code kind : Nat) (accs : List Acc)
    (k : List Part → Mach → Mach) : Mach :=
  let r : MemRun := { c, clk, replay := false }
  let (ps, m) := m.partsOf c.core c.vf ks accs
  match checkParts m align accs ps with
  | .trap cause lane addr => if cause = 4 ∧ kind = 9 then r.trap m 14 0 addr else r.checkTrap m cause lane addr
  | .pages fs => c.faultStop clk m code kind fs
  | .ok ps => k ps m

/-! ## Bytes (R214) -/

/-- Order and scope of an access. -/
structure Attr where
  order : Ord := .plain
  scope : Nat := 0
  deriving DecidableEq, Repr
def attrOf (o : Sys2Proof.MemOp) : Attr := ⟨o.order, o.scope⟩
/-- Performed at the home L2 by its scope. -/
def Attr.wide (a : Attr) : Bool := a.order ≠ .plain && 3 ≤ a.scope
/-- The non-temporal hint (R145). -/
def Attr.nt (a : Attr) : Bool := a.order == .plain && a.scope == 1
/-- A part lies on a UO page. -/
def Part.uo (p : Part) : Bool := match p.tr with | .ok _ k | .remote _ _ k => k == 2 | _ => false
/-- The order an access has on these pages: an acquire or release annotation has no effect on UO pages (R219). -/
def Attr.on (a : Attr) (ps : List Part) : Attr :=
  if a.order = .acqRel ∧ (!ps.isEmpty && ps.all Part.uo) = true then { a with order := .plain } else a
/-- Release before and acquire after an access, by its order code (R225). A strong access covers UO accesses too (R220). -/
def Attr.before (a : Attr) (isStore : Bool) (m : Mach) (clk : Clock) (core slot : Nat) : Mach :=
  match a.order with
  | .plain => m
  | .acqRel => if isStore then m.release clk core slot a.scope else m
  | .strong => m.release clk core slot a.scope true
def Attr.after (a : Attr) (isLoad : Bool) (m : Mach) (core : Nat) : Mach :=
  match a.order with
  | .plain => m
  | .acqRel => if isLoad then m.acquire core a.scope else m
  | .strong => m.acquire core a.scope

/-- A page's counter of line accesses by one agent (R418, R427): dies 0 to 7, the I/O die, and other devices from 16 on. -/
def accessKey (page agent : Nat) : Nat := page * 4096 + agent
/-- Count a line access of a core's die at the home L2 (R418). -/
def Mach.countLine (m : Mach) (core pa : Nat) : Mach :=
  let k := accessKey (pa / 65536) (core / 160)
  { m with access := tset m.access k ((tget m.access k).getD 0 + 1) }
/-- A non-temporal access marks its line first to evict in L2 (R145, R200). -/
def Mach.ntLine (m : Mach) (core pa : Nat) : Mach :=
  let m := m.countLine core pa
  { m with l2First := if m.l2First.contains (lineOf pa) then m.l2First else m.l2First ++ [lineOf pa] }
/-- An L1 copy too old to satisfy a load (R215). -/
def Line.stale (l : Line) (clk : Clock) : Bool := decide (l.filled + 1048576 < clk.cycle)
def Mach.expire (m : Mach) (clk : Clock) (core line : Nat) : Mach :=
  match tget (m.core core).l1 line with
  | some l => if l.stale clk then m.dropLine core line else m
  | none => m
/-- The core holds a copy of a line that a load may use. -/
def Core.holdsFresh (c : Core) (clk : Clock) (line : Nat) : Bool := match tget c.l1 line with | some l => !l.stale clk | none => false

/-- Would reading this part consume a poisoned line (R378)? An L1 copy, where the access may use one, was read before. -/
def Mach.poisoned (m : Mach) (clk : Clock) (core : Nat) (a : Attr) (p : Part) : Option Nat :=
  match p.tr with
  | .ok pa kind =>
    ((linesOf pa p.n).find? (fun l => m.poison.contains l && (kind == 0 || a.wide || !(m.core core).holdsFresh clk l))).map
      (fun l => p.va + (l * 128 - pa))
  | _ => none

/-- The pieces of a range on a peer's page: bytes the workgroup has stored and still holds in its rollback buffer (R384), and the runs
between them, which their owner owes. -/
def remotePieces (sbuf : List BufStore) (d : Nat) : Nat → Nat → List Piece
  | _, 0 => []
  | pa, n + 1 =>
    let mine := sbuf.any (fun b => b.dev == some d && decide (b.pa ≤ pa) && decide (pa < b.pa + b.data.length))
    match mine, remotePieces sbuf d (pa + 1) n with
    | true, .got bs :: ps => .got (overlay sbuf (some d) pa [0] ++ bs) :: ps
    | true, ps => .got (overlay sbuf (some d) pa [0]) :: ps
    | false, .owed k :: ps => .owed (k + 1) :: ps
    | false, ps => .owed 1 :: ps
/-- Ask a peer for what it owes. -/
def Mach.askFor (m : Mach) (d : Nat) : Nat → List Piece → Mach
  | _, [] => m
  | pa, .got bs :: ps => m.askFor d (pa + bs.length) ps
  | pa, .owed n :: ps => (m.send d (leBytes 1 4 ++ leBytes 8 pa ++ leBytes 4 n)).askFor d (pa + n) ps
/-- Read a part for a core's thread. -/
def Mach.loadPart (m : Mach) (clk : Clock) (core slot : Nat) (a : Attr) (p : Part) : List Piece × Mach :=
  let sbuf := match m.wg? core slot with | some w => w.sbuf | none => []
  match p.tr with
  | .ok pa kind =>
    let lines := linesOf pa p.n
    let m :=
      if kind = 0 || a.wide then lines.foldl (fun m l => (m.dropLine core l).countLine core (l * 128)) m
      else
        let m := lines.foldl (fun m l => m.expire clk core l) m
        if a.nt then lines.foldl (fun m l => if (tget (m.core core).l1 l).isSome then m else m.ntLine core (l * 128)) m
        else lines.foldl (fun m l => if (tget (m.core core).l1 l).isSome then m else (m.fillLine clk core l).countLine core (l * 128)) m
    ([.got (overlay sbuf none pa (m.coreBytes core pa p.n))], m)
  | .remote d pa _ =>
    if d = m.devnum then ([.got (overlay sbuf (some d) pa (HostMem.readN m.host pa p.n))], m)
    else let xs := remotePieces sbuf d pa p.n; (xs, m.askFor d pa xs)
  | _ => ([.got (List.replicate p.n 0)], m)

/-- The 128-byte line pieces of a byte range: offset in the data, physical address, bytes (R397). -/
def linePieces (pa : Nat) (bs : List Byte) : List (Nat × List Byte) :=
  (linesOf pa bs.length).map (fun l =>
    let lo := max pa (l * 128)
    let hi := min (pa + bs.length) (l * 128 + 128)
    (lo, (bs.drop (lo - pa)).take (hi - lo)))

/-- A store's bytes in one line of an RC or UO page, performed at L1 (R214). A non-temporal store allocates no line (R145), and a poisoned
line never enters L1 (R378): such a store goes to L2 where L1 does not hold its line. -/
def Mach.l1Store (m : Mach) (clk : Clock) (core : Nat) (nt : Bool) (pa : Nat) (bs : List Byte) : Mach :=
  if (nt || m.poison.contains (lineOf pa)) && (tget (m.core core).l1 (lineOf pa)).isNone then (if nt then m.ntLine core pa else m.countLine core pa).l2Write pa bs
  else m.l1Bytes clk core pa bs
/-- Write a part for a core's thread: into the rollback buffer while the interval is not sealed, else where R214 performs it. -/
def Mach.storePart (m : Mach) (clk : Clock) (core slot : Nat) (a : Attr) (p : Part) (bs : List Byte) : Mach :=
  let buffered := match m.wg? core slot with | some w => w.hdr.rollback && w.sealed == 0 | none => false
  match p.tr with
  | .ok pa kind =>
    if buffered then m.bufferStore clk core slot { dev := none, pa, data := bs, time := clk.cycle, uo := p.uo, va := p.va }
    else if kind = 0 || a.wide then ((linesOf pa p.n).foldl (fun m l => (m.dropLine core l).countLine core (l * 128)) m).l2Write pa bs
    else (linePieces pa bs).foldl (fun m e => m.l1Store clk core a.nt e.1 e.2) m
  | .remote d pa _ =>
    if buffered then m.bufferStore clk core slot { dev := some d, pa, data := bs, time := clk.cycle, uo := p.uo, va := p.va } else m.remoteStore d pa bs
  | _ => m

/-- A store of an ordered launch (R397, R398): each line part goes to the ownership table under the store's one key. -/
def Mach.ordStorePart (m : Mach) (clk : Clock) (core slot : Nat) (w : Wg) (th : Thread) (p : Part) (bs : List Byte) : Mach :=
  match p.tr with
  | .ok pa _ =>
    (linePieces pa bs).foldl (fun m e =>
      let o : OrdOp := { g := w.g, e := th.epoch, t := th.wid % 2 ^ w.hdr.widths.headD 1, s := th.oseq, op := 0, type := .b32,
                         va := p.va + (e.1 - pa), pa := e.1, data := e.2, core, slot,
                         warp := w.coreWarp th.warp, lane := th.lane }
      if w.hdr.rollback && w.sealed == 0 then
        m.bufferStore clk core slot { dev := none, pa := e.1, data := e.2, time := clk.cycle, ord := some o, uo := p.uo, va := o.va }
      else (m.ordArrive clk w.vf w.launch o).2) m
  | _ => m.storePart clk core slot {} p bs

end Sys2Proof.Machine
end

