-- ==== Sys2Proof/Machine/Scratch.lean ====
section
/-! DEFINITION. A workgroup's scratchpad (R193 to R198): bytes by offset, the D bits of tile regions, live barrier words, and the
Check of R243. -/
namespace Sys2Proof.Machine

/-- Scratchpad byte address on the core of a workgroup's offset (R198). -/
def Wg.scratchAt (w : Wg) (off : Nat) : Nat := w.gran * 32768 + off
/-- Bytes of a core's scratchpad array. -/
def Core.scratchN (c : Core) (at_ : Nat) : Nat → List Byte
  | 0 => []
  | n + 1 => sget 0 c.scratch at_ :: c.scratchN (at_ + 1) n
def scratchPut (s : Sparse Byte) (at_ : Nat) : List Byte → Sparse Byte
  | [] => s
  | b :: bs => scratchPut (sset 0 s at_ b) (at_ + 1) bs
/-- Read and write by offset, bounds apart. -/
def Mach.scratchRead (m : Mach) (core slot off n : Nat) : List Byte :=
  match m.wg? core slot with | none => [] | some w => (m.core core).scratchN (w.scratchAt off) n
def Mach.scratchWrite (m : Mach) (core slot off : Nat) (bs : List Byte) : Mach :=
  match m.wg? core slot with
  | none => m
  | some w =>
    m.modCore core (fun c =>
      { c with scratch := scratchPut c.scratch (w.scratchAt off) bs,
               poison := c.poison.filter (fun p => !(w.scratchAt off ≤ p * 4 && p * 4 + 4 ≤ w.scratchAt off + bs.length)) })
/-- A byte range overlaps a tile's region. -/
def Tile.overlaps (t : Tile) (off n : Nat) : Bool := off < (t.base + t.size) * 128 && t.base * 128 < off + n
/-- A scratchpad store by a thread sets the D bit of every region it lands in (R244): an empty mapped tile keeps its region (R264). -/
def Mach.scratchStore (m : Mach) (core slot off : Nat) (bs : List Byte) : Mach :=
  (m.scratchWrite core slot off bs).modWg core slot (fun w =>
    { w with tiles := w.tiles.map (fun t => if (t.state ≠ .empty || t.m) && t.overlaps off bs.length then { t with d := true } else t) })
/-- The physical address of a scratchpad offset in its core's window (R202). -/
def Wg.windowAt (w : Wg) (core off : Nat) : Nat := scratchWindow core (w.scratchAt off)
/-- Is the word live (R295)? -/
def Wg.live (w : Wg) (off : Nat) : Bool := w.tags.contains off
/-- A live barrier word lies in a byte range (R295). -/
def Wg.liveIn (w : Wg) (off n : Nat) : Bool := w.tags.any (fun t => t < off + n && off < t + 8)
/-- A poisoned scratchpad word lies in a byte range (R378): its offset. -/
def Mach.scratchPoison (m : Mach) (core slot off n : Nat) : Option Nat :=
  match m.wg? core slot with
  | none => none
  | some w => ((m.core core).poison.find? (fun p => p * 4 < w.scratchAt off + n && w.scratchAt off < p * 4 + 4)).map (fun p => p * 4 - w.scratchAt 0)

/-- Bytes reach a workgroup's scratchpad through an engine: those of live barrier words are refused (R295). The first refused
offset, and the machine. -/
def Mach.deliver (m : Mach) (core slot off : Nat) (bs : List Byte) : Option Nat × Mach :=
  match m.wg? core slot with
  | none => (none, m)
  | some w =>
    let old := m.scratchRead core slot off bs.length
    let live (i : Nat) : Bool := w.live ((off + i) / 8 * 8)
    let new := bs.mapIdx (fun i b => if live i then old.getD i 0 else b)
    (((upFrom 0 bs.length).find? live).map (off + ·), m.scratchWrite core slot off new)

/-- One lane's scratchpad access. -/
structure SAcc where
  thread : Nat
  lane : Nat
  off : Int
  n : Nat
  deriving DecidableEq, Repr

/-- An offset as `sr.trapaddr` and the log hold it. -/
def offAddr (o : Int) : Nat := (BitVec.ofInt 80 o).toNat

/-- Check for the scratchpad (R243): alignment, bounds, live barrier words of a store, poisoned data of a read. -/
def Ctx.scratchChecked (c : Ctx) (clk : Clock) (align : Nat) (accs : List SAcc) (isStore isLoad : Bool) (k : Mach → Mach) : Mach :=
  let accs := sortBy (·.lane) accs
  let trap (m : Mach) (cause info : Nat) (o : Int) : Mach := c.trapAct clk m cause info (BitVec.ofNat 80 (offAddr o))
  match accs.find? (fun a => a.off % (align : Int) != 0) with
  | some a => trap c.m 3 a.lane a.off
  | none =>
    match accs.find? (fun a => a.off < 0 || (c.wg.scratchBytes : Int) < a.off + a.n) with
    | some a =>
      trap (c.m.logErr clk c.vf 1 5 a.lane c.core (c.leaderT.wid % 4294967296) (offAddr a.off)) 5 a.lane a.off
    | none =>
      match if isStore then accs.find? (fun a => c.wg.liveIn a.off.toNat a.n) else none with
      | some a => trap c.m 7 a.lane a.off
      | none =>
        match if isLoad then accs.findSome? (fun a => c.m.scratchPoison c.core c.slot a.off.toNat a.n) else none with
        | some o => c.m.consume clk c.core c.slot o (fun m => c.trapAct clk m 12 2 (BitVec.ofNat 80 o))
        | none => k c.m

end Sys2Proof.Machine
end

