-- ==== Sys2Proof/Machine/LoadStore.lean ====
section
/-! DEFINITION. Group H: loads and stores of memory and of the scratchpad, pointers, prefetch (R136 to R147, R241 to R244). -/
namespace Sys2Proof.Machine

/-! ## Destinations and sources (R138) -/

/-- 32-bit words of a byte list. -/
def words32 : List Byte → List V32
  | a :: b :: c :: d :: rest => BitVec.ofNat 32 (leNat [a, b, c, d]) :: words32 rest
  | _ => []
/-- What a lane's loaded bytes write. -/
def LoadDst.upd (d : LoadDst) (bs : List Byte) : LaneUpd :=
  match d with
  | .v t r => { v := vWrite t r (leNat bs) }
  | .wide r => { v := (words32 bs).mapIdx (fun i x => (r + i, x)) }
  | .k t r => { k := [(r, BitVec.ofInt 64 (t.value (leNat bs)))] }
  | .a r => { a := [(r, BitVec.ofNat 80 (leNat (bs.take 10)))] }
  | .pc => {}
/-- The bytes a store takes from a lane's registers. -/
inductive StoreSrc where
  | v (t : Ty) (r : Nat)
  | wide (r n : Nat)
  | k (t : Ty) (r : Nat)
  | a (r : Nat)
  deriving DecidableEq, Repr
def StoreSrc.bytes (s : StoreSrc) (th : Thread) : List Byte :=
  match s with
  | .v t r => leBytes (tyBytes t) (th.pat t r)
  | .wide r n => ((upFrom r (n / 4)).map (fun i => leBytes 4 (th.getV i).toNat)).flatten
  | .k t r => leBytes (tyBytes t) (th.getK r).toNat
  | .a r => leBytes 10 (th.getA r).toNat ++ List.replicate 6 0
/-- Bytes of `ldw` and `stw` (R138). -/
def wideBytes (t : Ty) : Nat := if t = .b32 then 16 else 32
/-- Alignment of a scalar access (R139). -/
def alignOf (n : Nat) : Nat := if n = 1 then 1 else if n = 2 then 2 else 4

/-- EA of a lane (R137). -/
def Thread.ea (th : Thread) (o : MemOp) : Nat :=
  let off : Int := if o.index = 255 then 0 else sext 32 (th.getV o.index).toNat * (2 ^ o.scale : Nat)
  (th.getA o.base + BitVec.ofInt 80 (off + o.disp)).toNat

/-! ## Ordered launches (R397, R400) -/

/-- The active threads whose access must wait for held operations of their own (R400): it carries an order, or it meets their bytes. -/
def Ctx.heldLate (c : Ctx) (ordered : Bool) (accs : List Acc) : List Nat :=
  if !c.wg.hdr.ordered then []
  else
    match c.m.launch? c.vf c.wg.launch with
    | none => []
    | some l => c.act.filter (fun i => l.held.any (fun o => o.g == c.wg.g && o.t == i &&
        (ordered || accs.any (fun a => a.thread == i && decide (a.va < o.va + o.data.length) && decide (o.va < a.va + a.n)))))
/-- The late threads wait at the instruction; the others of the group execute it (R400). -/
def Ctx.pastHeld (c : Ctx) (clk : Clock) (late : List Nat) (k : Ctx → Mach) : Mach :=
  if late.isEmpty then k c
  else if c.act.all late.contains then c.wait clk c.m c.act .held
  else
    let m : Mach := ({ c.m with seq := c.m.seq + 1 } : Mach).atWg c (fun w =>
      (w.modThreads late (fun t => { t with status := .waiting .held, since := some (t.since.getD (c.m.seq + 1, clk.time)) })).unfuse late)
    let rest (ts : List Nat) : List Nat := ts.filter (fun t => !late.contains t)
    k { m, ig := { c.ig with threads := rest c.ig.threads }, wg := c.wgIn m, act := rest c.act }
/-- An instruction that its issue group executes once, and that releases what its threads did before it, waits as a whole for their held
operations (R221, R400). -/
def Ctx.afterHeld (c : Ctx) (clk : Clock) (k : Mach) : Mach := if (c.heldLate true []).isEmpty then k else c.hold clk c.m .held
/-- The next key of each of these threads is used up (R397, R402). -/
def Mach.bumpKeys (m : Mach) (c : Ctx) (ts : List Nat) : Mach :=
  if c.wg.hdr.ordered then m.atWg c (fun w => w.modThreads ts (fun t => { t with oseq := t.oseq + 1 })) else m

/-! ## Loads -/

/-- Record a load whose pieces have been gathered (R140), with its order and scope. -/
def Mach.pend (m : Mach) (core slot : Nat) (dst : LoadDst) (threads : List Nat) (lanes : List (Nat × List Piece)) (a : Attr := {}) : Mach :=
  let (id, m) := m.newId
  m.modCore core (fun k => { k with loads := k.loads ++ [{ id, slot, dst, threads, lanes, order := a.order, scope := a.scope }] })
/-- Read every lane's parts. -/
def Mach.gather (m : Mach) (clk : Clock) (core slot : Nat) (a : Attr) (ps : List Part) : List Nat → List (Nat × List Piece) × Mach
  | [] => ([], m)
  | t :: ts =>
    let (xs, m) := (ps.filter (fun p => p.thread == t)).foldl (fun (s : List Piece × Mach) p =>
      let (x, m) := s.2.loadPart clk core slot a p
      (s.1 ++ x, m)) ([], m)
    let (rest, m) := m.gather clk core slot a ps ts
    ((t, xs) :: rest, m)

/-- The lanes that make an access: all active ones, or the leader alone (R140, R141). -/
def Ctx.accLanes (c : Ctx) (uniform : Bool) : List Nat := if uniform then c.act.take 1 else c.act
def Ctx.accs (c : Ctx) (o : MemOp) (n : Nat) (uniform : Bool) : List Acc :=
  (c.accLanes uniform).map (fun i => let t := c.wg.thread i; { thread := i, lane := t.lane, va := t.ea o, n })

/-- Go on with the active threads whose access need not wait for held operations; a uniform access is one access for all (R400). -/
def MemRun.pastHeld (r : MemRun) (uniform ordered : Bool) (accs : List Acc) (k : MemRun → Mach) : Mach :=
  if r.c.act.isEmpty then r.done r.c.m
  else if r.replay then k r
  else
    let late := r.c.heldLate ordered accs
    r.c.pastHeld r.clk (if uniform && !late.isEmpty then r.c.act else late) (fun c => k { r with c })
/-- `ld`, `ldw`, `ldk`, `lda` (R140, R141). -/
def loadRun (o : MemOp) (n align : Nat) (dst : LoadDst) (uniform : Bool) (r : MemRun) : Mach :=
  r.pastHeld uniform (o.order ≠ .plain) (r.c.accs o n uniform) (fun r =>
    let c := r.c
    let accs := c.accs o n uniform
    r.checked c.m align [.read] 0 accs (fun ps m =>
      match ps.findSome? (m.poisoned r.clk c.core (attrOf o)) with
      | some addr => m.consume r.clk c.core c.slot addr (fun m => r.trap m 12 4 addr)
      | none =>
        let eff := (attrOf o).on ps
        let m := eff.before false m r.clk c.core c.slot
        let (lanes, m) := m.gather r.clk c.core c.slot (attrOf o) ps (c.accLanes uniform)
        r.done ((eff.after true m c.core).pend c.core c.slot dst c.act lanes eff)))

/-! ## Stores -/

/-- Write one thread's bytes into its parts. -/
def Ctx.storeThread (c : Ctx) (clk : Clock) (a : Attr) (ps : List Part) (bytes : List Byte) (i : Nat) (m : Mach) : Mach :=
  ((ps.filter (fun p => p.thread == i)).foldl (fun (s : Mach × List Byte) p =>
    let d := s.2.take p.n
    (if c.wg.hdr.ordered then s.1.ordStorePart clk c.core c.slot c.wg (c.wg.thread i) p d
     else s.1.storePart clk c.core c.slot a p d, s.2.drop p.n)) (m, bytes)).1
/-- `st`, `stw`, `stk`, `sta` (R140, R141): the lane with the higher work identifier prevails. -/
def storeRun (o : MemOp) (n align : Nat) (src : StoreSrc) (uniform : Bool) (r : MemRun) : Mach :=
  r.pastHeld uniform (o.order ≠ .plain) [] (fun r =>
    let c := r.c
    let accs := c.accs o n uniform
    let lanes := c.accLanes uniform
    let m := if r.replay then c.m else c.m.bumpKeys c lanes
    r.checked m align [.write] 1 accs (fun ps m =>
      let eff := (attrOf o).on ps
      let m := eff.before true m r.clk c.core c.slot
      let m := lanes.foldl (fun m i => c.storeThread r.clk (attrOf o) ps (src.bytes (c.wg.thread i)) i m) m
      r.done (eff.after false m c.core)))

/-! ## Prefetch (R143) -/

/-- Level 0 fills the line into L1 when a plain load could; level 1 moves it into L2, which holds no state of its own here. -/
def pfRun (o : MemOp) (r : MemRun) : Mach :=
  let c := r.c
  r.done (c.act.foldl (fun m i =>
    match m.coreTranslate c.core c.vf ((c.wg.thread i).ea o) .read with
    | (.ok pa kind, m) => if o.data % 4 = 0 && kind ≠ 0 && !m.poison.contains (lineOf pa) then m.fillLine r.clk c.core (lineOf pa) else m
    | _ => m) c.m)

/-! ## The scratchpad forms (R241 to R244) -/

/-- Offset of a lane: the leader's base, the lane's own index (R241). -/
def Ctx.soff (c : Ctx) (o : MemOp) (i : Nat) : Int :=
  ((c.leaderT.getK o.base).toNat % 4294967296 : Nat) +
    (if o.index = 255 then 0 else sext 32 ((c.wg.thread i).getV o.index).toNat * (2 ^ o.scale : Nat)) + o.disp
def Ctx.saccs (c : Ctx) (o : MemOp) (n : Nat) : List SAcc :=
  c.act.map (fun i => { thread := i, lane := (c.wg.thread i).lane, off := c.soff o i, n })

def scratchLoad (o : MemOp) (n : Nat) (dst : LoadDst) (clk : Clock) (c : Ctx) : Mach :=
  if c.act.isEmpty then c.retire c.m
  else c.pastHeld clk (c.heldLate (o.order ≠ .plain) []) (fun c =>
    c.scratchChecked clk (alignOf n) (c.saccs o n) false true (fun m =>
      let m := (attrOf o).before false m clk c.core c.slot
      let m := m.pend c.core c.slot dst c.act (c.act.map (fun i => (i, [.got (m.scratchRead c.core c.slot (c.soff o i).toNat n)])))
      c.retire ((attrOf o).after true m c.core)))
def scratchStoreRun (o : MemOp) (n : Nat) (src : StoreSrc) (clk : Clock) (c : Ctx) : Mach :=
  if c.act.isEmpty then c.retire c.m
  else c.pastHeld clk (c.heldLate (o.order ≠ .plain) []) (fun c =>
    c.scratchChecked clk (alignOf n) (c.saccs o n) true false (fun m =>
      let m := (attrOf o).before true m clk c.core c.slot
      let m := c.act.foldl (fun m i => m.scratchStore c.core c.slot (c.soff o i).toNat (src.bytes (c.wg.thread i))) m
      c.retire ((attrOf o).after false m c.core)))

/-! ## The meanings -/

/-- Issue a memory instruction. -/
def State.mem (s : State) (f : MemRun → Mach) : Host.Outcome State Fault Refusal := s.group (fun clk c => f { c, clk, replay := false })

def ldRun (t : Ty) (o : MemOp) : MemRun → Mach := loadRun o (tyBytes t) (alignOf (tyBytes t)) (.v t o.data) false
def stRun (t : Ty) (o : MemOp) : MemRun → Mach := storeRun o (tyBytes t) (alignOf (tyBytes t)) (.v t o.data) false
def ldwRun (t : Ty) (o : MemOp) : MemRun → Mach := loadRun o (wideBytes t) 4 (.wide o.data) false
def stwRun (t : Ty) (o : MemOp) : MemRun → Mach := storeRun o (wideBytes t) 4 (.wide o.data (wideBytes t)) false
def ldkRun (t : Ty) (o : MemOp) : MemRun → Mach := loadRun o (tyBytes t) (alignOf (tyBytes t)) (.k t o.data) true
def stkRun (t : Ty) (o : MemOp) : MemRun → Mach := storeRun o (tyBytes t) (alignOf (tyBytes t)) (.k t o.data) true
def ldaRun (o : MemOp) : MemRun → Mach := loadRun o 16 16 (.a o.data) false
def staRun (o : MemOp) : MemRun → Mach := storeRun o 16 16 (.a o.data) false

def execLd (t : Ty) (o : MemOp) (s : State) : Host.Outcome State Fault Refusal := s.mem (ldRun t o)
def execSt (t : Ty) (o : MemOp) (s : State) : Host.Outcome State Fault Refusal := s.mem (stRun t o)
def execLdw (t : Ty) (o : MemOp) (s : State) : Host.Outcome State Fault Refusal := s.mem (ldwRun t o)
def execStw (t : Ty) (o : MemOp) (s : State) : Host.Outcome State Fault Refusal := s.mem (stwRun t o)
def execLdk (t : Ty) (o : MemOp) (s : State) : Host.Outcome State Fault Refusal := s.mem (ldkRun t o)
def execStk (t : Ty) (o : MemOp) (s : State) : Host.Outcome State Fault Refusal := s.mem (stkRun t o)
def execLda (o : MemOp) (s : State) : Host.Outcome State Fault Refusal := s.mem (ldaRun o)
def execSta (o : MemOp) (s : State) : Host.Outcome State Fault Refusal := s.mem (staRun o)
def execPf (o : MemOp) (s : State) : Host.Outcome State Fault Refusal := s.mem (pfRun o)
def execLds (t : Ty) (o : MemOp) (s : State) : Host.Outcome State Fault Refusal := s.group (scratchLoad o (tyBytes t) (.v t o.data))
def execSts (t : Ty) (o : MemOp) (s : State) : Host.Outcome State Fault Refusal := s.group (scratchStoreRun o (tyBytes t) (.v t o.data))
def execLdsw (t : Ty) (o : MemOp) (s : State) : Host.Outcome State Fault Refusal := s.group (scratchLoad o (wideBytes t) (.wide o.data))
def execStsw (t : Ty) (o : MemOp) (s : State) : Host.Outcome State Fault Refusal :=
  s.group (scratchStoreRun o (wideBytes t) (.wide o.data (wideBytes t)))

end Sys2Proof.Machine
end

