-- ==== Sys2Proof/Machine/Atomics.lean ====
section
/-! DEFINITION. Group I: atomics on memory and on the scratchpad (R226, R245 to R250), and `atomord` in an ordered launch (R249, R398
to R402). -/
namespace Sys2Proof.Machine

/-- What an atomic does to its location (R245, R246): a step with an operand, or a compare and a new value. -/
inductive AtomKind where
  | step (op : Nat) (v : Nat)
  | cas (cmp new : Nat)
  deriving DecidableEq, Repr
/-- The value stored, none when a compare fails. -/
def AtomKind.result (k : AtomKind) (t : Ty) (o : Nat) : Option Nat :=
  match k with
  | .step op v => some (atomStep op t o v)
  | .cas c new => if o = c then some new else none
/-- A lane's operation from its registers. -/
def stepOf (op : Nat) (t : Ty) (r : Nat) (th : Thread) : AtomKind := .step op (th.pat t r)
def casOf (t : Ty) (r : Nat) (th : Thread) : AtomKind := .cas (th.pat t r) (th.pat t (r + (if t.is64 then 2 else 1)))
/-- An atomic acts at L2 by its scope whatever its order (R226). -/
def atomAttr (o : Sys2Proof.MemOp) : Attr := ⟨.strong, o.scope⟩

/-- Perform one lane's atomic where R226 places it: the old bytes, or a debt of another device. -/
def Mach.atomPart (m : Mach) (clk : Clock) (core : Nat) (a : Attr) (t : Ty) (k : AtomKind) (p : Part) : Piece × Mach :=
  match p.tr with
  | .ok pa kind =>
    if kind = 0 || a.wide then
      let m := (m.dropLine core (lineOf pa)).countLine core pa
      let old := Memory.readN m.mem pa p.n
      (.got old, match k.result t (leNat old) with | some x => m.l2Write pa (leBytes p.n x) | none => m)
    else
      let m := (m.expire clk core (lineOf pa)).fillLine clk core (lineOf pa)
      let old := m.coreBytes core pa p.n
      (.got old, match k.result t (leNat old) with | some x => m.l1Bytes clk core pa (leBytes p.n x) | none => m)
  | .remote d pa _ =>
    if d = m.devnum then
      let old := HostMem.readN m.host pa p.n
      (.got old, match k.result t (leNat old) with | some x => m.remoteStore d pa (leBytes p.n x) | none => m)
    else
      let msg := match k with
        | .step op v => leBytes 1 10 ++ leBytes 8 pa ++ leBytes 1 op ++ leBytes 1 t.code ++ leBytes 8 v
        | .cas c new => leBytes 1 11 ++ leBytes 8 pa ++ leBytes 1 t.code ++ leBytes 8 c ++ leBytes 8 new
      (.owed p.n, (m.send d msg).hitFar d pa p.n)
  | _ => (.got (List.replicate p.n 0), m)

/-- One lane's `atomord` in an ordered launch: applied at once, or held with the load that waits for its old value (R398, R400). -/
def Ctx.atomOrd (c : Ctx) (clk : Clock) (m : Mach) (t : Ty) (op v id i : Nat) (p : Part) : Piece × Mach :=
  match p.tr with
  | .ok pa _ =>
    let th := c.wg.thread i
    let o : OrdOp := { g := c.wg.g, e := th.epoch, t := th.wid % 2 ^ c.wg.hdr.widths.headD 1, s := th.oseq, op := op + 1, type := t,
                       va := p.va, pa, data := leBytes p.n v, core := c.core, slot := c.slot, load := some id,
                       warp := c.wg.coreWarp th.warp, lane := th.lane }
    match m.ordArrive clk c.vf c.wg.launch o with
    | (some old, m) => (.got old, m)
    | (none, m) => (.owed p.n, m)
  | _ => m.atomPart clk c.core ⟨.strong, 5⟩ t (.step op v) p

/-- Each lane's atomic in ascending work identifier, with the load that takes its old value: one for the group, or one for each
thread when the operations are keyed (R400). -/
def Ctx.atomLanes (c : Ctx) (clk : Clock) (o : MemOp) (t : Ty) (keyed : Bool) (kindOf : Thread → AtomKind) (ps : List Part) (m : Mach) :
    List PendLoad × Mach :=
  if keyed then
    c.act.foldl (fun (s : List PendLoad × Mach) i =>
      match ps.find? (fun p => p.thread == i) with
      | none => s
      | some p =>
        let (id, m) := s.2.newId
        let (x, m) := match kindOf (c.wg.thread i) with
          | .step op v => c.atomOrd clk m t op v id i p
          | k => m.atomPart clk c.core (atomAttr o) t k p
        (s.1 ++ [{ id, slot := c.slot, dst := .v t o.data, threads := [i], lanes := [(i, [x])], keyed := (match p.tr with | .ok .. => true | _ => false), order := o.order, scope := o.scope }], m)) ([], m)
  else
    let (id, m) := m.newId
    let (lanes, m) := c.act.foldl (fun (s : List (Nat × List Piece) × Mach) i =>
      match ps.find? (fun p => p.thread == i) with
      | none => s
      | some p =>
        let (x, m) := s.2.atomPart clk c.core (atomAttr o) t (kindOf (c.wg.thread i)) p
        (s.1 ++ [(i, [x])], m)) ([], m)
    ([{ id, slot := c.slot, dst := .v t o.data, threads := c.act, lanes, order := o.order, scope := o.scope }], m)
/-- A memory atomic (R248): Check, the seal of R250, then each active lane in ascending work identifier. `ord` is `atomord`;
`returns` is false for `red`. -/
def atomRun (ord returns : Bool) (t : Ty) (o : MemOp) (kindOf : Thread → AtomKind) (r : MemRun) : Mach :=
  r.pastHeld false (o.order ≠ .plain) (r.c.accs o (tyBytes t) false) (fun r =>
    let c := r.c
    let n := tyBytes t
    let accs := c.accs o n false
    let keyed := ord && c.wg.hdr.ordered
    let m := if keyed && !r.replay then c.m.bumpKeys c c.act else c.m
    r.checked m n [.read, .write] 3 accs (fun ps m =>
      match ps.findSome? (m.poisoned r.clk c.core (atomAttr o)) with
      | some addr => m.consume r.clk c.core c.slot addr (fun m => r.trap m 12 4 addr)
      | none =>
        let m := m.seal r.clk c.core c.slot 1
        let eff := (attrOf o).on ps
        let m := eff.before true m r.clk c.core c.slot
        let (loads, m) := c.atomLanes r.clk o t keyed kindOf ps m
        let m := eff.after returns m c.core
        r.done (if returns then m.modCore c.core (fun k => { k with loads := k.loads ++ loads }) else m)))

/-- `atoms`: on the scratchpad (R248), sealing like the others (R250). -/
def atomsRun (op : Nat) (t : Ty) (o : MemOp) (clk : Clock) (c : Ctx) : Mach :=
  let n := tyBytes t
  if c.act.isEmpty then c.retire c.m
  else c.pastHeld clk (c.heldLate (o.order ≠ .plain) []) (fun c =>
    c.scratchChecked clk n (c.saccs o n) true true (fun m =>
      let m := m.seal clk c.core c.slot 1
      let m := (attrOf o).before true m clk c.core c.slot
      let (lanes, m) := c.act.foldl (fun (s : List (Nat × List Piece) × Mach) i =>
        let off := (c.soff o i).toNat
        let old := s.2.scratchRead c.core c.slot off n
        (s.1 ++ [(i, [.got old])],
          s.2.scratchStore c.core c.slot off (leBytes n (atomStep op t (leNat old) ((c.wg.thread i).pat t o.data))))) ([], m)
      c.retire ((attrOf o).after true (m.pend c.core c.slot (.v t o.data) c.act lanes) c.core)))

def atomOpRun (op : Nat) (t : Ty) (o : MemOp) : MemRun → Mach := atomRun false true t o (stepOf op t o.data)
def atomcasRun (t : Ty) (o : MemOp) : MemRun → Mach := atomRun false true t o (casOf t o.data)
def atomordRun (op : Nat) (t : Ty) (o : MemOp) : MemRun → Mach := atomRun true true t o (stepOf op t o.data)
def redRun (op : Nat) (t : Ty) (o : MemOp) : MemRun → Mach := atomRun false false t o (stepOf op t o.data)

def execAtom (op : Nat) (t : Ty) (o : MemOp) (s : State) : Host.Outcome State Fault Refusal := s.mem (atomOpRun op t o)
def execAtomcas (t : Ty) (o : MemOp) (s : State) : Host.Outcome State Fault Refusal := s.mem (atomcasRun t o)
def execAtomf (op : Nat) (t : Ty) (o : MemOp) (s : State) : Host.Outcome State Fault Refusal := s.mem (atomOpRun op t o)
def execAtomord (op : Nat) (t : Ty) (o : MemOp) (s : State) : Host.Outcome State Fault Refusal := s.mem (atomordRun op t o)
def execRed (op : Nat) (t : Ty) (o : MemOp) (s : State) : Host.Outcome State Fault Refusal := s.mem (redRun op t o)
def execAtoms (op : Nat) (t : Ty) (o : MemOp) (s : State) : Host.Outcome State Fault Refusal := s.group (atomsRun op t o)

end Sys2Proof.Machine
end

