-- ==== Sys2Proof/Machine/Zones.lean ====
section
/-! DEFINITION. Landing zones (R429 to R433, R440, R441): names, the directory, the slot transitions of R431, arrivals at a zone
whose workgroup is resident or saved, and group N's instructions but for `lz.send`, which is a copy command. -/
namespace Sys2Proof.Machine

/-! ## Zones and names -/

/-- A zone name (R429). -/
def zoneName (gen vf id dev : Nat) : Nat := gen * 4294967296 + vf * 8388608 + id * 2048 + dev
/-- Bitmap of slots in a state that satisfies `p`. -/
def Zone.bitmap (z : Zone) (p : ZState → Bool) : Nat :=
  (z.slots.mapIdx (fun i s => if p s.state then 2 ^ i else 0)).foldl (· + ·) 0
def Zone.count (z : Zone) (st : ZState) : Nat := (z.slots.filter (fun s => s.state == st)).length
/-- The zone word (R432); a closed zone reads 0 (R436). -/
def Zone.word (z : Zone) : Nat :=
  if !z.open_ then 0
  else pack [(32, z.base), (3, z.size), (6, z.slots.length - 1), (7, z.count .torn), (7, z.count .arrived), (7, z.pend),
    (1, bit z.phase), (1, 1)]
/-- Set a slot. -/
def Zone.setSlot (z : Zone) (i : Nat) (s : ZSlot) : Zone := { z with slots := setAt z.slots i s }
/-- An arrival (R430). -/
def Zone.arrive (z : Zone) : Zone :=
  if z.pend ≤ 1 then { z with pend := z.target, phase := !z.phase } else { z with pend := z.pend - 1 }

/-- Where a zone stands: with a resident workgroup, or in a save image. -/
inductive ZPlace where
  | live (core slot z : Nat)
  | saved (img z : Nat)
  deriving DecidableEq, Repr
/-- What a name names (R429). -/
inductive ZFind where
  | stale
  | closed
  | at_ (p : ZPlace) (z : Zone)
  deriving DecidableEq, Repr

def Wg.zoneNamed (w : Wg) (name : Nat) : Option (Nat × Zone) :=
  (w.zones.mapIdx (fun i z => (i, z))).find? (fun e => e.2.open_ && e.2.name == name)
/-- Find the zone of a name of this device's function. -/
def Mach.findZone (m : Mach) (vf name : Nat) : ZFind :=
  let id := field name 11 12
  if ((tget (m.fn vf).zdir id).getD {}).gen ≠ field name 32 32 then .stale
  else
    match m.wgs.findSome? (fun e => if e.2.vf == vf then (e.2.zoneNamed name).map (fun z => (e.1, z)) else none) with
    | some (k, i, z) => .at_ (.live (k / 64) (k % 64) i) z
    | none =>
      match ((m.fn vf).images.mapIdx (fun i g => (i, g))).findSome? (fun e => (e.2.wg.zoneNamed name).map (fun z => (e.1, z))) with
      | some (k, i, z) => .at_ (.saved k i) z
      | none => .closed
def Wg.setZone (w : Wg) (i : Nat) (z : Zone) : Wg := { w with zones := setAt w.zones i z }
def Mach.putZone (m : Mach) (vf : Nat) (p : ZPlace) (z : Zone) : Mach :=
  match p with
  | .live core slot i => m.modWg core slot (fun w => w.setZone i z)
  | .saved k i => m.modFn vf (fun f => { f with images := f.images.mapIdx (fun j g =>
      if j = k then { g with wg := g.wg.setZone i z } else g) })

/-- A status word of R437. -/
def zstatus (st slot : Nat) : Nat := st * 2 ^ 56 + slot
/-- The function of this device that a name names may be reached by the sender: the same function here, or one of its domain
(R429). A sender on another device has been matched by its own host driver; the receiving function must have a domain. -/
def Mach.zoneReach (m : Mach) (name : Nat) (from_ : Sender) : Bool :=
  let vf := field name 23 7
  if from_.dev = m.devnum then from_.vf == vf || ((m.fn vf).domain.isSome && (m.fn vf).domain == (m.fn from_.vf).domain)
  else (m.fn vf).domain.isSome

/-- A reservation at this device (R431, R437): status, slot. -/
def Mach.zReserve (m : Mach) (clk : Clock) (name : Nat) (from_ : Sender) : (Nat × Nat) × Mach :=
  let vf := field name 23 7
  if !m.zoneReach name from_ then ((3, 0), m.logErr clk vf 8 3 0 65535 0 name)
  else
    match m.findZone vf name with
    | .stale => ((3, 0), m.logErr clk vf 8 3 0 65535 0 name)
    | .closed => ((2, 0), m)
    | .at_ p z =>
      match firstFrom (fun i => (z.slots.getD i {}).state == .free) z.slots.length 0 with
      | none => ((1, 0), m)
      | some i => ((0, i), m.putZone vf p (z.setSlot i { state := .reserved, sender := some from_ }))
/-- An abort at this device (R431, R437): its status. -/
def Mach.zAbort (m : Mach) (name i : Nat) (from_ : Sender) : Nat × Mach :=
  let vf := field name 23 7
  if !m.zoneReach name from_ then (3, m)
  else
    match m.findZone vf name with
    | .stale => (3, m)
    | .closed => (2, m)
    | .at_ p z =>
      let s := z.slots.getD i {}
      if i < z.slots.length && s.state == .reserved && s.sender == some from_ then (0, m.putZone vf p (z.setSlot i {})) else (3, m)

/-- What became of payload bytes: the payload goes on, has arrived (`whole`: no byte of it was refused), or is refused with a status; or
the backing page is missing. -/
inductive ZPut where
  | more
  | arrived (whole : Bool)
  | refused (status : Nat)
  | fault
  deriving DecidableEq, Repr

/-- The pages under a range of the backing area, translated by firmware (R441). -/
def Mach.backingPages (m : Mach) (vf va n : Nat) : List (Nat × Nat × Trans) :=
  let room := 65536 - va % 65536
  let parts := if n ≤ room then [(va, n)] else [(va, room), ((va + room) % 2 ^ 80, n - room)]
  parts.map (fun p => (p.1, p.2, translate m vf p.1 .write))
/-- Tear a slot of a saved zone whose backing fault cannot be resolved (R441). -/
def Mach.zTear (m : Mach) (clk : Clock) (vf : Nat) (p : ZPlace) (z : Zone) (i code addr : Nat) : Mach :=
  (m.putZone vf p (z.setSlot i { (z.slots.getD i {}) with state := .torn })).logErr clk vf 8 code 0 65535 0 addr

/-- Bytes written into a zone's slot through the core's window: those of live barrier words are refused, and the first refused address logged
(R203, R295). -/
def Mach.zDeliver (m : Mach) (clk : Clock) (vf core slot off : Nat) (bs : List Byte) : Bool × Mach :=
  match m.deliver core slot off bs, m.wg? core slot with
  | (some o, m), some w => (true, m.logErr clk vf 2 1 0 core 0 (w.windowAt core o))
  | (_, m), _ => (false, m)
/-- Where slot `i` of a zone that has closed lay, while its workgroup still knows it; else the name stands for it (R442). -/
def Mach.closedSlotAt (m : Mach) (vf name i : Nat) : Nat :=
  match m.wgs.findSome? (fun e => if e.2.vf == vf then e.2.zones.find? (fun z => z.name == name && !z.slots.isEmpty) else none) with
  | some z => z.slotAt i
  | none => name
/-- Payload bytes `data` at `offset` of a payload of `total` bytes reach slot `i` (R203, R431, R440, R441). Log 99: a payload some bytes of
which are refused at a live barrier word arrives, and its sender learns status 3. -/
def Mach.zPayload (m : Mach) (clk : Clock) (name i offset total : Nat) (data : List Byte) (from_ : Sender) : ZPut × Mach :=
  let vf := field name 23 7
  match (if m.zoneReach name from_ then m.findZone vf name else .stale) with
  | .stale => (.refused 3, m.logErr clk vf 8 3 0 65535 0 name)
  | .closed => (.refused 2, m.logErr clk vf 8 2 0 65535 0 (m.closedSlotAt vf name i))
  | .at_ p z =>
    let s := z.slots.getD i {}
    let mine := s.sender == some from_ && (s.state == .reserved || s.state == .filling)
    if z.slots.length ≤ i || !mine || z.slotBytes < total || total < offset + data.length then (.refused 3, m.logErr clk vf 8 3 0 65535 0 (z.slotAt i))
    else
      let got := s.got + data.length
      let after (m : Mach) (inback marred : Bool) : ZPut × Mach :=
        let marred := s.marred || marred
        let s' : ZSlot := { s with marred, state := if total ≤ got then .arrived else .filling, got := if total ≤ got then 0 else got,
                                   inback := if !inback then s.inback else
                                     match s.inback with
                                     | none => some (offset, offset + data.length)
                                     | some (lo, hi) => some (min lo offset, max hi (offset + data.length)) }
        let z' := z.setSlot i s'
        if total ≤ got then (.arrived (!marred), m.putZone vf p z'.arrive) else (.more, m.putZone vf p z')
      match p with
      | .live core slot _ =>
        let (marred, m) := m.zDeliver clk vf core slot (z.slotAt i + offset) data
        after m false marred
      | .saved .. =>
        let va := (z.backing.toNat + i * z.slotBytes + offset) % 2 ^ 80
        let pages := m.backingPages vf va data.length
        if pages.any (fun q => q.2.2 == .noTranslation || q.2.2 == .discarded) then
          (.fault, m.postFault clk vf
            { va, time := 0, core := 65535, slot := 0, warp := 255, kind := 8, access := 1, olog := 255, flags := 0, lanes := 0,
              wid := 0, launch := 0, rec_ := field name 11 12 * 64 + i })
        else if pages.any (fun q => match q.2.2 with | .ok .. => false | _ => true) then
          (.refused 1, m.zTear clk vf p z i 5 va)
        else
          let m := (pages.foldl (fun (t : Mach × List Byte) q =>
            match q.2.2 with
            | .ok pa _ => (t.1.l2Write pa (t.2.take q.2.1), t.2.drop q.2.1)
            | _ => t) (m, data)).1
          after m true false

/-- Close a zone (R431, R435): its directory entry is released and keeps its gen. -/
def Mach.zClose (m : Mach) (vf : Nat) (p : ZPlace) (z : Zone) : Mach :=
  if !z.open_ then m
  else
    (m.putZone vf p { z with open_ := false, slots := z.slots.map (fun s => { s with state := .closed }) }).modFn vf (fun f =>
      { f with zdir := tmod f.zdir (field z.name 11 12) (fun d => { d with taken := false }) })

/-- Merge what arrived in the backing area into the scratchpad of a resumed workgroup (R393, R441). -/
def Mach.zMerge (m : Mach) (clk : Clock) (core slot : Nat) : Mach :=
  match m.wg? core slot with
  | none => m
  | some w =>
    ((w.zones.mapIdx (fun i z => (i, z))).filter (fun e => e.2.open_)).foldl (fun m e =>
      let z := e.2
      let m := (z.slots.mapIdx (fun i s => (i, s))).foldl (fun (m : Mach) s =>
        match s.2.inback with
        | none => m
        | some (lo, hi) =>
          let va := (z.backing.toNat + s.1 * z.slotBytes + lo) % 2 ^ 80
          ((m.backingPages w.vf va (hi - lo)).foldl (fun (t : Mach × Nat) q =>
            (match q.2.2 with
              | .ok pa _ => (t.1.zDeliver clk w.vf core slot (z.slotAt s.1 + t.2) (Memory.readN t.1.mem pa q.2.1)).2
              | _ => t.1, t.2 + q.2.1)) (m, lo)).1) m
      m.modWg core slot (fun w => w.setZone e.1 { z with slots := z.slots.map (fun s => { s with inback := none }) })) m

/-! ## Group N (R434 to R439) -/

/-- The workgroup as a sender. -/
def Ctx.sender (c : Ctx) : Sender := { dev := c.m.devnum, vf := c.vf, header := c.wg.hdr.addr, group := c.wg.g }
/-- Write one value to kD of every active lane and go on (R91). -/
def Ctx.retireK (c : Ctx) (m : Mach) (kd x : Nat) : Mach := c.retireWith m (fun t => t.setK kd (BitVec.ofNat 64 x))
/-- A k register of the leader. -/
def Ctx.leadK (c : Ctx) (r : Nat) : Nat := (c.leaderT.getK r).toNat
def Ctx.leadA (c : Ctx) (r : Nat) : Nat := (c.leaderT.getA r).toNat

/-- A meaning that names zone `z`: cause 0x06 at or above the header's count (R434). -/
def Ctx.withZone (c : Ctx) (clk : Clock) (z : Nat) (k : Zone → Mach) : Mach :=
  if c.wg.hdr.zones ≤ z then c.badHandle clk c.m 3 else k (c.wg.zones.getD z {})

def lzOpenRun (d z b k h : Nat) (clk : Clock) (c : Ctx) : Mach :=
  c.withZone clk z (fun zn =>
    if zn.open_ then c.badHandle clk c.m 3
    else if c.act.isEmpty then c.retire c.m
    else
      let kb := c.leadK b
      let cfg := c.leadK k
      let back := c.leadA h
      let n := field cfg 0 6 + 1
      let size := field cfg 8 3
      let a := field cfg 16 6 + 1
      if size = 7 || n < a || cfg ≠ pack [(6, n - 1), (2, 0), (3, size), (5, 0), (6, a - 1)] then c.badValue clk c.m 3
      else if kb % 1024 ≠ 0 then c.trapAct clk c.m 3 c.leaderT.lane (BitVec.ofNat 80 kb)
      else if back % 65536 ≠ 0 then c.trapAct clk c.m 3 c.leaderT.lane (BitVec.ofNat 80 back)
      else if c.wg.scratchBytes < kb + n * 1024 * 2 ^ size then c.trapAct clk c.m 5 c.leaderT.lane (BitVec.ofNat 80 kb)
      else
        let m := c.m.seal clk c.core c.slot 2
        let f := m.fn c.vf
        match firstFrom (fun i => !((tget f.zdir i).getD {}).taken) 4096 0 with
        | none => c.retireK m d (2 ^ 64 - 1)
        | some id =>
          let gen := (((tget f.zdir id).getD {}).gen + 1) % 4294967296
          let name := zoneName gen c.vf id m.devnum
          let zn : Zone := { open_ := true, name, backing := BitVec.ofNat 80 back, base := kb, size, target := a, phase := false,
                             pend := a, slots := List.replicate n {} }
          let m := (m.setFn c.vf { f with zdir := tset f.zdir id { gen, taken := true } }).atWg c (fun w => w.setZone z zn)
          c.retireK m d name)

def lzCloseRun (z : Nat) (clk : Clock) (c : Ctx) : Mach :=
  c.withZone clk z (fun zn =>
    if c.act.isEmpty then c.retire c.m
    else c.retire ((c.m.seal clk c.core c.slot 2).zClose c.vf (.live c.core c.slot z) zn))

def lzStatusRun (d z sel : Nat) (clk : Clock) (c : Ctx) : Mach :=
  c.withZone clk z (fun zn =>
    let v :=
      if !zn.open_ then 0
      else match sel with
        | 0 => zn.word
        | 1 => zn.bitmap (· == .arrived)
        | 2 => zn.bitmap (· == .torn)
        | 3 => zn.bitmap (fun s => s == .reserved || s == .filling)
        | _ => zn.name
    c.retireK (if sel = 1 then c.m.acquire c.core 6 else c.m) d v)

/-- The first port of a peer's route, for the log (R442). -/
def Mach.firstPort (m : Mach) (dev : Nat) : Nat := ((tget m.routes dev).getD []).headD 0
/-- What a thread that waits for a peer's answer remembers: kD, the `.wait` form, the device. -/
def askCode (kd : Nat) (wait : Bool) (dev : Nat) : Nat := kd + 32 * bit wait + 64 * dev
/-- The threads wait for the answer of a peer device; `kd` is an `askCode`. -/
def Ctx.askPeer (c : Ctx) (clk : Clock) (m : Mach) (dev kd : Nat) (msg : List Byte) : Mach :=
  let m := { m with seq := m.seq + 1 }
  (m.send dev msg).atWg c (fun w =>
    ((w.modThreads c.act (fun t => { t with status := .zoneWait none kd, since := some (m.seq, clk.time) })).modThreads
      (c.ig.threads.filter (fun t => !c.act.contains t)) (·.advance c.len)).unfuse c.act)
/-- Wire form of a sender and a zone name (log 23). -/
def senderBytes (x : Sender) : List Byte := leBytes 2 x.dev ++ leBytes 1 x.vf ++ leBytes 10 x.header ++ leBytes 8 x.group

def lzReserveRun (wait : Bool) (d k : Nat) (clk : Clock) (c : Ctx) : Mach :=
  if c.role ≠ 0 then c.badRole clk c.m
  else if c.act.isEmpty then c.retire c.m
  else
    let name := c.leadK k
    let dev := field name 0 11
    if dev = c.m.devnum then
      let ((st, i), m) := c.m.zReserve clk name c.sender
      if wait && st == 1 then c.wait clk m c.act (.zone (8 + name) false) else c.retireK m d (zstatus st i)
    else if c.m.unreachable dev then c.retireK (c.m.logErr clk c.vf 8 4 0 c.core 0 (c.m.firstPort dev)) d (zstatus 4 0)
    else c.askPeer clk c.m dev (askCode d wait dev) (leBytes 1 5 ++ leBytes 8 name ++ senderBytes c.sender)

def lzAbortRun (d k s : Nat) (clk : Clock) (c : Ctx) : Mach :=
  if c.role ≠ 0 then c.badRole clk c.m
  else if c.act.isEmpty then c.retire c.m
  else
    let name := c.leadK k
    let i := c.leadK s % 64
    let dev := field name 0 11
    if dev = c.m.devnum then
      let (st, m) := c.m.zAbort name i c.sender
      c.retireK m d (zstatus st 0)
    else if c.m.unreachable dev then c.retireK (c.m.logErr clk c.vf 8 4 0 c.core 0 (c.m.firstPort dev)) d (zstatus 4 0)
    else c.askPeer clk c.m dev (askCode d false dev) (leBytes 1 6 ++ leBytes 8 name ++ leBytes 1 i ++ senderBytes c.sender)

def lzWaitRun (z p : Nat) (clk : Clock) (c : Ctx) : Mach :=
  c.withZone clk z (fun zn =>
    if c.act.isEmpty then c.retire c.m
    else
      let want := (c.leaderT.getK p).getLsbD 0
      if !zn.open_ then c.retire c.m
      else if zn.phase == want then c.retire (c.m.acquire c.core 6)
      else c.wait clk c.m c.act (.zone z want))

/-- `lz.ack` and `lz.clean`: free a slot that is in the required state. -/
def lzFreeRun (st : ZState) (zero : Bool) (z s : Nat) (clk : Clock) (c : Ctx) : Mach :=
  c.withZone clk z (fun zn =>
    if c.act.isEmpty then c.retire c.m
    else
      let i := c.leadK s % 64
      if !zn.open_ || zn.slots.length ≤ i || (zn.slots.getD i {}).state ≠ st then c.badValue clk c.m 3
      else
        let m := c.m.seal clk c.core c.slot 2
        let m := if zero then m.scratchWrite c.core c.slot (zn.slotAt i) (List.replicate zn.slotBytes 0) else m
        c.retire (m.atWg c (fun w => w.setZone z (zn.setSlot i {}))))

def execLzOpen (d z b k h : Nat) (s : State) : Host.Outcome State Fault Refusal := s.group (lzOpenRun d z b k h)
def execLzClose (z : Nat) (s : State) : Host.Outcome State Fault Refusal := s.group (lzCloseRun z)
def execLzStatus (d z sel : Nat) (s : State) : Host.Outcome State Fault Refusal := s.group (lzStatusRun d z sel)
def execLzReserve (d k : Nat) (s : State) : Host.Outcome State Fault Refusal := s.group (lzReserveRun false d k)
def execLzReserveWait (d k : Nat) (s : State) : Host.Outcome State Fault Refusal := s.group (lzReserveRun true d k)
def execLzAbort (d k i : Nat) (s : State) : Host.Outcome State Fault Refusal := s.group (lzAbortRun d k i)
def execLzWait (z p : Nat) (s : State) : Host.Outcome State Fault Refusal := s.group (lzWaitRun z p)
def execLzAck (z i : Nat) (s : State) : Host.Outcome State Fault Refusal := s.group (lzFreeRun .arrived false z i)
def execLzClean (z i : Nat) (s : State) : Host.Outcome State Fault Refusal := s.group (lzFreeRun .torn true z i)

/-! ## What peers bring (R431, R437) -/

/-- A sender on another device reserves; the status word goes back. -/
def lzReservation (name : Nat) (from_ : Sender) (clk : Clock) (m : Mach) : Mach :=
  let ((st, i), m) := m.zReserve clk name from_
  m.send from_.dev (leBytes 1 7 ++ leBytes 8 name ++ leBytes 8 (zstatus st i))
/-- LZ_RESERVATION_ARRIVE. -/
def execLzReservationArrive (name : Nat) (from_ : Sender) (s : State) : Host.Outcome State Fault Refusal := s.always (lzReservation name from_)
/-- A sender on another device gives a reservation up. -/
def lzAbort (name i : Nat) (from_ : Sender) (m : Mach) : Mach :=
  let (st, m) := m.zAbort name i from_
  m.send from_.dev (leBytes 1 7 ++ leBytes 8 name ++ leBytes 8 (zstatus st 0))
/-- LZ_ABORT_ARRIVE. -/
def execLzAbortArrive (name i : Nat) (from_ : Sender) (s : State) : Host.Outcome State Fault Refusal := s.always (fun _ => lzAbort name i from_)
/-- Payload bytes of another device; an arrival is acknowledged, a refusal answered with its status. A backing page with no
translation leaves the flit to be sent again once its fault is serviced. -/
def lzPayload (name i offset total : Nat) (data : List Byte) (from_ : Sender) (clk : Clock) (m : Mach) : Mach :=
  let (r, m) := m.zPayload clk name i offset total data from_
  let reply (st : Nat) : List Byte := leBytes 1 8 ++ leBytes 8 name ++ leBytes 1 i ++ leBytes 1 st
  match r with
  | .more | .fault => m
  | .arrived whole => m.send from_.dev (reply (if whole then 0 else 3))
  | .refused st => m.send from_.dev (reply st)
/-- LZ_PAYLOAD_FLIT. -/
def execLzPayloadFlit (name i offset total : Nat) (data : List Byte) (from_ : Sender) (s : State) : Host.Outcome State Fault Refusal :=
  s.always (lzPayload name i offset total data from_)
/-- The answer to a reservation or abort sent to a peer. Every thread that waits in the same instruction takes it; with `.wait` and no
free slot the reservation is sent again. -/
def lzReply (core slot thread status zslot : Nat) (m : Mach) : Option Mach := do
  let w ← m.wg? core slot
  let t := w.thread thread
  match t.status with
  | .zoneWait none kd =>
    let same := (upFrom 0 w.threads.length).filter (fun i => (w.thread i).status == t.status && (w.thread i).since == t.since)
    if kd.testBit 5 ∧ status = 1 then
      some (m.setWg core slot { w with threads := w.threads.mapIdx (fun i x =>
        if same.contains i then { x with status := .ready } else x) })
    else
      some (m.setWg core slot { w with threads := w.threads.mapIdx (fun i x =>
        if same.contains i then ({ x with status := .ready }.setK (kd % 32) (BitVec.ofNat 64 (zstatus status zslot))).advance 8 else x) })
  | _ => none
/-- LZ_RESERVATION_REPLY. -/
def execLzReservationReply (core slot thread status zslot : Nat) (s : State) : Host.Outcome State Fault Refusal :=
  s.event (fun _ m => lzReply core slot thread status zslot m)

end Sys2Proof.Machine
end

