-- ==== Sys2Proof/Machine/Bounds.lean ====
section
/-! DEFINITION. Bound registers (R379 to R381): checking a unit, and the group R instructions. -/
namespace Sys2Proof.Machine

/-- The value of a bit pattern under a bound type: 0 f32, 1 i32, 2 z32, 3 bf16, 4 f16. -/
def boundVal (ty bits : Nat) : FVal :=
  match ty with
  | 0 => (Ty.float .f32).read (bits % 4294967296)
  | 1 => let v := sext 32 bits; .fin { neg := decide (v < 0), num := v.natAbs, exp := 0 }
  | 2 => .fin { neg := false, num := bits % 4294967296, exp := 0 }
  | 3 => (Ty.float .bf16).read (bits % 65536)
  | _ => (Ty.float .f16).read (bits % 65536)
/-- Bytes of a unit (R379). -/
def boundUnit (ty : Nat) : Nat := if ty < 3 then 4 else 2
/-- `Check(x, bd)` (R379): the register after it, the bits to write, and whether the unit stops a trap-mode command. -/
def Bound.check (b : Bound) (bits addr : Nat) (inScratch : Bool) : Bound × Nat × Bool :=
  if b.policy = 0 then (b, bits, false)
  else
    let x := boundVal b.type bits
    let below := x.isNan || x.lessThan (boundVal b.type b.lo)
    let above := !x.isNan && (boundVal b.type b.hi).lessThan x
    if !below && !above then (b, bits, false)
    else
      let first := b.count == 0
      let b' := { b with v := true, count := min (b.count + 1) 65535, first := if first then BitVec.ofNat 80 addr else b.first,
                         f := if first then inScratch else b.f }
      match b.policy with
      | 1 => (b', bits, false)
      | 2 => (b', if above then b.hi else b.lo, false)
      | _ => (b', bits, true)
/-- Check the units of bytes written from address `addr` on: the register, the bytes to write, and the address at which trap mode
stopped. -/
def Bound.bytes (b : Bound) (addr : Nat) : Nat → List Byte → Bound × List Byte × Option Nat
  | 0, bs => (b, bs, none)
  | fuel + 1, bs =>
    if bs.isEmpty then (b, [], none)
    else
      let n := boundUnit b.type
      let (b', x, stop) := b.check (leNat (bs.take n)) addr false
      if stop then (b', [], some addr)
      else
        let (b'', rest, st) := b'.bytes (addr + n) fuel (bs.drop n)
        (b'', leBytes n x ++ rest, st)

def Ctx.bd (c : Ctx) (n : Nat) : Bound := c.wg.bds.getD n {}
def Ctx.setBd (c : Ctx) (n : Nat) (b : Bound) : Mach := c.m.atWg c (fun w => { w with bds := setAt w.bds n b })
/-- Count, V, F and first cleared. -/
def Bound.cleared (b : Bound) : Bound := { b with count := 0, v := false, f := false, first := 0 }
/-- The values of `bd.stat` (R380). -/
def Bound.stat (b : Bound) (sel : Nat) : Nat :=
  match sel with
  | 0 => pack [(2, b.policy), (3, b.type), (3, 0), (1, bit b.v), (39, 0), (16, b.count)]
  | 1 => b.lo + 4294967296 * b.hi
  | 2 => b.first.toNat % 2 ^ 64
  | _ => b.first.toNat / 2 ^ 64 + 65536 * bit b.f

def bdSetRun (bd pol type lo hi : Nat) (clk : Clock) (c : Ctx) : Mach :=
  if c.act.isEmpty then c.retire c.m
  else
    let w := if type < 3 then 2 ^ 32 else 2 ^ 16
    let l := c.leadK lo % w
    let h := c.leadK hi % w
    if (boundVal type l).isNan || (boundVal type h).isNan || (boundVal type h).lessThan (boundVal type l) then c.badValue clk c.m 8
    else c.retire (c.setBd bd { policy := pol, type, lo := l, hi := h })
def execBdSet (bd pol type lo hi : Nat) (s : State) : Host.Outcome State Fault Refusal := s.group (bdSetRun bd pol type lo hi)
def execBdClr (bd : Nat) (s : State) : Host.Outcome State Fault Refusal :=
  s.group (fun _ c => c.retire (if c.act.isEmpty then c.m else c.setBd bd {}))
def execBdStat (d bd sel : Nat) (s : State) : Host.Outcome State Fault Refusal :=
  s.group (fun _ c => c.retireK c.m d ((c.bd bd).stat sel))
def execBdStatClr (d bd sel : Nat) (s : State) : Host.Outcome State Fault Refusal :=
  s.group (fun _ c => c.retireK (if c.act.isEmpty then c.m else c.setBd bd (c.bd bd).cleared) d ((c.bd bd).stat sel))

end Sys2Proof.Machine
end

