-- ==== Sys2Proof/Machine/Bulk.lean ====
section
/-! DEFINITION. Ranges of memory as tiles and engines move them: in 64 KiB steps through `Translate` (R206, R261, R317), performed at
the home L2 with the core's own L1 copies written back first. -/
namespace Sys2Proof.Machine

/-- The pieces of a range that lie within one page each; addresses wrap. `fuel` pieces are enough for `fuel - 1` pages. -/
def pageSpans : Nat → Nat → Nat → List (Nat × Nat)
  | 0, _, _ => []
  | fuel + 1, va, n =>
    if n = 0 then []
    else
      let room := 65536 - va % 65536
      if n ≤ room then [(va, n)] else (va, room) :: pageSpans fuel ((va + room) % 2 ^ 80) (n - room)
def spansOf (va n : Nat) : List (Nat × Nat) := pageSpans (n / 65536 + 2) va n

/-- One accesses per piece of a range, for Check (R261). -/
def Ctx.rangeAccs (c : Ctx) (va n : Nat) : List Acc :=
  (spansOf va n).map (fun p => { thread := c.act.headD 0, lane := c.leaderT.lane, va := p.1, n := p.2 })

/-- Bytes nothing constrains: the contents of another device's memory as an engine reads them (log 23, log 32). -/
def Mach.freeBytes (m : Mach) : Nat → List Byte × Mach
  | 0 => ([], m)
  | n + 1 =>
    let (x, m) := m.free
    let (xs, m) := m.freeBytes n
    (BitVec.ofNat 8 x :: xs, m)

/-- A range translated piece by piece. -/
def Mach.bulkTrans (m : Mach) (core vf : Nat) (k : Access) : List (Nat × Nat) → List Part × Mach
  | [] => ([], m)
  | (va, n) :: ps =>
    let (t, m) := m.coreTranslate core vf va k
    let (qs, m) := m.bulkTrans core vf k ps
    ({ thread := 0, lane := 0, va, n, tr := t } :: qs, m)
/-- How a translated range stands: the first piece that faults (with its kind), or is refused: cause 5, or 4 for a device that no path
reaches (R423). -/
inductive BulkRes where
  | ok
  | fault (va kind : Nat)
  | refused (va cause : Nat)
  deriving DecidableEq, Repr
def bulkRes (m : Mach) (ps : List Part) : BulkRes :=
  match ps.find? (fun p => p.tr == .violation || p.tr == .channelPage) with
  | some p => .refused p.va 5
  | none =>
    match ps.find? (fun p => p.tr == .noTranslation || p.tr == .discarded) with
    | some p => .fault p.va (if p.tr == .discarded then 2 else 1)
    | none =>
      match ps.find? (fun p => match p.tr with | .remote d _ _ => d != m.devnum && m.unreachable d | _ => false) with
      | some p => .refused p.va 4
      | none => .ok

/-- The bytes of a translated range, as an engine of `core` reads them. -/
def Mach.bulkRead (m : Mach) (core : Nat) : List Part → List Byte × Mach
  | [] => ([], m)
  | p :: ps =>
    let (bs, m) := match p.tr with
      | .ok pa _ =>
        let m := (linesOf pa p.n).foldl (fun (m : Mach) l => (m.writeBack core l).countLine core (l * 128)) m
        (Memory.readN m.mem pa p.n, m)
      | .remote d pa _ => if d = m.devnum then (HostMem.readN m.host pa p.n, m) else m.freeBytes p.n
      | _ => (List.replicate p.n 0, m)
    let (rest, m) := m.bulkRead core ps
    (bs ++ rest, m)
/-- The virtual address of a poisoned line among what a range reads (R378). -/
def bulkPoison (m : Mach) (ps : List Part) : Option Nat :=
  ps.findSome? (fun p => match p.tr with
    | .ok pa _ => ((linesOf pa p.n).find? m.poison.contains).map (fun l => p.va + (l * 128 - pa))
    | _ => none)
/-- Write a translated range. -/
def Mach.bulkWrite (m : Mach) (core : Nat) : List Part → List Byte → Mach
  | [], _ => m
  | p :: ps, bs =>
    let m := match p.tr with
      | .ok pa _ => ((linesOf pa p.n).foldl (fun (m : Mach) l => (m.dropLine core l).countLine core (l * 128)) m).l2Write pa (bs.take p.n)
      | .remote d pa _ => m.remoteStore d pa (bs.take p.n)
      | _ => m
    m.bulkWrite core ps (bs.drop p.n)

/-! ## Ranges as a thread's access: tiles, records, version words -/

/-- The bytes of translated parts as the workgroup's threads read them. What a peer owes comes at once, as a value that nothing constrains
(log 23, log 32). -/
def Mach.readNow (m : Mach) (clk : Clock) (core slot : Nat) (a : Attr) (ps : List Part) : List Byte × Mach :=
  ps.foldl (fun (s : List Byte × Mach) p =>
    let (xs, m) := s.2.loadPart clk core slot a p
    xs.foldl (fun (s : List Byte × Mach) x => match x with
      | .got bs => (s.1 ++ bs, s.2)
      | .owed n => let (bs, m) := s.2.freeBytes n; (s.1 ++ bs, m)) (s.1, m)) ([], m)
/-- Store bytes to translated parts in turn, as a thread's store of the workgroup. -/
def Mach.storeNow (m : Mach) (clk : Clock) (core slot : Nat) (a : Attr) (ps : List Part) (bs : List Byte) : Mach :=
  (ps.foldl (fun (s : Mach × List Byte) p => (s.1.storePart clk core slot a p (s.2.take p.n), s.2.drop p.n)) (m, bs)).1
/-- Order and scope of a tile's payload at memory: a plain one allocates no L1 line, as a non-temporal access does (log 5). -/
def tileAttr (o : Ord) (scope : Nat) : Attr := if o = .plain then ⟨.plain, 1⟩ else ⟨o, scope⟩

end Sys2Proof.Machine
end

