-- ==== Sys2Proof/Machine/Fetch.lean ====
section
/-! DEFINITION. Fetching an instruction (R14, R17, R238, R239, R377): one 64-bit word at a time through `Translate` with kind
execute, from the core's instruction cache where it holds the word, else from memory (log 6). -/
namespace Sys2Proof.Machine

/-- What a fetch of one word answers; a refusal with its cause: 5, or 4 for a device that no path reaches (R377, R423). -/
inductive FetchRes where
  | word (w : Nat)
  | missing
  | refused (cause : Nat)
  | poisoned (pa : Nat)
  deriving DecidableEq, Repr

/-- Fetch the 64-bit word at `va`; a word read from memory stays in the instruction cache until an `icinv` covers it. -/
def Mach.fetch64 (m : Mach) (core vf va : Nat) : FetchRes × Mach :=
  let (t, m) := m.coreTranslate core vf va .execute
  match t with
  | .ok pa _ =>
    match tget (m.core core).icache (pa / 8) with
    | some w => (.word w, m)
    | none =>
      if m.poison.contains (lineOf pa) then (.poisoned va, m)
      else
        let w := leNat (Memory.readN m.mem pa 8)
        (.word w, m.modCore core (fun c => { c with icache := tset c.icache (pa / 8) w }))
  | .remote d pa _ =>
    if d = m.devnum then (.word (leNat (HostMem.readN m.host pa 8)), m)
    else if m.unreachable d then (.refused 4, m)
    else let (x, m) := m.free; (.word (x % 2 ^ 64), m)
  | .zeroData => (.word 0, m)
  | .noTranslation | .discarded => (.missing, m)
  | .violation | .channelPage => (.refused 5, m)

/-- An instruction as fetched: its word, and its extension word when it calls for one. -/
inductive FetchInstr where
  | ok (w : Nat) (ext : Option Nat)
  | missing (va : Nat)
  | refused (va cause : Nat)
  | poisoned (va : Nat)
  deriving DecidableEq, Repr
def Mach.fetchInstr (m : Mach) (core vf : Nat) (pc : Addr) : FetchInstr × Mach :=
  let va := pc.toNat
  match m.fetch64 core vf va with
  | (.missing, m) => (.missing va, m)
  | (.refused c, m) => (.refused va c, m)
  | (.poisoned a, m) => (.poisoned a, m)
  | (.word w, m) =>
    if needsExt w then
      let vx := (va + 8) % 2 ^ 80
      match m.fetch64 core vf vx with
      | (.missing, m) => (.missing vx, m)
      | (.refused c, m) => (.refused vx c, m)
      | (.poisoned a, m) => (.poisoned a, m)
      | (.word x, m) => (.ok w (some x), m)
    else (.ok w none, m)
/-- Has the instruction at `pc` an extension word? -/
def Mach.longAt (m : Mach) (core vf : Nat) (pc : Addr) : Bool :=
  match (m.fetch64 core vf pc.toNat).1 with | .word w => needsExt w | _ => false

/-- The address `n` instructions after `pc`, or the fetch that fails on the way. -/
def Mach.slotWalk (m : Mach) (core vf : Nat) (pc : Addr) : Nat → Except FetchInstr Addr
  | 0 => .ok pc
  | n + 1 =>
    match (m.fetch64 core vf pc.toNat).1 with
    | .word w => m.slotWalk core vf (pc + (if needsExt w then 16 else 8)) n
    | .missing => .error (.missing pc.toNat)
    | .refused c => .error (.refused pc.toNat c)
    | .poisoned a => .error (.poisoned a)

end Sys2Proof.Machine
end

