-- ==== Sys2Proof/Machine/Run.lean ====
section
/-! DEFINITION. Running a register operation: the mapped channel registers (R271) and `Ctx.run`. -/
namespace Sys2Proof.Machine

/-! ## Mapped registers (R271) -/

/-- The endpoint of the workgroup mapped to one of these registers: q register, binding. -/
def Wg.mappedTo (w : Wg) (reader : Bool) (rs : List Nat) : List (Nat × QBind) :=
  ((w.qs.mapIdx (fun i b => (i, b))).filterMap (fun e =>
    match e.2 with
    | some b => if b.reader == reader then (match b.map with | some v => if rs.contains v then some (e.1, b) else none | none => none) else none
    | none => none))

/-- How the mapped registers of an instruction stand: it may go; it must wait on a q register (true: blocked, not a refill
wait); or it traps. -/
inductive MapState where
  | go
  | wait (q : Nat) (send : Bool) (blocked : Bool)
  | trap
  deriving DecidableEq, Repr

/-- The element bytes of one lane's 32-bit value, and back. -/
def word32 (x : V32) : List Byte := leBytes 4 x.toNat
def ofWord32 (bs : List Byte) : V32 := BitVec.ofNat 32 (leNat bs)

/-- All mapped endpoints of the instruction can proceed for `m` active lanes (R271, R277, R278). -/
def mapState (mm : Mach) (vf : Nat) (pops pushes : List (Nat × QBind)) (n : Nat) : MapState :=
  let bad := pushes.any (fun e => match mm.chan? vf e.2.chan with | some c => c.state == 3 | none => true)
  if bad then .trap
  else
    match pops.findSome? (fun e => match mm.chan? vf e.2.chan with
        | some c => (match c.popState n with | .go _ => none | .refill => some (e.1, false) | .block => some (e.1, true))
        | none => none) with
    | some (q, b) => .wait q false b
    | none =>
      match pushes.findSome? (fun e => match mm.chan? vf e.2.chan with
          | some c => if n ≤ c.free then none else some e.1
          | none => none) with
      | some q => .wait q true true
      | none => .go

/-- The elements a pop by a mapped register takes. -/
def mapTakes (mm : Mach) (vf n : Nat) (e : Nat × QBind) : Nat :=
  match mm.chan? vf e.2.chan with
  | none => 0
  | some c => match c.popState n with | .go k => k | _ => 0
/-- The scope of the release or acquire on these endpoints: device, or system where one is cross-device (R275). -/
def chanScope (mm : Mach) (vf : Nat) (es : List (Nat × QBind)) : Nat :=
  if es.any (fun e => match mm.chan? vf e.2.chan with | some c => c.x | none => false) then 6 else 5
/-- Pop one element per active lane into the mapped register; lanes beyond the elements that remain read 0 (R271, R278). -/
def popMapped (mm : Mach) (clk : Clock) (vf core : Nat) (lanes : List Lane) (e : Nat × QBind) : List Lane × Mach :=
  match mm.chan? vf e.2.chan with
  | none => (lanes, mm)
  | some c =>
    let k := mapTakes mm vf lanes.length e
    let (xs, mm) := mm.dequeueN vf e.2.chan k
    let mm := if c.state == 3 && c.avail == 0 then mm.logErr clk vf 6 1 0 core e.2.chan 0 else mm
    let r := e.2.map.getD 0
    ((lanes.mapIdx (fun i l => (l.1, l.2.setV r (match xs[i]? with | some bs => ofWord32 bs | none => 0)))), mm)

/-- RUN A REGISTER OPERATION on the active lanes of the issue group (R82, R91): every lane reads before any writes. Where a
source or a result names a mapped register, the instruction waits for its channels, pops before it executes and pushes after
(R271). -/
def Ctx.run (c : Ctx) (clk : Clock) (op : RegOp) : Mach :=
  let pops := c.wg.mappedTo true op.src
  let pushes := c.wg.mappedTo false op.dst
  let lanes : List Lane := c.act.map (fun i => (i, c.wg.thread i))
  let write (m : Mach) (lanes : List Lane) : Mach :=
    m.atWg c (fun w =>
      { w with threads := w.threads.mapIdx (fun i t =>
          match lanes.find? (fun l => l.1 == i) with
          | some l => ((op.upd lanes l).apply l.2).advance c.len
          | none => if c.ig.threads.contains i then t.advance c.len else t) })
  let qs := (pops ++ pushes).map (·.1)
  let wait (m : Mach) (q : Nat) (send : Bool) : Mach := c.wait clk m c.act (.chan q send c.act.length (qs.filter (· ≠ q)))
  if pops.isEmpty && pushes.isEmpty then write c.m lanes
  else
    match mapState c.m c.vf pops pushes c.act.length with
    | .trap => c.badHandle clk c.m 4
    | .wait q send blocked =>
      if c.act.isEmpty then c.retire c.m
      else wait (if blocked then (match c.wg.q q with | some b => c.m.setB c.vf b.chan (!send) true | none => c.m) else c.m) q send
    | .go =>
      if c.act.isEmpty then c.retire c.m
      else if c.behind qs then wait c.m (qs.headD 0) pops.isEmpty
      else
        let go : Mach :=
          let m := if pushes.isEmpty && pops.all (fun e => mapTakes c.m c.vf c.act.length e == 0) then c.m else c.m.seal clk c.core c.slot 2
          let m := if pushes.isEmpty then m else m.release clk c.core c.slot (chanScope c.m c.vf pushes)
          let (lanes, m) := pops.foldl (fun (s : List Lane × Mach) e => popMapped s.2 clk c.vf c.core s.1 e) (lanes, m)
          let m := if pops.isEmpty then m else m.acquire c.core (chanScope c.m c.vf pops)
          let m := write m lanes
          let w := c.wgIn m
          pushes.foldl (fun m e =>
            m.enqueueL clk c.vf e.2.chan (c.act.map (fun i => word32 ((w.thread i).getV (e.2.map.getD 0))))) m
        if pushes.isEmpty then go else c.afterHeld clk go

/-- Run a register operation as a program instruction. -/
def State.reg (s : State) (op : RegOp) : Host.Outcome State Fault Refusal := s.group (fun clk c => c.run clk op)

end Sys2Proof.Machine
end

