-- ==== Sys2Proof/Machine/Tiles.lean ====
section
/-! DEFINITION. Tiles (R204 to R207, R231, R232, R256 to R265): naming one, the group L instructions, and the events that end a fill,
a drain, a version-word wait and a rotation. -/
namespace Sys2Proof.Machine

def Wg.tile (w : Wg) (t : Nat) : Tile := w.tiles.getD t {}
def Wg.setTile (w : Wg) (t : Nat) (x : Tile) : Wg := { w with tiles := setAt w.tiles t x }
def Mach.setTile (m : Mach) (core slot t : Nat) (x : Tile) : Mach := m.modWg core slot (fun w => w.setTile t x)
def Tile.bytes (t : Tile) : Nat := t.size * 128
def Tile.off (t : Tile) : Nat := t.base * 128
/-- The scoreboard holds what names the tile: it is filling or draining, or a queued command has it (R205, R257). -/
def Tile.busy (t : Tile) : Bool :=
  t.state == .filling || t.state == .draining || (match t.job with | some (.command _) => true | _ => false)
def TileState.code : TileState → Nat | .empty => 0 | .filling => 1 | .ready => 2 | .draining => 3
/-- Bits [63:0] of the entry (R204). -/
def Tile.word (t : Tile) : Nat :=
  pack [(2, t.state.code), (1, 0), (1, bit t.m), (1, bit t.d), (3, 0), (12, t.size - 1), (12, t.base)]
/-- The fill is complete (R205). -/
def Tile.filled (t : Tile) : Tile :=
  { t with state := .ready, version := t.version + 1, d := false, job := none, fault := false }
/-- An engine leaves a trap for the next instruction that names the tile (R371). -/
def Tile.fail (t : Tile) (cause addr info : Nat) : Tile :=
  { t with job := some .failed, fault := false, trap := some { cause, addr, info } }

/-- Raise a deferred trap: the tile is ready again, its contents and version as they stand (R371). -/
def Ctx.deferredTile (c : Ctx) (clk : Clock) (t : Nat) (x : Tile) (d : Deferred) : Mach :=
  let m := c.m.setTile c.core c.slot t { x with state := .ready, job := none, fault := false, trap := none }
  let trap (m : Mach) : Mach := c.trapAct clk m d.cause d.info (BitVec.ofNat 80 d.addr)
  if d.cause = 12 then m.consume clk c.core c.slot d.addr trap else trap m

/-- A handle in the header's grant, and not an empty unmapped tile (R205, R257): cause 0x06 whatever the guard. -/
def Ctx.tileHandle (c : Ctx) (clk : Clock) (t : Nat) (k : Tile → Mach) : Mach :=
  if c.wg.hdr.tiles ≤ t then c.badHandle clk c.m 1
  else if (c.wg.tile t).state = .empty ∧ (c.wg.tile t).m = false then c.badHandle clk c.m 1
  else k (c.wg.tile t)
/-- Wait until a named tile is ready (R205): a deferred trap is raised, a filling or draining tile is waited for, the first touch
of an empty mapped tile starts its fill. -/
def Ctx.tileReady (c : Ctx) (clk : Clock) (t : Nat) (k : Tile → Mach) : Mach :=
  let x := c.wg.tile t
  match x.trap with
  | some d => c.deferredTile clk t x d
  | none =>
    if x.busy then c.hold clk c.m (.tile t)
    else if x.state = .empty then
      c.hold clk (c.m.setTile c.core c.slot t { x with state := .filling, job := some .touch }) (.tile t)
    else k x
/-- A tile instruction with no active lane: the scoreboard holds it too while a tile it names is filling or draining (R205), and it has
no effect (R91). A trap left in the tile stays for an instruction that acts. -/
def Ctx.tileSkip (c : Ctx) (clk : Clock) (ts : List Nat) : Mach :=
  match ts.find? (fun t => (c.wg.tile t).busy && (c.wg.tile t).trap.isNone) with
  | some t => c.hold clk c.m (.tile t)
  | none => c.retire c.m
/-- A tile instruction with nothing to check before the wait. -/
def Ctx.withTile (c : Ctx) (clk : Clock) (t : Nat) (k : Tile → Mach) : Mach :=
  c.tileHandle clk t (fun _ => if c.act.isEmpty then c.tileSkip clk [t] else c.tileReady clk t k)

/-! ## Group L -/

def tdefRun (t b s : Nat) (clk : Clock) (c : Ctx) : Mach :=
  if c.wg.hdr.tiles ≤ t then c.badHandle clk c.m 1
  else
    let x := c.wg.tile t
    if x.state ≠ .empty || x.m then c.badHandle clk c.m 1
    else if c.act.isEmpty then c.retire c.m
    else
      let kb := c.leadK b
      let ks := c.leadK s
      let trap (m : Mach) (cause o : Nat) : Mach := c.trapAct clk m cause c.leaderT.lane (BitVec.ofNat 80 o)
      if kb % 128 ≠ 0 then trap c.m 3 kb
      else if ks % 128 ≠ 0 || ks = 0 then trap c.m 3 ks
      else if c.wg.scratchBytes < kb + ks then
        trap (c.m.logErr clk c.vf 1 5 c.leaderT.lane c.core (c.leaderT.wid % 4294967296) kb) 5 kb
      else
        c.retire (c.m.setTile c.core c.slot t { x with state := .ready, base := kb / 128, size := ks / 128, d := false })

/-- Wait out a fill or drain, for the two instructions that proceed on an empty mapped tile. -/
def Ctx.tileIdle (c : Ctx) (clk : Clock) (t : Nat) (k : Tile → Mach) : Mach :=
  let x := c.wg.tile t
  match x.trap with
  | some d => c.deferredTile clk t x d
  | none => if x.busy then c.hold clk c.m (.tile t) else k x

def tfreeRun (t : Nat) (clk : Clock) (c : Ctx) : Mach :=
  c.tileHandle clk t (fun _ =>
    if c.act.isEmpty then c.tileSkip clk [t]
    else c.tileIdle clk t (fun x => c.retire (c.m.setTile c.core c.slot t { x with state := .empty, m := false })))

/-- `tstate` and `tver`: they read a tile in any state. -/
def tileRead (f : Tile → Nat) (d t : Nat) (clk : Clock) (c : Ctx) : Mach :=
  if c.wg.hdr.tiles ≤ t then c.badHandle clk c.m 1
  else if c.act.isEmpty then c.retire c.m
  else
    let x := c.wg.tile t
    match x.trap with
    | some e => c.deferredTile clk t x e
    | none => c.retireK c.m d (f x)

/-- A transfer's whole group waits while one of its threads has a held operation that must come first (R400). -/
def Ctx.rangeLate (c : Ctx) (ordered : Bool) (accs : List Acc) : Bool :=
  !(c.heldLate ordered (c.act.flatMap (fun i => accs.map (fun a => { a with thread := i })))).isEmpty
/-- Check of a transfer between a ready tile and a range (R261), after the waits. -/
def Ctx.tileRange (c : Ctx) (clk : Clock) (t a : Nat) (o : Ord) (write : Bool) (k : Tile → List Part → Mach → Mach) : Mach :=
  c.withTile clk t (fun x =>
    let accs := c.rangeAccs (c.leadA a) x.bytes
    if c.rangeLate (o ≠ .plain) accs then c.hold clk c.m .held
    else c.checkedStop clk c.m 16 [if write then .write else .read] (bit write) 0 accs (k x))

/-- `tld` (R261): one load, performed at issue in its order and scope; the bytes reach the tile when its fill completes. -/
def tldRun (t a : Nat) (o : Ord) (scope : Nat) (clk : Clock) (c : Ctx) : Mach :=
  c.tileRange clk t a o false (fun x ps m =>
    let x : Tile := { x with state := .filling }
    match ps.findSome? (m.poisoned clk c.core (tileAttr o scope)) with
    | some va => c.retire (m.setTile c.core c.slot t (x.fail 12 va 5))
    | none =>
      let eff := (Attr.mk o scope).on ps
      let m := eff.before false m clk c.core c.slot
      let (bs, m) := m.readNow clk c.core c.slot (tileAttr o scope) ps
      c.retire ((eff.after true m c.core).setTile c.core c.slot t { x with job := some (.load bs) }))

/-- Store a region to translated parts, as one store of an order and a scope (R261, R265). -/
def Mach.tilePut (m : Mach) (clk : Clock) (core slot : Nat) (x : Tile) (o : Ord) (scope : Nat) (ps : List Part) : Mach :=
  let eff := (Attr.mk o scope).on ps
  let m := eff.before true m clk core slot
  let m := m.storeNow clk core slot (tileAttr o scope) ps (m.scratchRead core slot x.off x.bytes)
  eff.after false m core
/-- `tst` (R261): one store, performed at issue; the tile drains until TILE_DRAIN_COMPLETE. A poisoned word of the region is an engine's
error (R378). -/
def tstRun (t a : Nat) (o : Ord) (scope : Nat) (clk : Clock) (c : Ctx) : Mach :=
  c.tileRange clk t a o true (fun x ps m =>
    let x : Tile := { x with state := .draining }
    match m.scratchPoison c.core c.slot x.off x.bytes with
    | some off => c.retire (m.setTile c.core c.slot t (x.fail 12 off 2))
    | none => c.retire ((m.tilePut clk c.core c.slot x o scope ps).setTile c.core c.slot t { x with job := some .store }))

/-! ## Version words (R231, R262) -/

/-- Where a version word is: its part, or the fault or refusal met on the way. -/
def Mach.verPart (m : Mach) (core vf va : Nat) : Part × Mach :=
  let (tr, m) := m.transAll core vf va [.read, .write]
  ({ thread := 0, lane := 0, va, n := 8, tr }, m)
/-- A device-scope read of a version word; another device's is a value nothing constrains (log 23). -/
def Mach.verLoad (m : Mach) (clk : Clock) (core slot : Nat) (p : Part) : Nat × Mach :=
  let (bs, m) := m.readNow clk core slot ⟨.strong, 5⟩ [p]
  (leNat bs, m.acquire core 5)
/-- A device-scope write of it. -/
def Mach.verSet (m : Mach) (clk : Clock) (core slot : Nat) (p : Part) (v : Nat) : Mach := m.storePart clk core slot ⟨.strong, 5⟩ p (leBytes 8 v)
/-- May a writer take the version word (R231)? -/
def verFree (v : Nat) : Bool := !v.testBit 63 && v % 2 == 0
/-- A writer takes the word if it is free: the value taken. What the tile's interval has stored goes out first (R384). -/
def Mach.verTake (m : Mach) (clk : Clock) (core slot : Nat) (p : Part) : Option K64 × Mach :=
  let (v, m) := (m.release clk core slot 5).verLoad clk core slot p
  if verFree v then (some (BitVec.ofNat 64 v), m.verSet clk core slot p (v + 1)) else (none, m)

/-- Checks shared by `tst.aon` and `tldv` (R262): the range, then the version word, aligned and on an SO or RC page. -/
def Ctx.verChecked (c : Ctx) (clk : Clock) (t a v : Nat) (write : Bool) (k : Tile → Part → Mach → Mach) : Mach :=
  c.tileRange clk t a .acqRel write (fun x _ m =>
    let acc : Acc := { thread := c.act.headD 0, lane := c.leaderT.lane, va := c.leadA v, n := 8 }
    let (p, m) := m.verPart c.core c.vf acc.va
    if acc.va % 8 = 0 ∧ (p.tr = .channelPage ∨ p.uo = true) then
      ({ c, clk, replay := false } : MemRun).checkTrap m 5 acc.lane acc.va
    else
      c.checkedStop clk m 8 [.read, .write] 3 0 [acc] (fun _ m =>
        match m.poisoned clk c.core ⟨.strong, 5⟩ p with
        | some addr => m.consume clk c.core c.slot addr (fun m => c.trapAct clk m 12 4 (BitVec.ofNat 80 addr))
        | none => k x p m))

/-- `tst.aon`: the protocol needs what an interval has buffered performed, its own payload included, so it seals it (R384). -/
def tstAonRun (t a v : Nat) (clk : Clock) (c : Ctx) : Mach :=
  c.verChecked clk t a v true (fun x p m =>
    let (took, m) := (m.seal clk c.core c.slot 3).verTake clk c.core c.slot p
    c.retire (m.setTile c.core c.slot t
      { x with state := .draining,
               job := some (.storeAon (BitVec.ofNat 80 (c.leadA a)) (BitVec.ofNat 80 (c.leadA v)) c.act took) }))

def tldvRun (t a v : Nat) (clk : Clock) (c : Ctx) : Mach :=
  c.verChecked clk t a v false (fun x _ m =>
    c.retire (m.setTile c.core c.slot t
      { x with state := .filling,
               job := some (.loadVer (BitVec.ofNat 80 (c.leadA a)) (BitVec.ofNat 80 (c.leadA v)) c.act 0 none) }))

def tmapRun (t a : Nat) (clk : Clock) (c : Ctx) : Mach :=
  c.tileHandle clk t (fun x =>
    if x.m then c.badHandle clk c.m 1
    else if c.act.isEmpty then c.tileSkip clk [t]
    else
      c.tileIdle clk t (fun x =>
        let va := c.leadA a
        if va % 128 ≠ 0 then c.trapAct clk c.m 3 c.leaderT.lane (BitVec.ofNat 80 va)
        else c.retire (c.m.setTile c.core c.slot t { x with state := .empty, m := true, map := BitVec.ofNat 80 va })))

/-- A tile whose mapping has gone (R265): base and size are dropped, and no store stands after its write-back. -/
def Tile.unmapped (t : Tile) : Tile := { t with state := .empty, m := false, d := false, size := 0, base := 0, job := none, fault := false }
/-- `tunmap` (R265). The write-back is one store, performed at issue where the whole range translates; else it is performed once its faults
have been serviced (R206), and what its threads access later waits for it. -/
def tunmapRun (t : Nat) (o : Ord) (scope : Nat) (clk : Clock) (c : Ctx) : Mach :=
  c.tileHandle clk t (fun x =>
    if !x.m then c.badHandle clk c.m 1
    else if c.act.isEmpty then c.tileSkip clk [t]
    else
      c.tileIdle clk t (fun x =>
        if x.state ≠ .ready ∨ x.d = false then c.retire (c.m.setTile c.core c.slot t x.unmapped)
        else if c.rangeLate (o ≠ .plain) (c.rangeAccs x.map.toNat x.bytes) then c.hold clk c.m .held
        else
          let x : Tile := { x with state := .draining }
          let (ps, m) := c.m.bulkTrans c.core c.vf .write (spansOf x.map.toNat x.bytes)
          match bulkRes m ps, m.scratchPoison c.core c.slot x.off x.bytes with
          | .ok, none => c.retire ((m.tilePut clk c.core c.slot x o scope ps).setTile c.core c.slot t { x with job := some (.unmap c.act o scope true) })
          | _, _ => c.retire (m.setTile c.core c.slot t { x with job := some (.unmap c.act o scope false) })))

/-! ## Rotation (R207, R263) -/

/-- The block a cluster-span group belongs to, and whether the launch still has a member of it that can issue. -/
def Mach.blockGone (m : Mach) (vf launch g : Nat) : Bool :=
  match (m.fn vf).launches.find? (·.id == launch) with
  | none => true
  | some l => l.killed || l.ended.any (fun h => h / 16 == g / 16) ||
      m.wgs.any (fun e => e.2.vf == vf && e.2.launch == launch && e.2.g / 16 == g / 16 && e.2.ending)
/-- The group of a workgroup that waits in a rotation of the tile: the one that issued first (R257). -/
def Wg.rotating (w : Wg) (t : Nat) (rev : Bool) : List Nat :=
  let waits := (upFrom 0 w.threads.length).filter (fun i => (w.thread i).status == .waiting (.rotation t rev))
  let seq (i : Nat) : Nat := match (w.thread i).since with | some (n, _) => n | none => 0
  match waits with
  | [] => []
  | i :: is => let first := (is.map seq).foldl min (seq i); waits.filter (fun j => seq j == first)
/-- The resident workgroups of the block of group `g`, by ascending group: core, slot, workgroup. -/
def Mach.block (m : Mach) (vf launch g : Nat) : List (Nat × Nat × Wg) :=
  sortBy (fun e => e.2.2.g) ((m.wgs.filter (fun e => e.2.vf == vf && e.2.launch == launch && e.2.g / 16 == g / 16)).map
    (fun e => (e.1 / 64, e.1 % 64, e.2)))

/-- A tile can take part in a rotation: ready, and not mapped. -/
def Tile.turns (x : Tile) : Bool := x.state == .ready && !x.m && x.trap.isNone
/-- `trot`: the sixteenth issue starts the rotation of the block; the checks read no operand, so they trap every thread of a group (R370),
and the warp waits until it starts (R207). -/
def trotRun (rev : Bool) (t : Nat) (clk : Clock) (c : Ctx) : Mach :=
  c.tileHandle clk t (fun x =>
    if !c.wg.hdr.cspan || x.m then c.badHandle clk c.m 1
    else if c.act.isEmpty then c.tileSkip clk [t]
    else
      c.tileReady clk t (fun x =>
        let mine := c.wg.rotating t rev
        let others := (c.m.block c.vf c.wg.launch c.wg.g).filter (fun e => !(e.1 == c.core && e.2.1 == c.slot))
        if c.m.blockGone c.vf c.wg.launch c.wg.g then c.badHandle clk c.m 1
        else if !mine.isEmpty || others.length ≠ 15 || others.any (fun e => (e.2.2.rotating t rev).isEmpty || !(e.2.2.tile t).turns) then
          c.hold clk c.m (.rotation t rev)
        else if others.any (fun e => (e.2.2.tile t).size ≠ x.size) then
          let m := c.badHandle clk c.m 1
          others.foldl (fun m e =>
            let ts := e.2.2.rotating t rev
            m.takeTrap clk e.1 e.2.1 ts 6 1 (e.2.2.thread (ts.headD 0)).pc false) m
        else
          let job : TileJob := .rotate rev (clk.cycle + 24 + x.size)
          let m := others.foldl (fun m e =>
            m.modWg e.1 e.2.1 (fun w =>
              (w.modThreads (w.rotating t rev) (fun y => { y.advance 8 with status := .ready })).setTile t
                { (w.tile t) with state := .filling, job := some job })) c.m
          c.retire (m.setTile c.core c.slot t { x with state := .filling, job := some job })))

def execTdef (t b k : Nat) (s : State) : Host.Outcome State Fault Refusal := s.group (tdefRun t b k)
def execTfree (t : Nat) (s : State) : Host.Outcome State Fault Refusal := s.group (tfreeRun t)
def execTstate (d t : Nat) (s : State) : Host.Outcome State Fault Refusal := s.group (tileRead Tile.word d t)
def execTver (d t : Nat) (s : State) : Host.Outcome State Fault Refusal := s.group (tileRead (fun x => x.version.toNat) d t)
def execTld (t a : Nat) (o : Ord) (scope : Nat) (s : State) : Host.Outcome State Fault Refusal := s.group (tldRun t a o scope)
def execTst (t a : Nat) (o : Ord) (scope : Nat) (s : State) : Host.Outcome State Fault Refusal := s.group (tstRun t a o scope)
def execTstAon (t a v : Nat) (s : State) : Host.Outcome State Fault Refusal := s.group (tstAonRun t a v)
def execTldv (t a v : Nat) (s : State) : Host.Outcome State Fault Refusal := s.group (tldvRun t a v)
def execTrot (t : Nat) (s : State) : Host.Outcome State Fault Refusal := s.group (trotRun false t)
def execTrotRev (t : Nat) (s : State) : Host.Outcome State Fault Refusal := s.group (trotRun true t)
def execTmap (t a : Nat) (s : State) : Host.Outcome State Fault Refusal := s.group (tmapRun t a)
def execTunmap (t : Nat) (o : Ord) (scope : Nat) (s : State) : Host.Outcome State Fault Refusal := s.group (tunmapRun t o scope)

/-! ## Events -/

/-- A tile's fill or write-back meets a page with no translation (R206): one fault-queue entry of kind 7, and the job waits. Not yet
while the queue is full. -/
def Mach.tileFault (m : Mach) (clk : Clock) (core slot t : Nat) (w : Wg) (x : Tile) (va access : Nat) : Option Mach :=
  if !m.faultRoom w.vf 1 then none
  else
    some ((m.setTile core slot t { x with fault := true }).postFault clk w.vf
      { va, time := 0, core, slot, warp := 255, kind := 7, access, olog := 255, flags := bit w.hdr.ordered * 2, lanes := 0,
        wid := w.base, launch := w.hdr.addr, rec_ := w.started * 64 + t })

/-- A transfer of a tile that a range refuses: cause 5 is logged; a write-back at exit kills its launch (R206). -/
def Mach.tileRefused (m : Mach) (clk : Clock) (core slot t : Nat) (w : Wg) (x : Tile) (va cause : Nat) : Mach :=
  let m := if cause = 5 ∨ w.ending = true then m.logErr clk w.vf 1 cause (if cause = 5 then 255 else 0) core (w.base % 4294967296) va else m
  if w.ending then (m.setTile core slot t x.unmapped).killLaunch w.vf w.launch
  else m.setTile core slot t (x.fail cause va (if cause = 5 then 255 else 256 * 7))
/-- Fill a tile from memory, as a plain load of its workgroup's (R206). -/
def Mach.tileFill (m : Mach) (clk : Clock) (core slot t : Nat) (w : Wg) (x : Tile) (va : Nat) (after : Mach → Mach) : Option Mach :=
  let (ps, m) := m.bulkTrans core w.vf .read (spansOf va x.bytes)
  match bulkRes m ps with
  | .fault va _ => m.tileFault clk core slot t w x va 0
  | .refused va cause => some (m.tileRefused clk core slot t w x va cause)
  | .ok =>
    match ps.findSome? (m.poisoned clk core ⟨.plain, 1⟩) with
    | some va => some (m.setTile core slot t (x.fail 12 va 5))
    | none =>
      let (bs, m) := m.readNow clk core slot ⟨.plain, 1⟩ ps
      some (after ((m.scratchWrite core slot x.off bs).setTile core slot t x.filled))
/-- Write a tile to memory as one store of an order and a scope, then set the tile as `done` says. -/
def Mach.tileStore (m : Mach) (clk : Clock) (core slot t : Nat) (w : Wg) (x : Tile) (va : Nat) (o : Ord) (scope : Nat)
    (done : Mach → Mach) : Option Mach :=
  let (ps, m) := m.bulkTrans core w.vf .write (spansOf va x.bytes)
  match bulkRes m ps with
  | .fault va _ => m.tileFault clk core slot t w x va 1
  | .refused va cause => some (m.tileRefused clk core slot t w x va cause)
  | .ok =>
    match m.scratchPoison core slot x.off x.bytes with
    | some off => some (m.setTile core slot t (x.fail 12 off 2))
    | none => some (done (m.tilePut clk core slot x o scope ps))

/-- TILE_FILL_COMPLETE: the last byte of a `tld`, a first-touch fill or a `tldv` has arrived. A `tldv` reads the version word and the range
at one moment, so the word has not changed between its two loads of it. -/
def execTileFillComplete (core slot tile : Nat) (s : State) : Host.Outcome State Fault Refusal :=
  s.event (fun clk m => do
    let w ← m.wg? core slot
    let x := w.tile tile
    if x.state ≠ .filling || x.fault then none
    else
      match x.job with
      | some (.load bs) => some ((m.scratchWrite core slot x.off bs).setTile core slot tile x.filled)
      | some .touch => m.tileFill clk core slot tile w x x.map.toNat id
      | some (.loadVer a ver _ n none) =>
        let (p, m) := m.verPart core w.vf ver.toNat
        match bulkRes m [p] with
        | .fault va _ => m.tileFault clk core slot tile w x va 3
        | .refused va cause => some (m.tileRefused clk core slot tile w x va cause)
        | .ok =>
          let (v, m) := m.verLoad clk core slot p
          if v % 2 = 1 then none
          else m.tileFill clk core slot tile w x a.toNat (fun m => if 16 ≤ n then m.verSet clk core slot p (v % 2 ^ 63) else m)
      | _ => none)

/-- TILE_DRAIN_COMPLETE: the last byte of a `tst`, a `tst.aon` or a write-back has been read out. A writer of a version word writes its
payload and then the word, whose store releases it (R231). -/
def execTileDrainComplete (core slot tile : Nat) (s : State) : Host.Outcome State Fault Refusal :=
  s.event (fun clk m => do
    let w ← m.wg? core slot
    let x := w.tile tile
    if x.state ≠ .draining || x.fault then none
    else
      let ready : Tile := { x with state := .ready, version := x.version + 1, job := none }
      match x.job with
      | some .store => some (m.setTile core slot tile ready)
      | some (.unmap _ _ _ true) => some (m.setTile core slot tile x.unmapped)
      | some (.unmap _ o scope false) => m.tileStore clk core slot tile w x x.map.toNat o scope (·.setTile core slot tile x.unmapped)
      | some (.storeAon a ver _ (some v)) =>
        let (p, m) := m.verPart core w.vf ver.toNat
        match bulkRes m [p] with
        | .fault va _ => m.tileFault clk core slot tile w x va 3
        | .refused va cause => some (m.tileRefused clk core slot tile w x va cause)
        | .ok =>
          m.tileStore clk core slot tile w x a.toNat .plain 0 (fun m =>
            ((m.release clk core slot 5).verSet clk core slot p ((v.toNat % 2 ^ 63 + 2) % 2 ^ 63)).setTile core slot tile ready)
      | _ => none)

/-- VERSION_WORD_RETRY: a waiting writer takes a version word that has become free; a reader that found a write in progress waits
until the word changes, and from its sixteenth retry on holds off new writers (R231). -/
def execVersionWordRetry (core slot tile : Nat) (s : State) : Host.Outcome State Fault Refusal :=
  s.event (fun clk m => do
    let w ← m.wg? core slot
    let x := w.tile tile
    if x.fault then none
    else
      let run (ver : Addr) (k : Part → Mach → Option Mach) : Option Mach :=
        let (p, m) := m.verPart core w.vf ver.toNat
        match bulkRes m [p] with
        | .fault va _ => m.tileFault clk core slot tile w x va 3
        | .refused va cause => some (m.tileRefused clk core slot tile w x va cause)
        | .ok => k p m
      match x.job with
      | some (.storeAon a ver ts none) =>
        run ver (fun p m =>
          match m.verTake clk core slot p with
          | (some v, m) => some (m.setTile core slot tile { x with job := some (.storeAon a ver ts (some v)) })
          | (none, _) => none)
      | some (.loadVer a ver ts n seen) =>
        run ver (fun p m =>
          let (v, m) := m.verLoad clk core slot p
          match seen with
          | none =>
            if v % 2 = 1 then some (m.setTile core slot tile { x with job := some (.loadVer a ver ts n (some (BitVec.ofNat 64 v))) }) else none
          | some o =>
            if o.toNat = v then none
            else
              let m := if 16 ≤ n + 1 then m.verSet clk core slot p (v ||| 2 ^ 63) else m
              some (m.setTile core slot tile { x with job := some (.loadVer a ver ts (n + 1) none) }))
      | _ => none)

/-- TROT_COMPLETE: the rotation ends for all 16 workgroups of the block at once, at its cycle; every tile takes its neighbour's bytes. -/
def execTrotComplete (core slot tile : Nat) (s : State) : Host.Outcome State Fault Refusal :=
  s.event (fun clk m => do
    let w ← m.wg? core slot
    match (w.tile tile).job with
    | some (.rotate rev until_) =>
      if clk.cycle < until_ then none
      else
        let block := m.block w.vf w.launch w.g
        let old := block.map (fun e => (e.2.2.g % 16, m.scratchRead e.1 e.2.1 (e.2.2.tile tile).off (e.2.2.tile tile).bytes))
        some (block.foldl (fun m e =>
          let from_ := if rev then (e.2.2.g + 1) % 16 else (e.2.2.g + 15) % 16
          match old.find? (fun o => o.1 == from_) with
          | some o => (m.scratchWrite e.1 e.2.1 (e.2.2.tile tile).off o.2).setTile e.1 e.2.1 tile (e.2.2.tile tile).filled
          | none => m) m)
    | _ => none)

end Sys2Proof.Machine
end

