-- ==== Sys2Proof/Machine/Channels.lean ====
section
/-! DEFINITION. Group O (R276 to R284): binding, sending, receiving, closing and reading channels. -/
namespace Sys2Proof.Machine

/-! ## Endpoints -/

/-- The threads that wait on a q register. -/
def Wg.waitsOn (w : Wg) (q : Nat) : List Nat :=
  (upFrom 0 w.threads.length).filter (fun i => match (w.thread i).status with | .waiting (.chan r _ _ also) => r == q || also.contains q | _ => false)
/-- Instructions blocked on an endpoint that is closed or unbound beneath them raise cause 0x06, each at its own PC (R280, R281). -/
def Mach.trapWaiters (m : Mach) (clk : Clock) (core slot q : Nat) : Mach :=
  match m.wg? core slot with
  | none => m
  | some w =>
    let ts := w.waitsOn q
    (ts.map (fun i => (w.thread i).pc)).eraseDups.foldl (fun m pc =>
      m.takeTrap clk core slot (ts.filter (fun i => (w.thread i).pc == pc)) 6 4 pc (m.longAt core w.vf pc)) m
/-- Clear one endpoint of a channel in the table. -/
def Chan.unbindEnd (c : Chan) (reader : Bool) : Chan :=
  if reader then { c with rbind := none, rB := false, rP := false } else { c with wbind := none, wB := false, wP := false }
/-- Take a q register's binding away. -/
def Mach.dropBinding (m : Mach) (core slot vf q : Nat) (b : QBind) : Mach :=
  (m.modChan vf b.chan (·.unbindEnd b.reader)).modWg core slot (fun w => { w with qs := setAt w.qs q none })
/-- `Close` (R280): the channel is closed and its writer unbound; a peer device's reader is told (log 23). -/
def Mach.closeChan (m : Mach) (vf ch : Nat) : Mach :=
  match m.chan? vf ch with
  | none => m
  | some c =>
    let m := m.setChan vf ch { c with state := 2 }
    if c.x then m.send c.peer (leBytes 1 1 ++ leBytes 2 vf ++ leBytes 2 ch) else m

/-- The checks of R277 that need no operand value: a bound q register of the right kind, the element form, and a channel that is not
broken for a send. -/
def Ctx.endpoint (c : Ctx) (clk : Clock) (q : Nat) (reader : Option Bool) (tileForm : Option Bool) (sends : Bool)
    (k : QBind → Chan → Mach) : Mach :=
  if c.wg.hdr.qregs ≤ q then c.badHandle clk c.m 4
  else
    match c.wg.q q with
    | none => c.badHandle clk c.m 4
    | some b =>
      match c.m.chan? c.vf b.chan with
      | none => c.badHandle clk c.m 4
      | some ch =>
        if (match reader with | some r => r != b.reader | none => false) || (match tileForm with | some t => t != ch.t | none => false) ||
            (sends && ch.state == 3) then c.badHandle clk c.m 4
        else k b ch
/-- Wait on a channel; a blocked endpoint sets B, a refill wait does not (R273, R274). -/
def Ctx.waitChan (c : Ctx) (clk : Clock) (m : Mach) (q : Nat) (b : QBind) (send blocked : Bool) (n : Nat) : Mach :=
  c.wait clk (if blocked then m.setB c.vf b.chan (!send) true else m) c.act (.chan q send n)
/-- The element a lane's registers hold (R278). -/
def Thread.element (th : Thread) (r esize : Nat) : List Byte := ((upFrom r (esize / 4)).map (fun i => leBytes 4 (th.getV i).toNat)).flatten
def Thread.putElement (th : Thread) (r esize : Nat) (bs : List Byte) : Thread :=
  ((words32 bs).mapIdx (fun i x => (r + i, x))).foldl (fun t e => if e.1 < r + esize / 4 then t.setV e.1 e.2 else t) th

/-! ## Send and receive (R278) -/

/-- The push of every active lane's element. -/
def Ctx.sendNow (c : Ctx) (clk : Clock) (v : Nat) (b : QBind) (ch : Chan) (after : Thread → Thread) : Mach :=
  let m := (c.m.seal clk c.core c.slot 2).release clk c.core c.slot (if ch.x then 6 else 5)
  let m := m.enqueueL clk c.vf b.chan (c.act.map (fun i => (c.wg.thread i).element v ch.esize))
  c.retireWith m after
/-- The pop: the first `k` active lanes receive, the others read 0. -/
def Ctx.recvNow (c : Ctx) (clk : Clock) (v k : Nat) (b : QBind) (ch : Chan) (p : Option Nat) : Mach :=
  let m := if k = 0 then c.m else c.m.seal clk c.core c.slot 2
  let m := if ch.state = 3 ∧ ch.avail = 0 then m.logErr clk c.vf 6 1 0 c.core b.chan 0 else m
  let (xs, m) := m.dequeueN c.vf b.chan k
  let m := m.acquire c.core (if ch.x then 6 else 5)
  let put (t : Thread) (j : Option Nat) : Thread :=
    let bs := match j with | some j => xs.getD j [] | none => []
    let t := t.putElement v ch.esize (bs ++ List.replicate (ch.esize - bs.length) 0)
    match p with | some p => t.setP p (decide (j.getD k < k)) | none => t
  let m := m.atWg c (fun w => { w with threads := w.threads.mapIdx (fun i t =>
    match c.act.findIdx? (· == i) with | some j => put t (some j) | none => t) })
  c.retire m

/-- A span of a lane's element below the allocation (R277). -/
def Ctx.elementSpan (c : Ctx) (v esize : Nat) : Bool := v + esize / 4 ≤ c.wg.alloc

def chSendRun (q v : Nat) (clk : Clock) (c : Ctx) : Mach :=
  c.endpoint clk q (some false) (some false) true (fun b ch =>
    if !c.elementSpan v ch.esize then c.illegal clk c.m
    else if c.act.isEmpty then c.retire c.m
    else if ch.free < c.act.length then c.waitChan clk c.m q b true true c.act.length
    else if c.behind [q] then c.waitChan clk c.m q b true false c.act.length
    else c.afterHeld clk (c.sendNow clk v b ch id))
def chRecvRun (q v : Nat) (p : Option Nat) (clk : Clock) (c : Ctx) : Mach :=
  c.endpoint clk q (some true) (some false) false (fun b ch =>
    if !c.elementSpan v ch.esize then c.illegal clk c.m
    else if c.act.isEmpty then c.retire c.m
    else
      match ch.popState c.act.length with
      | .go k => if c.behind [q] then c.waitChan clk c.m q b false false c.act.length else c.recvNow clk v k b ch p
      | .refill => c.waitChan clk c.m q b false false c.act.length
      | .block => c.waitChan clk c.m q b false true c.act.length)
def chTryRecvRun (q v p : Nat) (clk : Clock) (c : Ctx) : Mach :=
  c.endpoint clk q (some true) (some false) false (fun b ch =>
    if !c.elementSpan v ch.esize then c.illegal clk c.m
    else if c.act.isEmpty then c.retire c.m
    else if ch.avail < c.act.length || c.behind [q] then c.retireWith c.m (fun t => t.setP p false)
    else
      match ch.popState c.act.length with
      | .go k => c.recvNow clk v k b ch (some p)
      | _ => c.waitChan clk c.m q b false false c.act.length)
def chTrySendRun (q v p : Nat) (clk : Clock) (c : Ctx) : Mach :=
  c.endpoint clk q (some false) (some false) true (fun b ch =>
    if !c.elementSpan v ch.esize then c.illegal clk c.m
    else if c.act.isEmpty then c.retire c.m
    else if ch.free < c.act.length || c.behind [q] then c.retireWith c.m (fun t => t.setP p false)
    else c.afterHeld clk (c.sendNow clk v b ch (fun t => t.setP p true)))

/-! ## Whole tiles (R279) -/

/-- The tile checks of R277: M = 0 and a region of the element's size. -/
def Ctx.elementTile (c : Ctx) (clk : Clock) (t esize : Nat) (k : Mach) : Mach :=
  c.tileHandle clk t (fun x => if x.m || x.bytes ≠ esize then c.badHandle clk c.m 1 else k)

def chSendtRun (q t : Nat) (clk : Clock) (c : Ctx) : Mach :=
  c.endpoint clk q (some false) (some true) true (fun b ch =>
    c.elementTile clk t ch.esize (
      if c.act.isEmpty then c.tileSkip clk [t]
      else c.tileReady clk t (fun x =>
        if ch.free < 1 then c.waitChan clk c.m q b true true 1
        else if c.behind [q] then c.waitChan clk c.m q b true false 1
        else c.afterHeld clk (
          let m := (c.m.seal clk c.core c.slot 2).release clk c.core c.slot (if ch.x then 6 else 5)
          c.retire (m.enqueue clk c.vf b.chan (m.scratchRead c.core c.slot x.off x.bytes))))))
def chRecvtRun (q t : Nat) (p : Option Nat) (clk : Clock) (c : Ctx) : Mach :=
  c.endpoint clk q (some true) (some true) false (fun b ch =>
    c.elementTile clk t ch.esize (
      if c.act.isEmpty then c.tileSkip clk [t]
      else c.tileReady clk t (fun x =>
        let done (m : Mach) (ok : Bool) : Mach :=
          c.retireWith m (fun y => match p with | some p => y.setP p ok | none => y)
        match ch.popState 1 with
        | .block => c.waitChan clk c.m q b false true 1
        | .refill => c.waitChan clk c.m q b false false 1
        | .go k =>
          if c.behind [q] then c.waitChan clk c.m q b false false 1
          else if k = 0 then
            done ((if ch.state = 3 then c.m.logErr clk c.vf 6 1 0 c.core b.chan 0 else c.m).acquire c.core (if ch.x then 6 else 5)) false
          else
          let (bs, m) := (c.m.seal clk c.core c.slot 2).dequeue c.vf b.chan
          let m := (m.acquire c.core (if ch.x then 6 else 5)).scratchWrite c.core c.slot x.off bs
          done (m.setTile c.core c.slot t x.filled) true)))

/-! ## Binding, closing, reading -/

def chCloseRun (q : Nat) (clk : Clock) (c : Ctx) : Mach :=
  c.endpoint clk q (some false) none false (fun b ch =>
    if c.act.isEmpty then c.retire c.m
    else
      c.afterHeld clk (
      let m := (c.m.seal clk c.core c.slot 2).release clk c.core c.slot (if ch.x then 6 else 5)
      let m := (c.retire (m.closeChan c.vf b.chan)).trapWaiters clk c.core c.slot q
      m.dropBinding c.core c.slot c.vf q b))
def chUnbindRun (q : Nat) (clk : Clock) (c : Ctx) : Mach :=
  c.endpoint clk q none none false (fun b _ =>
    if c.act.isEmpty then c.retire c.m
    else ((c.retire c.m).trapWaiters clk c.core c.slot q).dropBinding c.core c.slot c.vf q b)

/-- Is `v` mapped by a q register of the workgroup? -/
def Wg.isMapped (w : Wg) (v : Nat) : Bool := w.qs.any (fun b => match b with | some b => b.map == some v | none => false)
def chBindRun (reader : Bool) (q k : Nat) (map : Option Nat) (clk : Clock) (c : Ctx) : Mach :=
  if c.wg.hdr.qregs ≤ q then c.badHandle clk c.m 4
  else if (c.wg.q q).isSome then c.badHandle clk c.m 4
  else if c.act.isEmpty then c.retire c.m
  else
    let n := c.leadK k
    match (if n < 4096 then c.m.chan? c.vf n else none) with
    | none => c.badValue clk c.m 4
    | some ch =>
      let bound := if reader then ch.rbind.isSome else ch.wbind.isSome
      let badMap := match map with | some v => ch.t || ch.esize ≠ 4 || c.wg.isMapped v | none => false
      if bound || (!reader && ch.state ≠ 1) || badMap then c.badValue clk c.m 4
      else
        let ch := if reader then { ch with rbind := some (c.core, c.slot, q) } else { ch with wbind := some (c.core, c.slot, q) }
        let m := c.m.setChan c.vf n ch
        c.retire (m.atWg c (fun w => { w with qs := setAt w.qs q (some { chan := n, reader, map }) }))

/-- The config word (R268). -/
def Chan.config (c : Chan) : Nat :=
  pack [(15, 0), (3, c.home), (5, c.scur), (5, c.smax), (4, c.bob), (16, c.esize - 1), (1, 0), (11, c.peer), (1, bit c.x), (1, bit c.t),
    (2, c.state)]
/-- A binding word (R269). -/
def bindWord (b : Option (Nat × Nat × Nat)) (blocked parked : Bool) : Nat :=
  match b with
  | none => 0
  | some (core, slot, q) => pack [(3, 0), (3, q), (7, slot), (11, core), (5, 0), (1, bit parked), (1, bit blocked), (1, 1)]
/-- The values of `ch.stat` (R282). -/
def Chan.stat (c : Chan) (sel : Nat) : Nat :=
  match sel with
  | 0 => c.config
  | 1 => c.sent
  | 2 => c.recvd
  | 3 => (c.sent + 4294967296 - c.recvd) % 4294967296
  | 4 => c.spooled.length
  | 5 => c.growths
  | 6 => bindWord c.wbind c.wB c.wP
  | 7 => bindWord c.rbind c.rB c.rP
  | 8 => c.emptyns
  | 9 => c.fullns
  | 10 => spoolBytes c.scur
  | _ => spoolBytes c.smax
def chStatRun (d q sel : Nat) (clk : Clock) (c : Ctx) : Mach :=
  if c.wg.hdr.qregs ≤ q then c.badHandle clk c.m 4
  else
    match c.wg.q q with
    | none => c.badHandle clk c.m 4
    | some b => c.retireK c.m d (match c.m.chan? c.vf b.chan with | some ch => ch.stat sel | none => 0)
def chStatNumRun (d k sel : Nat) (_ : Clock) (c : Ctx) : Mach :=
  let n := c.leadK k
  c.retireK c.m d (match (if n < 4096 then c.m.chan? c.vf n else none) with | some ch => ch.stat sel | none => 0)

def execChBindW (q k : Nat) (map : Option Nat) (s : State) : Host.Outcome State Fault Refusal := s.group (chBindRun false q k map)
def execChBindR (q k : Nat) (map : Option Nat) (s : State) : Host.Outcome State Fault Refusal := s.group (chBindRun true q k map)
def execChUnbind (q : Nat) (s : State) : Host.Outcome State Fault Refusal := s.group (chUnbindRun q)
def execChSend (q v : Nat) (s : State) : Host.Outcome State Fault Refusal := s.group (chSendRun q v)
def execChRecv (q v : Nat) (p : Option Nat) (s : State) : Host.Outcome State Fault Refusal := s.group (chRecvRun q v p)
def execChTryRecv (q v p : Nat) (s : State) : Host.Outcome State Fault Refusal := s.group (chTryRecvRun q v p)
def execChTrySend (q v p : Nat) (s : State) : Host.Outcome State Fault Refusal := s.group (chTrySendRun q v p)
def execChSendt (q t : Nat) (s : State) : Host.Outcome State Fault Refusal := s.group (chSendtRun q t)
def execChRecvt (q t : Nat) (p : Option Nat) (s : State) : Host.Outcome State Fault Refusal := s.group (chRecvtRun q t p)
def execChClose (q : Nat) (s : State) : Host.Outcome State Fault Refusal := s.group (chCloseRun q)
def execChStat (d q sel : Nat) (s : State) : Host.Outcome State Fault Refusal := s.group (chStatRun d q sel)
def execChStatNum (d k sel : Nat) (s : State) : Host.Outcome State Fault Refusal := s.group (chStatNumRun d k sel)

end Sys2Proof.Machine
end

