-- ==== Sys2Proof/Machine/Crypto.lean ====
section
/-! DEFINITION. SHA-256 and ECDSA P-256 verification, as FIPS 180-4 and FIPS 186-4 define them: the spec names them (R344, R345, R451,
R457) and does not restate them (PRESUMED, log 8). -/
namespace Sys2Proof.Machine

/-! ## Bytes as numbers -/

/-- A big-endian number. -/
def beNat (bs : List Byte) : Nat := bs.foldl (fun n b => n * 256 + b.toNat) 0
/-- The `n` bytes of a number, big-endian. -/
def beBytes : Nat → Nat → List Byte
  | 0, _ => []
  | n + 1, x => BitVec.ofNat 8 (x / 256 ^ n) :: beBytes n x

/-! ## SHA-256 -/

/-- The round constants. -/
def shaK : List (BitVec 32) :=
  [0x428A2F98, 0x71374491, 0xB5C0FBCF, 0xE9B5DBA5, 0x3956C25B, 0x59F111F1, 0x923F82A4, 0xAB1C5ED5] ++
  [0xD807AA98, 0x12835B01, 0x243185BE, 0x550C7DC3, 0x72BE5D74, 0x80DEB1FE, 0x9BDC06A7, 0xC19BF174] ++
  [0xE49B69C1, 0xEFBE4786, 0x0FC19DC6, 0x240CA1CC, 0x2DE92C6F, 0x4A7484AA, 0x5CB0A9DC, 0x76F988DA] ++
  [0x983E5152, 0xA831C66D, 0xB00327C8, 0xBF597FC7, 0xC6E00BF3, 0xD5A79147, 0x06CA6351, 0x14292967] ++
  [0x27B70A85, 0x2E1B2138, 0x4D2C6DFC, 0x53380D13, 0x650A7354, 0x766A0ABB, 0x81C2C92E, 0x92722C85] ++
  [0xA2BFE8A1, 0xA81A664B, 0xC24B8B70, 0xC76C51A3, 0xD192E819, 0xD6990624, 0xF40E3585, 0x106AA070] ++
  [0x19A4C116, 0x1E376C08, 0x2748774C, 0x34B0BCB5, 0x391C0CB3, 0x4ED8AA4A, 0x5B9CCA4F, 0x682E6FF3] ++
  [0x748F82EE, 0x78A5636F, 0x84C87814, 0x8CC70208, 0x90BEFFFA, 0xA4506CEB, 0xBEF9A3F7, 0xC67178F2]
/-- The initial hash value. -/
def shaInit : List (BitVec 32) := [0x6A09E667, 0xBB67AE85, 0x3C6EF372, 0xA54FF53A, 0x510E527F, 0x9B05688C, 0x1F83D9AB, 0x5BE0CD19]
def rotr (x : BitVec 32) (n : Nat) : BitVec 32 := x >>> n ||| x <<< (32 - n)
/-- The message schedule, latest word first: sixteen words of the block, then 48 derived ones. -/
def shaSchedule : Nat → List (BitVec 32) → List (BitVec 32)
  | 0, w => w
  | n + 1, w =>
    let a := w.getD 1 0
    let b := w.getD 14 0
    let s0 := rotr b 7 ^^^ rotr b 18 ^^^ b >>> 3
    let s1 := rotr a 17 ^^^ rotr a 19 ^^^ a >>> 10
    shaSchedule n ((w.getD 15 0 + s0 + w.getD 6 0 + s1) :: w)
/-- One round on the eight working words. -/
def shaRound (h : List (BitVec 32)) (kw : BitVec 32 × BitVec 32) : List (BitVec 32) :=
  match h with
  | [a, b, c, d, e, f, g, x] =>
    let s1 := rotr e 6 ^^^ rotr e 11 ^^^ rotr e 25
    let ch := (e &&& f) ^^^ (~~~e &&& g)
    let t1 := x + s1 + ch + kw.1 + kw.2
    let s0 := rotr a 2 ^^^ rotr a 13 ^^^ rotr a 22
    let maj := (a &&& b) ^^^ (a &&& c) ^^^ (b &&& c)
    [t1 + (s0 + maj), a, b, c, d + t1, e, f, g]
  | h => h
/-- One 64-byte block. -/
def shaBlock (h : List (BitVec 32)) (block : List Byte) : List (BitVec 32) :=
  let words := (upFrom 0 16).map (fun i => BitVec.ofNat 32 (beNat ((block.drop (4 * i)).take 4)))
  let w := (shaSchedule 48 words.reverse).reverse
  (h.zip ((shaK.zip w).foldl shaRound h)).map (fun p => p.1 + p.2)
/-- The blocks of a padded message. -/
def shaBlocks : Nat → List (BitVec 32) → List Byte → List (BitVec 32)
  | 0, h, _ => h
  | n + 1, h, bs => shaBlocks n (shaBlock h (bs.take 64)) (bs.drop 64)
/-- The 32 bytes of the digest. -/
def sha256 (bs : List Byte) : List Byte :=
  let pad := bs ++ [0x80] ++ List.replicate ((119 - bs.length % 64) % 64) 0 ++ beBytes 8 (8 * bs.length)
  ((shaBlocks (pad.length / 64) shaInit pad).map (fun w => beBytes 4 w.toNat)).flatten

/-! ## P-256 -/

def p256p : Nat := 2 ^ 256 - 2 ^ 224 + 2 ^ 192 + 2 ^ 96 - 1
def p256n : Nat := 0xFFFFFFFF00000000FFFFFFFFFFFFFFFFBCE6FAADA7179E84F3B9CAC2FC632551
def p256b : Nat := 0x5AC635D8AA3A93E7B3EBBD55769886BC651D06B0CC53B0F63BCE3C3E27D2604B
def p256g : Nat × Nat :=
  (0x6B17D1F2E12C4247F8BCE6E563A440F277037D812DEB33A0F4A13945D898C296,
   0x4FE342E2FE1A7F9B8EE7EB4A7C0F9E162BCE33576B315ECECBB6406837BF51F5)
/-- x ^ (bits of e below 2^n) modulo m. -/
def powMod (m x : Nat) : Nat → Nat → Nat
  | 0, _ => 1 % m
  | n + 1, e => let r := powMod m x n (e / 2); if e % 2 = 1 then r * r % m * x % m else r * r % m
/-- The inverse modulo a prime. -/
def invMod (m x : Nat) : Nat := powMod m (x % m) 256 (m - 2)
/-- Addition on the curve; none is the point at infinity. -/
def pointAdd : Option (Nat × Nat) → Option (Nat × Nat) → Option (Nat × Nat)
  | none, q => q
  | p, none => p
  | some (x1, y1), some (x2, y2) =>
    if x1 = x2 ∧ (y1 + y2) % p256p = 0 then none
    else
      let l := if x1 = x2 then (3 * x1 * x1 + (p256p - 3)) * invMod p256p (2 * y1) % p256p
               else (y2 + p256p - y1) * invMod p256p (x2 + p256p - x1) % p256p
      let x3 := (l * l + 2 * p256p - x1 - x2) % p256p
      some (x3, (l * (x1 + p256p - x3) + p256p - y1) % p256p)
/-- k times a point, for the low `n` bits of k. -/
def pointMul (p : Nat × Nat) : Nat → Nat → Option (Nat × Nat)
  | 0, _ => none
  | n + 1, k => let q := pointMul p n (k / 2); let d := pointAdd q q; if k % 2 = 1 then pointAdd d (some p) else d
/-- A point of the curve. -/
def onCurve (p : Nat × Nat) : Bool :=
  p.1 < p256p && p.2 < p256p && p.2 * p.2 % p256p == (p.1 * p.1 * p.1 + (p256p - 3) * p.1 + p256b) % p256p
/-- Does (r, s) sign a digest under a public key, x and y (the high and the low 256 bits of `key`)? -/
def ecdsaVerify (key : Nat) (digest : List Byte) (r s : Nat) : Bool :=
  let q := (key / 2 ^ 256, key % 2 ^ 256)
  if r = 0 || s = 0 || p256n ≤ r || p256n ≤ s || !onCurve q then false
  else
    let w := invMod p256n s
    let u1 := beNat digest * w % p256n
    let u2 := r * w % p256n
    match pointAdd (pointMul p256g 256 u1) (pointMul q 256 u2) with
    | none => false
    | some (x, _) => x % p256n == r
/-- The 64 bytes x ∥ y of a key, each number little-endian as R4 lays numbers out; the key they stand for; and its identifier (R343): the
SHA-256, as a little-endian number. -/
def keyBytes (key : Nat) : List Byte := leBytes 32 (key / 2 ^ 256) ++ leBytes 32 (key % 2 ^ 256)
def keyOf (bs : List Byte) : Nat := leNat (bs.take 32) * 2 ^ 256 + leNat (bs.drop 32)
def keyId (key : Nat) : Nat := leNat (sha256 (keyBytes key))

end Sys2Proof.Machine
end

