-- ==== Sys2Proof/Machine/Formats.lean ====
section
/-! DEFINITION. Formats held in slots: the ROM records, what an element code stands for, and encoding into blocks, scaled elements
and plain 16-bit elements (R69 to R77, R341 to R343, R348). -/
namespace Sys2Proof.Machine

/-! ## Reading (R70, R72 to R76, R343) -/

/-- An entry of a value table (R343). -/
def entrySign (e : Nat) : Bool := e.testBit 22
def entryClass (e : Nat) : Nat := field e 19 3
/-- The value of an entry. DESIGN CHOICE (log 89): the spec does not say that a NaN code of a scaled record may be signalling; every one
reads as a quiet NaN. -/
def entryVal (e : Nat) : FVal :=
  match entryClass e with
  | 0 => .fin { neg := entrySign e, num := field e 0 11, exp := sext 8 (field e 11 8) }
  | 1 => .inf (entrySign e)
  | 2 => .nan false
  | _ => FVal.zero false

/-- The layout of a plain-kind record (R348). -/
def Fmt.plain (f : Fmt) : FloatFmt := ⟨f.expbits, f.fracbits, f.bias⟩
/-- The value of an element code before any scale. -/
def Fmt.elem (f : Fmt) (code : Nat) : FVal :=
  if f.kind = 2 then f.plain.read code else entryVal (f.table.getD code 0)
/-- Multiply an element by 2^s. -/
def FVal.scaled (v : FVal) (s : Int) : FVal := match v with | .fin x => .fin (if x.isZero then x else x.scale s) | v => v
/-- An element under a scale byte (R74). -/
def Fmt.scaledElem (f : Fmt) (code b : Nat) : FVal := if b = 255 then .nan false else (f.elem code).scaled ((b : Int) - 127)

/-- Element `k` of a Pleat-`M` block given as a bit string from bit 0 (R69, R70). -/
def pleatElem (M blk k : Nat) : FVal :=
  let E := blk % 256
  let mu := field blk (8 + 2 * (k / 4)) 2
  let m := field blk (16 + (M + 1) * k) M
  let s := blk.testBit (16 + (M + 1) * k + M)
  if E = 255 then (if m = 2 ^ M - 1 then .inf s else .nan false)
  else if m = 0 then FVal.zero false
  else .fin { neg := s, num := m, exp := (E : Int) - 127 - mu - (M - 1) }
/-- Bytes of a Pleat-`M` block. -/
def pleatBytes (M : Nat) : Nat := 2 + 2 * (M + 1)

/-! ## The ROM records (R341) -/

/-- The value table of Pleat-`M` (R70 at μ = 0, R348): the reserved code at s = 1, m = 0. -/
def pleatTable (M : Nat) : List Nat :=
  (upFrom 0 (2 ^ (M + 1))).map (fun c =>
    let s := c / 2 ^ M
    let m := c % 2 ^ M
    if s = 1 ∧ m = 0 then 3 * 2 ^ 19 else s * 2 ^ 22 + (257 - M) % 256 * 2 ^ 11 + m)
/-- The Kilvas key's identifier (R343). -/
def kilvasKeyid : Nat := keyId Config.kilvasKey
def romFmt (n : Nat) : Fmt :=
  let M := if n = 0 then 2 else if n = 1 then 4 else 7
  { kind := 0, ebits := M + 1, w := M, flags := 8, serial := Config.romSerial n, keyid := kilvasKeyid,
    digest := Config.romDigest n, fracbits := M, table := pleatTable M, kilvas := true }
/-- The current plane of a slot on a core (R342). -/
def Planes.current (p : Planes) : Option Fmt := if p.cv = 0 then p.p0 else p.p1
def Mach.planes (m : Mach) (core slot : Nat) : Planes := (tget (m.core core).planes slot).getD {}
def Mach.plane (m : Mach) (core slot : Nat) : Option Fmt :=
  if slot < 3 then some (romFmt slot) else (m.planes core slot).current
/-- Number of the current plane; the ROM slots have one. -/
def Mach.planeNo (m : Mach) (core slot : Nat) : Nat := if slot < 3 then 0 else (m.planes core slot).cv
/-- The workgroup holds the slot (R341). -/
def Wg.holds (w : Wg) (slot : Nat) : Bool := slot < 3 || w.hdr.slotmask.testBit slot || w.pins.contains slot

/-! ## Rounding into scaled formats (R64 to R66, R72 to R74, R77) -/

/-- A scaled format as the encoder sees it: magnitudes by sign, zero first; codes of the infinities and NaNs; and the exponent
layout of a library format that has one. -/
structure ScaledFmt where
  pos   : List Mag
  neg   : List Mag
  inf   : Option (Nat × Nat)
  nan   : Option (Nat × Nat)
  shape : Option FloatFmt
  deriving DecidableEq, Repr

/-- The value a library layout gives a code (R72): `ieee` 0 all codes finite, 1 only the top code a NaN, 2 IEEE. -/
def libVal (F : FloatFmt) (ieee code : Nat) : FVal :=
  let top := code % 2 ^ (F.ebits + F.fbits)
  if ieee = 2 then (match F.read code with | .nan _ => .nan false | v => v)
  else if ieee = 1 ∧ top = 2 ^ (F.ebits + F.fbits) - 1 then .nan false
  else
    let e := top / 2 ^ F.fbits
    let f := top % 2 ^ F.fbits
    let neg := code.testBit (F.ebits + F.fbits)
    if e = 0 then .fin { neg, num := f, exp := F.emin - F.fbits }
    else .fin { neg, num := 2 ^ F.fbits + f, exp := F.emin - F.fbits + ((e : Int) - 1) }
/-- The library formats with an exponent field: K8e4, K8e5, K6e3, K6e2, K4e2. -/
def libShapes : List (FloatFmt × Nat) := [(⟨4, 3, 7⟩, 1), (⟨5, 2, 15⟩, 2), (⟨3, 2, 3⟩, 0), (⟨2, 3, 1⟩, 0), (⟨2, 1, 1⟩, 0)]
/-- Do two values agree, −0 apart from +0? -/
def sameVal : FVal → FVal → Bool
  | .fin x, .fin y => x.eqv y && x.neg == y.neg
  | a, b => a == b
/-- The library layout a record's table is (log 37). -/
def Fmt.libShape (f : Fmt) : Option (FloatFmt × Nat) :=
  libShapes.find? (fun s => f.ebits == s.1.width &&
    (upFrom 0 (2 ^ f.ebits)).all (fun c => sameVal (f.elem c) (libVal s.1 s.2 c)))

/-- Insert a magnitude in ascending order. -/
def insertMag (y : Mag) : List Mag → List Mag
  | [] => [y]
  | z :: zs => let e := min y.x z.x; if magAt y.m y.x e ≤ magAt z.m z.x e then y :: z :: zs else z :: insertMag y zs
/-- The encoder's view of a record. DESIGN CHOICE (log 88): the spec fixes the NaN code of K8e4 only; a NaN becomes the code with sign 0 and
the top fraction bit in K8e5, and elsewhere the table's first NaN code of the operand's sign, else its first. -/
def Fmt.scaledFmt (f : Fmt) : ScaledFmt :=
  let codes := (upFrom 0 (2 ^ f.ebits)).map (fun c => (c, f.table.getD c 0))
  let mags (s : Bool) :=
    let ms := codes.filterMap (fun (c, e) =>
      if entryClass e = 0 ∧ entrySign e = s then some (Mag.mk c (field e 0 11) (sext 8 (field e 11 8))) else none)
    let ms := if ms.any (·.m == 0) then ms else Mag.mk 0 0 0 :: ms
    ms.foldr insertMag []
  let pair (cls : Nat) :=
    let cs := codes.filter (fun ce => entryClass ce.2 == cls)
    match cs with
    | [] => none
    | (c, _) :: _ =>
      some (((cs.find? (fun ce => !entrySign ce.2)).map (·.1)).getD c, ((cs.find? (fun ce => entrySign ce.2)).map (·.1)).getD c)
  let lib := f.libShape
  { pos := mags false, neg := mags true, inf := pair 1,
    nan := match lib with
      | some (F, 2) => some (F.nanBits, F.nanBits)
      | _ => pair 2
    shape := lib.map (·.1) }

namespace ScaledFmt
def mags (S : ScaledFmt) (neg : Bool) : List Mag := if neg then S.neg else S.pos
def top (S : ScaledFmt) (neg : Bool) : Nat := match (S.mags neg).getLast? with | some m => m.code | none => 0
/-- ⌊log2 MAX⌋. -/
def eF (S : ScaledFmt) : Int :=
  let lead (ms : List Mag) : Option Int := match ms.getLast? with | some m => if m.m = 0 then none else some ((Nat.log2 m.m : Nat) + m.x) | none => none
  match lead S.pos, lead S.neg with
  | some a, some b => max a b
  | some a, none => a
  | none, some b => b
  | none, none => 0
/-- Below the smallest nonzero finite magnitude (R66)? -/
def belowLeast (S : ScaledFmt) (x : Exact) : Bool :=
  match ((S.pos ++ S.neg).filter (·.m != 0)).foldr insertMag [] with
  | m :: _ => ({ x with neg := false }).lt { neg := false, num := m.m, exp := m.x }
  | [] => false
/-- Code of one element value already divided by its scale, its flags, and whether a finite value went beyond MAX. DEDUCED (log 91): an
infinity under `rsat` goes by R65 (MAX, OF and NX) also where the format has an infinity, against the plain words of R74. -/
def code (S : ScaledFmt) (v : FVal) (signNeg : Bool) (rm : Rm) (u : Nat) : Nat × BitVec 5 × Bool :=
  match v with
  | .nan s =>
    match S.nan with
    | some (p, n) => (if signNeg then n else p, flagIf s nv, false)
    | none => (0, nv, false)
  | .inf n =>
    match S.inf with
    | some (p, q) => if rm = .rsat then (S.top n, of ||| nx, false) else (if n then q else p, 0, false)
    | none => (S.top n, of ||| nx, false)
  | .fin x =>
    match pickMag (S.mags x.neg) x rm u with
    | .mag m inexact =>
      let tiny := match S.shape with | some F => F.tiny x rm u | none => S.belowLeast x
      (m.code, if inexact then nx ||| flagIf tiny uf else 0, false)
    | .past =>
      match S.inf with
      | some (p, q) => (if rm = .rsat then S.top x.neg else if x.neg then q else p, of ||| nx, true)
      | none => (S.top x.neg, of ||| nx, true)
/-- Codes of a block under scale byte `b`. -/
def codes (S : ScaledFmt) (xs : List (FVal × Bool)) (b : Nat) (rm : Rm) (us : List Nat) : List (Nat × BitVec 5 × Bool) :=
  xs.mapIdx (fun k x => S.code (x.1.scaled (127 - (b : Int))) x.2 rm (us.getD k 0))
end ScaledFmt

/-- The largest finite magnitude's leading exponent, none when every finite value is zero. -/
def leadMax (xs : List FVal) : Option Int :=
  xs.foldl (fun acc v =>
    match v with
    | .fin x => if x.isZero then acc else some (match acc with | none => x.lead | some e => max e x.lead)
    | _ => acc) none

/-- Encode a block of scaled elements (R74): the codes, the scale byte, the flags. -/
def scaledEncode (S : ScaledFmt) (xs : List (FVal × Bool)) (rm : Rm) (us : List Nat) : List Nat × Nat × BitVec 5 :=
  let b0 : Nat := match leadMax (xs.map (·.1)) with
    | none => 127
    | some e => (max 0 (min 254 (e - S.eF + 127))).toNat
  let r0 := S.codes xs b0 rm us
  let up : Bool := b0.blt 254 && r0.any (fun c => c.2.2)
  let b : Nat := if up then b0 + 1 else b0
  let r := if up then S.codes xs b rm us else r0
  (r.map (·.1), b, r.foldl (fun f c => f ||| c.2.1) 0)

/-! ## Encoding Pleat blocks (R71) -/

/-- n[k] at scale exponent `q`: the rounded magnitude and whether it is inexact. -/
def pleatMag (v : FVal) (q : Int) (rm : Rm) (u : Nat) : Nat × Bool :=
  match v with | .fin x => if x.isZero then (0, false) else roundMag (x.scale (-q)) rm u | _ => (0, false)
/-- μ of a quad (R71). An infinity under `rsat` never fits. -/
def pleatMu (M : Nat) (E : Int) (xs : List (FVal × Nat)) (rm : Rm) : Nat :=
  let fits (j : Nat) : Bool := xs.all (fun xu => match xu.1 with
    | .fin _ => (pleatMag xu.1 (E - 127 - j - (M - 1)) rm xu.2).1 ≤ 2 ^ M - 1
    | _ => false)
  if fits 3 then 3 else if fits 2 then 2 else if fits 1 then 1 else 0
/-- The micro-exponents and magnitudes at shared exponent E. -/
def pleatTry (M : Nat) (E : Int) (xs : List (FVal × Nat)) (rm : Rm) : List Nat × List (Nat × Bool) :=
  let mus := (upFrom 0 4).map (fun q => pleatMu M E ((xs.drop (4 * q)).take 4) rm)
  (mus, xs.mapIdx (fun k xu => pleatMag xu.1 (E - 127 - mus.getD (k / 4) 0 - (M - 1)) rm xu.2))
/-- Lay out a block (R69). -/
def pleatLayout (M E : Nat) (mus : List Nat) (els : List (Bool × Nat)) : Nat :=
  E + (mus.foldr (fun m acc => acc * 4 + m) 0) * 256 +
    (els.foldr (fun (e : Bool × Nat) acc => acc * 2 ^ (M + 1) + (e.2 + if e.1 && e.2 != 0 then 2 ^ M else 0)) 0) * 65536
/-- Encode sixteen values: the block as a bit string, and the flags. -/
def pleatEncode (M : Nat) (vs : List FVal) (rm : Rm) (us : List Nat) : Nat × BitVec 5 :=
  let xs := vs.mapIdx (fun k v => (v, us.getD k 0))
  let infs := vs.any (fun v => match v with | .inf _ => true | _ => false)
  if vs.any (·.isNan) || (infs && rm ≠ .rsat) then
    (pleatLayout M 255 [0, 0, 0, 0] (vs.map (fun v => match v with | .inf n => (n, 2 ^ M - 1) | _ => (false, 0))),
      snans vs ||| flagIf (vs.any (fun v => match v with | .fin _ => true | _ => false)) nv)
  else
    let want : Option Int := if infs then some 254 else (leadMax vs).map (· + 127)
    let E : Int := match want with | none => 0 | some e => max 0 (min 254 e)
    let raised := match want with | none => false | some e => decide (e < 0)
    let (mus, ns) := pleatTry M E xs rm
    let (E, mus, ns) :=
      if ns.any (fun n => n.1 == 2 ^ M) && E < 254 then (let r := pleatTry M (E + 1) xs rm; (E + 1, r.1, r.2)) else (E, mus, ns)
    let sat := ns.any (fun n => n.1 == 2 ^ M)
    let inexact := ns.any (·.2)
    (pleatLayout M E.toNat mus ((vs.zip ns).map (fun (v, n) => match v with
        | .inf s => (s, 2 ^ M - 1)
        | v => (v.neg, min n.1 (2 ^ M - 1)))),
      flagIf (sat || infs) of ||| flagIf (inexact || infs) nx ||| flagIf (raised && inexact) uf)

/-! ## Packing spans (R114, R115) -/

/-- Packed registers of `n` elements of a format. -/
def Fmt.packedRegs (f : Fmt) (n : Nat) : Nat :=
  match f.kind with
  | 0 => (pleatBytes f.fracbits * (n / 16) + 3) / 4
  | 1 => f.ebits
  | _ => n / 2
/-- Element counts a kind allows. -/
def Fmt.countOk (f : Fmt) (n : Nat) : Bool :=
  match f.kind with | 0 => n == 16 || n == 32 | 1 => n == 32 | _ => n == 8 || n == 16 || n == 32

/-- Element codes side by side, `e` bits each. -/
def packCodes (e : Nat) : List Nat → Nat
  | [] => 0
  | c :: cs => c % 2 ^ e + 2 ^ e * packCodes e cs

/-- Encode values into a bit string: the string, the scale byte of a scaled format, the flags. `signs` are the operands' sign bits,
which a NaN keeps in K8e4. -/
def Fmt.encodeVals (f : Fmt) (vs : List (FVal × Bool)) (rm : Rm) (us : List Nat) : Nat × Option Nat × BitVec 5 :=
  match f.kind with
  | 0 =>
    let (a, fa) := pleatEncode f.fracbits ((vs.take 16).map (·.1)) rm (us.take 16)
    if vs.length ≤ 16 then (a, none, fa)
    else
      let (b, fb) := pleatEncode f.fracbits ((vs.drop 16).map (·.1)) rm (us.drop 16)
      (a + b * 2 ^ (8 * pleatBytes f.fracbits), none, fa ||| fb)
  | 1 =>
    let (cs, b, fl) := scaledEncode f.scaledFmt vs rm us
    (packCodes f.ebits cs, some b, fl)
  | _ =>
    let rs := vs.mapIdx (fun k v => let r := f.plain.round v.1 rm (us.getD k 0); (r.1, r.2 ||| snans [v.1]))
    (packCodes 16 (rs.map (·.1)), none, rs.foldl (fun fl r => fl ||| r.2) 0)

/-- Element `k` of a packed string of `f`; `b` is its scale byte. -/
def Fmt.readElem (f : Fmt) (str k b : Nat) : FVal :=
  match f.kind with
  | 0 => pleatElem f.fracbits (str / 2 ^ (8 * pleatBytes f.fracbits * (k / 16))) (k % 16)
  | 1 => f.scaledElem (str / 2 ^ (f.ebits * k) % 2 ^ f.ebits) b
  | _ => f.elem (str / 2 ^ (16 * k) % 65536)

/-- Registers v(r) … v(r + n − 1) as one bit string, and back. -/
def Thread.bitString (th : Thread) (r : Nat) : Nat → Nat
  | 0 => 0
  | n + 1 => (th.getV r).toNat + 4294967296 * th.bitString (r + 1) n
def toRegs (r str : Nat) : Nat → List (Nat × V32)
  | 0 => []
  | n + 1 => (r, BitVec.ofNat 32 str) :: toRegs (r + 1) (str / 4294967296) n

/-- The sign bit of a pattern of a floating type. -/
def signOf (t : Ty) (bits : Nat) : Bool := bits.testBit (t.bits - 1)

def fpackOp (f : Fmt) (t : Ty) (d a vs sel n : Nat) (rm : Rm) : RegOp :=
  let span := f.packedRegs n
  perLane (upFrom a n ++ (if f.kind = 1 then [vs] else [])) (upFrom d span ++ (if f.kind = 1 then [vs] else [])) (fun th =>
    let xs := (upFrom a n).map (fun r => (th.fval t r, signOf t (th.pat t r)))
    let (us, rnd) := if rm = .rst then (let r := rndN n th.rnd; (r.1, some r.2)) else ([], none)
    let (str, b, fl) := f.encodeVals xs rm us
    let regs := toRegs d str span
    -- the scale byte goes in last, into what then stands in vS (R118)
    let old := match regs.find? (fun r => r.1 == vs) with | some r => r.2 | none => th.getV vs
    let scale := match b with
      | some b => [(vs, BitVec.ofNat 32 (old.toNat + b * 256 ^ sel - field old.toNat (8 * sel) 8 * 256 ^ sel))]
      | none => []
    { v := regs ++ scale, f := fl, rnd })
/-- R119. DEDUCED (log 90): a scaled value beyond f32's largest one (K8e4's 448 under b = 254), which R76 calls exact, is rounded into f32
with OF and NX. -/
def funpackOp (f : Fmt) (t : Ty) (d a vs sel n : Nat) (rm : Rm) : RegOp :=
  perLane (upFrom a (f.packedRegs n) ++ (if f.kind = 1 then [vs] else [])) (upFrom d n) (fun th =>
    let str := th.bitString a (f.packedRegs n)
    let b := (th.getV vs).toNat / 256 ^ sel % 256
    let (us, rnd) := if rm = .rst then (let r := rndN n th.rnd; (r.1, some r.2)) else ([], none)
    let rs := (upFrom 0 n).map (fun k =>
      let v := f.readElem str k b
      let r := t.float.round v rm (us.getD k 0)
      (r.1, r.2 ||| snans [v]))
    { v := rs.mapIdx (fun k r => (d + k, BitVec.ofNat 32 r.1)), f := rs.foldl (fun fl r => fl ||| r.2) 0, rnd })

end Sys2Proof.Machine
end

