-- ==== Sys2Proof/Machine/Uniform.lean ====
section
/-! DEFINITION. Groups D and E: the uniform instructions, which compute once per issue group on the leader's k registers (R91 to
R95), and the address instructions (R96 to R99). -/
namespace Sys2Proof.Machine

/-! ## Group D -/

/-- A two-operand operation on 64-bit patterns. -/
def kOp (d a : Nat) (b : Src) (f : Nat → Nat → Nat) : RegOp :=
  perGroup (fun t => { k := [(d, BitVec.ofNat 64 (f (t.getK a).toNat (t.srcK .i64 b)))] })
/-- A shift: a 16-bit immediate count is zero-extended; a register count is the full unsigned value (R92, R93). -/
def kShift (d a : Nat) (b : Src) (f : Nat → Nat → Nat → Nat) : RegOp :=
  perGroup (fun t => { k := [(d, BitVec.ofNat 64 (f 64 (t.getK a).toNat (t.srcK .z64 b)))] })
/-- An operation on typed 64-bit values. -/
def kTyped (t : Ty) (d a : Nat) (b : Src) (f : Int → Int → Int) : RegOp :=
  perGroup (fun th => { k := [(d, BitVec.ofInt 64 (f (t.value (th.getK a).toNat) (t.value (th.srcK t b))))] })

def kaddOp (d a : Nat) (b : Src) : RegOp := kOp d a b (· + ·)
def ksubOp (d a : Nat) (b : Src) : RegOp := kOp d a b (fun x y => x + (18446744073709551616 - y))
def kmulOp (d a : Nat) (b : Src) : RegOp := kOp d a b (· * ·)
def kandOp (d a : Nat) (b : Src) : RegOp := kOp d a b (· &&& ·)
def korOp (d a : Nat) (b : Src) : RegOp := kOp d a b (· ||| ·)
def kxorOp (d a : Nat) (b : Src) : RegOp := kOp d a b (· ^^^ ·)
def kshlOp (d a : Nat) (b : Src) : RegOp := kShift d a b shlN
def kshrOp (d a : Nat) (b : Src) : RegOp := kShift d a b shrN
def ksarOp (d a : Nat) (b : Src) : RegOp := kShift d a b sarN
def kminOp (t : Ty) (d a : Nat) (b : Src) : RegOp := kTyped t d a b min
def kmaxOp (t : Ty) (d a : Nat) (b : Src) : RegOp := kTyped t d a b max
def kcmpOp (t : Ty) (c : Cmp) (d a : Nat) (b : Src) : RegOp :=
  perGroup (fun th => { p := [(d, cmpInt c (t.value (th.getK a).toNat) (t.value (th.srcK t b)))] })
def kselOp (d a b p : Nat) : RegOp := perGroup (fun t => { k := [(d, if t.getP p then t.getK a else t.getK b)] })
def kmovOp (d a : Nat) : RegOp := perGroup (fun t => { k := [(d, t.getK a)] })
def kmoviOp (d : Nat) (b : Src) : RegOp := perGroup (fun t => { k := [(d, BitVec.ofNat 64 (t.srcK .i64 b))] })
def kbfxOp (t : Ty) (d a pos len : Nat) : RegOp :=
  perGroup (fun th => { k := [(d, BitVec.ofNat 64 (bfxN t.signed 64 (th.getK a).toNat pos len))] })
def kpopcOp (d a : Nat) : RegOp := perGroup (fun t => { k := [(d, BitVec.ofNat 64 (popcN 64 (t.getK a).toNat))] })
def kclzOp (d a : Nat) : RegOp := perGroup (fun t => { k := [(d, BitVec.ofNat 64 (clzN 64 (t.getK a).toNat))] })
/-- `kbcast` (R94): the leader's value to the v register or pair of every active lane. -/
def kbcastOp (t : Ty) (d a : Nat) : RegOp := perGroup (fun th => { v := vWrite t d ((th.getK a).toNat % 2 ^ t.bits) })
/-- `kpick` (R94): the value of the active thread of the leader's warp at the named lane, 0 when there is none. -/
def kpickOp (t : Ty) (d a : Nat) (b : Src) : RegOp :=
  { src := [], dst := [], upd := fun all l =>
      let lead := match all with | (_, t) :: _ => t | [] => l.2
      let j := lead.srcK t b % 32
      match all.find? (fun e => e.2.warp == lead.warp && e.2.lane == j) with
      | some e => { k := [(d, BitVec.ofInt 64 (t.value (e.2.pat t a)))] }
      | none => { k := [(d, 0)] } }

/-! ## Group E (R97 to R99) -/

def amovOp (d a : Nat) : RegOp := perGroup (fun t => { a := [(d, t.getA a)] })
def asetOp (d a : Nat) (b : Src) : RegOp :=
  perGroup (fun t => { a := [(d, BitVec.ofNat 80 ((t.srcK .z64 b) % 65536 * 18446744073709551616 + (t.getK a).toNat))] })
def agetOp (d a : Nat) : RegOp := perGroup (fun t => { k := [(d, (t.getA a).truncate 64)] })
def agetHiOp (d a : Nat) : RegOp := perGroup (fun t => { k := [(d, BitVec.ofNat 64 ((t.getA a).toNat / 18446744073709551616))] })
def aaddOp (d a : Nat) (b : Src) : RegOp :=
  perGroup (fun t => { a := [(d, t.getA a + BitVec.ofInt 80 (sext 64 (t.srcK .i64 b)))] })
/-- `aaddv` is per lane, from the lane's own registers (R98). -/
def aaddvOp (t : Ty) (d a b scale : Nat) : RegOp :=
  perLane [] [] (fun th => { a := [(d, th.getA a + BitVec.ofInt 80 (t.value (th.getV b).toNat * (2 ^ scale : Nat)))] })
def acmpOp (c : Cmp) (d a b : Nat) : RegOp :=
  perGroup (fun t => { p := [(d, cmpInt c ((t.getA a).toNat : Int) ((t.getA b).toNat : Int))] })
/-- `adiff` saturates the signed 80-bit difference to 64 bits (R99). -/
def adiffOp (d a b : Nat) : RegOp :=
  perGroup (fun t =>
    let x := (t.getA a - t.getA b).toInt
    { k := [(d, BitVec.ofInt 64 (max (-9223372036854775808) (min 9223372036854775807 x)))] })
def aalignDnOp (d a n : Nat) : RegOp :=
  perGroup (fun t => { a := [(d, BitVec.ofNat 80 ((t.getA a).toNat / 2 ^ n * 2 ^ n))] })
def aalignUpOp (d a n : Nat) : RegOp :=
  perGroup (fun t => { a := [(d, BitVec.ofNat 80 (((t.getA a).toNat + (2 ^ n - 1)) / 2 ^ n * 2 ^ n))] })

end Sys2Proof.Machine
end

