-- ==== Sys2Proof/Machine/RegExec.lean ====
section
/-! DEFINITION. The meanings of the S words (groups A to E): each runs its register operation on the issue group. -/
namespace Sys2Proof.Machine

/-! ## Group A (R81 to R90) -/

def execAdd (t : Ty) (d a : Nat) (b : Src) (s : State) : Host.Outcome State Fault Refusal := s.reg (addOp t d a b)
def execSub (t : Ty) (d a : Nat) (b : Src) (s : State) : Host.Outcome State Fault Refusal := s.reg (subOp t d a b)
def execMul (t : Ty) (d a : Nat) (b : Src) (s : State) : Host.Outcome State Fault Refusal := s.reg (mulOp t d a b)
def execMulhi (t : Ty) (d a : Nat) (b : Src) (s : State) : Host.Outcome State Fault Refusal := s.reg (mulhiOp t d a b)
def execMad (t : Ty) (d a b c : Nat) (s : State) : Host.Outcome State Fault Refusal := s.reg (madOp t d a b c)
def execDiv (t : Ty) (d a : Nat) (b : Src) (s : State) : Host.Outcome State Fault Refusal := s.reg (divOp t d a b)
def execRem (t : Ty) (d a : Nat) (b : Src) (s : State) : Host.Outcome State Fault Refusal := s.reg (remOp t d a b)
def execAbs (t : Ty) (d a : Nat) (s : State) : Host.Outcome State Fault Refusal := s.reg (absOp t d a)
def execMin (t : Ty) (d a : Nat) (b : Src) (s : State) : Host.Outcome State Fault Refusal := s.reg (minOp t d a b)
def execMax (t : Ty) (d a : Nat) (b : Src) (s : State) : Host.Outcome State Fault Refusal := s.reg (maxOp t d a b)
def execAnd (t : Ty) (d a : Nat) (b : Src) (s : State) : Host.Outcome State Fault Refusal := s.reg (andOp t d a b)
def execOr (t : Ty) (d a : Nat) (b : Src) (s : State) : Host.Outcome State Fault Refusal := s.reg (orOp t d a b)
def execXor (t : Ty) (d a : Nat) (b : Src) (s : State) : Host.Outcome State Fault Refusal := s.reg (xorOp t d a b)
def execAndn (t : Ty) (d a : Nat) (b : Src) (s : State) : Host.Outcome State Fault Refusal := s.reg (andnOp t d a b)
def execShl (t : Ty) (d a : Nat) (b : Src) (s : State) : Host.Outcome State Fault Refusal := s.reg (shlOp t d a b)
def execShr (t : Ty) (d a : Nat) (b : Src) (s : State) : Host.Outcome State Fault Refusal := s.reg (shrOp t d a b)
def execSar (t : Ty) (d a : Nat) (b : Src) (s : State) : Host.Outcome State Fault Refusal := s.reg (sarOp t d a b)
def execRotl (t : Ty) (d a : Nat) (b : Src) (s : State) : Host.Outcome State Fault Refusal := s.reg (rotlOp t d a b)
def execClz (t : Ty) (d a : Nat) (s : State) : Host.Outcome State Fault Refusal := s.reg (clzOp t d a)
def execPopc (t : Ty) (d a : Nat) (s : State) : Host.Outcome State Fault Refusal := s.reg (popcOp t d a)
def execBrev (t : Ty) (d a : Nat) (s : State) : Host.Outcome State Fault Refusal := s.reg (brevOp t d a)
def execBfx (t : Ty) (d a pos len : Nat) (s : State) : Host.Outcome State Fault Refusal := s.reg (bfxOp t d a pos len)
def execBfi (t : Ty) (d a b c : Nat) (s : State) : Host.Outcome State Fault Refusal := s.reg (bfiOp t d a b c)
def execSel (t : Ty) (d a b p : Nat) (s : State) : Host.Outcome State Fault Refusal := s.reg (selOp t d a b p)
def execCmp (t : Ty) (c : Cmp) (d a : Nat) (b : Src) (x : Comb) (s : State) : Host.Outcome State Fault Refusal := s.reg (cmpOp t c d a b x)
def execMov (t : Ty) (d a : Nat) (neg : Bool) (s : State) : Host.Outcome State Fault Refusal := s.reg (movOp t d a neg)
def execMovi (t : Ty) (d : Nat) (b : Src) (s : State) : Host.Outcome State Fault Refusal := s.reg (moviOp t d b)

/-! ## Groups D and E (R91 to R99) -/

def execKadd (d a : Nat) (b : Src) (s : State) : Host.Outcome State Fault Refusal := s.reg (kaddOp d a b)
def execKsub (d a : Nat) (b : Src) (s : State) : Host.Outcome State Fault Refusal := s.reg (ksubOp d a b)
def execKmul (d a : Nat) (b : Src) (s : State) : Host.Outcome State Fault Refusal := s.reg (kmulOp d a b)
def execKand (d a : Nat) (b : Src) (s : State) : Host.Outcome State Fault Refusal := s.reg (kandOp d a b)
def execKor (d a : Nat) (b : Src) (s : State) : Host.Outcome State Fault Refusal := s.reg (korOp d a b)
def execKxor (d a : Nat) (b : Src) (s : State) : Host.Outcome State Fault Refusal := s.reg (kxorOp d a b)
def execKshl (d a : Nat) (b : Src) (s : State) : Host.Outcome State Fault Refusal := s.reg (kshlOp d a b)
def execKshr (d a : Nat) (b : Src) (s : State) : Host.Outcome State Fault Refusal := s.reg (kshrOp d a b)
def execKsar (d a : Nat) (b : Src) (s : State) : Host.Outcome State Fault Refusal := s.reg (ksarOp d a b)
def execKmin (t : Ty) (d a : Nat) (b : Src) (s : State) : Host.Outcome State Fault Refusal := s.reg (kminOp t d a b)
def execKmax (t : Ty) (d a : Nat) (b : Src) (s : State) : Host.Outcome State Fault Refusal := s.reg (kmaxOp t d a b)
def execKcmp (t : Ty) (c : Cmp) (d a : Nat) (b : Src) (s : State) : Host.Outcome State Fault Refusal := s.reg (kcmpOp t c d a b)
def execKsel (d a b p : Nat) (s : State) : Host.Outcome State Fault Refusal := s.reg (kselOp d a b p)
def execKmov (d a : Nat) (s : State) : Host.Outcome State Fault Refusal := s.reg (kmovOp d a)
def execKmovi (d : Nat) (b : Src) (s : State) : Host.Outcome State Fault Refusal := s.reg (kmoviOp d b)
def execKbfx (t : Ty) (d a pos len : Nat) (s : State) : Host.Outcome State Fault Refusal := s.reg (kbfxOp t d a pos len)
def execKpopc (d a : Nat) (s : State) : Host.Outcome State Fault Refusal := s.reg (kpopcOp d a)
def execKclz (d a : Nat) (s : State) : Host.Outcome State Fault Refusal := s.reg (kclzOp d a)
def execKbcast (t : Ty) (d a : Nat) (s : State) : Host.Outcome State Fault Refusal := s.reg (kbcastOp t d a)
def execKpick (t : Ty) (d a : Nat) (b : Src) (s : State) : Host.Outcome State Fault Refusal := s.reg (kpickOp t d a b)
def execAmov (d a : Nat) (s : State) : Host.Outcome State Fault Refusal := s.reg (amovOp d a)
def execAset (d a : Nat) (b : Src) (s : State) : Host.Outcome State Fault Refusal := s.reg (asetOp d a b)
def execAget (d a : Nat) (s : State) : Host.Outcome State Fault Refusal := s.reg (agetOp d a)
def execAgetHi (d a : Nat) (s : State) : Host.Outcome State Fault Refusal := s.reg (agetHiOp d a)
def execAadd (d a : Nat) (b : Src) (s : State) : Host.Outcome State Fault Refusal := s.reg (aaddOp d a b)
def execAaddv (t : Ty) (d a b scale : Nat) (s : State) : Host.Outcome State Fault Refusal := s.reg (aaddvOp t d a b scale)
def execAcmp (c : Cmp) (d a b : Nat) (s : State) : Host.Outcome State Fault Refusal := s.reg (acmpOp c d a b)
def execAdiff (d a b : Nat) (s : State) : Host.Outcome State Fault Refusal := s.reg (adiffOp d a b)
def execAalignDn (d a n : Nat) (s : State) : Host.Outcome State Fault Refusal := s.reg (aalignDnOp d a n)
def execAalignUp (d a n : Nat) (s : State) : Host.Outcome State Fault Refusal := s.reg (aalignUpOp d a n)

/-! ## Group B (R101 to R120) -/

def execFadd (t : Ty) (d a : Nat) (b : Src) (rm : Rm) (s : State) : Host.Outcome State Fault Refusal := s.reg (faddOp t d a b rm)
def execFsub (t : Ty) (d a : Nat) (b : Src) (rm : Rm) (s : State) : Host.Outcome State Fault Refusal := s.reg (fsubOp t d a b rm)
def execFmul (t : Ty) (d a : Nat) (b : Src) (rm : Rm) (s : State) : Host.Outcome State Fault Refusal := s.reg (fmulOp t d a b rm)
def execFfma (t : Ty) (d a b c : Nat) (rm : Rm) (s : State) : Host.Outcome State Fault Refusal := s.reg (ffmaOp t d a b c rm)
def execFmin (t : Ty) (d a : Nat) (b : Src) (nan : Bool) (s : State) : Host.Outcome State Fault Refusal := s.reg (fminOp t d a b nan)
def execFmax (t : Ty) (d a : Nat) (b : Src) (nan : Bool) (s : State) : Host.Outcome State Fault Refusal := s.reg (fmaxOp t d a b nan)
def execFdiv (t : Ty) (d a : Nat) (b : Src) (rm : Rm) (s : State) : Host.Outcome State Fault Refusal := s.reg (fdivOp t d a b rm)
def execFrcp (t : Ty) (d a : Nat) (rm : Rm) (s : State) : Host.Outcome State Fault Refusal := s.reg (frcpOp t d a rm)
def execFrsq (t : Ty) (d a : Nat) (s : State) : Host.Outcome State Fault Refusal := s.reg (frsqOp t d a)
def execFsqrt (t : Ty) (d a : Nat) (rm : Rm) (s : State) : Host.Outcome State Fault Refusal := s.reg (fsqrtOp t d a rm)
def execFexp2 (t : Ty) (d a : Nat) (s : State) : Host.Outcome State Fault Refusal := s.reg (fexp2Op t d a)
def execFlog2 (t : Ty) (d a : Nat) (s : State) : Host.Outcome State Fault Refusal := s.reg (flog2Op t d a)
def execFsin (t : Ty) (d a : Nat) (s : State) : Host.Outcome State Fault Refusal := s.reg (fsinOp t d a)
def execFcos (t : Ty) (d a : Nat) (s : State) : Host.Outcome State Fault Refusal := s.reg (fcosOp t d a)
def execFcmp (t : Ty) (c : Cmp) (d a : Nat) (b : Src) (x : Comb) (s : State) : Host.Outcome State Fault Refusal := s.reg (fcmpOp t c d a b x)
def execFclass (t : Ty) (d a : Nat) (s : State) : Host.Outcome State Fault Refusal := s.reg (fclassOp t d a)
def execFclassAny (t : Ty) (d a mask : Nat) (s : State) : Host.Outcome State Fault Refusal := s.reg (fclassAnyOp t d a mask)
def execCvt (dt st : Ty) (d a : Nat) (rm : Rm) (s : State) : Host.Outcome State Fault Refusal := s.reg (cvtOp dt st d a rm)
def execFscale (t : Ty) (d a : Nat) (b : Src) (rm : Rm) (s : State) : Host.Outcome State Fault Refusal := s.reg (fscaleOp t d a b rm)
def execFscaleStored (t : Ty) (d a vs sel j : Nat) (inv : Bool) (rm : Rm) (s : State) : Host.Outcome State Fault Refusal :=
  s.reg (fscaleStoredOp t d a vs sel j inv rm)

/-! ## Group C (R178 to R182) -/

def execShfl (mode d a : Nat) (b : Src) (s : State) : Host.Outcome State Fault Refusal := s.reg (shflOp mode d a b)
def execVoteAny (d a : Nat) (s : State) : Host.Outcome State Fault Refusal := s.reg (voteAnyOp d a)
def execVoteAll (d a : Nat) (s : State) : Host.Outcome State Fault Refusal := s.reg (voteAllOp d a)
def execVoteBallot (d a : Nat) (s : State) : Host.Outcome State Fault Refusal := s.reg (voteBallotOp d a)
def execVoteEq (d a : Nat) (s : State) : Host.Outcome State Fault Refusal := s.reg (voteEqOp d a)
def execRedux (op : Nat) (t : Ty) (d a : Nat) (s : State) : Host.Outcome State Fault Refusal := s.reg (reduxOp op t d a)
def execMatchLanes (t : Ty) (d a : Nat) (s : State) : Host.Outcome State Fault Refusal := s.reg (matchOp t d a)

/-! ## Packing (R117) -/

/-- The issue checks of R117, then the operation on the plane bound at issue. -/
def Ctx.packed (c : Ctx) (clk : Clock) (slot n : Nat) (elems packedAt vs : Nat) (op : Fmt → RegOp) : Mach :=
  match c.m.plane c.core slot with
  | none => c.badHandle clk c.m 5
  | some f =>
    if !c.wg.holds slot then c.badHandle clk c.m 5
    else if !f.countOk n then c.illegal clk c.m
    else if c.wg.alloc < elems + n || c.wg.alloc < packedAt + f.packedRegs n || (f.kind == 1 && decide (c.wg.alloc ≤ vs)) then c.illegal clk c.m
    else c.run clk (op f)
/-- Elements of a count code (R116). -/
def packCount (c : Nat) : Nat := if c = 0 then 8 else if c = 1 then 16 else 32

def execFpack (t : Ty) (d a vs slot sel count : Nat) (rm : Rm) (s : State) : Host.Outcome State Fault Refusal :=
  s.group (fun clk c => c.packed clk slot (packCount count) a d vs (fun f => fpackOp f t d a vs sel (packCount count) rm))
def execFunpack (t : Ty) (d a vs slot sel count : Nat) (rm : Rm) (s : State) : Host.Outcome State Fault Refusal :=
  s.group (fun clk c => c.packed clk slot (packCount count) d a vs (fun f => funpackOp f t d a vs sel (packCount count) rm))

end Sys2Proof.Machine
end

