-- ==== Sys2Proof/Machine/Control.lean ====
section
/-! DEFINITION. Groups F and T on a thread (R122 to R135), the pair word (R28, R100), the predicate block (R31 to R35), and the
events that end a sleep and a rebuild. -/
namespace Sys2Proof.Machine

/-! ## The pair word (R28 to R30, R100) -/

/-- The register operation of an S word of groups A to E (not `fpack` and `funpack`, which bind a slot's plane). -/
def regOpOf : Instr → Option RegOp
  | .add t d a b => some (addOp t d a b)
  | .sub t d a b => some (subOp t d a b)
  | .mul t d a b => some (mulOp t d a b)
  | .mulhi t d a b => some (mulhiOp t d a b)
  | .mad t d a b c => some (madOp t d a b c)
  | .div t d a b => some (divOp t d a b)
  | .rem t d a b => some (remOp t d a b)
  | .abs t d a => some (absOp t d a)
  | .min t d a b => some (minOp t d a b)
  | .max t d a b => some (maxOp t d a b)
  | .and t d a b => some (andOp t d a b)
  | .or t d a b => some (orOp t d a b)
  | .xor t d a b => some (xorOp t d a b)
  | .andn t d a b => some (andnOp t d a b)
  | .shl t d a b => some (shlOp t d a b)
  | .shr t d a b => some (shrOp t d a b)
  | .sar t d a b => some (sarOp t d a b)
  | .rotl t d a b => some (rotlOp t d a b)
  | .clz t d a => some (clzOp t d a)
  | .popc t d a => some (popcOp t d a)
  | .brev t d a => some (brevOp t d a)
  | .bfx t d a pos len => some (bfxOp t d a pos len)
  | .bfi t d a b c => some (bfiOp t d a b c)
  | .sel t d a b p => some (selOp t d a b p)
  | .cmp t c d a b x => some (cmpOp t c d a b x)
  | .mov t d a neg => some (movOp t d a neg)
  | .movi t d b => some (moviOp t d b)
  | .kadd d a b => some (kaddOp d a b)
  | .ksub d a b => some (ksubOp d a b)
  | .kmul d a b => some (kmulOp d a b)
  | .kand d a b => some (kandOp d a b)
  | .kor d a b => some (korOp d a b)
  | .kxor d a b => some (kxorOp d a b)
  | .kshl d a b => some (kshlOp d a b)
  | .kshr d a b => some (kshrOp d a b)
  | .ksar d a b => some (ksarOp d a b)
  | .kmin t d a b => some (kminOp t d a b)
  | .kmax t d a b => some (kmaxOp t d a b)
  | .kcmp t c d a b => some (kcmpOp t c d a b)
  | .ksel d a b p => some (kselOp d a b p)
  | .kmov d a => some (kmovOp d a)
  | .kmovi d b => some (kmoviOp d b)
  | .kbfx t d a pos len => some (kbfxOp t d a pos len)
  | .kpopc d a => some (kpopcOp d a)
  | .kclz d a => some (kclzOp d a)
  | .kbcast t d a => some (kbcastOp t d a)
  | .kpick t d a b => some (kpickOp t d a b)
  | .amov d a => some (amovOp d a)
  | .aset d a b => some (asetOp d a b)
  | .aget d a => some (agetOp d a)
  | .agetHi d a => some (agetHiOp d a)
  | .aadd d a b => some (aaddOp d a b)
  | .aaddv t d a b scale => some (aaddvOp t d a b scale)
  | .acmp c d a b => some (acmpOp c d a b)
  | .adiff d a b => some (adiffOp d a b)
  | .aalignDn d a n => some (aalignDnOp d a n)
  | .aalignUp d a n => some (aalignUpOp d a n)
  | .fadd t d a b rm => some (faddOp t d a b rm)
  | .fsub t d a b rm => some (fsubOp t d a b rm)
  | .fmul t d a b rm => some (fmulOp t d a b rm)
  | .ffma t d a b c rm => some (ffmaOp t d a b c rm)
  | .fmin t d a b nan => some (fminOp t d a b nan)
  | .fmax t d a b nan => some (fmaxOp t d a b nan)
  | .fdiv t d a b rm => some (fdivOp t d a b rm)
  | .frcp t d a rm => some (frcpOp t d a rm)
  | .frsq t d a => some (frsqOp t d a)
  | .fsqrt t d a rm => some (fsqrtOp t d a rm)
  | .fexp2 t d a => some (fexp2Op t d a)
  | .flog2 t d a => some (flog2Op t d a)
  | .fsin t d a => some (fsinOp t d a)
  | .fcos t d a => some (fcosOp t d a)
  | .fcmp t c d a b x => some (fcmpOp t c d a b x)
  | .fclass t d a => some (fclassOp t d a)
  | .fclassAny t d a mask => some (fclassAnyOp t d a mask)
  | .cvt dt st d a rm => some (cvtOp dt st d a rm)
  | .fscale t d a b rm => some (fscaleOp t d a b rm)
  | .fscaleStored t d a vs sel j inv rm => some (fscaleStoredOp t d a vs sel j inv rm)
  | .shfl mode d a b => some (shflOp mode d a b)
  | .voteAny d a => some (voteAnyOp d a)
  | .voteAll d a => some (voteAllOp d a)
  | .voteBallot d a => some (voteBallotOp d a)
  | .voteEq d a => some (voteEqOp d a)
  | .redux op t d a => some (reduxOp op t d a)
  | .matchLanes t d a => some (matchOp t d a)
  | _ => none
/-- Two results written together: both halves read before either writes (R15). -/
def LaneUpd.both (x y : LaneUpd) : LaneUpd :=
  { v := x.v ++ y.v, k := x.k ++ y.k, a := x.a ++ y.a, p := x.p ++ y.p, f := x.f ||| y.f, i := x.i ||| y.i, rnd := y.rnd }
/-- A pair: only its vector half names mapped registers (R271). -/
def pairOp (k v : RegOp) : RegOp := { src := v.src, dst := v.dst, upd := fun all l => (k.upd all l).both (v.upd all l) }
def execPairWord (f : PairFields) (s : State) : Host.Outcome State Fault Refusal :=
  s.group (fun clk c =>
    match pairHalves f with
    | none => c.illegal clk c.m
    | some (k, v) =>
      match regOpOf k, regOpOf v with
      | some x, some y => c.run clk (pairOp x y)
      | _, _ => c.illegal clk c.m)

/-! ## The predicate block (R31 to R35) -/

/-- The guards a prefix fixes (R32). -/
def blockGuards (g : Bool) (pattern count : Nat) : BitVec 8 :=
  BitVec.ofNat 8 ((upFrom 0 (count + 1)).map (fun i => if pattern.testBit i == g then 2 ^ i else 0) |>.foldl (· + ·) 0)
/-- Slots of a block that lie before the one a return or a resume goes on at: all of them when it lies above the last (R35). -/
def slotsPassed (count slot : Nat) : Nat := if count < slot then count + 1 else slot
/-- A thread executes a prefix: it opens the block, or re-enters the one a return or a resume left for it (R35); its address is found by
walking the slots before it. While one of those cannot be fetched the thread stays at the prefix: the issue stage takes that fetch's
fault (`Mach.beginIssue`). -/
def Mach.openBlock (m : Mach) (core vf pred : Nat) (inv : Bool) (count pattern : Nat) (t : Thread) : Thread :=
  match t.reenter with
  | some (n, slot, guards) =>
    match m.slotWalk core vf (t.pc + 8) (slotsPassed n slot) with
    | .error _ => t
    | .ok pc =>
      { t with pc, blk := if n < slot then none else some { prefixPc := t.pc, count := n, slot, guards }, reenter := none, since := none }
  | none =>
    { t with pc := t.pc + 8, since := none,
             blk := some { prefixPc := t.pc, count, slot := 0, guards := blockGuards (t.getP pred != inv) pattern count } }
/-- `pblk`; in an open block it is illegal (R33). -/
def execPblk (pred : Nat) (inv : Bool) (count pattern : Nat) (s : State) : Host.Outcome State Fault Refusal :=
  s.group (fun clk c =>
    let inside := c.ig.threads.filter (fun i => (c.wg.thread i).blk.isSome)
    let m := c.m.atWg c (fun w => w.modThreads (c.ig.threads.filter (fun i => !inside.contains i))
      (c.m.openBlock c.core c.vf pred inv count pattern))
    if inside.isEmpty then m else m.takeTrap clk c.core c.slot inside 1 0 c.ig.pc false)

/-! ## Transfers (R123, R156, R157, R159) -/

/-- The first of the lanes, by ascending lane number, whose target is misaligned (R13). -/
def Ctx.badTarget (c : Ctx) (tgt : Nat → Option Nat) : Option (Nat × Nat) :=
  ((sortBy (fun i => (c.wg.thread i).lane) c.act).filterMap (fun i => (tgt i).map (fun a => ((c.wg.thread i).lane, a)))).find?
    (fun x => x.2 % 8 != 0)
/-- Go to each lane's target: a lane with none goes on to the next instruction. The block ends for those that go (R34). -/
def Ctx.go (c : Ctx) (m : Mach) (tgt : Nat → Option Nat) (upd : Nat → Thread → Thread) : Mach :=
  m.atWg c (fun w =>
    Wg.splitFused { w with threads := w.threads.mapIdx (fun i t =>
      if !c.ig.threads.contains i then t
      else
        match (if c.act.contains i then tgt i else none) with
        | some a => { (upd i t) with pc := BitVec.ofNat 80 a, blk := none, since := none }
        | none => t.advance c.len) })
/-- A transfer whose targets are checked first (R123). -/
def Ctx.transfer (c : Ctx) (clk : Clock) (m : Mach) (tgt : Nat → Option Nat) (upd : Nat → Thread → Thread) : Mach :=
  match c.badTarget tgt with
  | some (lane, a) => c.trapAct clk m 3 lane (BitVec.ofNat 80 a)
  | none => c.go m tgt upd
/-- A word offset from the PC, and from an a register, modulo 2⁸⁰. -/
def Ctx.rel (c : Ctx) (off : Int) : Nat := (c.ig.pc + BitVec.ofInt 80 (8 * off)).toNat
def Thread.relA (t : Thread) (a : Nat) (off : Int) : Nat := (t.getA a + BitVec.ofInt 80 (8 * off)).toNat

def execBra (off : Int) (s : State) : Host.Outcome State Fault Refusal :=
  s.group (fun clk c => c.transfer clk c.m (fun _ => some (c.rel off)) (fun _ t => t))
def execBrc (p : Nat) (inv : Bool) (off : Int) (s : State) : Host.Outcome State Fault Refusal :=
  s.group (fun clk c => c.transfer clk c.m (fun i => if (c.wg.thread i).getP p != inv then some (c.rel off) else none) (fun _ t => t))
def brkRun (nz : Bool) (k : Nat) (off : Int) (clk : Clock) (c : Ctx) : Mach :=
  c.transfer clk c.m (fun _ => if (c.leaderT.getK k != 0) == nz then some (c.rel off) else none) (fun _ t => t)
def execBrkNz (k : Nat) (off : Int) (s : State) : Host.Outcome State Fault Refusal := s.group (brkRun true k off)
def execBrkZ (k : Nat) (off : Int) (s : State) : Host.Outcome State Fault Refusal := s.group (brkRun false k off)
def execJmp (a : Nat) (off : Int) (s : State) : Host.Outcome State Fault Refusal :=
  s.group (fun clk c => c.transfer clk c.m (fun i => some ((c.wg.thread i).relA a off)) (fun _ t => t))

/-! ## The return stack (R18, R19) -/

/-- Where the next spill goes, and where the newest spilled entry stands. -/
def Thread.spillAt (t : Thread) : Nat := (t.stackbase - BitVec.ofNat 80 (16 * (t.rsspill + 1))).toNat
def Thread.refillAt (t : Thread) : Nat := (t.stackbase - BitVec.ofNat 80 (16 * t.rsspill)).toNat
/-- Push, the oldest entry going to memory when sixteen are held. -/
def Thread.push (t : Thread) (a : Addr) : Thread :=
  if t.rs.length < 16 then { t with rs := a :: t.rs } else { t with rs := a :: t.rs.take 15, rsspill := t.rsspill + 1 }
/-- Bytes of a spilled entry (R18). -/
def spillBytes (a : Addr) : List Byte := leBytes 10 a.toNat ++ List.replicate 6 0

/-- `call` and `callr`: the target is checked, then the push. -/
def Ctx.call (c : Ctx) (clk : Clock) (tgt : Nat → Nat) : Mach :=
  if c.act.isEmpty then c.retire c.m
  else
    match c.badTarget (fun i => some (tgt i)) with
    | some (lane, a) => c.trapAct clk c.m 3 lane (BitVec.ofNat 80 a)
    | none =>
      let push (_ : Nat) (t : Thread) : Thread := t.push (c.ig.pc + BitVec.ofNat 80 c.len)
      let spill := c.act.filter (fun i => 16 ≤ (c.wg.thread i).rs.length)
      match (sortBy (fun i => (c.wg.thread i).lane) spill).find? (fun i => c.wg.hdr.priv == 0 || 4096 ≤ (c.wg.thread i).rsspill) with
      | some i => c.trapAct clk c.m 14 0 (BitVec.ofNat 80 (c.wg.thread i).spillAt)
      | none =>
        if spill.isEmpty then c.go c.m (fun i => some (tgt i)) push
        else
          let accs : List Acc := spill.map (fun i => let t := c.wg.thread i; { thread := i, lane := t.lane, va := t.spillAt, n := 16 })
          c.checkedStop clk c.m 16 [.write] 1 9 accs (fun ps m =>
            let m := m.bumpKeys c spill
            let m := spill.foldl (fun m i => c.storeThread clk {} ps (spillBytes ((c.wg.thread i).rs.getLastD 0)) i m) m
            c.go m (fun i => some (tgt i)) push)
def execCall (off : Int) (s : State) : Host.Outcome State Fault Refusal := s.group (fun clk c => c.call clk (fun _ => c.rel off))
def execCallr (a : Nat) (off : Int) (s : State) : Host.Outcome State Fault Refusal :=
  s.group (fun clk c => c.call clk (fun i => (c.wg.thread i).relA a off))

/-- Pop: the newest held entry, or the newest spilled one (R19). -/
def Thread.pop (t : Thread) : Thread := if t.rs.isEmpty then { t with rsspill := t.rsspill - 1 } else { t with rs := t.rs.drop 1 }
/-- The threads of a `ret` go to their addresses and pop, unless an address is misaligned (R123). -/
def Ctx.returnTo (c : Ctx) (clk : Clock) (m : Mach) (addr : Nat → Nat) : Mach := c.transfer clk m (fun i => some (addr i)) (fun _ => Thread.pop)
/-- The newest entry a thread holds. -/
def Ctx.heldTop (c : Ctx) (i : Nat) : Nat := ((c.wg.thread i).rs.headD 0).toNat
def Ctx.refillAccs (c : Ctx) : List Acc :=
  (c.act.filter (fun i => (c.wg.thread i).rs.isEmpty)).map (fun i => let t := c.wg.thread i; { thread := i, lane := t.lane, va := t.refillAt, n := 16 })
/-- A `ret` some of whose threads hold no entry: their addresses are loaded, once, as the bytes stand now (R19). An address that
another device owes keeps the whole group at the `ret`, which has not taken effect (R15), until it comes (`Mach.refillReturn`). -/
def Ctx.refill (c : Ctx) (clk : Clock) : Mach :=
  c.checkedStop clk c.m 16 [.read] 0 9 c.refillAccs (fun ps m =>
    match ps.findSome? (m.poisoned clk c.core {}) with
    | some addr => m.consume clk c.core c.slot addr (fun m => c.trapAct clk m 12 4 (BitVec.ofNat 80 addr))
    | none =>
      let (lanes, m) := m.gather clk c.core c.slot {} ps (c.refillAccs.map (·.thread))
      let all := c.act.map (fun i => match lanes.find? (fun l => l.1 == i) with | some l => l | none => (i, [.got (leBytes 10 (c.heldTop i))]))
      if lanes.any (fun l => l.2.any (fun p => match p with | .owed _ => true | _ => false)) then m.pend c.core c.slot .pc c.ig.threads all
      else
        c.returnTo clk m (fun i => match all.find? (fun l => l.1 == i) with
          | some l => leNat (((l.2.map (fun p => match p with | .got bs => bs | _ => [])).flatten).take 10)
          | none => 0))
/-- `ret`: the newest entry, refilled from memory when none is held. DESIGN CHOICE (log 93): with no entry spilled either, or no private
area, `sr.trapaddr` of cause 0x0E is where the newest spilled entry would stand, `sr.stackbase` − 16 × `sr.rsspill`. A refill waits for
the thread's own spill while an ordered launch holds it (R400). -/
def Ctx.ret (c : Ctx) (clk : Clock) : Mach :=
  if c.act.isEmpty then c.retire c.m
  else
    let empty := c.act.filter (fun i => (c.wg.thread i).rs.isEmpty)
    match (sortBy (fun i => (c.wg.thread i).lane) empty).find? (fun i => c.wg.hdr.priv == 0 || (c.wg.thread i).rsspill == 0) with
    | some i => c.trapAct clk c.m 14 0 (BitVec.ofNat 80 (c.wg.thread i).refillAt)
    | none =>
      if empty.isEmpty then c.returnTo clk c.m c.heldTop
      else c.pastHeld clk (c.heldLate false c.refillAccs) (fun c =>
        if c.refillAccs.isEmpty then c.returnTo clk c.m c.heldTop else c.refill clk)
def execRet (s : State) : Host.Outcome State Fault Refusal := s.group (fun clk c => c.ret clk)

/-! ## Exit, no operation, yield, sleep, regroup (R124 to R128, R164, R189) -/

/-- What is left of a thread that has exited: its place. -/
def Thread.gone (t : Thread) : Thread := { wid := t.wid, warp := t.warp, lane := t.lane, pc := t.pc, status := .exited }
/-- `exit`: its threads leave; a fused group of which none is left is gone (R158). -/
def execExit (s : State) : Host.Outcome State Fault Refusal := s.group (fun _ c => (c.retireWith c.m Thread.gone).atWg c Wg.splitFused)
def execNop (s : State) : Host.Outcome State Fault Refusal := s.group (fun _ c => c.retire c.m)
/-- Go on, then change the active threads; an open block ends for them (R124). -/
def Ctx.retireOut (c : Ctx) (m : Mach) (f : Thread → Thread) : Mach :=
  (c.retire m).atWg c (fun w => w.modThreads c.act (fun t => f { t with blk := none }))
def execYield (s : State) : Host.Outcome State Fault Refusal :=
  s.group (fun _ c => c.retireOut c.m (fun t => { t with yieldMark := true }))
/-- `sleep` for `n` ns (R127). -/
def Ctx.sleepFor (c : Ctx) (clk : Clock) (n : Nat) : Mach :=
  if n = 0 then c.retireOut c.m id
  else (c.retireOut c.m (fun t => { t with status := .asleep (clk.time + n) })).atWg c (fun w => w.unfuse c.act)
def execSleep (n : Nat) (s : State) : Host.Outcome State Fault Refusal := s.group (fun clk c => c.sleepFor clk n)
def execSleepReg (k : Nat) (s : State) : Host.Outcome State Fault Refusal :=
  s.group (fun clk c => c.sleepFor clk (min (c.leadK k) 4294967295))
/-- `regroup`: the thread is gathered with its key, and its unmoved v registers read 0 from now on. -/
def execRegroup (v g : Nat) (s : State) : Host.Outcome State Fault Refusal :=
  s.group (fun _ c =>
    (c.retireOut c.m (fun t => { t with v := t.v.filter (fun e => e.1 < 8 * g), status := .gathered (t.getV v).toNat g })).atWg c
      (fun w => w.unfuse c.act))

/-! ## Traps and handlers (R129 to R131) -/

def execTrap (code : Nat) (s : State) : Host.Outcome State Fault Refusal :=
  s.group (fun clk c => if c.act.isEmpty then c.retire c.m else c.trapAct clk c.m 9 code c.ig.pc)
def execBrkpt (id : Nat) (s : State) : Host.Outcome State Fault Refusal :=
  s.group (fun clk c => if c.act.isEmpty then c.retire c.m else c.trapAct clk c.m 10 id c.ig.pc)
def trapretRun (skip : Bool) (clk : Clock) (c : Ctx) : Mach :=
  if c.act.isEmpty then c.retire c.m
  else if c.act.any (fun i => !(c.wg.thread i).trapH) then c.trapAct clk c.m 1 0 c.ig.pc
  else
    let left (i : Nat) : Thread := (c.wg.thread i).leaveHandler skip
    c.transfer clk c.m (fun i => some (left i).pc.toNat) (fun i _ => left i)
def execTrapret (s : State) : Host.Outcome State Fault Refusal := s.group (trapretRun false)
def execTrapretSkip (s : State) : Host.Outcome State Fault Refusal := s.group (trapretRun true)

/-! ## Special registers (R132 to R135, R387) -/

/-- `sr.rollback` (R387). -/
def Wg.rollbackWord (w : Wg) : Nat :=
  pack [(1, bit w.hdr.rollback), (3, 0), (1, bit (w.sealed != 0)), (3, w.sealed), (8, 0), (11, (bufChunks w.sbuf).length), (21, 0), (16, w.rbCount)]
/-- The value of special register `n` for a thread (R134). -/
def Ctx.srValue (c : Ctx) (clk : Clock) (t : Thread) (n : Nat) : Nat :=
  match n with
  | 0 => t.wid
  | 1 => t.lane
  | 2 => c.core
  | 3 => c.vf
  | 4 => clk.time % 2 ^ 64
  | 5 => (clk.cycle - (c.m.core c.core).cycle0) % 2 ^ 64
  | 6 => t.fstat.toNat
  | 7 => t.istat.toNat
  | 8 => t.rnd.toNat
  | 9 => c.wg.role t.warp
  | 10 => t.pblk.toNat
  | 11 => t.cause.toNat + 65536 * t.info.toNat
  | 12 => t.trapaddr.toNat
  | 13 => t.trappc.toNat
  | 14 => bit t.trapH + 2 * bit t.trapL
  | 15 => c.wg.hdr.handler.toNat
  | 16 => c.wg.rollbackWord
  | 17 => t.stackbase.toNat
  | 18 => t.rsspill
  | _ => t.rs.length
def execSrd (form d sr : Nat) (s : State) : Host.Outcome State Fault Refusal :=
  s.group (fun clk c =>
    let lead := c.srValue clk c.leaderT sr
    c.retireWith c.m (fun t =>
      let x := c.srValue clk t sr
      match form with
      | 0 => t.setV d (BitVec.ofNat 32 x)
      | 1 => t.setVV d (BitVec.ofNat 64 x)
      | 2 => t.setK d (BitVec.ofNat 64 lead)
      | _ => t.setA d (BitVec.ofNat 80 x)))
/-- Write the writable fields of special register `n` (R133, R134). -/
def Thread.swr (t : Thread) (n x : Nat) : Thread :=
  match n with
  | 6 => { t with fstat := BitVec.ofNat 5 x }
  | 7 => { t with istat := BitVec.ofNat 2 x }
  | 8 => { t with rnd := BitVec.ofNat 64 x }
  | 10 => { t with pblk := BitVec.ofNat 16 x }
  | 11 => { t with cause := BitVec.ofNat 8 x, info := BitVec.ofNat 16 (x / 65536) }
  | 12 => { t with trapaddr := BitVec.ofNat 80 x }
  | 13 => { t with trappc := BitVec.ofNat 80 x }
  | _ => t
def execSwr (form a sr : Nat) (s : State) : Host.Outcome State Fault Refusal :=
  s.group (fun clk c =>
    if 11 ≤ sr ∧ c.act.any (fun i => !(c.wg.thread i).trapH) then c.trapAct clk c.m 1 0 c.ig.pc
    else
      let lead := c.leadK a
      c.retireWith c.m (fun t =>
        t.swr sr (match form with | 0 => (t.getV a).toNat | 1 => (t.getVV a).toNat | 2 => lead | _ => (t.getA a).toNat)))
def execClock (k : Nat) (s : State) : Host.Outcome State Fault Refusal :=
  s.group (fun clk c => c.retireK c.m k (c.srValue clk c.leaderT 5))
def execClockTime (k : Nat) (s : State) : Host.Outcome State Fault Refusal :=
  s.group (fun clk c => c.retireK c.m k (c.srValue clk c.leaderT 4))

/-! ## Events -/

/-- The addresses a `ret` refilled from another agent's memory have come (R19, R123): the `ret` takes effect. -/
def Mach.refillReturn (m : Mach) (clk : Clock) (core : Nat) (p : PendLoad) (addr : Nat → Nat) : Mach :=
  match m.wg? core p.slot with
  | none => m
  | some w =>
    let live := p.threads.filter (fun i => (w.thread i).status ≠ .exited)
    let act := (p.lanes.map (·.1)).filter live.contains
    let ig : Ig := { core, slot := p.slot, threads := live, pc := (w.thread (live.headD 0)).pc, w := 0, ext := none }
    if act.isEmpty then m else ({ m, ig, wg := w, act } : Ctx).returnTo clk m addr
/-- The bytes of a lane, the owed pieces filled from `data` in order; and what is left of `data`. -/
def fillLane (xs : List Piece) (data : List (List Byte)) : List Byte × List (List Byte) :=
  xs.foldl (fun (s : List Byte × List (List Byte)) x =>
    match x with
    | .got bs => (s.1 ++ bs, s.2)
    | .owed _ => (s.1 ++ s.2.headD [], s.2.drop 1)) ([], data)
/-- LOAD_RETURN: the data of a load or returning atomic comes back (R140). `data` holds, in order, what another agent owed (the old
value of a held `atomord` comes from the serial phase alone, R400); the destinations of threads that have not exited are written. What
the thread does after an acquire reads no older copies (R221). -/
def execLoadReturn (core id : Nat) (data : List (List Byte)) (s : State) : Host.Outcome State Fault Refusal :=
  s.event (fun clk m => do
    let p ← (m.core core).loads.find? (·.id == id)
    let owed := (p.lanes.map (fun l => l.2.filterMap (fun x => match x with | .owed n => some n | _ => none))).flatten
    if owed ≠ data.map (·.length) || (p.keyed && !owed.isEmpty) then none
    else
      let lanes := (p.lanes.foldl (fun (s : List (Nat × List Byte) × List (List Byte)) l =>
        let r := fillLane l.2 s.2
        (s.1 ++ [(l.1, r.1)], r.2)) ([], data)).1
      let bytesOf (i : Nat) : List Byte :=
        match lanes.find? (·.1 == i) with | some l => l.2 | none => match lanes with | l :: _ => l.2 | [] => []
      let m := m.modCore core (fun c => { c with loads := c.loads.filter (·.id ≠ id) })
      let m := if p.order ≠ .plain && !owed.isEmpty then m.acquire core p.scope else m
      if p.dst = .pc then some (m.refillReturn clk core p (fun i => leNat ((bytesOf i).take 10)))
      else
        some (m.modWg core p.slot (fun w =>
          { w with threads := w.threads.mapIdx (fun i t =>
              if p.threads.contains i && t.status ≠ .exited then (p.dst.upd (bytesOf i)).apply t else t) })))
/-- SLEEP_WAKE: a sleeping thread's deadline has come (R127). -/
def execSleepWake (core slot thread : Nat) (s : State) : Host.Outcome State Fault Refusal :=
  s.event (fun clk m => do
    let w ← m.wg? core slot
    match (w.thread thread).status with
    | .asleep d => if d ≤ clk.time then some (m.setWg core slot (w.modThreads [thread] (fun t => { t with status := .ready }))) else none
    | _ => none)
/-- REGROUP_REBUILD_DONE: the rebuilt warps of a role issue again (R166). -/
def execRegroupRebuildDone (core slot role : Nat) (s : State) : Host.Outcome State Fault Refusal :=
  s.event (fun clk m => do
    let w ← m.wg? core slot
    let r ← w.rebuild.find? (fun r => r.1 == role)
    if r.2 ≤ clk.cycle then
      some (m.setWg core slot { w with
        rebuild := w.rebuild.filter (fun r => r.1 != role),
        threads := w.threads.map (fun t => if t.status == .rebuilding && w.role t.warp == role then { t with status := .ready } else t) })
    else none)

end Sys2Proof.Machine
end

