-- ==== Sys2Proof/Machine/Sync.lean ====
section
/-! DEFINITION. Group K: `barw` (R184), transaction barriers (R294 to R296, R310 to R312), monitors (R293, R313) and stage rings
(R297, R298, R314). -/
namespace Sys2Proof.Machine

/-! ## barw -/

/-- A thread arrives and waits at its next PC; the barrier completes in the step's settling (`Mach.settle`). In an ordered launch
the arrival ends the thread's epoch (R397). -/
def barwRun (mask : Nat) (clk : Clock) (c : Ctx) : Mach :=
  if !mask.testBit c.role then c.badRole clk c.m
  else
    (c.retireWith c.m (fun t => { t with status := .atBar mask, epoch := t.epoch + 1 })).atWg c (fun w => w.unfuse c.act)
def execBarw (mask : Nat) (s : State) : Host.Outcome State Fault Refusal := s.group (barwRun mask)

/-! ## Transaction barriers -/

/-- A barrier word's fields (R294). -/
structure BarWord where
  gen : Nat
  init : Nat
  pend : Nat
  goal : Nat
  landed : Nat
  deriving DecidableEq, Repr
def BarWord.ofNat (w : Nat) : BarWord :=
  { gen := field w 60 4, init := field w 49 11, pend := field w 38 11, goal := field w 19 19, landed := field w 0 19 }
def BarWord.toNat (b : BarWord) : Nat := pack [(19, b.landed), (19, b.goal), (11, b.pend), (11, b.init), (4, b.gen)]
/-- `Update` (R296). -/
def BarWord.update (b : BarWord) (darr dgoal dland : Nat) : BarWord :=
  let b := { b with pend := b.pend - darr, goal := b.goal + dgoal, landed := b.landed + dland }
  if b.pend = 0 ∧ b.landed = b.goal then { b with gen := (b.gen + 1) % 16, pend := b.init, goal := 0, landed := 0 } else b
/-- The word has reached generation `g`. -/
def BarWord.reached (b : BarWord) (g : Nat) : Bool := (b.gen + 16 - g % 16) % 16 < 8

def Mach.barWord (m : Mach) (core slot off : Nat) : BarWord := .ofNat (leNat (m.scratchRead core slot off 8))
def Mach.setBar (m : Mach) (core slot off : Nat) (b : BarWord) : Mach := m.scratchWrite core slot off (leBytes 8 b.toNat)
def Wg.setTag (w : Wg) (off : Nat) (b : Bool) : Wg :=
  { w with tags := if b then sortBy id (off :: w.tags.filter (· ≠ off)) else w.tags.filter (· ≠ off) }

/-- An engine counts `n` delivered bytes on a barrier (R296): dropped and logged when the word is not live or landed would
overflow. -/
def Mach.barDeliver (m : Mach) (clk : Clock) (core slot off n : Nat) : Mach :=
  match m.wg? core slot with
  | none => m
  | some w =>
    let b := m.barWord core slot off
    if !w.live off || 524288 ≤ b.landed + n / 4 then m.logErr clk w.vf 2 3 0 core 0 off
    else m.setBar core slot off (b.update 0 0 (n / 4))

/-- The checks of R311 on the leader's offset, then the word. -/
def Ctx.withBar (c : Ctx) (clk : Clock) (kb : Nat) (needLive : Bool) (k : Nat → Mach) : Mach :=
  if c.act.isEmpty then c.retire c.m
  else
    let o := c.leadK kb % 4294967296
    if o % 8 ≠ 0 then c.trapAct clk c.m 3 c.leaderT.lane (BitVec.ofNat 80 o)
    else if c.wg.scratchBytes < o + 8 then
      c.trapAct clk (c.m.logErr clk c.vf 1 5 c.leaderT.lane c.core (c.leaderT.wid % 4294967296) o) 5 c.leaderT.lane (BitVec.ofNat 80 o)
    else if c.wg.live o != needLive then c.badValue clk c.m 9
    else k o

def tbarInitRun (b n : Nat) (clk : Clock) (c : Ctx) : Mach :=
  c.withBar clk b false (fun o =>
    let n := c.leadK n
    if n = 0 || 1024 < n then c.badValue clk c.m 9
    else c.retire ((c.m.setBar c.core c.slot o { gen := 0, init := n, pend := n, goal := 0, landed := 0 }).atWg c (·.setTag o true)))
def tbarArriveRun (lanes : Bool) (b : Nat) (clk : Clock) (c : Ctx) : Mach :=
  c.withBar clk b true (fun o =>
    let w := c.m.barWord c.core c.slot o
    let d := if lanes then c.act.length else 1
    if w.pend < d then c.badValue clk c.m 9 else c.afterHeld clk (c.retire (c.m.setBar c.core c.slot o (w.update d 0 0))))
def tbarExpectRun (b n : Nat) (clk : Clock) (c : Ctx) : Mach :=
  c.withBar clk b true (fun o =>
    let w := c.m.barWord c.core c.slot o
    let n := c.leadK n
    if n % 4 ≠ 0 || 524288 ≤ w.goal + n / 4 then c.badValue clk c.m 9 else c.retire (c.m.setBar c.core c.slot o (w.update 0 (n / 4) 0)))
def tbarWaitRun (b p : Nat) (clk : Clock) (c : Ctx) : Mach :=
  c.withBar clk b true (fun o =>
    let g := c.leadK p % 16
    if (c.m.barWord c.core c.slot o).reached g then c.retire c.m else c.wait clk c.m c.act (.tbar o g))
def tbarTestRun (d b p : Nat) (clk : Clock) (c : Ctx) : Mach :=
  c.withBar clk b true (fun o =>
    let ok := (c.m.barWord c.core c.slot o).reached (c.leadK p % 16)
    c.retireWith c.m (fun t => t.setP d ok))
def tbarInvalRun (b : Nat) (clk : Clock) (c : Ctx) : Mach :=
  c.withBar clk b true (fun o => c.retire (c.m.atWg c (·.setTag o false)))

def execTbarInit (b n : Nat) (s : State) : Host.Outcome State Fault Refusal := s.group (tbarInitRun b n)
def execTbarArrive (b : Nat) (s : State) : Host.Outcome State Fault Refusal := s.group (tbarArriveRun false b)
def execTbarArriveLanes (b : Nat) (s : State) : Host.Outcome State Fault Refusal := s.group (tbarArriveRun true b)
def execTbarExpect (b n : Nat) (s : State) : Host.Outcome State Fault Refusal := s.group (tbarExpectRun b n)
def execTbarWait (b p : Nat) (s : State) : Host.Outcome State Fault Refusal := s.group (tbarWaitRun b p)
def execTbarTest (d b p : Nat) (s : State) : Host.Outcome State Fault Refusal := s.group (tbarTestRun d b p)
def execTbarInval (b : Nat) (s : State) : Host.Outcome State Fault Refusal := s.group (tbarInvalRun b)

/-! ## Monitors -/

/-- `mon.arm` (R313): the read's data returns as a load's does. -/
def monArmRun (d a : Nat) (clk : Clock) (c : Ctx) : Mach :=
  if c.act.isEmpty then c.retire c.m
  else
    let va := c.leadA a
    let at_ : Attr := ⟨.acqRel, 5⟩
    c.checkedStop clk c.m 8 [.read] 0 0 [{ thread := c.act.headD 0, lane := c.leaderT.lane, va, n := 8 }] (fun ps m =>
      match ps.findSome? (m.poisoned clk c.core at_) with
      | some addr => m.consume clk c.core c.slot addr (fun m => c.trapAct clk m 12 4 (BitVec.ofNat 80 addr))
      | none =>
        let line := match ps with
          | [p] => (match p.tr with | .ok pa _ => lineOf pa | .remote d pa _ => farLine d (lineOf pa) | _ => farLine 2048 0)
          | _ => farLine 2048 0
        let (xs, m) := m.gather clk c.core c.slot at_ ps (c.act.take 1)
        let m := (at_.after true m c.core).pend c.core c.slot (.k .z64 d) c.act xs at_
        c.retireWith m (fun t => { t with mon := some (line, false) }))
/-- `mon.wait`: each thread on its own monitor. -/
def monWaitRun (clk : Clock) (c : Ctx) : Mach :=
  let stay := c.act.filter (fun i => match (c.wg.thread i).mon with | some (_, false) => true | _ => false)
  let m := c.m.atWg c (fun w => w.modThreads (c.act.filter (fun i => !stay.contains i)) (fun t => { t with mon := none }))
  if stay.isEmpty then c.retire m else c.wait clk m stay .monitor
def execMonArm (d a : Nat) (s : State) : Host.Outcome State Fault Refusal := s.group (monArmRun d a)
def execMonWait (s : State) : Host.Outcome State Fault Refusal := s.group monWaitRun

/-- End a thread's `mon.wait`. -/
def Mach.endMonWait (m : Mach) (core slot thread : Nat) (ok : Thread → Bool) : Option Mach := do
  let w ← m.wg? core slot
  let t := w.thread thread
  if t.status == .waiting .monitor && ok t then
    some (m.setWg core slot (w.modThreads [thread] (fun t => { t.advance 8 with status := .ready, mon := none })))
  else none
/-- MONITOR_WAKE: a store performed at L2 has written the armed line. -/
def execMonitorWake (core slot thread : Nat) (s : State) : Host.Outcome State Fault Refusal :=
  s.event (fun _ m => m.endMonWait core slot thread (fun t => match t.mon with | some (_, hit) => hit | none => true))
/-- MONITOR_TIMEOUT: 65,536 ns have passed since the wait began. -/
def execMonitorTimeout (core slot thread : Nat) (s : State) : Host.Outcome State Fault Refusal :=
  s.event (fun clk m => m.endMonWait core slot thread (fun t => match t.since with | some (_, t0) => decide (t0 + 65536 ≤ clk.time) | none => false))

/-! ## Stage rings -/

def Ring.bit (l : List Bool) (i : Nat) : Bool := l.getD i false
/-- A ring the header grants no stage is a bad handle (R314). -/
def Ctx.withRing (c : Ctx) (clk : Clock) (r : Nat) (k : Ring → Nat → Mach) : Mach :=
  let n := c.wg.hdr.rings.getD r 0
  if n = 0 then c.badHandle clk c.m 2 else if c.act.isEmpty then c.retire c.m else k (c.wg.rings.getD r {}) n
def Ctx.setRing (c : Ctx) (m : Mach) (r : Nat) (x : Ring) : Mach := m.atWg c (fun w => { w with rings := setAt w.rings r x })
/-- A thread waits for a side of a ring, or has been woken for it and has not issued yet. -/
def Ctx.awaitsStage (c : Ctx) (r : Nat) (producer : Bool) (t : Thread) : Bool :=
  t.status == .waiting (.stage r producer) ||
  (t.status == .ready &&
    (match c.m.fetchInstr c.core c.vf t.pc with
      | (.ok w ext, _) => (match decodeWord w ext with
        | .ok (.stgAcq _ n) => producer && n == r
        | .ok (.stgTake _ n) => !producer && n == r
        | _ => false)
      | _ => false))
/-- An issue group that waited on the same side before this one is served first (R297). -/
def Ctx.mustQueue (c : Ctx) (r : Nat) (producer : Bool) : Bool :=
  let mine := match c.leaderT.since with | some (n, _) => n | none => c.m.seq + 1
  (c.wg.threads.mapIdx (fun i t => (i, t))).any (fun e =>
    !c.ig.threads.contains e.1 && (match e.2.since with | some (n, _) => decide (n < mine) | none => false) && c.awaitsStage r producer e.2)

def stgAcqRun (d r : Nat) (clk : Clock) (c : Ctx) : Mach :=
  c.withRing clk r (fun x _ =>
    if Ring.bit x.full x.ip || Ring.bit x.heldP x.ip || c.mustQueue r true then c.wait clk c.m c.act (.stage r true)
    else c.retireK (c.setRing c.m r { x with heldP := setAt x.heldP x.ip true }) d (x.ip + 256 * bit (Ring.bit x.phase x.ip)))
def stgCommitRun (r : Nat) (clk : Clock) (c : Ctx) : Mach :=
  c.withRing clk r (fun x n =>
    if !Ring.bit x.heldP x.ip then c.badHandle clk c.m 2
    else c.afterHeld clk (c.retire (c.setRing c.m r { x with
      full := setAt x.full x.ip true, phase := setAt x.phase x.ip (!Ring.bit x.phase x.ip), heldP := setAt x.heldP x.ip false,
      ip := (x.ip + 1) % n })))
def stgTakeRun (d r : Nat) (clk : Clock) (c : Ctx) : Mach :=
  c.withRing clk r (fun x _ =>
    if !Ring.bit x.full x.ic || Ring.bit x.heldC x.ic || c.mustQueue r false then c.wait clk c.m c.act (.stage r false)
    else c.retireK (c.setRing c.m r { x with heldC := setAt x.heldC x.ic true }) d (x.ic + 256 * bit (Ring.bit x.phase x.ic)))
def stgFreeRun (r : Nat) (clk : Clock) (c : Ctx) : Mach :=
  c.withRing clk r (fun x n =>
    if !Ring.bit x.heldC x.ic then c.badHandle clk c.m 2
    else c.afterHeld clk (c.retire (c.setRing c.m r { x with
      full := setAt x.full x.ic false, heldC := setAt x.heldC x.ic false, ic := (x.ic + 1) % n })))

def execStgAcq (d r : Nat) (s : State) : Host.Outcome State Fault Refusal := s.group (stgAcqRun d r)
def execStgCommit (r : Nat) (s : State) : Host.Outcome State Fault Refusal := s.group (stgCommitRun r)
def execStgTake (d r : Nat) (s : State) : Host.Outcome State Fault Refusal := s.group (stgTakeRun d r)
def execStgFree (r : Nat) (s : State) : Host.Outcome State Fault Refusal := s.group (stgFreeRun r)

end Sys2Proof.Machine
end

