-- ==== Sys2Proof/Machine/Copy.lean ====
section
/-! DEFINITION. The copy engine (R290 to R292, R315 to R322, R438): queueing a command, starting it, performing it, failing it, and
its stamps. A command's bytes are read and written when it completes, which is a moment within its span (log 19). -/
namespace Sys2Proof.Machine

/-! ## Issue (R317, R320) -/

/-- The checks of a counted barrier: R311, only 1 and 2 of them when the barrier lies in another workgroup. -/
def Ctx.copyBar (c : Ctx) (clk : Clock) (bar : Option Nat) (localBar : Bool) (k : Option Nat → Mach) : Mach :=
  match bar with
  | none => k none
  | some r =>
    let o := c.leadK r % 4294967296
    let trap (m : Mach) (cause : Nat) : Mach := c.trapAct clk m cause c.leaderT.lane (BitVec.ofNat 80 o)
    if o % 8 ≠ 0 then trap c.m 3
    else if c.wg.scratchBytes < o + 8 then
      trap (c.m.logErr clk c.vf 1 5 c.leaderT.lane c.core (c.leaderT.wid % 4294967296) o) 5
    else if localBar && !c.wg.live o then c.badValue clk c.m 9
    else k (some o)

/-- A tile as a copy's source or destination: granted, defined, and M = 0 (R317). -/
def Ctx.copyTile (c : Ctx) (clk : Clock) (t : Nat) (k : Mach) : Mach :=
  c.tileHandle clk t (fun x => if x.m then c.badHandle clk c.m 1 else k)
/-- Alignment of operand addresses (R317): the lowest lane's that is no multiple of `n` decides (R370). -/
def Ctx.copyAlign (c : Ctx) (clk : Clock) (n : Nat) (as : List (Nat × Nat)) (k : Mach) : Mach :=
  match (sortBy (·.1) as).find? (fun a => a.2 % n != 0) with
  | some a => c.trapAct clk c.m 3 a.1 (BitVec.ofNat 80 a.2)
  | none => k

/-- Put a command into the queue: the issue is a release fence (R291, R438), of device scope and wider, that seals a rollback interval for
the reason given; a command that seals none leaves the store buffer as it is (R322). The tiles it names are its own from now on: the
scoreboard holds what names them until the command is done (R257), and they turn to filling or draining when it starts (R318; log 98). -/
def Ctx.queueCopy (c : Ctx) (clk : Clock) (reason : Option Nat) (kind : CopyKind) (size : Nat) (bar : Option Nat) (o : CopyOpts)
    (tiles : List Nat) (tag : Nat) (failed : Bool) : Mach :=
  if 32 ≤ (c.m.core c.core).copies.length then c.m
  else c.afterHeld clk (
    let m := match reason with
      | some r => (c.m.seal clk c.core c.slot r).release clk c.core c.slot 5
      | none => c.m.writeBackAll c.core
    let (id, m) := m.newId
    let m := { m with seq := m.seq + 1 }
    let cmd : Copy := { id, slot := c.slot, seq := m.seq, kind, size, bar, tag, bd := o.bd.map (fun b => (b, c.bd b)), failed }
    let m := m.modCore c.core (fun k => { k with copies := k.copies ++ [cmd] })
    c.retire (tiles.foldl (fun m t => m.setTile c.core c.slot t { c.wg.tile t with job := some (.command id) }) m))

/-- The role, then the handles, then a lane to act for. -/
def Ctx.copyIssue (c : Ctx) (clk : Clock) (tiles : List Nat) (k : Mach) : Mach :=
  if c.role ≠ 0 then c.badRole clk c.m
  else
    tiles.foldr (fun t k => c.copyTile clk t k)
      (if c.act.isEmpty then c.tileSkip clk tiles else tiles.foldr (fun t k => c.tileReady clk t (fun _ => k)) k)

def Ctx.lane0 (c : Ctx) : Nat := c.leaderT.lane
def cpG2tRun (t a : Nat) (o : CopyOpts) (clk : Clock) (c : Ctx) : Mach :=
  c.copyIssue clk [t] (c.copyBar clk o.bar true (fun bar =>
    c.copyAlign clk 16 [(c.lane0, c.leadA a)] (
      c.queueCopy clk none (.g2t t (BitVec.ofNat 80 (c.leadA a))) (c.wg.tile t).bytes bar o [t] o.tag false)))
def cpT2gRun (a t : Nat) (o : CopyOpts) (clk : Clock) (c : Ctx) : Mach :=
  c.copyIssue clk [t] (c.copyBar clk o.bar true (fun bar =>
    c.copyAlign clk 16 [(c.lane0, c.leadA a)] (
      c.queueCopy clk (some 4) (.t2g (BitVec.ofNat 80 (c.leadA a)) t) (c.wg.tile t).bytes bar o [t] o.tag false)))
def cpG2gRun (d s n : Nat) (o : CopyOpts) (clk : Clock) (c : Ctx) : Mach :=
  c.copyIssue clk [] (c.copyBar clk o.bar true (fun bar =>
    let n := c.leadK n % 4294967296
    c.copyAlign clk 16 [(c.lane0, c.leadA s), (c.lane0, c.leadA d), (c.lane0, n)] (
      c.queueCopy clk (some 4) (.g2g (BitVec.ofNat 80 (c.leadA d)) (BitVec.ofNat 80 (c.leadA s)) n) n bar o [] o.tag false)))
/-- The element addresses of a gather or scatter (R318). -/
def Ctx.elemAddrs (c : Ctx) (a v scale : Nat) : List (Nat × Nat) :=
  c.act.map (fun i => let t := c.wg.thread i
    (t.lane, (BitVec.ofNat 80 (c.leadA a) + BitVec.ofInt 80 (sext 32 (t.getV v).toNat * (2 ^ scale : Nat))).toNat))
def cpElemRun (scatter : Bool) (e t a v scale k : Nat) (o : CopyOpts) (clk : Clock) (c : Ctx) : Mach :=
  c.copyIssue clk [t] (c.copyBar clk o.bar true (fun bar =>
    let sz := 4 * 2 ^ e
    let off := c.leadK k
    c.copyAlign clk (min sz 16) (c.elemAddrs a v scale) (c.copyAlign clk 4 [(c.lane0, off)] (
      let n := c.act.length * sz
      if (c.wg.tile t).bytes < off + n then c.trapAct clk c.m 5 c.lane0 (BitVec.ofNat 80 off)
      else
        let addrs := (c.elemAddrs a v scale).map (fun x => BitVec.ofNat 80 x.2)
        if scatter then c.queueCopy clk (some 4) (.scatter addrs t off sz) n bar o [t] o.tag false
        else c.queueCopy clk none (.gather t addrs off sz) n bar o [t] o.tag false))))
def cpFillRun (a v n : Nat) (o : CopyOpts) (clk : Clock) (c : Ctx) : Mach :=
  c.copyIssue clk [] (c.copyBar clk o.bar true (fun bar =>
    let n := c.leadK n % 4294967296
    c.copyAlign clk 16 [(c.lane0, c.leadA a), (c.lane0, n)] (
      c.queueCopy clk (some 4) (.fill (BitVec.ofNat 80 (c.leadA a)) (BitVec.ofNat 64 (c.leadK v)) n) n bar o [] o.tag false)))
def cpFillTileRun (t v : Nat) (o : CopyOpts) (clk : Clock) (c : Ctx) : Mach :=
  c.copyIssue clk [t] (c.copyBar clk o.bar true (fun bar =>
    c.queueCopy clk none (.fillTile t (BitVec.ofNat 64 (c.leadK v))) (c.wg.tile t).bytes bar o [t] o.tag false))

/-- The launch's group count (R170, R172). -/
def Ctx.groupCount (c : Ctx) : Nat := match c.m.launch? c.vf c.wg.launch with | some l => l.count | none => 0
/-- A tile copy to workgroups `targets` of the launch (R320); an own target's tile waits and fills as a local copy's. The barrier's live word
is checked here for a `cp.t2t` to the issuing workgroup alone (R317). -/
def Ctx.tileTargets (c : Ctx) (clk : Clock) (d s : Nat) (targets : List Nat) (localBar : Bool) (o : CopyOpts) : Mach :=
  let own := targets.contains c.wg.g && d != s
  let go : Mach := c.copyBar clk o.bar localBar (fun bar =>
    if targets.isEmpty || targets.any (fun g => c.groupCount ≤ g) then c.badValue clk c.m 10
    else c.queueCopy clk (if targets == [c.wg.g] then none else some 4) (.t2t d s targets) (c.wg.tile s).bytes bar o
      (if own then [d, s] else [s]) o.tag false)
  if own then
    if (c.wg.tile d).m || (c.wg.tile d).state == .empty then c.badValue clk c.m 1 else c.tileReady clk d (fun _ => go)
  else go
def cpT2tRun (d s g : Nat) (o : CopyOpts) (clk : Clock) (c : Ctx) : Mach :=
  if c.role ≠ 0 then c.badRole clk c.m
  else if c.wg.hdr.tiles ≤ d || d == s then c.badHandle clk c.m 1
  else c.copyIssue clk [s] (c.tileTargets clk d s [c.leadK g] (c.leadK g == c.wg.g) o)
def cpMcastRun (d s g k : Nat) (o : CopyOpts) (clk : Clock) (c : Ctx) : Mach :=
  if c.role ≠ 0 then c.badRole clk c.m
  else if c.wg.hdr.tiles ≤ d then c.badHandle clk c.m 1
  else c.copyIssue clk [s] (
    c.tileTargets clk d s ((upFrom 0 16).filterMap (fun i => if (c.leadK k).testBit i then some (c.leadK g + i) else none)) false o)
/-- `cp.t2t.reg`: B and the win flag depend on no operand, so they are judged for the whole group (R370), after the handles. -/
def cpT2tRegRun (s g w : Nat) (o : CopyOpts) (clk : Clock) (c : Ctx) : Mach :=
  let barred := o.bar.isNone || !c.wg.hdr.win
  if c.role ≠ 0 then c.badRole clk c.m
  else
    c.copyTile clk s (
      if c.act.isEmpty then (if barred then c.badHandle clk c.m 10 else c.tileSkip clk [s])
      else
        c.tileReady clk s (fun _ =>
          let tgt := c.leadK g
          c.copyBar clk o.bar (tgt == c.wg.g) (fun bar =>
            let warp := field (c.leadK w) 0 5
            let reg := field (c.leadK w) 8 8
            if barred then c.badHandle clk c.m 10
            else if (c.wg.hdr.threads + 31) / 32 ≤ warp || c.wg.alloc < reg + (c.wg.tile s).size || c.groupCount ≤ tgt then c.badValue clk c.m 10
            else c.queueCopy clk (some 4) (.t2tReg s tgt warp reg) (c.wg.tile s).bytes bar o [s] o.tag false)))
/-- A stamp address on a UO or channel page (R292). -/
def Mach.stampPage (m : Mach) (vf va : Nat) : Bool :=
  match translate m vf va .write with | .channelPage => true | .ok _ kind | .remote _ _ kind => kind == 2 | _ => false
def cpStampRun (a v mask : Nat) (sys : Bool) (clk : Clock) (c : Ctx) : Mach :=
  c.copyIssue clk [] (
    let va := c.leadA a
    if va % 8 = 0 ∧ c.m.stampPage c.vf va then c.trapAct clk c.m 5 c.lane0 (BitVec.ofNat 80 va)
    else
      c.checkedStop clk c.m 8 [.write] 1 0 [{ thread := c.act.headD 0, lane := c.lane0, va, n := 8 }] (fun _ m =>
        ({ c with m }).queueCopy clk (some 4) (.stamp (BitVec.ofNat 80 va) (BitVec.ofNat 64 (c.leadK v)) mask sys) 0 none
          { bar := none, tag := 0, bd := none } [] 8 (c.wg.failTags &&& mask != 0)))
/-- `lz.send` (R438). -/
def lzSendRun (any : Bool) (z s t w path : Nat) (clk : Clock) (c : Ctx) : Mach :=
  c.copyIssue clk [t] (
    let va := c.leadA w
    if va % 8 ≠ 0 then c.trapAct clk c.m 3 c.lane0 (BitVec.ofNat 80 va)
    else if c.m.stampPage c.vf va then c.trapAct clk c.m 5 c.lane0 (BitVec.ofNat 80 va)
    else
      c.queueCopy clk (some 2) (.lzSend (c.leadK z) (c.leadK s % 64) t (BitVec.ofNat 80 va) path any) (c.wg.tile t).bytes none
        { bar := none, tag := 0, bd := none } [t] 8 false)

def execCpG2t (t a : Nat) (o : CopyOpts) (s : State) : Host.Outcome State Fault Refusal := s.group (cpG2tRun t a o)
def execCpT2g (a t : Nat) (o : CopyOpts) (s : State) : Host.Outcome State Fault Refusal := s.group (cpT2gRun a t o)
def execCpG2g (d r n : Nat) (o : CopyOpts) (s : State) : Host.Outcome State Fault Refusal := s.group (cpG2gRun d r n o)
def execCpGather (e t a v scale k : Nat) (o : CopyOpts) (s : State) : Host.Outcome State Fault Refusal :=
  s.group (cpElemRun false e t a v scale k o)
def execCpScatter (e a v scale t k : Nat) (o : CopyOpts) (s : State) : Host.Outcome State Fault Refusal :=
  s.group (cpElemRun true e t a v scale k o)
def execCpFill (a v n : Nat) (o : CopyOpts) (s : State) : Host.Outcome State Fault Refusal := s.group (cpFillRun a v n o)
def execCpFillTile (t v : Nat) (o : CopyOpts) (s : State) : Host.Outcome State Fault Refusal := s.group (cpFillTileRun t v o)
def execCpT2t (d r g : Nat) (o : CopyOpts) (s : State) : Host.Outcome State Fault Refusal := s.group (cpT2tRun d r g o)
def execCpT2tReg (r g w : Nat) (o : CopyOpts) (s : State) : Host.Outcome State Fault Refusal := s.group (cpT2tRegRun r g w o)
def execCpMcast (d r g k : Nat) (o : CopyOpts) (s : State) : Host.Outcome State Fault Refusal := s.group (cpMcastRun d r g k o)
def execCpStamp (a v mask : Nat) (sys : Bool) (s : State) : Host.Outcome State Fault Refusal := s.group (cpStampRun a v mask sys)
def execLzSend (z k t w path : Nat) (s : State) : Host.Outcome State Fault Refusal := s.group (lzSendRun false z k t w path)
def execLzSendAny (z k t w path : Nat) (s : State) : Host.Outcome State Fault Refusal := s.group (lzSendRun true z k t w path)

/-! ## The engine -/

def Mach.copy? (m : Mach) (core id : Nat) : Option Copy := (m.core core).copies.find? (·.id == id)
def Mach.modCopy (m : Mach) (core id : Nat) (f : Copy → Copy) : Mach :=
  m.modCore core (fun c => { c with copies := c.copies.map (fun x => if x.id = id then f x else x) })
def Mach.dropCopy (m : Mach) (core id : Nat) : Mach := m.modCore core (fun c => { c with copies := c.copies.filter (·.id ≠ id) })
def CopyKind.isStamp : CopyKind → Bool | .stamp .. => true | _ => false
def Copy.fillTiles (c : Copy) : List Nat :=
  match c.kind with | .g2t t _ | .gather t _ _ _ | .fillTile t _ => [t] | _ => []
def Copy.drainTiles (c : Copy) : List Nat :=
  match c.kind with | .t2g _ t | .scatter _ t _ _ | .lzSend _ _ t _ _ _ => [t] | .t2t _ s _ | .t2tReg s _ _ _ => [s] | _ => []
/-- The tile is the command's: held from its issue, filling or draining from its start. -/
def Tile.isOf (x : Tile) (id : Nat) : Bool := x.job == some (.command id)
/-- A command starts: its destination tile is filling, its source tile draining (R318). -/
def Mach.startTiles (m : Mach) (core : Nat) (c : Copy) : Mach :=
  let to_ (st : TileState) (m : Mach) (t : Nat) : Mach :=
    m.modWg core c.slot (fun w => if (w.tile t).isOf c.id then w.setTile t { (w.tile t) with state := st } else w)
  c.drainTiles.foldl (to_ .draining) (c.fillTiles.foldl (to_ .filling) m)
/-- A source tile is ready again, unchanged. -/
def Mach.drained (m : Mach) (core slot id t : Nat) : Mach :=
  m.modWg core slot (fun w => if (w.tile t).isOf id then w.setTile t { (w.tile t) with state := .ready, job := none } else w)
/-- A trap an engine's failure leaves in a tile of the command (R371). -/
def Mach.deferTo (m : Mach) (core slot t cause addr info : Nat) : Mach :=
  m.modWg core slot (fun w => w.setTile t { (w.tile t) with trap := some { cause, addr, info } })

/-- A command has failed (R321): its tag is remembered, later stamps that cover it carry bit 63, and the log records it. -/
def Mach.noteFailed (m : Mach) (clk : Clock) (core : Nat) (c : Copy) (code addr : Nat) : Mach :=
  match m.wg? core c.slot with
  | none => m
  | some w =>
    let m := (m.setWg core c.slot { w with failTags := w.failTags ||| 2 ^ c.tag }).modCore core (fun k =>
      { k with copies := k.copies.map (fun x =>
        match x.kind with
        | .stamp _ _ mask _ => if x.slot = c.slot ∧ c.seq < x.seq ∧ mask.testBit c.tag then { x with failed := true } else x
        | _ => x) })
    m.logErr clk w.vf 2 code 0 core 0 addr
/-- The command leaves the engine: its barrier counts its bytes, its source tiles are ready, its destination tiles are filled, or
stay filling with a deferred trap (R318, R321). -/
def Mach.endCopy (m : Mach) (clk : Clock) (core : Nat) (c : Copy) (trap : Option (Nat × Nat × Nat)) : Mach :=
  let m := m.dropCopy core c.id
  let m := c.drainTiles.foldl (fun m t => m.drained core c.slot c.id t) m
  let m := c.fillTiles.foldl (fun m t => m.modWg core c.slot (fun w =>
    match trap with
    | none => w.setTile t (w.tile t).filled
    | some (cause, addr, info) => w.setTile t ({ w.tile t with state := .filling }.fail cause addr info))) m
  match c.kind, c.bar with
  | .t2t .., _ | .t2tReg .., _ => m
  | _, some off => m.barDeliver clk core c.slot off c.size
  | _, none => m

/-- A page of a command has no translation (R321): an entry of kind 5, and the command waits; not while the queue is full. -/
def Mach.copyFault (m : Mach) (clk : Clock) (core : Nat) (c : Copy) (va access : Nat) : Option Mach := do
  let w ← m.wg? core c.slot
  if !m.faultRoom w.vf 1 then none
  else
    let (id, m) := m.newId
    some ((m.modCopy core c.id (fun c => { c with waitFault := some id })).postFault clk w.vf
      { va, time := 0, core, slot := c.slot, warp := 255, kind := 5, access, olog := 255, flags := bit w.hdr.ordered * 2, lanes := 0,
        wid := w.base, launch := w.hdr.addr, rec_ := c.id })

/-- A part an engine's access fails on: a missing right, a channel page, a device that no path reaches (R321, R423). -/
def Mach.partFails (m : Mach) (p : Part) : Bool :=
  match p.tr with
  | .violation | .channelPage => true
  | .remote d _ _ => d != m.devnum && m.unreachable d
  | _ => false
/-- The pieces of ranges before the first that is refused, and that one's address. -/
def goodParts (m : Mach) : List Part → List Part × Option Nat
  | [] => ([], none)
  | p :: ps => if m.partFails p then ([], some p.va) else let (qs, e) := goodParts m ps; (p :: qs, e)
/-- The ranges a command reads and writes in memory. -/
def Copy.reads (c : Copy) : List (Nat × Nat) :=
  match c.kind with
  | .g2t _ a => spansOf a.toNat c.size
  | .g2g _ s n => spansOf s.toNat n
  | .gather _ as _ sz => (as.map (fun a => spansOf a.toNat sz)).flatten
  | _ => []
def Copy.writes (c : Copy) : List (Nat × Nat) :=
  match c.kind with
  | .t2g d _ => spansOf d.toNat c.size
  | .g2g d _ n => spansOf d.toNat n
  | .fill d _ n => spansOf d.toNat n
  | .scatter ds _ _ sz => (ds.map (fun a => spansOf a.toNat sz)).flatten
  | _ => []
/-- Bytes of a `cp.fill` (R318). -/
def fillBytes (v : K64) (n : Nat) : List Byte := (upFrom 0 n).map (fun i => BitVec.ofNat 8 (v.toNat / 256 ^ (i % 8)))
/-- The bytes a command has to write, from its tile or its value. -/
def Mach.copySource (m : Mach) (core : Nat) (w : Wg) (c : Copy) : List Byte :=
  match c.kind with
  | .t2g _ t => m.scratchRead core c.slot (w.tile t).off c.size
  | .scatter _ t off _ => m.scratchRead core c.slot ((w.tile t).off + off) c.size
  | .fill _ v n => fillBytes v n
  | .fillTile _ v => fillBytes v c.size
  | .t2t _ s _ | .t2tReg s _ _ _ => m.scratchRead core c.slot (w.tile s).off c.size
  | .lzSend _ _ t _ _ _ => m.scratchRead core c.slot (w.tile t).off c.size
  | _ => []
/-- Where a command's bytes go in the workgroup's scratchpad. -/
def Copy.scratchDst (c : Copy) (w : Wg) : Option Nat :=
  match c.kind with
  | .g2t t _ | .fillTile t _ => some (w.tile t).off
  | .gather t _ off _ => some ((w.tile t).off + off)
  | _ => none

/-- Write checked bytes element by element: the bound register, the machine, and the address trap mode stopped at. -/
def writeChecked (m : Mach) (core : Nat) : List Part → List Byte → Option Bound → Option Bound × Mach × Option Nat
  | [], _, b => (b, m, none)
  | p :: ps, bs, none => let (b, m, e) := writeChecked (m.bulkWrite core [p] (bs.take p.n)) core ps (bs.drop p.n) none; (b, m, e)
  | p :: ps, bs, some b =>
    let (b, out, stop) := b.bytes p.va p.n (bs.take p.n)
    let m := m.bulkWrite core [{ p with n := out.length }] out
    match stop with
    | some a => (some b, m, some a)
    | none => writeChecked m core ps (bs.drop p.n) (some b)

/-- The violations a command found are added to its bound register (R379). -/
def Mach.foldBound (m : Mach) (core slot n : Nat) (b0 b : Bound) : Mach :=
  m.modWg core slot (fun w =>
    let cur := w.bds.getD n {}
    { w with bds := setAt w.bds n { cur with
        v := cur.v || b.v, count := min (cur.count + (b.count - b0.count)) 65535,
        first := if cur.count = 0 ∧ b0.count < b.count then b.first else cur.first,
        f := if cur.count = 0 ∧ b0.count < b.count then b.f else cur.f } })

/-- Perform a command that is no stamp, no copy to other workgroups and no `lz.send`. -/
def Mach.performCopy (m : Mach) (clk : Clock) (core : Nat) (c : Copy) (w : Wg) : Option Mach :=
  let (rs, m) := m.bulkTrans core w.vf .read c.reads
  let (ws, m) := m.bulkTrans core w.vf .write c.writes
  let missing (ps : List Part) := (goodParts m ps).1.find? (fun p => p.tr == .noTranslation || p.tr == .discarded)
  match missing rs with
  | some p => m.copyFault clk core c p.va 0
  | none =>
    match missing ws with
    | some p => m.copyFault clk core c p.va 1
    | none =>
      let (good, bad) := goodParts m rs
      let good := match bulkPoison m good with
        | some a => good.takeWhile (fun p => !(p.va ≤ a && a < p.va + p.n))
        | none => good
      let poison := bulkPoison m (goodParts m rs).1
      let scratchBad := (c.drainTiles.findSome? (fun t => m.scratchPoison core c.slot (w.tile t).off (w.tile t).bytes))
      let (bs, m) := m.bulkRead core good
      let data := if c.reads.isEmpty then m.copySource core w c else bs
      match scratchBad with
      | some o =>
        some (c.drainTiles.foldl (fun m t => m.deferTo core c.slot t 12 o 2) ((m.noteFailed clk core c 2 o).endCopy clk core c (some (12, o, 2))))
      | none =>
        match c.scratchDst w with
        | some off =>
          let (refused, m) := m.deliver core c.slot off data
          match poison, bad, refused with
          | some a, _, _ => some ((m.noteFailed clk core c 2 a).endCopy clk core c (some (12, a, 5)))
          | none, some a, _ => some ((m.noteFailed clk core c 2 a).endCopy clk core c (some (5, a, 255)))
          | none, none, some o => some ((m.noteFailed clk core c 1 (w.windowAt core o)).endCopy clk core c (some (5, o, 255)))
          | none, none, none => some (m.endCopy clk core c none)
        | none =>
          let (out, badW) := goodParts m ws
          let n := data.length
          let out := out.foldl (fun (s : List Part × Nat) p => if s.2 < p.n then (s.1 ++ [{ p with n := s.2 }], 0) else (s.1 ++ [p], s.2 - p.n))
            ([], n) |>.1
          let (b, m, stop) := writeChecked m core out data (c.bd.map (·.2))
          let m := match c.bd, b with | some (i, b0), some b1 => m.foldBound core c.slot i b0 b1 | _, _ => m
          match poison, bad, badW, stop with
          | some a, _, _, _ | none, some a, _, _ | none, none, some a, _ =>
            some ((m.noteFailed clk core c 2 a).endCopy clk core c none)
          | none, none, none, some a =>
            let m := (m.noteFailed clk core c 2 a).endCopy clk core c none
            some (c.drainTiles.foldl (fun m t => m.deferTo core c.slot t 8 a ((c.bd.map (·.1)).getD 0)) m)
          | none, none, none, none => some (m.endCopy clk core c none)

/-- The route's port of path `p`, when it is up (R423). -/
def Mach.pathPort (m : Mach) (dev p : Nat) : Option Nat :=
  match tget m.routes dev with
  | none => none
  | some ps => match ps[p]? with | some x => if m.portUp x then some x else none | none => none
/-- An `lz.send` starts (R438): a zone of this device takes the payload at once; a peer's gets it over the chosen path; with no
path the status is 4. -/
def Mach.startSend (m : Mach) (clk : Clock) (core : Nat) (c : Copy) (w : Wg) (name i : Nat) (path : Nat) (any : Bool) : Mach :=
  let dev := field name 0 11
  let data := m.copySource core w c
  let from_ : Sender := { dev := m.devnum, vf := w.vf, header := w.hdr.addr, group := w.g }
  let m := m.startTiles core c
  match c.drainTiles.findSome? (fun t => m.scratchPoison core c.slot (w.tile t).off c.size) with
  | some o =>
    -- log 99: a send whose source is bad leaves as a refused one does
    (c.drainTiles.foldl (fun m t => m.deferTo core c.slot t 12 o 2) (m.noteFailed clk core c 2 o)).modCopy core c.id (fun c =>
      { c with started := true, done := [3] })
  | none =>
  if dev = m.devnum then
    match m.zPayload clk name i 0 data.length data from_ with
    | (.more, m) => m.modCopy core c.id (fun c => { c with started := true, done := [0] })
    | (.arrived whole, m) =>
      (if whole then m else m.noteFailed clk core c 2 name).modCopy core c.id (fun c => { c with started := true, done := [if whole then 0 else 3] })
    | (.refused st, m) => m.modCopy core c.id (fun c => { c with started := true, done := [st] })
    | (.fault, m) => m.modCopy core c.id (fun c => { c with waitFault := some 0 })
  else
    let paths := if any then (upFrom 0 4).map (fun j => (path + j) % 4) else [path]
    match paths.findSome? (m.pathPort dev) with
    | some port =>
      (m.modCopy core c.id (fun c => { c with started := true, port })).send dev
        (leBytes 1 9 ++ leBytes 8 name ++ leBytes 1 i ++ leBytes 8 c.id ++ senderBytes from_ ++ data)
    | none =>
      let chosen := match tget m.routes dev with | some ps => ps.getD path 0 | none => 0
      (m.modCopy core c.id (fun c => { c with started := true, done := [4] })).logErr clk w.vf 8 4 0 core 0 chosen

/-- The command that starts next: commands start in the order they issued, at most 16 at a time (R290). One that waits for a fault keeps
no other back (R289, R321). -/
def Mach.nextCopy (m : Mach) (core : Nat) : Option Copy :=
  -- a workgroup that is leaving starts none (R392)
  let stays (slot : Nat) : Bool := match m.wg? core slot with | some w => w.leaving == 0 | none => false
  let cmds := (m.core core).copies.filter (fun x => !x.kind.isStamp && (x.started || stays x.slot))
  if 16 ≤ (cmds.filter (·.started)).length then none
  else cmds.find? (fun x => !x.started && x.waitFault.isNone)
/-- COPY_COMMAND_START. A copy to other workgroups reads its source now: each byte once, for every target (R318). -/
def execCopyCommandStart (core id : Nat) (s : State) : Host.Outcome State Fault Refusal :=
  s.event (fun clk m => do
    let c ← m.nextCopy core
    let w ← m.wg? core c.slot
    if c.id ≠ id then none
    else
      match c.kind with
      | .lzSend name i _ _ path any => some (m.startSend clk core c w name i path any)
      | .t2t .. | .t2tReg .. =>
        let data := m.copySource core w c
        let bad := c.drainTiles.findSome? (fun t => m.scratchPoison core c.slot (w.tile t).off c.size)
        let m := match bad with | some o => m.noteFailed clk core c 2 o | none => m
        some (c.drainTiles.foldl (fun m t => m.drained core c.slot c.id t) (m.modCopy core id (fun c => { c with started := true, data, bad })))
      | _ => some ((m.modCopy core id (fun c => { c with started := true })).startTiles core c))
/-- Targets of a copy to other workgroups. -/
def Copy.targets (c : Copy) : List Nat :=
  match c.kind with | .t2t _ _ ts => ts | .t2tReg _ t _ _ => [t] | _ => []
/-- COPY_COMMAND_COMPLETE: the command's bytes are moved and its completion is signalled. -/
def execCopyCommandComplete (core id : Nat) (s : State) : Host.Outcome State Fault Refusal :=
  s.event (fun clk m => do
    let c ← m.copy? core id
    let w ← m.wg? core c.slot
    if !c.started || c.waitFault.isSome then none
    else
      match c.kind with
      | .stamp .. | .lzSend .. => none
      | .t2t .. | .t2tReg .. => if c.targets.all c.done.contains then some (m.endCopy clk core c none) else none
      | _ => m.performCopy clk core c w)

/-- The register-window address of lane `lane` of register `reg` of a warp (R202): rows of a workgroup's warps stand one after the other. -/
def Wg.registerAt (w : Wg) (core warp reg lane : Nat) : Nat := registerWindow core (w.row + warp * 8 * w.hdr.vregs + reg) lane
/-- A register destination (R320): register n + j of each thread of the warp takes its lane's four bytes of row j, the bytes that go to the
window address `Wg.registerAt` of that register and lane. -/
def writeRegs (w : Wg) (warp reg : Nat) (data : List Byte) : Wg :=
  { w with threads := w.threads.map (fun t =>
      if t.warp = warp ∧ t.status ≠ .exited then
        (upFrom 0 (data.length / 128)).foldl (fun t j => t.setV (reg + j) (BitVec.ofNat 32 (leNat ((data.drop (128 * j + 4 * t.lane)).take 4)))) t
      else t) }
/-- Has group `g` of a launch ended? -/
def Mach.groupEnded (m : Mach) (vf launch g : Nat) : Bool :=
  match m.launch? vf launch with
  | none => true
  | some l => l.killed || l.ended.contains g || m.wgs.any (fun e => e.2.vf == vf && e.2.launch == launch && e.2.g == g && e.2.isGroup && e.2.ending)
/-- T2T_TARGET_WRITE: one target's part (R320), once the target's tile is ready. A target that has ended is skipped, logged with its index, and
fails. The wait on a tile that another workgroup has filled acquires at device scope (R291): its core keeps no older copy. -/
def execT2tTargetWrite (core id target : Nat) (s : State) : Host.Outcome State Fault Refusal :=
  s.event (fun clk m => do
    let c ← m.copy? core id
    let w ← m.wg? core c.slot
    if !c.started || !c.targets.contains target || c.done.contains target then none
    else
      let m := m.modCopy core id (fun c => { c with done := c.done ++ [target] })
      if m.groupEnded w.vf w.launch target then some (m.noteFailed clk core c 4 target)
      else
        let (k, x) ← m.wgs.find? (fun e => e.2.vf == w.vf && e.2.launch == w.launch && e.2.g == target && e.2.isGroup)
        let count (m : Mach) : Mach := match c.bar with | some off => m.barDeliver clk (k / 64) (k % 64) off c.size | none => m
        match c.kind with
        | .t2tReg src _ warp reg =>
          match c.bad with
          | some o => some ((count m).deferTo core c.slot src 12 o 2)
          | none => some (count (m.setWg (k / 64) (k % 64) (writeRegs x warp reg c.data)))
        | .t2t d _ _ =>
          let t := x.tile d
          let failed (m : Mach) (cause o info : Nat) : Mach :=
            count (m.setTile (k / 64) (k % 64) d ({ t with state := .filling }.fail cause o info))
          if !(t.state == .ready && t.trap.isNone && (t.job.isNone || t.isOf id)) then none
          else
            match c.bad with
            | some o => some (failed m 12 o 2)
            | none =>
              let (refused, m) := m.deliver (k / 64) (k % 64) t.off (c.data.take t.bytes)
              let bad := match refused with
                | some o => some o
                | none => if t.bytes < c.size then some (t.off + t.bytes) else none
              match bad with
              | none =>
                let m := count (m.setTile (k / 64) (k % 64) d t.filled)
                some (if target = w.g then m else m.acquire (k / 64) 5)
              | some o => some (failed (m.noteFailed clk core c 1 (x.windowAt (k / 64) o)) 5 o 255)
        | _ => none)

/-- Store eight bytes for an engine; the machine when the page is there, the fault's address when it is missing. -/
def Mach.storeWord (m : Mach) (core vf va v : Nat) : BulkRes × Mach :=
  let (ps, m) := m.bulkTrans core vf .write [(va, 8)]
  (bulkRes m ps, match bulkRes m ps with | .ok => m.bulkWrite core ps (leBytes 8 v) | _ => m)
/-- CP_STAMP_STORE: the stamp is stored once every covered command has gone and every earlier stamp has been stored (R319). -/
def execCpStampStore (core id : Nat) (s : State) : Host.Outcome State Fault Refusal :=
  s.event (fun clk m => do
    let c ← m.copy? core id
    let w ← m.wg? core c.slot
    match c.kind with
    | .stamp a v mask _ =>
      let before := (m.core core).copies.filter (fun x => x.slot == c.slot && decide (x.seq < c.seq))
      if c.waitFault.isSome || before.any (fun x => x.kind.isStamp || mask.testBit x.tag) then none
      else
        let (r, m) := m.storeWord core w.vf a.toNat (if c.failed then v.toNat ||| 2 ^ 63 else v.toNat)
        match r with
        | .ok => some (m.dropCopy core id)
        | .fault va _ => m.copyFault clk core c va 1
        | .refused va _ => some ((m.noteFailed clk core c 2 va).dropCopy core id)
    | _ => none)
/-- The command ends with its status word (R438, R442). For a zone of this device, and for a path that is down, the status is already
decided; a peer's acknowledgement decides any other. -/
def lzStatus (core id status : Nat) (clk : Clock) (m : Mach) : Option Mach := do
  let c ← m.copy? core id
  let w ← m.wg? core c.slot
  match c.kind with
  | .lzSend name i _ a _ _ =>
    if !c.started || c.waitFault.isSome || !(c.done == [status] || (c.done == [] && status < 4)) then none
    else
      let (r, m) := m.storeWord core w.vf a.toNat (pack [(8, status), (6, i), (2, 0), (8, c.port)])
      match r with
      | .fault va _ => (m.modCopy core c.id (fun c => { c with done := [status] })).copyFault clk core c va 1
      | _ =>
        let m := if status = 1 then m.logErr clk w.vf 8 1 0 core 0 name else m
        some (m.endCopy clk core c none)
  | _ => none
/-- LZ_STATUS_STORE. -/
def execLzStatusStore (core id status : Nat) (s : State) : Host.Outcome State Fault Refusal :=
  s.event (fun clk m => lzStatus core id status clk m)

/-- Cancel the commands of a killed workgroup that have not started: they fail (R394). -/
def Mach.cancelCopies (m : Mach) (clk : Clock) (core slot : Nat) : Mach :=
  ((m.core core).copies.filter (fun c => c.slot == slot && !c.started && !c.kind.isStamp)).foldl (fun m c =>
    (m.noteFailed clk core c 2 0).endCopy clk core c (some (5, 0, 255))) m

end Sys2Proof.Machine
end

