-- ==== Sys2Proof/Machine/Commands.lean ====
section
/-! DEFINITION. A function's registers, its command ring and its completions (R444 to R446). Command meanings use `Mach.finish` to
end a command; a completion that finds its ring full is kept until the host frees an entry. -/
namespace Sys2Proof.Machine

/-! ## Registers by offset (R444) -/

def Fn.reg (f : Fn) (off : Nat) : Nat := ((tget f.regs off).getD 0).toNat
def Mach.setReg (m : Mach) (vf off v : Nat) : Mach := m.modFn vf (fun f => { f with regs := tset f.regs off (BitVec.ofNat 64 v) })
def rCqbase : Nat := 0x10
def rCqsize : Nat := 0x18
def rCqtail : Nat := 0x20
def rCqhead : Nat := 0x28
def rCpbase : Nat := 0x30
def rCpsize : Nat := 0x38
def rCphead : Nat := 0x40
def rCptail : Nat := 0x48
def rIrqmask : Nat := 0x68
/-- Entries of a ring by its size code (R444): none below 4 or above 12. -/
def ringLen (code : Nat) : Nat := if 4 ≤ code % 16 ∧ code % 16 ≤ 12 then 2 ^ (code % 16) else 0

/-! ## Completions (R445) -/

/-- The completion ring of a function has room. -/
def Fn.complRoom (f : Fn) : Bool :=
  let n := ringLen (f.reg rCpsize)
  n != 0 && (f.reg rCptail + 1) % n != f.reg rCphead % n
/-- Write what the ring has room for: each completion with release at system scope, then CPTAIL, then the interrupt. -/
def Mach.writeCompls (m : Mach) (vf : Nat) : Nat → Mach
  | 0 => m
  | fuel + 1 =>
    let f := m.fn vf
    match f.compl with
    | [] => m
    | (bs, irq) :: rest =>
      if !f.complRoom then m
      else
        let t := f.reg rCptail
        let m := { m with host := HostMem.writeL m.host (f.reg rCpbase + 16 * t) bs }
        let m := (m.setFn vf { f with compl := rest }).setReg vf rCptail ((t + 1) % ringLen (f.reg rCpsize))
        (if irq then m.postHost vf 0 [] else m).writeCompls vf fuel
/-- Entries for a function's completion queue, each with whether it raises an interrupt. -/
def Mach.postCompl (m : Mach) (vf : Nat) (es : List (List Byte × Bool)) : Mach :=
  let m := m.modFn vf (fun f => { f with compl := f.compl ++ es })
  m.writeCompls vf ((m.fn vf).compl.length)
/-- End a command: its completion (tag, op, status, value). -/
def Mach.finish (m : Mach) (c : Cmd) (op status value : Nat) : Mach :=
  m.postCompl c.ring [(leBytes 2 c.tag ++ leBytes 1 op ++ leBytes 1 status ++ leBytes 4 0 ++ leBytes 8 value, c.irq)]
/-- The message of a signal-host node (R177) in the completion queue: an entry of the address, then one of the value, and an interrupt (log 53). -/
def Mach.signalHost (m : Mach) (vf addr value : Nat) : Mach :=
  m.postCompl vf [(leBytes 16 addr, false), (leBytes 8 value ++ leBytes 8 0, true)]

/-! ## Acceptance (R446) -/

/-- Why a virtual function's command is not started: its function is not active. The physical function's ring is not refused (log 39). -/
def Mach.vfRefused (m : Mach) (c : Cmd) : Option Nat := if c.ring < 128 ∧ (m.fn c.ring).state ≠ 1 then some 3 else none
/-- A VF command: op, then what it does for its function. -/
def State.vfCmd (s : State) (c : Cmd) (op : Nat) (f : Clock → Mach → Mach) : Host.Outcome State Fault Refusal :=
  s.always (fun clk m =>
    if 128 ≤ c.ring then m.finish c op 2 0
    else match m.vfRefused c with | some st => m.finish c op st 0 | none => f clk m)
/-- A PF command, which names its function. -/
def State.pfCmd (s : State) (c : Cmd) (op : Nat) (f : Clock → Mach → Mach) : Host.Outcome State Fault Refusal :=
  s.always (fun clk m => if c.ring ≠ 128 then m.finish c op 2 0 else if 128 ≤ c.target then m.finish c op 1 0 else f clk m)
/-- A PF command that names no function. -/
def State.devCmd (s : State) (c : Cmd) (op : Nat) (f : Clock → Mach → Mach) : Host.Outcome State Fault Refusal :=
  s.always (fun clk m => if c.ring ≠ 128 then m.finish c op 2 0 else f clk m)

end Sys2Proof.Machine
end

