-- ==== Sys2Proof/Machine/Rows.lean ====
section
/-! DEFINITION. Packed rows of 64 elements (R323), the sum of one matrix row (R79, R80), and encoding a row for `e.cvt` (R340). -/
namespace Sys2Proof.Machine

/-- Bytes of a packed row, and of a tile of `rows` of them with its scale area (R323). -/
def Fmt.rowBytes (f : Fmt) : Nat := match f.kind with | 0 => 4 * pleatBytes f.fracbits | 1 => 8 * f.ebits | _ => 128
def Fmt.tileBytes (f : Fmt) (rows : Nat) : Nat := rows * f.rowBytes + (if f.kind = 1 then 2 * rows else 0)
/-- Bytes and scale bytes of row `r` of a tile of `rows` rows. -/
def Fmt.tileRow (f : Fmt) (bytes : List Byte) (rows r : Nat) : List Byte × List Nat :=
  ((bytes.drop (r * f.rowBytes)).take f.rowBytes,
   if f.kind = 1 then (upFrom 0 2).map (fun j => (bytes.getD (rows * f.rowBytes + 2 * r + j) 0).toNat) else [])
/-- The 64 values of a packed row. -/
def Fmt.rowVals (f : Fmt) (bytes : List Byte) (scales : List Nat) : List FVal :=
  let str := leNat bytes
  (upFrom 0 64).map (fun k => f.readElem str k (scales.getD (k / 32) 0))

/-- The exact sum of one K block (R79, R80). -/
def blockSum (terms : List FVal) : FVal :=
  let infs := terms.filter (fun t => match t with | .inf _ => true | _ => false)
  if terms.any (·.isNan) || (infs.contains (.inf true) && infs.contains (.inf false)) then .nan false
  else
    match infs with
    | i :: _ => i
    | [] =>
      match terms with
      | [] => FVal.zero false
      | t :: ts => ts.foldl (fun a b => match a, b with | .fin x, .fin y => .fin (addFin x y false) | a, _ => a) t
/-- One block's step of an accumulator element: its new pattern and the pass flags. NV is set when the element becomes NaN (R338). -/
def blockStep (c : Nat) (terms : List FVal) : Nat × BitVec 5 :=
  let old := fmtF32.read c
  let (v, _) := nanOr [old, blockSum terms] (addVal old (blockSum terms) false)
  let (r, fl) := fmtF32.round v .rne 0
  (r, fl ||| flagIf (v.isNan && !old.isNan) nv)
/-- One element of a row against one column (R79). -/
def dotStep (c : Nat) (a b : List FVal) : Nat × BitVec 5 :=
  (upFrom 0 4).foldl (fun (s : Nat × BitVec 5) beta =>
    let terms := (((a.drop (16 * beta)).take 16).zip ((b.drop (16 * beta)).take 16)).map (fun p => (mulF p.1 p.2).1)
    let r := blockStep s.1 terms
    (r.1, s.2 ||| r.2)) (c, 0)

/-- What `e.cvt` makes of 64 values (R340): the row as a bit string, its scale bytes, the flags, and the elements R77 substituted. -/
structure RowEnc where
  str : Nat
  scales : List Nat
  flags : BitVec 5
  subs : List Nat
  deriving DecidableEq, Repr

/-- K8e4 (R72): its NaN code replaces a NaN (R379). -/
def Fmt.isK8e4 (f : Fmt) : Bool := match f.libShape with | some (F, 1) => F.ebits == 4 | _ => false
/-- Elements of a block of 32 that R77 replaces, under its scale byte. -/
def Fmt.substituted (f : Fmt) (xs : List (FVal × Bool)) (b : Nat) (rm : Rm) (us : List Nat) : List Nat :=
  let S := f.scaledFmt
  ((S.codes xs b rm us).zip xs).mapIdx (fun k c =>
    match c.2.1 with
    | .nan _ => if S.nan.isNone || f.isK8e4 then [k] else []
    | .inf _ => if S.inf.isNone then [k] else []
    | .fin _ => if S.inf.isNone && c.1.2.2 then [k] else []) |>.flatten
def Fmt.encodeRow (f : Fmt) (xs : List (FVal × Bool)) (rm : Rm) (us : List Nat) : RowEnc :=
  match f.kind with
  | 0 =>
    let bs := (upFrom 0 4).map (fun j => pleatEncode f.fracbits (((xs.drop (16 * j)).take 16).map (·.1)) rm ((us.drop (16 * j)).take 16))
    { str := packCodes (8 * pleatBytes f.fracbits) (bs.map (·.1)), scales := [], flags := bs.foldl (fun fl b => fl ||| b.2) 0, subs := [] }
  | 1 =>
    let half (j : Nat) := ((xs.drop (32 * j)).take 32, (us.drop (32 * j)).take 32)
    let enc (j : Nat) := scaledEncode f.scaledFmt (half j).1 rm (half j).2
    { str := packCodes f.ebits ((enc 0).1 ++ (enc 1).1), scales := [(enc 0).2.1, (enc 1).2.1], flags := (enc 0).2.2 ||| (enc 1).2.2,
      subs := f.substituted (half 0).1 (enc 0).2.1 rm (half 0).2 ++
        (f.substituted (half 1).1 (enc 1).2.1 rm (half 1).2).map (· + 32) }
  | _ =>
    let (str, _, fl) := f.encodeVals xs rm us
    { str, scales := [], flags := fl, subs := [] }
/-- The 256 bytes `e.cvt` writes: the row, the scale bytes after it, zeros. -/
def Fmt.rowImage (f : Fmt) (r : RowEnc) : List Byte :=
  let row := leBytes f.rowBytes r.str ++ r.scales.map (fun b => BitVec.ofNat 8 b)
  row ++ List.replicate (256 - row.length) 0

end Sys2Proof.Machine
end

