-- ==== Sys2Proof/Machine/Matrix.lean ====
section
/-! DEFINITION. The matrix unit (R299 to R307, R323 to R333, R338): group P's instructions, passes, B operands, the power tokens of a
die and the power of a macro. Operands of a pass are sampled at issue, which R303 and R329 allow (log 20). -/
namespace Sys2Proof.Machine

/-! ## The queues -/

def Mach.modMats (m : Mach) (core : Nat) (f : List MatItem → List MatItem) : Mach := m.modCore core (fun c => { c with mats := f c.mats })
def Mach.mac (m : Mach) (core mac : Nat) : Mac := (tget (m.core core).macs mac).getD {}
def Mach.setMac (m : Mach) (core mac : Nat) (x : Mac) : Mach := m.modCore core (fun c => { c with macs := tset c.macs mac x })
def MatItem.isPass (i : MatItem) : Bool := match i.work with | .pass .. => true | _ => false
/-- Work that passes through a macro. -/
def MatItem.onMac (i : MatItem) : Bool := match i.work with | .accWr .. | .accZero .. => false | _ => true
/-- The accumulator an item writes. -/
def MatItem.acc? (i : MatItem) : Option Nat := match i.work with | .pass a .. | .accWr a _ | .accZero a => some a | _ => none
/-- Work that is queued on an accumulator of a workgroup before issue number `seq`. -/
def Core.accBefore (c : Core) (slot acc seq : Nat) : Bool :=
  c.mats.any (fun i => i.slot == slot && i.acc? == some acc && decide (i.seq < seq))
/-- A drain of the accumulator queued before issue number `seq` that has not read its last row. -/
def Core.drainBefore (c : Core) (slot acc seq : Nat) : Bool :=
  c.drains.any (fun d => d.slot == slot && d.acc == acc && decide (d.seq < seq) && decide (d.row < 32))
/-- The macro holds a B for an instruction issued now (R327): its queued loads and frees decide, else what it holds. -/
def Core.willHoldB (c : Core) (mac : Nat) : Bool :=
  c.mats.foldl (fun b i => if i.mac = mac then (match i.work with | .load .. => true | .free => false | _ => b) else b)
    (((tget c.macs mac).getD {}).b.isSome)
/-- The B version a pass issued now binds (R299). -/
def Core.nextBver (c : Core) (mac : Nat) : Nat :=
  ((tget c.macs mac).getD {}).bver + (c.mats.filter (fun i => i.mac == mac && (match i.work with | .load .. => true | _ => false))).length

/-! ## Accumulators (R304, R332, R333) -/

def accKey (acc row col : Nat) : Nat := acc * 2048 + row * 64 + col
def Wg.accAt (w : Wg) (acc row col : Nat) : V32 := sget 0 w.acc (accKey acc row col)
/-- Write an element; an error in it is gone. -/
def Wg.setAcc (w : Wg) (acc row col : Nat) (x : V32) : Wg :=
  { w with acc := sset 0 w.acc (accKey acc row col) x, accPoison := w.accPoison.filter (· ≠ accKey acc row col) }
/-- The 64 elements of a row. -/
def Wg.accRow (w : Wg) (acc row : Nat) : List V32 := (upFrom 0 64).map (w.accAt acc row)
def Wg.setAccRow (w : Wg) (acc row : Nat) (xs : List V32) : Wg :=
  (xs.mapIdx (fun k x => (k, x))).foldl (fun w e => w.setAcc acc row e.1 e.2) w
def Wg.zeroAcc (w : Wg) (acc : Nat) : Wg :=
  { w with acc := w.acc.filter (fun e => !(e.1 / 2048 == acc)), accPoison := w.accPoison.filter (fun e => !(e / 2048 == acc)) }
/-- Elements of an accumulator are read: where one has an uncorrectable error, the next instruction that names the accumulator traps
(R325, R371, R378). -/
def Wg.readAcc (w : Wg) (acc : Nat) (rows cols : List Nat) : Wg :=
  if w.accPoison.any (fun k => k / 2048 == acc && rows.contains (k / 64 % 32) && cols.contains (k % 64)) && !w.accTrap.any (fun e => e.1 == acc) then
    { w with accTrap := w.accTrap ++ [(acc, { cause := 12, addr := 0, info := 3 })] }
  else w
/-- The work of an `acc.wr` or `acc.zero`. -/
def Mach.doAcc (m : Mach) (core slot : Nat) : MatWork → Mach
  | .accWr acc vals => m.modWg core slot (fun w => vals.foldl (fun w e => w.setAcc acc e.1 e.2.1 e.2.2) w)
  | .accZero acc => m.modWg core slot (fun w => w.zeroAcc acc)
  | _ => m
/-- Perform the accumulator writes whose turn has come, at most `fuel` of them (R332). -/
def Mach.settleAcc (m : Mach) (core : Nat) : Nat → Mach
  | 0 => m
  | fuel + 1 =>
    let c := m.core core
    match c.mats.find? (fun i => !i.onMac && (match i.acc? with
        | some a => !c.accBefore i.slot a i.seq && !c.drainBefore i.slot a i.seq
        | none => false)) with
    | none => m
    | some i => ((m.modMats core (·.filter (·.id ≠ i.id))).doAcc core i.slot i.work).settleAcc core fuel
def Mach.settleAccs (m : Mach) (core : Nat) : Mach := m.settleAcc core (m.core core).mats.length

/-! ## Checks (R325) -/

/-- An accumulator of the header's grant; an error found in it is raised here (R325, R371). -/
def Ctx.withAcc (c : Ctx) (clk : Clock) (acc : Nat) (k : Mach) : Mach := if c.wg.hdr.accs ≤ acc then c.badHandle clk c.m 7 else k
def Ctx.accTrapped (c : Ctx) (clk : Clock) (acc : Nat) (k : Mach) : Mach :=
  match c.wg.accTrap.find? (fun e => e.1 == acc) with
  | none => k
  | some (_, d) =>
    (c.m.atWg c (fun w => { w with accTrap := w.accTrap.filter (fun e => e.1 ≠ acc) })).consume clk c.core c.slot d.addr
      (fun m => c.trapAct clk m d.cause d.info (BitVec.ofNat 80 d.addr))
/-- A macro handle the header grants: its physical macro (R474). -/
def Ctx.withMac (c : Ctx) (clk : Clock) (h : Nat) (k : Nat → Mach) : Mach :=
  match c.wg.macs.find? (fun e => e.1 == h) with | none => c.badHandle clk c.m 6 | some e => k e.2
/-- A slot the launch holds, whose current plane holds a record: the plane's number and record. -/
def Ctx.withSlot (c : Ctx) (clk : Clock) (slot : Nat) (k : Nat → Fmt → Mach) : Mach :=
  match c.m.plane c.core slot with
  | none => c.badHandle clk c.m 5
  | some f => if c.wg.holds slot then k (c.m.planeNo c.core slot) f else c.badHandle clk c.m 5
/-- A tile operand: in the grant, defined, and M = 0. -/
def Ctx.matTile (c : Ctx) (clk : Clock) (t : Nat) (k : Tile → Mach) : Mach :=
  c.tileHandle clk t (fun x => if x.m then c.badHandle clk c.m 1 else k x)
def Ctx.matRole (c : Ctx) (clk : Clock) (k : Mach) : Mach := if c.role ≠ 1 then c.badRole clk c.m else k
/-- Queue one piece of work. -/
def Ctx.queueMat (c : Ctx) (m : Mach) (mac : Nat) (work : MatWork) : Mach :=
  let (id, m) := m.newId
  let m := { m with seq := m.seq + 1 }
  m.modMats c.core (· ++ [{ id, seq := m.seq, slot := c.slot, mac, work }])
/-- An engine read of a tile met an uncorrectable error (R325): the next instruction that names the tile raises it. -/
def Mach.tilePoison (m : Mach) (core slot t : Nat) : Mach :=
  m.modWg core slot (fun w =>
    let x := w.tile t
    match m.scratchPoison core slot x.off x.bytes with
    | none => w
    | some o => w.setTile t { x with trap := some { cause := 12, addr := o, info := 2 } })

/-! ## B operands (R326, R327) -/

def mbLoadRunI (h t slot : Nat) (clk : Clock) (c : Ctx) : Mach :=
  c.matRole clk (c.withMac clk h (fun mac =>
    if c.wg.hdr.tiles ≤ t then c.badHandle clk c.m 1
    else c.withSlot clk slot (fun plane f =>
      c.matTile clk t (fun x =>
        if x.bytes < f.tileBytes 64 then c.badHandle clk c.m 1
        else if c.act.isEmpty then c.tileSkip clk [t]
        else c.tileReady clk t (fun _ => c.retire (c.queueMat c.m mac (.load t slot plane f)))))))
def mbFreeRunI (h : Nat) (clk : Clock) (c : Ctx) : Mach :=
  c.matRole clk (c.withMac clk h (fun mac =>
    if c.act.isEmpty then c.retire c.m else c.retire (c.queueMat c.m mac .free)))

/-! ## Passes (R300, R301, R328, R329) -/

/-- A thread's A row (R323). -/
def Thread.aRow (t : Thread) (f : Fmt) (v vs sel : Nat) : ARow :=
  { row := t.lane, bytes := leBytes f.rowBytes (t.bitString v (f.rowBytes / 4)),
    scales := if f.kind = 1 then [t.scaleByte vs sel 0, t.scaleByte vs sel 1] else [] }
/-- The quarter operations of an issue group: ascending warp, then quarter (R300). -/
def Ctx.quarters (c : Ctx) (f : Fmt) (v vs sel : Nat) : List (List ARow) :=
  let warps := sortBy id ((c.act.map (fun i => (c.wg.thread i).warp)).eraseDups)
  ((warps.map (fun w => (upFrom 0 4).map (fun q =>
    (sortBy (fun i => (c.wg.thread i).lane) (c.act.filter (fun i => (c.wg.thread i).warp == w && (c.wg.thread i).lane / 8 == q))).map
      (fun i => (c.wg.thread i).aRow f v vs sel)))).flatten).filter (fun q => !q.isEmpty)
/-- May a quarter operation join this item (R301)? -/
def Core.joinable (c : Core) (i : MatItem) (slot mac acc : Nat) (ov : Bool) (fs plane bver : Nat) (rows : List ARow) : Bool :=
  match i.work with
  | .pass a o s p _ b rs none =>
    !i.started && i.slot == slot && i.mac == mac && a == acc && o == ov && s == fs && p == plane && b == bver &&
    !rows.any (fun r => rs.any (fun x => x.row == r.row)) && decide (rs.length + rows.length ≤ 32) &&
    !c.mats.any (fun j => j.slot == slot && j.acc? == some acc && !j.isPass && decide (i.seq < j.seq)) &&
    !c.drains.any (fun d => d.slot == slot && d.acc == acc && decide (i.seq < d.seq))
  | _ => false
/-- One quarter operation joins the youngest pass of its macro's queue, or forms a new one. -/
def Ctx.emit (c : Ctx) (mac acc : Nat) (ov : Bool) (fs plane : Nat) (f : Fmt) (bver : Nat) (m : Mach) (rows : List ARow) : Mach :=
  let k := m.core c.core
  match (k.mats.filter (fun i => i.isPass && i.mac == mac)).getLast? with
  | some i =>
    if k.joinable i c.slot mac acc ov fs plane bver rows then
      m.modMats c.core (·.map (fun j =>
        if j.id = i.id then
          match j.work with
          | .pass a o s p g b rs t => { j with work := .pass a o s p g b (rs ++ rows) t }
          | _ => j
        else j))
    else c.queueMat m mac (.pass acc ov fs plane f bver rows none)
  | none => c.queueMat m mac (.pass acc ov fs plane f bver rows none)
/-- The quarter operations of one issue, in order, on the plane bound now. -/
def Ctx.emitAll (c : Ctx) (mac acc : Nat) (ov : Bool) (fs : Nat) (f : Fmt) (v vs sel : Nat) : Mach :=
  (c.quarters f v vs sel).foldl (c.emit mac acc ov fs (c.m.planeNo c.core fs) f ((c.m.core c.core).nextBver mac)) c.m
/-- Passes in a macro's queue (R301). -/
def Core.passes (c : Core) (mac : Nat) : Nat := (c.mats.filter (fun i => i.isPass && i.mac == mac)).length

def mmaQRun (acc h fs v vs sel : Nat) (ov : Bool) (clk : Clock) (c : Ctx) : Mach :=
  c.matRole clk (c.withAcc clk acc (c.withMac clk h (fun mac => c.withSlot clk fs (fun _ f =>
    if !(c.m.core c.core).willHoldB mac then c.badHandle clk c.m 6
    else if c.wg.alloc < v + f.rowBytes / 4 || (f.kind == 1 && decide (c.wg.alloc ≤ vs + (sel + 1) / 4)) then c.illegal clk c.m
    else if c.act.isEmpty then c.retire c.m
    else c.accTrapped clk acc (
      let m := c.emitAll mac acc ov fs f v vs sel
      if 8 < (m.core c.core).passes mac then c.m else c.retire m)))))
def mmaTRun (acc h fs t : Nat) (ov : Bool) (clk : Clock) (c : Ctx) : Mach :=
  c.matRole clk (c.withAcc clk acc (c.withMac clk h (fun mac =>
    if c.wg.hdr.tiles ≤ t then c.badHandle clk c.m 1
    else c.withSlot clk fs (fun plane f => c.matTile clk t (fun x =>
      if x.bytes < f.tileBytes 32 then c.badHandle clk c.m 1
      else if !(c.m.core c.core).willHoldB mac then c.badHandle clk c.m 6
      else if c.act.isEmpty then c.tileSkip clk [t]
      else c.accTrapped clk acc (c.tileReady clk t (fun x =>
        if 8 ≤ (c.m.core c.core).passes mac then c.m
        else
          let bytes := c.m.scratchRead c.core c.slot x.off (f.tileBytes 32)
          let rows := (upFrom 0 32).map (fun r => let y := f.tileRow bytes 32 r; ARow.mk r y.1 y.2)
          let m := c.m.setTile c.core c.slot t { x with state := .draining, job := some (.command c.m.nextId) }
          c.retire (c.queueMat m mac (.pass acc ov fs plane f ((c.m.core c.core).nextBver mac) rows (some t))))))))))

/-! ## mfence, mwait (R330, R331) -/

/-- A faulted instruction whose replay writes v registers: a load into them, or an atomic (R374). -/
def FaultRec.writesV (r : FaultRec) : Bool :=
  match decodeWord r.w r.ext with
  | .ok (.ld ..) | .ok (.ldw ..) | .ok (.atom ..) | .ok (.atomcas ..) | .ok (.atomf ..) | .ok (.atomord ..) => r.log.isSome
  | _ => false
/-- A load into a v register of the warp that has not come back, or that waits for its page (R303). -/
def Core.vPending (c : Core) (w : Wg) (slot warp : Nat) : Bool :=
  let mine (ts : List Nat) : Bool := ts.any (fun i => (w.thread i).warp == warp && (w.thread i).status ≠ .exited)
  c.loads.any (fun p => p.slot == slot && (match p.dst with | .v .. | .wide _ => true | _ => false) && mine p.threads) ||
  c.faults.any (fun r => r.slot == slot && r.writesV && mine r.threads)
def mfenceRun (clk : Clock) (c : Ctx) : Mach :=
  c.matRole clk (
    let warps := (c.act.map (fun i => (c.wg.thread i).warp)).eraseDups
    let late := warps.filter ((c.m.core c.core).vPending c.wg c.slot)
    let m := c.m.atWg c (fun w => { w with warps := w.warps.mapIdx (fun i x =>
      if warps.contains i && !late.contains i then { x with opReady := true } else x) })
    if late.isEmpty then c.retire m else c.wait clk m (c.act.filter (fun i => late.contains (c.wg.thread i).warp)) .operands)
/-- Work of the workgroup issued before this instruction first waited. -/
def Ctx.issuedBefore (c : Ctx) (seq : Nat) : Bool := match c.leaderT.since with | some (n, _) => decide (seq ≤ n) | none => true
def mwaitRun (acc : Nat) (clk : Clock) (c : Ctx) : Mach :=
  c.matRole clk (c.withAcc clk acc (
    if c.act.isEmpty then c.retire c.m
    else c.accTrapped clk acc (
      if (c.m.core c.core).mats.any (fun i => i.slot == c.slot && i.acc? == some acc && c.issuedBefore i.seq) then
        c.wait clk c.m c.act (.acc (some acc))
      else c.retire (c.m.acquire c.core 1))))
def mwaitAllRun (clk : Clock) (c : Ctx) : Mach :=
  c.matRole clk (
    if c.act.isEmpty then c.retire c.m
    else if (c.m.core c.core).mats.any (fun i => i.slot == c.slot && c.issuedBefore i.seq) ||
        (c.m.core c.core).epis.any (fun e => e.slot == c.slot && c.issuedBefore e.seq) then
      c.wait clk c.m c.act (.acc none)
    else c.retire (c.m.acquire c.core 1))

/-! ## Accumulator access (R332, R333) -/

/-- Elements of a count code. -/
def accCount (n : Nat) : Nat := 8 * 2 ^ n
/-- Do it now, or queue it behind what stands on the accumulator. -/
def Ctx.accWork (c : Ctx) (acc : Nat) (work : MatWork) : Mach :=
  let k := c.m.core c.core
  if k.accBefore c.slot acc (c.m.seq + 1) || k.drainBefore c.slot acc (c.m.seq + 1) then c.retire (c.queueMat c.m 4 work)
  else c.retire (c.m.doAcc c.core c.slot work)
def accZeroRun (acc : Nat) (clk : Clock) (c : Ctx) : Mach :=
  c.matRole clk (c.withAcc clk acc (
    if c.act.isEmpty then c.retire c.m else c.accTrapped clk acc (c.accWork acc (.accZero acc))))
/-- The span and column checks of `acc.rd` and `acc.wr`, then the first column. -/
def Ctx.accSpan (c : Ctx) (clk : Clock) (acc n v kc : Nat) (k : Nat → Mach) : Mach :=
  c.withAcc clk acc (
    if c.wg.alloc < v + n then c.illegal clk c.m
    else if c.act.isEmpty then c.retire c.m
    else
      let c0 := c.leadK kc % 64
      if c0 % n ≠ 0 then c.trapAct clk c.m 3 c.leaderT.lane (BitVec.ofNat 80 c0) else c.accTrapped clk acc (k c0))
def accWrRun (count acc v kc : Nat) (clk : Clock) (c : Ctx) : Mach :=
  c.matRole clk (c.accSpan clk acc (accCount count) v kc (fun c0 =>
    -- ascending work identifiers: the higher one prevails
    c.accWork acc (.accWr acc ((c.act.map (fun i => (upFrom 0 (accCount count)).map (fun j =>
      ((c.wg.thread i).lane, c0 + j, (c.wg.thread i).getV (v + j))))).flatten))))
def accRdRun (count v acc kc : Nat) (clk : Clock) (c : Ctx) : Mach :=
  c.accSpan clk acc (accCount count) v kc (fun c0 =>
    let m := if c.wg.accPoison.isEmpty then c.m
      else c.m.atWg c (fun w => w.readAcc acc (c.act.map (fun i => (w.thread i).lane)) (upFrom c0 (accCount count)))
    c.retireWith m (fun t => (upFrom 0 (accCount count)).foldl (fun t j => t.setV (v + j) (c.wg.accAt acc t.lane (c0 + j))) t))

/-! ## Status (R338) -/

/-- The matrix status word. -/
def Wg.matStatus (w : Wg) (passes drains : Nat) : Nat :=
  pack [(5, w.pflags.toNat), (3, 0), (5, w.dflags.toNat), (7, 0), (1, bit w.drainErr), (3, w.errps), (8, 0), (8, passes), (8, drains)]
def mstatRun (clr : Bool) (d : Nat) (_ : Clock) (c : Ctx) : Mach :=
  let k := c.m.core c.core
  let x := c.wg.matStatus (k.mats.filter (fun i => i.isPass && i.slot == c.slot)).length (k.drains.filter (·.slot == c.slot)).length
  let m := if clr && !c.act.isEmpty then c.m.atWg c (fun w => { w with pflags := 0, dflags := 0, drainErr := false, errps := 0 }) else c.m
  c.retireK m d x

def execMbLoad (h t slot : Nat) (s : State) : Host.Outcome State Fault Refusal := s.group (mbLoadRunI h t slot)
def execMbFree (h : Nat) (s : State) : Host.Outcome State Fault Refusal := s.group (mbFreeRunI h)
def execMmaQ (acc h fs v vs sel : Nat) (ov : Bool) (s : State) : Host.Outcome State Fault Refusal := s.group (mmaQRun acc h fs v vs sel ov)
def execMmaT (acc h fs t : Nat) (ov : Bool) (s : State) : Host.Outcome State Fault Refusal := s.group (mmaTRun acc h fs t ov)
def execMfence (s : State) : Host.Outcome State Fault Refusal := s.group mfenceRun
def execMwait (acc : Nat) (s : State) : Host.Outcome State Fault Refusal := s.group (mwaitRun acc)
def execMwaitAll (s : State) : Host.Outcome State Fault Refusal := s.group mwaitAllRun
def execAccZero (acc : Nat) (s : State) : Host.Outcome State Fault Refusal := s.group (accZeroRun acc)
def execAccRd (count v acc k : Nat) (s : State) : Host.Outcome State Fault Refusal := s.group (accRdRun count v acc k)
def execAccWr (count acc v k : Nat) (s : State) : Host.Outcome State Fault Refusal := s.group (accWrRun count acc v k)
def execMstat (d : Nat) (s : State) : Host.Outcome State Fault Refusal := s.group (mstatRun false d)
def execMstatClr (d : Nat) (s : State) : Host.Outcome State Fault Refusal := s.group (mstatRun true d)

/-! ## Power tokens (R306) -/

/-- The token ring of a die: at reset the passing tokens stand at the first clusters (log 3). -/
def Mach.ring (m : Mach) (die : Nat) : TokenRing := (tget m.rings die).getD { ring := upFrom 0 m.tokens }
def Mach.setRing (m : Mach) (die : Nat) (r : TokenRing) : Mach := { m with rings := tset m.rings die r }
/-- The item at the head of a macro's queue that has not started. -/
def Core.nextOn (c : Core) (mac : Nat) : Option MatItem := c.mats.find? (fun i => i.onMac && i.mac == mac && !i.started)
/-- A pass that needs a token (R306). -/
def MatItem.wantsToken (i : MatItem) : Bool := match i.work with | .pass _ _ _ _ f _ _ _ => 7 ≤ f.w | _ => false
/-- The cores of a cluster that have been touched. -/
def Mach.clusterCores (m : Mach) (cluster : Nat) : List (Nat × Core) := m.cores.filter (fun e => e.1 / 16 == cluster)
/-- The token a cluster of the die may start passes on. -/
def Mach.clusterToken (m : Mach) (cluster : Nat) : Option Token := (m.ring (cluster / 10)).held.find? (fun t => t.cluster == cluster)
/-- A cluster waits for a token. -/
def Mach.clusterWaits (m : Mach) (cluster : Nat) : Bool :=
  (m.clusterToken cluster).isNone &&
  (m.clusterCores cluster).any (fun e => (upFrom 0 4).any (fun p => match e.2.nextOn p with | some i => i.wantsToken | none => false))
/-- A pass started on the cluster's token is still in its macro. -/
def Mach.tokenBusy (m : Mach) (clk : Clock) (cluster : Nat) : Bool :=
  (m.clusterCores cluster).any (fun e => e.2.mats.any (fun i => i.onToken && i.started && decide (clk.cycle + 16 < i.doneAt)))
/-- Every macro of the cluster has stood idle for 64 cycles. -/
def Mach.clusterIdle (m : Mach) (clk : Clock) (cluster : Nat) : Bool :=
  (m.clusterCores cluster).all (fun e => (upFrom 0 4).all (fun p => decide (((tget e.2.macs p).getD {}).busy + 64 ≤ clk.cycle)))
/-- TOKEN_BURST_END: the cluster gives its token up: its burst has ended, or its hold has run out and the passes on the token have
left. It goes on to the next cluster, or, when a token is still to be taken out, from the ring for good. -/
def execTokenBurstEnd (cluster : Nat) (s : State) : Host.Outcome State Fault Refusal :=
  s.event (fun clk m => do
    let t ← m.clusterToken cluster
    if (m.clusterIdle clk cluster && decide (t.since + 64 ≤ clk.cycle)) || (t.closed && !m.tokenBusy clk cluster) then
      let r := m.ring (cluster / 10)
      let held := r.held.filter (fun x => x.cluster ≠ cluster)
      some (m.setRing (cluster / 10)
        (if 0 < r.retire then { r with held, retire := r.retire - 1 } else { r with held, ring := r.ring ++ [(cluster + 1) % 10] }))
    else none)
/-- TOKEN_HOLD_TIMEOUT: 20,000 cycles, with another cluster waiting. -/
def execTokenHoldTimeout (cluster : Nat) (s : State) : Host.Outcome State Fault Refusal :=
  s.event (fun clk m => do
    let t ← m.clusterToken cluster
    let others := (upFrom (cluster / 10 * 10) 10).filter (· ≠ cluster)
    if !t.closed && decide (t.since + 20000 ≤ clk.cycle) && others.any m.clusterWaits then
      let r := m.ring (cluster / 10)
      some (m.setRing (cluster / 10) { r with held := r.held.map (fun x => if x.cluster = cluster then { x with closed := true } else x) })
    else none)
/-- TOKEN_ARRIVE: the passing token that has waited longest moves to the next cluster round the ring that wants one, and is taken
there. -/
def execTokenArrive (die : Nat) (s : State) : Host.Outcome State Fault Refusal :=
  s.event (fun clk m =>
    let r := m.ring die
    match r.ring with
    | [] => none
    | p :: ps =>
      match (upFrom 0 10).find? (fun j => m.clusterWaits (die * 10 + (p + j) % 10)) with
      | none => none
      | some j => some (m.setRing die { r with held := r.held ++ [{ cluster := die * 10 + (p + j) % 10, since := clk.cycle }], ring := ps }))

/-! ## Running (R299, R302, R307, R326, R327) -/

/-- No earlier item of the macro stands before this one. -/
def Core.headOf (c : Core) (i : MatItem) : Bool := !c.mats.any (fun j => j.onMac && j.mac == i.mac && !j.started && decide (j.seq < i.seq))
/-- The macro is free. -/
def Core.macFree (c : Core) (clk : Clock) (mac : Nat) : Bool := decide (((tget c.macs mac).getD {}).busy ≤ clk.cycle)
/-- Every pass of the macro's previous B version has left it (and been written). -/
def Core.macClear (c : Core) (clk : Clock) (mac : Nat) : Bool :=
  c.macFree clk mac && !c.mats.any (fun i => i.isPass && i.mac == mac && i.started)

/-- The load that runs on a macro. -/
def Core.loadOn (c : Core) (mac : Nat) : Option MatItem :=
  c.mats.find? (fun i => i.mac == mac && i.started && (match i.work with | .load .. => true | _ => false))
/-- MB_LOAD_RUN, in three parts: the load starts and its tile drains; the tile's last byte has been read, 128 in a cycle; after 96 cycles
the B version counts on (R326). -/
def execMbLoadRun (core mac : Nat) (s : State) : Host.Outcome State Fault Refusal :=
  s.event (fun clk m => do
    let c := m.core core
    match c.loadOn mac with
    | none =>
      let i ← c.nextOn mac
      let w ← m.wg? core i.slot
      match i.work with
      | .load t _ _ _ =>
        if !c.macClear clk mac || (w.tile t).busy then none
        else
          let m := m.setTile core i.slot t { w.tile t with state := .draining, job := some (.command i.id) }
          let m := m.modMats core (·.map (fun j => if j.id = i.id then { j with started := true, doneAt := clk.cycle + 96 } else j))
          some (m.setMac core mac { m.mac core mac with busy := clk.cycle + 96, lastUse := clk.cycle + 96 })
      | _ => none
    | some i =>
      let w ← m.wg? core i.slot
      match i.work with
      | .load t _ _ f =>
        if (w.tile t).job = some (.command i.id) then
          if i.doneAt + (f.tileBytes 64 + 127) / 128 ≤ clk.cycle + 96 then
            let bytes := m.scratchRead core i.slot (w.tile t).off (f.tileBytes 64)
            some (((m.drained core i.slot i.id t).tilePoison core i.slot t).setMac core mac { m.mac core mac with b := some { fmt := f, bytes } })
          else none
        else if i.doneAt ≤ clk.cycle then
          some ((m.modMats core (·.filter (·.id ≠ i.id))).setMac core mac { m.mac core mac with bver := (m.mac core mac).bver + 1 })
        else none
      | _ => none)
/-- MB_FREE_EFFECT. -/
def execMbFreeEffect (core mac : Nat) (s : State) : Host.Outcome State Fault Refusal :=
  s.event (fun clk m => do
    let c := m.core core
    let i ← c.nextOn mac
    match i.work with
    | .free =>
      if !c.macClear clk mac || (c.loadOn mac).isSome then none
      else some ((m.modMats core (·.filter (·.id ≠ i.id))).setMac core mac { m.mac core mac with b := none, lastUse := clk.cycle })
    | _ => none)
/-- The wake latency (R307). -/
def wakeCycles : Nat := 180
/-- PASS_START, in two parts: the head pass of a free macro, holding a token where it needs one, wakes a macro that is off; a macro that is on
starts it, with the rows it has by then (R301, R302). A wake that ends without a token for the pass leaves the macro on. -/
def execPassStart (core mac : Nat) (s : State) : Host.Outcome State Fault Refusal :=
  s.event (fun clk m => do
    let c := m.core core
    let i ← c.nextOn mac
    match i.work with
    | .pass acc _ _ _ f _ rows _ =>
      let token := match m.clusterToken (core / 16) with | some t => !t.closed | none => false
      let x := m.mac core mac
      if !c.macFree clk mac || (c.loadOn mac).isSome then none
      else if c.drainBefore i.slot acc i.seq || (i.wantsToken && !token) then
        (if x.waking then some (m.setMac core mac { x with powered := true, waking := false, lastUse := clk.cycle }) else none)
      else if !x.powered && !x.waking then
        some (m.setMac core mac { x with waking := true, busy := clk.cycle + wakeCycles, lastUse := clk.cycle + wakeCycles })
      else
        let leave := clk.cycle + 4 + rows.length * f.w
        some ((m.setMac core mac { x with powered := true, waking := false, busy := leave, lastUse := leave }).modMats core (·.map (fun j =>
          if j.id = i.id then { j with started := true, doneAt := leave + 16, onToken := i.wantsToken } else j)))
    | _ => none)
/-- One row of a pass through the macro (R79, R328): its new elements and its flags. -/
def passRow (w : Wg) (acc : Nat) (ov : Bool) (f : Fmt) (b : List (List FVal)) (r : ARow) : List V32 × BitVec 5 :=
  let a := f.rowVals r.bytes r.scales
  let xs := b.mapIdx (fun j col => dotStep (if ov then 0 else (w.accAt acc r.row j).toNat) a col)
  (xs.map (fun x => BitVec.ofNat 32 x.1), xs.foldl (fun fl x => fl ||| x.2) 0)
/-- The columns of B as values. -/
def BTile.cols (b : BTile) : List (List FVal) :=
  (upFrom 0 64).map (fun j => let y := b.fmt.tileRow b.bytes 64 j; b.fmt.rowVals y.1 y.2)
/-- PASS_COMPLETE: the pass's rows are written to the accumulator. -/
def execPassComplete (core mac : Nat) (s : State) : Host.Outcome State Fault Refusal :=
  s.event (fun clk m => do
    let c := m.core core
    let i ← c.mats.find? (fun i => i.isPass && i.mac == mac && i.started)
    let w ← m.wg? core i.slot
    let b ← (m.mac core mac).b
    match i.work with
    | .pass acc ov _ _ f _ rows tile =>
      if clk.cycle < i.doneAt || c.accBefore i.slot acc i.seq then none
      else
        let w := if ov then w else w.readAcc acc (rows.map (·.row)) (upFrom 0 64)
        let cols := b.cols
        let done := rows.map (fun r => (r.row, passRow w acc ov f cols r))
        let w' := done.foldl (fun (w : Wg) e => w.setAccRow acc e.1 e.2.1) w
        let w' := { w' with pflags := done.foldl (fun fl e => fl ||| e.2.2) w.pflags }
        let m := (m.setWg core i.slot w').modMats core (·.filter (·.id ≠ i.id))
        let m := match tile with
          | some t => (m.drained core i.slot i.id t).tilePoison core i.slot t
          | none => m
        some (m.settleAccs core)
    | _ => none)
/-- MACRO_IDLE_POWER_OFF: the macro's queue has been empty for the idle time. -/
def execMacroIdlePowerOff (core mac : Nat) (s : State) : Host.Outcome State Fault Refusal :=
  s.event (fun clk m =>
    let x := m.mac core mac
    if (x.powered || x.waking) && !(m.core core).mats.any (fun i => i.onMac && i.mac == mac) && decide (x.lastUse + m.idle ≤ clk.cycle) then
      some (m.setMac core mac { x with powered := false, waking := false })
    else none)

end Sys2Proof.Machine
end

