-- ==== Sys2Proof/Machine/Epilogue.lean ====
section
/-! DEFINITION. The epilogue processor (R305, R334 to R337, R339, R340): queueing a drain, its words one by one, drain errors, and
program stores. Each epilogue word is one step; drains run one at a time on a core, and a word runs on the lowest-numbered core that
has a drain running (log 4). -/
namespace Sys2Proof.Machine

/-! ## Program stores (R334) -/

/-- The 64 words of a program store. -/
def Core.store (c : Core) (ps : Nat) : List V32 := (upFrom 0 64).map (fun i => sget 0 c.stores (ps * 64 + i))
def Core.setStore (c : Core) (ps : Nat) (ws : List V32) : Core :=
  { c with stores := (ws.mapIdx (fun i x => (i, x))).foldl (fun s e => sset 0 s (ps * 64 + e.1) e.2) c.stores }
def epiLoadRun (ps t : Nat) (clk : Clock) (c : Ctx) : Mach :=
  c.matRole clk (c.matTile clk t (fun x =>
    if x.bytes < 256 then c.badHandle clk c.m 1
    else if c.act.isEmpty then c.tileSkip clk [t]
    else c.tileReady clk t (fun x =>
      let bytes := c.m.scratchRead c.core c.slot x.off 256
      let words := (upFrom 0 64).map (fun i => BitVec.ofNat 32 (leNat ((bytes.drop (4 * i)).take 4)))
      let (id, m) := c.m.newId
      let m := { m with seq := m.seq + 1 }
      let m := m.modCore c.core (fun k => { k with epis := k.epis ++ [{ id, seq := m.seq, slot := c.slot, ps, tile := some t, words }] })
      c.retire (m.tilePoison c.core c.slot t))))
def execEpiLoad (ps t : Nat) (s : State) : Host.Outcome State Fault Refusal := s.group (epiLoadRun ps t)
/-- EPI_STORE_WRITE: the oldest load or restore of a program store replaces its words once every drain queued on the store before it
has finished. -/
def execEpiStoreWrite (core ps : Nat) (s : State) : Host.Outcome State Fault Refusal :=
  s.event (fun _ m => do
    let c := m.core core
    let e ← c.epis.find? (·.ps == ps)
    if c.drains.any (fun d => d.ps == ps && decide (d.seq < e.seq)) then none
    else
      some ((m.modCore core (fun c => { (c.setStore ps e.words) with epis := c.epis.filter (·.id ≠ e.id) })).modWg core e.slot (fun w =>
        { w with epiLoaded := (w.epiLoaded.filter (fun x => x.1 ≠ ps)) ++ [(ps, e.words)] })))

/-! ## Queueing a drain (R325, R335) -/

/-- Epilogue words of a store that decode. -/
def epiWords (ws : List V32) : List Instr :=
  ws.filterMap (fun w => match decodeEp w.toNat with | .ok i => some i | .error _ => none)
/-- The planes its `e.cvt` words name, bound now; a slot the launch does not hold binds nothing. -/
def Ctx.bindPlanes (c : Ctx) (ws : List Instr) : List (Nat × Nat × Fmt) :=
  ((ws.filterMap (fun i => match i with | .eCvt _ _ slot _ => some slot | _ => none)).eraseDups).filterMap (fun slot =>
    if c.wg.holds slot then (c.m.plane c.core slot).map (fun f => (slot, c.m.planeNo c.core slot, f)) else none)
def Ctx.bindBounds (c : Ctx) (ws : List Instr) : List (Nat × Bound) :=
  ((ws.filterMap (fun i => match i with | .eBound _ _ bd => some bd | _ => none)).eraseDups).map (fun n =>
    (n, { c.bd n with count := 0, v := false, f := false, first := 0 }))

def accDrainRun (t acc ps : Nat) (tv : Option Nat) (kr : Nat) (z : Bool) (clk : Clock) (c : Ctx) : Mach :=
  c.matRole clk (c.withAcc clk acc (c.matTile clk t (fun _ =>
    let go : Mach :=
      if tv = some t then c.badHandle clk c.m 1
      else if c.act.isEmpty then c.tileSkip clk (t :: tv.toList)
      else
        let stride := c.leadK kr % 65536
        if stride % 4 ≠ 0 then c.trapAct clk c.m 3 c.leaderT.lane (BitVec.ofNat 80 stride)
        else c.accTrapped clk acc (c.tileReady clk t (fun x =>
          let queue (m : Mach) : Mach :=
            if (c.m.core c.core).epis.any (fun e => e.slot == c.slot && e.ps == ps) then c.m
            else
              let words := (c.m.core c.core).store ps
              let is := epiWords words
              let (id, m) := m.newId
              let m := { m with seq := m.seq + 1 }
              let d : Drain := { id, seq := m.seq, slot := c.slot, acc, ps, words, td := t, tv, stride, z, fmts := c.bindPlanes is,
                                 bds := c.bindBounds is, seed := (rndSeed c.wg.hdr.seed (BitVec.ofNat 64 c.leaderT.wid) >>> 32).truncate 32 }
              let m := m.modCore c.core (fun k => { k with drains := k.drains ++ [d] })
              c.retire (m.setTile c.core c.slot t { x with state := .filling, job := some (.command id) })
          match tv with
          | none => queue c.m
          | some v => c.tileReady clk v (fun y =>
              queue (c.m.setTile c.core c.slot v { y with state := .draining, job := some (.command c.m.nextId) }))))
    match tv with
    | none => go
    | some v => c.matTile clk v (fun _ => go))))
def execAccDrain (t acc ps : Nat) (tv : Option Nat) (k : Nat) (z : Bool) (s : State) : Host.Outcome State Fault Refusal :=
  s.group (accDrainRun t acc ps tv k z)

/-! ## Running a drain (R335 to R337) -/

def Mach.setDrain (m : Mach) (core : Nat) (d : Drain) : Mach :=
  m.modCore core (fun c => { c with drains := c.drains.map (fun x => if x.id = d.id then d else x) })
def Drain.row? (d : Drain) (r k : Nat) : V32 := sget 0 d.e (64 * r + k)
def Drain.reg (d : Drain) (r : Nat) : List V32 := (upFrom 0 64).map (d.row? r)
def Drain.setReg (d : Drain) (r : Nat) (xs : List V32) : Drain :=
  { d with e := (xs.mapIdx (fun k x => (k, x))).foldl (fun e x => sset 0 e (64 * r + x.1) x.2) d.e }
/-- The drain leaves the processor: its vector tile is ready, and what waited for it on the accumulator goes on. -/
def Mach.dropDrain (m : Mach) (core : Nat) (d : Drain) : Mach :=
  let m := m.modCore core (fun c => { c with drains := c.drains.filter (·.id ≠ d.id) })
  (match d.tv with | some v => m.drained core d.slot d.id v | none => m).settleAccs core
/-- DRAIN ERROR or bound trap (R337): the drain stops, tD stays filling, and the next instruction that names it traps. -/
def Mach.stopDrain (m : Mach) (core : Nat) (d : Drain) (cause addr info : Nat) : Mach :=
  (m.modWg core d.slot (fun w =>
    { (w.setTile d.td ((w.tile d.td).fail cause addr info)) with drainErr := true, errps := d.ps })).dropDrain core d
/-- The deferred trap of a drain error (R369): where the row starts in the scratchpad, the store, the word. -/
def Mach.drainError (m : Mach) (core : Nat) (d : Drain) : Mach :=
  let off := match m.wg? core d.slot with | some w => (w.tile d.td).off | none => 0
  m.stopDrain core d 15 (off + d.row * d.stride) (d.ps + 256 * min d.pc 63 + (if d.pc = 64 then 16384 else 0))
/-- Reach the word at the drain's pc: one that is no epilogue word, or past word 63, is a drain error (R44, R335). -/
def Mach.drainAt (m : Mach) (core : Nat) (d : Drain) : Mach :=
  match (if d.pc < 64 then (decodeEp (d.words.getD d.pc 0).toNat).toOption else none) with
  | some _ => m.setDrain core d
  | none => m.drainError core d
/-- Begin a row: e0 takes it, and the program starts over. -/
def Drain.beginRow (d : Drain) (w : Wg) (i : Nat) : Drain := { (d.setReg 0 (w.accRow d.acc i)) with row := i, pc := 0 }
/-- The row is read: an error in it is raised at the next instruction that names the accumulator (R325). -/
def Mach.drainReads (m : Mach) (core : Nat) (d : Drain) (w : Wg) (i : Nat) : Mach :=
  if w.accPoison.isEmpty then m else m.modWg core d.slot (fun w => w.readAcc d.acc [i] (upFrom 0 64))

/-- DRAIN_START: the oldest drain of the core starts, once all work queued earlier on its accumulator has completed. -/
def execDrainStart (core : Nat) (s : State) : Host.Outcome State Fault Refusal :=
  s.event (fun _ m => do
    let c := m.core core
    let d ← c.drains.head?
    let w ← m.wg? core d.slot
    if d.running || c.accBefore d.slot d.acc d.seq then none
    else
      let m := match d.tv with | some v => m.tilePoison core d.slot v | none => m
      some ((m.drainReads core d w 0).drainAt core { (d.beginRow w 0) with running := true }))
/-- The drain whose word runs next. -/
def Mach.runningDrain (m : Mach) : Option (Nat × Drain) :=
  m.cores.findSome? (fun e => (e.2.drains.find? (fun d => d.running && decide (d.row < 32))).map (fun d => (e.1, d)))
/-- DRAIN_COMPLETE: the last row is written; tD is ready and its version counts on. -/
def execDrainComplete (core : Nat) (s : State) : Host.Outcome State Fault Refusal :=
  s.event (fun _ m => do
    let d ← (m.core core).drains.find? (fun d => d.running && d.row == 32)
    some ((m.modWg core d.slot (fun w => w.setTile d.td (w.tile d.td).filled)).dropDrain core d))

/-- How an epilogue word ends. -/
inductive EpiRes where
  | ok (m : Mach) (d : Drain) (flags : BitVec 5)
  | error
  | bound (m : Mach) (n addr : Nat)
  deriving DecidableEq, Repr
/-- Run one epilogue word of the running drain. -/
def State.epi (s : State) (f : Clock → Mach → Nat → Wg → Drain → EpiRes) : Host.Outcome State Fault Refusal :=
  s.event (fun clk m => do
    let (core, d) ← m.runningDrain
    let w ← m.wg? core d.slot
    match f clk m core w d with
    | .error => some (m.drainError core d)
    | .bound m n addr => some (m.stopDrain core d 8 addr n)
    | .ok m d fl =>
      some ((m.modWg core d.slot (fun w => { w with dflags := w.dflags ||| fl })).drainAt core { d with pc := d.pc + 1 }))
/-- An elementwise word: the result and flags of each element of its operands. -/
def elementwise (ed : Nat) (xs : List (Nat × BitVec 5)) (m : Mach) (d : Drain) : EpiRes :=
  .ok m (d.setReg ed (xs.map (fun x => BitVec.ofNat 32 x.1))) (xs.foldl (fun fl x => fl ||| x.2) 0)
def State.epi1 (s : State) (ed ea : Nat) (f : Nat → Nat × BitVec 5) : Host.Outcome State Fault Refusal :=
  s.epi (fun _ m _ _ d => elementwise ed ((d.reg ea).map (fun x => f x.toNat)) m d)
def State.epi2 (s : State) (ed ea eb : Nat) (f : Nat → Nat → Nat × BitVec 5) : Host.Outcome State Fault Refusal :=
  s.epi (fun _ m _ _ d => elementwise ed (((d.reg ea).zip (d.reg eb)).map (fun x => f x.1.toNat x.2.toNat)) m d)
def State.epi3 (s : State) (ed ea eb ec : Nat) (f : Nat → Nat → Nat → Nat × BitVec 5) : Host.Outcome State Fault Refusal :=
  s.epi (fun _ m _ _ d =>
    elementwise ed (((d.reg ea).zip ((d.reg eb).zip (d.reg ec))).map (fun x => f x.1.toNat x.2.1.toNat x.2.2.toNat)) m d)
/-- Round an f32 result to nearest even (R339). -/
def f32Out (r : FRes) : Nat × BitVec 5 := let x := fmtF32.round r.1 .rne 0; (x.1, x.2 ||| r.2)
/-- The value of an f32 element. -/
def f32In (x : Nat) : FVal := fmtF32.read x
/-- A NaN that is moved becomes the canonical one, and a signalling NaN among what was read sets NV (R339). -/
def f32Move (x : Nat) (seen : List Nat) : Nat × BitVec 5 :=
  (if (f32In x).isNan then fmtF32.nanBits else x, snans (seen.map f32In))

def execEAdd (ed ea eb : Nat) (s : State) : Host.Outcome State Fault Refusal :=
  s.epi2 ed ea eb (fun a b => f32Out (addF (f32In a) (f32In b) .rne))
def execESub (ed ea eb : Nat) (s : State) : Host.Outcome State Fault Refusal :=
  s.epi2 ed ea eb (fun a b => f32Out (subF (f32In a) (f32In b) .rne))
def execEMul (ed ea eb : Nat) (s : State) : Host.Outcome State Fault Refusal :=
  s.epi2 ed ea eb (fun a b => f32Out (mulF (f32In a) (f32In b)))
def execEFma (ed ea eb ec : Nat) (s : State) : Host.Outcome State Fault Refusal :=
  s.epi3 ed ea eb ec (fun a b c => f32Out (fmaF (f32In a) (f32In b) (f32In c) .rne))
def execEMax (ed ea eb : Nat) (s : State) : Host.Outcome State Fault Refusal := s.epi2 ed ea eb (minMaxF .f32 false false)
def execEMin (ed ea eb : Nat) (s : State) : Host.Outcome State Fault Refusal := s.epi2 ed ea eb (minMaxF .f32 true false)
def execEAbs (ed ea : Nat) (s : State) : Host.Outcome State Fault Refusal := s.epi1 ed ea (fun a => f32Move (a % 2 ^ 31) [a])
def execEExp2 (ed ea : Nat) (s : State) : Host.Outcome State Fault Refusal := s.epi1 ed ea (approxF .exp2 .f32)
/-- A faithful result of an exact value (R108), or its special. -/
def f32Faithful (op x : Nat) (r : FRes) : Nat × BitVec 5 :=
  match r.1 with
  | .fin v => if v.isZero then f32Out r else let y := fmtF32.faithful v (Config.faithfulAway op Ty.f32.code x); (y.1, y.2 ||| r.2)
  | _ => f32Out r
def execERcp (ed ea : Nat) (s : State) : Host.Outcome State Fault Refusal :=
  s.epi1 ed ea (fun a => f32Faithful 6 a (rcpF (f32In a)))
def execERsq (ed ea : Nat) (s : State) : Host.Outcome State Fault Refusal := s.epi1 ed ea (approxF .rsq .f32)
/-- tanh with its specials (R339). -/
def tanhF (a : FVal) : FRes :=
  match a with
  | .nan x => (.nan false, flagIf x nv)
  | .inf n => (.fin { neg := n, num := 1, exp := 0 }, 0)
  | .fin x => if x.isZero then (a, 0) else (.fin (exactTanh x), 0)
def execETanh (ed ea : Nat) (s : State) : Host.Outcome State Fault Refusal :=
  s.epi1 ed ea (fun a => f32Faithful 7 a (tanhF (f32In a)))
def execESel (ed ea eb ec : Nat) (s : State) : Host.Outcome State Fault Refusal :=
  s.epi3 ed ea eb ec (fun a b c => f32Move (if c % 2 ^ 31 ≠ 0 then a else b) [a, b, c])
/-- The condition codes of R111. -/
def cmpOfCode (n : Nat) : Cmp :=
  match n with | 0 => .eq | 1 => .ne | 2 => .lt | 3 => .le | 4 => .gt | 5 => .ge | 6 => .un | _ => .ord
def execECmp (ed ea eb cond : Nat) (s : State) : Host.Outcome State Fault Refusal :=
  s.epi2 ed ea eb (fun a b => let r := cmpF (cmpOfCode cond) (f32In a) (f32In b); (if r.1 then 0x3F800000 else 0, r.2))
def execEScale (ed ea : Nat) (t : Int) (s : State) : Host.Outcome State Fault Refusal :=
  s.epi1 ed ea (fun a => f32Out (scaleF (f32In a) t))

/-- Vector `v` of tV, when tV is there and holds it (R340). -/
def Mach.epiVector (m : Mach) (core : Nat) (w : Wg) (d : Drain) (v : Nat) : Option (List V32) :=
  match d.tv with
  | none => none
  | some t =>
    if (w.tile t).bytes < 256 * v + 256 then none
    else
      let bs := m.scratchRead core d.slot ((w.tile t).off + 256 * v) 256
      some ((upFrom 0 64).map (fun k => BitVec.ofNat 32 (leNat ((bs.drop (4 * k)).take 4))))
def execELd (ed v : Nat) (s : State) : Host.Outcome State Fault Refusal :=
  s.epi (fun _ m core w d =>
    match m.epiVector core w d v with
    | none => .error
    | some xs => .ok m (d.setReg ed xs) 0)
def execEBias (ed ea v : Nat) (s : State) : Host.Outcome State Fault Refusal :=
  s.epi (fun _ m core w d =>
    match m.epiVector core w d v with
    | none => .error
    | some xs => elementwise ed (((d.reg ea).zip xs).map (fun x => f32Out (addF (f32In x.1.toNat) (f32In x.2.toNat) .rne))) m d)
/-- `e.st`: written as the copy engine writes; bytes of a live barrier word are refused and logged (R295, R305). -/
def execESt (ea o n : Nat) (s : State) : Host.Outcome State Fault Refusal :=
  s.epi (fun clk m core w d =>
    let at_ := d.row * d.stride + 4 * o
    if 64 < n || (w.tile d.td).bytes < at_ + 4 * n then .error
    else
      let bs := (((d.reg ea).take n).map (fun x => leBytes 4 x.toNat)).flatten
      let (refused, m) := m.deliver core d.slot ((w.tile d.td).off + at_) bs
      .ok (match refused with | some o => m.logErr clk w.vf 2 1 0 core 0 o | none => m) d 0)
/-- The value `rst` draws for an element (R340). -/
def Drain.draw (d : Drain) (k : Nat) : Nat := (rndNext (d.seed ++ BitVec.ofNat 32 (64 * d.row + k))).1
/-- The register a substitution violates: the first trap-mode register an `e.bound` word of the store names (R379). -/
def Drain.trapBound (d : Drain) : Option (Nat × Bound) :=
  (epiWords d.words).findSome? (fun i => match i with
    | .eBound _ _ bd => (d.bds.find? (fun b => b.1 == bd && b.2.policy == 3))
    | _ => none)
def execECvt (ed ea slot rm : Nat) (s : State) : Host.Outcome State Fault Refusal :=
  s.epi (fun _ m core _ d =>
    match d.fmts.find? (·.1 == slot), Rm.ofCode rm with
    | some (_, _, f), some rm =>
      let xs := (d.reg ea).map (fun x => (f32In x.toNat, x.getLsbD 31))
      let r := f.encodeRow xs rm (if rm = .rst then (upFrom 0 64).map d.draw else [])
      let bytes := f.rowImage r
      let out := d.setReg ed ((upFrom 0 64).map (fun k => BitVec.ofNat 32 (leNat ((bytes.drop (4 * k)).take 4))))
      match r.subs, d.trapBound with
      | k :: _, some (n, b) =>
        let addr := d.row * d.stride + 4 * k
        .bound ((m.modWg core d.slot (fun w => { w with dflags := w.dflags ||| r.flags })).foldBound core d.slot n b { b with v := true, count := 1, first := BitVec.ofNat 80 addr, f := true }) n addr
      | _, _ => .ok m out r.flags
    | _, _ => .error)
/-- Check 64 elements against a bound register (R379): the register, the elements, and where a trap stopped it. -/
def Bound.elems (b : Bound) (addr : Nat) : List V32 → Bound × List V32 × Option Nat
  | [] => (b, [], none)
  | x :: xs =>
    let (b, y, stop) := b.check x.toNat addr true
    if stop then (b, [], some addr)
    else
      let (b, ys, st) := b.elems (addr + 4) xs
      (b, BitVec.ofNat 32 y :: ys, st)
def execEBound (ed ea bd : Nat) (s : State) : Host.Outcome State Fault Refusal :=
  s.epi (fun _ m core _ d =>
    let b := ((d.bds.find? (·.1 == bd)).map (·.2)).getD {}
    let (b', ys, stop) := b.elems (d.row * d.stride) (d.reg ea)
    let m := m.foldBound core d.slot bd b b'
    match stop with
    | some addr => .bound m bd addr
    | none => .ok m (d.setReg ed ys) 0)
/-- `e.end`: the row is done; with z its accumulator row is zeroed. The next row begins, or the last row has been read. -/
def execEEnd (s : State) : Host.Outcome State Fault Refusal :=
  s.event (fun _ m => do
    let (core, d) ← m.runningDrain
    let m := if d.z then m.modWg core d.slot (fun w => w.setAccRow d.acc d.row (List.replicate 64 0)) else m
    let w ← m.wg? core d.slot
    if d.row < 31 then some ((m.drainReads core d w (d.row + 1)).drainAt core (d.beginRow w (d.row + 1)))
    else some ((m.setDrain core { d with row := 32 }).settleAccs core))

end Sys2Proof.Machine
end

