-- ==== Sys2Proof/Machine/Slots.lean ====
section
/-! DEFINITION. Format slots (R341 to R359): group Q, the loader's checks, installing a record on the cores, and a core's passing to
another function (R353). -/
namespace Sys2Proof.Machine

/-! ## Planes and what is bound to them (R342) -/

def Mach.setPlanes (m : Mach) (core slot : Nat) (p : Planes) : Mach := m.modCore core (fun c => { c with planes := tset c.planes slot p })
def Planes.shadow (p : Planes) : Nat := 1 - p.cv
/-- An operation issued not after number `upto` (any, when there is none) is bound to a plane of a slot. -/
def Core.boundTo (c : Core) (slot plane : Nat) (upto : Option Nat) : Bool :=
  let ok (seq : Nat) : Bool := match upto with | some n => decide (seq ≤ n) | none => true
  c.mats.any (fun i => ok i.seq && (match i.work with
    | .pass _ _ s p _ _ _ _ => s == slot && p == plane
    | .load _ s p _ => s == slot && p == plane
    | _ => false)) ||
  c.drains.any (fun d => ok d.seq && d.fmts.any (fun f => f.1 == slot && f.2.1 == plane))
/-- Workgroups of a function that pin a slot: resident and saved (R352, R359). -/
def Mach.pinners (m : Mach) (vf slot : Nat) : List Wg :=
  ((m.wgs.filter (fun e => e.2.vf == vf && e.2.pins.contains slot)).map (·.2)) ++
  ((m.fn vf).images.filter (fun i => i.wg.pins.contains slot)).map (·.wg)
def Fn.slotEntry (f : Fn) (slot : Nat) : SlotEntry := (tget f.slots slot).getD {}
/-- The workgroup waits for a loader request. -/
def Wg.waitsFor (w : Wg) (req : Nat) : Bool := w.threads.any (fun t => match t.status with | .fsLoad id _ _ => id == req | _ => false)

/-! ## Group Q (R355 to R359) -/

/-- The slot descriptor (R356). -/
def Ctx.slotWord (c : Ctx) (slot : Nat) : Nat :=
  let p := c.m.planes c.core slot
  let rom := slot < 3
  let e := (c.m.fn c.vf).slotEntry slot
  let gen := if rom then 0 else e.gen
  let pins := if rom then 0 else (c.m.pinners c.vf slot).length
  let shadow := !rom && (c.m.core c.core).boundTo slot p.shadow none
  let tail : Nat := pack [(8, 0), (1, if rom then 0 else p.cv), (1, bit shadow), (1, bit rom)]
  match c.m.plane c.core slot with
  | none => tail + pack [(11, 0), (3, 0), (1, 0), (4, 0), (3, 7), (5, 0), (4, 0), (17, pins), (16, gen)]
  | some f => tail + pack [(11, 0), (3, if f.kilvas then 0 else f.keyidx), (1, bit f.kilvas), (4, f.flags), (3, f.kind), (5, f.ebits % 16), (4, f.w),
      (17, pins), (16, gen)]
def fsQueryRun (d slot sel : Nat) (_ : Clock) (c : Ctx) : Mach :=
  c.retireK c.m d (
    if sel = 0 then c.slotWord slot
    else
      match c.m.plane c.core slot with
      | none => 0
      | some f => if sel ≤ 4 then field f.digest (64 * (sel - 1)) 64 else if sel = 5 then f.serial else f.keyid % 2 ^ 64)
def fsLoadRun (d slot a : Nat) (clk : Clock) (c : Ctx) : Mach :=
  if slot < 3 then c.badHandle clk c.m 5
  else if c.act.isEmpty then c.retire c.m
  else
    let va := c.leadA a
    if va % 64 ≠ 0 then c.trapAct clk c.m 3 c.leaderT.lane (BitVec.ofNat 80 va)
    else c.afterHeld clk (
      let m := (c.m.seal clk c.core c.slot 5).release clk c.core c.slot 5
      let (id, m) := m.newId
      let m := { m with seq := m.seq + 1 }
      let m := m.modFn c.vf (fun f => { f with loads := f.loads ++ [{ id, slot, addr := va, cmd := none }] })
      m.atWg c (fun w =>
        ((w.modThreads c.act (fun t => { t with status := .fsLoad id none d })).modThreads
          (c.ig.threads.filter (fun t => !c.act.contains t)) (·.advance c.len)).unfuse c.act))
/-- The planes a fence waits for: the shadow planes as they stand at issue (R358). -/
def Ctx.fencePlanes (c : Ctx) (dev : Bool) (slot : Nat) : List (Nat × Nat) :=
  if dev then (c.m.cores.filter (fun e => e.2.owner == some c.vf)).map (fun e => (e.1, (c.m.planes e.1 slot).shadow))
  else [(c.core, (c.m.planes c.core slot).shadow)]
/-- Some operation issued before the fence is still bound to one of its planes. -/
def Mach.fenceHeld (m : Mach) (slot : Nat) (planes : List (Nat × Nat)) (upto : Option Nat) : Bool :=
  planes.any (fun p => (m.core p.1).boundTo slot p.2 upto)
def fsFenceRun (dev : Bool) (slot : Nat) (clk : Clock) (c : Ctx) : Mach :=
  if slot < 3 || c.act.isEmpty then c.retire c.m
  else
    let ps := c.fencePlanes dev slot
    if c.m.fenceHeld slot ps none then c.wait clk c.m c.act (.fsFence slot ps) else c.retire c.m
/-- Let the fences go whose planes are free (they wait for what was bound when they issued, so the instruction does not execute again). -/
def Mach.endFences (m : Mach) : Mach :=
  { m with wgs := m.wgs.map (fun e => (e.1, { e.2 with threads := e.2.threads.map (fun t =>
      match t.status with
      | .waiting (.fsFence slot ps) =>
        if m.fenceHeld slot ps (t.since.map (·.1)) then t else { t.advance 8 with status := .ready }
      | _ => t) })) }
def fsPinRun (slot : Nat) (clk : Clock) (c : Ctx) : Mach :=
  if slot < 3 then c.retire c.m
  else if ((c.m.fn c.vf).slotEntry slot).fmt.isNone then c.badHandle clk c.m 5
  else if c.act.isEmpty || c.wg.pins.contains slot then c.retire c.m
  else c.retire (c.m.atWg c (fun w => { w with pins := w.pins ++ [slot] }))
def fsUnpinRun (slot : Nat) (_ : Clock) (c : Ctx) : Mach :=
  if c.act.isEmpty then c.retire c.m else c.retire (c.m.atWg c (fun w => { w with pins := w.pins.filter (· ≠ slot) }))

def execFsQuery (d slot sel : Nat) (s : State) : Host.Outcome State Fault Refusal := s.group (fsQueryRun d slot sel)
def execFsLoad (d slot a : Nat) (s : State) : Host.Outcome State Fault Refusal := s.group (fsLoadRun d slot a)
def execFsFence (slot : Nat) (s : State) : Host.Outcome State Fault Refusal := s.group (fsFenceRun false slot)
def execFsFenceDev (slot : Nat) (s : State) : Host.Outcome State Fault Refusal := s.group (fsFenceRun true slot)
def execFsPin (slot : Nat) (s : State) : Host.Outcome State Fault Refusal := s.group (fsPinRun slot)
def execFsUnpin (slot : Nat) (s : State) : Host.Outcome State Fault Refusal := s.group (fsUnpinRun slot)

/-! ## The record (R343, R344, R347, R348) -/

def byteAt (r : List Byte) (i : Nat) : Nat := (r.getD i 0).toNat
def numAt (r : List Byte) (i n : Nat) : Nat := leNat ((r.drop i).take n)
/-- The areas between header and signature: value table and strip configuration, in ascending order. -/
def recordAreas (r : List Byte) : List (Nat × Nat) :=
  let strip := (numAt r 16 4, numAt r 20 4)
  if byteAt r 3 = 2 then [strip]
  else
    let table := (numAt r 12 4, 4 * 2 ^ byteAt r 4)
    if table.1 ≤ strip.1 then [table, strip] else [strip, table]
/-- Every byte that no area names is zero. -/
def gapsZero (r : List Byte) : Nat → List (Nat × Nat) → Bool
  | pos, [] => ((r.drop pos).take (r.length - 64 - pos)).all (· == 0)
  | pos, (a, n) :: rest => pos ≤ a && ((r.drop pos).take (a - pos)).all (· == 0) && gapsZero r (a + n) rest
/-- The length field is one a record may have. -/
def recordLen (r : List Byte) : Option Nat := let L := numAt r 8 4; if 256 ≤ L ∧ L ≤ 65536 ∧ L % 64 = 0 then some L else none
/-- Check 2 of R347: the header is well formed. -/
def headerOk (r : List Byte) : Bool :=
  let kind := byteAt r 3
  let e := byteAt r 4
  let areas := recordAreas r
  numAt r 0 2 == 0x4652 && byteAt r 2 == 1 && kind ≤ 2 &&
  (match kind with | 0 => e == 3 || e == 5 || e == 8 | 1 => 3 ≤ e && e ≤ 8 | _ => e == 16) &&
  byteAt r 6 < 16 && byteAt r 7 == 0 &&
  recordLen r == some r.length && 64 ≤ numAt r 20 4 && numAt r 20 4 ≤ 61440 &&
  (if kind = 2 then numAt r 12 4 == 0 else byteAt r 80 == 0 && numAt r 82 2 == 0 && (kind == 0 || byteAt r 81 == 0)) &&
  areas.all (fun a => a.1 + a.2 + 64 ≤ r.length) && gapsZero r 84 areas
/-- The value-table entries of a record. -/
def recordTable (r : List Byte) : List Nat :=
  if byteAt r 3 = 2 then [] else (upFrom 0 (2 ^ byteAt r 4)).map (fun c => numAt r (numAt r 12 4 + 4 * c) 4)
/-- Two finite entries hold the same value. -/
def sameEntry (a b : Nat) : Bool := sameVal (entryVal a) (entryVal b)
/-- No value occurs twice. -/
def allDistinct : List Nat → Bool
  | [] => true
  | x :: xs => !xs.any (sameEntry x) && allDistinct xs
/-- A finite entry with m > 0 is a normal or subnormal f32. -/
def f32Entry (e : Nat) : Bool :=
  match entryVal e with
  | .fin x => x.num == 0 || (let r := fmtF32.round (.fin x) .rne 0; r.2 == 0)
  | _ => true
/-- Number of bits of a mantissa. -/
def bitLen (m : Nat) : Nat := if m = 0 then 0 else Nat.log2 m + 1
/-- The flags of a record's values. -/
def tableFlags (t : List Nat) : Nat :=
  bit (t.any (fun e => entryClass e == 1)) + 2 * bit (t.any (fun e => entryClass e == 2)) +
  4 * bit (t.any (fun e => entryClass e == 0 && entrySign e && field e 0 11 == 0)) + 8 * bit (t.any (fun e => entryClass e == 3))
/-- Check 6 (R348). -/
def valuesOk (f : Fmt) : Bool :=
  if f.kind = 2 then
    f.expbits + f.fracbits == 15 && 7 ≤ f.fracbits && f.fracbits ≤ 10 && f.w == f.fracbits + 1 && f.flags == 7 &&
    decide ((2 ^ f.expbits : Nat) - 2 - f.bias ≤ 127) && decide (-149 ≤ 1 - f.bias - f.fracbits)
  else
    let fin := f.table.filter (fun e => entryClass e == 0)
    f.table.all (fun e => e < 2 ^ 23 && entryClass e ≤ 3 && f32Entry e) &&
    (match f.table with | e :: _ => entryClass e == 0 && !entrySign e && field e 0 11 == 0 | [] => false) &&
    f.flags == tableFlags f.table && allDistinct fin && fin.any (fun e => field e 0 11 != 0) &&
    f.w == (fin.map (fun e => bitLen (field e 0 11))).foldl max 0 &&
    (f.kind == 1 || ((f.fracbits == 2 || f.fracbits == 4 || f.fracbits == 7) && f.ebits == f.fracbits + 1 &&
      (f.table.zip (pleatTable f.fracbits)).all (fun p => entryClass p.1 == entryClass p.2 && (entryClass p.1 == 3 || sameEntry p.1 p.2))))
/-- The record as a plane holds it. -/
def recordFmt (r : List Byte) (kilvas : Bool) (keyidx : Nat) : Fmt :=
  { kind := byteAt r 3, ebits := byteAt r 4, w := byteAt r 5, flags := byteAt r 6, serial := numAt r 24 8, keyid := numAt r 48 32,
    digest := leNat (sha256 (r.take (r.length - 64))), expbits := byteAt r 80, fracbits := byteAt r 81, bias := sext 16 (numAt r 82 2),
    table := recordTable r, keyidx, kilvas }

/-! ## The loader (R346 to R351) -/

/-- What reading the record gives. -/
inductive RecRead where
  | bytes (r : List Byte)
  | refuse (code : Nat)
  | missing (va : Nat)
  deriving DecidableEq, Repr
/-- Read `n` bytes as a load of device scope (R347 check 1). -/
def Mach.loaderRead (m : Mach) (vf va n : Nat) : RecRead × Mach :=
  let (ps, m) := (spansOf va n).foldl (fun (s : List Part × Mach) p =>
    (s.1 ++ [{ thread := 0, lane := 0, va := p.1, n := p.2, tr := translate s.2 vf p.1 .read }], s.2)) ([], m)
  match bulkRes m ps with
  | .refused .. => (.refuse 1, m)
  | .fault va _ => (.missing va, m)
  | .ok => if (bulkPoison m ps).isSome then (.refuse 1, m) else let (bs, m) := m.bulkRead 1280 ps; (.bytes bs, m)
/-- Pins that stand against a request (check 3). -/
def Mach.pinnedAgainst (m : Mach) (vf : Nat) (q : LoadReq) : Bool := (m.pinners vf q.slot).any (fun w => !w.waitsFor q.id)
/-- The signer's key, its table index, and whether it is Kilvas's. -/
def Fn.trustedKey (f : Fn) (keyid : Nat) : Option (Nat × Nat × Bool) :=
  if keyid = kilvasKeyid then some (Config.kilvasKey, 0, true)
  else (f.keys.find? (fun e => keyId e.2 == keyid)).map (fun e => (e.2, e.1, false))
/-- Checks 2 to 7 on the bytes of a record. -/
def Mach.checkRecord (m : Mach) (vf : Nat) (q : LoadReq) (r : List Byte) : Except Nat Fmt :=
  if !headerOk r then .error 2
  else if m.pinnedAgainst vf q then .error 7
  else
    match (m.fn vf).trustedKey (numAt r 48 32) with
    | none => .error 3
    | some (key, idx, kil) =>
      let f := recordFmt r kil idx
      if !ecdsaVerify key (sha256 (r.take (r.length - 64))) (beNat ((r.drop (r.length - 64)).take 32)) (beNat ((r.drop (r.length - 32)).take 32)) then
        .error 4
      else if !valuesOk f then .error 5
      else if !Config.stripsOk r then .error 6
      else .ok f
/-- Read and check a record, or say which page is missing. -/
def Mach.readRecord (m : Mach) (vf : Nat) (q : LoadReq) : Except Nat Fmt × Option Nat × Mach :=
  match m.loaderRead vf q.addr 256 with
  | (.refuse c, m) => (.error c, none, m)
  | (.missing va, m) => (.error 1, some va, m)
  | (.bytes h, m) =>
    match recordLen h with
    | none => (.error 2, none, m)
    | some L =>
      match m.loaderRead vf q.addr L with
      | (.refuse c, m) => (.error c, none, m)
      | (.missing va, m) => (.error 1, some va, m)
      | (.bytes r, m) => (m.checkRecord vf q r, none, m)

/-- Give a request's status to who waits for it: the threads of a resident workgroup go on behind an acquire of device scope; those of
a saved one keep it (R357); a host command completes (R349). -/
def Mach.answerLoadReq (m : Mach) (vf : Nat) (q : LoadReq) (status : Nat) : Mach :=
  let m := match q.cmd with
    | some c => m.finish c 2 (if status = 0 then 0 else 5) status
    | none => m
  let m := (m.wgs.filter (fun e => e.2.waitsFor q.id)).foldl (fun m e =>
    (m.acquire (e.1 / 64) 5).modWg (e.1 / 64) (e.1 % 64) (fun w => { w with threads := w.threads.map (fun t =>
      match t.status with
      | .fsLoad id _ kd => if id = q.id then { (t.setK kd (BitVec.ofNat 64 status)).advance 8 with status := .ready } else t
      | _ => t) })) m
  m.modFn vf (fun f => { f with images := f.images.map (fun i => { i with wg := { i.wg with threads := i.wg.threads.map (fun t =>
    match t.status with
    | .fsLoad id _ kd => if id = q.id then { t with status := .fsLoad id (some status) kd } else t
    | _ => t) } }) })
/-- Cores that hold a function's planes (R350). -/
def Mach.planeCores (m : Mach) (vf : Nat) : List Nat :=
  (m.cores.filter (fun e => e.2.owner == some vf || (e.2.owner.isNone && e.2.planesOf == some vf))).map (·.1)
/-- Units a digest mismatch returned may be tried again (R174). -/
def Mach.wakeReturned (m : Mach) (vf : Nat) : Mach :=
  m.modFn vf (fun f => { f with launches := f.launches.map (fun l => { l with mism := l.mism.map (fun _ => true) }) })
/-- The request is done with: it leaves the loader's queue. -/
def Mach.dropLoad (m : Mach) (vf id : Nat) : Mach := m.modFn vf (fun f => { f with loads := f.loads.filter (·.id ≠ id) })
/-- Accept a record (R350): the slot table takes it, and every core that holds the function's planes is to install it. -/
def Mach.acceptLoad (m : Mach) (vf : Nat) (q : LoadReq) (f : Fmt) : Mach :=
  let m := (m.dropLoad vf q.id).modFn vf (fun x =>
    { x with slots := tset x.slots q.slot { fmt := some f, gen := ((x.slotEntry q.slot).gen + 1) % 65536 } })
  let cores := m.planeCores vf
  if cores.isEmpty then (m.answerLoadReq vf q 0).wakeReturned vf
  else
    let m := cores.foldl (fun (m : Mach) c => let p := m.planes c q.slot; m.setPlanes c q.slot { p with todo := p.todo ++ [(q.id, f)] }) m
    { m with installs := m.installs ++ [{ vf, req := q, cores }] }
/-- The function whose request the loader takes next: the next in rotation that has one it can go on with (R346). -/
def Mach.loaderTurn (m : Mach) : Option Nat :=
  ((upFrom 1 128).map (fun i => (m.lastLoader + i) % 128)).find? (fun vf =>
    match (m.fn vf).loads with | q :: _ => q.fault ≠ 1 | [] => false)
/-- LOADER_REQUEST: the loader takes a function's oldest request, whose turn it is. -/
def execLoaderRequest (vf : Nat) (s : State) : Host.Outcome State Fault Refusal :=
  s.event (fun clk m => do
    let q ← (m.fn vf).loads.head?
    if m.loaderTurn ≠ some vf then none
    else
      let m := { m with lastLoader := vf }
      let refuse (m : Mach) (code : Nat) : Mach := ((m.dropLoad vf q.id).logErr clk vf 3 code 0 65535 0 q.addr).answerLoadReq vf q code
      let r : Except Nat Fmt × Option Nat × Mach := if q.fault = 2 then (.error 1, none, m) else m.readRecord vf q
      match r with
      | (_, some va, m) =>
        if !m.faultRoom vf 1 then none
        else
          some ((m.modFn vf (fun f => { f with loads := f.loads.map (fun x => if x.id = q.id then { x with fault := 1 } else x) })).postFault
            clk vf { va, time := 0, core := 65535, slot := 0, warp := 255, kind := 1, access := 0, olog := 255, flags := 0, lanes := 0,
                     wid := 0, launch := 0, rec_ := q.id })
      | (.error code, none, m) => some (refuse m code)
      | (.ok f, none, m) => some (m.acceptLoad vf q f))

/-- A core has nothing more to do for a request: when it was the last, the request retires (R350). -/
def Mach.flipped (m : Mach) (core req : Nat) : Mach :=
  let m : Mach := { m with installs := m.installs.map (fun (x : Install) => if x.req.id = req then { x with cores := x.cores.filter (· ≠ core) } else x) }
  match m.installs.find? (fun (x : Install) => x.req.id == req && x.cores.isEmpty) with
  | none => m
  | some x => ({ m with installs := m.installs.filter (fun y => y.req.id ≠ req) }.answerLoadReq x.vf x.req 0).wakeReturned x.vf
/-- Cycles a plane takes to write (R350, R353). -/
def planeCycles : Nat := 2048
/-- FORMAT_INSTALL, in two parts: writing the record into the shadow plane begins once nothing is bound to it, and when it is written the
plane becomes current. -/
def execFormatInstall (core slot : Nat) (s : State) : Host.Outcome State Fault Refusal :=
  s.event (fun clk m => do
    let p := m.planes core slot
    let (req, f) ← p.todo.head?
    match p.writing with
    | none => if (m.core core).boundTo slot p.shadow none then none else some (m.setPlanes core slot { p with writing := some (clk.cycle + planeCycles) })
    | some till =>
      if clk.cycle < till then none
      else
        let p' : Planes := if p.cv = 0 then { p with p1 := some f, cv := 1 } else { p with p0 := some f, cv := 0 }
        some ((m.setPlanes core slot { p' with todo := p.todo.drop 1, writing := none }).flipped core req))

/-- A core passes to a function (R353, R334): plane 0 of each loadable slot takes the table's record, and the program stores are
cleared; installs the old function still had for it are done with. -/
def Mach.passCore (m : Mach) (core vf : Nat) : Mach :=
  let c := m.core core
  if c.planesOf = some vf then m
  else
    let todo := ((c.planes.map (fun e => e.2.todo)).flatten).map (·.1)
    let planes := ((m.fn vf).slots.filter (fun e => e.2.fmt.isSome)).map (fun e => (e.1, ({ p0 := e.2.fmt } : Planes)))
    let m := m.modCore core (fun c => { c with planes, planesOf := some vf, stores := [], tlb := [] })
    todo.foldl (fun m r => m.flipped core r) m
/-- Cycles the passing takes: a plane's for each slot loaded. -/
def Mach.passCycles (m : Mach) (core vf : Nat) : Nat :=
  if (m.core core).planesOf = some vf then 0 else planeCycles * ((m.fn vf).slots.filter (fun e => e.2.fmt.isSome)).length
/-- CORE_FUNCTION_CHANGE: an idle core passes to another function. -/
def execCoreFunctionChange (core vf : Nat) (s : State) : Host.Outcome State Fault Refusal :=
  s.event (fun _ m =>
    let c := m.core core
    if vf < 128 && c.planesOf ≠ some vf && (m.wgsOf core).isEmpty && c.mats.isEmpty && c.drains.isEmpty && c.copies.isEmpty then
      some (m.passCore core vf)
    else none)

end Sys2Proof.Machine
end

