-- ==== Sys2Proof/Machine/Place.lean ====
section
/-! DEFINITION. Placing a workgroup on a core: the pools (R474), what a core can still hold (R173), the granules' takeover (R195, R196),
register rows (R202), macros, and the workgroup as it starts (R8, R18, R148 to R151, R169). -/
namespace Sys2Proof.Machine

/-! ## The pools of a core (R474) -/

/-- Cores of the device, of a die, of a cluster (R413). -/
def coreCount : Nat := 1280
def coresPerDie : Nat := 160

/-- Warps of a workgroup (R149). -/
def Header.warpCount (h : Header) : Nat := (h.threads + 31) / 32
/-- Register rows of a workgroup (R202). -/
def Header.rows (h : Header) : Nat := h.warpCount * 8 * h.vregs
/-- Stage rings granted. -/
def Header.ringCount (h : Header) : Nat := (h.rings.filter (· ≠ 0)).length

def sumOf {α : Type} (f : α → Nat) (xs : List α) : Nat := (xs.map f).foldl (· + ·) 0
/-- Free gaps below `top` between used runs given by ascending start: start and length. -/
def gapsOf (top : Nat) : Nat → List (Nat × Nat) → List (Nat × Nat)
  | pos, [] => [(pos, top - pos)]
  | pos, (a, n) :: rest => (pos, a - pos) :: gapsOf top (a + n) rest
def freeRuns (top : Nat) (used : List (Nat × Nat)) : List (Nat × Nat) := gapsOf top 0 (sortBy (·.1) (used.filter (fun u => u.2 ≠ 0)))
/-- First fit of `n` contiguous units. -/
def firstFit (top : Nat) (used : List (Nat × Nat)) (n : Nat) : Option Nat :=
  if n = 0 then some 0 else ((freeRuns top used).find? (fun g => n ≤ g.2)).map (·.1)
/-- Granule runs and register rows in use on a core. -/
def granRuns (ws : List (Nat × Wg)) : List (Nat × Nat) := ws.map (fun e => (e.2.gran, e.2.hdr.scratch))
def rowRuns (ws : List (Nat × Wg)) : List (Nat × Nat) := ws.map (fun e => (e.2.row, e.2.hdr.rows))
/-- Numbers below `top` that none of the listed ones uses. -/
def freeBelow (top : Nat) (used : List Nat) : List Nat := (upFrom 0 top).filter (fun i => !used.contains i)
/-- Warp numbers and physical macros in use on a core. -/
def warpNums (ws : List (Nat × Wg)) : List Nat := (ws.map (fun e => e.2.warps.map (·.num))).flatten
def macNums (ws : List (Nat × Wg)) : List Nat := (ws.map (fun e => e.2.macs.map (·.2))).flatten

/-- How many workgroups of a header fit beside those listed (R173). -/
def roomFor (h : Header) (ws : List (Nat × Wg)) : Nat :=
  let runs (n : Nat) (gs : List (Nat × Nat)) : Nat := sumOf (fun g => g.2 / n) gs
  let caps : List (Nat × Nat) :=
    [(h.warpCount, 64 - sumOf (fun e => e.2.warps.length) ws), (h.threads, 2048 - sumOf (fun e => e.2.threads.length) ws),
     (h.tiles, 64 - sumOf (fun e => e.2.hdr.tiles) ws), (h.accs, 16 - sumOf (fun e => e.2.hdr.accs) ws),
     (h.macs.length, 4 - (macNums ws).length), (h.qregs, 64 - sumOf (fun e => e.2.hdr.qregs) ws),
     (h.zones, 32 - sumOf (fun e => e.2.hdr.zones) ws), (h.ringCount, 32 - sumOf (fun e => e.2.hdr.ringCount) ws)]
  let pools := (caps.filter (fun c => c.1 ≠ 0)).map (fun c => c.2 / c.1)
  let rows := if h.rows = 0 then [] else [runs h.rows (freeRuns 4096 (rowRuns ws))]
  let grans := if h.scratch = 0 then [] else [runs h.scratch (freeRuns 16 (granRuns ws))]
  (pools ++ rows ++ grans ++ [64 - ws.length]).foldl min 64

/-- A core may take workgroups of a function (R203, R388, R453): not fenced, not under test, no other function's. -/
def Mach.usable (m : Mach) (core vf : Nat) : Bool :=
  let c := m.core core
  !c.fenced && (match c.owner with | none => true | some o => o == vf) && !m.fns.any (fun e => e.2.testing.contains core)
/-- Workgroups of a header that a core could still hold. -/
def Mach.canHold (m : Mach) (core vf : Nat) (h : Header) : Nat := if m.usable core vf then roomFor h (m.wgsOf core) else 0
/-- Free warps of a core. -/
def Mach.freeWarps (m : Mach) (core : Nat) : Nat := 64 - (warpNums (m.wgsOf core)).length
/-- A core that nothing has touched. -/
def Mach.untouched (m : Mach) (core : Nat) : Bool :=
  (tget m.cores core).isNone && !m.fns.any (fun e => e.2.testing.contains core)
/-- The core of a die with the most free warps that can hold a unit, the lowest number among equals (R174); not one of `not_`. -/
def Mach.bestCore (m : Mach) (vf : Nat) (h : Header) (cores not_ : List Nat) : Option Nat :=
  let fresh := (cores.filter (fun c => m.untouched c && !not_.contains c)).take 1
  let used := cores.filter (fun c => !m.untouched c && !not_.contains c)
  leastBy (fun c => (64 - m.freeWarps c) * 2048 + c) ((fresh ++ used).filter (fun c => 0 < m.canHold c vf h))
/-- Cores of a die. -/
def dieCores (d : Nat) : List Nat := upFrom (d * coresPerDie) coresPerDie
/-- The dieward count F (R173). -/
def Mach.dieward (m : Mach) (vf : Nat) (h : Header) (d : Nat) : Nat :=
  let used := (dieCores d).filter (fun c => !m.untouched c)
  sumOf (fun c => m.canHold c vf h) used + (coresPerDie - used.length) * roomFor h []

/-! ## Starting a workgroup -/

/-- A work unit: a group of its launch or a record (R169). -/
structure Unit_ where
  code : Addr
  frame : Addr
  base : Nat
  isGroup : Bool
  deriving DecidableEq, Repr
/-- The record the dispatcher forms for group `g` (R169). -/
def Header.groupUnit (h : Header) (g : Nat) : Unit_ :=
  { code := h.entry, frame := BitVec.ofNat 80 (h.addr + 256), base := g * 2 ^ h.widths.headD 1, isGroup := true }
/-- A pushed record as a unit: a code pointer's low three bits, and the base's below w0, are zero (R13, R169). -/
def Header.recordUnit (h : Header) (r : Record) : Unit_ :=
  { code := BitVec.ofNat 80 (r.code.toNat / 8 * 8), frame := r.frame,
    base := r.base / 2 ^ h.widths.headD 1 * 2 ^ h.widths.headD 1, isGroup := false }

/-- Thread `t` of a workgroup as it starts (R8, R18, R68, R150). -/
def startThread (h : Header) (u : Unit_) (t : Nat) : Thread :=
  let wid := (u.base + t) % 2 ^ 64
  { pc := u.code, wid, warp := t / 32, lane := t % 32, rnd := rndSeed h.seed (BitVec.ofNat 64 wid),
    stackbase := if h.priv = 0 then 0 else BitVec.ofNat 80 (h.priv.toNat + (wid + 1) * 65536) }
/-- A ring as it starts (R297). -/
def startRing (n : Nat) : Ring :=
  { full := List.replicate n false, phase := List.replicate n false, heldP := List.replicate n false, heldC := List.replicate n false }

/-- The lines of the ways that pass to the scratchpad when the boundary rises to `hi` (R196). -/
def Core.takenLines (c : Core) (hi : Nat) : List (Nat × Line) := c.l1.filter (fun e => decide (e.2.way < hi))
/-- The granules of a run pass to the scratchpad (R195, R196): the lines of the ways taken are written back and dropped, and the granules
read as zero. -/
def Mach.takeOver (m : Mach) (core gran n : Nat) : Mach :=
  if n = 0 then m
  else
    let b := (m.core core).boundary
    let m := ((m.core core).takenLines (gran + n)).foldl (fun m e => m.dropLine core e.1) m
    let lo := gran * 32768
    let hi := (gran + n) * 32768
    m.modCore core (fun c =>
      { c with boundary := max b (gran + n), scratch := c.scratch.filter (fun e => !(lo ≤ e.1 && e.1 < hi)),
               poison := c.poison.filter (fun p => !(lo ≤ p * 4 && p * 4 < hi)) })
/-- Cycles until the granules are ready (R196): 256 each, and 1 for each dirty line of the ways taken. -/
def Core.takeOverCycles (c : Core) (gran n : Nat) : Nat :=
  if n = 0 then 0 else 256 * n + ((c.takenLines (gran + n)).filter (fun e => e.2.dirty.any id)).length

/-- The places a workgroup's grants take on a core: slot, granule, row, warp numbers, macros. -/
structure Seat where
  slot : Nat
  gran : Nat
  row : Nat
  nums : List Nat
  macs : List Nat
  deriving DecidableEq, Repr
/-- The seat a core gives, by first fit. -/
def Mach.seat? (m : Mach) (core : Nat) (h : Header) : Option Seat := do
  let ws := m.wgsOf core
  let slot ← (freeBelow 64 (ws.map (·.1))).head?
  let gran ← firstFit 16 (granRuns ws) h.scratch
  let row ← firstFit 4096 (rowRuns ws) h.rows
  some { slot, gran, row, nums := (freeBelow 64 (warpNums ws)).take h.warpCount, macs := (freeBelow 4 (macNums ws)).take h.macs.length }
/-- The core becomes the function's (R203), takes its planes (R353) and gives up the granules, in so many cycles. -/
def Mach.prepare (m : Mach) (core vf : Nat) (h : Header) (seat : Seat) : Nat × Mach :=
  let passing := m.passCycles core vf
  let m := (m.passCore core vf).modCore core (fun c => { c with owner := some vf })
  let m := m.modFn vf (fun f => { f with ownedCores := if f.ownedCores.contains core then f.ownedCores else f.ownedCores ++ [core] })
  let cycles := passing + (m.core core).takeOverCycles seat.gran h.scratch
  let m := m.takeOver core seat.gran h.scratch
  (cycles, seat.macs.foldl (fun (m : Mach) p => m.modCore core (fun c => { c with macs := tset c.macs p { (tget c.macs p).getD {} with b := none } })) m)

/-- PLACE A WORKGROUP on a core that can hold it; its first issue waits for its granules, and in a gang for the start. -/
def Mach.placeUnit (m : Mach) (clk : Clock) (core vf : Nat) (l : Launch) (u : Unit_) : Mach :=
  match m.seat? core l.hdr with
  | none => m
  | some seat =>
    let h := l.hdr
    let (cycles, m) := m.prepare core vf h seat
    let m := { m with seq := m.seq + 1 }
    let w : Wg :=
      { vf, launch := l.id, hdr := h, base := u.base, g := u.base / 2 ^ h.widths.headD 1, isGroup := u.isGroup, frame := u.frame,
        threads := (upFrom 0 h.threads).map (startThread h u), warps := seat.nums.map (fun n => { num := n }),
        gran := seat.gran, row := seat.row, tiles := List.replicate h.tiles {}, rings := h.rings.map startRing,
        qs := List.replicate h.qregs none, zones := List.replicate h.zones {}, bds := List.replicate 16 {},
        macs := h.macs.zip seat.macs, readyAt := clk.cycle + cycles,
        waitingGang := (match l.gang with | some g => !g.started | none => false), started := m.seq }
    let m := m.setWg core seat.slot w
    let m := if h.rollback then m.baste clk core seat.slot else m
    m.modLaunch vf l.id (fun l => { l with running := l.running + 1 })

end Sys2Proof.Machine
end

