-- ==== Sys2Proof/Machine/Work.lean ====
section
/-! DEFINITION. Group S: `spawn`, `join`, `grow`, `gw.signal` (R171, R172, R186) and `wid` (R148, R187). -/
namespace Sys2Proof.Machine

/-! ## Record queues (R169, R171) -/

def Fn.queue (f : Fn) (level : Nat) : List Record := (tget f.queues level).getD []
/-- Entries of a level's ring. -/
def Fn.queueCap (f : Fn) (level : Nat) : Nat := 2 ^ (f.qk.getD level 10)
/-- A 64-byte record as pushed for a launch (R169, R172). -/
def recordOf (bs : List Byte) (launch : Nat) : Record :=
  let num (i n : Nat) : Nat := leNat ((bs.drop i).take n)
  { code := BitVec.ofNat 80 (num 0 10), frame := BitVec.ofNat 80 (num 16 10), launch, base := num 48 8, prio := num 60 1 % 4, bytes := bs }
/-- Push a record onto its queue; the launch counts it (R170). -/
def Mach.pushRecord (m : Mach) (vf : Nat) (r : Record) : Mach :=
  (m.modFn vf (fun f => { f with queues := tset f.queues r.prio (f.queue r.prio ++ [r]) })).modLaunch vf r.launch
    (fun l => { l with records := l.records + 1 })

/-- The ring of a level doubles, within the frame budget (R171). -/
def Mach.growRing (m : Mach) (vf level : Nat) : Option Mach := do
  let f := m.fn vf
  let k := f.qk.getD level 10
  if 24 ≤ k then none
  else
    let (ps, m) ← m.takePages vf ((2 ^ (k + 1) * 64 + 65535) / 65536)
    let old := (tget (m.fn vf).ringPages level).getD []
    some ((m.modFn vf (fun f => { f with qk := setAt f.qk level (k + 1), ringPages := tset f.ringPages level ps })).releasePages vf old)

/-! ## Shared checks (R186) -/

/-- Once for the group: seal and release, after what its threads have held (R186, R400). -/
def Ctx.workIssue (c : Ctx) (clk : Clock) (k : Mach → Mach) : Mach :=
  if c.act.isEmpty then c.retire c.m
  else c.afterHeld clk (k ((c.m.seal clk c.core c.slot 6).release clk c.core c.slot 5))
/-- One access of the leader, `n` bytes at `va`; an uncorrectable error that it would read is consumed (R378). -/
def Ctx.workAccess (c : Ctx) (clk : Clock) (m : Mach) (align va off n : Nat) (ks : List Access) (code : Nat) (k : List Part → Mach → Mach) :
    Mach :=
  if va % align ≠ 0 then c.trapAct clk m 3 c.leaderT.lane (BitVec.ofNat 80 va)
  else
    c.checkedStop clk m 1 ks code 0 [{ thread := c.act.headD 0, lane := c.leaderT.lane, va := (va + off) % 2 ^ 80, n }] (fun ps m =>
      match if ks.contains .read then ps.findSome? (m.poisoned clk c.core ⟨.strong, 5⟩) else none with
      | some addr => m.consume clk c.core c.slot addr (fun m => c.trapAct clk m 12 4 (BitVec.ofNat 80 addr))
      | none => k ps m)
/-- The bytes of a device-scope read. -/
def Ctx.workRead (c : Ctx) (m : Mach) (clk : Clock) (ps : List Part) : List Byte × Mach := m.readNow clk c.core c.slot ⟨.acqRel, 5⟩ ps
/-- A push onto a full ring (R171): the threads stop at the instruction with an entry of kind 3. -/
def Ctx.queueFull (c : Ctx) (clk : Clock) (m : Mach) (va : Nat) : Mach :=
  c.faultStop clk m 1 3 [{ va, lane := c.leaderT.lane, lanes := 2 ^ c.leaderT.lane, kind := 3 }]

/-! ## The instructions -/

def spawnRun (d a : Nat) (clk : Clock) (c : Ctx) : Mach :=
  c.workIssue clk (fun m =>
    let va := c.leadA a
    c.workAccess clk m 64 va 0 64 [.read] 0 (fun ps m =>
      let (bs, m) := c.workRead m clk ps
      let r := recordOf bs c.wg.launch
      let f := m.fn c.vf
      if f.queueCap r.prio ≤ (f.queue r.prio).length then c.queueFull clk m va
      else c.retireK (m.pushRecord c.vf r) d 0))
/-- `join`: the decrement is performed only when its push, if it makes one, has room. -/
def joinRun (d a : Nat) (clk : Clock) (c : Ctx) : Mach :=
  c.workIssue clk (fun m =>
    let va := c.leadA a
    c.workAccess clk m 64 va 56 4 [.read, .write] 3 (fun ps m =>
      let (bs, m) := c.workRead m clk ps
      let n := leNat bs
      let body : List Part := ps.map (fun p => { p with va := va, n := 64, tr := match p.tr with
        | .ok pa k => .ok (pa - 56) k | .remote d pa k => .remote d (pa - 56) k | t => t })
      if n = 0 then c.retireK ((m.logErr clk c.vf 4 16 0 c.core 0 va).acquire c.core 5) d 2
      else
        let dec (m : Mach) : Mach :=
          (ps.foldl (fun m p => (m.atomPart clk c.core ⟨.strong, 5⟩ .z32 (.step 0 4294967295) p).2) m).acquire c.core 5
        if n ≠ 1 then c.retireK (dec m) d 0
        else
          let (rec_, m) := c.workRead m clk body
          let r := recordOf (rec_.take 56 ++ leBytes 4 0 ++ rec_.drop 60) c.wg.launch
          let f := m.fn c.vf
          if f.queueCap r.prio ≤ (f.queue r.prio).length then c.queueFull clk m va
          else c.retireK ((dec m).pushRecord c.vf r) d 1))
/-- `grow` (R172). -/
def growRun (d k : Nat) (clk : Clock) (c : Ctx) : Mach :=
  c.workIssue clk (fun m =>
    let n := c.leadK k
    match m.launch? c.vf c.wg.launch with
    | none => c.retireK m d (2 ^ 64 - 1)
    | some l =>
      if 2 ^ (64 - l.hdr.widths.headD 1) - 1 < l.count + n || l.hdr.pinned || (l.hdr.cspan && n % 16 ≠ 0) then
        c.retireK m d (2 ^ 64 - 1)
      else c.retireK (m.modLaunch c.vf l.id (fun l => { l with count := l.count + n })) d l.count)
/-- `gw.signal`: an 8-byte store with release at device scope, performed at L2. -/
def gwSignalRun (kb a : Nat) (clk : Clock) (c : Ctx) : Mach :=
  c.workIssue clk (fun m =>
    let va := c.leadA a
    c.workAccess clk m 8 va 0 8 [.write] 1 (fun ps m =>
      let bs := leBytes 8 (c.leadK kb)
      c.retire ((ps.foldl (fun (s : Mach × List Byte) p =>
        (s.1.storePart clk c.core c.slot ⟨.acqRel, 5⟩ p (s.2.take p.n), s.2.drop p.n)) (m, bs)).1)))

/-- Field `i` of a work identifier (R148). -/
def Header.widField (h : Header) (wid i : Nat) : Nat :=
  if h.widths.length ≤ i then 0 else field wid (sumOf id (h.widths.take i)) (h.widths.getD i 0)
/-- The value `wid` selects. -/
def Ctx.widValue (c : Ctx) (t : Thread) (sel : Nat) : Nat :=
  if sel ≤ 5 then c.wg.hdr.widField t.wid sel
  else if sel = 6 then t.wid / 2 ^ c.wg.hdr.widths.headD 1 else c.wg.frame.toNat
def widRun (form d sel : Nat) (_ : Clock) (c : Ctx) : Mach :=
  c.retireWith c.m (fun t =>
    let x := c.widValue t sel
    if form = 0 then t.setV d (BitVec.ofNat 32 x) else t.setVV d (BitVec.ofNat 64 x))
def widFrameRun (d : Nat) (_ : Clock) (c : Ctx) : Mach := c.retireWith c.m (fun t => t.setA d c.wg.frame)

def execSpawn (d a : Nat) (s : State) : Host.Outcome State Fault Refusal := s.group (spawnRun d a)
def execJoin (d a : Nat) (s : State) : Host.Outcome State Fault Refusal := s.group (joinRun d a)
def execGrow (d k : Nat) (s : State) : Host.Outcome State Fault Refusal := s.group (growRun d k)
def execGwSignal (k a : Nat) (s : State) : Host.Outcome State Fault Refusal := s.group (gwSignalRun k a)
def execWid (form d sel : Nat) (s : State) : Host.Outcome State Fault Refusal := s.group (widRun form d sel)
def execWidFrame (d : Nat) (s : State) : Host.Outcome State Fault Refusal := s.group (widFrameRun d)

end Sys2Proof.Machine
end

