-- ==== Sys2Proof/Machine/Launch.lean ====
section
/-! DEFINITION. Launches: the header's checks and placement (R167, R168, R425, R426 steps 1 and 2), completion (R170, R372), and the
graph walker (R176, R177). -/
namespace Sys2Proof.Machine

/-! ## Firmware's own accesses (R168, R170) -/

/-- How an access of firmware stands. -/
inductive FwRes where
  | ok (ps : List Part)
  | missing (va kind access : Nat)
  | failed
  deriving DecidableEq, Repr
/-- Translate a range for every right it needs; reading a poisoned line fails. -/
def Mach.fwAccess (m : Mach) (vf va n : Nat) (ks : List Access) : FwRes :=
  let ps : List Part := (spansOf va n).map (fun p =>
    { thread := 0, lane := 0, va := p.1, n := p.2,
      tr := (ks.map (translate m vf p.1)).foldl worse (.ok 0 0) })
  match bulkRes m ps with
  | .refused .. => .failed
  | .fault va kind => .missing va kind (bit (ks.contains .write))
  | .ok => if ks.contains .read && (bulkPoison m ps).isSome then .failed else .ok ps
/-- A core number no core has: accesses of the I/O die. -/
def ioDie : Nat := 1280
/-- A fault-queue entry of firmware's own (R376): kind, warp 0xFF, and whom its service releases. -/
def Mach.fwFault (m : Mach) (clk : Clock) (vf va kind access rec_ : Nat) : Mach :=
  m.postFault clk vf { va, time := 0, core := 65535, slot := 0, warp := 255, kind, access, olog := 255, flags := 0, lanes := 0, wid := 0,
                       launch := 0, rec_ }

/-! ## The header (R167, R168) -/

/-- The fields of a header's 256 bytes. -/
def parseHeader (addr : Nat) (r : List Byte) : Header :=
  let w := numAt r 144 8
  let fl := byteAt r 3
  { addr, threads := numAt r 4 2, widths := (upFrom 0 (byteAt r 6)).map (fun i => byteAt r (8 + i)),
    entry := BitVec.ofNat 80 (numAt r 16 10), handler := BitVec.ofNat 80 (numAt r 32 10), priv := BitVec.ofNat 80 (numAt r 48 10),
    stamp := BitVec.ofNat 80 (numAt r 64 10), gang := BitVec.ofNat 80 (numAt r 80 10), slotreq := BitVec.ofNat 80 (numAt r 96 10),
    gcount := BitVec.ofNat 80 (numAt r 112 10), groups := numAt r 128 8, seed := BitVec.ofNat 64 (numAt r 136 8),
    prio := field fl 5 2, win := field fl 4 1 == 1, pinned := field fl 3 1 == 1, cspan := field fl 2 1 == 1,
    rollback := field fl 1 1 == 1, ordered := field fl 0 1 == 1,
    rings := (upFrom 0 4).map (fun i => field w (37 + 4 * i) 4), zones := field w 33 4, qregs := field w 29 4,
    macs := (upFrom 0 4).filter (fun i => field w (25 + i) 1 == 1), accs := field w 20 5, tiles := field w 13 7,
    scratch := field w 8 5, vregs := field w 0 8, roles := (upFrom 0 32).map (fun i => field (numAt r 152 8) (2 * i) 2),
    slotmask := numAt r 160 2 }
/-- Every byte of a range is zero. -/
def zeroBytes (r : List Byte) (at_ n : Nat) : Bool := ((r.drop at_).take n).all (· == 0)
/-- Check 1 on the bytes. -/
def headerCheck1 (r : List Byte) (h : Header) : Bool :=
  numAt r 0 2 == 0x4C48 && byteAt r 2 == 1 && byteAt r 3 < 128 && byteAt r 7 == 0 &&
  zeroBytes r (8 + min (byteAt r 6) 6) (8 - min (byteAt r 6) 6) &&
  [16, 32, 48, 64, 80, 96, 112].all (fun o => zeroBytes r (o + 10) 6) &&
  numAt r 144 8 < 2 ^ 53 && h.slotmask % 8 == 0 && zeroBytes r 162 94
/-- Bits to hold the numbers below `n`. -/
def ceilLog2 (n : Nat) : Nat := bitLen (n - 1)
/-- Check 2. -/
def headerCheck2 (h : Header) : Bool :=
  1 ≤ h.widths.length && h.widths.length ≤ 6 && h.widths.all (1 ≤ ·) && sumOf id h.widths ≤ 64 && 1 ≤ h.threads && h.threads ≤ 1024 &&
  ceilLog2 h.threads ≤ h.widths.headD 0 && 1 ≤ h.groups && h.groups ≤ 2 ^ (64 - h.widths.headD 0) - 1
/-- Check 3. -/
def headerCheck3 (h : Header) : Bool :=
  h.entry != 0 && h.entry.toNat % 8 == 0 && h.handler.toNat % 8 == 0 && h.priv.toNat % 65536 == 0
/-- Check 4. -/
def headerCheck4 (h : Header) : Bool :=
  h.warpCount ≤ 64 && 1 ≤ h.vregs && h.vregs ≤ 32 && h.threads * h.vregs * 32 ≤ 524288 && h.scratch ≤ 16 && h.tiles ≤ 64 && h.accs ≤ 16 &&
  h.qregs ≤ 8 && h.zones ≤ 8 && h.rings.all (· ≤ 8)
/-- Check 5. -/
def headerCheck5 (h : Header) : Bool :=
  (h.roles.take h.warpCount).all (· ≠ 3) && (h.roles.drop h.warpCount).all (· == 0)
/-- Check 6. -/
def headerCheck6 (h : Header) : Bool :=
  (!h.cspan || h.groups % 16 == 0) && !(h.pinned && (h.ordered || h.rollback || h.gang != 0))
/-- Bytes of a save image of a workgroup as R391 lays it out, sections 0 to 9, 11 and 12. -/
def Header.imageBytes (h : Header) : Nat :=
  let s := h.scratch
  let up (n : Nat) : Nat := (n + 255) / 256 * 256
  256 + sumOf up [h.threads * 1024, h.warpCount * 8 * h.vregs * 128, s * 32768, s * 512, h.tiles * 32, if h.ringCount = 0 then 0 else 64,
                  h.accs * 8192, 16384 * h.macs.length, 2056, 512, h.qregs * 8, h.zones * 64]
/-- Frames check 7 reserves. -/
def Header.reservation (h : Header) : Nat :=
  if h.pinned then (h.groups * ((h.imageBytes + 65535) / 65536 * 65536) + 33554431) / 33554432 else 0
/-- The number of the first check that fails, 0 when none does; the range and its rights have been checked. -/
def Mach.headerCheck (m : Mach) (vf : Nat) (r : List Byte) (h : Header) : Nat :=
  if h.addr % 64 ≠ 0 || !headerCheck1 r h then 1
  else if !headerCheck2 h then 2
  else if !headerCheck3 h then 3
  else if !headerCheck4 h then 4
  else if !headerCheck5 h then 5
  else if !headerCheck6 h then 6
  else if h.pinned && (m.fn vf).g < (m.fn vf).heldCount + h.reservation then 7
  else if 64 ≤ (m.fn vf).launches.length then 8
  else 0

/-! ## Gang descriptors (R425) -/

/-- A descriptor's members when it is well formed. -/
def gangMembers (r : List Byte) : Option (List Nat) :=
  let n := numAt r 4 2
  let ms := (upFrom 0 n).map (fun i => numAt r (64 + 2 * i) 2)
  let rising := (ms.zip (ms.drop 1)).all (fun p => p.1 < p.2)
  if numAt r 0 2 == 0x474C && byteAt r 2 == 1 && byteAt r 3 == 0 && zeroBytes r 6 2 && zeroBytes r 24 40 && 2 ≤ n && n ≤ 2048 &&
      r.length == 64 + 2 * n && rising && ms.all (· < 2048) then some ms else none
/-- Read a gang descriptor: the gang, or none when it is unreadable or ill formed. -/
def Mach.readGang (m : Mach) (vf va : Nat) : Option Gang := do
  let rd (n : Nat) : Option (List Byte) :=
    match m.fwAccess vf va n [.read] with | .ok ps => some (m.bulkRead ioDie ps).1 | _ => none
  if va % 64 ≠ 0 then none
  else
    let h ← rd 64
    let r ← rd (64 + 2 * numAt h 4 2)
    let ms ← gangMembers r
    some { members := ms, tick := numAt r 8 8, digest := leNat (sha256 r) }

/-! ## Refusal, placement -/

/-- A refused launch (R168): one error-log entry with the check and the header address. -/
def Mach.refuseLaunch (m : Mach) (clk : Clock) (vf check addr : Nat) : Mach := m.logErr clk vf 4 check 0 65535 0 addr
/-- Place a launch that passed every check: the machine, and the launch's number; a gang's descriptor that cannot be read refuses it
under check 10. -/
def Mach.placeLaunch (m : Mach) (clk : Clock) (vf : Nat) (h : Header) (stampVal : K64) (track : Nat) : Option Nat × Mach :=
  let (id, m) := m.newId
  let l : Launch := { id, hdr := h, stampVal, track, count := h.groups, reserved := h.reservation }
  let add (m : Mach) (l : Launch) : Mach := m.modFn vf (fun f => { f with launches := f.launches ++ [l] })
  if h.gang = 0 then (some id, add m l)
  else
    match m.readGang vf h.gang.toNat with
    | none => (none, m.refuseLaunch clk vf 10 h.addr)
    | some g =>
      let m := add m { l with gang := some g }
      -- step 2 of R426: the digest goes to every other member (log 23)
      (some id, (g.members.filter (· ≠ m.devnum)).foldl (fun m d => m.send d (leBytes 1 12 ++ leBytes 32 g.digest)) m)

/-! ## The walker (R176, R177) -/

/-- A node's fields. -/
structure Node where
  kind : Nat
  test : Nat
  next : Nat
  alt : Nat
  addr : Nat
  value : Nat
  stamp : Nat
  count : Nat
  track : Nat
  prio : Nat
  zeros : Bool
  deriving DecidableEq, Repr
def parseNode (r : List Byte) : Node :=
  { kind := byteAt r 0, test := byteAt r 1, next := numAt r 2 2, alt := numAt r 4 2, addr := numAt r 8 10, value := numAt r 24 8,
    stamp := numAt r 32 10, count := numAt r 48 8, track := byteAt r 56 % 16, prio := byteAt r 57 % 4, zeros := zeroBytes r 58 6 }
def Walker.nodeAt (w : Walker) : Nat := (w.graph.toNat + 64 * w.node) % 2 ^ 80
/-- What R177 stops a run for, in the node itself. -/
def Node.bad (n : Node) (count : Nat) : Bool :=
  6 < n.kind || !n.zeros || (n.kind ≠ 0 && decide (count ≤ n.next)) || ((n.kind == 2 || n.kind == 3) && decide (count ≤ n.alt)) ||
  ((n.kind == 2 || n.kind == 3) && decide (3 < n.test))
/-- The kind of the node the walker stands at; a node that cannot be read now, or is bad, is met by GW_END_NODE. -/
def Mach.nodeKind (m : Mach) (vf : Nat) (w : Walker) : Nat :=
  if w.count ≤ w.node then 0
  else
    match m.fwAccess vf w.nodeAt 64 [.read] with
    | .ok ps => let n := parseNode (m.bulkRead ioDie ps).1; if n.bad w.count then 0 else n.kind
    | _ => 0
def Mach.setWalker (m : Mach) (vf : Nat) (w : Option Walker) : Mach := m.modFn vf (fun f => { f with walker := w })
/-- A run is over: the walker's track slots stand as the run leaves them (R177). -/
def Mach.endWalker (m : Mach) (vf : Nat) (w : Walker) : Mach := m.modFn vf (fun f => { f with walker := none, tracks := w.tracks })
/-- A run stops (R177): an error-log entry with the node address, a signal to the host, and the command's completion. -/
def Mach.stopRun (m : Mach) (clk : Clock) (vf : Nat) (w : Walker) : Mach :=
  (((m.endWalker vf w).logErr clk vf 5 1 0 65535 0 w.nodeAt).postHost vf 2 (leBytes 16 w.nodeAt)).finish w.cmd 1 5 1
/-- The number by which a fault service finds a function's walker. -/
def walkerRec : Nat := 2 ^ 64
/-- An access of the walker: a page that is missing is brought in first. -/
def Mach.walkerAccess (m : Mach) (clk : Clock) (vf : Nat) (w : Walker) (va n : Nat) (ks : List Access) (bad : Mach → Option Mach)
    (k : List Part → Mach → Option Mach) : Option Mach :=
  if w.fault = 1 then none
  else
    match m.fwAccess vf va n ks with
    | .ok ps => k ps m
    | .failed => bad m
    | .missing va kind access =>
      if w.fault = 2 && w.faultVa == va then bad m
      else if !m.faultRoom vf 1 then none
      else some ((m.setWalker vf (some { w with fault := 1, faultVa := va })).fwFault clk vf va kind access walkerRec)
/-- Run the node the walker stands at, when it is of kind `kind`: its fields, its bytes' parts. -/
def Mach.atNode (m : Mach) (clk : Clock) (vf kind : Nat) (k : Walker → Node → Mach → Option Mach) : Option Mach := do
  let w ← (m.fn vf).walker
  if w.room || m.nodeKind vf w ≠ kind then none
  else if w.count ≤ w.node then some (m.stopRun clk vf w)
  else
    m.walkerAccess clk vf w w.nodeAt 64 [.read] (fun m => some (m.stopRun clk vf w)) (fun ps m =>
      let n := parseNode (m.bulkRead ioDie ps).1
      if n.bad w.count then some (m.stopRun clk vf w) else k w n m)
/-- Go on at a node. -/
def Mach.toNode (m : Mach) (vf : Nat) (w : Walker) (n : Nat) : Option Mach := some (m.setWalker vf (some { w with node := n, fault := 0, room := false }))
/-- The launch in a track slot has not completed. -/
def Mach.trackBusy (m : Mach) (vf : Nat) (w : Walker) (t : Nat) : Bool :=
  w.tracks.any (fun e => e.1 == t && (m.launch? vf e.2).isSome)

/-- Steps of a launch node once its header's range can be reached: stamp, count and priority are written, then the checks (R168). -/
def Mach.nodeLaunch (m : Mach) (clk : Clock) (vf : Nat) (w : Walker) (n : Node) (ps : List Part) : Option Mach :=
  let (old, m) := m.bulkRead ioDie ps
  let put (r : List Byte) (at_ : Nat) (bs : List Byte) : List Byte := r.take at_ ++ bs ++ r.drop (at_ + bs.length)
  let r := put old 64 (leBytes 10 n.stamp ++ List.replicate 6 0)
  let r := if n.count = 0 then r else put r 128 (leBytes 8 n.count)
  let r := put r 3 [BitVec.ofNat 8 (byteAt r 3 % 32 + 32 * n.prio + byteAt r 3 / 128 * 128)]
  let m := m.bulkWrite ioDie ps r
  let h := parseHeader n.addr r
  match m.headerCheck vf r h with
  | 0 =>
    match m.placeLaunch clk vf h (BitVec.ofNat 64 n.value) n.track with
    | (some id, m) =>
      m.toNode vf { w with placed := w.placed ++ [id], tracks := (n.track, id) :: w.tracks.filter (fun e => e.1 ≠ n.track) } n.next
    | (none, m) => m.toNode vf w n.next
  | 8 => some (m.setWalker vf (some { w with room := true, fault := 0 }))
  | c => (m.refuseLaunch clk vf c n.addr).toNode vf w n.next
/-- GW_LAUNCH_NODE. -/
def launchNode (clk : Clock) (vf : Nat) (m : Mach) : Option Mach :=
  m.atNode clk vf 1 (fun w n m =>
    if m.trackBusy vf w n.track then none
    else
      m.walkerAccess clk vf w n.addr 256 [.read, .write] (fun m => (m.refuseLaunch clk vf 1 n.addr).toNode vf w n.next)
        (fun ps m => m.nodeLaunch clk vf w n ps))
def execGwLaunchNode (vf : Nat) (s : State) : Host.Outcome State Fault Refusal := s.event (fun clk m => launchNode clk vf m)
/-- LAUNCH_PLACE_RETRY: a launch has completed, and the checks are made again (R168, check 8). -/
def execLaunchPlaceRetry (vf : Nat) (s : State) : Host.Outcome State Fault Refusal :=
  s.event (fun clk m => do
    let w ← (m.fn vf).walker
    if !w.room || 64 ≤ (m.fn vf).launches.length then none
    else launchNode clk vf (m.setWalker vf (some { w with room := false })))

/-- The comparison of a conditional or while node: 0 eq, 1 ne, 2 lt, 3 ge, unsigned. -/
def Node.holds (n : Node) (x : Nat) : Bool :=
  match n.test with | 0 => x == n.value | 1 => x != n.value | 2 => decide (x < n.value) | _ => decide (n.value ≤ x)
/-- Read an 8-byte word of the graph. -/
def Mach.walkerWord (m : Mach) (clk : Clock) (vf : Nat) (w : Walker) (va : Nat) (k : Nat → Mach → Option Mach) : Option Mach :=
  m.walkerAccess clk vf w va 8 [.read] (fun m => some (m.stopRun clk vf w)) (fun ps m =>
    let (bs, m) := m.bulkRead ioDie ps
    k (leNat bs) m)
def execGwConditionalNode (vf : Nat) (s : State) : Host.Outcome State Fault Refusal :=
  s.event (fun clk m => m.atNode clk vf 2 (fun w n m =>
    m.walkerWord clk vf w n.addr (fun x m => m.toNode vf w (if n.holds x then n.next else n.alt))))
/-- GW_WHILE_NODE: each true result adds 1 to the node's count. -/
def execGwWhileNode (vf : Nat) (s : State) : Host.Outcome State Fault Refusal :=
  s.event (fun clk m => m.atNode clk vf 3 (fun w n m =>
    m.walkerWord clk vf w n.addr (fun x m =>
      if !n.holds x then m.toNode vf w n.alt
      else
        m.walkerAccess clk vf w ((w.nodeAt + 48) % 2 ^ 80) 8 [.write] (fun m => some (m.stopRun clk vf w)) (fun ps m =>
          (m.bulkWrite ioDie ps (leBytes 8 (n.count + 1))).toNode vf w n.next))))
def execGwJoinNode (vf : Nat) (s : State) : Host.Outcome State Fault Refusal :=
  s.event (fun clk m => m.atNode clk vf 4 (fun w n m =>
    if (upFrom 0 16).any (fun t => n.value.testBit t && m.trackBusy vf w t) then none else m.toNode vf w n.next))
def execGwWaitStampNode (vf : Nat) (s : State) : Host.Outcome State Fault Refusal :=
  s.event (fun clk m => m.atNode clk vf 5 (fun w n m =>
    m.walkerWord clk vf w n.addr (fun x m => if n.value ≤ x then m.toNode vf w n.next else none)))
/-- GW_SIGNAL_HOST_NODE: address and value go to the host's completion queue, with an interrupt. -/
def execGwSignalHostNode (vf : Nat) (s : State) : Host.Outcome State Fault Refusal :=
  s.event (fun clk m => m.atNode clk vf 6 (fun w n m =>
    (m.signalHost vf n.addr n.value).toNode vf w n.next))
/-- GW_END_NODE: the run ends once every launch it placed has completed. -/
def execGwEndNode (vf : Nat) (s : State) : Host.Outcome State Fault Refusal :=
  s.event (fun clk m => m.atNode clk vf 0 (fun w _ m =>
    if w.placed.any (fun id => (m.launch? vf id).isSome) then none else some ((m.endWalker vf w).finish w.cmd 1 0 0)))
/-- Runs that placed a launch that has been killed stop (R372). -/
def Mach.stopKilledRuns (m : Mach) (clk : Clock) : Mach :=
  m.fns.foldl (fun m e =>
    match (m.fn e.1).walker with
    | some w => if w.placed.any (m.launchKilled e.1) then m.stopRun clk e.1 w else m
    | none => m) m

/-! ## Completion (R170, R372) -/

/-- Nothing of the launch is left to run. -/
def Launch.allDone (l : Launch) : Bool :=
  l.running == 0 && l.held.isEmpty && (l.killed || (l.records == 0 && l.count ≤ l.nextGroup))
/-- The launch's places and reservations go. -/
def Mach.dropLaunch (m : Mach) (vf lid : Nat) : Mach :=
  match m.launch? vf lid with
  | none => m
  | some l => (m.modFn vf (fun f => { f with launches := f.launches.filter (·.id ≠ lid) })).releasePages vf l.logPages
/-- One of the two writes at the end of a launch; an address of 0 writes nothing. A write that is refused is dropped and logged. -/
def Mach.closeWrite (m : Mach) (clk : Clock) (vf : Nat) (l : Launch) (va v : Nat) : Option Mach :=
  let next : Launch → Launch := fun l => { l with closing := l.closing + 1, fault := 0 }
  let dropped (m : Mach) : Mach := (m.logErr clk vf 4 18 0 65535 0 va).modLaunch vf l.id next
  if va = 0 then some (m.modLaunch vf l.id next)
  else
    match m.fwAccess vf va 8 [.write] with
    | .ok ps => some ((m.bulkWrite ioDie ps (leBytes 8 v)).modLaunch vf l.id next)
    | .failed => some (dropped m)
    | .missing a kind access =>
      if l.fault = 2 then some (dropped m)
      else if !m.faultRoom vf 1 then none
      else some ((m.modLaunch vf l.id (fun l => { l with fault := 1 })).fwFault clk vf a kind access l.id)
/-- Everything the launch's threads wrote is performed at L2 (R170). -/
def Mach.publish (m : Mach) : Mach := m.cores.foldl (fun m e => m.writeBackAll e.1) m
/-- LAUNCH_COMPLETE: gcount, then the stamp, with bit 63 set for a killed launch; then the launch is gone. -/
def execLaunchComplete (vf launch : Nat) (s : State) : Host.Outcome State Fault Refusal :=
  s.event (fun clk m => do
    let l ← m.launch? vf launch
    if !l.allDone || l.fault = 1 then none
    else if l.closing = 0 then m.publish.closeWrite clk vf l (if l.silent then 0 else l.hdr.gcount.toNat) l.count
    else if l.closing = 1 then
      m.closeWrite clk vf l (if l.silent then 0 else l.hdr.stamp.toNat) (if l.killed then l.stampVal.toNat ||| 2 ^ 63 else l.stampVal.toNat)
    else some (m.dropLaunch vf launch))

end Sys2Proof.Machine
end

