-- ==== Sys2Proof/Machine/Dispatcher.lean ====
section
/-! DEFINITION. The dispatchers (R173 to R175, R396): choosing a function, a level and a source, and sending a batch to a die's cores; the
digest check of R174; and the start of a gang (R426). -/
namespace Sys2Proof.Machine

/-! ## Digests (R174) -/

/-- Every slot a launch's slotmask names holds the record its slot-requirement table names. -/
def Mach.digestsOk (m : Mach) (vf : Nat) (h : Header) : Bool :=
  ((upFrom 3 13).filter (fun i => h.slotmask.testBit i)).all (fun i =>
    match m.fwAccess vf ((h.slotreq.toNat + 32 * (i - 3)) % 2 ^ 80) 32 [.read] with
    | .ok ps => (match ((m.fn vf).slotEntry i).fmt with | some f => f.digest == leNat (m.bulkRead ioDie ps).1 | none => false)
    | _ => false)
/-- A unit whose digests do not match: returned at its first mismatch, and the launch is killed at the second. -/
def Mach.mismatch (m : Mach) (clk : Clock) (vf : Nat) (l : Launch) : Mach :=
  if l.mism.isNone then m.modLaunch vf l.id (fun l => { l with mism := some false })
  else (m.logErr clk vf 4 9 0 65535 0 l.hdr.addr).killLaunch vf l.id

/-! ## Sources (R173) -/

/-- A source of work: a launch, or (none) the record queue of a level. -/
structure Source where
  vf : Nat
  level : Nat
  launch : Option Nat
  deriving DecidableEq, Repr
/-- Its place among the sources of a level: launches in placement order, then the queue. -/
def Source.order (s : Source) : Nat := match s.launch with | some id => id + 1 | none => 2 ^ 64
/-- A launch has groups to dispatch now. -/
def Launch.pending (l : Launch) : Bool := !l.killed && decide (l.nextGroup < l.count) && l.mism ≠ some false
/-- The launch of a queue's head record. -/
def Mach.headLaunch (m : Mach) (vf level : Nat) : Option Launch :=
  match (m.fn vf).queue level with | [] => none | r :: _ => m.launch? vf r.launch
def Mach.queuePending (m : Mach) (vf level : Nat) : Bool :=
  match m.headLaunch vf level with | some l => !l.killed && l.mism ≠ some false | none => false
/-- Every source with pending work, by function. -/
def Mach.sources (m : Mach) : List Source :=
  (m.fns.map (fun e => (upFrom 0 4).map (fun lv =>
    ((e.2.launches.filter (fun l => l.hdr.prio == lv && l.pending)).map (fun l => { vf := e.1, level := lv, launch := some l.id : Source })) ++
      (if m.queuePending e.1 lv then [{ vf := e.1, level := lv, launch := none }] else [])))).flatten.flatten

/-! ## Sending a batch -/

/-- What came of trying a source. -/
inductive Sent where
  | noRoom
  | units (n : Nat) (m : Mach)
  | changed (m : Mach)

/-- Place group `g` of a launch on a core. -/
def Mach.placeGroup (m : Mach) (clk : Clock) (core vf lid g : Nat) : Mach :=
  match m.launch? vf lid with
  | none => m
  | some l => (m.placeUnit clk core vf l (l.hdr.groupUnit g)).modLaunch vf lid (fun l => { l with nextGroup := g + 1, mism := none })
/-- Cores for `n` workgroups, each on its own core (R175). -/
def Mach.apart (m : Mach) (vf : Nat) (h : Header) : Nat → List Nat → Option (List Nat)
  | 0, picked => some picked
  | n + 1, picked =>
    match m.bestCore vf h (upFrom 0 coreCount) picked with
    | none => none
    | some c => m.apart vf h n (picked ++ [c])
/-- Cores for `n` groups of 16, a cluster for each sixteen, whose cores can each hold one: group g goes to core-in-cluster g mod 16 (R174). -/
def Mach.apartSpan (m : Mach) (vf : Nat) (h : Header) (n : Nat) (dies : List Nat) : Option (List Nat) :=
  let ks := (dies.flatMap (fun d => (upFrom (d * 10) 10).filter (fun k => (upFrom (k * 16) 16).all (fun c => 0 < m.canHold c vf h)))).take ((n + 15) / 16)
  if ks.length = (n + 15) / 16 then some ((ks.flatMap (fun k => upFrom (k * 16) 16)).take n) else none
/-- The dies in the order they are tried (R173). -/
def Mach.dieOrder (m : Mach) : List Nat := (upFrom 1 8).map (fun i => (m.lastDie + i) % 8)
/-- The hash of R396. -/
def orderedHash (s : K64) (g : Nat) : Nat :=
  let lo (x : K64) : BitVec 32 := x.truncate 32
  let hi (x : K64) : BitVec 32 := (x >>> 32).truncate 32
  let g := BitVec.ofNat 64 g
  (mix32 (mix32 (lo s ^^^ lo g) ^^^ hi s ^^^ hi g)).toNat
/-- The core an ordered launch's group goes to. -/
def Mach.orderedCore (m : Mach) (vf : Nat) (h : Header) (g : Nat) : Option Nat :=
  let p := orderedHash h.seed g * 1280 / 4294967296
  ((upFrom 0 1280).map (fun i => (p + i) % 1280)).find? (fun c => 0 < m.canHold c vf h)
/-- A cluster whose 16 cores can each hold a group: the first die in turn that has one, its lowest such cluster. -/
def Mach.spanCluster (m : Mach) (vf : Nat) (h : Header) : Option Nat :=
  m.dieOrder.findSome? (fun d => (upFrom (d * 10) 10).find? (fun k => (upFrom (k * 16) 16).all (fun c => 0 < m.canHold c vf h)))
/-- Place up to `n` groups on the cores of a die, one at a time (R174). -/
def Mach.dieGroups (m : Mach) (clk : Clock) (vf lid : Nat) (h : Header) (d : Nat) : Nat → Nat → Nat × Mach
  | 0, k => (k, m)
  | n + 1, k =>
    match m.launch? vf lid, m.bestCore vf h (dieCores d) [] with
    | some l, some c => (m.placeGroup clk c vf lid l.nextGroup).dieGroups clk vf lid h d n (k + 1)
    | _, _ => (k, m)
/-- Place records from the head of a queue on the cores of a die, while a core holds the next one and its digests match. -/
def Mach.dieRecords (m : Mach) (clk : Clock) (vf level d : Nat) : Nat → Nat → Nat × Mach
  | 0, k => (k, m)
  | n + 1, k =>
    match (m.fn vf).queue level with
    | [] => (k, m)
    | r :: rest =>
      match m.launch? vf r.launch with
      | none => (k, m)
      | some l =>
        if l.killed || l.mism == some false || !m.digestsOk vf l.hdr then (k, m)
        else
          match m.bestCore vf l.hdr (dieCores d) [] with
          | none => (k, m)
          | some c =>
            let m := m.modFn vf (fun f => { f with queues := tset f.queues level rest })
            let m := (m.placeUnit clk c vf l (l.hdr.recordUnit r)).modLaunch vf l.id (fun l => { l with mism := none })
            m.dieRecords clk vf level d n (k + 1)
/-- The first die in turn with F ≥ 1 for a header, and F. -/
def Mach.roomDie (m : Mach) (vf : Nat) (h : Header) : Option (Nat × Nat) :=
  m.dieOrder.findSome? (fun d => let f := m.dieward vf h d; if 0 < f then some (d, f) else none)
/-- Send a batch of a launch's groups. The record of each passes through the ring of its level on its way to the die, so the ring must have
room, and firmware doubles a full one (R169, R171, log 102). -/
def Mach.sendGroups (m : Mach) (clk : Clock) (vf : Nat) (l : Launch) : Sent :=
  let h := l.hdr
  if !m.digestsOk vf h then .changed (m.mismatch clk vf l)
  else if (m.fn vf).queueCap h.prio ≤ ((m.fn vf).queue h.prio).length then
    (match m.growRing vf h.prio with | some m' => .changed m' | none => .noRoom)
  else if h.ordered then
    match m.orderedCore vf h l.nextGroup with
    | none => .noRoom
    | some c => .units 1 (m.placeGroup clk c vf l.id l.nextGroup)
  else if h.pinned || l.gang.isSome then
    match (if h.cspan then m.apartSpan vf h (l.count - l.nextGroup) m.dieOrder else m.apart vf h (l.count - l.nextGroup) []) with
    | none => .noRoom
    | some cs =>
      let m := (cs.mapIdx (fun i c => (i, c))).foldl (fun m e => m.placeGroup clk e.2 vf l.id (l.nextGroup + e.1)) m
      .units cs.length (m.modLaunch vf l.id (fun l => { l with gang := l.gang.map (fun g => { g with placed := true }) }))
  else if h.cspan then
    match m.spanCluster vf h with
    | none => .noRoom
    | some k =>
      .units 16 ((upFrom 0 16).foldl (fun (m : Mach) i => m.placeGroup clk (k * 16 + i) vf l.id (l.nextGroup + i)) { m with lastDie := k / 10 })
  else
    match m.roomDie vf h with
    | none => .noRoom
    | some (d, f) =>
      let (k, m) := { m with lastDie := d }.dieGroups clk vf l.id h d (min (min 64 f) (l.count - l.nextGroup)) 0
      .units k m
/-- Send a batch of a queue's records. -/
def Mach.sendRecords (m : Mach) (clk : Clock) (vf level : Nat) : Sent :=
  match m.headLaunch vf level with
  | none => .noRoom
  | some l =>
    if !m.digestsOk vf l.hdr then .changed (m.mismatch clk vf l)
    else
      match m.roomDie vf l.hdr with
      | none => .noRoom
      | some (d, f) =>
        let (k, m) := { m with lastDie := d }.dieRecords clk vf level d (min (min 64 f) ((m.fn vf).queue level).length) 0
        .units k m
def Mach.sendFrom (m : Mach) (clk : Clock) (s : Source) : Sent :=
  match s.launch with
  | some id => (match m.launch? s.vf id with | some l => m.sendGroups clk s.vf l | none => .noRoom)
  | none => m.sendRecords clk s.vf s.level

/-! ## The global dispatcher (R173) -/

/-- The fixed rotation of levels. -/
def levelTurns : List Nat := [3, 2, 3, 1, 3, 2, 3, 0, 3, 2, 3, 1, 3, 2, 3]
/-- Rounds until some function of the list has a deficit above 0. -/
def Mach.roundsFor (m : Mach) (fs : List Nat) : Nat :=
  match fs.map (fun f => let x := m.fn f; ((1 - x.deficit).toNat + x.weight - 1) / x.weight) with
  | [] => 0
  | r :: rs => rs.foldl min r
/-- Deficits as the choice finds them: 0 for a function with no pending work, and rounds until one of those that can be served may send. -/
def Mach.fillDeficits (m : Mach) (pending serve : List Nat) : Mach :=
  let m := { m with fns := m.fns.map (fun e => if pending.contains e.1 then e else (e.1, { e.2 with deficit := 0 })) }
  let r := m.roundsFor serve
  if r = 0 then m
  else { m with fns := m.fns.map (fun e => if pending.contains e.1 then (e.1, { e.2 with deficit := e.2.deficit + (r * e.2.weight : Nat) }) else e) }
/-- The source whose turn it is among those given, with the turns taken: function, then level, then source. -/
def Mach.chooseSource (m : Mach) (pending : List Nat) (srcs : List Source) : Option (Source × Mach) := do
  let fs := (srcs.map (·.vf)).eraseDups
  let m := m.fillDeficits pending fs
  let vf ← leastBy (fun f => (f + 127 - m.lastFn % 128) % 128) (fs.filter (fun f => 0 < (m.fn f).deficit))
  let mine := srcs.filter (·.vf == vf)
  let p := (m.fn vf).turn
  let j ← (upFrom 0 15).find? (fun j => mine.any (fun s => s.level == levelTurns.getD ((p + j) % 15) 0))
  let level := levelTurns.getD ((p + j) % 15) 0
  let line := sortBy Source.order (mine.filter (·.level == level))
  let last := (tget (m.fn vf).lastSrc level).getD 0
  let s ← (match line.find? (fun s => last < s.order) with | some s => some s | none => line.head?)
  some (s, { m with lastFn := vf }.modFn vf (fun f => { f with turn := (p + j + 1) % 15, lastSrc := tset f.lastSrc level s.order }))
/-- A batch is charged whole, 1 per work unit (R173). -/
def Mach.charge (m : Mach) (s : Source) (n : Nat) : Mach :=
  m.modFn s.vf (fun f => { f with deficit := f.deficit - (n : Nat), waitL3 := if s.level = 3 then none else f.waitL3 })
/-- The next batch: sources that no core can hold now are passed over and keep their turn (log 41). -/
def Mach.nextBatch (m : Mach) (clk : Clock) (pending : List Nat) : Nat → List Source → Option Mach
  | 0, _ => none
  | fuel + 1, srcs =>
    match m.chooseSource pending srcs with
    | none => none
    | some (s, m') =>
      match m'.sendFrom clk s with
      | .units n m'' =>
        if n = 0 then m.nextBatch clk pending fuel (srcs.filter (· ≠ s))
        else some (m''.charge s n)
      | .noRoom => m.nextBatch clk pending fuel (srcs.filter (· ≠ s))
      | .changed _ => (match m.sendFrom clk s with | .changed m'' => some m'' | _ => none)
/-- GLOBAL_DISPATCH: one batch goes to a die. -/
def Mach.globalBatch (m : Mach) (clk : Clock) : Option Mach :=
  let srcs := m.sources
  m.nextBatch clk ((srcs.map (·.vf)).eraseDups) (srcs.length + 1) srcs
def execGlobalDispatch (s : State) : Host.Outcome State Fault Refusal := s.event (fun clk m => m.globalBatch clk)

/-- DIGEST_MISMATCH_RETRY: after a slot load, a unit that was returned is tried again, once: it goes to a core, or the launch is killed. -/
def execDigestMismatchRetry (vf : Nat) (s : State) : Host.Outcome State Fault Refusal :=
  s.event (fun clk m => do
    let l ← (m.fn vf).launches.find? (fun l => l.mism == some true && !l.killed)
    if !m.digestsOk vf l.hdr then some (m.mismatch clk vf l)
    else
      let m := m.modLaunch vf l.id (fun l => { l with mism := none })
      match m.launch? vf l.id with
      | none => some m
      | some l =>
        let src : Source := { vf, level := l.hdr.prio, launch := if l.pending then some l.id else none }
        match m.sendFrom clk src with
        | .units n m' => some (m'.charge src n)
        | _ => some m)

/-- Since when units of level 3 wait (R389); a function with no pending work has its deficit at 0 (R173). -/
def Mach.notePending (m : Mach) (clk : Clock) : Mach :=
  { m with fns := m.fns.map (fun e =>
      let waits (p : Nat) : Bool := e.2.launches.any (fun l => l.hdr.prio == p && l.pending) || m.queuePending e.1 p
      (e.1, { e.2 with waitL3 := if waits 3 then some (e.2.waitL3.getD clk.time) else none,
                       deficit := if (upFrom 0 4).any waits then e.2.deficit else 0 })) }

/-! ## Gangs (R426) -/

/-- Every other member's digest has come and matches. -/
def Gang.matched (g : Gang) (dev : Nat) : Bool := (g.members.filter (· ≠ dev)).all (fun d => g.got.contains (d, g.digest))
/-- GANG_DIGEST: a member's digest arrives. -/
def execGangDigest (vf launch dev digest : Nat) (s : State) : Host.Outcome State Fault Refusal :=
  s.always (fun _ m => m.modLaunch vf launch (fun l => { l with gang := l.gang.map (fun g =>
    if g.members.contains dev && !g.got.any (fun e => e.1 == dev) then { g with got := g.got ++ [(dev, digest)] } else g) }))
/-- GANG_START: this member is ready by T − 5,000 ns; its workgroups first issue at T. -/
def execGangStart (vf launch : Nat) (s : State) : Host.Outcome State Fault Refusal :=
  s.event (fun clk m => do
    let l ← m.launch? vf launch
    let g ← l.gang
    if g.started || !g.placed || !g.matched m.devnum || g.tick < clk.time + 5000 then none
    else
      let m := m.modLaunch vf launch (fun l => { l with gang := some { g with started := true } })
      some { m with wgs := m.wgs.map (fun e =>
        if e.2.vf = vf ∧ e.2.launch = launch then (e.1, { e.2 with waitingGang := false, notBefore := max e.2.notBefore g.tick }) else e) })
/-- A workgroup that has not issued leaves its core without a trace. -/
def Mach.unplace (m : Mach) (core slot : Nat) : Mach :=
  let m := m.delWg core slot
  let rest := m.wgsOf core
  let b := (rest.map (fun e => if e.2.hdr.scratch = 0 then 0 else e.2.gran + e.2.hdr.scratch)).foldl max 0
  m.modCore core (fun c => { c with boundary := b, owner := if rest.isEmpty then none else c.owner })
/-- GANG_DEADLINE: T − 5,000 ns has passed and the member is not ready: the placement is undone and the launch refused, check 10. -/
def execGangDeadline (vf launch : Nat) (s : State) : Host.Outcome State Fault Refusal :=
  s.event (fun clk m => do
    let l ← m.launch? vf launch
    let g ← l.gang
    if g.started || l.killed || clk.time + 5000 ≤ g.tick then none
    else
      let m := (m.wgs.filter (fun e => e.2.vf == vf && e.2.launch == launch)).foldl (fun m e => m.unplace (e.1 / 64) (e.1 % 64)) m
      some ((m.dropLaunch vf launch).refuseLaunch clk vf 10 l.hdr.addr))

end Sys2Proof.Machine
end

