-- ==== Sys2Proof/Machine/Pages.lean ====
section
/-! DEFINITION. Building a function's page tables (R209, R447): missing tables on a walk's path, and pages firmware maps of its own
accord: spools (R266, R286). -/
namespace Sys2Proof.Machine

/-- A table entry that points at page `p`: V and T (R210). -/
def tableEntry (p : Nat) : Nat := p * 65536 + 3
/-- Build the missing tables below the entry at `at_`; the remaining indices are `idx`. The level-5 entry's place, or the frame budget
refuses a table. -/
def Mach.buildPath (m : Mach) (vf at_ : Nat) : List Nat → Option (Nat × Mach)
  | [] => some (at_, m)
  | i :: rest =>
    let e := m.physNat at_ 16
    if field e 0 1 = 1 then m.buildPath vf (field e 16 36 * 65536 + 16 * i) rest
    else
      match m.takePage vf with
      | none => none
      | some (p, m) =>
        let m := (m.putEntry at_ (tableEntry p)).modFn vf (fun f => { f with tablePages := f.tablePages ++ [p] })
        m.buildPath vf (p * 65536 + 16 * i) rest
def Mach.buildTo (m : Mach) (vf va : Nat) : Option (Nat × Mach) :=
  m.buildPath vf ((m.fn vf).root + 16 * field va 76 4) (vaIndices va)

/-- Pages of a spool of a size code. -/
def spoolPages (code : Nat) : Nat := (spoolBytes code + 65535) / 65536
/-- A level-5 entry of a spool page: V, RD, W and kind 11. -/
def spoolEntry (p : Nat) : Nat := p * 65536 + 1 + 8 + 16 + 192
/-- Map the pages of a spool that are not mapped yet: `n` of them from `va` up. -/
def Mach.mapSpool (m : Mach) (vf va : Nat) : Nat → Option Mach
  | 0 => some m
  | n + 1 => do
    let (at_, m) ← m.buildTo vf (va % 2 ^ 80)
    if field (m.physNat at_ 16) 0 1 = 1 then m.mapSpool vf (va + 65536) n
    else
      let (p, m) ← m.takePage vf
      (m.putEntry at_ (spoolEntry p)).mapSpool vf (va + 65536) n
/-- Unmap a spool's pages and release them: local pages of the channel kind in frames the function holds. -/
def Mach.unmapSpool (m : Mach) (vf va : Nat) : Nat → Mach
  | 0 => m
  | n + 1 =>
    match entryAt m vf (va % 2 ^ 80) with
    | none => m.unmapSpool vf (va + 65536) n
    | some at_ =>
      let e := m.physNat at_ 16
      let p := field e 16 36
      if field e 0 1 = 1 ∧ field e 2 1 = 0 ∧ field e 75 1 = 0 ∧ field e 6 2 = 3 ∧ tget m.frameOf (p / 512) = some vf then
        (((m.putEntry at_ 0).forgetPage p).releasePages vf [p]).unmapSpool vf (va + 65536) n
      else m.unmapSpool vf (va + 65536) n

end Sys2Proof.Machine
end

