-- ==== Sys2Proof/Machine/Hub.lean ====
section
/-! DEFINITION. The invalidation hub (R234, R235, R416, R417), migration (R236, R237, R418, R427), and package power (R419, R420). -/
namespace Sys2Proof.Machine

/-! ## Invalidation (R416, R417) -/

/-- Peers that can be reached. -/
def Mach.reachable (m : Mach) : List Nat := (m.routes.map (·.1)).filter (fun d => !m.unreachable d)
/-- The request names the page of a cached translation: any base page of a large one (R416), every page when its count is 0; a move
names the page by its frame. -/
def InvReq.names (r : InvReq) (page : Nat) (p : Pte) : Bool :=
  match r.move with
  | some (old, _) => p.frame == old
  | none =>
    let d := (page + 2 ^ 64 - r.base / 65536) % 2 ^ 64
    r.count == 0 || decide (d < r.count) ||
      (p.large && decide ((page / 512 * 512 + 2 ^ 64 - r.base / 65536) % 2 ^ 64 < r.count ∨ r.base / 65536 / 512 = page / 512))
/-- The devices that a request goes to: where it names a page with RM = 1, or moves one, every peer of the domain (R417, R427). -/
def Mach.invDevices (m : Mach) (r : InvReq) : List Nat :=
  if (m.fn r.vf).domain.isSome &&
      (r.move.isSome || m.cores.any (fun c => c.2.planesOf == some r.vf && c.2.tlb.any (fun t => t.2.rm && t.2.dev != m.devnum && r.names t.1 t.2)))
  then m.reachable else []
/-- A request joins the hub under its function's next number, and goes to the devices it concerns (log 23). -/
def Mach.submitInv (m : Mach) (r : InvReq) : Mach :=
  let n := (m.fn r.vf).invSeq + 1
  let devs := m.invDevices r
  let m := { m with hub := m.hub ++ [{ r with seq := n, devs }] }.modFn r.vf (fun f => { f with invSeq := n })
  devs.foldl (fun m d =>
    m.send d (leBytes 1 17 ++ leBytes 2 m.devnum ++ leBytes 2 r.vf ++ leBytes 8 n ++ leBytes 10 r.base ++ leBytes 2 (if r.move.isSome then 0 else r.count))) m
/-- Requests the hub holds at one time. -/
def hubRoom : Nat := 16

/-! ## Stores that have translated their address but are not performed (R235) -/

/-- Where a fresh walk takes a store to `va`. -/
def Mach.freshStore (m : Mach) (vf va : Nat) : Option (Option Nat × Nat) :=
  match translate m vf va .write with
  | .ok pa _ => some (none, pa)
  | .remote d pa _ => some (some d, pa)
  | _ => none
/-- The page of `va` as the core's translation, or else the table, has it. -/
def Mach.pteOf (m : Mach) (core vf va : Nat) : Pte :=
  match tget (m.core core).tlb (va / 65536) with
  | some p => p
  | none => match walk m vf va with | .leaf p _ => p | .none_ => {}
/-- A buffered store, or a held operation of an ordered launch, names a page of the request. -/
def InvReq.namesStore (r : InvReq) (m : Mach) (core va pa : Nat) : Bool :=
  match r.move with
  | some (old, _) => pa / 65536 == old
  | none => r.names (va / 65536) (m.pteOf core r.vf va)
/-- A store on the die that a fresh walk no longer takes anywhere: it is performed before its die acknowledges. -/
def Mach.mustDrain (m : Mach) (r : InvReq) (die : Nat) : Bool :=
  m.wgs.any (fun e => e.2.vf == r.vf && e.1 / 64 / 160 == die &&
    e.2.sbuf.any (fun b => r.namesStore m (e.1 / 64) b.va b.pa && (m.freshStore r.vf b.va).isNone)) ||
  (m.fn r.vf).launches.any (fun l => l.held.any (fun o => o.core / 160 == die && r.namesStore m o.core o.va o.pa &&
    (match m.freshStore r.vf o.va with | some (none, _) => false | _ => true)))
/-- Cancelled and translated afresh: where the store goes now. -/
def BufStore.rewalked (b : BufStore) (m : Mach) (r : InvReq) (core : Nat) : BufStore :=
  if r.namesStore m core b.va b.pa then (match m.freshStore r.vf b.va with | some (d, pa) => { b with dev := d, pa } | none => b) else b
def OrdOp.rewalked (o : OrdOp) (m : Mach) (r : InvReq) (die : Nat) : OrdOp :=
  if o.core / 160 = die && r.namesStore m o.core o.va o.pa then (match m.freshStore r.vf o.va with | some (none, pa) => { o with pa } | _ => o) else o
/-- A saved workgroup's buffer: its stores go through a fresh walk, and where that takes one nowhere the buffer drains, sealed (log 103). -/
def Mach.rewalkImage (m : Mach) (clk : Clock) (r : InvReq) (i : Image) : Image × Mach :=
  if i.wg.sbuf.any (fun b => r.namesStore m i.core b.va b.pa && (m.freshStore r.vf b.va).isNone) then
    ({ i with wg := { i.wg with sbuf := [], sealed := 3 } }, i.wg.sbuf.foldl (fun m b => m.performBuf clk i.core r.vf i.wg.launch b) m)
  else ({ i with wg := { i.wg with sbuf := i.wg.sbuf.map (fun b => b.rewalked m r i.core) } }, m)
/-- What the walks of one die's cores find anew. -/
def Mach.rewalk (m : Mach) (clk : Clock) (r : InvReq) (die : Nat) : Mach :=
  let m0 := m
  let m : Mach := { m with wgs := m.wgs.map (fun e =>
    if e.2.vf = r.vf ∧ e.1 / 64 / 160 = die then (e.1, { e.2 with sbuf := e.2.sbuf.map (fun b => b.rewalked m0 r (e.1 / 64)) }) else e) }
  let m := m.modFn r.vf (fun f => { f with launches := f.launches.map (fun l => { l with held := l.held.map (fun o => o.rewalked m0 r die) }) })
  if die ≠ 0 then m
  else
    let (is, m) := (m.fn r.vf).images.foldl (fun (s : List Image × Mach) i => let (i, m) := s.2.rewalkImage clk r i; (s.1 ++ [i], m)) ([], m)
    m.modFn r.vf (fun f => { f with images := is })
/-- A core's translations that match go, and the lines of their pages (R235). -/
def Mach.dropNamed (m : Mach) (core : Nat) (names : Nat → Pte → Bool) : Mach :=
  let gone := (m.core core).tlb.filter (fun t => names t.1 t.2)
  let pages := (gone.filter (fun t => !t.2.rm)).map (fun t => t.2.pa (t.1 * 65536) / 65536)
  let m := (((m.core core).l1.filter (fun l => pages.contains (l.1 / 512))).foldl (fun m l => m.dropLine core l.1) m)
  m.modCore core (fun c => { c with tlb := c.tlb.filter (fun t => !names t.1 t.2), icache := c.icache.filter (fun w => !pages.contains (w.1 / 8192)) })
/-- INVALIDATION_BROADCAST: a die drops what matches, performs or translates afresh every store that has used a matching entry, and
acknowledges. Other accesses are performed when they issue (log 5). -/
def execInvalidationBroadcast (die : Nat) (s : State) : Host.Outcome State Fault Refusal :=
  s.event (fun clk m => do
    let r ← (m.hub.take hubRoom).find? (fun r => !r.acks.contains die)
    if 8 ≤ die || m.mustDrain r die then none
    else
      let m := m.rewalk clk r die
      let m := m.cores.foldl (fun m c => if c.1 / 160 = die ∧ c.2.planesOf = some r.vf then m.dropNamed c.1 r.names else m) m
      some { m with hub := m.hub.map (fun x => if x.vf = r.vf ∧ x.seq = r.seq then { x with acks := x.acks ++ [die] } else x) })
/-- Message 17 of a peer: this device's cores drop what it names, and the peer is answered (R417). -/
def Mach.peerInvalidates (m : Mach) (dev vf seq base count : Nat) : Mach :=
  let r : InvReq := { vf, base, count, seq, word := none, cmd := none }
  (m.cores.foldl (fun m c => if c.2.planesOf = some vf then m.dropNamed c.1 (fun page p => p.rm && r.names page p) else m) m).send dev
    (leBytes 1 18 ++ leBytes 2 m.devnum ++ leBytes 2 vf ++ leBytes 8 seq)
/-- Message 18: a peer has acknowledged. -/
def Mach.peerAcked (m : Mach) (dev vf seq : Nat) : Mach :=
  { m with hub := m.hub.map (fun x => if x.vf = vf ∧ x.seq = seq then { x with devs := x.devs.filter (· ≠ dev) } else x) }

/-! ## Pages that move (R236, R237) -/

/-- The entries of a function that map a page. -/
def Mach.entriesOf (m : Mach) (vf page : Nat) : List Nat := ((m.mappedPages vf).filter (fun e => e.2 == page)).map (·.1)
/-- An entry with another migration counter. -/
def withMig (e n : Nat) : Nat := e - field e 10 3 * 1024 + n * 1024
/-- Whatever still names a page by its old place names it by the new: buffered stores, and of a page of this device monitors, held operations
and private lines. A device number stands for a page with RM = 1. -/
def Mach.retarget (m : Mach) (vf : Nat) (od : Option Nat) (old : Nat) (nd : Option Nat) (new : Nat) : Mach :=
  let store (b : BufStore) : BufStore :=
    if b.dev = od ∧ b.pa / 65536 = old then { b with dev := nd, pa := new * 65536 + b.pa % 65536 } else b
  let number (d : Option Nat) (l : Nat) : Nat := match d with | none => l | some d => farLine d l
  let line (l : Nat) : Nat :=
    match od with
    | none => if l < 2 ^ 60 ∧ l / 512 = old then number nd (new * 512 + l % 512) else l
    | some d => if farLine d (old * 512) ≤ l ∧ l < farLine d (old * 512 + 512) then number nd (new * 512 + (l - farLine d (old * 512))) else l
  let wg (w : Wg) : Wg :=
    { w with sbuf := w.sbuf.map store, threads := w.threads.map (fun t => { t with mon := t.mon.map (fun x => (line x.1, x.2)) }) }
  let m : Mach := { m with wgs := m.wgs.map (fun e => if e.2.vf = vf then (e.1, wg e.2) else e) }
  m.modFn vf (fun f => { f with
    images := f.images.map (fun i => { i with wg := wg i.wg }),
    launches := if od.isSome || nd.isSome then f.launches
      else f.launches.map (fun l => { l with
        held := l.held.map (fun o => if o.pa / 65536 = old then { o with pa := new * 65536 + o.pa % 65536 } else o),
        own := sortBy (·.1) (l.own.map (fun e => (if e.1 / 512 = old then new * 512 + e.1 % 512 else e.1, e.2))) }) })
/-- The copy and the new entries of a migration, once the invalidation has completed (R236); with the same page, P is set (R237). -/
def Mach.movePage (m : Mach) (clk : Clock) (vf old new : Nat) : Mach :=
  let at_ := m.entriesOf vf old
  if old = new then m
  else if at_.isEmpty then m.releasePages vf [new]
  else
    let m := (m.dropPage old).dropPage new
    let m : Mach := { m with
      mem := Memory.writeL m.mem (new * 65536) (Memory.readN m.mem (old * 65536) 65536),
      poison := m.poison ++ ((m.poison.filter (fun l => l / 512 == old)).map (fun l => new * 512 + l % 512)),
      lastMove := tset (terase m.lastMove old) new clk.time }
    let m := at_.foldl (fun (m : Mach) a =>
      let e := m.physNat a 16
      m.putEntry a (withMig (e - field e 16 36 * 65536 + new * 65536) (field e 10 3 + 1))) m
    ((m.retarget vf none old none new).forgetPage old).releasePages vf [old]

/-! ## Migration between devices (R427, log 23) -/

/-- The first of the function's tables, or (none) the root, with an entry that points at table page `p`: the index of that entry. -/
def Mach.parentOf (m : Mach) (vf p : Nat) : Option (Option Nat × Nat) :=
  let is_ (at_ : Nat) : Bool := let e := m.physNat at_ 16; field e 0 1 == 1 && field e 1 1 == 1 && field e 16 36 == p
  match (upFrom 0 16).find? (fun i => is_ ((m.fn vf).root + 16 * i)) with
  | some i => some (none, i)
  | none => (m.fn vf).tablePages.findSome? (fun q => ((upFrom 0 4096).find? (fun i => is_ (q * 65536 + 16 * i))).map (fun i => (some q, i)))
/-- The virtual page an entry maps: `low` is the part of its number found below table page `p`, `k` the levels above. -/
def Mach.vpageFrom (m : Mach) (vf p low bits : Nat) : Nat → Option Nat
  | 0 => none
  | k + 1 =>
    match m.parentOf vf p with
    | some (none, i) => some (low + i * 2 ^ bits)
    | some (some q, i) => m.vpageFrom vf q (low + i * 2 ^ bits) (bits + 12) k
    | none => none
def Mach.vpageOf (m : Mach) (vf at_ : Nat) : Option Nat := m.vpageFrom vf (at_ / 65536) (at_ % 65536 / 16) 12 5
/-- Send a page to a device: its entries are invalid, and accesses to it wait, until the device has answered. -/
def Mach.sendPage (m : Mach) (vf old dev : Nat) : Mach :=
  let at_ := m.entriesOf vf old
  match at_.head?.bind (m.vpageOf vf) with
  | none => m
  | some v =>
    let m := m.dropPage old
    let mig := field (m.physNat (at_.headD 0) 16) 10 3
    let m := at_.foldl (fun (m : Mach) a => m.putEntry a (m.physNat a 16 - 1)) m
    let m : Mach := { m with moving := m.moving ++ [{ vf, old, entries := at_, dev }] }
    (m.forgetPage old).send dev (leBytes 1 13 ++ leBytes 2 m.devnum ++ leBytes 2 vf ++ leBytes 8 v ++ leBytes 8 old ++ leBytes 1 mig ++
      Memory.readN m.mem (old * 65536) 65536)
/-- An entry with RM = 1 for a page of a device. -/
def farEntry (e dev page mig : Nat) : Nat :=
  withMig (e - field e 16 36 * 65536 + page * 65536 - field e 64 12 * 2 ^ 64 + (dev + 2048) * 2 ^ 64) mig
/-- Forget a virtual page in every translation cache of the function. -/
def Mach.forgetVpage (m : Mach) (vf v : Nat) : Mach :=
  { m with cores := m.cores.map (fun e => if e.2.planesOf = some vf then (e.1, { e.2 with tlb := terase e.2.tlb v }) else e) }
/-- Message 13: a page of a peer moves here, where the function maps it with RM = 1; the answer names its new place. -/
def Mach.takeMoved (m : Mach) (clk : Clock) (dev vf v old mig : Nat) (bs : List Byte) : Mach :=
  let answer (m : Mach) (st page : Nat) : Mach :=
    m.send dev (leBytes 1 14 ++ leBytes 2 m.devnum ++ leBytes 2 vf ++ leBytes 8 old ++ leBytes 1 st ++ leBytes 8 page)
  match entryAt m vf (v * 65536) with
  | none => answer m 1 0
  | some a =>
    let e := m.physNat a 16
    if (m.fn vf).domain.isNone || field e 0 1 = 0 || field e 75 1 = 0 || field e 64 11 ≠ dev || field e 16 36 ≠ old || bs.length ≠ 65536 then answer m 1 0
    else
      match m.takePage vf with
      | none => answer m 1 0
      | some (p, m) =>
        let m : Mach := { m.dropPage p with mem := Memory.writeL m.mem (p * 65536) bs, lastMove := tset m.lastMove p clk.time }
        let m := m.putEntry a (withMig (e - field e 16 36 * 65536 + p * 65536 - field e 64 12 * 2 ^ 64) (mig + 1))
        answer ((m.forgetVpage vf v).retarget vf (some dev) old none p) 0 p
/-- A move to a device ends: the page stays where it was, or its entries name the new place and every other peer of the domain learns of it. -/
def Mach.endMove (m : Mach) (x : FarMove) (ok : Bool) (page : Nat) : Mach :=
  let m : Mach := { m with moving := m.moving.filter (· ≠ x) }
  let mine := x.entries.filter (fun a => let e := m.physNat a 16; field e 0 1 == 0 && field e 16 36 == x.old)
  if !ok then mine.foldl (fun (m : Mach) a => m.putEntry a (m.physNat a 16 + 1)) m
  else
    let v := mine.head?.bind (m.vpageOf x.vf)
    let m := mine.foldl (fun (m : Mach) a => let e := m.physNat a 16; m.putEntry a (farEntry (e + 1) x.dev page (field e 10 3 + 1))) m
    let m : Mach := { m with lastMove := terase m.lastMove x.old }
    let m := ((m.retarget x.vf none x.old (some x.dev) page).releasePages x.vf [x.old])
    match v with
    | none => m
    | some v => (m.reachable.filter (· ≠ x.dev)).foldl (fun m d =>
        m.send d (leBytes 1 15 ++ leBytes 2 m.devnum ++ leBytes 2 x.vf ++ leBytes 8 v ++ leBytes 8 x.old ++ leBytes 2 x.dev ++ leBytes 8 page)) m
/-- Message 14: the device a page was sent to answers. -/
def Mach.movedAnswer (m : Mach) (dev vf old st page : Nat) : Mach :=
  match m.moving.find? (fun x => x.vf == vf && x.old == old && x.dev == dev) with
  | some x => m.endMove x (st == 0) page
  | none => m
/-- Message 15: a page that this device's function maps with RM = 1 has moved from one peer to another. -/
def Mach.movedElsewhere (m : Mach) (dev vf v old to_ page : Nat) : Mach :=
  match entryAt m vf (v * 65536) with
  | none => m
  | some a =>
    let e := m.physNat a 16
    if field e 0 1 = 0 || field e 75 1 = 0 || field e 64 11 ≠ dev || field e 16 36 ≠ old then m
    else ((m.putEntry a (farEntry e to_ page (field e 10 3 + 1))).forgetVpage vf v).retarget vf (some dev) old (some to_) page
/-- Moves to devices that cannot be reached end where they began. -/
def Mach.endFarMoves (m : Mach) : Mach :=
  (m.moving.filter (fun x => m.unreachable x.dev)).foldl (fun (m : Mach) x => m.endMove x false 0) m

/-! ## The end of an invalidation -/

/-- INVALIDATION_COMPLETE: every die, and every device named that can be reached, has acknowledged a function's earliest request: its number goes to the completion word, and what
waited for it is done. -/
def execInvalidationComplete (s : State) : Host.Outcome State Fault Refusal :=
  s.event (fun clk m => do
    let r ← (m.hub.take hubRoom).find? (fun r => (upFrom 0 8).all r.acks.contains && r.devs.all m.unreachable && !m.hub.any (fun x => x.vf == r.vf && decide (x.seq < r.seq)))
    let m : Mach := { m with hub := m.hub.filter (fun x => !(x.vf == r.vf && x.seq == r.seq)) }
    let m := match r.word with
      | some va => (match m.fwAccess r.vf va 8 [.write] with | .ok ps => m.bulkWrite ioDie ps (leBytes 8 r.seq) | _ => m)
      | none => m
    let m := match r.move with
      | some (old, new) => if 2 ^ 40 ≤ new then m.sendPage r.vf old (new - 2 ^ 40) else m.movePage clk r.vf old new
      | none => m
    let m := if r.release.isEmpty then m else m.releasePages r.vf r.release
    some (match r.cmd with | some (c, op) => m.finish c op 0 0 | none => m))
/-- INVALIDATE. -/
def execInvalidate (c : Cmd) (base count word : Nat) (s : State) : Host.Outcome State Fault Refusal :=
  s.vfCmd c 0x0B (fun _ m =>
    if base % 65536 ≠ 0 ∨ 4096 < count then m.finish c 0x0B 1 0
    else m.submitInv { vf := c.ring, base, count, seq := 0, word := some word, cmd := some (c, 0x0B) })

/-! ## Migration (R236, R237, R418) -/

/-- The die whose stacks hold a page. -/
def pageDie (page : Nat) : Nat := homeDie (page * 65536)
/-- A free page of a function on a die. -/
def Mach.pageOn (m : Mach) (vf d : Nat) : Option (Nat × Mach) :=
  let go (m : Mach) : Option (Nat × Mach) :=
    ((m.fn vf).freePages.find? (fun p => pageDie p == d)).map (fun p =>
      (p, m.modFn vf (fun f => { f with freePages := f.freePages.filter (· ≠ p) })))
  match go m with
  | some r => some r
  | none =>
    let lo := max firstShared (d * 4096)
    match m.freeFrame? lo ((d + 1) * 4096 - lo) with
    | none => none
    | some _ => (m.takeFrame vf lo ((d + 1) * 4096 - lo)).bind go
/-- The agent a page is due to move to: it makes at least 8,192 accesses in the window and more than the home die. -/
def Mach.dueFor (m : Mach) (page : Nat) : Option Nat :=
  let mine := m.access.filter (fun a => a.1 / 4096 == page)
  let count (agent : Nat) : Nat := (tget mine (accessKey page agent)).getD 0
  let above := mine.filter (fun a => 8192 ≤ a.2 && decide (count (pageDie page) < a.2) && a.1 % 4096 ≠ pageDie page && a.1 % 4096 ≠ 8)
  (leastBy (fun a => (2 ^ 64 - a.2) * 4096 + a.1 % 4096) above).map (·.1 % 4096)
/-- One page that is due. -/
def Mach.migrate (m : Mach) (vf page agent : Nat) : Mach :=
  let at_ := m.entriesOf vf page
  let es := at_.map (fun a => m.physNat a 16)
  if es.isEmpty || es.any (fun e => field e 9 1 == 1) || m.hub.any (fun r => match r.move with | some (o, _) => o == page | none => false) then m
  else if es.any (fun e => field e 10 3 == 4) then
    (at_.foldl (fun (m : Mach) a => m.putEntry a (m.physNat a 16 + 512)) m).submitInv
      { vf, base := 0, count := 0, seq := 0, word := none, cmd := none, move := some (page, page) }
  else if 16 ≤ agent then m.submitInv { vf, base := 0, count := 0, seq := 0, word := none, cmd := none, move := some (page, 2 ^ 40 + (agent - 16)) }
  else
    match m.pageOn vf agent with
    | none => m
    | some (new, m) => m.submitInv { vf, base := 0, count := 0, seq := 0, word := none, cmd := none, move := some (page, new) }
/-- MIGRATION_WINDOW: a window of 1,000,000 ns ends. -/
def execMigrationWindow (s : State) : Host.Outcome State Fault Refusal :=
  s.event (fun clk m =>
    if clk.time / 1000000 ≤ (tget m.due 1).getD 0 then none
    else
      let pages := ((m.access.map (fun a => a.1 / 4096)).eraseDups)
      let m' := pages.foldl (fun (m : Mach) p =>
        match tget m.frameOf (p / 512), m.dueFor p with
        | some vf, some agent => m.migrate vf p agent
        | _, _ => m) m
      some { m' with access := [], due := tset m'.due 1 (clk.time / 1000000) })
/-- MIG_SETTLE: a page that has not moved for 10,000,000 ns; one that is pinned keeps its counter. -/
def execMigSettle (vf page : Nat) (s : State) : Host.Outcome State Fault Refusal :=
  s.event (fun clk m => do
    let t ← tget m.lastMove page
    if clk.time < t + 10000000 then none
    else
      let m' := (m.entriesOf vf page).foldl (fun (m : Mach) a =>
        let e := m.physNat a 16
        if field e 9 1 = 1 then m else m.putEntry a (withMig e 0)) m
      some { m' with lastMove := terase m'.lastMove page })

/-! ## Package power (R419, R420) -/

/-- A run field of the capability block: the store goes to the mirror (R414). -/
def Mach.runField (m : Mach) (off n v : Nat) : Mach := m.l2Write (mirrorBase + off) (leBytes n v)
/-- More or fewer tokens on every die: a token that is to go is taken out as its holder gives it up, one that nobody holds at once
(log 46); a new one enters at cluster 0. -/
def TokenRing.more (r : TokenRing) (n : Nat) : TokenRing :=
  { r with retire := r.retire - n, ring := r.ring ++ List.replicate (n - r.retire) 0 }
def TokenRing.fewer (r : TokenRing) (n : Nat) : TokenRing := 
  { r with ring := r.ring.take (r.ring.length - n), retire := r.retire + (n - r.ring.length) }
def Mach.eachRing (m : Mach) (f : TokenRing → TokenRing) : Mach := (upFrom 0 8).foldl (fun (m : Mach) d => m.setRing d (f (m.ring d))) m
/-- Tokens per die for a limit. -/
def tokensFor (watts : Nat) : Nat := (watts - 1700) * 10 / 900
/-- SET_LIMIT. -/
def execSetLimit (c : Cmd) (watts : Nat) (s : State) : Host.Outcome State Fault Refusal :=
  s.devCmd c 0x15 (fun _ m =>
    if watts < 1800 ∨ 2600 < watts ∨ watts % 25 ≠ 0 then m.finish c 0x15 5 1
    else
      let n := tokensFor watts
      let m' := if m.tokens ≤ n then m.eachRing (·.more (n - m.tokens)) else m.eachRing (·.fewer (m.tokens - n))
      ((({ m' with limit := watts, tokens := n } : Mach).runField 16 1 n).runField 18 2 watts).finish c 0x15 0 0)
/-- SET_IDLE. -/
def execSetIdle (c : Cmd) (cycles : Nat) (s : State) : Host.Outcome State Fault Refusal :=
  s.devCmd c 0x15 (fun _ m =>
    if cycles < 256 ∨ 65536 < cycles then m.finish c 0x15 5 1
    else (({ m with idle := cycles } : Mach).runField 14 2 (cycles % 65536)).finish c 0x15 0 0)
/-- The last stage of throttling: tokens withheld down to one a die, then passes, requests and flits slowed (log 22). -/
def Mach.lastStage (m : Mach) : Nat := m.tokens - 1 + 3
/-- POWER_SAMPLE: every 10 µs; the average over 1 ms decides. -/
def execPowerSample (watts : Nat) (s : State) : Host.Outcome State Fault Refusal :=
  s.event (fun clk m =>
    if clk.time / 10000 ≤ (tget m.due 2).getD 0 then none
    else
      let xs := (m.powerSum ++ [watts]).drop (m.powerSum.length + 1 - 100)
      let sum := xs.foldl (· + ·) 0
      let m : Mach := { m with powerSum := xs, due := tset m.due 2 (clk.time / 10000) }
      some (
        if m.limit * xs.length < sum ∧ m.powerStage < m.lastStage then
          let m' := if m.powerStage < m.tokens - 1 then m.eachRing (·.fewer 1) else m
          { m' with powerStage := m.powerStage + 1 }
        else if sum < (m.limit - 50) * xs.length ∧ 0 < m.powerStage then
          let m' := if m.powerStage ≤ m.tokens - 1 then m.eachRing (·.more 1) else m
          { m' with powerStage := m.powerStage - 1 }
        else m))

end Sys2Proof.Machine
end

