-- ==== Sys2Proof/Machine/HostRing.lean ====
section
/-! DEFINITION. The host's registers and a virtual function's commands (R444 to R446, R176, R267 to R269, R345, R354, R451). Where the spec
lists a command's operands without their bytes, the places are the model's (log 42). -/
namespace Sys2Proof.Machine

/-! ## Registers (R444) -/

/-- What the host reads at an offset. -/
def Mach.readReg (m : Mach) (vf off : Nat) : Nat :=
  let f := m.fn vf
  if off = 0 then vf
  else if off = 8 then f.state
  else if [rCqbase, rCqsize, rCqhead, rCpbase, rCpsize, rCphead, rCptail, rIrqmask].contains off then f.reg off
  else if off = 0x50 then f.elog.toNat
  else if off = 0x58 then (if f.log.isEmpty then 0 else (f.seq + 4294967295) % 4294967296)
  else if off = 0x60 then f.g % 65536 + f.b % 65536 * 65536 + f.heldCount % 65536 * 4294967296
  else if 0x20000 ≤ off ∧ off < 0x40000 then leNat (Memory.readN m.mem (mirrorBase + (off - 0x20000)) 8)
  else 0
/-- Entries of the command ring from one index up to another, as the device reads them. -/
def Mach.readRing (m : Mach) (base len : Nat) : Nat → Nat → Nat → List (List Byte)
  | 0, _, _ => []
  | fuel + 1, i, tail => if i = tail then [] else HostMem.readN m.host (base + 64 * i) 64 :: m.readRing base len fuel ((i + 1) % len) tail
/-- CQTAIL_DOORBELL: the device reads the new commands, in ring order. -/
def execCqtailDoorbell (fn value : Nat) (s : State) : Host.Outcome State Fault Refusal :=
  s.always (fun _ m =>
    let f := m.fn fn
    let n := ringLen (f.reg rCqsize)
    if n = 0 then m
    else
      let cmds := m.readRing (f.reg rCqbase) n n (f.reg rCqhead % n) (value % n)
      (m.setReg fn rCqhead (value % n)).modFn fn (fun f => { f with cmds := f.cmds ++ cmds }))
/-- CPHEAD_WRITE: completion entries are free, and completions that wait are written. -/
def execCpheadWrite (fn value : Nat) (s : State) : Host.Outcome State Fault Refusal :=
  s.always (fun _ m =>
    let m := m.setReg fn rCphead value
    m.writeCompls fn ((m.fn fn).compl.length))
/-- REGISTER_WRITE: any other offset; those that cannot be written ignore it. -/
def execRegisterWrite (fn offset value : Nat) (s : State) : Host.Outcome State Fault Refusal :=
  s.always (fun _ m =>
    if offset = rCqbase ∨ offset = rCpbase then m.setReg fn offset value
    else if offset = rCqsize ∨ offset = rCpsize then m.setReg fn offset (value % 16)
    else if offset = rIrqmask then m.setReg fn offset (value % 8)
    else m)

/-! ## Graph runs and record loads -/

/-- GRAPH_RUN: the walker starts, or the run waits for it behind the earlier ones (R176). -/
def execGraphRun (c : Cmd) (graph count start : Nat) (s : State) : Host.Outcome State Fault Refusal :=
  s.vfCmd c 0x01 (fun _ m =>
    if graph % 64 ≠ 0 ∨ count = 0 ∨ 65536 < count then m.finish c 0x01 1 0
    else
      m.modFn c.ring (fun f =>
        if f.walker.isNone && f.runs.isEmpty then
          { f with walker := some { graph := BitVec.ofNat 80 graph, count, node := start, cmd := c, tracks := f.tracks } }
        else { f with runs := f.runs ++ [(c, graph, count, start)] }))
/-- The next run starts when the walker is free. -/
def Fn.startRun (f : Fn) : Fn :=
  match f.walker, f.runs with
  | none, (c, graph, count, start) :: rest =>
    { f with walker := some { graph := BitVec.ofNat 80 graph, count, node := start, cmd := c, tracks := f.tracks }, runs := rest }
  | _, _ => f
/-- FORMAT_RECORD_LOAD. -/
def execFormatRecordLoad (c : Cmd) (slot addr : Nat) (s : State) : Host.Outcome State Fault Refusal :=
  s.vfCmd c 0x02 (fun _ m =>
    if slot < 3 ∨ 15 < slot ∨ addr % 64 ≠ 0 then m.finish c 0x02 1 0
    else
      let (id, m) := m.newId
      m.modFn c.ring (fun f => { f with loads := f.loads ++ [{ id, slot, addr := addr % 2 ^ 80, cmd := some c }] }))

/-! ## Channels (R267 to R269) -/

/-- A config word as a channel. -/
def chanOf (config spool : Nat) : Chan :=
  let c : Chan :=
    { t := field config 61 1 == 1, x := field config 60 1 == 1, peer := field config 49 11, esize := field config 32 16 + 1,
      bob := field config 28 4, smax := field config 23 5, scur := field config 18 5, home := field config 15 3,
      spool := BitVec.ofNat 80 spool }
  { c with credits := c.bcap + c.scap }
/-- Bobbin bytes of a die in use. -/
def Mach.bobbinsOn (m : Mach) (die : Nat) : Nat :=
  (m.fns.flatMap (fun e => e.2.chans.map (fun c => if c.2.home = die then c.2.bobbinBytes else 0))).foldl (· + ·) 0
/-- The sizes a create command must obey (R268, R269). -/
def Chan.sizesOk (c : Chan) : Bool :=
  (if c.t then c.esize % 128 == 0 && 128 ≤ c.esize && 1 ≤ c.bcap
   else c.esize % 4 == 0 && 4 ≤ c.esize && c.esize ≤ 256 && 32 ≤ c.bcap) &&
  c.bob ≤ 6 && c.smax ≤ 19 && c.scur ≤ c.smax && (c.scur == 0 || 1 ≤ c.scap) && c.spool.toNat % 65536 == 0
/-- CHANNEL_CREATE. -/
def execChannelCreate (c : Cmd) (number config spool : Nat) (s : State) : Host.Outcome State Fault Refusal :=
  s.vfCmd c 0x03 (fun _ m =>
    let ch := chanOf config spool
    if 4095 < number then m.finish c 0x03 1 0
    else if (m.chan? c.ring number).isSome || !ch.sizesOk || 8388608 < m.bobbinsOn ch.home + ch.bobbinBytes then m.finish c 0x03 5 0
    else
      match m.mapSpool c.ring ch.spool.toNat (spoolPages ch.scur) with
      | none => m.finish c 0x03 4 0
      | some m => (m.setChan c.ring number ch).finish c 0x03 0 0)
/-- CHANNEL_REOPEN: a closed or broken channel with no binding opens again; elements and counters stay. -/
def execChannelReopen (c : Cmd) (number : Nat) (s : State) : Host.Outcome State Fault Refusal :=
  s.vfCmd c 0x04 (fun _ m =>
    match m.chan? c.ring number with
    | some ch =>
      if ch.ended && ch.wbind.isNone && ch.rbind.isNone then (m.setChan c.ring number { ch with state := 1 }).finish c 0x04 0 0
      else m.finish c 0x04 5 0
    | none => m.finish c 0x04 5 0)
/-- CHANNEL_DESTROY: with both endpoints unbound the entry is free and the spool's frames are released. -/
def execChannelDestroy (c : Cmd) (number : Nat) (s : State) : Host.Outcome State Fault Refusal :=
  s.vfCmd c 0x05 (fun _ m =>
    match m.chan? c.ring number with
    | some ch =>
      if ch.wbind.isNone && ch.rbind.isNone then
        ((m.unmapSpool c.ring ch.spool.toNat (spoolPages ch.scur)).modFn c.ring (fun f => { f with chans := terase f.chans number })).finish c 0x05 0 0
      else m.finish c 0x05 5 0
    | none => m.finish c 0x05 5 0)

/-! ## Keys (R345) -/

/-- KEY_ENROL. -/
def execKeyEnrol (c : Cmd) (index key : Nat) (s : State) : Host.Outcome State Fault Refusal :=
  s.vfCmd c 0x06 (fun _ m =>
    if 7 < index then m.finish c 0x06 1 0 else (m.modFn c.ring (fun f => { f with keys := tset f.keys index key })).finish c 0x06 0 0)
/-- KEY_REMOVE. -/
def execKeyRemove (c : Cmd) (index : Nat) (s : State) : Host.Outcome State Fault Refusal :=
  s.vfCmd c 0x07 (fun _ m =>
    if 7 < index then m.finish c 0x07 1 0 else (m.modFn c.ring (fun f => { f with keys := terase f.keys index })).finish c 0x07 0 0)

/-! ## Reports (R354, R451) -/

/-- A report goes to the function's virtual space, with release at system scope; a range that cannot be written refuses the command. -/
def Mach.report (m : Mach) (c : Cmd) (op addr : Nat) (bs : List Byte) (value : Nat) : Mach :=
  if 128 ≤ c.ring then ({ m with host := HostMem.writeL m.host addr bs } : Mach).finish c op 0 value
  else
    match m.fwAccess c.ring addr bs.length [.write] with
    | .ok ps => (m.bulkWrite ioDie ps bs).finish c op 0 value
    | _ => m.finish c op 5 0
/-- The identity key's signature over bytes, r then s, big-endian. -/
def signed (bs : List Byte) : List Byte := bs ++ beBytes 64 (Config.identitySign (leNat (sha256 bs)))
/-- A digest as its 32 bytes. -/
def digestBytes (n : Nat) : List Byte := leBytes 32 n
/-- The 80 bytes of a slot in the report. -/
def slotReport (f : Option Fmt) (gen : Nat) : List Byte :=
  match f with
  | none => List.replicate 80 0
  | some f => digestBytes f.digest ++ leBytes 32 f.keyid ++ leBytes 2 gen ++ leBytes 1 f.kind ++ leBytes 1 f.flags ++ List.replicate 12 0
/-- SLOT_ATTESTATION. -/
def execSlotAttestation (c : Cmd) (nonce addr : Nat) (s : State) : Host.Outcome State Fault Refusal :=
  s.vfCmd c 0x08 (fun clk m =>
    let f := m.fn c.ring
    let slots := (upFrom 0 16).map (fun n => if n < 3 then slotReport (some (romFmt n)) 0 else slotReport (f.slotEntry n).fmt (f.slotEntry n).gen)
    m.report c 0x08 addr
      (signed ([0x41, 0x53, 1] ++ leBytes 1 c.ring ++ leBytes 4 0 ++ leBytes 8 clk.time ++ List.replicate 16 0 ++ leBytes 32 nonce ++ slots.flatten)) 0)
/-- Cores fenced on the device. -/
def Mach.fencedCount (m : Mach) : Nat := (m.cores.filter (fun e => e.2.fenced)).length
/-- DEVICE_ATTESTATION, for a virtual function or for the physical one. -/
def execDeviceAttestation (c : Cmd) (nonce addr : Nat) (s : State) : Host.Outcome State Fault Refusal :=
  s.always (fun clk m =>
    match m.vfRefused c with
    | some st => m.finish c 0x09 st 0
    | none =>
      let flags := bit m.lastTestOk + 2 * bit (m.fn c.ring).scrubbed
      m.report c 0x09 addr
        (signed ([0x41, 0x44, 1] ++ leBytes 1 (if 128 ≤ c.ring then 255 else c.ring) ++ leBytes 2 m.devnum ++ leBytes 2 m.fencedCount ++
          leBytes 8 clk.time ++ leBytes 8 Config.serialNumber ++ leBytes 4 Config.fwSecver ++ leBytes 4 flags ++ leBytes 32 nonce ++
          digestBytes Config.fwDigest ++ digestBytes Config.bootDigest ++ sha256 (keyBytes Config.identityKey) ++ List.replicate 32 0)) 0)
/-- READ_COUNTERS: emptyns and fullns of every open channel in 24-byte rows, then the stall counters of every pinned workgroup in
32-byte rows: slots, of these channel empty, channel full. -/
def execReadCounters (c : Cmd) (addr : Nat) (s : State) : Host.Outcome State Fault Refusal :=
  s.vfCmd c 0x0A (fun _ m =>
    let chans := ((m.fn c.ring).chans.filter (fun e => e.2.state == 1)).map (fun e => leBytes 8 e.1 ++ leBytes 8 e.2.emptyns ++ leBytes 8 e.2.fullns)
    let pinned := (((m.wgs.filter (fun e => e.2.vf == c.ring)).map (·.2) ++ (m.fn c.ring).images.map (·.wg)).filter (fun w => w.hdr.pinned)).map
      (fun w => leBytes 8 w.base ++ leBytes 8 w.stallSlots ++ leBytes 8 w.stallEmpty ++ leBytes 8 w.stallFull)
    m.report c 0x0A addr (chans ++ pinned).flatten (chans.length + 4294967296 * pinned.length))

end Sys2Proof.Machine
end

