-- ==== Sys2Proof/Machine/Rinesh.lean ====
section
/-! DEFINITION. Rinesh modules (R458, R459): tile types, the 32-byte operation records, the shapes they require and the value each
operation has. The spec does not print where a module keeps its types, its records and its values, nor which bits of `flags` choose an
elementwise or reducing operation: log 11. -/
namespace Sys2Proof.Machine

/-! ## Tile types and operation records (R458) -/

inductive TileElem where
  | code (t : Nat)
  | digest (d : Nat)
  deriving DecidableEq, Repr
inductive Dim where
  | const (n : Nat)
  | sym (i : Nat)
  deriving DecidableEq, Repr
structure TileType where
  elem : TileElem
  dims : List Dim
  deriving DecidableEq, Repr
/-- The type as the module's extraction gives it: each alternative by its first component. -/
def TileType.ofRaw (r : (Bool × Nat) × List (Bool × Nat)) : TileType :=
  { elem := if r.1.1 then .digest r.1.2 else .code r.1.2, dims := r.2.map (fun d => if d.1 then .sym d.2 else .const d.2) }
def Dim.wf : Dim → Bool | .const n => 1 ≤ n && n < 2 ^ 31 | .sym i => i < 64
def TileType.wf (t : TileType) : Bool :=
  (match t.elem with | .code c => (Ty.ofCode c).isSome | .digest d => d < 2 ^ 256) && 1 ≤ t.dims.length && t.dims.length ≤ 3 && t.dims.all (·.wf)
/-- An operation record. -/
structure TileOp where
  op : Nat
  nargs : Nat
  flags : Nat
  result : Nat
  args : List Nat
  deriving DecidableEq, Repr
/-- The record in 32 bytes. -/
def TileOp.ofBytes (b : List Byte) : TileOp :=
  { op := numAt b 0 2, nargs := numAt b 2 1, flags := numAt b 3 1, result := numAt b 4 4,
    args := ((upFrom 0 6).map (fun i => numAt b (8 + 4 * i) 4)).take (numAt b 2 1) }
/-- Arguments each operation reads at least; base, stride and channel operands of 1, 2, 7 and 8 are counted by the module. -/
def TileOp.least (o : TileOp) : Nat := match o.op with | 1 => 0 | 2 => 1 | 3 => 3 | 8 => 0 | _ => 1
/-- The record is well formed over `types` types and `values` values. -/
def TileOp.wf (o : TileOp) (types values : Nat) : Bool :=
  1 ≤ o.op && o.op ≤ 9 && o.nargs ≤ 6 && o.least ≤ o.nargs && o.result < types && o.args.all (· < values) && (o.op ≠ 6 || o.flags < 6)

/-! ## Binding and shapes (R459, R460) -/

/-- A dimension under the binding block's 64 values, of which 0 is unbound. -/
def Dim.bind (syms : List Nat) : Dim → Option Nat
  | .const n => some n
  | .sym i => let v := syms.getD i 0; if v = 0 then none else some v
def TileType.bind (syms : List Nat) (t : TileType) : Option (List Nat) := t.dims.mapM (·.bind syms)
/-- Bits of an element: the type's, or the code width of the slot's format. -/
def TileElem.bits (fmts : List (Nat × Nat)) : TileElem → Nat
  | .code c => match Ty.ofCode c with | some t => t.bits | none => 0
  | .digest d => ((fmts.find? (fun f => f.1 == d)).map (·.2)).getD 0
/-- An element size a channel can have (R269). -/
def chanElement (bytes : Nat) : Bool :=
  (bytes % 4 == 0 && 4 ≤ bytes && bytes ≤ 256) || (bytes % 128 == 0 && 128 ≤ bytes && bytes ≤ 65536)
/-- The shapes the table of R459 requires: the operation, each argument's shape, the result's, the result's element, its bits and those
of the first argument. -/
def shapesOk (op : Nat) (args : List (List Nat)) (res : List Nat) (resElem : TileElem) (resBits argBits : Nat) : Bool :=
  match op, args with
  | 1, _ => res.length == 2
  | 2, a :: _ => a.length == 2
  | 3, [m, k] :: [k', n] :: c :: _ => k == k' && c == [m, n] && res == c && resElem == .code 10
  | 4, as => as.any (· == res) && as.all (fun a => a == res || a == [1, res.getLastD 0]) && (as.filter (· != res)).length ≤ 1
  | 5, a :: _ => a.length == 2 && res == [a.headD 0, 1]
  | 6, a :: _ => a == res
  | 7, a :: _ => chanElement (a.foldl (· * ·) argBits / 8)
  | 8, _ => chanElement (res.foldl (· * ·) resBits / 8)
  | 9, a :: _ => a == res
  | _, _ => false
/-- A module as the translator reads it: its types, the kernel's records, and the type of each value. -/
structure Module where
  types : List TileType
  ops : List TileOp
  values : List Nat
  deriving DecidableEq, Repr
def Module.ofBytes (bytes : List Byte) (kernel : Nat) : Module :=
  { types := (Config.moduleTypes bytes).map TileType.ofRaw, ops := (Config.moduleRecords bytes kernel).map TileOp.ofBytes,
    values := Config.moduleValues bytes kernel }
def Module.type (m : Module) (i : Nat) : TileType := m.types.getD i ⟨.code 10, []⟩
/-- Types the kernel uses: its values' and its results'. -/
def Module.used (m : Module) : List TileType := (m.values ++ m.ops.map (·.result)).map m.type
def Module.wf (m : Module) : Bool :=
  m.types.all (·.wf) && m.values.all (· < m.types.length) && m.ops.all (fun o => o.wf m.types.length m.values.length)
def Module.shapeOk (m : Module) (syms : List Nat) (fmts : List (Nat × Nat)) (o : TileOp) : Bool :=
  let shape (t : TileType) := (t.bind syms).getD []
  let args := o.args.map (fun v => m.type (m.values.getD v 0))
  let res := m.type o.result
  shapesOk o.op (args.map shape) (shape res) res.elem (res.elem.bits fmts)
    (match args with | a :: _ => a.elem.bits fmts | [] => 0)
/-- The first three of the translator's checks, and the last (R461): the refusal code, 0 when all pass. `fmts` are the digests the
function's slots hold, with their code widths. -/
def Module.refusal (m : Module) (syms : List Nat) (fmts : List (Nat × Nat)) : Nat :=
  if !m.wf then 1
  else if m.used.any (fun t => (t.bind syms).isNone) then 2
  else if m.used.any (fun t => match t.elem with | .digest d => !fmts.any (·.1 == d) | .code _ => false) then 6
  else if m.ops.any (fun o => !m.shapeOk syms fmts o) then 3
  else 0

/-! ## Values (R459) -/

/-- A tile's value: bit patterns of a type, or packed chunks of 64 elements of a format, each a bit string with its scale bytes. -/
inductive TileVal where
  | plain (t : Ty) (rows : List (List Nat))
  | packed (f : Fmt) (cols : Nat) (rows : List (List (Nat × List Nat)))
  deriving DecidableEq, Repr
/-- The values of each row. -/
def TileVal.vals : TileVal → List (List FVal)
  | .plain t rows => rows.map (fun r => r.map (fun x =>
      if t.isFloat then t.float.read x else ofInt (t.value x)))
  | .packed f cols rows => rows.map (fun r =>
      ((r.map (fun c => (upFrom 0 64).map (fun k => f.readElem c.1 k (c.2.getD (k / 32) 0)))).flatten).take cols)
/-- Operations 1 and 2: the addresses of the tile's rows, each `stride` bytes after the one before. -/
def tileRowAddrs (base stride rows : Nat) : List Nat := (upFrom 0 rows).map (fun i => base + i * stride)
/-- A row padded with +0 elements to a multiple of 64. -/
def padK (xs : List FVal) : List FVal := xs ++ List.replicate ((64 - xs.length % 64) % 64) (FVal.zero false)
/-- One element of a matmul: the 64-element passes in ascending order (R79, R80). -/
def dotAll : Nat → Nat → List FVal → List FVal → Nat × BitVec 5
  | 0, c, _, _ => (c, 0)
  | n + 1, c, a, b =>
    let (c', fl) := dotStep c (a.take 64) (b.take 64)
    let (r, gl) := dotAll n c' (a.drop 64) (b.drop 64)
    (r, fl ||| gl)
/-- Operation 3: A of m rows, B of k rows, and the f32 patterns of C. -/
def tileMatmul (a b : List (List FVal)) (c : List (List Nat)) : List (List Nat) :=
  (a.zip c).map (fun p => p.2.mapIdx (fun j x =>
    let row := padK p.1
    let col := padK (b.map (fun r => r.getD j (FVal.zero false)))
    (dotAll (row.length / 64) x row col).1))
/-- Operation 4 on one element: the epilogue word whose op is `op` (R339). -/
def tileElement (op : Nat) (xs : List Nat) : Nat :=
  let a := xs.getD 0 0
  let b := xs.getD 1 0
  let c := xs.getD 2 0
  (match op with
    | 0x02 | 0x0F => f32Out (addF (f32In a) (f32In b) .rne)
    | 0x03 => f32Out (subF (f32In a) (f32In b) .rne)
    | 0x04 => f32Out (mulF (f32In a) (f32In b))
    | 0x05 => f32Out (fmaF (f32In a) (f32In b) (f32In c) .rne)
    | 0x06 => minMaxF .f32 false false a b
    | 0x07 => minMaxF .f32 true false a b
    | 0x08 => f32Move (a % 2 ^ 31) [a]
    | 0x09 => approxF .exp2 .f32 a
    | 0x0A => f32Faithful 6 a (rcpF (f32In a))
    | 0x0B => approxF .rsq .f32 a
    | 0x0C => f32Faithful 7 a (tanhF (f32In a))
    | 0x0D => f32Move (if c % 2 ^ 31 ≠ 0 then a else b) [a, b, c]
    | _ => (Config.moduleElement op xs, 0)).1
/-- Element (i, j) of a tile of which a lone row stands for every row. -/
def broadcastAt (rows : List (List Nat)) (i j : Nat) : Nat := (rows.getD (if rows.length = 1 then 0 else i) []).getD j 0
def tileElementwise (op : Nat) (args : List (List (List Nat))) : List (List Nat) :=
  let big := args.foldl (fun a b => if a.length < b.length then b else a) []
  big.mapIdx (fun i r => r.mapIdx (fun j _ => tileElement op (args.map (fun t => broadcastAt t i j))))
/-- Operation 5: each row by the tree of R181. -/
def tileReduce (op : Nat) (t : Ty) (rows : List (List Nat)) : List (List Nat) :=
  rows.map (fun r => [(reduxTree (reduxStep op t) r.length r).1])
/-- Operation 6 into a type. The draws `us` of a stochastic rounding are given. -/
def tileConvertPlain (dt st : Ty) (rm : Rm) (us : Nat → Nat → Nat) (rows : List (List Nat)) : TileVal :=
  .plain dt (rows.mapIdx (fun i r => r.mapIdx (fun j x => (cvtBits dt st rm x (us i j)).1)))
/-- Operation 6 into a type from a format's values. -/
def tileConvertVals (dt : Ty) (rm : Rm) (us : Nat → Nat → Nat) (rows : List (List FVal)) : TileVal :=
  .plain dt (rows.mapIdx (fun i r => r.mapIdx (fun j v =>
    if dt.isFloat then (dt.float.round v rm (us i j)).1 else wrap dt.bits (toIntF dt v rm (us i j)).1)))
/-- Chunks of 64 elements, the last padded with +0. -/
def chunks64 : Nat → List FVal → List (List FVal)
  | 0, _ => []
  | n + 1, xs => if xs.isEmpty then [] else padK (xs.take 64) :: chunks64 n (xs.drop 64)
/-- Operation 6 into a format (R71 to R77). -/
def tileConvertPacked (f : Fmt) (rm : Rm) (us : Nat → Nat → Nat) (rows : List (List FVal)) : TileVal :=
  .packed f (rows.headD []).length (rows.mapIdx (fun i r =>
    (chunks64 r.length r).mapIdx (fun n xs =>
      let e := f.encodeRow (xs.map (fun v => (v, match v with | .fin x => x.neg | .inf s => s | .nan _ => false))) rm
        ((upFrom 0 64).map (fun k => us i (64 * n + k)))
      (e.str, e.scales))))
def tileConvert (into : Sum Ty Fmt) (rm : Rm) (us : Nat → Nat → Nat) (x : TileVal) : TileVal :=
  match into, x with
  | .inl dt, .plain st rows => tileConvertPlain dt st rm us rows
  | .inl dt, .packed f n rows => tileConvertVals dt rm us (TileVal.packed f n rows).vals
  | .inr f, x => tileConvertPacked f rm us x.vals
/-- Operation 9: every unit is checked in order; trap mode stops before the unit it found (R379). -/
def tileBound (b : Bound) : List Nat → Bound × List Nat
  | [] => (b, [])
  | x :: xs =>
    let (b', y, stop) := b.check x 0 false
    if stop then (b', []) else let (b'', ys) := tileBound b' xs; (b'', y :: ys)
/-- The values of operations 3 to 6: what R459 says every translated kernel computes. -/
def TileOp.value (o : TileOp) (into : Sum Ty Fmt) (us : Nat → Nat → Nat) (args : List TileVal) : Option TileVal :=
  match o.op, args with
  | 3, a :: b :: .plain .f32 c :: _ => some (.plain .f32 (tileMatmul a.vals b.vals c))
  | 4, as => (as.mapM (fun v => match v with | TileVal.plain .f32 r => some r | _ => none)).map (fun rs => TileVal.plain .f32 (tileElementwise o.flags rs))
  | 5, .plain t rows :: _ => some (.plain t (tileReduce o.flags t rows))
  | 6, x :: _ => (Rm.ofCode o.flags).map (fun rm => tileConvert into rm us x)
  | _, _ => none

end Sys2Proof.Machine
end

