-- ==== Sys2Proof/Machine/Entries.lean ====
section
/-! DEFINITION. The set-entries command (R447) and the translate command (R460 to R463). -/
namespace Sys2Proof.Machine

/-! ## Checks of set entries (R447) -/

/-- The entry's fields. -/
def eV (e : Nat) : Bool := field e 0 1 == 1
def eL (e : Nat) : Bool := field e 2 1 == 1
def eRM (e : Nat) : Bool := field e 75 1 == 1
def ePol (e : Nat) : Nat := field e 76 2
def eFrame (e : Nat) : Nat := field e 16 36
/-- An entry whose right is checked as if it were valid. -/
def eStands (e : Nat) : Bool := eV e || ePol e == 1
/-- Pages that no entry may name: tables, bastings, images, spill logs, slot-table copies (R447).
DEDUCED (log 43): the frame refused is the one the entry names, 64 KiB for a base page and 32 MiB for a large one. -/
def Fn.privatePages (f : Fn) : List Nat := f.tablePages ++ (f.launches.map (·.logPages)).flatten ++ (f.images.map (·.pages)).flatten
/-- The 512 entries of the large page that entry `i` belongs to are all in the command and identical. -/
def groupOk (es : List Nat) (basePage i : Nat) : Bool :=
  let first := i - (basePage + i) % 512
  (basePage + i) % 512 ≤ i && first + 512 ≤ es.length && ((es.drop first).take 512).all (· == es.getD i 0)
/-- The checks of one entry. -/
def Mach.entryOk (m : Mach) (vf : Nat) (alloc : Bool) (es : List Nat) (basePage i : Nat) : Bool :=
  let e := es.getD i 0
  let f := m.fn vf
  let frameOk : Bool :=
    tget m.frameOf (eFrame e / 512) == some vf && !(f.privatePages.any (fun p => if eL e then p / 512 == eFrame e / 512 else p == eFrame e))
  let named := if alloc && eV e then e - eFrame e * 65536 + firstShared * 512 * 65536 else e
  !entryMalformed named && (!eL e || groupOk es basePage i) &&
  (alloc || !(eStands e && !eRM e) || frameOk || (inMirror (eFrame e * 65536) && !entryMalformed (if eV e then e else e - ePol e * 2 ^ 76 + 1))) &&
  (!(alloc && eV e) || (!eRM e && eFrame e == 0)) &&
  (ePol e != 2 || (!eV e && !eRM e && eFrame e == 0)) &&
  (!(eStands e && eRM e) || field e 64 11 == m.devnum || f.domain.isSome)

/-! ## Writing (R234, R447) -/

/-- The change takes something away from a valid entry (R234). -/
def takesAway (old new : Nat) : Bool :=
  eV old && (!eV new || (upFrom 3 3).any (fun b => old.testBit b && !new.testBit b) || eFrame old != eFrame new || field old 6 2 != field new 6 2 ||
    eRM old != eRM new || field old 64 11 != field new 64 11 || eL old != eL new ||
    (!old.testBit 8 && new.testBit 8) || (!old.testBit 9 && new.testBit 9))
/-- An entry that stands names page `p` of this device: no table is ever built in it (R209). -/
def namesPage (e p : Nat) : Bool := eStands e && !eRM e && (if eL e then p / 512 == eFrame e / 512 else p == eFrame e)
/-- Write entries in ascending page order; the last large page allocated is carried on. What was taken away, and the old entries with their
places in the command. -/
def Mach.writeEntries (m : Mach) (vf basePage : Nat) (alloc : Bool) (lp : Nat) :
    Nat → List Nat → Option (Bool × List (Nat × Nat) × Mach)
  | _, [] => some (false, [], m)
  | i, e :: es => do
    let (at_, m) ← m.buildTo vf ((basePage + i) * 65536 % 2 ^ 80)
    let old := m.physNat at_ 16
    let (frame, lp, m) ←
      (if !(alloc && eV e) then some (eFrame e, lp, m)
       else if eL e then
        (if (basePage + i) % 512 = 0 then (m.wholeFrame vf).map (fun r => (r.1, r.1, r.2)) else some (lp, lp, m))
       else (m.takePage vf).map (fun r => (r.1, lp, r.2)))
    let new := e - eFrame e * 65536 + frame * 65536
    let m := (m.putEntry at_ new).modFn vf (fun f =>
      { f with evicted := terase f.evicted at_, freePages := f.freePages.filter (fun p => !namesPage new p) })
    let (gone, olds, m) ← m.writeEntries vf basePage alloc lp (i + 1) es
    some (takesAway old new || gone, (i, old) :: olds, m)
/-- Every page that an entry of the function maps, small or large. -/
def Mach.allMapped (m : Mach) (vf : Nat) : List Nat :=
  (m.mappedPages vf).map (·.2) ++
  ((m.fn vf).tablePages.flatMap (fun p => (upFrom 0 4096).filterMap (fun i =>
    let e := m.physNat (p * 65536 + 16 * i) 16
    if eV e && eL e && !eRM e && field e 1 1 == 0 then some (eFrame e / 512 * 512 + i % 512) else none)))
/-- Pages that return to the function's free ones: valid and local before, mapped by no entry now. -/
def Mach.unmapped (m : Mach) (vf basePage : Nat) (olds : List (Nat × Nat)) : List Nat :=
  let was := (olds.filterMap (fun o =>
    if eV o.2 && !eRM o.2 then some (if eL o.2 then eFrame o.2 / 512 * 512 + (basePage + o.1) % 512 else eFrame o.2) else none)).eraseDups
  let now := m.allMapped vf
  was.filter (fun p => tget m.frameOf (p / 512) == some vf && !now.contains p)
/-- Pages written with a migration counter above 0 settle from now on (R236). -/
def Mach.noteMoves (m : Mach) (clk : Clock) (vf basePage n : Nat) : Mach :=
  (upFrom 0 n).foldl (fun (m : Mach) i =>
    match entryAt m vf ((basePage + i) * 65536 % 2 ^ 80) with
    | some a => let e := m.physNat a 16; if eV e && field e 10 3 != 0 then { m with lastMove := tset m.lastMove (eFrame e) clk.time } else m
    | none => m) m
/-- SET_ENTRIES. -/
def execSetEntries (c : Cmd) (base count flags array : Nat) (s : State) : Host.Outcome State Fault Refusal :=
  s.vfCmd c 0x0D (fun clk m =>
    if base % 65536 ≠ 0 ∨ count = 0 ∨ 4096 < count ∨ 4 ≤ flags then m.finish c 0x0D 1 0
    else
      let es := (upFrom 0 count).map (fun i => leNat (HostMem.readN m.host (array + 16 * i) 16))
      let alloc := flags.testBit 0
      match (upFrom 0 count).find? (fun i => !m.entryOk c.ring alloc es (base / 65536) i) with
      | some i => m.finish c 0x0D 5 i
      | none =>
        match m.writeEntries c.ring (base / 65536) alloc 0 0 es with
        | none => m.finish c 0x0D 4 0
        | some (gone, olds, m) =>
          let m := m.noteMoves clk c.ring (base / 65536) count
          let release := if flags.testBit 1 then m.unmapped c.ring (base / 65536) olds else []
          if gone then m.submitInv { vf := c.ring, base, count, seq := 0, word := none, cmd := some (c, 0x0D), release }
          else (if release.isEmpty then m else m.releasePages c.ring release).finish c 0x0D 0 0)

/-! ## Translation (R460 to R463) -/

/-- A code page's level-5 entry: V, RD, X and kind RC. -/
def codeEntry (p : Nat) : Nat := p * 65536 + 1 + 8 + 32 + 64
/-- Map code bytes from `va` up; none when the frame budget refuses it or the range is not free. -/
def Mach.mapCode (m : Mach) (vf va : Nat) : Nat → List Byte → Option Mach
  | 0, _ => some m
  | n + 1, bs => do
    let (at_, m) ← m.buildTo vf (va % 2 ^ 80)
    if field (m.physNat at_ 16) 0 1 = 1 then none
    else
      let (p, m) ← m.takePage vf
      let m : Mach := { m with mem := Memory.writeL m.mem (p * 65536) (bs.take 65536) }
      (m.putEntry at_ (codeEntry p)).mapCode vf (va + 65536) n (bs.drop 65536)
/-- Bytes of the function's space as firmware reads them. -/
def Mach.fwBytesAt (m : Mach) (vf va n : Nat) : Option (List Byte) :=
  match m.fwAccess vf va n [.read] with | .ok ps => some (m.bulkRead ioDie ps).1 | _ => none
/-- Room for one more image: an entry that no function sees, least recently used first, goes when all 4,096 are taken. -/
def Mach.imageRoom (m : Mach) : Option Mach :=
  if m.images.length < 4096 then some m
  else
    (leastBy (fun (i : TrImage) => i.used) (m.images.filter (fun i => i.mask == 0))).map (fun i =>
      { m with images := m.images.filter (fun x => x.key ≠ i.key) })
/-- What the translator refuses with (R461): the module's own checks, then a workgroup that exceeds check 4; 0 when it goes on. -/
def Mach.translateRefusal (m : Mach) (vf : Nat) (bytes block : List Byte) : Nat :=
  let fmts := (upFrom 0 16).filterMap (fun n =>
    if n < 3 then some (Config.romDigest n, (romFmt n).ebits) else ((m.fn vf).slotEntry n).fmt.map (fun f => (f.digest, f.ebits)))
  match (Module.ofBytes bytes (numAt block 528 8)).refusal ((upFrom 0 64).map (fun i => numAt block (8 * i) 8)) fmts with
  | 0 => if Config.translateTooBig bytes block then 4 else 0
  | n => n
/-- TRANSLATE: the module and bindings are checked, the image is found or made, mapped at the code address, and the headers are written. -/
def execTranslate (c : Cmd) (module binding code : Nat) (s : State) : Host.Outcome State Fault Refusal :=
  s.vfCmd c 0x0C (fun clk m =>
    let vf := c.ring
    let refuse (n : Nat) : Mach := m.finish c 0x0C 5 n
    match m.fwBytesAt vf module 64, m.fwBytesAt vf binding 536 with
    | some h, some block =>
      match (if code % 65536 = 0 then m.fwBytesAt vf module (max 64 (Config.moduleLength h)) else none) with
      | none => refuse 1
      | some mod_ =>
        let slots := (upFrom 0 16).map (fun n => if n < 3 then some (Config.romDigest n) else ((m.fn vf).slotEntry n).fmt.map (·.digest))
        match m.translateRefusal vf mod_ block with
        | 0 =>
          let key := leNat (sha256 (sha256 mod_ ++ block.take 528 ++ leBytes 8 Config.translatorVersion))
          let took := Config.translateTime mod_ block
          let hit := m.images.find? (fun i => i.key == key)
          let img : TrImage := hit.getD { key, code := Config.translateCode mod_ block slots, took, mask := 0, used := 0 }
          match (if hit.isSome then some m else m.imageRoom) with
          | none => refuse 5
          | some m' =>
            match m'.mapCode vf code ((img.code.length + 65535) / 65536) img.code with
            | none => refuse 5
            | some m' =>
              let headers := Config.translateHeaders mod_ block slots code
              match m'.fwAccess vf (numAt block 512 16 % 2 ^ 80) headers.length [.write] with
              | .ok ps =>
                let m' := m'.bulkWrite ioDie ps headers
                let seen := img.mask.testBit vf
                let img := { img with mask := img.mask ||| 2 ^ vf, used := clk.time }
                let m' : Mach := { m' with images := img :: m'.images.filter (fun i => i.key ≠ key) }
                if hit.isSome && !seen then m'.modFn vf (fun f => { f with translating := f.translating ++ [(c, clk.time + img.took)] })
                else m'.finish c 0x0C 0 0
              | _ => refuse 1
        | n => refuse n
    | _, _ => refuse 1)
/-- TRANSLATE_DELAYED_COMPLETE: the stored translation time has passed. -/
def execTranslateDelayedComplete (c : Cmd) (s : State) : Host.Outcome State Fault Refusal :=
  s.event (fun clk m => do
    let e ← (m.fn c.ring).translating.find? (fun e => e.1 == c && decide (e.2 ≤ clk.time))
    some ((m.modFn c.ring (fun f => { f with translating := f.translating.filter (· ≠ e) })).finish c 0x0C 0 0))

end Sys2Proof.Machine
end

