-- ==== Sys2Proof/Machine/Exit.lean ====
section
/-! DEFINITION. What settles by itself after every step: barriers and gathers that complete (R165, R166, R184), fences of slots (R358), the
clean-up of a workgroup that ends (R394, R395, R197), killed launches (R372). -/
namespace Sys2Proof.Machine

/-! ## Barriers (R184) and gathers (R165, R166) -/

/-- Threads of a workgroup, numbered. -/
def Wg.numbered (w : Wg) : List (Nat × Thread) := w.threads.mapIdx (fun i t => (i, t))
/-- A thread of the workgroup that stands at the barrier of a mask has an operation held: it is not yet visible to the others (R184, R400). -/
def Mach.barHeld (m : Mach) (w : Wg) (mask : Nat) : Bool :=
  w.hdr.ordered &&
  (match m.launch? w.vf w.launch with
    | none => false
    | some l => l.held.any (fun o => o.g == w.g && (w.thread o.t).status == .atBar mask))
/-- The masks whose barrier is complete. -/
def Wg.fullBars (w : Wg) : List Nat :=
  let masks := (w.threads.filterMap (fun t => match t.status with | .atBar k => some k | _ => none)).eraseDups
  masks.filter (fun k => w.threads.all (fun t => t.status == .exited || !k.testBit (w.role t.warp) || t.status == .atBar k))
/-- Complete a workgroup's barriers; in rollback mode a basting follows, once its engine commands are done (R383). -/
def Mach.settleBars (m : Mach) (clk : Clock) (core slot : Nat) : Mach :=
  match m.wg? core slot with
  | none => m
  | some w =>
    match w.fullBars.filter (fun k => !m.barHeld w k) with
    | [] => m
    | bars =>
      if w.hdr.rollback && m.enginesBusy core slot then m
      else
        let m := m.setWg core slot { w with threads := w.threads.map (fun t =>
          match t.status with | .atBar k => if bars.contains k then { t with status := .ready } else t | _ => t) }
        if w.hdr.rollback then m.baste clk core slot else m
/-- Roles whose gather is complete. -/
def Wg.fullGathers (w : Wg) : List Nat :=
  (upFrom 0 3).filter (fun r =>
    let mine := w.threads.filter (fun t => t.status ≠ .exited && w.role t.warp == r)
    !mine.isEmpty && mine.all (fun t => match t.status with | .gathered .. => true | _ => false))
/-- Rebuild the warps of a role (R165). -/
def Wg.regather (w : Wg) (clk : Clock) (r : Nat) : Wg :=
  let mine := (w.numbered.filter (fun e => e.2.status ≠ .exited && w.role e.2.warp == r)).map (fun e =>
    match e.2.status with | .gathered k g => (e.1, e.2.wid, k, g) | _ => (e.1, e.2.wid, 0, 0))
  let order := sortBy (fun e => e.2.2.1) (sortBy (fun e => e.2.1) mine)
  let warps := (upFrom 0 w.warps.length).filter (fun i => w.role i == r)
  let bytes := sumOf (fun e => 32 * e.2.2.2 + 640) mine
  let place := (order.mapIdx (fun i e => (e.1, warps.getD (i / 32) 0, i % 32)))
  { w with
    threads := w.threads.mapIdx (fun i t =>
      match place.find? (fun p => p.1 == i) with
      | some p => { t with warp := p.2.1, lane := p.2.2, status := .rebuilding }
      | none => t),
    warps := w.warps.mapIdx (fun i x => if warps.contains i then { x with streak := 0, mark := 0, opReady := false } else x),
    rebuild := w.rebuild ++ [(r, clk.cycle + 40 + (bytes + 1023) / 1024)] }
def Mach.settleGathers (m : Mach) (clk : Clock) (core slot : Nat) : Mach :=
  m.modWg core slot (fun w => w.fullGathers.foldl (fun w r => w.regather clk r) w)

/-! ## The end of a workgroup (R394) -/

/-- A tile whose fill or drain is still going on: a failed one, and one whose command is gone, are not. -/
def Core.tileLive (c : Core) (x : Tile) : Bool :=
  x.busy && (match x.job with
    | some (.command id) => c.copies.any (·.id == id) || c.drains.any (·.id == id) ||
        c.mats.any (fun i => i.id == id)
    | some .failed => false
    | some _ => true
    | none => false)
/-- Engine work of a workgroup is still going on. -/
def Mach.unsettled (m : Mach) (core slot : Nat) (w : Wg) : Bool :=
  let c := m.core core
  c.copies.any (·.slot == slot) || c.mats.any (·.slot == slot) || c.drains.any (·.slot == slot) || c.epis.any (·.slot == slot) ||
  w.tiles.any c.tileLive
/-- Rows 1 and 3 for a killed workgroup: copies that have not started fail, queued matrix work goes, a running drain stops. -/
def Mach.cancelWork (m : Mach) (clk : Clock) (core slot : Nat) : Mach :=
  let m := m.cancelCopies clk core slot
  m.modCore core (fun c =>
    { c with mats := c.mats.filter (fun i => i.slot ≠ slot || i.started), drains := c.drains.filter (·.slot ≠ slot),
             copies := c.copies.map (fun x => if x.slot = slot ∧ x.kind.isStamp then { x with failed := true } else x),
             epis := c.epis.filter (·.slot ≠ slot), loads := c.loads.filter (·.slot ≠ slot), faults := c.faults.filter (·.slot ≠ slot) })
/-- Mapped tiles that are written back before the workgroup goes (row 6). -/
def Wg.dirtyMaps (w : Wg) : List Nat :=
  if w.killed then []
  else ((w.tiles.mapIdx (fun i x => (i, x))).filter (fun e => e.2.m && e.2.d && e.2.state == .ready && e.2.trap.isNone)).map (·.1)
/-- Row 9 and 10: an endpoint of the workgroup goes: a writer's channel is closed, or broken and logged; a reader is unbound. -/
def Mach.leaveChan (m : Mach) (clk : Clock) (vf : Nat) (killed : Bool) (b : QBind) : Mach :=
  let m :=
    if b.reader then m
    else if killed then
      match m.chan? vf b.chan with
      | some c =>
        let m := (m.breakChan clk vf b.chan 2 c.spooled.length 0)
        if c.x then m.send c.peer (leBytes 1 1 ++ leBytes 2 vf ++ leBytes 2 b.chan ++ leBytes 1 0) else m
      | none => m
    else m.closeChan vf b.chan
  m.modChan vf b.chan (·.unbindEnd b.reader)
/-- The boundary after a workgroup has gone (R197), the core's owner (R203). -/
def Mach.freeCore (m : Mach) (core : Nat) : Mach :=
  let rest := m.wgsOf core
  let b := (rest.map (fun e => if e.2.hdr.scratch = 0 then 0 else e.2.gran + e.2.hdr.scratch)).foldl max 0
  m.modCore core (fun c => { c with boundary := b, owner := if rest.isEmpty then none else c.owner })
/-- Every thread of the group has exited (R394, R399). -/
def Launch.exited1 (l : Launch) (w : Wg) : Launch :=
  Launch.prune { l with ended := if w.isGroup && !l.ended.contains w.g then l.ended ++ [w.g] else l.ended }
/-- The launch counts a workgroup of it out. -/
def Launch.ended1 (l : Launch) (w : Wg) : Launch :=
  { l with running := l.running - 1, records := if w.isGroup then l.records else l.records - 1 }.exited1 w
/-- Rows 7 to 13, then the granules are free. A reader that finds a channel this closes or breaks sees the workgroup's stores (R275). -/
def Mach.finishWg (m : Mach) (clk : Clock) (core slot : Nat) (w : Wg) : Mach :=
  let m := if w.killed then m else m.drainStores clk core slot
  let m := if (w.qs.filterMap id).any (fun b => !b.reader) then m.writeBackAll core else m
  let m := (w.qs.filterMap id).foldl (fun m b => m.leaveChan clk w.vf w.killed b) m
  let m := (w.zones.mapIdx (fun i z => (i, z))).foldl (fun m e => m.zClose w.vf (.live core slot e.1) e.2) m
  let m := m.modCore core (fun c =>
    { c with loads := c.loads.filter (·.slot ≠ slot), faults := c.faults.filter (·.slot ≠ slot) })
  ((m.delWg core slot).freeCore core).modLaunch w.vf w.launch (·.ended1 w)
/-- One workgroup's end, as far as it goes now. -/
def Mach.settleEnd (m : Mach) (clk : Clock) (core slot : Nat) : Mach :=
  match m.wg? core slot with
  | none => m
  | some w =>
    if !w.threads.all (fun t => t.status == .exited) then m
    else
      let m := if w.ending then m else (if w.killed then m.cancelWork clk core slot else m).modWg core slot (fun w => { w with ending := true, fused := [] })
      -- stores that wait in the buffer are still to reach the ownership table
      let m := if w.ending || !w.sbuf.isEmpty then m else m.modLaunch w.vf w.launch (·.exited1 w)
      match m.wg? core slot with
      | none => m
      | some w =>
        if m.unsettled core slot w then m
        else
          match w.dirtyMaps with
          | [] => m.finishWg clk core slot w
          | ts => m.modWg core slot (fun w => ts.foldl (fun w t =>
              w.setTile t { (w.tile t) with state := .draining, job := some (.unmap [] .plain 0 false) }) w)

/-! ## Killed launches -/

/-- Rows 1 and 2 for a saved workgroup: its commands fail, and its stamps are stored with bit 63 = 1. -/
def Mach.cancelSaved (m : Mach) (clk : Clock) (vf : Nat) (i : Image) : Mach :=
  i.cmds.foldl (fun (m : Mach) c =>
    match c.kind with
    | .stamp a v _ _ =>
      match m.fwAccess vf a.toNat 8 [.write] with
      | .ok ps => m.bulkWrite ioDie ps (leBytes 8 (v.toNat ||| 2 ^ 63))
      | _ => m.logErr clk vf 2 2 0 65535 0 a.toNat
    | _ => m.logErr clk vf 2 2 0 65535 0 0) m
/-- Images of killed launches are cleaned up like workgroups that hold no core (R394). -/
def Mach.settleImages (m : Mach) (clk : Clock) : Mach :=
  m.fns.foldl (fun m e =>
    (e.2.images.filter (fun i => m.launchKilled e.1 i.wg.launch)).foldl (fun (m : Mach) i =>
      let m := m.cancelSaved clk e.1 i
      let m := (i.wg.qs.filterMap id).foldl (fun m b => m.leaveChan clk e.1 true b) m
      let m := (i.wg.zones.mapIdx (fun k z => (k, z))).foldl (fun m z =>
        if z.2.open_ then
          m.modFn e.1 (fun f => { f with zdir := tmod f.zdir (field z.2.name 11 12) (fun d => { d with taken := false }) })
        else m) m
      ((m.modFn e.1 (fun f => { f with images := f.images.filter (·.id ≠ i.id) })).releasePages e.1 i.pages).modLaunch e.1 i.wg.launch
        (·.ended1 i.wg)) m) m
/-- Records of killed launches never run. -/
def Mach.purgeRecords (m : Mach) : Mach :=
  { m with fns := m.fns.map (fun e =>
      let dead := (e.2.launches.filter (·.killed)).map (·.id)
      if dead.isEmpty then e
      else
        (e.1, { e.2 with queues := e.2.queues.map (fun q => (q.1, q.2.filter (fun r => !dead.contains r.launch))),
                         launches := e.2.launches.map (fun l => if l.killed then { l with held := [] } else l) })) }

/-- WHAT SETTLES after every step. -/
def Mach.settle (m : Mach) (clk : Clock) : Mach :=
  let m := m.stopKilledRuns clk
  let m := m.purgeRecords
  let m := m.settleImages clk
  let m := m.wgs.foldl (fun m e =>
    (((m.settleBars clk (e.1 / 64) (e.1 % 64)).settleGathers clk (e.1 / 64) (e.1 % 64)).settleEnd clk (e.1 / 64) (e.1 % 64))) m
  m.endFences

end Sys2Proof.Machine
end

