-- ==== Sys2Proof/Machine/Faults.lean ====
section
/-! DEFINITION. The service of recoverable faults (R373 to R377, R475): the steps of firmware's service, whom an entry releases, and the
replay of a faulted instruction. -/
namespace Sys2Proof.Machine

/-! ## Firmware's steps (R475) -/

/-- The rights an entry's access needs. -/
def FaultEntry.rights (e : FaultEntry) : List Access :=
  if e.kind = 4 then (if e.access = 0 then [.engineRead] else [.engineWrite])
  else match e.access with | 0 => [.read] | 1 => [.write] | 2 => [.execute] | _ => [.read, .write]
/-- An entry with another frame. -/
def withFrame (e p : Nat) : Nat := e / 2 ^ 52 * 2 ^ 52 + p * 65536 + e % 65536
/-- An entry made valid, its fault policy cleared. -/
def withV (e : Nat) : Nat := e - field e 76 2 * 2 ^ 76 + 1
/-- The entries that stand for the page of `va`: one, or the 512 of its large page, `at_` among them (R210). -/
def entryGroup (at_ e va : Nat) : List Nat :=
  if field e 2 1 = 1 then (upFrom 0 512).map (fun i => at_ - 16 * (va / 65536 % 512) + 16 * i) else [at_]
/-- A zeroed page for the entry `e`: a whole frame for a large one. -/
def Mach.pageFor (m : Mach) (vf e : Nat) : Option (Nat × Mach) := if field e 2 1 = 1 then m.wholeFrame vf else m.takePage vf
/-- Change every entry of a group. -/
def Mach.putGroup (m : Mach) (ats : List Nat) (f : Nat → Nat) : Mach := ats.foldl (fun (m : Mach) a => m.putEntry a (f (m.physNat a 16))) m
/-- Step 2: a missing translation. None: it cannot be resolved. -/
def Mach.mapMissing (m : Mach) (vf va : Nat) : Option Mach := do
  let at_ ← entryAt m vf va
  let e := m.physNat at_ 16
  match tget (m.fn vf).evicted at_ with
  | some (host, old) =>
    let (p, m) ← m.takePage vf
    let m := { m with mem := Memory.writeL m.mem (p * 65536) (HostMem.readN m.host host 65536) }
    some ((m.putEntry at_ (withFrame old p)).modFn vf (fun f => { f with evicted := terase f.evicted at_ }))
  | none =>
    if field e 0 1 = 1 then none
    else
      match field e 76 2 with
      | 1 => some (m.putGroup (entryGroup at_ e va) withV)
      | 2 => do
        let (p, m) ← m.pageFor vf e
        some (m.putGroup (entryGroup at_ e va) (fun e => withFrame (withV e) p))
      | _ => none
/-- Step 3: a discarded page, large or not, receives a zeroed frame, the cached entries and lines of the old one go (R234, R235), and it is
free again (R233). -/
def Mach.mapDiscarded (m : Mach) (vf va : Nat) : Option Mach := do
  let at_ ← entryAt m vf va
  let e := m.physNat at_ 16
  let (p, m) ← m.pageFor vf e
  let old := field e 16 36
  let olds := if field e 2 1 = 1 then framePages (old / 512) else [old]
  let m := (m.putGroup (entryGroup at_ e va) (fun e => withFrame (e - field e 8 1 * 256) p)).forgetPage old
  let m := olds.foldl (fun m p => m.dropPage p) m
  some (if (m.fn vf).held.contains (old / 512) then m.releasePages vf olds else m)
/-- The level a record asks for, read where it stands. -/
def Mach.levelAt (m : Mach) (vf va : Nat) : Nat :=
  match m.fwAccess vf ((va + 60) % 2 ^ 80) 1 [.read] with
  | .ok ps => (leNat (m.bulkRead ioDie ps).1) % 4
  | _ => 0
/-- One entry's service: whether it is resolved, whether a page was mapped for it. -/
def Mach.serviceEntry (m : Mach) (vf : Nat) (e : FaultEntry) : Bool × Bool × Mach :=
  let done (r : Option Mach) (mapped : Bool) : Bool × Bool × Mach := match r with | some m => (true, mapped, m) | none => (false, false, m)
  if e.kind = 3 then done (m.growRing vf (m.levelAt vf e.va)) false
  else
    match ((e.rights.map (translate m vf e.va)).foldl worse (.ok 0 0)) with
    | .ok .. | .remote .. | .zeroData => (true, false, m)
    | .noTranslation => done (m.mapMissing vf e.va) true
    | .discarded => done (m.mapDiscarded vf e.va) true
    | .violation | .channelPage => (false, false, m)

/-! ## Release -/

/-- Change the record of a faulted instruction, wherever its workgroup stands. -/
def Mach.modFaultRec (m : Mach) (vf id : Nat) (f : FaultRec → FaultRec) : Mach :=
  let on (rs : List FaultRec) : List FaultRec := rs.map (fun r => if r.id = id then f r else r)
  let m : Mach := { m with cores := m.cores.map (fun (c : Nat × Core) => (c.1, { c.2 with faults := on c.2.faults })) }
  m.modFn vf (fun x => { x with images := x.images.map (fun (i : Image) => { i with faults := on i.faults }) })
/-- The lowest lane of a mask. -/
def lowLane (mask : Nat) : Nat := ((upFrom 0 32).find? (fun i => mask.testBit i)).getD 0
/-- A tile's fault is over (R206): the job goes on, or its trap is left for the next instruction that names the tile. -/
def Mach.tileServed (m : Mach) (clk : Clock) (vf : Nat) (e : FaultEntry) (ok : Bool) : Mach :=
  let start := e.rec_ / 64
  let t := e.rec_ % 64
  let fix (w : Wg) : Wg :=
    let x := w.tile t
    w.setTile t (if ok then { x with fault := false } else x.fail 4 e.va (256 * 7))
  match m.wgs.find? (fun k => k.2.vf == vf && k.2.started == start) with
  | some (k, w) =>
    if !ok && w.ending then
      -- a write-back at exit that cannot be resolved (R206, R394)
      ((m.setWg (k / 64) (k % 64) (w.setTile t { w.tile t with state := .empty, m := false, job := none, fault := false })).logErr clk vf 1 4 0
        (k / 64) (w.base % 4294967296) e.va).killLaunch vf w.launch
    else m.setWg (k / 64) (k % 64) (fix w)
  | none => m.modFn vf (fun f => { f with images := f.images.map (fun i => if i.wg.started = start then { i with wg := fix i.wg } else i) })
/-- A copy command's fault is over (R321): it goes on, or fails. -/
def Mach.copyServed (m : Mach) (clk : Clock) (vf : Nat) (e : FaultEntry) (ok : Bool) : Mach :=
  match m.cores.find? (fun c => c.2.copies.any (·.id == e.rec_)) with
  | some (core, k) =>
    match k.copies.find? (·.id == e.rec_) with
    | none => m
    | some c =>
      if ok then m.modCopy core c.id (fun c => { c with waitFault := none })
      else
        match c.kind with
        | .stamp .. => (m.noteFailed clk core c 2 e.va).dropCopy core c.id
        | _ => (m.noteFailed clk core c 2 e.va).endCopy clk core c (some (5, e.va, 255))
  | none => m.modFn vf (fun f => { f with images := f.images.map (fun i => { i with cmds := i.cmds.map (fun c =>
      if c.id = e.rec_ then { c with waitFault := none, failed := c.failed || !ok } else c) }) })
/-- A channel's spool fault is over (R273). -/
def Mach.spoolServed (m : Mach) (clk : Clock) (vf : Nat) (e : FaultEntry) (ok : Bool) : Mach :=
  if ok then m.modChan vf e.rec_ (fun c => { c with spoolWait := false })
  else
    match m.chan? vf e.rec_ with
    | none => m
    | some c =>
      let n := c.spooled.length
      let keep := if e.access = 0 then 0 else ((upFrom 0 n).find? (fun i =>
        let a := c.spoolAddr (c.spoolNum i)
        decide (a ≤ e.va) && decide (e.va < a + c.esize))).getD n
      m.breakChan clk vf e.rec_ 4 keep e.va
/-- Firmware's own waits: the walker, the loader, a launch's last writes. -/
def Mach.fwServed (m : Mach) (vf : Nat) (e : FaultEntry) (ok : Bool) : Mach :=
  let st := if ok then 0 else 2
  m.modFn vf (fun f =>
    { f with
      walker := if e.rec_ = walkerRec then f.walker.map (fun w => { w with fault := st }) else f.walker,
      loads := f.loads.map (fun q => if q.id = e.rec_ then { q with fault := st } else q),
      launches := f.launches.map (fun l => if l.id = e.rec_ then { l with fault := st } else l) })
/-- WHOM AN ENTRY RELEASES. -/
def Mach.releaseEntry (m : Mach) (clk : Clock) (vf : Nat) (e : FaultEntry) (ok : Bool) : Mach :=
  match e.kind with
  | 4 => m.spoolServed clk vf e ok
  | 5 => m.copyServed clk vf e ok
  | 6 => m.modFn vf (fun f => { f with images := f.images.map (fun i =>
      if i.fetchFault = some e.rec_ then { i with fetchFault := none, failed := !ok } else i) })
  | 7 => m.tileServed clk vf e ok
  | 8 =>
    -- sends of this device to the zone start again
    let m : Mach := { m with cores := m.cores.map (fun (k : Nat × Core) => (k.1, { k.2 with copies := k.2.copies.map (fun (c : Copy) =>
      if c.started then c
      else match c.kind with | .lzSend name .. => if field name 11 12 = e.rec_ / 64 then { c with waitFault := none } else c | _ => c) })) }
    if ok then m
    else
      match ((m.fn vf).images.mapIdx (fun i x => (i, x))).findSome? (fun i =>
          ((i.2.wg.zones.mapIdx (fun j z => (j, z))).find? (fun z => z.2.open_ && field z.2.name 11 12 == e.rec_ / 64)).map (fun z => (i.1, z))) with
      | some (i, j, z) => m.zTear clk vf (.saved i j) z (e.rec_ % 64) 5 e.va
      | none => m
  | k =>
    if e.core = 65535 then m.fwServed vf e ok
    else
      m.modFaultRec vf e.rec_ (fun r =>
        { r with pend := r.pend - 1,
                 failed := if ok then r.failed
                   else match r.failed with
                     | some (l, a, f) => if lowLane e.lanes < l then some (lowLane e.lanes, e.va, k) else some (l, a, f)
                     | none => some (lowLane e.lanes, e.va, k) })

/-- FAULT_SERVICE: the head of a function's fault queue is serviced; the page just mapped releases every pending entry on it. A
page on its way to another device waits for that device (R236). -/
def execFaultService (vf : Nat) (s : State) : Host.Outcome State Fault Refusal :=
  s.event (fun clk m => do
    let e ← (m.fn vf).faults.head?
    if e.kind ≠ 3 && (match entryAt m vf e.va with | some a => m.moving.any (fun x => x.vf == vf && x.entries.contains a) | none => false) then none
    let (ok, mapped, m) := m.serviceEntry vf e
    let m := m.modFn vf (fun f => { f with faults := f.faults.drop 1 })
    let m := m.releaseEntry clk vf e ok
    if !mapped then some m
    else
      let same (x : FaultEntry) : Bool := x.kind ≠ 3 && x.va / 65536 == e.va / 65536
      let others := (m.fn vf).faults.filter same
      let m := m.modFn vf (fun f => { f with faults := f.faults.filter (fun x => !same x) })
      some (others.foldl (fun m x => m.releaseEntry clk vf x true) m))

/-- FAULT_QUEUE_RETRY: the queue has room again, and the operations that waited for it retry (R376). -/
def execFaultQueueRetry (vf : Nat) (s : State) : Host.Outcome State Fault Refusal :=
  s.event (fun _ m =>
    let can (t : Thread) : Bool := match t.status with | .waiting (.faultQueue n) => m.faultRoom vf n | _ => false
    if m.wgs.any (fun e => e.2.vf == vf && e.2.threads.any can) then
      some { m with wgs := m.wgs.map (fun e =>
        if e.2.vf = vf then (e.1, { e.2 with threads := e.2.threads.map (fun t => if can t then { t with status := .ready } else t) }) else e) }
    else none)

/-! ## Replay (R374, R375) -/

/-- The meaning of an M word as issue or replay. -/
def memRunOf : Instr → Option (MemRun → Mach)
  | .ld t o => some (ldRun t o)
  | .st t o => some (stRun t o)
  | .ldw t o => some (ldwRun t o)
  | .stw t o => some (stwRun t o)
  | .ldk t o => some (ldkRun t o)
  | .stk t o => some (stkRun t o)
  | .lda o => some (ldaRun o)
  | .sta o => some (staRun o)
  | .atom op t o => some (atomOpRun op t o)
  | .atomcas t o => some (atomcasRun t o)
  | .atomf op t o => some (atomOpRun op t o)
  | .atomord op t o => some (atomordRun op t o)
  | .red op t o => some (redRun op t o)
  | _ => none
/-- The instruction of a word and its extension word, where they decode. -/
def decode? (w : Nat) (ext : Option Nat) : Option Instr := match decodeWord w ext with | .ok i => some i | .error _ => none
/-- The workgroup as the faulted threads saw it at the fault. -/
def Wg.asSaved (w : Wg) (r : FaultRec) : Wg :=
  { w with threads := w.threads.mapIdx (fun i t => match r.saved.find? (fun e => e.1 == i) with | some e => e.2 | none => t) }
/-- Threads of a record that have not exited. -/
def Wg.liveOf (w : Wg) (r : FaultRec) : List Nat := r.threads.filter (fun i => (w.thread i).status ≠ .exited)
/-- The faulted threads stand at the instruction again. -/
def Mach.undoFault (m : Mach) (core slot : Nat) (r : FaultRec) : Mach :=
  m.modWg core slot (fun w => { w with threads := w.threads.mapIdx (fun i t =>
    if r.threads.contains i && t.status ≠ .exited then undoThread r i t else t) })
/-- The threads that parked behind the fault, or stopped at its instruction, are ready. -/
def Mach.unpark (m : Mach) (core slot id : Nat) : Mach :=
  m.modWg core slot (fun w => { w with threads := w.threads.map (fun t =>
    if t.status == .parked id || t.status == .waiting (.fault id) then { t with status := .ready } else t) })
/-- A faulted instruction whose entries have all been serviced. -/
def Mach.replayFault (m : Mach) (clk : Clock) (core : Nat) (w : Wg) (r : FaultRec) : Mach :=
  let m := m.modCore core (fun c => { c with faults := c.faults.filter (·.id ≠ r.id) })
  let live := w.liveOf r
  match r.failed with
  | none =>
    match r.log, (decode? r.w r.ext).bind memRunOf with
    | some _, some run =>
      let c : Ctx := { m, ig := { core, slot := r.slot, threads := live, pc := r.pc, w := r.w, ext := r.ext }, wg := w.asSaved r, act := live }
      let again (code : Nat) (fs : List PageFault) (m : Mach) : Mach :=
        if m.faultRoom w.vf fs.length then
          let m := c.postFaults clk m fs code r.id ((r.log).getD 255) 0 0
          m.modCore core (fun k => { k with faults := k.faults ++ [{ r with pend := fs.length }] })
        else m.modCore core (fun k => { k with faults := k.faults ++ [r] })
      let m' := run { c, clk, replay := true, undo := fun m => m.undoFault core r.slot r, again }
      if (m'.core core).faults.any (·.id == r.id) then m' else m'.unpark core r.slot r.id
    | _, _ => m.unpark core r.slot r.id
  | some (lane, va, kind) =>
    let long := r.ext.isSome
    if kind = 3 then
      match decode? r.w r.ext with
      | some (.spawn d _) =>
        m.modWg core r.slot (fun w => w.modThreads live (fun t => { (t.setK d 1).advance 8 with status := .ready }))
      | _ => (m.logErr clk w.vf 4 17 0 core 0 va).killLaunch w.vf w.launch
    else if kind = 9 then m.takeTrap clk core r.slot live 14 0 (BitVec.ofNat 80 va) long
    else
      (if r.log.isSome then m.undoFault core r.slot r else m).takeTrap clk core r.slot live 4 (lane + 256 * kind) (BitVec.ofNat 80 va) long
/-- FAULT_REPLAY. One that faults again while the fault queue has no room for it waits for room (R376). -/
def execFaultReplay (core id : Nat) (s : State) : Host.Outcome State Fault Refusal :=
  s.event (fun clk m => do
    let r ← (m.core core).faults.find? (fun r => r.id == id && r.pend == 0)
    let w ← m.wg? core r.slot
    let m' := m.replayFault clk core w r
    if (m'.core core).faults.any (fun x => x.id == id && x.pend == 0) then none else some m')

end Sys2Proof.Machine
end

