-- ==== Sys2Proof/Machine/SaveImage.lean ====
section
/-! DEFINITION. The bytes of a save image (R391, R433): header, sections, thread and zone records. The model restores a workgroup from its
`Image`; these bytes are what firmware's pages hold of it meanwhile (log 16). -/
namespace Sys2Proof.Machine

/-- Bytes cut or zero-filled to a length. -/
def padTo (n : Nat) (bs : List Byte) : List Byte := bs.take n ++ List.replicate (n - bs.length) 0
/-- Records of `n` bytes each, one after another. -/
def recordsOf {α : Type} (n : Nat) (f : α → List Byte) (xs : List α) : List Byte := (xs.map (fun x => padTo n (f x))).flatten

/-- A thread's block state in the layout of `sr.pblk`; valid = 0 outside a block. -/
def Thread.resblk (t : Thread) : Nat :=
  match t.blk, t.reenter with
  | some b, _ => (pblkWord true b.count b.slot b.guards).toNat
  | none, some (count, slot, guards) => (pblkWord true count slot guards).toNat
  | none, none => 0
/-- State and wait fields of a thread record. `logs` are the fault records that section 10 holds, in its order. -/
def Thread.imageState (t : Thread) (logs : List Nat) : Nat × Nat :=
  let fault (id : Nat) : Nat := match logs.findIdx? (· == id) with | some i => i | none => 0x3F + 256
  match t.status with
  | .ready | .rebuilding => (0, 0)
  | .exited => (1, 0)
  | .asleep d => (2, d)
  | .parked id | .waiting (.fault id) => (3, fault id)
  | .gathered key g => (4, key + g * 2 ^ 32)
  | .atBar mask => (5, mask)
  | .waiting _ | .zoneWait .. => (6, 0)
  | .fsLoad _ none _ => (7, 2 ^ 63)
  | .fsLoad _ (some st) _ => (7, st)
/-- A thread record of 1,024 bytes. -/
def Thread.record (t : Thread) (logs : List Nat) : List Byte :=
  let st := t.imageState logs
  leBytes 16 t.pc.toNat ++ leBytes 16 t.trappc.toNat ++ leBytes 16 t.trapaddr.toNat ++
  ([t.fstat.toNat, t.istat.toNat, t.rnd.toNat, t.pblk.toNat, t.cause.toNat + 65536 * t.info.toNat, bit t.trapH + 2 * bit t.trapL, t.rsspill].map
    (leBytes 8)).flatten ++
  leBytes 1 t.rs.length ++ leBytes 1 (((upFrom 0 8).map (fun n => bit (t.getP n) * 2 ^ n)).foldl (· + ·) 0) ++
  leBytes 1 t.lane ++ leBytes 1 t.warp ++ leBytes 4 st.1 ++ leBytes 8 st.2 ++ leBytes 8 t.resblk ++
  ((upFrom 0 32).map (fun n => leBytes 8 (t.getK n).toNat)).flatten ++ ((upFrom 0 16).map (fun n => leBytes 16 (t.getA n).toNat)).flatten ++
  (t.rs.reverse.map (fun a => leBytes 16 a.toNat)).flatten
/-- A zone record (R433). -/
def Zone.record (z : Zone) : List Byte :=
  let code (s : ZState) : Nat := match s with | .free => 0 | .reserved => 1 | .filling => 2 | .arrived => 3 | .torn => 4 | .closed => 5
  leBytes 16 z.backing.toNat ++ leBytes 8 z.name ++ leBytes 4 z.base ++ leBytes 1 (z.slots.length - 1) ++ leBytes 1 z.size ++
  leBytes 1 (128 * bit z.open_ + (z.target - 1)) ++ leBytes 1 (128 * bit z.phase + z.pend) ++
  leBytes 24 ((z.slots.mapIdx (fun i s => code s.state * 2 ^ (3 * i))).foldl (· + ·) 0) ++
  leBytes 8 ((z.slots.mapIdx (fun i s => bit s.inback.isSome * 2 ^ i)).foldl (· + ·) 0)
/-- A tile entry (R204): 24 bytes. -/
def Tile.entry (t : Tile) : List Byte := leBytes 8 t.word ++ leBytes 4 t.version.toNat ++ leBytes 10 t.map.toNat
/-- Rows of a warp's v registers (R202): lane by lane, 128 bytes a register. -/
def Wg.vRows (w : Wg) (warp : Nat) : List Byte :=
  ((upFrom 0 (8 * w.hdr.vregs)).map (fun r => ((upFrom 0 32).map (fun l =>
    match w.threads.find? (fun t => t.warp == warp && t.lane == l) with
    | some t => leBytes 4 (t.getV r).toNat
    | none => leBytes 4 0)).flatten)).flatten
/-- The sections of an image, in order. What a part or the spec does not lay out (rings, B operands, operand-log entries, bindings, command
records, the store buffer) is a free value of its length. -/
def Image.sections (i : Image) : List (List Byte) :=
  let w := i.wg
  let logs := (i.faults.filter (·.log.isSome)).map (·.id)
  let own (n len : Nat) : List Byte := leBytes len (Config.imageInner n i.id)
  let bits (n : Nat) : List Byte :=
    (upFrom 0 (n / 8)).map (fun j => BitVec.ofNat 8 (((upFrom 0 8).map (fun b => bit (w.tags.contains (8 * (8 * j + b))) * 2 ^ b)).foldl (· + ·) 0))
  [recordsOf 1024 (fun t => t.record logs) w.threads,
   ((upFrom 0 w.hdr.warpCount).map w.vRows).flatten,
   (upFrom 0 (w.hdr.scratch * 32768)).map (fun o => sget 0 i.scratch o),
   bits (w.hdr.scratch * 4096),
   recordsOf 32 Tile.entry w.tiles,
   own 5 (if w.hdr.ringCount = 0 then 0 else 64),
   (upFrom 0 (w.hdr.accs * 2048)).map (fun k => leBytes 4 (sget 0 w.acc k).toNat) |>.flatten,
   own 7 (16384 * w.hdr.macs.length),
   leBytes 8 ((w.epiLoaded.map (fun e => 2 ^ e.1)).foldl (· ||| ·) 0) ++
     ((upFrom 0 8).map (fun ps => padTo 256 (((w.epiLoaded.find? (fun e => e.1 == ps)).map (fun e =>
       (e.2.map (fun x => leBytes 4 x.toNat)).flatten)).getD []))).flatten,
   recordsOf 32 (fun b => ((upFrom 0 4).map (fun s => leBytes 8 (b.stat s))).flatten) w.bds,
   own 10 (4096 * logs.length),
   own 11 (8 * w.hdr.qregs),
   recordsOf 64 Zone.record w.zones,
   own 13 (64 * i.cmds.length),
   own 14 (if w.sbuf.isEmpty then 0 else 65792)]
/-- The sections' places: offset and length, each at a multiple of 256; an absent one has length 0. -/
def placeSections : Nat → List (List Byte) → List (Nat × Nat)
  | _, [] => []
  | at_, s :: rest => (if s.isEmpty then 0 else at_, s.length) :: placeSections (at_ + (s.length + 255) / 256 * 256) rest
/-- The image (R391). -/
def Image.bytes (i : Image) : List Byte :=
  let w := i.wg
  let body := (i.sections.map (fun s => padTo ((s.length + 255) / 256 * 256) s)).flatten
  let pins := (w.pins.map (fun n => 2 ^ n)).foldl (· ||| ·) 0
  let head := leBytes 2 0x5349 ++ leBytes 1 1 ++ leBytes 1 (bit i.fetchFault.isSome + 2 * bit w.hdr.rollback + 4 * bit w.hdr.cspan) ++
    leBytes 4 (256 + body.length) ++ leBytes 8 i.time ++ leBytes 16 w.hdr.addr ++ leBytes 8 w.base ++ leBytes 2 w.threads.length ++
    leBytes 1 w.hdr.warpCount ++ leBytes 1 i.core ++ leBytes 2 pins ++ leBytes 2 i.core ++ leBytes 8 w.rollbackWord ++ leBytes 8 0 ++
    ((placeSections 256 i.sections).map (fun s => leBytes 4 s.1 ++ leBytes 4 s.2)).flatten
  padTo 256 head ++ body
/-- Bytes into the pages that hold them, 64 KiB in each. -/
def Mach.writePages (m : Mach) : List Nat → List Byte → Mach
  | [], _ => m
  | p :: ps, bs => { m with mem := Memory.writeL m.mem (p * 65536) (bs.take 65536) : Mach }.writePages ps (bs.drop 65536)

end Sys2Proof.Machine
end

