-- ==== Sys2Proof/Machine/Preempt.lean ====
section
/-! DEFINITION. Pre-emption (R389 to R393): who leaves, when its work has settled, the save image, and the resume; the swap-out of a fetch
fault (R377) and a fenced core (R388). The image is kept structured (log 16). -/
namespace Sys2Proof.Machine

/-! ## Settling (R390, R392) -/

/-- The workgroups that leave and resume together: a cluster-span launch's block of 16, else the workgroup alone. -/
def Mach.blockWith (m : Mach) (core slot : Nat) (w : Wg) : List (Nat × Nat × Wg) :=
  if w.hdr.cspan then
    (m.wgs.filter (fun e => e.2.vf == w.vf && e.2.launch == w.launch && e.2.g / 16 == w.g / 16 && !e.2.ending)).map
      (fun e => (e.1 / 64, e.1 % 64, e.2))
  else [(core, slot, w)]
/-- A copy that a save waits for: one that moves bytes. One that waits for a fault, a stamp, and the parts of a copy into workgroups
that are not there are saved. -/
def Copy.moving (c : Copy) : Bool :=
  c.started && c.waitFault.isNone && (match c.kind with | .stamp .. | .t2t .. | .t2tReg .. => false | _ => true)
/-- A tile job that a save waits for. -/
def Tile.moving (t : Tile) : Bool :=
  t.busy && !t.fault &&
  (match t.job with
    | some (.load ..) | some .touch | some .store | some (.unmap ..) | some (.storeAon _ _ _ (some _)) | some (.loadVer _ _ _ _ none)
    | some (.rotate ..) => true
    | _ => false)
/-- Step 3 of R390 is over: engine work has settled, register moves are done (R166), and the data of loads that has come back is in. -/
def Mach.settledWork (m : Mach) (core slot : Nat) (w : Wg) : Bool :=
  let c := m.core core
  !c.copies.any (fun x => x.slot == slot && x.moving) && !c.mats.any (·.slot == slot) && !c.drains.any (·.slot == slot) &&
  !c.epis.any (·.slot == slot) && !w.tiles.any Tile.moving && w.rebuild.isEmpty &&
  !w.threads.any (fun t => match t.status with | .zoneWait none _ => true | _ => false) &&
  (c.loads.filter (·.slot == slot)).all (fun l => l.lanes.any (fun x => x.2.any (fun p => match p with | .owed _ => true | _ => false)))

/-! ## The save (R390, R391, R284) -/

/-- The P bits of a workgroup's endpoints. -/
def Mach.parkEnds (m : Mach) (w : Wg) (p : Bool) : Mach :=
  (w.qs.filterMap id).foldl (fun (m : Mach) b =>
    m.modChan w.vf b.chan (fun c => if b.reader then { c with rP := p } else { c with wP := p })) m
/-- Scratchpad bytes and poisoned words of a run, by offset. -/
def Core.runBytes (c : Core) (w : Wg) : Sparse Byte :=
  (c.scratch.filter (fun e => w.scratchAt 0 ≤ e.1 && e.1 < w.scratchAt w.scratchBytes)).map (fun e => (e.1 - w.scratchAt 0, e.2))
def Core.runPoison (c : Core) (w : Wg) : List Nat :=
  (c.poison.filter (fun p => w.scratchAt 0 ≤ p * 4 && p * 4 < w.scratchAt w.scratchBytes)).map (· - w.scratchAt 0 / 4)
/-- Bastings keep the scratchpad by byte address on the core; a workgroup that moves takes them along. -/
def Basting.rebase (b : Basting) (from_ to_ : Nat) : Basting := { b with scratch := b.scratch.map (fun e => (e.1 - from_ + to_, e.2)) }
/-- SAVE a workgroup and free what it holds on its core; `fault` is the fault its fetch waits for. Its stores leave L1 first, since it may go
on elsewhere (R16). -/
def Mach.saveWg (m : Mach) (clk : Clock) (core slot : Nat) (fault : Option Nat) : Mach :=
  match m.wg? core slot with
  | none => m
  | some w =>
    let (id, m) := (m.writeBackAll core).newId
    let c := m.core core
    let n := if w.hdr.pinned then 0 else (w.hdr.imageBytes + 65535) / 65536
    let (pages, m) := match m.takePages w.vf n with | some r => r | none => ([], m)
    let m := m.parkEnds w true
    let img : Image :=
      { wg := { w with fused := [], threads := w.threads.map (fun t => { t with mon := none, yieldMark := false }), leaving := 0,
                       basting := w.basting.map (·.rebase (w.scratchAt 0) 0), gran := 0, row := 0 },
        scratch := c.runBytes w, cmds := c.copies.filter (·.slot == slot), faults := c.faults.filter (·.slot == slot),
        mats := w.macs.map (fun p => (p.1, (tget c.macs p.2).getD {})), poison := c.runPoison w,
        loads := c.loads.filter (·.slot == slot), fetchFault := fault, time := clk.time, core, id, pages }
    let m := m.modCore core (fun c =>
      { c with copies := c.copies.filter (·.slot ≠ slot), faults := c.faults.filter (·.slot ≠ slot), loads := c.loads.filter (·.slot ≠ slot) })
    let m := m.writePages pages img.bytes
    ((m.delWg core slot).freeCore core).modFn w.vf (fun f =>
      { f with images := f.images ++ [img], preempts := f.preempts.map (fun p => (p.1, p.2.filter (· ≠ w.started))) })
/-- Workgroups that are to leave, and whose block has settled, leave (R390). -/
def Mach.saveReady (m : Mach) (clk : Clock) : Mach :=
  m.wgs.foldl (fun m e =>
    match m.wg? (e.1 / 64) (e.1 % 64) with
    | none => m
    | some w =>
      let block := m.blockWith (e.1 / 64) (e.1 % 64) w
      if w.leaving = 1 ∧ w.ending = false ∧ block.all (fun b => b.2.2.leaving == 1 && m.settledWork b.1 b.2.1 b.2.2) then
        block.foldl (fun m b => m.saveWg clk b.1 b.2.1 none) m
      else m) m
/-- Pre-empt commands whose workgroups have all left, or ended, complete. -/
def Mach.endPreempts (m : Mach) : Mach :=
  m.fns.foldl (fun (m : Mach) e =>
    e.2.preempts.foldl (fun (m : Mach) p =>
      if p.2.any (fun s => m.wgs.any (fun x => x.2.vf == e.1 && x.2.started == s)) then m
      else (m.modFn e.1 (fun f => { f with preempts := f.preempts.filter (· ≠ p) })).finish p.1 0x16 0 0) m) m

/-- WHAT SETTLES after every step: ends, barriers and gathers (Exit.lean), then saves. -/
def Mach.settleAll (m : Mach) (clk : Clock) : Mach := ((m.settle clk).saveReady clk).endPreempts

/-! ## Who leaves (R389) -/

/-- The workgroups that satisfy `p`, with their blocks, are to leave. -/
def Mach.evict (m : Mach) (p : Nat → Nat → Wg → Bool) : Mach :=
  let chosen := (m.wgs.filter (fun e => p (e.1 / 64) (e.1 % 64) e.2 && !e.2.ending)).map (fun e => m.blockWith (e.1 / 64) (e.1 % 64) e.2)
  chosen.flatten.foldl (fun (m : Mach) b => m.modWg b.1 b.2.1 (fun w => if w.leaving = 0 then { w with leaving := 1 } else w)) m

/-- PRE_EMPT: the workgroups of the launch at an address, or of all of the function's launches; the command completes when they have
left. -/
def execPreEmpt (c : Cmd) (launch : Nat) (s : State) : Host.Outcome State Fault Refusal :=
  s.pfCmd c 0x16 (fun _ m =>
    let named (w : Wg) : Bool := w.vf == c.target && (launch == 0 || w.hdr.addr == launch) && !w.ending
    let m := m.evict (fun _ _ w => named w)
    let starts := (m.wgs.filter (fun e => e.2.vf == c.target && e.2.leaving == 1 && named e.2)).map (·.2.started)
    (m.modFn c.target (fun f => { f with preempts := f.preempts ++ [(c, starts)] })).endPreempts)

/-- The header of the level-3 unit that waits, oldest source first. -/
def Mach.level3Head (m : Mach) (vf : Nat) : Option Header :=
  match (m.fn vf).launches.find? (fun l => l.hdr.prio == 3 && l.pending) with
  | some l => some l.hdr
  | none => if m.queuePending vf 3 then (m.headLaunch vf 3).map (·.hdr) else none
/-- A core of a die (any core, for a pinned or ordered launch; a cluster, for a cluster-span one) can hold a unit. -/
def Mach.unitFits (m : Mach) (vf : Nat) (h : Header) (d : Nat) : Bool :=
  if h.cspan then (upFrom (d * 10) 10).any (fun k => (upFrom (k * 16) 16).all (fun c => 0 < m.canHold c vf h))
  else (m.bestCore vf h (dieCores d) []).isSome
/-- Workgroups to take from one die, in turn, until the unit fits; none when it never does. -/
def Mach.victims (m : Mach) (vf : Nat) (h : Header) (d : Nat) : List (Nat × Nat) → List (Nat × Nat) → Option (List (Nat × Nat))
  | todo, taken =>
    if m.unitFits vf h d then some taken
    else
      match todo with
      | [] => none
      | v :: rest => ((m.delWg v.1 v.2).freeCore v.1).victims vf h d rest (taken ++ [v])
/-- PREEMPT_PRIORITY_TIMEOUT: a level-3 unit has waited 200,000 ns and no core can hold it: workgroups of the function's lowest level
below 3 on one die go, the most recently started first, until it fits. -/
def execPreemptPriorityTimeout (vf : Nat) (s : State) : Host.Outcome State Fault Refusal :=
  s.event (fun clk m => do
    let since ← (m.fn vf).waitL3
    let h ← m.level3Head vf
    let staying : Mach := { m with wgs := m.wgs.filter (fun e => e.2.leaving == 0) }
    if clk.time < since + 200000 || (upFrom 0 8).any (staying.unitFits vf h) then none
    else
      let can := m.wgs.filter (fun e => e.2.vf == vf && e.2.hdr.prio < 3 && !e.2.hdr.pinned && !e.2.ending && e.2.leaving == 0)
      let vs ← (upFrom 0 8).findSome? (fun d =>
        let mine := can.filter (fun e => e.1 / 64 / coresPerDie == d)
        let low := (mine.map (·.2.hdr.prio)).foldl min 3
        let order := (sortBy (fun e => e.2.started) (mine.filter (fun e => e.2.hdr.prio == low))).reverse
        staying.victims vf h d ((order.map (fun e => (m.blockWith (e.1 / 64) (e.1 % 64) e.2).map (fun b => (b.1, b.2.1)))).flatten.eraseDups) [])
      some (m.evict (fun c k _ => vs.contains (c, k))))

/-- FETCH_FAULT_SWAP_OUT: a workgroup whose fetch found no translation has settled, and is saved with its block; each fault gets its
entry of kind 6 (R376, R377). -/
def execFetchFaultSwapOut (core slot : Nat) (s : State) : Host.Outcome State Fault Refusal :=
  s.event (fun clk m => do
    let w ← m.wg? core slot
    let block := m.blockWith core slot w
    let missing := block.filter (fun b => b.2.2.leaving == 2)
    if w.leaving ≠ 2 || w.ending || !block.all (fun b => b.2.2.leaving ≠ 0 && m.settledWork b.1 b.2.1 b.2.2) ||
        !m.faultRoom w.vf missing.length then none
    else
      some (block.foldl (fun (m : Mach) b =>
        match (if b.2.2.leaving = 2 then b.2.2.fetchAt else none) with
        | none => m.saveWg clk b.1 b.2.1 none
        | some (ts, va) =>
          let t := b.2.2.thread (ts.headD 0)
          let (id, m) := m.newId
          let m := m.postFault clk w.vf
            { va, time := 0, core := b.1, slot := b.2.1, warp := b.2.2.coreWarp t.warp, kind := 6, access := 2, olog := 255,
              flags := bit b.2.2.hdr.ordered * 2, lanes := (ts.map (fun i => 2 ^ (b.2.2.thread i).lane)).foldl (· ||| ·) 0,
              wid := t.wid, launch := b.2.2.hdr.addr, rec_ := id }
          m.saveWg clk b.1 b.2.1 (some id)) m))

/-! ## Resume (R393) -/

/-- A thread that stopped in a block goes on at its prefix, which it re-enters at the saved slot (R35, R393). -/
def Thread.toPrefix (t : Thread) : Thread :=
  match t.blk with
  | some b => { t with pc := b.prefixPc, blk := none, reenter := some (b.count, b.slot, b.guards) }
  | none => t
/-- A thread as it goes on: one that waited in an instruction executes it again; a slot load that retired meanwhile ends (R357). One whose slot
load is still pending keeps its place in its block until the load ends. -/
def Thread.resumed (t : Thread) : Thread :=
  match t.status with
  | .waiting (.fault _) => t.toPrefix
  | .waiting _ => { t with status := .ready, since := none }.toPrefix
  | .fsLoad _ (some st) kd => { (t.setK kd (BitVec.ofNat 64 st)).advance 8 with status := .ready }.toPrefix
  | .fsLoad .. => t
  | _ => t.toPrefix
/-- Operand-log entries of a core that are free. -/
def Core.freeLogs (c : Core) : List Nat := (upFrom 0 64).filter (fun i => !c.faults.any (fun r => r.log == some i))
/-- The faulted instructions of an image take free operand-log entries. -/
def relog : List FaultRec → List Nat → Nat → List FaultRec
  | [], _, _ => []
  | r :: rs, logs, slot =>
    match r.log, logs with
    | some _, l :: ls => { r with slot, log := some l } :: relog rs ls slot
    | _, _ => { r with slot } :: relog rs logs slot
/-- Where an endpoint's workgroup now is. -/
def Mach.moveEnds (m : Mach) (core slot : Nat) (w : Wg) : Mach :=
  (w.qs.mapIdx (fun i b => (i, b))).foldl (fun (m : Mach) e =>
    match e.2 with
    | none => m
    | some b => m.modChan w.vf b.chan (fun c => if b.reader then { c with rbind := some (core, slot, e.1), rP := false }
                                                 else { c with wbind := some (core, slot, e.1), wP := false })) m
/-- A core can take an image back. -/
def Mach.canResume (m : Mach) (vf core : Nat) (i : Image) : Bool :=
  0 < m.canHold core vf i.wg.hdr && (m.seat? core i.wg.hdr).isSome &&
  (i.faults.filter (·.log.isSome)).length ≤ (m.core core).freeLogs.length && (!i.wg.hdr.pinned || core == i.core)
/-- Place an image on a core and restore it: what its threads had loaded or stored elsewhere is newer than a copy in this core's L1 (R16). -/
def Mach.resumeOn (m : Mach) (clk : Clock) (vf core : Nat) (i : Image) : Mach :=
  match m.seat? core i.wg.hdr with
  | none => m
  | some seat =>
    let (cycles, m) := (m.dropAll core).prepare core vf i.wg.hdr seat
    let w : Wg :=
      { i.wg with
        gran := seat.gran, row := seat.row, warps := seat.nums.map (fun n => { num := n }), macs := (i.wg.macs.map (·.1)).zip seat.macs,
        basting := i.wg.basting.map (·.rebase 0 (seat.gran * 32768)), threads := i.wg.threads.map Thread.resumed, fetchAt := none,
        readyAt := clk.cycle + cycles }
    let busy := !(m.core core).drains.isEmpty
    let m := m.modCore core (fun c =>
      let c := { c with
        scratch := i.scratch.foldl (fun s e => sset 0 s (seat.gran * 32768 + e.1) e.2) c.scratch,
        poison := c.poison ++ i.poison.map (· + seat.gran * 8192),
        macs := (w.macs.zip (i.mats.map (·.2))).foldl (fun ms p => tset ms p.1.2 { (tget ms p.1.2).getD {} with b := p.2.b, bver := p.2.bver }) c.macs,
        faults := c.faults ++ relog i.faults c.freeLogs seat.slot,
        loads := c.loads ++ i.loads.map (fun l => { l with slot := seat.slot }),
        copies := c.copies ++ i.cmds.map (fun (x : Copy) =>
          { x with slot := seat.slot, started := x.started && (!x.data.isEmpty),
                   waitFault := match x.kind with | .lzSend .. => if x.started then x.waitFault else none | _ => x.waitFault }) }
      if busy then
        { c with epis := c.epis ++ w.epiLoaded.mapIdx (fun n p => { id := i.id + n, seq := m.seq, slot := seat.slot, ps := p.1, tile := none, words := p.2 }) }
      else w.epiLoaded.foldl (fun c p => c.setStore p.1 p.2) c)
    let m := (m.setWg core seat.slot w).zMerge clk core seat.slot
    let m := m.moveEnds core seat.slot w
    let m := if i.wg.threads.any (fun t => match t.status with | .fsLoad _ (some _) _ => true | _ => false) then m.acquire core 5 else m
    let m := (m.modFn vf (fun f => { f with images := f.images.filter (fun x => x.id ≠ i.id) })).releasePages vf i.pages
    match i.failed, i.wg.fetchAt with
    | true, some (ts, va) =>
      m.takeTrap clk core seat.slot ts 4 ((w.thread (ts.headD 0)).lane + 256 * 6) (BitVec.ofNat 80 va) false
    | _, _ => m
/-- Images that go back together, and the cores they go to: a block goes to one cluster, group 16j + i to core i of it (R174). -/
def Mach.resumeSet (m : Mach) (vf core : Nat) (i : Image) : List (Nat × Image) :=
  if i.wg.hdr.cspan then
    ((m.fn vf).images.filter (fun x => x.wg.launch == i.wg.launch && x.wg.g / 16 == i.wg.g / 16)).map (fun x => (core / 16 * 16 + x.wg.g % 16, x))
  else [(core, i)]
/-- An image, with what goes with it, can be placed with this core. -/
def Mach.readyFor (m : Mach) (vf core : Nat) (i : Image) : Bool :=
  (m.resumeSet vf core i).all (fun e => e.2.fetchFault.isNone && m.canResume vf e.1 e.2)
/-- The image that goes back first: the highest priority, then the oldest (R393). -/
def Mach.nextImage (m : Mach) (vf : Nat) (ok : Image → Bool) : Option Image :=
  leastBy (fun i => (3 - i.wg.hdr.prio) * 2 ^ 64 + i.id) ((m.fn vf).images.filter (fun i => i.fetchFault.isNone && ok i))
/-- WORKGROUP_RESUME: a saved workgroup, or block, goes back on a core. -/
def execWorkgroupResume (vf core : Nat) (s : State) : Host.Outcome State Fault Refusal :=
  s.event (fun clk m => do
    let i ← m.nextImage vf (m.readyFor vf core)
    some ((m.resumeSet vf core i).foldl (fun m e => m.resumeOn clk vf e.1 e.2) m))

/-! ## Fenced cores (R388, R414) -/

/-- A core's bit in the fenced map of the capability block. -/
def Mach.markFenced (m : Mach) (core : Nat) : Mach :=
  let at_ := mirrorBase + 0x100 + core / 8
  let old := (Memory.read m.mem at_).toNat
  m.l2Write at_ [BitVec.ofNat 8 (old ||| 2 ^ (core % 8))]
/-- Fence a core: its bit is set, every function that owned it logs source 10 with a code, and its workgroups go. -/
def Mach.fenceCore (m : Mach) (clk : Clock) (core code : Nat) : Mach :=
  let m := (m.modCore core (fun c => { c with fenced := true })).markFenced core
  let m := (m.fns.filter (fun e => e.2.ownedCores.contains core)).foldl (fun (m : Mach) e => m.logErr clk e.1 10 code 0 core 0 0) m
  let m := ((m.wgsOf core).filter (fun e => e.2.hdr.pinned || e.2.hdr.cspan)).foldl (fun (m : Mach) e => m.killLaunch e.2.vf e.2.launch) m
  m.evict (fun c _ w => c == core && !w.killed)
/-- CORE_FENCE: a core has more uncorrectable errors than firmware's threshold (log 36). -/
def execCoreFence (core : Nat) (s : State) : Host.Outcome State Fault Refusal :=
  s.event (fun clk m =>
    let c := m.core core
    if coreCount ≤ core || c.fenced || c.errors ≤ Config.errorThreshold then none else some (m.fenceCore clk core 2))

end Sys2Proof.Machine
end

