-- ==== Sys2Proof/Machine/Events.lean ====
section
/-! DEFINITION. The channel machinery's own events (R272 to R274, R428) and the stalemate detector (R285 to R287). -/
namespace Sys2Proof.Machine

/-! ## Blocked sends and receives proceed (R272, R278) -/

/-- An instruction that can wait on a channel, as it executes. -/
def chanRunOf : Instr → Option (Clock → Ctx → Mach)
  | .chSend q v => some (chSendRun q v)
  | .chRecv q v p => some (chRecvRun q v p)
  | .chTryRecv q v p => some (chTryRecvRun q v p)
  | .chSendt q t => some (chSendtRun q t)
  | .chRecvt q t p => some (chRecvtRun q t p)
  | .fpack t d a vs slot sel count rm =>
    some (fun clk c => c.packed clk slot (packCount count) a d vs (fun f => fpackOp f t d a vs sel (packCount count) rm))
  | .funpack t d a vs slot sel count rm =>
    some (fun clk c => c.packed clk slot (packCount count) d a vs (fun f => funpackOp f t d a vs sel (packCount count) rm))
  | .pairWord f =>
    (match pairHalves f with
      | some (k, v) => (match regOpOf k, regOpOf v with | some x, some y => some (fun clk c => c.run clk (pairOp x y)) | _, _ => none)
      | none => none)
  | i => (regOpOf i).map (fun op clk c => c.run clk op)

/-- An issue group that waits on a channel: core, slot, its threads, the elements it moves, when it began. -/
structure ChanWaiter where
  core : Nat
  slot : Nat
  threads : List Nat
  n : Nat
  since : Nat × Nat
  deriving DecidableEq, Repr
/-- The groups that wait at an endpoint of a channel. -/
def Mach.chanWaiters (m : Mach) (vf ch : Nat) (send : Bool) : List ChanWaiter :=
  (m.wgs.filter (fun e => e.2.vf == vf && e.2.leaving == 0)).flatMap (fun e =>
    let mine := (e.2.threads.mapIdx (fun i t => (i, t))).filterMap (fun t =>
      let (es, n) := e.2.standsAt t.2
      match t.2.since with
      | some since => if es.any (fun x => x.2.chan == ch && x.2.reader != send) then some (t.1, n, since) else none
      | none => none)
    ((mine.map (·.2)).eraseDups).map (fun g =>
      { core := e.1 / 64, slot := e.1 % 64, threads := (mine.filter (fun t => t.2 == g)).map (·.1), n := g.1, since := g.2 : ChanWaiter }))
/-- The waiting group that proceeds next: the oldest of those that can, or that end in a trap (R272). -/
def Mach.chanNext (m : Mach) (vf ch : Nat) (send : Bool) : Option ChanWaiter :=
  leastBy (fun w => w.since.1) ((m.chanWaiters vf ch send).filter (fun x =>
    match m.wg? x.core x.slot with | some w => m.chanGoes w (w.thread (x.threads.headD 0)) | none => false))
/-- The group executes its instruction. One whose instruction cannot be fetched now is left to issue again. -/
def Mach.proceed (m : Mach) (clk : Clock) (w : ChanWaiter) : Mach :=
  let m := m.modWg w.core w.slot (fun x => x.modThreads w.threads (fun t => { t with status := .ready }))
  match m.wg? w.core w.slot with
  | none => m
  | some x =>
    let pc := (x.thread (w.threads.headD 0)).pc
    match m.fetchInstr w.core x.vf pc with
    | (.ok word ext, m) =>
      match (decode? word ext).bind chanRunOf with
      | none => m
      | some run =>
        let ig : Ig := { core := w.core, slot := w.slot, threads := w.threads, pc, w := word, ext }
        match ({ m with ig := some ig } : Mach).ctx? with
        | none => m
        | some c => { run clk c with ig := none }
    | (_, m) => m
/-- BLOCKED_SEND_PROCEED. -/
def execBlockedSendProceed (vf ch : Nat) (s : State) : Host.Outcome State Fault Refusal :=
  s.event (fun clk m => do
    let w ← m.chanNext vf ch true
    some (m.proceed clk w))
/-- BLOCKED_RECV_PROCEED: a pop that waited for elements, or for Refill. -/
def execBlockedRecvProceed (vf ch : Nat) (s : State) : Host.Outcome State Fault Refusal :=
  s.event (fun clk m => do
    let w ← m.chanNext vf ch false
    some (m.proceed clk w))

/-- CHANNEL_REFILL. -/
def execChannelRefill (vf ch : Nat) (s : State) : Host.Outcome State Fault Refusal :=
  s.event (fun clk m => do
    let c ← m.chan? vf ch
    if c.canRefill then some (m.refill clk vf ch c.spooled.length) else none)

/-! ## Cross-device channels (R428) -/

/-- An element reaches the reader's device; no bytes mean that the writer closed the channel, one byte that its kill broke it (log 23). -/
def channelFlit (vf ch : Nat) (data : List Byte) (clk : Clock) (m : Mach) : Mach :=
  match m.chan? vf ch with
  | none => m
  | some c =>
    if c.state ≠ 1 then m
    else if data.isEmpty then m.setChan vf ch { c with state := 2 }
    else if data.length = 1 then m.setChan vf ch { c with state := 3 }
    else m.enqueue clk vf ch data
/-- CHANNEL_FLIT_ARRIVE. -/
def execChannelFlitArrive (vf ch : Nat) (data : List Byte) (s : State) : Host.Outcome State Fault Refusal := s.always (channelFlit vf ch data)
/-- The reader's device has popped elements. -/
def channelCredit (vf ch credits : Nat) (m : Mach) : Mach := m.modChan vf ch (fun c => { c with credits := c.credits + credits })
/-- CHANNEL_CREDIT_RETURN. -/
def execChannelCreditReturn (vf ch credits : Nat) (s : State) : Host.Outcome State Fault Refusal :=
  s.always (fun _ m => channelCredit vf ch credits m)

/-! ## The stalemate detector (R285 to R287) -/

/-- Workgroups of a function, resident and saved: the number of each one's start, and the workgroup. -/
def Mach.wgsOfFn (m : Mach) (vf : Nat) : List Wg :=
  ((m.wgs.filter (fun e => e.2.vf == vf)).map (·.2)) ++ (m.fn vf).images.map (·.wg)
/-- A stuck workgroup. -/
def Mach.stuck (m : Mach) (w : Wg) : Bool :=
  let live := w.threads.filter (fun t => t.status ≠ .exited)
  !live.isEmpty && live.all (fun t => !(m.blockedOn w t).isEmpty)
/-- The workgroup bound at the other end of a channel. -/
def peerOf (ws : List Wg) (ch : Nat) (send : Bool) : Option Nat :=
  (ws.find? (fun w => w.qs.any (fun b => match b with | some b => b.chan == ch && b.reader == send | none => false))).map (·.started)
/-- Remove those whose peer is not in the set, until nothing changes. -/
def Mach.shrink (m : Mach) (ws : List Wg) : Nat → List Nat → List Nat
  | 0, d => d
  | fuel + 1, d =>
    let d' := d.filter (fun x => match ws.find? (·.started == x) with
      | none => false
      | some w => w.threads.all (fun t => (m.blockedOn w t).all (fun e =>
          (match m.chan? w.vf e.1 with | some c => !c.x | none => false) &&
          (match peerOf ws e.1 e.2 with | some p => d.contains p | none => false))))
    if d' = d then d else m.shrink ws fuel d'
def Mach.stalemate (m : Mach) (vf : Nat) : List Nat :=
  let ws := m.wgsOfFn vf
  m.shrink ws ws.length ((ws.filter m.stuck).map (·.started))
/-- Channels that members of the set are blocked on, ascending; those a writer is blocked on. -/
def Mach.blockedChans (m : Mach) (vf : Nat) (d : List Nat) (writers : Bool) : List Nat :=
  let chans := (m.wgsOfFn vf).flatMap (fun w =>
    if d.contains w.started then w.threads.flatMap (fun t => (m.blockedOn w t).filterMap (fun e => if writers && !e.2 then none else some e.1)) else [])
  sortBy id chans.eraseDups
/-- Grow a channel's spool: the new pages are mapped behind the old. -/
def Mach.growSpool (m : Mach) (vf ch : Nat) (c : Chan) : Option Mach := do
  let m ← m.mapSpool vf c.spool.toNat (spoolPages (c.scur + 1))
  some (m.modChan vf ch (fun c => { c with scur := c.scur + 1, growths := c.growths + 1 }))
/-- One function's scan. -/
def Mach.scanFn (m : Mach) (clk : Clock) (vf : Nat) : Mach :=
  let d := m.stalemate vf
  let chans := m.blockedChans vf d false
  let snap := (d, chans.map (fun n => match m.chan? vf n with | some c => (n, c.sent, c.recvd) | none => (n, 0, 0)))
  let f := m.fn vf
  if d.isEmpty || f.scan ≠ some snap then m.setFn vf { f with scan := if d.isEmpty then none else some snap }
  else
    let grow := (m.blockedChans vf d true).filterMap (fun n => match m.chan? vf n with
      | some c => if c.scur < c.smax then some (n, c) else none
      | none => none)
    let can := grow.filterMap (fun e => (m.growSpool vf e.1 e.2).map (fun m' => (e.2.scur, m')))
    match leastBy (·.1) can with
    | some (_, m') => m'.modFn vf (fun f => { f with scan := none })
    | none =>
      if f.reported = some snap then m
      else
        let listed := chans.take 16
        let code (n : Nat) : Nat := if grow.any (·.1 == n) then 2 else 1
        let m := listed.foldl (fun (m : Mach) n => m.logErr clk vf 7 (code n) (min d.length 255) 65535 n 0) m
        (m.modFn vf (fun f => { f with reported := some snap })).postHost vf 2
          (leBytes 4 d.length ++ (listed.map (fun n => leBytes 2 n ++ leBytes 1 (code n))).flatten)
/-- STALEMATE_SCAN: once per 20,000 ns, every function is scanned. -/
def execStalemateScan (s : State) : Host.Outcome State Fault Refusal :=
  s.event (fun clk m =>
    if clk.time / 20000 ≤ (tget m.due 0).getD 0 then none
    else some (m.fns.foldl (fun (m : Mach) e => m.scanFn clk e.1) { m with due := tset m.due 0 (clk.time / 20000) }))

end Sys2Proof.Machine
end

