-- ==== Sys2Proof/Machine/Fences.lean ====
section
/-! DEFINITION. Group J: fences, instruction-cache invalidation and cache maintenance (R224, R238, R239, R251 to R255). -/
namespace Sys2Proof.Machine

/-- `fence` (R224, R252): orders 0 acquire, 1 release, 2 acquire-release, 3 strong. The UO flag and the strong order cover UO accesses
(R220). A thread waits for its held operations that the fence orders first (R400). -/
def fenceRun (order : Nat) (uo : Bool) (scope : Nat) (clk : Clock) (c : Ctx) : Mach :=
  if c.act.isEmpty then c.retire c.m
  else c.pastHeld clk (c.heldLate true []) (fun c =>
    let m := if order ≠ 0 then c.m.release clk c.core c.slot scope (uo || order == 3) else c.m
    c.retire (if order ≠ 1 then m.acquire c.core scope else m))
def execFence (order : Nat) (uo : Bool) (scope : Nat) (s : State) : Host.Outcome State Fault Refusal := s.group (fenceRun order uo scope)

/-- Does scope `scope` of a thread on `core` include core `k` (R213)? A cluster has 16 cores, a die 160. -/
def inScope (scope core k : Nat) : Bool :=
  if scope ≤ 2 then k == core else if scope = 3 then k / 16 == core / 16 else if scope = 4 then k / 160 == core / 160 else true
/-- The physical lines of this device that `n` virtual 128-byte lines from `va` translate to; unmapped ones are skipped (R253). -/
def Mach.physLines (m : Mach) (vf va n : Nat) : List Nat :=
  (upFrom 0 n).filterMap (fun i =>
    match walk m vf ((va / 128 * 128 + 128 * i) % 2 ^ 80) with
    | .leaf p _ => if p.rm || p.malformed then none else some (lineOf (p.pa ((va / 128 * 128 + 128 * i) % 2 ^ 80)))
    | .none_ => none)
/-- Drop instruction words from a core's instruction cache: those of the lines, or all. -/
def Core.icDrop (c : Core) (lines : Option (List Nat)) : Core :=
  match lines with
  | none => { c with icache := [] }
  | some ls => { c with icache := c.icache.filter (fun e => !ls.contains (e.1 / 16)) }

/-- `icinv` (R254): a release fence of its scope, then the words go from every core in scope, the function's own for `n` 0 (R253). A fetch
reads L2, so the stores to the code that stand in the core's own L1 leave it (R17, R238). -/
def icinvRun (a n scope : Nat) (clk : Clock) (c : Ctx) : Mach :=
  if c.act.isEmpty then c.retire c.m
  else c.pastHeld clk (c.heldLate true []) (fun c =>
    let m := c.m.release clk c.core c.slot scope
    let lines := if n = 0 then none else some (m.physLines c.vf (c.leadA a) n)
    let m := match lines with | none => m.writeBackAll c.core | some ls => ls.foldl (fun m l => m.writeBack c.core l) m
    let cores := m.cores.map (fun e =>
      (e.1, if inScope scope c.core e.1 && (n != 0 || e.2.owner.all (· == c.vf)) then e.2.icDrop lines else e.2))
    c.retire { m with cores })
def execIcinv (a n scope : Nat) (s : State) : Host.Outcome State Fault Refusal := s.group (icinvRun a n scope)

/-- `dcwb` and `dcinv` (R255). -/
def dcRun (drop : Bool) (a n : Nat) (_ : Clock) (c : Ctx) : Mach :=
  if c.act.isEmpty then c.retire c.m
  else
    let lines := if n = 0 then (c.m.core c.core).l1.map (·.1) else c.m.physLines c.vf (c.leadA a) n
    c.retire (lines.foldl (fun m l => if drop then m.dropLine c.core l else m.writeBack c.core l) c.m)
def execDcwb (a n : Nat) (s : State) : Host.Outcome State Fault Refusal := s.group (dcRun false a n)
def execDcinv (a n : Nat) (s : State) : Host.Outcome State Fault Refusal := s.group (dcRun true a n)

/-- L1_WRITEBACK_TIMEOUT: a dirty line is written back within 2²⁰ cycles of its first write (R215); a core may do it sooner. -/
def execL1WritebackTimeout (core line : Nat) (s : State) : Host.Outcome State Fault Refusal :=
  s.event (fun _ m =>
    match tget (m.core core).l1 line with
    | some l => if l.dirty.any id then some (m.writeBack core line) else none
    | none => none)
/-- STORE_BUFFER_AGE_OVERFLOW: the oldest buffered store has reached 2²⁰ cycles; the interval is sealed (R384). -/
def execStoreBufferAgeOverflow (core slot : Nat) (s : State) : Host.Outcome State Fault Refusal :=
  s.event (fun clk m =>
    match m.wg? core slot with
    | some w => if w.sbuf.any (fun b => decide (b.time + 1048576 ≤ clk.cycle)) then some (m.seal clk core slot 3) else none
    | none => none)

end Sys2Proof.Machine
end

