-- ==== Sys2Proof/Machine/Scoreboard.lean ====
section
/-! DEFINITION. The scoreboard (R154): the registers each instruction names, how its accesses are ordered, and whether an instruction
must be held for a load that has not come back or for a queue that is full. -/
namespace Sys2Proof.Machine

/-! ## The registers an instruction names -/

/-- The registers of `fpack` and `funpack`: the elements, the packed registers and the scale register of the plane bound now (R114 to R117). -/
def Mach.packUse (m : Mach) (core slot n elems packed vs : Nat) : List (Nat × Nat) :=
  match m.plane core slot with
  | none => []
  | some f => [(elems, n), (packed, f.packedRegs n)] ++ (if f.kind = 1 then [(vs, 1)] else [])
/-- The registers of one channel element (R277). -/
def Mach.elemUse (m : Mach) (w : Wg) (q v : Nat) : List (Nat × Nat) :=
  match w.q q with
  | none => []
  | some b => match m.chan? w.vf b.chan with | some c => [(v, (c.esize + 3) / 4)] | none => []
/-- The v registers an instruction waits for on the scoreboard: those it reads or writes, but for a pass's operands (R303). -/
def Mach.vUse (m : Mach) (core : Nat) (w : Wg) : Instr → List (Nat × Nat)
  | .pairWord f => (match pairHalves f with | some (k, v) => vspans k ++ vspans v | none => [])
  | .fpack _ d a vs slot _ count _ => m.packUse core slot (packCount count) a d vs
  | .funpack _ d a vs slot _ count _ => m.packUse core slot (packCount count) d a vs
  | .regroup .. => [(0, 256)]
  | .chSend q v | .chRecv q v _ | .chTryRecv q v _ | .chTrySend q v _ => m.elemUse w q v
  | .accRd count v _ _ | .accWr count _ v _ => [(v, accCount count)]
  | .mmaQ .. => []
  | i => vspans i

/-- The k and the a registers an instruction names. -/
def kaUse : Instr → List Nat × List Nat
  | .kadd d a b | .ksub d a b | .kmul d a b | .kand d a b | .kor d a b | .kxor d a b | .kshl d a b | .kshr d a b | .ksar d a b
  | .kmin _ d a b | .kmax _ d a b => ([d, a] ++ b.regs32, [])
  | .kcmp _ _ _ a b => (a :: b.regs32, [])
  | .ksel d a b _ => ([d, a, b], [])
  | .kmov d a | .kbfx _ d a _ _ | .kpopc d a | .kclz d a => ([d, a], [])
  | .kmovi d _ => ([d], [])
  | .kbcast _ _ a => ([a], [])
  | .kpick _ d _ b => (d :: b.regs32, [])
  | .amov d a | .aalignDn d a _ | .aalignUp d a _ => ([], [d, a])
  | .aset d a b => (a :: b.regs32, [d])
  | .aget d a | .agetHi d a => ([d], [a])
  | .aadd d a b => (b.regs32, [d, a])
  | .aaddv _ d a _ _ => ([], [d, a])
  | .acmp _ _ a b => ([], [a, b])
  | .adiff d a b => ([d], [a, b])
  | .brkNz k _ | .brkZ k _ | .sleepReg k | .clock k | .clockTime k => ([k], [])
  | .jmp a _ | .callr a _ | .icinv a _ _ | .dcwb a _ | .dcinv a _ | .widFrame a => ([], [a])
  | .srd form r _ | .swr form r _ => if form = 2 then ([r], []) else if form = 3 then ([], [r]) else ([], [])
  | .ld _ m | .st _ m | .ldw _ m | .stw _ m | .pf m | .atom _ _ m | .atomcas _ m | .atomf _ _ m | .atomord _ _ m | .red _ _ m => ([], [m.base])
  | .ldk _ m | .stk _ m => ([m.data], [m.base])
  | .lda m | .sta m => ([], [m.data, m.base])
  | .lds _ m | .sts _ m | .ldsw _ m | .stsw _ m | .atoms _ _ m => ([m.base], [])
  | .tbarInit b n | .tbarExpect b n | .tbarWait b n | .tbarTest _ b n => ([b, n], [])
  | .tbarArrive b | .tbarArriveLanes b | .tbarInval b => ([b], [])
  | .monArm d a => ([d], [a])
  | .stgAcq d _ | .stgTake d _ => ([d], [])
  | .tdef _ b s => ([b, s], [])
  | .tstate d _ | .tver d _ => ([d], [])
  | .tld _ a _ _ | .tst _ a _ _ | .tmap _ a => ([], [a])
  | .tstAon _ a v | .tldv _ a v => ([], [a, v])
  | .cpG2t _ a o | .cpT2g a _ o => (o.bar.toList, [a])
  | .cpG2g d s n o => (n :: o.bar.toList, [d, s])
  | .cpGather _ _ a _ _ k o | .cpScatter _ a _ _ _ k o => (k :: o.bar.toList, [a])
  | .cpFill a v n o => ([v, n] ++ o.bar.toList, [a])
  | .cpFillTile _ v o => (v :: o.bar.toList, [])
  | .cpT2t _ _ g o => (g :: o.bar.toList, [])
  | .cpT2tReg _ g w o => ([g, w] ++ o.bar.toList, [])
  | .cpMcast _ _ g m o => ([g, m] ++ o.bar.toList, [])
  | .cpStamp a v _ _ => ([v], [a])
  | .lzOpen d _ b c h => ([d, b, c], [h])
  | .lzStatus d _ _ => ([d], [])
  | .lzReserve d z | .lzReserveWait d z => ([d, z], [])
  | .lzSend z s _ w _ | .lzSendAny z s _ w _ => ([z, s], [w])
  | .lzAbort d z s => ([d, z, s], [])
  | .lzWait _ p | .lzAck _ p | .lzClean _ p => ([p], [])
  | .chBindW _ c _ | .chBindR _ c _ => ([c], [])
  | .chStat d _ _ => ([d], [])
  | .chStatNum d c _ => ([d, c], [])
  | .accRd _ _ _ k | .accWr _ _ _ k | .accDrain _ _ _ _ k _ => ([k], [])
  | .mstat d | .mstatClr d | .fsQuery d _ _ | .bdStat d _ _ | .bdStatClr d _ _ => ([d], [])
  | .fsLoad d _ a => ([d], [a])
  | .bdSet _ _ _ lo hi => ([lo, hi], [])
  | .spawn d a | .join d a => ([d], [a])
  | .grow d k => ([d, k], [])
  | .gwSignal k a => ([k], [a])
  | _ => ([], [])
/-- The k and the a registers of a word, both halves of a pair included. -/
def kaNamed (i : Instr) : List Nat × List Nat :=
  match i with
  | .pairWord f => (match pairHalves f with | some (k, v) => ((kaUse k).1 ++ (kaUse v).1, (kaUse k).2 ++ (kaUse v).2) | none => ([], []))
  | i => kaUse i
/-- Two spans of v registers overlap. -/
def spansMeet (x y : Nat × Nat) : Bool := decide (x.1 < y.1 + y.2) && decide (y.1 < x.1 + x.2)
/-- Bytes that a lane of a load reads. -/
def PendLoad.laneBytes (p : PendLoad) : Nat :=
  match p.lanes with
  | [] => 0
  | l :: _ => (l.2.map (fun x => match x with | .got bs => bs.length | .owed n => n)).foldl (· + ·) 0
/-- An instruction names a register that a load writes. -/
def Mach.namesDst (m : Mach) (core : Nat) (w : Wg) (i : Instr) (p : PendLoad) : Bool :=
  match p.dst with
  | .v t r => (m.vUse core w i).any (spansMeet (r, t.regs))
  | .wide r => (m.vUse core w i).any (spansMeet (r, p.laneBytes / 4))
  | .k _ r => (kaNamed i).1.contains r
  | .a r => (kaNamed i).2.contains r
  | .pc => true

/-! ## Order (R221) -/

/-- How an instruction stands to the accesses of its thread before it: a load or another access with its order, or an instruction
that orders as a fence does; every other instruction makes no access that a load could have to come before. -/
inductive OrderUse where
  | none_
  | load (o : Ord)
  | access (o : Ord)
  | fence
  deriving DecidableEq, Repr
def orderUse : Instr → OrderUse
  | .ld _ o | .ldw _ o | .ldk _ o | .lda o | .lds _ o | .ldsw _ o => .load o.order
  | .st _ o | .stw _ o | .stk _ o | .sta o | .sts _ o | .stsw _ o | .atom _ _ o | .atomcas _ o | .atomf _ _ o | .atomord _ _ o | .red _ _ o
  | .atoms _ _ o => .access o.order
  | .tld _ _ o _ => .load o
  | .tst _ _ o _ | .tunmap _ o _ => .access o
  | .fence .. | .icinv .. | .barw .. | .tbarInit .. | .tbarArrive .. | .tbarArriveLanes .. | .tbarExpect .. | .tbarWait .. | .tbarTest ..
  | .tbarInval .. | .monArm .. | .monWait | .stgAcq .. | .stgCommit .. | .stgTake .. | .stgFree .. | .tstAon .. | .tldv ..
  | .cpG2t .. | .cpT2g .. | .cpG2g .. | .cpGather .. | .cpScatter .. | .cpFill .. | .cpFillTile .. | .cpT2t .. | .cpT2tReg .. | .cpMcast ..
  | .cpStamp .. | .lzOpen .. | .lzClose .. | .lzReserve .. | .lzReserveWait .. | .lzSend .. | .lzSendAny .. | .lzAbort .. | .lzWait ..
  | .lzAck .. | .lzClean .. | .chSend .. | .chRecv .. | .chTryRecv .. | .chTrySend .. | .chSendt .. | .chRecvt .. | .chClose .. | .fsLoad ..
  | .spawn .. | .join .. | .grow .. | .gwSignal .. => .fence
  | _ => .none_
/-- The instruction is ordered after a load of order `o` that its thread has issued (R221). -/
def ordersAfter (o : Ord) (i : Instr) : Bool :=
  match orderUse i with
  | .none_ => false
  | .load o' => o ≠ .plain || o' == .strong
  | .access o' => o ≠ .plain || o' ≠ .plain
  | .fence => true

/-! ## Held instructions -/

def PendLoad.owes (p : PendLoad) : Bool := p.lanes.any (fun l => l.2.any (fun x => match x with | .owed _ => true | _ => false))
/-- A thread at this instruction must wait for data of a load or atomic: the instruction names the register the data goes to, or is
ordered after an access another agent still owes (R154, R221, log 12). The refill of a `ret` holds its thread (R19). -/
def Mach.loadHeld (m : Mach) (core slot : Nat) (w : Wg) (i : Nat) (at_ : Option Instr) : Bool :=
  (m.core core).loads.any (fun p => p.slot == slot && p.threads.contains i &&
    (match at_ with
      | some x => m.namesDst core w x p || (!p.keyed && p.owes && ordersAfter p.order x)
      | none => p.dst == .pc))
/-- The threads whose later accesses come after a tile's transfer that has still to be performed (R221, R265). -/
def Tile.owedTo (x : Tile) : List Nat :=
  match x.job with
  | some (.unmap ts _ _ false) | some (.storeAon _ _ ts _) | some (.loadVer _ _ ts _ _) => ts
  | _ => []
/-- A thread at an instruction that makes or orders an access waits for such a transfer of its own. -/
def Wg.tileHeld (w : Wg) (i : Nat) (at_ : Option Instr) : Bool :=
  (match at_ with | some x => orderUse x ≠ .none_ | none => false) && w.tiles.any (fun x => x.owedTo.contains i && x.trap.isNone)
/-- A copy command (R290). -/
def isCopy : Instr → Bool
  | .cpG2t .. | .cpT2g .. | .cpG2g .. | .cpGather .. | .cpScatter .. | .cpFill .. | .cpFillTile .. | .cpT2t .. | .cpT2tReg .. | .cpMcast ..
  | .cpStamp .. | .lzSend .. | .lzSendAny .. => true
  | _ => false
/-- The instruction waits on the scoreboard for room in a queue: the copy engine's (R290), a macro's (R301), or for a program store that
an `epi.load` of its workgroup has still to write (R334). -/
def Ctx.queueHeld (c : Ctx) (i : Instr) : Bool :=
  let k := c.m.core c.core
  !c.act.isEmpty &&
  (match i with
    | .mmaQ acc h fs v vs sel ov =>
      (match c.wg.macs.find? (fun e => e.1 == h), c.m.plane c.core fs with
        | some (_, mac), some f => decide (8 < ((c.emitAll mac acc ov fs f v vs sel).core c.core).passes mac)
        | _, _ => false)
    | .mmaT _ h _ _ _ => (match c.wg.macs.find? (fun e => e.1 == h) with | some (_, mac) => decide (8 ≤ k.passes mac) | none => false)
    | .accDrain _ _ ps _ _ _ => k.epis.any (fun e => e.slot == c.slot && e.ps == ps)
    | i => isCopy i && decide (32 ≤ k.copies.length))
/-- The sources of a run's instruction are ready (R154). `i` is none where no instruction can be fetched. -/
def Mach.sourcesReady (m : Mach) (core slot : Nat) (w : Wg) (ts : List Nat) (i : Option Instr) : Bool :=
  ts.all (fun t => !m.loadHeld core slot w t i && !w.tileHeld t i) &&
  (match i with
    | none => true
    | some i =>
      let ig : Ig := { core, slot, threads := ts, pc := (w.thread (ts.headD 0)).pc, w := 0, ext := none }
      !({ m, ig, wg := w, act := ts.filter (fun t => (w.thread t).guard) } : Ctx).queueHeld i)

end Sys2Proof.Machine
end

