-- ==== Sys2Proof/Machine/Links.lean ====
section
/-! DEFINITION. Scale-up links (R422 to R424, R427, R428, R442): flits and ports, the time reference, and what a peer device asks of this
device's memory. The form of a message between devices is the model's (log 23). -/
namespace Sys2Proof.Machine

/-! ## Flits (R422) -/

/-- A sender's 21 bytes. -/
def parseSender (r : List Byte) : Sender := { dev := numAt r 0 2, vf := numAt r 2 1, header := numAt r 3 10, group := numAt r 13 8 }
/-- The copy command whose payload a peer answers for. -/
def Mach.sendOf (m : Mach) (name i : Nat) : Option (Nat × Copy) :=
  m.cores.findSome? (fun e => (e.2.copies.find? (fun c => c.started && c.done.isEmpty &&
    (match c.kind with | .lzSend n j _ _ _ _ => n == name && j == i | _ => false))).map (fun c => (e.1, c)))
/-- The thread that has waited longest for a peer's answer. -/
def Mach.asker (m : Mach) : Option (Nat × Nat × Nat) :=
  (leastBy (fun (e : Nat × Nat × Nat × Nat) => e.2.2.2) (m.wgs.flatMap (fun e => (e.2.threads.mapIdx (fun i t => (i, t))).filterMap (fun t =>
    match t.2.status, t.2.since with
    | .zoneWait none _, some (n, _) => some (e.1 / 64, e.1 % 64, t.1, n)
    | _, _ => none)))).map (fun e => (e.1, e.2.1, e.2.2.1))
/-- A message of a peer reaches the unit it is for. -/
def Mach.message (m : Mach) (clk : Clock) (bs : List Byte) : Mach :=
  match byteAt bs 0 with
  | 1 => channelFlit (numAt bs 1 2) (numAt bs 3 2) (bs.drop 5) clk m
  | 2 => channelCredit (numAt bs 1 2) (numAt bs 3 2) (numAt bs 5 4) m
  | 5 => lzReservation (numAt bs 1 8) (parseSender (bs.drop 9)) clk m
  | 6 => lzAbort (numAt bs 1 8) (byteAt bs 9) (parseSender (bs.drop 10)) m
  | 7 => (m.asker.bind (fun a => lzReply a.1 a.2.1 a.2.2 (field (numAt bs 9 8) 56 8) (field (numAt bs 9 8) 0 6) m)).getD m
  | 8 => ((m.sendOf (numAt bs 1 8) (byteAt bs 9)).bind (fun c => lzStatus c.1 c.2.id (byteAt bs 10) clk m)).getD m
  | 9 => lzPayload (numAt bs 1 8) (byteAt bs 9) 0 (bs.length - 39) (bs.drop 39) (parseSender (bs.drop 18)) clk m
  | 13 => m.takeMoved clk (numAt bs 1 2) (numAt bs 3 2) (numAt bs 5 8) (numAt bs 13 8) (byteAt bs 21) (bs.drop 22)
  | 14 => m.movedAnswer (numAt bs 1 2) (numAt bs 3 2) (numAt bs 5 8) (byteAt bs 13) (numAt bs 14 8)
  | 15 => m.movedElsewhere (numAt bs 1 2) (numAt bs 3 2) (numAt bs 5 8) (numAt bs 13 8) (numAt bs 21 2) (numAt bs 23 8)
  | 17 => m.peerInvalidates (numAt bs 1 2) (numAt bs 3 2) (numAt bs 5 8) (numAt bs 13 10) (numAt bs 23 2)
  | 18 => m.peerAcked (numAt bs 1 2) (numAt bs 3 2) (numAt bs 5 8)
  | _ => m
/-- FLIT_RECEIVE: a flit whose CRC is good is accepted, and its message goes to the unit it is for; a bad one is retried on the same
port. -/
def execFlitReceive (port : Nat) (crcOk : Bool) (body : FlitBody) (s : State) : Host.Outcome State Fault Refusal :=
  s.always (fun clk m =>
    if crcOk then
      let m : Mach := { m with portTries := sset 0 m.portTries port 0 }
      match body with
      | .empty => m
      | .data bs => m.message clk bs
    else { m with portTries := sset 0 m.portTries port (sget 0 m.portTries port + 1) })

/-! ## Time (R424) -/

/-- Firmware elects the lowest-numbered reachable device. -/
def Mach.electTime (m : Mach) : Mach := { m with timeRef := m.reachable.foldl min m.devnum }
/-- TIME_SYNC: a peer's reading; that of the reference sets the counter forward once before the first launch, and after that only says
how far to slew (R421). -/
def execTimeSync (dev reference : Nat) (s : State) : Host.Outcome State Fault Refusal :=
  if dev ≠ s.m.timeRef ∨ dev = s.m.devnum then .next s
  else if (tget s.m.due 3).isNone ∧ s.m.nextId = 0 ∧ s.clk.time ≤ reference then
    .next { s with clk := { s.clk with time := reference }, m := { s.m with due := tset s.m.due 3 1 } }
  else .next { s with m := { s.m with slew := (reference : Int) - (s.clk.time : Int) } }

/-! ## Ports (R422, R423, R428, R442) -/

/-- Cross-device channels whose peer cannot be reached break (R428), and pages on their way to it stay (R427). -/
def Mach.breakUnreachable (m : Mach) (clk : Clock) : Mach :=
  (m.endFarMoves).fns.foldl (fun (m : Mach) e => e.2.chans.foldl (fun (m : Mach) c =>
    if c.2.x && c.2.state ≠ 3 && m.unreachable c.2.peer then m.breakChan clk e.1 c.1 3 c.2.spooled.length 0 else m) m) (m.endFarMoves)
/-- Payloads on a port tear or arrive: at the sender, where a free value says whether the peer accepted the last beat before the port went
down (status 0 or 1), and at the receiver, which has not (R442). -/
def Mach.tearPort (m : Mach) (clk : Clock) (port : Nat) : Mach :=
  let (x, m) := m.free
  let m : Mach := { m with cores := m.cores.map (fun (e : Nat × Core) => (e.1, { e.2 with copies := e.2.copies.map (fun c =>
    match c.kind with
    | .lzSend name _ _ _ _ _ => if c.started && c.done.isEmpty && c.port == port && field name 0 11 != m.devnum then { c with done := [bit (x.testBit (c.id % 64))] } else c
    | _ => c) })) }
  let from_ (s : Sender) : Bool := s.dev ≠ m.devnum && (match tget m.routes s.dev with | some ps => ps.contains port | none => false)
  let torn (z : Zone) : List (Nat × ZSlot) :=
    (z.slots.mapIdx (fun i s => (i, s))).filter (fun s => z.open_ && s.2.state == .filling && (match s.2.sender with | some x => from_ x | none => false))
  let live := m.wgs.flatMap (fun e => (e.2.zones.mapIdx (fun i z => (i, z))).map (fun z =>
    (e.2.vf, ZPlace.live (e.1 / 64) (e.1 % 64) z.1, z.2)))
  let saved := m.fns.flatMap (fun e => (e.2.images.mapIdx (fun j i => (j, i))).flatMap (fun i => (i.2.wg.zones.mapIdx (fun k z => (k, z))).map (fun z =>
    (e.1, ZPlace.saved i.1 z.1, z.2))))
  (live ++ saved).foldl (fun (m : Mach) p =>
    let ts := torn p.2.2
    let z := ts.foldl (fun (z : Zone) s => z.setSlot s.1 { s.2 with state := .torn }) p.2.2
    if ts.isEmpty then m
    else ts.foldl (fun (m : Mach) s => m.logErr clk p.1 8 1 0 65535 0 (z.slotAt s.1)) (m.putZone p.1 p.2.1 z)) m
/-- Threads that wait for the answer of a device that cannot be reached get status 4 (R437, R442). -/
def Mach.endAsks (m : Mach) (clk : Clock) : Mach :=
  let lost (t : Thread) : Option (Nat × Nat) :=
    match t.status with | .zoneWait none code => if m.unreachable (code / 64) then some (code % 32, code / 64) else none | _ => none
  m.wgs.foldl (fun (m : Mach) e =>
    match e.2.threads.findSome? lost with
    | none => m
    | some (_, dev) =>
      (m.logErr clk e.2.vf 8 4 0 (e.1 / 64) 0 (m.firstPort dev)).modWg (e.1 / 64) (e.1 % 64) (fun w =>
        { w with threads := w.threads.map (fun t => match lost t with
          | some (kd, _) => ({ t with status := .ready }.setK kd (BitVec.ofNat 64 (zstatus 4 0))).advance 8
          | none => t) })) m
/-- PORT_DOWN: after 16 failed retries, or 10 µs without delivery. -/
def execPortDown (port : Nat) (s : State) : Host.Outcome State Fault Refusal :=
  s.event (fun clk m =>
    if 144 ≤ port || m.portsDown.contains port then none
    else
      let m : Mach := { m with portsDown := sortBy id (port :: m.portsDown), portTries := sset 0 m.portTries port 0 }
      some ((((m.tearPort clk port).breakUnreachable clk).endAsks clk).electTime.postHost 128 2 (leBytes 1 0 ++ leBytes 1 port)))
/-- PORT_UP: retraining has succeeded. -/
def execPortUp (port : Nat) (s : State) : Host.Outcome State Fault Refusal :=
  s.event (fun _ m =>
    if m.portsDown.contains port then some ({ m with portsDown := m.portsDown.filter (· ≠ port) } : Mach).electTime else none)

/-! ## Remote accesses (R427) -/

/-- The rights a request needs, and its bytes. -/
def RemoteOp.needs : RemoteOp → List Access × Nat
  | .read n => ([.read], n)
  | .write d => ([.write], d.length)
  | .atomic _ t _ => ([.read, .write], tyBytes t)
/-- REMOTE_ACCESS_REQUEST: checked under this device's tables for a function of a tenant domain, performed at L2, and answered: 0 with
the bytes read, 1 refused, 2 no translation, 3 an uncorrectable error. -/
def execRemoteAccessRequest (dev vf va : Nat) (op : RemoteOp) (s : State) : Host.Outcome State Fault Refusal :=
  s.always (fun _ m =>
    let reply (m : Mach) (st : Nat) (bs : List Byte) : Mach := m.send dev (leBytes 1 16 ++ leBytes 1 st ++ bs)
    let (ks, n) := RemoteOp.needs op
    if (m.fn vf).domain.isNone then reply m 1 []
    else
      match m.fwAccess vf va n ks with
      | .missing .. => reply m 2 []
      | .failed => reply m (if (m.fwAccess vf va n (ks.filter (· ≠ .read))) = .failed then 1 else 3) []
      | .ok ps =>
        let m := ps.foldl (fun (m : Mach) p => match p.tr with
          | .ok pa _ => (linesOf pa p.n).foldl (fun (m : Mach) l =>
              let k := accessKey (l / 512) (16 + dev)
              { m with access := tset m.access k ((tget m.access k).getD 0 + 1) }) m
          | _ => m) m
        match op with
        | .read _ => let (bs, m) := m.bulkRead ioDie ps; reply m 0 bs
        | .write d => reply (m.bulkWrite ioDie ps d) 0 []
        | .atomic o t v =>
          let (bs, m) := m.bulkRead ioDie ps
          reply (m.bulkWrite ioDie ps (leBytes n (atomStep o t (leNat bs) v))) 0 bs)

end Sys2Proof.Machine
end

