-- ==== Sys2Proof/Machine/Tenants.lean ====
section
/-! DEFINITION. The physical function's commands (R446, R448, R423, R429), assigning and resetting a function (R444, R452, R453), and the
device's own reset (R421, R451). -/
namespace Sys2Proof.Machine

/-! ## Settings -/

/-- SET_WEIGHT. -/
def execSetWeight (c : Cmd) (weight : Nat) (s : State) : Host.Outcome State Fault Refusal :=
  s.pfCmd c 0x10 (fun _ m =>
    if weight = 0 ∨ 255 < weight then m.finish c 0x10 1 0 else (m.modFn c.target (fun f => { f with weight })).finish c 0x10 0 0)
/-- SET_FRAMES (R448). -/
def execSetFrames (c : Cmd) (g b backing size : Nat) (s : State) : Host.Outcome State Fault Refusal :=
  s.pfCmd c 0x11 (fun _ m =>
    let others := ((m.fns.filter (fun e => e.1 ≠ c.target)).map (fun e => e.2.g)).foldl (· + ·) 0
    if frameCount - firstShared < others + g ∨ frameCount - firstShared < g + b then m.finish c 0x11 5 0
    else (m.modFn c.target (fun f => { f with g, b, backing, backingSize := size })).finish c 0x11 0 0)
/-- SET_QUEUES: a size of 0 leaves the size as it is; sizes hold from the next assign on (R171, R376). -/
def execSetQueues (c : Cmd) (rk fk elog : Nat) (s : State) : Host.Outcome State Fault Refusal :=
  s.pfCmd c 0x12 (fun _ m =>
    if (rk ≠ 0 ∧ (rk < 10 ∨ 24 < rk)) ∨ (fk ≠ 0 ∧ (fk < 8 ∨ 16 < fk)) then m.finish c 0x12 1 0
    else
      (m.modFn c.target (fun f =>
        let f := { f with elog := BitVec.ofNat 80 elog }
        if f.state = 1 then f
        else { f with qk := if rk = 0 then f.qk else List.replicate 4 rk, fk := if fk = 0 then f.fk else fk })).finish c 0x12 0 0)
/-- JOIN_DOMAIN. -/
def execJoinDomain (c : Cmd) (domain : Nat) (s : State) : Host.Outcome State Fault Refusal :=
  s.pfCmd c 0x13 (fun _ m => (m.modFn c.target (fun f => { f with domain := some (domain % 2 ^ 32) })).finish c 0x13 0 0)
/-- SET_ROUTE: a port of 144 or more leaves its path unset. -/
def execSetRoute (c : Cmd) (peer : Nat) (ports : List Nat) (s : State) : Host.Outcome State Fault Refusal :=
  s.devCmd c 0x14 (fun clk m =>
    if 2047 < peer ∨ peer = m.devnum ∨ ports.length ≠ 4 then m.finish c 0x14 1 0
    else
      let m : Mach := { m with routes := tset m.routes peer ports }
      ((m.breakUnreachable clk).endAsks clk).electTime.finish c 0x14 0 0)

/-! ## Assign (R171, R209, R376, R444) -/

/-- The root tables lie in firmware's lowest frame, 256 bytes each (log 14). -/
def rootAt (vf : Nat) : Nat := vf * 256
/-- ASSIGN: a ready function becomes active, with an empty root table and its queues. -/
def execAssign (c : Cmd) (s : State) : Host.Outcome State Fault Refusal :=
  s.pfCmd c 0x17 (fun _ m =>
    let vf := c.target
    let f := m.fn vf
    if f.state ≠ 3 then m.finish c 0x17 5 0
    else
      let sizes := (f.qk.mapIdx (fun i k => (i, 2 ^ k * 64))) ++ [(4, 2 ^ f.fk * 64)]
      let take := sizes.foldl (fun (r : Option (Sparse (List Nat) × Mach)) e =>
        r.bind (fun r => (r.2.takePages vf ((e.2 + 65535) / 65536)).map (fun q => (tset r.1 e.1 q.1, q.2)))) (some ([], m))
      match take with
      | none => m.finish c 0x17 4 0
      | some (rings, m) =>
        let m : Mach := { m with mem := Memory.writeL m.mem (rootAt vf) (List.replicate 256 0) }
        (m.modFn vf (fun f => { f with state := 1, root := rootAt vf, ringPages := rings, invSeq := 0, scrubbed := f.scrubbed })).finish c 0x17 0 0)

/-! ## Reset (R452, R453) -/

/-- RESET: steps 1 and 2; the rest follows as the function's work settles (`Mach.advanceReset`). A second reset of a function that is
resetting is refused. -/
def execReset (c : Cmd) (s : State) : Host.Outcome State Fault Refusal :=
  s.pfCmd c 0x18 (fun _ m =>
    let vf := c.target
    if (m.fn vf).state = 2 then m.finish c 0x18 3 0
    else
      let m := (m.fn vf).launches.foldl (fun (m : Mach) l => m.killLaunch vf l.id) m
      let ended := (match (m.fn vf).walker with | some w => [w.cmd] | none => []) ++ (m.fn vf).runs.map (·.1)
      let m := m.modFn vf (fun f => { f with
        state := 2, resetCmd := some c, scrubbed := false, fencedNow := 0, walker := none, runs := [],
        launches := f.launches.map (fun l => { l with silent := true }) })
      ended.foldl (fun (m : Mach) c => m.finish c 0x01 3 0) m)
/-- Nothing of the function is held by a core, an engine, the loader or the hub (step 3). -/
def Mach.quiet (m : Mach) (vf : Nat) : Bool :=
  let f := m.fn vf
  !m.wgs.any (fun e => e.2.vf == vf) && f.launches.isEmpty && f.images.isEmpty && f.loads.isEmpty && f.preempts.isEmpty &&
  !m.installs.any (fun i => i.vf == vf) && !m.hub.any (fun r => r.vf == vf)
/-- A core as the scrub leaves it: everything of the tenant is gone, and no line is written back. -/
def Core.scrubbed (c : Core) : Core := { lastWarp := c.lastWarp, grantCycle := c.grantCycle, granted := c.granted, cycle0 := c.cycle0, fenced := c.fenced, errors := c.errors }
/-- What the scrub leaves of a function. -/
def Fn.scrubbedFn (f : Fn) : Fn :=
  { state := f.state, regs := f.regs, cmds := f.cmds, compl := f.compl, zdir := f.zdir.map (fun e => (e.1, { e.2 with taken := false })),
    weight := f.weight, g := f.g, b := f.b, backing := f.backing, backingSize := f.backingSize, domain := f.domain,
    resetCmd := f.resetCmd, scrubbed := true, ownedCores := f.ownedCores, fencedNow := 0 }
/-- Step 4, the scrub of R453, on the cores that have not passed to another function meanwhile; the function's images leave the cache's masks (R463). -/
def Mach.scrub (m : Mach) (vf : Nat) : Mach :=
  let f := m.fn vf
  let mine (pa : Nat) : Bool := f.held.contains (pa / 2 ^ 25)
  let m : Mach := { m with
    cores := m.cores.map (fun (c : Nat × Core) =>
      if f.ownedCores.contains c.1 ∧ c.2.planesOf = some vf then (c.1, c.2.scrubbed) else (c.1, { c.2 with l1 := c.2.l1.filter (fun l => !mine (l.1 * 128)) })),
    mem := m.mem.filter (fun c => !mine c.1), poison := m.poison.filter (fun l => !mine (l * 128)),
    frameOf := m.frameOf.filter (fun e => e.2 ≠ vf),
    images := (m.images.map (fun (i : TrImage) => { i with mask := i.mask - bit (i.mask.testBit vf) * 2 ^ vf })).filter (fun i => i.mask ≠ 0) }
  m.setFn vf f.scrubbedFn
/-- The last step: the function is ready, and the command completes with the number of cores fenced. -/
def Mach.endReset (m : Mach) (vf : Nat) : Mach :=
  let f := m.fn vf
  let m := m.setFn vf { f with state := 3, resetCmd := none, ownedCores := [], fencedNow := 0 }
  match f.resetCmd with | some c => m.finish c 0x18 0 f.fencedNow | none => m
/-- Steps 3 to 6 as far as they go now: once the function is quiet, the scrub, re-attestation and the start of the health test. -/
def Mach.advanceReset (m : Mach) (vf : Nat) : Mach :=
  let f := m.fn vf
  if f.state ≠ 2 || f.resetCmd.isNone || f.scrubbed || !m.quiet vf then m
  else
    let m := m.scrub vf
    let ok := Config.reattests m.fresh
    let m : Mach := { m with fresh := m.fresh + 1 }
    if !ok then ({ m with lastTestOk := false } : Mach).postHost vf 2 [] |>.modFn vf (fun f => { f with resetCmd := none })
    else
      let m := m.modFn vf (fun f => { f with testing := f.ownedCores })
      if f.ownedCores.isEmpty then { m with lastTestOk := true }.endReset vf else m
/-- HEALTH_TEST_COMPLETE: one core's test ends; a core that fails is fenced (R388). -/
def execHealthTestComplete (core : Nat) (passed : Bool) (s : State) : Host.Outcome State Fault Refusal :=
  s.event (fun clk m => do
    let (vf, f) ← (if (m.wgsOf core).isEmpty then m.fns.find? (fun e => e.2.testing.contains core) else none)
    let m := m.setFn vf { f with testing := f.testing.filter (· ≠ core), fencedNow := f.fencedNow + bit (!passed) }
    let m := if passed then m else m.fenceCore clk core 1
    some (if f.testing = [core] then ({ m with lastTestOk := decide (f.fencedNow + bit (!passed) = 0) } : Mach).endReset vf else m))
/-- Resets and graph runs go on as far as they can. -/
def Mach.advanceFns (m : Mach) : Mach :=
  let m : Mach := { m with fns := m.fns.map (fun (e : Nat × Fn) => (e.1, e.2.startRun)) }
  m.fns.foldl (fun (m : Mach) e => m.advanceReset e.1) m

/-! ## The device (R421, R451) -/

/-- FUSED_MINIMUM_RAISE: the fused minimum rises only, by a command that firmware's key has signed. -/
def execFusedMinimumRaise (version : Nat) (signatureOk : Bool) (s : State) : Host.Outcome State Fault Refusal :=
  s.always (fun _ m => if signatureOk then { m with fusedMin := max m.fusedMin version } else m)
/-- The boot ROM's checks (R451). -/
def bootOk (m : Mach) : Bool := Config.fwSignatureOk && decide (m.fusedMin ≤ Config.fwSecver)
/-- DEVICE_RESET: every unit is idle and the counters read 0; fuses and host memory stay. A failed check leaves every function
unassigned, and the physical function reports it. -/
def execDeviceReset (s : State) : Host.Outcome State Fault Refusal :=
  let ok := bootOk s.m
  let m : Mach := { host := s.m.host, fusedMin := s.m.fusedMin, fresh := s.m.fresh, fwRunning := ok }
  .next { clk := {}, agenda := s.agenda,
          m := if ok then m
               else { m with fns := (upFrom 0 128).map (fun i => (i, { state := 0 })), hostOut := [(128, 2, [BitVec.ofNat 8 1])] } }

end Sys2Proof.Machine
end

