-- ==== Sys2Proof/Machine/Issue.lean ====
section
/-! DEFINITION. The issue stage (R153 to R162, R189): waits that end, runs and their eligibility, slots, the streak rescue, fusion,
what a run's threads do before their instruction executes, and issue past a fault (R373). -/
namespace Sys2Proof.Machine

/-! ## Waits that end (R153) -/

/-- What a waiting thread waits for has come: its instruction executes again (log 27). Events and other instructions end the waits
that are never over here. -/
def Mach.waitOver (m : Mach) (clk : Clock) (core slot : Nat) (w : Wg) (t : Thread) : Wait → Bool
  | .tbar off gen => (m.barWord core slot off).reached gen
  | .stage r producer =>
    let x := w.rings.getD r {}
    let free := if producer then !Ring.bit x.full x.ip && !Ring.bit x.heldP x.ip else Ring.bit x.full x.ic && !Ring.bit x.heldC x.ic
    let earlier (y : Thread) : Bool := match y.since, t.since with | some a, some b => decide (a.1 < b.1) | _, _ => false
    free && !w.threads.any (fun y => y.status == t.status && earlier y)
  | .tile n => !(w.tile n).busy || (w.tile n).trap.isSome
  | .rotation n _ => m.blockGone w.vf w.launch w.g || !(w.tile n).turns
  | .acc a =>
    let before (seq : Nat) : Bool := match t.since with | some (n, _) => decide (seq ≤ n) | none => true
    let c := m.core core
    !c.mats.any (fun i => i.slot == slot && (a.isNone || i.acc? == a) && before i.seq) &&
    !(a.isNone && c.epis.any (fun e => e.slot == slot && before e.seq))
  | .operands => !(m.core core).vPending w slot t.warp
  | .zone z phase =>
    if z < 8 then
      let zn := w.zones.getD z {}
      !zn.open_ || zn.phase == phase
    else (m.zReserve clk (z - 8) { dev := m.devnum, vf := w.vf, header := w.hdr.addr, group := w.g }).1.1 != 1
  | .monitor | .chan .. | .fsFence .. | .faultQueue _ | .fault _ | .held => false
/-- The threads whose wait is over are ready. -/
def Mach.wakeWaits (m : Mach) (clk : Clock) : Mach :=
  { m with wgs := m.wgs.map (fun (e : Nat × Wg) => (e.1, { e.2 with threads := e.2.threads.map (fun t =>
      match t.status with
      | .waiting x => if m.waitOver clk (e.1 / 64) (e.1 % 64) e.2 t x then { t with status := .ready } else t
      | _ => t) })) }

/-! ## Runs (R154, R155, R189) -/

/-- Threads of a workgroup that share one PC and issue together. -/
structure IRun where
  pc : Addr
  threads : List Nat
  deriving DecidableEq, Repr
/-- The fused group a warp is in. -/
def Wg.fusedOf (w : Wg) (warp : Nat) : Option Fused := w.fused.find? (fun f => f.w == warp || f.x == warp)
/-- The runs of a warp by ascending PC: its non-waiting threads, and those fused with them. -/
def Wg.runs (w : Wg) (warp : Nat) : List IRun :=
  let mates := match w.fusedOf warp with | some f => f.threads | none => []
  let mine := (upFrom 0 w.threads.length).filter (fun i =>
    (w.thread i).status == .ready && ((w.thread i).warp == warp || mates.contains i))
  (sortBy BitVec.toNat ((mine.map (fun i => (w.thread i).pc)).eraseDups)).map (fun pc =>
    { pc, threads := mine.filter (fun i => (w.thread i).pc == pc) })
/-- The instruction at a PC. -/
def Mach.instrAt (m : Mach) (core vf : Nat) (pc : Addr) : Option Instr :=
  match m.fetchInstr core vf pc with | (.ok w ext, _) => decode? w ext | _ => none
/-- A workgroup that may issue: not leaving, not ending, its gang started, its first cycle reached (R166, R390, R426). -/
def Wg.mayIssue (w : Wg) (clk : Clock) : Bool := w.leaving == 0 && !w.ending && !w.waitingGang && decide (w.notBefore ≤ clk.time) && decide (w.readyAt ≤ clk.cycle)
/-- The eligible runs in the order IssueSlot takes them: runs all of whose threads hold the yield mark come last (R189). -/
def Mach.eligible (m : Mach) (core slot : Nat) (w : Wg) (warp : Nat) : List IRun :=
  let rs := (w.runs warp).filter (fun r => m.sourcesReady core slot w r.threads (m.instrAt core w.vf r.pc))
  let marked (r : IRun) : Bool := r.threads.all (fun i => (w.thread i).yieldMark)
  rs.filter (fun r => !marked r) ++ rs.filter marked

/-! ## Slots (R155) -/

/-- Warps that used the slots a core has granted in this cycle, a list for each slot. -/
def Core.used (c : Core) (clk : Clock) : List (List Nat) := if c.grantCycle = clk.cycle then c.granted else []
/-- Number on the core of a warp of a workgroup. -/
def Wg.num (w : Wg) (warp : Nat) : Nat := (w.warps.getD warp {}).num
/-- Warps of a core that have an eligible run, the head of which no warp of `used` has issued already: slot of the workgroup, warp,
number on the core. -/
def Mach.warpsBut (m : Mach) (clk : Clock) (core : Nat) (used : List Nat) : List (Nat × Nat × Nat) :=
  (m.wgsOf core).flatMap (fun e =>
    if e.2.mayIssue clk then
      ((upFrom 0 e.2.warps.length).filter (fun x =>
        !used.contains (e.2.num x) &&
        (match m.eligible core e.1 e.2 x with
          | [] => false
          | h :: _ => match e.2.fusedOf x with
            | some f => !(h.threads.any f.threads.contains && (used.contains (e.2.num f.w) || used.contains (e.2.num f.x)))
            | none => true))).map (fun x => (e.1, x, e.2.num x))
    else [])
/-- Warps of a core that can take its next slot. -/
def Mach.warpsFor (m : Mach) (clk : Clock) (core : Nat) : List (Nat × Nat × Nat) := m.warpsBut clk core ((m.core core).used clk).flatten
/-- Place of a warp in the rotation: 0 for the one after the last warp granted. -/
def Core.place (c : Core) (num : Nat) : Nat := (num + 127 - c.lastWarp) % 64
/-- The warp a core's next slot goes to: two slots a cycle, in rotation from the warp after the last one granted, a warp that the rotation
passed over for its mate's issue coming first (log 97). -/
def Mach.nextWarp (m : Mach) (clk : Clock) (core : Nat) : Option (Nat × Nat × Nat) :=
  let c := m.core core
  if 2 ≤ (c.used clk).length then none
  else
    let ws := m.warpsFor clk core
    match ws.find? (fun e => some e.2.2 == c.passed) with
    | some e => some e
    | none => leastBy (fun e => c.place e.2.2) ws
/-- The core, workgroup slot and warp that issue next in this cycle. -/
def Mach.nextIssue (m : Mach) (clk : Clock) : Option (Nat × Nat × Nat) :=
  ((m.wgs.map (fun e => e.1 / 64)).eraseDups).findSome? (fun core => (m.nextWarp clk core).map (fun e => (core, e.1, e.2.1)))
/-- A warp that an issue of its mate in this cycle keeps from the slot, though the rotation comes to it before `num`. -/
def Mach.passedBy (m : Mach) (clk : Clock) (core num : Nat) : Option Nat :=
  let c := m.core core
  let mates := ((c.used clk).map (·.drop 1)).flatten
  ((leastBy (fun e => c.place e.2.2) ((m.warpsBut clk core []).filter (fun e =>
    mates.contains e.2.2 && decide (c.place e.2.2 < c.place num)))).map (·.2.2))
/-- A slot is granted to a warp, and used by these warps of the workgroup, the granted one first. The slot of a warp that was passed over
leaves the rotation where it stands. -/
def Mach.noteGrant (m : Mach) (clk : Clock) (core : Nat) (w : Wg) (warp : Nat) (warps : List Nat) : Mach :=
  let num := w.num warp
  let late := (m.core core).passed == some num
  let passed := if late then none else m.passedBy clk core num
  m.modCore core (fun c =>
    { c with lastWarp := if late then c.lastWarp else num, passed, grantCycle := clk.cycle, granted := c.used clk ++ [warps.map w.num] })

/-! ## Fusion (R158, R159) -/

/-- TryFuse: the warp that joins a run of `warp`, with its head run. -/
def Mach.fuseMate (m : Mach) (clk : Clock) (core slot : Nat) (w : Wg) (warp : Nat) (h : IRun) : Option (Nat × IRun) :=
  let used := ((m.core core).used clk).flatten
  (upFrom 0 w.warps.length).findSome? (fun x =>
    if x = warp || w.role x ≠ w.role warp || (w.fusedOf x).isSome || used.contains (w.num x) then none
    else
      match m.eligible core slot w x with
      | h' :: _ => if h'.pc = h.pc ∧ h.threads.length + h'.threads.length ≤ 32 then some (x, h') else none
      | [] => none)
def Wg.setWarp (w : Wg) (warp : Nat) (f : Warp → Warp) : Wg := { w with warps := w.warps.mapIdx (fun i x => if i = warp then f x else x) }
/-- A warp's streak after an issue slot in which its head run issued (R155). -/
def Mach.streakOf (m : Mach) (core slot : Nat) (w : Wg) (warp : Nat) : Nat :=
  if 2 ≤ (m.eligible core slot w warp).length then (w.warps.getD warp {}).streak + 1 else 0
/-- The run a slot granted to `warp` issues, once `h` is chosen: a fused group whose PC another non-waiting thread of its warps holds
separates first; an unfused run may fuse (`fuse`). An issue of a fused group counts as an issue slot of its other warp too (R158). -/
def Mach.selectRun (m : Mach) (clk : Clock) (core slot : Nat) (w : Wg) (warp : Nat) (h : IRun) (fuse : Bool) : Mach × List Nat :=
  let both (w' : Wg) (x : Nat) : Mach :=
    (m.setWg core slot (w'.setWarp x (fun y => { y with streak := m.streakOf core slot w x }))).noteGrant clk core w warp [warp, x]
  match w.fusedOf warp with
  | some f =>
    if !h.threads.any f.threads.contains then (m.noteGrant clk core w warp [warp], h.threads)
    else
      let other (i : Nat) : Bool :=
        let t := w.thread i
        t.status == .ready && t.pc == h.pc && (t.warp == f.w || t.warp == f.x) && !f.threads.contains i
      if (upFrom 0 w.threads.length).any other then
        ((m.setWg core slot { w with fused := w.fused.filter (· ≠ f) }).noteGrant clk core w warp [warp],
          h.threads.filter (fun i => (w.thread i).warp == warp))
      else (both w (if f.w = warp then f.x else f.w), h.threads)
  | none =>
    match (if fuse then m.fuseMate clk core slot w warp h else none) with
    | none => (m.noteGrant clk core w warp [warp], h.threads)
    | some (x, h') =>
      let ts := sortBy id (h.threads ++ h'.threads)
      (both { w with fused := w.fused ++ [{ w := warp, x, threads := ts }] } x, ts)

/-! ## IssueSlot -/

/-- The streak of a warp calls for a rescue (R155). -/
def Mach.rescueDue (m : Mach) (core slot : Nat) (w : Wg) (warp : Nat) : Bool :=
  decide (4096 ≤ (w.warps.getD warp {}).streak) && decide (2 ≤ (m.eligible core slot w warp).length)
/-- IssueSlot without a rescue: the head run, and the streaks. -/
def Mach.headSlot (m : Mach) (clk : Clock) (core slot : Nat) (w : Wg) (warp : Nat) : Option (Mach × List Nat) :=
  match m.eligible core slot w warp with
  | [] => none
  | h :: _ =>
    let w' := w.setWarp warp (fun x => { x with streak := m.streakOf core slot w warp })
    some ((m.setWg core slot w').selectRun clk core slot w' warp h true)
/-- The run a rescue chooses: the first after the head whose PC lies above the mark, else the second (R155). -/
def rescueRun (mark : Nat) : List IRun → Option IRun
  | _ :: rest => match rest.find? (fun r => decide (mark < r.pc.toNat)) with | some r => some r | none => rest.head?
  | [] => none
/-- STREAK_RESCUE: the core's next slot goes to the warp, and the run chosen is the one that issues in it, next (`Mach.pick`). -/
def execStreakRescue (core warp : Nat) (s : State) : Host.Outcome State Fault Refusal :=
  s.event (fun clk m => do
    let (slot, x, n) ← m.nextWarp clk core
    let w ← m.wg? core slot
    if n ≠ warp || !m.rescueDue core slot w x then none
    else
      let h ← rescueRun (w.warps.getD x {}).mark (m.eligible core slot w x)
      let w := w.setWarp x (fun y => { y with mark := h.pc.toNat, streak := 0 })
      let (m, ts) := (m.setWg core slot w).selectRun clk core slot w x h false
      some { m with pick := some (core, slot, ts) })

/-! ## Issue past a fault (R373) -/

/-- What a faulted M word writes: v registers as (first, count), k registers, a registers. -/
def memWrites : Instr → List (Nat × Nat) × List Nat × List Nat
  | .ld t m | .atom _ t m | .atomf _ t m | .atomord _ t m | .atomcas t m => ([(m.data, t.regs)], [], [])
  | .ldw t m => ([(m.data, if t.is64 then 8 else 4)], [], [])
  | .ldk _ m => ([], [m.data], [])
  | .lda m => ([], [], [m.data])
  | _ => ([], [], [])
/-- The S words a word executes: itself, or the halves of a pair; none for any other word, and for `fpack` and `funpack`. -/
def sWords (i : Instr) : List Instr :=
  match i with
  | .pairWord f => (match pairHalves f with | some (k, v) => [k, v] | none => [])
  | i => if (regOpOf i).isSome then [i] else []
/-- An S word names a register that an M word writes. -/
def namesWritten (mem i : Instr) : Bool :=
  let (vs, ks, as) := memWrites mem
  (vspans i).any (fun x => vs.any (spansMeet x)) || (kaNamed i).1.any ks.contains || (kaNamed i).2.any as.contains
/-- Registers one lane's result writes, as (bank, register): 0 v, 1 k, 2 a, 3 p. -/
def LaneUpd.regs (u : LaneUpd) : List (Nat × Nat) :=
  u.v.map (fun x => (0, x.1)) ++ u.k.map (fun x => (1, x.1)) ++ u.a.map (fun x => (2, x.1)) ++ u.p.map (fun x => (3, x.1))
/-- A register's value. -/
def Thread.regValue (t : Thread) (bank r : Nat) : Nat :=
  match bank with
  | 0 => (t.getV r).toNat
  | 1 => (t.getK r).toNat
  | 2 => (t.getA r).toNat
  | _ => bit (t.getP r)
/-- What the S words of `is` write in a thread, of the active threads `act`. -/
def Wg.writesOf (w : Wg) (act : List Nat) (i : Nat) (is : List Instr) : List (Nat × Nat) :=
  if !act.contains i then []
  else
    let lanes : List Lane := act.map (fun j => (j, w.thread j))
    is.flatMap (fun x => match regOpOf x with | some op => (op.upd lanes (i, w.thread i)).regs | none => [])
/-- The v registers an instruction names, a pair's halves included, lie below the allocation (R9, R45 check 5). -/
def Wg.inAlloc (w : Wg) (i : Instr) : Bool :=
  let spans := match i with
    | .pairWord f => (match pairHalves f with | some (k, v) => vspans k ++ vspans v | none => [])
    | i => vspans i
  spans.all (fun s => decide (s.1 + s.2 ≤ w.alloc))
/-- An S or P word that can neither trap nor touch a channel. -/
def Wg.quiet (w : Wg) (i : Instr) : Bool :=
  w.inAlloc i && (sWords i).all (fun x => match regOpOf x with
    | some op => (w.mappedTo true op.src).isEmpty && (w.mappedTo false op.dst).isEmpty
    | none => false)
/-- A faulted thread may go on with the instruction (R373). One that would trap waits for the faulted instruction to complete (R15), and
so does one that names a mapped register (R271). -/
def FaultRec.lets (r : FaultRec) (w : Wg) (thread : Nat) (i : Option Instr) (ws : List (Nat × Nat)) : Bool :=
  match i with
  | none => false
  | some i =>
    let is := sWords i
    !is.isEmpty && w.quiet i && decide ((r.undo.filter (·.1 == thread)).length + ws.length ≤ 8) &&
    (match decode? r.w r.ext with | some mem => !is.any (namesWritten mem) | none => false)
/-- Faulted threads of a run: those that may not go on park; for the others the log saves what the instruction overwrites. -/
def Mach.passFaults (m : Mach) (core slot : Nat) (ts : List Nat) (i : Option Instr) : Mach × List Nat :=
  match m.wg? core slot with
  | none => (m, ts)
  | some w =>
    let act := ts.filter (fun t => (w.thread t).guard)
    let is := match i with | some i => sWords i | none => []
    let recs := (m.core core).faults.filter (fun r => r.slot == slot && r.log.isSome)
    let mine := ts.filterMap (fun t => (recs.find? (fun r => r.threads.contains t)).map (fun r => (t, r)))
    let stop := mine.filter (fun e => !mine.all (fun x => x.2.id ≠ e.2.id || x.2.lets w x.1 i (w.writesOf act x.1 is)))
    let go := mine.filter (fun e => !stop.contains e)
    let m := m.setWg core slot ((stop.foldl (fun (w : Wg) e => w.modThreads [e.1] (fun t => { t with status := .parked e.2.id })) w).unfuse
      (stop.map (·.1)))
    let m := m.modCore core (fun c => { c with faults := c.faults.map (fun r =>
      let here := (go.filter (fun e => e.2.id == r.id)).map (fun e => (e.1, w.writesOf act e.1 is))
      let undo := here.flatMap (fun e => e.2.map (fun x => (e.1, x.1, x.2, (w.thread e.1).regValue x.1 x.2)))
      { r with undo := undo.reverse ++ r.undo }) })
    (m, ts.filter (fun t => !stop.any (fun e => e.1 == t)))

/-! ## The instruction of an issue group (R14, R45, R156) -/

/-- The workgroup of a fetch that found no translation leaves its core, with its block (R377). -/
def Mach.fetchMissing (m : Mach) (core slot : Nat) (w : Wg) (ts : List Nat) (va : Nat) : Mach :=
  let m := m.evict (fun c k _ => c == core && k == slot)
  m.setWg core slot { w with leaving := 2, fetchAt := some (ts, va) }
/-- The instruction writes a v register of its warp (R303). -/
def writesV (i : Instr) : Bool :=
  match i with
  | .ld .. | .ldw .. | .lds .. | .ldsw .. | .atom .. | .atomcas .. | .atomf .. | .atomord .. | .atoms .. | .accRd .. | .chRecv ..
  | .chTryRecv .. | .wid .. | .fpack .. | .funpack .. => true
  | .srd form _ _ => form < 2
  | .voteBallot .. | .matchLanes .. | .kbcast .. => true
  | i => (sWords i).any (fun x => match regOpOf x with | some op => !op.dst.isEmpty || !(op.upd [] (0, {})).v.isEmpty | none => false)
/-- A fetch for these threads that answers no word: the workgroup leaves, or they trap (R377, R378). DESIGN CHOICE (log 94): a fetch trap says of no
extension word that the instruction has one. DEDUCED (log 96): X withdrawn is cause 0x05 at once, as R377 has it, and not the fault of R240. -/
def Mach.fetchFailed (m : Mach) (clk : Clock) (core slot : Nat) (w : Wg) (ts : List Nat) : FetchInstr → Mach
  | .missing va => m.fetchMissing core slot w ts va
  | .refused va cause =>
    let lane := (ts.map (fun i => (w.thread i).lane)).foldl min 31
    m.takeTrap clk core slot ts cause (if cause = 4 then lane + 256 * 6 else lane) (BitVec.ofNat 80 va) false
  | .poisoned a => m.consume clk core slot a (fun m => m.takeTrap clk core slot ts 12 4 (BitVec.ofNat 80 a) false)
  | .ok .. => m
/-- The fetch that keeps a thread from re-entering the block at its prefix: a slot before the one it goes on at (R35). -/
def Mach.blockFetch (m : Mach) (core vf : Nat) (t : Thread) : Option FetchInstr :=
  match t.reenter with
  | none => none
  | some (n, slot, _) => (match m.slotWalk core vf (t.pc + 8) (slotsPassed n slot) with | .error e => some e | .ok _ => none)
/-- The threads issue at their PC: their instruction is fetched and decoded, and stands as the issue group. None: a fetch fault, a trap,
or no thread left to issue. -/
def Mach.beginIssue (m : Mach) (clk : Clock) (core slot : Nat) (ts : List Nat) : Mach × Option Instr :=
  match m.wg? core slot, ts with
  | none, _ | _, [] => (m, none)
  | some w, t0 :: _ =>
    let pc := (w.thread t0).pc
    match m.fetchInstr core w.vf pc with
    | (.ok word ext, m) =>
      let i := decode? word ext
      match m.passFaults core slot ts i with
      | (m, []) => (m, none)
      | (m, ts) =>
        let isBlock := match i with | some (.pblk ..) => true | _ => false
        match if isBlock then ts.findSome? (fun t => m.blockFetch core w.vf (w.thread t)) else none with
        | some e => (m.fetchFailed clk core slot w (ts.filter (fun t => m.blockFetch core w.vf (w.thread t) == some e)) e, none)
        | none =>
          let m := m.modWg core slot (fun w => w.modThreads ts (fun t =>
            { t with yieldMark := false, reenter := if isBlock then t.reenter else none }))
          let act := ts.filter (fun t => (w.thread t).guard)
          match i with
          | none =>
            let long := match decodeWord word ext with | .error .noExtension => false | _ => ext.isSome
            (m.takeTrap clk core slot ts 1 0 pc long, none)
          | some i =>
            if !w.inAlloc i then (m.takeTrap clk core slot ts 1 0 pc ext.isSome, none)
            else
              let m := if writesV i then
                  let warps := (act.map (fun t => (w.thread t).warp)).eraseDups
                  m.modWg core slot (fun w => warps.foldl (fun w x => w.setWarp x (fun y => { y with opReady := false })) w)
                else m
              ({ m with ig := some { core, slot, threads := ts, pc, w := word, ext } }, some i)
    | (e, m) => (m.fetchFailed clk core slot w ts e, none)

end Sys2Proof.Machine
end

