-- ==== Sys2Proof/Machine/Dispatch.lean ====
section
/-! DEFINITION. One arm per instruction: the meaning it calls. -/
namespace Sys2Proof.Machine

/-- The meaning of every instruction, event and command. -/
def exec (i : Instr) (s : State) : Host.Outcome State Fault Refusal :=
  match i with
  | .add t d a b => Sys2Proof.Machine.execAdd t d a b s
  | .sub t d a b => Sys2Proof.Machine.execSub t d a b s
  | .mul t d a b => Sys2Proof.Machine.execMul t d a b s
  | .mulhi t d a b => Sys2Proof.Machine.execMulhi t d a b s
  | .mad t d a b c => Sys2Proof.Machine.execMad t d a b c s
  | .div t d a b => Sys2Proof.Machine.execDiv t d a b s
  | .rem t d a b => Sys2Proof.Machine.execRem t d a b s
  | .abs t d a => Sys2Proof.Machine.execAbs t d a s
  | .min t d a b => Sys2Proof.Machine.execMin t d a b s
  | .max t d a b => Sys2Proof.Machine.execMax t d a b s
  | .and t d a b => Sys2Proof.Machine.execAnd t d a b s
  | .or t d a b => Sys2Proof.Machine.execOr t d a b s
  | .xor t d a b => Sys2Proof.Machine.execXor t d a b s
  | .andn t d a b => Sys2Proof.Machine.execAndn t d a b s
  | .shl t d a b => Sys2Proof.Machine.execShl t d a b s
  | .shr t d a b => Sys2Proof.Machine.execShr t d a b s
  | .sar t d a b => Sys2Proof.Machine.execSar t d a b s
  | .rotl t d a b => Sys2Proof.Machine.execRotl t d a b s
  | .clz t d a => Sys2Proof.Machine.execClz t d a s
  | .popc t d a => Sys2Proof.Machine.execPopc t d a s
  | .brev t d a => Sys2Proof.Machine.execBrev t d a s
  | .bfx t d a pos len => Sys2Proof.Machine.execBfx t d a pos len s
  | .bfi t d a b c => Sys2Proof.Machine.execBfi t d a b c s
  | .sel t d a b p => Sys2Proof.Machine.execSel t d a b p s
  | .cmp t c d a b x => Sys2Proof.Machine.execCmp t c d a b x s
  | .mov t d a neg => Sys2Proof.Machine.execMov t d a neg s
  | .movi t d b => Sys2Proof.Machine.execMovi t d b s
  | .fadd t d a b rm => Sys2Proof.Machine.execFadd t d a b rm s
  | .fsub t d a b rm => Sys2Proof.Machine.execFsub t d a b rm s
  | .fmul t d a b rm => Sys2Proof.Machine.execFmul t d a b rm s
  | .ffma t d a b c rm => Sys2Proof.Machine.execFfma t d a b c rm s
  | .fmin t d a b nan => Sys2Proof.Machine.execFmin t d a b nan s
  | .fmax t d a b nan => Sys2Proof.Machine.execFmax t d a b nan s
  | .fdiv t d a b rm => Sys2Proof.Machine.execFdiv t d a b rm s
  | .frcp t d a rm => Sys2Proof.Machine.execFrcp t d a rm s
  | .frsq t d a => Sys2Proof.Machine.execFrsq t d a s
  | .fsqrt t d a rm => Sys2Proof.Machine.execFsqrt t d a rm s
  | .fexp2 t d a => Sys2Proof.Machine.execFexp2 t d a s
  | .flog2 t d a => Sys2Proof.Machine.execFlog2 t d a s
  | .fsin t d a => Sys2Proof.Machine.execFsin t d a s
  | .fcos t d a => Sys2Proof.Machine.execFcos t d a s
  | .fcmp t c d a b x => Sys2Proof.Machine.execFcmp t c d a b x s
  | .fclass t d a => Sys2Proof.Machine.execFclass t d a s
  | .fclassAny t d a mask => Sys2Proof.Machine.execFclassAny t d a mask s
  | .cvt dt src d a rm => Sys2Proof.Machine.execCvt dt src d a rm s
  | .fpack t d a vs slot sel count rm => Sys2Proof.Machine.execFpack t d a vs slot sel count rm s
  | .funpack t d a vs slot sel count rm => Sys2Proof.Machine.execFunpack t d a vs slot sel count rm s
  | .fscale t d a b rm => Sys2Proof.Machine.execFscale t d a b rm s
  | .fscaleStored t d a vs sel j inv rm => Sys2Proof.Machine.execFscaleStored t d a vs sel j inv rm s
  | .shfl mode d a b => Sys2Proof.Machine.execShfl mode d a b s
  | .voteAny d a => Sys2Proof.Machine.execVoteAny d a s
  | .voteAll d a => Sys2Proof.Machine.execVoteAll d a s
  | .voteBallot d a => Sys2Proof.Machine.execVoteBallot d a s
  | .voteEq d a => Sys2Proof.Machine.execVoteEq d a s
  | .redux op t d a => Sys2Proof.Machine.execRedux op t d a s
  | .matchLanes t d a => Sys2Proof.Machine.execMatchLanes t d a s
  | .kadd d a b => Sys2Proof.Machine.execKadd d a b s
  | .ksub d a b => Sys2Proof.Machine.execKsub d a b s
  | .kmul d a b => Sys2Proof.Machine.execKmul d a b s
  | .kand d a b => Sys2Proof.Machine.execKand d a b s
  | .kor d a b => Sys2Proof.Machine.execKor d a b s
  | .kxor d a b => Sys2Proof.Machine.execKxor d a b s
  | .kshl d a b => Sys2Proof.Machine.execKshl d a b s
  | .kshr d a b => Sys2Proof.Machine.execKshr d a b s
  | .ksar d a b => Sys2Proof.Machine.execKsar d a b s
  | .kmin t d a b => Sys2Proof.Machine.execKmin t d a b s
  | .kmax t d a b => Sys2Proof.Machine.execKmax t d a b s
  | .kcmp t c d a b => Sys2Proof.Machine.execKcmp t c d a b s
  | .ksel d a b p => Sys2Proof.Machine.execKsel d a b p s
  | .kmov d a => Sys2Proof.Machine.execKmov d a s
  | .kmovi d b => Sys2Proof.Machine.execKmovi d b s
  | .kbfx t d a pos len => Sys2Proof.Machine.execKbfx t d a pos len s
  | .kpopc d a => Sys2Proof.Machine.execKpopc d a s
  | .kclz d a => Sys2Proof.Machine.execKclz d a s
  | .kbcast t d a => Sys2Proof.Machine.execKbcast t d a s
  | .kpick t d a b => Sys2Proof.Machine.execKpick t d a b s
  | .amov d a => Sys2Proof.Machine.execAmov d a s
  | .aset d a b => Sys2Proof.Machine.execAset d a b s
  | .aget d a => Sys2Proof.Machine.execAget d a s
  | .agetHi d a => Sys2Proof.Machine.execAgetHi d a s
  | .aadd d a b => Sys2Proof.Machine.execAadd d a b s
  | .aaddv t d a b scale => Sys2Proof.Machine.execAaddv t d a b scale s
  | .acmp c d a b => Sys2Proof.Machine.execAcmp c d a b s
  | .adiff d a b => Sys2Proof.Machine.execAdiff d a b s
  | .aalignDn d a n => Sys2Proof.Machine.execAalignDn d a n s
  | .aalignUp d a n => Sys2Proof.Machine.execAalignUp d a n s
  | .pairWord f => Sys2Proof.Machine.execPairWord f s
  | .pblk pred inv count pattern => Sys2Proof.Machine.execPblk pred inv count pattern s
  | .bra off => Sys2Proof.Machine.execBra off s
  | .brc p inv off => Sys2Proof.Machine.execBrc p inv off s
  | .brkNz k off => Sys2Proof.Machine.execBrkNz k off s
  | .brkZ k off => Sys2Proof.Machine.execBrkZ k off s
  | .jmp a off => Sys2Proof.Machine.execJmp a off s
  | .call off => Sys2Proof.Machine.execCall off s
  | .callr a off => Sys2Proof.Machine.execCallr a off s
  | .ret => Sys2Proof.Machine.execRet s
  | .exit => Sys2Proof.Machine.execExit s
  | .regroup v g => Sys2Proof.Machine.execRegroup v g s
  | .yield => Sys2Proof.Machine.execYield s
  | .nop => Sys2Proof.Machine.execNop s
  | .sleep n => Sys2Proof.Machine.execSleep n s
  | .sleepReg k => Sys2Proof.Machine.execSleepReg k s
  | .trap code => Sys2Proof.Machine.execTrap code s
  | .brkpt id => Sys2Proof.Machine.execBrkpt id s
  | .fence order uo scope => Sys2Proof.Machine.execFence order uo scope s
  | .icinv a n scope => Sys2Proof.Machine.execIcinv a n scope s
  | .dcwb a n => Sys2Proof.Machine.execDcwb a n s
  | .dcinv a n => Sys2Proof.Machine.execDcinv a n s
  | .srd form d sr => Sys2Proof.Machine.execSrd form d sr s
  | .swr form a sr => Sys2Proof.Machine.execSwr form a sr s
  | .trapret => Sys2Proof.Machine.execTrapret s
  | .trapretSkip => Sys2Proof.Machine.execTrapretSkip s
  | .clock k => Sys2Proof.Machine.execClock k s
  | .clockTime k => Sys2Proof.Machine.execClockTime k s
  | .ld t m => Sys2Proof.Machine.execLd t m s
  | .st t m => Sys2Proof.Machine.execSt t m s
  | .ldw t m => Sys2Proof.Machine.execLdw t m s
  | .stw t m => Sys2Proof.Machine.execStw t m s
  | .ldk t m => Sys2Proof.Machine.execLdk t m s
  | .stk t m => Sys2Proof.Machine.execStk t m s
  | .lda m => Sys2Proof.Machine.execLda m s
  | .sta m => Sys2Proof.Machine.execSta m s
  | .pf m => Sys2Proof.Machine.execPf m s
  | .lds t m => Sys2Proof.Machine.execLds t m s
  | .sts t m => Sys2Proof.Machine.execSts t m s
  | .ldsw t m => Sys2Proof.Machine.execLdsw t m s
  | .stsw t m => Sys2Proof.Machine.execStsw t m s
  | .atom op t m => Sys2Proof.Machine.execAtom op t m s
  | .atomcas t m => Sys2Proof.Machine.execAtomcas t m s
  | .atomf op t m => Sys2Proof.Machine.execAtomf op t m s
  | .atomord op t m => Sys2Proof.Machine.execAtomord op t m s
  | .red op t m => Sys2Proof.Machine.execRed op t m s
  | .atoms op t m => Sys2Proof.Machine.execAtoms op t m s
  | .barw mask => Sys2Proof.Machine.execBarw mask s
  | .tbarInit b n => Sys2Proof.Machine.execTbarInit b n s
  | .tbarArrive b => Sys2Proof.Machine.execTbarArrive b s
  | .tbarArriveLanes b => Sys2Proof.Machine.execTbarArriveLanes b s
  | .tbarExpect b n => Sys2Proof.Machine.execTbarExpect b n s
  | .tbarWait b p => Sys2Proof.Machine.execTbarWait b p s
  | .tbarTest d b p => Sys2Proof.Machine.execTbarTest d b p s
  | .tbarInval b => Sys2Proof.Machine.execTbarInval b s
  | .monArm d a => Sys2Proof.Machine.execMonArm d a s
  | .monWait => Sys2Proof.Machine.execMonWait s
  | .stgAcq d ring => Sys2Proof.Machine.execStgAcq d ring s
  | .stgCommit ring => Sys2Proof.Machine.execStgCommit ring s
  | .stgTake d ring => Sys2Proof.Machine.execStgTake d ring s
  | .stgFree ring => Sys2Proof.Machine.execStgFree ring s
  | .tdef t b s_ => Sys2Proof.Machine.execTdef t b s_ s
  | .tfree t => Sys2Proof.Machine.execTfree t s
  | .tstate d t => Sys2Proof.Machine.execTstate d t s
  | .tver d t => Sys2Proof.Machine.execTver d t s
  | .tld t a order scope => Sys2Proof.Machine.execTld t a order scope s
  | .tst t a order scope => Sys2Proof.Machine.execTst t a order scope s
  | .tstAon t a v => Sys2Proof.Machine.execTstAon t a v s
  | .tldv t a v => Sys2Proof.Machine.execTldv t a v s
  | .trot t => Sys2Proof.Machine.execTrot t s
  | .trotRev t => Sys2Proof.Machine.execTrotRev t s
  | .tmap t a => Sys2Proof.Machine.execTmap t a s
  | .tunmap t order scope => Sys2Proof.Machine.execTunmap t order scope s
  | .cpG2t t a o => Sys2Proof.Machine.execCpG2t t a o s
  | .cpT2g a t o => Sys2Proof.Machine.execCpT2g a t o s
  | .cpG2g d s_ n o => Sys2Proof.Machine.execCpG2g d s_ n o s
  | .cpGather e t a v scale k o => Sys2Proof.Machine.execCpGather e t a v scale k o s
  | .cpScatter e a v scale t k o => Sys2Proof.Machine.execCpScatter e a v scale t k o s
  | .cpFill a v n o => Sys2Proof.Machine.execCpFill a v n o s
  | .cpFillTile t v o => Sys2Proof.Machine.execCpFillTile t v o s
  | .cpT2t d s_ g o => Sys2Proof.Machine.execCpT2t d s_ g o s
  | .cpT2tReg s_ g w o => Sys2Proof.Machine.execCpT2tReg s_ g w o s
  | .cpMcast d s_ g m o => Sys2Proof.Machine.execCpMcast d s_ g m o s
  | .cpStamp a v mask sys => Sys2Proof.Machine.execCpStamp a v mask sys s
  | .lzOpen d z b c h => Sys2Proof.Machine.execLzOpen d z b c h s
  | .lzClose z => Sys2Proof.Machine.execLzClose z s
  | .lzStatus d z sel => Sys2Proof.Machine.execLzStatus d z sel s
  | .lzReserve d z => Sys2Proof.Machine.execLzReserve d z s
  | .lzReserveWait d z => Sys2Proof.Machine.execLzReserveWait d z s
  | .lzSend z s_ t w path => Sys2Proof.Machine.execLzSend z s_ t w path s
  | .lzSendAny z s_ t w path => Sys2Proof.Machine.execLzSendAny z s_ t w path s
  | .lzAbort d z s_ => Sys2Proof.Machine.execLzAbort d z s_ s
  | .lzWait z p => Sys2Proof.Machine.execLzWait z p s
  | .lzAck z s_ => Sys2Proof.Machine.execLzAck z s_ s
  | .lzClean z s_ => Sys2Proof.Machine.execLzClean z s_ s
  | .chBindW q c map => Sys2Proof.Machine.execChBindW q c map s
  | .chBindR q c map => Sys2Proof.Machine.execChBindR q c map s
  | .chUnbind q => Sys2Proof.Machine.execChUnbind q s
  | .chSend q v => Sys2Proof.Machine.execChSend q v s
  | .chRecv q v p => Sys2Proof.Machine.execChRecv q v p s
  | .chTryRecv q v p => Sys2Proof.Machine.execChTryRecv q v p s
  | .chTrySend q v p => Sys2Proof.Machine.execChTrySend q v p s
  | .chSendt q t => Sys2Proof.Machine.execChSendt q t s
  | .chRecvt q t p => Sys2Proof.Machine.execChRecvt q t p s
  | .chClose q => Sys2Proof.Machine.execChClose q s
  | .chStat d q sel => Sys2Proof.Machine.execChStat d q sel s
  | .chStatNum d c sel => Sys2Proof.Machine.execChStatNum d c sel s
  | .mbLoad mac t slot => Sys2Proof.Machine.execMbLoad mac t slot s
  | .mbFree mac => Sys2Proof.Machine.execMbFree mac s
  | .mmaQ acc mac slot v vs sel ov => Sys2Proof.Machine.execMmaQ acc mac slot v vs sel ov s
  | .mmaT acc mac slot t ov => Sys2Proof.Machine.execMmaT acc mac slot t ov s
  | .mfence => Sys2Proof.Machine.execMfence s
  | .mwait acc => Sys2Proof.Machine.execMwait acc s
  | .mwaitAll => Sys2Proof.Machine.execMwaitAll s
  | .accZero acc => Sys2Proof.Machine.execAccZero acc s
  | .accRd count v acc k => Sys2Proof.Machine.execAccRd count v acc k s
  | .accWr count acc v k => Sys2Proof.Machine.execAccWr count acc v k s
  | .accDrain t acc ps tv k z => Sys2Proof.Machine.execAccDrain t acc ps tv k z s
  | .epiLoad ps t => Sys2Proof.Machine.execEpiLoad ps t s
  | .mstat d => Sys2Proof.Machine.execMstat d s
  | .mstatClr d => Sys2Proof.Machine.execMstatClr d s
  | .fsQuery d slot sel => Sys2Proof.Machine.execFsQuery d slot sel s
  | .fsLoad d slot a => Sys2Proof.Machine.execFsLoad d slot a s
  | .fsFence slot => Sys2Proof.Machine.execFsFence slot s
  | .fsFenceDev slot => Sys2Proof.Machine.execFsFenceDev slot s
  | .fsPin slot => Sys2Proof.Machine.execFsPin slot s
  | .fsUnpin slot => Sys2Proof.Machine.execFsUnpin slot s
  | .bdSet bd pol type lo hi => Sys2Proof.Machine.execBdSet bd pol type lo hi s
  | .bdClr bd => Sys2Proof.Machine.execBdClr bd s
  | .bdStat d bd sel => Sys2Proof.Machine.execBdStat d bd sel s
  | .bdStatClr d bd sel => Sys2Proof.Machine.execBdStatClr d bd sel s
  | .spawn d a => Sys2Proof.Machine.execSpawn d a s
  | .join d a => Sys2Proof.Machine.execJoin d a s
  | .grow d k => Sys2Proof.Machine.execGrow d k s
  | .gwSignal k a => Sys2Proof.Machine.execGwSignal k a s
  | .wid form d sel => Sys2Proof.Machine.execWid form d sel s
  | .widFrame d => Sys2Proof.Machine.execWidFrame d s
  | .eLd d v => Sys2Proof.Machine.execELd d v s
  | .eSt a o n => Sys2Proof.Machine.execESt a o n s
  | .eAdd d a b => Sys2Proof.Machine.execEAdd d a b s
  | .eSub d a b => Sys2Proof.Machine.execESub d a b s
  | .eMul d a b => Sys2Proof.Machine.execEMul d a b s
  | .eFma d a b c => Sys2Proof.Machine.execEFma d a b c s
  | .eMax d a b => Sys2Proof.Machine.execEMax d a b s
  | .eMin d a b => Sys2Proof.Machine.execEMin d a b s
  | .eAbs d a => Sys2Proof.Machine.execEAbs d a s
  | .eExp2 d a => Sys2Proof.Machine.execEExp2 d a s
  | .eRcp d a => Sys2Proof.Machine.execERcp d a s
  | .eRsq d a => Sys2Proof.Machine.execERsq d a s
  | .eTanh d a => Sys2Proof.Machine.execETanh d a s
  | .eSel d a b c => Sys2Proof.Machine.execESel d a b c s
  | .eCmp d a b cond => Sys2Proof.Machine.execECmp d a b cond s
  | .eBias d a v => Sys2Proof.Machine.execEBias d a v s
  | .eScale d a t => Sys2Proof.Machine.execEScale d a t s
  | .eCvt d a slot rm => Sys2Proof.Machine.execECvt d a slot rm s
  | .eBound d a bd => Sys2Proof.Machine.execEBound d a bd s
  | .eEnd => Sys2Proof.Machine.execEEnd s
  | .streakRescue core warp => Sys2Proof.Machine.execStreakRescue core warp s
  | .sleepWake core slot thread => Sys2Proof.Machine.execSleepWake core slot thread s
  | .loadReturn core id data => Sys2Proof.Machine.execLoadReturn core id data s
  | .regroupRebuildDone core slot role => Sys2Proof.Machine.execRegroupRebuildDone core slot role s
  | .trotComplete core slot tile => Sys2Proof.Machine.execTrotComplete core slot tile s
  | .tileFillComplete core slot tile => Sys2Proof.Machine.execTileFillComplete core slot tile s
  | .tileDrainComplete core slot tile => Sys2Proof.Machine.execTileDrainComplete core slot tile s
  | .versionWordRetry core slot tile => Sys2Proof.Machine.execVersionWordRetry core slot tile s
  | .copyCommandStart core id => Sys2Proof.Machine.execCopyCommandStart core id s
  | .copyCommandComplete core id => Sys2Proof.Machine.execCopyCommandComplete core id s
  | .t2tTargetWrite core id target => Sys2Proof.Machine.execT2tTargetWrite core id target s
  | .cpStampStore core id => Sys2Proof.Machine.execCpStampStore core id s
  | .monitorWake core slot thread => Sys2Proof.Machine.execMonitorWake core slot thread s
  | .monitorTimeout core slot thread => Sys2Proof.Machine.execMonitorTimeout core slot thread s
  | .mbLoadRun core mac => Sys2Proof.Machine.execMbLoadRun core mac s
  | .mbFreeEffect core mac => Sys2Proof.Machine.execMbFreeEffect core mac s
  | .passStart core mac => Sys2Proof.Machine.execPassStart core mac s
  | .passComplete core mac => Sys2Proof.Machine.execPassComplete core mac s
  | .macroIdlePowerOff core mac => Sys2Proof.Machine.execMacroIdlePowerOff core mac s
  | .tokenBurstEnd cluster => Sys2Proof.Machine.execTokenBurstEnd cluster s
  | .tokenHoldTimeout cluster => Sys2Proof.Machine.execTokenHoldTimeout cluster s
  | .tokenArrive die => Sys2Proof.Machine.execTokenArrive die s
  | .drainStart core => Sys2Proof.Machine.execDrainStart core s
  | .drainComplete core => Sys2Proof.Machine.execDrainComplete core s
  | .epiStoreWrite core ps => Sys2Proof.Machine.execEpiStoreWrite core ps s
  | .l1WritebackTimeout core line => Sys2Proof.Machine.execL1WritebackTimeout core line s
  | .storeBufferAgeOverflow core slot => Sys2Proof.Machine.execStoreBufferAgeOverflow core slot s
  | .blockedSendProceed vf ch => Sys2Proof.Machine.execBlockedSendProceed vf ch s
  | .blockedRecvProceed vf ch => Sys2Proof.Machine.execBlockedRecvProceed vf ch s
  | .channelRefill vf ch => Sys2Proof.Machine.execChannelRefill vf ch s
  | .stalemateScan => Sys2Proof.Machine.execStalemateScan s
  | .faultQueueRetry vf => Sys2Proof.Machine.execFaultQueueRetry vf s
  | .faultService vf => Sys2Proof.Machine.execFaultService vf s
  | .faultReplay core id => Sys2Proof.Machine.execFaultReplay core id s
  | .fetchFaultSwapOut core slot => Sys2Proof.Machine.execFetchFaultSwapOut core slot s
  | .preemptPriorityTimeout vf => Sys2Proof.Machine.execPreemptPriorityTimeout vf s
  | .workgroupResume vf core => Sys2Proof.Machine.execWorkgroupResume vf core s
  | .globalDispatch => Sys2Proof.Machine.execGlobalDispatch s
  | .digestMismatchRetry vf => Sys2Proof.Machine.execDigestMismatchRetry vf s
  | .launchComplete vf launch => Sys2Proof.Machine.execLaunchComplete vf launch s
  | .launchPlaceRetry vf => Sys2Proof.Machine.execLaunchPlaceRetry vf s
  | .gwLaunchNode vf => Sys2Proof.Machine.execGwLaunchNode vf s
  | .gwConditionalNode vf => Sys2Proof.Machine.execGwConditionalNode vf s
  | .gwWhileNode vf => Sys2Proof.Machine.execGwWhileNode vf s
  | .gwJoinNode vf => Sys2Proof.Machine.execGwJoinNode vf s
  | .gwWaitStampNode vf => Sys2Proof.Machine.execGwWaitStampNode vf s
  | .gwSignalHostNode vf => Sys2Proof.Machine.execGwSignalHostNode vf s
  | .gwEndNode vf => Sys2Proof.Machine.execGwEndNode vf s
  | .loaderRequest vf => Sys2Proof.Machine.execLoaderRequest vf s
  | .formatInstall core slot => Sys2Proof.Machine.execFormatInstall core slot s
  | .coreFunctionChange core vf => Sys2Proof.Machine.execCoreFunctionChange core vf s
  | .serialPhaseApply vf launch => Sys2Proof.Machine.execSerialPhaseApply vf launch s
  | .coreFence core => Sys2Proof.Machine.execCoreFence core s
  | .migrationWindow => Sys2Proof.Machine.execMigrationWindow s
  | .migSettle vf page => Sys2Proof.Machine.execMigSettle vf page s
  | .invalidationBroadcast die => Sys2Proof.Machine.execInvalidationBroadcast die s
  | .invalidationComplete => Sys2Proof.Machine.execInvalidationComplete s
  | .powerSample watts => Sys2Proof.Machine.execPowerSample watts s
  | .timeSync dev reference => Sys2Proof.Machine.execTimeSync dev reference s
  | .flitReceive port crcOk body => Sys2Proof.Machine.execFlitReceive port crcOk body s
  | .portDown port => Sys2Proof.Machine.execPortDown port s
  | .portUp port => Sys2Proof.Machine.execPortUp port s
  | .remoteAccessRequest dev vf va op => Sys2Proof.Machine.execRemoteAccessRequest dev vf va op s
  | .gangDigest vf launch dev digest => Sys2Proof.Machine.execGangDigest vf launch dev digest s
  | .gangDeadline vf launch => Sys2Proof.Machine.execGangDeadline vf launch s
  | .gangStart vf launch => Sys2Proof.Machine.execGangStart vf launch s
  | .lzReservationArrive name from_ => Sys2Proof.Machine.execLzReservationArrive name from_ s
  | .lzAbortArrive name slot from_ => Sys2Proof.Machine.execLzAbortArrive name slot from_ s
  | .lzPayloadFlit name slot offset total data from_ => Sys2Proof.Machine.execLzPayloadFlit name slot offset total data from_ s
  | .lzStatusStore core id status => Sys2Proof.Machine.execLzStatusStore core id status s
  | .channelFlitArrive vf ch data => Sys2Proof.Machine.execChannelFlitArrive vf ch data s
  | .channelCreditReturn vf ch credits => Sys2Proof.Machine.execChannelCreditReturn vf ch credits s
  | .cqtailDoorbell fn value => Sys2Proof.Machine.execCqtailDoorbell fn value s
  | .cpheadWrite fn value => Sys2Proof.Machine.execCpheadWrite fn value s
  | .registerWrite fn offset value => Sys2Proof.Machine.execRegisterWrite fn offset value s
  | .graphRun c graph count start => Sys2Proof.Machine.execGraphRun c graph count start s
  | .formatRecordLoad c slot addr => Sys2Proof.Machine.execFormatRecordLoad c slot addr s
  | .channelCreate c number config spool => Sys2Proof.Machine.execChannelCreate c number config spool s
  | .channelReopen c number => Sys2Proof.Machine.execChannelReopen c number s
  | .channelDestroy c number => Sys2Proof.Machine.execChannelDestroy c number s
  | .keyEnrol c index key => Sys2Proof.Machine.execKeyEnrol c index key s
  | .keyRemove c index => Sys2Proof.Machine.execKeyRemove c index s
  | .slotAttestation c nonce addr => Sys2Proof.Machine.execSlotAttestation c nonce addr s
  | .deviceAttestation c nonce addr => Sys2Proof.Machine.execDeviceAttestation c nonce addr s
  | .readCounters c addr => Sys2Proof.Machine.execReadCounters c addr s
  | .invalidate c base count word => Sys2Proof.Machine.execInvalidate c base count word s
  | .translate c module binding code => Sys2Proof.Machine.execTranslate c module binding code s
  | .translateDelayedComplete c => Sys2Proof.Machine.execTranslateDelayedComplete c s
  | .setEntries c base count flags array => Sys2Proof.Machine.execSetEntries c base count flags array s
  | .setWeight c weight => Sys2Proof.Machine.execSetWeight c weight s
  | .setFrames c g b backing size => Sys2Proof.Machine.execSetFrames c g b backing size s
  | .setQueues c rk fk elog => Sys2Proof.Machine.execSetQueues c rk fk elog s
  | .joinDomain c domain => Sys2Proof.Machine.execJoinDomain c domain s
  | .setRoute c peer ports => Sys2Proof.Machine.execSetRoute c peer ports s
  | .setLimit c watts => Sys2Proof.Machine.execSetLimit c watts s
  | .setIdle c cycles => Sys2Proof.Machine.execSetIdle c cycles s
  | .preEmpt c launch => Sys2Proof.Machine.execPreEmpt c launch s
  | .assign c => Sys2Proof.Machine.execAssign c s
  | .reset c => Sys2Proof.Machine.execReset c s
  | .healthTestComplete core passed => Sys2Proof.Machine.execHealthTestComplete core passed s
  | .fusedMinimumRaise version signatureOk => Sys2Proof.Machine.execFusedMinimumRaise version signatureOk s
  | .deviceReset => Sys2Proof.Machine.execDeviceReset s
  | .lzReservationReply core slot thread status zslot => Sys2Proof.Machine.execLzReservationReply core slot thread status zslot s

end Sys2Proof.Machine
end

