-- ==== Sys2Proof/Machine/Runner.lean ====
section
/-! DEFINITION. Running the commands a function's ring has delivered (R445, R446): the 64 bytes of a command are read into its operands
(log 42) and given to the command's meaning, in ring order. -/
namespace Sys2Proof.Machine

/-- Bytes of a command as a number, and as a virtual address. -/
def cmdNum (b : List Byte) (i n : Nat) : Nat := leNat ((b.drop i).take n)
def cmdVa (b : List Byte) (i : Nat) : Nat := cmdNum b i 16 % 2 ^ 80
/-- The head of a command (R445): a PF command names its function in bytes 8 and 9. -/
def cmdHead (ring : Nat) (b : List Byte) : Cmd :=
  { ring, target := if ring = 128 then cmdNum b 8 2 else ring, tag := cmdNum b 2 2, irq := cmdNum b 1 1 % 2 = 1 }
/-- The command's meaning by its op; an unknown op, or a bit that must be zero, is malformed (status 1). -/
def runCmd (ring : Nat) (b : List Byte) (s : State) : Host.Outcome State Fault Refusal :=
  let c := cmdHead ring b
  let op := cmdNum b 0 1
  let n := cmdNum b
  if 2 ≤ n 1 1 || n 4 4 != 0 then .next { s with m := s.m.finish c op 1 0 }
  else
    match op with
    | 0x01 => execGraphRun c (cmdVa b 8) (n 24 8) (n 32 8) s
    | 0x02 => execFormatRecordLoad c (n 8 1) (n 16 16) s
    | 0x03 => execChannelCreate c (n 8 2) (n 16 8) (cmdVa b 32) s
    | 0x04 => execChannelReopen c (n 8 2) s
    | 0x05 => execChannelDestroy c (n 8 2) s
    | 0x06 => execKeyEnrol c (n 8 1) (keyOf (HostMem.readN s.m.host (n 16 8) 64)) s
    | 0x07 => execKeyRemove c (n 8 1) s
    | 0x08 => execSlotAttestation c (n 8 32) (n 40 16) s
    | 0x09 => execDeviceAttestation c (n 8 32) (n 40 16) s
    | 0x0A => execReadCounters c (n 8 16) s
    | 0x0B => execInvalidate c (cmdVa b 8) (n 24 2) (cmdVa b 32) s
    | 0x0C => execTranslate c (cmdVa b 8) (cmdVa b 24) (cmdVa b 40) s
    | 0x0D => execSetEntries c (cmdVa b 8) (n 24 2) (n 26 1) (n 32 16) s
    | 0x10 => execSetWeight c (n 10 1) s
    | 0x11 => execSetFrames c (n 16 4) (n 20 4) (n 24 8) (n 32 8) s
    | 0x12 => execSetQueues c (n 10 1) (n 11 1) (n 16 16) s
    | 0x13 => execJoinDomain c (n 12 4) s
    | 0x14 => execSetRoute c (n 10 2) [n 12 1, n 13 1, n 14 1, n 15 1] s
    | 0x15 =>
      if n 10 1 = 0 then execSetLimit c (n 12 4) s
      else if n 10 1 = 1 then execSetIdle c (n 12 4) s
      else .next { s with m := s.m.finish c op 1 0 }
    | 0x16 => execPreEmpt c (n 16 16) s
    | 0x17 => execAssign c s
    | 0x18 => execReset c s
    | _ => .next { s with m := s.m.finish c op 1 0 }
/-- The oldest command of a ring runs, when firmware runs and the completion ring has room (R445); a graph run that waits for the walker
holds no other command back. -/
def ringCommand (ring : Nat) (s : State) : Host.Outcome State Fault Refusal :=
  let f := s.m.fn ring
  match f.cmds with
  | [] => .fault .notEnabled
  | b :: rest =>
    if s.m.fwRunning && f.complRoom then runCmd ring b { s with m := s.m.setFn ring { f with cmds := rest } } else .fault .notEnabled

end Sys2Proof.Machine
end

