-- ==== Sys2Proof/Machine/Next.lean ====
section
/-! DEFINITION. What happens when no instruction issues: the hardware's own events, which come at once; firmware, the dispatcher and the
hub, which act between cycles; the passing of a cycle; and what settles after every step (log 4, log 12). -/
namespace Sys2Proof.Machine

/-- A candidate for the next step: what it makes of the state, a fault where its condition does not hold. -/
abbrev Try := State → Host.Outcome State Fault Refusal
/-- The first candidate that has an effect. -/
def firstEnabled (s : State) : List Try → Option State
  | [] => none
  | f :: fs => match f s with | .next s' => some s' | _ => firstEnabled s fs

/-! ## Events of the hardware -/

/-- Threads, loads and barriers of each core and workgroup (R127, R140, R166, R293). -/
def threadEvents (m : Mach) : List Try :=
  m.cores.flatMap (fun e => (e.2.loads.filter (fun p => p.lanes.all (fun l => l.2.all (fun x => match x with | .got _ => true | _ => false)))).map
    (fun p => execLoadReturn e.1 p.id [])) ++
  m.wgs.flatMap (fun e =>
    let core := e.1 / 64
    let slot := e.1 % 64
    ((e.2.threads.mapIdx (fun i t => (i, t))).flatMap (fun t => match t.2.status with
      | .asleep _ => [execSleepWake core slot t.1]
      | .waiting .monitor => [execMonitorWake core slot t.1, execMonitorTimeout core slot t.1]
      | _ => [])) ++
    e.2.rebuild.map (fun r => execRegroupRebuildDone core slot r.1))
/-- Tiles (R205 to R207, R231). -/
def tileEvents (m : Mach) : List Try :=
  m.wgs.flatMap (fun e =>
    let core := e.1 / 64
    let slot := e.1 % 64
    (e.2.tiles.mapIdx (fun i t => (i, t))).flatMap (fun t => match t.2.job with
      | some (.rotate ..) => [execTrotComplete core slot t.1]
      | some (.storeAon _ _ _ none) | some (.loadVer _ _ _ _ (some _)) => [execVersionWordRetry core slot t.1]
      | some (.loadVer ..) => [execVersionWordRetry core slot t.1, execTileFillComplete core slot t.1]
      | some (.load ..) | some .touch => [execTileFillComplete core slot t.1]
      | some .store | some (.unmap ..) | some (.storeAon ..) => [execTileDrainComplete core slot t.1]
      | _ => []))
/-- Channels (R272 to R274). -/
def chanEvents (m : Mach) : List Try :=
  m.fns.flatMap (fun f => f.2.chans.flatMap (fun c =>
    [execBlockedSendProceed f.1 c.1, execBlockedRecvProceed f.1 c.1, execChannelRefill f.1 c.1]))
/-- Replays of serviced faults (R374). -/
def replayEvents (m : Mach) : List Try :=
  m.cores.flatMap (fun e => (e.2.faults.filter (fun r => r.pend == 0)).map (fun r => execFaultReplay e.1 r.id))
/-- The copy engine (R318 to R320, R438). -/
def copyEvents (m : Mach) : List Try :=
  m.cores.flatMap (fun e =>
    (match m.nextCopy e.1 with | some c => [execCopyCommandStart e.1 c.id] | none => []) ++
    e.2.copies.flatMap (fun c => match c.kind with
      | .stamp .. => [execCpStampStore e.1 c.id]
      | .lzSend .. => c.done.map (execLzStatusStore e.1 c.id)
      | .t2t .. | .t2tReg .. => c.targets.map (execT2tTargetWrite e.1 c.id) ++ [execCopyCommandComplete e.1 c.id]
      | _ => [execCopyCommandComplete e.1 c.id]))
/-- The matrix unit, its tokens and its power (R302, R306, R307, R326, R327). -/
def matrixEvents (m : Mach) : List Try :=
  let busy := (m.cores.filter (fun e => !e.2.mats.isEmpty)).map (fun e => e.1)
  m.cores.flatMap (fun e =>
    (if e.2.mats.isEmpty then [] else (upFrom 0 4).flatMap (fun k =>
      [execPassComplete e.1 k, execMbLoadRun e.1 k, execMbFreeEffect e.1 k, execPassStart e.1 k])) ++
    (e.2.macs.filter (fun x => x.2.powered || x.2.waking)).map (fun x => execMacroIdlePowerOff e.1 x.1)) ++
  m.rings.flatMap (fun r => r.2.held.flatMap (fun t => [execTokenBurstEnd t.cluster, execTokenHoldTimeout t.cluster])) ++
  ((busy.map (fun c => c / 160)).eraseDups).map execTokenArrive
/-- The epilogue processor between its words (R305, R334, R335). -/
def drainEvents (m : Mach) : List Try :=
  m.cores.flatMap (fun e =>
    (if e.2.drains.isEmpty then [] else [execDrainComplete e.1, execDrainStart e.1]) ++ ((e.2.epis.map (·.ps)).eraseDups).map (execEpiStoreWrite e.1))
/-- L1, store buffers, planes and ordered launches (R215, R350, R384, R400). -/
def memoryEvents (clk : Clock) (m : Mach) : List Try :=
  m.cores.flatMap (fun e =>
    (e.2.l1.filter (fun l => match l.2.firstWrite with | some t => decide (t + 1048576 ≤ clk.cycle) | none => false)).map
      (fun l => execL1WritebackTimeout e.1 l.1) ++
    (e.2.planes.filter (fun p => !p.2.todo.isEmpty)).map (fun p => execFormatInstall e.1 p.1)) ++
  (m.wgs.filter (fun e => !e.2.sbuf.isEmpty && e.2.sealed == 0)).map (fun e => execStoreBufferAgeOverflow (e.1 / 64) (e.1 % 64)) ++
  m.fns.flatMap (fun f => (f.2.launches.filter (fun l => !l.held.isEmpty)).map (fun l => execSerialPhaseApply f.1 l.id))
/-- THE HARDWARE'S OWN EVENTS, in the order the model takes them. -/
def Mach.hardwareEvents (clk : Clock) (m : Mach) : List Try :=
  threadEvents m ++ replayEvents m ++ chanEvents m ++ tileEvents m ++ drainEvents m ++ copyEvents m ++ matrixEvents m ++ memoryEvents clk m
/-- The epilogue word that runs next (R305). -/
def Mach.epiWord? (m : Mach) : Option Instr :=
  match m.runningDrain with | some (_, d) => (decodeEp (d.words.getD d.pc 0).toNat).toOption | none => none

/-! ## Firmware, dispatcher and hub -/

/-- Functions in a rotation that moves on with the cycles, so that none keeps another back. -/
def Mach.fnTurn (clk : Clock) (m : Mach) : List (Nat × Fn) :=
  let n := m.fns.length
  if n = 0 then [] else m.fns.drop (clk.cycle / 4 % n) ++ m.fns.take (clk.cycle / 4 % n)
/-- The highest level at which a function has a unit to place (R393). -/
def Mach.topLevel (m : Mach) (vf : Nat) : Nat :=
  ((upFrom 0 4).filter (fun p => m.queuePending vf p || (m.fn vf).launches.any (fun l => l.hdr.prio == p && l.pending))).foldl max 0
/-- Resumes of images of priority `least vf` and above; one try for each core that can hold the image. -/
def resumeEvents (m : Mach) (fns : List (Nat × Fn)) (least : Nat → Nat) : List Try :=
  fns.flatMap (fun f =>
    if f.2.images.isEmpty then []
    else
      match m.nextImage f.1 (fun i => decide (least f.1 ≤ i.wg.hdr.prio) && (upFrom 0 coreCount).any (fun c => m.readyFor f.1 c i)) with
      | none => []
      | some i => match (upFrom 0 coreCount).find? (fun c => m.readyFor f.1 c i) with | some c => [execWorkgroupResume f.1 c] | none => [])
/-- Placing work: gangs, resumed workgroups ahead of new work of their priority, the dispatcher, pre-emption for level 3. -/
def placeEvents (m : Mach) (fns : List (Nat × Fn)) : List Try :=
  fns.flatMap (fun f => (f.2.launches.filter (fun l => l.gang.isSome)).flatMap (fun l => [execGangStart f.1 l.id, execGangDeadline f.1 l.id])) ++
  resumeEvents m fns m.topLevel ++ [execGlobalDispatch] ++ resumeEvents m fns (fun _ => 0) ++
  fns.flatMap (fun f =>
    (if f.2.launches.any (fun l => l.mism == some true) then [execDigestMismatchRetry f.1] else []) ++
    (if f.2.waitL3.isSome then [execPreemptPriorityTimeout f.1] else []))
/-- Faults (R374, R376, R377, R475). -/
def faultEvents (m : Mach) (fns : List (Nat × Fn)) : List Try :=
  fns.flatMap (fun f => [execFaultQueueRetry f.1, execFaultService f.1]) ++
  (m.wgs.filter (fun e => e.2.leaving == 2)).map (fun e => execFetchFaultSwapOut (e.1 / 64) (e.1 % 64))
/-- Launches that end, the loader, the graph walkers (R168, R170, R177, R346). -/
def walkEvents (m : Mach) (fns : List (Nat × Fn)) : List Try :=
  fns.flatMap (fun f => (f.2.launches.map (fun l => execLaunchComplete f.1 l.id))) ++
  (match m.loaderTurn with | some vf => [execLoaderRequest vf] | none => []) ++
  fns.flatMap (fun f => match f.2.walker with
    | none => []
    | some _ =>
      [execLaunchPlaceRetry f.1, execGwLaunchNode f.1, execGwConditionalNode f.1, execGwWhileNode f.1, execGwJoinNode f.1,
       execGwWaitStampNode f.1, execGwSignalHostNode f.1, execGwEndNode f.1])
/-- The power manager's sample: the power drawn is not the model's (log 22). -/
def samplePower (s : State) : Host.Outcome State Fault Refusal :=
  let (x, m) := s.m.free
  execPowerSample (x % 4096) { s with m }
/-- A core's health test ends; how is the core's own. -/
def endTest (core : Nat) (s : State) : Host.Outcome State Fault Refusal :=
  let (x, m) := s.m.free
  execHealthTestComplete core (x % 2 = 0) { s with m }
/-- Host commands, the hub, migration, the periodic scans and samples, cores to fence (R236, R285, R388, R417, R418, R420, R445, R452). -/
def hostEvents (m : Mach) (fns : List (Nat × Fn)) : List Try :=
  fns.map (fun f => ringCommand f.1) ++
  (if m.hub.isEmpty then [] else (upFrom 0 8).map execInvalidationBroadcast ++ [execInvalidationComplete]) ++
  fns.flatMap (fun f => f.2.translating.map (fun t => execTranslateDelayedComplete t.1) ++ f.2.testing.map endTest) ++
  m.lastMove.flatMap (fun p => match tget m.frameOf (p.1 / 512) with | some vf => [execMigSettle vf p.1] | none => []) ++
  (m.cores.filter (fun e => decide (Config.errorThreshold < e.2.errors))).map (fun e => execCoreFence e.1) ++
  ((m.portTries.filter (fun e => decide (17 ≤ e.2))).map (fun e => execPortDown e.1)) ++
  [execStalemateScan, execMigrationWindow, samplePower]
/-- What firmware, the dispatcher and the hub do between two cycles: one action, the four classes taking turns. -/
def Mach.firmwareEvents (clk : Clock) (m : Mach) : List Try :=
  let fns := m.fnTurn clk
  let cls := [placeEvents m fns, faultEvents m fns, walkEvents m fns, hostEvents m fns]
  (cls.drop (clk.cycle % 4) ++ cls.take (clk.cycle % 4)).flatten

/-! ## Time -/

/-- Time passes: slewing by at most 1 ns in 1,000 and never backward (R421). -/
def slewed (old new : Clock) (slew : Int) : Clock × Int :=
  let slots : Int := (new.cycle / 1800 - old.cycle / 1800 : Nat)
  let adj : Int := max (-slots) (min slots slew)
  let time := max old.time ((new.time : Int) + adj).toNat
  ({ new with time }, slew - adj)
/-- Nanoseconds that a channel's ends were blocked (R267). -/
def Chan.pass (c : Chan) (ns : Nat) : Chan :=
  { c with emptyns := if c.rB then min (c.emptyns + ns) (2 ^ 64 - 1) else c.emptyns,
           fullns := if c.wB then min (c.fullns + ns) (2 ^ 64 - 1) else c.fullns }
/-- The stall counters of a pinned workgroup over `cycles` cycles (R288): slots in which none of its warps could issue, and of these the
ones in which a thread is blocked on an empty channel, or else on a full one. -/
def Mach.stall (m : Mach) (clk : Clock) (core slot cycles : Nat) (w : Wg) : Wg :=
  if !w.hdr.pinned || (upFrom 0 w.warps.length).any (fun x => w.mayIssue clk && !(m.eligible core slot w x).isEmpty) then w
  else
    let mine := ((m.core core).used clk).filter (fun u => w.warps.any (fun x => u.contains x.num))
    let n := 2 * cycles - mine.length
    let blocked (send : Bool) : Bool := w.threads.any (fun t => (m.blockedOn w t).any (fun e => e.2 == send))
    { w with stallSlots := w.stallSlots + n,
             stallEmpty := if blocked false then w.stallEmpty + n else w.stallEmpty,
             stallFull := if !blocked false && blocked true then w.stallFull + n else w.stallFull }
/-- `n` cycles pass; no line stays dirty beyond its 2²⁰ (R215). -/
def State.pass (s : State) (n : Nat) : State :=
  let (clk, slew) := slewed s.clk (s.clk.tick n) s.m.slew
  let m := s.m.ageLines clk
  { s with
    clk
    m := { m with
      slew
      fns := m.fns.map (fun (f : Nat × Fn) => (f.1, { f.2 with chans := f.2.chans.map (fun c => (c.1, c.2.pass (clk.time - s.clk.time))) }))
      wgs := m.wgs.map (fun (e : Nat × Wg) => (e.1, m.stall s.clk (e.1 / 64) (e.1 % 64) n e.2)) } }

/-! ## After a step -/

/-- WHAT FOLLOWS EVERY STEP: ends and saves settle, levels and functions go on, waits that are over end, completions are written. -/
def State.settled (s : State) : State :=
  let m := ((((({ s.m with ig := none } : Mach).settleAll s.clk).notePending s.clk).advanceFns).wakeWaits s.clk).settleB
  { s with m := m.fns.foldl (fun (m : Mach) f => m.writeCompls f.1 f.2.compl.length) m }
/-- A meaning's answer, settled. -/
def settledOutcome : Host.Outcome State Fault Refusal → Host.Outcome State Fault Refusal
  | .next s => .next s.settled
  | o => o
/-- No instruction issues in this cycle: one action of firmware, and the next cycle begins. -/
def State.cycleEnd (s : State) : State :=
  match firstEnabled s (s.m.firmwareEvents s.clk) with
  | some s' => s'.settled.pass 1
  | none => s.pass 1
/-- An uncorrectable error appears where the environment puts it (R378, log 29); a core's own count against its threshold (R388). -/
def Mach.strike (m : Mach) : Move → Mach
  | .poisonMem line => { m with poison := sortBy id (line :: m.poison.filter (· ≠ line)) }
  | .poisonScratch core word => m.modCore core (fun c =>
    { c with poison := sortBy id (word :: c.poison.filter (· ≠ word)), errors := c.errors + 1 })
  | .poisonAcc core slot acc row col =>
    (m.modCore core (fun c => { c with errors := c.errors + 1 })).modWg core slot (fun w =>
      { w with accPoison := accKey acc row col :: w.accPoison.filter (· ≠ accKey acc row col) })
  | _ => m

end Sys2Proof.Machine
end

