-- ==== Sys2Proof/Machine/Step.lean ====
section
/-! DEFINITION. One step of the machine, and the state in which a given instruction is the next one fetched. -/
namespace Sys2Proof.Machine

/-- The threads of a granted slot issue (R155): their instruction executes once for the group (R156). -/
def issueOn (s : State) (core slot : Nat) (ts : List Nat) : Host.Outcome State Fault Refusal :=
  match s.m.beginIssue s.clk core slot ts with
  | (m, none) => .next { s with m }.settled
  | (m, some i) => settledOutcome (exec i { s with m })
/-- A slot of a core goes to a warp of a workgroup: a streak rescue, or its head run. -/
def grantTo (s : State) (core slot warp : Nat) : Host.Outcome State Fault Refusal :=
  match s.m.wg? core slot with
  | none => .next s
  | some w =>
    if s.m.rescueDue core slot w warp then settledOutcome (execStreakRescue core (w.num warp) s)
    else
      match s.m.headSlot s.clk core slot w warp with
      | none => .next s
      | some (m, ts) => issueOn { s with m } core slot ts
/-- What the environment makes happen (log 4). -/
def runMove (s : State) (mv : Move) : Host.Outcome State Fault Refusal :=
  match mv with
  | .event i => settledOutcome (exec i s)
  | .elapse n => .next (s.pass n).settled
  | .grant core =>
    (match s.m.nextWarp s.clk core with
    | some (slot, x, _) => grantTo s core slot x
    | none => .next s)
  | mv => .next { s with m := s.m.strike mv }
/-- What the machine does of itself: the run a rescue has picked, an epilogue word, an event of the hardware, an issue slot, or the end
of the cycle. -/
def runSelf (s : State) : Host.Outcome State Fault Refusal :=
  match s.m.pick with
  | some (core, slot, ts) => issueOn { s with m := { s.m with pick := none } } core slot ts
  | none =>
    match s.m.epiWord? with
    | some i => settledOutcome (exec i s)
    | none =>
      match firstEnabled s (s.m.hardwareEvents s.clk) with
      | some s' => .next s'.settled
      | none =>
        match s.m.nextIssue s.clk with
        | some (core, slot, warp) => grantTo s core slot warp
        | none => .next s.cycleEnd
/-- ONE STEP: what the environment has ready, else what the machine does of itself. -/
def step (s : State) : Host.Outcome State Fault Refusal :=
  match s.agenda with
  | mv :: rest => runMove { s with agenda := rest } mv
  | [] => runSelf s

/-- Where `withFetchWord` puts an instruction: virtual page 1, and the first page above firmware's frames. -/
def fetchVa : Addr := 0x10000
def fetchPage : Nat := 0x40000
/-- The workgroup that fetches it: one thread, in slot 0 of core 0. -/
def fetchWg : Wg :=
  { hdr := { entry := fetchVa, vregs := 32 }, threads := [{ pc := fetchVa }], warps := [{}], qs := List.replicate 8 none,
    rings := List.replicate 4 {}, bds := List.replicate 16 {} }
/-- The instruction `w` of `nbits` bits, zeros above, stands where the next step fetches (log 24). 32 bits are an epilogue word: a drain of
core 0 stands at it. Longer ones stand in memory, mapped for a workgroup of core 0 that has just been granted a slot. -/
def State.withFetchWord (s : State) (nbits w : Nat) : State :=
  if nbits ≤ 32 then
    let d : Drain :=
      { id := s.m.nextId, seq := s.m.seq, slot := 0, acc := 0, ps := 0, words := BitVec.ofNat 32 w :: List.replicate 63 0, td := 0, tv := none,
        stride := 256, z := false, fmts := [], bds := [], seed := 0, running := true }
    let wg : Wg := { fetchWg with hdr := { fetchWg.hdr with tiles := 1, accs := 1 }, tiles := [{ state := .filling, d := true, size := 64, job := some (.command d.id) }] }
    { s with agenda := [], m := { (s.m.setCore 0 { s.m.core 0 with drains := [d] }).setWg 0 0 wg with pick := none, nextId := s.m.nextId + 1 } }
  else
    let pte : Pte := { frame := fetchPage, x := true }
    let c := s.m.core 0
    { s with agenda := [], m := { (s.m.setCore 0 { c with icache := [], tlb := tset c.tlb 1 pte, loads := [], faults := [] }).setWg 0 0 fetchWg with
        pick := some (0, 0, [0]), mem := Memory.writeL s.m.mem (fetchPage * 65536) (leBytes 16 w),
        poison := s.m.poison.filter (· ≠ fetchPage * 512) } }

end Sys2Proof.Machine
end

