-- ==== Sys2Proof/Laws/Table.lean ====
section
/-! SUPPORT. Laws of the sorted tables of Table.lean: reading what was put or erased, and the order of the keys. -/
namespace Sys2Proof.Machine

@[simp] theorem tget_tset_same {α : Type} (m : Sparse α) (k : Nat) (x : α) : tget (tset m k x) k = some x := by
  induction m with
  | nil => simp [tset, tget]
  | cons e m ih =>
    obtain ⟨j, y⟩ := e
    by_cases h1 : k < j
    · simp [tset, tget, h1]
    · by_cases h2 : j = k
      · simp [tset, tget, h2]
      · simp [tset, tget, h1, h2, ih]

theorem tget_tset_other {α : Type} (m : Sparse α) {k k' : Nat} (x : α) (h : k' ≠ k) : tget (tset m k x) k' = tget m k' := by
  induction m with
  | nil => simp only [tset, tget]; split <;> simp_all
  | cons e m ih =>
    obtain ⟨j, y⟩ := e
    by_cases h1 : k < j
    · simp only [tset, h1, if_true, tget]
      have hk : k ≠ k' := fun e => h e.symm
      simp only [hk, if_false]
      split
      · rename_i hlt
        have h3 : j ≠ k' := by omega
        have h4 : k' < j := by omega
        simp [h3, h4]
      · rfl
    · by_cases h2 : j = k
      · subst h2
        have : j ≠ k' := fun e => h e.symm
        simp [tset, tget, this]
      · simp [tset, tget, h1, h2, ih]

/-- A table whose keys rise holds nothing below its bound. -/
theorem tget_of_sorted {α : Type} (m : Sparse α) (lo k : Nat) (h : sortedFrom (some lo) m = true) (hk : k ≤ lo) : tget m k = none := by
  cases m with
  | nil => rfl
  | cons e m =>
    obtain ⟨j, y⟩ := e
    simp only [sortedFrom, Bool.and_eq_true, decide_eq_true_eq] at h
    have h1 : j ≠ k := by omega
    have h2 : k < j := by omega
    simp [tget, h1, h2]

/-- A lower bound may be lowered. -/
theorem sortedFrom_weaken {α : Type} (m : Sparse α) {lo lo' : Nat} (h : sortedFrom (some lo) m = true) (hl : lo' ≤ lo) :
    sortedFrom (some lo') m = true := by
  cases m with
  | nil => rfl
  | cons e m =>
    obtain ⟨j, y⟩ := e
    simp only [sortedFrom, Bool.and_eq_true, decide_eq_true_eq] at h ⊢
    exact ⟨by omega, h.2⟩

theorem sortedFrom_none {α : Type} (m : Sparse α) {lo : Nat} (h : sortedFrom (some lo) m = true) : sortedFrom none m = true := by
  cases m with
  | nil => rfl
  | cons e m => obtain ⟨j, y⟩ := e; simp only [sortedFrom, Bool.and_eq_true, Bool.true_and] at h ⊢; exact h.2

theorem sortedFrom_tset {α : Type} (m : Sparse α) (lo : Nat) (k : Nat) (x : α) (h : sortedFrom (some lo) m = true) (hk : lo < k) :
    sortedFrom (some lo) (tset m k x) = true := by
  induction m generalizing lo with
  | nil => simp [tset, sortedFrom, hk]
  | cons e m ih =>
    obtain ⟨j, y⟩ := e
    simp only [sortedFrom, Bool.and_eq_true, decide_eq_true_eq] at h
    simp only [tset]
    split
    · simp [sortedFrom, hk, h.2]; omega
    · split
      · rename_i h2; subst h2; simp [sortedFrom, h.1, h.2]
      · have : j < k := by omega
        simp [sortedFrom, h.1, ih j h.2 this]

theorem sorted_tset {α : Type} (m : Sparse α) (k : Nat) (x : α) (h : sortedFrom none m = true) : sortedFrom none (tset m k x) = true := by
  cases m with
  | nil => simp [tset, sortedFrom]
  | cons e m =>
    obtain ⟨j, y⟩ := e
    simp only [sortedFrom, Bool.true_and] at h
    simp only [tset]
    split
    · simp [sortedFrom, h]; assumption
    · split
      · rename_i h2; subst h2; simp [sortedFrom, h]
      · have : j < k := by omega
        simp [sortedFrom, sortedFrom_tset m j k x h this]

theorem sortedFrom_terase {α : Type} (m : Sparse α) (lo k : Nat) (h : sortedFrom (some lo) m = true) :
    sortedFrom (some lo) (terase m k) = true := by
  induction m generalizing lo with
  | nil => rfl
  | cons e m ih =>
    obtain ⟨j, y⟩ := e
    have h' := h
    simp only [sortedFrom, Bool.and_eq_true, decide_eq_true_eq] at h
    simp only [terase]
    split
    · exact sortedFrom_weaken m h.2 (by omega)
    · split
      · exact h'
      · simp [sortedFrom, h.1, ih j h.2]

theorem sorted_terase {α : Type} (m : Sparse α) (k : Nat) (h : sortedFrom none m = true) : sortedFrom none (terase m k) = true := by
  cases m with
  | nil => rfl
  | cons e m =>
    obtain ⟨j, y⟩ := e
    have h' := h
    simp only [sortedFrom, Bool.true_and] at h
    simp only [terase]
    split
    · exact sortedFrom_none m h
    · split
      · exact h'
      · simp [sortedFrom, sortedFrom_terase m j k h]

theorem tget_terase_same {α : Type} (m : Sparse α) (k : Nat) (h : sortedFrom none m = true) : tget (terase m k) k = none := by
  induction m with
  | nil => rfl
  | cons e m ih =>
    obtain ⟨j, y⟩ := e
    simp only [sortedFrom, Bool.true_and] at h
    simp only [terase]
    split
    · rename_i h2; subst h2; exact tget_of_sorted m j j h (Nat.le_refl _)
    · split
      · simp [tget, *]
      · simp [tget, *, ih (sortedFrom_none m h)]

theorem tget_terase_other {α : Type} (m : Sparse α) {k k' : Nat} (h : sortedFrom none m = true) (hk : k' ≠ k) :
    tget (terase m k) k' = tget m k' := by
  induction m with
  | nil => rfl
  | cons e m ih =>
    obtain ⟨j, y⟩ := e
    simp only [sortedFrom, Bool.true_and] at h
    simp only [terase]
    split
    · rename_i h2; subst h2
      have h3 : j ≠ k' := fun e => hk e.symm
      simp only [tget, h3, if_false]
      split
      · exact tget_of_sorted m j k' h (by omega)
      · rfl
    · split
      · rfl
      · simp only [tget]
        rw [ih (sortedFrom_none m h)]

/-- A sparse file reads as its table with the default for what is not listed. -/
theorem sget_eq {α : Type} (d : α) (m : Sparse α) (k : Nat) : sget d m k = (tget m k).getD d := by
  induction m with
  | nil => rfl
  | cons e m ih =>
    obtain ⟨j, y⟩ := e
    simp only [sget, tget]
    split
    · rfl
    · split
      · rfl
      · exact ih

theorem sget_sset_same {α : Type} [DecidableEq α] (d : α) (m : Sparse α) (k : Nat) (x : α) (h : sortedFrom none m = true) :
    sget d (sset d m k x) k = x := by
  rw [sget_eq]
  simp only [sset]
  split
  · rename_i h2; simp [tget_terase_same m k h, h2]
  · simp

theorem sget_sset_other {α : Type} [DecidableEq α] (d : α) (m : Sparse α) {k k' : Nat} (x : α) (h : sortedFrom none m = true)
    (hk : k' ≠ k) : sget d (sset d m k x) k' = sget d m k' := by
  rw [sget_eq, sget_eq]
  simp only [sset]
  split
  · rw [tget_terase_other m h hk]
  · rw [tget_tset_other m x hk]

/-- Every entry of a table after a put is the one put or was there before. -/
theorem all_tset {α : Type} (p : Nat × α → Bool) (m : Sparse α) (k : Nat) (x : α) (h : m.all p = true) (hx : p (k, x) = true) :
    (tset m k x).all p = true := by
  induction m with
  | nil => simp [tset, hx]
  | cons e m ih =>
    obtain ⟨j, y⟩ := e
    simp only [List.all_cons, Bool.and_eq_true] at h
    simp only [tset]
    split
    · simp [hx, h.1, h.2]
    · split
      · simp [hx, h.2]
      · simp [h.1, ih h.2]

theorem all_terase {α : Type} (p : Nat × α → Bool) (m : Sparse α) (k : Nat) (h : m.all p = true) : (terase m k).all p = true := by
  induction m with
  | nil => rfl
  | cons e m ih =>
    obtain ⟨j, y⟩ := e
    have h' := h
    simp only [List.all_cons, Bool.and_eq_true] at h
    simp only [terase]
    split
    · exact h.2
    · split
      · exact h'
      · simp [h.1, ih h.2]

/-- A sparse file keeps its canonical form. -/
theorem swf_sset {α : Type} [DecidableEq α] (d : α) (m : Sparse α) (k : Nat) (x : α) (h : swf d m = true) : swf d (sset d m k x) = true := by
  simp only [swf, Bool.and_eq_true] at h ⊢
  simp only [sset]
  split
  · exact ⟨sorted_terase m k h.1, all_terase _ m k h.2⟩
  · rename_i hx
    exact ⟨sorted_tset m k x h.1, all_tset _ m k x h.2 (by simpa using hx)⟩

/-- A part of a table keeps the order of its keys. -/
theorem sortedFrom_filter {α : Type} (p : Nat × α → Bool) (m : Sparse α) (lo : Nat) (h : sortedFrom (some lo) m = true) :
    sortedFrom (some lo) (m.filter p) = true := by
  induction m generalizing lo with
  | nil => rfl
  | cons e m ih =>
    obtain ⟨j, y⟩ := e
    simp only [sortedFrom, Bool.and_eq_true, decide_eq_true_eq] at h
    simp only [List.filter_cons]
    split
    · simp [sortedFrom, h.1, ih j h.2]
    · exact ih lo (sortedFrom_weaken m h.2 (by omega))

theorem sorted_filter {α : Type} (p : Nat × α → Bool) (m : Sparse α) (h : sortedFrom none m = true) : sortedFrom none (m.filter p) = true := by
  induction m with
  | nil => rfl
  | cons e m ih =>
    obtain ⟨j, y⟩ := e
    simp only [sortedFrom, Bool.true_and] at h
    simp only [List.filter_cons]
    split
    · simp [sortedFrom, sortedFrom_filter p m j h]
    · exact ih (sortedFrom_none m h)

end Sys2Proof.Machine
end

