-- ==== Sys2Proof/Laws/State.lean ====
section
/-! SUPPORT. One lemma per field per update of the machine, a workgroup and a thread: what an update leaves alone, and what it sets. -/
namespace Sys2Proof.Machine

/-! ## The machine -/

@[simp] theorem Mach.setCore_ig (m : Mach) (c : Nat) (x : Core) : (m.setCore c x).ig = m.ig := rfl
@[simp] theorem Mach.setCore_pick (m : Mach) (c : Nat) (x : Core) : (m.setCore c x).pick = m.pick := rfl
@[simp] theorem Mach.setCore_wgs (m : Mach) (c : Nat) (x : Core) : (m.setCore c x).wgs = m.wgs := rfl
@[simp] theorem Mach.setCore_fns (m : Mach) (c : Nat) (x : Core) : (m.setCore c x).fns = m.fns := rfl
@[simp] theorem Mach.setCore_mem (m : Mach) (c : Nat) (x : Core) : (m.setCore c x).mem = m.mem := rfl
@[simp] theorem Mach.setCore_host (m : Mach) (c : Nat) (x : Core) : (m.setCore c x).host = m.host := rfl
@[simp] theorem Mach.setCore_poison (m : Mach) (c : Nat) (x : Core) : (m.setCore c x).poison = m.poison := rfl
@[simp] theorem Mach.setCore_lastFn (m : Mach) (c : Nat) (x : Core) : (m.setCore c x).lastFn = m.lastFn := rfl
@[simp] theorem Mach.setCore_lastDie (m : Mach) (c : Nat) (x : Core) : (m.setCore c x).lastDie = m.lastDie := rfl
@[simp] theorem Mach.setCore_lastLoader (m : Mach) (c : Nat) (x : Core) : (m.setCore c x).lastLoader = m.lastLoader := rfl
@[simp] theorem Mach.setCore_installs (m : Mach) (c : Nat) (x : Core) : (m.setCore c x).installs = m.installs := rfl
@[simp] theorem Mach.setCore_hub (m : Mach) (c : Nat) (x : Core) : (m.setCore c x).hub = m.hub := rfl
@[simp] theorem Mach.setCore_l2First (m : Mach) (c : Nat) (x : Core) : (m.setCore c x).l2First = m.l2First := rfl
@[simp] theorem Mach.setCore_moving (m : Mach) (c : Nat) (x : Core) : (m.setCore c x).moving = m.moving := rfl
@[simp] theorem Mach.setCore_limit (m : Mach) (c : Nat) (x : Core) : (m.setCore c x).limit = m.limit := rfl
@[simp] theorem Mach.setCore_tokens (m : Mach) (c : Nat) (x : Core) : (m.setCore c x).tokens = m.tokens := rfl
@[simp] theorem Mach.setCore_idle (m : Mach) (c : Nat) (x : Core) : (m.setCore c x).idle = m.idle := rfl
@[simp] theorem Mach.setCore_devnum (m : Mach) (c : Nat) (x : Core) : (m.setCore c x).devnum = m.devnum := rfl
@[simp] theorem Mach.setCore_rings (m : Mach) (c : Nat) (x : Core) : (m.setCore c x).rings = m.rings := rfl
@[simp] theorem Mach.setCore_powerStage (m : Mach) (c : Nat) (x : Core) : (m.setCore c x).powerStage = m.powerStage := rfl
@[simp] theorem Mach.setCore_powerSum (m : Mach) (c : Nat) (x : Core) : (m.setCore c x).powerSum = m.powerSum := rfl
@[simp] theorem Mach.setCore_portsDown (m : Mach) (c : Nat) (x : Core) : (m.setCore c x).portsDown = m.portsDown := rfl
@[simp] theorem Mach.setCore_portTries (m : Mach) (c : Nat) (x : Core) : (m.setCore c x).portTries = m.portTries := rfl
@[simp] theorem Mach.setCore_routes (m : Mach) (c : Nat) (x : Core) : (m.setCore c x).routes = m.routes := rfl
@[simp] theorem Mach.setCore_linkOut (m : Mach) (c : Nat) (x : Core) : (m.setCore c x).linkOut = m.linkOut := rfl
@[simp] theorem Mach.setCore_hostOut (m : Mach) (c : Nat) (x : Core) : (m.setCore c x).hostOut = m.hostOut := rfl
@[simp] theorem Mach.setCore_timeRef (m : Mach) (c : Nat) (x : Core) : (m.setCore c x).timeRef = m.timeRef := rfl
@[simp] theorem Mach.setCore_slew (m : Mach) (c : Nat) (x : Core) : (m.setCore c x).slew = m.slew := rfl
@[simp] theorem Mach.setCore_images (m : Mach) (c : Nat) (x : Core) : (m.setCore c x).images = m.images := rfl
@[simp] theorem Mach.setCore_access (m : Mach) (c : Nat) (x : Core) : (m.setCore c x).access = m.access := rfl
@[simp] theorem Mach.setCore_lastMove (m : Mach) (c : Nat) (x : Core) : (m.setCore c x).lastMove = m.lastMove := rfl
@[simp] theorem Mach.setCore_frameOf (m : Mach) (c : Nat) (x : Core) : (m.setCore c x).frameOf = m.frameOf := rfl
@[simp] theorem Mach.setCore_fwRunning (m : Mach) (c : Nat) (x : Core) : (m.setCore c x).fwRunning = m.fwRunning := rfl
@[simp] theorem Mach.setCore_fusedMin (m : Mach) (c : Nat) (x : Core) : (m.setCore c x).fusedMin = m.fusedMin := rfl
@[simp] theorem Mach.setCore_lastTestOk (m : Mach) (c : Nat) (x : Core) : (m.setCore c x).lastTestOk = m.lastTestOk := rfl
@[simp] theorem Mach.setCore_nextId (m : Mach) (c : Nat) (x : Core) : (m.setCore c x).nextId = m.nextId := rfl
@[simp] theorem Mach.setCore_seq (m : Mach) (c : Nat) (x : Core) : (m.setCore c x).seq = m.seq := rfl
@[simp] theorem Mach.setCore_fresh (m : Mach) (c : Nat) (x : Core) : (m.setCore c x).fresh = m.fresh := rfl
@[simp] theorem Mach.setCore_due (m : Mach) (c : Nat) (x : Core) : (m.setCore c x).due = m.due := rfl
@[simp] theorem Mach.setWg_ig (m : Mach) (c k : Nat) (x : Wg) : (m.setWg c k x).ig = m.ig := rfl
@[simp] theorem Mach.setWg_pick (m : Mach) (c k : Nat) (x : Wg) : (m.setWg c k x).pick = m.pick := rfl
@[simp] theorem Mach.setWg_cores (m : Mach) (c k : Nat) (x : Wg) : (m.setWg c k x).cores = m.cores := rfl
@[simp] theorem Mach.setWg_fns (m : Mach) (c k : Nat) (x : Wg) : (m.setWg c k x).fns = m.fns := rfl
@[simp] theorem Mach.setWg_mem (m : Mach) (c k : Nat) (x : Wg) : (m.setWg c k x).mem = m.mem := rfl
@[simp] theorem Mach.setWg_host (m : Mach) (c k : Nat) (x : Wg) : (m.setWg c k x).host = m.host := rfl
@[simp] theorem Mach.setWg_poison (m : Mach) (c k : Nat) (x : Wg) : (m.setWg c k x).poison = m.poison := rfl
@[simp] theorem Mach.setWg_lastFn (m : Mach) (c k : Nat) (x : Wg) : (m.setWg c k x).lastFn = m.lastFn := rfl
@[simp] theorem Mach.setWg_lastDie (m : Mach) (c k : Nat) (x : Wg) : (m.setWg c k x).lastDie = m.lastDie := rfl
@[simp] theorem Mach.setWg_lastLoader (m : Mach) (c k : Nat) (x : Wg) : (m.setWg c k x).lastLoader = m.lastLoader := rfl
@[simp] theorem Mach.setWg_installs (m : Mach) (c k : Nat) (x : Wg) : (m.setWg c k x).installs = m.installs := rfl
@[simp] theorem Mach.setWg_hub (m : Mach) (c k : Nat) (x : Wg) : (m.setWg c k x).hub = m.hub := rfl
@[simp] theorem Mach.setWg_l2First (m : Mach) (c k : Nat) (x : Wg) : (m.setWg c k x).l2First = m.l2First := rfl
@[simp] theorem Mach.setWg_moving (m : Mach) (c k : Nat) (x : Wg) : (m.setWg c k x).moving = m.moving := rfl
@[simp] theorem Mach.setWg_limit (m : Mach) (c k : Nat) (x : Wg) : (m.setWg c k x).limit = m.limit := rfl
@[simp] theorem Mach.setWg_tokens (m : Mach) (c k : Nat) (x : Wg) : (m.setWg c k x).tokens = m.tokens := rfl
@[simp] theorem Mach.setWg_idle (m : Mach) (c k : Nat) (x : Wg) : (m.setWg c k x).idle = m.idle := rfl
@[simp] theorem Mach.setWg_devnum (m : Mach) (c k : Nat) (x : Wg) : (m.setWg c k x).devnum = m.devnum := rfl
@[simp] theorem Mach.setWg_rings (m : Mach) (c k : Nat) (x : Wg) : (m.setWg c k x).rings = m.rings := rfl
@[simp] theorem Mach.setWg_powerStage (m : Mach) (c k : Nat) (x : Wg) : (m.setWg c k x).powerStage = m.powerStage := rfl
@[simp] theorem Mach.setWg_powerSum (m : Mach) (c k : Nat) (x : Wg) : (m.setWg c k x).powerSum = m.powerSum := rfl
@[simp] theorem Mach.setWg_portsDown (m : Mach) (c k : Nat) (x : Wg) : (m.setWg c k x).portsDown = m.portsDown := rfl
@[simp] theorem Mach.setWg_portTries (m : Mach) (c k : Nat) (x : Wg) : (m.setWg c k x).portTries = m.portTries := rfl
@[simp] theorem Mach.setWg_routes (m : Mach) (c k : Nat) (x : Wg) : (m.setWg c k x).routes = m.routes := rfl
@[simp] theorem Mach.setWg_linkOut (m : Mach) (c k : Nat) (x : Wg) : (m.setWg c k x).linkOut = m.linkOut := rfl
@[simp] theorem Mach.setWg_hostOut (m : Mach) (c k : Nat) (x : Wg) : (m.setWg c k x).hostOut = m.hostOut := rfl
@[simp] theorem Mach.setWg_timeRef (m : Mach) (c k : Nat) (x : Wg) : (m.setWg c k x).timeRef = m.timeRef := rfl
@[simp] theorem Mach.setWg_slew (m : Mach) (c k : Nat) (x : Wg) : (m.setWg c k x).slew = m.slew := rfl
@[simp] theorem Mach.setWg_images (m : Mach) (c k : Nat) (x : Wg) : (m.setWg c k x).images = m.images := rfl
@[simp] theorem Mach.setWg_access (m : Mach) (c k : Nat) (x : Wg) : (m.setWg c k x).access = m.access := rfl
@[simp] theorem Mach.setWg_lastMove (m : Mach) (c k : Nat) (x : Wg) : (m.setWg c k x).lastMove = m.lastMove := rfl
@[simp] theorem Mach.setWg_frameOf (m : Mach) (c k : Nat) (x : Wg) : (m.setWg c k x).frameOf = m.frameOf := rfl
@[simp] theorem Mach.setWg_fwRunning (m : Mach) (c k : Nat) (x : Wg) : (m.setWg c k x).fwRunning = m.fwRunning := rfl
@[simp] theorem Mach.setWg_fusedMin (m : Mach) (c k : Nat) (x : Wg) : (m.setWg c k x).fusedMin = m.fusedMin := rfl
@[simp] theorem Mach.setWg_lastTestOk (m : Mach) (c k : Nat) (x : Wg) : (m.setWg c k x).lastTestOk = m.lastTestOk := rfl
@[simp] theorem Mach.setWg_nextId (m : Mach) (c k : Nat) (x : Wg) : (m.setWg c k x).nextId = m.nextId := rfl
@[simp] theorem Mach.setWg_seq (m : Mach) (c k : Nat) (x : Wg) : (m.setWg c k x).seq = m.seq := rfl
@[simp] theorem Mach.setWg_fresh (m : Mach) (c k : Nat) (x : Wg) : (m.setWg c k x).fresh = m.fresh := rfl
@[simp] theorem Mach.setWg_due (m : Mach) (c k : Nat) (x : Wg) : (m.setWg c k x).due = m.due := rfl
@[simp] theorem Mach.setFn_ig (m : Mach) (f : Nat) (x : Fn) : (m.setFn f x).ig = m.ig := rfl
@[simp] theorem Mach.setFn_pick (m : Mach) (f : Nat) (x : Fn) : (m.setFn f x).pick = m.pick := rfl
@[simp] theorem Mach.setFn_cores (m : Mach) (f : Nat) (x : Fn) : (m.setFn f x).cores = m.cores := rfl
@[simp] theorem Mach.setFn_wgs (m : Mach) (f : Nat) (x : Fn) : (m.setFn f x).wgs = m.wgs := rfl
@[simp] theorem Mach.setFn_mem (m : Mach) (f : Nat) (x : Fn) : (m.setFn f x).mem = m.mem := rfl
@[simp] theorem Mach.setFn_host (m : Mach) (f : Nat) (x : Fn) : (m.setFn f x).host = m.host := rfl
@[simp] theorem Mach.setFn_poison (m : Mach) (f : Nat) (x : Fn) : (m.setFn f x).poison = m.poison := rfl
@[simp] theorem Mach.setFn_lastFn (m : Mach) (f : Nat) (x : Fn) : (m.setFn f x).lastFn = m.lastFn := rfl
@[simp] theorem Mach.setFn_lastDie (m : Mach) (f : Nat) (x : Fn) : (m.setFn f x).lastDie = m.lastDie := rfl
@[simp] theorem Mach.setFn_lastLoader (m : Mach) (f : Nat) (x : Fn) : (m.setFn f x).lastLoader = m.lastLoader := rfl
@[simp] theorem Mach.setFn_installs (m : Mach) (f : Nat) (x : Fn) : (m.setFn f x).installs = m.installs := rfl
@[simp] theorem Mach.setFn_hub (m : Mach) (f : Nat) (x : Fn) : (m.setFn f x).hub = m.hub := rfl
@[simp] theorem Mach.setFn_l2First (m : Mach) (f : Nat) (x : Fn) : (m.setFn f x).l2First = m.l2First := rfl
@[simp] theorem Mach.setFn_moving (m : Mach) (f : Nat) (x : Fn) : (m.setFn f x).moving = m.moving := rfl
@[simp] theorem Mach.setFn_limit (m : Mach) (f : Nat) (x : Fn) : (m.setFn f x).limit = m.limit := rfl
@[simp] theorem Mach.setFn_tokens (m : Mach) (f : Nat) (x : Fn) : (m.setFn f x).tokens = m.tokens := rfl
@[simp] theorem Mach.setFn_idle (m : Mach) (f : Nat) (x : Fn) : (m.setFn f x).idle = m.idle := rfl
@[simp] theorem Mach.setFn_devnum (m : Mach) (f : Nat) (x : Fn) : (m.setFn f x).devnum = m.devnum := rfl
@[simp] theorem Mach.setFn_rings (m : Mach) (f : Nat) (x : Fn) : (m.setFn f x).rings = m.rings := rfl
@[simp] theorem Mach.setFn_powerStage (m : Mach) (f : Nat) (x : Fn) : (m.setFn f x).powerStage = m.powerStage := rfl
@[simp] theorem Mach.setFn_powerSum (m : Mach) (f : Nat) (x : Fn) : (m.setFn f x).powerSum = m.powerSum := rfl
@[simp] theorem Mach.setFn_portsDown (m : Mach) (f : Nat) (x : Fn) : (m.setFn f x).portsDown = m.portsDown := rfl
@[simp] theorem Mach.setFn_portTries (m : Mach) (f : Nat) (x : Fn) : (m.setFn f x).portTries = m.portTries := rfl
@[simp] theorem Mach.setFn_routes (m : Mach) (f : Nat) (x : Fn) : (m.setFn f x).routes = m.routes := rfl
@[simp] theorem Mach.setFn_linkOut (m : Mach) (f : Nat) (x : Fn) : (m.setFn f x).linkOut = m.linkOut := rfl
@[simp] theorem Mach.setFn_hostOut (m : Mach) (f : Nat) (x : Fn) : (m.setFn f x).hostOut = m.hostOut := rfl
@[simp] theorem Mach.setFn_timeRef (m : Mach) (f : Nat) (x : Fn) : (m.setFn f x).timeRef = m.timeRef := rfl
@[simp] theorem Mach.setFn_slew (m : Mach) (f : Nat) (x : Fn) : (m.setFn f x).slew = m.slew := rfl
@[simp] theorem Mach.setFn_images (m : Mach) (f : Nat) (x : Fn) : (m.setFn f x).images = m.images := rfl
@[simp] theorem Mach.setFn_access (m : Mach) (f : Nat) (x : Fn) : (m.setFn f x).access = m.access := rfl
@[simp] theorem Mach.setFn_lastMove (m : Mach) (f : Nat) (x : Fn) : (m.setFn f x).lastMove = m.lastMove := rfl
@[simp] theorem Mach.setFn_frameOf (m : Mach) (f : Nat) (x : Fn) : (m.setFn f x).frameOf = m.frameOf := rfl
@[simp] theorem Mach.setFn_fwRunning (m : Mach) (f : Nat) (x : Fn) : (m.setFn f x).fwRunning = m.fwRunning := rfl
@[simp] theorem Mach.setFn_fusedMin (m : Mach) (f : Nat) (x : Fn) : (m.setFn f x).fusedMin = m.fusedMin := rfl
@[simp] theorem Mach.setFn_lastTestOk (m : Mach) (f : Nat) (x : Fn) : (m.setFn f x).lastTestOk = m.lastTestOk := rfl
@[simp] theorem Mach.setFn_nextId (m : Mach) (f : Nat) (x : Fn) : (m.setFn f x).nextId = m.nextId := rfl
@[simp] theorem Mach.setFn_seq (m : Mach) (f : Nat) (x : Fn) : (m.setFn f x).seq = m.seq := rfl
@[simp] theorem Mach.setFn_fresh (m : Mach) (f : Nat) (x : Fn) : (m.setFn f x).fresh = m.fresh := rfl
@[simp] theorem Mach.setFn_due (m : Mach) (f : Nat) (x : Fn) : (m.setFn f x).due = m.due := rfl
@[simp] theorem Mach.delWg_ig (m : Mach) (c k : Nat) : (m.delWg c k).ig = m.ig := rfl
@[simp] theorem Mach.delWg_pick (m : Mach) (c k : Nat) : (m.delWg c k).pick = m.pick := rfl
@[simp] theorem Mach.delWg_cores (m : Mach) (c k : Nat) : (m.delWg c k).cores = m.cores := rfl
@[simp] theorem Mach.delWg_fns (m : Mach) (c k : Nat) : (m.delWg c k).fns = m.fns := rfl
@[simp] theorem Mach.delWg_mem (m : Mach) (c k : Nat) : (m.delWg c k).mem = m.mem := rfl
@[simp] theorem Mach.delWg_host (m : Mach) (c k : Nat) : (m.delWg c k).host = m.host := rfl
@[simp] theorem Mach.delWg_poison (m : Mach) (c k : Nat) : (m.delWg c k).poison = m.poison := rfl
@[simp] theorem Mach.delWg_lastFn (m : Mach) (c k : Nat) : (m.delWg c k).lastFn = m.lastFn := rfl
@[simp] theorem Mach.delWg_lastDie (m : Mach) (c k : Nat) : (m.delWg c k).lastDie = m.lastDie := rfl
@[simp] theorem Mach.delWg_lastLoader (m : Mach) (c k : Nat) : (m.delWg c k).lastLoader = m.lastLoader := rfl
@[simp] theorem Mach.delWg_installs (m : Mach) (c k : Nat) : (m.delWg c k).installs = m.installs := rfl
@[simp] theorem Mach.delWg_hub (m : Mach) (c k : Nat) : (m.delWg c k).hub = m.hub := rfl
@[simp] theorem Mach.delWg_l2First (m : Mach) (c k : Nat) : (m.delWg c k).l2First = m.l2First := rfl
@[simp] theorem Mach.delWg_moving (m : Mach) (c k : Nat) : (m.delWg c k).moving = m.moving := rfl
@[simp] theorem Mach.delWg_limit (m : Mach) (c k : Nat) : (m.delWg c k).limit = m.limit := rfl
@[simp] theorem Mach.delWg_tokens (m : Mach) (c k : Nat) : (m.delWg c k).tokens = m.tokens := rfl
@[simp] theorem Mach.delWg_idle (m : Mach) (c k : Nat) : (m.delWg c k).idle = m.idle := rfl
@[simp] theorem Mach.delWg_devnum (m : Mach) (c k : Nat) : (m.delWg c k).devnum = m.devnum := rfl
@[simp] theorem Mach.delWg_rings (m : Mach) (c k : Nat) : (m.delWg c k).rings = m.rings := rfl
@[simp] theorem Mach.delWg_powerStage (m : Mach) (c k : Nat) : (m.delWg c k).powerStage = m.powerStage := rfl
@[simp] theorem Mach.delWg_powerSum (m : Mach) (c k : Nat) : (m.delWg c k).powerSum = m.powerSum := rfl
@[simp] theorem Mach.delWg_portsDown (m : Mach) (c k : Nat) : (m.delWg c k).portsDown = m.portsDown := rfl
@[simp] theorem Mach.delWg_portTries (m : Mach) (c k : Nat) : (m.delWg c k).portTries = m.portTries := rfl
@[simp] theorem Mach.delWg_routes (m : Mach) (c k : Nat) : (m.delWg c k).routes = m.routes := rfl
@[simp] theorem Mach.delWg_linkOut (m : Mach) (c k : Nat) : (m.delWg c k).linkOut = m.linkOut := rfl
@[simp] theorem Mach.delWg_hostOut (m : Mach) (c k : Nat) : (m.delWg c k).hostOut = m.hostOut := rfl
@[simp] theorem Mach.delWg_timeRef (m : Mach) (c k : Nat) : (m.delWg c k).timeRef = m.timeRef := rfl
@[simp] theorem Mach.delWg_slew (m : Mach) (c k : Nat) : (m.delWg c k).slew = m.slew := rfl
@[simp] theorem Mach.delWg_images (m : Mach) (c k : Nat) : (m.delWg c k).images = m.images := rfl
@[simp] theorem Mach.delWg_access (m : Mach) (c k : Nat) : (m.delWg c k).access = m.access := rfl
@[simp] theorem Mach.delWg_lastMove (m : Mach) (c k : Nat) : (m.delWg c k).lastMove = m.lastMove := rfl
@[simp] theorem Mach.delWg_frameOf (m : Mach) (c k : Nat) : (m.delWg c k).frameOf = m.frameOf := rfl
@[simp] theorem Mach.delWg_fwRunning (m : Mach) (c k : Nat) : (m.delWg c k).fwRunning = m.fwRunning := rfl
@[simp] theorem Mach.delWg_fusedMin (m : Mach) (c k : Nat) : (m.delWg c k).fusedMin = m.fusedMin := rfl
@[simp] theorem Mach.delWg_lastTestOk (m : Mach) (c k : Nat) : (m.delWg c k).lastTestOk = m.lastTestOk := rfl
@[simp] theorem Mach.delWg_nextId (m : Mach) (c k : Nat) : (m.delWg c k).nextId = m.nextId := rfl
@[simp] theorem Mach.delWg_seq (m : Mach) (c k : Nat) : (m.delWg c k).seq = m.seq := rfl
@[simp] theorem Mach.delWg_fresh (m : Mach) (c k : Nat) : (m.delWg c k).fresh = m.fresh := rfl
@[simp] theorem Mach.delWg_due (m : Mach) (c k : Nat) : (m.delWg c k).due = m.due := rfl
@[simp] theorem Mach.modCore_ig (m : Mach) (c : Nat) (x : Core → Core) : (m.modCore c x).ig = m.ig := rfl
@[simp] theorem Mach.modCore_pick (m : Mach) (c : Nat) (x : Core → Core) : (m.modCore c x).pick = m.pick := rfl
@[simp] theorem Mach.modCore_wgs (m : Mach) (c : Nat) (x : Core → Core) : (m.modCore c x).wgs = m.wgs := rfl
@[simp] theorem Mach.modCore_fns (m : Mach) (c : Nat) (x : Core → Core) : (m.modCore c x).fns = m.fns := rfl
@[simp] theorem Mach.modCore_mem (m : Mach) (c : Nat) (x : Core → Core) : (m.modCore c x).mem = m.mem := rfl
@[simp] theorem Mach.modCore_host (m : Mach) (c : Nat) (x : Core → Core) : (m.modCore c x).host = m.host := rfl
@[simp] theorem Mach.modCore_poison (m : Mach) (c : Nat) (x : Core → Core) : (m.modCore c x).poison = m.poison := rfl
@[simp] theorem Mach.modCore_lastFn (m : Mach) (c : Nat) (x : Core → Core) : (m.modCore c x).lastFn = m.lastFn := rfl
@[simp] theorem Mach.modCore_lastDie (m : Mach) (c : Nat) (x : Core → Core) : (m.modCore c x).lastDie = m.lastDie := rfl
@[simp] theorem Mach.modCore_lastLoader (m : Mach) (c : Nat) (x : Core → Core) : (m.modCore c x).lastLoader = m.lastLoader := rfl
@[simp] theorem Mach.modCore_installs (m : Mach) (c : Nat) (x : Core → Core) : (m.modCore c x).installs = m.installs := rfl
@[simp] theorem Mach.modCore_hub (m : Mach) (c : Nat) (x : Core → Core) : (m.modCore c x).hub = m.hub := rfl
@[simp] theorem Mach.modCore_l2First (m : Mach) (c : Nat) (x : Core → Core) : (m.modCore c x).l2First = m.l2First := rfl
@[simp] theorem Mach.modCore_moving (m : Mach) (c : Nat) (x : Core → Core) : (m.modCore c x).moving = m.moving := rfl
@[simp] theorem Mach.modCore_limit (m : Mach) (c : Nat) (x : Core → Core) : (m.modCore c x).limit = m.limit := rfl
@[simp] theorem Mach.modCore_tokens (m : Mach) (c : Nat) (x : Core → Core) : (m.modCore c x).tokens = m.tokens := rfl
@[simp] theorem Mach.modCore_idle (m : Mach) (c : Nat) (x : Core → Core) : (m.modCore c x).idle = m.idle := rfl
@[simp] theorem Mach.modCore_devnum (m : Mach) (c : Nat) (x : Core → Core) : (m.modCore c x).devnum = m.devnum := rfl
@[simp] theorem Mach.modCore_rings (m : Mach) (c : Nat) (x : Core → Core) : (m.modCore c x).rings = m.rings := rfl
@[simp] theorem Mach.modCore_powerStage (m : Mach) (c : Nat) (x : Core → Core) : (m.modCore c x).powerStage = m.powerStage := rfl
@[simp] theorem Mach.modCore_powerSum (m : Mach) (c : Nat) (x : Core → Core) : (m.modCore c x).powerSum = m.powerSum := rfl
@[simp] theorem Mach.modCore_portsDown (m : Mach) (c : Nat) (x : Core → Core) : (m.modCore c x).portsDown = m.portsDown := rfl
@[simp] theorem Mach.modCore_portTries (m : Mach) (c : Nat) (x : Core → Core) : (m.modCore c x).portTries = m.portTries := rfl
@[simp] theorem Mach.modCore_routes (m : Mach) (c : Nat) (x : Core → Core) : (m.modCore c x).routes = m.routes := rfl
@[simp] theorem Mach.modCore_linkOut (m : Mach) (c : Nat) (x : Core → Core) : (m.modCore c x).linkOut = m.linkOut := rfl
@[simp] theorem Mach.modCore_hostOut (m : Mach) (c : Nat) (x : Core → Core) : (m.modCore c x).hostOut = m.hostOut := rfl
@[simp] theorem Mach.modCore_timeRef (m : Mach) (c : Nat) (x : Core → Core) : (m.modCore c x).timeRef = m.timeRef := rfl
@[simp] theorem Mach.modCore_slew (m : Mach) (c : Nat) (x : Core → Core) : (m.modCore c x).slew = m.slew := rfl
@[simp] theorem Mach.modCore_images (m : Mach) (c : Nat) (x : Core → Core) : (m.modCore c x).images = m.images := rfl
@[simp] theorem Mach.modCore_access (m : Mach) (c : Nat) (x : Core → Core) : (m.modCore c x).access = m.access := rfl
@[simp] theorem Mach.modCore_lastMove (m : Mach) (c : Nat) (x : Core → Core) : (m.modCore c x).lastMove = m.lastMove := rfl
@[simp] theorem Mach.modCore_frameOf (m : Mach) (c : Nat) (x : Core → Core) : (m.modCore c x).frameOf = m.frameOf := rfl
@[simp] theorem Mach.modCore_fwRunning (m : Mach) (c : Nat) (x : Core → Core) : (m.modCore c x).fwRunning = m.fwRunning := rfl
@[simp] theorem Mach.modCore_fusedMin (m : Mach) (c : Nat) (x : Core → Core) : (m.modCore c x).fusedMin = m.fusedMin := rfl
@[simp] theorem Mach.modCore_lastTestOk (m : Mach) (c : Nat) (x : Core → Core) : (m.modCore c x).lastTestOk = m.lastTestOk := rfl
@[simp] theorem Mach.modCore_nextId (m : Mach) (c : Nat) (x : Core → Core) : (m.modCore c x).nextId = m.nextId := rfl
@[simp] theorem Mach.modCore_seq (m : Mach) (c : Nat) (x : Core → Core) : (m.modCore c x).seq = m.seq := rfl
@[simp] theorem Mach.modCore_fresh (m : Mach) (c : Nat) (x : Core → Core) : (m.modCore c x).fresh = m.fresh := rfl
@[simp] theorem Mach.modCore_due (m : Mach) (c : Nat) (x : Core → Core) : (m.modCore c x).due = m.due := rfl
@[simp] theorem Mach.modFn_ig (m : Mach) (f : Nat) (x : Fn → Fn) : (m.modFn f x).ig = m.ig := rfl
@[simp] theorem Mach.modFn_pick (m : Mach) (f : Nat) (x : Fn → Fn) : (m.modFn f x).pick = m.pick := rfl
@[simp] theorem Mach.modFn_cores (m : Mach) (f : Nat) (x : Fn → Fn) : (m.modFn f x).cores = m.cores := rfl
@[simp] theorem Mach.modFn_wgs (m : Mach) (f : Nat) (x : Fn → Fn) : (m.modFn f x).wgs = m.wgs := rfl
@[simp] theorem Mach.modFn_mem (m : Mach) (f : Nat) (x : Fn → Fn) : (m.modFn f x).mem = m.mem := rfl
@[simp] theorem Mach.modFn_host (m : Mach) (f : Nat) (x : Fn → Fn) : (m.modFn f x).host = m.host := rfl
@[simp] theorem Mach.modFn_poison (m : Mach) (f : Nat) (x : Fn → Fn) : (m.modFn f x).poison = m.poison := rfl
@[simp] theorem Mach.modFn_lastFn (m : Mach) (f : Nat) (x : Fn → Fn) : (m.modFn f x).lastFn = m.lastFn := rfl
@[simp] theorem Mach.modFn_lastDie (m : Mach) (f : Nat) (x : Fn → Fn) : (m.modFn f x).lastDie = m.lastDie := rfl
@[simp] theorem Mach.modFn_lastLoader (m : Mach) (f : Nat) (x : Fn → Fn) : (m.modFn f x).lastLoader = m.lastLoader := rfl
@[simp] theorem Mach.modFn_installs (m : Mach) (f : Nat) (x : Fn → Fn) : (m.modFn f x).installs = m.installs := rfl
@[simp] theorem Mach.modFn_hub (m : Mach) (f : Nat) (x : Fn → Fn) : (m.modFn f x).hub = m.hub := rfl
@[simp] theorem Mach.modFn_l2First (m : Mach) (f : Nat) (x : Fn → Fn) : (m.modFn f x).l2First = m.l2First := rfl
@[simp] theorem Mach.modFn_moving (m : Mach) (f : Nat) (x : Fn → Fn) : (m.modFn f x).moving = m.moving := rfl
@[simp] theorem Mach.modFn_limit (m : Mach) (f : Nat) (x : Fn → Fn) : (m.modFn f x).limit = m.limit := rfl
@[simp] theorem Mach.modFn_tokens (m : Mach) (f : Nat) (x : Fn → Fn) : (m.modFn f x).tokens = m.tokens := rfl
@[simp] theorem Mach.modFn_idle (m : Mach) (f : Nat) (x : Fn → Fn) : (m.modFn f x).idle = m.idle := rfl
@[simp] theorem Mach.modFn_devnum (m : Mach) (f : Nat) (x : Fn → Fn) : (m.modFn f x).devnum = m.devnum := rfl
@[simp] theorem Mach.modFn_rings (m : Mach) (f : Nat) (x : Fn → Fn) : (m.modFn f x).rings = m.rings := rfl
@[simp] theorem Mach.modFn_powerStage (m : Mach) (f : Nat) (x : Fn → Fn) : (m.modFn f x).powerStage = m.powerStage := rfl
@[simp] theorem Mach.modFn_powerSum (m : Mach) (f : Nat) (x : Fn → Fn) : (m.modFn f x).powerSum = m.powerSum := rfl
@[simp] theorem Mach.modFn_portsDown (m : Mach) (f : Nat) (x : Fn → Fn) : (m.modFn f x).portsDown = m.portsDown := rfl
@[simp] theorem Mach.modFn_portTries (m : Mach) (f : Nat) (x : Fn → Fn) : (m.modFn f x).portTries = m.portTries := rfl
@[simp] theorem Mach.modFn_routes (m : Mach) (f : Nat) (x : Fn → Fn) : (m.modFn f x).routes = m.routes := rfl
@[simp] theorem Mach.modFn_linkOut (m : Mach) (f : Nat) (x : Fn → Fn) : (m.modFn f x).linkOut = m.linkOut := rfl
@[simp] theorem Mach.modFn_hostOut (m : Mach) (f : Nat) (x : Fn → Fn) : (m.modFn f x).hostOut = m.hostOut := rfl
@[simp] theorem Mach.modFn_timeRef (m : Mach) (f : Nat) (x : Fn → Fn) : (m.modFn f x).timeRef = m.timeRef := rfl
@[simp] theorem Mach.modFn_slew (m : Mach) (f : Nat) (x : Fn → Fn) : (m.modFn f x).slew = m.slew := rfl
@[simp] theorem Mach.modFn_images (m : Mach) (f : Nat) (x : Fn → Fn) : (m.modFn f x).images = m.images := rfl
@[simp] theorem Mach.modFn_access (m : Mach) (f : Nat) (x : Fn → Fn) : (m.modFn f x).access = m.access := rfl
@[simp] theorem Mach.modFn_lastMove (m : Mach) (f : Nat) (x : Fn → Fn) : (m.modFn f x).lastMove = m.lastMove := rfl
@[simp] theorem Mach.modFn_frameOf (m : Mach) (f : Nat) (x : Fn → Fn) : (m.modFn f x).frameOf = m.frameOf := rfl
@[simp] theorem Mach.modFn_fwRunning (m : Mach) (f : Nat) (x : Fn → Fn) : (m.modFn f x).fwRunning = m.fwRunning := rfl
@[simp] theorem Mach.modFn_fusedMin (m : Mach) (f : Nat) (x : Fn → Fn) : (m.modFn f x).fusedMin = m.fusedMin := rfl
@[simp] theorem Mach.modFn_lastTestOk (m : Mach) (f : Nat) (x : Fn → Fn) : (m.modFn f x).lastTestOk = m.lastTestOk := rfl
@[simp] theorem Mach.modFn_nextId (m : Mach) (f : Nat) (x : Fn → Fn) : (m.modFn f x).nextId = m.nextId := rfl
@[simp] theorem Mach.modFn_seq (m : Mach) (f : Nat) (x : Fn → Fn) : (m.modFn f x).seq = m.seq := rfl
@[simp] theorem Mach.modFn_fresh (m : Mach) (f : Nat) (x : Fn → Fn) : (m.modFn f x).fresh = m.fresh := rfl
@[simp] theorem Mach.modFn_due (m : Mach) (f : Nat) (x : Fn → Fn) : (m.modFn f x).due = m.due := rfl
@[simp] theorem Mach.modWg_ig (m : Mach) (c k : Nat) (x : Wg → Wg) : (m.modWg c k x).ig = m.ig := by unfold Mach.modWg; split <;> rfl
@[simp] theorem Mach.modWg_pick (m : Mach) (c k : Nat) (x : Wg → Wg) : (m.modWg c k x).pick = m.pick := by unfold Mach.modWg; split <;> rfl
@[simp] theorem Mach.modWg_cores (m : Mach) (c k : Nat) (x : Wg → Wg) : (m.modWg c k x).cores = m.cores := by unfold Mach.modWg; split <;> rfl
@[simp] theorem Mach.modWg_fns (m : Mach) (c k : Nat) (x : Wg → Wg) : (m.modWg c k x).fns = m.fns := by unfold Mach.modWg; split <;> rfl
@[simp] theorem Mach.modWg_mem (m : Mach) (c k : Nat) (x : Wg → Wg) : (m.modWg c k x).mem = m.mem := by unfold Mach.modWg; split <;> rfl
@[simp] theorem Mach.modWg_host (m : Mach) (c k : Nat) (x : Wg → Wg) : (m.modWg c k x).host = m.host := by unfold Mach.modWg; split <;> rfl
@[simp] theorem Mach.modWg_poison (m : Mach) (c k : Nat) (x : Wg → Wg) : (m.modWg c k x).poison = m.poison := by unfold Mach.modWg; split <;> rfl
@[simp] theorem Mach.modWg_lastFn (m : Mach) (c k : Nat) (x : Wg → Wg) : (m.modWg c k x).lastFn = m.lastFn := by unfold Mach.modWg; split <;> rfl
@[simp] theorem Mach.modWg_lastDie (m : Mach) (c k : Nat) (x : Wg → Wg) : (m.modWg c k x).lastDie = m.lastDie := by unfold Mach.modWg; split <;> rfl
@[simp] theorem Mach.modWg_lastLoader (m : Mach) (c k : Nat) (x : Wg → Wg) : (m.modWg c k x).lastLoader = m.lastLoader := by unfold Mach.modWg; split <;> rfl
@[simp] theorem Mach.modWg_installs (m : Mach) (c k : Nat) (x : Wg → Wg) : (m.modWg c k x).installs = m.installs := by unfold Mach.modWg; split <;> rfl
@[simp] theorem Mach.modWg_hub (m : Mach) (c k : Nat) (x : Wg → Wg) : (m.modWg c k x).hub = m.hub := by unfold Mach.modWg; split <;> rfl
@[simp] theorem Mach.modWg_l2First (m : Mach) (c k : Nat) (x : Wg → Wg) : (m.modWg c k x).l2First = m.l2First := by unfold Mach.modWg; split <;> rfl
@[simp] theorem Mach.modWg_moving (m : Mach) (c k : Nat) (x : Wg → Wg) : (m.modWg c k x).moving = m.moving := by unfold Mach.modWg; split <;> rfl
@[simp] theorem Mach.modWg_limit (m : Mach) (c k : Nat) (x : Wg → Wg) : (m.modWg c k x).limit = m.limit := by unfold Mach.modWg; split <;> rfl
@[simp] theorem Mach.modWg_tokens (m : Mach) (c k : Nat) (x : Wg → Wg) : (m.modWg c k x).tokens = m.tokens := by unfold Mach.modWg; split <;> rfl
@[simp] theorem Mach.modWg_idle (m : Mach) (c k : Nat) (x : Wg → Wg) : (m.modWg c k x).idle = m.idle := by unfold Mach.modWg; split <;> rfl
@[simp] theorem Mach.modWg_devnum (m : Mach) (c k : Nat) (x : Wg → Wg) : (m.modWg c k x).devnum = m.devnum := by unfold Mach.modWg; split <;> rfl
@[simp] theorem Mach.modWg_rings (m : Mach) (c k : Nat) (x : Wg → Wg) : (m.modWg c k x).rings = m.rings := by unfold Mach.modWg; split <;> rfl
@[simp] theorem Mach.modWg_powerStage (m : Mach) (c k : Nat) (x : Wg → Wg) : (m.modWg c k x).powerStage = m.powerStage := by unfold Mach.modWg; split <;> rfl
@[simp] theorem Mach.modWg_powerSum (m : Mach) (c k : Nat) (x : Wg → Wg) : (m.modWg c k x).powerSum = m.powerSum := by unfold Mach.modWg; split <;> rfl
@[simp] theorem Mach.modWg_portsDown (m : Mach) (c k : Nat) (x : Wg → Wg) : (m.modWg c k x).portsDown = m.portsDown := by unfold Mach.modWg; split <;> rfl
@[simp] theorem Mach.modWg_portTries (m : Mach) (c k : Nat) (x : Wg → Wg) : (m.modWg c k x).portTries = m.portTries := by unfold Mach.modWg; split <;> rfl
@[simp] theorem Mach.modWg_routes (m : Mach) (c k : Nat) (x : Wg → Wg) : (m.modWg c k x).routes = m.routes := by unfold Mach.modWg; split <;> rfl
@[simp] theorem Mach.modWg_linkOut (m : Mach) (c k : Nat) (x : Wg → Wg) : (m.modWg c k x).linkOut = m.linkOut := by unfold Mach.modWg; split <;> rfl
@[simp] theorem Mach.modWg_hostOut (m : Mach) (c k : Nat) (x : Wg → Wg) : (m.modWg c k x).hostOut = m.hostOut := by unfold Mach.modWg; split <;> rfl
@[simp] theorem Mach.modWg_timeRef (m : Mach) (c k : Nat) (x : Wg → Wg) : (m.modWg c k x).timeRef = m.timeRef := by unfold Mach.modWg; split <;> rfl
@[simp] theorem Mach.modWg_slew (m : Mach) (c k : Nat) (x : Wg → Wg) : (m.modWg c k x).slew = m.slew := by unfold Mach.modWg; split <;> rfl
@[simp] theorem Mach.modWg_images (m : Mach) (c k : Nat) (x : Wg → Wg) : (m.modWg c k x).images = m.images := by unfold Mach.modWg; split <;> rfl
@[simp] theorem Mach.modWg_access (m : Mach) (c k : Nat) (x : Wg → Wg) : (m.modWg c k x).access = m.access := by unfold Mach.modWg; split <;> rfl
@[simp] theorem Mach.modWg_lastMove (m : Mach) (c k : Nat) (x : Wg → Wg) : (m.modWg c k x).lastMove = m.lastMove := by unfold Mach.modWg; split <;> rfl
@[simp] theorem Mach.modWg_frameOf (m : Mach) (c k : Nat) (x : Wg → Wg) : (m.modWg c k x).frameOf = m.frameOf := by unfold Mach.modWg; split <;> rfl
@[simp] theorem Mach.modWg_fwRunning (m : Mach) (c k : Nat) (x : Wg → Wg) : (m.modWg c k x).fwRunning = m.fwRunning := by unfold Mach.modWg; split <;> rfl
@[simp] theorem Mach.modWg_fusedMin (m : Mach) (c k : Nat) (x : Wg → Wg) : (m.modWg c k x).fusedMin = m.fusedMin := by unfold Mach.modWg; split <;> rfl
@[simp] theorem Mach.modWg_lastTestOk (m : Mach) (c k : Nat) (x : Wg → Wg) : (m.modWg c k x).lastTestOk = m.lastTestOk := by unfold Mach.modWg; split <;> rfl
@[simp] theorem Mach.modWg_nextId (m : Mach) (c k : Nat) (x : Wg → Wg) : (m.modWg c k x).nextId = m.nextId := by unfold Mach.modWg; split <;> rfl
@[simp] theorem Mach.modWg_seq (m : Mach) (c k : Nat) (x : Wg → Wg) : (m.modWg c k x).seq = m.seq := by unfold Mach.modWg; split <;> rfl
@[simp] theorem Mach.modWg_fresh (m : Mach) (c k : Nat) (x : Wg → Wg) : (m.modWg c k x).fresh = m.fresh := by unfold Mach.modWg; split <;> rfl
@[simp] theorem Mach.modWg_due (m : Mach) (c k : Nat) (x : Wg → Wg) : (m.modWg c k x).due = m.due := by unfold Mach.modWg; split <;> rfl

@[simp] theorem Mach.setWg_core (m : Mach) (c k : Nat) (x : Wg) (d : Nat) : (m.setWg c k x).core d = m.core d := rfl
@[simp] theorem Mach.setFn_core (m : Mach) (f : Nat) (x : Fn) (d : Nat) : (m.setFn f x).core d = m.core d := rfl
@[simp] theorem Mach.setCore_fn (m : Mach) (c : Nat) (x : Core) (f : Nat) : (m.setCore c x).fn f = m.fn f := rfl
@[simp] theorem Mach.setWg_fn (m : Mach) (c k : Nat) (x : Wg) (f : Nat) : (m.setWg c k x).fn f = m.fn f := rfl
@[simp] theorem Mach.setCore_wg? (m : Mach) (c : Nat) (x : Core) (d k : Nat) : (m.setCore c x).wg? d k = m.wg? d k := rfl
@[simp] theorem Mach.setFn_wg? (m : Mach) (f : Nat) (x : Fn) (d k : Nat) : (m.setFn f x).wg? d k = m.wg? d k := rfl
@[simp] theorem Mach.modCore_wg? (m : Mach) (c : Nat) (x : Core → Core) (d k : Nat) : (m.modCore c x).wg? d k = m.wg? d k := rfl
@[simp] theorem Mach.modFn_wg? (m : Mach) (f : Nat) (x : Fn → Fn) (d k : Nat) : (m.modFn f x).wg? d k = m.wg? d k := rfl
@[simp] theorem Mach.setWg_wg? (m : Mach) (c k : Nat) (x : Wg) : (m.setWg c k x).wg? c k = some x := by
  simp [Mach.setWg, Mach.wg?]
@[simp] theorem Mach.setCore_core (m : Mach) (c : Nat) (x : Core) : (m.setCore c x).core c = x := by
  simp [Mach.setCore, Mach.core]
@[simp] theorem Mach.setFn_fn (m : Mach) (f : Nat) (x : Fn) : (m.setFn f x).fn f = x := by
  simp [Mach.setFn, Mach.fn]
theorem Mach.setCore_core_other (m : Mach) {c d : Nat} (x : Core) (h : d ≠ c) : (m.setCore c x).core d = m.core d := by
  simp [Mach.setCore, Mach.core, tget_tset_other _ _ h]
theorem Mach.setFn_fn_other (m : Mach) {f g : Nat} (x : Fn) (h : g ≠ f) : (m.setFn f x).fn g = m.fn g := by
  simp [Mach.setFn, Mach.fn, tget_tset_other _ _ h]
/-- Another slot's workgroup is another key of the table. -/
theorem Mach.setWg_wg?_other (m : Mach) {c k d j : Nat} (x : Wg) (h : d * 64 + j ≠ c * 64 + k) : (m.setWg c k x).wg? d j = m.wg? d j := by
  simp [Mach.setWg, Mach.wg?, tget_tset_other _ _ h]
theorem Mach.modWg_eq (m : Mach) {c k : Nat} {w : Wg} (f : Wg → Wg) (h : m.wg? c k = some w) : m.modWg c k f = m.setWg c k (f w) := by
  simp [Mach.modWg, h]
theorem tset_tset {α : Type} (m : Sparse α) (k : Nat) (x y : α) : tset (tset m k x) k y = tset m k y := by
  induction m with
  | nil => simp [tset]
  | cons e m ih =>
    obtain ⟨j, z⟩ := e
    by_cases h1 : k < j
    · simp [tset, h1]
    · by_cases h2 : j = k
      · subst h2; simp [tset]
      · simp [tset, h1, h2, ih]
@[simp] theorem Mach.setWg_setWg (m : Mach) (c k : Nat) (x y : Wg) : (m.setWg c k x).setWg c k y = m.setWg c k y := by
  simp [Mach.setWg, tset_tset]
@[simp] theorem Mach.setCore_setCore (m : Mach) (c : Nat) (x y : Core) : (m.setCore c x).setCore c y = m.setCore c y := by
  simp [Mach.setCore, tset_tset]

/-! ## Threads -/

@[simp] theorem Thread.setV_k (t : Thread) (r : Nat) (x : V32) : (t.setV r x).k = t.k := rfl
@[simp] theorem Thread.setV_a (t : Thread) (r : Nat) (x : V32) : (t.setV r x).a = t.a := rfl
@[simp] theorem Thread.setV_p (t : Thread) (r : Nat) (x : V32) : (t.setV r x).p = t.p := rfl
@[simp] theorem Thread.setV_pc (t : Thread) (r : Nat) (x : V32) : (t.setV r x).pc = t.pc := rfl
@[simp] theorem Thread.setV_rs (t : Thread) (r : Nat) (x : V32) : (t.setV r x).rs = t.rs := rfl
@[simp] theorem Thread.setV_stackbase (t : Thread) (r : Nat) (x : V32) : (t.setV r x).stackbase = t.stackbase := rfl
@[simp] theorem Thread.setV_rsspill (t : Thread) (r : Nat) (x : V32) : (t.setV r x).rsspill = t.rsspill := rfl
@[simp] theorem Thread.setV_fstat (t : Thread) (r : Nat) (x : V32) : (t.setV r x).fstat = t.fstat := rfl
@[simp] theorem Thread.setV_istat (t : Thread) (r : Nat) (x : V32) : (t.setV r x).istat = t.istat := rfl
@[simp] theorem Thread.setV_rnd (t : Thread) (r : Nat) (x : V32) : (t.setV r x).rnd = t.rnd := rfl
@[simp] theorem Thread.setV_pblk (t : Thread) (r : Nat) (x : V32) : (t.setV r x).pblk = t.pblk := rfl
@[simp] theorem Thread.setV_cause (t : Thread) (r : Nat) (x : V32) : (t.setV r x).cause = t.cause := rfl
@[simp] theorem Thread.setV_info (t : Thread) (r : Nat) (x : V32) : (t.setV r x).info = t.info := rfl
@[simp] theorem Thread.setV_trapaddr (t : Thread) (r : Nat) (x : V32) : (t.setV r x).trapaddr = t.trapaddr := rfl
@[simp] theorem Thread.setV_trappc (t : Thread) (r : Nat) (x : V32) : (t.setV r x).trappc = t.trappc := rfl
@[simp] theorem Thread.setV_trapL (t : Thread) (r : Nat) (x : V32) : (t.setV r x).trapL = t.trapL := rfl
@[simp] theorem Thread.setV_trapH (t : Thread) (r : Nat) (x : V32) : (t.setV r x).trapH = t.trapH := rfl
@[simp] theorem Thread.setV_blk (t : Thread) (r : Nat) (x : V32) : (t.setV r x).blk = t.blk := rfl
@[simp] theorem Thread.setV_status (t : Thread) (r : Nat) (x : V32) : (t.setV r x).status = t.status := rfl
@[simp] theorem Thread.setV_wid (t : Thread) (r : Nat) (x : V32) : (t.setV r x).wid = t.wid := rfl
@[simp] theorem Thread.setV_warp (t : Thread) (r : Nat) (x : V32) : (t.setV r x).warp = t.warp := rfl
@[simp] theorem Thread.setV_lane (t : Thread) (r : Nat) (x : V32) : (t.setV r x).lane = t.lane := rfl
@[simp] theorem Thread.setV_mon (t : Thread) (r : Nat) (x : V32) : (t.setV r x).mon = t.mon := rfl
@[simp] theorem Thread.setV_yieldMark (t : Thread) (r : Nat) (x : V32) : (t.setV r x).yieldMark = t.yieldMark := rfl
@[simp] theorem Thread.setV_epoch (t : Thread) (r : Nat) (x : V32) : (t.setV r x).epoch = t.epoch := rfl
@[simp] theorem Thread.setV_oseq (t : Thread) (r : Nat) (x : V32) : (t.setV r x).oseq = t.oseq := rfl
@[simp] theorem Thread.setV_since (t : Thread) (r : Nat) (x : V32) : (t.setV r x).since = t.since := rfl
@[simp] theorem Thread.setV_reenter (t : Thread) (r : Nat) (x : V32) : (t.setV r x).reenter = t.reenter := rfl
@[simp] theorem Thread.setK_v (t : Thread) (r : Nat) (x : K64) : (t.setK r x).v = t.v := rfl
@[simp] theorem Thread.setK_a (t : Thread) (r : Nat) (x : K64) : (t.setK r x).a = t.a := rfl
@[simp] theorem Thread.setK_p (t : Thread) (r : Nat) (x : K64) : (t.setK r x).p = t.p := rfl
@[simp] theorem Thread.setK_pc (t : Thread) (r : Nat) (x : K64) : (t.setK r x).pc = t.pc := rfl
@[simp] theorem Thread.setK_rs (t : Thread) (r : Nat) (x : K64) : (t.setK r x).rs = t.rs := rfl
@[simp] theorem Thread.setK_stackbase (t : Thread) (r : Nat) (x : K64) : (t.setK r x).stackbase = t.stackbase := rfl
@[simp] theorem Thread.setK_rsspill (t : Thread) (r : Nat) (x : K64) : (t.setK r x).rsspill = t.rsspill := rfl
@[simp] theorem Thread.setK_fstat (t : Thread) (r : Nat) (x : K64) : (t.setK r x).fstat = t.fstat := rfl
@[simp] theorem Thread.setK_istat (t : Thread) (r : Nat) (x : K64) : (t.setK r x).istat = t.istat := rfl
@[simp] theorem Thread.setK_rnd (t : Thread) (r : Nat) (x : K64) : (t.setK r x).rnd = t.rnd := rfl
@[simp] theorem Thread.setK_pblk (t : Thread) (r : Nat) (x : K64) : (t.setK r x).pblk = t.pblk := rfl
@[simp] theorem Thread.setK_cause (t : Thread) (r : Nat) (x : K64) : (t.setK r x).cause = t.cause := rfl
@[simp] theorem Thread.setK_info (t : Thread) (r : Nat) (x : K64) : (t.setK r x).info = t.info := rfl
@[simp] theorem Thread.setK_trapaddr (t : Thread) (r : Nat) (x : K64) : (t.setK r x).trapaddr = t.trapaddr := rfl
@[simp] theorem Thread.setK_trappc (t : Thread) (r : Nat) (x : K64) : (t.setK r x).trappc = t.trappc := rfl
@[simp] theorem Thread.setK_trapL (t : Thread) (r : Nat) (x : K64) : (t.setK r x).trapL = t.trapL := rfl
@[simp] theorem Thread.setK_trapH (t : Thread) (r : Nat) (x : K64) : (t.setK r x).trapH = t.trapH := rfl
@[simp] theorem Thread.setK_blk (t : Thread) (r : Nat) (x : K64) : (t.setK r x).blk = t.blk := rfl
@[simp] theorem Thread.setK_status (t : Thread) (r : Nat) (x : K64) : (t.setK r x).status = t.status := rfl
@[simp] theorem Thread.setK_wid (t : Thread) (r : Nat) (x : K64) : (t.setK r x).wid = t.wid := rfl
@[simp] theorem Thread.setK_warp (t : Thread) (r : Nat) (x : K64) : (t.setK r x).warp = t.warp := rfl
@[simp] theorem Thread.setK_lane (t : Thread) (r : Nat) (x : K64) : (t.setK r x).lane = t.lane := rfl
@[simp] theorem Thread.setK_mon (t : Thread) (r : Nat) (x : K64) : (t.setK r x).mon = t.mon := rfl
@[simp] theorem Thread.setK_yieldMark (t : Thread) (r : Nat) (x : K64) : (t.setK r x).yieldMark = t.yieldMark := rfl
@[simp] theorem Thread.setK_epoch (t : Thread) (r : Nat) (x : K64) : (t.setK r x).epoch = t.epoch := rfl
@[simp] theorem Thread.setK_oseq (t : Thread) (r : Nat) (x : K64) : (t.setK r x).oseq = t.oseq := rfl
@[simp] theorem Thread.setK_since (t : Thread) (r : Nat) (x : K64) : (t.setK r x).since = t.since := rfl
@[simp] theorem Thread.setK_reenter (t : Thread) (r : Nat) (x : K64) : (t.setK r x).reenter = t.reenter := rfl
@[simp] theorem Thread.setA_v (t : Thread) (r : Nat) (x : Addr) : (t.setA r x).v = t.v := rfl
@[simp] theorem Thread.setA_k (t : Thread) (r : Nat) (x : Addr) : (t.setA r x).k = t.k := rfl
@[simp] theorem Thread.setA_p (t : Thread) (r : Nat) (x : Addr) : (t.setA r x).p = t.p := rfl
@[simp] theorem Thread.setA_pc (t : Thread) (r : Nat) (x : Addr) : (t.setA r x).pc = t.pc := rfl
@[simp] theorem Thread.setA_rs (t : Thread) (r : Nat) (x : Addr) : (t.setA r x).rs = t.rs := rfl
@[simp] theorem Thread.setA_stackbase (t : Thread) (r : Nat) (x : Addr) : (t.setA r x).stackbase = t.stackbase := rfl
@[simp] theorem Thread.setA_rsspill (t : Thread) (r : Nat) (x : Addr) : (t.setA r x).rsspill = t.rsspill := rfl
@[simp] theorem Thread.setA_fstat (t : Thread) (r : Nat) (x : Addr) : (t.setA r x).fstat = t.fstat := rfl
@[simp] theorem Thread.setA_istat (t : Thread) (r : Nat) (x : Addr) : (t.setA r x).istat = t.istat := rfl
@[simp] theorem Thread.setA_rnd (t : Thread) (r : Nat) (x : Addr) : (t.setA r x).rnd = t.rnd := rfl
@[simp] theorem Thread.setA_pblk (t : Thread) (r : Nat) (x : Addr) : (t.setA r x).pblk = t.pblk := rfl
@[simp] theorem Thread.setA_cause (t : Thread) (r : Nat) (x : Addr) : (t.setA r x).cause = t.cause := rfl
@[simp] theorem Thread.setA_info (t : Thread) (r : Nat) (x : Addr) : (t.setA r x).info = t.info := rfl
@[simp] theorem Thread.setA_trapaddr (t : Thread) (r : Nat) (x : Addr) : (t.setA r x).trapaddr = t.trapaddr := rfl
@[simp] theorem Thread.setA_trappc (t : Thread) (r : Nat) (x : Addr) : (t.setA r x).trappc = t.trappc := rfl
@[simp] theorem Thread.setA_trapL (t : Thread) (r : Nat) (x : Addr) : (t.setA r x).trapL = t.trapL := rfl
@[simp] theorem Thread.setA_trapH (t : Thread) (r : Nat) (x : Addr) : (t.setA r x).trapH = t.trapH := rfl
@[simp] theorem Thread.setA_blk (t : Thread) (r : Nat) (x : Addr) : (t.setA r x).blk = t.blk := rfl
@[simp] theorem Thread.setA_status (t : Thread) (r : Nat) (x : Addr) : (t.setA r x).status = t.status := rfl
@[simp] theorem Thread.setA_wid (t : Thread) (r : Nat) (x : Addr) : (t.setA r x).wid = t.wid := rfl
@[simp] theorem Thread.setA_warp (t : Thread) (r : Nat) (x : Addr) : (t.setA r x).warp = t.warp := rfl
@[simp] theorem Thread.setA_lane (t : Thread) (r : Nat) (x : Addr) : (t.setA r x).lane = t.lane := rfl
@[simp] theorem Thread.setA_mon (t : Thread) (r : Nat) (x : Addr) : (t.setA r x).mon = t.mon := rfl
@[simp] theorem Thread.setA_yieldMark (t : Thread) (r : Nat) (x : Addr) : (t.setA r x).yieldMark = t.yieldMark := rfl
@[simp] theorem Thread.setA_epoch (t : Thread) (r : Nat) (x : Addr) : (t.setA r x).epoch = t.epoch := rfl
@[simp] theorem Thread.setA_oseq (t : Thread) (r : Nat) (x : Addr) : (t.setA r x).oseq = t.oseq := rfl
@[simp] theorem Thread.setA_since (t : Thread) (r : Nat) (x : Addr) : (t.setA r x).since = t.since := rfl
@[simp] theorem Thread.setA_reenter (t : Thread) (r : Nat) (x : Addr) : (t.setA r x).reenter = t.reenter := rfl
@[simp] theorem Thread.setP_v (t : Thread) (r : Nat) (x : Bool) : (t.setP r x).v = t.v := rfl
@[simp] theorem Thread.setP_k (t : Thread) (r : Nat) (x : Bool) : (t.setP r x).k = t.k := rfl
@[simp] theorem Thread.setP_a (t : Thread) (r : Nat) (x : Bool) : (t.setP r x).a = t.a := rfl
@[simp] theorem Thread.setP_pc (t : Thread) (r : Nat) (x : Bool) : (t.setP r x).pc = t.pc := rfl
@[simp] theorem Thread.setP_rs (t : Thread) (r : Nat) (x : Bool) : (t.setP r x).rs = t.rs := rfl
@[simp] theorem Thread.setP_stackbase (t : Thread) (r : Nat) (x : Bool) : (t.setP r x).stackbase = t.stackbase := rfl
@[simp] theorem Thread.setP_rsspill (t : Thread) (r : Nat) (x : Bool) : (t.setP r x).rsspill = t.rsspill := rfl
@[simp] theorem Thread.setP_fstat (t : Thread) (r : Nat) (x : Bool) : (t.setP r x).fstat = t.fstat := rfl
@[simp] theorem Thread.setP_istat (t : Thread) (r : Nat) (x : Bool) : (t.setP r x).istat = t.istat := rfl
@[simp] theorem Thread.setP_rnd (t : Thread) (r : Nat) (x : Bool) : (t.setP r x).rnd = t.rnd := rfl
@[simp] theorem Thread.setP_pblk (t : Thread) (r : Nat) (x : Bool) : (t.setP r x).pblk = t.pblk := rfl
@[simp] theorem Thread.setP_cause (t : Thread) (r : Nat) (x : Bool) : (t.setP r x).cause = t.cause := rfl
@[simp] theorem Thread.setP_info (t : Thread) (r : Nat) (x : Bool) : (t.setP r x).info = t.info := rfl
@[simp] theorem Thread.setP_trapaddr (t : Thread) (r : Nat) (x : Bool) : (t.setP r x).trapaddr = t.trapaddr := rfl
@[simp] theorem Thread.setP_trappc (t : Thread) (r : Nat) (x : Bool) : (t.setP r x).trappc = t.trappc := rfl
@[simp] theorem Thread.setP_trapL (t : Thread) (r : Nat) (x : Bool) : (t.setP r x).trapL = t.trapL := rfl
@[simp] theorem Thread.setP_trapH (t : Thread) (r : Nat) (x : Bool) : (t.setP r x).trapH = t.trapH := rfl
@[simp] theorem Thread.setP_blk (t : Thread) (r : Nat) (x : Bool) : (t.setP r x).blk = t.blk := rfl
@[simp] theorem Thread.setP_status (t : Thread) (r : Nat) (x : Bool) : (t.setP r x).status = t.status := rfl
@[simp] theorem Thread.setP_wid (t : Thread) (r : Nat) (x : Bool) : (t.setP r x).wid = t.wid := rfl
@[simp] theorem Thread.setP_warp (t : Thread) (r : Nat) (x : Bool) : (t.setP r x).warp = t.warp := rfl
@[simp] theorem Thread.setP_lane (t : Thread) (r : Nat) (x : Bool) : (t.setP r x).lane = t.lane := rfl
@[simp] theorem Thread.setP_mon (t : Thread) (r : Nat) (x : Bool) : (t.setP r x).mon = t.mon := rfl
@[simp] theorem Thread.setP_yieldMark (t : Thread) (r : Nat) (x : Bool) : (t.setP r x).yieldMark = t.yieldMark := rfl
@[simp] theorem Thread.setP_epoch (t : Thread) (r : Nat) (x : Bool) : (t.setP r x).epoch = t.epoch := rfl
@[simp] theorem Thread.setP_oseq (t : Thread) (r : Nat) (x : Bool) : (t.setP r x).oseq = t.oseq := rfl
@[simp] theorem Thread.setP_since (t : Thread) (r : Nat) (x : Bool) : (t.setP r x).since = t.since := rfl
@[simp] theorem Thread.setP_reenter (t : Thread) (r : Nat) (x : Bool) : (t.setP r x).reenter = t.reenter := rfl
@[simp] theorem Thread.advance_v (t : Thread) (n : Nat) : (t.advance n).v = t.v := rfl
@[simp] theorem Thread.advance_k (t : Thread) (n : Nat) : (t.advance n).k = t.k := rfl
@[simp] theorem Thread.advance_a (t : Thread) (n : Nat) : (t.advance n).a = t.a := rfl
@[simp] theorem Thread.advance_p (t : Thread) (n : Nat) : (t.advance n).p = t.p := rfl
@[simp] theorem Thread.advance_rs (t : Thread) (n : Nat) : (t.advance n).rs = t.rs := rfl
@[simp] theorem Thread.advance_stackbase (t : Thread) (n : Nat) : (t.advance n).stackbase = t.stackbase := rfl
@[simp] theorem Thread.advance_rsspill (t : Thread) (n : Nat) : (t.advance n).rsspill = t.rsspill := rfl
@[simp] theorem Thread.advance_fstat (t : Thread) (n : Nat) : (t.advance n).fstat = t.fstat := rfl
@[simp] theorem Thread.advance_istat (t : Thread) (n : Nat) : (t.advance n).istat = t.istat := rfl
@[simp] theorem Thread.advance_rnd (t : Thread) (n : Nat) : (t.advance n).rnd = t.rnd := rfl
@[simp] theorem Thread.advance_pblk (t : Thread) (n : Nat) : (t.advance n).pblk = t.pblk := rfl
@[simp] theorem Thread.advance_cause (t : Thread) (n : Nat) : (t.advance n).cause = t.cause := rfl
@[simp] theorem Thread.advance_info (t : Thread) (n : Nat) : (t.advance n).info = t.info := rfl
@[simp] theorem Thread.advance_trapaddr (t : Thread) (n : Nat) : (t.advance n).trapaddr = t.trapaddr := rfl
@[simp] theorem Thread.advance_trappc (t : Thread) (n : Nat) : (t.advance n).trappc = t.trappc := rfl
@[simp] theorem Thread.advance_trapL (t : Thread) (n : Nat) : (t.advance n).trapL = t.trapL := rfl
@[simp] theorem Thread.advance_trapH (t : Thread) (n : Nat) : (t.advance n).trapH = t.trapH := rfl
@[simp] theorem Thread.advance_status (t : Thread) (n : Nat) : (t.advance n).status = t.status := rfl
@[simp] theorem Thread.advance_wid (t : Thread) (n : Nat) : (t.advance n).wid = t.wid := rfl
@[simp] theorem Thread.advance_warp (t : Thread) (n : Nat) : (t.advance n).warp = t.warp := rfl
@[simp] theorem Thread.advance_lane (t : Thread) (n : Nat) : (t.advance n).lane = t.lane := rfl
@[simp] theorem Thread.advance_mon (t : Thread) (n : Nat) : (t.advance n).mon = t.mon := rfl
@[simp] theorem Thread.advance_yieldMark (t : Thread) (n : Nat) : (t.advance n).yieldMark = t.yieldMark := rfl
@[simp] theorem Thread.advance_epoch (t : Thread) (n : Nat) : (t.advance n).epoch = t.epoch := rfl
@[simp] theorem Thread.advance_oseq (t : Thread) (n : Nat) : (t.advance n).oseq = t.oseq := rfl
@[simp] theorem Thread.advance_reenter (t : Thread) (n : Nat) : (t.advance n).reenter = t.reenter := rfl
@[simp] theorem Thread.advance_pc (t : Thread) (n : Nat) : (t.advance n).pc = t.pc + BitVec.ofNat 80 n := rfl
@[simp] theorem Thread.advance_since (t : Thread) (n : Nat) : (t.advance n).since = none := rfl
@[simp] theorem Thread.enterHandler_v (t : Thread) (h : Addr) (c i : Nat) (a : Addr) (l : Bool) : (t.enterHandler h c i a l).v = t.v := rfl
@[simp] theorem Thread.enterHandler_k (t : Thread) (h : Addr) (c i : Nat) (a : Addr) (l : Bool) : (t.enterHandler h c i a l).k = t.k := rfl
@[simp] theorem Thread.enterHandler_a (t : Thread) (h : Addr) (c i : Nat) (a : Addr) (l : Bool) : (t.enterHandler h c i a l).a = t.a := rfl
@[simp] theorem Thread.enterHandler_p (t : Thread) (h : Addr) (c i : Nat) (a : Addr) (l : Bool) : (t.enterHandler h c i a l).p = t.p := rfl
@[simp] theorem Thread.enterHandler_rs (t : Thread) (h : Addr) (c i : Nat) (a : Addr) (l : Bool) : (t.enterHandler h c i a l).rs = t.rs := rfl
@[simp] theorem Thread.enterHandler_stackbase (t : Thread) (h : Addr) (c i : Nat) (a : Addr) (l : Bool) : (t.enterHandler h c i a l).stackbase = t.stackbase := rfl
@[simp] theorem Thread.enterHandler_rsspill (t : Thread) (h : Addr) (c i : Nat) (a : Addr) (l : Bool) : (t.enterHandler h c i a l).rsspill = t.rsspill := rfl
@[simp] theorem Thread.enterHandler_fstat (t : Thread) (h : Addr) (c i : Nat) (a : Addr) (l : Bool) : (t.enterHandler h c i a l).fstat = t.fstat := rfl
@[simp] theorem Thread.enterHandler_istat (t : Thread) (h : Addr) (c i : Nat) (a : Addr) (l : Bool) : (t.enterHandler h c i a l).istat = t.istat := rfl
@[simp] theorem Thread.enterHandler_rnd (t : Thread) (h : Addr) (c i : Nat) (a : Addr) (l : Bool) : (t.enterHandler h c i a l).rnd = t.rnd := rfl
@[simp] theorem Thread.enterHandler_wid (t : Thread) (h : Addr) (c i : Nat) (a : Addr) (l : Bool) : (t.enterHandler h c i a l).wid = t.wid := rfl
@[simp] theorem Thread.enterHandler_warp (t : Thread) (h : Addr) (c i : Nat) (a : Addr) (l : Bool) : (t.enterHandler h c i a l).warp = t.warp := rfl
@[simp] theorem Thread.enterHandler_lane (t : Thread) (h : Addr) (c i : Nat) (a : Addr) (l : Bool) : (t.enterHandler h c i a l).lane = t.lane := rfl
@[simp] theorem Thread.enterHandler_mon (t : Thread) (h : Addr) (c i : Nat) (a : Addr) (l : Bool) : (t.enterHandler h c i a l).mon = t.mon := rfl
@[simp] theorem Thread.enterHandler_yieldMark (t : Thread) (h : Addr) (c i : Nat) (a : Addr) (l : Bool) : (t.enterHandler h c i a l).yieldMark = t.yieldMark := rfl
@[simp] theorem Thread.enterHandler_epoch (t : Thread) (h : Addr) (c i : Nat) (a : Addr) (l : Bool) : (t.enterHandler h c i a l).epoch = t.epoch := rfl
@[simp] theorem Thread.enterHandler_oseq (t : Thread) (h : Addr) (c i : Nat) (a : Addr) (l : Bool) : (t.enterHandler h c i a l).oseq = t.oseq := rfl
@[simp] theorem Thread.enterHandler_pc (t : Thread) (h : Addr) (c i : Nat) (a : Addr) (l : Bool) : (t.enterHandler h c i a l).pc = h := rfl
@[simp] theorem Thread.enterHandler_cause (t : Thread) (h : Addr) (c i : Nat) (a : Addr) (l : Bool) : (t.enterHandler h c i a l).cause = BitVec.ofNat 8 c := rfl
@[simp] theorem Thread.enterHandler_info (t : Thread) (h : Addr) (c i : Nat) (a : Addr) (l : Bool) : (t.enterHandler h c i a l).info = BitVec.ofNat 16 i := rfl
@[simp] theorem Thread.enterHandler_trapaddr (t : Thread) (h : Addr) (c i : Nat) (a : Addr) (l : Bool) : (t.enterHandler h c i a l).trapaddr = a := rfl
@[simp] theorem Thread.enterHandler_trappc (t : Thread) (h : Addr) (c i : Nat) (a : Addr) (l : Bool) : (t.enterHandler h c i a l).trappc = t.namedPc := rfl
@[simp] theorem Thread.enterHandler_trapL (t : Thread) (h : Addr) (c i : Nat) (a : Addr) (l : Bool) : (t.enterHandler h c i a l).trapL = l := rfl
@[simp] theorem Thread.enterHandler_trapH (t : Thread) (h : Addr) (c i : Nat) (a : Addr) (l : Bool) : (t.enterHandler h c i a l).trapH = true := rfl
@[simp] theorem Thread.enterHandler_blk (t : Thread) (h : Addr) (c i : Nat) (a : Addr) (l : Bool) : (t.enterHandler h c i a l).blk = none := rfl
@[simp] theorem Thread.enterHandler_reenter (t : Thread) (h : Addr) (c i : Nat) (a : Addr) (l : Bool) : (t.enterHandler h c i a l).reenter = none := rfl
@[simp] theorem Thread.enterHandler_since (t : Thread) (h : Addr) (c i : Nat) (a : Addr) (l : Bool) : (t.enterHandler h c i a l).since = none := rfl
@[simp] theorem Thread.enterHandler_status (t : Thread) (h : Addr) (c i : Nat) (a : Addr) (l : Bool) : (t.enterHandler h c i a l).status = .ready := rfl
/-! ## Workgroups -/

@[simp] theorem Wg.modThreads_vf (w : Wg) (ts : List Nat) (g : Thread → Thread) : (w.modThreads ts g).vf = w.vf := rfl
@[simp] theorem Wg.modThreads_launch (w : Wg) (ts : List Nat) (g : Thread → Thread) : (w.modThreads ts g).launch = w.launch := rfl
@[simp] theorem Wg.modThreads_hdr (w : Wg) (ts : List Nat) (g : Thread → Thread) : (w.modThreads ts g).hdr = w.hdr := rfl
@[simp] theorem Wg.modThreads_base (w : Wg) (ts : List Nat) (g : Thread → Thread) : (w.modThreads ts g).base = w.base := rfl
@[simp] theorem Wg.modThreads_g (w : Wg) (ts : List Nat) (g : Thread → Thread) : (w.modThreads ts g).g = w.g := rfl
@[simp] theorem Wg.modThreads_isGroup (w : Wg) (ts : List Nat) (g : Thread → Thread) : (w.modThreads ts g).isGroup = w.isGroup := rfl
@[simp] theorem Wg.modThreads_frame (w : Wg) (ts : List Nat) (g : Thread → Thread) : (w.modThreads ts g).frame = w.frame := rfl
@[simp] theorem Wg.modThreads_warps (w : Wg) (ts : List Nat) (g : Thread → Thread) : (w.modThreads ts g).warps = w.warps := rfl
@[simp] theorem Wg.modThreads_fused (w : Wg) (ts : List Nat) (g : Thread → Thread) : (w.modThreads ts g).fused = w.fused := rfl
@[simp] theorem Wg.modThreads_gran (w : Wg) (ts : List Nat) (g : Thread → Thread) : (w.modThreads ts g).gran = w.gran := rfl
@[simp] theorem Wg.modThreads_row (w : Wg) (ts : List Nat) (g : Thread → Thread) : (w.modThreads ts g).row = w.row := rfl
@[simp] theorem Wg.modThreads_tiles (w : Wg) (ts : List Nat) (g : Thread → Thread) : (w.modThreads ts g).tiles = w.tiles := rfl
@[simp] theorem Wg.modThreads_tags (w : Wg) (ts : List Nat) (g : Thread → Thread) : (w.modThreads ts g).tags = w.tags := rfl
@[simp] theorem Wg.modThreads_rings (w : Wg) (ts : List Nat) (g : Thread → Thread) : (w.modThreads ts g).rings = w.rings := rfl
@[simp] theorem Wg.modThreads_qs (w : Wg) (ts : List Nat) (g : Thread → Thread) : (w.modThreads ts g).qs = w.qs := rfl
@[simp] theorem Wg.modThreads_zones (w : Wg) (ts : List Nat) (g : Thread → Thread) : (w.modThreads ts g).zones = w.zones := rfl
@[simp] theorem Wg.modThreads_bds (w : Wg) (ts : List Nat) (g : Thread → Thread) : (w.modThreads ts g).bds = w.bds := rfl
@[simp] theorem Wg.modThreads_acc (w : Wg) (ts : List Nat) (g : Thread → Thread) : (w.modThreads ts g).acc = w.acc := rfl
@[simp] theorem Wg.modThreads_accTrap (w : Wg) (ts : List Nat) (g : Thread → Thread) : (w.modThreads ts g).accTrap = w.accTrap := rfl
@[simp] theorem Wg.modThreads_accPoison (w : Wg) (ts : List Nat) (g : Thread → Thread) : (w.modThreads ts g).accPoison = w.accPoison := rfl
@[simp] theorem Wg.modThreads_macs (w : Wg) (ts : List Nat) (g : Thread → Thread) : (w.modThreads ts g).macs = w.macs := rfl
@[simp] theorem Wg.modThreads_pins (w : Wg) (ts : List Nat) (g : Thread → Thread) : (w.modThreads ts g).pins = w.pins := rfl
@[simp] theorem Wg.modThreads_pflags (w : Wg) (ts : List Nat) (g : Thread → Thread) : (w.modThreads ts g).pflags = w.pflags := rfl
@[simp] theorem Wg.modThreads_dflags (w : Wg) (ts : List Nat) (g : Thread → Thread) : (w.modThreads ts g).dflags = w.dflags := rfl
@[simp] theorem Wg.modThreads_drainErr (w : Wg) (ts : List Nat) (g : Thread → Thread) : (w.modThreads ts g).drainErr = w.drainErr := rfl
@[simp] theorem Wg.modThreads_failTags (w : Wg) (ts : List Nat) (g : Thread → Thread) : (w.modThreads ts g).failTags = w.failTags := rfl
@[simp] theorem Wg.modThreads_errps (w : Wg) (ts : List Nat) (g : Thread → Thread) : (w.modThreads ts g).errps = w.errps := rfl
@[simp] theorem Wg.modThreads_rbCount (w : Wg) (ts : List Nat) (g : Thread → Thread) : (w.modThreads ts g).rbCount = w.rbCount := rfl
@[simp] theorem Wg.modThreads_sealed (w : Wg) (ts : List Nat) (g : Thread → Thread) : (w.modThreads ts g).sealed = w.sealed := rfl
@[simp] theorem Wg.modThreads_sbuf (w : Wg) (ts : List Nat) (g : Thread → Thread) : (w.modThreads ts g).sbuf = w.sbuf := rfl
@[simp] theorem Wg.modThreads_basting (w : Wg) (ts : List Nat) (g : Thread → Thread) : (w.modThreads ts g).basting = w.basting := rfl
@[simp] theorem Wg.modThreads_rbAddrs (w : Wg) (ts : List Nat) (g : Thread → Thread) : (w.modThreads ts g).rbAddrs = w.rbAddrs := rfl
@[simp] theorem Wg.modThreads_stallSlots (w : Wg) (ts : List Nat) (g : Thread → Thread) : (w.modThreads ts g).stallSlots = w.stallSlots := rfl
@[simp] theorem Wg.modThreads_stallEmpty (w : Wg) (ts : List Nat) (g : Thread → Thread) : (w.modThreads ts g).stallEmpty = w.stallEmpty := rfl
@[simp] theorem Wg.modThreads_stallFull (w : Wg) (ts : List Nat) (g : Thread → Thread) : (w.modThreads ts g).stallFull = w.stallFull := rfl
@[simp] theorem Wg.modThreads_rebuild (w : Wg) (ts : List Nat) (g : Thread → Thread) : (w.modThreads ts g).rebuild = w.rebuild := rfl
@[simp] theorem Wg.modThreads_epiLoaded (w : Wg) (ts : List Nat) (g : Thread → Thread) : (w.modThreads ts g).epiLoaded = w.epiLoaded := rfl
@[simp] theorem Wg.modThreads_notBefore (w : Wg) (ts : List Nat) (g : Thread → Thread) : (w.modThreads ts g).notBefore = w.notBefore := rfl
@[simp] theorem Wg.modThreads_readyAt (w : Wg) (ts : List Nat) (g : Thread → Thread) : (w.modThreads ts g).readyAt = w.readyAt := rfl
@[simp] theorem Wg.modThreads_waitingGang (w : Wg) (ts : List Nat) (g : Thread → Thread) : (w.modThreads ts g).waitingGang = w.waitingGang := rfl
@[simp] theorem Wg.modThreads_ending (w : Wg) (ts : List Nat) (g : Thread → Thread) : (w.modThreads ts g).ending = w.ending := rfl
@[simp] theorem Wg.modThreads_killed (w : Wg) (ts : List Nat) (g : Thread → Thread) : (w.modThreads ts g).killed = w.killed := rfl
@[simp] theorem Wg.modThreads_leaving (w : Wg) (ts : List Nat) (g : Thread → Thread) : (w.modThreads ts g).leaving = w.leaving := rfl
@[simp] theorem Wg.modThreads_fetchAt (w : Wg) (ts : List Nat) (g : Thread → Thread) : (w.modThreads ts g).fetchAt = w.fetchAt := rfl
@[simp] theorem Wg.modThreads_started (w : Wg) (ts : List Nat) (g : Thread → Thread) : (w.modThreads ts g).started = w.started := rfl
@[simp] theorem Wg.unfuse_vf (w : Wg) (ts : List Nat) : (w.unfuse ts).vf = w.vf := rfl
@[simp] theorem Wg.unfuse_launch (w : Wg) (ts : List Nat) : (w.unfuse ts).launch = w.launch := rfl
@[simp] theorem Wg.unfuse_hdr (w : Wg) (ts : List Nat) : (w.unfuse ts).hdr = w.hdr := rfl
@[simp] theorem Wg.unfuse_base (w : Wg) (ts : List Nat) : (w.unfuse ts).base = w.base := rfl
@[simp] theorem Wg.unfuse_g (w : Wg) (ts : List Nat) : (w.unfuse ts).g = w.g := rfl
@[simp] theorem Wg.unfuse_isGroup (w : Wg) (ts : List Nat) : (w.unfuse ts).isGroup = w.isGroup := rfl
@[simp] theorem Wg.unfuse_frame (w : Wg) (ts : List Nat) : (w.unfuse ts).frame = w.frame := rfl
@[simp] theorem Wg.unfuse_threads (w : Wg) (ts : List Nat) : (w.unfuse ts).threads = w.threads := rfl
@[simp] theorem Wg.unfuse_warps (w : Wg) (ts : List Nat) : (w.unfuse ts).warps = w.warps := rfl
@[simp] theorem Wg.unfuse_gran (w : Wg) (ts : List Nat) : (w.unfuse ts).gran = w.gran := rfl
@[simp] theorem Wg.unfuse_row (w : Wg) (ts : List Nat) : (w.unfuse ts).row = w.row := rfl
@[simp] theorem Wg.unfuse_tiles (w : Wg) (ts : List Nat) : (w.unfuse ts).tiles = w.tiles := rfl
@[simp] theorem Wg.unfuse_tags (w : Wg) (ts : List Nat) : (w.unfuse ts).tags = w.tags := rfl
@[simp] theorem Wg.unfuse_rings (w : Wg) (ts : List Nat) : (w.unfuse ts).rings = w.rings := rfl
@[simp] theorem Wg.unfuse_qs (w : Wg) (ts : List Nat) : (w.unfuse ts).qs = w.qs := rfl
@[simp] theorem Wg.unfuse_zones (w : Wg) (ts : List Nat) : (w.unfuse ts).zones = w.zones := rfl
@[simp] theorem Wg.unfuse_bds (w : Wg) (ts : List Nat) : (w.unfuse ts).bds = w.bds := rfl
@[simp] theorem Wg.unfuse_acc (w : Wg) (ts : List Nat) : (w.unfuse ts).acc = w.acc := rfl
@[simp] theorem Wg.unfuse_accTrap (w : Wg) (ts : List Nat) : (w.unfuse ts).accTrap = w.accTrap := rfl
@[simp] theorem Wg.unfuse_accPoison (w : Wg) (ts : List Nat) : (w.unfuse ts).accPoison = w.accPoison := rfl
@[simp] theorem Wg.unfuse_macs (w : Wg) (ts : List Nat) : (w.unfuse ts).macs = w.macs := rfl
@[simp] theorem Wg.unfuse_pins (w : Wg) (ts : List Nat) : (w.unfuse ts).pins = w.pins := rfl
@[simp] theorem Wg.unfuse_pflags (w : Wg) (ts : List Nat) : (w.unfuse ts).pflags = w.pflags := rfl
@[simp] theorem Wg.unfuse_dflags (w : Wg) (ts : List Nat) : (w.unfuse ts).dflags = w.dflags := rfl
@[simp] theorem Wg.unfuse_drainErr (w : Wg) (ts : List Nat) : (w.unfuse ts).drainErr = w.drainErr := rfl
@[simp] theorem Wg.unfuse_failTags (w : Wg) (ts : List Nat) : (w.unfuse ts).failTags = w.failTags := rfl
@[simp] theorem Wg.unfuse_errps (w : Wg) (ts : List Nat) : (w.unfuse ts).errps = w.errps := rfl
@[simp] theorem Wg.unfuse_rbCount (w : Wg) (ts : List Nat) : (w.unfuse ts).rbCount = w.rbCount := rfl
@[simp] theorem Wg.unfuse_sealed (w : Wg) (ts : List Nat) : (w.unfuse ts).sealed = w.sealed := rfl
@[simp] theorem Wg.unfuse_sbuf (w : Wg) (ts : List Nat) : (w.unfuse ts).sbuf = w.sbuf := rfl
@[simp] theorem Wg.unfuse_basting (w : Wg) (ts : List Nat) : (w.unfuse ts).basting = w.basting := rfl
@[simp] theorem Wg.unfuse_rbAddrs (w : Wg) (ts : List Nat) : (w.unfuse ts).rbAddrs = w.rbAddrs := rfl
@[simp] theorem Wg.unfuse_stallSlots (w : Wg) (ts : List Nat) : (w.unfuse ts).stallSlots = w.stallSlots := rfl
@[simp] theorem Wg.unfuse_stallEmpty (w : Wg) (ts : List Nat) : (w.unfuse ts).stallEmpty = w.stallEmpty := rfl
@[simp] theorem Wg.unfuse_stallFull (w : Wg) (ts : List Nat) : (w.unfuse ts).stallFull = w.stallFull := rfl
@[simp] theorem Wg.unfuse_rebuild (w : Wg) (ts : List Nat) : (w.unfuse ts).rebuild = w.rebuild := rfl
@[simp] theorem Wg.unfuse_epiLoaded (w : Wg) (ts : List Nat) : (w.unfuse ts).epiLoaded = w.epiLoaded := rfl
@[simp] theorem Wg.unfuse_notBefore (w : Wg) (ts : List Nat) : (w.unfuse ts).notBefore = w.notBefore := rfl
@[simp] theorem Wg.unfuse_readyAt (w : Wg) (ts : List Nat) : (w.unfuse ts).readyAt = w.readyAt := rfl
@[simp] theorem Wg.unfuse_waitingGang (w : Wg) (ts : List Nat) : (w.unfuse ts).waitingGang = w.waitingGang := rfl
@[simp] theorem Wg.unfuse_ending (w : Wg) (ts : List Nat) : (w.unfuse ts).ending = w.ending := rfl
@[simp] theorem Wg.unfuse_killed (w : Wg) (ts : List Nat) : (w.unfuse ts).killed = w.killed := rfl
@[simp] theorem Wg.unfuse_leaving (w : Wg) (ts : List Nat) : (w.unfuse ts).leaving = w.leaving := rfl
@[simp] theorem Wg.unfuse_fetchAt (w : Wg) (ts : List Nat) : (w.unfuse ts).fetchAt = w.fetchAt := rfl
@[simp] theorem Wg.unfuse_started (w : Wg) (ts : List Nat) : (w.unfuse ts).started = w.started := rfl

end Sys2Proof.Machine
end

