-- ==== Sys2Proof/Laws/Memory.lean ====
section
/-! SUPPORT. The laws of memory: every operation keeps the canonical form, a read gives what was last written, and a write changes no
other byte. Host memory has the same laws (its unlisted bytes are 0). -/
namespace Sys2Proof.Machine

theorem Memory.wf_iff (m : List Host.Cell) : Memory.wf m = true ↔ sortedFrom none m = true ∧ m.all (fun c => c.2 ≠ unlisted c.1) = true := by
  simp [Memory.wf]
theorem Memory.wf_nil : Memory.wf [] = true := by rfl

/-- One write keeps the canonical form. -/
theorem Memory.wf_write (m : List Host.Cell) (a : Nat) (b : Byte) (h : Memory.wf m = true) : Memory.wf (Memory.write m a b) = true := by
  rw [Memory.wf_iff] at h ⊢
  unfold Memory.write
  split
  · exact ⟨sorted_terase m a h.1, all_terase _ m a h.2⟩
  · rename_i hb
    exact ⟨sorted_tset m a b h.1, all_tset _ m a b h.2 (by simpa using hb)⟩
/-- Writes of many bytes keep it. -/
theorem Memory.wf_writeL (m : List Host.Cell) (a : Nat) (bs : List Byte) (h : Memory.wf m = true) : Memory.wf (Memory.writeL m a bs) = true := by
  induction bs generalizing m a with
  | nil => exact h
  | cons b bs ih => exact ih _ _ (Memory.wf_write m a b h)
theorem Memory.sorted (m : List Host.Cell) (h : Memory.wf m = true) : sortedFrom none m = true := ((Memory.wf_iff m).1 h).1

/-- A byte read where it was written is what was written. -/
theorem Memory.read_write_same (m : List Host.Cell) (a : Nat) (b : Byte) (h : Memory.wf m = true) : Memory.read (Memory.write m a b) a = b := by
  unfold Memory.read Memory.write
  split
  · rename_i hb; rw [tget_terase_same m a (Memory.sorted m h)]; simp [hb]
  · simp
/-- A write leaves every other byte. -/
theorem Memory.read_write_other (m : List Host.Cell) {a x : Nat} (b : Byte) (h : Memory.wf m = true) (hx : x ≠ a) :
    Memory.read (Memory.write m a b) x = Memory.read m x := by
  unfold Memory.read Memory.write
  split
  · rw [tget_terase_other m (Memory.sorted m h) hx]
  · rw [tget_tset_other m b hx]
/-- Bytes outside those written are as before. -/
theorem Memory.read_writeL_out (m : List Host.Cell) (a : Nat) (bs : List Byte) (x : Nat) (h : Memory.wf m = true)
    (hx : x < a ∨ a + bs.length ≤ x) : Memory.read (Memory.writeL m a bs) x = Memory.read m x := by
  induction bs generalizing m a with
  | nil => rfl
  | cons b bs ih =>
    simp only [List.length_cons] at hx
    rw [Memory.writeL, ih _ _ (Memory.wf_write m a b h) (by omega), Memory.read_write_other m b h (by omega)]
/-- Byte `i` of those written reads back. -/
theorem Memory.read_writeL_in (m : List Host.Cell) (a : Nat) (bs : List Byte) (i : Nat) (h : Memory.wf m = true) (hi : i < bs.length) :
    Memory.read (Memory.writeL m a bs) (a + i) = bs[i] := by
  induction bs generalizing m a i with
  | nil => simp at hi
  | cons b bs ih =>
    rw [Memory.writeL]
    cases i with
    | zero =>
      simp only [Nat.add_zero]
      rw [Memory.read_writeL_out _ _ _ _ (Memory.wf_write m a b h) (by omega), Memory.read_write_same m a b h]; rfl
    | succ i =>
      have := ih (Memory.write m a b) (a + 1) i (Memory.wf_write m a b h) (by simpa using hi)
      rw [show a + (i + 1) = a + 1 + i by omega, this]; rfl
@[simp] theorem Memory.readN_length (m : List Host.Cell) (a n : Nat) : (Memory.readN m a n).length = n := by
  induction n generalizing a with
  | zero => rfl
  | succ n ih => simp [Memory.readN, ih]
theorem Memory.readN_get (m : List Host.Cell) (a n i : Nat) (hi : i < n) : (Memory.readN m a n)[i]? = some (Memory.read m (a + i)) := by
  induction n generalizing a i with
  | zero => omega
  | succ n ih =>
    cases i with
    | zero => simp [Memory.readN]
    | succ i =>
      simp only [Memory.readN, List.getElem?_cons_succ]
      rw [ih (a + 1) i (by omega)]; congr 2; omega
/-- What was stored is what is read back. -/
theorem Memory.readN_writeL (m : List Host.Cell) (a : Nat) (bs : List Byte) (h : Memory.wf m = true) :
    Memory.readN (Memory.writeL m a bs) a bs.length = bs := by
  apply List.ext_getElem?
  intro i
  by_cases hi : i < bs.length
  · rw [Memory.readN_get _ _ _ _ hi, Memory.read_writeL_in m a bs i h hi, List.getElem?_eq_getElem hi]
  · rw [List.getElem?_eq_none (by simpa using hi), List.getElem?_eq_none (by omega)]
/-- Bytes that two memories agree on read alike. -/
theorem Memory.readN_congr (m m' : List Host.Cell) (a n : Nat) (h : ∀ x, a ≤ x → x < a + n → Memory.read m x = Memory.read m' x) :
    Memory.readN m a n = Memory.readN m' a n := by
  induction n generalizing a with
  | zero => rfl
  | succ n ih =>
    simp only [Memory.readN]
    rw [h a (by omega) (by omega), ih (a + 1) (fun x h1 h2 => h x (by omega) (by omega))]
/-- A store in physical memory keeps the canonical form. -/
theorem Mach.physWrite_wf (m : Mach) (pa : Nat) (bs : List Byte) (h : Memory.wf m.mem = true) : Memory.wf (m.physWrite pa bs).mem = true :=
  Memory.wf_writeL _ _ _ h
@[simp] theorem Mach.hitMonitors_mem (m : Mach) (pa n : Nat) : (m.hitMonitors pa n).mem = m.mem := rfl
@[simp] theorem Mach.l2Write_mem (m : Mach) (pa : Nat) (bs : List Byte) : (m.l2Write pa bs).mem = Memory.writeL m.mem pa bs := rfl
theorem Mach.l2Write_wf (m : Mach) (pa : Nat) (bs : List Byte) (h : Memory.wf m.mem = true) : Memory.wf (m.l2Write pa bs).mem = true :=
  Memory.wf_writeL _ _ _ h
theorem Mach.writeBack_wf (m : Mach) (core line : Nat) (h : Memory.wf m.mem = true) : Memory.wf (m.writeBack core line).mem = true := by
  unfold Mach.writeBack
  split
  · exact h
  · split
    · simp only [Mach.hitMonitors_mem, Mach.modCore_mem]
      split <;> exact Memory.wf_writeL _ _ _ h
    · exact h
theorem Mach.dropLine_wf (m : Mach) (core line : Nat) (h : Memory.wf m.mem = true) : Memory.wf (m.dropLine core line).mem = true := by
  simp only [Mach.dropLine, Mach.modCore_mem]; exact m.writeBack_wf core line h
/-- A line the core does not hold is dropped without effect on memory. -/
theorem Mach.dropLine_mem_none (m : Mach) (core line : Nat) (h : tget (m.core core).l1 line = none) : (m.dropLine core line).mem = m.mem := by
  simp [Mach.dropLine, Mach.writeBack, h]
theorem State.reset_mem_wf : Memory.wf State.reset.m.mem = true := by rfl

/-! ## Host memory -/

theorem HostMem.wf_writeL (m : List Host.Cell) (a : Nat) (bs : List Byte) (h : HostMem.wf m = true) : HostMem.wf (HostMem.writeL m a bs) = true := by
  induction bs generalizing m a with
  | nil => exact h
  | cons b bs ih => exact ih _ _ (swf_sset 0 m a b h)

/-! ## Registers -/

@[simp] theorem Thread.getV_setV (t : Thread) (r : Nat) (x : V32) (h : sortedFrom none t.v = true) : (t.setV r x).getV r = x := sget_sset_same 0 _ _ _ h
@[simp] theorem Thread.getK_setK (t : Thread) (r : Nat) (x : K64) (h : sortedFrom none t.k = true) : (t.setK r x).getK r = x := sget_sset_same 0 _ _ _ h
@[simp] theorem Thread.getA_setA (t : Thread) (r : Nat) (x : Addr) (h : sortedFrom none t.a = true) : (t.setA r x).getA r = x := sget_sset_same 0 _ _ _ h
@[simp] theorem Thread.getP_setP (t : Thread) (r : Nat) (x : Bool) (h : sortedFrom none t.p = true) : (t.setP r x).getP r = x := sget_sset_same false _ _ _ h
theorem Thread.getV_setV_other (t : Thread) {r q : Nat} (x : V32) (h : sortedFrom none t.v = true) (hq : q ≠ r) : (t.setV r x).getV q = t.getV q :=
  sget_sset_other 0 _ _ h hq
theorem Thread.getK_setK_other (t : Thread) {r q : Nat} (x : K64) (h : sortedFrom none t.k = true) (hq : q ≠ r) : (t.setK r x).getK q = t.getK q :=
  sget_sset_other 0 _ _ h hq
theorem Thread.getA_setA_other (t : Thread) {r q : Nat} (x : Addr) (h : sortedFrom none t.a = true) (hq : q ≠ r) : (t.setA r x).getA q = t.getA q :=
  sget_sset_other 0 _ _ h hq
theorem Thread.getP_setP_other (t : Thread) {r q : Nat} (x : Bool) (h : sortedFrom none t.p = true) (hq : q ≠ r) : (t.setP r x).getP q = t.getP q :=
  sget_sset_other false _ _ h hq

end Sys2Proof.Machine
end

