-- ==== Sys2Proof/Laws/Group.lean ====
section
/-! SUPPORT. What the shared operations of program instructions do: the issue group, going on, waiting, trapping, and running a register
operation. Each lemma says all its operation can do, so that a proof about an instruction cites it. -/
namespace Sys2Proof.Machine

/-! ## The issue group -/

theorem Mach.ctx?_some {m : Mach} {c : Ctx} (h : m.ctx? = some c) :
    c.m = m ∧ m.ig = some c.ig ∧ m.wg? c.core c.slot = some c.wg ∧ c.act = c.ig.threads.filter (fun t => (c.wg.thread t).guard) := by
  unfold Mach.ctx? at h
  split at h
  · cases h
  · rename_i g hg
    split at h
    · cases h
    · rename_i w hw
      injection h with h
      subst h
      exact ⟨rfl, hg, hw, rfl⟩
theorem Mach.ctx?_m {m : Mach} {c : Ctx} (h : m.ctx? = some c) : c.m = m := (Mach.ctx?_some h).1
theorem Mach.ctx?_wg {m : Mach} {c : Ctx} (h : m.ctx? = some c) : m.wg? c.core c.slot = some c.wg := (Mach.ctx?_some h).2.2.1

/-- A program instruction always answers a next state where an issue group stands: what its meaning makes of the machine. -/
theorem State.group_next (s : State) (f : Clock → Ctx → Mach) {c : Ctx} (h : s.m.ctx? = some c) :
    s.group f = .next { s with m := f s.clk c } := by
  simp [State.group, h]
/-- An event answers a next state exactly when its condition holds. -/
theorem State.event_next (s : State) (f : Clock → Mach → Option Mach) {m : Mach} (h : f s.clk s.m = some m) :
    s.event f = .next { s with m } := by
  simp [State.event, h]
theorem State.event_fault (s : State) (f : Clock → Mach → Option Mach) (h : f s.clk s.m = none) : s.event f = .fault .notEnabled := by
  simp [State.event, h]
/-- A meaning of a program instruction, an event or a command moves neither the clock nor the agenda. -/
theorem State.group_clk {s t : State} {f : Clock → Ctx → Mach} (h : s.group f = .next t) : t.clk = s.clk ∧ t.agenda = s.agenda := by
  unfold State.group at h
  split at h
  · cases h
  · injection h with h; subst h; exact ⟨rfl, rfl⟩
theorem State.event_clk {s t : State} {f : Clock → Mach → Option Mach} (h : s.event f = .next t) : t.clk = s.clk ∧ t.agenda = s.agenda := by
  unfold State.event at h
  split at h
  · cases h
  · injection h with h; subst h; exact ⟨rfl, rfl⟩
theorem State.always_clk {s t : State} {f : Clock → Mach → Mach} (h : s.always f = .next t) : t.clk = s.clk ∧ t.agenda = s.agenda := by
  unfold State.always at h
  injection h with h; subst h; exact ⟨rfl, rfl⟩

/-! ## Going on -/

theorem Mach.atWg_eq {m : Mach} {c : Ctx} {w : Wg} (f : Wg → Wg) (h : m.wg? c.core c.slot = some w) : m.atWg c f = m.setWg c.core c.slot (f w) :=
  Mach.modWg_eq m f h
/-- Every thread of the group goes on; nothing else changes. -/
theorem Ctx.retire_eq {m : Mach} {c : Ctx} {w : Wg} (h : m.wg? c.core c.slot = some w) :
    c.retire m = m.setWg c.core c.slot (w.modThreads c.ig.threads (·.advance c.len)) := Mach.atWg_eq _ h
/-- The active threads take `f`, then every thread of the group goes on; nothing else changes. -/
theorem Ctx.retireWith_eq {m : Mach} {c : Ctx} {w : Wg} (f : Thread → Thread) (h : m.wg? c.core c.slot = some w) :
    c.retireWith m f = m.setWg c.core c.slot ((w.modThreads c.act f).modThreads c.ig.threads (·.advance c.len)) := Mach.atWg_eq _ h
theorem Ctx.retireK_eq {m : Mach} {c : Ctx} {w : Wg} (kd x : Nat) (h : m.wg? c.core c.slot = some w) :
    c.retireK m kd x = m.setWg c.core c.slot
      ((w.modThreads c.act (fun t => t.setK kd (BitVec.ofNat 64 x))).modThreads c.ig.threads (·.advance c.len)) := Ctx.retireWith_eq _ h
@[simp] theorem Ctx.retire_mem (c : Ctx) (m : Mach) : (c.retire m).mem = m.mem := by simp [Ctx.retire, Mach.atWg]
@[simp] theorem Ctx.retire_cores (c : Ctx) (m : Mach) : (c.retire m).cores = m.cores := by simp [Ctx.retire, Mach.atWg]
@[simp] theorem Ctx.retire_fns (c : Ctx) (m : Mach) : (c.retire m).fns = m.fns := by simp [Ctx.retire, Mach.atWg]
@[simp] theorem Ctx.retire_host (c : Ctx) (m : Mach) : (c.retire m).host = m.host := by simp [Ctx.retire, Mach.atWg]
@[simp] theorem Ctx.retireWith_mem (c : Ctx) (m : Mach) (f : Thread → Thread) : (c.retireWith m f).mem = m.mem := by simp [Ctx.retireWith, Mach.atWg]
@[simp] theorem Ctx.retireWith_cores (c : Ctx) (m : Mach) (f : Thread → Thread) : (c.retireWith m f).cores = m.cores := by
  simp [Ctx.retireWith, Mach.atWg]
@[simp] theorem Ctx.retireWith_fns (c : Ctx) (m : Mach) (f : Thread → Thread) : (c.retireWith m f).fns = m.fns := by
  simp [Ctx.retireWith, Mach.atWg]

/-! ## Nothing to seal, nothing to release -/

/-- Outside rollback mode nothing is sealed. -/
theorem Mach.seal_off {m : Mach} {core slot : Nat} {w : Wg} (clk : Clock) (reason : Nat) (h : m.wg? core slot = some w) (hr : w.hdr.rollback = false) :
    m.seal clk core slot reason = m := by simp [Mach.seal, h, hr]
/-- A release of workgroup or core scope does nothing to a workgroup that buffers no store. -/
theorem Mach.release_near {m : Mach} {core slot scope : Nat} {w : Wg} (clk : Clock) (h : m.wg? core slot = some w) (hb : w.sbuf = [])
    (hs : scope < 3) : m.release clk core slot scope = m := by
  have : ¬ 3 ≤ scope := by omega
  simp [Mach.release, h, hb, this]
theorem Mach.acquire_near {m : Mach} {core scope : Nat} (hs : scope < 3) : m.acquire core scope = m := by
  have : ¬ 3 ≤ scope := by omega
  simp [Mach.acquire, this]

/-! ## Register operations -/

theorem List.find?_lane (act : List Nat) (w : Wg) (i : Nat) :
    (act.map (fun i => (i, w.thread i))).find? (fun l => l.1 == i) = if act.contains i then some (i, w.thread i) else none := by
  induction act with
  | nil => rfl
  | cons j act ih =>
    by_cases h : j = i
    · subst h; simp
    · have h' : ¬ i = j := fun e => h e.symm
      simp only [List.map_cons, List.find?_cons, List.contains_cons]
      rw [ih]
      simp [h', beq_eq_false_iff_ne.2 h]
theorem Wg.thread_getElem (w : Wg) (i : Nat) (h : i < w.threads.length) : w.thread i = w.threads[i] := by
  simp [Wg.thread, h]
/-- A register operation none of whose registers is mapped: each active lane writes its own result, every thread of the group goes on,
and nothing else changes (R82, R91). -/
theorem State.reg_next (s : State) (op : RegOp) {c : Ctx} (h : s.m.ctx? = some c) (hp : c.wg.mappedTo true op.src = [])
    (hq : c.wg.mappedTo false op.dst = []) :
    s.reg op = .next { s with m := s.m.setWg c.core c.slot { c.wg with threads := c.wg.threads.mapIdx (fun i t =>
      if c.act.contains i then ((op.upd (c.act.map (fun i => (i, c.wg.thread i))) (i, t)).apply t).advance c.len
      else if c.ig.threads.contains i then t.advance c.len else t) } } := by
  have hw := Mach.ctx?_wg h
  have hm := Mach.ctx?_m h
  unfold State.reg
  rw [State.group_next s _ h]
  simp only [Ctx.run, hp, hq, List.isEmpty_nil, Bool.and_self, if_true]
  rw [hm, Mach.atWg_eq _ hw]
  congr 4
  apply List.mapIdx_eq_mapIdx_iff.2
  intro i hi
  rw [List.find?_lane]
  by_cases hc : c.act.contains i = true
  · rw [if_pos hc, if_pos hc, Wg.thread_getElem c.wg i hi]
  · rw [if_neg hc, if_neg hc]

end Sys2Proof.Machine
end

