-- ==== Sys2Proof/Safety.lean ====
section
/-! DEFINITION. What counts as a safe run: one on which no step faults and none is refused, for as many steps as are asked. -/
namespace Sys2Proof.Machine

/-- A step answers a next state. -/
def State.steps (s : State) : Prop := ∃ t, step s = .next t
/-- `n` steps from `s` all answer a next state. -/
def State.safeFor (s : State) (n : Nat) : Prop := ∃ t, Sys2Proof.core.run n s = .next t

end Sys2Proof.Machine
end

