-- ==== Sys2Proof/Certificates/Slice0/Obligations.lean ====
section
/-! DEFINITION. The statements for the provers, with the words they are made of (namespace `Sys2Proof.Claims`). A statement of the form
`… = .next t` says that the instruction completes, what it does, and that nothing else changes. -/

/-! ## Words of the statements -/

namespace Sys2Proof.Claims
open Sys2Proof.Machine

/-- The issue group `c` stands in `s`: its workgroup, its threads, and those whose guard is true (R156). -/
def Issues (s : State) (c : Ctx) : Prop := s.m.ctx? = some c
/-- No q register of the workgroup is mapped to a v register the instruction names as a 32-bit source or result (R271). -/
def NotMapped (c : Ctx) (src dst : List Nat) : Prop := c.wg.mappedTo true src = [] ∧ c.wg.mappedTo false dst = []
/-- No operation of an ordered launch that the group's threads made is still held (R400); it is so in every launch that is not ordered. -/
def NoneHeld (c : Ctx) : Prop := c.wg.hdr.ordered = false ∨ ∀ l, c.m.launch? c.vf c.wg.launch = some l → ∀ o ∈ l.held, o.g ≠ c.wg.g
/-- No rollback mode, no buffered store, and no line in L1 to write back or drop, so that a release or an acquire has nothing to do. -/
def Quiet (s : State) (c : Ctx) : Prop := c.wg.hdr.rollback = false ∧ c.wg.sbuf = [] ∧ (s.m.core c.core).l1 = []
/-- `s` with another machine. -/
def withM (s : State) (m : Mach) : State := { s with m }
/-- `s` with the group's workgroup changed to `w`, and NOTHING ELSE changed: no byte of memory, no core, no function, no clock. -/
def put (s : State) (c : Ctx) (w : Wg) : State := { s with m := s.m.setWg c.core c.slot w }
/-- The group's workgroup when each active thread has taken `f` and every thread of the group has gone on by the instruction's length;
no other thread, and nothing else of the workgroup, is changed. -/
def each (c : Ctx) (f : Thread → Thread) : Wg :=
  { c.wg with threads := c.wg.threads.mapIdx (fun i t =>
      if c.act.contains i then (f t).advance c.len else if c.ig.threads.contains i then t.advance c.len else t) }
/-- The active lanes as the instruction reads them. -/
def lanes (c : Ctx) : List Lane := c.act.map (fun i => (i, c.wg.thread i))
/-- The instruction ANSWERS A NEXT STATE from every state in which its group stands and none of its registers is mapped: each active
thread takes `f`, every thread goes on, and nothing else changes. Result, completion and frame in one equation. -/
def Lanewise (i : Instr) (src dst : List Nat) (f : Ctx → Thread → Thread) : Prop :=
  ∀ s c, Issues s c → NotMapped c src dst → Machine.exec i s = .next (put s c (each c (f c)))

/-- The value a v register, or the pair, holds for a type: the low bits (R9, R57). -/
def opnd (t : Ty) (th : Thread) (r : Nat) : BitVec t.bits :=
  if t.is64 then (th.getVV r).setWidth t.bits else (th.getV r).setWidth t.bits
/-- Operand b (R25, R26): a register; the 16-bit immediate, sign-extended for an i type, moved to the top half for f32 and
zero-extended otherwise; or the 61-bit payload, sign-extended. -/
def opndB (t : Ty) (th : Thread) : Src → BitVec t.bits
  | .reg r => opnd t th r
  | .imm x => if t.signed then (BitVec.ofNat 16 x).signExtend t.bits else if t = .f32 then BitVec.ofNat t.bits (x * 65536) else BitVec.ofNat t.bits x
  | .ext p => (BitVec.ofNat 61 p).signExtend t.bits
/-- A shift count (R84): 32 unsigned bits of a register, or the immediate zero-extended whatever the type. -/
def countB (th : Thread) : Src → Nat
  | .reg r => (th.getV r).toNat
  | .imm x => (BitVec.ofNat 32 x).toNat
  | .ext p => ((BitVec.ofNat 61 p).signExtend 32).toNat
/-- The integer a type reads from a pattern (R57). -/
def intOf (t : Ty) (x : BitVec t.bits) : Int := if t.signed then x.toInt else (x.toNat : Int)
/-- Write a result (R9, R57): the pair for 64 bits, else one register filled by the type's sign. -/
def result (t : Ty) (d : Nat) (x : BitVec t.bits) (th : Thread) : Thread :=
  if t.is64 then th.setVV d (x.setWidth 64) else th.setV d (if t.signed then x.signExtend 32 else x.setWidth 32)
/-- Write a result per lane from operands a and b. -/
def res2 (t : Ty) (d a : Nat) (b : Src) (f : BitVec t.bits → BitVec t.bits → BitVec t.bits) (_ : Ctx) (th : Thread) : Thread :=
  result t d (f (opnd t th a) (opndB t th b)) th
/-- A shift per lane. -/
def resShift (t : Ty) (d a : Nat) (b : Src) (f : BitVec t.bits → Nat → BitVec t.bits) (_ : Ctx) (th : Thread) : Thread :=
  result t d (f (opnd t th a) (countB th b)) th
/-- The 32-bit register names of operands a and b (R271). -/
def ab (t : Ty) (a : Nat) (b : Src) : List Nat := t.named a ++ b.named t

/-- Round `r` into type `t` and write it to vd (R67, R104): `rst` draws once from `sr.rnd`; the flags are added to `sr.fstat`. -/
def rounded (t : Ty) (d : Nat) (rm : Rm) (r : FRes) (th : Thread) : Thread :=
  let draw := rndNext th.rnd
  let out := t.float.round r.1 rm (if rm = .rst then draw.1 else 0)
  { th.setV d (BitVec.ofNat 32 out.1) with
    fstat := th.fstat ||| (out.2 ||| r.2), rnd := if rm = .rst then draw.2 else th.rnd }
/-- The value of a float operand. -/
def fv (t : Ty) (th : Thread) (r : Nat) : FVal := t.float.read (opnd t th r).toNat
def fvB (t : Ty) (th : Thread) (b : Src) : FVal := t.float.read (opndB t th b).toNat
/-- Write a pattern and add flags. -/
def flagged (d : Nat) (x : Nat × BitVec 5) (th : Thread) : Thread :=
  { th.setV d (BitVec.ofNat 32 x.1) with fstat := th.fstat ||| x.2 }
/-- Operand b of a group D instruction: 64 bits of a k register, or the immediate extended to 64 (R92); `z`: zero-extended. -/
def kB (z : Bool) (th : Thread) : Src → K64
  | .reg r => th.getK r
  | .imm x => if z then BitVec.ofNat 64 x else (BitVec.ofNat 16 x).signExtend 64
  | .ext p => (BitVec.ofNat 61 p).signExtend 64
/-- A group D result: computed once, on the leader, and written to kd of every active thread (R91). -/
def uni (d : Nat) (f : Thread → K64) (c : Ctx) (th : Thread) : Thread := th.setK d (match lanes c with | (_, l) :: _ => f l | [] => f th)
/-- A group E result. -/
def uniA (d : Nat) (f : Thread → Addr) (c : Ctx) (th : Thread) : Thread := th.setA d (match lanes c with | (_, l) :: _ => f l | [] => f th)
/-- A predicate computed once. -/
def uniP (d : Nat) (f : Thread → Bool) (c : Ctx) (th : Thread) : Thread := th.setP d (match lanes c with | (_, l) :: _ => f l | [] => f th)
/-- The value a type reads from a k register (R92). -/
def kInt (t : Ty) (x : K64) : Int := intOf t (x.setWidth t.bits)

end Sys2Proof.Claims

open Sys2Proof Sys2Proof.Machine Sys2Proof.Claims

/-! ## Groups A to E: results, completion and frame -/

/-- R57, R58, R83, R85: the exact integer result modulo 2^n, in bit-vector arithmetic. -/
def Obligations.VectorIntegerArithmetic : Prop :=
  ∀ (t : Ty) (d a : Nat) (b : Src),
    Lanewise (.add t d a b) (ab t a b) (t.named d) (res2 t d a b (fun x y => x + y)) ∧
    Lanewise (.sub t d a b) (ab t a b) (t.named d) (res2 t d a b (fun x y => x - y)) ∧
    Lanewise (.mul t d a b) (ab t a b) (t.named d) (res2 t d a b (fun x y => x * y)) ∧
    Lanewise (.mulhi t d a b) (ab t a b) (t.named d)
      (res2 t d a b (fun x y => BitVec.ofInt t.bits (intOf t x * intOf t y / (2 ^ t.bits : Nat)))) ∧
    Lanewise (.min t d a b) (ab t a b) (t.named d) (res2 t d a b (fun x y => if intOf t y < intOf t x then y else x)) ∧
    Lanewise (.max t d a b) (ab t a b) (t.named d) (res2 t d a b (fun x y => if intOf t x < intOf t y then y else x)) ∧
    Lanewise (.abs t d a) (t.named a) (t.named d)
      (fun _ th => result t d (if intOf t (opnd t th a) < 0 then -opnd t th a else opnd t th a) th) ∧
    (∀ e f, Lanewise (.mad t d a e f) (t.named a ++ t.named e ++ t.named f) (t.named d)
      (fun _ th => result t d (opnd t th a * opnd t th e + opnd t th f) th))

/-- R83, R84: bit operations, and shifts whose count is never reduced but by `rotl`. -/
def Sys2Proof.Claims.VectorBitsAndShifts : Prop :=
  ∀ (t : Ty) (d a : Nat) (b : Src),
    Lanewise (.and t d a b) (ab t a b) (t.named d) (res2 t d a b (fun x y => x &&& y)) ∧
    Lanewise (.or t d a b) (ab t a b) (t.named d) (res2 t d a b (fun x y => x ||| y)) ∧
    Lanewise (.xor t d a b) (ab t a b) (t.named d) (res2 t d a b (fun x y => x ^^^ y)) ∧
    Lanewise (.andn t d a b) (ab t a b) (t.named d) (res2 t d a b (fun x y => x &&& ~~~y)) ∧
    Lanewise (.shl t d a b) (t.named a ++ b.regs32) (t.named d) (resShift t d a b (fun x n => x <<< n)) ∧
    Lanewise (.shr t d a b) (t.named a ++ b.regs32) (t.named d) (resShift t d a b (fun x n => x >>> n)) ∧
    Lanewise (.sar t d a b) (t.named a ++ b.regs32) (t.named d) (resShift t d a b (fun x n => x.sshiftRight n)) ∧
    Lanewise (.rotl t d a b) (t.named a ++ b.regs32) (t.named d) (resShift t d a b (fun x n => x.rotateLeft n))

/-- R84, R85: counts go to one 32-bit register; `brev` reverses; `bfx` extends a field from its own top bit. -/
def Sys2Proof.Claims.CountsAndFieldExtract : Prop :=
  ∀ (t : Ty) (d a pos len : Nat),
    Lanewise (.clz t d a) (t.named a) [d] (fun _ th => th.setV d ((opnd t th a).clz.setWidth 32)) ∧
    Lanewise (.popc t d a) (t.named a) [d] (fun _ th => th.setV d ((opnd t th a).cpop.setWidth 32)) ∧
    Lanewise (.brev t d a) (t.named a) (t.named d) (fun _ th => result t d (opnd t th a).reverse th) ∧
    Lanewise (.bfx t d a pos len) (t.named a) (t.named d) (fun _ th => result t d (
      let f : BitVec len := (opnd t th a >>> pos).setWidth len
      if pos < t.bits then (if t.signed then f.signExtend t.bits else f.setWidth t.bits) else 0) th)

/-- The bitwise instructions, shifts and rotates, counts, and field extraction. -/
def Obligations.VectorBits : Prop := VectorBitsAndShifts ∧ CountsAndFieldExtract

/-- R86, the whole rule: `bfi` places the low hi − pos bits of b at pos, with pos and len from the control word c of the lane. -/
def Obligations.FieldInsert : Prop :=
  ∀ (t : Ty) (d a b c : Nat), Lanewise (.bfi t d a b c) (t.named a ++ t.named b ++ [c]) (t.named d) (fun _ th =>
    let ctl := th.getV c
    let pos := (ctl.extractLsb' 0 6).toNat
    let len := (ctl.extractLsb' 8 6).toNat
    let hi := min (pos + len) t.bits
    let mask := BitVec.ofNat t.bits (2 ^ hi - 2 ^ pos)
    result t d (if len = 0 ∨ t.bits ≤ pos then opnd t th a else (opnd t th a &&& ~~~mask) ||| ((opnd t th b <<< pos) &&& mask)) th)

/-- R87 to R90: selection by the lane's own predicate, comparison with its combining form, moves. -/
def Obligations.SelectCompareMove : Prop :=
  ∀ (t : Ty) (d a : Nat),
    (∀ b p, Lanewise (.sel t d a b p) (t.named a ++ t.named b) (t.named d)
      (fun _ th => result t d (if th.getP p then opnd t th a else opnd t th b) th)) ∧
    (∀ (b : Src) (k : Cmp) (x : Comb), Lanewise (.cmp t k d a b x) (ab t a b) [] (fun _ th =>
      let u := intOf t (opnd t th a)
      let v := intOf t (opndB t th b)
      let r := match k with
        | .eq => decide (u = v) | .ne => decide (u ≠ v) | .lt => decide (u < v) | .le => decide (u ≤ v)
        | .gt => decide (v < u) | .ge => decide (v ≤ u) | .un => false | .ord => true
      th.setP d (match x with | .plain => r | .both p => r && th.getP p | .either p => r || th.getP p))) ∧
    (∀ neg, t ≠ .pred → Lanewise (.mov t d a neg) (t.named a) (t.named d) (fun _ th => result t d (opnd t th a) th)) ∧
    (∀ neg, Lanewise (.mov .pred d a neg) [] [] (fun _ th => th.setP d (th.getP a != neg))) ∧
    (∀ b : Src, (match b with | .reg _ => False | _ => True) →
      Lanewise (.movi t d b) [] (t.named d) (fun _ th => result t d (opndB t th b) th))

/-- R59, R60: truncating division; a zero divisor gives −1 and the dividend and sets DZ, the one signed overflow sets DV. -/
def Obligations.DivisionAndRemainder : Prop :=
  ∀ (t : Ty) (d a : Nat) (b : Src),
    let flags (x y : Int) : BitVec 2 := if y = 0 then 1 else if t.signed = true ∧ x = -(2 ^ (t.bits - 1) : Nat) ∧ y = -1 then 2 else 0
    Lanewise (.div t d a b) (ab t a b) (t.named d) (fun _ th =>
      let x := intOf t (opnd t th a)
      let y := intOf t (opndB t th b)
      let u := result t d (BitVec.ofInt t.bits (if y = 0 then -1 else x.tdiv y)) th
      { u with istat := th.istat ||| flags x y }) ∧
    Lanewise (.rem t d a b) (ab t a b) (t.named d) (fun _ th =>
      let x := intOf t (opnd t th a)
      let y := intOf t (opndB t th b)
      let u := result t d (BitVec.ofInt t.bits (if y = 0 then x else x.tmod y)) th
      { u with istat := th.istat ||| flags x y })

/-- R104 to R107: the exact result rounded once into the type, with its flags; minimum and maximum return an operand. -/
def Sys2Proof.Claims.FloatArithmetic : Prop :=
  ∀ (t : Ty) (d a : Nat) (b : Src) (rm : Rm),
    Lanewise (.fadd t d a b rm) (ab t a b) [d] (fun _ th => rounded t d rm (addF (fv t th a) (fvB t th b) rm) th) ∧
    Lanewise (.fsub t d a b rm) (ab t a b) [d] (fun _ th => rounded t d rm (subF (fv t th a) (fvB t th b) rm) th) ∧
    Lanewise (.fmul t d a b rm) (ab t a b) [d] (fun _ th => rounded t d rm (mulF (fv t th a) (fvB t th b)) th) ∧
    Lanewise (.fdiv t d a b rm) (ab t a b) [d] (fun _ th => rounded t d rm (divF (fv t th a) (fvB t th b)) th) ∧
    (∀ e f, Lanewise (.ffma t d a e f rm) [a, e, f] [d] (fun _ th => rounded t d rm (fmaF (fv t th a) (fv t th e) (fv t th f) rm) th)) ∧
    Lanewise (.frcp t d a rm) [a] [d] (fun _ th => rounded t d rm (rcpF (fv t th a)) th) ∧
    Lanewise (.fsqrt t d a rm) [a] [d] (fun _ th => rounded t d rm (sqrtF (fv t th a)) th) ∧
    (∀ nan, Lanewise (.fmin t d a b nan) (ab t a b) [d]
      (fun _ th => flagged d (minMaxF t true nan (opnd t th a).toNat (opndB t th b).toNat) th)) ∧
    (∀ nan, Lanewise (.fmax t d a b nan) (ab t a b) [d]
      (fun _ th => flagged d (minMaxF t false nan (opnd t th a).toNat (opndB t th b).toNat) th))

/-- R108 to R110: a special result as the table gives it, or one of the two neighbours of the exact value (which of them is open: log 7). -/
def Sys2Proof.Claims.FloatApproximations : Prop :=
  ∀ (t : Ty) (d a : Nat),
    Lanewise (.frsq t d a) [a] [d] (fun _ th => flagged d (approxF .rsq t (opnd t th a).toNat) th) ∧
    Lanewise (.fexp2 t d a) [a] [d] (fun _ th => flagged d (approxF .exp2 t (opnd t th a).toNat) th) ∧
    Lanewise (.flog2 t d a) [a] [d] (fun _ th => flagged d (approxF .log2 t (opnd t th a).toNat) th) ∧
    Lanewise (.fsin t d a) [a] [d] (fun _ th => flagged d (approxF .sin t (opnd t th a).toNat) th) ∧
    Lanewise (.fcos t d a) [a] [d] (fun _ th => flagged d (approxF .cos t (opnd t th a).toNat) th)

/-- Floating-point arithmetic, exact to the rounding the spec gives, and the approximations. -/
def Obligations.FloatNumbers : Prop := FloatArithmetic ∧ FloatApproximations

/-- R78, R111 to R113, R120: comparison, class, conversion, scaling by a power of two from a register or from a stored scale byte. -/
def Obligations.FloatCompareConvertScale : Prop :=
  ∀ (t : Ty) (d a : Nat) (rm : Rm),
    (∀ (b : Src) (k : Cmp) (x : Comb), Lanewise (.fcmp t k d a b x) (ab t a b) [] (fun _ th =>
      let r := cmpF k (fv t th a) (fvB t th b)
      { th.setP d (match x with | .plain => r.1 | .both p => r.1 && th.getP p | .either p => r.1 || th.getP p) with
        fstat := th.fstat ||| r.2 })) ∧
    Lanewise (.fclass t d a) [a] [d] (fun _ th => th.setV d (BitVec.ofNat 32 (2 ^ classOf t.float (opnd t th a).toNat))) ∧
    (∀ mask, Lanewise (.fclassAny t d a mask) [a] [] (fun _ th => th.setP d (mask.testBit (classOf t.float (opnd t th a).toNat)))) ∧
    (∀ src : Ty, Lanewise (.cvt t src d a rm) (src.named a) (t.named d) (fun _ th =>
      let r := cvtBits t src rm (opnd src th a).toNat (rndNext th.rnd).1
      let u := result t d (BitVec.ofNat t.bits r.1) th
      { u with fstat := th.fstat ||| r.2, rnd := if rm = .rst then (rndNext th.rnd).2 else th.rnd })) ∧
    (∀ b : Src, Lanewise (.fscale t d a b rm) (t.named a ++ b.regs32) [d]
      (fun _ th => rounded t d rm (scaleF (fv t th a) (opndB .i32 th b).toInt) th)) ∧
    (∀ vs sel j inv, Lanewise (.fscaleStored t d a vs sel j inv rm) [a, vs + (sel + j) / 4] [d] (fun _ th =>
      let s := th.scaleByte vs sel j
      rounded t d rm (if s = 255 then (.nan false, 0) else scaleF (fv t th a) (if inv then 127 - (s : Int) else (s : Int) - 127)) th))

/-- R178 to R182: shuffles, votes, reductions and matches over the active lanes of the lane's own warp. -/
def Obligations.LaneInstructions : Prop :=
  ∀ (d a : Nat),
    (∀ mode (b : Src), Lanewise (.shfl mode d a b) (a :: b.regs32) [d] (fun c th =>
      let from_ := (shflLane mode th.lane (countB th b)).bind (fun j => (lanes c).find? (fun e => e.2.warp == th.warp && e.2.lane == j))
      th.setV d ((from_.map (fun e => e.2.getV a)).getD (th.getV a)))) ∧
    Lanewise (.voteAny d a) [] [] (fun c th => th.setP d ((lanes c).any (fun e => e.2.getP a))) ∧
    Lanewise (.voteAll d a) [] [] (fun c th => th.setP d ((lanes c).all (fun e => e.2.getP a))) ∧
    Lanewise (.voteBallot d a) [] [d] (fun c th =>
      th.setV d ((lanes c).foldl (fun x e => if e.2.warp == th.warp && e.2.getP a then x ||| BitVec.ofNat 32 (2 ^ e.2.lane) else x) 0)) ∧
    Lanewise (.voteEq d a) [a] [] (fun c th => th.setP d ((lanes c).all (fun e => e.2.getV a == th.getV a))) ∧
    (∀ op (t : Ty), Lanewise (.redux op t d a) (t.named a) (t.named d) (fun c th =>
      let r := reduxTree (reduxStep op t) 6 ((lanes c).map (fun e => (opnd t e.2 a).toNat))
      let u := result t d (BitVec.ofNat t.bits r.1) th
      { u with fstat := th.fstat ||| r.2 })) ∧
    (∀ t : Ty, Lanewise (.matchLanes t d a) (t.named a) [d] (fun c th =>
      th.setV d ((lanes c).foldl (fun x e => if e.2.warp == th.warp && opnd t e.2 a == opnd t th a then x ||| BitVec.ofNat 32 (2 ^ e.2.lane) else x) 0)))

/-- R91 to R95: group D computes once on the leader's k registers, modulo 2⁶⁴, and every active thread takes the result. -/
def Sys2Proof.Claims.UniformInstructions : Prop :=
  ∀ (d a : Nat) (b : Src),
    Lanewise (.kadd d a b) [] [] (uni d (fun l => l.getK a + kB false l b)) ∧
    Lanewise (.ksub d a b) [] [] (uni d (fun l => l.getK a - kB false l b)) ∧
    Lanewise (.kmul d a b) [] [] (uni d (fun l => l.getK a * kB false l b)) ∧
    Lanewise (.kand d a b) [] [] (uni d (fun l => l.getK a &&& kB false l b)) ∧
    Lanewise (.kor d a b) [] [] (uni d (fun l => l.getK a ||| kB false l b)) ∧
    Lanewise (.kxor d a b) [] [] (uni d (fun l => l.getK a ^^^ kB false l b)) ∧
    Lanewise (.kshl d a b) [] [] (uni d (fun l => l.getK a <<< (kB true l b).toNat)) ∧
    Lanewise (.kshr d a b) [] [] (uni d (fun l => l.getK a >>> (kB true l b).toNat)) ∧
    Lanewise (.ksar d a b) [] [] (uni d (fun l => (l.getK a).sshiftRight (kB true l b).toNat)) ∧
    (∀ t : Ty, t = .i64 ∨ t = .z64 →
      Lanewise (.kmin t d a b) [] [] (uni d (fun l => if kInt t (kB (!t.signed) l b) < kInt t (l.getK a) then kB (!t.signed) l b else l.getK a)) ∧
      Lanewise (.kmax t d a b) [] [] (uni d (fun l => if kInt t (l.getK a) < kInt t (kB (!t.signed) l b) then kB (!t.signed) l b else l.getK a)) ∧
      (∀ k : Cmp, Lanewise (.kcmp t k d a b) [] [] (uniP d (fun l =>
        let u := kInt t (l.getK a)
        let v := kInt t (kB (!t.signed) l b)
        match k with
        | .eq => decide (u = v) | .ne => decide (u ≠ v) | .lt => decide (u < v) | .le => decide (u ≤ v)
        | .gt => decide (v < u) | .ge => decide (v ≤ u) | .un => false | .ord => true)))) ∧
    (∀ e p, Lanewise (.ksel d a e p) [] [] (uni d (fun l => if l.getP p then l.getK a else l.getK e))) ∧
    Lanewise (.kmov d a) [] [] (uni d (fun l => l.getK a)) ∧
    Lanewise (.kmovi d b) [] [] (uni d (fun l => kB false l b)) ∧
    (∀ (t : Ty) pos len, Lanewise (.kbfx t d a pos len) [] [] (uni d (fun l =>
      let f : BitVec len := (l.getK a >>> pos).setWidth len
      if pos < 64 then (if t.signed then f.signExtend 64 else f.setWidth 64) else 0))) ∧
    Lanewise (.kpopc d a) [] [] (uni d (fun l => (l.getK a).cpop)) ∧
    Lanewise (.kclz d a) [] [] (uni d (fun l => (l.getK a).clz)) ∧
    (∀ t : Ty, Lanewise (.kbcast t d a) [] [] (fun c th =>
      result t d ((match lanes c with | (_, l) :: _ => l.getK a | [] => th.getK a).setWidth t.bits) th)) ∧
    (∀ t : Ty, Lanewise (.kpick t d a b) [] [] (fun c th =>
      let lead := match lanes c with | (_, l) :: _ => l | [] => th
      th.setK d (match (lanes c).find? (fun e => e.2.warp == lead.warp && e.2.lane == lead.srcK t b % 32) with
        | some e => BitVec.ofInt 64 (intOf t (opnd t e.2 a))
        | none => 0)))

/-- R96 to R99: addresses are 80 bits and wrap; `aaddv` is per lane, the others are computed once. -/
def Sys2Proof.Claims.AddressInstructions : Prop :=
  ∀ (d a : Nat),
    Lanewise (.amov d a) [] [] (uniA d (fun l => l.getA a)) ∧
    (∀ b : Src, Lanewise (.aset d a b) [] [] (uniA d (fun l => (kB true l b).setWidth 16 ++ l.getK a))) ∧
    Lanewise (.aget d a) [] [] (uni d (fun l => (l.getA a).setWidth 64)) ∧
    Lanewise (.agetHi d a) [] [] (uni d (fun l => (l.getA a >>> 64).setWidth 64)) ∧
    (∀ b : Src, Lanewise (.aadd d a b) [] [] (uniA d (fun l => l.getA a + (kB false l b).signExtend 80))) ∧
    (∀ (t : Ty) b scale, t = .i32 ∨ t = .z32 → Lanewise (.aaddv t d a b scale) [] []
      (fun _ th => th.setA d (th.getA a + ((if t.signed then (th.getV b).signExtend 80 else (th.getV b).setWidth 80) <<< scale)))) ∧
    (∀ b (k : Cmp), Lanewise (.acmp k d a b) [] [] (uniP d (fun l =>
      let u := (l.getA a).toNat
      let v := (l.getA b).toNat
      match k with
      | .eq => decide (u = v) | .ne => decide (u ≠ v) | .lt => decide (u < v) | .le => decide (u ≤ v)
      | .gt => decide (v < u) | .ge => decide (v ≤ u) | .un => false | .ord => true))) ∧
    (∀ b, Lanewise (.adiff d a b) [] [] (uni d (fun l =>
      let x := (l.getA a - l.getA b).toInt
      if x < -(2 ^ 63) then BitVec.intMin 64 else if 2 ^ 63 - 1 < x then BitVec.intMax 64 else BitVec.ofInt 64 x))) ∧
    (∀ n, n ≤ 79 → Lanewise (.aalignDn d a n) [] [] (uniA d (fun l => (l.getA a >>> n) <<< n)) ∧
      Lanewise (.aalignUp d a n) [] [] (uniA d (fun l => ((BitVec.setWidth 81 (l.getA a) + BitVec.ofNat 81 (2 ^ n - 1)) >>> n <<< n).setWidth 80)))

/-- The instructions on k registers and on a registers. -/
def Obligations.ScalarInstructions : Prop := UniformInstructions ∧ AddressInstructions

/-! ## Pairs, mapped registers, predicate blocks, control (groups F and T) -/

namespace Sys2Proof.Claims

/-- The group's workgroup after a transfer: an active thread with a target stands at it with `f` done to it and its block ended (R34);
an active thread with none, and the group's other threads, go on; a fused group whose threads part separates (R159). -/
def goes (c : Ctx) (tgt : Thread → Option Addr) (f : Thread → Thread) : Wg :=
  Wg.splitFused { c.wg with threads := c.wg.threads.mapIdx (fun i t =>
    if c.act.contains i then (match tgt t with | some a => { f t with pc := a, blk := none, since := none } | none => t.advance c.len)
    else if c.ig.threads.contains i then t.advance c.len else t) }
/-- The group's workgroup when its threads have gone on and each active one has then taken `f`, its block ended (R124). -/
def out (c : Ctx) (f : Thread → Thread) : Wg :=
  { c.wg with threads := c.wg.threads.mapIdx (fun i t =>
      if c.act.contains i then f { t.advance c.len with blk := none } else if c.ig.threads.contains i then t.advance c.len else t) }
/-- Every active thread that has a target has one that is a multiple of 8 (R13). -/
def Aligned (c : Ctx) (tgt : Thread → Option Addr) : Prop := ∀ j ∈ c.act, ∀ a, tgt (c.wg.thread j) = some a → a.toNat % 8 = 0
/-- Thread `j` is the active thread in the lowest lane whose target `a` is misaligned. -/
def FirstMisaligned (c : Ctx) (tgt : Thread → Option Addr) (j : Nat) (a : Addr) : Prop :=
  j ∈ c.act ∧ tgt (c.wg.thread j) = some a ∧ a.toNat % 8 ≠ 0 ∧
    ∀ i ∈ c.act, ∀ b, tgt (c.wg.thread i) = some b → b.toNat % 8 ≠ 0 → i = j ∨ (c.wg.thread j).lane < (c.wg.thread i).lane
/-- A transfer with these targets, taken when they are aligned. -/
def Transfers (i : Instr) (tgt : Ctx → Thread → Option Addr) : Prop :=
  ∀ s c, Issues s c → Aligned c (tgt c) → Machine.exec i s = .next (put s c (goes c (tgt c) id))
/-- The address `8 × off` bytes from the instruction. -/
def rel (c : Ctx) (off : Int) : Addr := c.ig.pc + BitVec.ofInt 80 (8 * off)
/-- The address `8 × off` bytes from a thread's own a register. -/
def relA (a : Nat) (off : Int) (t : Thread) : Addr := t.getA a + BitVec.ofInt 80 (8 * off)
/-- The leader's registers (R156). -/
def lead (c : Ctx) : Thread := c.wg.thread (c.act.headD 0)

end Sys2Proof.Claims

/-- R29, R100: both halves of a legal pair are register operations, the pair completes, and each active thread takes the scalar half's
results and then the vector half's, both computed from the registers as they stood before either wrote. -/
def Sys2Proof.Claims.PairWord : Prop :=
  ∀ f : PairFields, legal (.pairWord f) = true → ∃ k v x y, pairHalves f = some (k, v) ∧ regOpOf k = some x ∧ regOpOf v = some y ∧
    ∀ s c, Issues s c → NotMapped c y.src y.dst →
      exec (.pairWord f) s = .next (put s c { c.wg with threads := c.wg.threads.mapIdx (fun i t =>
        if c.act.contains i then
          (LaneUpd.apply { v := (x.upd (lanes c) (i, t)).v ++ (y.upd (lanes c) (i, t)).v, k := (x.upd (lanes c) (i, t)).k ++ (y.upd (lanes c) (i, t)).k,
                           a := (x.upd (lanes c) (i, t)).a ++ (y.upd (lanes c) (i, t)).a, p := (x.upd (lanes c) (i, t)).p ++ (y.upd (lanes c) (i, t)).p,
                           f := (x.upd (lanes c) (i, t)).f ||| (y.upd (lanes c) (i, t)).f, i := (x.upd (lanes c) (i, t)).i ||| (y.upd (lanes c) (i, t)).i,
                           rnd := (y.upd (lanes c) (i, t)).rnd } t).advance c.len
        else if c.ig.threads.contains i then t.advance c.len else t) })

/-- R271, for every register operation of groups A to E. A source mapped to a channel reads, in each active lane, the lane's element of those the
instruction pops; a result mapped to a channel is written, and its values are pushed in the lanes' order. With a result mapped to a channel that
is broken or destroyed the threads trap with cause 0x06, class 4, and nothing is popped; while a source's channel holds too few elements the
active threads wait and the registers keep their values. -/
def Sys2Proof.Claims.MappedRegisters : Prop :=
  ∀ (i : Instr) (op : RegOp) s c, regOpOf i = some op → Issues s c → c.act ≠ [] →
    let n := c.act.length
    let ran (ls : List Lane) : State := put s c { c.wg with threads := c.wg.threads.mapIdx (fun i t => match ls.find? (fun l => l.1 == i) with
      | some l => ((op.upd ls l).apply l.2).advance c.len
      | none => if c.ig.threads.contains i then t.advance c.len else t) }
    (∀ q b ch, c.wg.mappedTo true op.src = [(q, b)] → c.wg.mappedTo false op.dst = [] → s.m.chan? c.vf b.chan = some ch → ch.x = false →
      n ≤ ch.bobbin.length → Quiet s c → c.behind [q] = false →
      let ls := (lanes c).mapIdx (fun j l => (l.1, l.2.setV (b.map.getD 0) (ofWord32 (ch.bobbin.getD j []))))
      ∃ t ch', exec i s = .next t ∧ t.m.wgs = (ran ls).m.wgs ∧ t.m.mem = s.m.mem ∧ t.m.cores = s.m.cores ∧
        t.m.chan? c.vf b.chan = some ch' ∧ ch'.bobbin = ch.bobbin.drop n ∧ ch'.recvd = (ch.recvd + n) % 2 ^ 32) ∧
    (∀ q b ch, c.wg.mappedTo true op.src = [] → c.wg.mappedTo false op.dst = [(q, b)] → s.m.chan? c.vf b.chan = some ch → ch.x = false → ch.state ≠ 3 →
      ch.spooled = [] → ch.bobbin.length + n ≤ ch.bcap → Quiet s c → NoneHeld c → c.behind [q] = false →
      ∃ t ch' w, exec i s = .next t ∧ t.m.wgs = (ran (lanes c)).m.wgs ∧ (ran (lanes c)).m.wg? c.core c.slot = some w ∧ t.m.mem = s.m.mem ∧
        t.m.cores = s.m.cores ∧ t.m.chan? c.vf b.chan = some ch' ∧ ch'.sent = (ch.sent + n) % 2 ^ 32 ∧
        ch'.bobbin = ch.bobbin ++ c.act.map (fun j => word32 ((w.thread j).getV (b.map.getD 0)))) ∧
    ((∃ e ∈ c.wg.mappedTo false op.dst, ∀ x, s.m.chan? c.vf e.2.chan = some x → x.state = 3) → exec i s = .next (withM s (c.badHandle s.clk s.m 4))) ∧
    ((∀ e ∈ c.wg.mappedTo false op.dst, ∃ x, s.m.chan? c.vf e.2.chan = some x ∧ x.state ≠ 3) →
      (∃ e ∈ c.wg.mappedTo true op.src, ∃ x, s.m.chan? c.vf e.2.chan = some x ∧ x.popState n = .block) →
      ∃ q send also m, exec i s = .next (withM s (c.wait s.clk m c.act (.chan q send n also))) ∧ m.wgs = s.m.wgs ∧ m.mem = s.m.mem ∧ m.cores = s.m.cores)

/-- Pair words, and v registers that are mapped to a channel. -/
def Obligations.PairsAndMappedRegisters : Prop := PairWord ∧ MappedRegisters

/-- R31 to R35: a prefix opens a block of count + 1 covered slots whose guards are the pattern's bits against the predicate; a thread that is
already in a block takes cause 0x01 at the prefix. -/
def Obligations.PredicateBlock : Prop :=
  ∀ pred inv count pattern s c, Issues s c → c.ig.threads ≠ [] →
    ((∀ j ∈ c.ig.threads, (c.wg.thread j).blk = none ∧ (c.wg.thread j).reenter = none) →
      exec (.pblk pred inv count pattern) s = .next (put s c { c.wg with threads := c.wg.threads.mapIdx (fun i t =>
        if c.ig.threads.contains i then
          { t with pc := t.pc + 8, since := none,
                   blk := some { prefixPc := t.pc, count, slot := 0, guards := blockGuards (t.getP pred != inv) pattern count } }
        else t) })) ∧
    ((∀ j ∈ c.ig.threads, (c.wg.thread j).blk ≠ none) →
      exec (.pblk pred inv count pattern) s = .next (withM s ((put s c c.wg).m.takeTrap s.clk c.core c.slot c.ig.threads 1 0 c.ig.pc false)))

/-- R123: the targets of `bra`, `brc`, `brk` and `jmp`; a transfer that is not taken goes on. -/
def Sys2Proof.Claims.Branches : Prop :=
  ∀ (off : Int) (r : Nat),
    Transfers (.bra off) (fun c _ => some (rel c off)) ∧
    (∀ inv, Transfers (.brc r inv off) (fun c t => if t.getP r != inv then some (rel c off) else none)) ∧
    Transfers (.brkNz r off) (fun c _ => if (lead c).getK r ≠ 0 then some (rel c off) else none) ∧
    Transfers (.brkZ r off) (fun c _ => if (lead c).getK r = 0 then some (rel c off) else none) ∧
    Transfers (.jmp r off) (fun _ t => some (relA r off t))

/-- R13, R123: a misaligned target traps with cause 0x03, the lane in info and the target in `sr.trapaddr`; of several, the lowest lane's.
The threads stand at the transfer: only the group's inactive threads go on. -/
def Sys2Proof.Claims.MisalignedTransfersTrap : Prop :=
  ∀ (i : Instr) (off : Int) (r : Nat) (tgt : Ctx → Thread → Option Addr),
    (i = .bra off ∧ tgt = (fun c _ => some (rel c off))) ∨ (∃ inv, i = .brc r inv off ∧ tgt = (fun c t => if t.getP r != inv then some (rel c off) else none)) ∨
    (i = .brkNz r off ∧ tgt = (fun c _ => if (lead c).getK r ≠ 0 then some (rel c off) else none)) ∨
    (i = .brkZ r off ∧ tgt = (fun c _ => if (lead c).getK r = 0 then some (rel c off) else none)) ∨
    (i = .jmp r off ∧ tgt = (fun _ t => some (relA r off t))) ∨ (i = .call off ∧ tgt = (fun c _ => some (rel c off))) ∨
    (i = .callr r off ∧ tgt = (fun _ t => some (relA r off t))) →
    ∀ s c j a, Issues s c → FirstMisaligned c (tgt c) j a →
      exec i s = .next (withM s (c.trapAct s.clk s.m 3 (c.wg.thread j).lane a))

/-- R18, R19, R123: a call pushes the address after itself on each active thread's return stack and goes to its target; `ret` pops it and
goes there. Sixteen entries are held on chip; with no spill area a seventeenth push, and a pop of an empty stack, traps with cause 0x0E. -/
def Sys2Proof.Claims.CallAndReturn : Prop :=
  ∀ (off : Int) (r : Nat) s c, Issues s c → c.act ≠ [] →
    let pushed (t : Thread) : Thread := { t with rs := (c.ig.pc + BitVec.ofNat 80 c.len) :: t.rs }
    ((∀ j ∈ c.act, (c.wg.thread j).rs.length < 16) → (rel c off).toNat % 8 = 0 →
      exec (.call off) s = .next (put s c (goes c (fun _ => some (rel c off)) pushed))) ∧
    ((∀ j ∈ c.act, (c.wg.thread j).rs.length < 16) → Aligned c (fun t => some (relA r off t)) →
      exec (.callr r off) s = .next (put s c (goes c (fun t => some (relA r off t)) pushed))) ∧
    ((∀ j ∈ c.act, (c.wg.thread j).rs ≠ []) → Aligned c (fun t => t.rs.head?) →
      exec .ret s = .next (put s c (goes c (fun t => some (t.rs.headD 0)) (fun t => { t with rs := t.rs.tail })))) ∧
    (∀ j, c.act = [j] → (c.wg.thread j).rs = [] → c.wg.hdr.priv = 0 ∨ (c.wg.thread j).rsspill = 0 →
      exec .ret s = .next (withM s (c.trapAct s.clk s.m 14 0 (BitVec.ofNat 80 (c.wg.thread j).refillAt)))) ∧
    (∀ j, c.act = [j] → 16 ≤ (c.wg.thread j).rs.length → c.wg.hdr.priv = 0 → (rel c off).toNat % 8 = 0 →
      exec (.call off) s = .next (withM s (c.trapAct s.clk s.m 14 0 (BitVec.ofNat 80 (c.wg.thread j).spillAt))))

/-- Branches, jumps, calls and returns, and the trap on a target that is not aligned. -/
def Obligations.ControlTransfers : Prop := Branches ∧ MisalignedTransfersTrap ∧ CallAndReturn

/-- R124 to R128: `nop`, `exit`, `yield`, `sleep` and `regroup`. A sleep of 0 only goes on; a register duration is at most 2³² − 1. -/
def Obligations.ThreadControl : Prop :=
  ∀ s c, Issues s c →
    exec .nop s = .next (put s c (each c id)) ∧
    exec .exit s = .next (put s c (each c (fun t => { wid := t.wid, warp := t.warp, lane := t.lane, pc := t.pc, status := .exited })).splitFused) ∧
    exec .yield s = .next (put s c (out c (fun t => { t with yieldMark := true }))) ∧
    exec (.sleep 0) s = .next (put s c (out c id)) ∧
    (∀ n, 0 < n → exec (.sleep n) s = .next (put s c ((out c (fun t => { t with status := .asleep (s.clk.time + n) })).unfuse c.act))) ∧
    (∀ k, (lead c).getK k ≠ 0 → exec (.sleepReg k) s = .next (put s c ((out c (fun t =>
      { t with status := .asleep (s.clk.time + min ((lead c).getK k).toNat (2 ^ 32 - 1)) })).unfuse c.act))) ∧
    (∀ k, (lead c).getK k = 0 → exec (.sleepReg k) s = .next (put s c (out c id))) ∧
    (∀ v g, exec (.regroup v g) s = .next (put s c ((out c (fun t =>
      { t with v := t.v.filter (fun e => e.1 < 8 * g), status := .gathered (t.getV v).toNat g })).unfuse c.act)))

/-- R129, the whole rule: `trap code` is cause 0x09 and `brkpt id` cause 0x0A, with the code in info and the word's own address in
`sr.trapaddr`; with no guard true neither has an effect. -/
def Obligations.TrapAndBreakpoint : Prop :=
  ∀ (x : Nat) s c, Issues s c →
    (c.act ≠ [] → exec (.trap x) s = .next (withM s (c.trapAct s.clk s.m 9 x c.ig.pc)) ∧ exec (.brkpt x) s = .next (withM s (c.trapAct s.clk s.m 10 x c.ig.pc))) ∧
    (c.act = [] → exec (.trap x) s = .next (put s c (each c id)) ∧ exec (.brkpt x) s = .next (put s c (each c id)))

/-- R130, R372: the threads that trap enter their handler, with the PC they stood at (the prefix, in a block), the cause, the address, the
block (one that a return has left to be re-entered, too) and the length saved, and a fused group that no longer shares one PC separates; nothing
else changes. Where a thread has no handler or stands in one, its launch is killed: every workgroup of it
that has not ended has all its threads exited. -/
def Sys2Proof.Claims.TakingATrap : Prop :=
  ∀ (s : State) (core slot : Nat) (w : Wg) (ts : List Nat) (cause info : Nat) (addr : Addr) (long : Bool), s.m.wg? core slot = some w →
    ((w.hdr.handler ≠ 0 ∧ ∀ i ∈ ts, (w.thread i).trapH = false) →
      s.m.takeTrap s.clk core slot ts cause info addr long =
        s.m.setWg core slot (Wg.splitFused { w with
          threads := w.threads.mapIdx (fun i t => if ts.contains i then
            { t with
              trappc := (match t.blk with | none => t.pc | some b => b.prefixPc), cause := BitVec.ofNat 8 cause, info := BitVec.ofNat 16 info,
              trapaddr := addr, trapL := long, trapH := true, pc := w.hdr.handler, blk := none, reenter := none, since := none, status := .ready
              pblk := (match t.blk, t.reenter with
                | some b, _ => pblkWord true b.count b.slot b.guards
                | none, some (count, slot, guards) => pblkWord true count slot guards
                | none, none => t.pblk &&& 0x7FFF) } else t) })) ∧
    ((∃ i ∈ ts, w.hdr.handler = 0 ∨ (w.thread i).trapH = true) → s.m.launchKilled w.vf w.launch = false →
      ∀ w', w'.ending = false → w'.vf = w.vf → w'.launch = w.launch → ∀ k, (k, w') ∈ (s.m.takeTrap s.clk core slot ts cause info addr long).wgs →
        w'.killed = true ∧ ∀ t ∈ w'.threads, t.status = .exited)

/-- R131, R35: `trapret` of threads that stand in handlers goes to `sr.trappc`, past the word and its extension with `skip` unless a block is
to be resumed; a valid `sr.pblk` is left for the prefix to re-enter, one slot on with `skip`. Outside a handler it is cause 0x01. -/
def Sys2Proof.Claims.TrapReturn : Prop :=
  ∀ s c, Issues s c → c.act ≠ [] →
    let tgt (skip : Bool) (t : Thread) : Addr :=
      if skip && !t.pblk.getLsbD 15 then t.trappc + (if t.trapL then 16 else 8) else t.trappc
    let left (skip : Bool) (t : Thread) : Thread :=
      let slot := (if skip then (t.pblk.extractLsb' 8 4).toNat + 1 else (t.pblk.extractLsb' 8 4).toNat) % 16
      if t.pblk.getLsbD 15 then
        { t with trapH := false, pblk := pblkWord false (t.pblk.extractLsb' 12 3).toNat slot (t.pblk.extractLsb' 0 8),
                 reenter := some ((t.pblk.extractLsb' 12 3).toNat, slot, t.pblk.extractLsb' 0 8) }
      else { t with trapH := false, reenter := none, trappc := tgt skip t }
    ((∀ j ∈ c.act, (c.wg.thread j).trapH = true) → ∀ skip, Aligned c (fun t => some (tgt skip t)) →
      exec (if skip then .trapretSkip else .trapret) s = .next (put s c (goes c (fun t => some (tgt skip t)) (left skip)))) ∧
    ((∃ j ∈ c.act, (c.wg.thread j).trapH = false) →
      exec .trapret s = .next (withM s (c.trapAct s.clk s.m 1 0 c.ig.pc)) ∧ exec .trapretSkip s = .next (withM s (c.trapAct s.clk s.m 1 0 c.ig.pc)))

/-- Taking a trap, and returning from one. -/
def Obligations.TrapsAndReturns : Prop := TakingATrap ∧ TrapReturn

/-- R132 to R135: `srd` of the twenty numbered registers and `swr` of those that can be written, each in its four forms, `clock` and
`clock.time`. Outside a handler, writing a register from 11 up is cause 0x01. -/
def Obligations.SpecialRegisters : Prop :=
  ∀ s c, Issues s c →
    let value (t : Thread) (n : Nat) : Nat := match n with
      | 0 => t.wid | 1 => t.lane | 2 => c.core | 3 => c.vf | 4 => s.clk.time % 2 ^ 64
      | 5 => (s.clk.cycle - (s.m.core c.core).cycle0) % 2 ^ 64 | 6 => t.fstat.toNat | 7 => t.istat.toNat | 8 => t.rnd.toNat
      | 9 => c.wg.role t.warp | 10 => t.pblk.toNat | 11 => t.cause.toNat + 65536 * t.info.toNat | 12 => t.trapaddr.toNat | 13 => t.trappc.toNat
      | 14 => (if t.trapH then 1 else 0) + (if t.trapL then 2 else 0) | 15 => c.wg.hdr.handler.toNat
      | 16 => c.wg.rollbackWord | 17 => t.stackbase.toNat | 18 => t.rsspill | 19 => t.rs.length | _ => 0
    (∀ d n, n < 20 →
      exec (.srd 0 d n) s = .next (put s c (each c (fun t => t.setV d (BitVec.ofNat 32 (value t n))))) ∧
      exec (.srd 1 d n) s = .next (put s c (each c (fun t => t.setVV d (BitVec.ofNat 64 (value t n))))) ∧
      exec (.srd 2 d n) s = .next (put s c (each c (fun t => t.setK d (BitVec.ofNat 64 (value (lead c) n))))) ∧
      exec (.srd 3 d n) s = .next (put s c (each c (fun t => t.setA d (BitVec.ofNat 80 (value t n)))))) ∧
    (∀ form a n, form < 4 → (n = 6 ∨ n = 7 ∨ n = 8 ∨ n = 10 ∨ n = 11 ∨ n = 12 ∨ n = 13) → (11 ≤ n → ∀ j ∈ c.act, (c.wg.thread j).trapH = true) →
      exec (.swr form a n) s = .next (put s c (each c (fun t =>
        let x : Nat := match form with | 0 => (t.getV a).toNat | 1 => (t.getVV a).toNat | 2 => ((lead c).getK a).toNat | _ => (t.getA a).toNat
        match n with
        | 6 => { t with fstat := BitVec.ofNat 5 x }
        | 7 => { t with istat := BitVec.ofNat 2 x }
        | 8 => { t with rnd := BitVec.ofNat 64 x }
        | 10 => { t with pblk := BitVec.ofNat 16 x }
        | 11 => { t with cause := BitVec.ofNat 8 x, info := BitVec.ofNat 16 (x / 65536) }
        | 12 => { t with trapaddr := BitVec.ofNat 80 x }
        | _ => { t with trappc := BitVec.ofNat 80 x })))) ∧
    (∀ form a n, 11 ≤ n → (∃ j ∈ c.act, (c.wg.thread j).trapH = false) →
      exec (.swr form a n) s = .next (withM s (c.trapAct s.clk s.m 1 0 c.ig.pc))) ∧
    (∀ k, exec (.clock k) s = .next (put s c (each c (fun t => t.setK k (BitVec.ofNat 64 (s.clk.cycle - (s.m.core c.core).cycle0)))))) ∧
    (∀ k, exec (.clockTime k) s = .next (put s c (each c (fun t => t.setK k (BitVec.ofNat 64 s.clk.time)))))

/-! ## Packing (R114 to R118), memory, scratchpad, atomics, fences -/

namespace Sys2Proof.Claims

/-- An ordinary launch: not ordered, not in rollback mode, no store buffered. -/
def Ordinary (c : Ctx) : Prop := c.wg.hdr.ordered = false ∧ c.wg.hdr.rollback = false ∧ c.wg.sbuf = []
/-- The active threads are numbered once each, and there is one. -/
def Proper (c : Ctx) : Prop := c.act ≠ [] ∧ c.act.Nodup
/-- No monitor is armed (R293). -/
def NoMonitor (s : State) : Prop := ∀ e ∈ s.m.wgs, ∀ t ∈ e.2.threads, t.mon = none
/-- The lanes' accesses of `n` bytes at `va` hold `align`, cross no page, hit the core's translations for a strongly ordered page, and stand
at `pa`, where the core holds no line and no line is poisoned. -/
def Reaches (s : State) (c : Ctx) (k : Access) (n align : Nat) (js : List Nat) (va pa : Nat → Nat) : Prop :=
  ∀ j ∈ js, va j % align = 0 ∧ va j % 65536 + n ≤ 65536 ∧
    (∃ p, tget (s.m.core c.core).tlb (va j / 65536) = some p ∧ transPte p (va j) k = .ok (pa j) 0) ∧
    ∀ l ∈ linesOf (pa j) n, tget (s.m.core c.core).l1 l = none ∧ l ∉ s.m.poison
/-- Effective address of an access by thread number (R137). -/
def eaOf (c : Ctx) (o : MemOp) (j : Nat) : Nat := (c.wg.thread j).ea o
/-- What the load instructions load: bytes, alignment, destination, and whether the leader alone reads (R138 to R141). -/
def LoadForm (i : Instr) (o : MemOp) (n align : Nat) (dst : LoadDst) (uniform : Bool) : Prop :=
  (∃ t, i = .ld t o ∧ n = tyBytes t ∧ align = min n 4 ∧ dst = .v t o.data ∧ uniform = false) ∨
  (∃ t, i = .ldw t o ∧ n = (if t = .b32 then 16 else 32) ∧ align = 4 ∧ dst = .wide o.data ∧ uniform = false) ∨
  (∃ t, i = .ldk t o ∧ n = tyBytes t ∧ align = min n 4 ∧ dst = .k t o.data ∧ uniform = true) ∨
  (i = .lda o ∧ n = 16 ∧ align = 16 ∧ dst = .a o.data ∧ uniform = false)
/-- The bytes each store instruction takes from a thread. -/
def StoreForm (i : Instr) (o : MemOp) (n align : Nat) (bytes : Thread → List Byte) (uniform : Bool) : Prop :=
  (∃ t, i = .st t o ∧ n = tyBytes t ∧ align = min n 4 ∧ (bytes = fun th => leBytes n (th.pat t o.data)) ∧ uniform = false) ∨
  (∃ t, i = .stw t o ∧ n = (if t = .b32 then 16 else 32) ∧ align = 4 ∧
    (bytes = fun th => ((upFrom o.data (n / 4)).map (fun r => leBytes 4 (th.getV r).toNat)).flatten) ∧ uniform = false) ∨
  (∃ t, i = .stk t o ∧ n = tyBytes t ∧ align = min n 4 ∧ (bytes = fun th => leBytes n (th.getK o.data).toNat) ∧ uniform = true) ∨
  (i = .sta o ∧ n = 16 ∧ align = 16 ∧ (bytes = fun th => leBytes 10 (th.getA o.data).toNat ++ List.replicate 6 0) ∧ uniform = false)
/-- The lanes that access: the leader alone, or every active thread. -/
def lanesOf (c : Ctx) (uniform : Bool) : List Nat := if uniform then c.act.take 1 else c.act
/-- What a memory instruction that goes on leaves unchanged: the functions, host memory, scratchpads and other cores, the clock; and its
workgroup's threads have only gone on. -/
def WentOn (s : State) (c : Ctx) (t : State) : Prop :=
  t.clk = s.clk ∧ t.agenda = s.agenda ∧ t.m.wgs = (put s c (each c id)).m.wgs ∧ t.m.fns = s.m.fns ∧ t.m.host = s.m.host ∧
    (t.m.core c.core).scratch = (s.m.core c.core).scratch ∧ ∀ k, k ≠ c.core → t.m.core k = s.m.core k

end Sys2Proof.Claims

/-- R114 to R118: `fpack` and `funpack` through the plane bound at issue, where the slot holds one and is the launch's, the count suits the
record, and the spans lie in the allocation. A slot that holds no record or is not the launch's is cause 0x06 class 5; a count or a span that
does not suit is cause 0x01. -/
def Obligations.PackAndUnpack : Prop :=
  ∀ (t : Ty) (d a vs slot sel k : Nat) (rm : Rm) s c, Issues s c →
    let n := if k = 0 then 8 else if k = 1 then 16 else 32
    let pack := exec (.fpack t d a vs slot sel k rm) s
    let unpack := exec (.funpack t d a vs slot sel k rm) s
    (∀ f, s.m.plane c.core slot = some f → c.wg.holds slot = true →
      let fits (elems packed : Nat) : Prop := elems + n ≤ c.wg.alloc ∧ packed + f.packedRegs n ≤ c.wg.alloc ∧ (f.kind = 1 → vs < c.wg.alloc)
      (f.countOk n = true → fits a d → NotMapped c (fpackOp f t d a vs sel n rm).src (fpackOp f t d a vs sel n rm).dst →
        pack = .next (put s c (each c (fun th => ((fpackOp f t d a vs sel n rm).upd [] (0, th)).apply th)))) ∧
      (f.countOk n = true → fits d a → NotMapped c (funpackOp f t d a vs sel n rm).src (funpackOp f t d a vs sel n rm).dst →
        unpack = .next (put s c (each c (fun th => ((funpackOp f t d a vs sel n rm).upd [] (0, th)).apply th)))) ∧
      (f.countOk n = false ∨ ¬fits a d → pack = .next (withM s (c.illegal s.clk s.m))) ∧
      (f.countOk n = false ∨ ¬fits d a → unpack = .next (withM s (c.illegal s.clk s.m)))) ∧
    (s.m.plane c.core slot = none ∨ c.wg.holds slot = false →
      pack = .next (withM s (c.badHandle s.clk s.m 5)) ∧ unpack = .next (withM s (c.badHandle s.clk s.m 5)))

/-- R138 to R141, R214: a load of a strongly ordered page reads the bytes at each lane's address; they come back later, to the destination
(LoadReturn), and memory is not changed. -/
def Sys2Proof.Claims.LoadsReadMemory : Prop :=
  ∀ i o n align dst u s c pa, LoadForm i o n align dst u → 0 < n → Issues s c → Ordinary c → Proper c → o.order = .plain →
    Reaches s c .read n align (lanesOf c u) (eaOf c o) pa →
    ∃ t, exec i s = .next t ∧ WentOn s c t ∧ t.m.mem = s.m.mem ∧ t.m.poison = s.m.poison ∧
      (t.m.core c.core).loads = (s.m.core c.core).loads ++
        [{ id := s.m.nextId, slot := c.slot, dst, threads := c.act, lanes := (lanesOf c u).map (fun j => (j, [.got (Memory.readN s.m.mem (pa j) n)])), scope := o.scope }]

/-- R140, R214: every form of load whose accesses pass Check (R147), whatever its order and pages: the order's release, the reads, the
acquire, and the group goes on with its load outstanding. -/
def Sys2Proof.Claims.LoadsThatPassCheck : Prop :=
  ∀ i o n align dst u s c ps m, LoadForm i o n align dst u → 0 < n → Issues s c → c.wg.hdr.ordered = false → c.act ≠ [] →
    s.m.partsOf c.core c.vf [.read] (sortBy (·.lane) (c.accs o n u)) = (ps, m) →
    checkParts m align (sortBy (·.lane) (c.accs o n u)) ps = .ok ps → (∀ p ∈ ps, m.poisoned s.clk c.core (attrOf o) p = none) →
    exec i s = .next (withM s (
      let eff := (attrOf o).on ps
      let g := (eff.before false m s.clk c.core c.slot).gather s.clk c.core c.slot (attrOf o) ps (lanesOf c u)
      c.retire ((eff.after true g.2 c.core).pend c.core c.slot dst c.act g.1 eff)))

/-- The loads of memory. -/
def Obligations.Loads : Prop := LoadsReadMemory ∧ LoadsThatPassCheck

/-- R138 to R141, R214: a store to a strongly ordered page puts each lane's bytes at its address, in ascending order of the lanes'
threads, and changes no other byte of memory. -/
def Sys2Proof.Claims.StoresWriteMemory : Prop :=
  ∀ i o n align bytes u s c pa, StoreForm i o n align bytes u → 0 < n → Issues s c → Ordinary c → Proper c → NoMonitor s → o.order = .plain →
    Reaches s c .write n align (lanesOf c u) (eaOf c o) pa → Memory.wf s.m.mem = true →
    ∃ t, exec i s = .next t ∧ WentOn s c t ∧ (t.m.core c.core).loads = (s.m.core c.core).loads ∧ Memory.wf t.m.mem = true ∧
      t.m.mem = (lanesOf c u).foldl (fun mem j => Memory.writeL mem (pa j) (bytes (c.wg.thread j))) s.m.mem ∧
      ∀ x, (∀ j ∈ lanesOf c u, x < pa j ∨ pa j + n ≤ x) → Memory.read t.m.mem x = Memory.read s.m.mem x

/-- R214: every form of store whose accesses pass Check, whatever its order and pages. -/
def Sys2Proof.Claims.StoresThatPassCheck : Prop :=
  ∀ i o n align bytes u s c ps m, StoreForm i o n align bytes u → 0 < n → Issues s c → c.wg.hdr.ordered = false → c.act ≠ [] →
    s.m.partsOf c.core c.vf [.write] (sortBy (·.lane) (c.accs o n u)) = (ps, m) →
    checkParts m align (sortBy (·.lane) (c.accs o n u)) ps = .ok ps →
    exec i s = .next (withM s (
      let eff := (attrOf o).on ps
      c.retire (eff.after false
        ((lanesOf c u).foldl (fun m j => c.storeThread s.clk (attrOf o) ps (bytes (c.wg.thread j)) j m) (eff.before true m s.clk c.core c.slot)) c.core)))

/-- The stores to memory. -/
def Obligations.Stores : Prop := StoresWriteMemory ∧ StoresThatPassCheck

/-- R139, R147, for the loads and stores of memory: the lowest lane whose address is misaligned traps the active threads with cause 0x03, its
lane in info and the address in `sr.trapaddr`; memory is not changed. -/
def Sys2Proof.Claims.MisalignedAccessesTrap : Prop :=
  ∀ i o n align u s c a, (∃ dst, LoadForm i o n align dst u) ∨ (∃ bytes, StoreForm i o n align bytes u) → 0 < n → Issues s c →
    c.wg.hdr.ordered = false → c.act ≠ [] → (sortBy (·.lane) (c.accs o n u)).find? (fun a => a.va % align != 0) = some a →
    ∃ m, exec i s = .next (withM s (c.trapAct s.clk m 3 a.lane (BitVec.ofNat 80 a.va))) ∧ m.mem = s.m.mem ∧ m.wgs = s.m.wgs ∧ m.fns = s.m.fns

/-- R143: a prefetch changes no register and no memory a program reads: its threads only go on, with at most a line brought into L1. -/
def Sys2Proof.Claims.Prefetch : Prop :=
  ∀ (o : MemOp) s c, Issues s c → (∀ j ∈ c.act, ∃ p pa kind, tget (s.m.core c.core).tlb (eaOf c o j / 65536) = some p ∧
      transPte p (eaOf c o j) .read = .ok pa kind ∧ (kind = 0 ∨ o.data % 4 ≠ 0 ∨ (tget (s.m.core c.core).l1 (lineOf pa)).isSome = true)) →
    exec (.pf o) s = .next (put s c (each c id))

/-- R241 to R244: the scratchpad forms read and write at the leader's base plus the lane's own index, within the workgroup's grant; a store sets
the D bit of every region it lands in. -/
def Obligations.ScratchpadAccesses : Prop :=
  ∀ (o : MemOp) (t : Ty) s c, Issues s c → c.wg.hdr.ordered = false → c.wg.sbuf = [] → c.act ≠ [] → (o.order = .plain ∨ o.scope < 3) →
    let Within (n align : Nat) : Prop := ∀ j ∈ c.act, 0 ≤ c.soff o j ∧ c.soff o j + n ≤ c.wg.scratchBytes ∧ c.soff o j % (align : Int) = 0
    let Clean (n : Nat) : Prop := ∀ j ∈ c.act, s.m.scratchPoison c.core c.slot (c.soff o j).toNat n = none
    let Dead (n : Nat) : Prop := ∀ j ∈ c.act, c.wg.liveIn (c.soff o j).toNat n = false
    let w := if t = .b32 then 16 else 32
    let read (n : Nat) (dst : LoadDst) : Mach := c.retire (s.m.pend c.core c.slot dst c.act
      (c.act.map (fun j => (j, [.got (s.m.scratchRead c.core c.slot (c.soff o j).toNat n)]))))
    let wrote (bytes : Thread → List Byte) : Mach := c.retire (c.act.foldl (fun m j => m.scratchStore c.core c.slot (c.soff o j).toNat (bytes (c.wg.thread j))) s.m)
    (Within (tyBytes t) (min (tyBytes t) 4) → Clean (tyBytes t) → t ≠ .pred → exec (.lds t o) s = .next (withM s (read (tyBytes t) (.v t o.data)))) ∧
    (Within w 4 → Clean w → exec (.ldsw t o) s = .next (withM s (read w (.wide o.data)))) ∧
    (Within (tyBytes t) (min (tyBytes t) 4) → Dead (tyBytes t) → t ≠ .pred →
      exec (.sts t o) s = .next (withM s (wrote (fun th => leBytes (tyBytes t) (th.pat t o.data))))) ∧
    (Within w 4 → Dead w →
      exec (.stsw t o) s = .next (withM s (wrote (fun th => ((upFrom o.data (w / 4)).map (fun r => leBytes 4 (th.getV r).toNat)).flatten))))

/-- R245 to R248: an atomic on a strongly ordered page, each active thread in ascending order on what the one before it left; the old
value comes back as a load's data does (`red` returns none). `atomord` of a launch that is not ordered is such an atomic. -/
def Sys2Proof.Claims.MemoryAtomics : Prop :=
  ∀ (i : Instr) (o : MemOp) (t : Ty) (kindOf : Thread → AtomKind) (returns : Bool) s c pa,
    ((∃ op, (i = .atom op t o ∨ i = .atomf op t o ∨ i = .atomord op t o) ∧ returns = true ∧ kindOf = fun th => .step op (th.pat t o.data)) ∨
     (∃ op, i = .red op t o ∧ returns = false ∧ kindOf = fun th => .step op (th.pat t o.data)) ∨
     (i = .atomcas t o ∧ returns = true ∧ kindOf = fun th => .cas (th.pat t o.data) (th.pat t (o.data + if t.is64 then 2 else 1)))) →
    (t.bits = 32 ∨ t.bits = 64) → Issues s c → Ordinary c → Proper c → NoMonitor s → o.order = .plain →
    Reaches s c .read (tyBytes t) (tyBytes t) c.act (eaOf c o) pa → Reaches s c .write (tyBytes t) (tyBytes t) c.act (eaOf c o) pa →
    let step (x : List Host.Cell × List (Nat × List Piece)) (j : Nat) : List Host.Cell × List (Nat × List Piece) :=
      let old := Memory.readN x.1 (pa j) (tyBytes t)
      ((match (kindOf (c.wg.thread j)).result t (leNat old) with | some y => Memory.writeL x.1 (pa j) (leBytes (tyBytes t) y) | none => x.1),
        x.2 ++ [(j, [.got old])])
    ∃ u, exec i s = .next u ∧ WentOn s c u ∧ u.m.mem = (c.act.foldl step (s.m.mem, [])).1 ∧
      (u.m.core c.core).loads = (s.m.core c.core).loads ++ (if returns then
        [{ id := s.m.nextId, slot := c.slot, dst := .v t o.data, threads := c.act, lanes := (c.act.foldl step (s.m.mem, [])).2, scope := o.scope }] else [])

/-- R248: `atoms` on the scratchpad, each active thread in ascending order. -/
def Sys2Proof.Claims.ScratchpadAtomics : Prop :=
  ∀ (op : Nat) (o : MemOp) (t : Ty) s c, Issues s c → Ordinary c → c.act ≠ [] → (o.order = .plain ∨ o.scope < 3) →
    (∀ j ∈ c.act, 0 ≤ c.soff o j ∧ c.soff o j + tyBytes t ≤ c.wg.scratchBytes ∧ c.soff o j % (tyBytes t : Int) = 0 ∧
      s.m.scratchPoison c.core c.slot (c.soff o j).toNat (tyBytes t) = none ∧ c.wg.liveIn (c.soff o j).toNat (tyBytes t) = false) →
    let step (x : List (Nat × List Piece) × Mach) (j : Nat) : List (Nat × List Piece) × Mach :=
      let old := x.2.scratchRead c.core c.slot (c.soff o j).toNat (tyBytes t)
      (x.1 ++ [(j, [.got old])], x.2.scratchStore c.core c.slot (c.soff o j).toNat
        (leBytes (tyBytes t) (atomStep op t (leNat old) ((c.wg.thread j).pat t o.data))))
    let r := c.act.foldl step ([], s.m)
    exec (.atoms op t o) s = .next (withM s (c.retire (r.2.pend c.core c.slot (.v t o.data) c.act r.1)))

/-- The atomics on memory and on the scratchpad. -/
def Obligations.Atomics : Prop := MemoryAtomics ∧ ScratchpadAtomics

/-- R215: writing a line back puts its dirty bytes, and no others, into memory, and leaves the line clean in L1. -/
def Sys2Proof.Claims.WriteBack : Prop :=
  ∀ (m : Mach) core line l, tget (m.core core).l1 line = some l → l.bytes.length = 128 → l.dirty.length = 128 → Memory.wf m.mem = true →
    (∀ i, i < 128 → Memory.read (m.writeBack core line).mem (line * 128 + i) =
      if l.dirty.getD i false then l.bytes.getD i 0 else Memory.read m.mem (line * 128 + i)) ∧
    (∀ x, x / 128 ≠ line → Memory.read (m.writeBack core line).mem x = Memory.read m.mem x) ∧
    (∀ x, (m.writeBack core line).coreByte core x = m.coreByte core x) ∧ Memory.wf (m.writeBack core line).mem = true

/-- R220 to R224, R251 to R255: what the fences and the cache instructions do beyond going on. Orders 0 acquire, 1 release, 2 and 3 both: a
scope wider than the core's writes back its dirty lines, or drops its lines. -/
def Sys2Proof.Claims.FencesAndCaches : Prop :=
  ∀ s c, Issues s c → c.act ≠ [] → c.wg.hdr.ordered = false → c.wg.sbuf = [] →
    (∀ uo scope, scope < 3 → ∀ order, exec (.fence order uo scope) s = .next (put s c (each c id))) ∧
    (∀ uo scope, 3 ≤ scope → exec (.fence 0 uo scope) s = .next (withM s (c.retire (s.m.dropAll c.core))) ∧
      exec (.fence 1 uo scope) s = .next (withM s (c.retire (s.m.writeBackAll c.core))) ∧
      ∀ order, 2 ≤ order → exec (.fence order uo scope) s = .next (withM s (c.retire ((s.m.writeBackAll c.core).dropAll c.core)))) ∧
    (∀ a n scope, (s.m.core c.core).l1 = [] → ∃ t, exec (.icinv a n scope) s = .next t ∧ t.m.wgs = (put s c (each c id)).m.wgs ∧ t.m.mem = s.m.mem ∧
      t.m.fns = s.m.fns ∧ ∀ k, (t.m.core k).l1 = (s.m.core k).l1 ∧ (t.m.core k).scratch = (s.m.core k).scratch ∧
        (t.m.core k).icache =
          if inScope scope c.core k = true ∧ (n ≠ 0 ∨ (s.m.core k).owner = some c.vf ∨ (s.m.core k).owner = none) then
            (if n = 0 then [] else (s.m.core k).icache.filter (fun e => !(s.m.physLines c.vf ((lead c).getA a).toNat n).contains (e.1 / 16)))
          else (s.m.core k).icache) ∧
    (∀ a n, 0 < n →
      exec (.dcwb a n) s = .next (withM s (c.retire ((s.m.physLines c.vf ((lead c).getA a).toNat n).foldl (fun m l => m.writeBack c.core l) s.m))) ∧
      exec (.dcinv a n) s = .next (withM s (c.retire ((s.m.physLines c.vf ((lead c).getA a).toNat n).foldl (fun m l => m.dropLine c.core l) s.m))))

/-- Prefetch, the data-cache instructions, instruction-cache invalidation and fences. -/
def Obligations.CacheInstructions : Prop := Prefetch ∧ WriteBack ∧ FencesAndCaches

/-! ## Barriers, monitors, stage rings (group K) and tiles (group L) -/

namespace Sys2Proof.Claims

/-- The 64-bit k register `r` of the leader, and its a register, as numbers. -/
def kOf (c : Ctx) (r : Nat) : Nat := ((lead c).getK r).toNat
def aOf (c : Ctx) (r : Nat) : Nat := ((lead c).getA r).toNat
/-- The leader's k register `b` names an aligned barrier word of the workgroup's scratchpad at offset `o`, live or not (R311). -/
def BarAt (c : Ctx) (b o : Nat) (live : Bool) : Prop :=
  c.act ≠ [] ∧ o = kOf c b % 2 ^ 32 ∧ o % 8 = 0 ∧ o + 8 ≤ c.wg.scratchBytes ∧ c.wg.tags.contains o = live
/-- Ring `r` is granted `n` stages and stands as `x`. -/
def RingIs (c : Ctx) (r n : Nat) (x : Ring) : Prop := c.act ≠ [] ∧ n = c.wg.hdr.rings.getD r 0 ∧ n ≠ 0 ∧ x = c.wg.rings.getD r {}
/-- The instruction names tile `t`, which is granted and ready with nothing outstanding, and no queued command names it (R205, R257, R371). -/
def TileReady (c : Ctx) (t : Nat) (x : Tile) : Prop :=
  c.act ≠ [] ∧ t < c.wg.hdr.tiles ∧ x = c.wg.tiles.getD t {} ∧ x.state = .ready ∧ x.trap = none ∧ ∀ id, x.job ≠ some (.command id)
/-- Every byte of a range passes Check for an instruction that is no M word: its translated parts, and the machine with its translations. -/
def Ranged (c : Ctx) (m0 : Mach) (k : Access) (va n : Nat) (ps : List Part) (m : Mach) : Prop :=
  m0.partsOf c.core c.vf [k] (c.rangeAccs va n) = (ps, m) ∧ checkParts m 16 (c.rangeAccs va n) ps = .ok ps
/-- `n` bytes at `va` lie on one page that the core's translations give as this device's, strongly ordered, at `pa`; the core's L1 is empty
and no line of the range is poisoned. -/
def EngineAt (s : State) (core : Nat) (k : Access) (va n pa : Nat) : Prop :=
  0 < n ∧ va % 65536 + n ≤ 65536 ∧ (∃ p, tget (s.m.core core).tlb (va / 65536) = some p ∧ transPte p va k = .ok pa 0) ∧
    (s.m.core core).l1 = [] ∧ ∀ l ∈ linesOf pa n, l ∉ s.m.poison
/-- The bytes of a tile's region as the scratchpad holds them, none of them poisoned. -/
def region (s : State) (c : Ctx) (x : Tile) : List Byte := s.m.scratchRead c.core c.slot (x.base * 128) (x.size * 128)
def CleanRegion (s : State) (c : Ctx) (x : Tile) : Prop := s.m.scratchPoison c.core c.slot (x.base * 128) (x.size * 128) = none
/-- The tile as the machine holds it from now on; the group goes on. -/
def tileNow (s : State) (c : Ctx) (m : Mach) (t : Nat) (x : Tile) : State := withM s (c.retire (m.setTile c.core c.slot t x))

end Sys2Proof.Claims

/-- R184: `barw` of a mask that names the warp's role: each active thread arrives at the barrier, which ends its epoch; under a mask that
does not, cause 0x02 with the role in info, whatever the guard. -/
def Sys2Proof.Claims.WorkgroupBarrier : Prop :=
  ∀ (mask : Nat) s c, Issues s c →
    (mask.testBit c.role = true →
      exec (.barw mask) s = .next (put s c ((each c (fun t => { t with status := .atBar mask, epoch := t.epoch + 1 })).unfuse c.act))) ∧
    (mask.testBit c.role = false → exec (.barw mask) s = .next (withM s (s.m.takeTrap s.clk c.core c.slot c.ig.threads 2 c.role c.ig.pc c.ig.ext.isSome)))

/-- R294 to R296, R310, R311: the transaction barriers. A phase ends when no arrival is pending and the bytes landed are those expected. -/
def Sys2Proof.Claims.TransactionBarriers : Prop :=
  ∀ (b k : Nat) s c o, Issues s c →
    let w := s.m.barWord c.core c.slot o
    let set (w : BarWord) : Mach := s.m.setBar c.core c.slot o w
    (BarAt c b o false → 1 ≤ kOf c k → kOf c k ≤ 1024 →
      exec (.tbarInit b k) s = .next (withM s (c.retire ((set { gen := 0, init := kOf c k, pend := kOf c k, goal := 0, landed := 0 }).atWg c
        (fun x => { x with tags := sortBy id (o :: x.tags.filter (· ≠ o)) }))))) ∧
    (BarAt c b o true → 1 ≤ w.pend → (w.pend ≠ 1 ∨ w.landed ≠ w.goal) →
      exec (.tbarArrive b) s = .next (withM s (c.retire (set { w with pend := w.pend - 1 })))) ∧
    (BarAt c b o true → w.pend = 1 → w.landed = w.goal →
      exec (.tbarArrive b) s = .next (withM s (c.retire (set { w with gen := (w.gen + 1) % 16, pend := w.init, goal := 0, landed := 0 })))) ∧
    (BarAt c b o true → c.act.length ≤ w.pend → exec (.tbarArriveLanes b) s = .next (withM s (c.retire (set (w.update c.act.length 0 0))))) ∧
    (BarAt c b o true → kOf c k % 4 = 0 → w.goal + kOf c k / 4 < 2 ^ 19 → w.pend ≠ 0 →
      exec (.tbarExpect b k) s = .next (withM s (c.retire (set { w with goal := w.goal + kOf c k / 4 })))) ∧
    (BarAt c b o true → exec (.tbarWait b k) s =
      .next (if (w.gen + 16 - kOf c k % 16) % 16 < 8 then put s c (each c id) else withM s (c.wait s.clk s.m c.act (.tbar o (kOf c k % 16))))) ∧
    (∀ d, BarAt c b o true → exec (.tbarTest d b k) s = .next (put s c (each c (fun t => t.setP d (decide ((w.gen + 16 - kOf c k % 16) % 16 < 8)))))) ∧
    (BarAt c b o true → exec (.tbarInval b) s = .next (withM s (c.retire (s.m.atWg c (fun x => { x with tags := x.tags.filter (· ≠ o) }))))) ∧
    (BarAt c b o false → exec (.tbarInval b) s = .next (withM s (c.badValue s.clk s.m 9))) ∧
    (c.act ≠ [] → kOf c b % 2 ^ 32 % 8 ≠ 0 →
      exec (.tbarArrive b) s = .next (withM s (c.trapAct s.clk s.m 3 (lead c).lane (BitVec.ofNat 80 (kOf c b % 2 ^ 32)))))

/-- The workgroup barrier and the counted barriers. -/
def Obligations.Barriers : Prop := WorkgroupBarrier ∧ TransactionBarriers

/-- R293, R313: `mon.arm` loads 8 bytes as an acquire of system scope and arms each active thread's monitor on the line read; `mon.wait` of
threads whose line has been stored to goes on and clears the monitor, and of threads whose line has not waits. -/
def Obligations.Monitors : Prop :=
  ∀ (d a : Nat) s c, Issues s c → c.act ≠ [] →
    (∀ pa, Ordinary c → (s.m.core c.core).l1 = [] → Reaches s c .read 8 8 (c.act.take 1) (fun _ => aOf c a) pa →
      ∃ t, exec (.monArm d a) s = .next t ∧ t.m.mem = s.m.mem ∧
        t.m.wgs = (put s c (each c (fun t => { t with mon := some (pa (c.act.headD 0) / 128, false) }))).m.wgs ∧
        (t.m.core c.core).loads = (s.m.core c.core).loads ++
          [{ id := s.m.nextId, slot := c.slot, dst := .k .z64 d, threads := c.act, lanes := [(c.act.headD 0, [.got (Memory.readN s.m.mem (pa (c.act.headD 0)) 8)])], order := .acqRel, scope := 5 }]) ∧
    ((∀ j ∈ c.act, ∀ l, (c.wg.thread j).mon ≠ some (l, false)) → exec .monWait s = .next (put s c (each c (fun t => { t with mon := none })))) ∧
    ((∀ j ∈ c.act, ∃ l, (c.wg.thread j).mon = some (l, false)) → exec .monWait s = .next (withM s (c.wait s.clk (put s c c.wg).m c.act .monitor)))

/-- R297, R298, R314: the four stage-ring instructions where the stage is theirs to take, and what they do where it is not: an acquire or a
take waits; a commit or a free of a stage that is not held is cause 0x06 class 2. -/
def Obligations.StageRings : Prop :=
  ∀ (d r n : Nat) (x : Ring) s c, Issues s c → RingIs c r n x →
    let now (x : Ring) : Mach := s.m.atWg c (fun w => { w with rings := setAt w.rings r x })
    let on (l : List Bool) (i : Nat) : Bool := l.getD i false
    (on x.full x.ip = false → on x.heldP x.ip = false → c.mustQueue r true = false →
      exec (.stgAcq d r) s = .next (withM s (c.retireK (now { x with heldP := setAt x.heldP x.ip true }) d (x.ip + if on x.phase x.ip then 256 else 0)))) ∧
    (on x.full x.ip = true → exec (.stgAcq d r) s = .next (withM s (c.wait s.clk s.m c.act (.stage r true)))) ∧
    (on x.heldP x.ip = true → exec (.stgCommit r) s = .next (withM s (c.retire (now { x with
      full := setAt x.full x.ip true, phase := setAt x.phase x.ip (!on x.phase x.ip), heldP := setAt x.heldP x.ip false, ip := (x.ip + 1) % n })))) ∧
    (on x.heldP x.ip = false → exec (.stgCommit r) s = .next (withM s (c.badHandle s.clk s.m 2))) ∧
    (on x.full x.ic = true → on x.heldC x.ic = false → c.mustQueue r false = false →
      exec (.stgTake d r) s = .next (withM s (c.retireK (now { x with heldC := setAt x.heldC x.ic true }) d (x.ic + if on x.phase x.ic then 256 else 0)))) ∧
    (on x.full x.ic = false → exec (.stgTake d r) s = .next (withM s (c.wait s.clk s.m c.act (.stage r false)))) ∧
    (on x.heldC x.ic = true → exec (.stgFree r) s = .next (withM s (c.retire (now { x with
      full := setAt x.full x.ic false, heldC := setAt x.heldC x.ic false, ic := (x.ic + 1) % n })))) ∧
    (on x.heldC x.ic = false → exec (.stgFree r) s = .next (withM s (c.badHandle s.clk s.m 2)))

/-- R204, R205, R257 to R259, R264, R265: defining, freeing, reading, mapping and unmapping tiles. -/
def Sys2Proof.Claims.TileControl : Prop :=
  ∀ (t d b k a : Nat) s c, Issues s c →
    let x := c.wg.tiles.getD t {}
    (c.act ≠ [] → t < c.wg.hdr.tiles → x.state = .empty → x.m = false → kOf c b % 128 = 0 → kOf c k % 128 = 0 → kOf c k ≠ 0 → kOf c b + kOf c k ≤ c.wg.scratchBytes →
      exec (.tdef t b k) s = .next (tileNow s c s.m t { x with state := .ready, base := kOf c b / 128, size := kOf c k / 128, d := false })) ∧
    (∀ y, TileReady c t y →
      exec (.tfree t) s = .next (tileNow s c s.m t { y with state := .empty, m := false }) ∧
      exec (.tstate d t) s = .next (put s c (each c (fun th => th.setK d (BitVec.ofNat 64 (2 + 8 * bit y.m + 16 * bit y.d + 256 * ((y.size - 1) % 4096) + 1048576 * (y.base % 4096)))))) ∧
      exec (.tver d t) s = .next (put s c (each c (fun th => th.setK d (y.version.setWidth 64)))) ∧
      (y.m = false → aOf c a % 128 = 0 → exec (.tmap t a) s = .next (tileNow s c s.m t { y with state := .empty, m := true, map := (lead c).getA a })) ∧
      (y.m = false → aOf c a % 128 ≠ 0 → exec (.tmap t a) s = .next (withM s (c.trapAct s.clk s.m 3 (lead c).lane ((lead c).getA a)))) ∧
      (∀ o scope, y.m = true → y.d = false →
        exec (.tunmap t o scope) s = .next (tileNow s c s.m t { y with state := .empty, m := false, size := 0, base := 0, job := none, fault := false })) ∧
      (∀ o scope pa, y.m = true → y.d = true → Quiet s c → NoneHeld c → NoMonitor s → CleanRegion s c y →
        EngineAt s c.core .write y.map.toNat (y.size * 128) pa →
        ∃ u, exec (.tunmap t o scope) s = .next u ∧ u.m.mem = Memory.writeL s.m.mem pa (region s c y) ∧
          u.m.wgs = (tileNow s c s.m t { y with state := .draining, job := some (.unmap c.act o scope true) }).m.wgs) ∧
      (∀ o scope ps m, y.m = true → y.d = true → NoneHeld c → s.m.bulkTrans c.core c.vf .write (spansOf y.map.toNat (y.size * 128)) = (ps, m) →
        bulkRes m ps ≠ .ok →
        exec (.tunmap t o scope) s = .next (tileNow s c m t { y with state := .draining, job := some (.unmap c.act o scope false) }))) ∧
    (c.wg.hdr.tiles ≤ t → ∀ o scope, let bad := Host.Outcome.next (withM s (s.m.takeTrap s.clk c.core c.slot c.ig.threads 6 1 c.ig.pc c.ig.ext.isSome))
      exec (.tdef t b k) s = bad ∧ exec (.tfree t) s = bad ∧ exec (.tstate d t) s = bad ∧ exec (.tver d t) s = bad ∧ exec (.tmap t a) s = bad ∧
      exec (.tunmap t o scope) s = bad ∧ exec (.tld t a o scope) s = bad ∧ exec (.tst t a o scope) s = bad)

/-- R205, R231, R261 to R263: `tld` and `tst` of a ready tile are performed as one load or store at issue, and the tile then fills or drains
until its engine is done (the tile events); `tst.aon` takes a free version word and `tldv` starts to watch one; a rotation starts for all
sixteen workgroups of the block at once. A filling or draining tile is waited for. -/
def Sys2Proof.Claims.TileTransfers : Prop :=
  ∀ (t a v : Nat) (o : Ord) (scope : Nat) s c x, Issues s c →
    (TileReady c t x → NoneHeld c →
      (∀ ps m, Ranged c s.m .read (aOf c a) (x.size * 128) ps m → (∀ p ∈ ps, m.poisoned s.clk c.core (tileAttr o scope) p = none) →
        let eff := (Attr.mk o scope).on ps
        let r := (eff.before false m s.clk c.core c.slot).readNow s.clk c.core c.slot (tileAttr o scope) ps
        exec (.tld t a o scope) s = .next (tileNow s c (eff.after true r.2 c.core) t { x with state := .filling, job := some (.load r.1) })) ∧
      (∀ ps m, Ranged c s.m .write (aOf c a) (x.size * 128) ps m → m.scratchPoison c.core c.slot (x.base * 128) (x.size * 128) = none →
        let eff := (Attr.mk o scope).on ps
        let bs := (eff.before true m s.clk c.core c.slot).scratchRead c.core c.slot (x.base * 128) (x.size * 128)
        exec (.tst t a o scope) s = .next (tileNow s c
          (eff.after false ((eff.before true m s.clk c.core c.slot).storeNow s.clk c.core c.slot (tileAttr o scope) ps bs) c.core) t
          { x with state := .draining, job := some .store })) ∧
      (Quiet s c → aOf c a % 16 = 0 →
        (∀ pa, EngineAt s c.core .read (aOf c a) (x.size * 128) pa → ∃ u, exec (.tld t a o scope) s = .next u ∧ u.m.mem = s.m.mem ∧
          u.m.wgs = (tileNow s c s.m t { x with state := .filling, job := some (.load (Memory.readN s.m.mem pa (x.size * 128))) }).m.wgs) ∧
        (∀ pa, EngineAt s c.core .write (aOf c a) (x.size * 128) pa → NoMonitor s → CleanRegion s c x →
          (∃ u, exec (.tst t a o scope) s = .next u ∧ u.m.mem = Memory.writeL s.m.mem pa (region s c x) ∧
            u.m.wgs = (tileNow s c s.m t { x with state := .draining, job := some .store }).m.wgs) ∧
          (∀ pv, Reaches s c .read 8 8 (c.act.take 1) (fun _ => aOf c v) pv → Reaches s c .write 8 8 (c.act.take 1) (fun _ => aOf c v) pv →
            let w := leNat (Memory.readN s.m.mem (pv (c.act.headD 0)) 8)
            let free := w < 2 ^ 63 ∧ w % 2 = 0
            ∃ u, exec (.tstAon t a v) s = .next u ∧
              u.m.mem = (if free then Memory.writeL s.m.mem (pv (c.act.headD 0)) (leBytes 8 (w + 1)) else s.m.mem) ∧
              let took := if free then some (BitVec.ofNat 64 w) else none
              u.m.wgs = (tileNow s c s.m t
                { x with state := .draining, job := some (.storeAon ((lead c).getA a) ((lead c).getA v) c.act took) }).m.wgs)) ∧
        (∀ pa pv, EngineAt s c.core .read (aOf c a) (x.size * 128) pa → Reaches s c .read 8 8 (c.act.take 1) (fun _ => aOf c v) pv →
          Reaches s c .write 8 8 (c.act.take 1) (fun _ => aOf c v) pv →
          exec (.tldv t a v) s = .next (tileNow s c s.m t
            { x with state := .filling, job := some (.loadVer ((lead c).getA a) ((lead c).getA v) c.act 0 none) }))) ∧
      (∀ rev, c.wg.hdr.cspan = true → x.m = false → s.m.blockGone c.vf c.wg.launch c.wg.g = false → c.wg.rotating t rev = [] →
        let others := (s.m.block c.vf c.wg.launch c.wg.g).filter (fun e => !(e.1 == c.core && e.2.1 == c.slot))
        let i : Instr := if rev then .trotRev t else .trot t
        let job : TileJob := .rotate rev (s.clk.cycle + 24 + x.size)
        ((others.length ≠ 15 ∨ ∃ e ∈ others, e.2.2.rotating t rev = []) → exec i s = .next (withM s (c.wait s.clk s.m c.ig.threads (.rotation t rev)))) ∧
        (others.length = 15 → (∀ e ∈ others, e.2.2.rotating t rev ≠ [] ∧ (e.2.2.tiles.getD t {}).turns = true ∧ (e.2.2.tiles.getD t {}).size = x.size) →
          exec i s = .next (tileNow s c (others.foldl (fun m e => m.modWg e.1 e.2.1 (fun w =>
              (w.modThreads (w.rotating t rev) (fun y => { y.advance 8 with status := .ready })).setTile t
                { (w.tiles.getD t {}) with state := .filling, job := some job })) s.m) t
            { x with state := .filling, job := some job })))) ∧
    (c.act ≠ [] → t < c.wg.hdr.tiles → x = c.wg.tiles.getD t {} → x.trap = none → x.state = .filling ∨ x.state = .draining →
      exec (.tld t a o scope) s = .next (withM s (c.wait s.clk s.m c.ig.threads (.tile t))) ∧ exec (.tst t a o scope) s = .next (withM s (c.wait s.clk s.m c.ig.threads (.tile t))))

/-- The tile instructions. -/
def Obligations.Tiles : Prop := TileControl ∧ TileTransfers

/-! ## Copies, landing zones, channels (groups M, N, O) -/

namespace Sys2Proof.Claims

/-- A copy command may be queued: the copy role (R152), an active thread, and room in the queue (R290). -/
def CopyReady (s : State) (c : Ctx) : Prop := Quiet s c ∧ NoneHeld c ∧ c.role = 0 ∧ c.act ≠ [] ∧ (s.m.core c.core).copies.length < 32
/-- The command's counted barrier, if it has one, is an aligned, live word of the workgroup (R311). -/
def BarOk (c : Ctx) (o : CopyOpts) : Prop := ∀ r, o.bar = some r →
  kOf c r % 2 ^ 32 % 8 = 0 ∧ kOf c r % 2 ^ 32 + 8 ≤ c.wg.scratchBytes ∧ c.wg.tags.contains (kOf c r % 2 ^ 32) = true
/-- A ready tile that is not mapped. -/
def CopyTile (c : Ctx) (t : Nat) (x : Tile) : Prop := TileReady c t x ∧ x.m = false
/-- A tile that a queued command names: its state is as it was until the command starts (log 98). -/
def tileOf (t : Nat) (id : Nat) (w : Wg) : Wg := { w with tiles := setAt w.tiles t { (w.tiles.getD t {}) with job := some (.command id) } }
/-- A tile that a queued piece of matrix work or a drain fills or drains. -/
def tileTo (t : Nat) (st : TileState) (id : Nat) (w : Wg) : Wg :=
  { w with tiles := setAt w.tiles t { (w.tiles.getD t {}) with state := st, job := some (.command id) } }
/-- The instruction queues ONE command at the end of its core's copy queue; its workgroup's threads go on and its tiles change as `w` says;
nothing else changes. -/
def Queues (i : Instr) (s : State) (c : Ctx) (kind : CopyKind) (size : Nat) (bar : Option Nat) (tag : Nat) (bd : Option (Nat × Bound)) (failed : Bool)
    (w : Wg → Wg) : Prop :=
  ∃ t, Machine.exec i s = .next t ∧ t.clk = s.clk ∧ t.agenda = s.agenda ∧ t.m.mem = s.m.mem ∧ t.m.host = s.m.host ∧ t.m.fns = s.m.fns ∧
    t.m.wgs = (put s c (w (each c id))).m.wgs ∧ (∀ k, k ≠ c.core → t.m.core k = s.m.core k) ∧ (t.m.core c.core).scratch = (s.m.core c.core).scratch ∧
    (t.m.core c.core).copies = (s.m.core c.core).copies ++ [{ id := s.m.nextId, slot := c.slot, seq := s.m.seq + 1, kind, size, bar, tag, bd, failed }]
/-- The queueing of an instruction with copy options. -/
def QueuesO (i : Instr) (s : State) (c : Ctx) (kind : CopyKind) (size : Nat) (o : CopyOpts) (w : Wg → Wg) : Prop :=
  Queues i s c kind size (o.bar.map (fun r => kOf c r % 2 ^ 32)) o.tag (o.bd.map (fun b => (b, c.wg.bds.getD b {}))) false w
/-- The launch's group count. -/
def groupsOf (s : State) (c : Ctx) : Nat := match (s.m.fn c.vf).launches.find? (·.id == c.wg.launch) with | some l => l.count | none => 0
/-- q register `q` of the workgroup is bound as `b` to channel `ch`, of the direction and element form named (R277). -/
def BoundTo (s : State) (c : Ctx) (q : Nat) (b : QBind) (ch : Chan) (reader tile : Bool) : Prop :=
  q < c.wg.hdr.qregs ∧ c.wg.qs.getD q none = some b ∧ b.reader = reader ∧ s.m.chan? c.vf b.chan = some ch ∧ ch.t = tile
/-- A zone register the header grants. -/
def ZoneIs (c : Ctx) (z : Nat) (zn : Zone) : Prop := z < c.wg.hdr.zones ∧ zn = c.wg.zones.getD z {}
/-- The machine with zone register `z` of the group's workgroup standing as `zn`. -/
def zoneNow (s : State) (c : Ctx) (z : Nat) (zn : Zone) : Mach := s.m.atWg c (fun w => { w with zones := setAt w.zones z zn })

end Sys2Proof.Claims

/-- R290, R315 to R318: each copy command whose checks pass is queued with its operands, and the tiles it names are its own from now on. -/
def Sys2Proof.Claims.CopyCommandsQueue : Prop :=
  ∀ (t d r n v e k scale : Nat) (o : CopyOpts) s c, Issues s c → CopyReady s c → BarOk c o →
    let id' := s.m.nextId
    (∀ x, CopyTile c t x → aOf c d % 16 = 0 →
      QueuesO (.cpG2t t d o) s c (.g2t t ((lead c).getA d)) (x.size * 128) o (tileOf t id') ∧
      QueuesO (.cpT2g d t o) s c (.t2g ((lead c).getA d) t) (x.size * 128) o (tileOf t id')) ∧
    (∀ x, CopyTile c t x → QueuesO (.cpFillTile t v o) s c (.fillTile t ((lead c).getK v)) (x.size * 128) o (tileOf t id')) ∧
    (aOf c d % 16 = 0 → kOf c n % 2 ^ 32 % 16 = 0 →
      (aOf c r % 16 = 0 → QueuesO (.cpG2g d r n o) s c (.g2g ((lead c).getA d) ((lead c).getA r) (kOf c n % 2 ^ 32)) (kOf c n % 2 ^ 32) o id) ∧
      QueuesO (.cpFill d v n o) s c (.fill ((lead c).getA d) ((lead c).getK v) (kOf c n % 2 ^ 32)) (kOf c n % 2 ^ 32) o id) ∧
    (∀ x, CopyTile c t x →
      let sz := 4 * 2 ^ e
      let at_ (j : Nat) : Addr := (lead c).getA d + BitVec.ofInt 80 (((c.wg.thread j).getV v).toInt * (2 ^ scale : Nat))
      (∀ j ∈ c.act, (at_ j).toNat % min sz 16 = 0) → kOf c k % 4 = 0 → kOf c k + c.act.length * sz ≤ x.size * 128 →
      QueuesO (.cpGather e t d v scale k o) s c (.gather t (c.act.map at_) (kOf c k) sz) (c.act.length * sz) o (tileOf t id') ∧
      QueuesO (.cpScatter e d v scale t k o) s c (.scatter (c.act.map at_) t (kOf c k) sz) (c.act.length * sz) o (tileOf t id')) ∧
    (∀ x, CopyTile c t x → d ≠ t → d < c.wg.hdr.tiles → kOf c n < groupsOf s c →
      (kOf c n ≠ c.wg.g → QueuesO (.cpT2t d t n o) s c (.t2t d t [kOf c n]) (x.size * 128) o (tileOf t id')) ∧
      (∀ y, kOf c n = c.wg.g → CopyTile c d y → QueuesO (.cpT2t d t n o) s c (.t2t d t [c.wg.g]) (x.size * 128) o (tileOf t id' ∘ tileOf d id'))) ∧
    (∀ x, CopyTile c t x → d < c.wg.hdr.tiles →
      let ts := (upFrom 0 16).filterMap (fun i => if (kOf c k).testBit i then some (kOf c n + i) else none)
      ts ≠ [] → (∀ g ∈ ts, g < groupsOf s c) →
      (c.wg.g ∉ ts ∨ d = t → QueuesO (.cpMcast d t n k o) s c (.t2t d t ts) (x.size * 128) o (tileOf t id')) ∧
      (∀ y, c.wg.g ∈ ts → d ≠ t → CopyTile c d y → QueuesO (.cpMcast d t n k o) s c (.t2t d t ts) (x.size * 128) o (tileOf t id' ∘ tileOf d id'))) ∧
    (∀ x, CopyTile c t x → o.bar ≠ none → c.wg.hdr.win = true → kOf c n < groupsOf s c →
      kOf c k % 32 < (c.wg.hdr.threads + 31) / 32 → kOf c k / 256 % 256 + x.size ≤ c.wg.alloc →
      QueuesO (.cpT2tReg t n k o) s c (.t2tReg t (kOf c n) (kOf c k % 32) (kOf c k / 256 % 256)) (x.size * 128) o (tileOf t id'))

/-- R290, R292, R319, R438: `cp.stamp` queues a stamp that carries a failure already noted for a tag it covers; `lz.send` queues its payload. With
32 commands queued neither issues: nothing changes. -/
def Sys2Proof.Claims.StampsAndSends : Prop :=
  ∀ (a v mask : Nat) s c, Issues s c →
    (CopyReady s c →
      (∀ pa sys, Reaches s c .write 8 8 (c.act.take 1) (fun _ => aOf c a) pa → s.m.stampPage c.vf (aOf c a) = false →
        Queues (.cpStamp a v mask sys) s c (.stamp ((lead c).getA a) ((lead c).getK v) mask sys) 0 none 8 none (c.wg.failTags &&& mask != 0) id) ∧
      (∀ z k t path x, CopyTile c t x → aOf c a % 8 = 0 → s.m.stampPage c.vf (aOf c a) = false →
        Queues (.lzSend z k t a path) s c (.lzSend (kOf c z) (kOf c k % 64) t ((lead c).getA a) path false) (x.size * 128) none 8 none false
          (tileOf t s.m.nextId) ∧
        Queues (.lzSendAny z k t a path) s c (.lzSend (kOf c z) (kOf c k % 64) t ((lead c).getA a) path true) (x.size * 128) none 8 none false
          (tileOf t s.m.nextId)) ∧
      (∀ z k t path x, CopyTile c t x → aOf c a % 8 ≠ 0 →
        exec (.lzSend z k t a path) s = .next (withM s (c.trapAct s.clk s.m 3 (lead c).lane ((lead c).getA a))))) ∧
    (c.role = 0 → c.act ≠ [] → 32 ≤ (s.m.core c.core).copies.length →
      (∀ pa sys, Reaches s c .write 8 8 (c.act.take 1) (fun _ => aOf c a) pa → s.m.stampPage c.vf (aOf c a) = false → exec (.cpStamp a v mask sys) s = .next s) ∧
      (∀ z k t path x, CopyTile c t x → aOf c a % 8 = 0 → s.m.stampPage c.vf (aOf c a) = false → exec (.lzSend z k t a path) s = .next s))

/-- What the copy engine is given. -/
def Obligations.CopyQueue : Prop := CopyCommandsQueue ∧ StampsAndSends

/-- R152, R369: outside the copy role every copy and zone-sending instruction, and outside the matrix role every instruction of the matrix
role, is cause 0x02 with the warp's role in info, whatever the guard. -/
def Sys2Proof.Claims.RoleViolations : Prop :=
  ∀ (t d r n v e k scale : Nat) (o : CopyOpts) (b : Bool) s c, Issues s c →
    let bad := Host.Outcome.next (withM s (s.m.takeTrap s.clk c.core c.slot c.ig.threads 2 c.role c.ig.pc c.ig.ext.isSome))
    (c.role ≠ 0 → exec (.cpG2t t d o) s = bad ∧ exec (.cpT2g d t o) s = bad ∧ exec (.cpG2g d r n o) s = bad ∧ exec (.cpGather e t d v scale k o) s = bad ∧
      exec (.cpScatter e d v scale t k o) s = bad ∧ exec (.cpFill d v n o) s = bad ∧ exec (.cpFillTile t v o) s = bad ∧ exec (.cpT2t d t n o) s = bad ∧
      exec (.cpT2tReg t n k o) s = bad ∧ exec (.cpMcast d t n k o) s = bad ∧ exec (.cpStamp d v k b) s = bad ∧ exec (.lzSend r k t d e) s = bad ∧
      exec (.lzSendAny r k t d e) s = bad ∧ exec (.lzReserve d r) s = bad ∧ exec (.lzReserveWait d r) s = bad ∧ exec (.lzAbort d r k) s = bad) ∧
    (c.role ≠ 1 → exec (.mbLoad d t n) s = bad ∧ exec (.mbFree d) s = bad ∧ exec (.mmaQ d r n v e k b) s = bad ∧ exec (.mmaT d r n t b) s = bad ∧
      exec (.accZero d) s = bad ∧ exec (.accWr e d v k) s = bad ∧ exec (.accDrain t d n (some v) k b) s = bad ∧ exec (.epiLoad n t) s = bad)

/-- Accesses that are not aligned, and instructions outside the roles that may execute them. -/
def Obligations.WhereInstructionsTrap : Prop := MisalignedAccessesTrap ∧ RoleViolations

/-- R436, the whole rule: `lz.status` never waits and reads the value its selector names; a closed zone reads 0 under every selector. -/
def Obligations.ZoneStatus : Prop :=
  ∀ (d z sel : Nat) (zn : Zone) s c, Issues s c → ZoneIs c z zn → Quiet s c →
    let bits (p : ZState → Bool) : Nat := (zn.slots.mapIdx (fun i x => if p x.state then 2 ^ i else 0)).foldl (· + ·) 0
    let value : Nat := if zn.open_ = false then 0 else match sel with
      | 0 => zn.word | 1 => bits (· == .arrived) | 2 => bits (· == .torn) | 3 => bits (fun x => x == .reserved || x == .filling) | _ => zn.name
    (sel ≤ 4 → exec (.lzStatus d z sel) s = .next (put s c (each c (fun t => t.setK d (BitVec.ofNat 64 value))))) ∧
    (4 < sel → wellFormed (.lzStatus d z sel) = false)

/-- R435, R437, R439: opening a zone takes a free directory entry and raises its generation; closing it closes its slots and keeps the entry's
generation; waiting, acknowledging and cleaning. -/
def Sys2Proof.Claims.ZoneInstructions : Prop :=
  ∀ (d z b k h : Nat) (zn : Zone) s c, Issues s c → ZoneIs c z zn → Quiet s c → c.act ≠ [] →
    let n := kOf c k % 64 + 1
    let size := kOf c k / 256 % 8
    let a := kOf c k / 65536 % 64 + 1
    let i := kOf c k % 64
    (∀ id, zn.open_ = false → size ≠ 7 → a ≤ n → kOf c k = (n - 1) + 256 * size + 65536 * (a - 1) → kOf c b % 1024 = 0 → aOf c h % 65536 = 0 →
      kOf c b + n * 1024 * 2 ^ size ≤ c.wg.scratchBytes → id < 4096 → ((tget (s.m.fn c.vf).zdir id).getD {}).taken = false →
      (∀ j, j < id → ((tget (s.m.fn c.vf).zdir j).getD {}).taken = true) →
      let gen := (((tget (s.m.fn c.vf).zdir id).getD {}).gen + 1) % 2 ^ 32
      let name := gen * 2 ^ 32 + c.vf * 2 ^ 23 + id * 2 ^ 11 + s.m.devnum
      let f := s.m.fn c.vf
      exec (.lzOpen d z b k h) s = .next (withM s (c.retireK ((s.m.setFn c.vf { f with zdir := tset f.zdir id { gen, taken := true } }).atWg c (fun w =>
        { w with zones := setAt w.zones z { open_ := true, name, backing := (lead c).getA h, base := kOf c b, size, target := a, phase := false, pend := a, slots := List.replicate n {} } })) d name))) ∧
    (zn.open_ = true → ∃ t, exec (.lzClose z) s = .next t ∧ t.m.mem = s.m.mem ∧ t.m.cores = s.m.cores ∧
      t.m.wgs = (put s c { (each c id) with zones := setAt c.wg.zones z { zn with open_ := false, slots := zn.slots.map (fun x => { x with state := .closed }) } }).m.wgs ∧
      (t.m.fn c.vf).zdir = tmod (s.m.fn c.vf).zdir (field zn.name 11 12) (fun x => { x with taken := false })) ∧
    (zn.open_ = false → exec (.lzClose z) s = .next (put s c (each c id)) ∧ exec (.lzWait z b) s = .next (put s c (each c id))) ∧
    (zn.open_ = true → exec (.lzWait z b) s = .next (if zn.phase = ((lead c).getK b).getLsbD 0 then put s c (each c id)
      else withM s (c.wait s.clk s.m c.act (.zone z (((lead c).getK b).getLsbD 0))))) ∧
    (zn.open_ = true → i < zn.slots.length →
      ((zn.slots.getD i {}).state = .arrived → exec (.lzAck z k) s = .next (withM s (c.retire (zoneNow s c z { zn with slots := setAt zn.slots i {} })))) ∧
      ((zn.slots.getD i {}).state = .torn → exec (.lzClean z k) s = .next (withM s (c.retire (
        (s.m.scratchWrite c.core c.slot (zn.base + i * (1024 * 2 ^ zn.size)) (List.replicate (1024 * 2 ^ zn.size) 0)).atWg c
          (fun w => { w with zones := setAt w.zones z { zn with slots := setAt zn.slots i {} } }))))) ∧
      ((zn.slots.getD i {}).state ≠ .arrived → exec (.lzAck z k) s = .next (withM s (c.badValue s.clk s.m 3))))

/-- R431, R437: reserving at a zone of this device takes its lowest free slot for the sending workgroup; with none it answers 1, or waits under
`.wait`; aborting frees a slot its workgroup reserved. An unreachable device answers 4; any other is asked. -/
def Sys2Proof.Claims.ZoneReservations : Prop :=
  ∀ (d k q : Nat) s c, Issues s c → c.role = 0 → c.act ≠ [] →
    let name := kOf c k
    let dev := name % 2048
    let vf := name / 2 ^ 23 % 128
    let me : Sender := { dev := s.m.devnum, vf := c.vf, header := c.wg.hdr.addr, group := c.wg.g }
    (∀ core slot j zn, dev = s.m.devnum → s.m.zoneReach name me = true → s.m.findZone vf name = .at_ (.live core slot j) zn →
      (∀ i, i < zn.slots.length → (zn.slots.getD i {}).state = .free → (∀ x, x < i → (zn.slots.getD x {}).state ≠ .free) →
        let m := s.m.modWg core slot (fun w => { w with zones := setAt w.zones j { zn with slots := setAt zn.slots i { state := .reserved, sender := some me } } })
        exec (.lzReserve d k) s = .next (withM s (c.retireK m d i)) ∧ exec (.lzReserveWait d k) s = .next (withM s (c.retireK m d i))) ∧
      ((∀ i, i < zn.slots.length → (zn.slots.getD i {}).state ≠ .free) → exec (.lzReserve d k) s = .next (withM s (c.retireK s.m d (2 ^ 56))) ∧
        exec (.lzReserveWait d k) s = .next (withM s (c.wait s.clk s.m c.act (.zone (8 + name) false)))) ∧
      (kOf c q % 64 < zn.slots.length → zn.slots.getD (kOf c q % 64) {} = { state := .reserved, sender := some me } →
        exec (.lzAbort d k q) s = .next (withM s (c.retireK
          (s.m.modWg core slot (fun w => { w with zones := setAt w.zones j { zn with slots := setAt zn.slots (kOf c q % 64) {} } })) d 0)))) ∧
    (dev ≠ s.m.devnum → s.m.unreachable dev = true → exec (.lzReserve d k) s = .next (withM s (c.retireK (s.m.logErr s.clk c.vf 8 4 0 c.core 0 (s.m.firstPort dev)) d (4 * 2 ^ 56)))) ∧
    (dev ≠ s.m.devnum → s.m.unreachable dev = false → ∃ t, exec (.lzReserve d k) s = .next t ∧ t.m.mem = s.m.mem ∧ t.m.cores = s.m.cores ∧ t.m.fns = s.m.fns ∧
      ∃ msg, t.m.linkOut = s.m.linkOut ++ [(dev, msg)] ∧ ∀ w, t.m.wg? c.core c.slot = some w → ∀ j ∈ c.act, j < c.wg.threads.length →
        ∃ x, (w.thread j).status = .zoneWait none x)

/-- The landing-zone instructions. -/
def Obligations.Zones : Prop := ZoneInstructions ∧ ZoneReservations

/-- R276 to R279, R283: sending pushes one element for each active thread, in ascending order; receiving pops as many, the first to the first thread.
A send with no room and a receive with too few elements wait; their `try` forms answer false. An earlier instruction that waits on the endpoint and
could go on comes first (R272): `behind` says that none does. -/
def Sys2Proof.Claims.ChannelTransfers : Prop :=
  ∀ (q v p : Nat) (b : QBind) (ch : Chan) s c, Issues s c → Quiet s c → NoneHeld c → Proper c → c.behind [q] = false → v + ch.esize / 4 ≤ c.wg.alloc →
    let n := c.act.length
    let element (t : Thread) : List Byte := ((upFrom v (ch.esize / 4)).map (fun r => leBytes 4 (t.getV r).toNat)).flatten
    let sent (i : Instr) (f : Thread → Thread) : Prop := ∃ t ch', exec i s = .next t ∧ t.m.mem = s.m.mem ∧ t.m.cores = s.m.cores ∧
      t.m.wgs = (put s c (each c f)).m.wgs ∧ t.m.chan? c.vf b.chan = some ch' ∧ ch'.bobbin = ch.bobbin ++ c.act.map (fun j => element (c.wg.thread j)) ∧
      ch'.sent = (ch.sent + n) % 2 ^ 32 ∧ ch'.spooled = [] ∧ ∀ k, k ≠ b.chan → t.m.chan? c.vf k = s.m.chan? c.vf k
    let got (i : Instr) (f : Thread → Thread) : Prop := ∃ t ch', exec i s = .next t ∧ t.m.mem = s.m.mem ∧ t.m.cores = s.m.cores ∧
      t.m.chan? c.vf b.chan = some ch' ∧ ch'.bobbin = ch.bobbin.drop n ∧ ch'.recvd = (ch.recvd + n) % 2 ^ 32 ∧ ch'.spooled = ch.spooled ∧
      t.m.wgs = (put s c { c.wg with threads := c.wg.threads.mapIdx (fun i x => match c.act.findIdx? (· == i) with
        | some j => (f (x.putElement v ch.esize (ch.bobbin.getD j []))).advance c.len
        | none => if c.ig.threads.contains i then x.advance c.len else x) }).m.wgs
    (BoundTo s c q b ch false false → ch.state ≠ 3 → ch.x = false →
      (ch.spooled = [] → ch.bobbin.length + n ≤ ch.bcap → sent (.chSend q v) id ∧ sent (.chTrySend q v p) (fun t => t.setP p true)) ∧
      (ch.free < n → exec (.chSend q v) s = .next (withM s (c.wait s.clk (s.m.setB c.vf b.chan false true) c.act (.chan q true n))) ∧
        exec (.chTrySend q v p) s = .next (put s c (each c (fun t => t.setP p false))))) ∧
    (BoundTo s c q b ch true false → ch.x = false →
      (n ≤ ch.bobbin.length → (∀ e ∈ ch.bobbin, e.length = ch.esize) →
        got (.chRecv q v none) id ∧ got (.chRecv q v (some p)) (fun t => t.setP p true) ∧ got (.chTryRecv q v p) (fun t => t.setP p true)) ∧
      (ch.avail < n → exec (.chTryRecv q v p) s = .next (put s c (each c (fun t => t.setP p false))) ∧
        (ch.state = 1 → ∀ p', exec (.chRecv q v p') s = .next (withM s (c.wait s.clk (s.m.setB c.vf b.chan true true) c.act (.chan q false n))))))

/-- R279: a tile sent is one element, its bytes as the scratchpad holds them; a tile received is filled with the oldest element. -/
def Sys2Proof.Claims.TileElements : Prop :=
  ∀ (q t : Nat) (b : QBind) (ch : Chan) (x : Tile) s c, Issues s c → Quiet s c → NoneHeld c → CopyTile c t x → c.behind [q] = false →
    ch.esize = x.size * 128 → ch.x = false →
    (BoundTo s c q b ch false true → ch.state ≠ 3 → ch.spooled = [] → ch.bobbin.length < ch.bcap →
      ∃ u ch', exec (.chSendt q t) s = .next u ∧ u.m.mem = s.m.mem ∧ u.m.cores = s.m.cores ∧ u.m.wgs = (put s c (each c id)).m.wgs ∧
        u.m.chan? c.vf b.chan = some ch' ∧ ch'.bobbin = ch.bobbin ++ [s.m.scratchRead c.core c.slot (x.base * 128) (x.size * 128)]) ∧
    (∀ e es p, BoundTo s c q b ch true true → ch.bobbin = e :: es →
      ∃ u ch', exec (.chRecvt q t p) s = .next u ∧ u.m.mem = s.m.mem ∧ u.m.chan? c.vf b.chan = some ch' ∧ ch'.bobbin = es ∧
        (u.m.core c.core).scratch = ((s.m.scratchWrite c.core c.slot (x.base * 128) e).core c.core).scratch ∧
        u.m.wgs = (put s c { (each c (fun y => match p with | some p => y.setP p true | none => y)) with tiles := setAt c.wg.tiles t { x with state := .ready, version := x.version + 1, d := false, job := none, fault := false } }).m.wgs)

/-- R269, R280 to R282: binding and unbinding an endpoint, closing a channel, and reading its counters. -/
def Sys2Proof.Claims.ChannelControl : Prop :=
  ∀ (q k d sel : Nat) (map : Option Nat) s c, Issues s c → Quiet s c → NoneHeld c → c.act ≠ [] →
    (∀ ch, q < c.wg.hdr.qregs → c.wg.qs.getD q none = none → kOf c k < 4096 → s.m.chan? c.vf (kOf c k) = some ch →
      (∀ v, map = some v → ch.t = false ∧ ch.esize = 4 ∧ ∀ e ∈ c.wg.qs, ∀ x, e = some x → x.map ≠ some v) →
      let now (reader : Bool) (ch : Chan) : State := withM s (c.retire ((s.m.setChan c.vf (kOf c k) ch).atWg c
        (fun w => { w with qs := setAt w.qs q (some { chan := kOf c k, reader, map }) })))
      (ch.wbind = none → ch.state = 1 → exec (.chBindW q k map) s = .next (now false { ch with wbind := some (c.core, c.slot, q) })) ∧
      (ch.rbind = none → exec (.chBindR q k map) s = .next (now true { ch with rbind := some (c.core, c.slot, q) }))) ∧
    (∀ b ch, q < c.wg.hdr.qregs → c.wg.qs.getD q none = some b → s.m.chan? c.vf b.chan = some ch → c.wg.waitsOn q = [] →
      let dropped (m : Mach) (f : Chan → Chan) : State := withM s ((m.modChan c.vf b.chan f).modWg c.core c.slot (fun w => { w with qs := setAt w.qs q none }))
      (b.reader = true → exec (.chUnbind q) s = .next (dropped (c.retire s.m) (fun x => { x with rbind := none, rB := false, rP := false }))) ∧
      (b.reader = false → exec (.chUnbind q) s = .next (dropped (c.retire s.m) (fun x => { x with wbind := none, wB := false, wP := false }))) ∧
      (b.reader = false → ch.x = false → exec (.chClose q) s = .next (dropped
        (c.retire (s.m.setChan c.vf b.chan { ch with state := 2 })) (fun x => { x with wbind := none, wB := false, wP := false }))) ∧
      exec (.chStat d q sel) s = .next (put s c (each c (fun t => t.setK d (BitVec.ofNat 64 (ch.stat sel)))))) ∧
    (∀ ch, kOf c k < 4096 → s.m.chan? c.vf (kOf c k) = some ch →
      exec (.chStatNum d k sel) s = .next (put s c (each c (fun t => t.setK d (BitVec.ofNat 64 (ch.stat sel)))))) ∧
    (4096 ≤ kOf c k ∨ s.m.chan? c.vf (kOf c k) = none → exec (.chStatNum d k sel) s = .next (put s c (each c (fun t => t.setK d 0))))

/-- The channel instructions. -/
def Obligations.Channels : Prop := ChannelTransfers ∧ TileElements ∧ ChannelControl

/-! ## Matrix unit, format slots, bounds, work (groups P to S) and epilogue words -/

namespace Sys2Proof.Claims

/-- The group may issue matrix work: the matrix role (R152) and an active thread. -/
def MatReady (c : Ctx) : Prop := c.role = 1 ∧ c.act ≠ []
/-- Handle `h` names physical macro `mac` (R474). -/
def MacIs (c : Ctx) (h mac : Nat) : Prop := c.wg.macs.find? (fun e => e.1 == h) = some (h, mac)
/-- The launch holds slot `n`, whose current plane is number `plane` and holds `f` (R325). -/
def SlotIs (s : State) (c : Ctx) (n plane : Nat) (f : Fmt) : Prop := s.m.plane c.core n = some f ∧ c.wg.holds n = true ∧ plane = s.m.planeNo c.core n
/-- An accumulator the header grants, with no error left in it. -/
def AccIs (c : Ctx) (acc : Nat) : Prop := acc < c.wg.hdr.accs ∧ ∀ e ∈ c.wg.accTrap, e.1 ≠ acc
/-- No work and no drain stands on the accumulator. -/
def AccFree (s : State) (c : Ctx) (acc : Nat) : Prop :=
  (∀ i ∈ (s.m.core c.core).mats, i.slot = c.slot → i.acc? ≠ some acc) ∧ ∀ d ∈ (s.m.core c.core).drains, d.slot = c.slot → d.acc ≠ acc
/-- The instruction queues ONE piece of matrix work at the end of its core's queue; the group goes on and its tiles change as `w` says. -/
def QueuesMat (i : Instr) (s : State) (c : Ctx) (mac : Nat) (work : MatWork) (w : Wg → Wg) : Prop :=
  ∃ t, Machine.exec i s = .next t ∧ t.clk = s.clk ∧ t.m.mem = s.m.mem ∧ t.m.fns = s.m.fns ∧ t.m.wgs = (put s c (w (each c id))).m.wgs ∧
    (∀ k, k ≠ c.core → t.m.core k = s.m.core k) ∧ (t.m.core c.core).scratch = (s.m.core c.core).scratch ∧
    (t.m.core c.core).mats = (s.m.core c.core).mats ++ [{ id := s.m.nextId, seq := s.m.seq + 1, slot := c.slot, mac, work }]
/-- A quarter operation: the active threads are of one warp and one quarter of it (R300). -/
def OneQuarter (c : Ctx) : Prop := ∃ w q, q < 4 ∧ ∀ j ∈ c.act, (c.wg.thread j).warp = w ∧ (c.wg.thread j).lane / 8 = q
/-- A thread's row of an `mma.q`: its lane, its packed bytes from v`v` on, its two scale bytes from v`vs` on (R323). -/
def rowOf (f : Fmt) (v vs sel : Nat) (t : Thread) : ARow :=
  { row := t.lane, bytes := leBytes f.rowBytes (t.bitString v (f.rowBytes / 4)), scales := if f.kind = 1 then [t.scaleByte vs sel 0, t.scaleByte vs sel 1] else [] }
/-- The state of a drain whose word has run: `d'` at the next word, the word's flags among the workgroup's drain flags. -/
def stepped (s : State) (core : Nat) (d d' : Drain) (fl : BitVec 5) : State :=
  withM s ((s.m.modWg core d.slot (fun w => { w with dflags := w.dflags ||| fl })).setDrain core { d' with pc := d.pc + 1 })
/-- Drain `d` of a core is the one whose word runs, for workgroup `w`, and the word after it is an epilogue word (R335, R44). -/
def DrainAt (s : State) (core : Nat) (d : Drain) (w : Wg) : Prop :=
  s.m.runningDrain = some (core, d) ∧ s.m.wg? core d.slot = some w ∧ d.pc + 1 < 64 ∧ ∃ i, decodeEp (d.words.getD (d.pc + 1) 0).toNat = .ok i
/-- The word writes `f` of each of the 64 elements of its operands to its destination register, with the flags of all of them. -/
def Elements (i : Instr) (ed : Nat) (args : List Nat) (f : List Nat → Nat × BitVec 5) : Prop :=
  ∀ s core d w, DrainAt s core d w →
    let xs := (upFrom 0 64).map (fun k => f (args.map (fun r => (d.row? r k).toNat)))
    Machine.exec i s = .next (stepped s core d (d.setReg ed (xs.map (fun x => BitVec.ofNat 32 x.1))) (xs.foldl (fun fl x => fl ||| x.2) 0))
/-- The value of an f32 pattern, and an exact result rounded to nearest even with its flags (R339). -/
def val (x : Nat) : FVal := fmtF32.read x
def rne (r : FRes) : Nat × BitVec 5 := ((fmtF32.round r.1 .rne 0).1, (fmtF32.round r.1 .rne 0).2 ||| r.2)
/-- A moved element: the canonical NaN for a NaN; NV when a NaN among those read is signalling. -/
def moved (x : Nat) (seen : List Nat) : Nat × BitVec 5 := (if (val x).isNan then fmtF32.nanBits else x, snans (seen.map val))
/-- The values of a vector of tV, as the scratchpad holds it (R339). -/
def vectorOf (s : State) (core : Nat) (d : Drain) (x : Tile) (v k : Nat) : Nat :=
  leNat (s.m.scratchRead core d.slot (x.base * 128 + 256 * v + 4 * k) 4)

end Sys2Proof.Claims

/-- R301, R326 to R329, R334, R335: loads of B, frees, passes of a tile or a quarter, drains and program-store loads whose checks pass are queued
with what they name; a quarter joins the youngest pass of its macro where R301 allows, and forms one where the macro has none; a macro with
eight passes queued leaves `mma.t` where it stands. -/
def Obligations.MatrixWorkQueues : Prop :=
  ∀ (h t slot acc v vs sel kr ps : Nat) (ov z : Bool) s c mac plane f x, Issues s c → MatReady c →
    (MacIs c h mac → SlotIs s c slot plane f → CopyTile c t x → f.tileBytes 64 ≤ x.size * 128 →
      QueuesMat (.mbLoad h t slot) s c mac (.load t slot plane f) id) ∧
    (MacIs c h mac → QueuesMat (.mbFree h) s c mac .free id) ∧
    (AccIs c acc → MacIs c h mac → SlotIs s c slot plane f → CopyTile c t x → f.tileBytes 32 ≤ x.size * 128 →
      (s.m.core c.core).willHoldB mac = true → (s.m.core c.core).passes mac < 8 →
      QueuesMat (.mmaT acc h slot t ov) s c mac (.pass acc ov slot plane f ((s.m.core c.core).nextBver mac)
        ((upFrom 0 32).map (fun r => let y := f.tileRow (s.m.scratchRead c.core c.slot (x.base * 128) (f.tileBytes 32)) 32 r; ARow.mk r y.1 y.2)) (some t))
        (tileTo t .draining s.m.nextId)) ∧
    (AccIs c acc → MacIs c h mac → SlotIs s c slot plane f → CopyTile c t x → f.tileBytes 32 ≤ x.size * 128 →
      (s.m.core c.core).willHoldB mac = true → 8 ≤ (s.m.core c.core).passes mac → exec (.mmaT acc h slot t ov) s = .next s) ∧
    (AccIs c acc → MacIs c h mac → SlotIs s c slot plane f → (s.m.core c.core).willHoldB mac = true → v + f.rowBytes / 4 ≤ c.wg.alloc →
      (f.kind = 1 → vs + (sel + 1) / 4 < c.wg.alloc) → OneQuarter c →
      let rows := (sortBy (fun j => (c.wg.thread j).lane) c.act).map (fun j => rowOf f v vs sel (c.wg.thread j))
      let bver := (s.m.core c.core).nextBver mac
      ((s.m.core c.core).passes mac = 0 → QueuesMat (.mmaQ acc h slot v vs sel ov) s c mac (.pass acc ov slot plane f bver rows none) id) ∧
      (∀ i its rs, (s.m.core c.core).mats = its ++ [i] → i.mac = mac → i.work = .pass acc ov slot plane f bver rs none → i.slot = c.slot → i.started = false →
        (∀ j ∈ its, j.id ≠ i.id ∧ j.seq ≤ i.seq) → (∀ d ∈ (s.m.core c.core).drains, d.seq ≤ i.seq) → (∀ r ∈ rows, ∀ q ∈ rs, r.row ≠ q.row) →
        rs.length + rows.length ≤ 32 → (s.m.core c.core).passes mac ≤ 8 →
        exec (.mmaQ acc h slot v vs sel ov) s = .next (withM s (c.retire (s.m.modCore c.core (fun k =>
          { k with mats := its ++ [{ i with work := .pass acc ov slot plane f bver (rs ++ rows) none }] })))))) ∧
    (AccIs c acc → CopyTile c t x → kOf c kr % 65536 % 4 = 0 → (∀ e ∈ (s.m.core c.core).epis, e.slot = c.slot → e.ps ≠ ps) →
      ∀ tv y, (tv = none ∨ ∃ u, tv = some u ∧ u ≠ t ∧ CopyTile c u y) →
      ∃ u d, exec (.accDrain t acc ps tv kr z) s = .next u ∧ u.m.mem = s.m.mem ∧ (u.m.core c.core).drains = (s.m.core c.core).drains ++ [d] ∧
        d.id = s.m.nextId ∧ d.seq = s.m.seq + 1 ∧ d.slot = c.slot ∧ d.acc = acc ∧ d.ps = ps ∧ d.words = (s.m.core c.core).store ps ∧ d.td = t ∧ d.tv = tv ∧
        d.stride = kOf c kr % 65536 ∧ d.z = z ∧ d.running = false ∧ d.e = [] ∧ d.fmts = c.bindPlanes (epiWords d.words) ∧
        d.bds = c.bindBounds (epiWords d.words) ∧
        u.m.wgs = (put s c (tileTo t .filling s.m.nextId ((match tv with | some u => tileTo u .draining s.m.nextId | none => id) (each c id)))).m.wgs) ∧
    (CopyTile c t x → 256 ≤ x.size * 128 → s.m.scratchPoison c.core c.slot (x.base * 128) (x.size * 128) = none →
      ∃ u, exec (.epiLoad ps t) s = .next u ∧ u.m.mem = s.m.mem ∧ u.m.wgs = (put s c (each c id)).m.wgs ∧ (u.m.core c.core).epis = (s.m.core c.core).epis ++
        [{ id := s.m.nextId, seq := s.m.seq + 1, slot := c.slot, ps, tile := some t,
           words := (upFrom 0 64).map (fun i => BitVec.ofNat 32 (leNat (s.m.scratchRead c.core c.slot (x.base * 128 + 4 * i) 4))) }])

/-- R330 to R333: fences and waits on matrix work, and the accumulator instructions on an accumulator with nothing queued. Elements a lane
writes read back, the higher work identifier's where two threads write one element, and every other element keeps its value. -/
def Sys2Proof.Claims.AccumulatorAccess : Prop :=
  ∀ (acc v kc count : Nat) s c, Issues s c → c.act ≠ [] →
    let n := 8 * 2 ^ count
    let c0 := kOf c kc % 64
    (c.role = 1 → (∀ p ∈ (s.m.core c.core).loads, p.slot ≠ c.slot) → (∀ r ∈ (s.m.core c.core).faults, r.slot ≠ c.slot) →
      exec .mfence s = .next (put s c { each c id with warps := c.wg.warps.mapIdx (fun i x =>
        if ∃ j ∈ c.act, (c.wg.thread j).warp = i then { x with opReady := true } else x) })) ∧
    (c.role = 1 → AccIs c acc → AccFree s c acc → exec (.mwait acc) s = .next (put s c (each c id)) ∧
      exec (.accZero acc) s = .next (put s c { each c id with
        acc := c.wg.acc.filter (fun e => !(e.1 / 2048 == acc)), accPoison := c.wg.accPoison.filter (fun e => !(e / 2048 == acc)) })) ∧
    (c.role = 1 → AccIs c acc → (lead c).since = none → (∃ i ∈ (s.m.core c.core).mats, i.slot = c.slot ∧ i.acc? = some acc) →
      exec (.mwait acc) s = .next (withM s (c.wait s.clk s.m c.act (.acc (some acc)))) ∧ exec .mwaitAll s = .next (withM s (c.wait s.clk s.m c.act (.acc none)))) ∧
    (c.role = 1 → (∀ i ∈ (s.m.core c.core).mats, i.slot ≠ c.slot) → (∀ e ∈ (s.m.core c.core).epis, e.slot ≠ c.slot) →
      exec .mwaitAll s = .next (put s c (each c id))) ∧
    (count < 4 → AccIs c acc → c.wg.accPoison = [] → v + n ≤ c.wg.alloc → c0 % n = 0 →
      exec (.accRd count v acc kc) s = .next (put s c (each c (fun t => (upFrom 0 n).foldl (fun t j => t.setV (v + j) (c.wg.accAt acc t.lane (c0 + j))) t))) ∧
      (c.role = 1 → AccFree s c acc → sortedFrom none c.wg.acc = true → (∀ j ∈ c.act, (c.wg.thread j).lane < 32) →
        ∃ u w, exec (.accWr count acc v kc) s = .next u ∧ u = put s c { each c id with acc := w } ∧ ∀ a row col, row < 32 → col < 64 →
          sget 0 w (a * 2048 + row * 64 + col) = match c.act.reverse.find? (fun j => (c.wg.thread j).lane == row) with
            | some j => if a = acc ∧ c0 ≤ col ∧ col < c0 + n then (c.wg.thread j).getV (v + (col - c0)) else c.wg.accAt a row col
            | none => c.wg.accAt a row col)) ∧
    (acc < c.wg.hdr.accs → v + n ≤ c.wg.alloc → c0 % n ≠ 0 →
      let t := withM s (c.trapAct s.clk s.m 3 (lead c).lane (BitVec.ofNat 80 c0))
      exec (.accRd count v acc kc) s = .next t ∧ (c.role = 1 → exec (.accWr count acc v kc) s = .next t))

/-- R338: the matrix status word; `.clr` clears the sticky fields in the same step. -/
def Sys2Proof.Claims.MatrixStatus : Prop :=
  ∀ (d : Nat) s c, Issues s c → c.act ≠ [] → c.wg.errps < 8 →
    let k := s.m.core c.core
    let word := c.wg.pflags.toNat + 2 ^ 8 * c.wg.dflags.toNat + 2 ^ 20 * bit c.wg.drainErr + 2 ^ 21 * c.wg.errps +
      2 ^ 32 * ((k.mats.filter (fun i => i.isPass && i.slot == c.slot)).length % 256) + 2 ^ 40 * ((k.drains.filter (·.slot == c.slot)).length % 256)
    exec (.mstat d) s = .next (put s c (each c (fun t => t.setK d (BitVec.ofNat 64 word)))) ∧
    exec (.mstatClr d) s = .next (put s c { each c (fun t => t.setK d (BitVec.ofNat 64 word)) with pflags := 0, dflags := 0, drainErr := false, errps := 0 })

/-- Access to accumulators, and the status of the matrix unit. -/
def Obligations.Accumulators : Prop := AccumulatorAccess ∧ MatrixStatus

/-- R352, R355 to R359: querying, loading, fencing, pinning and unpinning slots. -/
def Sys2Proof.Claims.FormatSlots : Prop :=
  ∀ (d slot a sel : Nat) s c, Issues s c →
    let e := (tget (s.m.fn c.vf).slots slot).getD {}
    let cv := (s.m.planes c.core slot).cv
    let pins := (s.m.pinners c.vf slot).length
    let word (n : Nat) : State := put s c (each c (fun t => t.setK d (BitVec.ofNat 64 (n + (if slot < 3 then 2 ^ 10 else
      2 ^ 8 * cv + 2 ^ 9 * bit ((s.m.core c.core).boundTo slot (1 - cv) none) + 2 ^ 31 * pins + 2 ^ 48 * e.gen)))))
    (s.m.plane c.core slot = none → (0 < sel → exec (.fsQuery d slot sel) s = .next (put s c (each c (fun t => t.setK d 0)))) ∧
      (cv < 2 → pins < 2 ^ 17 → e.gen < 2 ^ 16 → exec (.fsQuery d slot 0) s = .next (word (2 ^ 19 * 7)))) ∧
    (∀ f, s.m.plane c.core slot = some f →
      (∀ j, j < 4 → exec (.fsQuery d slot (j + 1)) s = .next (put s c (each c (fun t => t.setK d (BitVec.ofNat 64 (f.digest / 2 ^ (64 * j) % 2 ^ 64)))))) ∧
      exec (.fsQuery d slot 5) s = .next (put s c (each c (fun t => t.setK d (BitVec.ofNat 64 f.serial)))) ∧
      exec (.fsQuery d slot 6) s = .next (put s c (each c (fun t => t.setK d (BitVec.ofNat 64 f.keyid)))) ∧
      (cv < 2 → pins < 2 ^ 17 → e.gen < 2 ^ 16 → f.keyidx < 8 → f.flags < 16 → f.kind < 8 → f.w < 16 →
        exec (.fsQuery d slot 0) s = .next (word ((if f.kilvas then 0 else 2 ^ 11 * f.keyidx) + 2 ^ 14 * bit f.kilvas + 2 ^ 15 * f.flags + 2 ^ 19 * f.kind +
          2 ^ 22 * (f.ebits % 16) + 2 ^ 27 * f.w)))) ∧
    (c.act ≠ [] → 3 ≤ slot → Quiet s c → NoneHeld c → aOf c a % 64 = 0 → ∃ t, exec (.fsLoad d slot a) s = .next t ∧ t.m.mem = s.m.mem ∧ t.m.cores = s.m.cores ∧
      (t.m.fn c.vf).loads = (s.m.fn c.vf).loads ++ [{ id := s.m.nextId, slot, addr := aOf c a, cmd := none }] ∧
      t.m.wgs = (put s c (Wg.unfuse { c.wg with threads := c.wg.threads.mapIdx (fun i x =>
        if c.act.contains i then { x with status := .fsLoad s.m.nextId none d } else if c.ig.threads.contains i then x.advance c.len else x) } c.act)).m.wgs) ∧
    (slot < 3 → exec (.fsLoad d slot a) s = .next (withM s (c.badHandle s.clk s.m 5)) ∧ exec (.fsPin slot) s = .next (put s c (each c id)) ∧
      exec (.fsFence slot) s = .next (put s c (each c id)) ∧ exec (.fsFenceDev slot) s = .next (put s c (each c id))) ∧
    (c.act ≠ [] → 3 ≤ slot → (∀ core, (s.m.core core).mats = [] ∧ (s.m.core core).drains = []) →
      exec (.fsFence slot) s = .next (put s c (each c id)) ∧ exec (.fsFenceDev slot) s = .next (put s c (each c id))) ∧
    (∀ i acc ov f bver rows t, c.act ≠ [] → 3 ≤ slot → i ∈ (s.m.core c.core).mats →
      i.work = .pass acc ov slot (1 - (s.m.planes c.core slot).cv) f bver rows t →
      exec (.fsFence slot) s = .next (withM s (c.wait s.clk s.m c.act (.fsFence slot [(c.core, 1 - (s.m.planes c.core slot).cv)])))) ∧
    (c.act ≠ [] → 3 ≤ slot → ((tget (s.m.fn c.vf).slots slot).getD {}).fmt ≠ none → slot ∉ c.wg.pins →
      exec (.fsPin slot) s = .next (put s c { each c id with pins := c.wg.pins ++ [slot] })) ∧
    (3 ≤ slot → ((tget (s.m.fn c.vf).slots slot).getD {}).fmt = none → exec (.fsPin slot) s = .next (withM s (c.badHandle s.clk s.m 5))) ∧
    (c.act ≠ [] → exec (.fsUnpin slot) s = .next (put s c { each c id with pins := c.wg.pins.filter (· ≠ slot) }))

/-- R379, R380: setting a range (a NaN bound, or one that is empty, is cause 0x06 class 8), clearing it, and reading a bound register. -/
def Sys2Proof.Claims.BoundRegisters : Prop :=
  ∀ (bd pol type lo hi d sel : Nat) s c, Issues s c → c.act ≠ [] →
    let w := if type < 3 then 2 ^ 32 else 2 ^ 16
    let l := kOf c lo % w
    let h := kOf c hi % w
    let b := c.wg.bds.getD bd {}
    let value := match sel with
      | 0 => b.policy + 4 * b.type + 256 * bit b.v + 2 ^ 48 * b.count
      | 1 => b.lo + 2 ^ 32 * b.hi
      | 2 => b.first.toNat % 2 ^ 64
      | _ => b.first.toNat / 2 ^ 64 + 65536 * bit b.f
    let ok := (boundVal type l).isNan = false ∧ (boundVal type h).isNan = false ∧ (boundVal type h).lessThan (boundVal type l) = false
    (ok → exec (.bdSet bd pol type lo hi) s = .next (put s c { each c id with bds := setAt c.wg.bds bd { policy := pol, type, lo := l, hi := h } })) ∧
    (¬ok → exec (.bdSet bd pol type lo hi) s = .next (withM s (c.badValue s.clk s.m 8))) ∧
    exec (.bdClr bd) s = .next (put s c { each c id with bds := setAt c.wg.bds bd {} }) ∧
    (b.policy < 4 → b.type < 8 → b.count < 65536 →
      exec (.bdStat d bd sel) s = .next (put s c (each c (fun t => t.setK d (BitVec.ofNat 64 value)))) ∧
      exec (.bdStatClr d bd sel) s = .next (put s c { each c (fun t => t.setK d (BitVec.ofNat 64 value)) with
        bds := setAt c.wg.bds bd { b with count := 0, v := false, f := false, first := 0 } }))

/-- The instructions on format slots and bound registers. -/
def Obligations.SlotsAndBoundRegisters : Prop := FormatSlots ∧ BoundRegisters

/-- R148, R169 to R172, R187: work identifiers; pushing a record, counting a join down and releasing its record, growing a launch, and signalling
a word of memory. -/
def Obligations.WorkInstructions : Prop :=
  ∀ (d a k sel : Nat) s c, Issues s c →
    let field (wid i : Nat) : Nat := if i < c.wg.hdr.widths.length then wid / 2 ^ (c.wg.hdr.widths.take i).sum % 2 ^ c.wg.hdr.widths.getD i 0 else 0
    let x (t : Thread) : Nat := if sel ≤ 5 then field t.wid sel else if sel = 6 then t.wid / 2 ^ c.wg.hdr.widths.headD 1 else c.wg.frame.toNat
    exec (.wid 0 d sel) s = .next (put s c (each c (fun t => t.setV d (BitVec.ofNat 32 (x t))))) ∧
    exec (.wid 1 d sel) s = .next (put s c (each c (fun t => t.setVV d (BitVec.ofNat 64 (x t))))) ∧
    exec (.widFrame d) s = .next (put s c (each c (fun t => t.setA d c.wg.frame))) ∧
    (∀ l, c.act ≠ [] → Quiet s c → NoneHeld c → (s.m.fn c.vf).launches.find? (·.id == c.wg.launch) = some l →
      let wide := 2 ^ (64 - l.hdr.widths.headD 1) - 1 < l.count + kOf c k ∨ l.hdr.pinned = true ∨ (l.hdr.cspan = true ∧ kOf c k % 16 ≠ 0)
      (wide → exec (.grow d k) s = .next (put s c (each c (fun t => t.setK d (BitVec.ofNat 64 (2 ^ 64 - 1)))))) ∧
      (¬wide → exec (.grow d k) s = .next (withM s (c.retireK (s.m.modLaunch c.vf l.id (fun l => { l with count := l.count + kOf c k })) d l.count)))) ∧
    (∀ pa, Quiet s c → NoneHeld c → c.act ≠ [] → NoMonitor s → Reaches s c .write 8 8 (c.act.take 1) (fun _ => aOf c a) pa →
      ∃ t, exec (.gwSignal k a) s = .next t ∧ WentOn s c t ∧ t.m.mem = Memory.writeL s.m.mem (pa (c.act.headD 0)) (leBytes 8 (kOf c k))) ∧
    (∀ pa, Quiet s c → NoneHeld c → c.act ≠ [] → Reaches s c .read 64 64 (c.act.take 1) (fun _ => aOf c a) pa →
      let bs := Memory.readN s.m.mem (pa (c.act.headD 0)) 64
      let r := recordOf bs c.wg.launch
      let room := ((tget (s.m.fn c.vf).queues r.prio).getD []).length < 2 ^ ((s.m.fn c.vf).qk.getD r.prio 10)
      room → ∃ t, exec (.spawn d a) s = .next t ∧ t.m.wgs = (put s c (each c (fun t => t.setK d 0))).m.wgs ∧ t.m.mem = s.m.mem ∧
        tget (t.m.fn c.vf).queues r.prio = some ((tget (s.m.fn c.vf).queues r.prio).getD [] ++ [r])) ∧
    (∀ pa, Quiet s c → NoneHeld c → c.act ≠ [] → NoMonitor s → aOf c a % 64 = 0 → aOf c a + 64 ≤ 2 ^ 80 →
      Reaches s c .read 4 4 (c.act.take 1) (fun _ => aOf c a + 56) pa → Reaches s c .write 4 4 (c.act.take 1) (fun _ => aOf c a + 56) pa →
      let p := pa (c.act.headD 0)
      let n := leNat (Memory.readN s.m.mem p 4)
      let r := recordOf (Memory.readN s.m.mem (p - 56) 56 ++ leBytes 4 0 ++ Memory.readN s.m.mem (p + 4) 4) c.wg.launch
      (n = 0 → ∃ t, exec (.join d a) s = .next t ∧ t.m.wgs = (put s c (each c (fun t => t.setK d 2))).m.wgs ∧ t.m.mem = s.m.mem) ∧
      (1 < n → ∃ t, exec (.join d a) s = .next t ∧ t.m.wgs = (put s c (each c (fun t => t.setK d 0))).m.wgs ∧ t.m.fns = s.m.fns ∧
        t.m.mem = Memory.writeL s.m.mem p (leBytes 4 (n - 1))) ∧
      (n = 1 → 56 ≤ p → s.m.poison = [] → ((tget (s.m.fn c.vf).queues r.prio).getD []).length < 2 ^ ((s.m.fn c.vf).qk.getD r.prio 10) →
        ∃ t, exec (.join d a) s = .next t ∧ t.m.wgs = (put s c (each c (fun t => t.setK d 1))).m.wgs ∧ t.m.mem = Memory.writeL s.m.mem p (leBytes 4 0) ∧
          tget (t.m.fn c.vf).queues r.prio = some ((tget (s.m.fn c.vf).queues r.prio).getD [] ++ [r])))

/-- R339: the elementwise epilogue words, on the 64 f32 elements of their registers, rounded to nearest even. Which neighbour `e.exp2`, `e.rcp`,
`e.rsq` and `e.tanh` answer is open (log 7). -/
def Sys2Proof.Claims.EpilogueArithmetic : Prop :=
  ∀ (ed ea eb ec : Nat),
    Elements (.eAdd ed ea eb) ed [ea, eb] (fun x => rne (addF (val (x.getD 0 0)) (val (x.getD 1 0)) .rne)) ∧
    Elements (.eSub ed ea eb) ed [ea, eb] (fun x => rne (subF (val (x.getD 0 0)) (val (x.getD 1 0)) .rne)) ∧
    Elements (.eMul ed ea eb) ed [ea, eb] (fun x => rne (mulF (val (x.getD 0 0)) (val (x.getD 1 0)))) ∧
    Elements (.eFma ed ea eb ec) ed [ea, eb, ec] (fun x => rne (fmaF (val (x.getD 0 0)) (val (x.getD 1 0)) (val (x.getD 2 0)) .rne)) ∧
    Elements (.eMax ed ea eb) ed [ea, eb] (fun x => minMaxF .f32 false false (x.getD 0 0) (x.getD 1 0)) ∧
    Elements (.eMin ed ea eb) ed [ea, eb] (fun x => minMaxF .f32 true false (x.getD 0 0) (x.getD 1 0)) ∧
    Elements (.eAbs ed ea) ed [ea] (fun x => moved (x.getD 0 0 % 2 ^ 31) [x.getD 0 0]) ∧
    Elements (.eSel ed ea eb ec) ed [ea, eb, ec]
      (fun x => moved (if x.getD 2 0 % 2 ^ 31 ≠ 0 then x.getD 0 0 else x.getD 1 0) [x.getD 0 0, x.getD 1 0, x.getD 2 0]) ∧
    (∀ cond, cond < 8 → Elements (.eCmp ed ea eb cond) ed [ea, eb] (fun x =>
      let r := cmpF ([Cmp.eq, .ne, .lt, .le, .gt, .ge, .un, .ord].getD cond .eq) (val (x.getD 0 0)) (val (x.getD 1 0))
      (if r.1 then 0x3F800000 else 0, r.2))) ∧
    (∀ t, Elements (.eScale ed ea t) ed [ea] (fun x => rne (scaleF (val (x.getD 0 0)) t))) ∧
    Elements (.eExp2 ed ea) ed [ea] (fun x => approxF .exp2 .f32 (x.getD 0 0)) ∧ Elements (.eRsq ed ea) ed [ea] (fun x => approxF .rsq .f32 (x.getD 0 0)) ∧
    Elements (.eRcp ed ea) ed [ea] (fun x => f32Faithful 6 (x.getD 0 0) (rcpF (val (x.getD 0 0)))) ∧
    Elements (.eTanh ed ea) ed [ea] (fun x => f32Faithful 7 (x.getD 0 0) (tanhF (val (x.getD 0 0))))

/-- R335, R337, R339, R340, R379: loading a vector of tV, adding it, storing a row to tD, converting a row, checking it against a range (counted,
clamped, or in trap mode the drain's stop), ending a row; and the drain error of a load or bias with no tV. -/
def Sys2Proof.Claims.EpilogueMoves : Prop :=
  ∀ (ed ea v o n slot rm bd : Nat) s core d w, DrainAt s core d w →
    (∀ t, d.tv = some t → 256 * v + 256 ≤ (w.tiles.getD t {}).size * 128 →
      exec (.eLd ed v) s = .next (stepped s core d (d.setReg ed ((upFrom 0 64).map (fun k => BitVec.ofNat 32 (vectorOf s core d (w.tiles.getD t {}) v k)))) 0) ∧
      let xs := (upFrom 0 64).map (fun k => rne (addF (val (d.row? ea k).toNat) (val (vectorOf s core d (w.tiles.getD t {}) v k)) .rne))
      exec (.eBias ed ea v) s = .next (stepped s core d (d.setReg ed (xs.map (fun x => BitVec.ofNat 32 x.1))) (xs.foldl (fun fl x => fl ||| x.2) 0))) ∧
    (d.tv = none →
      let y := w.tiles.getD d.td {}
      let left : Deferred := { cause := 15, addr := y.base * 128 + d.row * d.stride, info := d.ps + 256 * d.pc }
      let stopped (w : Wg) : Wg := { w with tiles := setAt w.tiles d.td { y with job := some .failed, fault := false, trap := some left }, drainErr := true, errps := d.ps }
      let bad := withM s (((s.m.modWg core d.slot stopped).modCore core (fun c => { c with drains := c.drains.filter (·.id ≠ d.id) })).settleAccs core)
      exec (.eLd ed v) s = .next bad ∧ exec (.eBias ed ea v) s = .next bad) ∧
    (let at_ := d.row * d.stride + 4 * o
     n ≤ 64 → at_ + 4 * n ≤ (w.tiles.getD d.td {}).size * 128 → w.tags = [] →
      exec (.eSt ea o n) s = .next (stepped (withM s (s.m.scratchWrite core d.slot ((w.tiles.getD d.td {}).base * 128 + at_)
        (((upFrom 0 n).map (fun k => leBytes 4 (d.row? ea k).toNat)).flatten))) core d d 0)) ∧
    (∀ p f r, d.fmts.find? (·.1 == slot) = some (slot, p, f) → Rm.ofCode rm = some r →
      let xs := (upFrom 0 64).map (fun k => (val (d.row? ea k).toNat, (d.row? ea k).getLsbD 31))
      let e := f.encodeRow xs r (if r = .rst then (upFrom 0 64).map d.draw else [])
      e.subs = [] ∨ d.trapBound = none → exec (.eCvt ed ea slot rm) s = .next (stepped s core d
        (d.setReg ed ((upFrom 0 64).map (fun k => BitVec.ofNat 32 (leNat (((f.rowImage e).drop (4 * k)).take 4))))) e.flags)) ∧
    (∀ b, d.bds.find? (·.1 == bd) = some (bd, b) → b.count ≤ 65535 →
      let x (k : Nat) : FVal := boundVal b.type (d.row? ea k).toNat
      let above (k : Nat) : Bool := !(x k).isNan && (boundVal b.type b.hi).lessThan (x k)
      let bad (k : Nat) : Bool := (x k).isNan || (x k).lessThan (boundVal b.type b.lo) || above k
      let at_ (k : Nat) : Nat := d.row * d.stride + 4 * k
      let seen (n : Nat) (k : Nat) : Bound := { b with v := true, count := min (b.count + n) 65535, first := if b.count = 0 then BitVec.ofNat 80 (at_ k) else b.first,
                                                       f := if b.count = 0 then true else b.f }
      let fold (b' : Bound) : Mach := s.m.foldBound core d.slot bd b b'
      (b.policy = 0 ∨ (upFrom 0 64).find? bad = none →
        exec (.eBound ed ea bd) s = .next (stepped (withM s (fold b)) core d (d.setReg ed ((upFrom 0 64).map (d.row? ea))) 0)) ∧
      (∀ k, (upFrom 0 64).find? bad = some k →
        (b.policy = 1 ∨ b.policy = 2 → exec (.eBound ed ea bd) s = .next (stepped (withM s (fold (seen ((upFrom 0 64).filter bad).length k))) core d
          (d.setReg ed ((upFrom 0 64).map (fun i => if b.policy = 2 ∧ bad i then BitVec.ofNat 32 (if above i then b.hi else b.lo) else d.row? ea i))) 0)) ∧
        (3 ≤ b.policy → exec (.eBound ed ea bd) s = .next (withM s ((fold (seen 1 k)).stopDrain core d 8 (at_ k) bd))))) ∧
    (d.row < 31 → w.accPoison = [] → (∃ i, decodeEp (d.words.getD 0 0).toNat = .ok i) →
      let w' := if d.z then w.setAccRow d.acc d.row (List.replicate 64 0) else w
      exec .eEnd s = .next (withM s ((s.m.modWg core d.slot (fun _ => w')).setDrain core
        { d.setReg 0 ((upFrom 0 64).map (w'.accAt d.acc (d.row + 1))) with row := d.row + 1, pc := 0 }))) ∧
    (d.row = 31 → exec .eEnd s = .next (withM s (((if d.z then s.m.modWg core d.slot (fun w => w.setAccRow d.acc 31 (List.replicate 64 0)) else s.m).setDrain core
      { d with row := 32 }).settleAccs core)))

/-- The words of the epilogue. -/
def Obligations.EpilogueWords : Prop := EpilogueArithmetic ∧ EpilogueMoves

/-! ## Events of the core: issue, engines, matrix unit -/

namespace Sys2Proof.Claims

/-- Thread `j` of the workgroup in a slot stands as `f` leaves it; NOTHING ELSE of the machine is changed. -/
def thread1 (s : State) (core slot : Nat) (w : Wg) (j : Nat) (f : Thread → Thread) : State :=
  withM s (s.m.setWg core slot { w with threads := w.threads.mapIdx (fun i t => if i = j then f t else t) })
/-- Workgroup `w` stands in the slot: no live barrier word, no rollback mode, no store buffered. -/
def Plain (s : State) (core slot : Nat) (w : Wg) : Prop :=
  s.m.wg? core slot = some w ∧ w.tags = [] ∧ w.hdr.rollback = false ∧ w.sbuf = []
/-- Its tile `t` stands as `x`: state, job, and waiting for no fault. -/
def TileJobIs (w : Wg) (t : Nat) (x : Tile) (st : TileState) (j : TileJob) : Prop :=
  x = w.tiles.getD t {} ∧ x.state = st ∧ x.fault = false ∧ x.job = some j
/-- The bytes of a tile as the scratchpad holds them, and the scratchpad with them replaced. -/
def tileBytes (s : State) (core slot : Nat) (x : Tile) : List Byte := s.m.scratchRead core slot (x.base * 128) (x.size * 128)
def tileGets (s : State) (core : Nat) (w : Wg) (x : Tile) (bs : List Byte) : Sparse Byte :=
  scratchPut (s.m.core core).scratch (w.gran * 32768 + x.base * 128) bs
/-- A tile whose fill has ended (R205): ready, its version one on, its D bit clear, no job. -/
def ended (x : Tile) : Tile := { x with state := .ready, version := x.version + 1, d := false, job := none, fault := false }
/-- The workgroups with tile `t` of the one in the slot standing as `x`. -/
def withTile (s : State) (core slot : Nat) (w : Wg) (t : Nat) (x : Tile) : List (Nat × Wg) :=
  (s.m.setWg core slot { w with tiles := setAt w.tiles t x }).wgs
/-- What an engine's event leaves unchanged beside what it names. -/
def EngineFrame (s t : State) : Prop := t.clk = s.clk ∧ t.agenda = s.agenda ∧ t.m.host = s.m.host ∧ t.m.fns = s.m.fns

end Sys2Proof.Claims

/-- R155, R293, R140, R166, R215, R384, R400: the streak rescue, a sleep's end, a load's return (with the bytes its lanes have read, or the one
lane's that another agent still owes, unless the serial phase is to bring them), a rebuild's end, a monitor's wake and timeout, a dirty line's write-back, the sealing of an aged interval;
and each before its time is the fault `notEnabled`. -/
def Obligations.CoreEvents : Prop :=
  ∀ (core slot warp j : Nat) s w, s.m.wg? core slot = some w →
    (∀ x n, s.m.nextWarp s.clk core = some (slot, x, n) →
      (n ≠ warp ∨ (w.warps.getD x {}).streak < 4096 ∨ (s.m.eligible core slot w x).length < 2 → exec (.streakRescue core warp) s = .fault .notEnabled) ∧
      (∀ h0 h1 hs, n = warp → w.fusedOf x = none → s.m.eligible core slot w x = h0 :: h1 :: hs → 4096 ≤ (w.warps.getD x {}).streak →
        let h := ((h1 :: hs).find? (fun r => decide ((w.warps.getD x {}).mark < r.pc.toNat))).getD h1
        let num := (w.warps.getD x {}).num
        ∃ t, exec (.streakRescue core warp) s = .next t ∧ t.clk = s.clk ∧ t.agenda = s.agenda ∧ t.m.pick = some (core, slot, h.threads) ∧
          t.m.wgs = (s.m.setWg core slot { w with warps := w.warps.mapIdx (fun i y => if i = x then { y with mark := h.pc.toNat, streak := 0 } else y) }).wgs ∧
          t.m.mem = s.m.mem ∧ t.m.fns = s.m.fns ∧ t.m.host = s.m.host ∧ (∀ k, k ≠ core → t.m.core k = s.m.core k) ∧
          (t.m.core core).granted = (s.m.core core).used s.clk ++ [[num]] ∧ (t.m.core core).grantCycle = s.clk.cycle ∧
          ((s.m.core core).passed ≠ some num → (t.m.core core).lastWarp = num))) ∧
    (∀ d, (w.thread j).status = .asleep d → exec (.sleepWake core slot j) s =
      if d ≤ s.clk.time then .next (thread1 s core slot w j (fun t => { t with status := .ready })) else .fault .notEnabled) ∧
    (∀ (p : PendLoad) (b : Nat → List Byte), (s.m.core core).loads.find? (·.id == j) = some p → p.slot = slot → p.dst ≠ .pc →
      let back (f : Nat → List Byte) := withM s ((s.m.modCore core (fun c => { c with loads := c.loads.filter (·.id ≠ j) })).setWg core slot
        { w with threads := w.threads.mapIdx (fun i t => if i ∈ p.threads ∧ t.status ≠ .exited then (p.dst.upd (f i)).apply t else t) })
      (p.lanes = p.threads.map (fun i => (i, [.got (b i)])) → exec (.loadReturn core j []) s = .next (back b)) ∧
      (∀ i, p.lanes = [(i, [.got (b i)])] → exec (.loadReturn core j []) s = .next (back (fun _ => b i))) ∧
      (∀ i n bs, p.lanes = [(i, [.owed n])] → p.order = .plain ∨ (s.m.core core).l1 = [] → exec (.loadReturn core j [bs]) s =
        if bs.length = n ∧ p.keyed = false then .next (back (fun _ => bs)) else .fault .notEnabled)) ∧
    (∀ r d, w.rebuild.find? (fun e => e.1 == r) = some (r, d) → exec (.regroupRebuildDone core slot r) s =
      if d ≤ s.clk.cycle then .next (withM s (s.m.setWg core slot { w with
        rebuild := w.rebuild.filter (fun e => e.1 != r),
        threads := w.threads.map (fun t => if t.status = .rebuilding ∧ w.role t.warp = r then { t with status := .ready } else t) }))
      else .fault .notEnabled) ∧
    ((w.thread j).status = .waiting .monitor →
      let woken := thread1 s core slot w j (fun t => { t.advance 8 with status := .ready, mon := none })
      (∀ l hit, (w.thread j).mon = some (l, hit) → exec (.monitorWake core slot j) s = if hit then .next woken else .fault .notEnabled) ∧
      (∀ n t0, (w.thread j).since = some (n, t0) → exec (.monitorTimeout core slot j) s =
        if t0 + 65536 ≤ s.clk.time then .next woken else .fault .notEnabled)) ∧
    (∀ l, tget (s.m.core core).l1 j = some l → l.bytes.length = 128 → l.dirty.length = 128 → Memory.wf s.m.mem = true →
      if l.dirty.any id then
        ∃ t, exec (.l1WritebackTimeout core j) s = .next t ∧ t.m.fns = s.m.fns ∧ t.m.host = s.m.host ∧ (∀ k, k ≠ core → t.m.core k = s.m.core k) ∧
          tget (t.m.core core).l1 j = some { l with dirty := List.replicate 128 false, firstWrite := none } ∧
          ∀ a, Memory.read t.m.mem a = if a / 128 = j ∧ l.dirty.getD (a % 128) false = true then l.bytes.getD (a % 128) 0 else Memory.read s.m.mem a
      else exec (.l1WritebackTimeout core j) s = .fault .notEnabled) ∧
    (∀ b, w.sbuf = [b] → b.dev = none → b.ord = none → w.hdr.rollback = true → w.sealed = 0 → (s.m.core core).l1 = [] → NoMonitor s →
      if b.time + 2 ^ 20 ≤ s.clk.cycle then
        ∃ t, exec (.storeBufferAgeOverflow core slot) s = .next t ∧ t.m.wgs = (s.m.setWg core slot { w with sbuf := [], sealed := 3 }).wgs ∧
          t.m.mem = Memory.writeL s.m.mem b.pa b.data ∧ t.m.fns = s.m.fns
      else exec (.storeBufferAgeOverflow core slot) s = .fault .notEnabled)

/-- R205, R206, R231, R261 to R263, R265: a fill puts its bytes into the scratchpad and a drain ends; a first touch reads, and a write-back that
had met a fault stores, its range; version words are taken, watched, held off and advanced; and a rotation gives each tile its neighbour's
bytes. Each before its time is the fault `notEnabled`. -/
def Sys2Proof.Claims.TileEvents : Prop :=
  ∀ (core slot tile : Nat) s w x, Plain s core slot w →
    let n := x.size * 128
    let filled (bs : List Byte) (mem : List Host.Cell) : Prop := ∃ t, exec (.tileFillComplete core slot tile) s = .next t ∧ EngineFrame s t ∧
      t.m.mem = mem ∧ t.m.wgs = withTile s core slot w tile (ended x) ∧ (t.m.core core).scratch = tileGets s core w x bs
    let drained (after : Tile) (mem : List Host.Cell) : Prop := ∃ t, exec (.tileDrainComplete core slot tile) s = .next t ∧ EngineFrame s t ∧
      t.m.wgs = withTile s core slot w tile after ∧ t.m.mem = mem ∧ (t.m.core core).scratch = (s.m.core core).scratch
    let readyNow : Tile := { x with state := .ready, version := x.version + 1, job := none }
    let unmappedNow : Tile := { x with state := .empty, m := false, d := false, size := 0, base := 0, job := none, fault := false }
    (∀ bs, TileJobIs w tile x .filling (.load bs) → filled bs s.m.mem) ∧
    (∀ pa, TileJobIs w tile x .filling .touch → EngineAt s core .read x.map.toNat n pa → filled (Memory.readN s.m.mem pa n) s.m.mem) ∧
    (TileJobIs w tile x .draining .store → drained readyNow s.m.mem) ∧
    (∀ ts o sc, TileJobIs w tile x .draining (.unmap ts o sc true) → drained unmappedNow s.m.mem) ∧
    (∀ ts o sc pa, TileJobIs w tile x .draining (.unmap ts o sc false) → EngineAt s core .write x.map.toNat n pa → NoMonitor s →
      s.m.scratchPoison core slot (x.base * 128) n = none → drained unmappedNow (Memory.writeL s.m.mem pa (tileBytes s core slot x))) ∧
    (∀ a ver ts pv, EngineAt s core .read ver.toNat 8 pv → EngineAt s core .write ver.toNat 8 pv → NoMonitor s →
      let v := leNat (Memory.readN s.m.mem pv 8)
      let retried (job : TileJob) (mem : List Host.Cell) : Prop := ∃ t, exec (.versionWordRetry core slot tile) s = .next t ∧
        t.m.mem = mem ∧ t.m.wgs = withTile s core slot w tile { x with job := some job }
      (TileJobIs w tile x .draining (.storeAon a ver ts none) →
        if v < 2 ^ 63 ∧ v % 2 = 0 then retried (.storeAon a ver ts (some (BitVec.ofNat 64 v))) (Memory.writeL s.m.mem pv (leBytes 8 (v + 1)))
        else exec (.versionWordRetry core slot tile) s = .fault .notEnabled) ∧
      (∀ pa (took : K64), TileJobIs w tile x .draining (.storeAon a ver ts (some took)) → EngineAt s core .write a.toNat n pa →
        s.m.scratchPoison core slot (x.base * 128) n = none →
        drained readyNow (Memory.writeL (Memory.writeL s.m.mem pa (tileBytes s core slot x)) pv (leBytes 8 ((took.toNat % 2 ^ 63 + 2) % 2 ^ 63)))) ∧
      (∀ k, TileJobIs w tile x .filling (.loadVer a ver ts k none) →
        (∀ pa, EngineAt s core .read a.toNat n pa → v % 2 = 0 →
          filled (Memory.readN s.m.mem pa n) (if 16 ≤ k then Memory.writeL s.m.mem pv (leBytes 8 (v % 2 ^ 63)) else s.m.mem)) ∧
        (v % 2 = 1 → exec (.tileFillComplete core slot tile) s = .fault .notEnabled) ∧
        (if v % 2 = 1 then retried (.loadVer a ver ts k (some (BitVec.ofNat 64 v))) s.m.mem
         else exec (.versionWordRetry core slot tile) s = .fault .notEnabled)) ∧
      (∀ k (seen : K64), TileJobIs w tile x .filling (.loadVer a ver ts k (some seen)) →
        if seen.toNat = v then exec (.versionWordRetry core slot tile) s = .fault .notEnabled
        else retried (.loadVer a ver ts (k + 1) none) (if k < 15 then s.m.mem else Memory.writeL s.m.mem pv (leBytes 8 (v ||| 2 ^ 63))))) ∧
    (∀ rev until_, TileJobIs w tile x .filling (.rotate rev until_) →
      let block := s.m.block w.vf w.launch w.g
      let from_ (g : Nat) : Nat := if rev then (g + 1) % 16 else (g + 15) % 16
      let at_ (e : Nat × Nat × Wg) : Tile := e.2.2.tiles.getD tile {}
      (s.clk.cycle < until_ → exec (.trotComplete core slot tile) s = .fault .notEnabled) ∧
      (until_ ≤ s.clk.cycle → (block.map (·.1)).Nodup → (block.map (fun e => e.2.2.g % 16)).Nodup →
        (∀ e ∈ block, s.m.wg? e.1 e.2.1 = some e.2.2 ∧ (at_ e).size = x.size ∧
          swf 0 (s.m.core e.1).scratch = true ∧ ∃ f ∈ block, f.2.2.g % 16 = from_ e.2.2.g) →
        ∃ t, exec (.trotComplete core slot tile) s = .next t ∧ EngineFrame s t ∧ t.m.mem = s.m.mem ∧ ∀ e ∈ block, ∀ f ∈ block, f.2.2.g % 16 = from_ e.2.2.g →
          t.m.wg? e.1 e.2.1 = some { e.2.2 with tiles := setAt e.2.2.tiles tile (ended (at_ e)) } ∧
          tileBytes t e.1 e.2.1 (at_ e) = tileBytes s f.1 f.2.1 (at_ f)))

/-- R290, R291, R318 to R320, R438: a copy command starts, its destination filling or its source draining; moves its bytes and leaves the engine; writes a target's registers; a stamp is stored
after what it covers, with bit 63 when that failed; and the status word of an `lz.send`. -/
def Sys2Proof.Claims.CopyEvents : Prop :=
  ∀ (core id : Nat) s (c : Copy) w, Plain s core c.slot w → c.id = id →
    (s.m.nextCopy core = some c →
      (∀ t st, (st = .filling ∧ ((∃ v, c.kind = .fillTile t v) ∨ ∃ a, c.kind = .g2t t a)) ∨ (st = .draining ∧ ∃ a, c.kind = .t2g a t) →
        (w.tiles.getD t {}).job = some (.command id) →
        exec (.copyCommandStart core id) s = .next (withM s ((s.m.modCore core (fun k =>
          { k with copies := k.copies.map (fun e => if e.id = id then { e with started := true } else e) })).setWg core c.slot
            { w with tiles := setAt w.tiles t { (w.tiles.getD t {}) with state := st } }))) ∧
      (∀ n, n ≠ id → exec (.copyCommandStart core n) s = .fault .notEnabled)) ∧
    ((s.m.core core).copies.find? (·.id == id) = some c → c.waitFault = none →
      (c.started = true → c.bar = none → c.bd = none →
        (∀ t a pa, c.kind = .g2t t a → let x := w.tiles.getD t {}; c.size = x.size * 128 → EngineAt s core .read a.toNat c.size pa →
          ∃ u, exec (.copyCommandComplete core id) s = .next u ∧ EngineFrame s u ∧ u.m.mem = s.m.mem ∧ u.m.wgs = withTile s core c.slot w t (ended x) ∧
            (u.m.core core).scratch = tileGets s core w x (Memory.readN s.m.mem pa c.size) ∧ (u.m.core core).copies = (s.m.core core).copies.filter (·.id ≠ id)) ∧
        (∀ t v, c.kind = .fillTile t v → let x := w.tiles.getD t {}; c.size = x.size * 128 →
          ∃ u, exec (.copyCommandComplete core id) s = .next u ∧ EngineFrame s u ∧ u.m.mem = s.m.mem ∧ u.m.wgs = withTile s core c.slot w t (ended x) ∧
            (u.m.core core).scratch = tileGets s core w x ((upFrom 0 c.size).map (fun i => BitVec.ofNat 8 (v.toNat / 256 ^ (i % 8))))) ∧
        (∀ t a pa, c.kind = .t2g a t → let x := w.tiles.getD t {}; c.size = x.size * 128 → x.job = some (.command id) → EngineAt s core .write a.toNat c.size pa →
          (s.m.core core).poison = [] → NoMonitor s →
          ∃ u, exec (.copyCommandComplete core id) s = .next u ∧ EngineFrame s u ∧ u.m.wgs = withTile s core c.slot w t { x with state := .ready, job := none } ∧
            u.m.mem = Memory.writeL s.m.mem pa (tileBytes s core c.slot x) ∧ (u.m.core core).copies = (s.m.core core).copies.filter (·.id ≠ id))) ∧
      (∀ r g warp reg k y, c.kind = .t2tReg r g warp reg → c.started = true → c.done = [] → c.bar = none → c.bad = none → s.m.groupEnded w.vf w.launch g = false →
        s.m.wgs.find? (fun e => e.2.vf == w.vf && e.2.launch == w.launch && e.2.g == g && e.2.isGroup) = some (k, y) →
        exec (.t2tTargetWrite core id g) s = .next (withM s ((s.m.modCore core (fun k =>
          { k with copies := k.copies.map (fun e => if e.id = id then { e with done := e.done ++ [g] } else e) })).setWg (k / 64) (k % 64)
            { y with threads := y.threads.map (fun t => if t.warp = warp ∧ t.status ≠ .exited then
              (upFrom 0 (c.data.length / 128)).foldl (fun t i => t.setV (reg + i) (BitVec.ofNat 32 (leNat ((c.data.drop (128 * i + 4 * t.lane)).take 4)))) t
              else t) }))) ∧
      (∀ a v mask sys pa, c.kind = .stamp a v mask sys → EngineAt s core .write a.toNat 8 pa → NoMonitor s →
        let earlier (x : Copy) : Prop := x ∈ (s.m.core core).copies ∧ x.slot = c.slot ∧ x.seq < c.seq
        ((∀ x, earlier x → x.kind.isStamp = false ∧ mask.testBit x.tag = false) →
          ∃ u, exec (.cpStampStore core id) s = .next u ∧ EngineFrame s u ∧ u.m.wgs = s.m.wgs ∧
            u.m.mem = Memory.writeL s.m.mem pa (leBytes 8 (if c.failed then v.toNat ||| 2 ^ 63 else v.toNat)) ∧
            (u.m.core core).copies = (s.m.core core).copies.filter (·.id ≠ id)) ∧
        ((∃ x, earlier x ∧ mask.testBit x.tag = true) → exec (.cpStampStore core id) s = .fault .notEnabled)) ∧
      (∀ name i t a p any pa st, c.kind = .lzSend name i t a p any → c.started = true → c.bar = none → c.done = [st] → st ≠ 1 → st < 256 → i < 64 → c.port < 256 →
        EngineAt s core .write a.toNat 8 pa → NoMonitor s → let x := w.tiles.getD t {}; x.job = some (.command id) →
        ∃ u, exec (.lzStatusStore core id st) s = .next u ∧ EngineFrame s u ∧ u.m.mem = Memory.writeL s.m.mem pa (leBytes 8 (st + 2 ^ 8 * i + 2 ^ 16 * c.port)) ∧
          u.m.wgs = withTile s core c.slot w t { x with state := .ready, job := none }))

/-- What the tile and copy engines do of themselves. -/
def Obligations.EngineEvents : Prop := TileEvents ∧ CopyEvents

/-! ## Events of the matrix unit, its tokens and the epilogue processor -/

namespace Sys2Proof.Claims

/-- No accumulator write is queued, so that a completion lets none go (R332). -/
def NoAccWrite (s : State) (core : Nat) : Prop := ∀ i ∈ (s.m.core core).mats, i.onMac = true
/-- The core with macro `mac` standing as `x` and its queue changed. -/
def macNow (s : State) (core mac : Nat) (x : Mac) (q : List MatItem → List MatItem) : Mach :=
  s.m.modCore core (fun c => { c with macs := tset c.macs mac x, mats := q c.mats })
/-- The token ring of a die as the machine holds it, and with another. -/
def ringOf (s : State) (die : Nat) : TokenRing := s.m.ring die
def ringNow (s : State) (die : Nat) (r : TokenRing) : State := withM s { s.m with rings := tset s.m.rings die r }

end Sys2Proof.Claims

/-- R299, R302, R306, R307, R326 to R329, R332: a load of B in its three parts, a free, the start of a pass (4 + rows × W cycles, behind a wake of
180 for a macro that is off, and not without a token where it needs one), its completion, which accumulates each row of A against the columns of
B, and an idle macro's power-off. -/
def Sys2Proof.Claims.MatrixEvents : Prop :=
  ∀ (core p : Nat) s w (i : MatItem), s.m.wg? core i.slot = some w →
    let c := s.m.core core
    let x := s.m.mac core p
    let now := s.clk.cycle
    (∀ t n pl f, i.work = .load t n pl f → let y := w.tiles.getD t {}
      (c.loadOn p = none → c.nextOn p = some i → x.busy ≤ now → (∀ j ∈ c.mats, j.isPass = true → j.mac = p → j.started = false) →
        (y.state = .ready ∨ y.state = .empty) → (∀ id, y.job ≠ some (.command id)) →
        ∃ u, exec (.mbLoadRun core p) s = .next u ∧ u.m.wgs = withTile s core i.slot w t { y with state := .draining, job := some (.command i.id) } ∧
          (u.m.core core).mats = c.mats.map (fun j => if j.id = i.id then { j with started := true, doneAt := now + 96 } else j) ∧
          u.m.mac core p = { x with busy := now + 96, lastUse := now + 96 } ∧ u.m.mem = s.m.mem ∧ (u.m.core core).scratch = c.scratch) ∧
      (c.loadOn p = some i → y.job = some (.command i.id) → y.state = .draining → c.poison = [] →
        if i.doneAt + (f.tileBytes 64 + 127) / 128 ≤ now + 96 then
          ∃ u, exec (.mbLoadRun core p) s = .next u ∧ u.m.wgs = withTile s core i.slot w t { y with state := .ready, job := none } ∧
            u.m.mac core p = { x with b := some { fmt := f, bytes := s.m.scratchRead core i.slot (y.base * 128) (f.tileBytes 64) } } ∧ (u.m.core core).mats = c.mats
        else exec (.mbLoadRun core p) s = .fault .notEnabled) ∧
      (c.loadOn p = some i → y.job ≠ some (.command i.id) → exec (.mbLoadRun core p) s =
        if i.doneAt ≤ now then .next (withM s (macNow s core p { x with bver := x.bver + 1 } (·.filter (·.id ≠ i.id)))) else .fault .notEnabled)) ∧
    (i.work = .free → c.nextOn p = some i → c.loadOn p = none → x.busy ≤ now → (∀ j ∈ c.mats, j.isPass = true → j.mac = p → j.started = false) →
      exec (.mbFreeEffect core p) s = .next (withM s (macNow s core p { x with b := none, lastUse := now } (·.filter (·.id ≠ i.id))))) ∧
    (∀ acc ov n pl f bv rows t, i.work = .pass acc ov n pl f bv rows t →
      (c.nextOn p = some i → (now < x.busy ∨ c.loadOn p ≠ none) → exec (.passStart core p) s = .fault .notEnabled) ∧
      (c.nextOn p = some i → x.busy ≤ now → c.loadOn p = none →
        let may := c.drainBefore i.slot acc i.seq = false ∧ (f.w < 7 ∨ ∃ k, s.m.clusterToken (core / 16) = some k ∧ k.closed = false)
        let leave := now + 4 + rows.length * f.w
        (may → x.powered = true ∨ x.waking = true → exec (.passStart core p) s = .next (withM s (macNow s core p
          { x with powered := true, waking := false, busy := leave, lastUse := leave } (·.map (fun j =>
          if j.id = i.id then { j with started := true, doneAt := leave + 16, onToken := decide (7 ≤ f.w) } else j))))) ∧
        (may → x.powered = false → x.waking = false →
          exec (.passStart core p) s = .next (withM s (s.m.setMac core p { x with waking := true, busy := now + 180, lastUse := now + 180 }))) ∧
        (¬may → exec (.passStart core p) s = if x.waking then .next (withM s (s.m.setMac core p { x with powered := true, waking := false, lastUse := now }))
          else .fault .notEnabled)) ∧
      (c.mats.find? (fun j => j.isPass && j.mac == p && j.started) = some i → now < i.doneAt → exec (.passComplete core p) s = .fault .notEnabled) ∧
      (∀ b, c.mats.find? (fun j => j.isPass && j.mac == p && j.started) = some i → x.b = some b → i.doneAt ≤ now → c.accBefore i.slot acc i.seq = false →
        NoAccWrite s core → c.poison = [] → (rows.map (·.row)).Nodup → (∀ r ∈ rows, r.row < 32) → sortedFrom none w.acc = true →
        let cols := (upFrom 0 64).map (fun j => let y := b.fmt.tileRow b.bytes 64 j; b.fmt.rowVals y.1 y.2)
        let out (r : ARow) (j : Nat) : Nat × BitVec 5 := dotStep (if ov then 0 else (w.accAt acc r.row j).toNat) (f.rowVals r.bytes r.scales) (cols.getD j [])
        ∃ u w', exec (.passComplete core p) s = .next u ∧ u.m.wg? core i.slot = some w' ∧ (u.m.core core).mats = c.mats.filter (·.id ≠ i.id) ∧
          u.m.mem = s.m.mem ∧ w'.threads = w.threads ∧ w'.tiles = (match t with
            | some k => if (w.tiles.getD k {}).job = some (.command i.id) then setAt w.tiles k { (w.tiles.getD k {}) with state := .ready, job := none } else w.tiles
            | none => w.tiles) ∧
          w'.pflags = rows.foldl (fun fl r => fl ||| (upFrom 0 64).foldl (fun fl j => fl ||| (out r j).2) 0) w.pflags ∧
          (∀ r ∈ rows, ∀ j, j < 64 → w'.accAt acc r.row j = BitVec.ofNat 32 (out r j).1) ∧
          ∀ a row j, row < 32 → j < 64 → (a ≠ acc ∨ ∀ r ∈ rows, r.row ≠ row) → w'.accAt a row j = w.accAt a row j)) ∧
    (exec (.macroIdlePowerOff core p) s =
      if (x.powered = true ∨ x.waking = true) ∧ (∀ j ∈ c.mats, j.onMac = true → j.mac ≠ p) ∧ x.lastUse + s.m.idle ≤ now then
        .next (withM s (s.m.setMac core p { x with powered := false, waking := false }))
      else .fault .notEnabled)

/-- R306: a token is given up at its burst's end, or when its hold has run out and no pass is on it, to the next cluster or, when one is to be taken
out of the ring, for good; a hold runs out after 20,000 cycles when another cluster waits; a passing token is taken by the next cluster round the ring that wants one. -/
def Sys2Proof.Claims.PowerTokens : Prop :=
  ∀ (k : Nat) s, let die := k / 10; let r := ringOf s die
    (∀ t, s.m.clusterToken k = some t →
      (let idle := ∀ e ∈ s.m.cores, e.1 / 16 = k → ∀ p, p < 4 → ((tget e.2.macs p).getD {}).busy + 64 ≤ s.clk.cycle
        let done := (idle ∧ t.since + 64 ≤ s.clk.cycle) ∨ (t.closed = true ∧ s.m.tokenBusy s.clk k = false)
        (done → exec (.tokenBurstEnd k) s = .next (ringNow s die (if r.retire = 0 then
            { r with held := r.held.filter (fun x => x.cluster ≠ k), ring := r.ring ++ [(k + 1) % 10] }
          else { r with held := r.held.filter (fun x => x.cluster ≠ k), retire := r.retire - 1 }))) ∧
        (¬done → exec (.tokenBurstEnd k) s = .fault .notEnabled)) ∧
      (t.closed = false → t.since + 20000 ≤ s.clk.cycle →
        ((∃ j, j / 10 = die ∧ j ≠ k ∧ s.m.clusterWaits j = true) → exec (.tokenHoldTimeout k) s =
          .next (ringNow s die { r with held := r.held.map (fun x => if x.cluster = k then { x with closed := true } else x) })) ∧
        ((∀ j, j / 10 = die → j ≠ k → s.m.clusterWaits j = false) → exec (.tokenHoldTimeout k) s = .fault .notEnabled)) ∧
      (t.closed = false → s.clk.cycle < t.since + 20000 → exec (.tokenHoldTimeout k) s = .fault .notEnabled)) ∧
    (∀ q ps j, r.ring = q :: ps → j < 10 → s.m.clusterWaits (die * 10 + (q + j) % 10) = true → (∀ i, i < j → s.m.clusterWaits (die * 10 + (q + i) % 10) = false) →
      exec (.tokenArrive die) s = .next (ringNow s die { r with held := r.held ++ [{ cluster := die * 10 + (q + j) % 10, since := s.clk.cycle }], ring := ps }))

/-- What the matrix unit and the token rings do of themselves. -/
def Obligations.MatrixUnit : Prop := MatrixEvents ∧ PowerTokens

/-- R305, R334, R335: the oldest drain starts at row 0 with e0 holding it; a drain past its last row leaves its tile ready; a program store takes
its words. -/
def Obligations.DrainEvents : Prop :=
  ∀ (core : Nat) s w, (NoAccWrite s core) →
    (∀ d ds, (s.m.core core).drains = d :: ds → s.m.wg? core d.slot = some w → d.tv = none → (∀ e ∈ ds, e.id ≠ d.id) →
      (d.running = false → (s.m.core core).accBefore d.slot d.acc d.seq = false → (∃ i, decodeEp (d.words.getD 0 0).toNat = .ok i) →
        w.accPoison = [] → exec (.drainStart core) s = .next (withM s (s.m.modCore core (fun k =>
          { k with drains := { d.setReg 0 ((upFrom 0 64).map (w.accAt d.acc 0)) with row := 0, pc := 0, running := true } :: ds })))) ∧
      (d.running = false → (s.m.core core).accBefore d.slot d.acc d.seq = true → exec (.drainStart core) s = .fault .notEnabled) ∧
      (d.running = true → d.row = 32 →
        exec (.drainComplete core) s = .next (withM s ((s.m.setWg core d.slot { w with tiles := setAt w.tiles d.td (ended (w.tiles.getD d.td {})) }).modCore core
          (fun k => { k with drains := ds }))))) ∧
    (∀ ps e, (s.m.core core).epis.find? (·.ps == ps) = some e → s.m.wg? core e.slot = some w → e.words.length = 64 → sortedFrom none (s.m.core core).stores = true →
      (∀ d ∈ (s.m.core core).drains, d.ps = ps → e.seq ≤ d.seq) →
      ∃ u, exec (.epiStoreWrite core ps) s = .next u ∧ u.m.mem = s.m.mem ∧ (u.m.core core).epis = (s.m.core core).epis.filter (·.id ≠ e.id) ∧
        ∀ q j, j < 64 → sget 0 (u.m.core core).stores (q * 64 + j) = if q = ps then e.words.getD j 0 else sget 0 (s.m.core core).stores (q * 64 + j))

/-! ## Channel, fault and pre-emption events -/

namespace Sys2Proof.Claims

/-- The machine with the threads `ts` of a slot's workgroup ready. -/
def readied (m : Mach) (core slot : Nat) (ts : List Nat) : Mach := m.modWg core slot (fun w => w.modThreads ts (fun t => { t with status := .ready }))
/-- The event lets the group `g` EXECUTE ITS INSTRUCTION `i`: it answers what `exec i` makes of the machine with the group standing at it. -/
def Proceeds (ev i : Instr) (s : State) (g : ChanWaiter) : Prop :=
  ∀ x word ext m, (readied s.m g.core g.slot g.threads).wg? g.core g.slot = some x →
    (readied s.m g.core g.slot g.threads).fetchInstr g.core x.vf (x.thread (g.threads.headD 0)).pc = (.ok word ext, m) →
    decodeWord word ext = .ok i → (m.wg? g.core g.slot).isSome = true →
    ∃ u, Machine.exec i (withM s { m with ig := some { core := g.core, slot := g.slot, threads := g.threads, pc := (x.thread (g.threads.headD 0)).pc, w := word, ext } }) = .next u ∧
      Machine.exec ev s = .next (withM s { u.m with ig := none })
/-- The elements a channel hands its reader, in order. -/
def elements (c : Chan) : List (List Byte) := c.bobbin ++ c.spooled
/-- The fault record of a core's instruction `id` counts an entry off. -/
def served (s : State) (vf id : Nat) (failed : Option (Nat × Nat × Nat)) : Mach :=
  (s.m.modFn vf (fun f => { f with faults := f.faults.drop 1 })).modFaultRec vf id (fun r => { r with pend := r.pend - 1, failed := match failed with
    | none => r.failed
    | some (l, a, k) => match r.failed with | some (l', a', k') => if l < l' then some (l, a, k) else some (l', a', k') | none => some (l, a, k) })
/-- An entry of a program's access: kind 1 or 2, on a core. -/
def ThreadEntry (e : FaultEntry) : Prop := (e.kind = 1 ∨ e.kind = 2) ∧ e.core ≠ 65535 ∧ e.access < 2
/-- The right such an entry needs. -/
def rightOf (e : FaultEntry) : Access := if e.access = 0 then .read else .write

/-- A thread that stood in a predicate block stands at its prefix, which it re-enters at the saved slot (R35, R393). -/
def atPrefix (t : Thread) : Thread :=
  match t.blk with | some b => { t with pc := b.prefixPc, blk := none, reenter := some (b.count, b.slot, b.guards) } | none => t

end Sys2Proof.Claims

/-- R272 to R274, R278, R279, R285, R286, R428: a waiting send or receive that can go on executes its instruction; refill moves the spool's oldest
elements while the bobbin has room, in order; a scan with no stuck workgroup; an element, a close, a break and credits from a peer device. -/
def Obligations.ChannelEvents : Prop :=
  ∀ (vf ch : Nat) s,
    (∀ g, s.m.chanNext vf ch true = some g → ∀ q v t, Proceeds (.blockedSendProceed vf ch) (.chSend q v) s g ∧ Proceeds (.blockedSendProceed vf ch) (.chSendt q t) s g) ∧
    (s.m.chanNext vf ch true = none → exec (.blockedSendProceed vf ch) s = .fault .notEnabled) ∧
    (∀ g, s.m.chanNext vf ch false = some g → ∀ q v t p r, Proceeds (.blockedRecvProceed vf ch) (.chRecv q v p) s g ∧
      Proceeds (.blockedRecvProceed vf ch) (.chTryRecv q v r) s g ∧ Proceeds (.blockedRecvProceed vf ch) (.chRecvt q t p) s g) ∧
    (s.m.chanNext vf ch false = none → exec (.blockedRecvProceed vf ch) s = .fault .notEnabled) ∧
    (∀ c, s.m.chan? vf ch = some c →
      ((∀ i, i < c.spooled.length → s.m.spoolAt vf (c.spoolAddr ((c.sent + (2 ^ 32 - c.spooled.length) + i) % 2 ^ 32)) c.esize false = .ok) →
        c.spooled ≠ [] → c.bobbin.length < c.bcap → c.spoolWait = false →
        let n := min c.spooled.length (c.bcap - c.bobbin.length)
        exec (.channelRefill vf ch) s = .next (withM s (s.m.setChan vf ch { c with bobbin := c.bobbin ++ c.spooled.take n, spooled := c.spooled.drop n }))) ∧
      ((c.spooled = [] ∨ c.bcap ≤ c.bobbin.length ∨ c.spoolWait = true) → exec (.channelRefill vf ch) s = .fault .notEnabled) ∧
      (∀ bs, c.state = 1 → (c.x = false ∨ c.wbind = none) → 1 < bs.length → c.spooled = [] → c.bobbin.length < c.bcap →
        ∃ c', exec (.channelFlitArrive vf ch bs) s = .next (withM s (s.m.setChan vf ch c')) ∧ elements c' = elements c ++ [bs] ∧
          c'.sent = (c.sent + 1) % 2 ^ 32 ∧ c'.recvd = c.recvd ∧ c'.state = 1) ∧
      (c.state = 1 → exec (.channelFlitArrive vf ch []) s = .next (withM s (s.m.setChan vf ch { c with state := 2 })) ∧
        ∀ b, exec (.channelFlitArrive vf ch [b]) s = .next (withM s (s.m.setChan vf ch { c with state := 3 }))) ∧
      (∀ bs, c.state ≠ 1 → exec (.channelFlitArrive vf ch bs) s = .next s) ∧
      (∀ n, exec (.channelCreditReturn vf ch n) s = .next (withM s (s.m.setChan vf ch { c with credits := c.credits + n })))) ∧
    (sortedFrom none s.m.fns = true → (∀ e ∈ s.m.fns, s.m.stalemate e.1 = []) → exec .stalemateScan s =
      if s.clk.time / 20000 ≤ (tget s.m.due 0).getD 0 then .fault .notEnabled
      else .next (withM s { s.m with due := tset s.m.due 0 (s.clk.time / 20000), fns := s.m.fns.map (fun e => (e.1, { e.2 with scan := none })) }))

/-- R373 to R377, R475: operations that waited for the fault queue retry; the head of the queue is serviced: resolved, mapped by its fault policy
(as it stood, or with a page that reads as zeros) with every entry on the page released, or failed with its lowest lane; a faulted instruction that
holds no operand-log entry goes on when none of its entries failed, and takes cause 0x04, or 0x0E for one of the return stack, when one did. -/
def Obligations.FaultEvents : Prop :=
  ∀ (vf : Nat) s,
    (let can (t : Thread) : Bool := match t.status with | .waiting (.faultQueue n) => decide ((s.m.fn vf).faults.length + n ≤ 2 ^ (s.m.fn vf).fk) | _ => false
     exec (.faultQueueRetry vf) s = if s.m.wgs.any (fun e => e.2.vf == vf && e.2.threads.any can) then
         .next (withM s { s.m with wgs := s.m.wgs.map (fun e =>
           if e.2.vf = vf then (e.1, { e.2 with threads := e.2.threads.map (fun t => if can t then { t with status := .ready } else t) }) else e) })
       else .fault .notEnabled) ∧
    ((s.m.fn vf).faults = [] → exec (.faultService vf) s = .fault .notEnabled) ∧
    (∀ e es, (s.m.fn vf).faults = e :: es → ThreadEntry e → s.m.moving = [] →
      (∀ pa k, translate s.m vf e.va (rightOf e) = .ok pa k → exec (.faultService vf) s = .next (withM s (served s vf e.rec_ none))) ∧
      (translate s.m vf e.va (rightOf e) = .violation → exec (.faultService vf) s = .next (withM s (served s vf e.rec_ (some (lowLane e.lanes, e.va, e.kind))))) ∧
      (∀ at_, translate s.m vf e.va (rightOf e) = .noTranslation → entryAt s.m vf e.va = some at_ → tget (s.m.fn vf).evicted at_ = none →
        let old := s.m.physNat at_ 16
        old % 2 = 0 → old / 4 % 2 = 0 →
        let same (x : FaultEntry) : Bool := x.kind ≠ 3 && x.va / 65536 == e.va / 65536
        let gone (s : State) : Mach := (es.filter same).foldl (fun m x => m.modFaultRec vf x.rec_ (fun r => { r with pend := r.pend - 1 }))
          ((served s vf e.rec_ none).modFn vf (fun f => { f with faults := f.faults.filter (fun x => !same x) }))
        (old / 2 ^ 76 % 4 = 1 → (∀ x ∈ es, same x = true → ThreadEntry x) →
          exec (.faultService vf) s = .next (withM s (gone (withM s (s.m.putEntry at_ (old - 2 ^ 76 + 1)))))) ∧
        (∀ p m', old / 2 ^ 76 % 4 = 2 → s.m.takePage vf = some (p, m') → Memory.readN m'.mem at_ 16 = Memory.readN s.m.mem at_ 16 →
          (m'.fn vf).faults = e :: es →
          (∀ x ∈ es, same x = true → ThreadEntry x) → (∀ a, a / 65536 = p → Memory.read m'.mem a = 0) ∧
          exec (.faultService vf) s = .next (withM s (gone (withM s (m'.putEntry at_
            (old / 2 ^ 78 * 2 ^ 78 + old / 2 ^ 52 % 2 ^ 24 * 2 ^ 52 + p * 65536 + old % 65536 + 1)))))) ∧
        (old / 2 ^ 76 % 4 = 0 → exec (.faultService vf) s = .next (withM s (served s vf e.rec_ (some (lowLane e.lanes, e.va, e.kind))))))) ∧
    (∀ core w r, (s.m.core core).faults.find? (fun x => x.id == r.id && x.pend == 0) = some r → s.m.wg? core r.slot = some w → r.log = none →
      let m := s.m.modCore core (fun c => { c with faults := c.faults.filter (·.id ≠ r.id) })
      (r.failed = none → exec (.faultReplay core r.id) s = .next (withM s (m.setWg core r.slot { w with threads := w.threads.map (fun t =>
        if t.status = .parked r.id ∨ t.status = .waiting (.fault r.id) then { t with status := .ready } else t) }))) ∧
      (∀ lane va, r.failed = some (lane, va, 9) → exec (.faultReplay core r.id) s = .next (withM s
        (m.takeTrap s.clk core r.slot (r.threads.filter (fun i => (w.thread i).status ≠ .exited)) 14 0 (BitVec.ofNat 80 va) r.ext.isSome))) ∧
      (∀ lane va kind, r.failed = some (lane, va, kind) → kind ≠ 3 → kind ≠ 9 → exec (.faultReplay core r.id) s = .next (withM s
        (m.takeTrap s.clk core r.slot (r.threads.filter (fun i => (w.thread i).status ≠ .exited)) 4 (lane + 256 * kind) (BitVec.ofNat 80 va) r.ext.isSome))))

/-- R376, R377, R389 to R393: a workgroup whose fetch found no translation is saved with a fault-queue entry of kind 6; a level-3 unit that has
waited 200,000 ns makes a workgroup leave; a saved workgroup goes back with its threads, each as it went but for the waits that begin anew and the
blocks that are entered again at their slot. -/
def Obligations.PreemptionEvents : Prop :=
  ∀ (core slot vf : Nat) s w,
    (s.m.wg? core slot = some w → w.vf = vf → w.hdr.cspan = false → w.hdr.pinned = true → w.leaving = 2 → w.ending = false →
      s.m.settledWork core slot w = true → (∀ b ∈ w.qs, b = none) → sortedFrom none s.m.wgs = true →
      ∀ ts va, w.fetchAt = some (ts, va) → (s.m.fn vf).faults.length < 2 ^ (s.m.fn vf).fk →
        ∃ u img e, exec (.fetchFaultSwapOut core slot) s = .next u ∧ u.m.mem = s.m.mem ∧ u.m.wg? core slot = none ∧
          (u.m.fn vf).images = (s.m.fn vf).images ++ [img] ∧ img.fetchFault = some e.rec_ ∧ img.core = core ∧
          img.wg.threads = w.threads.map (fun t => { t with mon := none, yieldMark := false }) ∧
          (u.m.fn vf).faults = (s.m.fn vf).faults ++ [e] ∧ e.kind = 6 ∧ e.va = va ∧ e.access = 2 ∧ e.core = core ∧ e.slot = slot ∧ e.time = s.clk.time) ∧
    (s.m.wgs = [(core * 64 + slot, w)] → slot < 64 → core < 1280 → w.vf = vf → w.hdr.prio < 3 → w.hdr.pinned = false → w.hdr.cspan = false → w.ending = false →
      w.leaving = 0 → ∀ since h, (s.m.fn vf).waitL3 = some since → s.m.level3Head vf = some h → (∀ d, d < 8 → s.m.unitFits vf h d = false) →
      ((s.m.delWg core slot).freeCore core).unitFits vf h (core / 160) = true →
      exec (.preemptPriorityTimeout vf) s = if since + 200000 ≤ s.clk.time then .next (withM s { s.m with wgs := [(core * 64 + slot, { w with leaving := 1 })] })
        else .fault .notEnabled) ∧
    (∀ i, s.m.nextImage vf (s.m.readyFor vf core) = some i → i.wg.hdr.cspan = false → i.wg.zones = [] → (∀ b ∈ i.wg.qs, b = none) → i.failed = false →
      i.wg.hdr.rollback = false → i.wg.basting = none →
      (∀ t ∈ i.wg.threads, ∀ q st kd, t.status ≠ .fsLoad q (some st) kd) →
      ∃ u seat w', exec (.workgroupResume vf core) s = .next u ∧ s.m.seat? core i.wg.hdr = some seat ∧ u.m.wg? core seat.slot = some w' ∧
        w'.threads = i.wg.threads.map (fun t => match t.status with
          | .waiting (.fault _) => atPrefix t
          | .waiting _ => atPrefix { t with status := .ready, since := none }
          | .fsLoad .. => t
          | _ => atPrefix t) ∧
        w'.gran = seat.gran ∧ w'.tiles = i.wg.tiles ∧ w'.acc = i.wg.acc ∧ w'.leaving = i.wg.leaving ∧
        ∀ x ∈ (u.m.fn vf).images, x.id ≠ i.id) ∧
    (s.m.nextImage vf (s.m.readyFor vf core) = none → exec (.workgroupResume vf core) s = .fault .notEnabled)

/-! ## Launches, the walker, the dispatcher, slots -/

namespace Sys2Proof.Claims

/-- `n` bytes at `va` lie on one page that function `vf` may access with every kind of `ks`, at `pa` in this device's memory, not poisoned; the
I/O die holds no line. -/
def FwAt (s : State) (vf va n : Nat) (ks : List Access) (pa : Nat) : Prop :=
  0 < n ∧ va % 65536 + n ≤ 65536 ∧ ks ≠ [] ∧ (∃ kind, ∀ k ∈ ks, translate s.m vf va k = .ok pa kind) ∧ (s.m.core 1280).l1 = [] ∧ ∀ l ∈ linesOf pa n, l ∉ s.m.poison
/-- The walker of `vf` stands at a good node `n` of kind `kind`, number `w.node` of its graph (R176). -/
def AtNode (s : State) (vf : Nat) (w : Walker) (n : Node) (kind : Nat) : Prop :=
  (s.m.fn vf).walker = some w ∧ w.fault = 0 ∧ w.node < w.count ∧ n.kind = kind ∧ n.bad w.count = false ∧
    ∃ pa, FwAt s vf ((w.graph.toNat + 64 * w.node) % 2 ^ 80) 64 [.read] pa ∧ n = parseNode (Memory.readN s.m.mem pa 64)
/-- The event answers a next state in which the walker stands as `w'` and memory as `mem`; no workgroup, no other function and no core is changed. -/
def Walks (i : Instr) (s : State) (vf : Nat) (w' : Walker) (mem : List Host.Cell) : Prop :=
  ∃ u, Machine.exec i s = .next u ∧ u.clk = s.clk ∧ u.agenda = s.agenda ∧ u.m.mem = mem ∧ u.m.host = s.m.host ∧ u.m.wgs = s.m.wgs ∧
    u.m.fns = (s.m.setWalker vf (some w')).fns ∧ ∀ k, u.m.core k = s.m.core k
/-- The walker at another node. -/
def goto (w : Walker) (n : Nat) : Walker := { w with node := n, fault := 0, room := false }
/-- Bytes with some of them replaced from a place on. -/
def patched (r : List Byte) (at_ : Nat) (bs : List Byte) : List Byte := r.take at_ ++ bs ++ r.drop (at_ + bs.length)
/-- A header as a launch node leaves it (R176): its stamp, its group count unless that is 0, and its priority, come from the node. -/
def nodeHeader (n : Node) (old : List Byte) : List Byte :=
  let r := patched old 64 (leBytes 10 n.stamp ++ List.replicate 6 0)
  let r := if n.count = 0 then r else patched r 128 (leBytes 8 n.count)
  patched r 3 [BitVec.ofNat 8 ((r.getD 3 0).toNat % 32 + 32 * n.prio + (r.getD 3 0).toNat / 128 * 128)]

end Sys2Proof.Claims

/-- R168, R176, R177: launch nodes (with the launch, or with its refusal logged under the number of the first check that fails), conditional,
while, join, wait-stamp, signal-host and end nodes; a run that meets a bad node or leaves its graph stops. -/
def Sys2Proof.Claims.GraphWalker : Prop :=
  ∀ (vf : Nat) s w n,
    (∀ pa, AtNode s vf w n 1 → FwAt s vf n.addr 256 [.read, .write] pa → NoMonitor s → n.track < 16 → (∀ e ∈ w.tracks, e.1 = n.track → s.m.launch? vf e.2 = none) →
      let r := nodeHeader n (Memory.readN s.m.mem pa 256)
      let h := parseHeader n.addr r
      let i : Instr := if w.room then .launchPlaceRetry vf else .gwLaunchNode vf
      (s.m.headerCheck vf r h = 0 → h.gang = 0 →
        ∃ u, exec i s = .next u ∧ u.m.mem = Memory.writeL s.m.mem pa r ∧ u.m.wgs = s.m.wgs ∧ (u.m.fn vf).launches = (s.m.fn vf).launches ++
            [{ id := s.m.nextId, hdr := h, stampVal := BitVec.ofNat 64 n.value, track := n.track, count := h.groups, reserved := h.reservation }] ∧
          (u.m.fn vf).walker = some { goto w n.next with placed := w.placed ++ [s.m.nextId], tracks := (n.track, s.m.nextId) :: w.tracks.filter (fun e => e.1 ≠ n.track) }) ∧
      (∀ c, s.m.headerCheck vf r h = c → 0 < c → c < 8 → w.room = false →
        ∃ u e, exec (.gwLaunchNode vf) s = .next u ∧ (u.m.fn vf).launches = (s.m.fn vf).launches ∧ (u.m.fn vf).walker = some (goto w n.next) ∧
          (u.m.fn vf).log.getLast? = some e ∧ e.source = 4 ∧ e.code = c ∧ e.addr = n.addr) ∧
      (s.m.headerCheck vf r h = 8 → w.room = false → Walks (.gwLaunchNode vf) s vf { w with room := true, fault := 0 } (Memory.writeL s.m.mem pa r))) ∧
    (∀ pa, w.room = false → FwAt s vf n.addr 8 [.read] pa →
      let x := leNat (Memory.readN s.m.mem pa 8)
      let holds := match n.test with | 0 => decide (x = n.value) | 1 => decide (x ≠ n.value) | 2 => decide (x < n.value) | _ => decide (n.value ≤ x)
      (AtNode s vf w n 2 → Walks (.gwConditionalNode vf) s vf (goto w (if holds then n.next else n.alt)) s.m.mem) ∧
      (AtNode s vf w n 3 → holds = false → Walks (.gwWhileNode vf) s vf (goto w n.alt) s.m.mem) ∧
      (∀ pc, AtNode s vf w n 3 → holds = true → NoMonitor s → FwAt s vf (((w.graph.toNat + 64 * w.node) % 2 ^ 80 + 48) % 2 ^ 80) 8 [.write] pc →
        Walks (.gwWhileNode vf) s vf (goto w n.next) (Memory.writeL s.m.mem pc (leBytes 8 (n.count + 1)))) ∧
      (AtNode s vf w n 5 → if n.value ≤ x then Walks (.gwWaitStampNode vf) s vf (goto w n.next) s.m.mem else exec (.gwWaitStampNode vf) s = .fault .notEnabled)) ∧
    (w.room = false → AtNode s vf w n 4 →
      ((∀ e ∈ w.tracks, n.value.testBit e.1 = true → s.m.launch? vf e.2 = none) → Walks (.gwJoinNode vf) s vf (goto w n.next) s.m.mem) ∧
      ((∃ e ∈ w.tracks, e.1 < 16 ∧ n.value.testBit e.1 = true ∧ (s.m.launch? vf e.2).isSome = true) → exec (.gwJoinNode vf) s = .fault .notEnabled)) ∧
    (w.room = false → AtNode s vf w n 6 → exec (.gwSignalHostNode vf) s = .next (withM s
      ((s.m.postCompl vf [(leBytes 16 n.addr, false), (leBytes 8 n.value ++ leBytes 8 0, true)]).setWalker vf (some (goto w n.next))))) ∧
    (w.room = false → AtNode s vf w n 0 →
      ((∀ id ∈ w.placed, s.m.launch? vf id = none) → ∃ u, exec (.gwEndNode vf) s = .next u ∧ u.m.mem = s.m.mem ∧
        let ended := s.m.modFn vf (fun f => { f with walker := none, tracks := w.tracks })
        u.m.fns = (ended.finish w.cmd 1 0 0).fns ∧ u.m.host = (ended.finish w.cmd 1 0 0).host) ∧
      ((∃ id ∈ w.placed, (s.m.launch? vf id).isSome = true) → exec (.gwEndNode vf) s = .fault .notEnabled)) ∧
    ((s.m.fn vf).walker = some w → w.room = false → w.count ≤ w.node → exec (.gwEndNode vf) s = .next (withM s (s.m.stopRun s.clk vf w)))

/-- R170, R372: a launch with nothing left to run writes its group count, then its stamp (with bit 63 when it was killed), then is gone; while
something runs it does not complete. -/
def Sys2Proof.Claims.LaunchCompletion : Prop :=
  ∀ (vf : Nat) s l, s.m.launch? vf l.id = some l → l.fault = 0 →
    let finished := l.running = 0 ∧ l.held = [] ∧ (l.killed = true ∨ l.records = 0 ∧ l.count ≤ l.nextGroup)
    let next (v : Nat) (pa : Nat) : Prop := ∃ u, exec (.launchComplete vf l.id) s = .next u ∧ u.m.mem = Memory.writeL s.m.mem pa (leBytes 8 v) ∧
      u.m.fns = (s.m.modLaunch vf l.id (fun l => { l with closing := l.closing + 1, fault := 0 })).fns ∧ u.m.wgs = s.m.wgs
    (¬finished → exec (.launchComplete vf l.id) s = .fault .notEnabled) ∧
    (∀ pa, finished → NoMonitor s → (∀ e ∈ s.m.cores, e.2.l1 = []) → l.silent = false →
      (l.closing = 0 → l.hdr.gcount ≠ 0 → FwAt s vf l.hdr.gcount.toNat 8 [.write] pa → next l.count pa) ∧
      (l.closing = 1 → l.hdr.stamp ≠ 0 → FwAt s vf l.hdr.stamp.toNat 8 [.write] pa → next (if l.killed then l.stampVal.toNat ||| 2 ^ 63 else l.stampVal.toNat) pa)) ∧
    (finished → l.closing = 2 → l.logPages = [] → (s.m.fn vf).held = [] → exec (.launchComplete vf l.id) s =
      .next (withM s (s.m.modFn vf (fun f => { f with launches := f.launches.filter (·.id ≠ l.id) }))))

/-- What the graph walker does at each node, and how a launch ends. -/
def Obligations.WalkerAndLaunches : Prop := GraphWalker ∧ LaunchCompletion

/-- R8, R148 to R151, R173, R174, R426: the one source with one group left goes to the best core of the first die with room: the workgroup starts with
its threads at the entry point; nothing to send is no dispatch; a digest mismatch met again kills the launch; a gang records each
member's digest once, starts its workgroups at the tick when it is ready in time, and else is refused under check 10. -/
def Obligations.Dispatch : Prop :=
  ∀ (vf : Nat) s,
    (s.m.sources = [] → exec .globalDispatch s = .fault .notEnabled) ∧
    (∀ l d f core lv, s.m.sources = [{ vf, level := lv, launch := some l.id }] → s.m.launch? vf l.id = some l → 0 < (s.m.fn vf).weight →
      l.hdr.slotmask = 0 → l.hdr.ordered = false → l.hdr.pinned = false → l.gang = none → l.hdr.cspan = false → l.hdr.rollback = false → l.count = l.nextGroup + 1 →
      ((tget (s.m.fn vf).queues l.hdr.prio).getD []).length < 2 ^ ((s.m.fn vf).qk.getD l.hdr.prio 10) → s.m.roomDie vf l.hdr = some (d, f) → s.m.bestCore vf l.hdr (dieCores d) [] = some core →
      ∃ u seat w, exec .globalDispatch s = .next u ∧ s.m.seat? core l.hdr = some seat ∧ u.m.wg? core seat.slot = some w ∧ u.m.lastDie = d ∧ u.m.lastFn = vf ∧
        w.vf = vf ∧ w.launch = l.id ∧ w.hdr = l.hdr ∧ w.base = l.nextGroup * 2 ^ l.hdr.widths.headD 1 ∧ w.frame = BitVec.ofNat 80 (l.hdr.addr + 256) ∧
        w.threads.length = l.hdr.threads ∧ (∀ j, j < l.hdr.threads → let t := w.thread j
          t.pc = l.hdr.entry ∧ t.wid = (w.base + j) % 2 ^ 64 ∧ t.warp = j / 32 ∧ t.lane = j % 32 ∧ t.v = [] ∧ t.k = [] ∧ t.a = [] ∧ t.p = [] ∧ t.status = .ready) ∧
        ∃ l', u.m.launch? vf l.id = some l' ∧ l'.nextGroup = l.count ∧ l'.running = l.running + 1) ∧
    (∀ l, (s.m.fn vf).launches.find? (fun l => l.mism == some true && !l.killed) = some l →
      (s.m.digestsOk vf l.hdr = false → exec (.digestMismatchRetry vf) s = .next (withM s ((s.m.logErr s.clk vf 4 9 0 65535 0 l.hdr.addr).killLaunch vf l.id))) ∧
      (l.hdr.slotmask = 0 → s.m.launch? vf l.id = some l → l.count ≤ l.nextGroup → (s.m.fn vf).queue l.hdr.prio = [] →
        exec (.digestMismatchRetry vf) s = .next (withM s (s.m.modLaunch vf l.id (fun l => { l with mism := none }))))) ∧
    (∀ lid dev digest, exec (.gangDigest vf lid dev digest) s = .next (withM s (s.m.modLaunch vf lid (fun l => { l with gang := l.gang.map (fun g =>
      if dev ∈ g.members ∧ ∀ e ∈ g.got, e.1 ≠ dev then { g with got := g.got ++ [(dev, digest)] } else g) })))) ∧
    (∀ l g, s.m.launch? vf l.id = some l → l.gang = some g → g.started = false →
      let ready := g.placed = true ∧ ∀ d ∈ g.members, d ≠ s.m.devnum → (d, g.digest) ∈ g.got
      (ready → s.clk.time + 5000 ≤ g.tick → exec (.gangStart vf l.id) s = .next (withM s { (s.m.modLaunch vf l.id (fun l => { l with gang := some { g with started := true } })) with
        wgs := s.m.wgs.map (fun e => if e.2.vf = vf ∧ e.2.launch = l.id then (e.1, { e.2 with waitingGang := false, notBefore := max e.2.notBefore g.tick }) else e) })) ∧
      (¬ready ∨ g.tick < s.clk.time + 5000 → exec (.gangStart vf l.id) s = .fault .notEnabled) ∧
      (l.killed = false → g.tick < s.clk.time + 5000 → (∀ e ∈ s.m.wgs, e.2.launch ≠ l.id) → exec (.gangDeadline vf l.id) s =
        .next (withM s ((s.m.dropLaunch vf l.id).logErr s.clk vf 4 10 0 65535 0 l.hdr.addr))) ∧
      (s.clk.time + 5000 ≤ g.tick → exec (.gangDeadline vf l.id) s = .fault .notEnabled))

/-- R334, R346 to R350, R353, R400: the loader takes a request in its turn: a bad header is refused with code 2, a record that passes its checks
goes to the slot table; a core writes it into the shadow plane, which nothing is bound to, in 2,048 cycles and flips; an idle core passes to a function with the table's records;
the serial phase of an ordered launch applies the smallest key. -/
def Obligations.SlotEvents : Prop :=
  ∀ (vf core slot : Nat) s,
    (∀ q qs pa, (s.m.fn vf).loads = q :: qs → s.m.loaderTurn = some vf → q.fault = 0 → FwAt s vf q.addr 256 [.read] pa →
      let head := Memory.readN s.m.mem pa 256
      (∀ c, recordLen head = none → q.cmd = some c → s.m.wgs = [] → ∃ u e, exec (.loaderRequest vf) s = .next u ∧ (u.m.fn vf).loads = (q :: qs).filter (·.id ≠ q.id) ∧
        (u.m.fn vf).slots = (s.m.fn vf).slots ∧ (u.m.fn vf).log.getLast? = some e ∧ e.source = 3 ∧ e.code = 2 ∧ e.addr = q.addr) ∧
      (∀ n f, recordLen head = some n → FwAt s vf q.addr n [.read] pa → s.m.checkRecord vf q (Memory.readN s.m.mem pa n) = .ok f → s.m.planeCores vf = [] →
        s.m.wgs = [] →
        ∃ u, exec (.loaderRequest vf) s = .next u ∧ (u.m.fn vf).loads = (q :: qs).filter (·.id ≠ q.id) ∧ u.m.mem = s.m.mem ∧ u.m.lastLoader = vf ∧
          tget (u.m.fn vf).slots q.slot = some { fmt := some f, gen := (((tget (s.m.fn vf).slots q.slot).getD {}).gen + 1) % 65536 })) ∧
    ((s.m.fn vf).loads ≠ [] → s.m.loaderTurn ≠ some vf → exec (.loaderRequest vf) s = .fault .notEnabled) ∧
    (let p := s.m.planes core slot
     let has (x : Planes) : State := withM s (s.m.modCore core (fun c => { c with planes := tset c.planes slot x }))
     (∀ req f rest, p.todo = (req, f) :: rest →
        (p.writing = none → exec (.formatInstall core slot) s = if (s.m.core core).boundTo slot (1 - p.cv) none then .fault .notEnabled
          else .next (has { p with writing := some (s.clk.cycle + 2048) })) ∧
        (∀ till, p.writing = some till → (∀ x ∈ s.m.installs, x.req.id ≠ req) → exec (.formatInstall core slot) s =
          if s.clk.cycle < till then .fault .notEnabled
          else .next (has (if p.cv = 0 then { p with p1 := some f, cv := 1, todo := rest, writing := none } else { p with p0 := some f, cv := 0, todo := rest, writing := none })))) ∧
     (p.todo = [] → exec (.formatInstall core slot) s = .fault .notEnabled)) ∧
    (vf < 128 → (s.m.core core).planesOf ≠ some vf → (∀ e ∈ s.m.wgs, e.1 / 64 ≠ core) → (s.m.core core).mats = [] → (s.m.core core).drains = [] →
      (s.m.core core).copies = [] → (∀ e ∈ (s.m.core core).planes, e.2.todo = []) →
      exec (.coreFunctionChange core vf) s = .next (withM s (s.m.modCore core (fun c => { c with
        planes := ((s.m.fn vf).slots.filter (fun e => e.2.fmt.isSome)).map (fun e => (e.1, { p0 := e.2.fmt })), planesOf := some vf, stores := [], tlb := [] })))) ∧
    (∀ l o, s.m.launch? vf l.id = some l → l.held = [o] → l.own = [] → o.load = none → o.op = 0 → s.m.canPrecede vf l.id l o = false → NoMonitor s →
      (s.m.core o.core).l1 = [] → o.pa % 128 + o.data.length ≤ 128 → o.data ≠ [] → Memory.wf s.m.mem = true →
      ∃ u, exec (.serialPhaseApply vf l.id) s = .next u ∧ (∃ l', u.m.launch? vf l.id = some l' ∧ l'.held = []) ∧
        ∀ a, Memory.read u.m.mem a = if o.pa ≤ a ∧ a < o.pa + o.data.length then o.data.getD (a - o.pa) 0 else Memory.read s.m.mem a) ∧
    (∀ l, s.m.launch? vf l.id = some l → l.held = [] → exec (.serialPhaseApply vf l.id) s = .fault .notEnabled)

/-! ## Links, peers, upkeep of the device -/

namespace Sys2Proof.Claims

/-- The answer to a reservation or an abort: the zone's name and the status word of R437; and the answer to a payload (log 23). -/
def answer (name st slot : Nat) : List Byte := leBytes 1 7 ++ leBytes 8 name ++ leBytes 8 (st * 2 ^ 56 + slot)
def receipt (name i st : Nat) : List Byte := leBytes 1 8 ++ leBytes 8 name ++ leBytes 1 i ++ leBytes 1 st
/-- The machine with one more message to a peer device. -/
def tells (m : Mach) (dev : Nat) (bs : List Byte) : Mach := { m with linkOut := m.linkOut ++ [(dev, bs)] }
/-- A port after a good flit. -/
def cleared (s : State) (port : Nat) : State := withM s { s.m with portTries := sset 0 s.m.portTries port 0 }
/-- The machine with the slot `i` of the zone at `p` standing as `x`. -/
def slotNow (m : Mach) (vf : Nat) (p : ZPlace) (z : Zone) (i : Nat) (x : ZSlot) : Mach := m.putZone vf p { z with slots := setAt z.slots i x }
/-- No thread waits for the answer of a peer device. -/
def NoAsk (s : State) : Prop := ∀ e ∈ s.m.wgs, ∀ t ∈ e.2.threads, ∀ k, t.status ≠ .zoneWait none k
/-- A request the hub holds that waits only for die `die`, or for no die at all. -/
def plainInv (r : InvReq) : Prop := r.move = none ∧ r.release = []

end Sys2Proof.Claims

/-- R431, R432, R437, R440: a sender on another device reserves the lowest free slot, gives it up, and fills it; the last byte counts the arrival
and flips the phase when the target is reached; names that name no open zone, and slots that are not the sender's, are refused. A
reply gives its waiting threads their status word. -/
def Obligations.PeerZones : Prop :=
  ∀ (name i offset total : Nat) (data : List Byte) (x : Sender) s,
    let vf := name / 2 ^ 23 % 128
    (s.m.zoneReach name x = false ∨ s.m.findZone vf name = .stale →
      let m := s.m.logErr s.clk vf 8 3 0 65535 0 name
      exec (.lzReservationArrive name x) s = .next (withM s (tells m x.dev (answer name 3 0))) ∧
      exec (.lzAbortArrive name i x) s = .next (withM s (tells s.m x.dev (answer name 3 0))) ∧
      exec (.lzPayloadFlit name i offset total data x) s = .next (withM s (tells m x.dev (receipt name i 3)))) ∧
    (s.m.zoneReach name x = true → s.m.findZone vf name = .closed →
      exec (.lzReservationArrive name x) s = .next (withM s (tells s.m x.dev (answer name 2 0))) ∧
      exec (.lzAbortArrive name i x) s = .next (withM s (tells s.m x.dev (answer name 2 0))) ∧
      exec (.lzPayloadFlit name i offset total data x) s = .next (withM s (tells (s.m.logErr s.clk vf 8 2 0 65535 0 (s.m.closedSlotAt vf name i)) x.dev (receipt name i 2)))) ∧
    (∀ p z, s.m.zoneReach name x = true → s.m.findZone vf name = .at_ p z →
      let st (j : Nat) : ZState := (z.slots.getD j {}).state
      (i < z.slots.length → st i = .free → (∀ j, j < i → st j ≠ .free) →
        exec (.lzReservationArrive name x) s = .next (withM s (tells (slotNow s.m vf p z i { state := .reserved, sender := some x }) x.dev (answer name 0 i)))) ∧
      ((∀ y ∈ z.slots, y.state ≠ .free) → exec (.lzReservationArrive name x) s = .next (withM s (tells s.m x.dev (answer name 1 0)))) ∧
      (i < z.slots.length → st i = .reserved → (z.slots.getD i {}).sender = some x →
        exec (.lzAbortArrive name i x) s = .next (withM s (tells (slotNow s.m vf p z i {}) x.dev (answer name 0 0)))) ∧
      (z.slots.length ≤ i ∨ st i ≠ .reserved ∨ (z.slots.getD i {}).sender ≠ some x →
        exec (.lzAbortArrive name i x) s = .next (withM s (tells s.m x.dev (answer name 3 0)))) ∧
      (z.slots.length ≤ i ∨ (z.slots.getD i {}).sender ≠ some x ∨ (st i ≠ .reserved ∧ st i ≠ .filling) ∨ 1024 * 2 ^ z.size < total ∨ total < offset + data.length →
        exec (.lzPayloadFlit name i offset total data x) s =
          .next (withM s (tells (s.m.logErr s.clk vf 8 3 0 65535 0 (z.base + i * (1024 * 2 ^ z.size))) x.dev (receipt name i 3)))) ∧
      (∀ core slot k, p = .live core slot k → i < z.slots.length → (z.slots.getD i {}).sender = some x → (st i = .reserved ∨ st i = .filling) →
        total ≤ 1024 * 2 ^ z.size → offset + data.length ≤ total → (∀ w, s.m.wg? core slot = some w → w.tags = []) →
        let y := z.slots.getD i {}
        let m := s.m.scratchWrite core slot (z.base + i * (1024 * 2 ^ z.size) + offset) data
        (y.got + data.length < total → exec (.lzPayloadFlit name i offset total data x) s =
          .next (withM s (slotNow m vf p z i { y with state := .filling, got := y.got + data.length }))) ∧
        (total ≤ y.got + data.length → exec (.lzPayloadFlit name i offset total data x) s = .next (withM s (tells (m.putZone vf p
          { z with slots := setAt z.slots i { y with state := .arrived, got := 0 }, phase := if z.pend ≤ 1 then !z.phase else z.phase,
                   pend := if z.pend ≤ 1 then z.target else z.pend - 1 }) x.dev (receipt name i (if y.marred then 3 else 0))))))) ∧
    (∀ core slot j w kd, s.m.wg? core slot = some w → (w.thread j).status = .zoneWait none kd → ∀ status, status < 64 →
      exec (.lzReservationReply core slot j status i) s = .next (withM s (s.m.setWg core slot { w with threads := w.threads.map (fun t =>
        if t.status = .zoneWait none kd ∧ t.since = (w.thread j).since then
          if kd / 32 % 2 = 1 ∧ status = 1 then { t with status := .ready }
          else ({ t with status := .ready }.setK (kd % 32) (BitVec.ofNat 64 (status * 2 ^ 56 + i))).advance 8
        else t) }))) ∧
    (∀ core slot j w, s.m.wg? core slot = some w → (∀ kd, (w.thread j).status ≠ .zoneWait none kd) → ∀ status,
      exec (.lzReservationReply core slot j status i) s = .fault .notEnabled)

/-- R421 to R424, R427, R428: a good flit resets its port's count of failures and carries its message to the unit it is for, a bad one counts;
the time reference sets the counter forward once; a port that goes down breaks the channels whose peer it cuts off and elects the time
reference anew; a peer's read, write and atomic act on this device's memory under the function's rights, and are answered. -/
def Obligations.LinksAndPeers : Prop :=
  ∀ (port vf ch dev va : Nat) s,
    (∀ body, exec (.flitReceive port false body) s = .next (withM s { s.m with portTries := sset 0 s.m.portTries port (sget 0 s.m.portTries port + 1) })) ∧
    exec (.flitReceive port true .empty) s = .next (cleared s port) ∧
    (∀ bs, vf < 65536 → ch < 65536 →
      exec (.flitReceive port true (.data (leBytes 1 1 ++ leBytes 2 vf ++ leBytes 2 ch ++ bs))) s = exec (.channelFlitArrive vf ch bs) (cleared s port)) ∧
    (∀ n, vf < 65536 → ch < 65536 → n < 2 ^ 32 →
      exec (.flitReceive port true (.data (leBytes 1 2 ++ leBytes 2 vf ++ leBytes 2 ch ++ leBytes 4 n))) s = exec (.channelCreditReturn vf ch n) (cleared s port)) ∧
    (∀ x, dev ≠ s.m.timeRef ∨ dev = s.m.devnum → exec (.timeSync dev x) s = .next s) ∧
    (∀ x, dev = s.m.timeRef → dev ≠ s.m.devnum →
      (tget s.m.due 3 = none → s.m.nextId = 0 → s.clk.time ≤ x →
        ∃ u, exec (.timeSync dev x) s = .next u ∧ u.clk = { s.clk with time := x } ∧ u.agenda = s.agenda ∧ u.m = { s.m with due := tset s.m.due 3 1 }) ∧
      (0 < s.m.nextId → exec (.timeSync dev x) s = .next (withM s { s.m with slew := (x : Int) - (s.clk.time : Int) }))) ∧
    (144 ≤ port ∨ port ∈ s.m.portsDown → exec (.portDown port) s = .fault .notEnabled) ∧
    (port < 144 → port ∉ s.m.portsDown → NoAsk s → s.m.moving = [] → (∀ e ∈ s.m.wgs, e.2.zones = []) → (∀ e ∈ s.m.fns, e.2.images = []) → sortedFrom none s.m.fns = true →
      (∀ e ∈ s.m.fns, sortedFrom none e.2.chans = true) →
      let gone (d : Nat) : Prop := ∀ ps, tget s.m.routes d = some ps → ∀ q ∈ ps, 144 ≤ q ∨ q = port ∨ q ∈ s.m.portsDown
      ∃ u, exec (.portDown port) s = .next u ∧ u.clk = s.clk ∧ (∀ q, q ∈ u.m.portsDown ↔ q = port ∨ q ∈ s.m.portsDown) ∧ u.m.routes = s.m.routes ∧
        (∀ c, s.m.chan? vf ch = some c →
          (c.x = true → c.state ≠ 3 → gone c.peer → u.m.chan? vf ch = some { c with state := 3, spoolWait := false, sent := c.sent % 2 ^ 32 }) ∧
          (c.x = false ∨ c.state = 3 ∨ ¬gone c.peer → u.m.chan? vf ch = some c)) ∧
        u.m.timeRef ≤ s.m.devnum ∧ (∀ d ps, tget s.m.routes d = some ps → ¬gone d → u.m.timeRef ≤ d)) ∧
    (port ∈ s.m.portsDown → ∃ u, exec (.portUp port) s = .next u ∧ u.m.mem = s.m.mem ∧ u.m.fns = s.m.fns ∧ u.m.wgs = s.m.wgs ∧ u.m.cores = s.m.cores ∧
      ∀ q, q ∈ u.m.portsDown ↔ q ≠ port ∧ q ∈ s.m.portsDown) ∧
    (port ∉ s.m.portsDown → exec (.portUp port) s = .fault .notEnabled) ∧
    (∀ op, (s.m.fn vf).domain = none → exec (.remoteAccessRequest dev vf va op) s = .next (withM s (tells s.m dev [16, 1]))) ∧
    ((s.m.fn vf).domain ≠ none →
      let does (op : RemoteOp) (mem : List Host.Cell) (bs : List Byte) : Prop := ∃ u, exec (.remoteAccessRequest dev vf va op) s = .next u ∧
        u.m.mem = mem ∧ u.m.linkOut = s.m.linkOut ++ [(dev, [16, 0] ++ bs)] ∧ u.m.fns = s.m.fns ∧ u.m.wgs = s.m.wgs ∧ (∀ k, u.m.core k = s.m.core k) ∧ u.clk = s.clk
      (∀ n pa, FwAt s vf va n [.read] pa → does (.read n) s.m.mem (Memory.readN s.m.mem pa n)) ∧
      (∀ d pa, FwAt s vf va d.length [.write] pa → NoMonitor s → does (.write d) (Memory.writeL s.m.mem pa d) []) ∧
      (∀ o t v pa, FwAt s vf va (tyBytes t) [.read, .write] pa → NoMonitor s → let old := Memory.readN s.m.mem pa (tyBytes t)
        does (.atomic o t v) (Memory.writeL s.m.mem pa (leBytes (tyBytes t) (atomStep o t (leNat old) v))) old) ∧
      (∀ d, d ≠ [] → va % 65536 + d.length ≤ 65536 →
        (translate s.m vf va .write = .noTranslation → exec (.remoteAccessRequest dev vf va (.write d)) s = .next (withM s (tells s.m dev [16, 2]))) ∧
        (translate s.m vf va .write = .violation → exec (.remoteAccessRequest dev vf va (.write d)) s = .next (withM s (tells s.m dev [16, 1])))))

/-- R234 to R237, R388, R414, R416 to R420: a die drops the translations a request names, walks its buffered stores again, and acknowledges; not
before a store that no walk takes anywhere any more has been performed; when all eight, and every device named, have, the request's
number goes to its completion word; a due page is given a place on the die that uses it; one that has not moved for 10 ms has its counter
cleared; the average power over the last 100 samples decides a throttle stage; a core with too many errors is fenced. -/
def Obligations.DeviceUpkeep : Prop :=
  ∀ (die vf page watts core : Nat) s,
    (∀ a r b, s.m.hub = a ++ r :: b → a.length < 16 → (∀ x ∈ a, die ∈ x.acks) → die ∉ r.acks → (∀ x ∈ a ++ b, x.vf ≠ r.vf ∨ x.seq ≠ r.seq) → die < 8 →
      (s.m.mustDrain r die = true → exec (.invalidationBroadcast die) s = .fault .notEnabled) ∧
      (s.m.mustDrain r die = false → (∀ e ∈ s.m.cores, e.2.l1 = []) → sortedFrom none s.m.cores = true → (∀ i ∈ (s.m.fn r.vf).images, i.wg.sbuf = []) →
        (∀ l ∈ (s.m.fn r.vf).launches, l.held = []) →
      ∃ u, exec (.invalidationBroadcast die) s = .next u ∧ u.m.hub = a ++ { r with acks := r.acks ++ [die] } :: b ∧ u.m.mem = s.m.mem ∧ (∀ k, u.m.fn k = s.m.fn k) ∧
        u.m.wgs = s.m.wgs.map (fun e => if e.2.vf = r.vf ∧ e.1 / 64 / 160 = die then
          (e.1, { e.2 with sbuf := e.2.sbuf.map (fun b => b.rewalked s.m r (e.1 / 64)) }) else e) ∧
        ∀ k, (k / 160 ≠ die ∨ (s.m.core k).planesOf ≠ some r.vf → u.m.core k = s.m.core k) ∧
          (k / 160 = die → (s.m.core k).planesOf = some r.vf →
            let c := s.m.core k
            let gone := c.tlb.filter (fun t => r.names t.1 t.2 && !t.2.rm)
            u.m.core k = { c with tlb := c.tlb.filter (fun t => !r.names t.1 t.2), icache := c.icache.filter (fun x =>
              !(gone.map (fun t => t.2.pa (t.1 * 65536) / 65536)).contains (x.1 / 8192)) }) ∧
          (sortedFrom none (s.m.core k).tlb = true → k / 160 = die → (s.m.core k).planesOf = some r.vf → r.move = none →
            ∀ p, tget (s.m.core k).tlb page = some p → p.large = false →
              tget (u.m.core k).tlb page = if r.count = 0 ∨ (page + 2 ^ 64 - r.base / 65536) % 2 ^ 64 < r.count then none else some p))) ∧
    ((8 ≤ die ∨ ∀ x ∈ s.m.hub, die ∈ x.acks) → exec (.invalidationBroadcast die) s = .fault .notEnabled) ∧
    (∀ r, s.m.hub = [r] → plainInv r →
      ((∃ d, d < 8 ∧ d ∉ r.acks) ∨ (∃ d ∈ r.devs, s.m.unreachable d = false) → exec .invalidationComplete s = .fault .notEnabled) ∧
      ((∀ d, d < 8 → d ∈ r.acks) → r.devs = [] → ∀ a pa, r.word = some a → FwAt s r.vf a 8 [.write] pa → NoMonitor s →
        ∃ u, exec .invalidationComplete s = .next u ∧ u.m.hub = [] ∧ u.m.mem = Memory.writeL s.m.mem pa (leBytes 8 r.seq) ∧ u.m.wgs = s.m.wgs ∧
          (r.cmd = none → u.m.fns = s.m.fns ∧ u.m.host = s.m.host) ∧
          (∀ c op, r.cmd = some (c, op) → u.m.fns = (s.m.finish c op 0 0).fns ∧ u.m.host = (s.m.finish c op 0 0).host))) ∧
    (s.clk.time / 1000000 ≤ (tget s.m.due 1).getD 0 → exec .migrationWindow s = .fault .notEnabled) ∧
    ((tget s.m.due 1).getD 0 < s.clk.time / 1000000 →
      ((∀ e ∈ s.m.access, s.m.dueFor (e.1 / 4096) = none) →
        exec .migrationWindow s = .next (withM s { s.m with access := [], due := tset s.m.due 1 (s.clk.time / 1000000) })) ∧
      (∀ agent a new m, (∀ e ∈ s.m.access, e.1 / 4096 = page) → tget s.m.frameOf (page / 512) = some vf → s.m.dueFor page = some agent → agent < 16 →
        s.m.entriesOf vf page = [a] → s.m.physNat a 16 / 2 ^ 9 % 2 = 0 → s.m.physNat a 16 / 2 ^ 10 % 8 ≠ 4 → s.m.hub = [] → s.m.pageOn vf agent = some (new, m) → (m.fn vf).domain = none →
        let r : InvReq := { vf, base := 0, count := 0, seq := (m.fn vf).invSeq + 1, word := none, cmd := none, move := some (page, new) }
        let counted := m.modFn vf (fun f => { f with invSeq := f.invSeq + 1 })
        exec .migrationWindow s = .next (withM s { counted with hub := m.hub ++ [r], access := [], due := tset m.due 1 (s.clk.time / 1000000) }))) ∧
    (∀ t, tget s.m.lastMove page = some t →
      (s.clk.time < t + 10000000 → exec (.migSettle vf page) s = .fault .notEnabled) ∧
      (t + 10000000 ≤ s.clk.time → ∀ a, s.m.entriesOf vf page = [a] → let e := s.m.physNat a 16
        let cells := if e / 512 % 2 = 1 then s.m.mem else Memory.writeL s.m.mem a (leBytes 16 (e - e / 1024 % 8 * 1024))
        exec (.migSettle vf page) s = .next (withM s { s.m with lastMove := terase s.m.lastMove page, mem := cells }))) ∧
    (tget s.m.lastMove page = none → exec (.migSettle vf page) s = .fault .notEnabled) ∧
    (s.clk.time / 10000 ≤ (tget s.m.due 2).getD 0 → exec (.powerSample watts) s = .fault .notEnabled) ∧
    ((tget s.m.due 2).getD 0 < s.clk.time / 10000 →
      let xs := (s.m.powerSum ++ [watts]).drop (s.m.powerSum.length + 1 - 100)
      let noted := { s.m with powerSum := xs, due := tset s.m.due 2 (s.clk.time / 10000) }
      ((s.m.limit - 50) * xs.length ≤ xs.foldl (· + ·) 0 → xs.foldl (· + ·) 0 ≤ s.m.limit * xs.length → exec (.powerSample watts) s = .next (withM s noted)) ∧
      (s.m.limit * xs.length < xs.foldl (· + ·) 0 → s.m.powerStage < s.m.tokens - 1 → ∃ u, exec (.powerSample watts) s = .next u ∧
        u.m.powerStage = s.m.powerStage + 1 ∧ u.m.powerSum = xs ∧ u.m.mem = s.m.mem ∧ u.m.cores = s.m.cores ∧ ∀ d, d < 8 → let r := s.m.ring d
          u.m.ring d = { r with ring := r.ring.take (r.ring.length - 1), retire := r.retire + (1 - r.ring.length) }) ∧
      (xs.foldl (· + ·) 0 < (s.m.limit - 50) * xs.length → 0 < s.m.powerStage → s.m.powerStage ≤ s.m.tokens - 1 → ∃ u, exec (.powerSample watts) s = .next u ∧
        u.m.powerStage = s.m.powerStage - 1 ∧ u.m.powerSum = xs ∧ u.m.mem = s.m.mem ∧ u.m.cores = s.m.cores ∧ ∀ d, d < 8 → let r := s.m.ring d
          u.m.ring d = { r with retire := r.retire - 1, ring := r.ring ++ List.replicate (1 - r.retire) 0 })) ∧
    (core < 1280 → (s.m.core core).fenced = false → Config.errorThreshold < (s.m.core core).errors → NoMonitor s → (∀ e ∈ s.m.fns, core ∉ e.2.ownedCores) →
      sortedFrom none s.m.wgs = true → (∀ e ∈ s.m.wgs, e.1 / 64 = core → e.2.hdr.pinned = false ∧ e.2.hdr.cspan = false) →
      ∃ u, exec (.coreFence core) s = .next u ∧ (u.m.core core) = { s.m.core core with fenced := true } ∧
        u.m.mem = Memory.writeL s.m.mem (mirrorBase + 256 + core / 8) [BitVec.ofNat 8 ((Memory.read s.m.mem (mirrorBase + 256 + core / 8)).toNat ||| 2 ^ (core % 8))] ∧
        u.m.fns = s.m.fns ∧ u.m.wgs = s.m.wgs.map (fun e => (e.1, if e.1 / 64 = core ∧ e.2.killed = false ∧ e.2.ending = false ∧ e.2.leaving = 0
          then { e.2 with leaving := 1 } else e.2))) ∧
    ((s.m.core core).fenced = true ∨ (s.m.core core).errors ≤ Config.errorThreshold → exec (.coreFence core) s = .fault .notEnabled)

/-! ## The host's registers, a function's commands, the physical function's commands -/

namespace Sys2Proof.Claims

/-- Bytes a completion carries (R445). -/
def completion (c : Cmd) (op st v : Nat) : List Byte := leBytes 2 c.tag ++ leBytes 1 op ++ leBytes 1 st ++ leBytes 4 0 ++ leBytes 8 v
/-- The command is of a virtual function that is active. -/
def Active (s : State) (c : Cmd) : Prop := c.ring < 128 ∧ (s.m.fn c.ring).state = 1
/-- The command ends with a status and a value: the next state is `m`, with the completion written. -/
def Ends (i : Instr) (s : State) (c : Cmd) (op st v : Nat) (m : Mach) : Prop := Machine.exec i s = .next (withM s (m.finish c op st v))
/-- A virtual function's command is malformed on the physical ring (status 2) and refused for a function that is not active (status 3). -/
def Guarded (i : Instr) (s : State) (c : Cmd) (op : Nat) : Prop :=
  (128 ≤ c.ring → Ends i s c op 2 0 s.m) ∧ (c.ring < 128 → (s.m.fn c.ring).state ≠ 1 → Ends i s c op 3 0 s.m)
/-- A physical-function command is malformed on another ring (status 2), and for a function that does not exist (status 1). -/
def PfGuarded (i : Instr) (s : State) (c : Cmd) (op : Nat) : Prop :=
  (c.ring ≠ 128 → Ends i s c op 2 0 s.m) ∧ (c.ring = 128 → 128 ≤ c.target → Ends i s c op 1 0 s.m)
/-- The machine with one function changed. -/
def fnNow (s : State) (vf : Nat) (f : Fn) : Mach := s.m.setFn vf f
/-- A report command stores `bs` at `pa` and completes. -/
def Reports (i : Instr) (s : State) (c : Cmd) (op pa v : Nat) (bs : List Byte) : Prop :=
  ∃ u, Machine.exec i s = .next u ∧ u.clk = s.clk ∧ u.m.mem = Memory.writeL s.m.mem pa bs ∧ u.m.host = (s.m.finish c op 0 v).host ∧
    u.m.fns = (s.m.finish c op 0 v).fns ∧ u.m.wgs = s.m.wgs
/-- Bytes with the identity key's signature over them. -/
def signedBy (bs : List Byte) : List Byte := bs ++ beBytes 64 (Config.identitySign (leNat (sha256 bs)))
/-- `n` bytes at `va` are readable by the function, and are `bs`. -/
def Readable (s : State) (vf va n : Nat) (bs : List Byte) : Prop := ∃ pa, FwAt s vf va n [.read] pa ∧ bs = Memory.readN s.m.mem pa n
/-- The digests of the function's slots. -/
def slotDigests (s : State) (vf : Nat) : List (Option Nat) :=
  (upFrom 0 16).map (fun n => if n < 3 then some (Config.romDigest n) else ((s.m.fn vf).slotEntry n).fmt.map (·.digest))

end Sys2Proof.Claims

/-- R444, R445: the base, size and mask registers keep what is written, and no other offset is changed; the tail doorbell reads the new
commands in ring order and moves the head; a completion goes to its place in the ring, moves the tail and raises its interrupt, or is
kept while the ring has no room; a new head lets it be written. -/
def Obligations.HostRegisters : Prop :=
  ∀ (fn off v k t : Nat) s, let f := s.m.fn fn
    (off = 0x10 ∨ off = 0x30 → exec (.registerWrite fn off v) s = .next (withM s (fnNow s fn { f with regs := tset f.regs off (BitVec.ofNat 64 v) }))) ∧
    (off = 0x18 ∨ off = 0x38 → exec (.registerWrite fn off v) s = .next (withM s (fnNow s fn { f with regs := tset f.regs off (BitVec.ofNat 64 (v % 16)) }))) ∧
    (off = 0x68 → exec (.registerWrite fn off v) s = .next (withM s (fnNow s fn { f with regs := tset f.regs off (BitVec.ofNat 64 (v % 8)) }))) ∧
    (off ∉ [0x10, 0x18, 0x30, 0x38, 0x68] → exec (.registerWrite fn off v) s = .next s) ∧
    (4 ≤ k → k ≤ 12 → (tget f.regs 0x18).getD 0 = BitVec.ofNat 64 k →
      let base := ((tget f.regs 0x10).getD 0).toNat
      let head := ((tget f.regs 0x28).getD 0).toNat % 2 ^ k
      exec (.cqtailDoorbell fn v) s = .next (withM s (fnNow s fn { f with
        regs := tset f.regs 0x28 (BitVec.ofNat 64 (v % 2 ^ k)),
        cmds := f.cmds ++ (List.range ((v % 2 ^ k + 2 ^ k - head) % 2 ^ k)).map (fun j => HostMem.readN s.m.host (base + 64 * ((head + j) % 2 ^ k)) 64) }))) ∧
    (((tget f.regs 0x18).getD 0).toNat % 16 < 4 ∨ 12 < ((tget f.regs 0x18).getD 0).toNat % 16 → exec (.cqtailDoorbell fn v) s = .next s) ∧
    (f.compl = [] → exec (.cpheadWrite fn v) s = .next (withM s (fnNow s fn { f with regs := tset f.regs 0x40 (BitVec.ofNat 64 v) }))) ∧
    (∀ (c : Cmd) op st x, c.ring = fn → 4 ≤ k → k ≤ 12 → (tget f.regs 0x38).getD 0 = BitVec.ofNat 64 k → (tget f.regs 0x48).getD 0 = BitVec.ofNat 64 t → t < 2 ^ k →
      let head := ((tget f.regs 0x40).getD 0).toNat % 2 ^ k
      let base := ((tget f.regs 0x30).getD 0).toNat
      let written (host : List Host.Cell) (m : Mach) : Mach := { m with host := HostMem.writeL host (base + 16 * t) (completion c op st x) }
      let moved := { f with regs := tset f.regs 0x48 (BitVec.ofNat 64 ((t + 1) % 2 ^ k)) }
      (f.compl = [] → (t + 1) % 2 ^ k ≠ head →
        (c.irq = false → s.m.finish c op st x = written s.m.host (fnNow s fn moved)) ∧
        (c.irq = true → s.m.finish c op st x = (written s.m.host (fnNow s fn moved)).postHost fn 0 [])) ∧
      ((t + 1) % 2 ^ k = head → s.m.finish c op st x = fnNow s fn { f with compl := f.compl ++ [(completion c op st x, c.irq)] }) ∧
      ((t + 1) % 2 ^ k = head → f.compl = [(completion c op st x, false)] → (t + 1) % 2 ^ k ≠ v % 2 ^ k → v < 2 ^ 64 →
        exec (.cpheadWrite fn v) s = .next (withM s (written s.m.host (fnNow s fn
          { f with compl := [], regs := tset (tset f.regs 0x40 (BitVec.ofNat 64 v)) 0x48 (BitVec.ofNat 64 ((t + 1) % 2 ^ k)) })))))

/-- R176, R267 to R269, R345, R346, R354, R416, R446, R451: the commands of a virtual function: each guarded by its ring and its function's state;
malformed operands end with status 1, what the state refuses with status 5, the rest has its effect and ends with status 0, at once or when its
work is done. -/
def Obligations.FunctionCommands : Prop :=
  ∀ (c : Cmd) (a b n x : Nat) s, let f := s.m.fn c.ring
    (Guarded (.graphRun c a b n) s c 0x01 ∧ Guarded (.formatRecordLoad c n a) s c 0x02 ∧ Guarded (.channelCreate c n x a) s c 0x03 ∧
      Guarded (.channelReopen c n) s c 0x04 ∧ Guarded (.channelDestroy c n) s c 0x05 ∧ Guarded (.keyEnrol c n x) s c 0x06 ∧ Guarded (.keyRemove c n) s c 0x07 ∧
      Guarded (.slotAttestation c n a) s c 0x08 ∧ Guarded (.readCounters c a) s c 0x0A ∧ Guarded (.invalidate c a n b) s c 0x0B) ∧
    (Active s c →
      (if a % 64 ≠ 0 ∨ b = 0 ∨ 65536 < b then Ends (.graphRun c a b n) s c 0x01 1 0 s.m
       else if f.walker = none ∧ f.runs = [] then
         exec (.graphRun c a b n) s = .next (withM s (fnNow s c.ring { f with walker := some { graph := BitVec.ofNat 80 a, count := b, node := n, cmd := c, tracks := f.tracks } }))
       else exec (.graphRun c a b n) s = .next (withM s (fnNow s c.ring { f with runs := f.runs ++ [(c, a, b, n)] }))) ∧
      (if n < 3 ∨ 15 < n ∨ a % 64 ≠ 0 then Ends (.formatRecordLoad c n a) s c 0x02 1 0 s.m
       else exec (.formatRecordLoad c n a) s = .next (withM s { (fnNow s c.ring { f with
         loads := f.loads ++ [{ id := s.m.nextId, slot := n, addr := a % 2 ^ 80, cmd := some c }] }) with nextId := s.m.nextId + 1 })) ∧
      (let ch : Chan := { t := x.testBit 61, x := x.testBit 60, peer := x / 2 ^ 49 % 2048, esize := x / 2 ^ 32 % 65536 + 1, bob := x / 2 ^ 28 % 16,
                          smax := x / 2 ^ 23 % 32, scur := x / 2 ^ 18 % 32, home := x / 2 ^ 15 % 8, spool := BitVec.ofNat 80 a,
                          credits := 4096 * 2 ^ (x / 2 ^ 28 % 16) / (x / 2 ^ 32 % 65536 + 1) + spoolBytes (x / 2 ^ 18 % 32) / (x / 2 ^ 32 % 65536 + 1) }
       let sizes := (if ch.t then 128 ∣ ch.esize ∧ ch.esize ≤ 4096 * 2 ^ ch.bob else 4 ∣ ch.esize ∧ ch.esize ≤ 256 ∧ 32 * ch.esize ≤ 4096 * 2 ^ ch.bob) ∧
         ch.bob ≤ 6 ∧ ch.smax ≤ 19 ∧ ch.scur ≤ ch.smax ∧ (ch.scur = 0 ∨ ch.esize ≤ spoolBytes ch.scur) ∧ a % 2 ^ 80 % 65536 = 0
       let room := s.m.bobbinsOn ch.home + 4096 * 2 ^ ch.bob ≤ 8388608
       (4095 < n → Ends (.channelCreate c n x a) s c 0x03 1 0 s.m) ∧
       (n ≤ 4095 → s.m.chan? c.ring n ≠ none ∨ ¬sizes ∨ ¬room → Ends (.channelCreate c n x a) s c 0x03 5 0 s.m) ∧
       (n ≤ 4095 → s.m.chan? c.ring n = none → sizes → room →
         (ch.scur = 0 → Ends (.channelCreate c n x a) s c 0x03 0 0 (fnNow s c.ring { f with chans := tset f.chans n ch })) ∧
         (∀ m, s.m.mapSpool c.ring (a % 2 ^ 80) (spoolPages ch.scur) = some m → Ends (.channelCreate c n x a) s c 0x03 0 0 (m.setChan c.ring n ch)) ∧
         (s.m.mapSpool c.ring (a % 2 ^ 80) (spoolPages ch.scur) = none → Ends (.channelCreate c n x a) s c 0x03 4 0 s.m))) ∧
      (s.m.chan? c.ring n = none → Ends (.channelReopen c n) s c 0x04 5 0 s.m ∧ Ends (.channelDestroy c n) s c 0x05 5 0 s.m) ∧
      (∀ ch, s.m.chan? c.ring n = some ch →
        (ch.wbind ≠ none ∨ ch.rbind ≠ none → Ends (.channelReopen c n) s c 0x04 5 0 s.m ∧ Ends (.channelDestroy c n) s c 0x05 5 0 s.m) ∧
        (ch.wbind = none → ch.rbind = none →
          (ch.state = 2 ∨ ch.state = 3 → Ends (.channelReopen c n) s c 0x04 0 0 (fnNow s c.ring { f with chans := tset f.chans n { ch with state := 1 } })) ∧
          (ch.state ≠ 2 → ch.state ≠ 3 → Ends (.channelReopen c n) s c 0x04 5 0 s.m) ∧
          (ch.scur = 0 → Ends (.channelDestroy c n) s c 0x05 0 0 (fnNow s c.ring { f with chans := terase f.chans n })))) ∧
      (if 7 < n then Ends (.keyEnrol c n x) s c 0x06 1 0 s.m ∧ Ends (.keyRemove c n) s c 0x07 1 0 s.m
       else Ends (.keyEnrol c n x) s c 0x06 0 0 (fnNow s c.ring { f with keys := tset f.keys n x }) ∧
         Ends (.keyRemove c n) s c 0x07 0 0 (fnNow s c.ring { f with keys := terase f.keys n })) ∧
      (if a % 65536 ≠ 0 ∨ 4096 < n then Ends (.invalidate c a n b) s c 0x0B 1 0 s.m
       else f.domain = none → exec (.invalidate c a n b) s = .next (withM s { (fnNow s c.ring { f with invSeq := f.invSeq + 1 }) with
         hub := s.m.hub ++ [{ vf := c.ring, base := a, count := n, seq := f.invSeq + 1, word := some b, cmd := some (c, 0x0B) }] })) ∧
      (NoMonitor s → ∀ pa,
        (∀ bs : List Byte, bs = [0x41, 0x53, 1] ++ leBytes 1 c.ring ++ leBytes 4 0 ++ leBytes 8 s.clk.time ++ List.replicate 16 0 ++ leBytes 32 n ++
            ((upFrom 0 16).map (fun j => if j < 3 then slotReport (some (romFmt j)) 0 else slotReport (f.slotEntry j).fmt (f.slotEntry j).gen)).flatten →
          FwAt s c.ring a (signedBy bs).length [.write] pa → Reports (.slotAttestation c n a) s c 0x08 pa 0 (signedBy bs)) ∧
        (∀ bs : List Byte, bs = [0x41, 0x44, 1] ++ leBytes 1 c.ring ++ leBytes 2 s.m.devnum ++ leBytes 2 (s.m.cores.filter (·.2.fenced)).length ++ leBytes 8 s.clk.time ++
            leBytes 8 Config.serialNumber ++ leBytes 4 Config.fwSecver ++ leBytes 4 (bit s.m.lastTestOk + 2 * bit f.scrubbed) ++ leBytes 32 n ++
            leBytes 32 Config.fwDigest ++ leBytes 32 Config.bootDigest ++ sha256 (keyBytes Config.identityKey) ++ List.replicate 32 0 →
          FwAt s c.ring a (signedBy bs).length [.write] pa → Reports (.deviceAttestation c n a) s c 0x09 pa 0 (signedBy bs)) ∧
        (let open_ := f.chans.filter (fun e => e.2.state == 1)
         let pinned := ((s.m.wgs.filter (fun e => e.2.vf == c.ring)).map (·.2) ++ f.images.map (·.wg)).filter (fun w => w.hdr.pinned)
         ∀ bs : List Byte, bs = (open_.map (fun e => leBytes 8 e.1 ++ leBytes 8 e.2.emptyns ++ leBytes 8 e.2.fullns) ++
            pinned.map (fun w => leBytes 8 w.base ++ leBytes 8 w.stallSlots ++ leBytes 8 w.stallEmpty ++ leBytes 8 w.stallFull)).flatten →
          FwAt s c.ring a bs.length [.write] pa → Reports (.readCounters c a) s c 0x0A pa (open_.length + 2 ^ 32 * pinned.length) bs)) ∧
      (a % 65536 + 512 ≤ 65536 → translate s.m c.ring a .write = .noTranslation → Ends (.deviceAttestation c n a) s c 0x09 5 0 s.m)) ∧
    (c.ring < 128 → f.state ≠ 1 → Ends (.deviceAttestation c n a) s c 0x09 3 0 s.m)

/-- R234, R447, R460 to R463: set entries writes the entries in page order when every one passes its checks, else names the first that does not;
taking something away goes through the hub; translate refuses what it cannot read and what the translator refuses, answers from an image
the function already sees, and delays one it does not until its stored translation time has passed. -/
def Obligations.TableCommands : Prop :=
  ∀ (c : Cmd) (base count flags array module binding code : Nat) s, let f := s.m.fn c.ring
    Guarded (.setEntries c base count flags array) s c 0x0D ∧ Guarded (.translate c module binding code) s c 0x0C ∧
    (Active s c →
      (base % 65536 ≠ 0 ∨ count = 0 ∨ 4096 < count ∨ 3 < flags → Ends (.setEntries c base count flags array) s c 0x0D 1 0 s.m) ∧
      (base % 65536 = 0 → 0 < count → count ≤ 4096 → flags ≤ 3 →
        let es := (List.range count).map (fun i => leNat (HostMem.readN s.m.host (array + 16 * i) 16))
        (∀ i, i < count → s.m.entryOk c.ring (flags % 2 = 1) es (base / 65536) i = false → (∀ j, j < i → s.m.entryOk c.ring (flags % 2 = 1) es (base / 65536) j = true) →
          Ends (.setEntries c base count flags array) s c 0x0D 5 i s.m) ∧
        (∀ at_ e, count = 1 → flags = 0 → es = [e] → s.m.entryOk c.ring false es (base / 65536) 0 = true → s.m.buildTo c.ring (base % 2 ^ 80) = some (at_, s.m) →
          e / 2 ^ 10 % 8 = 0 → Memory.wf s.m.mem = true →
          let old := s.m.physNat at_ 16
          let page := e / 2 ^ 16 % 2 ^ 36
          let names (p : Nat) : Bool := (e % 2 = 1 ∨ e / 2 ^ 76 % 4 = 1) ∧ e / 2 ^ 75 % 2 = 0 ∧ if e / 4 % 2 = 1 then p / 512 = page / 512 else p = page
          let wrote := { (fnNow s c.ring { f with evicted := terase f.evicted at_, freePages := f.freePages.filter (fun p => ¬names p) }) with mem := Memory.writeL s.m.mem at_ (leBytes 16 e) }
          entryAt wrote c.ring (base % 2 ^ 80) = some at_ →
          (takesAway old e = false → Ends (.setEntries c base count flags array) s c 0x0D 0 0 wrote) ∧
          (takesAway old e = true → f.domain = none → exec (.setEntries c base count flags array) s = .next (withM s { (wrote.modFn c.ring (fun f => { f with invSeq := f.invSeq + 1 })) with
            hub := s.m.hub ++ [{ vf := c.ring, base, count := 1, seq := f.invSeq + 1, word := none, cmd := some (c, 0x0D) }] })) ∧
          (old % 2 = 0 → takesAway old e = false) ∧ (old % 2 = 1 → e % 2 = 0 → takesAway old e = true))) ∧
      (translate s.m c.ring module .read = .noTranslation → module % 65536 + 64 ≤ 65536 → Ends (.translate c module binding code) s c 0x0C 5 1 s.m) ∧
      (∀ h block md, Readable s c.ring module 64 h → Readable s c.ring binding 536 block → Readable s c.ring module (max 64 (Config.moduleLength h)) md →
        (code % 65536 ≠ 0 → Ends (.translate c module binding code) s c 0x0C 5 1 s.m) ∧
        (code % 65536 = 0 → s.m.translateRefusal c.ring md block ≠ 0 →
          Ends (.translate c module binding code) s c 0x0C 5 (s.m.translateRefusal c.ring md block) s.m) ∧
        (∀ img pa, code % 65536 = 0 → s.m.translateRefusal c.ring md block = 0 → NoMonitor s →
          s.m.images.find? (fun i => i.key == leNat (sha256 (sha256 md ++ block.take 528 ++ leBytes 8 Config.translatorVersion))) = some img → img.code = [] →
          let headers := Config.translateHeaders md block (slotDigests s c.ring) code
          FwAt s c.ring (leNat ((block.drop 512).take 16) % 2 ^ 80) headers.length [.write] pa →
          ∃ u, exec (.translate c module binding code) s = .next u ∧ u.m.mem = Memory.writeL s.m.mem pa headers ∧
            u.m.images = { img with mask := img.mask ||| 2 ^ c.ring, used := s.clk.time } :: s.m.images.filter (fun i => i.key ≠ img.key) ∧
            (img.mask.testBit c.ring = true → u.m.fns = (s.m.finish c 0x0C 0 0).fns ∧ u.m.host = (s.m.finish c 0x0C 0 0).host) ∧
            (img.mask.testBit c.ring = false → u.m.fns = (fnNow s c.ring { f with translating := f.translating ++ [(c, s.clk.time + img.took)] }).fns ∧ u.m.host = s.m.host)))) ∧
    (∀ t, f.translating = [(c, t)] →
      (t ≤ s.clk.time → Ends (.translateDelayedComplete c) s c 0x0C 0 0 (fnNow s c.ring { f with translating := [] })) ∧
      (s.clk.time < t → exec (.translateDelayedComplete c) s = .fault .notEnabled)) ∧
    ((∀ e ∈ f.translating, e.1 ≠ c) → exec (.translateDelayedComplete c) s = .fault .notEnabled)

/-- R171, R376, R389, R419, R423, R424, R429, R446, R448: the physical function's settings: weight, frames, queue sizes, domain, route, power
limit and idle time, and the pre-empt command. -/
def Obligations.PhysicalCommands : Prop :=
  ∀ (c : Cmd) (a b n x : Nat) (ports : List Nat) s, let f := s.m.fn c.target
    (PfGuarded (.setWeight c n) s c 0x10 ∧ PfGuarded (.setFrames c a b n x) s c 0x11 ∧ PfGuarded (.setQueues c a b n) s c 0x12 ∧ PfGuarded (.joinDomain c n) s c 0x13 ∧
      PfGuarded (.preEmpt c a) s c 0x16 ∧ PfGuarded (.assign c) s c 0x17 ∧ PfGuarded (.reset c) s c 0x18) ∧
    (c.ring ≠ 128 → Ends (.setRoute c n ports) s c 0x14 2 0 s.m ∧ Ends (.setLimit c n) s c 0x15 2 0 s.m ∧ Ends (.setIdle c n) s c 0x15 2 0 s.m) ∧
    (c.ring = 128 → c.target < 128 →
      (if n = 0 ∨ 255 < n then Ends (.setWeight c n) s c 0x10 1 0 s.m else Ends (.setWeight c n) s c 0x10 0 0 (fnNow s c.target { f with weight := n })) ∧
      (let others := ((s.m.fns.filter (fun e => e.1 ≠ c.target)).map (fun e => e.2.g)).foldl (· + ·) 0
       if frameCount - firstShared < others + a ∨ frameCount - firstShared < a + b then Ends (.setFrames c a b n x) s c 0x11 5 0 s.m
       else Ends (.setFrames c a b n x) s c 0x11 0 0 (fnNow s c.target { f with g := a, b, backing := n, backingSize := x })) ∧
      ((a ≠ 0 ∧ (a < 10 ∨ 24 < a)) ∨ (b ≠ 0 ∧ (b < 8 ∨ 16 < b)) → Ends (.setQueues c a b n) s c 0x12 1 0 s.m) ∧
      (10 ≤ a → a ≤ 24 → 8 ≤ b → b ≤ 16 → f.state ≠ 1 →
        Ends (.setQueues c a b n) s c 0x12 0 0 (fnNow s c.target { f with elog := BitVec.ofNat 80 n, qk := [a, a, a, a], fk := b })) ∧
      (f.state = 1 ∨ (a = 0 ∧ b = 0) → (a = 0 ∨ 10 ≤ a ∧ a ≤ 24) → (b = 0 ∨ 8 ≤ b ∧ b ≤ 16) →
        Ends (.setQueues c a b n) s c 0x12 0 0 (fnNow s c.target { f with elog := BitVec.ofNat 80 n })) ∧
      Ends (.joinDomain c n) s c 0x13 0 0 (fnNow s c.target { f with domain := some (n % 2 ^ 32) }) ∧
      (sortedFrom none s.m.wgs = true → sortedFrom none s.m.fns = true → (∀ e ∈ s.m.fns, e.2.preempts = []) → (∀ e ∈ s.m.wgs, e.2.hdr.cspan = false) →
        let named (w : Wg) : Prop := w.vf = c.target ∧ (a = 0 ∨ w.hdr.addr = a) ∧ w.ending = false
        ∃ u, exec (.preEmpt c a) s = .next u ∧ u.m.mem = s.m.mem ∧ u.m.cores = s.m.cores ∧
          (∀ core slot w, slot < 64 → s.m.wg? core slot = some w →
            u.m.wg? core slot = some (if w.vf = c.target ∧ (a = 0 ∨ w.hdr.addr = a) ∧ w.ending = false ∧ w.leaving = 0 then { w with leaving := 1 } else w)) ∧
          ((∀ e ∈ s.m.wgs, ¬named e.2) → u.m = (fnNow s c.target f).finish c 0x16 0 0) ∧
          (∀ core slot w, slot < 64 → s.m.wg? core slot = some w → named w → w.leaving ≠ 2 →
            ∃ starts, (u.m.fn c.target).preempts = [(c, starts)] ∧ w.started ∈ starts ∧ u.m.host = s.m.host))) ∧
    (c.ring = 128 →
      (2047 < n ∨ n = s.m.devnum ∨ ports.length ≠ 4 → Ends (.setRoute c n ports) s c 0x14 1 0 s.m) ∧
      (n ≤ 2047 → n ≠ s.m.devnum → ports.length = 4 → NoAsk s → s.m.moving = [] → (∀ e ∈ s.m.fns, ∀ h ∈ e.2.chans, h.2.x = false) →
        ∃ ref, Ends (.setRoute c n ports) s c 0x14 0 0 { s.m with routes := tset s.m.routes n ports, timeRef := ref } ∧ ref ≤ s.m.devnum ∧
          ((∃ p ∈ ports, p < 144 ∧ p ∉ s.m.portsDown) → sortedFrom none s.m.routes = true → ref ≤ n)) ∧
      (n < 1800 ∨ 2600 < n ∨ n % 25 ≠ 0 → Ends (.setLimit c n) s c 0x15 5 1 s.m) ∧
      (1800 ≤ n → n ≤ 2600 → n % 25 = 0 → NoMonitor s → ∃ u, exec (.setLimit c n) s = .next u ∧ u.m.limit = n ∧ u.m.tokens = (n - 1700) * 10 / 900 ∧
        u.m.fns = (s.m.finish c 0x15 0 0).fns ∧ u.m.host = (s.m.finish c 0x15 0 0).host ∧
        u.m.mem = Memory.writeL (Memory.writeL s.m.mem (mirrorBase + 16) (leBytes 1 ((n - 1700) * 10 / 900))) (mirrorBase + 18) (leBytes 2 n) ∧
        ∀ d, d < 8 → let r := s.m.ring d; let k := (n - 1700) * 10 / 900
          (s.m.tokens ≤ k → u.m.ring d = { r with retire := r.retire - (k - s.m.tokens), ring := r.ring ++ List.replicate (k - s.m.tokens - r.retire) 0 }) ∧
          (k < s.m.tokens → u.m.ring d = { r with ring := r.ring.take (r.ring.length - (s.m.tokens - k)), retire := r.retire + ((s.m.tokens - k) - r.ring.length) })) ∧
      (if n < 256 ∨ 65536 < n then Ends (.setIdle c n) s c 0x15 5 1 s.m
       else NoMonitor s → Ends (.setIdle c n) s c 0x15 0 0 { s.m with idle := n, mem := Memory.writeL s.m.mem (mirrorBase + 14) (leBytes 2 (n % 65536)) }))

/-- R421, R444, R451 to R453: assign makes a ready function active; reset kills its launches and ends its graph runs; a core's health test ends the
reset when it is the last; the fused minimum only rises; a device reset leaves counters at 0, fuses and host memory as they were, and,
when boot's checks fail, no function. -/
def Obligations.FunctionLifecycle : Prop :=
  ∀ (c : Cmd) (core version : Nat) s, let f := s.m.fn c.target
    (c.ring = 128 → c.target < 128 →
      (f.state ≠ 3 → Ends (.assign c) s c 0x17 5 0 s.m) ∧
      (f.state = 3 → f.qk = [10, 10, 10, 10] → f.fk = 8 → ∀ p rest, f.freePages = p ++ rest → p.length = 5 → sortedFrom none s.m.fns = true →
        ∃ u, exec (.assign c) s = .next u ∧ (u.m.fn c.target).state = 1 ∧ (u.m.fn c.target).root = c.target * 256 ∧ (u.m.fn c.target).invSeq = 0 ∧
          (u.m.fn c.target).ringPages = [(0, [p.getD 0 0]), (1, [p.getD 1 0]), (2, [p.getD 2 0]), (3, [p.getD 3 0]), (4, [p.getD 4 0])] ∧
          (u.m.fn c.target).freePages = rest ∧ u.m.wgs = s.m.wgs ∧ ∀ a, c.target * 256 ≤ a → a < c.target * 256 + 256 → Memory.read u.m.mem a = 0) ∧
      (f.state = 2 → Ends (.reset c) s c 0x18 3 0 s.m) ∧
      (f.state ≠ 2 → f.walker = none → f.runs = [] → (∀ x y, x ∈ f.launches → y ∈ f.launches → x.id = y.id → x = y) →
        ∃ u, exec (.reset c) s = .next u ∧ u.m.mem = s.m.mem ∧ u.m.host = s.m.host ∧ u.m.cores = s.m.cores ∧
        u.m.fn c.target = { f with state := 2, resetCmd := some c, scrubbed := false, fencedNow := 0, walker := none, runs := [],
                                   launches := f.launches.map (fun l => { l with killed := true, silent := true }) } ∧
        (∀ vf, vf ≠ c.target → u.m.fn vf = s.m.fn vf) ∧
        ∀ e ∈ u.m.wgs, e.2.vf = c.target → (∃ l ∈ f.launches, l.id = e.2.launch) → e.2.ending = false → e.2.killed = true ∧ ∀ t ∈ e.2.threads, t.status = .exited)) ∧
    (∀ vf g, (∀ e ∈ s.m.wgs, e.1 / 64 ≠ core) → s.m.fns.find? (fun e => e.2.testing.contains core) = some (vf, g) →
      let now := { g with testing := g.testing.filter (· ≠ core) }
      (g.testing ≠ [core] → exec (.healthTestComplete core true) s = .next (withM s (fnNow s vf now))) ∧
      (∀ cmd, g.testing = [core] → g.resetCmd = some cmd → cmd.ring ≠ vf → sortedFrom none s.m.fns = true →
        exec (.healthTestComplete core true) s = .next (withM s (({ fnNow s vf { now with state := 3, resetCmd := none, ownedCores := [], fencedNow := 0 } with
          lastTestOk := decide (g.fencedNow = 0) } : Mach).finish cmd 0x18 0 g.fencedNow)))) ∧
    ((∀ e ∈ s.m.fns, core ∉ e.2.testing) → ∀ ok, exec (.healthTestComplete core ok) s = .fault .notEnabled) ∧
    exec (.fusedMinimumRaise version true) s = .next (withM s { s.m with fusedMin := if version ≤ s.m.fusedMin then s.m.fusedMin else version }) ∧
    exec (.fusedMinimumRaise version false) s = .next s ∧
    (∃ u, exec .deviceReset s = .next u ∧ u.clk = {} ∧ u.agenda = s.agenda ∧ u.m.host = s.m.host ∧ u.m.fusedMin = s.m.fusedMin ∧ u.m.mem = [] ∧ u.m.wgs = [] ∧
      u.m.cores = [] ∧ u.m.linkOut = [] ∧
      (Config.fwSignatureOk = true → s.m.fusedMin ≤ Config.fwSecver → u.m.fwRunning = true ∧ u.m.fns = [] ∧ u.m.hostOut = []) ∧
      (Config.fwSignatureOk = false ∨ Config.fwSecver < s.m.fusedMin → u.m.fwRunning = false ∧ u.m.hostOut = [(128, 2, [1])] ∧ ∀ vf, vf < 128 → (u.m.fn vf).state = 0))

/-! ## Encodings, the step, reset, time -/

namespace Sys2Proof.Claims

/-- A word of 8 bytes stands for an instruction: it decodes from its bytes as memory holds them, whatever follows. -/
def Says (w : Nat) (i : Instr) : Prop := ∀ rest, decodeBytes (leBytes 8 w ++ rest) = .ok (i, rest)
/-- What a step makes of an instruction's outcome: what follows every step is settled (log 4). -/
def after (o : Host.Outcome State Fault Refusal) : Host.Outcome State Fault Refusal :=
  match o with
  | .next t => .next t.settled
  | .fault r => .fault r
  | .refused r => .refused r
/-- The core fetches from `pc`: the page is cached with the right to execute, at `pa` in this device's memory; nothing of it is in the
instruction cache, or poisoned; no fault record of the core is open. -/
def Fetches (s : State) (core : Nat) (pc : Addr) (pa : Nat) : Prop :=
  pc.toNat % 65536 + 16 ≤ 65536 ∧ (∃ p k, tget (s.m.core core).tlb (pc.toNat / 65536) = some p ∧ transPte p pc.toNat .execute = .ok pa k) ∧
    (s.m.core core).icache = [] ∧ (∀ l ∈ linesOf pa 16, l ∉ s.m.poison) ∧ (s.m.core core).faults = [] ∧ pa % 8 = 0

end Sys2Proof.Claims

/-- R22 to R44, and the words the spec prints: words of each class, and epilogue words, stand for the instructions the tables give them; classes
011 and 111 stand for none. -/
def Obligations.DecodeWordsPrinted : Prop :=
  Says 0xA000000000000007 (.barw 7) ∧ Says 0xAA00000000207004 (.cpStamp 2 7 4 false) ∧
  Says 0x84D40BFCA6C00000 (.atomord 8 .f32 { base := 5, data := 2, index := 255, scale := 0, order := .acqRel, scope := 5, disp := 0 }) ∧
  Says 0x8008040260000000 (.ld .z32 { base := 2, data := 1, index := 0, scale := 2, order := .plain, scope := 0, disp := 0 }) ∧
  Says 0x00E03010007C0800 (.shl .b32 3 1 (.imm 7)) ∧ Says 0x0840504030060000 (.aaddv .z32 5 4 3 0) ∧ Says 0xC042C03FFFFFFFFB (.brc 3 true (-5)) ∧
  Says 0xC30000000000002D (.trap 0x2D) ∧ Says 0xC601010000000002 (.srd 2 4 4) ∧ Says 0xC280000000000000 .nop ∧ Says 0xAC01183000405000 (.lzOpen 4 1 5 6 3) ∧
  Says 0xAD02140000406001 (.lzSend 4 5 2 6 1) ∧ Says 0xAD80000000300000 (.lzWait 0 3) ∧ Says 0xAE00000000700000 (.lzClean 0 7) ∧
  decodeEp 0x78000000 = .ok (.eBias 0 0 0) ∧ decodeEp 0x30040000 = .ok (.eMax 0 0 1) ∧ decodeEp 0x8A000003 = .ok (.eCvt 2 0 3 0) ∧
  decodeEp 0x08401F00 = .ok (.eSt 2 0 32) ∧ decodeEp 0x98000000 = .ok .eEnd ∧
  ∀ w ext, w / 2 ^ 61 = 3 ∨ w / 2 ^ 61 = 7 → decodeWord w ext = .error .classCode

/-- R22 to R44: for every legal instruction of the program and of the epilogue, the decoder reads back, from the words the encoder writes, that very
instruction, with every operand, and leaves the bytes that follow; the words have 64 (or 32) bits. -/
def Obligations.DecodeEncode : Prop :=
  ∀ i, legal i = true →
    (∀ w ws, encode i = w :: ws → (∀ x ∈ w :: ws, x < 2 ^ 64) ∧ ∀ rest, decodeBytes (((w :: ws).map (leBytes 8)).flatten ++ rest) = .ok (i, rest)) ∧
    (∀ w, encodeEp i = some w → w < 2 ^ 32 ∧ decodeEp w = .ok i)

/-- R14, R156, R305: the instruction that the bytes at the program counter decode to is executed for the granted threads, its group standing at it;
so is an epilogue word of the running drain, and an event that the environment brings; and what follows a step is settled. -/
def Obligations.StepRunsDecodedInstruction : Prop :=
  ∀ s i,
    (∀ core slot t0 ts w pa rest, s.agenda = [] → s.m.pick = some (core, slot, t0 :: ts) → s.m.wg? core slot = some w → Fetches s core (w.thread t0).pc pa →
      decodeBytes (Memory.readN s.m.mem pa 16) = .ok (i, rest) → w.inAlloc i = true → (∀ p q n x, i = .pblk p q n x → ∀ j ∈ t0 :: ts, (w.thread j).reenter = none) →
      ∃ m x word ext, step s = after (exec i (withM s m)) ∧ m.pick = none ∧
        m.ig = some { core, slot, threads := t0 :: ts, pc := (w.thread t0).pc, w := word, ext } ∧ word = leNat (Memory.readN s.m.mem pa 8) ∧
        (ext = none ↔ rest.length = 8) ∧ (∀ y, ext = some y → y = leNat (Memory.readN s.m.mem (pa + 8) 8)) ∧
        m.mem = s.m.mem ∧ m.host = s.m.host ∧ m.fns = s.m.fns ∧ m.wgs = (s.m.setWg core slot x).wgs ∧ x = { w with threads := x.threads, warps := x.warps } ∧
        (∀ j, x.thread j = { w.thread j with yieldMark := (x.thread j).yieldMark, reenter := (x.thread j).reenter }) ∧
        ∀ k, m.core k = { s.m.core k with icache := (m.core k).icache }) ∧
    (∀ rest, s.agenda = .event i :: rest → step s = after (exec i { s with agenda := rest })) ∧
    (∀ core d, s.agenda = [] → s.m.pick = none → s.m.runningDrain = some (core, d) → decodeEp (d.words.getD d.pc 0).toNat = .ok i → step s = after (exec i s))

/-- R307, R173, R419, R421: after device reset the counters read 0, nothing is placed and memory lists nothing, every macro is off, the dispatcher
starts with function 0, the limit is 2,400 W with 7 tokens a die and 4,096 idle cycles; and the invariant of the clock holds. -/
def Obligations.ResetState : Prop :=
  State.reset.clk.time = 0 ∧ State.reset.clk.cycle = 0 ∧ State.reset.clk.frac < 9 ∧ State.reset.m.wgs = [] ∧ State.reset.m.ig = none ∧
  Memory.wf State.reset.m.mem = true ∧ State.reset.m.mem = [] ∧ State.reset.m.limit = 2400 ∧ State.reset.m.tokens = 7 ∧ State.reset.m.idle = 4096 ∧
  (State.reset.m.lastFn + 1) % 128 = 0 ∧ (∀ core mac, ((tget (State.reset.m.core core).macs mac).getD {}).powered = false) ∧
  (∀ core, (State.reset.m.core core).fenced = false) ∧ ∀ vf, (State.reset.m.fn vf).launches = [] ∧ (State.reset.m.fn vf).chans = []

/-- R421: WHAT EVERY STEP KEEPS of the clock, in every state: the ninths of a nanosecond stay below 9, and, but for a device reset, neither the time
counter nor the cycle counter ever goes back. -/
def Obligations.TimeNeverGoesBack : Prop :=
  ∀ s t, step s = .next t → (s.clk.frac < 9 → t.clk.frac < 9) ∧
    ((∀ rest, s.agenda ≠ .event .deviceReset :: rest) → s.clk.time ≤ t.clk.time ∧ s.clk.cycle ≤ t.clk.cycle)


/-! ## Layouts: the physical map, the save image, translated modules -/

/-- R199 to R202, R210: the die, the stack and the slice of an address of HBM; the ranges of the physical space and whom each answers; what each offset of a
core's window names; and an entry whose frame lies outside HBM is malformed. -/
def Sys2Proof.Claims.PhysicalMap : Prop :=
  (∀ pa, pa < 2 ^ 40 → physPlace pa = .hbm ∧ homeDie pa = pa / 2 ^ 37 ∧ stackOf pa = pa / 4096 % 2 ∧ l2Slice pa < 16 ∧
    ∀ i, i < 4 → (l2Slice pa).testBit i = ((pa.testBit (7 + i) != pa.testBit (11 + i)) != (pa.testBit (15 + i) != pa.testBit (19 + i)))) ∧
  (∀ pa, 2 ^ 40 ≤ pa → pa < 0xE000000000000 → physPlace pa = .unpopulated ∧ ∀ a, physAnswers a pa = false) ∧
  (∀ pa, 0xE000140000000 ≤ pa → physPlace pa = .firmware ∧ ∀ a, physAnswers a pa = decide (a = .firmware)) ∧
  (∀ core off, core < 1280 → off < 0x400000 → let pa := 0xE000000000000 + core * 0x400000 + off
    physPlace pa = .window core off ∧ physAnswers .translated pa = false ∧
    (off < 0x80000 → windowPlace off = .scratch off ∧ pa = scratchWindow core off ∧ physAnswers .window pa = true ∧ physAnswers .firmware pa = true) ∧
    (∀ row lane b, off = 0x100000 + 128 * row + 4 * lane + b → row < 4096 → lane < 32 → b < 4 →
      windowPlace off = .register row lane b ∧ pa = registerWindow core row lane + b ∧ physAnswers .window pa = true ∧ physAnswers .firmware pa = true) ∧
    (∀ n b, off = 0x200000 + 0x2000 * n + b → n < 16 → b < 0x2000 →
      windowPlace off = .accumulator n b ∧ pa = accWindow core n + b ∧ physAnswers .window pa = false ∧ physAnswers .firmware pa = true) ∧
    ((0x80000 ≤ off ∧ off < 0x100000) ∨ (0x180000 ≤ off ∧ off < 0x200000) ∨ 0x220000 ≤ off → windowPlace off = .reserved ∧ ∀ a, physAnswers a pa = false)) ∧
  (∀ e, e % 2 = 1 → e / 2 ^ 75 % 2 = 0 → 2 ^ 24 ≤ e / 2 ^ 16 % 2 ^ 36 → entryMalformed e = true)

/-- R391: the save image: its header, its sections, each at a multiple of 256 bytes and of its own length, and its thread records. What lies in the sections
that the spec does not lay out is open (log 16). -/
def Sys2Proof.Claims.ImageLayout : Prop :=
  ∀ (i : Image), let b := i.bytes; let w := i.wg
    b.length % 256 = 0 ∧ b.take 3 = [0x49, 0x53, 1] ∧ i.sections.length = 15 ∧
    (b.getD 3 0).toNat = bit i.fetchFault.isSome + 2 * bit w.hdr.rollback + 4 * bit w.hdr.cspan ∧ numAt b 8 8 = i.time % 2 ^ 64 ∧ numAt b 16 16 = w.hdr.addr % 2 ^ 128 ∧
    numAt b 32 8 = w.base % 2 ^ 64 ∧ numAt b 40 2 = w.threads.length % 2 ^ 16 ∧ numAt b 43 1 = i.core % 256 ∧ numAt b 46 2 = i.core % 2 ^ 16 ∧ numAt b 56 8 = 0 ∧
    (b.length < 2 ^ 32 → numAt b 4 4 = b.length ∧ ∀ k, k < 15 → let at_ := numAt b (64 + 8 * k) 4; let len := numAt b (68 + 8 * k) 4
      at_ % 256 = 0 ∧ len = (i.sections.getD k []).length ∧ (len = 0 → at_ = 0) ∧ (0 < len → 256 ≤ at_ ∧ (b.drop at_).take len = i.sections.getD k [])) ∧
    (i.sections.getD 0 []).length = 1024 * w.threads.length ∧ (i.sections.getD 2 []).length = 32768 * w.hdr.scratch ∧
    (i.sections.getD 6 []).length = 8192 * w.hdr.accs ∧ (i.sections.getD 8 []).length = 2056 ∧
    (∀ o, o < 32768 * w.hdr.scratch → (i.sections.getD 2 []).getD o 0 = sget 0 i.scratch o) ∧
    (∀ k, k < 2048 * w.hdr.accs → numAt (i.sections.getD 6 []) (4 * k) 4 = (sget 0 w.acc k).toNat) ∧
    (∀ j, j < w.threads.length → let t := w.thread j; let r := ((i.sections.getD 0 []).drop (1024 * j)).take 1024
      numAt r 0 16 = t.pc.toNat ∧ numAt r 16 16 = t.trappc.toNat ∧ numAt r 32 16 = t.trapaddr.toNat ∧ numAt r 48 8 = t.fstat.toNat ∧ numAt r 56 8 = t.istat.toNat ∧
      numAt r 64 8 = t.rnd.toNat ∧ numAt r 72 8 = t.pblk.toNat ∧ numAt r 96 8 = t.rsspill % 2 ^ 64 ∧ numAt r 104 1 = t.rs.length % 256 ∧
      (∀ n, n < 8 → (numAt r 105 1).testBit n = t.getP n) ∧ numAt r 106 1 = t.lane % 256 ∧ numAt r 107 1 = t.warp % 256 ∧
      (∀ n, n < 32 → numAt r (128 + 8 * n) 8 = (t.getK n).toNat) ∧ (∀ n, n < 16 → numAt r (384 + 16 * n) 16 = (t.getA n).toNat) ∧
      (∀ n, n < t.rs.length → n < 16 → numAt r (640 + 16 * n) 16 = (t.rs.reverse.getD n 0).toNat) ∧
      (t.status = .ready → numAt r 108 1 = 0 ∧ numAt r 112 8 = 0) ∧ (t.status = .exited → numAt r 108 1 = 1 ∧ numAt r 112 8 = 0) ∧
      (∀ d, t.status = .asleep d → numAt r 108 1 = 2 ∧ numAt r 112 8 = d % 2 ^ 64) ∧
      (∀ key g, t.status = .gathered key g → key < 2 ^ 32 → g < 64 → numAt r 108 1 = 4 ∧ numAt r 112 4 = key ∧ numAt r 116 4 = g) ∧
      (∀ mask, t.status = .atBar mask → mask < 8 → numAt r 108 1 = 5 ∧ numAt r 112 8 = mask) ∧
      (∀ p, t.status = .waiting p → (∀ id, p ≠ .fault id) → numAt r 108 1 = 6 ∧ numAt r 112 8 = 0))

/-- R458, R459, R461: an operation record's fields; what the translator refuses once a module is well formed, its symbols are bound and its formats are held;
the shapes of a matmul and of a reduction; a matmul's elements, each the sum of its 64-element passes in ascending order, which the padding of k by +0 leaves
as it is; and a reduction's. -/
def Sys2Proof.Claims.TileOperations : Prop :=
  (∀ b : List Byte, let o := TileOp.ofBytes b
    o.op = numAt b 0 2 ∧ o.nargs = numAt b 2 1 ∧ o.flags = numAt b 3 1 ∧ o.result = numAt b 4 4 ∧ o.args.length = min 6 o.nargs ∧
    ∀ j, j < o.args.length → o.args.getD j 0 = numAt b (8 + 4 * j) 4) ∧
  (∀ (m : Module) syms fmts, (m.wf = false → m.refusal syms fmts = 1) ∧
    (m.wf = true → (∃ t ∈ m.used, t.bind syms = none) → m.refusal syms fmts = 2) ∧
    (m.wf = true → (∀ t ∈ m.used, t.bind syms ≠ none) →
      ((∃ t ∈ m.used, ∃ d, t.elem = .digest d ∧ ∀ f ∈ fmts, f.1 ≠ d) → m.refusal syms fmts = 6) ∧
      ((∀ t ∈ m.used, ∀ d, t.elem = .digest d → ∃ f ∈ fmts, f.1 = d) → m.refusal syms fmts = if ∀ o ∈ m.ops, m.shapeOk syms fmts o = true then 0 else 3))) ∧
  (∀ x y z res e rb ab, shapesOk 3 [x, y, z] res e rb ab = true ↔ ∃ p k n, x = [p, k] ∧ y = [k, n] ∧ z = [p, n] ∧ res = [p, n] ∧ e = .code (Ty.f32).code) ∧
  (∀ x res e rb ab, shapesOk 5 [x] res e rb ab = true ↔ ∃ p k, x = [p, k] ∧ res = [p, 1]) ∧
  (∀ (a b : List (List FVal)) c k, (∀ r ∈ a, r.length = k) → b.length = k → a.length = c.length →
    let r := tileMatmul a b c
    r.length = c.length ∧
    (∀ i j, i < c.length → j < (c.getD i []).length → (r.getD i []).getD j 0 =
      (dotAll ((k + 63) / 64) ((c.getD i []).getD j 0) (padK (a.getD i [])) (padK (b.map (fun q => q.getD j (FVal.zero false))))).1) ∧
    tileMatmul (a.map padK) (b ++ List.replicate ((64 - k % 64) % 64) []) c = r) ∧
  (∀ (t : Ty) rows op, (tileReduce op t rows).length = rows.length ∧
    ∀ i, i < rows.length → (tileReduce op t rows).getD i [] = [(reduxTree (reduxStep op t) (rows.getD i []).length (rows.getD i [])).1])

/-- Where things lie: the physical address space, a saved workgroup, a translated module. -/
def Obligations.Layouts : Prop := PhysicalMap ∧ ImageLayout ∧ TileOperations
end

