-- ==== Sys2Proof/Laws/Values.lean ====
section
/-! SUPPORT. The model's numbers against bit vectors: patterns, immediates, results, and the lane equation of a register operation. -/
namespace Sys2Proof.Claims
open Sys2Proof.Machine

theorem bits_pos (t : Ty) : 0 < t.bits := by cases t <;> decide
theorem pat_eq (t : Ty) (th : Thread) (r : Nat) : th.pat t r = (opnd t th r).toNat := by
  cases t <;> simp [Thread.pat, opnd, Ty.is64, Ty.bits, BitVec.toNat_setWidth]
  all_goals exact (th.getV r).isLt
theorem wrap_eq (n : Nat) (x : Int) : wrap n x = (BitVec.ofInt n x).toNat := by
  simp [wrap, BitVec.toNat_ofInt]
theorem sext_eq (n x : Nat) (hn : 0 < n) : sext n x = (BitVec.ofNat n x).toInt := by
  have : 2 ^ n = 2 * 2 ^ (n - 1) := by rw [← Nat.pow_succ']; congr 1; omega
  unfold sext
  rw [BitVec.toInt_eq_toNat_cond, BitVec.toNat_ofNat]
  split <;> split <;> omega
theorem value_eq (t : Ty) (x : Nat) : t.value x = intOf t (BitVec.ofNat t.bits x) := by
  unfold Ty.value intOf
  split
  · exact sext_eq _ _ (bits_pos t)
  · simp
theorem value_toNat (t : Ty) (x : BitVec t.bits) : t.value x.toNat = intOf t x := by rw [value_eq]; simp
theorem immPat_ext (t : Ty) (n p : Nat) : immPat t n (.ext p) = ((BitVec.ofNat 61 p).signExtend n).toNat := by
  simp [immPat, wrap_eq, sext_eq, BitVec.signExtend]
theorem immPat_imm16 (t : Ty) (n x : Nat) (ht : t.signed = true) : immPat t n (.imm x) = ((BitVec.ofNat 16 x).signExtend n).toNat := by
  have h : immPat t n (.imm x) = wrap n (sext 16 x) % 2 ^ n := by cases t <;> simp_all [immPat, Ty.signed]
  rw [h, wrap_eq, sext_eq _ _ (by decide), Nat.mod_eq_of_lt (BitVec.isLt _)]; rfl
theorem srcPat_eq (t : Ty) (th : Thread) (b : Src) : th.srcPat t b = (opndB t th b).toNat := by
  cases b with
  | reg r => exact pat_eq t th r
  | ext p => exact immPat_ext t _ p
  | imm x =>
    change immPat t t.bits (.imm x) = (if t.signed then (BitVec.ofNat 16 x).signExtend t.bits else if t = .f32 then BitVec.ofNat t.bits (x * 65536)
      else BitVec.ofNat t.bits x).toNat
    by_cases ht : t.signed = true
    · rw [if_pos ht]; exact immPat_imm16 t _ x ht
    · rw [if_neg ht]; cases t <;> simp_all [immPat, Ty.signed, Ty.bits]
theorem srcCount_eq (th : Thread) (b : Src) : th.srcCount b = countB th b := by
  cases b with
  | reg r => rfl
  | imm x => simp [Thread.srcCount, immPat, countB]
  | ext p => exact immPat_ext .z32 32 p
theorem fval_eq (t : Ty) (th : Thread) (r : Nat) : th.fval t r = fv t th r := by simp [Thread.fval, fv, pat_eq]
theorem fsrc_eq (t : Ty) (th : Thread) (b : Src) : th.fsrc t b = fvB t th b := by simp [Thread.fsrc, fvB, srcPat_eq]

theorem hi_word (n : Nat) : BitVec.ofNat 32 (n / 4294967296) = (BitVec.ofNat 64 n >>> 32).setWidth 32 := by
  apply BitVec.eq_of_toNat_eq
  simp [Nat.shiftRight_eq_div_pow]
  omega
theorem zfill (m n : Nat) (_ : m ≤ 32) : BitVec.ofInt 32 ((n % 2 ^ m : Nat) : Int) = (BitVec.ofNat m n).setWidth 32 := by
  apply BitVec.eq_of_toNat_eq
  simp only [BitVec.toNat_ofInt, BitVec.toNat_setWidth, BitVec.toNat_ofNat]
  omega
/-- Writing a pattern of a type is writing its result. -/
theorem foldl_vWrite (t : Ty) (d n : Nat) (th : Thread) :
    (vWrite t d n).foldl (fun t e => t.setV e.1 e.2) th = result t d (BitVec.ofNat t.bits n) th := by
  have z (m : Nat) (h : m ≤ 32) := zfill m n h
  cases t <;>
    simp only [vWrite, result, Ty.is64, Ty.bits, Ty.fill, Ty.value, Ty.signed, Thread.setVV, List.foldl_cons, List.foldl_nil, if_true, if_false,
      Bool.false_eq_true, beq_self_eq_true, Nat.reduceBEq]
  all_goals first
    | (rw [sext_eq _ _ (by decide)]; rfl)
    | (rw [z _ (by decide)])
    | (congr 1
       · congr 1; apply BitVec.eq_of_toNat_eq; simp
       · rw [hi_word]; simp)
theorem apply_v (t : Ty) (d n : Nat) (th : Thread) : ({ v := vWrite t d n } : LaneUpd).apply th = result t d (BitVec.ofNat t.bits n) th := by
  simp only [LaneUpd.apply, List.foldl_nil, foldl_vWrite]; simp
theorem apply_vi (t : Ty) (d n : Nat) (x : BitVec 2) (th : Thread) :
    ({ v := vWrite t d n, i := x } : LaneUpd).apply th =
      { result t d (BitVec.ofNat t.bits n) th with istat := (result t d (BitVec.ofNat t.bits n) th).istat ||| x } := by
  simp only [LaneUpd.apply, List.foldl_nil, foldl_vWrite]; simp
theorem apply_vf (t : Ty) (d n : Nat) (x : BitVec 5) (th : Thread) :
    ({ v := vWrite t d n, f := x } : LaneUpd).apply th =
      { result t d (BitVec.ofNat t.bits n) th with fstat := (result t d (BitVec.ofNat t.bits n) th).fstat ||| x } := by
  simp only [LaneUpd.apply, List.foldl_nil, foldl_vWrite]; simp
theorem result_istat (t : Ty) (d : Nat) (x : BitVec t.bits) (th : Thread) : (result t d x th).istat = th.istat := by
  unfold result; split <;> simp [Thread.setVV]
theorem result_fstat (t : Ty) (d : Nat) (x : BitVec t.bits) (th : Thread) : (result t d x th).fstat = th.fstat := by
  unfold result; split <;> simp [Thread.setVV]
theorem result_rnd (t : Ty) (d : Nat) (x : BitVec t.bits) (th : Thread) : (result t d x th).rnd = th.rnd := by
  unfold result; split <;> simp [Thread.setVV]

/-- A meaning that runs a register operation has the lane equation of the operation. -/
theorem lanewise (i : Instr) (op : RegOp) (src dst : List Nat) (f : Ctx → Thread → Thread) (he : ∀ s, exec i s = s.reg op)
    (hs : op.src = src) (hd : op.dst = dst) (hf : ∀ c j th, (op.upd (lanes c) (j, th)).apply th = f c th) : Lanewise i src dst f := by
  intro s c h hm
  subst hs; subst hd
  rw [he, State.reg_next s op h hm.1 hm.2]
  simp only [put, each]
  congr 4
  apply List.mapIdx_eq_mapIdx_iff.2
  intro j hj
  split
  · rw [← hf c j]; rfl
  · rfl
/-- The two ways of writing what an instruction's threads do agree. -/
theorem each_eq (c : Ctx) (f : Thread → Thread) (h : ∀ i, c.act.contains i = true → c.ig.threads.contains i = true) :
    (c.wg.modThreads c.act f).modThreads c.ig.threads (·.advance c.len) = each c f := by
  simp only [Wg.modThreads, each]
  congr 1
  rw [List.mapIdx_mapIdx]
  apply List.mapIdx_eq_mapIdx_iff.2
  intro j hj
  by_cases ha : c.act.contains j = true
  · simp only [Function.comp, ha, h j ha, if_true]
  · simp only [Function.comp, ha, if_false, Bool.false_eq_true]
theorem act_sub {s : State} {c : Ctx} (h : Issues s c) (i : Nat) (hi : c.act.contains i = true) : c.ig.threads.contains i = true := by
  rw [(Mach.ctx?_some h).2.2.2] at hi
  simp at hi ⊢; exact hi.1

end Sys2Proof.Claims
end

