-- ==== Sys2Proof/Tests/Slice0.lean ====
section
/-! SUPPORT. Tests: words of the spec's encodings decode to what they stand for; ill-formed terms are refused; each hypothesis of the statements is met by
a state (the witness_ theorems); and single steps give the results of the spec's worked examples. -/

namespace Sys2Proof.Tests
set_option Elab.async false
open Sys2Proof Sys2Proof.Machine Sys2Proof.Claims

/-! Decoding. Every word below is printed in spec/ beside the instruction it stands for, or is written out there field by field; the file is named
with each group. `w` is the word, `ws` the word and its extension word. -/

/-- The decoder reads `w` as `i`, of one word. -/
def reads (w : Nat) (i : Instr) : Prop := decodeTableWord 64 w = some i
/-- The decoder reads the two words as `i`. -/
def readsExt (w x : Nat) (i : Instr) : Prop := decodeTableWord 128 (w + x * 2 ^ 64) = some i
/-- The address of the memory operands of the tests: no index. -/
def at0 (base data : Nat) (disp : Int) : MemOp := { base, data, index := 255, scale := 0, order := .plain, scope := 0, disp }
/-- An indexed address. -/
def atV (base data index scale : Nat) (disp : Int) : MemOp := { base, data, index, scale, order := .plain, scope := 0, disp }

/-- 02 (worked encodings), 12 and 26 (the programs' words): group A. -/
theorem test_decode_vector_integers :
    reads 0x0080607000860800 (.min .z32 6 7 (.imm 8)) ∧ reads 0x0000505000160800 (.add .z32 5 5 (.imm 1)) ∧
    reads 0x015050400006018C (.bfx .z32 5 4 12 7) ∧ reads 0x00E03010007C0800 (.shl .b32 3 1 (.imm 7)) := ⟨rfl, rfl, rfl, rfl⟩
/-- 02: `movi.b32 v6, 0x0012_3457` takes an X word. -/
theorem test_decode_long_immediate : readsExt 0x01A06000000C0C00 0x6000000000123457 (.movi .b32 6 (.ext 0x123457)) := rfl
/-- 02, 06, 32: group B. -/
theorem test_decode_floats :
    reads 0x02002020300A2000 (.fadd .f32 2 2 (.reg 3) .rup) ∧ reads 0x0230A040506A1000 (.ffma .f32 10 4 5 6 .rtz) ∧
    reads 0x030030200002000A (.cvt .i32 .f32 3 2 .rne) ∧ reads 0x03128081E00A00A3 (.fpack .f32 40 8 30 3 2 2 .rne) := ⟨rfl, rfl, rfl, rfl⟩
/-- 11: group C. -/
theorem test_decode_lanes : reads 0x04003020001C3800 (.shfl 3 3 2 (.imm 1)) ∧ reads 0x04205040000A6000 (.redux 6 .f32 5 4) := ⟨rfl, rfl⟩
/-- 05: groups D and E. -/
theorem test_decode_uniform_and_addresses : reads 0x0600303FFE830800 (.kadd 3 3 (.imm 0xFFE8)) ∧ reads 0x0840504030060000 (.aaddv .z32 5 4 3 0) :=
  ⟨rfl, rfl⟩
/-- 02 and 05: P words and their halves. -/
theorem test_decode_pairs :
    reads 0x30042420020203A0 (.pairWord { kimm := 1, sop := 0, kd := 1, ka := 1, kb := 4, vop := 32, vd := 2, va := 2, vb := 3, type := 10, mod := 0 }) ∧
    reads 0x3B88480009090A20 (.pairWord { kimm := 1, sop := 23, kd := 2, ka := 2, kb := 8, vop := 0, vd := 9, va := 9, vb := 10, type := 2, mod := 0 }) ∧
    pairHalves (pairOfNat 0x30042420020203A0) = some (.kadd 1 1 (.imm 4), .fadd .f32 2 2 (.reg 3) .rne) ∧
    pairHalves (pairOfNat 0x3B88480009090A20) = some (.aadd 2 2 (.imm 8), .add .i32 9 9 (.reg 10)) := ⟨rfl, rfl, rfl, rfl⟩
/-- 02: `pblk p2, ttee`. -/
theorem test_decode_block : reads 0x4C0D000000000000 (.pblk 2 false 3 3) := rfl
/-- 07, 12 and 26: group F. -/
theorem test_decode_control :
    reads 0xC042C03FFFFFFFFB (.brc 3 true (-5)) ∧ reads 0xC040800000000003 (.brc 2 false 3) ∧ reads 0xC000003FFFFFFFF7 (.bra (-9)) ∧
    reads 0xC200400000000001 (.regroup 1 1) ∧ reads 0xC280000000000000 .nop ∧ reads 0xC30000000000002D (.trap 0x2D) ∧
    reads 0xC601010000000002 (.srd 2 4 4) := ⟨rfl, rfl, rfl, rfl, rfl, rfl, rfl⟩
/-- 15: group J. -/
theorem test_decode_fences : reads 0xC400414000000000 (.fence 1 false 5) ∧ reads 0xC441C14000000004 (.icinv 7 4 5) := ⟨rfl, rfl⟩
/-- 08, 21, 25 and 26: groups G and H. -/
theorem test_decode_memory :
    reads 0x80080402A0000010 (.ld .f32 (atV 2 1 0 2 16)) ∧ reads 0x804C0402A6800000 (.st .f32 { atV 3 1 0 2 0 with order := .acqRel, scope := 5 }) ∧
    reads 0x800813FC60000010 (.ld .z32 (at0 2 4 16)) ∧ reads 0x81880BFC00000000 (.lda (at0 2 2 0)) ∧
    reads 0x82481002A0000040 (.lds .f32 (atV 2 4 0 2 64)) ∧ reads 0x82E44004C0000000 (.ldsw .b32 (atV 9 16 1 0 0)) := ⟨rfl, rfl, rfl, rfl, rfl, rfl⟩
/-- 15 and 25: group I. -/
theorem test_decode_atomics :
    reads 0x84940BFCA6C00000 (.atomf 8 .f32 { at0 5 2 0 with order := .acqRel, scope := 5 }) ∧
    reads 0x84D40BFCA6C00000 (.atomord 8 .f32 { at0 5 2 0 with order := .acqRel, scope := 5 }) := ⟨rfl, rfl⟩
/-- 11, 18, 21, 22 and 33: group K. -/
theorem test_decode_barriers :
    reads 0xA000000000000007 (.barw 7) ∧ reads 0xA000000000000006 (.barw 6) ∧ reads 0xA100000000405000 (.tbarWait 4 5) ∧ reads 0xA1C0000000905000 (.monArm 9 5) ∧
    reads 0xA241000000300000 (.stgAcq 3 1) ∧ reads 0xA281000000000000 (.stgCommit 1) ∧ reads 0xA2C1000000300000 (.stgTake 3 1) ∧
    reads 0xA301000000000000 (.stgFree 1) := ⟨rfl, rfl, rfl, rfl, rfl, rfl, rfl, rfl⟩
/-- 15: group L. -/
theorem test_decode_tiles : reads 0xA545000000309020 (.tstAon 5 3 9) := rfl
/-- 18 and 21: group M. -/
theorem test_decode_copies :
    reads 0xA803009000600005 (.cpG2t 3 6 { bar := some 9, tag := 2, bd := none }) ∧
    reads 0xA8C2180000305160 (.cpGather 2 2 3 5 3 6 { bar := none, tag := 0, bd := none }) ∧ reads 0xAA00000000207004 (.cpStamp 2 7 4 false) ∧
    reads 0xA800009000400001 (.cpG2t 0 4 { bar := some 9, tag := 0, bd := none }) := ⟨rfl, rfl, rfl, rfl⟩
/-- 29 and 33: group N. -/
theorem test_decode_zones :
    reads 0xAC01183000405000 (.lzOpen 4 1 5 6 3) ∧ reads 0xAD02140000406001 (.lzSend 4 5 2 6 1) ∧ reads 0xACC0000000605001 (.lzReserveWait 6 5) ∧
    reads 0xAD00180000505005 (.lzSendAny 5 6 0 5 1) ∧ reads 0xAD80000000300000 (.lzWait 0 3) ∧ reads 0xAC80000000F00002 (.lzStatus 15 0 2) ∧
    reads 0xADC0000001100000 (.lzAck 0 17) ∧ reads 0xAE00000000700000 (.lzClean 0 7) := ⟨rfl, rfl, rfl, rfl, rfl, rfl, rfl, rfl⟩
/-- 16 and 32: group O. -/
theorem test_decode_channels :
    reads 0xB0C2000000500009 (.chRecv 2 5 (some 1)) ∧ reads 0xB00000000030C003 (.chBindR 0 3 (some 12)) ∧ reads 0xB000000000800000 (.chBindW 0 8 none) ∧
    reads 0xB001000000800001 (.chBindR 1 8 none) ∧ reads 0xB080000000800000 (.chSend 0 8) := ⟨rfl, rfl, rfl, rfl, rfl⟩
/-- 19, 21 and 22: group P. -/
theorem test_decode_matrix :
    reads 0xB404040100000000 (.mbLoad 1 4 1) ∧ reads 0xB482040101000000 (.mmaQ 2 1 1 16 0 0 false) ∧ reads 0xB480000101000001 (.mmaQ 0 0 1 16 0 0 true) ∧
    reads 0xB646087000300008 (.accDrain 6 2 0 (some 7) 3 false) ∧ reads 0xB542000000000000 (.mwait 2) := ⟨rfl, rfl, rfl, rfl, rfl⟩
/-- 20, 22 and 23: groups Q and R. -/
theorem test_decode_slots_and_bounds :
    reads 0xB800000300400000 (.fsQuery 4 3 0) ∧ reads 0xB840000300506000 (.fsLoad 5 3 6) ∧ reads 0xB880000300000000 (.fsFence 3) ∧
    reads 0xB8C0000300000000 (.fsPin 3) ∧ reads 0xB900000300000000 (.fsUnpin 3) ∧ reads 0xBA00000200405002 (.bdSet 2 2 0 4 5) ∧
    reads 0xBA40000200000000 (.bdClr 2) ∧ reads 0xBA80000200600000 (.bdStat 6 2 0) := ⟨rfl, rfl, rfl, rfl, rfl, rfl, rfl, rfl⟩
/-- 11: group S. -/
theorem test_decode_work : reads 0xBC40000000503000 (.join 5 3) := rfl
/-- 21: the epilogue words of the printed run. -/
theorem test_decode_epilogue :
    decodeTableWord 32 0x78000000 = some (.eBias 0 0 0) ∧ decodeTableWord 32 0x30040000 = some (.eMax 0 0 1) ∧
    decodeTableWord 32 0x8A000003 = some (.eCvt 2 0 3 0) ∧ decodeTableWord 32 0x08401F00 = some (.eSt 2 0 32) ∧
    decodeTableWord 32 0x98000000 = some .eEnd := ⟨rfl, rfl, rfl, rfl, rfl⟩
/-- 02 (R21, R22, R45): a word of zeros, a word of ones, an X word alone and classes 011 and 111 are no instruction. -/
theorem test_decode_refuses :
    decodeTableWord 64 0 = none ∧ decodeTableWord 64 0xFFFFFFFFFFFFFFFF = none ∧ decodeTableWord 64 0x6000000000123457 = none := ⟨rfl, rfl, rfl⟩
/-- 02: the word of `fadd.f32.rup v2, v2, v3` lies in memory as the bytes 00 20 0A 30 20 20 00 02. -/
theorem test_encode_bytes : (encode (.fadd .f32 2 2 (.reg 3) .rup)).map (leBytes 8) = [[0x00, 0x20, 0x0A, 0x30, 0x20, 0x20, 0x00, 0x02]] := by decide

/-! Ill-formed terms: one for each check of `wellFormed`, with the rule it follows. -/

/-- R9, R24, R83: types, register numbers, even pairs, immediates. -/
theorem smoke_vector_integers :
    [Instr.add .i8 1 2 (.reg 3), .add .b32 1 2 (.reg 3), .add .i32 256 2 (.reg 3), .add .i64 1 2 (.reg 4), .sub .i64 2 3 (.reg 4), .mul .i64 2 4 (.reg 5),
     .min .i32 1 2 (.imm 65536), .max .i32 1 2 (.ext 4294967296), .add .i64 2 4 (.ext 2305843009213693952), .mulhi .i16 1 2 (.reg 3), .div .z16 1 2 (.reg 3),
     .rem .f32 1 2 (.reg 3), .mad .i16 1 2 3 4, .mad .i64 2 4 6 7, .abs .z32 1 2, .abs .i64 2 3].all (fun i => !wellFormed i) = true := by decide
/-- R83 to R90: bits, fields, selections, compares and moves. -/
theorem smoke_vector_bits :
    [Instr.and .i32 1 2 (.reg 3), .or .f32 1 2 (.reg 3), .xor .b64 1 2 (.reg 4), .andn .b64 2 4 (.reg 5), .shl .i32 1 2 (.reg 3), .shr .b32 1 2 (.reg 256),
     .sar .b64 2 3 (.reg 4), .rotl .b32 1 2 (.ext 4294967296), .clz .i32 1 2, .popc .b64 1 3, .brev .b64 1 2, .bfx .b32 1 2 0 8, .bfx .i32 1 2 64 8,
     .bfx .i32 1 2 0 0, .bfx .i32 1 2 0 33, .bfi .b64 2 4 5 6, .sel .b32 1 2 3 8, .sel .i32 1 2 3 0, .cmp .i32 .un 1 2 (.reg 3) .plain, .cmp .b32 .lt 1 2 (.reg 3) .plain,
     .cmp .i32 .eq 8 2 (.reg 3) .plain, .cmp .i32 .eq 1 2 (.reg 3) (.both 8), .mov .i32 1 2 false, .mov .b32 1 2 true, .mov .pred 8 2 false, .movi .b32 1 (.reg 2),
     .movi .i16 1 (.imm 2), .movi .b32 1 (.imm 65536), .movi .f16 1 (.ext 0x10000), .movi .b64 1 (.imm 2)].all (fun i => !wellFormed i) = true := by decide
/-- R103 to R121: floats, conversions, packing, scaling. -/
theorem smoke_floats :
    [Instr.fadd .i32 1 2 (.reg 3) .rne, .fmul .f32 1 256 (.reg 3) .rne, .fmin .f32 1 2 (.imm 65536) true, .ffma .b32 1 2 3 4 .rne, .ffma .f32 1 2 3 256 .rne,
     .frcp .b32 1 2 .rne, .fsqrt .f32 1 256 .rne, .fsin .i32 1 2, .fcmp .f32 .eq 8 2 (.reg 3) .plain, .fcmp .f32 .eq 1 2 (.reg 3) (.either 8),
     .fclass .i32 1 2, .fclassAny .f32 8 2 1, .fclassAny .f32 1 2 1024, .cvt .b32 .f32 1 2 .rne, .cvt .i64 .f32 1 2 .rne, .cvt .f32 .i64 1 3 .rne, .cvt .i32 .i64 1 2 .rtz,
     .fpack .i32 1 2 0 0 0 0 .rne, .fpack .f32 1 2 0 16 0 0 .rne, .fpack .f32 1 2 0 0 4 0 .rne, .funpack .f32 1 2 0 0 0 3 .rne, .fscale .i32 1 2 (.reg 3) .rne,
     .fscaleStored .f32 1 2 3 4 0 false .rne, .fscaleStored .f32 1 2 3 0 8 false .rne, .fscaleStored .f32 1 2 255 3 1 false .rne].all (fun i => !wellFormed i) = true := by
  decide
/-- R178 to R182: lanes. -/
theorem smoke_lanes :
    [Instr.shfl 4 1 2 (.reg 3), .voteAny 8 1, .voteAll 1 8, .voteBallot 256 1, .voteEq 1 256, .redux 0 .i16 1 2, .redux 3 .i32 1 2, .redux 6 .i32 1 2, .redux 9 .f32 1 2,
     .matchLanes .i32 1 2, .matchLanes .b64 1 3].all (fun i => !wellFormed i) = true := by decide
/-- R93 to R99: groups D and E. -/
theorem smoke_uniform :
    [Instr.kadd 32 1 (.reg 2), .ksub 1 32 (.reg 2), .kmul 1 2 (.reg 32), .kand 1 2 (.imm 65536), .kmin .i32 1 2 (.reg 3), .kcmp .b64 .lt 1 2 (.reg 3), .kcmp .i64 .eq 8 2 (.reg 3),
     .ksel 1 2 3 8, .kmov 1 32, .kmovi 1 (.reg 2), .kbfx .b64 1 2 0 8, .kbfx .i64 1 2 0 0, .kpopc 32 1, .kbcast .i32 1 2, .kbcast .b64 1 2, .kpick .i64 1 2 (.reg 3),
     .kpick .b64 1 3 (.reg 3), .amov 16 1, .aset 1 2 (.ext 0), .aset 1 32 (.reg 1), .aget 1 16, .agetHi 32 1, .aadd 16 1 (.reg 2), .aaddv .b32 1 2 3 0, .aaddv .i32 1 2 3 4,
     .acmp .un 1 2 3, .adiff 1 16 2, .aalignDn 1 2 80, .aalignUp 1 16 0].all (fun i => !wellFormed i) = true := by decide
/-- R28, R29, R31, R100: the scalar half of a P word; a block prefix. -/
theorem smoke_pairs_and_blocks :
    [Instr.pairWord { kimm := 0, sop := 11, kd := 1, ka := 1, kb := 1, vop := 0, vd := 1, va := 1, vb := 1, type := 2, mod := 0 },
     .pairWord { kimm := 1, sop := 13, kd := 1, ka := 1, kb := 0, vop := 0, vd := 1, va := 1, vb := 1, type := 2, mod := 0 },
     .pairWord { kimm := 0, sop := 14, kd := 1, ka := 0, kb := 1, vop := 0, vd := 1, va := 1, vb := 1, type := 2, mod := 0 },
     .pairWord { kimm := 0, sop := 23, kd := 16, ka := 1, kb := 1, vop := 0, vd := 1, va := 1, vb := 1, type := 2, mod := 0 },
     .pairWord { kimm := 0, sop := 0, kd := 1, ka := 1, kb := 1, vop := 4, vd := 1, va := 1, vb := 1, type := 2, mod := 0 },
     .pairWord { kimm := 0, sop := 0, kd := 32, ka := 1, kb := 1, vop := 0, vd := 1, va := 1, vb := 1, type := 2, mod := 0 },
     .pblk 8 false 0 0, .pblk 0 false 8 0, .pblk 0 false 1 4].all (fun i => !wellFormed i) = true := by decide
/-- R38, R122 to R135, R251: control, fences, special registers. -/
theorem smoke_control :
    [Instr.bra 137438953472, .bra (-137438953473), .brc 8 false 0, .brkNz 32 0, .jmp 16 0, .callr 16 0, .regroup 256 1, .regroup 1 33, .sleep 4294967296, .sleepReg 32,
     .trap 65536, .brkpt 65536, .fence 4 false 1, .fence 0 false 0, .fence 0 false 7, .icinv 16 1 2, .icinv 1 1048576 2, .icinv 1 1 1, .icinv 1 1 6, .dcwb 16 1, .dcinv 1 1048576,
     .srd 2 1 20, .srd 4 1 2, .srd 1 1 2, .srd 2 32 2, .srd 3 16 2, .swr 2 1 0, .swr 4 1 6, .swr 0 256 6, .clock 32, .clockTime 32].all (fun i => !wellFormed i) = true := by
  decide
/-- R36, R138, R145, R242, R245: memory operands, their order and scope, and the types of each access. -/
theorem smoke_memory :
    [Instr.ld .f32 { at0 16 1 0 with disp := 0 }, .ld .f32 { at0 1 256 0 with disp := 0 }, .ld .f32 { at0 1 1 0 with scale := 1 }, .st .f32 { at0 1 1 0 with disp := 4194304 },
     .st .f32 { at0 1 1 0 with disp := -4194305 }, .ld .f32 { at0 1 1 0 with scope := 2 }, .ld .f32 { at0 1 1 0 with order := .acqRel }, .ld .f32 { at0 1 1 0 with order := .strong, scope := 7 },
     .ld .pred (at0 1 1 0), .st .b64 (at0 1 1 0), .ldw .b32 (at0 1 2 0), .stw .b64 (at0 1 4 0), .ldw .f32 (at0 1 4 0), .ldk .f32 (at0 1 1 0), .stk .b64 (at0 1 32 0), .lda (at0 1 16 0),
     .sta (at0 16 1 0), .pf (at0 1 2 0), .pf { at0 1 0 0 with scope := 1 }, .lds .f32 { at0 1 1 0 with scope := 1 }, .sts .pred (at0 1 1 0), .ldsw .b32 (at0 1 3 0), .stsw .b64 (at0 1 12 0),
     .atom 0 .i16 (at0 1 1 0), .atom 7 .b32 (at0 1 1 0), .atom 0 .i32 { at0 1 1 0 with disp := 262144 }, .atomcas .b32 (at0 1 255 0), .atomcas .b64 (at0 1 3 0), .atomcas .i32 (at0 1 1 0),
     .atomf 0 .f32 (at0 1 1 0), .atomord 7 .b32 (at0 1 1 0), .red 6 .b32 (at0 1 1 0), .atoms 8 .i32 (at0 1 1 0), .atoms 0 .i32 { at0 1 1 0 with scope := 7 }].all (fun i => !wellFormed i) = true := by
  decide
/-- R183, R256, R310 to R316: barriers, rings, tiles, copies. -/
theorem smoke_barriers_tiles_copies :
    [Instr.barw 0, .barw 8, .tbarInit 32 1, .tbarWait 1 32, .tbarArrive 32, .tbarTest 8 1 2, .monArm 32 1, .stgAcq 1 4, .stgCommit 4, .tdef 64 1 1, .tfree 64, .tstate 32 1,
     .tld 1 16 .plain 0, .tst 1 1 .plain 2, .tst 1 1 .acqRel 0, .tstAon 1 1 16, .tldv 64 1 1, .tmap 1 16, .tunmap 1 .strong 7, .trot 64,
     .cpG2t 64 1 { bar := none, tag := 0, bd := none }, .cpG2t 1 1 { bar := some 32, tag := 0, bd := none }, .cpG2t 1 1 { bar := none, tag := 8, bd := none },
     .cpG2t 1 1 { bar := none, tag := 0, bd := some 1 }, .cpT2g 1 1 { bar := none, tag := 0, bd := some 16 }, .cpG2g 1 1 32 { bar := none, tag := 0, bd := none },
     .cpGather 10 1 1 1 0 1 { bar := none, tag := 0, bd := none }, .cpScatter 0 1 1 4 1 1 { bar := none, tag := 0, bd := none }, .cpFill 16 1 1 { bar := none, tag := 0, bd := none },
     .cpFillTile 64 1 { bar := none, tag := 0, bd := none }, .cpT2t 1 64 1 { bar := none, tag := 0, bd := none }, .cpT2tReg 1 1 32 { bar := none, tag := 0, bd := none },
     .cpMcast 1 1 1 32 { bar := none, tag := 0, bd := none }, .cpStamp 1 1 256 false].all (fun i => !wellFormed i) = true := by decide
/-- R276, R434: zones and channels. -/
theorem smoke_zones_and_channels :
    [Instr.lzOpen 32 1 1 1 1, .lzOpen 1 8 1 1 1, .lzClose 8, .lzStatus 1 1 5, .lzReserve 1 32, .lzSend 1 1 1 1 4, .lzSendAny 1 1 64 1 0, .lzAbort 32 1 1, .lzWait 8 1, .lzAck 8 1, .lzClean 1 32,
     .chBindW 8 1 none, .chBindR 1 1 (some 256), .chUnbind 8, .chClose 8, .chSend 8 1, .chRecv 1 1 (some 8), .chTryRecv 1 1 8, .chTrySend 1 256 1, .chSendt 1 64, .chRecvt 1 64 none,
     .chStat 1 1 12, .chStatNum 1 32 0].all (fun i => !wellFormed i) = true := by decide
/-- R185, R324, R339, R355, R381: the matrix unit, slots, bound registers, work, epilogue words. -/
theorem smoke_matrix_slots_work :
    [Instr.mbLoad 4 1 1, .mbLoad 1 1 16, .mbFree 4, .mmaQ 16 1 1 1 1 1 false, .mmaQ 1 1 1 1 1 4 false, .mmaT 1 1 1 64 false, .mwait 16, .accZero 16, .accRd 4 1 1 1, .accWr 0 16 1 1,
     .accDrain 64 1 1 none 1 false, .accDrain 1 1 8 none 1 false, .accDrain 1 1 1 (some 64) 1 false, .epiLoad 8 1, .mstat 32, .fsQuery 1 1 7, .fsLoad 1 16 1, .fsFence 16, .fsPin 16,
     .bdSet 16 1 0 1 1, .bdSet 1 0 0 1 1, .bdSet 1 4 0 1 1, .bdSet 1 1 5 1 1, .bdClr 16, .bdStat 1 1 4, .bdStatClr 32 1 0, .spawn 1 16, .join 32 1, .grow 1 32, .gwSignal 1 16,
     .wid 0 1 8, .wid 2 1 0, .wid 1 1 0, .widFrame 16, .eLd 8 1, .eLd 1 256, .eSt 1 1 0, .eSt 1 1 129, .eAdd 8 1 1, .eFma 1 1 1 8, .eAbs 1 8, .eCmp 1 1 1 8, .eBias 1 1 256,
     .eScale 1 1 256, .eScale 1 1 (-257), .eCvt 1 1 16 0, .eCvt 1 1 1 8, .eBound 1 1 16].all (fun i => !wellFormed i) = true := by decide
/-- R9, R45 check 5: a register at or above the thread's allocation. -/
theorem smoke_allocation :
    let w : Wg := { hdr := { vregs := 1 } }
    w.alloc = 8 ∧ w.inAlloc (.add .i32 7 6 (.reg 5)) = true ∧ w.inAlloc (.add .i32 8 6 (.reg 5)) = false ∧ w.inAlloc (.add .i64 6 4 (.reg 8)) = false :=
  ⟨rfl, rfl, rfl, rfl⟩

/-! ## Witnesses

For every statement of Obligations.lean that has hypotheses, a theorem `witness_<name>` gives concrete states and operands that meet them, clause by
clause. The states are built from these: a workgroup of four threads in slot 2 of core 3, of function 0 and launch 5, whose threads 0 and 1 issue; the
core translates the page at 0x20000 to this device's frame 0x40000, strongly ordered. -/

def thread (i : Nat) : Thread :=
  { v := [(1, BitVec.ofNat 32 (5 + i)), (2, 7), (3, BitVec.ofNat 32 (2 * i)), (4, BitVec.ofNat 32 (8 * i))],
    k := [(1, 16), (2, 3), (3, 4), (5, 128), (6, 256), (7, 24), (8, 1)],
    a := [(1, BitVec.ofNat 80 (0x20000 + 64 * i)), (2, 0x10004), (3, 0x20200), (4, 0x10040)],
    p := if i % 2 = 0 then [(1, true)] else [(2, true)], pc := 0x10000, rs := [0x10040], wid := i, lane := i, stackbase := 0x500000 }
/-- The header of the launch; roles 0 copy, 1 matrix, 2 vector. -/
def header (role : Nat) : Header :=
  { entry := 0x10000, handler := 0x30000, vregs := 4, threads := 4, widths := [4], scratch := 1, roles := [role], tiles := 6, rings := [2, 0, 3, 0],
    zones := 3, qregs := 4, accs := 4, slotmask := 8 }
def tile (n : Nat) : Tile := { state := .ready, m := n == 2, d := n == 3, size := 4, base := 4 * n, version := 7 }
def group (role : Nat) : Wg :=
  { hdr := header role, launch := 5, threads := (upFrom 0 4).map thread, warps := [{}], g := 1, gran := 2, tags := [16],
    qs := List.replicate 8 none, bds := List.replicate 16 {}, macs := [(0, 2), (1, 3)],
    rings := [{ ip := 1, ic := 0, full := [true, false], phase := [false, true], heldP := [false, false], heldC := [false, false] }, {},
              { ip := 2, ic := 1, full := [false, true, true], heldP := [false, false, true], heldC := [false, true, false] }, {}],
    tiles := [{}, tile 1, tile 2, tile 3, { tile 4 with state := .filling }, tile 5],
    zones := [{ open_ := true, name := 5 * 2 ^ 32, base := 8192, pend := 1, slots := [{ state := .arrived }, { state := .torn }, {}] }, {}, {}] }
def pte (kind : Nat) : Pte := { frame := 0x40000, kind, w := true, rd := true, x := true }
def bar : BarWord := { gen := 3, init := 5, pend := 2, goal := 9, landed := 9 }
def core3 : Core := { owner := some 0, cycle0 := 3, tlb := [(1, pte 0), (2, pte 0)], scratch := scratchPut [] (2 * 32768 + 16) (leBytes 8 bar.toNat) }
def launch5 : Launch := { id := 5, hdr := header 2, count := 8 }
def fn0 : Fn := { state := 1, launches := [launch5] }
def machine (w : Wg) : Mach :=
  { ig := some { core := 3, slot := 2, threads := [0, 1], pc := 0x10000, w := 0, ext := none }, wgs := [(194, w)], fns := [(0, fn0)], cores := [(3, core3)],
    mem := Memory.writeL [] 0x400000000 ((upFrom 1 64).map (BitVec.ofNat 8)), seq := 4, nextId := 9 }
def stateOf (m : Mach) : State := { clk := { cycle := 900, time := 500 }, m }
/-- The state in which the workgroup's threads 0 and 1 issue, and their context. -/
def at_ (w : Wg) : State := stateOf (machine w)
def ctxOf (m : Mach) : Ctx := m.ctx?.getD { m, ig := { core := 0, slot := 0, threads := [], pc := 0, w := 0, ext := none }, wg := {}, act := [] }
def ctx (w : Wg) : Ctx := ctxOf (machine w)

theorem issues_of {s : State} {c : Ctx} (h : s.m.ctx? = some c) : Issues s c := h
/-- `Reaches` from its parts, each a computation. -/
theorem reaches_of {s : State} {c : Ctx} {k : Access} {n align : Nat} {js : List Nat} {va pa : Nat → Nat}
    (h : ∀ j ∈ js, va j % align = 0 ∧ va j % 65536 + n ≤ 65536 ∧ (tget (s.m.core c.core).tlb (va j / 65536)).map (fun p => transPte p (va j) k) = some (.ok (pa j) 0) ∧
      ∀ l ∈ linesOf (pa j) n, tget (s.m.core c.core).l1 l = none ∧ l ∉ s.m.poison) : Reaches s c k n align js va pa := by
  intro j hj
  obtain ⟨h1, h2, h3, h4⟩ := h j hj
  refine ⟨h1, h2, ?_, h4⟩
  cases e : tget (s.m.core c.core).tlb (va j / 65536) with
  | none => simp [e] at h3
  | some p => exact ⟨p, rfl, by simpa [e] using h3⟩
/-- `EngineAt` from its parts. -/
theorem engineAt_of {s : State} {core : Nat} {k : Access} {va n pa : Nat} (h1 : 0 < n) (h2 : va % 65536 + n ≤ 65536)
    (h3 : (tget (s.m.core core).tlb (va / 65536)).map (fun p => transPte p va k) = some (.ok pa 0)) (h4 : (s.m.core core).l1 = []) (h5 : s.m.poison = []) :
    EngineAt s core k va n pa := by
  refine ⟨h1, h2, ?_, h4, by simp [h5]⟩
  cases e : tget (s.m.core core).tlb (va / 65536) with
  | none => simp [e] at h3
  | some p => exact ⟨p, rfl, by simpa [e] using h3⟩
/-- `FwAt` from its parts. -/
theorem fwAt_of {s : State} {vf va n kind : Nat} {ks : List Access} {pa : Nat} (h1 : 0 < n) (h2 : va % 65536 + n ≤ 65536) (h3 : ks ≠ [])
    (h4 : ks.all (fun k => decide (translate s.m vf va k = .ok pa kind)) = true) (h5 : (s.m.core 1280).l1 = []) (h6 : s.m.poison = []) : FwAt s vf va n ks pa :=
  ⟨h1, h2, h3, ⟨kind, fun k hk => by simpa using List.all_eq_true.mp h4 k hk⟩, h5, by simp [h6]⟩
/-- A tile that nothing outstanding and no queued command names. -/
theorem noJob {x : Tile} (h : x.job = none) : ∀ id, x.job ≠ some (.command id) := by simp [h]
theorem noMonitor_of {s : State} (h : s.m.wgs.all (fun e => e.2.threads.all (fun t => decide (t.mon = none))) = true) : NoMonitor s :=
  fun e he t ht => by simpa using List.all_eq_true.mp (List.all_eq_true.mp h e he) t ht

/-- The vector group: VectorIntegerArithmetic, VectorBits, FieldInsert, SelectCompareMove, DivisionAndRemainder, FloatNumbers,
FloatCompareConvertScale, LaneInstructions, ScalarInstructions and ThreadControl (`sleep` of a nonzero and of a zero register: k1 and k20). -/
theorem witness_registers : Issues (at_ (group 2)) (ctx (group 2)) ∧ (∀ src dst, NotMapped (ctx (group 2)) src dst) ∧ (ctx (group 2)).act = [0, 1] ∧
    (lead (ctx (group 2))).getK 1 ≠ 0 ∧ (lead (ctx (group 2))).getK 20 = 0 := ⟨rfl, fun _ _ => ⟨rfl, rfl⟩, rfl, by decide, by decide⟩
/-- One thread with `n` entries on its return stack, issuing. -/
def alone (n : Nat) : Mach :=
  { machine { group 2 with threads := [{ thread 0 with rs := List.replicate n 8 }] } with ig := some { core := 3, slot := 2, threads := [0], pc := 0x10000, w := 0, ext := none } }
/-- v1 mapped to channel 9, which does not exist, and v2 to channel 8, which is empty. -/
def mapped : Mach :=
  { machine { group 2 with qs := [some { chan := 9, reader := false, map := some 1 }, some { chan := 8, reader := true, map := some 2 }] } with
    fns := [(0, { fn0 with chans := [(8, {})] })] }
/-- v1 mapped to channel 9, which has just room for two elements more (or for none), and v2 to channel 8, which holds just two. -/
def flowing (room : Nat) : Mach :=
  { mapped with fns := [(0, { fn0 with chans := [(8, { bobbin := [leBytes 4 11, leBytes 4 12] }), (9, { bobbin := List.replicate (1024 - room) [] })] })] }
/-- PairsAndMappedRegisters: an operand pops, and a result is pushed. -/
theorem witness_MappedRegisters :
    Issues (stateOf (flowing 2)) (ctxOf (flowing 2)) ∧ (ctxOf (flowing 2)).act.length = 2 ∧ Quiet (stateOf (flowing 2)) (ctxOf (flowing 2)) ∧
    NoneHeld (ctxOf (flowing 2)) ∧ (ctxOf (flowing 2)).behind [0] = false ∧ (ctxOf (flowing 2)).behind [1] = false ∧
    ((regOpOf (.add .i32 5 2 (.reg 3))).map (fun op => ((ctxOf (flowing 2)).wg.mappedTo true op.src, (ctxOf (flowing 2)).wg.mappedTo false op.dst)) =
      some ([(1, { chan := 8, reader := true, map := some 2 })], [])) ∧
    ((regOpOf (.add .i32 1 3 (.reg 3))).map (fun op => ((ctxOf (flowing 2)).wg.mappedTo true op.src, (ctxOf (flowing 2)).wg.mappedTo false op.dst)) =
      some ([], [(0, { chan := 9, reader := false, map := some 1 })])) ∧
    ((flowing 2).chan? 0 8).map (fun ch => (ch.x, ch.bobbin.length)) = some (false, 2) ∧
    ((flowing 2).chan? 0 9).map (fun ch => (ch.x, ch.state, ch.spooled, ch.bobbin.length + 2 - ch.bcap)) = some (false, 1, [], 0) :=
  ⟨issues_of (by decide +kernel), by decide +kernel, ⟨rfl, rfl, rfl⟩, .inl rfl, by decide +kernel, by decide +kernel, by decide +kernel, by decide +kernel, by decide +kernel,
   by decide +kernel⟩
/-- The threads stand in a block. -/
def inBlock : Wg := { group 2 with threads := (upFrom 0 4).map (fun i => { thread i with blk := some { prefixPc := 0xfff8, count := 3, slot := 0, guards := 6 } }) }
/-- The threads stand in handlers. -/
def inHandler : Wg := { group 2 with threads := (upFrom 0 4).map (fun i => { thread i with trapH := true, trappc := 0x10018, pblk := 0x8305 }) }

/-- PairsAndMappedRegisters: a legal pair; a result mapped to a channel that does not exist; an operand mapped to an empty one. -/
theorem witness_PairsAndMappedRegisters :
    legal (.pairWord { kimm := 1, sop := 0, kd := 1, ka := 1, kb := 4, vop := 32, vd := 2, va := 2, vb := 3, type := 10, mod := 0 }) = true ∧
    Issues (stateOf mapped) (ctxOf mapped) ∧ (ctxOf mapped).act ≠ [] ∧ (regOpOf (.add .i32 1 3 (.reg 3))).map (·.dst) = some [1] ∧
    (ctxOf mapped).wg.mappedTo false [1] = [(0, { chan := 9, reader := false, map := some 1 })] ∧ mapped.chan? 0 9 = none ∧
    (ctxOf mapped).wg.mappedTo true [2] = [(1, { chan := 8, reader := true, map := some 2 })] ∧ mapped.chan? 0 8 = some {} ∧ ({} : Chan).popState 2 = .block ∧
    (ctxOf mapped).wg.mappedTo false [5] = [] := ⟨by decide, rfl, by decide, rfl, rfl, rfl, rfl, rfl, by decide, rfl⟩
/-- PredicateBlock: outside a block, and inside one. -/
theorem witness_PredicateBlock :
    (∀ j ∈ (ctx (group 2)).ig.threads, ((ctx (group 2)).wg.thread j).blk = none ∧ ((ctx (group 2)).wg.thread j).reenter = none) ∧
    Issues (at_ inBlock) (ctx inBlock) ∧ (ctx inBlock).ig.threads ≠ [] ∧ ∀ j ∈ (ctx inBlock).ig.threads, ((ctx inBlock).wg.thread j).blk ≠ none :=
  ⟨by decide, rfl, by decide, by decide⟩
theorem aligned_of {c : Ctx} {tgt : Thread → Option Addr} (h : ∀ j ∈ c.act, (tgt (c.wg.thread j)).all (fun a => decide (a.toNat % 8 = 0)) = true) : Aligned c tgt := by
  intro j hj a e
  simpa [e] using h j hj
theorem firstMisaligned_of {c : Ctx} {tgt : Thread → Option Addr} {j : Nat} {a : Addr} (h1 : j ∈ c.act) (h2 : tgt (c.wg.thread j) = some a) (h3 : a.toNat % 8 ≠ 0)
    (h4 : ∀ i ∈ c.act, i = j ∨ (c.wg.thread j).lane < (c.wg.thread i).lane) : FirstMisaligned c tgt j a := ⟨h1, h2, h3, fun i hi _ _ _ => h4 i hi⟩
/-- ControlTransfers: aligned and misaligned targets (a4 and a2), room on the return stack, an empty stack, a full one. -/
theorem witness_ControlTransfers :
    Aligned (ctx (group 2)) (fun _ => some (rel (ctx (group 2)) 5)) ∧ Aligned (ctx (group 2)) (fun t => some (relA 4 0 t)) ∧
    Aligned (ctx (group 2)) (fun t => t.rs.head?) ∧ FirstMisaligned (ctx (group 2)) (fun t => some (relA 2 0 t)) 0 0x10004 ∧
    (∀ j ∈ (ctx (group 2)).act, ((ctx (group 2)).wg.thread j).rs.length < 16 ∧ ((ctx (group 2)).wg.thread j).rs ≠ []) ∧
    Issues (stateOf (alone 0)) (ctxOf (alone 0)) ∧ (ctxOf (alone 0)).act = [0] ∧ ((ctxOf (alone 0)).wg.thread 0).rs = [] ∧
    Issues (stateOf (alone 16)) (ctxOf (alone 16)) ∧ (ctxOf (alone 16)).act = [0] ∧ ((ctxOf (alone 16)).wg.thread 0).rs.length = 16 ∧
    (ctxOf (alone 16)).wg.hdr.priv = 0 ∧ (rel (ctxOf (alone 16)) 5).toNat % 8 = 0 :=
  ⟨aligned_of (by decide +kernel), aligned_of (by decide +kernel), aligned_of (by decide +kernel),
   firstMisaligned_of (by decide) (by decide +kernel) (by decide) (by decide), by decide, rfl, rfl, rfl, rfl, rfl, rfl, rfl, by decide +kernel⟩
/-- TrapAndBreakpoint and WhereInstructionsTrap's guards: a group whose threads are all guarded off. -/
def guardedOff : Wg := { group 2 with threads := (upFrom 0 4).map (fun i => { thread i with blk := some { prefixPc := 0xfff8, count := 3, slot := 0, guards := 0 } }) }
theorem witness_TrapAndBreakpoint : Issues (at_ guardedOff) (ctx guardedOff) ∧ (ctx guardedOff).act = [] ∧ (ctx (group 2)).act ≠ [] := ⟨rfl, rfl, by decide⟩
/-- TrapsAndReturns: threads with a handler and outside it; a thread inside one, whose launch is then killed; returns from inside, and outside. -/
theorem witness_TrapsAndReturns :
    (machine (group 2)).wg? 3 2 = some (group 2) ∧ (group 2).hdr.handler ≠ 0 ∧ (∀ i ∈ [0, 1], ((group 2).thread i).trapH = false) ∧
    (machine inHandler).wg? 3 2 = some inHandler ∧ (∃ i ∈ [0, 1], inHandler.hdr.handler = 0 ∨ (inHandler.thread i).trapH = true) ∧
    (machine inHandler).launchKilled 0 5 = false ∧ inHandler.ending = false ∧ Issues (at_ inHandler) (ctx inHandler) ∧ (ctx inHandler).act ≠ [] ∧
    (∀ j ∈ (ctx inHandler).act, ((ctx inHandler).wg.thread j).trapH = true) ∧ Aligned (ctx inHandler) (fun t => some t.trappc) ∧
    ∃ j ∈ (ctx (group 2)).act, ((ctx (group 2)).wg.thread j).trapH = false :=
  ⟨rfl, by decide, by decide, rfl, ⟨0, by decide, .inr rfl⟩, rfl, rfl, rfl, by decide, by decide, aligned_of (by decide +kernel), ⟨0, by decide, rfl⟩⟩
/-- SpecialRegisters: in a handler, and outside one (witness_TrapsAndReturns gives the threads). -/
theorem witness_SpecialRegisters : Issues (at_ inHandler) (ctx inHandler) ∧ (∀ j ∈ (ctx inHandler).act, ((ctx inHandler).wg.thread j).trapH = true) ∧
    Issues (at_ (group 2)) (ctx (group 2)) ∧ ∃ j ∈ (ctx (group 2)).act, ((ctx (group 2)).wg.thread j).trapH = false :=
  ⟨rfl, by decide, rfl, 0, by decide, rfl⟩

/-- A Pleat record and a scaled one (R70, R72). -/
def pleat : Fmt := { kind := 0, ebits := 5, w := 4, flags := 8, fracbits := 4 }
def scaled : Fmt := { kind := 1, ebits := 4, w := 3, flags := 0, expbits := 2, fracbits := 1, bias := 1 }
/-- Slot 3 of core 3 holds `f`; the registers reach to v63. -/
def slotted (f : Fmt) : Mach := { machine { group 2 with hdr := { header 2 with vregs := 8 } } with cores := [(3, { core3 with planes := [(3, { p0 := some f })] })] }
/-- PackAndUnpack: 16 elements of a Pleat record and 32 of a scaled one; 16 elements of a scaled record are cause 0x06. -/
theorem witness_PackAndUnpack :
    (Issues (stateOf (slotted pleat)) (ctxOf (slotted pleat)) ∧ (slotted pleat).plane 3 3 = some pleat ∧ (ctxOf (slotted pleat)).wg.holds 3 = true ∧
      pleat.countOk 16 = true ∧ 40 + 16 ≤ (ctxOf (slotted pleat)).wg.alloc ∧ 4 + pleat.packedRegs 16 ≤ (ctxOf (slotted pleat)).wg.alloc ∧
      ∀ src dst, NotMapped (ctxOf (slotted pleat)) src dst) ∧
    (Issues (stateOf (slotted scaled)) (ctxOf (slotted scaled)) ∧ (slotted scaled).plane 3 3 = some scaled ∧ scaled.countOk 32 = true ∧ scaled.countOk 16 = false) :=
  ⟨⟨rfl, rfl, rfl, rfl, by decide, by decide, fun _ _ => ⟨rfl, rfl⟩⟩, rfl, rfl, rfl, rfl⟩
/-- PackAndUnpack: a slot with no record, one that is not the launch's, a span past the allocation, and the scale register just below its end. -/
theorem witness_PackAndUnpack_refused :
    ((slotted pleat).plane 3 4 = none ∧ (slotted pleat).plane 3 3 = some pleat ∧ { (ctxOf (slotted pleat)).wg with hdr := { header 2 with slotmask := 0 } }.holds 3 = false) ∧
    (¬49 + 16 ≤ (ctxOf (slotted pleat)).wg.alloc ∧ scaled.kind = 1 ∧ 63 < (ctxOf (slotted scaled)).wg.alloc ∧ ¬64 < (ctxOf (slotted scaled)).wg.alloc) :=
  ⟨⟨rfl, rfl, rfl⟩, by decide, rfl, by decide, by decide⟩

/-- The physical address of a byte of the page at 0x20000. -/
def paOf (va : Nat) : Nat := 0x400000000 + va % 65536
/-- Loads, Stores, Atomics and CacheInstructions (prefetch): thread 0's line and thread 1's, 64 bytes on; the last 4 bytes of the page. -/
theorem witness_memory :
    Ordinary (ctx (group 2)) ∧ Proper (ctx (group 2)) ∧ NoMonitor (at_ (group 2)) ∧ Memory.wf (at_ (group 2)).m.mem = true ∧
    Reaches (at_ (group 2)) (ctx (group 2)) .read 4 4 [0, 1] (eaOf (ctx (group 2)) (at0 1 5 0)) (fun j => paOf (eaOf (ctx (group 2)) (at0 1 5 0) j)) ∧
    Reaches (at_ (group 2)) (ctx (group 2)) .write 4 4 [0, 1] (eaOf (ctx (group 2)) (at0 1 5 0)) (fun j => paOf (eaOf (ctx (group 2)) (at0 1 5 0) j)) ∧
    Reaches (at_ (group 2)) (ctx (group 2)) .read 16 16 [0, 1] (eaOf (ctx (group 2)) (at0 1 5 0)) (fun j => paOf (eaOf (ctx (group 2)) (at0 1 5 0) j)) ∧
    Reaches (at_ (group 2)) (ctx (group 2)) .read 4 4 [0] (eaOf (ctx (group 2)) (at0 1 5 65532)) (fun j => paOf (eaOf (ctx (group 2)) (at0 1 5 65532) j)) ∧
    lanesOf (ctx (group 2)) false = [0, 1] ∧ lanesOf (ctx (group 2)) true = [0] :=
  ⟨⟨rfl, rfl, rfl⟩, ⟨by decide, by decide⟩, noMonitor_of rfl, rfl, reaches_of (by decide +kernel), reaches_of (by decide +kernel), reaches_of (by decide +kernel),
   reaches_of (by decide +kernel), rfl, rfl⟩
/-- Loads and Stores, the second parts: on a reordering-coherent page, every access passes Check. -/
def coherent : Mach := { machine (group 2) with cores := [(3, { core3 with tlb := [(2, pte 1)] })] }
theorem witness_pass_check :
    Issues (stateOf coherent) (ctxOf coherent) ∧ (ctxOf coherent).wg.hdr.ordered = false ∧
    (let accs := sortBy (·.lane) ((ctxOf coherent).accs (at0 1 5 0) 4 false)
     checkParts (coherent.partsOf 3 0 [.read] accs).2 4 accs (coherent.partsOf 3 0 [.read] accs).1 = .ok (coherent.partsOf 3 0 [.read] accs).1 ∧
     checkParts (coherent.partsOf 3 0 [.write] accs).2 4 accs (coherent.partsOf 3 0 [.write] accs).1 = .ok (coherent.partsOf 3 0 [.write] accs).1 ∧
     ∀ p ∈ (coherent.partsOf 3 0 [.read] accs).1, (coherent.partsOf 3 0 [.read] accs).2.poisoned (stateOf coherent).clk 3 (attrOf (at0 1 5 0)) p = none) :=
  ⟨rfl, rfl, by decide +kernel, by decide +kernel, by decide +kernel⟩
def noTags : Wg := { group 2 with tags := [] }
def byV4 : MemOp := { at0 1 3 0 with index := 4 }
/-- ScratchpadAccesses and Atomics (`atoms`): offsets 16 and 24 by k1 and v4; the last four bytes of the grant. -/
theorem witness_scratchpad :
    Issues (at_ noTags) (ctx noTags) ∧ (ctx noTags).wg.sbuf = [] ∧
    (∀ j ∈ (ctx noTags).act, 0 ≤ (ctx noTags).soff byV4 j ∧ (ctx noTags).soff byV4 j + 4 ≤ (ctx noTags).wg.scratchBytes ∧ (ctx noTags).soff byV4 j % 4 = 0 ∧
      (machine noTags).scratchPoison 3 2 ((ctx noTags).soff byV4 j).toNat 4 = none ∧ (ctx noTags).wg.liveIn ((ctx noTags).soff byV4 j).toNat 4 = false) ∧
    (ctx noTags).soff (at0 1 3 32748) 0 + 4 = (ctx noTags).wg.scratchBytes :=
  ⟨issues_of (by decide +kernel), rfl, by decide +kernel, by decide +kernel⟩
/-- Atomics: what each kind of atomic needs is in witness_memory and witness_scratchpad; a type of 32 bits, and of 64. -/
theorem witness_Atomics : Ty.bits .z32 = 32 ∧ Ty.bits .b64 = 64 ∧ Ordinary (ctx (group 2)) ∧
    Reaches (at_ (group 2)) (ctx (group 2)) .read 8 8 [0, 1] (eaOf (ctx (group 2)) (at0 1 5 0)) (fun j => paOf (eaOf (ctx (group 2)) (at0 1 5 0) j)) ∧
    Reaches (at_ (group 2)) (ctx (group 2)) .write 8 8 [0, 1] (eaOf (ctx (group 2)) (at0 1 5 0)) (fun j => paOf (eaOf (ctx (group 2)) (at0 1 5 0) j)) :=
  ⟨rfl, rfl, ⟨rfl, rfl, rfl⟩, reaches_of (by decide +kernel), reaches_of (by decide +kernel)⟩
/-- A core whose L1 holds a line, half of it dirty. -/
def line0 : Line := { bytes := List.replicate 128 3, dirty := List.replicate 64 true ++ List.replicate 64 false, filled := 5, firstWrite := some 7 }
def cached : Mach := { machine (group 2) with cores := [(3, { core3 with tlb := [(2, pte 1)], l1 := [(0x8000000, line0)] })] }
/-- CacheInstructions: a line to write back; a prefetch of a line that is there; fences with nothing buffered; no line for `icinv`. -/
theorem witness_CacheInstructions :
    tget (cached.core 3).l1 0x8000000 = some line0 ∧ line0.bytes.length = 128 ∧ line0.dirty.length = 128 ∧ Memory.wf cached.mem = true ∧
    Issues (stateOf cached) (ctxOf cached) ∧
    (∀ j ∈ (ctxOf cached).act, transPte (pte 1) (eaOf (ctxOf cached) (at0 3 0 (-512)) j) .read = .ok 0x400000000 1 ∧ (tget (cached.core 3).l1 (lineOf 0x400000000)).isSome = true) ∧
    (ctxOf cached).wg.hdr.ordered = false ∧ (ctxOf cached).wg.sbuf = [] ∧ ((at_ (group 2)).m.core (ctx (group 2)).core).l1 = [] :=
  ⟨rfl, by decide +kernel, by decide +kernel, rfl, rfl, by decide +kernel, rfl, rfl, rfl⟩
/-- WhereInstructionsTrap: a2 is not a multiple of 8 and thread 0 has the lowest lane; a vector warp is of neither of the other roles. -/
theorem witness_WhereInstructionsTrap :
    (sortBy (·.lane) ((ctx (group 2)).accs (at0 2 6 0) 8 false)).find? (fun a => a.va % 8 != 0) = some { thread := 0, lane := 0, va := 0x10004, n := 8 } ∧
    (ctx (group 2)).role = 2 ∧ (ctx (group 2)).role ≠ 0 ∧ (ctx (group 2)).role ≠ 1 ∧ (ctx (group 2)).act ≠ [] :=
  ⟨by decide +kernel, rfl, by decide, by decide, by decide⟩

/-- The machine with the barrier word at 16 standing as `b`. -/
def barred (b : BarWord) : Mach := { machine (group 2) with cores := [(3, { core3 with scratch := scratchPut [] (2 * 32768 + 16) (leBytes 8 b.toNat) })] }
/-- Barriers: the word at offset 16 (k1) with arrivals left and bytes landed, at its last arrival, and with no arrival pending; offset 24 (k7) names no live
word; k2 = 3 is misaligned; a role under the mask, and one outside it. -/
theorem witness_Barriers :
    (4 : Nat).testBit (ctx (group 2)).role = true ∧ (3 : Nat).testBit (ctx (group 2)).role = false ∧
    BarAt (ctx (group 2)) 1 16 true ∧ BarAt (ctx (group 2)) 7 24 false ∧ (machine (group 2)).barWord 3 2 16 = bar ∧ bar.pend ≠ 1 ∧ 2 ≤ bar.pend ∧
    (barred { bar with pend := 1 }).barWord 3 2 16 = { bar with pend := 1 } ∧ bar.landed = bar.goal ∧
    (1 ≤ kOf (ctx (group 2)) 8 ∧ kOf (ctx (group 2)) 8 ≤ 1024) ∧ kOf (ctx (group 2)) 3 % 4 = 0 ∧ bar.goal + kOf (ctx (group 2)) 3 / 4 < 2 ^ 19 ∧
    kOf (ctx (group 2)) 2 % 2 ^ 32 % 8 ≠ 0 :=
  ⟨rfl, rfl, ⟨by decide, rfl, rfl, by decide, rfl⟩, ⟨by decide, rfl, rfl, by decide, rfl⟩, by decide +kernel, by decide, by decide, by decide +kernel, rfl, by decide,
   by decide, by decide, by decide⟩
/-- Threads with their monitor armed on line 5: stored to, or not. -/
def armed (hit : Bool) : Wg := { group 2 with threads := (upFrom 0 4).map (fun i => { thread i with mon := some (5, hit) }) }
theorem witness_Monitors :
    Ordinary (ctx (group 2)) ∧ ((at_ (group 2)).m.core 3).l1 = [] ∧
    Reaches (at_ (group 2)) (ctx (group 2)) .read 8 8 ((ctx (group 2)).act.take 1) (fun _ => aOf (ctx (group 2)) 1) (fun _ => 0x400000000) ∧
    Issues (at_ (armed true)) (ctx (armed true)) ∧ (∀ j ∈ (ctx (armed true)).act, ((ctx (armed true)).wg.thread j).mon = some (5, true)) ∧
    Issues (at_ (armed false)) (ctx (armed false)) ∧ (∀ j ∈ (ctx (armed false)).act, ((ctx (armed false)).wg.thread j).mon = some (5, false)) :=
  ⟨⟨rfl, rfl, rfl⟩, rfl, reaches_of (by decide +kernel), rfl, by decide, rfl, by decide⟩
/-- StageRings: ring 0 of two stages (stage 1 free to acquire, stage 0 full and free to take), ring 2 of three (stage 2 full and held by both sides, stage 1
full and held by its consumer); and rings with an empty stage. -/
theorem witness_StageRings :
    RingIs (ctx (group 2)) 0 2 ((group 2).rings.getD 0 {}) ∧ RingIs (ctx (group 2)) 2 3 ((group 2).rings.getD 2 {}) ∧
    (((group 2).rings.getD 0 {}).full.getD 1 false = false ∧ ((group 2).rings.getD 0 {}).heldP.getD 1 false = false ∧ (ctx (group 2)).mustQueue 0 true = false) ∧
    (((group 2).rings.getD 0 {}).full.getD 0 false = true ∧ ((group 2).rings.getD 0 {}).heldC.getD 0 false = false ∧ (ctx (group 2)).mustQueue 0 false = false) ∧
    (((group 2).rings.getD 2 {}).full.getD 2 false = true ∧ ((group 2).rings.getD 2 {}).heldP.getD 2 false = true) ∧
    (((group 2).rings.getD 2 {}).heldC.getD 1 false = true) ∧
    (∃ w : Wg, RingIs (ctx w) 0 2 { ip := 0, ic := 1, full := [true, false] } ∧ Issues (at_ w) (ctx w)) :=
  ⟨⟨by decide, rfl, by decide, rfl⟩, ⟨by decide, rfl, by decide, rfl⟩, ⟨rfl, rfl, rfl⟩, ⟨rfl, rfl, rfl⟩, ⟨rfl, rfl⟩, rfl,
   { group 2 with rings := [{ ip := 0, ic := 1, full := [true, false] }, {}, {}, {}] }, ⟨by decide, rfl, by decide, rfl⟩, rfl⟩
/-- The sixteen workgroups of a block (R7), each in slot 2 of a core of its own; those of `waiting` wait to rotate tile 1. -/
def block (waiting : Nat) : Mach :=
  { machine { group 2 with g := 0, hdr := { header 2 with cspan := true } } with
    ig := some { core := 0, slot := 2, threads := [0, 1], pc := 0x10000, w := 0, ext := none },
    cores := [(0, { core3 with cycle0 := 3 })],
    wgs := (upFrom 0 16).map (fun k => (64 * k + 2,
      { group 2 with g := k, hdr := { header 2 with cspan := true },
                     threads := (upFrom 0 4).map (fun i => { thread i with status := if 1 ≤ k ∧ k ≤ waiting then .waiting (.rotation 1 false) else .ready }) })) }
/-- Tiles, control: tile 0 empty and not mapped, tile 1 ready, tile 2 ready, mapped and clean, tile 3 ready with bytes stored since; a1 is aligned and a2 is
not; the grant is six tiles. -/
theorem witness_Tiles_control :
    (group 2).tiles.getD 0 {} = {} ∧ kOf (ctx (group 2)) 5 = 128 ∧ kOf (ctx (group 2)) 6 = 256 ∧ kOf (ctx (group 2)) 6 + kOf (ctx (group 2)) 5 ≤ (ctx (group 2)).wg.scratchBytes ∧
    TileReady (ctx (group 2)) 1 (tile 1) ∧ TileReady (ctx (group 2)) 2 (tile 2) ∧ TileReady (ctx (group 2)) 5 (tile 5) ∧ (tile 1).m = false ∧ (tile 2).m = true ∧ (tile 2).d = false ∧
    aOf (ctx (group 2)) 1 % 128 = 0 ∧ aOf (ctx (group 2)) 2 % 128 ≠ 0 ∧ (ctx (group 2)).wg.hdr.tiles = 6 :=
  ⟨rfl, rfl, rfl, by decide, ⟨by decide, by decide, rfl, rfl, rfl, noJob rfl⟩, ⟨by decide, by decide, rfl, rfl, rfl, noJob rfl⟩, ⟨by decide, by decide, rfl, rfl, rfl, noJob rfl⟩, rfl, rfl, rfl,
   by decide, by decide, rfl⟩
/-- A mapped tile that has been stored to. -/
def stored (map : Addr) : Tile := { tile 2 with d := true, map }
def storer (map : Addr) : Wg := { group 2 with tiles := [{}, stored map] }
theorem witness_tunmap_of_stored :
    (Issues (at_ (storer 0x20000)) (ctx (storer 0x20000)) ∧ TileReady (ctx (storer 0x20000)) 1 (stored 0x20000) ∧ (stored 0x20000).m = true ∧
      Quiet (at_ (storer 0x20000)) (ctx (storer 0x20000)) ∧ NoneHeld (ctx (storer 0x20000)) ∧ NoMonitor (at_ (storer 0x20000)) ∧
      CleanRegion (at_ (storer 0x20000)) (ctx (storer 0x20000)) (stored 0x20000) ∧ EngineAt (at_ (storer 0x20000)) 3 .write 0x20000 (4 * 128) 0x400000000) ∧
    (Issues (at_ (storer 0x90000)) (ctx (storer 0x90000)) ∧ TileReady (ctx (storer 0x90000)) 1 (stored 0x90000) ∧ NoneHeld (ctx (storer 0x90000)) ∧
      (let r := (machine (storer 0x90000)).bulkTrans 3 0 .write (spansOf 0x90000 (4 * 128)); bulkRes r.2 r.1 ≠ .ok)) :=
  ⟨⟨rfl, ⟨by decide, by decide, rfl, rfl, rfl, noJob rfl⟩, rfl, ⟨rfl, rfl, rfl⟩, .inl rfl, noMonitor_of rfl,
     by show (machine (storer 0x20000)).scratchPoison 3 2 _ _ = none; decide +kernel, engineAt_of (by decide) (by decide) (by decide +kernel) rfl rfl⟩,
   ⟨rfl, ⟨by decide, by decide, rfl, rfl, rfl, noJob rfl⟩, .inl rfl, by decide +kernel⟩⟩
/-- Tiles, transfers: ranges that pass Check to and from a1, a version word at a3 that may be taken; a filling tile; a rotation that waits and one that starts. -/
theorem witness_Tiles_transfers :
    (let r := (machine (group 2)).partsOf 3 0 [.read] ((ctx (group 2)).rangeAccs (aOf (ctx (group 2)) 1) 512)
     Ranged (ctx (group 2)) (machine (group 2)) .read (aOf (ctx (group 2)) 1) (4 * 128) r.1 r.2 ∧
       ∀ p ∈ r.1, r.2.poisoned (at_ (group 2)).clk 3 (tileAttr .plain 0) p = none) ∧
    (let r := (machine (group 2)).partsOf 3 0 [.write] ((ctx (group 2)).rangeAccs (aOf (ctx (group 2)) 1) 512)
     Ranged (ctx (group 2)) (machine (group 2)) .write (aOf (ctx (group 2)) 1) (4 * 128) r.1 r.2 ∧
       r.2.scratchPoison 3 2 ((tile 1).base * 128) ((tile 1).size * 128) = none) ∧
    (Quiet (at_ (group 2)) (ctx (group 2)) ∧ NoneHeld (ctx (group 2)) ∧ NoMonitor (at_ (group 2)) ∧ CleanRegion (at_ (group 2)) (ctx (group 2)) (tile 1) ∧
      aOf (ctx (group 2)) 1 % 16 = 0 ∧ EngineAt (at_ (group 2)) 3 .read (aOf (ctx (group 2)) 1) (4 * 128) 0x400000000 ∧
      EngineAt (at_ (group 2)) 3 .write (aOf (ctx (group 2)) 1) (4 * 128) 0x400000000 ∧
      Reaches (at_ (group 2)) (ctx (group 2)) .read 8 8 ((ctx (group 2)).act.take 1) (fun _ => aOf (ctx (group 2)) 3) (fun _ => 0x400000200) ∧
      Reaches (at_ (group 2)) (ctx (group 2)) .write 8 8 ((ctx (group 2)).act.take 1) (fun _ => aOf (ctx (group 2)) 3) (fun _ => 0x400000200)) ∧
    ((group 2).tiles.getD 4 {}).state = .filling ∧ ((group 2).tiles.getD 4 {}).trap = none :=
  ⟨⟨⟨rfl, by decide +kernel⟩, by decide +kernel⟩, ⟨⟨rfl, by decide +kernel⟩, by decide +kernel⟩,
   ⟨⟨rfl, rfl, rfl⟩, .inl rfl, noMonitor_of rfl, by show (machine (group 2)).scratchPoison 3 2 _ _ = none; decide +kernel, by decide,
    engineAt_of (by decide) (by decide) (by decide +kernel) rfl rfl, engineAt_of (by decide) (by decide) (by decide +kernel) rfl rfl,
    reaches_of (by decide +kernel), reaches_of (by decide +kernel)⟩, rfl, rfl⟩
/-- Tiles, transfers: a version word that is free, one that a writer holds, and one with its top bit set. -/
theorem witness_version_words :
    leNat (Memory.readN (machine (group 2)).mem 0x400000200 8) = 0 ∧ (3 : Nat) % 2 ≠ 0 ∧ ¬(2 ^ 63 + 4 : Nat) < 2 ^ 63 ∧
    leNat (Memory.readN (Memory.writeL (machine (group 2)).mem 0x400000200 (leBytes 8 3)) 0x400000200 8) = 3 := by decide +kernel
theorem witness_rotation :
    Issues (stateOf (block 15)) (ctxOf (block 15)) ∧ TileReady (ctxOf (block 15)) 1 (tile 1) ∧ (ctxOf (block 15)).wg.hdr.cspan = true ∧ (block 15).blockGone 0 5 0 = false ∧
    (let others := ((block 15).block 0 5 0).filter (fun e => !(e.1 == 0 && e.2.1 == 2))
     others.length = 15 ∧ ∀ e ∈ others, e.2.2.rotating 1 false ≠ [] ∧ (e.2.2.tiles.getD 1 {}).turns = true ∧ (e.2.2.tiles.getD 1 {}).size = (tile 1).size) ∧
    (ctxOf (block 15)).wg.rotating 1 false = [] ∧ NoneHeld (ctxOf (block 15)) ∧
    (let others := ((block 14).block 0 5 0).filter (fun e => !(e.1 == 0 && e.2.1 == 2)); ∃ e ∈ others, e.2.2.rotating 1 false = []) :=
  ⟨issues_of (by decide +kernel), ⟨by decide +kernel, by decide +kernel, by decide +kernel, rfl, rfl, noJob rfl⟩, by decide +kernel, by decide +kernel, by decide +kernel, by decide +kernel, .inl rfl,
   by decide +kernel⟩

/-! The copy role, with an open zone (name 5 · 2³²: identifier 0 of function 0 on device 0, generation 5) and four bound channels: 3 to write, 4 to read, 5 and 6
of tiles. k9 holds the zone's name, k10 a slot, k11 and k12 the names of zones of devices 5 and 7, k13 a channel. -/

def zone : Zone :=
  { open_ := true, name := 5 * 2 ^ 32, base := 8192, pend := 1,
    slots := [{ state := .arrived }, { state := .torn }, { state := .reserved, sender := some { dev := 0, vf := 0, header := 0, group := 1 } }, {}] }
def copier : Wg :=
  { group 0 with
    hdr := { header 0 with win := true, vregs := 9 }, zones := [zone, {}, { zone with slots := [{ state := .arrived }] }],
    qs := [some { chan := 3, reader := false, map := none }, some { chan := 4, reader := true, map := none }, some { chan := 5, reader := false, map := none },
           some { chan := 6, reader := true, map := none }],
    threads := (upFrom 0 4).map (fun i => { thread i with
      k := [(1, 16), (2, 3), (3, 4), (5, 128), (6, 256), (7, 24), (8, 1), (9, 5 * 2 ^ 32), (10, 2), (11, 5), (12, 7), (13, 9)] }) }
def bytes (n : Nat) : List Byte := List.replicate n 1
def chan3 : Chan := { esize := 256, bobbin := List.replicate 14 [] }
def chan4 : Chan := { esize := 8, bobbin := [bytes 8, bytes 8] }
def chan5 : Chan := { t := true, esize := 512 }
def chan6 : Chan := { t := true, esize := 512, bobbin := [bytes 512] }
def fnC : Fn := { fn0 with chans := [(3, chan3), (4, chan4), (5, chan5), (6, chan6), (9, {})], zdir := [(0, { gen := 5, taken := true })] }
/-- The machine with this workgroup, its function `f`; device 7 has a route. -/
def machineC (w : Wg) (f : Fn := fnC) : Mach := { machine w with fns := [(0, f)], routes := [(7, [3, 3, 3, 3])] }
def sC : State := stateOf (machineC copier)
def cC : Ctx := ctxOf (machineC copier)

/-- CopyQueue: a core in order, a live barrier (k1) or none; addresses on 16 bytes (a1), lengths (k6), a gather of 16-byte elements at v4 × 2 in the last bytes
of the tile that hold it; another group (k2 = 3), its own (k8 = 1), a multicast to groups 4 and 5 (k3, k2), a register window (k5 = 128: warp 0, register 0). -/
theorem witness_CopyQueue_ready :
    Issues sC cC ∧ CopyReady sC cC ∧ BarOk cC { bar := some 1, tag := 2, bd := some 2 } ∧ BarOk cC { bar := none, tag := 0, bd := none } ∧
    CopyTile cC 1 (tile 1) ∧ CopyTile cC 5 (tile 5) ∧ aOf cC 1 % 16 = 0 ∧ kOf cC 6 % 2 ^ 32 % 16 = 0 := by
  refine ⟨issues_of (by decide +kernel), ⟨⟨rfl, rfl, rfl⟩, .inl rfl, rfl, by decide, by decide⟩, ?_, ?_, ⟨⟨by decide, by decide, rfl, rfl, rfl, noJob rfl⟩, rfl⟩, ⟨⟨by decide, by decide, rfl, rfl, rfl, noJob rfl⟩, rfl⟩,
    by decide, by decide⟩
  · intro r h; cases h; decide +kernel
  · intro r h; cases h
theorem witness_CopyQueue_operands :
    (∀ j ∈ cC.act, ((lead cC).getA 1 + BitVec.ofInt 80 (((cC.wg.thread j).getV 4).toInt * (2 ^ 1 : Nat))).toNat % min 16 16 = 0) ∧
    kOf cC 5 % 4 = 0 ∧ kOf cC 5 + cC.act.length * 16 ≤ 4 * 128 ∧ groupsOf sC cC = 8 ∧ kOf cC 2 = 3 ∧ 3 ≠ cC.wg.g ∧ kOf cC 8 = cC.wg.g ∧ 5 < cC.wg.hdr.tiles ∧
    (upFrom 0 16).filterMap (fun i => if (kOf cC 2).testBit i then some (kOf cC 3 + i) else none) = [4, 5] ∧
    (upFrom 0 16).filterMap (fun i => if (kOf cC 2).testBit i then some (kOf cC 20 + i) else none) = [0, cC.wg.g] ∧
    cC.wg.hdr.win = true ∧ kOf cC 5 % 32 < (cC.wg.hdr.threads + 31) / 32 ∧ kOf cC 5 / 256 % 256 + 4 ≤ cC.wg.alloc :=
  ⟨by decide +kernel, by decide, by decide, by decide +kernel, by decide, by decide, by decide, by decide, by decide +kernel, by decide +kernel, rfl, by decide, by decide⟩
theorem witness_CopyQueue_stamps :
    Reaches sC cC .write 8 8 (cC.act.take 1) (fun _ => aOf cC 1) (fun _ => 0x400000000) ∧ sC.m.stampPage cC.vf (aOf cC 1) = false ∧ aOf cC 1 % 8 = 0 ∧ aOf cC 2 % 8 ≠ 0 :=
  ⟨reaches_of (by decide +kernel), by decide +kernel, by decide, by decide⟩
/-- CopyQueue: 32 commands queued. -/
theorem witness_CopyQueue_full :
    let m := { machineC copier with cores := [(3, { core3 with copies := List.replicate 32 { id := 1, slot := 2, seq := 1, kind := .fill 0 0 0, size := 16, bar := none, tag := 0, bd := none } })] }
    Issues (stateOf m) (ctxOf m) ∧ (ctxOf m).role = 0 ∧ (ctxOf m).act ≠ [] ∧ ((stateOf m).m.core (ctxOf m).core).copies.length = 32 :=
  ⟨issues_of (by decide +kernel), rfl, by decide, rfl⟩
/-- ZoneStatus: an open zone and a closed one, the first selector, the last and one past it. -/
theorem witness_ZoneStatus : Issues sC cC ∧ Quiet sC cC ∧ ZoneIs cC 0 zone ∧ zone.open_ = true ∧ ZoneIs cC 1 {} ∧ (0 : Nat) ≤ 4 ∧ (4 : Nat) ≤ 4 ∧ (4 : Nat) < 5 :=
  ⟨issues_of (by decide +kernel), ⟨rfl, rfl, rfl⟩, ⟨by decide, rfl⟩, rfl, ⟨by decide, rfl⟩, by decide, by decide, by decide⟩
/-- Zones: a closed zone to open (k2 = 3: four slots of 1 KiB, target 1; k20 = 0 the base; a5 = 0 the backing) at directory entry 1, entry 0 being taken; an open
zone whose phase is waited for (k8) or not (k20), with slot 0 arrived (k20), slot 1 torn (k8). -/
theorem witness_Zones :
    (ZoneIs cC 1 {} ∧ kOf cC 2 = (4 - 1) + 256 * 0 + 65536 * (1 - 1) ∧ kOf cC 20 % 1024 = 0 ∧ aOf cC 5 % 65536 = 0 ∧ kOf cC 20 + 4 * 1024 ≤ cC.wg.scratchBytes ∧
      ((tget (sC.m.fn 0).zdir 1).getD {}).taken = false ∧ (∀ j, j < 1 → ((tget (sC.m.fn 0).zdir j).getD {}).taken = true)) ∧
    (ZoneIs cC 0 zone ∧ zone.phase ≠ ((lead cC).getK 8).getLsbD 0 ∧ zone.phase = ((lead cC).getK 20).getLsbD 0 ∧
      (zone.slots.getD (kOf cC 20 % 64) {}).state = .arrived ∧ (zone.slots.getD (kOf cC 8 % 64) {}).state = .torn ∧ kOf cC 8 % 64 < zone.slots.length) := by
  refine ⟨⟨⟨by decide, rfl⟩, by decide, by decide, by decide, by decide, by decide, ?_⟩, ⟨by decide, rfl⟩, by decide, by decide, by decide, by decide, by decide⟩
  intro j hj
  have : j = 0 := by omega
  subst this; decide
/-- Zones, reservations: the zone's own function reserves its slot 3, and gives up slot 2, which it holds; a zone with no slot free; a device that no route
reaches (k11 = 5), and one that a route reaches (k12 = 7). -/
theorem witness_Zones_reservations :
    Issues sC cC ∧ cC.role = 0 ∧ kOf cC 9 % 2048 = sC.m.devnum ∧ sC.m.zoneReach (kOf cC 9) { dev := 0, vf := 0, header := 0, group := 1 } = true ∧
    sC.m.findZone 0 (kOf cC 9) = .at_ (.live 3 2 0) zone ∧ (zone.slots.getD 3 {}).state = .free ∧ (∀ x, x < 3 → (zone.slots.getD x {}).state ≠ .free) ∧
    zone.slots.getD (kOf cC 10 % 64) {} = { state := .reserved, sender := some { dev := 0, vf := 0, header := 0, group := 1 } } ∧
    kOf cC 11 % 2048 ≠ sC.m.devnum ∧ sC.m.unreachable 5 = true ∧ kOf cC 12 % 2048 = 7 ∧ sC.m.unreachable 7 = false := by
  refine ⟨issues_of (by decide +kernel), rfl, by decide, by decide, by decide +kernel, by decide, ?_, by decide, by decide, by decide, by decide, by decide⟩
  intro x hx
  match x, hx with
  | 0, _ => decide
  | 1, _ => decide
  | 2, _ => decide
def fullZone : Zone := { zone with slots := [{ state := .arrived }, { state := .reserved }] }
theorem witness_full_zone : (machineC { copier with zones := [fullZone] }).findZone 0 (5 * 2 ^ 32) = .at_ (.live 3 2 0) fullZone ∧
    ∀ i, i < fullZone.slots.length → (fullZone.slots.getD i {}).state ≠ .free := by
  refine ⟨by decide +kernel, ?_⟩
  intro i hi
  match i, hi with
  | 0, _ => decide
  | 1, _ => decide
/-- Channels: two elements more just fill the bobbin of channel 3; with 15 in it there is room for one only; channel 4 holds just the two elements wanted, or one. -/
theorem witness_Channels_transfers :
    (BoundTo sC cC 0 { chan := 3, reader := false, map := none } chan3 false false ∧ Quiet sC cC ∧ NoneHeld cC ∧ (∀ q < 4, cC.behind [q] = false) ∧ Proper cC ∧ 1 + chan3.esize / 4 ≤ cC.wg.alloc ∧ 1 + chan4.esize / 4 ≤ cC.wg.alloc ∧
      chan3.bobbin.length + cC.act.length ≤ 16 ∧ chan3.bcap = 16 ∧ chan3.state ≠ 3 ∧ chan3.x = false ∧ chan3.spooled = []) ∧
    ({ chan3 with bobbin := List.replicate 15 [] }).free < cC.act.length ∧
    (BoundTo sC cC 1 { chan := 4, reader := true, map := none } chan4 true false ∧ cC.act.length ≤ chan4.bobbin.length ∧ (∀ e ∈ chan4.bobbin, e.length = chan4.esize)) ∧
    (({ chan4 with bobbin := [bytes 8] } : Chan).avail < cC.act.length ∧ chan4.state = 1) :=
  ⟨⟨⟨by decide, rfl, rfl, rfl, rfl⟩, ⟨rfl, rfl, rfl⟩, .inl rfl, by decide +kernel, ⟨by decide, by decide⟩, by decide, by decide, by decide, by decide, by decide, rfl, rfl⟩, by decide,
   ⟨⟨by decide, rfl, rfl, rfl, rfl⟩, by decide, by decide⟩, by decide, rfl⟩
theorem witness_Channels_tiles :
    BoundTo sC cC 2 { chan := 5, reader := false, map := none } chan5 false true ∧ CopyTile cC 1 (tile 1) ∧ chan5.esize = (tile 1).size * 128 ∧ chan5.bobbin.length < chan5.bcap ∧
    BoundTo sC cC 3 { chan := 6, reader := true, map := none } chan6 true true ∧ chan6.bobbin = [bytes 512] :=
  ⟨⟨by decide, rfl, rfl, rfl, rfl⟩, ⟨⟨by decide, by decide, rfl, rfl, rfl, noJob rfl⟩, rfl⟩, rfl, by decide, ⟨by decide, rfl, rfl, rfl, rfl⟩, rfl⟩
/-- Channels, control: an unbound q register and channel 9 (k13) for both ends, mapped to v5; bound ones with no waiter; a number with no channel (k20), and one past
the last (k9). -/
theorem witness_Channels_control :
    (∃ w : Wg, Issues (stateOf (machineC w)) (ctxOf (machineC w)) ∧ 0 < w.hdr.qregs ∧ w.qs.getD 0 none = none ∧ kOf (ctxOf (machineC w)) 13 = 9 ∧
      (machineC w).chan? 0 9 = some {} ∧ (∀ e ∈ w.qs, ∀ x, e = some x → x.map ≠ some 5)) ∧
    (0 < cC.wg.hdr.qregs ∧ cC.wg.qs.getD 0 none = some { chan := 3, reader := false, map := none } ∧ sC.m.chan? 0 3 = some chan3 ∧ cC.wg.waitsOn 0 = []) ∧
    cC.wg.qs.getD 1 none = some { chan := 4, reader := true, map := none } ∧ sC.m.chan? 0 (kOf cC 20) = none ∧ 4096 ≤ kOf cC 9 := by
  refine ⟨⟨{ copier with qs := [none, none, none, none] }, issues_of (by decide +kernel), by decide, rfl, by decide +kernel, rfl, ?_⟩, ⟨by decide, rfl, rfl, rfl⟩, rfl, by decide +kernel, by decide⟩
  decide

/-! The matrix role: tile 1 holds 32 rows of `pleat` just so and tile 5 holds 64; macros 2 and 3 hold a B; k9 = 2⁶⁰ − 8. -/

def matTile (n size : Nat) : Tile := { state := .ready, size, base := n }
def matrix : Wg :=
  { group 1 with
    hdr := { header 1 with vregs := 8 }, tiles := [{}, matTile 0 12, tile 2, tile 3, { tile 4 with state := .filling }, matTile 12 24], bds := List.replicate 16 {},
    acc := [(2048, 5), (2049, 6)],
    threads := (upFrom 0 4).map (fun i => { thread i with
      k := [(1, 16), (2, 3), (3, 4), (5, 128), (6, 256), (7, 24), (8, 1), (9, 1152921504606846968)] }) }
def fmtB : BTile := { fmt := pleat, bytes := [] }
def coreM : Core := { core3 with planes := [(3, { p0 := some pleat }), (5, { p0 := none, p1 := some scaled, cv := 1 })], macs := [(2, { b := some fmtB }), (3, { b := some fmtB })] }
def fnM : Fn := { fn0 with slots := [(3, { fmt := some pleat })] }
def machineM (mats : List MatItem) : Mach := { machine matrix with cores := [(3, { coreM with mats })], fns := [(0, fnM)] }
def sM : State := stateOf (machineM [])
def cM : Ctx := ctxOf (machineM [])
/-- The youngest pass of macro 3: one row, of lane 9; ahead of it a load on macro 1. -/
def pass9 : MatItem := { id := 3, seq := 3, slot := 2, mac := 3, work := .pass 2 true 3 0 pleat 0 [{ row := 9, bytes := [], scales := [] }] none }
def load1 : MatItem := { id := 2, seq := 2, slot := 2, mac := 1, work := .load 1 3 0 pleat }

theorem witness_MatrixWorkQueues :
    Issues sM cM ∧ MatReady cM ∧ MacIs cM 1 3 ∧ SlotIs sM cM 3 0 pleat ∧ AccIs cM 2 ∧ CopyTile cM 1 (matTile 0 12) ∧ pleat.tileBytes 32 = 12 * 128 ∧
    CopyTile cM 5 (matTile 12 24) ∧ pleat.tileBytes 64 = 24 * 128 ∧ (sM.m.core 3).willHoldB 3 = true ∧ (sM.m.core 3).passes 3 = 0 ∧
    52 + pleat.rowBytes / 4 = cM.wg.alloc ∧ OneQuarter cM ∧ kOf cM 3 % 65536 % 4 = 0 ∧ (∀ e ∈ (sM.m.core 3).epis, e.slot = 2 → e.ps ≠ 1) ∧
    sM.m.scratchPoison 3 2 0 1536 = none := by
  refine ⟨issues_of (by decide +kernel), ⟨rfl, by decide⟩, rfl, ⟨rfl, rfl, rfl⟩, ⟨by decide, by decide⟩, ⟨⟨by decide, by decide, rfl, rfl, rfl, noJob rfl⟩, rfl⟩, by decide,
    ⟨⟨by decide, by decide, rfl, rfl, rfl, noJob rfl⟩, rfl⟩, by decide, by decide +kernel, by decide +kernel, by decide, ⟨0, 0, by decide, by decide⟩, by decide, by decide, by decide +kernel⟩
/-- MatrixWorkQueues: a pass that two more rows join. -/
theorem witness_joined_pass :
    Issues (stateOf (machineM [load1, pass9])) (ctxOf (machineM [load1, pass9])) ∧ ((machineM [load1, pass9]).core 3).mats = [load1] ++ [pass9] ∧
    ((machineM [load1, pass9]).core 3).nextBver 3 = 0 ∧ ((machineM [load1, pass9]).core 3).willHoldB 3 = true ∧ ((machineM [load1, pass9]).core 3).passes 3 ≤ 8 ∧
    (∀ j ∈ [load1], j.id ≠ pass9.id ∧ j.seq ≤ pass9.seq) ∧ ((machineM [load1, pass9]).core 3).drains = [] ∧ cM.act.map (fun j => (cM.wg.thread j).lane) = [0, 1] :=
  ⟨issues_of (by decide +kernel), rfl, by decide, by decide, by decide, by decide, rfl, rfl⟩
/-- MatrixWorkQueues: eight passes queued on macro 3. -/
theorem witness_full_macro :
    let m := machineM (List.replicate 8 { pass9 with work := .pass 2 true 3 0 pleat 0 [] (some 9) })
    Issues (stateOf m) (ctxOf m) ∧ MatReady (ctxOf m) ∧ ((stateOf m).m.core 3).willHoldB 3 = true ∧ 8 ≤ ((stateOf m).m.core 3).passes 3 :=
  ⟨issues_of (by decide +kernel), ⟨rfl, by decide⟩, by decide +kernel, by decide +kernel⟩
def zero1 : MatItem := { id := 3, seq := 3, slot := 2, mac := 4, work := .accZero 1 }
/-- Accumulators: nothing outstanding; work on accumulator 1; 32 elements from element 0 into v32 to v63; element 1 is not a multiple of 32. -/
theorem witness_Accumulators :
    Issues sM cM ∧ cM.role = 1 ∧ (∀ p ∈ (sM.m.core 3).loads, p.slot ≠ 2) ∧ (∀ r ∈ (sM.m.core 3).faults, r.slot ≠ 2) ∧ cM.wg.accPoison = [] ∧ AccIs cM 1 ∧ AccFree sM cM 1 ∧ (lead cM).since = none ∧
    (∃ i ∈ ((machineM [zero1]).core 3).mats, i.slot = 2 ∧ i.acc? = some 1) ∧ (sM.m.core 3).mats = [] ∧ (sM.m.core 3).epis = [] ∧
    32 + 8 * 2 ^ 2 = cM.wg.alloc ∧ kOf cM 5 % 64 % 32 = 0 ∧ kOf cM 8 % 64 % 32 ≠ 0 ∧ sortedFrom none cM.wg.acc = true ∧ (∀ j ∈ cM.act, (cM.wg.thread j).lane < 32) ∧
    cM.wg.errps < 8 :=
  ⟨issues_of (by decide +kernel), rfl, by decide, by decide, rfl, ⟨by decide, by decide⟩, ⟨by decide, by decide⟩, rfl, ⟨zero1, by decide, rfl, rfl⟩, rfl, rfl, by decide, by decide, by decide,
   by decide, by decide, by decide⟩
/-- SlotsAndBoundRegisters: an empty slot, a record, a ROM record; a load from an aligned record; work on the other plane; pins; ranges that are and are not. -/
theorem witness_slots :
    sM.m.plane 3 4 = none ∧ sM.m.plane 3 3 = some pleat ∧ sM.m.plane 3 1 = some (romFmt 1) ∧ (romFmt 1).kilvas = true ∧
    (∀ f ∈ [romFmt 1, pleat], f.keyidx < 8 ∧ f.flags < 16 ∧ f.kind < 8 ∧ f.w < 16) ∧ pleat.kilvas = false ∧
    (∀ n ∈ [1, 3, 4], (sM.m.planes 3 n).cv < 2 ∧ (sM.m.pinners 0 n).length < 2 ^ 17 ∧ ((tget (sM.m.fn 0).slots n).getD {}).gen < 2 ^ 16) ∧ Quiet sM cM ∧ NoneHeld cM ∧ aOf cM 1 % 64 = 0 ∧ (∀ core, core = 3 → (sM.m.core core).mats = [] ∧ (sM.m.core core).drains = []) ∧
    1 - (sM.m.planes 3 3).cv = 1 ∧ ((tget (sM.m.fn 0).slots 3).getD {}).fmt = some pleat ∧ 3 ∉ cM.wg.pins ∧ ((tget (sM.m.fn 0).slots 4).getD {}).fmt = none :=
  ⟨rfl, rfl, rfl, rfl, by decide, rfl, by decide +kernel, ⟨rfl, rfl, rfl⟩, .inl rfl, by decide, fun _ h => by subst h; exact ⟨rfl, rfl⟩, rfl, rfl, by decide, rfl⟩
theorem witness_no_matrix_work (core : Nat) : (sM.m.core core).mats = [] ∧ (sM.m.core core).drains = [] := by
  show (((tget [(3, coreM)] core).getD {}).mats = []) ∧ ((tget [(3, coreM)] core).getD {}).drains = []
  simp only [tget]; split
  · exact ⟨rfl, rfl⟩
  · split <;> exact ⟨rfl, rfl⟩
def passOther : MatItem := { pass9 with work := .pass 2 true 3 1 pleat 0 [] none }
theorem witness_other_plane : Issues (stateOf (machineM [passOther])) (ctxOf (machineM [passOther])) ∧ passOther ∈ ((machineM [passOther]).core 3).mats := ⟨issues_of (by decide +kernel), by decide⟩
theorem witness_bounds :
    ((boundVal 0 (kOf cM 20)).isNan = false ∧ (boundVal 0 (kOf cM 20)).lessThan (boundVal 0 (kOf cM 20)) = false) ∧
    ((boundVal 0 (kOf cM 20)).lessThan (boundVal 0 (kOf cM 8)) = true) ∧ (boundVal 0 0x7FC00000).isNan = true ∧
    (cM.wg.bds.getD 2 {}).policy < 4 ∧ (cM.wg.bds.getD 2 {}).type < 8 ∧ (cM.wg.bds.getD 2 {}).count < 65536 :=
  ⟨by decide +kernel, by decide +kernel, by decide +kernel, by decide, by decide, by decide⟩
/-- WorkInstructions: a launch that may still grow by 2⁶⁰ − 9 groups but not by k9; a record at a1, and a join at it with one left to come and with more; a word to signal. -/
def joinMem (n : Nat) : Mach := { machineM [] with mem := Memory.writeL [] 0x400000038 (leBytes 4 n) }
theorem witness_WorkInstructions :
    (sM.m.fn 0).launches.find? (·.id == cM.wg.launch) = some launch5 ∧ 2 ^ (64 - launch5.hdr.widths.headD 1) - 1 < launch5.count + kOf cM 9 ∧
    launch5.count + kOf cM 8 ≤ 2 ^ (64 - launch5.hdr.widths.headD 1) - 1 ∧ Quiet sM cM ∧ NoMonitor sM ∧
    Reaches sM cM .write 8 8 (cM.act.take 1) (fun _ => aOf cM 1) (fun _ => 0x400000000) ∧ Reaches sM cM .read 64 64 (cM.act.take 1) (fun _ => aOf cM 1) (fun _ => 0x400000000) ∧
    Reaches sM cM .read 4 4 (cM.act.take 1) (fun _ => aOf cM 1 + 56) (fun _ => 0x400000038) ∧ Reaches sM cM .write 4 4 (cM.act.take 1) (fun _ => aOf cM 1 + 56) (fun _ => 0x400000038) ∧
    aOf cM 1 % 64 = 0 ∧ aOf cM 1 + 64 ≤ 2 ^ 80 ∧ (∀ p, (tget (sM.m.fn 0).queues p).getD [] = []) ∧
    leNat (Memory.readN (joinMem 0).mem 0x400000038 4) = 0 ∧ leNat (Memory.readN (joinMem 1).mem 0x400000038 4) = 1 ∧ leNat (Memory.readN (joinMem 2).mem 0x400000038 4) = 2 ∧ sM.m.poison = [] :=
  ⟨rfl, by decide, by decide, ⟨rfl, rfl, rfl⟩, noMonitor_of (by decide +kernel), reaches_of (by decide +kernel), reaches_of (by decide +kernel), reaches_of (by decide +kernel),
   reaches_of (by decide +kernel), by decide, by decide, fun _ => rfl, by decide +kernel, by decide +kernel, by decide +kernel, rfl⟩

/-- A running drain of accumulator 1 to tile 5, with the words of 21's program store but the first, and a row in e0. -/
def drain (tv : Option Nat) (row : Nat) : Drain :=
  { id := 7, seq := 2, slot := 2, acc := 1, ps := 0, words := [0x30040000, 0x8A000003, 0x08401F00, 0x98000000], td := 5, tv, stride := 48, z := false,
    fmts := [(3, 0, pleat)], bds := [(2, {})], seed := 0, running := true, row, pc := 0, e := [] }
def draining (d : Drain) : Mach := { machineM [] with cores := [(3, { coreM with drains := [d] })], ig := none }
theorem decodeEp_of {w : Nat} (h : (match decodeEp w with | .ok _ => true | .error _ => false) = true) : ∃ i, decodeEp w = .ok i := by
  cases e : decodeEp w with
  | ok i => exact ⟨i, rfl⟩
  | error r => simp [e] at h
/-- EpilogueWords: with a tV and without; the row and the vector within their tiles; a slot and a bound register of the drain; its last row and an earlier one. -/
theorem witness_EpilogueWords :
    DrainAt (stateOf (draining (drain none 3))) 3 (drain none 3) matrix ∧ DrainAt (stateOf (draining (drain (some 1) 31))) 3 (drain (some 1) 31) matrix ∧
    256 * 5 + 256 = (matrix.tiles.getD 1 {}).size * 128 ∧ 31 * 48 + 4 * 0 + 4 * 12 ≤ (matrix.tiles.getD 5 {}).size * 128 ∧
    (drain none 3).fmts.find? (·.1 == 3) = some (3, 0, pleat) ∧ Rm.ofCode 0 = some .rne ∧ (∀ xs, (pleat.encodeRow xs .rne []).subs = []) ∧
    (drain none 3).bds.find? (·.1 == 2) = some (2, {}) ∧ (matrix.bds.getD 2 {}).count < 65536 ∧ 2 < matrix.bds.length ∧
    (drain none 3).z = false ∧ (drain none 3).row < 31 ∧ (drain (some 1) 31).row = 31 ∧ (∃ i, decodeEp ((drain none 3).words.getD 0 0).toNat = .ok i) ∧ noTags.tags = [] :=
  ⟨⟨by decide +kernel, rfl, by decide, decodeEp_of (by decide +kernel)⟩, ⟨by decide +kernel, rfl, by decide, decodeEp_of (by decide +kernel)⟩, by decide, by decide, rfl, rfl,
   fun _ => rfl, rfl, by decide, by decide, rfl, by decide, rfl, decodeEp_of (by decide +kernel), rfl⟩

/-- EpilogueWords: a row of ones against [0, 1], where every element is in range; of twos and against [2, 3], above and below; and a NaN; one error short of the
counter's end. -/
def ones : List V32 := List.replicate 64 0x3F800000
def ranged (pol lo hi n : Nat) : Bound := { policy := pol, lo, hi, count := n, v := true }
theorem witness_eBound :
    (ones.find? (fun x => (boundVal 0 x.toNat).isNan || (boundVal 0 x.toNat).lessThan (boundVal 0 (ranged 1 0 0x3F800000 0).lo) ||
      (boundVal 0 (ranged 1 0 0x3F800000 0).hi).lessThan (boundVal 0 x.toNat)) = none) ∧
    (boundVal 0 0x3F800000).lessThan (boundVal 0 0x40000000) = true ∧ (boundVal 0 0x7FC00000).isNan = true ∧ (ranged 2 0x40000000 0x40400000 65534).count + 1 ≤ 65535 ∧
    min (65534 + 64) 65535 = 65535 ∧ matrix.accPoison = [] ∧ (drain none 3).trapBound = none :=
  ⟨by decide +kernel, by decide +kernel, by decide +kernel, by decide, rfl, rfl, by decide +kernel⟩

/-! ## Witnesses for the events: states just at the moment of each event (cycle 900, time 500) -/

/-- The machine with this workgroup, and core 3 as `c`. -/
def machineE (w : Wg) (c : Core := core3) : Mach := { machine w with ig := none, cores := [(3, c)] }
def sE (w : Wg) (c : Core := core3) : State := stateOf (machineE w c)
/-- Three threads ready at three PCs, and one asleep; a streak of 4,096 issues at the first of them; warp number 5. -/
def streaky (until_ : Nat) : Wg :=
  { group 2 with threads := [thread 0, { thread 1 with pc := 0x10008 }, { thread 2 with pc := 0x10010 }, { thread 3 with status := .asleep until_, pc := 0x9998 }],
                 warps := [{ num := 5, streak := 4096, mark := 0x10008 }], rebuild := [(1, 900), (2, 901)] }
def load4 (lanes : List (Nat × List Piece)) : Core := { core3 with loads := [{ id := 1, slot := 2, dst := .v .b32 4, threads := lanes.map (·.1), lanes }] }
def watching (hit : Bool) : Wg := { group 2 with threads := [{ thread 0 with status := .waiting .monitor, mon := some (5, hit), since := some (3, 2) }] }
def aged (t : Nat) : Wg := { group 2 with hdr := { header 2 with rollback := true }, sbuf := [{ dev := none, pa := 0x400000000, data := [1, 2, 3], time := t }] }
theorem witness_CoreEvents_threads :
    (machineE (streaky 500)).wg? 3 2 = some (streaky 500) ∧
    (machineE (streaky 500)).nextWarp (sE (streaky 500)).clk 3 = some (2, 0, 5) ∧ (streaky 500).fusedOf 0 = none ∧
    ((machineE (streaky 500)).eligible 3 2 (streaky 500) 0).length = 3 ∧ 4096 ≤ ((streaky 500).warps.getD 0 {}).streak ∧
    ((streaky 500).thread 3).status = .asleep 500 ∧ ((streaky 501).thread 3).status = .asleep 501 ∧
    (streaky 500).rebuild.find? (fun e => e.1 == 1) = some (1, 900) ∧ (streaky 500).rebuild.find? (fun e => e.1 == 2) = some (2, 901) ∧
    ((watching true).thread 0).status = .waiting .monitor ∧ ((watching true).thread 0).mon = some (5, true) ∧ ((watching false).thread 0).mon = some (5, false) ∧
    ((watching false).thread 0).since = some (3, 2) :=
  ⟨rfl, by decide +kernel, rfl, by decide +kernel, by decide, rfl, rfl, rfl, rfl, rfl, rfl, rfl, rfl⟩
theorem witness_CoreEvents_memory :
    (load4 [(0, [.got (bytes 4)]), (1, [.got (bytes 4)])]).loads.find? (·.id == 1) = some { id := 1, slot := 2, dst := .v .b32 4, threads := [0, 1], lanes := [0, 1].map (fun i => (i, [.got (bytes 4)])) } ∧
    (load4 [(0, [.owed 4])]).loads.map (fun p => (p.lanes, p.order, p.keyed)) = [([(0, [.owed 4])], .plain, false)] ∧ (bytes 4).length = 4 ∧
    (tget (cached.core 3).l1 0x8000000 = some line0 ∧ line0.dirty.any id = true ∧ ({ line0 with dirty := List.replicate 128 false } : Line).dirty.any id = false) ∧
    ((aged 5).sbuf.map (fun b => (b.dev, b.ord)) = [(none, none)] ∧ (aged 5).sealed = 0 ∧ (aged 5).hdr.rollback = true ∧ core3.l1 = [] ∧ NoMonitor (sE (aged 5))) ∧
    5 + 2 ^ 20 ≤ 1048581 ∧ ¬5 + 2 ^ 20 ≤ 1048580 :=
  ⟨rfl, rfl, by decide, ⟨rfl, by decide, by decide +kernel⟩, ⟨rfl, rfl, rfl, rfl, noMonitor_of (by decide +kernel)⟩, by decide, by decide⟩

/-- A tile of two units, mapped at 0x20000, busy with a job. -/
def busyTile (st : TileState) (j : TileJob) : Tile := { state := st, m := true, size := 2, base := 3, version := 7, map := 0x20000, job := some j }
def busyWg (st : TileState) (j : TileJob) : Wg := { noTags with tiles := [{}, busyTile st j] }
/-- Function 0's tables map 0x20000 to `entry`, for agents with no translation cache (R211): five levels of one entry each, to the pages 0x50001 to 0x50005. -/
def tables (entry : Nat) : List Host.Cell :=
  Memory.writeL [(0x0, 3), (0x2, 1), (0x4, 5), (0x500010000, 3), (0x500010002, 2), (0x500010004, 5), (0x500020000, 3), (0x500020002, 3), (0x500020004, 5),
    (0x500030000, 3), (0x500030002, 4), (0x500030004, 5), (0x500040000, 3), (0x500040002, 5), (0x500040004, 5)]
    0x500050020 (leBytes 16 entry)
/-- A strongly ordered page to read and write, in frame 0x40000; a channel page; a discarded page with policies 0 and 1; and what may not be written. -/
def rwEntry : Nat := 0x40000 * 65536 + 1 + 8 + 16
def chanEntry : Nat := rwEntry + 192
def readOnly : Nat := 0x40000 * 65536 + 1 + 8
def unmapped (policy : Nat) : Nat := policy * 2 ^ 76 + 0x40000 * 65536 + 8 + 16
def mapped' (entry : Nat) (w : Wg) (f : Fn) (m : List Host.Cell := []) : State :=
  stateOf { machineE w with fns := [(0, f)], mem := m.foldl (fun x c => Memory.write x c.1 c.2) (tables entry) }
theorem witness_EngineEvents_tiles :
    (∀ st j, Plain (sE (busyWg st j)) 3 2 (busyWg st j) ∧ TileJobIs (busyWg st j) 1 (busyTile st j) st j) ∧
    EngineAt (sE (busyWg .filling .touch)) 3 .read (busyTile .filling .touch).map.toNat (2 * 128) 0x400000000 ∧
    (let w := busyWg .draining (.unmap [0] .plain 0 false)
     EngineAt (sE w) 3 .write 0x20000 (2 * 128) 0x400000000 ∧ NoMonitor (sE w) ∧ (sE w).m.scratchPoison 3 2 (3 * 128) (2 * 128) = none) :=
  ⟨fun _ _ => ⟨⟨rfl, rfl, rfl, rfl⟩, ⟨rfl, rfl, rfl, rfl⟩⟩, engineAt_of (by decide) (by decide) (by decide +kernel) rfl rfl,
   engineAt_of (by decide) (by decide) (by decide +kernel) rfl rfl, noMonitor_of (by decide +kernel), by decide +kernel⟩
/-- The version word at 0x20200 of a tile whose range is at 0x20000: free, taken by a writer, held off with its top bit. -/
def versioned (st : TileState) (j : TileJob) (v : Nat) : State :=
  stateOf { (sE (busyWg st j)).m with mem := Memory.writeL [] 0x400000200 (leBytes 8 v) }
theorem witness_EngineEvents_versions :
    (∀ st j v, EngineAt (versioned st j v) 3 .read 0x20200 8 0x400000200 ∧ EngineAt (versioned st j v) 3 .write 0x20200 8 0x400000200 ∧
      EngineAt (versioned st j v) 3 .read 0x20000 (2 * 128) 0x400000000 ∧ EngineAt (versioned st j v) 3 .write 0x20000 (2 * 128) 0x400000000) ∧
    NoMonitor (versioned .draining (.storeAon 0x20000 0x20200 [0] none) 0) ∧
    (versioned .draining (.storeAon 0x20000 0x20200 [0] (some 4)) 5).m.scratchPoison 3 2 (3 * 128) (2 * 128) = none ∧
    ([0, 1, 2 ^ 63 + 4].map (fun v => leNat (Memory.readN (versioned .filling (.loadVer 0x20000 0x20200 [0] 16 (some 1)) v).m.mem 0x400000200 8))) = [0, 1, 2 ^ 63 + 4] :=
  ⟨fun _ _ _ => ⟨engineAt_of (by decide) (by decide) (by change (tget core3.tlb _).map _ = _; decide +kernel) rfl rfl,
     engineAt_of (by decide) (by decide) (by change (tget core3.tlb _).map _ = _; decide +kernel) rfl rfl,
     engineAt_of (by decide) (by decide) (by change (tget core3.tlb _).map _ = _; decide +kernel) rfl rfl,
     engineAt_of (by decide) (by decide) (by change (tget core3.tlb _).map _ = _; decide +kernel) rfl rfl⟩,
   noMonitor_of (by decide +kernel), by decide +kernel, by decide +kernel⟩
/-- The sixteen workgroups of a block, each on a core of its own, rotating tile 0. -/
def rotor (i : Nat) : Wg := { noTags with g := 32 + i, tiles := [{ state := .filling, size := 1, base := i, job := some (.rotate false 900) }] }
def rotors : State :=
  stateOf { machine (group 2) with ig := none, wgs := (upFrom 0 16).map (fun i => ((20 + i) * 64, rotor i)), cores := (upFrom 0 16).map (fun i => (20 + i, { scratch := [(0, 1)] })) }
theorem witness_rotation_ends :
    TileJobIs (rotor 5) 0 { state := .filling, size := 1, base := 5, job := some (.rotate false 900) } .filling (.rotate false 900) ∧ Plain rotors 25 0 (rotor 5) ∧
    ((rotors.m.block 0 5 37).map (·.1)).Nodup ∧ ((rotors.m.block 0 5 37).map (fun e => e.2.2.g % 16)).Nodup ∧
    (∀ e ∈ rotors.m.block 0 5 37, rotors.m.wg? e.1 e.2.1 = some e.2.2 ∧ (e.2.2.tiles.getD 0 {}).size = 1 ∧ swf 0 (rotors.m.core e.1).scratch = true) ∧
    (∀ e ∈ rotors.m.block 0 5 37, (rotors.m.block 0 5 37).any (fun f => f.2.2.g % 16 == (e.2.2.g + 15) % 16) = true) ∧ 900 ≤ rotors.clk.cycle ∧ rotors.clk.cycle < 901 :=
  ⟨⟨rfl, rfl, rfl, rfl⟩, ⟨by decide +kernel, rfl, rfl, rfl⟩, by decide +kernel, by decide +kernel, by decide +kernel, by decide +kernel, by decide, by decide⟩

/-- One copy command of 256 bytes, number 6, started. -/
def copy (k : CopyKind) : Copy := { id := 6, slot := 2, seq := 3, kind := k, size := 256, bar := none, tag := 2, bd := none, started := true }
def tilesWg : Wg :=
  { noTags with tiles := [{}, { state := .filling, size := 2, base := 3, version := 7, job := some (.command 6) },
                          { state := .draining, size := 2, base := 5, version := 9, job := some (.command 6) }] }
def copying (cs : List Copy) : State := sE tilesWg { core3 with copies := cs }
theorem witness_EngineEvents_copies :
    Plain (copying [copy (.g2t 1 0x2ff00)]) 3 2 tilesWg ∧
    (copying [{ copy (.fillTile 1 5) with started := false }]).m.nextCopy 3 = some { copy (.fillTile 1 5) with started := false } ∧
    ((copying [copy (.g2t 1 0x2ff00)]).m.core 3).copies.find? (·.id == 6) = some (copy (.g2t 1 0x2ff00)) ∧ (copy (.g2t 1 0x2ff00)).waitFault = none ∧
    256 = (tilesWg.tiles.getD 1 {}).size * 128 ∧ 256 = (tilesWg.tiles.getD 2 {}).size * 128 ∧ (∀ t ∈ [1, 2], (tilesWg.tiles.getD t {}).job = some (.command 6)) ∧ (copy (.t2tReg 1 1 0 4)).bad = none ∧
    EngineAt (copying [copy (.g2t 1 0x2ff00)]) 3 .read 0x2ff00 256 0x40000ff00 ∧ EngineAt (copying [copy (.t2g 0x2ff00 2)]) 3 .write 0x2ff00 256 0x40000ff00 ∧
    ((copying []).m.core 3).poison = [] ∧ NoMonitor (copying []) ∧ (copying []).m.groupEnded 0 5 1 = false ∧
    (copying []).m.wgs.find? (fun e => e.2.vf == 0 && e.2.launch == 5 && e.2.g == 1 && e.2.isGroup) = some (3 * 64 + 2, tilesWg) :=
  ⟨⟨rfl, rfl, rfl, rfl⟩, by decide +kernel, rfl, rfl, rfl, rfl, by decide, rfl, engineAt_of (by decide) (by decide) (by decide +kernel) rfl rfl,
   engineAt_of (by decide) (by decide) (by decide +kernel) rfl rfl, rfl, noMonitor_of (by decide +kernel), by decide +kernel, by decide +kernel⟩
/-- EngineEvents: a stamp with an earlier command it does not cover, and with one it covers; a send whose payload is answered 4. -/
def earlier (tag : Nat) : Copy := { copy (.fill 0 0 0) with id := 1, seq := 1, tag }
def stamp : Copy := copy (.stamp 0x20008 77 4 false)
theorem witness_EngineEvents_stamps :
    (∀ x ∈ [earlier 5, stamp], x.slot = 2 → x.seq < stamp.seq → x.kind.isStamp = false ∧ (4 : Nat).testBit x.tag = false) ∧ (4 : Nat).testBit (earlier 2).tag = true ∧
    ((copying [earlier 5, stamp]).m.core 3).copies.find? (·.id == 6) = some stamp ∧ EngineAt (copying [stamp]) 3 .write 0x20008 8 0x400000008 ∧
    ({ copy (.lzSend 5 3 2 0x20010 1 false) with done := [4], port := 9 } : Copy).done = [4] ∧ (4 : Nat) ≠ 1 ∧ EngineAt (copying []) 3 .write 0x20010 8 0x400000010 :=
  ⟨by decide, rfl, rfl, engineAt_of (by decide) (by decide) (by decide +kernel) rfl rfl, rfl, by decide, engineAt_of (by decide) (by decide) (by decide +kernel) rfl rfl⟩

/-- One piece of work on macro 1 of core 3, number 6; the macro powered and free since cycle 800. -/
def item (w : MatWork) : MatItem := { id := 6, seq := 3, slot := 2, mac := 1, work := w }
def row (r : Nat) : ARow := { row := r, bytes := bytes 48, scales := [] }
def matWg : Wg :=
  { noTags with tiles := [{}, { matTile 3 24 with version := 7 }, { matTile 5 24 with state := .draining, job := some (.command 6) }], acc := [(2048, 0x3f800000)] }
def mac1 : Mac := { b := some { fmt := pleat, bytes := bytes 3072 }, powered := true, busy := 800, lastUse := 700 }
def unit (is : List MatItem) : State := sE matWg { core3 with mats := is, macs := [(1, mac1)] }
def started (i : MatItem) (doneAt : Nat) : MatItem := { i with started := true, doneAt }
def theLoad (t : Nat) : MatItem := item (.load t 3 0 pleat)
def thePass : MatItem := item (.pass 1 false 3 0 pleat 0 [row 4, row 31] none)
theorem witness_MatrixUnit :
    (machineE matWg).wg? 3 2 = some matWg ∧
    (((unit [theLoad 1]).m.core 3).loadOn 1 = none ∧ ((unit [theLoad 1]).m.core 3).nextOn 1 = some (theLoad 1) ∧ mac1.busy ≤ 900 ∧ (matWg.tiles.getD 1 {}).state = .ready) ∧
    (((unit [started (theLoad 2) 900]).m.core 3).loadOn 1 = some (started (theLoad 2) 900) ∧ (matWg.tiles.getD 2 {}).job = some (.command 6) ∧
      (matWg.tiles.getD 2 {}).state = .draining ∧ 900 + (pleat.tileBytes 64 + 127) / 128 ≤ 900 + 96) ∧
    (((unit [started (theLoad 1) 900]).m.core 3).loadOn 1 = some (started (theLoad 1) 900) ∧ (matWg.tiles.getD 1 {}).job ≠ some (.command 6)) ∧
    ((unit [item .free]).m.core 3).nextOn 1 = some (item .free) ∧
    (((unit [thePass]).m.core 3).nextOn 1 = some thePass ∧ ((unit [thePass]).m.core 3).drainBefore 2 1 3 = false ∧ pleat.w < 7) ∧
    ({ pleat with w := 7 } : Fmt).w = 7 ∧ (unit [thePass]).m.clusterToken 0 = none ∧
    (((unit [started thePass 900]).m.core 3).mats.find? (fun j => j.isPass && j.mac == 1 && j.started) = some (started thePass 900) ∧ mac1.b = some { fmt := pleat, bytes := bytes 3072 } ∧
      ((unit [started thePass 900]).m.core 3).accBefore 2 1 3 = false ∧ NoAccWrite (unit [started thePass 900]) 3 ∧ [4, 31].Nodup ∧ sortedFrom none matWg.acc = true) ∧
    (mac1.powered = true ∧ mac1.lastUse + (unit []).m.idle ≤ 700 + 4096) :=
  ⟨rfl, ⟨rfl, rfl, by decide, rfl⟩, ⟨rfl, rfl, rfl, by decide⟩, ⟨rfl, by decide⟩, rfl, ⟨rfl, rfl, by decide⟩, rfl, by decide +kernel,
   ⟨rfl, rfl, rfl, by show ∀ i ∈ [started thePass 900], i.onMac = true; decide, by decide, by decide⟩, ⟨rfl, by decide⟩⟩
/-- MatrixUnit: a macro that is off, one that wakes until cycle 900 (and no longer may start), one that is not free before 901; a load that runs; a pass due at 901;
a pass of a tile that it drains. -/
def unitOf (is : List MatItem) (x : Mac) : State := sE matWg { core3 with mats := is, macs := [(1, x)] }
def tilePass : MatItem := started (item (.pass 1 false 3 0 pleat 0 [row 4] (some 2))) 900
theorem witness_MatrixUnit_waking :
    ((unitOf [thePass] { powered := false }).m.mac 3 1 = { powered := false } ∧ ((unitOf [thePass] {}).m.core 3).drainBefore 2 1 3 = false) ∧
    ((unitOf [thePass] { waking := true, busy := 900 }).m.mac 3 1 = { waking := true, busy := 900 } ∧ ({ waking := true, busy := 900 } : Mac).busy ≤ 900) ∧
    (900 < ({ busy := 901 } : Mac).busy) ∧ ((unit [started (theLoad 1) 900, thePass]).m.core 3).loadOn 1 ≠ none ∧
    (((unit [started thePass 901]).m.core 3).mats.find? (fun j => j.isPass && j.mac == 1 && j.started) = some (started thePass 901) ∧ 900 < (started thePass 901).doneAt) ∧
    (((unit [tilePass]).m.core 3).mats.find? (fun j => j.isPass && j.mac == 1 && j.started) = some tilePass ∧ (matWg.tiles.getD 2 {}).job = some (.command tilePass.id)) ∧
    ((unit [thePass]).m.core 3).poison = [] ∧ (∀ id, (matWg.tiles.getD 1 {}).job ≠ some (.command id)) ∧
    ((unit [item .free]).m.core 3).loadOn 1 = none :=
  ⟨⟨rfl, rfl⟩, ⟨rfl, by decide⟩, by decide, by decide +kernel, ⟨rfl, by decide⟩, ⟨rfl, rfl⟩, rfl, noJob rfl, rfl⟩
/-- MatrixUnit, the tokens of die 2: cluster 21 holds one since cycle 5 (20,000 cycles at 20,005), cluster 25 waits for one; one passes at place 7 of the ring. -/
def wanting : Core := { core3 with mats := [item (.pass 1 true 3 0 { pleat with w := 7 } 0 [] none)] }
def tokens (m : Mach) : State :=
  { stateOf { m with rings := [(2, { held := [{ cluster := 21, since := 5 }], ring := [3] })] } with clk := { cycle := 20005 } }
def with25 : Mach := { machineE (group 2) with cores := [(25 * 16 + 3, wanting)] }
theorem witness_PowerTokens :
    (tokens with25).m.clusterToken 21 = some { cluster := 21, since := 5 } ∧ (∀ e ∈ (tokens with25).m.cores, e.1 / 16 = 21 → ∀ p, p < 4 → ((tget e.2.macs p).getD {}).busy + 64 ≤ 20005) ∧
    5 + 20000 ≤ (tokens with25).clk.cycle ∧ (tokens with25).m.clusterWaits 25 = true ∧ (tokens with25).m.clusterWaits 23 = false ∧ (tokens with25).m.clusterWaits 24 = false ∧
    (ringOf (tokens with25) 2).ring = [3] ∧ 20 + (3 + 2) % 10 = 25 ∧ 5 + 64 ≤ (tokens with25).clk.cycle ∧
    (tokens with25).m.tokenBusy (tokens with25).clk 21 = false ∧ ¬5 + 64 ≤ 68 :=
  ⟨rfl, by decide, by decide, by decide +kernel, by decide +kernel, by decide +kernel, rfl, rfl, by decide, by decide +kernel, by decide⟩
def queued (running : Bool) (row : Nat) : Drain := { drain none row with running }
theorem witness_DrainEvents :
    ((sE matrix { coreM with drains := [queued false 0] }).m.core 3).drains = [queued false 0] ∧ (sE matrix { coreM with drains := [queued false 0] }).m.wg? 3 2 = some matrix ∧
    ({ coreM with drains := [queued false 0] } : Core).accBefore 2 1 2 = false ∧ (∃ i, decodeEp ((queued false 0).words.getD 0 0).toNat = .ok i) ∧
    ({ coreM with mats := [{ zero1 with seq := 1 }] } : Core).accBefore 2 1 2 = true ∧ (queued true 32).running = true ∧ (queued true 32).row = 32 ∧
    (List.replicate 64 (0 : V32)).length = 64 ∧ sortedFrom none coreM.stores = true ∧ matrix.accPoison = [] :=
  ⟨rfl, rfl, rfl, decodeEp_of (by decide +kernel), by decide, rfl, rfl, by decide +kernel, rfl, rfl⟩

/-! Channels, faults, pre-emption. -/

/-- Channel 3, whose bobbin holds one element or all but one of its places, and three in its spool; channel 4. -/
def spooled (bob : Nat) : Chan := { esize := 4, bobbin := List.replicate bob (bytes 4), smax := 3, scur := 1, spool := 0x20000, sent := 5, spooled := [bytes 4, bytes 4, bytes 4] }
theorem witness_refill :
    (mapped' chanEntry copier { fnC with chans := [(3, spooled 1)] }).m.chan? 0 3 = some (spooled 1) ∧ (spooled 1).spooled ≠ [] ∧ (spooled 1).bobbin.length < (spooled 1).bcap ∧
    (spooled 1).spoolWait = false ∧ min 3 ((spooled 1023).bcap - (spooled 1023).bobbin.length) = 1 ∧ (spooled 1024).bcap ≤ (spooled 1024).bobbin.length ∧ (spooled 1).state = 1 ∧ (spooled 1).x = false ∧
    (∀ i, i < 3 → (mapped' chanEntry copier { fnC with chans := [(3, spooled 1)] }).m.spoolAt 0 ((spooled 1).spoolAddr ((5 + (2 ^ 32 - 3) + i) % 2 ^ 32)) 4 false = .ok) ∧ (mapped' chanEntry copier fnC).m.poison = [] ∧ (chan3.state = 1 ∧ chan3.spooled = [] ∧ chan3.bobbin.length < chan3.bcap) := by
  refine ⟨by decide +kernel, by decide, by decide, rfl, by decide +kernel, by decide +kernel, rfl, rfl, ?_, rfl, by decide⟩
  intro i hi
  match i, hi with
  | 0, _ => decide +kernel
  | 1, _ => decide +kernel
  | 2, _ => decide +kernel
/-- Two threads of the copier wait to send to, or to receive from, the channel `q` of its q registers; `code` stands at their PC. -/
def blocked (q : Nat) (send : Bool) (code : Nat) : Mach :=
  let w : Wg := { copier with threads := [0, 1].map (fun j => { thread j with status := .waiting (.chan q send 2), since := some (3, 4) }) }
  { machineC w with ig := none, mem := Memory.writeL [] 0x400000000 (leBytes 8 code) }
/-- What the group of a waiter fetches. -/
def fetched (m : Mach) (ch : Nat) (send : Bool) : Option Instr :=
  (m.chanNext 0 ch send).bind (fun g =>
    let r := readied m g.core g.slot g.threads
    (r.wg? g.core g.slot).bind (fun x => match r.fetchInstr g.core x.vf (x.thread (g.threads.headD 0)).pc with
      | (.ok word ext, n) => if (n.wg? g.core g.slot).isSome then decode? word ext else none
      | _ => none))
theorem witness_ChannelEvents :
    fetched (blocked 0 true ((encode (.chSend 0 1)).headD 0)) 3 true = some (.chSend 0 1) ∧ fetched (blocked 1 false ((encode (.chRecv 1 4 none)).headD 0)) 4 false = some (.chRecv 1 4 none) ∧
    (blocked 0 true 0).chanNext 0 4 false = none ∧ (blocked 1 false 0).chanNext 0 3 true = none ∧ sortedFrom none (blocked 0 true 0).fns = true ∧
    (∀ e ∈ (machineC copier).fns, (machineC copier).stalemate e.1 = []) :=
  ⟨by decide +kernel, by decide +kernel, by decide +kernel, by decide +kernel, by decide, by decide +kernel⟩

/-- A fault-queue entry of a program's access to the page at 0x20000; its record; the workgroup that waits for it. -/
def entry (access : Nat) : FaultEntry :=
  { va := 0x20010, time := 0, core := 3, slot := 2, warp := 0, kind := 1, access, olog := 255, flags := 0, lanes := 6, wid := 0, launch := 5, rec_ := 4 }
def faulting (pte access : Nat) : State := mapped' pte (group 2) { fn0 with faults := [entry access] }
def record (failed : Option (Nat × Nat × Nat)) : FaultRec :=
  { id := 4, slot := 2, threads := [0, 1], pc := 0x10000, w := 0, ext := none, log := none, saved := [], undo := [], pend := 0, failed }
/-- A page that reads as zeros is to be mapped (policy 2), from a free page; a second entry waits on the same page, and one on another. -/
def zeroing : State :=
  mapped' (2 * 2 ^ 76 + 8 + 16) (group 2) { fn0 with faults := [entry 0, { entry 1 with va := 0x2ffff, rec_ := 5 }, { entry 0 with va := 0x30000, rec_ := 6 }], freePages := [0x50011] }
theorem witness_FaultEvents_zeros :
    zeroing.m.moving = [] ∧ translate zeroing.m 0 0x20010 .read = .noTranslation ∧ entryAt zeroing.m 0 0x20010 = some 0x500050020 ∧ tget (zeroing.m.fn 0).evicted 0x500050020 = none ∧
    zeroing.m.physNat 0x500050020 16 / 2 ^ 76 % 4 = 2 ∧ zeroing.m.physNat 0x500050020 16 % 2 = 0 ∧ zeroing.m.physNat 0x500050020 16 / 4 % 2 = 0 ∧
    (zeroing.m.takePage 0).map (·.1) = some 0x50011 ∧
    (zeroing.m.takePage 0).map (fun r => (Memory.readN r.2.mem 0x500050020 16, (r.2.fn 0).faults)) = some (Memory.readN zeroing.m.mem 0x500050020 16, (zeroing.m.fn 0).faults) ∧
    (∀ x ∈ (zeroing.m.fn 0).faults, ThreadEntry x) :=
  ⟨rfl, by decide +kernel, by decide +kernel, rfl, by decide +kernel, by decide +kernel, by decide +kernel, by decide +kernel, by decide +kernel,
   by show ∀ x ∈ [entry 0, { entry 1 with va := 0x2ffff, rec_ := 5 }, { entry 0 with va := 0x30000, rec_ := 6 }], _; intro x hx; simp at hx; rcases hx with rfl | rfl | rfl <;> exact ⟨.inl rfl, by decide, by decide⟩⟩
/-- `entryAt` and the entry there. -/
theorem witness_FaultEvents :
    (ThreadEntry (entry 0) ∧ ThreadEntry (entry 1) ∧ rightOf (entry 0) = .read ∧ rightOf (entry 1) = .write) ∧
    (translate (faulting rwEntry 1).m 0 0x20010 .write = .ok 0x400000010 0 ∧ translate (faulting readOnly 1).m 0 0x20010 .write = .violation) ∧
    (translate (faulting (unmapped 1) 0).m 0 0x20010 .read = .noTranslation ∧ entryAt (faulting (unmapped 1) 0).m 0 0x20010 = some 0x500050020 ∧
      tget ((faulting (unmapped 1) 0).m.fn 0).evicted 0x500050020 = none ∧ (faulting (unmapped 1) 0).m.physNat 0x500050020 16 = unmapped 1 ∧ unmapped 1 % 2 = 0 ∧
      unmapped 1 / 2 ^ 76 % 4 = 1 ∧ unmapped 1 / 4 % 2 = 0 ∧ (faulting (unmapped 1) 0).m.moving = []) ∧
    (translate (faulting (unmapped 0) 0).m 0 0x20010 .read = .noTranslation ∧ entryAt (faulting (unmapped 0) 0).m 0 0x20010 = some 0x500050020 ∧
      (faulting (unmapped 0) 0).m.physNat 0x500050020 16 = unmapped 0 ∧ unmapped 0 % 2 = 0 ∧ unmapped 0 / 2 ^ 76 % 4 = 0) ∧
    (∀ f, ((sE (group 2) { core3 with faults := [record f] }).m.core 3).faults.find? (fun x => x.id == 4 && x.pend == 0) = some (record f)) ∧
    (sE (group 2)).m.wg? 3 2 = some (group 2) ∧ ((1 : Nat) ≠ 3 ∧ (1 : Nat) ≠ 9) ∧ (record (some (1, 0x20010, 9))).log = none :=
  ⟨⟨⟨Or.inl rfl, by decide, by decide⟩, ⟨Or.inl rfl, by decide, by decide⟩, rfl, rfl⟩, ⟨by decide +kernel, by decide +kernel⟩,
   ⟨by decide +kernel, by decide +kernel, rfl, by decide +kernel, by decide, by decide, by decide, rfl⟩, ⟨by decide +kernel, by decide +kernel, by decide +kernel, by decide, by decide⟩, fun _ => rfl,
   rfl, by decide, rfl⟩

/-- A pinned workgroup that has left its core's work behind after its fetch found no translation. -/
def leaver : Wg := { group 2 with hdr := { header 2 with pinned := true, zones := 0, tiles := 0 }, leaving := 2, fetchAt := some ([0, 2], 0x90000), zones := [], tiles := [] }
def image : Image := { id := 7, core := 3, wg := { leaver with leaving := 0 }, scratch := [], cmds := [], faults := [], mats := [], fetchFault := none, time := 0 }
def resuming : Mach := { machineE leaver with wgs := [], fns := [(0, { fn0 with images := [image] })] }
theorem witness_PreemptionEvents :
    ((sE leaver).m.wg? 3 2 = some leaver ∧ leaver.vf = 0 ∧ leaver.hdr.cspan = false ∧ leaver.ending = false ∧ (sE leaver).m.settledWork 3 2 leaver = true ∧ (∀ b ∈ leaver.qs, b = none) ∧
      sortedFrom none (sE leaver).m.wgs = true ∧ ((sE leaver).m.fn 0).faults.length < 2 ^ ((sE leaver).m.fn 0).fk) ∧
    (resuming.nextImage 0 (resuming.readyFor 0 3) = some image ∧ image.wg.hdr.cspan = false ∧ image.wg.zones = [] ∧ image.failed = false ∧ image.wg.hdr.rollback = false ∧
      image.wg.basting = none ∧ (∀ t ∈ image.wg.threads, t.status = .ready)) ∧
    (machineE (group 2)).nextImage 0 ((machineE (group 2)).readyFor 0 3) = none :=
  ⟨⟨rfl, rfl, rfl, rfl, by decide +kernel, by decide, by decide, by decide +kernel⟩, ⟨by decide +kernel, rfl, rfl, rfl, rfl, rfl, by decide⟩, by decide +kernel⟩

/-- PreemptionEvents: a saved thread in a block, one that waited in the middle of one, one that waits for its fault, one whose record load goes on. -/
def blocked1 : Thread := { thread 0 with blk := some { prefixPc := 0x9000, count := 3, slot := 1, guards := 6 } }
theorem witness_PreemptionEvents_blocks :
    (atPrefix blocked1).reenter = some (3, 1, 6) ∧ (atPrefix blocked1).pc = 0x9000 ∧
    (∀ t ∈ [blocked1, { blocked1 with status := .waiting .monitor }, { blocked1 with status := .waiting (.fault 4) }, { blocked1 with status := .fsLoad 3 none 5 }],
      ∀ q st kd, t.status ≠ .fsLoad q (some st) kd) := by
  refine ⟨rfl, rfl, ?_⟩
  intro t ht q st kd
  simp at ht
  rcases ht with rfl | rfl | rfl | rfl <;> simp [blocked1, thread]

/-! PreemptionEvents: a level-3 unit of one workgroup that wants all of a core's scratchpad; every core but core 3 is fenced, and core 3 holds one workgroup. -/

def crowded : Wg := { group 2 with hdr := { header 2 with scratch := 16 } }
def urgent : Launch := { id := 7, hdr := { header 2 with prio := 3, scratch := 16 }, count := 1 }
def fencedBut3 (c : Nat) : Nat × Core := if c = 3 then (c, core3) else (c, { fenced := true })
def full : Mach := { machineE crowded with fns := [(0, { fn0 with waitL3 := some 1, launches := [urgent] })], cores := (upFrom 0 1280).map fencedBut3 }
theorem tget_fenced (lo n c : Nat) (h : lo ≤ c) (h' : c < lo + n) : tget ((upFrom lo n).map fencedBut3) c = some (fencedBut3 c).2 := by
  induction n generalizing lo with
  | zero => omega
  | succ n ih =>
    have e : (fencedBut3 lo).1 = lo := by unfold fencedBut3; split <;> rfl
    show tget (((fencedBut3 lo).1, (fencedBut3 lo).2) :: (upFrom (lo + 1) n).map fencedBut3) c = _
    rw [tget, e]
    split
    · rename_i h1; rw [h1]
    · rw [if_neg (by omega)]; exact ih (lo + 1) (by omega) (by omega)
theorem mem_upFrom (lo n c : Nat) (h : c ∈ upFrom lo n) : lo ≤ c ∧ c < lo + n := by
  induction n generalizing lo with
  | zero => simp [upFrom] at h
  | succ n ih =>
    rcases List.mem_cons.mp h with h | h
    · omega
    · have := ih (lo + 1) h; omega
theorem full_holds_none (c : Nat) (h : c < 1280) : full.canHold c 0 urgent.hdr = 0 := by
  by_cases e : c = 3
  · subst e; decide +kernel
  · have : full.core c = { fenced := true } := by
      show (tget ((upFrom 0 1280).map fencedBut3) c).getD {} = _
      rw [tget_fenced 0 1280 c (by omega) (by omega)]; simp [fencedBut3, e]
    simp [Mach.canHold, Mach.usable, this]
theorem leastBy_none {α : Type} (key : α → Nat) (l : List α) (h : ∀ x, x ∉ l) : leastBy key l = none := by
  cases l with
  | nil => rfl
  | cons x l => exact absurd (List.mem_cons_self) (h x)
theorem full_fits_none (d : Nat) (h : d < 8) : full.unitFits 0 urgent.hdr d = false := by
  show (full.bestCore 0 urgent.hdr (dieCores d) []).isSome = false
  unfold Mach.bestCore
  rw [leastBy_none]; · rfl
  intro c hc
  obtain ⟨hc, hh⟩ := List.mem_filter.mp hc
  have : c ∈ dieCores d := by
    rcases List.mem_append.mp hc with hc | hc
    · exact (List.mem_filter.mp (List.mem_of_mem_take hc)).1
    · exact (List.mem_filter.mp hc).1
  have := mem_upFrom _ _ _ this
  simp only [show coresPerDie = 160 from rfl] at this
  rw [full_holds_none c (by omega)] at hh
  simp at hh
theorem witness_PreemptionEvents_level3 :
    full.wgs = [(3 * 64 + 2, crowded)] ∧ crowded.vf = 0 ∧ crowded.hdr.prio < 3 ∧ crowded.hdr.pinned = false ∧ crowded.hdr.cspan = false ∧ crowded.ending = false ∧ crowded.leaving = 0 ∧
    (full.fn 0).waitL3 = some 1 ∧ full.level3Head 0 = some urgent.hdr ∧ (∀ d, d < 8 → full.unitFits 0 urgent.hdr d = false) ∧
    ((full.delWg 3 2).freeCore 3).unitFits 0 urgent.hdr (3 / 160) = true :=
  ⟨rfl, rfl, by decide, rfl, rfl, rfl, rfl, rfl, by decide +kernel, full_fits_none, by decide +kernel⟩

/-! The walker, launches, the dispatcher, slots. A graph at 0x20000 whose node 1 lies at 0x20040; a header at 0x20100; the word 50 at 0x20008; code at 0x10000. -/

def nodeBytes (kind test addr value : Nat) : List Byte :=
  leBytes 1 kind ++ leBytes 1 test ++ leBytes 2 4 ++ leBytes 2 5 ++ leBytes 2 0 ++ leBytes 16 addr ++ leBytes 8 value ++ leBytes 16 0x20060 ++ leBytes 8 7 ++ leBytes 1 2 ++ leBytes 1 3 ++ leBytes 6 0
def headerBytes : List Byte :=
  leBytes 2 0x4C48 ++ leBytes 1 1 ++ leBytes 1 0 ++ leBytes 2 32 ++ leBytes 1 1 ++ leBytes 1 0 ++ leBytes 1 5 ++ List.replicate 7 0 ++ leBytes 16 0x10000 ++
  leBytes 16 0x30000 ++ leBytes 16 0 ++ leBytes 16 0x90000 ++ leBytes 16 0 ++ leBytes 16 0 ++ leBytes 16 0 ++ leBytes 8 3 ++ leBytes 8 77 ++ leBytes 8 4 ++ leBytes 8 2
def cmd0 : Cmd := { ring := 0, target := 0, tag := 5, irq := true }
def walker0 : Walker := { graph := 0x20000, count := 9, node := 1, cmd := cmd0, placed := [3], tracks := [(3, 3), (2, 4)] }
def graphMem (nd : List Byte) : List Host.Cell :=
  let put (m : List Host.Cell) (a : Nat) (bs : List Byte) : List Host.Cell := Memory.writeL m a bs
  put (put (put (put (tables rwEntry) 0x500050010 (leBytes 16 (0x40001 * 65536 + 1 + 8 + 32))) 0x400000040 nd) 0x400000100 (if nd.headD 0 = 1 then headerBytes else [])) 0x400000008
    (leBytes 8 50)
def fnG (w : Option Walker) (ls : List Launch) : Fn := { fn0 with walker := w, launches := ls, g := 100, regs := [(0x30, 0x1000), (0x38, 4), (0x40, 3)] }
def sG (nd : List Byte) (w : Walker := walker0) (ls : List Launch := []) : State := stateOf { machine (group 2) with ig := none, wgs := [], fns := [(0, fnG (some w) ls)], mem := graphMem nd }
theorem atNode_of {s : State} {vf : Nat} {w : Walker} {n : Node} {kind kd pa : Nat} (h1 : (s.m.fn vf).walker = some w) (h2 : w.fault = 0 ∧ w.node < w.count ∧ n.kind = kind ∧ n.bad w.count = false)
    (h3 : ((w.graph.toNat + 64 * w.node) % 2 ^ 80) % 65536 + 64 ≤ 65536) (h4 : translate s.m vf ((w.graph.toNat + 64 * w.node) % 2 ^ 80) .read = .ok pa kd) (h5 : (s.m.core 1280).l1 = [])
    (h6 : s.m.poison = []) (h7 : n = parseNode (Memory.readN s.m.mem pa 64)) : AtNode s vf w n kind :=
  ⟨h1, h2.1, h2.2.1, h2.2.2.1, h2.2.2.2, pa, ⟨by decide, h3, by simp, ⟨kd, by simpa using h4⟩, h5, by simp [h6]⟩, h7⟩
theorem sG_at (nd : List Byte) (w : Walker) (ls : List Launch) : ((sG nd w ls).m.fn 0).walker = some w ∧ ((sG nd w ls).m.core 1280).l1 = [] ∧ (sG nd w ls).m.poison = [] ∧
    (sG nd w ls).m.mem = graphMem nd := ⟨rfl, rfl, rfl, rfl⟩
theorem atNode_G (nd : List Byte) (kind : Nat) (h1 : (parseNode nd).kind = kind ∧ (parseNode nd).bad 9 = false) (h2 : translate (sG nd).m 0 0x20040 .read = .ok 0x400000040 0)
    (h3 : parseNode nd = parseNode (Memory.readN (graphMem nd) 0x400000040 64)) : AtNode (sG nd) 0 walker0 (parseNode nd) kind := by
  have e : (walker0.graph.toNat + 64 * walker0.node) % 2 ^ 80 = 0x20040 := by decide
  obtain ⟨a, b, c, d⟩ := sG_at nd walker0 []
  refine ⟨a, rfl, (by decide), h1.1, h1.2, 0x400000040, ⟨by decide, ?_, by simp, ⟨0, ?_⟩, b, ?_⟩, ?_⟩
  · rw [e]; decide
  · rw [e]; simpa using h2
  · rw [c]; simp
  · rw [d]; exact h3
def nodeL : Node := parseNode (nodeBytes 1 0 0x20100 1234)
def oldHeader : List Byte := Memory.readN (graphMem (nodeBytes 1 0 0x20100 1234)) 0x400000100 256
theorem witness_launch_node :
    AtNode (sG (nodeBytes 1 0 0x20100 1234)) 0 walker0 nodeL 1 ∧ FwAt (sG (nodeBytes 1 0 0x20100 1234)) 0 nodeL.addr 256 [.read, .write] 0x400000100 ∧
    NoMonitor (sG (nodeBytes 1 0 0x20100 1234)) ∧ nodeL.track < 16 ∧ (∀ e ∈ walker0.tracks, e.1 = nodeL.track → (sG (nodeBytes 1 0 0x20100 1234)).m.launch? 0 e.2 = none) ∧
    (sG (nodeBytes 1 0 0x20100 1234)).m.headerCheck 0 (nodeHeader nodeL oldHeader) (parseHeader nodeL.addr (nodeHeader nodeL oldHeader)) = 0 ∧
    (parseHeader nodeL.addr (nodeHeader nodeL oldHeader)).gang = 0 ∧
    ((sG (nodeBytes 1 0 0x20100 1234) walker0 (List.replicate 64 { launch5 with id := 99 })).m.headerCheck 0 (nodeHeader nodeL oldHeader)
      (parseHeader nodeL.addr (nodeHeader nodeL oldHeader)) = 8) ∧ nodeHeader nodeL oldHeader ≠ oldHeader :=
  ⟨atNode_G (nodeBytes 1 0 0x20100 1234) 1 (by decide +kernel) (by decide +kernel) (by decide +kernel),
   fwAt_of (kind := 0) (by decide) (by decide +kernel) (by simp) (by decide +kernel) rfl rfl, noMonitor_of rfl, by decide +kernel, by decide +kernel, by decide +kernel, by decide +kernel,
   by decide +kernel, by decide +kernel⟩
/-- A header at 0x20140, where the bytes are zero but for the tail of the other header, is refused under check 1. -/
def nodeBad : Node := parseNode (nodeBytes 1 0 0x20140 1234)
def badHeader : List Byte := nodeHeader nodeBad (Memory.readN (graphMem (nodeBytes 1 0 0x20140 1234)) 0x400000140 256)
theorem witness_refused_node :
    AtNode (sG (nodeBytes 1 0 0x20140 1234)) 0 walker0 nodeBad 1 ∧ FwAt (sG (nodeBytes 1 0 0x20140 1234)) 0 nodeBad.addr 256 [.read, .write] 0x400000140 ∧
    (sG (nodeBytes 1 0 0x20140 1234)).m.headerCheck 0 badHeader (parseHeader nodeBad.addr badHeader) = 1 :=
  ⟨atNode_G (nodeBytes 1 0 0x20140 1234) 1 (by decide +kernel) (by decide +kernel) (by decide +kernel),
   fwAt_of (kind := 0) (by decide) (by decide +kernel) (by simp) (by decide +kernel) rfl rfl, by decide +kernel⟩
theorem node_values (kind test value : Nat) (h1 : (parseNode (nodeBytes kind test 0x20008 value)).kind = kind ∧ (parseNode (nodeBytes kind test 0x20008 value)).bad 9 = false)
    (h2 : translate (sG (nodeBytes kind test 0x20008 value)).m 0 0x20040 .read = .ok 0x400000040 0)
    (h3 : parseNode (nodeBytes kind test 0x20008 value) = parseNode (Memory.readN (graphMem (nodeBytes kind test 0x20008 value)) 0x400000040 64))
    (h4 : (parseNode (nodeBytes kind test 0x20008 value)).addr % 65536 + 8 ≤ 65536 ∧
      [Access.read].all (fun k => decide (translate (sG (nodeBytes kind test 0x20008 value)).m 0 (parseNode (nodeBytes kind test 0x20008 value)).addr k = .ok 0x400000008 0)) = true) :
    AtNode (sG (nodeBytes kind test 0x20008 value)) 0 walker0 (parseNode (nodeBytes kind test 0x20008 value)) kind ∧
    FwAt (sG (nodeBytes kind test 0x20008 value)) 0 (parseNode (nodeBytes kind test 0x20008 value)).addr 8 [.read] 0x400000008 :=
  ⟨atNode_G (nodeBytes kind test 0x20008 value) kind h1 h2 h3, fwAt_of (kind := 0) (by decide) h4.1 (by simp) h4.2 rfl rfl⟩
/-- A conditional node that tests for equality, one that tests for at least; a while node; a wait for 50, reached just so, and for 51. -/
theorem witness_conditional_node : ∃ n, AtNode (sG (nodeBytes 2 0 0x20008 50)) 0 walker0 n 2 ∧ FwAt (sG (nodeBytes 2 0 0x20008 50)) 0 n.addr 8 [.read] 0x400000008 ∧ n.test = 0 :=
  let h := node_values 2 0 50 (by decide +kernel) (by decide +kernel) (by decide +kernel) (by decide +kernel)
  ⟨_, h.1, h.2, by decide +kernel⟩
theorem witness_while_node : ∃ n, AtNode (sG (nodeBytes 3 3 0x20008 50)) 0 walker0 n 3 ∧ FwAt (sG (nodeBytes 3 3 0x20008 50)) 0 n.addr 8 [.read] 0x400000008 ∧ n.test = 3 ∧
    n.value ≤ leNat (Memory.readN (sG (nodeBytes 3 3 0x20008 50)).m.mem 0x400000008 8) ∧ NoMonitor (sG (nodeBytes 3 3 0x20008 50)) ∧
    FwAt (sG (nodeBytes 3 3 0x20008 50)) 0 (((walker0.graph.toNat + 64 * walker0.node) % 2 ^ 80 + 48) % 2 ^ 80) 8 [.write] 0x400000070 :=
  let h := node_values 3 3 50 (by decide +kernel) (by decide +kernel) (by decide +kernel) (by decide +kernel)
  ⟨_, h.1, h.2, by decide +kernel, by decide +kernel, noMonitor_of rfl,
   fwAt_of (kind := 0) (by decide) (by decide) (by simp) (by decide +kernel) rfl rfl⟩
theorem witness_wait_stamp_node : ∃ n, AtNode (sG (nodeBytes 5 0 0x20008 51)) 0 walker0 n 5 ∧ FwAt (sG (nodeBytes 5 0 0x20008 51)) 0 n.addr 8 [.read] 0x400000008 ∧
    ¬n.value ≤ leNat (Memory.readN (sG (nodeBytes 5 0 0x20008 51)).m.mem 0x400000008 8) :=
  let h := node_values 5 0 51 (by decide +kernel) (by decide +kernel) (by decide +kernel) (by decide +kernel)
  ⟨_, h.1, h.2, by decide +kernel⟩
/-- Join (tracks 2 and 3), signal host and end nodes; a launch of the walker's that is still placed; a walker past its graph. -/
theorem witness_other_nodes :
    AtNode (sG (nodeBytes 4 0 0 12)) 0 walker0 (parseNode (nodeBytes 4 0 0 12)) 4 ∧ AtNode (sG (nodeBytes 6 0 0x1230 77)) 0 walker0 (parseNode (nodeBytes 6 0 0x1230 77)) 6 ∧
    (∃ n, AtNode (sG (List.replicate 64 0)) 0 walker0 n 0) ∧ (∀ e ∈ walker0.tracks, (sG (nodeBytes 4 0 0 12)).m.launch? 0 e.2 = none) ∧
    (∀ id ∈ walker0.placed, (sG (nodeBytes 4 0 0 12)).m.launch? 0 id = none) ∧ ((2, 4) ∈ walker0.tracks ∧ (parseNode (nodeBytes 4 0 0 12)).value.testBit 2 = true ∧
      ((sG (nodeBytes 4 0 0 12) walker0 [{ launch5 with id := 4 }]).m.launch? 0 4).isSome = true) ∧
    ((sG [] { walker0 with node := 9 }).m.fn 0).walker = some { walker0 with node := 9 } :=
  ⟨atNode_G (nodeBytes 4 0 0 12) 4 (by decide +kernel) (by decide +kernel) (by decide +kernel), atNode_G (nodeBytes 6 0 0x1230 77) 6 (by decide +kernel) (by decide +kernel) (by decide +kernel),
   ⟨parseNode (List.replicate 64 0), atNode_of (pa := 0x400000040) (kd := 0) rfl ⟨rfl, by decide, by decide +kernel, by decide +kernel⟩ (by decide) (by decide +kernel) rfl rfl (by decide +kernel)⟩,
   by decide, by decide, ⟨by decide, by decide +kernel, rfl⟩, rfl⟩
/-- A launch with nothing left to run, its group count at 0x20200 and its stamp at 0x20208. -/
def ended (closing : Nat) : Launch := { id := 4, hdr := { header 2 with gcount := 0x20200, stamp := 0x20208 }, count := 3, nextGroup := 3, stampVal := 999, closing }
theorem witness_LaunchCompletion :
    (sG [] walker0 [ended 0]).m.launch? 0 (ended 0).id = some (ended 0) ∧ (ended 0).fault = 0 ∧ (ended 0).running = 0 ∧ (ended 0).held = [] ∧ (ended 0).records = 0 ∧
    (ended 0).count ≤ (ended 0).nextGroup ∧ NoMonitor (sG [] walker0 [ended 0]) ∧ (∀ e ∈ (sG [] walker0 [ended 0]).m.cores, e.2.l1 = []) ∧ (ended 0).silent = false ∧
    FwAt (sG [] walker0 [ended 0]) 0 (ended 0).hdr.gcount.toNat 8 [.write] 0x400000200 ∧ FwAt (sG [] walker0 [ended 1]) 0 (ended 1).hdr.stamp.toNat 8 [.write] 0x400000208 ∧
    (ended 2).logPages = [] ∧ ((sG [] walker0 [ended 2]).m.fn 0).held = [] :=
  ⟨rfl, rfl, rfl, rfl, rfl, by decide, noMonitor_of rfl, by decide, rfl, fwAt_of (kind := 0) (by decide) (by decide) (by simp) (by decide +kernel) rfl rfl,
   fwAt_of (kind := 0) (by decide) (by decide) (by simp) (by decide +kernel) rfl rfl, rfl, rfl⟩

/-- A launch with its last group to send, to an empty device. -/
def waitingLaunch : Launch := { id := 4, hdr := { header 2 with slotmask := 0 }, count := 3, nextGroup := 2 }
def dispatching (l : Launch) : Mach := { machine (group 2) with ig := none, wgs := [], cores := [], fns := [(0, { fn0 with launches := [l], weight := 3 })] }
def mismatched : Launch := { waitingLaunch with hdr := { header 2 with slotmask := 8, slotreq := 0x20300 }, mism := some true }
def idleMismatch : Launch := { waitingLaunch with hdr := { header 2 with slotmask := 0 }, nextGroup := 3, mism := some true }
def gang0 : Gang := { members := [0, 3], tick := 6000, digest := 88, placed := true, got := [] }
theorem witness_Dispatch :
    (dispatching { waitingLaunch with nextGroup := 3 }).sources = [] ∧
    ((dispatching waitingLaunch).sources = [{ vf := 0, level := 0, launch := some 4 }] ∧ (dispatching waitingLaunch).launch? 0 4 = some waitingLaunch ∧
      0 < ((dispatching waitingLaunch).fn 0).weight ∧ waitingLaunch.hdr.ordered = false ∧ waitingLaunch.hdr.pinned = false ∧ waitingLaunch.gang = none ∧
      ((tget ((dispatching waitingLaunch).fn 0).queues waitingLaunch.hdr.prio).getD []).length < 2 ^ (((dispatching waitingLaunch).fn 0).qk.getD waitingLaunch.hdr.prio 10) ∧
      waitingLaunch.hdr.cspan = false ∧ waitingLaunch.hdr.rollback = false ∧ waitingLaunch.hdr.slotmask = 0 ∧ waitingLaunch.count = waitingLaunch.nextGroup + 1 ∧
      ((dispatching waitingLaunch).roomDie 0 waitingLaunch.hdr).map (·.1) = some 0 ∧ (dispatching waitingLaunch).bestCore 0 waitingLaunch.hdr (dieCores 0) [] = some 0) :=
  ⟨by decide +kernel, by decide +kernel, rfl, by decide, rfl, rfl, rfl, by decide, rfl, rfl, rfl, rfl, by decide +kernel, by decide +kernel⟩
theorem witness_Dispatch_mismatch :
    ((dispatching mismatched).fn 0).launches.find? (fun l => l.mism == some true && !l.killed) = some mismatched ∧ (dispatching mismatched).digestsOk 0 mismatched.hdr = false ∧
    ((dispatching idleMismatch).fn 0).launches.find? (fun l => l.mism == some true && !l.killed) = some idleMismatch ∧ (dispatching idleMismatch).launch? 0 4 = some idleMismatch ∧ idleMismatch.hdr.slotmask = 0 ∧
    idleMismatch.count ≤ idleMismatch.nextGroup ∧ ((dispatching idleMismatch).fn 0).queue idleMismatch.hdr.prio = [] :=
  ⟨rfl, by decide +kernel, rfl, rfl, rfl, by decide, by decide⟩
/-- A gang ready at time 500 for its tick at 6000, or at 5500 just so; not ready; too late at 5499. -/
theorem witness_Dispatch_gangs :
    gang0.placed = true ∧ (∀ d ∈ gang0.members, d ≠ (dispatching waitingLaunch).devnum → (d, gang0.digest) ∈ ({ gang0 with got := [(3, 88)] } : Gang).got) ∧
    500 + 5000 ≤ ({ gang0 with tick := 5500 } : Gang).tick ∧ ({ gang0 with tick := 5499 } : Gang).tick < 500 + 5000 ∧
    ¬(gang0.placed = true ∧ ∀ d ∈ gang0.members, d ≠ (dispatching waitingLaunch).devnum → (d, gang0.digest) ∈ gang0.got) ∧ gang0.started = false ∧
    (∀ e ∈ (dispatching waitingLaunch).wgs, e.2.launch ≠ 4) :=
  ⟨rfl, by decide +kernel, by decide, by decide, by decide +kernel, rfl, by decide⟩

/-- A format record of the field kind (8 exponent bits, 7 fraction bits, bias 127), 256 bytes, with its strips left zero, signed under the key below (whose
private part is 12345); made outside the model, by the textbook formulas of SHA-256 and of ECDSA on P-256. -/
def recordKey : Nat :=
  0x26efcebd0ee9e34a669187e18b3a9122b2f733945b649cc9f9f921e9f9dad81290238bde9cc7bb330d150c67704dd25ae7055205744b6f31bf4070745872d0e6
def recordBytes : List Byte :=
  leBytes 2 0x4652 ++ [1, 2, 16, 8, 7, 0] ++ leBytes 4 256 ++ leBytes 4 0 ++ leBytes 4 128 ++ leBytes 4 64 ++ leBytes 8 77 ++ List.replicate 16 0 ++
  beBytes 32 0xd2f41716c0f22421beb4ff4a30a68243817052b94774390bb8c7c49c604d6e06 ++ [8, 7] ++ leBytes 2 127 ++ List.replicate 108 0 ++
  beBytes 32 0x11a551144510456de6eacb10507cf43b8cdf95cc5c2b3d982d09d7c629d23cbc ++ beBytes 32 0xa81b2d5721d2b7607766dbc0d37bf5dc7d0396fabcdfe83ae0891d03525119da
/-- Its header and its values pass checks 2 and 6. That its key is enrolled, its digest, and its signature pass too was evaluated outside the package (the kernel would take
minutes over it); check 7 is `Config.stripsOk`, which nothing evaluates. -/
theorem test_record_header : headerOk recordBytes = true ∧ valuesOk (recordFmt recordBytes false 6) = true := by decide +kernel
def request (va : Nat) : LoadReq := { id := 7, slot := 4, addr := va, cmd := some cmd0 }
def loading (va : Nat) : State :=
  stateOf { machineE (group 2) with wgs := [], cores := [], fns := [(0, { fn0 with loads := [request va], keys := [(6, recordKey)] })],
                                    mem := Memory.writeL (tables rwEntry) 0x400000400 (recordBytes.take 24) }
/-- SlotEvents, the loader: a request for a record, and for bytes that are none. -/
theorem witness_SlotEvents_loader :
    ((loading 0x20400).m.fn 0).loads = [request 0x20400] ∧ (loading 0x20400).m.loaderTurn = some 0 ∧ (request 0x20400).fault = 0 ∧
    FwAt (loading 0x20400) 0 (request 0x20400).addr 256 [.read] 0x400000400 ∧ recordLen (Memory.readN (loading 0x20400).m.mem 0x400000400 256) = some 256 ∧
    (loading 0x20400).m.planeCores 0 = [] ∧ (loading 0x20400).m.wgs = [] ∧ FwAt (loading 0x20800) 0 (request 0x20800).addr 256 [.read] 0x400000800 ∧
    recordLen (Memory.readN (loading 0x20800).m.mem 0x400000800 256) = none ∧ { loading 0x20400 with m := { (loading 0x20400).m with fns := [(5, { fn0 with loads := [request 0] })] } }.m.loaderTurn ≠ some 0 :=
  ⟨rfl, by decide +kernel, rfl, fwAt_of (kind := 0) (by decide) (by decide) (by simp) (by decide +kernel) rfl rfl, by decide +kernel, rfl, rfl,
   fwAt_of (kind := 0) (by decide) (by decide) (by simp) (by decide +kernel) rfl rfl, by decide +kernel, by decide +kernel⟩
def oldPlanes (todo : List (Nat × Fmt)) (writing : Option Nat) : Planes := { p0 := some pleat, todo, writing }
def planed (todo : List (Nat × Fmt)) (writing : Option Nat := none) : State :=
  stateOf { machineE (group 2) with wgs := [], cores := [(3, { planes := [(4, oldPlanes todo writing)], planesOf := some 9 })], fns := [(0, fnM)] }
def ordOp : OrdOp := { g := 0, e := 0, t := 0, s := 0, op := 0, type := .b32, va := 0, pa := 0x40000047d, data := [1, 2, 3], core := 3, slot := 2 }
def ordLaunch : Launch := { id := 4, hdr := header 2, count := 3, nextGroup := 3, held := [ordOp] }
def serial : State := stateOf (dispatching ordLaunch)
/-- SlotEvents: an install, no install; a core to pass to function 0; a held store that ends at the end of its line. -/
theorem witness_SlotEvents :
    (((planed [(7, scaled)]).m.planes 3 4).todo = [(7, scaled)] ∧ (∀ x ∈ (planed []).m.installs, x.req.id ≠ 7) ∧ ((planed [(7, scaled)]).m.core 3).boundTo 4 (1 - 0) none = false ∧
      ((planed [(7, scaled)]).m.planes 3 4).writing = none ∧ ((planed [(7, scaled)] (some 900)).m.planes 3 4).writing = some 900 ∧ 900 ≤ (planed []).clk.cycle ∧
      (∀ x ∈ (planed [(7, scaled)] (some 900)).m.installs, x.req.id ≠ 7)) ∧
    (((planed []).m.planes 3 4).todo = [] ∧ ((planed []).m.core 3).planesOf ≠ some 0 ∧ (∀ e ∈ (planed []).m.wgs, e.1 / 64 ≠ 3) ∧ ((planed []).m.core 3).mats = [] ∧
      ((planed []).m.core 3).drains = [] ∧ ((planed []).m.core 3).copies = [] ∧ (∀ e ∈ ((planed []).m.core 3).planes, e.2.todo = [])) ∧
    (serial.m.launch? 0 ordLaunch.id = some ordLaunch ∧ ordLaunch.own = [] ∧ ordOp.load = none ∧ ordOp.op = 0 ∧ serial.m.canPrecede 0 ordLaunch.id ordLaunch ordOp = false ∧ NoMonitor serial ∧
      (serial.m.core ordOp.core).l1 = [] ∧ ordOp.pa % 128 + ordOp.data.length ≤ 128 ∧ ordOp.data ≠ [] ∧ Memory.wf serial.m.mem = true) :=
  ⟨⟨rfl, by decide, by decide, rfl, rfl, by decide, by decide⟩, ⟨rfl, by decide, by decide, rfl, rfl, rfl, by decide⟩,
   ⟨rfl, rfl, rfl, rfl, by decide +kernel, noMonitor_of rfl, rfl, by decide, by decide, by decide +kernel⟩⟩
theorem witness_bound_plane : ({ core3 with mats := [{ theLoad 1 with work := .load 1 4 1 pleat }] } : Core).boundTo 4 1 none = true := by decide +kernel

/-! Peers, links, upkeep. -/

/-- Zone 1 of the workgroup: name 7 · 2³² + 3 · 2¹¹ (entry 3 of function 0's directory), four slots of 1 KiB: one arrived, two free, one of a sender on device 5. -/
def sender5 : Sender := { dev := 5, vf := 2, header := 9, group := 4 }
def zoneName : Nat := 7 * 2 ^ 32 + 3 * 2048
def peerZone (st : ZState) (got pend : Nat) : Zone :=
  { open_ := true, name := zoneName, base := 256, slots := [{ state := .arrived }, {}, { state := st, sender := some sender5, got }, {}], target := 2, pend }
def receiving (z : Zone) (dom : Option Nat) (gen : Nat) : Mach := { machineE { group 2 with zones := [{}, z] } with fns := [(0, { fn0 with domain := dom, zdir := [(3, { gen })] })] }
theorem witness_PeerZones :
    (receiving (peerZone .reserved 0 1) none 7).zoneReach zoneName sender5 = false ∧ (receiving (peerZone .reserved 0 1) (some 4) 8).findZone 0 zoneName = .stale ∧
    ((receiving { peerZone .reserved 0 1 with open_ := false } (some 4) 7).zoneReach zoneName sender5 = true ∧
      (receiving { peerZone .reserved 0 1 with open_ := false } (some 4) 7).findZone 0 zoneName = .closed) ∧
    ((receiving (peerZone .reserved 0 1) (some 4) 7).zoneReach zoneName sender5 = true ∧
      (receiving (peerZone .reserved 0 1) (some 4) 7).findZone 0 zoneName = .at_ (.live 3 2 1) (peerZone .reserved 0 1)) ∧ zoneName / 2 ^ 23 % 128 = 0 ∧
    (∀ j, j < 1 → ((peerZone .reserved 0 1).slots.getD j {}).state ≠ .free) ∧ ((peerZone .reserved 0 1).slots.getD 1 {}).state = .free ∧
    ((peerZone .reserved 0 1).slots.getD 2 {}).sender = some sender5 ∧ ((peerZone .filling 8 2).slots.getD 2 {}).state = .filling ∧ 1024 * 2 ^ (peerZone .filling 8 2).size < 1025 ∧
    (1024 : Nat) ≤ 1024 * 2 ^ (peerZone .filling 8 2).size ∧ ((peerZone .filling 8 2).slots.getD 2 {}).got + 2 < 11 ∧ 10 ≤ ((peerZone .filling 8 2).slots.getD 2 {}).got + 2 ∧
    (∀ y ∈ ({ peerZone .torn 0 1 with slots := [{ state := .arrived }] } : Zone).slots, y.state ≠ .free) := by
  refine ⟨by decide +kernel, by decide +kernel, ⟨by decide +kernel, by decide +kernel⟩, ⟨by decide +kernel, by decide +kernel⟩, by decide, ?_, by decide, by decide, by decide, by decide, by decide,
    by decide, by decide, by decide⟩
  intro j hj
  have : j = 0 := by omega
  subst this; decide
/-- PeerZones: the last byte of a slot of 1,024; one past it; a workgroup with no live barrier word; a slot with a byte refused. -/
theorem witness_PeerZones_payload : 1020 + (bytes 4).length ≤ 1024 ∧ 1024 < 1021 + (bytes 4).length ∧
    (∀ w, (machineE noTags).wg? 3 2 = some w → w.tags = []) ∧ ({ state := .filling, marred := true } : ZSlot).marred = true := by
  refine ⟨by decide, by decide, fun w h => ?_, rfl⟩
  have : (machineE noTags).wg? 3 2 = some noTags := rfl
  rw [this] at h; cases h; rfl
/-- Threads 0 and 1 wait for the answer that goes to k3, the second asking again while the zone is full. -/
def asking : Wg := { group 2 with threads := [{ thread 0 with status := .zoneWait none 3, since := some (1, 8) }, { thread 1 with status := .zoneWait none 35, since := some (2, 8) }, thread 2, thread 3] }
theorem witness_PeerZones_replies : (machineE asking).wg? 3 2 = some asking ∧ (asking.thread 0).status = .zoneWait none 3 ∧ (asking.thread 1).status = .zoneWait none 35 ∧ 35 / 32 % 2 = 1 ∧
    ∀ kd, (asking.thread 2).status ≠ .zoneWait none kd := ⟨rfl, rfl, rfl, rfl, fun _ h => nomatch h⟩

/-- Device 9, whose time reference is device 7; port 3 is the only way to device 7, ports 3 and 4 lead to device 8, and no port to device 99. -/
def linked (down : List Nat) (nextId timeRef : Nat) : State :=
  stateOf { machineE { group 2 with zones := [] } with
    fns := [(0, { fn0 with chans := [(2, { x := true, peer := 7 }), (4, { x := true, peer := 8 }), (5, { peer := 7 }), (6, { x := true, peer := 99, state := 3 })] })],
    routes := [(7, [3, 200, 200, 200]), (8, [3, 4, 200, 200])], devnum := 9, timeRef, nextId, portsDown := down, portTries := [(3, 4)] }
theorem witness_LinksAndPeers :
    (8 ≠ (linked [] 0 7).m.timeRef ∧ (linked [] 0 9).m.timeRef = (linked [] 0 9).m.devnum) ∧
    (7 = (linked [] 0 7).m.timeRef ∧ 7 ≠ (linked [] 0 7).m.devnum ∧ tget (linked [] 0 7).m.due 3 = none ∧ (linked [] 0 7).m.nextId = 0 ∧ (linked [] 0 7).clk.time ≤ 500 ∧
      0 < (linked [] 1 7).m.nextId) ∧
    (3 < 144 ∧ 3 ∉ (linked [] 9 7).m.portsDown ∧ (linked [] 9 7).m.moving = [] ∧ NoAsk (linked [] 9 7) ∧ (∀ e ∈ (linked [] 9 7).m.wgs, e.2.zones = []) ∧ (∀ e ∈ (linked [] 9 7).m.fns, e.2.images = []) ∧
      sortedFrom none (linked [] 9 7).m.fns = true ∧ (∀ e ∈ (linked [] 9 7).m.fns, sortedFrom none e.2.chans = true) ∧ 3 ∈ (linked [3] 9 7).m.portsDown) ∧
    ((linked [] 9 7).m.chan? 0 2 = some { x := true, peer := 7 } ∧ (∀ ps, tget (linked [] 9 7).m.routes 7 = some ps → ∀ q ∈ ps, 144 ≤ q ∨ q = 3 ∨ q ∈ (linked [] 9 7).m.portsDown)) ∧
    ((linked [] 9 7).m.chan? 0 4 = some { x := true, peer := 8 } ∧ ¬∀ ps, tget (linked [] 9 7).m.routes 8 = some ps → ∀ q ∈ ps, 144 ≤ q ∨ q = 3 ∨ q ∈ (linked [] 9 7).m.portsDown) := by
  refine ⟨by decide, by decide, ⟨by decide, by decide, rfl, ?_, by decide, by decide, by decide, by decide, by decide⟩, ⟨by decide, ?_⟩, by decide, ?_⟩
  · intro e he t ht k h
    have : (linked [] 9 7).m.wgs.all (fun e => e.2.threads.all (fun t => t.status == .ready)) = true := by decide +kernel
    have := List.all_eq_true.mp (List.all_eq_true.mp this e he) t ht
    rw [h] at this; simp at this
  · intro ps h; cases h; decide
  · intro h; exact absurd (h _ rfl 4 (by decide)) (by decide)
/-- A peer's accesses: function 0 is in a domain and maps 0x20000 to write, or only to read, or not at all; or it is in none. -/
def remote (entry : Nat) : State := mapped' entry (group 2) { fn0 with domain := some 4 }
theorem witness_remote_access :
    ((remote rwEntry).m.fn 0).domain ≠ none ∧ FwAt (remote rwEntry) 0 0x20010 8 [.read] 0x400000010 ∧ FwAt (remote rwEntry) 0 0x20010 8 [.write] 0x400000010 ∧
    FwAt (remote rwEntry) 0 0x20010 8 [.read, .write] 0x400000010 ∧ tyBytes .b64 = 8 ∧ NoMonitor (remote rwEntry) ∧ translate (remote (unmapped 0)).m 0 0x20010 .write = .noTranslation ∧
    translate (remote readOnly).m 0 0x20010 .write = .violation ∧ ((sE (group 2)).m.fn 0).domain = none :=
  ⟨by decide, fwAt_of (kind := 0) (by decide) (by decide) (by simp) (by decide +kernel) rfl rfl, fwAt_of (kind := 0) (by decide) (by decide) (by simp) (by decide +kernel) rfl rfl,
   fwAt_of (kind := 0) (by decide) (by decide) (by simp) (by decide +kernel) rfl rfl, rfl, noMonitor_of (by decide +kernel), by decide +kernel, by decide +kernel, rfl⟩

/-- An invalidation of function 0's pages 4 and 5, with a completion word at 0x20008. -/
def inval (acks : List Nat) : InvReq := { vf := 0, base := 0x40000, count := 2, seq := 3, word := some 0x20008, cmd := none, acks }
def tlbCore : Core := { planesOf := some 0, tlb := [(3, pte 0), (4, pte 0), (5, pte 0), (6, { pte 0 with large := true })] }
def invalidating (r : InvReq) : State := stateOf { (mapped' rwEntry (group 2) fn0).m with hub := [r], cores := [(163, tlbCore)] }
theorem witness_DeviceUpkeep_hub :
    ((invalidating (inval [5])).m.hub = [] ++ inval [5] :: [] ∧ 1 ∉ (inval [5]).acks ∧ sortedFrom none (invalidating (inval [5])).m.cores = true ∧
      sortedFrom none ((invalidating (inval [5])).m.core 163).tlb = true ∧ 163 / 160 = 1 ∧ ((invalidating (inval [5])).m.core 163).planesOf = some 0 ∧ (inval [5]).move = none ∧
      tget ((invalidating (inval [5])).m.core 163).tlb 5 = some (pte 0) ∧ (pte 0).large = false ∧ (5 + 2 ^ 64 - 0x40000 / 65536) % 2 ^ 64 < 2 ∧ ¬(3 + 2 ^ 64 - 0x40000 / 65536) % 2 ^ 64 < 2) ∧
    (plainInv (inval [5]) ∧ ∃ d, d < 8 ∧ d ∉ (inval [5]).acks) ∧
    ((∀ d, d < 8 → d ∈ (inval [0, 1, 2, 3, 4, 5, 6, 7]).acks) ∧ FwAt (invalidating (inval [0, 1, 2, 3, 4, 5, 6, 7])) 0 0x20008 8 [.write] 0x400000008 ∧
      NoMonitor (invalidating (inval [0, 1, 2, 3, 4, 5, 6, 7]))) :=
  ⟨⟨rfl, by decide, by decide, by decide, by decide, rfl, rfl, rfl, rfl, by decide, by decide⟩, ⟨⟨rfl, rfl⟩, 0, by decide, by decide⟩,
   by decide, fwAt_of (kind := 0) (by decide) (by decide) (by simp) (by decide +kernel) rfl rfl, noMonitor_of (by decide +kernel)⟩
/-- DeviceUpkeep: a buffered store of the function on die 0 whose page is still mapped, and one whose page is mapped no more, with page 4 and 5 named; a peer that has not
acknowledged. -/
def buffering (entry va : Nat) : State :=
  stateOf { (mapped' entry { group 2 with sbuf := [{ dev := none, pa := 0x400000000, data := [1], time := 5, va }] } fn0).m with hub := [{ inval [] with base := 0x20000 }] }
theorem witness_DeviceUpkeep_stores :
    (buffering rwEntry 0x20000).m.mustDrain { inval [] with base := 0x20000 } 0 = false ∧ (buffering (unmapped 0) 0x20000).m.mustDrain { inval [] with base := 0x20000 } 0 = true ∧
    (∀ e ∈ (buffering rwEntry 0x20000).m.cores, e.2.l1 = []) ∧ (∀ i ∈ ((buffering rwEntry 0x20000).m.fn 0).images, i.wg.sbuf = []) ∧
    (∀ l ∈ ((buffering rwEntry 0x20000).m.fn 0).launches, l.held = []) ∧
    (∃ d ∈ ({ inval [0, 1, 2, 3, 4, 5, 6, 7] with devs := [7] } : InvReq).devs, (linked [] 9 7).m.unreachable d = false) ∧ (inval [5]).devs = [] :=
  ⟨by decide +kernel, by decide +kernel, by decide, by decide, by decide, ⟨7, by decide, by decide +kernel⟩, rfl⟩
/-- Page 0x40000, on die 0, with `n` accesses from die 2, in the second window; die 2's page 0x400001 is free. -/
def migrating (n : Nat) (entry : Nat) : State :=
  { stateOf { (mapped' entry (group 2) { fn0 with tablePages := [0x50005], freePages := [0x400001] }).m with
      access := [(accessKey 0x40000 0, 5), (accessKey 0x40000 2, n)], frameOf := [(0x40000 / 512, 0)], lastMove := [(0x40000, 10000000)] } with clk := { time := 20000000 } }
/-- The tables hold nothing but the one entry in the pages' table. -/
theorem tget_absent {α : Type} (m : Sparse α) (k : Nat) (h : ∀ e ∈ m, e.1 ≠ k) : tget m k = none := by
  induction m with
  | nil => rfl
  | cons e m ih =>
    obtain ⟨j, x⟩ := e
    have hj : j ≠ k := h _ List.mem_cons_self
    rw [tget, if_neg hj]
    split
    · rfl
    · exact ih (fun e he => h e (List.mem_cons_of_mem _ he))
theorem filterMap_upFrom {β : Type} (g : Nat → Option β) (k : Nat) : ∀ n lo, (∀ i, lo ≤ i → i < lo + n → i ≠ k → g i = none) →
    (upFrom lo n).filterMap g = if lo ≤ k ∧ k < lo + n then (g k).toList else [] := by
  intro n
  induction n with
  | zero => intro lo _; rw [if_neg (by omega)]; rfl
  | succ n ih =>
    intro lo h
    rw [upFrom, List.filterMap_cons, ih (lo + 1) (fun i h1 h2 h3 => h i (by omega) (by omega) h3)]
    by_cases e : lo = k
    · subst e
      rw [if_neg (by omega), if_pos (by omega)]
      cases g lo <;> rfl
    · rw [h lo (Nat.le_refl _) (by omega) e]
      by_cases hk : lo + 1 ≤ k ∧ k < lo + 1 + n
      · rw [if_pos hk, if_pos (by omega)]
      · rw [if_neg hk, if_neg (by omega)]
/-- Power at its limit (2,400 W), 50 W under it, above it and below that; a core one error past the threshold. -/
theorem witness_DeviceUpkeep_power :
    (sE (group 2)).m.limit = 2400 ∧ (2400 - 50) * [2400, 2300].length ≤ [2400, 2300].foldl (· + ·) 0 ∧ [2400].foldl (· + ·) 0 ≤ 2400 * [2400].length ∧
    2400 * [2401].length < [2401].foldl (· + ·) 0 ∧ (sE (group 2)).m.powerStage < (sE (group 2)).m.tokens - 1 ∧ [2349].foldl (· + ·) 0 < (2400 - 50) * [2349].length ∧
    (tget (sE (group 2)).m.due 2).getD 0 < 10000 / 10000 :=
  ⟨rfl, by decide, by decide, by decide, by decide, by decide, by decide⟩
def worn : State := sE (group 2) { core3 with errors := Config.errorThreshold + 1 }
theorem witness_DeviceUpkeep_fence :
    3 < 1280 ∧ (worn.m.core 3).fenced = false ∧ Config.errorThreshold < (worn.m.core 3).errors ∧ NoMonitor worn ∧ (∀ e ∈ worn.m.fns, 3 ∉ e.2.ownedCores) ∧
    sortedFrom none worn.m.wgs = true ∧ (∀ e ∈ worn.m.wgs, e.1 / 64 = 3 → e.2.hdr.pinned = false ∧ e.2.hdr.cspan = false) :=
  ⟨by decide, rfl, Nat.lt_succ_self _, noMonitor_of (by decide +kernel), by decide, by decide, by decide⟩
theorem readN_absent (m : List Host.Cell) (n : Nat) : ∀ a, (∀ e ∈ m, e.1 < a ∨ a + n ≤ e.1) → mirrorBase + 131072 ≤ a → leNat (Memory.readN m a n) = 0 := by
  induction n with
  | zero => intro a _ _; rfl
  | succ n ih =>
    intro a h hm
    have h1 : Memory.read m a = 0 := by
      rw [Memory.read, tget_absent m a (fun e he => by have := h e he; omega), unlisted, if_neg (by omega)]; rfl
    rw [Memory.readN, leNat, ih (a + 1) (fun e he => by have := h e he; omega) (by omega), h1]; rfl
theorem keys_of_tables (i : Nat) (h2 : i < 2 ∨ 2 < i) : ∀ e ∈ tables rwEntry, e.1 < 0x500050000 + 16 * i ∨ 0x500050000 + 16 * i + 16 ≤ e.1 := by
  have k : (tables rwEntry).all (fun e => decide (e.1 < 0x500050000 ∨ 0x500050020 ≤ e.1 ∧ e.1 < 0x500050030)) = true := by decide +kernel
  intro e he
  have := of_decide_eq_true (List.all_eq_true.mp k e he)
  omega
theorem migrating_at (n entry : Nat) : (migrating n entry).m.mem = tables entry ∧ ((migrating n entry).m.fn 0).tablePages = [0x50005] := ⟨rfl, rfl⟩
theorem entries_of_migrating : (migrating 8192 rwEntry).m.entriesOf 0 0x40000 = [0x500050020] := by
  obtain ⟨hm, hp⟩ := migrating_at 8192 rwEntry
  unfold Mach.entriesOf Mach.mappedPages
  rw [hp]
  simp only [List.filterMap_cons, List.filterMap_nil, List.flatten_cons, List.flatten_nil, List.append_nil]
  rw [filterMap_upFrom _ 2]
  · decide +kernel
  · intro i _ _ h2
    have z : (migrating 8192 rwEntry).m.physNat (0x50005 * 65536 + 16 * i) 16 = 0 := by
      unfold Mach.physNat
      rw [hm]
      exact readN_absent _ 16 _ (fun e he => by have := keys_of_tables i (by omega) e he; omega) (Nat.le_trans (by decide : mirrorBase + 131072 ≤ 0x500050000) (Nat.le_add_right _ _))
    simp only [z]
    rfl
theorem witness_DeviceUpkeep_migration :
    (tget (migrating 8192 rwEntry).m.due 1).getD 0 < 20000000 / 1000000 ∧ (∀ e ∈ (migrating 8191 rwEntry).m.access, (migrating 8191 rwEntry).m.dueFor (e.1 / 4096) = none) ∧
    (∀ e ∈ (migrating 8192 rwEntry).m.access, e.1 / 4096 = 0x40000) ∧ tget (migrating 8192 rwEntry).m.frameOf (0x40000 / 512) = some 0 ∧
    (migrating 8192 rwEntry).m.dueFor 0x40000 = some 2 ∧ (migrating 8192 rwEntry).m.entriesOf 0 0x40000 = [0x500050020] ∧
    (migrating 8192 rwEntry).m.physNat 0x500050020 16 = rwEntry ∧ rwEntry / 2 ^ 9 % 2 = 0 ∧ rwEntry / 2 ^ 10 % 8 ≠ 4 ∧ (migrating 8192 rwEntry).m.hub = [] ∧
    ((migrating 8192 rwEntry).m.pageOn 0 2).map (fun r => (r.1, (r.2.fn 0).domain)) = some (0x400001, none) ∧ tget (migrating 8192 rwEntry).m.lastMove 0x40000 = some 10000000 ∧
    10000000 + 10000000 ≤ (migrating 8192 rwEntry).clk.time ∧ (rwEntry + 512) / 512 % 2 = 1 :=
  ⟨by decide, by decide +kernel, by decide +kernel, rfl, by decide +kernel, entries_of_migrating, by decide +kernel, by decide, by decide, rfl, by decide +kernel, rfl, by decide, by decide⟩

/-! The host's registers, a function's commands, the physical function's commands, a function's life. -/

def tailAt (t : Nat) (compl : List (List Byte × Bool)) : Fn :=
  { fn0 with launches := [], regs := [(0x10, 0x1000), (0x18, 5), (0x28, 30), (0x30, 0x9000), (0x38, 4), (0x40, 3), (0x48, BitVec.ofNat 64 t), (0x68, 1)], compl }
theorem witness_HostRegisters :
    ((4 : Nat) ≤ 5 ∧ (5 : Nat) ≤ 12 ∧ (tget (tailAt 15 []).regs 0x18).getD 0 = BitVec.ofNat 64 5) ∧ ((tget fn0.regs 0x18).getD 0).toNat % 16 < 4 ∧ (13 : Nat) % 16 > 12 ∧
    ((tget (tailAt 15 []).regs 0x38).getD 0 = BitVec.ofNat 64 4 ∧ (tget (tailAt 15 []).regs 0x48).getD 0 = BitVec.ofNat 64 15 ∧ 15 < 2 ^ 4 ∧ (tailAt 15 []).compl = [] ∧
      (15 + 1) % 2 ^ 4 ≠ ((tget (tailAt 15 []).regs 0x40).getD 0).toNat % 2 ^ 4) ∧
    ((2 + 1) % 2 ^ 4 = ((tget (tailAt 2 []).regs 0x40).getD 0).toNat % 2 ^ 4 ∧ (2 + 1) % 2 ^ 4 ≠ 20 % 2 ^ 4 ∧
      (tailAt 2 [(completion cmd0 7 2 99, false)]).compl = [(completion cmd0 7 2 99, false)]) := by decide
/-- A command of function 0, which is active, idle in its queues, and maps 0x20000 to write. -/
def fnA : Fn :=
  { fn0 with launches := [], chans := [(1, { state := 2 }), (2, {}), (3, { state := 3, wbind := some (1, 2, 3) }), (5, { emptyns := 5, fullns := 8 })], g := 30, b := 9,
             freePages := (upFrom 0x50010 8) }
def sA : State := mapped' rwEntry { group 2 with hdr := { header 2 with pinned := true } } fnA
theorem witness_FunctionCommands :
    Active sA cmd0 ∧ (128 ≤ ({ cmd0 with ring := 128 } : Cmd).ring ∧ cmd0.ring < 128) ∧ ((sA.m.fn 7).state ≠ 1 ∧ ({ cmd0 with ring := 7 } : Cmd).ring < 128) ∧
    ((sA.m.fn 0).walker = none ∧ (sA.m.fn 0).runs = []) ∧ (64 % 64 = 0 ∧ 65536 ≤ 65536 ∧ 65 % 64 ≠ 0) ∧ (sA.m.fn 0).domain = none ∧
    (sA.m.chan? 0 1 = some { state := 2 } ∧ sA.m.chan? 0 2 = some {} ∧ sA.m.chan? 0 3 = some { state := 3, wbind := some (1, 2, 3) } ∧ sA.m.chan? 0 4 = none ∧ ({ state := 2 } : Chan).scur = 0) ∧
    (NoMonitor sA ∧ FwAt sA 0 0x20000 1408 [.write] 0x400000000 ∧ FwAt sA 0 0x20000 256 [.write] 0x400000000 ∧ FwAt sA 0 0x20000 80 [.write] 0x400000000) ∧
    (0x90000 % 65536 + 512 ≤ 65536 ∧ translate sA.m 0 0x90000 .write = .noTranslation) :=
  ⟨⟨by decide, rfl⟩, by decide, by decide, ⟨rfl, rfl⟩, by decide, rfl, ⟨rfl, rfl, rfl, rfl, rfl⟩,
   ⟨noMonitor_of (by decide +kernel), fwAt_of (kind := 0) (by decide) (by decide) (by simp) (by decide +kernel) rfl rfl,
    fwAt_of (kind := 0) (by decide) (by decide) (by simp) (by decide +kernel) rfl rfl, fwAt_of (kind := 0) (by decide) (by decide) (by simp) (by decide +kernel) rfl rfl⟩,
   by decide, by decide +kernel⟩
/-- Configurations of a new channel 4: 32 elements of 128 bytes just fill a bobbin of 4,096; the same with the smallest spool, whose pages are mapped, or cannot be; and 129 bytes. -/
theorem witness_channel_create :
    (4 ∣ 128 ∧ 128 ≤ 256 ∧ 32 * 128 ≤ 4096 * 2 ^ 0) ∧ ¬4 ∣ 129 ∧ sA.m.bobbinsOn 0 + 4096 * 2 ^ 0 ≤ 8388608 ∧ 128 ≤ spoolBytes 1 ∧ (0x30000 : Nat) % 2 ^ 80 % 65536 = 0 ∧
    (sA.m.mapSpool 0 0x30000 (spoolPages 1)).isSome = true ∧
    { sA with m := { sA.m with fns := [(0, { fnA with freePages := [], g := 0, b := 0 })] } }.m.mapSpool 0 0x30000 (spoolPages 1) = none := by
  refine ⟨by decide, by decide, by decide +kernel, by decide +kernel, by decide, by decide +kernel, by decide +kernel⟩
/-- Set entries: a new page at 0x30000; the page at 0x20000 taken away. -/
def setting (e : Nat) : State := stateOf { sA.m with host := HostMem.writeL [] 0x8000 (leBytes 16 e), frameOf := [(0x40000 / 512, 0)] }
theorem witness_TableCommands :
    ((setting rwEntry).m.entryOk 0 false [rwEntry] 3 0 = true ∧ (setting rwEntry).m.buildTo 0 0x30000 = some (0x500050030, (setting rwEntry).m) ∧ rwEntry / 2 ^ 10 % 8 = 0 ∧
      leNat (HostMem.readN (setting rwEntry).m.host 0x8000 16) = rwEntry ∧ Memory.wf (setting rwEntry).m.mem = true ∧ (setting rwEntry).m.physNat 0x500050030 16 = 0 ∧
      entryAt { (setting rwEntry).m with mem := Memory.writeL (setting rwEntry).m.mem 0x500050030 (leBytes 16 rwEntry) } 0 0x30000 = some 0x500050030) ∧
    ((setting 0).m.entryOk 0 false [0] 2 0 = true ∧ (setting 0).m.buildTo 0 0x20000 = some (0x500050020, (setting 0).m) ∧ (setting 0).m.physNat 0x500050020 16 = rwEntry ∧
      rwEntry % 2 = 1 ∧ takesAway rwEntry 0 = true ∧ ((setting 0).m.fn 0).domain = none) ∧
    (setting 5).m.entryOk 0 false [5] 3 0 = false ∧ (setting rwEntry).m.entryOk 0 false [rwEntry, 5] 3 1 = false ∧ (setting rwEntry).m.entryOk 0 false [rwEntry, 5] 3 0 = true := by
  refine ⟨⟨by decide +kernel, by decide +kernel, by decide, by decide +kernel, by decide +kernel, by decide +kernel, by decide +kernel⟩,
    ⟨by decide +kernel, by decide +kernel, by decide +kernel, by decide, by decide, rfl⟩, by decide +kernel, by decide +kernel, by decide +kernel⟩
theorem readable_of {s : State} {vf va n kind pa : Nat} (h1 : 0 < n) (h2 : va % 65536 + n ≤ 65536) (h3 : translate s.m vf va .read = .ok pa kind) (h4 : (s.m.core 1280).l1 = [])
    (h5 : s.m.poison = []) : Readable s vf va n (Memory.readN s.m.mem pa n) :=
  ⟨pa, ⟨h1, h2, by simp, ⟨kind, by simpa using h3⟩, h4, by simp [h5]⟩, rfl⟩
/-- Translate: a module at 0x20000, of whatever length the translator takes from its header, up to a page, and a binding block at 0x20100. (What it then refuses or
answers rests on what `Config` reads from the module: no evaluation says which of those clauses runs.) -/
theorem witness_translate (h : Config.moduleLength (Memory.readN sA.m.mem 0x400000000 64) ≤ 65536) :
    Readable sA 0 0x20000 64 (Memory.readN sA.m.mem 0x400000000 64) ∧ Readable sA 0 0x20100 536 (Memory.readN sA.m.mem 0x400000100 536) ∧
    Readable sA 0 0x20000 (max 64 (Config.moduleLength (Memory.readN sA.m.mem 0x400000000 64))) (Memory.readN sA.m.mem 0x400000000 (max 64 (Config.moduleLength (Memory.readN sA.m.mem 0x400000000 64)))) ∧
    translate sA.m 0 0x90000 .read = .noTranslation ∧ 5 % 65536 ≠ 0 ∧ 0x100000 % 65536 = 0 :=
  ⟨readable_of (kind := 0) (by decide) (by decide) (by decide +kernel) rfl rfl, readable_of (kind := 0) (by decide) (by decide) (by decide +kernel) rfl rfl,
   readable_of (kind := 0) (by omega) (by omega) (by decide +kernel) rfl rfl, by decide +kernel, by decide, by decide⟩
theorem witness_delayed_translation : ({ fnA with translating := [(cmd0, 500)] } : Fn).translating = [(cmd0, 500)] ∧ 500 ≤ sA.clk.time ∧ sA.clk.time < 501 ∧
    ∀ e ∈ ({ fnA with translating := [(cmd0, 500)] } : Fn).translating, e.1 ≠ { cmd0 with tag := 6 } := by decide

/-- A command of the physical function, for function 2: workgroups of its two launches, one that has left already, and one that another function has. -/
def cmdP : Cmd := { ring := 128, target := 2, tag := 5, irq := false }
def of2 (started leaving : Nat) : Wg := { group 2 with vf := 2, started, leaving, hdr := { header 2 with addr := 0x400 + started } }
def sP (f : Fn) : State :=
  stateOf { machine (group 2) with ig := none, wgs := [(2, of2 1 0), (66, of2 2 0), (70, group 2), (72, of2 4 2)], fns := [(0, fn0), (2, f)], devnum := 9, portsDown := [7], routes := [(4, [1, 2, 3, 4])] }
theorem witness_PhysicalCommands :
    (cmdP.ring = 128 ∧ cmdP.target < 128 ∧ cmd0.ring ≠ 128 ∧ 128 ≤ ({ cmdP with target := 128 } : Cmd).target) ∧
    (frameCount - firstShared < 0 + (frameCount - firstShared + 1) ∧ ¬(frameCount - firstShared < 0 + (frameCount - firstShared) ∨ frameCount - firstShared < frameCount - firstShared + 0)) ∧
    (((sP { state := 3 }).m.fn 2).state ≠ 1 ∧ ((sP { state := 1 }).m.fn 2).state = 1) ∧
    (sortedFrom none (sP {}).m.wgs = true ∧ sortedFrom none (sP {}).m.fns = true ∧ (∀ e ∈ (sP {}).m.fns, e.2.preempts = []) ∧ (∀ e ∈ (sP {}).m.wgs, e.2.hdr.cspan = false) ∧
      (sP {}).m.wg? 1 2 = some (of2 2 0) ∧ ((of2 2 0).vf = 2 ∧ (of2 2 0).hdr.addr = 0x402 ∧ (of2 2 0).ending = false ∧ (of2 2 0).leaving ≠ 2) ∧
      ∀ e ∈ (sP {}).m.wgs, e.2.hdr.addr ≠ 0x999) ∧
    ((2 : Nat) ≤ 2047 ∧ 2 ≠ (sP {}).m.devnum ∧ [143, 7, 144, 200].length = 4 ∧ (143 < 144 ∧ 143 ∉ (sP {}).m.portsDown) ∧ sortedFrom none (sP {}).m.routes = true ∧ (sP {}).m.moving = [] ∧
      (∀ e ∈ (sP {}).m.fns, ∀ h ∈ e.2.chans, h.2.x = false)) ∧
    (1800 % 25 = 0 ∧ 2600 % 25 = 0 ∧ (2601 : Nat) > 2600 ∧ (sP {}).m.tokens ≤ (2400 - 1700) * 10 / 900 ∧ (1800 - 1700) * 10 / 900 < (sP {}).m.tokens) ∧ NoMonitor (sP {}) ∧ NoAsk (sP {}) := by
  refine ⟨by decide, by decide, by decide, ⟨by decide, by decide, by decide, by decide, rfl, by decide, by decide⟩, by decide, by decide, noMonitor_of (by decide +kernel), ?_⟩
  intro e he t ht k h
  have : (sP {}).m.wgs.all (fun e => e.2.threads.all (fun t => t.status == .ready)) = true := by decide +kernel
  have := List.all_eq_true.mp (List.all_eq_true.mp this e he) t ht
  rw [h] at this; simp at this
def resetting : Fn := { state := 2, testing := [3], resetCmd := some cmdP, fencedNow := 1, ownedCores := [3, 4] }
theorem witness_FunctionLifecycle :
    (let f : Fn := { state := 3, freePages := [1, 5, 7, 9, 11, 13, 15] }
     f.state = 3 ∧ f.qk = [10, 10, 10, 10] ∧ f.fk = 8 ∧ f.freePages = [1, 5, 7, 9, 11] ++ [13, 15] ∧ [1, 5, 7, 9, 11].length = 5 ∧ sortedFrom none (sP f).m.fns = true) ∧
    (let f : Fn := { fn0 with launches := [launch5, { launch5 with id := 6 }] }
     f.state ≠ 2 ∧ f.walker = none ∧ f.runs = [] ∧ (∀ x ∈ f.launches, ∀ y ∈ f.launches, x.id = y.id → x = y) ∧ (∃ l ∈ f.launches, l.id = (of2 1 0).launch) ∧ (of2 1 0).ending = false) ∧
    ((∀ e ∈ (sP resetting).m.wgs, e.1 / 64 ≠ 3) ∧ (sP resetting).m.fns.find? (fun e => e.2.testing.contains 3) = some (2, resetting) ∧ resetting.resetCmd = some cmdP ∧ cmdP.ring ≠ 2) ∧
    ((sP { resetting with testing := [3, 4] }).m.fns.find? (fun e => e.2.testing.contains 3) = some (2, { resetting with testing := [3, 4] }) ∧ [3, 4] ≠ [3]) ∧
    (∀ e ∈ (sP resetting).m.fns, 9 ∉ e.2.testing) :=
  ⟨by decide, by decide, ⟨by decide, rfl, rfl, by decide⟩, ⟨rfl, by decide⟩, by decide⟩

/-! Encodings, the step. -/

theorem witness_DecodeEncode : legal (.shl .b32 3 1 (.imm 7)) = true ∧ encode (.shl .b32 3 1 (.imm 7)) = [0x00E03010007C0800] ∧ (encodeEp (.eMax 0 0 1)).isSome = true ∧
    legal (.eMax 0 0 1) = true := by decide
/-- The machine of the other witnesses about to issue threads 0 and 1 at 0x10000, where a barrier word stands; its epilogue; an event at hand. -/
def issuing : State := stateOf { machineE (group 2) with pick := some (3, 2, [0, 1]), mem := Memory.writeL [] 0x400000000 (leBytes 8 0xA000000000000007) }
theorem fetches_of {s : State} {core pa : Nat} {pc : Addr} (h1 : pc.toNat % 65536 + 16 ≤ 65536) (h2 : (tget (s.m.core core).tlb (pc.toNat / 65536)).map (fun p => transPte p pc.toNat .execute) = some (.ok pa 0))
    (h3 : (s.m.core core).icache = []) (h4 : s.m.poison = []) (h5 : (s.m.core core).faults = [] ∧ pa % 8 = 0) : Fetches s core pc pa := by
  refine ⟨h1, ?_, h3, by simp [h4], h5⟩
  cases e : tget (s.m.core core).tlb (pc.toNat / 65536) with
  | none => simp [e] at h2
  | some p => exact ⟨p, 0, rfl, by simpa [e] using h2⟩
theorem witness_StepRunsDecodedInstruction :
    issuing.agenda = [] ∧ issuing.m.pick = some (3, 2, 0 :: [1]) ∧ issuing.m.wg? 3 2 = some (group 2) ∧ Fetches issuing 3 ((group 2).thread 0).pc 0x400000000 ∧
    (∃ rest, decodeBytes (Memory.readN issuing.m.mem 0x400000000 16) = .ok (.barw 7, rest)) ∧ (group 2).inAlloc (.barw 7) = true ∧
    (∀ j ∈ [0, 1], ((group 2).thread j).reenter = none) := by
  refine ⟨rfl, rfl, rfl, fetches_of (by decide) (by decide +kernel) rfl rfl ⟨rfl, by decide⟩, ?_, by decide, by decide⟩
  have h : (match decodeBytes (Memory.readN issuing.m.mem 0x400000000 16) with | .ok (i, _) => i == .barw 7 | .error _ => false) = true := by decide +kernel
  cases e : decodeBytes (Memory.readN issuing.m.mem 0x400000000 16) with
  | error r => simp [e] at h
  | ok p => obtain ⟨i, rest⟩ := p; simp [e] at h; exact ⟨rest, by rw [h]⟩
def drainState : State := sE matrix { coreM with drains := [queued true 0] }
theorem witness_StepRuns_drain : drainState.agenda = [] ∧ drainState.m.pick = none ∧ drainState.m.runningDrain.isSome = true ∧ ∃ i, decodeEp ((queued true 0).words.getD (queued true 0).pc 0).toNat = .ok i :=
  ⟨rfl, rfl, by decide +kernel, decodeEp_of (by decide +kernel)⟩
theorem witness_TimeNeverGoesBack : issuing.clk.frac < 9 ∧ (∃ t, step issuing = .next t) ∧ ∀ rest, issuing.agenda ≠ .event .deviceReset :: rest := by
  refine ⟨by decide, ?_, fun rest h => nomatch h⟩
  have h : (match step issuing with | .next _ => true | _ => false) = true := by decide +kernel
  cases e : step issuing with
  | next t => exact ⟨t, rfl⟩
  | fault r => simp [e] at h
  | refused r => simp [e] at h

/-! ## One step of an instruction: the spec's worked examples. The expected values are the examples' own. -/

/-- Four threads in lanes 0 to 3, or as many as `ts` gives, all issuing, changed by `f` from the witnesses' ones; where memory is `mem`. -/
def stand (ts : List Thread) (w : Wg := group 2) (m : Mach := machine (group 2)) : State :=
  stateOf { m with ig := some { core := 3, slot := 2, threads := upFrom 0 ts.length, pc := (ts.headD {}).pc, w := 0, ext := none }, wgs := [(194, { w with threads := ts })] }
def lane (j : Nat) (v : List (Nat × V32)) (k : List (Nat × K64) := []) (a : List (Nat × Addr) := []) : Thread := { pc := 0x10000, wid := j, lane := j, v, k, a }
def ran (i : Instr) (s : State) : State := match Machine.exec i s with | .next t => t | _ => s
def threadsOf (s : State) : List Thread := (s.m.wgs.headD (0, {})).2.threads
def vAfter (i : Instr) (s : State) (r : Nat) : List V32 := (threadsOf (ran i s)).map (fun t => t.getV r)
def kAfter (i : Instr) (s : State) (r : Nat) : K64 := ((threadsOf (ran i s)).headD {}).getK r
def aAfter (i : Instr) (s : State) (r : Nat) : Addr := ((threadsOf (ran i s)).headD {}).getA r

/-- 05, the example of R90's divisions: 17/5, −17/5, 9/0 and the most negative number by −1. -/
def dividends : State := stand [lane 0 [(4, 17), (5, 5)], lane 1 [(4, -17), (5, 5)], lane 2 [(4, 9), (5, 0)], lane 3 [(4, 0x80000000), (5, -1)]]
theorem test_div : vAfter (.div .i32 7 4 (.reg 5)) dividends 7 = [3, -3, 0xFFFFFFFF, 0x80000000] ∧
    (threadsOf (ran (.div .i32 7 4 (.reg 5)) dividends)).map (·.istat) = [0, 0, 1, 2] := by decide +kernel
theorem test_rem : vAfter (.rem .i32 8 4 (.reg 5)) dividends 8 = [2, -2, 9, 0] ∧ vAfter (.rem .z32 8 4 (.reg 5)) dividends 8 = [2, -17 - 5 * 858993455, 9, 0x80000000] := by
  decide +kernel
/-- 05, the example of the shifts: counts 4, 31, 32 and 37. -/
def shifted : State := stand [lane 0 [(1, 0x800000F1), (3, 4)], lane 1 [(1, 0x800000F1), (3, 31)], lane 2 [(1, 0x800000F1), (3, 32)], lane 3 [(1, 0x800000F1), (3, 37)]]
theorem test_shl_shr : vAfter (.shl .b32 2 1 (.reg 3)) shifted 2 = [0x00000F10, 0x80000000, 0, 0] ∧ vAfter (.shr .b32 2 1 (.reg 3)) shifted 2 = [0x0800000F, 1, 0, 0] := by decide +kernel
theorem test_sar_rotl : vAfter (.sar .b32 2 1 (.reg 3)) shifted 2 = [0xF800000F, 0xFFFFFFFF, 0xFFFFFFFF, 0xFFFFFFFF] ∧
    vAfter (.rotl .b32 2 1 (.reg 3)) shifted 2 = [0x00000F18, 0xC0000078, 0x800000F1, 0x00001E30] := by decide +kernel
/-- 05, the example of the bit fields. -/
theorem test_bit_fields :
    vAfter (.bfx .z32 5 4 12 7) (stand [lane 0 [(4, 0x00065000)]]) 5 = [0x65] ∧ vAfter (.bfx .i32 5 4 12 7) (stand [lane 0 [(4, 0x00065000)]]) 5 = [0xFFFFFFE5] ∧
    vAfter (.bfi .b32 6 4 2 3) (stand [lane 0 [(2, 0x15), (3, 0x608), (4, 0xFFFFFFFF)]]) 6 = [0xFFFFD5FF] := by decide +kernel
/-- 05, "pointer limits". -/
def pointers : State := stand [lane 0 [] [] [(0, 0x10), (1, 0xFFFFFFFFFFFFFFFFFFF8), (2, 0x10000000000000000)]]
theorem test_addresses :
    aAfter (.aadd 1 0 (.imm (65536 - 24))) pointers 1 = 0xFFFFFFFFFFFFFFFFFFF8 ∧ kAfter (.adiff 1 1 0) pointers 1 = 0xFFFFFFFFFFFFFFE8 ∧ kAfter (.adiff 2 2 0) pointers 2 = 0x7FFFFFFFFFFFFFFF := by
  decide +kernel
theorem test_address_alignment :
    aAfter (.aalignUp 3 1 16) pointers 3 = 0 ∧ aAfter (.aalignDn 4 1 16) pointers 4 = 0xFFFFFFFFFFFFFFFF0000 ∧ kAfter (.agetHi 3 2) pointers 3 = 1 := by decide +kernel
/-- 06, the example of R106: an exact tiny result, a rounding, and a zero sum. -/
def floats : State := stand [lane 0 [(4, 0x3F800001), (5, 0x3F7FFFFE), (6, 0xBF800000), (11, 0x3F800000)]]
theorem test_ffma : vAfter (.ffma .f32 10 4 5 6 .rne) floats 10 = [0xA8800000] ∧ (threadsOf (ran (.ffma .f32 10 4 5 6 .rne) floats)).map (·.fstat) = [0] := by decide +kernel
theorem test_fmul : vAfter (.fmul .f32 11 4 (.reg 5) .rne) floats 11 = [0x3F800000] ∧ (threadsOf (ran (.fmul .f32 11 4 (.reg 5) .rne) floats)).map (·.fstat) = [16] := by decide +kernel
theorem test_fadd : vAfter (.fadd .f32 12 11 (.reg 6) .rne) floats 12 = [0] ∧ vAfter (.fadd .f32 12 11 (.reg 6) .rdn) floats 12 = [0x80000000] := by decide +kernel
/-- 04, the example of R65: a tie, and the largest f32, to bf16. -/
def narrow (rm : Rm) (x : V32) : List (V32 × BitVec 5) :=
  (threadsOf (ran (.cvt .bf16 .f32 3 2 rm) (stand [lane 0 [(2, x)]]))).map (fun t => (t.getV 3, t.fstat))
theorem test_rounding_ties : narrow .rne 0x3F808000 = [(0x3F80, 16)] ∧ narrow .rtz 0x3F808000 = [(0x3F80, 16)] ∧ narrow .rup 0x3F808000 = [(0x3F81, 16)] := by decide +kernel
theorem test_rounding_overflow : narrow .rne 0x7F7FFFFF = [(0x7F80, 20)] ∧ narrow .rtz 0x7F7FFFFF = [(0x7F7F, 16)] ∧ narrow .rsat 0x7F7FFFFF = [(0x7F7F, 20)] := by decide +kernel
/-- 07, "a software trap inside a block". -/
def trapping : State := stand [{ lane 0 [(3, 5)] with pc := 0x20008, blk := some { prefixPc := 0x20000, count := 1, slot := 0, guards := 3 } }] { group 2 with hdr := { header 2 with handler := 0x24000 } }
theorem test_trap : (threadsOf (ran (.trap 0x2D) trapping)).map (fun t => (t.trappc.toNat, t.info.toNat, t.cause.toNat, t.trapaddr.toNat, t.pc.toNat)) =
    [(0x20000, 0x2D, 9, 0x20008, 0x24000)] ∧ (threadsOf (ran (.trap 0x2D) trapping)).map (fun t => (t.trapH, t.trapL)) = [(true, false)] := by decide +kernel
theorem test_trapret_skip : (threadsOf (ran .trapretSkip (ran (.trap 0x2D) trapping))).map (fun t => (t.trapH, t.pc)) = [(false, 0x20000)] := by decide +kernel
/-- 08, the example: loads of bytes F7 00 34 92. -/
def bytesF7 : State := stand [lane 0 [] [] [(1, 0x20000)]] (group 2) { machine (group 2) with mem := Memory.writeL [] 0x400000000 [0xF7, 0x00, 0x34, 0x92] }
def loaded (i : Instr) (s : State) (r : Nat) : List V32 :=
  match execLoadReturn 3 9 [] (ran i s) with | .next t => (threadsOf t).map (fun t => t.getV r) | _ => []
theorem test_ld_bytes : loaded (.ld .i8 (at0 1 2 0)) bytesF7 2 = [0xFFFFFFF7] ∧ loaded (.ld .z8 (at0 1 3 0)) bytesF7 3 = [0xF7] ∧ loaded (.ld .i16 (at0 1 4 2)) bytesF7 4 = [0xFFFF9234] := by
  decide +kernel
theorem test_ld_misaligned : (threadsOf (ran (.ld .i16 (at0 1 8 5)) bytesF7)).map (fun t => (t.cause, t.trapaddr, t.getV 8)) = [(3, 0x20005, 0)] := by decide +kernel
/-- 15, the example of R250: four floating adds in the order of the work identifiers; of R248: two compares. -/
def adders : State := stand [lane 0 [(2, 0x4B800000)] [] [(1, 0x20000)], lane 1 [(2, 0x3F800000)] [] [(1, 0x20000)], lane 2 [(2, 0x3F800000)] [] [(1, 0x20000)], lane 3 [(2, 0x3F800000)] [] [(1, 0x20000)]]
  (group 2) { machine (group 2) with mem := [] }
theorem test_atomf : loaded (.atomf 8 .f32 (at0 1 2 0)) adders 2 = [0, 0x4B800000, 0x4B800000, 0x4B800000] ∧
    Memory.readN (ran (.atomf 8 .f32 (at0 1 2 0)) adders).m.mem 0x400000000 4 = leBytes 4 0x4B800000 := by decide +kernel
def swappers : State := stand [lane 0 [(6, 7), (7, 9)] [] [(1, 0x20000)], lane 1 [(6, 7), (7, 11)] [] [(1, 0x20000)]] (group 2) { machine (group 2) with mem := Memory.writeL [] 0x400000000 [7] }
theorem test_atomcas : loaded (.atomcas .b32 (at0 1 6 0)) swappers 6 = [7, 9] ∧ Memory.readN (ran (.atomcas .b32 (at0 1 6 0)) swappers).m.mem 0x400000000 4 = [9, 0, 0, 0] := by decide +kernel
/-- 17 and 18, the barrier's words. -/
def barrierAt (w : Nat) : State :=
  stand [lane 0 [] [(1, 16), (2, 2), (3, 4096)]] (group 2) { machine (group 2) with cores := [(3, { core3 with scratch := scratchPut [] (2 * 32768 + 16) (leBytes 8 w) })] }
def wordOf (s : State) : Nat := (s.m.barWord 3 2 16).toNat
theorem test_barrier_start : wordOf (ran (.tbarInit 1 2) (stand [lane 0 [] [(1, 16), (2, 2)]] noTags)) = 0x0004008000000000 ∧ wordOf (ran (.tbarExpect 1 3) (barrierAt 0x0004008000000200)) = 0x0004008020000200 := by decide +kernel
theorem test_barrier_arrivals :
    wordOf (ran (.tbarArrive 1) (barrierAt 0x0004008020000200)) = 0x0004004020000200 ∧ wordOf (ran (.tbarArrive 1) (barrierAt 0x0004004020000400)) = 0x1004008000000000 := by decide +kernel
/-- 15, the tile's words: ready at 0x4000 with 4 KiB, then stored to. -/
theorem test_tstate : kAfter (.tstate 7 2) (stand [lane 0 []] { group 2 with tiles := [{}, {}, { state := .ready, size := 32, base := 128 }] }) 7 = 0x08001F02 ∧
    kAfter (.tstate 7 2) (stand [lane 0 []] { group 2 with tiles := [{}, {}, { state := .ready, size := 32, base := 128, d := true, version := 1 }] }) 7 = 0x08001F12 := by decide +kernel
/-- 23, the example of the bound registers: what `bd.stat` reads after the copy. -/
theorem test_bdStat : kAfter (.bdStat 6 2 0) (stand [lane 0 []] { group 2 with bds := [{}, {}, { policy := 2, lo := 0xC0800000, hi := 0x40A00000, count := 3, v := true }] }) 6 = 0x0003000000000102 := by
  decide +kernel
/-- 29, the zone's word after the opening, and after a torn slot, an arrived one and a phase. -/
theorem test_lzStatus :
    kAfter (.lzStatus 4 0 0) (stand [lane 0 []] { copier with zones := [{ zone with base := 0x4000, pend := 1, slots := [{}, {}, {}, {}] }] }) 4 = 0x8080001800004000 := by decide +kernel

/-! Layouts: addresses and offsets at both ends of each range, entries that name frames outside HBM, a saved workgroup with a thread in every state, modules the
translator takes and refuses, and a matmul whose k is no multiple of 64. -/

theorem witness_Layouts_addresses :
    (0 < 2 ^ 40 ∧ 2 ^ 40 ≤ 0xDFFFFFFFFFFFF ∧ 0xDFFFFFFFFFFFF < 0xE000000000000 ∧ 0xE000140000000 ≤ 2 ^ 52 - 1) ∧
    ([(1279, 0), (0, 0x7FFFF)].all (fun p => p.1 < 1280 && p.2 < 0x80000) = true ∧
      0x17FFFF = 0x100000 + 128 * 4095 + 4 * 31 + 3 ∧ 0x21FFFF = 0x200000 + 0x2000 * 15 + 0x1FFF ∧
      [0x80000, 0xFFFFF, 0x180000, 0x1FFFFF, 0x220000, 0x3FFFFF].all (· < 0x400000) = true) ∧
    ([2 ^ 40 + 1, 2 ^ 51 + 1].all (fun e => e % 2 == 1 && e / 2 ^ 75 % 2 == 0 && decide (2 ^ 24 ≤ e / 2 ^ 16 % 2 ^ 36)) = true) :=
  ⟨by decide, by decide, by decide⟩

def savedThreads : Wg := { leaver with leaving := 0, threads := [{ thread 0 with rs := [0x20, 0x10] }, { thread 1 with status := .exited },
  { thread 2 with status := .asleep 77 }, { thread 3 with status := .gathered 9 63 }, { thread 4 with status := .atBar 7 }, { thread 5 with status := .waiting .monitor }] }
/-- A small image with each of those threads. -/
theorem witness_Layouts_image :
    let w := savedThreads
    w.threads.length = 6 ∧ (w.thread 0).rs.length = 2 ∧ (w.thread 0).status = .ready ∧ (w.thread 1).status = .exited ∧ (w.thread 2).status = .asleep 77 ∧
    ((w.thread 3).status = .gathered 9 63 ∧ 9 < 2 ^ 32 ∧ 63 < 64) ∧ ((w.thread 4).status = .atBar 7 ∧ 7 < 8) ∧
    ((w.thread 5).status = .waiting .monitor ∧ ∀ id, Wait.monitor ≠ .fault id) ∧ 0 < w.hdr.scratch ∧ 0 < w.hdr.accs := by
  refine ⟨rfl, rfl, rfl, rfl, rfl, ⟨rfl, by decide, by decide⟩, ⟨rfl, by decide⟩, ⟨rfl, ?_⟩, by decide, by decide⟩
  intro id h
  cases h

/-- One value of 3 x s0 elements converted to its own shape, into `res`. -/
def converting (elem : TileElem) (res : List Dim) : Module :=
  { types := [⟨.code 10, [.const 3, .sym 0]⟩, ⟨elem, res⟩], ops := [⟨6, 1, 0, 1, [0]⟩], values := [0] }
theorem witness_Layouts_modules :
    ({ converting (.code 8) [] with values := [2] }).wf = false ∧
    ((converting (.code 8) [.const 3, .sym 0]).wf = true ∧ ∃ t ∈ (converting (.code 8) [.const 3, .sym 0]).used, t.bind [0] = none) ∧
    ((converting (.digest 5) [.const 3, .const 4]).wf = true ∧ (∀ t ∈ (converting (.digest 5) [.const 3, .const 4]).used, t.bind [4] ≠ none) ∧
      (∃ t ∈ (converting (.digest 5) [.const 3, .const 4]).used, ∃ d, t.elem = .digest d ∧ ∀ f ∈ [(6, 8)], f.1 ≠ d) ∧
      ∀ t ∈ (converting (.digest 5) [.const 3, .const 4]).used, ∀ d, t.elem = .digest d → ∃ f ∈ [(5, 8)], f.1 = d) := by
  refine ⟨by decide, ⟨by decide, ⟨.code 10, [.const 3, .sym 0]⟩, by decide, by decide⟩, by decide, by decide, ?_, ?_⟩
  · exact ⟨⟨.digest 5, [.const 3, .const 4]⟩, by decide, 5, rfl, by decide⟩
  · intro t h d hd
    have : t = ⟨.code 10, [.const 3, .sym 0]⟩ ∨ t = ⟨.digest 5, [.const 3, .const 4]⟩ := by simpa [converting, Module.used, Module.type] using h
    rcases this with rfl | rfl
    · cases hd
    · cases hd; exact ⟨(5, 8), by decide, rfl⟩
theorem test_module_refusals :
    (converting (.code 8) [.const 3, .sym 0]).refusal [0] [] = 2 ∧ (converting (.code 8) [.const 3, .sym 0]).refusal [4] [] = 0 ∧
    (converting (.code 8) [.const 4, .sym 0]).refusal [4] [] = 3 ∧ (converting (.digest 5) [.const 3, .const 4]).refusal [4] [(6, 8)] = 6 := by decide
theorem witness_Layouts_matmul :
    (∀ r ∈ [[ofInt 1, ofInt 2, ofInt 3]], r.length = 3) ∧ [[ofInt 4], [ofInt 5], [ofInt 6]].length = 3 ∧ [[ofInt 1, ofInt 2, ofInt 3]].length = [[0]].length := by decide

/-- Hand calculation: 1 x 4 + 2 x 5 + 3 x 6 = 32. -/
theorem test_matmul : tileMatmul [[ofInt 1, ofInt 2, ofInt 3]] [[ofInt 4], [ofInt 5], [ofInt 6]] [[0]] = [[0x42000000]] := by decide +kernel
theorem witness_Layouts_length : { image with wg := { image.wg with hdr := { image.wg.hdr with scratch := 0, accs := 0, vregs := 1 } } }.bytes.length < 2 ^ 32 := by decide +kernel

end Sys2Proof.Tests
end

section
/-! SUPPORT. Fetch and issue (R14, R17, R156): the word and the extension word that a core reads from memory, and the machine in which the
issue group stands. -/
namespace Sys2Proof.Machine

/-! ## Bytes of memory -/

@[simp] theorem Memory.length_readN (mem : List Host.Cell) (a n : Nat) : (Memory.readN mem a n).length = n := by
  induction n generalizing a with
  | zero => rfl
  | succ n ih => simp [Memory.readN, ih]
theorem Memory.readN_add (mem : List Host.Cell) (a n k : Nat) :
    Memory.readN mem a (n + k) = Memory.readN mem a n ++ Memory.readN mem (a + n) k := by
  induction n generalizing a with
  | zero => simp [Memory.readN]
  | succ n ih => rw [Nat.succ_add_eq_add_succ, ← Nat.add_assoc]; simp [Memory.readN, ih, Nat.add_assoc, Nat.add_comm 1]

/-- The extension word of the instruction at `pa`, where its first word calls for one (R14). -/
def extAt (mem : List Host.Cell) (pa : Nat) : Option Nat :=
  if needsExt (leNat (Memory.readN mem pa 8)) then some (leNat (Memory.readN mem (pa + 8) 8)) else none
theorem decode?_eq_some {w : Nat} {ext : Option Nat} {i : Instr} (h : decodeWord w ext = .ok i) : decode? w ext = some i := by
  simp [decode?, h]
/-- 16 bytes of memory decode to what the first word and its extension word decode to; the bytes after the instruction are left. -/
theorem decodeBytes_readN {mem : List Host.Cell} {pa : Nat} {i : Instr} {rest : List Byte}
    (h : decodeBytes (Memory.readN mem pa 16) = .ok (i, rest)) :
    decode? (leNat (Memory.readN mem pa 8)) (extAt mem pa) = some i ∧ (extAt mem pa = none ↔ rest.length = 8) := by
  rw [show 16 = 8 + 8 from rfl, Memory.readN_add] at h
  have htake : (Memory.readN mem pa 8 ++ Memory.readN mem (pa + 8) 8).take 8 = Memory.readN mem pa 8 := List.take_left' (by simp)
  have hdrop : (Memory.readN mem pa 8 ++ Memory.readN mem (pa + 8) 8).drop 8 = Memory.readN mem (pa + 8) 8 := List.drop_left' (by simp)
  have hnext : (Memory.readN mem (pa + 8) 8).take 8 = Memory.readN mem (pa + 8) 8 := List.take_of_length_le (by simp)
  have hlen : (Memory.readN mem pa 8 ++ Memory.readN mem (pa + 8) 8).length = 16 := by simp
  simp only [decodeBytes, htake, hdrop, hnext, hlen] at h
  unfold extAt
  by_cases hx : needsExt (leNat (Memory.readN mem pa 8)) = true
  · simp only [hx, if_true] at h ⊢
    cases hd : decodeWord (leNat (Memory.readN mem pa 8)) (some (leNat (Memory.readN mem (pa + 8) 8))) with
    | error e => simp [hd, Except.map] at h
    | ok j =>
      simp [hd, Except.map] at h
      obtain ⟨rfl, rfl⟩ := h
      exact ⟨decode?_eq_some hd, by simp⟩
  · simp only [hx] at h ⊢
    cases hd : decodeWord (leNat (Memory.readN mem pa 8)) none with
    | error e => simp [hd, Except.map] at h
    | ok j =>
      simp [hd, Except.map] at h
      obtain ⟨rfl, rfl⟩ := h
      exact ⟨decode?_eq_some hd, by simp⟩

/-! ## Fetching (R211, R377) -/

/-- A page that grants an access at `va` grants it as far as the page goes, at the addresses that follow. -/
theorem transPte_add {p : Pte} {va pa kind n : Nat} {k : Access} (h : transPte p va k = .ok pa kind) (hn : va % 65536 + n < 65536) :
    transPte p (va + n) k = .ok (pa + n) kind := by
  have hpa : p.pa (va + n) = p.pa va + n := by unfold Pte.pa; split <;> omega
  unfold transPte at h ⊢
  split at h
  · cases h
  next hchannel =>
    split at h
    · cases h
    next hengine =>
      split at h
      · cases h
      next hright =>
        split at h
        · split at h <;> cases h
        next hdiscarded =>
          split at h
          · cases h
          next hremote =>
            cases h
            rw [if_neg hchannel, if_neg hengine, if_neg hright, if_neg hdiscarded, if_neg hremote, hpa]
/-- A page in the core's translation cache that grants the access answers it. -/
theorem Mach.coreTranslate_cached {m : Mach} {core vf va pa kind : Nat} {k : Access} {p : Pte}
    (hp : tget (m.core core).tlb (va / 65536) = some p) (ht : transPte p va k = .ok pa kind) :
    m.coreTranslate core vf va k = (.ok pa kind, m) := by
  simp [Mach.coreTranslate, hp, ht]
/-- A core's instruction cache is `c`; nothing else changes. -/
def Mach.withIcache (m : Mach) (core : Nat) (c : Sparse Nat) : Mach := m.modCore core (fun x => { x with icache := c })
@[simp] theorem Mach.withIcache_core_same (m : Mach) (core : Nat) (c : Sparse Nat) :
    (m.withIcache core c).core core = { m.core core with icache := c } := by simp [Mach.withIcache, Mach.modCore]
theorem Mach.withIcache_core (m : Mach) (core : Nat) (c : Sparse Nat) (k : Nat) :
    (m.withIcache core c).core k = { m.core k with icache := ((m.withIcache core c).core k).icache } := by
  by_cases hk : k = core
  · subst hk; simp
  · simp [Mach.withIcache, Mach.modCore, Mach.setCore_core_other m _ hk]
@[simp] theorem Mach.withIcache_withIcache (m : Mach) (core : Nat) (c d : Sparse Nat) :
    (m.withIcache core c).withIcache core d = m.withIcache core d := by simp [Mach.withIcache, Mach.modCore]
@[simp] theorem Mach.withIcache_mem (m : Mach) (core : Nat) (c : Sparse Nat) : (m.withIcache core c).mem = m.mem := rfl
@[simp] theorem Mach.withIcache_poison (m : Mach) (core : Nat) (c : Sparse Nat) : (m.withIcache core c).poison = m.poison := rfl
@[simp] theorem Mach.withIcache_wg? (m : Mach) (core : Nat) (c : Sparse Nat) (d k : Nat) :
    (m.withIcache core c).wg? d k = m.wg? d k := rfl
/-- A word of a cached page that is neither in the instruction cache nor poisoned is read from memory, and stays in the cache. -/
theorem Mach.fetch64_memory {m : Mach} {core vf va pa kind : Nat} {p : Pte} (hp : tget (m.core core).tlb (va / 65536) = some p)
    (ht : transPte p va .execute = .ok pa kind) (hc : tget (m.core core).icache (pa / 8) = none) (hl : lineOf pa ∉ m.poison) :
    m.fetch64 core vf va = (.word (leNat (Memory.readN m.mem pa 8)),
      m.withIcache core (tset (m.core core).icache (pa / 8) (leNat (Memory.readN m.mem pa 8)))) := by
  simp [Mach.fetch64, Mach.coreTranslate_cached hp ht, hc, hl, Mach.withIcache, Mach.modCore]
theorem upFrom_eq_range' (lo n : Nat) : upFrom lo n = List.range' lo n := by
  induction n generalizing lo with
  | zero => rfl
  | succ n ih => rw [upFrom, ih, List.range'_succ]
theorem mem_upFrom {lo n k : Nat} : k ∈ upFrom lo n ↔ lo ≤ k ∧ k < lo + n := by rw [upFrom_eq_range', List.mem_range'_1]
theorem lineOf_mem_linesOf {pa n k : Nat} (h : k < n) : lineOf (pa + k) ∈ linesOf pa n := by
  have hn : n ≠ 0 := by omega
  simp only [linesOf, hn, if_false, mem_upFrom, lineOf]
  omega

end Sys2Proof.Machine
namespace Sys2Proof.Claims
open Sys2Proof.Machine

/-- What a core fetches is the instruction's words in memory; only its instruction cache changes. -/
theorem Fetches.fetchInstr {s : State} {core pa : Nat} {pc : Addr} (h : Fetches s core pc pa) (vf : Nat) {m : Mach}
    (hcore : m.cores = s.m.cores) (hmem : m.mem = s.m.mem) (hpoison : m.poison = s.m.poison) :
    ∃ c, m.fetchInstr core vf pc = (.ok (leNat (Memory.readN s.m.mem pa 8)) (extAt s.m.mem pa), m.withIcache core c) := by
  obtain ⟨hpage, ⟨p, k, hp, ht⟩, hi, hl, -, halign⟩ := h
  have hcores : m.core core = s.m.core core := by simp [Mach.core, hcore]
  rw [← hcores] at hp hi
  rw [← hpoison] at hl
  have hfirst := Mach.fetch64_memory (vf := vf) hp ht (by rw [hi]; rfl) (hl _ (lineOf_mem_linesOf (k := 0) (by omega)))
  have hva : (pc.toNat + 8) % 2 ^ 80 = pc.toNat + 8 := by have := pc.isLt; omega
  by_cases hx : needsExt (leNat (Memory.readN s.m.mem pa 8)) = true
  · have hnext := Mach.fetch64_memory (vf := vf) (m := m.withIcache core (tset [] (pa / 8) (leNat (Memory.readN m.mem pa 8))))
      (core := core) (va := pc.toNat + 8) (pa := pa + 8) (p := p) (kind := k)
      (by rw [show (pc.toNat + 8) / 65536 = pc.toNat / 65536 by omega]; simpa using hp) (transPte_add ht (by omega))
      (by simp only [Mach.withIcache_core_same]; rw [tget_tset_other _ _ (by omega)]; rfl) (hl _ (lineOf_mem_linesOf (by omega)))
    rw [hi] at hfirst
    simp only [Mach.withIcache_mem, Mach.withIcache_withIcache, hmem] at hfirst hnext
    exact ⟨_, by simp only [Mach.fetchInstr, hfirst, hx, if_true, hva, hnext, extAt]; rfl⟩
  · exact ⟨_, by simp [Mach.fetchInstr, hfirst, hmem, hx, extAt]; rfl⟩

end Sys2Proof.Claims
namespace Sys2Proof.Machine

/-! ## Issue (R155, R156) -/

/-- `x` is the workgroup `w` but for what the issue of a group changes: yield marks, blocks still to re-enter, and its warps' own records. -/
def Wg.SameButIssue (w x : Wg) : Prop :=
  x = { w with threads := x.threads, warps := x.warps } ∧
    ∀ j, x.thread j = { w.thread j with yieldMark := (x.thread j).yieldMark, reenter := (x.thread j).reenter }
theorem Wg.SameButIssue.warps {w x : Wg} (h : w.SameButIssue x) (ws : List Warp) : w.SameButIssue { x with warps := ws } := by
  obtain ⟨hx, ht⟩ := h
  exact ⟨by rw [hx], ht⟩
theorem Wg.SameButIssue.foldl_setWarp {w x : Wg} (h : w.SameButIssue x) (f : Warp → Warp) (ns : List Nat) :
    w.SameButIssue (ns.foldl (fun w n => w.setWarp n f) x) := by
  induction ns generalizing x with
  | nil => exact h
  | cons n ns ih => exact ih (h.warps _)
theorem Wg.thread_modThreads (w : Wg) (ts : List Nat) (f : Thread → Thread) (j : Nat) :
    (w.modThreads ts f).thread j = if j < w.threads.length ∧ j ∈ ts then f (w.thread j) else w.thread j := by
  by_cases hj : j < w.threads.length
  · by_cases ht : j ∈ ts <;> simp [Wg.thread, Wg.modThreads, hj, ht]
  · simp [Wg.thread, Wg.modThreads, hj]
theorem Wg.sameButIssue_modThreads (w : Wg) (ts : List Nat) (r : Thread → Option (Nat × Nat × BitVec 8)) :
    w.SameButIssue (w.modThreads ts (fun t => { t with yieldMark := false, reenter := r t })) := by
  refine ⟨rfl, fun j => ?_⟩
  rw [Wg.thread_modThreads]
  split <;> rfl

@[simp] theorem Wg.unfuse_nil (w : Wg) : w.unfuse [] = w := by
  have : w.fused.filter (fun f => !f.threads.any [].contains) = w.fused := List.filter_eq_self.2 (by simp [List.any_eq_false])
  rw [Wg.unfuse, this]
/-- No fault record of the core is open: no thread parks, and nothing is saved. -/
theorem Mach.passFaults_none {m : Mach} {core slot : Nat} {w : Wg} (ts : List Nat) (i : Option Instr) (hw : m.wg? core slot = some w)
    (hf : (m.core core).faults = []) : m.passFaults core slot ts i = ((m.setWg core slot w).setCore core (m.core core), ts) := by
  have hself : ({ m.core core with faults := [] } : Core) = m.core core := by rw [← hf]
  have hmine : ts.filterMap (fun _ : Nat => (none : Option (Nat × FaultRec))) = [] := List.filterMap_eq_nil_iff.2 fun _ _ => rfl
  simp [Mach.passFaults, hw, hf, Mach.modCore, hself, hmine]
/-- A thread that has no block to re-enter waits for no slot of one. -/
theorem Mach.blockFetch_none {m : Mach} {core vf : Nat} {t : Thread} (h : t.reenter = none) : m.blockFetch core vf t = none := by
  simp [Mach.blockFetch, h]

/-- A core set to what it is: every core reads as before. -/
theorem Mach.setCore_core_self (m : Mach) (c k : Nat) : (m.setCore c (m.core c)).core k = m.core k := by
  by_cases hk : k = c
  · rw [hk, Mach.setCore_core]
  · exact Mach.setCore_core_other m _ hk
theorem Mach.setWg_setCore_modWg (m : Mach) (c k d : Nat) (w : Wg) (x : Core) (f : Wg → Wg) :
    ((m.setWg c k w).setCore d x).modWg c k f = (m.setWg c k (f w)).setCore d x := by
  have hw : ((m.setWg c k w).setCore d x).wg? c k = some w := by simp
  rw [Mach.modWg_eq _ f hw, ← Mach.setWg_setWg m c k w (f w)]
  rfl

/-- ISSUE of threads whose instruction is fetched and decoded, names no register beyond the allocation, and re-enters no block: it stands as
the issue group, and of the machine only the workgroup's issue records change. -/
theorem Mach.beginIssue_decoded {m m' : Mach} {core slot t0 word : Nat} {ts : List Nat} {w : Wg} {ext : Option Nat} {i : Instr} (clk : Clock)
    (hw : m.wg? core slot = some w) (hf : m.fetchInstr core w.vf (w.thread t0).pc = (.ok word ext, m')) (hw' : m'.wg? core slot = some w)
    (hn : (m'.core core).faults = []) (hd : decode? word ext = some i) (ha : w.inAlloc i = true)
    (hr : ∀ p q n x, i = .pblk p q n x → ∀ j ∈ t0 :: ts, (w.thread j).reenter = none) :
    ∃ x, w.SameButIssue x ∧ m.beginIssue clk core slot (t0 :: ts) =
      ({ (m'.setWg core slot x).setCore core (m'.core core) with ig := some { core, slot, threads := t0 :: ts, pc := (w.thread t0).pc, w := word, ext } },
        some i) := by
  simp only [Mach.beginIssue, hw, hf, hd, Mach.passFaults_none _ _ hw' hn, Mach.setWg_setCore_modWg, ha, Bool.not_true, Bool.false_eq_true, if_false]
  split
  case h_1 e he =>
    split at he
    case h_1 hi =>
      obtain ⟨j, hj, hje⟩ := List.exists_of_findSome?_eq_some (by simpa only [if_true] using he)
      rw [Mach.blockFetch_none (hr _ _ _ _ (Option.some.inj hi) j hj)] at hje
      cases hje
    case h_2 => cases he
  case h_2 =>
    have hx := w.sameButIssue_modThreads (t0 :: ts)
    by_cases hv : writesV i = true
    · simp only [hv, if_true]
      exact ⟨_, (hx _).foldl_setWarp _ _, rfl⟩
    · simp only [hv]
      exact ⟨_, hx _, rfl⟩


/-! ## Steps (R14, R305) -/

theorem settledOutcome_eq_after (o : Host.Outcome State Fault Refusal) : settledOutcome o = Claims.after o := by cases o <;> rfl
/-- An event at the head of the agenda happens. -/
theorem step_event {s : State} {i : Instr} {rest : List Move} (h : s.agenda = .event i :: rest) :
    step s = Claims.after (exec i { s with agenda := rest }) := by
  simp only [step, h, runMove, settledOutcome_eq_after]
/-- With nothing on the agenda and no run picked, the word at which a drain runs is executed. -/
theorem step_epiWord {s : State} {i : Instr} {core : Nat} {d : Drain} (ha : s.agenda = []) (hp : s.m.pick = none)
    (hd : s.m.runningDrain = some (core, d)) (hi : decodeEp (d.words.getD d.pc 0).toNat = .ok i) : step s = Claims.after (exec i s) := by
  have hw : s.m.epiWord? = some i := by simp only [Mach.epiWord?, hd, hi]; rfl
  simp only [step, ha, runSelf, hp, hw, settledOutcome_eq_after]
/-- The run that a rescue has picked issues next; the instruction with which its issue begins is executed. -/
theorem step_pick {s : State} {i : Instr} {core slot : Nat} {ts : List Nat} {m : Mach} (ha : s.agenda = [])
    (hp : s.m.pick = some (core, slot, ts)) (hb : ({ s.m with pick := none } : Mach).beginIssue s.clk core slot ts = (m, some i)) :
    step s = Claims.after (exec i (Claims.withM s m)) := by
  simp only [step, ha, runSelf, hp, issueOn, hb, settledOutcome_eq_after, Claims.withM]

end Sys2Proof.Machine
end

section
open Sys2Proof Sys2Proof.Machine Sys2Proof.Claims

/-- Settles O57: a picked run by `Mach.beginIssue_decoded` on the words it fetches, an event and an epilogue word by the order of `step`. -/
theorem stepRunsDecodedInstruction : Obligations.StepRunsDecodedInstruction := by
  intro s i
  refine ⟨?_, fun rest h => step_event h, fun core d ha hp hd hi => step_epiWord ha hp hd hi⟩
  intro core slot t0 ts w pa rest hagenda hpick hw hfetch hdecode halloc hblock
  obtain ⟨hword, hext⟩ := decodeBytes_readN hdecode
  obtain ⟨c, hc⟩ := hfetch.fetchInstr w.vf (m := { s.m with pick := none }) rfl rfl rfl
  obtain ⟨-, -, -, -, hfaults, -⟩ := hfetch
  obtain ⟨x, ⟨hx, hthread⟩, hbegin⟩ := Mach.beginIssue_decoded s.clk (m := { s.m with pick := none }) hw hc hw
    (by rw [Mach.withIcache_core_same]; exact hfaults) hword halloc hblock
  refine ⟨_, x, _, _, step_pick hagenda hpick hbegin, rfl, rfl, rfl, hext, ?_, rfl, rfl, rfl, rfl, hx, hthread, fun k => ?_⟩
  · intro y hy
    unfold extAt at hy
    split at hy
    · exact (Option.some.inj hy).symm
    · cases hy
  · have hcore := (Mach.setCore_core_self ((({ s.m with pick := none } : Mach).withIcache core c).setWg core slot x) core k).trans
      (Mach.withIcache_core { s.m with pick := none } core c k)
    exact hcore.trans (congrArg (fun y : Core => { s.m.core k with icache := y.icache }) hcore).symm
end

section
/-! SUPPORT. Placing a workgroup (R173, R174, R474): a core that can still hold a workgroup has a seat for it; what the room on the cores
depends on. -/
namespace Sys2Proof.Machine

/-! ## Tables and lists -/

/-- Records changed one by one under their keys. -/
theorem tget_map {α : Type} (m : Sparse α) (f : Nat × α → Nat × α) (hf : ∀ e, (f e).1 = e.1) (k : Nat) :
    tget (m.map f) k = (tget m k).map (fun x => (f (k, x)).2) := by
  induction m with
  | nil => rfl
  | cons e m ih =>
    obtain ⟨j, x⟩ := e
    have hj : f (j, x) = (j, (f (j, x)).2) := Prod.ext (hf _) rfl
    rw [List.map_cons, hj]
    by_cases h1 : j = k
    · subst h1; simp [tget]
    · by_cases h2 : k < j <;> simp [tget, h1, h2, ih]
/-- A put leaves what some record satisfies, when the record it replaces, or the default, answers the same. -/
theorem any_tset {α : Type} (p : α → Bool) (m : Sparse α) (k : Nat) (x d : α) (hx : p x = p ((tget m k).getD d)) (hd : p d = false) :
    (tset m k x).any (fun e => p e.2) = m.any (fun e => p e.2) := by
  induction m with
  | nil => simpa [tset, tget, hd] using hx
  | cons e m ih =>
    obtain ⟨j, y⟩ := e
    by_cases h1 : k < j
    · have h2 : ¬ j = k := by omega
      simp [tset, tget, h1, h2, hd] at hx ⊢
      simp [hx]
    · by_cases h2 : j = k
      · simp [tset, tget, h2] at hx ⊢
        simp [hx]
      · simp [tset, tget, h1, h2] at hx ⊢
        rw [ih hx]
theorem leastBy_mem {α : Type} {key : α → Nat} {xs : List α} {x : α} (h : leastBy key xs = some x) : x ∈ xs := by
  induction xs generalizing x with
  | nil => cases h
  | cons y xs ih =>
    cases hr : leastBy key xs with
    | none => simp [leastBy, hr] at h; simp [h]
    | some z =>
      simp only [leastBy, hr] at h
      split at h
      · simp [Option.some.inj h]
      · exact List.mem_cons_of_mem _ (ih (hr.trans h))
theorem lt_foldl_min {a b : Nat} {xs : List Nat} (h : a < xs.foldl min b) : a < b ∧ ∀ x ∈ xs, a < x := by
  induction xs generalizing b with
  | nil => exact ⟨h, by simp⟩
  | cons y xs ih =>
    obtain ⟨hb, hx⟩ := ih h
    have := Nat.lt_min.1 hb
    exact ⟨this.1, by simpa [this.2] using hx⟩

/-! ## A seat where there is room -/

theorem sumOf_pos {α : Type} {f : α → Nat} {xs : List α} (h : 0 < sumOf f xs) : ∃ x ∈ xs, 0 < f x := by
  rw [sumOf, ← List.sum_eq_foldl] at h
  induction xs with
  | nil => exact absurd h (Nat.lt_irrefl 0)
  | cons x xs ih =>
    rw [List.map_cons, List.sum_cons] at h
    by_cases hx : 0 < f x
    · exact ⟨x, List.mem_cons_self, hx⟩
    · obtain ⟨y, hy, hpos⟩ := ih (by omega)
      exact ⟨y, List.mem_cons_of_mem x hy, hpos⟩
/-- Runs that hold `n` units at least once have a place for them. -/
theorem firstFit_isSome {top n : Nat} {used : List (Nat × Nat)} (h : n ≠ 0 → 0 < sumOf (fun g => g.2 / n) (freeRuns top used)) :
    (firstFit top used n).isSome = true := by
  unfold firstFit
  split
  · rfl
  · next hn =>
    obtain ⟨g, hg, hpos⟩ := sumOf_pos (h hn)
    have hfit : n ≤ g.2 := (Nat.div_pos_iff.1 hpos).2
    rw [Option.isSome_map, List.find?_isSome]
    exact ⟨g, hg, by simpa using hfit⟩
/-- A list that holds every number below `n` is as long. -/
theorem le_length_of_forall_mem {n : Nat} {used : List Nat} (h : ∀ i < n, i ∈ used) : n ≤ used.length := by
  induction n generalizing used with
  | zero => exact Nat.zero_le _
  | succ n ih =>
    have hn : n ∈ used := h n (Nat.lt_succ_self n)
    have hrest := ih fun i hi => (List.mem_erase_of_ne (Nat.ne_of_lt hi)).2 (h i (Nat.lt_succ_of_lt hi))
    have hpos := List.length_pos_of_mem hn
    rw [List.length_erase_of_mem hn] at hrest
    omega
/-- Fewer than `top` numbers in use leave one free. -/
theorem freeBelow_ne_nil {top : Nat} {used : List Nat} (h : used.length < top) : freeBelow top used ≠ [] := by
  intro hnil
  refine Nat.not_lt.2 (le_length_of_forall_mem fun i hi => ?_) h
  have hfree := List.filter_eq_nil_iff.1 hnil i (mem_upFrom.2 ⟨Nat.zero_le i, by omega⟩)
  simpa using hfree
theorem roomFor_pos {h : Header} {ws : List (Nat × Wg)} (hr : 0 < roomFor h ws) :
    ws.length < 64 ∧ (h.rows ≠ 0 → 0 < sumOf (fun g => g.2 / h.rows) (freeRuns 4096 (rowRuns ws))) ∧
      (h.scratch ≠ 0 → 0 < sumOf (fun g => g.2 / h.scratch) (freeRuns 16 (granRuns ws))) := by
  obtain ⟨-, hall⟩ := lt_foldl_min hr
  refine ⟨?_, fun hn => hall _ ?_, fun hn => hall _ ?_⟩
  · have := hall (64 - ws.length) (by simp)
    omega
  · simp [hn]
  · simp [hn]
/-- A core that can hold a workgroup gives it a seat. -/
theorem Mach.seat?_isSome {m : Mach} {core vf : Nat} {h : Header} (hc : 0 < m.canHold core vf h) : ∃ seat, m.seat? core h = some seat := by
  have hr : 0 < roomFor h (m.wgsOf core) := by
    unfold Mach.canHold at hc
    split at hc
    · exact hc
    · cases hc
  obtain ⟨hlen, hrows, hgrans⟩ := roomFor_pos hr
  obtain ⟨slot, rest, hslot⟩ := List.exists_cons_of_ne_nil (freeBelow_ne_nil (used := (m.wgsOf core).map (·.1)) (by simpa using hlen))
  obtain ⟨gran, hgran⟩ := Option.isSome_iff_exists.1 (firstFit_isSome hgrans)
  obtain ⟨row, hrow⟩ := Option.isSome_iff_exists.1 (firstFit_isSome hrows)
  exact ⟨_, by simp only [Mach.seat?, hslot, List.head?_cons, hgran, hrow]; rfl⟩
theorem Mach.canHold_bestCore {m : Mach} {core vf : Nat} {h : Header} {cores not_ : List Nat} (hb : m.bestCore vf h cores not_ = some core) :
    0 < m.canHold core vf h := by
  have := (List.mem_filter.1 (leastBy_mem hb)).2
  simpa using this

/-! ## What the room on the cores depends on -/

/-- `m'` has the room of `m`: the same cores and workgroups, and the same cores under test (R174, R203). -/
structure Mach.SameRoom (m m' : Mach) : Prop where
  cores : m'.cores = m.cores
  wgs : m'.wgs = m.wgs
  testing : ∀ c, m'.fns.any (fun e => e.2.testing.contains c) = m.fns.any (fun e => e.2.testing.contains c)

theorem Mach.SameRoom.trans {m m' m'' : Mach} (h : m.SameRoom m') (h' : m'.SameRoom m'') : m.SameRoom m'' :=
  ⟨h'.cores.trans h.cores, h'.wgs.trans h.wgs, fun c => (h'.testing c).trans (h.testing c)⟩
theorem Mach.sameRoom_modFn (m : Mach) (vf : Nat) (g : Fn → Fn) (hg : ∀ f, (g f).testing = f.testing) : m.SameRoom (m.modFn vf g) :=
  ⟨rfl, rfl, fun c => any_tset (fun f : Fn => f.testing.contains c) m.fns vf _ {} (by simp only [hg]; rfl) rfl⟩
/-- Functions changed one by one, none in the cores it tests. -/
theorem Mach.sameRoom_mapFns (m : Mach) (f : Nat × Fn → Nat × Fn) (hf : ∀ e, (f e).2.testing = e.2.testing) :
    m.SameRoom { m with fns := m.fns.map f } :=
  ⟨rfl, rfl, fun c => by simp only [List.any_map, Function.comp_def, hf]⟩

section
variable {m m' : Mach} (h : m.SameRoom m')
include h
theorem Mach.SameRoom.wgsOf (core : Nat) : m'.wgsOf core = m.wgsOf core := by rw [Mach.wgsOf, h.wgs]; rfl
theorem Mach.SameRoom.untouched : m'.untouched = m.untouched := by
  funext core
  simp only [Mach.untouched, h.cores, h.testing]
theorem Mach.SameRoom.usable : m'.usable = m.usable := by
  have hcore : m'.core = m.core := by funext c; rw [Mach.core, h.cores]; rfl
  funext core vf
  rw [Mach.usable, hcore, h.testing]
  rfl
theorem Mach.SameRoom.canHold : m'.canHold = m.canHold := by
  funext core vf hdr
  rw [Mach.canHold, h.usable, h.wgsOf]
  rfl
theorem Mach.SameRoom.bestCore : m'.bestCore = m.bestCore := by
  funext vf hdr cores not_
  simp only [Mach.bestCore, Mach.freeWarps, h.untouched, h.canHold, h.wgsOf]
theorem Mach.SameRoom.seat? : m'.seat? = m.seat? := by
  funext core hdr
  simp only [Mach.seat?, h.wgsOf]
theorem Mach.SameRoom.roomDie (hd : m'.lastDie = m.lastDie) : m'.roomDie = m.roomDie := by
  have hdie : m'.dieward = m.dieward := by
    funext vf hdr d
    simp only [Mach.dieward, h.untouched, h.canHold]
  funext vf hdr
  rw [Mach.roomDie, Mach.dieOrder, hd, hdie]
  rfl
end

end Sys2Proof.Machine
end

section
/-! SUPPORT. The global dispatcher's turn (R173), and what placing a workgroup leaves of the launches. -/
namespace Sys2Proof.Machine

/-! ## Functions and their launches -/

theorem Mach.fn_of_tget {m : Mach} {vf : Nat} {x : Fn} (h : tget m.fns vf = some x) : m.fn vf = x := by simp [Mach.fn, h]
@[simp] theorem Mach.modFn_fn (m : Mach) (vf : Nat) (g : Fn → Fn) : (m.modFn vf g).fn vf = g (m.fn vf) := by
  simp [Mach.modFn]
theorem Mach.modFn_fn_other (m : Mach) {vf k : Nat} (g : Fn → Fn) (h : k ≠ vf) : (m.modFn vf g).fn k = m.fn k :=
  Mach.setFn_fn_other m _ h
/-- A function with a launch is listed. -/
theorem Mach.tget_fns_of_launch {m : Mach} {vf id : Nat} {l : Launch} (h : m.launch? vf id = some l) : ∃ x, tget m.fns vf = some x := by
  cases hx : tget m.fns vf with
  | some x => exact ⟨x, rfl⟩
  | none => simp [Mach.launch?, Mach.fn, hx] at h
/-- A launch found by its number, after a change that keeps the numbers. -/
theorem Mach.launch?_modLaunch {m : Mach} {vf id : Nat} {l : Launch} (g : Launch → Launch) (hg : ∀ l, (g l).id = l.id)
    (h : m.launch? vf id = some l) : (m.modLaunch vf id g).launch? vf id = some (g l) := by
  have hkeep : ((fun l : Launch => l.id == id) ∘ fun l => if l.id = id then g l else l) = fun l => l.id == id := by
    funext x
    simp only [Function.comp_apply]
    split <;> simp_all
  have hid : l.id = id := by simpa using List.find?_some h
  simp only [Mach.launch?] at h
  simp only [Mach.launch?, Mach.modLaunch, Mach.modFn_fn, List.find?_map, hkeep, h, Option.map_some, hid, if_true]

/-! ## The turn of one source -/

/-- `f'` has the work of `f`: its launches, its record queues with their rings, and the cores it tests. -/
structure Fn.SameWork (f f' : Fn) : Prop where
  launches : f'.launches = f.launches
  queues : f'.queues = f.queues
  qk : f'.qk = f.qk
  testing : f'.testing = f.testing
/-- What choosing a source leaves: the cores, the workgroups, the die last served, and each function's work. -/
structure Mach.SameWork (m m' : Mach) : Prop where
  room : m.SameRoom m'
  lastDie : m'.lastDie = m.lastDie
  work : ∀ vf, (m.fn vf).SameWork (m'.fn vf)

theorem Fn.SameWork.refl (f : Fn) : f.SameWork f := ⟨rfl, rfl, rfl, rfl⟩
theorem Fn.SameWork.trans {f f' f'' : Fn} (h : f.SameWork f') (h' : f'.SameWork f'') : f.SameWork f'' :=
  ⟨h'.launches.trans h.launches, h'.queues.trans h.queues, h'.qk.trans h.qk, h'.testing.trans h.testing⟩
theorem Mach.SameWork.trans {m m' m'' : Mach} (h : m.SameWork m') (h' : m'.SameWork m'') : m.SameWork m'' :=
  ⟨h.room.trans h'.room, h'.lastDie.trans h.lastDie, fun vf => (h.work vf).trans (h'.work vf)⟩
theorem Mach.sameWork_modFn (m : Mach) (vf : Nat) (g : Fn → Fn) (hg : ∀ f : Fn, f.SameWork (g f)) : m.SameWork (m.modFn vf g) := by
  refine ⟨m.sameRoom_modFn vf g fun f => (hg f).testing, rfl, fun k => ?_⟩
  by_cases hk : k = vf
  · rw [hk, Mach.modFn_fn]; exact hg _
  · rw [Mach.modFn_fn_other m g hk]; exact .refl _
/-- Functions changed one by one under their numbers, none in its work. -/
theorem Mach.sameWork_mapFns (m : Mach) (f : Nat × Fn → Nat × Fn) (hk : ∀ e, (f e).1 = e.1) (hf : ∀ e : Nat × Fn, e.2.SameWork (f e).2) :
    m.SameWork { m with fns := m.fns.map f } := by
  refine ⟨m.sameRoom_mapFns f fun e => (hf e).testing, rfl, fun vf => ?_⟩
  simp only [Mach.fn, tget_map m.fns f hk]
  cases tget m.fns vf with
  | none => exact .refl _
  | some x => exact hf (vf, x)

/-- Rounds enough for a deficit to rise above 0. -/
theorem deficit_pos {d : Int} {w r : Nat} (hw : 0 < w) (hr : r = ((1 - d).toNat + w - 1) / w) : 0 < d + (r * w : Nat) := by
  have hlt : (1 - d).toNat + w - 1 < (r + 1) * w := (Nat.div_lt_iff_lt_mul hw).1 (by omega)
  rw [Nat.succ_mul] at hlt
  generalize r * w = k at hlt ⊢
  omega

/-- The functions that `c` picks out get the deficit `d`. -/
def Mach.withDeficits (m : Mach) (c : Nat → Bool) (d : Fn → Int) : Mach :=
  { m with fns := m.fns.map (fun e => if c e.1 then (e.1, { e.2 with deficit := d e.2 }) else e) }
theorem Mach.sameWork_withDeficits (m : Mach) (c : Nat → Bool) (d : Fn → Int) : m.SameWork (m.withDeficits c d) :=
  m.sameWork_mapFns _ (fun e => by split <;> rfl) (fun e => by split <;> exact ⟨rfl, rfl, rfl, rfl⟩)
theorem Mach.tget_withDeficits {m : Mach} {vf : Nat} {x : Fn} (c : Nat → Bool) (d : Fn → Int) (hx : tget m.fns vf = some x) :
    tget (m.withDeficits c d).fns vf = some (if c vf then { x with deficit := d x } else x) := by
  simp only [Mach.withDeficits]
  rw [tget_map _ _ (fun e => by split <;> rfl), hx, Option.map_some]
  split <;> rfl
/-- The deficits of a choice: 0 where no work is pending, then as many rounds as those that can be served need. -/
theorem Mach.fillDeficits_eq (m : Mach) (pending serve : List Nat) :
    m.fillDeficits pending serve =
      let m0 := m.withDeficits (fun k => !(pending.contains k)) (fun _ => 0)
      if m0.roundsFor serve = 0 then m0
      else m0.withDeficits pending.contains (fun f => f.deficit + (m0.roundsFor serve * f.weight : Nat)) := by
  have hmap : m.fns.map (fun e => if pending.contains e.1 then e else (e.1, { e.2 with deficit := 0 })) =
      (m.withDeficits (fun k => !(pending.contains k)) (fun _ => 0)).fns := by
    simp only [Mach.withDeficits]
    congr 1; funext e; cases pending.contains e.1 <;> rfl
  unfold Mach.fillDeficits
  rw [hmap]
  rfl
/-- The one function with pending work gets rounds until its deficit is above 0. -/
theorem Mach.fillDeficits_one {m : Mach} {vf : Nat} {x : Fn} (hx : tget m.fns vf = some x) (hw : 0 < x.weight) :
    m.SameWork (m.fillDeficits [vf] [vf]) ∧ 0 < ((m.fillDeficits [vf] [vf]).fn vf).deficit := by
  have hm := m.sameWork_withDeficits (fun k => !([vf].contains k)) (fun _ => 0)
  have hx0 := Mach.tget_withDeficits (fun k => !([vf].contains k)) (fun _ => 0) hx
  rw [if_neg (by simp)] at hx0
  rw [Mach.fillDeficits_eq]
  generalize m.withDeficits (fun k => !([vf].contains k)) (fun _ => 0) = m0 at *
  have hr : m0.roundsFor [vf] = ((1 - x.deficit).toNat + x.weight - 1) / x.weight := by simp [Mach.roundsFor, Mach.fn_of_tget hx0]
  have hpos := deficit_pos hw hr
  by_cases h0 : m0.roundsFor [vf] = 0
  · simp only [h0, if_true]
    refine ⟨hm, ?_⟩
    simpa [h0, Mach.fn_of_tget hx0] using hpos
  · simp only [h0, if_false]
    refine ⟨hm.trans (m0.sameWork_withDeficits _ _), ?_⟩
    have hx1 := Mach.tget_withDeficits [vf].contains (fun f => f.deficit + (m0.roundsFor [vf] * f.weight : Nat)) hx0
    rw [if_pos (by simp)] at hx1
    rw [Mach.fn_of_tget hx1]
    exact hpos

/-- The rotation comes to every level. -/
theorem levelTurns_reaches (p : Nat) {lv : Nat} (h : lv < 4) : ∃ j ∈ upFrom 0 15, lv = levelTurns.getD ((p + j) % 15) 0 := by
  have hall : ∀ q < 15, ∀ lv < 4, ∃ j ∈ upFrom 0 15, lv = levelTurns.getD ((q + j) % 15) 0 := by decide
  obtain ⟨j, hj, he⟩ := hall (p % 15) (by omega) lv h
  exact ⟨j, hj, by rw [he, Nat.mod_add_mod]⟩
theorem eraseDups_singleton {α : Type} [BEq α] (a : α) : [a].eraseDups = [a] := rfl
/-- The one source with pending work has its turn. -/
theorem Mach.chooseSource_one {m : Mach} {s : Source} {x : Fn} (hx : tget m.fns s.vf = some x) (hw : 0 < x.weight) (hl : s.level < 4) :
    ∃ m', m.chooseSource [s.vf] [s] = some (s, m') ∧ m.SameWork m' ∧ m'.lastFn = s.vf := by
  obtain ⟨hsame, hpos⟩ := Mach.fillDeficits_one hx hw
  generalize hm1 : m.fillDeficits [s.vf] [s.vf] = m1 at *
  obtain ⟨i, hi, hlevel⟩ := levelTurns_reaches (m1.fn s.vf).turn hl
  obtain ⟨j, hj⟩ : ∃ j, (upFrom 0 15).find? (fun j => s.level == levelTurns.getD (((m1.fn s.vf).turn + j) % 15) 0) = some j :=
    Option.isSome_iff_exists.1 (List.find?_isSome.2 ⟨i, hi, by simpa using hlevel⟩)
  have hlv : s.level = levelTurns.getD (((m1.fn s.vf).turn + j) % 15) 0 := by simpa using List.find?_some hj
  have hserved : m1.SameWork { m1 with lastFn := s.vf } := ⟨⟨rfl, rfl, fun _ => rfl⟩, rfl, fun _ => .refl _⟩
  refine ⟨{ m1 with lastFn := s.vf }.modFn s.vf (fun f => { f with turn := ((m1.fn s.vf).turn + j + 1) % 15, lastSrc := tset f.lastSrc s.level s.order }), ?_,
    hsame.trans (hserved.trans (Mach.sameWork_modFn _ _ _ (by exact fun f => ⟨rfl, rfl, rfl, rfl⟩))), rfl⟩
  have hturn : leastBy (fun f => (f + 127 - m1.lastFn % 128) % 128) ([s.vf].filter (fun f => 0 < (m1.fn f).deficit)) = some s.vf := by
    simp [hpos, leastBy]
  have hmine : [s].filter (·.vf == s.vf) = [s] := by simp
  have hline : sortBy Source.order ([s].filter (·.level == s.level)) = [s] := by simp [sortBy, sortBy.insertBy']
  have hnext : [s].find? (fun s' => (tget (m1.fn s.vf).lastSrc s.level).getD 0 < s'.order) = some s ∨
      [s].find? (fun s' => (tget (m1.fn s.vf).lastSrc s.level).getD 0 < s'.order) = none := by
    by_cases h : (tget (m1.fn s.vf).lastSrc s.level).getD 0 < s.order <;> simp [h]
  unfold Mach.chooseSource
  simp only [List.map_cons, List.map_nil, eraseDups_singleton, hm1, hturn, hmine, List.any_cons, List.any_nil, Bool.or_false, hj, ← hlv, hline,
    Option.bind_eq_bind, Option.bind_some]
  rcases hnext with hnext | hnext <;> simp only [hnext, List.head?_cons, Option.bind_some]

end Sys2Proof.Machine
end

section
/-! SUPPORT. Placing a workgroup (R8, R18, R150, R195, R203, R353): the workgroup that stands in its seat, and what the core's passing to its
function leaves of the launches. -/
namespace Sys2Proof.Machine

/-! ## What leaves the launches alone -/

/-- What a launch's dispatch counts on: its number, and how many of its workgroups run. -/
def Launch.progress (l : Launch) : Nat × Nat := (l.id, l.running)
/-- `m'` keeps the dispatcher's place and every function's launches, but for what a slot load may wake in them (R174). -/
structure Mach.KeepsLaunches (m m' : Mach) : Prop where
  lastDie : m'.lastDie = m.lastDie
  lastFn : m'.lastFn = m.lastFn
  launches : ∀ vf, (m'.fn vf).launches.map Launch.progress = (m.fn vf).launches.map Launch.progress

namespace Mach.KeepsLaunches
theorem refl (m : Mach) : m.KeepsLaunches m := ⟨rfl, rfl, fun _ => rfl⟩
theorem trans {m m' m'' : Mach} (h : m.KeepsLaunches m') (h' : m'.KeepsLaunches m'') : m.KeepsLaunches m'' :=
  ⟨h'.lastDie.trans h.lastDie, h'.lastFn.trans h.lastFn, fun vf => (h'.launches vf).trans (h.launches vf)⟩
/-- What changes no function. -/
theorem of_fns {m m' : Mach} (hf : m'.fns = m.fns) (hd : m'.lastDie = m.lastDie) (hl : m'.lastFn = m.lastFn) : m.KeepsLaunches m' :=
  ⟨hd, hl, fun vf => by simp only [Mach.fn, hf]⟩
theorem setFn (m : Mach) (vf : Nat) (x : Fn) (hx : x.launches.map Launch.progress = (m.fn vf).launches.map Launch.progress) :
    m.KeepsLaunches (m.setFn vf x) := by
  refine ⟨rfl, rfl, fun k => ?_⟩
  by_cases hk : k = vf
  · rw [hk, Mach.setFn_fn, hx]
  · rw [Mach.setFn_fn_other m x hk]
theorem modFn (m : Mach) (vf : Nat) (g : Fn → Fn) (hg : ∀ f : Fn, (g f).launches.map Launch.progress = f.launches.map Launch.progress) :
    m.KeepsLaunches (m.modFn vf g) := setFn m vf _ (hg _)
theorem foldl {α : Type} {f : Mach → α → Mach} (h : ∀ (m : Mach) a, m.KeepsLaunches (f m a)) (xs : List α) (m : Mach) :
    m.KeepsLaunches (xs.foldl f m) := by
  induction xs generalizing m with
  | nil => exact refl m
  | cons x xs ih => exact (h m x).trans (ih _)
/-- The launch under a number runs as many workgroups as before. -/
theorem launch? {m m' : Mach} (h : m.KeepsLaunches m') {vf id : Nat} {l : Launch} (hl : m.launch? vf id = some l) :
    ∃ l', m'.launch? vf id = some l' ∧ l'.running = l.running := by
  have hfind (ls : List Launch) : (ls.find? (·.id == id)).map Launch.progress = (ls.map Launch.progress).find? (·.1 == id) := by
    rw [List.find?_map]; rfl
  have hmap : (m'.launch? vf id).map Launch.progress = some l.progress := by
    rw [Mach.launch?, hfind, h.launches, ← hfind, ← Mach.launch?, hl]; rfl
  obtain ⟨l', hl', hp⟩ := Option.map_eq_some_iff.1 hmap
  exact ⟨l', hl', congrArg Prod.snd hp⟩

/-! ## The lines of L1 -/

theorem writeBack (m : Mach) (core line : Nat) : m.KeepsLaunches (m.writeBack core line) := by
  unfold Mach.writeBack
  split
  · exact refl m
  · split
    · dsimp only; split <;> exact of_fns rfl rfl rfl
    · exact refl m
theorem dropLine (m : Mach) (core line : Nat) : m.KeepsLaunches (m.dropLine core line) :=
  (writeBack m core line).trans (of_fns rfl rfl rfl)
theorem acquire (m : Mach) (core scope : Nat) : m.KeepsLaunches (m.acquire core scope) := by
  unfold Mach.acquire Mach.dropAll
  split
  · exact foldl (fun m _ => dropLine m core _) _ m
  · exact refl m
theorem takeOver (m : Mach) (core gran n : Nat) : m.KeepsLaunches (m.takeOver core gran n) := by
  unfold Mach.takeOver
  split
  · exact refl m
  · exact (foldl (fun m _ => dropLine m core _) _ m).trans (of_fns rfl rfl rfl)

/-! ## Completions and loader requests -/

theorem setReg (m : Mach) (vf off v : Nat) : m.KeepsLaunches (m.setReg vf off v) := modFn m vf _ (fun _ => rfl)
theorem postHost (m : Mach) (vf vec : Nat) (payload : List Byte) : m.KeepsLaunches (m.postHost vf vec payload) := by
  unfold Mach.postHost; split <;> exact of_fns rfl rfl rfl
theorem writeCompls (m : Mach) (vf n : Nat) : m.KeepsLaunches (m.writeCompls vf n) := by
  induction n generalizing m with
  | zero => exact refl m
  | succ n ih =>
    unfold Mach.writeCompls
    dsimp only
    split
    · exact refl m
    · split
      · exact refl m
      · refine trans ?_ (ih _)
        have hirq (m : Mach) (irq : Bool) : m.KeepsLaunches (if irq then m.postHost vf 0 [] else m) := by
          cases irq
          · exact refl m
          · exact postHost m vf 0 []
        refine trans ?_ (hirq _ _)
        refine trans ?_ (setReg _ _ _ _)
        refine trans ?_ (setFn _ _ _ (by rfl))
        exact of_fns rfl rfl rfl
theorem finish (m : Mach) (c : Cmd) (op status value : Nat) : m.KeepsLaunches (m.finish c op status value) :=
  (modFn m c.ring _ (by exact fun _ => rfl)).trans (writeCompls _ _ _)
theorem answerLoadReq (m : Mach) (vf : Nat) (q : LoadReq) (status : Nat) : m.KeepsLaunches (m.answerLoadReq vf q status) := by
  unfold Mach.answerLoadReq
  dsimp only
  refine trans ?_ (modFn _ _ _ (by exact fun _ => rfl))
  refine trans ?_ (foldl (fun m e => ?_) _ _)
  · split
    · exact finish _ _ _ _ _
    · exact refl m
  · refine trans (acquire m (e.1 / 64) 5) ?_
    exact of_fns (by simp) (by simp) (by simp)
theorem wakeReturned (m : Mach) (vf : Nat) : m.KeepsLaunches (m.wakeReturned vf) :=
  modFn m vf _ (by intro f; simp only [List.map_map]; rfl)
theorem flipped (m : Mach) (core req : Nat) : m.KeepsLaunches (m.flipped core req) := by
  unfold Mach.flipped
  dsimp only
  split
  · exact of_fns rfl rfl rfl
  · refine trans ?_ (wakeReturned _ _)
    refine trans ?_ (answerLoadReq _ _ _ _)
    exact of_fns rfl rfl rfl
theorem passCore (m : Mach) (core vf : Nat) : m.KeepsLaunches (m.passCore core vf) := by
  unfold Mach.passCore
  dsimp only
  split
  · exact refl m
  · refine trans ?_ (foldl (fun m r => flipped m core r) _ _)
    exact of_fns rfl rfl rfl
theorem prepare (m : Mach) (core vf : Nat) (h : Header) (seat : Seat) : m.KeepsLaunches (m.prepare core vf h seat).2 := by
  unfold Mach.prepare
  dsimp only
  refine trans ?_ (foldl (by exact fun m p => of_fns rfl rfl rfl) _ _)
  refine trans ?_ (takeOver _ _ _ _)
  refine trans ?_ (modFn _ _ _ (by exact fun _ => rfl))
  exact (passCore m core vf).trans (of_fns rfl rfl rfl)

end Mach.KeepsLaunches

end Sys2Proof.Machine
end

section
/-! SUPPORT. The dispatch of one group (R173, R174). -/
namespace Sys2Proof.Machine

/-- `w` is the workgroup of a unit of a launch as it starts (R8, R148, R150). -/
structure Wg.StartsFrom (w : Wg) (vf : Nat) (l : Launch) (u : Unit_) : Prop where
  vf : w.vf = vf
  launch : w.launch = l.id
  hdr : w.hdr = l.hdr
  base : w.base = u.base
  frame : w.frame = u.frame
  threads : w.threads = (upFrom 0 l.hdr.threads).map (startThread l.hdr u)
theorem Wg.StartsFrom.thread {w : Wg} {vf j : Nat} {l : Launch} {u : Unit_} (h : w.StartsFrom vf l u) (hj : j < l.hdr.threads) :
    w.thread j = startThread l.hdr u j := by
  simp [Wg.thread, h.threads, upFrom_eq_range', hj]
theorem Wg.StartsFrom.length {w : Wg} {vf : Nat} {l : Launch} {u : Unit_} (h : w.StartsFrom vf l u) : w.threads.length = l.hdr.threads := by
  simp [h.threads, upFrom_eq_range']
/-- A unit outside rollback mode that has a seat starts there. -/
theorem Mach.placeUnit_seated {m : Mach} {core vf : Nat} {l : Launch} {seat : Seat} (clk : Clock) (u : Unit_) (hs : m.seat? core l.hdr = some seat)
    (hr : l.hdr.rollback = false) :
    ∃ m' w, m.KeepsLaunches m' ∧
      m.placeUnit clk core vf l u = (m'.setWg core seat.slot w).modLaunch vf l.id (fun l => { l with running := l.running + 1 }) ∧
      w.StartsFrom vf l u := by
  have hkeep : m.KeepsLaunches { (m.prepare core vf l.hdr seat).2 with seq := (m.prepare core vf l.hdr seat).2.seq + 1 } :=
    (Mach.KeepsLaunches.prepare m core vf l.hdr seat).trans (.of_fns rfl rfl rfl)
  exact ⟨_, _, hkeep, by simp only [Mach.placeUnit, hs, hr]; rfl, by exact ⟨rfl, rfl, rfl, rfl, rfl, rfl⟩⟩
/-- A group of a launch that has a seat starts there, and the launch counts it. -/
theorem Mach.placeGroup_seated {m : Mach} {core vf g : Nat} {l : Launch} {seat : Seat} (clk : Clock) (hl : m.launch? vf l.id = some l)
    (hs : m.seat? core l.hdr = some seat) (hr : l.hdr.rollback = false) :
    let t := m.placeGroup clk core vf l.id g
    t.lastDie = m.lastDie ∧ t.lastFn = m.lastFn ∧ (∃ w, t.wg? core seat.slot = some w ∧ w.StartsFrom vf l (l.hdr.groupUnit g)) ∧
      ∃ l', t.launch? vf l.id = some l' ∧ l'.nextGroup = g + 1 ∧ l'.running = l.running + 1 := by
  obtain ⟨m', w, hkeep, hplace, hw⟩ := Mach.placeUnit_seated (vf := vf) clk (l.hdr.groupUnit g) hs hr
  obtain ⟨l', hl', hrun⟩ := hkeep.launch? hl
  have hl'' : (m'.setWg core seat.slot w).launch? vf l.id = some l' := hl'
  simp only [Mach.placeGroup, hl, hplace]
  refine ⟨hkeep.lastDie, hkeep.lastFn, ⟨w, Mach.setWg_wg? m' core seat.slot w, hw⟩, _,
    Mach.launch?_modLaunch _ (by exact fun _ => rfl) (Mach.launch?_modLaunch _ (by exact fun _ => rfl) hl''), rfl, ?_⟩
  simp [hrun]

/-- A launch that uses no format slot has no digest to check (R174). -/
theorem Mach.digestsOk_of_no_slots (m : Mach) (vf : Nat) {h : Header} (hs : h.slotmask = 0) : m.digestsOk vf h = true := by
  simp [Mach.digestsOk, hs]
/-- A launch without order, pinning, gang or clusters sends its last group to the best core of the first die with room. -/
theorem Mach.sendGroups_last {m : Mach} {vf d f core : Nat} {l : Launch} (clk : Clock) (hl : m.launch? vf l.id = some l) (hm : l.hdr.slotmask = 0)
    (ho : l.hdr.ordered = false) (hp : l.hdr.pinned = false) (hg : l.gang = none) (hs : l.hdr.cspan = false) (hc : l.count = l.nextGroup + 1)
    (hq : ((m.fn vf).queue l.hdr.prio).length < (m.fn vf).queueCap l.hdr.prio) (hd : m.roomDie vf l.hdr = some (d, f))
    (hb : m.bestCore vf l.hdr (dieCores d) [] = some core) :
    m.sendGroups clk vf l = .units 1 ({ m with lastDie := d }.placeGroup clk core vf l.id l.nextGroup) := by
  have hf : 0 < f := by
    obtain ⟨e, -, he⟩ := List.exists_of_findSome?_eq_some hd
    dsimp only at he
    split at he
    · next hpos => cases he; exact hpos
    · cases he
  have hn : min (min 64 f) (l.count - l.nextGroup) = 1 := by omega
  have hl' : ({ m with lastDie := d } : Mach).launch? vf l.id = some l := hl
  have hb' : ({ m with lastDie := d } : Mach).bestCore vf l.hdr (dieCores d) [] = some core := hb
  simp only [Mach.sendGroups, m.digestsOk_of_no_slots vf hm, Nat.not_le.2 hq, ho, hp, hg, hs, hd, hn, Mach.dieGroups, hl', hb']
  rfl

end Sys2Proof.Machine
end

section
/-! SUPPORT. The events of the dispatcher and of gangs (R173, R174, R426). -/
namespace Sys2Proof.Machine

/-! ## GLOBAL_DISPATCH -/

theorem Mach.globalBatch_idle {m : Mach} (clk : Clock) (h : m.sources = []) : m.globalBatch clk = none := by
  simp [Mach.globalBatch, h, Mach.nextBatch, Mach.chooseSource, leastBy]
/-- A source has one of the four levels. -/
theorem Mach.level_of_sources {m : Mach} {s : Source} (h : s ∈ m.sources) : s.level < 4 := by
  simp only [Mach.sources, List.mem_flatten, List.mem_map] at h
  obtain ⟨xs, ⟨ys, ⟨e, -, rfl⟩, hxs⟩, hs⟩ := h
  obtain ⟨lv, hlv, rfl⟩ := List.mem_map.1 hxs
  have hlv : lv < 4 := by simpa using (mem_upFrom.1 hlv).2
  rcases List.mem_append.1 hs with hs | hs
  · obtain ⟨l, -, rfl⟩ := List.mem_map.1 hs
    exact hlv
  · split at hs
    · rw [List.mem_singleton.1 hs]; exact hlv
    · cases hs
/-- The one source with pending work sends a batch, which is charged whole. -/
theorem Mach.globalBatch_one {m m' m'' : Mach} {s : Source} {n : Nat} (clk : Clock) (h : m.sources = [s]) (hc : m.chooseSource [s.vf] [s] = some (s, m'))
    (hs : m'.sendFrom clk s = .units (n + 1) m'') : m.globalBatch clk = some (m''.charge s (n + 1)) := by
  simp only [Mach.globalBatch, h, List.map_cons, List.map_nil, eraseDups_singleton, Mach.nextBatch, hc, hs]
  rfl
theorem exec_globalDispatch (s : State) : exec .globalDispatch s = s.event (fun clk m => m.globalBatch clk) := rfl
theorem exec_globalDispatch_next {s : State} {m : Mach} (h : s.m.globalBatch s.clk = some m) :
    exec .globalDispatch s = .next (Claims.withM s m) := (exec_globalDispatch s).trans (s.event_next _ h)
theorem exec_globalDispatch_fault {s : State} (h : s.m.globalBatch s.clk = none) : exec .globalDispatch s = .fault .notEnabled :=
  (exec_globalDispatch s).trans (s.event_fault _ h)
@[simp] theorem Mach.charge_launch? (m : Mach) (s : Source) (n id : Nat) : (m.charge s n).launch? s.vf id = m.launch? s.vf id := by
  simp [Mach.launch?, Mach.charge]

/-- One group goes to the best core of the first die with room (R173, R174): the turn, the batch, and the seat it takes. -/
theorem exec_globalDispatch_last {vf d f core lv : Nat} {s : State} {l : Launch} (hsrc : s.m.sources = [{ vf, level := lv, launch := some l.id }])
    (hl : s.m.launch? vf l.id = some l) (hw : 0 < (s.m.fn vf).weight) (hm : l.hdr.slotmask = 0) (ho : l.hdr.ordered = false)
    (hp : l.hdr.pinned = false) (hg : l.gang = none) (hs : l.hdr.cspan = false) (hr : l.hdr.rollback = false) (hc : l.count = l.nextGroup + 1)
    (hq : ((s.m.fn vf).queue l.hdr.prio).length < (s.m.fn vf).queueCap l.hdr.prio) (hd : s.m.roomDie vf l.hdr = some (d, f))
    (hb : s.m.bestCore vf l.hdr (dieCores d) [] = some core) :
    ∃ u seat w l', exec .globalDispatch s = .next u ∧ s.m.seat? core l.hdr = some seat ∧ u.m.wg? core seat.slot = some w ∧
      u.m.lastDie = d ∧ u.m.lastFn = vf ∧ w.StartsFrom vf l (l.hdr.groupUnit l.nextGroup) ∧
      u.m.launch? vf l.id = some l' ∧ l'.nextGroup = l.nextGroup + 1 ∧ l'.running = l.running + 1 := by
  obtain ⟨x, hx⟩ := Mach.tget_fns_of_launch hl
  rw [Mach.fn_of_tget hx] at hw
  obtain ⟨m', hchoose, hsame, hfn⟩ := Mach.chooseSource_one (s := { vf, level := lv, launch := some l.id }) hx hw
    (Mach.level_of_sources (by rw [hsrc]; exact List.mem_singleton_self _))
  obtain ⟨hlaunches, hqueues, hqk, -⟩ := hsame.work vf
  have hl' : m'.launch? vf l.id = some l := by rw [Mach.launch?, hlaunches]; exact hl
  have hq' : ((m'.fn vf).queue l.hdr.prio).length < (m'.fn vf).queueCap l.hdr.prio := by
    rw [Fn.queue, Fn.queueCap, hqueues, hqk]; exact hq
  rw [← hsame.room.roomDie hsame.lastDie] at hd
  rw [← hsame.room.bestCore] at hb
  have hsend := Mach.sendGroups_last s.clk hl' hm ho hp hg hs hc hq' hd hb
  obtain ⟨seat, hseat⟩ := Mach.seat?_isSome (Mach.canHold_bestCore hb)
  obtain ⟨hdie, hlast, ⟨w, hwg, hstart⟩, l', hplaced, hnext, hrun⟩ := Mach.placeGroup_seated (m := { m' with lastDie := d }) (g := l.nextGroup)
    s.clk hl' hseat hr
  have hbatch := Mach.globalBatch_one s.clk hsrc hchoose (by simp only [Mach.sendFrom, hl']; exact hsend)
  refine ⟨_, seat, w, l', exec_globalDispatch_next hbatch, ?_, hwg, hdie, hlast.trans hfn, hstart, ?_, hnext, hrun⟩
  · rw [← hsame.room.seat?]; exact hseat
  · exact (Mach.charge_launch? _ { vf, level := lv, launch := some l.id } 1 l.id).trans hplaced

/-! ## DIGEST_MISMATCH_RETRY -/

theorem Mach.mismatch_again (m : Mach) (clk : Clock) (vf : Nat) {l : Launch} (h : l.mism = some true) :
    m.mismatch clk vf l = (m.logErr clk vf 4 9 0 65535 0 l.hdr.addr).killLaunch vf l.id := by
  simp [Mach.mismatch, h]
/-- A returned unit whose digests still do not match: the launch is killed (R174). -/
theorem execDigestMismatchRetry_mismatch {vf : Nat} {s : State} {l : Launch}
    (hl : (s.m.fn vf).launches.find? (fun l => l.mism == some true && !l.killed) = some l) (hd : s.m.digestsOk vf l.hdr = false) :
    execDigestMismatchRetry vf s = .next (Claims.withM s ((s.m.logErr s.clk vf 4 9 0 65535 0 l.hdr.addr).killLaunch vf l.id)) := by
  obtain ⟨hm, -⟩ : l.mism = some true ∧ l.killed = false := by simpa using List.find?_some hl
  rw [← s.m.mismatch_again s.clk vf hm]
  exact s.event_next _ (by simp only [hl, hd, Option.bind_eq_bind, Option.bind_some, Bool.not_false, if_true])
/-- A function whose record queue of a level is empty has no record to send from it. -/
theorem Mach.sendRecords_empty {m : Mach} {vf level : Nat} (clk : Clock) (h : (m.fn vf).queue level = []) : m.sendRecords clk vf level = .noRoom := by
  simp [Mach.sendRecords, Mach.headLaunch, h]
/-- A launch with neither a group nor a record left to send: its returned unit is only forgotten. -/
theorem execDigestMismatchRetry_idle {vf : Nat} {s : State} {l : Launch}
    (hf : (s.m.fn vf).launches.find? (fun l => l.mism == some true && !l.killed) = some l) (hs : l.hdr.slotmask = 0)
    (hl : s.m.launch? vf l.id = some l) (hc : l.count ≤ l.nextGroup) (hq : (s.m.fn vf).queue l.hdr.prio = []) :
    execDigestMismatchRetry vf s = .next (Claims.withM s (s.m.modLaunch vf l.id (fun l => { l with mism := none }))) := by
  have hl' := Mach.launch?_modLaunch (fun l => { l with mism := none }) (fun _ => rfl) hl
  have hq' : ((s.m.modLaunch vf l.id (fun l => { l with mism := none })).fn vf).queue l.hdr.prio = [] := by
    simpa [Mach.modLaunch, Fn.queue] using hq
  have hp : ({ l with mism := none } : Launch).pending = false := by simp [Launch.pending, hc]
  refine s.event_next _ ?_
  simp only [hf, s.m.digestsOk_of_no_slots vf hs, Option.bind_eq_bind, Option.bind_some, hl', Mach.sendFrom, hp,
    Mach.sendRecords_empty _ hq', Bool.not_true, Bool.false_eq_true, if_false]

/-! ## Gangs (R426) -/

theorem Gang.matched_iff (g : Gang) (dev : Nat) : g.matched dev = true ↔ ∀ d ∈ g.members, d ≠ dev → (d, g.digest) ∈ g.got := by
  simp [Gang.matched, Decidable.or_iff_not_imp_left]
/-- A member's first digest is recorded. -/
theorem execGangDigest_eq (vf lid dev digest : Nat) (s : State) :
    execGangDigest vf lid dev digest s = .next (Claims.withM s (s.m.modLaunch vf lid (fun l => { l with gang := l.gang.map (fun g =>
      if dev ∈ g.members ∧ ∀ e ∈ g.got, e.1 ≠ dev then { g with got := g.got ++ [(dev, digest)] } else g) }))) := by
  have hnew (g : Gang) : (g.members.contains dev && !g.got.any (fun e => e.1 == dev)) = true ↔ dev ∈ g.members ∧ ∀ e ∈ g.got, e.1 ≠ dev := by simp
  simp only [execGangDigest, State.always, hnew]
  rfl

/-- A member is ready when its workgroups are placed and every other member's digest has come and matches. -/
def Gang.Ready (g : Gang) (dev : Nat) : Prop := g.placed = true ∧ ∀ d ∈ g.members, d ≠ dev → (d, g.digest) ∈ g.got
theorem Gang.notReady_iff (g : Gang) (dev : Nat) : (!g.placed || !g.matched dev) = true ↔ ¬g.Ready dev := by
  rw [Gang.Ready, ← Gang.matched_iff]
  cases g.placed <;> cases g.matched dev <;> decide
/-- A launch of a gang starts. -/
def Mach.startGang (m : Mach) (vf lid : Nat) (g : Gang) : Mach :=
  { (m.modLaunch vf lid (fun l => { l with gang := some { g with started := true } })) with
    wgs := m.wgs.map (fun e => if e.2.vf = vf ∧ e.2.launch = lid then (e.1, { e.2 with waitingGang := false, notBefore := max e.2.notBefore g.tick }) else e) }

section
variable {vf : Nat} {s : State} {l : Launch} {g : Gang} (hl : s.m.launch? vf l.id = some l) (hg : l.gang = some g) (hs : g.started = false)
include hl hg hs
/-- In time and ready: the workgroups may issue from the tick on. -/
theorem execGangStart_ready (hr : g.Ready s.m.devnum) (ht : s.clk.time + 5000 ≤ g.tick) :
    execGangStart vf l.id s = .next (Claims.withM s (s.m.startGang vf l.id g)) := by
  have hwait : ¬(g.started || !g.placed || !g.matched s.m.devnum || g.tick < s.clk.time + 5000) = true := by
    rw [hs, Bool.false_or, Bool.or_eq_true, Gang.notReady_iff, decide_eq_true_eq]
    exact fun h => h.elim (fun hn => hn hr) (Nat.not_lt.2 ht)
  refine s.event_next _ ?_
  simp only [hl, hg, Option.bind_eq_bind, Option.bind_some]
  exact if_neg hwait
/-- Not ready, or too late: the gang does not start. -/
theorem execGangStart_fault (h : ¬g.Ready s.m.devnum ∨ g.tick < s.clk.time + 5000) : execGangStart vf l.id s = .fault .notEnabled := by
  have hwait : (g.started || !g.placed || !g.matched s.m.devnum || g.tick < s.clk.time + 5000) = true := by
    rwa [hs, Bool.false_or, Bool.or_eq_true, Gang.notReady_iff, decide_eq_true_eq]
  refine s.event_fault _ ?_
  simp only [hl, hg, Option.bind_eq_bind, Option.bind_some]
  exact if_pos hwait
/-- Too late and with nothing placed: the launch is refused under check 10. -/
theorem execGangDeadline_late (hk : l.killed = false) (ht : g.tick < s.clk.time + 5000) (hw : ∀ e ∈ s.m.wgs, e.2.launch ≠ l.id) :
    execGangDeadline vf l.id s = .next (Claims.withM s ((s.m.dropLaunch vf l.id).logErr s.clk vf 4 10 0 65535 0 l.hdr.addr)) := by
  have hnone : s.m.wgs.filter (fun e => e.2.vf == vf && e.2.launch == l.id) = [] :=
    List.filter_eq_nil_iff.2 fun e he => by simp [hw e he]
  refine s.event_next _ ?_
  simp only [hl, hg, hs, hk, Option.bind_eq_bind, Option.bind_some, Bool.false_or, Nat.not_le.2 ht, decide_false, Bool.false_eq_true, if_false, hnone,
    List.foldl_nil]
  rfl
omit hs in
theorem execGangDeadline_early (ht : s.clk.time + 5000 ≤ g.tick) : execGangDeadline vf l.id s = .fault .notEnabled := by
  refine s.event_fault _ ?_
  simp only [hl, hg, Option.bind_eq_bind, Option.bind_some, ht, decide_true, Bool.or_true, if_true]
end

end Sys2Proof.Machine
end

section
open Sys2Proof Sys2Proof.Machine Sys2Proof.Claims

/-- Settles O45: each event of the dispatcher and of a gang by its own lemma. -/
theorem dispatch : Obligations.Dispatch := by
  intro vf s
  refine ⟨fun h => exec_globalDispatch_fault (Mach.globalBatch_idle s.clk h), ?_, ?_, fun lid dev digest => execGangDigest_eq vf lid dev digest s, ?_⟩
  · intro l d f core lv hsrc hl hw hm ho hp hg hs hr hc hq hd hb
    obtain ⟨u, seat, w, l', hu, hseat, hwg, hdie, hlast, hstart, hl', hnext, hrun⟩ := exec_globalDispatch_last hsrc hl hw hm ho hp hg hs hr hc hq hd hb
    refine ⟨u, seat, w, hu, hseat, hwg, hdie, hlast, hstart.vf, hstart.launch, hstart.hdr, hstart.base, hstart.frame, hstart.length, fun j hj => ?_,
      l', hl', hnext.trans hc.symm, hrun⟩
    rw [hstart.thread hj, hstart.base]
    exact ⟨rfl, rfl, rfl, rfl, rfl, rfl, rfl, rfl, rfl⟩
  · exact fun l hf => ⟨fun hd => execDigestMismatchRetry_mismatch hf hd, fun hs hl hc hq => execDigestMismatchRetry_idle hf hs hl hc hq⟩
  · exact fun l g hl hg hs => ⟨fun hr ht => execGangStart_ready hl hg hs hr ht, fun h => execGangStart_fault hl hg hs h,
      fun hk ht hw => execGangDeadline_late hl hg hs hk ht hw, fun ht => execGangDeadline_early hl hg ht⟩
end

section
/-! SUPPORT. Register operations lane by lane (R57, R58, R82): the exact integer result modulo 2^n as a bit vector, and the lane equation of
each shared form of operation. -/
namespace Sys2Proof.Claims
open Sys2Proof.Machine

/-! ## An exact integer and its bit vector (R57, R58) -/

/-- A pattern is the reduction of the integer it holds, signed or not. -/
@[simp] theorem ofInt_intOf (t : Ty) (x : BitVec t.bits) : BitVec.ofInt t.bits (intOf t x) = x := by
  unfold intOf
  split
  · exact BitVec.ofInt_toInt
  · rw [BitVec.ofInt_natCast, BitVec.ofNat_toNat, BitVec.setWidth_eq]
theorem ofInt_add_intOf (t : Ty) (x y : BitVec t.bits) : BitVec.ofInt t.bits (intOf t x + intOf t y) = x + y := by
  rw [BitVec.ofInt_add, ofInt_intOf, ofInt_intOf]
theorem ofInt_sub_intOf (t : Ty) (x y : BitVec t.bits) : BitVec.ofInt t.bits (intOf t x - intOf t y) = x - y := by
  rw [Int.sub_eq_add_neg, BitVec.ofInt_add, BitVec.ofInt_neg, ofInt_intOf, ofInt_intOf, BitVec.sub_eq_add_neg]
theorem ofInt_mul_intOf (t : Ty) (x y : BitVec t.bits) : BitVec.ofInt t.bits (intOf t x * intOf t y) = x * y := by
  rw [BitVec.ofInt_mul, ofInt_intOf, ofInt_intOf]
theorem ofInt_min_intOf (t : Ty) (x y : BitVec t.bits) :
    BitVec.ofInt t.bits (min (intOf t x) (intOf t y)) = if intOf t y < intOf t x then y else x := by
  split
  · next h => rw [Int.min_eq_right (Int.le_of_lt h), ofInt_intOf]
  · next h => rw [Int.min_eq_left (Int.not_lt.1 h), ofInt_intOf]
theorem ofInt_max_intOf (t : Ty) (x y : BitVec t.bits) :
    BitVec.ofInt t.bits (max (intOf t x) (intOf t y)) = if intOf t x < intOf t y then y else x := by
  split
  · next h => rw [Int.max_eq_right (Int.le_of_lt h), ofInt_intOf]
  · next h => rw [Int.max_eq_left (Int.not_lt.1 h), ofInt_intOf]
theorem ofInt_natAbs_intOf (t : Ty) (x : BitVec t.bits) : BitVec.ofInt t.bits (intOf t x).natAbs = if intOf t x < 0 then -x else x := by
  split
  · next h => rw [Int.ofNat_natAbs_of_nonpos (Int.le_of_lt h), BitVec.ofInt_neg, ofInt_intOf]
  · next h => rw [Int.natAbs_of_nonneg (Int.not_lt.1 h), ofInt_intOf]
/-- The value a type reads in a register, and in operand b. -/
theorem value_pat (t : Ty) (th : Thread) (r : Nat) : t.value (th.pat t r) = intOf t (opnd t th r) := by rw [pat_eq, value_toNat]
theorem value_srcPat (t : Ty) (th : Thread) (b : Src) : t.value (th.srcPat t b) = intOf t (opndB t th b) := by rw [srcPat_eq, value_toNat]
/-- A 32-bit operand b read as a signed number, as `fscale` takes it (R120). -/
theorem sext_srcPat (th : Thread) (b : Src) : sext 32 (th.srcPat .i32 b) = (opndB .i32 th b).toInt := value_srcPat .i32 th b
theorem ofNat_wrap (n : Nat) (x : Int) : BitVec.ofNat n (wrap n x) = BitVec.ofInt n x := by
  rw [wrap_eq, BitVec.ofNat_toNat, BitVec.setWidth_eq]

/-! ## What a lane's update does -/

theorem apply_wrap (t : Ty) (d : Nat) (x : Int) (th : Thread) :
    ({ v := vWrite t d (wrap t.bits x) } : LaneUpd).apply th = result t d (BitVec.ofInt t.bits x) th := by rw [apply_v, ofNat_wrap]
theorem apply_wrap_istat (t : Ty) (d : Nat) (x : Int) (fl : BitVec 2) (th : Thread) :
    ({ v := vWrite t d (wrap t.bits x), i := fl } : LaneUpd).apply th =
      { result t d (BitVec.ofInt t.bits x) th with istat := th.istat ||| fl } := by rw [apply_vi, ofNat_wrap, result_istat]
theorem apply_setV (d : Nat) (x : V32) (th : Thread) : ({ v := [(d, x)] } : LaneUpd).apply th = th.setV d x := by
  simp [LaneUpd.apply, Thread.setV]
theorem apply_setP (d : Nat) (x : Bool) (th : Thread) : ({ p := [(d, x)] } : LaneUpd).apply th = th.setP d x := by
  simp [LaneUpd.apply, Thread.setP]
theorem apply_setP_fstat (d : Nat) (x : Bool) (fl : BitVec 5) (th : Thread) :
    ({ p := [(d, x)], f := fl } : LaneUpd).apply th = { th.setP d x with fstat := th.fstat ||| fl } := by simp [LaneUpd.apply]
/-- A result with flags, and a draw where one is made (R67). -/
theorem apply_vf_rnd (t : Ty) (d n : Nat) (fl : BitVec 5) (p : Prop) [Decidable p] (r : K64) (th : Thread) :
    ({ v := vWrite t d n, f := fl, rnd := if p then some r else none } : LaneUpd).apply th =
      { result t d (BitVec.ofNat t.bits n) th with fstat := th.fstat ||| fl, rnd := if p then r else th.rnd } := by
  by_cases h : p <;> simp [LaneUpd.apply, foldl_vWrite, result_fstat, result_rnd, h]
/-- Rounding on a lane is `rounded`: one draw under `rst`, the flags of the operands and of the rounding (R67, R104). -/
theorem apply_roundLane (t : Ty) (d : Nat) (rm : Rm) (r : FRes) (th : Thread) :
    ({ v := [(d, BitVec.ofNat 32 (roundLane th t rm r).1)], f := (roundLane th t rm r).2.1, rnd := (roundLane th t rm r).2.2 } : LaneUpd).apply th =
      rounded t d rm r th := by
  by_cases h : rm = .rst <;> simp [LaneUpd.apply, roundLane, rounded, h]

/-! ## The lane equation of each form of operation (R82) -/

section
variable {i : Instr} {t : Ty} {d a : Nat} {b : Src}

/-- An operation on each lane's own registers. -/
theorem lanewise_perLane {src dst : List Nat} {u : Thread → LaneUpd} {f : Thread → Thread} (he : ∀ s, exec i s = s.reg (perLane src dst u))
    (hu : ∀ th, (u th).apply th = f th) : Lanewise i src dst (fun _ => f) :=
  lanewise i (perLane src dst u) src dst _ he rfl rfl fun _ _ th => hu th
/-- An integer operation on two operands gives what its exact result is modulo 2^n (R58, R83). -/
theorem lanewise_intOp {f : Int → Int → Int} {g : BitVec t.bits → BitVec t.bits → BitVec t.bits} (he : ∀ s, exec i s = s.reg (intOp t d a b f))
    (hg : ∀ x y, BitVec.ofInt t.bits (f (intOf t x) (intOf t y)) = g x y) : Lanewise i (ab t a b) (t.named d) (res2 t d a b g) :=
  lanewise_perLane he fun th => by rw [apply_wrap, value_pat, value_srcPat, hg]
/-- A division or a remainder writes its result and adds its flags to `sr.istat` (R59, R60). -/
theorem lanewise_divRemOp {f : Int → Int → Int} (he : ∀ s, exec i s = s.reg (divRemOp t d a b f)) :
    Lanewise i (ab t a b) (t.named d) (fun _ th =>
      { result t d (BitVec.ofInt t.bits (f (intOf t (opnd t th a)) (intOf t (opndB t th b)))) th with
        istat := th.istat ||| divFlags (Ty.least t) (intOf t (opnd t th a)) (intOf t (opndB t th b)) }) :=
  lanewise_perLane he fun th => by rw [apply_wrap_istat, value_pat, value_srcPat]
/-- A rounded operation rounds its exact result once (R104). -/
theorem lanewise_fRound {src : List Nat} {rm : Rm} {f g : Thread → FRes} (he : ∀ s, exec i s = s.reg (fRound t d src rm f))
    (hg : ∀ th, f th = g th) : Lanewise i src [d] (fun _ th => rounded t d rm (g th) th) :=
  lanewise_perLane he fun th => by rw [← hg]; exact apply_roundLane t d rm (f th) th
end

/-- DV is the overflow of a signed type: its least value by −1 (R59). -/
theorem divFlags_least (t : Ty) (x y : Int) :
    divFlags (Ty.least t) x y = if y = 0 then 1 else if t.signed = true ∧ x = -(2 ^ (t.bits - 1) : Nat) ∧ y = -1 then 2 else 0 := by
  have hleast : Ty.least t = some x ↔ t.signed = true ∧ x = -(2 ^ (t.bits - 1) : Nat) := by
    unfold Ty.least
    by_cases h : t.signed = true
    · simp only [h, if_true, Option.some.injEq, true_and, eq_comm]
    · simp [h]
  simp only [divFlags, hleast, and_assoc]
  rfl

end Sys2Proof.Claims
end

section
open Sys2Proof Sys2Proof.Machine Sys2Proof.Claims

/-- Settles O1: an operation's exact result modulo 2^n is the bit vectors' own operation. -/
theorem vectorIntegerArithmetic : Obligations.VectorIntegerArithmetic := by
  intro t d a b
  refine ⟨lanewise_intOp (fun _ => rfl) (ofInt_add_intOf t), lanewise_intOp (fun _ => rfl) (ofInt_sub_intOf t),
    lanewise_intOp (fun _ => rfl) (ofInt_mul_intOf t), lanewise_intOp (fun _ => rfl) (fun _ _ => rfl),
    lanewise_intOp (fun _ => rfl) (ofInt_min_intOf t), lanewise_intOp (fun _ => rfl) (ofInt_max_intOf t), ?_, fun e f => ?_⟩
  · exact lanewise_perLane (fun _ => rfl) fun th => by rw [apply_wrap, value_pat, ofInt_natAbs_intOf]
  · exact lanewise_perLane (fun _ => rfl) fun th => by
      rw [apply_wrap, value_pat, value_pat, value_pat, BitVec.ofInt_add, ofInt_mul_intOf, ofInt_intOf]
end

section
open Sys2Proof Sys2Proof.Machine Sys2Proof.Claims

/-- Settles O5: the quotient and the remainder as the model computes them, with the flags of `divFlags_least`. -/
theorem divisionAndRemainder : Obligations.DivisionAndRemainder := by
  intro t d a b
  simp only [← divFlags_least]
  exact ⟨lanewise_divRemOp (f := divInt) fun _ => rfl, lanewise_divRemOp (f := remInt) fun _ => rfl⟩
end

section
open Sys2Proof Sys2Proof.Machine Sys2Proof.Claims

/-- Settles O7: each instruction by the update its lane makes; `fscale` and its stored form round by `lanewise_fRound`. That a stored scale
byte of 0xFF sets no flag, beside a signalling NaN operand either, is the model's reading of R120 (log 92). -/
theorem floatCompareConvertScale : Obligations.FloatCompareConvertScale := by
  intro t d a rm
  refine ⟨fun b k x => ?_, ?_, fun mask => ?_, fun src => ?_, fun b => ?_, fun vs sel j inv => ?_⟩
  · refine lanewise_perLane (fun _ => rfl) fun th => ?_
    rw [apply_setP_fstat, fval_eq, fsrc_eq]
    cases x <;> rfl
  · exact lanewise_perLane (fun _ => rfl) fun th => by rw [apply_setV, pat_eq]
  · exact lanewise_perLane (fun _ => rfl) fun th => by rw [apply_setP, pat_eq]
  · exact lanewise_perLane (fun _ => rfl) fun th => by rw [apply_vf_rnd, pat_eq]
  · exact lanewise_fRound (fun _ => rfl) fun th => by rw [fval_eq, sext_srcPat]
  · exact lanewise_fRound (fun _ => rfl) fun th => by rw [fval_eq]
end

section
/-! SUPPORT. The model's bit operations on naturals against bit vectors, for every width (R83 to R86). -/
namespace Sys2Proof.Claims
open Sys2Proof.Machine

variable {w : Nat}

theorem ofNat_toNat_self (x : BitVec w) : BitVec.ofNat w x.toNat = x := by rw [BitVec.ofNat_toNat, BitVec.setWidth_eq]
theorem ofNat_mod_two_pow (n : Nat) : BitVec.ofNat w (n % 2 ^ w) = BitVec.ofNat w n := BitVec.eq_of_toNat_eq (by simp)
theorem sext_eq_toInt (n x : Nat) : sext n x = (BitVec.ofNat n x).toInt := by
  rcases Nat.eq_zero_or_pos n with rfl | hn
  · simp [sext, Nat.mod_one, BitVec.of_length_zero]
  · exact sext_eq n x hn

/-! ## Bit operations (R83) -/

theorem ofNat_and_toNat (x y : BitVec w) : BitVec.ofNat w (x.toNat &&& y.toNat) = x &&& y := by
  rw [BitVec.ofNat_and, ofNat_toNat_self, ofNat_toNat_self]
theorem ofNat_or_toNat (x y : BitVec w) : BitVec.ofNat w (x.toNat ||| y.toNat) = x ||| y := by
  rw [BitVec.ofNat_or, ofNat_toNat_self, ofNat_toNat_self]
theorem ofNat_xor_toNat (x y : BitVec w) : BitVec.ofNat w (x.toNat ^^^ y.toNat) = x ^^^ y := by
  rw [BitVec.ofNat_xor, ofNat_toNat_self, ofNat_toNat_self]
theorem ofNat_andn_toNat (x y : BitVec w) : BitVec.ofNat w (x.toNat &&& (2 ^ w - 1 - y.toNat)) = x &&& ~~~y := by
  rw [← BitVec.toNat_not, ofNat_and_toNat]

/-! ## Shifts and rotates (R84) -/

theorem ofNat_shlN (x : BitVec w) (s : Nat) : BitVec.ofNat w (shlN w x.toNat s) = x <<< s := by
  unfold shlN
  split
  · rw [← Nat.shiftLeft_eq, ← BitVec.toNat_shiftLeft, ofNat_toNat_self]
  · next h => exact (BitVec.shiftLeft_eq_zero (Nat.not_lt.1 h)).symm
theorem ofNat_shrN (x : BitVec w) (s : Nat) : BitVec.ofNat w (shrN w x.toNat s) = x >>> s := by
  unfold shrN
  split
  · rw [← Nat.shiftRight_eq_div_pow, ← BitVec.toNat_ushiftRight, ofNat_toNat_self]
  · next h => exact (BitVec.ushiftRight_eq_zero (Nat.not_lt.1 h)).symm
/-- An arithmetic shift by the width or more leaves copies of the sign. -/
theorem sshiftRight_min (x : BitVec w) (s : Nat) : x.sshiftRight (min s w) = x.sshiftRight s := by
  rcases Nat.le_total s w with h | h
  · rw [Nat.min_eq_left h]
  · rw [Nat.min_eq_right h]
    ext i hi
    rw [BitVec.getElem_sshiftRight, BitVec.getElem_sshiftRight, dif_neg (by omega), dif_neg (by omega)]
theorem ofNat_sarN (x : BitVec w) (s : Nat) : BitVec.ofNat w (sarN w x.toNat s) = x.sshiftRight s := by
  rw [sarN, ofNat_wrap, sext_eq_toInt, ofNat_toNat_self, ← Int.shiftRight_eq_div_pow, ← BitVec.sshiftRight_eq, sshiftRight_min]
/-- The bits that a rotate moves left and those that wrap round do not meet, so that their sum is their union. -/
theorem ofNat_rotlN (hw : 0 < w) (x : BitVec w) (s : Nat) : BitVec.ofNat w (rotlN w x.toNat s) = x.rotateLeft s := by
  have hr : s % w < w := Nat.mod_lt s hw
  have hsplit : 2 ^ w = 2 ^ (w - s % w) * 2 ^ (s % w) := by rw [← Nat.pow_add, Nat.sub_add_cancel (Nat.le_of_lt hr)]
  have hwrap : x.toNat / 2 ^ (w - s % w) < 2 ^ (s % w) := Nat.div_lt_of_lt_mul (hsplit ▸ x.isLt)
  rw [← ofNat_toNat_self (x.rotateLeft s), BitVec.toNat_rotateLeft, Nat.shiftLeft_eq, Nat.shiftRight_eq_div_pow]
  congr 1
  simp only [rotlN]
  rw [hsplit, Nat.mul_mod_mul_right, ← Nat.shiftLeft_eq, Nat.shiftLeft_add_eq_or_of_lt hwrap]

/-! ## Counts and reversal (R84, R85) -/

theorem clzN_toNat (x : BitVec w) : clzN w x.toNat = x.clz.toNat := by
  unfold clzN
  split
  · next h =>
    rw [BitVec.clz_eq_iff_eq_zero.2 (BitVec.eq_of_toNat_eq h)]
    exact (Nat.mod_eq_of_lt Nat.lt_two_pow_self).symm
  · next h =>
    have hx : x ≠ 0#w := fun e => h (by rw [e]; rfl)
    have hw : 0 < w := Nat.pos_of_ne_zero fun e => h (by subst e; simp [BitVec.of_length_zero])
    have hlt : x.clz.toNat < w := by
      have := BitVec.clz_lt_iff_ne_zero.2 hx
      rwa [BitVec.lt_def, BitVec.natCast_eq_ofNat, BitVec.toNat_ofNat, Nat.mod_eq_of_lt Nat.lt_two_pow_self] at this
    have hlog : Nat.log2 x.toNat = w - 1 - x.clz.toNat := (Nat.log2_eq_iff h).2
      ⟨BitVec.two_pow_sub_clz_le_toNat_of_ne_zero hw hx, by
        rw [show w - 1 - x.clz.toNat + 1 = w - x.clz.toNat by omega]; exact BitVec.toNat_lt_two_pow_sub_clz⟩
    omega
theorem popcN_toNat (x : BitVec w) : popcN w x.toNat = x.cpop.toNat := by
  induction x using BitVec.concat_induction with
  | nil => rfl
  | concat x b ih =>
    have hb := b.toNat_lt
    rw [popcN, BitVec.toNat_concat, BitVec.toNat_cpop_concat, ← ih]
    congr 2 <;> omega
theorem reverse_concat (x : BitVec w) (b : Bool) : (x.concat b).reverse = BitVec.cons b x.reverse := by
  ext i hi
  rw [BitVec.getElem_reverse, BitVec.getMsbD_concat, BitVec.getElem_cons]
  by_cases h : i = w
  · simp [h]
  · rw [if_pos (by omega), dif_neg h, BitVec.getElem_reverse]
theorem brevN_toNat (x : BitVec w) : brevN w x.toNat = x.reverse.toNat := by
  induction x using BitVec.concat_induction with
  | nil => rfl
  | @concat w x b ih =>
    have hb := b.toNat_lt
    have hbit : (x.toNat * 2 + b.toNat) % 2 = b.toNat := by omega
    have hrest : (x.toNat * 2 + b.toNat) / 2 = x.toNat := by omega
    rw [brevN, BitVec.toNat_concat, hbit, hrest, ih, reverse_concat, BitVec.toNat_cons', Nat.shiftLeft_eq]

/-! ## Fields (R85, R86) -/

theorem ofNat_bfxN (signed : Bool) (x : BitVec w) (pos len : Nat) :
    BitVec.ofNat w (bfxN signed w x.toNat pos len) =
      if pos < w then (if signed then ((x >>> pos).setWidth len).signExtend w else ((x >>> pos).setWidth len).setWidth w) else 0 := by
  have hf : x.toNat / 2 ^ pos % 2 ^ len = ((x >>> pos).setWidth len).toNat := by
    rw [BitVec.toNat_setWidth, BitVec.toNat_ushiftRight, Nat.shiftRight_eq_div_pow]
  unfold bfxN
  by_cases hp : pos < w
  · cases signed
    · simp only [hp, hf, decide_true, Bool.false_and, Bool.false_eq_true, if_true, if_false]
      rw [ofNat_mod_two_pow, BitVec.ofNat_toNat]
    · simp only [hp, hf, if_true, decide_true, Bool.and_self]
      rw [ofNat_wrap, sext_eq_toInt, ofNat_toNat_self]
      rfl
  · simp [hp]
/-- The mask of `bfi` holds the bits from `pos` up to `hi`. -/
theorem testBit_mask {pos hi : Nat} (h : pos ≤ hi) (i : Nat) : (2 ^ hi - 2 ^ pos).testBit i = (decide (pos ≤ i) && decide (i < hi)) := by
  have : 2 ^ hi - 2 ^ pos = (2 ^ (hi - pos) - 1) <<< pos := by
    rw [Nat.shiftLeft_eq, Nat.sub_mul, ← Nat.pow_add, Nat.sub_add_cancel h, Nat.one_mul]
  rw [this, Nat.testBit_shiftLeft, Nat.testBit_two_pow_sub_one]
  by_cases hi' : pos ≤ i
  · simp only [ge_iff_le, hi', decide_true, Bool.true_and]
    exact decide_eq_decide.2 (by omega)
  · simp only [ge_iff_le, hi', decide_false, Bool.false_and]
/-- Three fields side by side: bits of `a` below `pos` and from `hi` on, bits of `b` between. -/
theorem testBit_insert (a b : Nat) {pos hi : Nat} (h : pos ≤ hi) (i : Nat) :
    (a % 2 ^ pos + b % 2 ^ (hi - pos) * 2 ^ pos + a / 2 ^ hi * 2 ^ hi).testBit i =
      if pos ≤ i ∧ i < hi then b.testBit (i - pos) else a.testBit i := by
  have hlow : a % 2 ^ pos < 2 ^ pos := Nat.mod_lt _ (Nat.two_pow_pos pos)
  have hmid : (b % 2 ^ (hi - pos)) <<< pos + a % 2 ^ pos < 2 ^ hi := by
    have hb : b % 2 ^ (hi - pos) + 1 ≤ 2 ^ (hi - pos) := Nat.mod_lt _ (Nat.two_pow_pos _)
    have := Nat.mul_le_mul_right (2 ^ pos) hb
    rw [← Nat.pow_add, Nat.sub_add_cancel h, Nat.add_mul] at this
    rw [Nat.shiftLeft_eq]
    omega
  have hsum : a % 2 ^ pos + b % 2 ^ (hi - pos) * 2 ^ pos + a / 2 ^ hi * 2 ^ hi =
      (a >>> hi) <<< hi ||| ((b % 2 ^ (hi - pos)) <<< pos ||| a % 2 ^ pos) := by
    rw [← Nat.shiftLeft_add_eq_or_of_lt hlow, ← Nat.shiftLeft_add_eq_or_of_lt hmid, Nat.shiftLeft_eq, Nat.shiftLeft_eq, Nat.shiftRight_eq_div_pow]
    omega
  rw [hsum]
  simp only [Nat.testBit_or, Nat.testBit_shiftLeft, Nat.testBit_shiftRight, Nat.testBit_mod_two_pow]
  rcases Nat.lt_or_ge i pos with hp | hp
  · simp [show ¬ hi ≤ i by omega, show ¬ pos ≤ i by omega, hp]
  · rcases Nat.lt_or_ge i hi with hh | hh
    · simp [hp, hh, show ¬ hi ≤ i by omega, show ¬ i < pos by omega, show i - pos < hi - pos by omega]
    · simp [hp, hh, show ¬ i < hi by omega, show ¬ i < pos by omega, show ¬ i - pos < hi - pos by omega]
theorem ofNat_bfiN (a b : BitVec w) (c : BitVec 32) :
    BitVec.ofNat w (bfiN w a.toNat b.toNat c.toNat) =
      let pos := (c.extractLsb' 0 6).toNat
      let len := (c.extractLsb' 8 6).toNat
      let mask := BitVec.ofNat w (2 ^ min (pos + len) w - 2 ^ pos)
      if len = 0 ∨ w ≤ pos then a else (a &&& ~~~mask) ||| ((b <<< pos) &&& mask) := by
  have hpos : c.toNat % 64 = (c.extractLsb' 0 6).toNat := by simp [BitVec.extractLsb'_toNat]
  have hlen : c.toNat / 256 % 64 = (c.extractLsb' 8 6).toNat := by simp [BitVec.extractLsb'_toNat, Nat.shiftRight_eq_div_pow]
  simp only [bfiN, hpos, hlen]
  generalize (c.extractLsb' 0 6).toNat = pos
  generalize (c.extractLsb' 8 6).toNat = len
  split
  · exact ofNat_toNat_self a
  · next h =>
    have hle : pos ≤ min (pos + len) w := by omega
    ext i hi
    simp only [← BitVec.getLsbD_eq_getElem, BitVec.getLsbD_ofNat, BitVec.getLsbD_or, BitVec.getLsbD_and, BitVec.getLsbD_not, BitVec.getLsbD_shiftLeft,
      testBit_insert _ _ hle, testBit_mask hle, BitVec.testBit_toNat, hi, decide_true, Bool.true_and]
    by_cases hin : pos ≤ i ∧ i < min (pos + len) w
    · rw [if_pos hin, decide_eq_true hin.1, decide_eq_true hin.2, decide_eq_false (Nat.not_lt.2 hin.1)]
      simp only [Bool.and_self, Bool.not_true, Bool.and_false, Bool.false_or, Bool.not_false, Bool.true_and, Bool.and_true]
    · rw [if_neg hin, ← Bool.decide_and, decide_eq_false hin]
      simp only [Bool.not_false, Bool.and_true, Bool.and_false, Bool.or_false]

end Sys2Proof.Claims
end

section
/-! SUPPORT. The lane equation of the bit operations, shifts and counts (R83, R84), and the conditions of R88. -/
namespace Sys2Proof.Claims
open Sys2Proof.Machine

section
variable {i : Instr} {t : Ty} {d a : Nat} {b : Src}

/-- An operation that writes one result of its type gives the bit vector of that pattern. -/
theorem lanewise_result {src : List Nat} {n : Thread → Nat} {x : Thread → BitVec t.bits}
    (he : ∀ s, exec i s = s.reg (perLane src (t.named d) (fun th => { v := vWrite t d (n th) }))) (hn : ∀ th, BitVec.ofNat t.bits (n th) = x th) :
    Lanewise i src (t.named d) (fun _ th => result t d (x th) th) :=
  lanewise_perLane he fun th => by rw [apply_v, hn]
theorem lanewise_bitOp {f : Nat → Nat → Nat} {g : BitVec t.bits → BitVec t.bits → BitVec t.bits} (he : ∀ s, exec i s = s.reg (bitOp t d a b f))
    (hg : ∀ x y : BitVec t.bits, BitVec.ofNat t.bits (f x.toNat y.toNat) = g x y) : Lanewise i (ab t a b) (t.named d) (res2 t d a b g) :=
  lanewise_result he fun th => by rw [ofNat_mod_two_pow, pat_eq, srcPat_eq, hg]
theorem lanewise_shiftOp {f : Nat → Nat → Nat → Nat} {g : BitVec t.bits → Nat → BitVec t.bits} (he : ∀ s, exec i s = s.reg (shiftOp t d a b f))
    (hg : ∀ (x : BitVec t.bits) n, BitVec.ofNat t.bits (f t.bits x.toNat n) = g x n) :
    Lanewise i (t.named a ++ b.regs32) (t.named d) (resShift t d a b g) :=
  lanewise_result he fun th => by rw [ofNat_mod_two_pow, pat_eq, srcCount_eq, hg]
theorem lanewise_countOp {f : Nat → Nat → Nat} {g : BitVec t.bits → BitVec t.bits} (he : ∀ s, exec i s = s.reg (countOp t d a f))
    (hg : ∀ x : BitVec t.bits, f t.bits x.toNat = (g x).toNat) :
    Lanewise i (t.named a) [d] (fun _ th => th.setV d ((g (opnd t th a)).setWidth 32)) :=
  lanewise_perLane he fun th => by rw [apply_setV, pat_eq, hg, BitVec.ofNat_toNat]
end

/-- A condition of R88 is the relation it names. -/
theorem cmpInt_cond (k : Cmp) (x y : Int) : cmpInt k x y = match k with
    | .eq => decide (x = y) | .ne => decide (x ≠ y) | .lt => decide (x < y) | .le => decide (x ≤ y)
    | .gt => decide (y < x) | .ge => decide (y ≤ x) | .un => false | .ord => true := by
  cases k with
  | ne => exact (decide_not (p := x = y)).symm
  | _ => rfl

end Sys2Proof.Claims
end

section
open Sys2Proof Sys2Proof.Machine Sys2Proof.Claims

/-- Settles O2: each operation on naturals is the bit vectors' own, at every width. -/
theorem vectorBits : Obligations.VectorBits := by
  refine ⟨fun t d a b => ⟨?and, ?or, ?xor, ?andn, ?shl, ?shr, ?sar, ?rotl⟩, fun t d a pos len => ⟨?clz, ?popc, ?brev, ?bfx⟩⟩
  case and => exact lanewise_bitOp (fun _ => rfl) ofNat_and_toNat
  case or => exact lanewise_bitOp (fun _ => rfl) ofNat_or_toNat
  case xor => exact lanewise_bitOp (fun _ => rfl) ofNat_xor_toNat
  case andn => exact lanewise_bitOp (fun _ => rfl) ofNat_andn_toNat
  case shl => exact lanewise_shiftOp (fun _ => rfl) ofNat_shlN
  case shr => exact lanewise_shiftOp (fun _ => rfl) ofNat_shrN
  case sar => exact lanewise_shiftOp (fun _ => rfl) ofNat_sarN
  case rotl => exact lanewise_shiftOp (fun _ => rfl) (ofNat_rotlN (bits_pos t))
  case clz => exact lanewise_countOp (fun _ => rfl) clzN_toNat
  case popc => exact lanewise_countOp (fun _ => rfl) popcN_toNat
  case brev => exact lanewise_result (fun _ => rfl) fun th => by rw [pat_eq, brevN_toNat, ofNat_toNat_self]
  case bfx => exact lanewise_result (fun _ => rfl) fun th => by rw [pat_eq, ofNat_bfxN]
end

section
open Sys2Proof Sys2Proof.Machine Sys2Proof.Claims

/-- Settles O3: the three fields of `bfi` are the masked union. -/
theorem fieldInsert : Obligations.FieldInsert := fun t d a b c =>
  lanewise_result (fun _ => rfl) fun th => by rw [pat_eq, pat_eq, ofNat_bfiN]
end

section
open Sys2Proof Sys2Proof.Machine Sys2Proof.Claims

/-- Settles O4: `cmp` condition by condition; `sel`, `mov` and `movi` write the pattern they read. -/
theorem selectCompareMove : Obligations.SelectCompareMove := by
  refine fun t d a => ⟨fun b p => ?sel, fun b k x => ?cmp, fun neg ht => ?mov, fun neg => ?movPred, fun b hb => ?movi⟩
  case sel => exact lanewise_result (fun _ => rfl) fun th => by split <;> rw [pat_eq, ofNat_toNat_self]
  case cmp =>
    refine lanewise_perLane (fun _ => rfl) fun th => ?_
    rw [apply_setP, value_pat, value_srcPat]
    exact congrArg (fun r => th.setP d (combine th x r)) (cmpInt_cond k _ _)
  case mov =>
    have he (s : State) : exec (.mov t d a neg) s = s.reg (perLane (t.named a) (t.named d) (fun th => { v := vWrite t d (th.pat t a) })) := by
      change s.reg (movOp t d a neg) = _
      rw [movOp, if_neg ht]
    exact lanewise_result he fun th => by rw [pat_eq, ofNat_toNat_self]
  case movPred => exact lanewise_perLane (fun _ => rfl) fun th => apply_setP d _ th
  case movi =>
    have himm (th : Thread) : th.srcPat t b = immPat t t.bits b := by
      cases b with
      | reg r => exact hb.elim
      | imm n => rfl
      | ext p => rfl
    exact lanewise_result (fun _ => rfl) fun th => by rw [← himm th, srcPat_eq, ofNat_toNat_self]
end

section
/-! SUPPORT. The lane equation of what an issue group computes once (R91): the leader's values, and the three forms of result. -/
namespace Sys2Proof.Claims
open Sys2Proof.Machine

/-! ## Operands of group D (R92) -/

theorem srcK_i64 (th : Thread) (b : Src) : th.srcK .i64 b = (kB false th b).toNat := by
  cases b with
  | reg r => rfl
  | imm x => exact immPat_imm16 .i64 64 x rfl
  | ext p => exact immPat_ext .i64 64 p
theorem srcK_z64 (th : Thread) (b : Src) : th.srcK .z64 b = (kB true th b).toNat := by
  cases b with
  | reg r => rfl
  | imm x => exact (BitVec.toNat_ofNat x 64).symm
  | ext p => exact immPat_ext .z64 64 p
/-- An immediate is zero-extended for z64 and sign-extended for i64. -/
theorem srcK_typed {t : Ty} (ht : t = .i64 ∨ t = .z64) (th : Thread) (b : Src) : th.srcK t b = (kB (!t.signed) th b).toNat := by
  rcases ht with rfl | rfl
  · exact srcK_i64 th b
  · exact srcK_z64 th b
theorem value_kInt (t : Ty) (x : K64) : t.value x.toNat = kInt t x := by rw [value_eq, BitVec.ofNat_toNat, kInt]
/-- A 64-bit type reads the whole register. -/
theorem ofInt_kInt {t : Ty} (ht : t = .i64 ∨ t = .z64) (x : K64) : BitVec.ofInt 64 (kInt t x) = x := by
  rcases ht with rfl | rfl
  · exact (ofInt_intOf .i64 _).trans (BitVec.setWidth_eq x)
  · exact (ofInt_intOf .z64 _).trans (BitVec.setWidth_eq x)
theorem ofInt_min_kInt {t : Ty} (ht : t = .i64 ∨ t = .z64) (x y : K64) :
    BitVec.ofInt 64 (min (kInt t x) (kInt t y)) = if kInt t y < kInt t x then y else x := by
  split
  · next h => rw [Int.min_eq_right (Int.le_of_lt h), ofInt_kInt ht]
  · next h => rw [Int.min_eq_left (Int.not_lt.1 h), ofInt_kInt ht]
theorem ofInt_max_kInt {t : Ty} (ht : t = .i64 ∨ t = .z64) (x y : K64) :
    BitVec.ofInt 64 (max (kInt t x) (kInt t y)) = if kInt t x < kInt t y then y else x := by
  split
  · next h => rw [Int.max_eq_right (Int.le_of_lt h), ofInt_kInt ht]
  · next h => rw [Int.max_eq_left (Int.not_lt.1 h), ofInt_kInt ht]

/-! ## What a lane's update does -/

theorem apply_setK (d : Nat) (x : K64) (th : Thread) : ({ k := [(d, x)] } : LaneUpd).apply th = th.setK d x := by
  simp [LaneUpd.apply, Thread.setK]
theorem apply_setA (d : Nat) (x : Addr) (th : Thread) : ({ a := [(d, x)] } : LaneUpd).apply th = th.setA d x := by
  simp [LaneUpd.apply, Thread.setA]

/-! ## The leader (R91) -/

/-- The thread whose registers a once-per-group operation reads: the first active one. -/
def leader (c : Ctx) (th : Thread) : Thread := match lanes c with | (_, l) :: _ => l | [] => th
theorem leader_map {α : Type} (f : Thread → α) (c : Ctx) (th : Thread) :
    (match lanes c with | (_, l) :: _ => f l | [] => f th) = f (leader c th) := by
  unfold leader
  split <;> rfl
theorem uni_eq (d : Nat) (f : Thread → K64) (c : Ctx) (th : Thread) : uni d f c th = th.setK d (f (leader c th)) :=
  congrArg (th.setK d) (leader_map f c th)
theorem uniA_eq (d : Nat) (f : Thread → Addr) (c : Ctx) (th : Thread) : uniA d f c th = th.setA d (f (leader c th)) :=
  congrArg (th.setA d) (leader_map f c th)
theorem uniP_eq (d : Nat) (f : Thread → Bool) (c : Ctx) (th : Thread) : uniP d f c th = th.setP d (f (leader c th)) :=
  congrArg (th.setP d) (leader_map f c th)
/-- The active lane of the leader's warp that `kpick` names (R94). -/
def picked (t : Ty) (b : Src) (c : Ctx) (th : Thread) : Option Lane :=
  (lanes c).find? (fun e => e.2.warp == (leader c th).warp && e.2.lane == (leader c th).srcK t b % 32)
theorem apply_kpick (t : Ty) (d a : Nat) (th : Thread) (o : Option Lane) :
    (match o with
      | some e => ({ k := [(d, BitVec.ofInt 64 (t.value (e.2.pat t a)))] } : LaneUpd)
      | none => { k := [(d, 0)] }).apply th =
      th.setK d (match o with | some e => BitVec.ofInt 64 (intOf t (opnd t e.2 a)) | none => 0) := by
  cases o with
  | some e => exact (apply_setK d _ th).trans (by rw [value_pat])
  | none => exact apply_setK d 0 th

/-! ## The lane equation of each form of operation -/

section
variable {i : Instr} {t : Ty} {d a : Nat} {b : Src}

/-- An operation computed once does to each active lane what the leader's values say. -/
theorem lanewise_perGroup {u : Thread → LaneUpd} {f : Ctx → Thread → Thread} (he : ∀ s, exec i s = s.reg (perGroup u))
    (hu : ∀ c th, (u (leader c th)).apply th = f c th) : Lanewise i [] [] f :=
  lanewise i (perGroup u) [] [] f he rfl rfl fun c _ th => hu c th
theorem lanewise_uni {x y : Thread → K64} (he : ∀ s, exec i s = s.reg (perGroup (fun l => { k := [(d, x l)] }))) (hx : ∀ l, x l = y l) :
    Lanewise i [] [] (uni d y) :=
  lanewise_perGroup he fun c th => by rw [apply_setK, uni_eq, hx]
theorem lanewise_uniA {x y : Thread → Addr} (he : ∀ s, exec i s = s.reg (perGroup (fun l => { a := [(d, x l)] }))) (hx : ∀ l, x l = y l) :
    Lanewise i [] [] (uniA d y) :=
  lanewise_perGroup he fun c th => by rw [apply_setA, uniA_eq, hx]
theorem lanewise_uniP {x y : Thread → Bool} (he : ∀ s, exec i s = s.reg (perGroup (fun l => { p := [(d, x l)] }))) (hx : ∀ l, x l = y l) :
    Lanewise i [] [] (uniP d y) :=
  lanewise_perGroup he fun c th => by rw [apply_setP, uniP_eq, hx]
theorem lanewise_kOp {f : Nat → Nat → Nat} {g : K64 → K64 → K64} (he : ∀ s, exec i s = s.reg (kOp d a b f))
    (hg : ∀ x y : K64, BitVec.ofNat 64 (f x.toNat y.toNat) = g x y) : Lanewise i [] [] (uni d (fun l => g (l.getK a) (kB false l b))) :=
  lanewise_uni he fun l => by rw [srcK_i64, hg]
theorem lanewise_kShift {f : Nat → Nat → Nat → Nat} {g : K64 → Nat → K64} (he : ∀ s, exec i s = s.reg (kShift d a b f))
    (hg : ∀ (x : K64) n, BitVec.ofNat 64 (f 64 x.toNat n) = g x n) : Lanewise i [] [] (uni d (fun l => g (l.getK a) (kB true l b).toNat)) :=
  lanewise_uni he fun l => by rw [srcK_z64, hg]
end

/-! ## Addresses (R97 to R99) -/

/-- Addresses compare as unsigned numbers. -/
theorem cmpInt_natCast (k : Cmp) (x y : Nat) : cmpInt k (x : Int) (y : Int) = match k with
    | .eq => decide (x = y) | .ne => decide (x ≠ y) | .lt => decide (x < y) | .le => decide (x ≤ y)
    | .gt => decide (y < x) | .ge => decide (y ≤ x) | .un => false | .ord => true := by
  rw [cmpInt_cond]
  cases k <;> simp only [Int.ofNat_inj, Int.ofNat_lt, Int.ofNat_le, ne_eq]

theorem ofNat_hi_lo (x y : K64) : BitVec.ofNat 80 (x.toNat % 65536 * 18446744073709551616 + y.toNat) = (x.setWidth 16 ++ y : BitVec (16 + 64)) := by
  apply BitVec.eq_of_toNat_eq
  rw [BitVec.toNat_append, ← Nat.shiftLeft_add_eq_or_of_lt y.isLt, Nat.shiftLeft_eq, BitVec.toNat_setWidth, BitVec.toNat_ofNat]
  omega
theorem ofNat_agetHi (x : Addr) : BitVec.ofNat 64 (x.toNat / 18446744073709551616) = (x >>> 64).setWidth 64 := by
  rw [show 18446744073709551616 = 2 ^ 64 from rfl, ← Nat.shiftRight_eq_div_pow, ← BitVec.toNat_ushiftRight, BitVec.ofNat_toNat]
/-- A 32-bit index of either sign, scaled, is its extension shifted left. -/
theorem ofInt_scaled {t : Ty} (ht : t = .i32 ∨ t = .z32) (x : V32) (n : Nat) :
    BitVec.ofInt 80 (t.value x.toNat * (2 ^ n : Nat)) = (if t.signed then x.signExtend 80 else x.setWidth 80) <<< n := by
  have hext : BitVec.ofInt 80 (t.value x.toNat) = if t.signed then x.signExtend 80 else x.setWidth 80 := by
    rcases ht with rfl | rfl
    · exact congrArg (BitVec.ofInt 80) (value_toNat .i32 x)
    · exact (congrArg (BitVec.ofInt 80) (value_toNat .z32 x)).trans ((BitVec.ofInt_natCast 80 x.toNat).trans (BitVec.ofNat_toNat 80 x))
  have htwo : BitVec.ofInt 80 (2 ^ n : Nat) = BitVec.twoPow 80 n := by
    rw [BitVec.ofInt_natCast]
    exact BitVec.eq_of_toNat_eq (by rw [BitVec.toNat_ofNat, BitVec.toNat_twoPow])
  rw [BitVec.ofInt_mul, hext, htwo, BitVec.mul_twoPow_eq_shiftLeft]
theorem ofInt_saturated (x : Int) : BitVec.ofInt 64 (max (-9223372036854775808) (min 9223372036854775807 x)) =
    if x < -(2 ^ 63) then BitVec.intMin 64 else if 2 ^ 63 - 1 < x then BitVec.intMax 64 else BitVec.ofInt 64 x := by
  split
  · next h => rw [show max (-9223372036854775808) (min 9223372036854775807 x) = -9223372036854775808 by omega]; rfl
  · split
    · next h => rw [show max (-9223372036854775808) (min 9223372036854775807 x) = 9223372036854775807 by omega]; rfl
    · rw [show max (-9223372036854775808) (min 9223372036854775807 x) = x by omega]
theorem ofNat_alignDn (x : Addr) (n : Nat) : BitVec.ofNat 80 (x.toNat / 2 ^ n * 2 ^ n) = (x >>> n) <<< n := by
  apply BitVec.eq_of_toNat_eq
  rw [BitVec.toNat_shiftLeft, BitVec.toNat_ushiftRight, Nat.shiftLeft_eq, Nat.shiftRight_eq_div_pow, BitVec.toNat_ofNat]
/-- Up to an alignment of 2⁷⁹ the sum before rounding down fits 81 bits. -/
theorem ofNat_alignUp (x : Addr) {n : Nat} (hn : n ≤ 79) : BitVec.ofNat 80 ((x.toNat + (2 ^ n - 1)) / 2 ^ n * 2 ^ n) =
    ((BitVec.setWidth 81 x + BitVec.ofNat 81 (2 ^ n - 1)) >>> n <<< n).setWidth 80 := by
  have hx := x.isLt
  have hp : 2 ^ n ≤ 2 ^ 79 := Nat.pow_le_pow_right (by decide) hn
  have hsum : (BitVec.setWidth 81 x + BitVec.ofNat 81 (2 ^ n - 1)).toNat = x.toNat + (2 ^ n - 1) := by
    rw [BitVec.toNat_add, BitVec.toNat_setWidth, BitVec.toNat_ofNat]
    omega
  apply BitVec.eq_of_toNat_eq
  rw [BitVec.toNat_setWidth, BitVec.toNat_shiftLeft, BitVec.toNat_ushiftRight, hsum, Nat.shiftLeft_eq, Nat.shiftRight_eq_div_pow, BitVec.toNat_ofNat]
  omega

end Sys2Proof.Claims
end

section
open Sys2Proof Sys2Proof.Machine Sys2Proof.Claims

/-- Group D: the leader's result, by the bit vectors' operations. -/
theorem uniformInstructions : UniformInstructions := by
  refine fun d a b => ⟨?kadd, ?ksub, ?kmul, ?kand, ?kor, ?kxor, ?kshl, ?kshr, ?ksar, fun t ht => ⟨?kmin, ?kmax, fun k => ?kcmp⟩, fun e p => ?ksel,
    ?kmov, ?kmovi, fun t pos len => ?kbfx, ?kpopc, ?kclz, fun t => ?kbcast, fun t => ?kpick⟩
  case kadd => exact lanewise_kOp (fun _ => rfl) fun x y => by rw [BitVec.ofNat_add, ofNat_toNat_self, ofNat_toNat_self]
  case ksub => exact lanewise_kOp (fun _ => rfl) fun x y => by rw [BitVec.sub_eq_add_neg, BitVec.ofNat_add, ofNat_toNat_self]; rfl
  case kmul => exact lanewise_kOp (fun _ => rfl) fun x y => by rw [BitVec.ofNat_mul, ofNat_toNat_self, ofNat_toNat_self]
  case kand => exact lanewise_kOp (fun _ => rfl) ofNat_and_toNat
  case kor => exact lanewise_kOp (fun _ => rfl) ofNat_or_toNat
  case kxor => exact lanewise_kOp (fun _ => rfl) ofNat_xor_toNat
  case kshl => exact lanewise_kShift (fun _ => rfl) ofNat_shlN
  case kshr => exact lanewise_kShift (fun _ => rfl) ofNat_shrN
  case ksar => exact lanewise_kShift (fun _ => rfl) ofNat_sarN
  case kmin => exact lanewise_uni (fun _ => rfl) fun l => by rw [srcK_typed ht, value_kInt, value_kInt, ofInt_min_kInt ht]
  case kmax => exact lanewise_uni (fun _ => rfl) fun l => by rw [srcK_typed ht, value_kInt, value_kInt, ofInt_max_kInt ht]
  case kcmp => exact lanewise_uniP (fun _ => rfl) fun l => by rw [srcK_typed ht, value_kInt, value_kInt]; exact cmpInt_cond k _ _
  case ksel => exact lanewise_uni (fun _ => rfl) fun _ => rfl
  case kmov => exact lanewise_uni (fun _ => rfl) fun _ => rfl
  case kmovi => exact lanewise_uni (fun _ => rfl) fun l => by rw [srcK_i64, ofNat_toNat_self]
  case kbfx => exact lanewise_uni (fun _ => rfl) fun l => ofNat_bfxN t.signed (l.getK a) pos len
  case kpopc => exact lanewise_uni (fun _ => rfl) fun l => by rw [popcN_toNat, ofNat_toNat_self]
  case kclz => exact lanewise_uni (fun _ => rfl) fun l => by rw [clzN_toNat, ofNat_toNat_self]
  case kbcast =>
    refine lanewise_perGroup (fun _ => rfl) fun c th => ?_
    rw [apply_v, ofNat_mod_two_pow, BitVec.ofNat_toNat]
    exact congrArg (fun x : K64 => result t d (x.setWidth t.bits) th) (leader_map (fun l => l.getK a) c th).symm
  case kpick => exact lanewise _ (kpickOp t d a b) [] [] _ (fun _ => rfl) rfl rfl fun c _ th => apply_kpick t d a th (picked t b c th)

/-- Group E: the leader's addresses, and `aaddv` on each lane's own. -/
theorem addressInstructions : AddressInstructions := by
  refine fun d a => ⟨?amov, fun b => ?aset, ?aget, ?agetHi, fun b => ?aadd, fun t b scale ht => ?aaddv, fun b k => ?acmp, fun b => ?adiff,
    fun n hn => ⟨?alignDn, ?alignUp⟩⟩
  case amov => exact lanewise_uniA (fun _ => rfl) fun _ => rfl
  case aset => exact lanewise_uniA (fun _ => rfl) fun l => by rw [srcK_z64, ofNat_hi_lo]
  case aget => exact lanewise_uni (fun _ => rfl) fun _ => rfl
  case agetHi => exact lanewise_uni (fun _ => rfl) fun l => ofNat_agetHi (l.getA a)
  case aadd => exact lanewise_uniA (fun _ => rfl) fun l => by rw [srcK_i64, sext_eq_toInt, ofNat_toNat_self]; rfl
  case aaddv => exact lanewise_perLane (fun _ => rfl) fun th => by rw [apply_setA, ofInt_scaled ht]
  case acmp => exact lanewise_uniP (fun _ => rfl) fun l => cmpInt_natCast k _ _
  case adiff => exact lanewise_uni (fun _ => rfl) fun l => ofInt_saturated _
  case alignDn => exact lanewise_uniA (fun _ => rfl) fun l => ofNat_alignDn (l.getA a) n
  case alignUp => exact lanewise_uniA (fun _ => rfl) fun l => ofNat_alignUp (l.getA a) hn

/-- Settles O9: what the group computes once is the leader's, by groups D and E. -/
theorem scalarInstructions : Obligations.ScalarInstructions := ⟨uniformInstructions, addressInstructions⟩
end

section
/-! SUPPORT. The lane equation of the float operations: those that round the exact result of their operands' values (R104), and those that
write a pattern with its flags (R107, R108). -/
namespace Sys2Proof.Claims
open Sys2Proof.Machine

theorem apply_flagged (d : Nat) (x : Nat × BitVec 5) (th : Thread) :
    ({ v := [(d, BitVec.ofNat 32 x.1)], f := x.2 } : LaneUpd).apply th = flagged d x th := by simp [LaneUpd.apply, flagged]

section
variable {i : Instr} {t : Ty} {d a : Nat} {b : Src} {rm : Rm}

theorem lanewise_fRound_unary (f : FVal → FRes) (he : ∀ s, exec i s = s.reg (fRound t d [a] rm (fun th => f (th.fval t a)))) :
    Lanewise i [a] [d] (fun _ th => rounded t d rm (f (fv t th a)) th) :=
  lanewise_fRound he fun th => by rw [fval_eq]
theorem lanewise_fRound_binary (f : FVal → FVal → FRes)
    (he : ∀ s, exec i s = s.reg (fRound t d (t.named a ++ b.named t) rm (fun th => f (th.fval t a) (th.fsrc t b)))) :
    Lanewise i (ab t a b) [d] (fun _ th => rounded t d rm (f (fv t th a) (fvB t th b)) th) :=
  lanewise_fRound he fun th => by rw [fval_eq, fsrc_eq]
theorem lanewise_minMaxOp {less nan : Bool} (he : ∀ s, exec i s = s.reg (minMaxOp t d a b less nan)) :
    Lanewise i (ab t a b) [d] (fun _ th => flagged d (minMaxF t less nan (opnd t th a).toNat (opndB t th b).toNat) th) :=
  lanewise_perLane he fun th => by rw [← pat_eq, ← srcPat_eq]; exact apply_flagged d _ th
theorem lanewise_approxOp {op : ApproxOp} (he : ∀ s, exec i s = s.reg (approxOp op t d a)) :
    Lanewise i [a] [d] (fun _ th => flagged d (approxF op t (opnd t th a).toNat) th) :=
  lanewise_perLane he fun th => by rw [← pat_eq]; exact apply_flagged d _ th
end

end Sys2Proof.Claims
end

section
open Sys2Proof Sys2Proof.Machine Sys2Proof.Claims

/-- R104 to R107: what each operation computes from its operands' values is rounded once; minimum and maximum copy a pattern. -/
theorem floatArithmetic : FloatArithmetic := by
  refine fun t d a b rm => ⟨?fadd, ?fsub, ?fmul, ?fdiv, fun e f => ?ffma, ?frcp, ?fsqrt, fun nan => ?fmin, fun nan => ?fmax⟩
  case fadd => exact lanewise_fRound_binary (addF · · rm) fun _ => rfl
  case fsub => exact lanewise_fRound_binary (subF · · rm) fun _ => rfl
  case fmul => exact lanewise_fRound_binary mulF fun _ => rfl
  case fdiv => exact lanewise_fRound_binary divF fun _ => rfl
  case ffma => exact lanewise_fRound (fun _ => rfl) fun th => by rw [fval_eq, fval_eq, fval_eq]
  case frcp => exact lanewise_fRound_unary rcpF fun _ => rfl
  case fsqrt => exact lanewise_fRound_unary sqrtF fun _ => rfl
  case fmin => exact lanewise_minMaxOp fun _ => rfl
  case fmax => exact lanewise_minMaxOp fun _ => rfl

/-- R108 to R110: the five approximations are one operation. -/
theorem floatApproximations : FloatApproximations := fun _ _ _ =>
  ⟨lanewise_approxOp fun _ => rfl, lanewise_approxOp fun _ => rfl, lanewise_approxOp fun _ => rfl, lanewise_approxOp fun _ => rfl,
    lanewise_approxOp fun _ => rfl⟩

/-- Settles O6: each lane reads its operands, and writes the one result rounded or flagged. Which neighbour an approximation takes is
left to the model (log 7). -/
theorem floatNumbers : Obligations.FloatNumbers := ⟨floatArithmetic, floatApproximations⟩
end

section
/-! SUPPORT. The issue checks of `fpack` and `funpack` (R117), and an operation on each lane's own registers run on the group (R82). -/
namespace Sys2Proof.Machine

/-- The element span and the packed span of `n` elements, and the scale register where the record has one, lie in the allocation (R117). -/
def Ctx.SpansFit (c : Ctx) (f : Fmt) (n elems packedAt vs : Nat) : Prop :=
  elems + n ≤ c.wg.alloc ∧ packedAt + f.packedRegs n ≤ c.wg.alloc ∧ (f.kind = 1 → vs < c.wg.alloc)
/-- The third check of R117 refuses exactly what does not fit. -/
theorem Ctx.spanCheck_iff (c : Ctx) (f : Fmt) (n elems packedAt vs : Nat) :
    (c.wg.alloc < elems + n || c.wg.alloc < packedAt + f.packedRegs n || (f.kind == 1 && decide (c.wg.alloc ≤ vs))) = true ↔
      ¬c.SpansFit f n elems packedAt vs := by
  simp only [Ctx.SpansFit, Bool.or_eq_true, Bool.and_eq_true, decide_eq_true_eq, beq_iff_eq]
  omega

section
variable {c : Ctx} {slot n elems packedAt vs : Nat} (clk : Clock) (op : Fmt → RegOp)

theorem Ctx.packed_badHandle (h : c.m.plane c.core slot = none ∨ c.wg.holds slot = false) :
    c.packed clk slot n elems packedAt vs op = c.badHandle clk c.m 5 := by
  unfold Ctx.packed
  split
  · rfl
  · next f hf =>
    have hheld : c.wg.holds slot = false := h.resolve_left (by rw [hf]; exact Option.some_ne_none f)
    rw [hheld]
    rfl

variable {f : Fmt} (hf : c.m.plane c.core slot = some f) (hh : c.wg.holds slot = true)
include hf hh
theorem Ctx.packed_illegal (h : f.countOk n = false ∨ ¬c.SpansFit f n elems packedAt vs) :
    c.packed clk slot n elems packedAt vs op = c.illegal clk c.m := by
  simp only [Ctx.packed, hf, hh, Bool.not_true, Bool.false_eq_true, if_false]
  rcases h with hn | hs
  · rw [hn]; rfl
  · rw [if_pos ((c.spanCheck_iff f n elems packedAt vs).2 hs), ite_self]
theorem Ctx.packed_run (hn : f.countOk n = true) (hs : c.SpansFit f n elems packedAt vs) :
    c.packed clk slot n elems packedAt vs op = c.run clk (op f) := by
  have hspan := mt (c.spanCheck_iff f n elems packedAt vs).1 (not_not_intro hs)
  simp only [Ctx.packed, hf, hh, hn, Bool.not_true, Bool.false_eq_true, if_false, hspan]
end

end Sys2Proof.Machine
namespace Sys2Proof.Claims
open Sys2Proof.Machine

theorem exec_fpack (t : Ty) (d a vs slot sel k : Nat) (rm : Rm) (s : State) : exec (.fpack t d a vs slot sel k rm) s =
    s.group (fun clk c => c.packed clk slot (packCount k) a d vs (fun f => fpackOp f t d a vs sel (packCount k) rm)) := rfl
theorem exec_funpack (t : Ty) (d a vs slot sel k : Nat) (rm : Rm) (s : State) : exec (.funpack t d a vs slot sel k rm) s =
    s.group (fun clk c => c.packed clk slot (packCount k) d a vs (fun f => funpackOp f t d a vs sel (packCount k) rm)) := rfl

section
variable {s : State} {c : Ctx} (h : Issues s c)
include h

/-- An operation in which each lane uses its own registers alone does to each active thread what it does to a lane. -/
theorem reg_ownLane {op : RegOp} (hop : ∀ ls l, op.upd ls l = op.upd [] (0, l.2)) (hm : NotMapped c op.src op.dst) :
    s.reg op = .next (put s c (each c (fun th => (op.upd [] (0, th)).apply th))) := by
  rw [State.reg_next s op h hm.1 hm.2]
  simp only [hop (c.act.map _)]
  rfl

variable {slot n elems packedAt vs : Nat} {op : Fmt → RegOp}

theorem group_packed_badHandle (hr : s.m.plane c.core slot = none ∨ c.wg.holds slot = false) :
    s.group (fun clk c => c.packed clk slot n elems packedAt vs op) = .next (withM s (c.badHandle s.clk s.m 5)) := by
  rw [← Mach.ctx?_m h] at hr
  rw [State.group_next s _ h, Ctx.packed_badHandle s.clk op hr, Mach.ctx?_m h]
  rfl

variable {f : Fmt} (hf : s.m.plane c.core slot = some f) (hh : c.wg.holds slot = true)
include hf hh

theorem group_packed_illegal (hr : f.countOk n = false ∨ ¬c.SpansFit f n elems packedAt vs) :
    s.group (fun clk c => c.packed clk slot n elems packedAt vs op) = .next (withM s (c.illegal s.clk s.m)) := by
  rw [← Mach.ctx?_m h] at hf
  rw [State.group_next s _ h, Ctx.packed_illegal s.clk op hf hh hr, Mach.ctx?_m h]
  rfl
theorem group_packed_next (hop : ∀ ls l, (op f).upd ls l = (op f).upd [] (0, l.2)) (hn : f.countOk n = true)
    (hs : c.SpansFit f n elems packedAt vs) (hm : NotMapped c (op f).src (op f).dst) :
    s.group (fun clk c => c.packed clk slot n elems packedAt vs op) =
      .next (put s c (each c (fun th => ((op f).upd [] (0, th)).apply th))) := by
  rw [← reg_ownLane h hop hm, State.reg, State.group_next s _ h, State.group_next s _ h]
  rw [← Mach.ctx?_m h] at hf
  rw [Ctx.packed_run s.clk op hf hh hn hs]
end

end Sys2Proof.Claims
end

section
open Sys2Proof Sys2Proof.Machine Sys2Proof.Claims

/-- Settles O17: the checks of R117 in order, then the lane's own update through the plane bound at issue. -/
theorem packAndUnpack : Obligations.PackAndUnpack := by
  intro t d a vs slot sel k rm s c h
  simp only [exec_fpack, exec_funpack, packCount]
  refine ⟨fun f hf hh => ⟨fun hn hfit hm => ?pack, fun hn hfit hm => ?unpack, fun hr => ?packRefused, fun hr => ?unpackRefused⟩,
    fun hr => ⟨group_packed_badHandle h hr, group_packed_badHandle h hr⟩⟩
  case pack => exact group_packed_next h hf hh (fun _ _ => rfl) hn hfit hm
  case unpack => exact group_packed_next h hf hh (fun _ _ => rfl) hn hfit hm
  case packRefused => exact group_packed_illegal h hf hh hr
  case unpackRefused => exact group_packed_illegal h hf hh hr
end

section
/-! SUPPORT. Groups F and T on the issue group: the meaning of each instruction, and what its threads are left as when they change and go on,
or leave their block too (R124). -/
namespace Sys2Proof.Machine

/-! ## The meanings (R122) -/

theorem exec_bra (off : Int) (s : State) :
    exec (.bra off) s = s.group (fun clk c => c.transfer clk c.m (fun _ => some (c.rel off)) (fun _ t => t)) := rfl
theorem exec_brc (p : Nat) (inv : Bool) (off : Int) (s : State) : exec (.brc p inv off) s = s.group (fun clk c =>
    c.transfer clk c.m (fun i => if (c.wg.thread i).getP p != inv then some (c.rel off) else none) (fun _ t => t)) := rfl
theorem exec_brkNz (k : Nat) (off : Int) (s : State) : exec (.brkNz k off) s = s.group (brkRun true k off) := rfl
theorem exec_brkZ (k : Nat) (off : Int) (s : State) : exec (.brkZ k off) s = s.group (brkRun false k off) := rfl
theorem exec_jmp (a : Nat) (off : Int) (s : State) :
    exec (.jmp a off) s = s.group (fun clk c => c.transfer clk c.m (fun i => some ((c.wg.thread i).relA a off)) (fun _ t => t)) := rfl
theorem exec_call (off : Int) (s : State) : exec (.call off) s = s.group (fun clk c => c.call clk (fun _ => c.rel off)) := rfl
theorem exec_callr (a : Nat) (off : Int) (s : State) :
    exec (.callr a off) s = s.group (fun clk c => c.call clk (fun i => (c.wg.thread i).relA a off)) := rfl
theorem exec_ret (s : State) : exec .ret s = s.group (fun clk c => c.ret clk) := rfl
theorem exec_exit (s : State) : exec .exit s = s.group (fun _ c => (c.retireWith c.m Thread.gone).atWg c Wg.splitFused) := rfl
theorem exec_nop (s : State) : exec .nop s = s.group (fun _ c => c.retire c.m) := rfl
theorem exec_yield (s : State) : exec .yield s = s.group (fun _ c => c.retireOut c.m (fun t => { t with yieldMark := true })) := rfl
theorem exec_sleep (n : Nat) (s : State) : exec (.sleep n) s = s.group (fun clk c => c.sleepFor clk n) := rfl
theorem exec_sleepReg (k : Nat) (s : State) : exec (.sleepReg k) s = s.group (fun clk c => c.sleepFor clk (min (c.leadK k) 4294967295)) := rfl
theorem exec_regroup (v g : Nat) (s : State) : exec (.regroup v g) s = s.group (fun _ c =>
    (c.retireOut c.m (fun t => { t with v := t.v.filter (fun e => e.1 < 8 * g), status := .gathered (t.getV v).toNat g })).atWg c
      (fun w => w.unfuse c.act)) := rfl
theorem exec_trap (code : Nat) (s : State) : exec (.trap code) s =
    s.group (fun clk c => if c.act.isEmpty then c.retire c.m else c.trapAct clk c.m 9 code c.ig.pc) := rfl
theorem exec_brkpt (id : Nat) (s : State) : exec (.brkpt id) s =
    s.group (fun clk c => if c.act.isEmpty then c.retire c.m else c.trapAct clk c.m 10 id c.ig.pc) := rfl
theorem exec_trapret (s : State) : exec .trapret s = s.group (trapretRun false) := rfl
theorem exec_trapretSkip (s : State) : exec .trapretSkip s = s.group (trapretRun true) := rfl
theorem exec_clock (k : Nat) (s : State) : exec (.clock k) s = s.group (fun clk c => c.retireK c.m k (c.srValue clk c.leaderT 5)) := rfl
theorem exec_clockTime (k : Nat) (s : State) : exec (.clockTime k) s = s.group (fun clk c => c.retireK c.m k (c.srValue clk c.leaderT 4)) := rfl

/-! ## Threads of a workgroup -/

/-- Threads are changed alike by two functions that agree on each of them. -/
theorem Wg.mapIdx_threads_congr {w : Wg} {f g : Nat → Thread → Thread} (h : ∀ i, f i (w.thread i) = g i (w.thread i)) :
    w.threads.mapIdx f = w.threads.mapIdx g :=
  List.mapIdx_eq_mapIdx_iff.2 fun i hi => by rw [← Wg.thread_getElem w i hi]; exact h i

end Sys2Proof.Machine
namespace Sys2Proof.Claims
open Sys2Proof.Machine

section
variable {s : State} {c : Ctx} (h : Issues s c)
include h

/-- A program instruction does to the state what its meaning makes of the machine in which the group stands. -/
theorem exec_withM {i : Instr} {f : Clock → Ctx → Mach} {m : Mach} (he : exec i s = s.group f) (hf : f s.clk c = m) :
    exec i s = .next (withM s m) := by rw [he, State.group_next s f h, hf]; rfl
theorem atWg_setWg (f : Wg → Wg) : c.m.atWg c f = s.m.setWg c.core c.slot (f c.wg) := by
  rw [Mach.ctx?_m h, Mach.atWg_eq f (Mach.ctx?_wg h)]
omit h in
/-- A second change of the group's workgroup. -/
theorem setWg_atWg (w : Wg) (f : Wg → Wg) : (s.m.setWg c.core c.slot w).atWg c f = s.m.setWg c.core c.slot (f w) := by
  rw [Mach.atWg_eq f (Mach.setWg_wg? ..), Mach.setWg_setWg]

/-! ## The active threads change, and the group goes on -/

theorem retireWith_each (f : Thread → Thread) : c.retireWith c.m f = s.m.setWg c.core c.slot (each c f) := by
  rw [Ctx.retireWith, atWg_setWg h, each_eq c f (act_sub h)]
theorem modThreads_each : c.wg.modThreads c.ig.threads (·.advance c.len) = each c id := by
  rw [each, Wg.modThreads]
  congr 1
  refine Wg.mapIdx_threads_congr fun i => ?_
  by_cases ha : c.act.contains i = true
  · rw [if_pos ha, if_pos (act_sub h i ha), id]
  · rw [if_neg ha]
theorem retire_each : c.retire c.m = s.m.setWg c.core c.slot (each c id) := by
  rw [Ctx.retire, atWg_setWg h, modThreads_each h]

/-! ## The active threads leave their block -/

omit h in
theorem modThreads_out (f : Thread → Thread) : (each c id).modThreads c.act (fun t => f { t with blk := none }) = out c f := by
  rw [each, out, Wg.modThreads, List.mapIdx_mapIdx]
  congr 1
  refine Wg.mapIdx_threads_congr fun i => ?_
  by_cases ha : c.act.contains i = true
  · simp only [Function.comp, ha, if_true, id]
  · simp only [Function.comp, ha, Bool.false_eq_true, if_false]
theorem retireOut_out (f : Thread → Thread) : c.retireOut c.m f = s.m.setWg c.core c.slot (out c f) := by
  rw [Ctx.retireOut, retire_each h, setWg_atWg, modThreads_out]
/-- A sleep of no time only goes on; another puts the active threads to sleep, out of their fused group (R127, R159). -/
theorem sleepFor_zero : c.sleepFor s.clk 0 = s.m.setWg c.core c.slot (out c id) := by
  rw [Ctx.sleepFor, if_pos rfl, retireOut_out h]
theorem sleepFor_pos {n : Nat} (hn : 0 < n) : c.sleepFor s.clk n =
    s.m.setWg c.core c.slot ((out c (fun t => { t with status := .asleep (s.clk.time + n) })).unfuse c.act) := by
  rw [Ctx.sleepFor, if_neg (Nat.ne_of_gt hn), retireOut_out h, setWg_atWg]

end
end Sys2Proof.Claims
end

section
open Sys2Proof Sys2Proof.Machine Sys2Proof.Claims

/-- Settles O13: what each instruction does to its active threads; `regroup` and a sleep take them out of their fused group. -/
theorem threadControl : Obligations.ThreadControl := by
  intro s c h
  refine ⟨exec_withM h (exec_nop s) (retire_each h), ?exit, exec_withM h (exec_yield s) (retireOut_out h _),
    exec_withM h (exec_sleep 0 s) (sleepFor_zero h), fun n hn => exec_withM h (exec_sleep n s) (sleepFor_pos h hn), fun k hk => ?sleepReg,
    fun k hk => ?sleepRegZero, fun v g => ?regroup⟩
  case exit => exact exec_withM h (exec_exit s) (by rw [retireWith_each h, setWg_atWg]; rfl)
  case sleepReg =>
    have hpos : 0 < ((lead c).getK k).toNat := Nat.pos_of_ne_zero fun e => hk (BitVec.eq_of_toNat_eq e)
    exact exec_withM h (exec_sleepReg k s) (sleepFor_pos h (n := min ((lead c).getK k).toNat (2 ^ 32 - 1)) (by omega))
  case sleepRegZero =>
    have hzero : min (c.leadK k) 4294967295 = 0 := by rw [show c.leadK k = 0 from congrArg BitVec.toNat hk]; rfl
    exact exec_withM h (exec_sleepReg k s) (by rw [hzero, sleepFor_zero h])
  case regroup => exact exec_withM h (exec_regroup v g s) (by rw [retireOut_out h, setWg_atWg])
end

section
open Sys2Proof Sys2Proof.Machine Sys2Proof.Claims

/-- Settles O14: with no active thread the group goes on; else the active threads trap. -/
theorem trapAndBreakpoint : Obligations.TrapAndBreakpoint := by
  intro x s c h
  have goesOn (hact : c.act = []) (cause : Nat) :
      (if c.act.isEmpty then c.retire c.m else c.trapAct s.clk c.m cause x c.ig.pc) = s.m.setWg c.core c.slot (each c id) := by
    rw [if_pos (List.isEmpty_iff.2 hact), retire_each h]
  have traps (hact : c.act ≠ []) (cause : Nat) :
      (if c.act.isEmpty then c.retire c.m else c.trapAct s.clk c.m cause x c.ig.pc) = c.trapAct s.clk s.m cause x c.ig.pc := by
    rw [if_neg (mt List.isEmpty_iff.1 hact), Mach.ctx?_m h]
  exact ⟨fun hact => ⟨exec_withM h (exec_trap x s) (traps hact 9), exec_withM h (exec_brkpt x s) (traps hact 10)⟩,
    fun hact => ⟨exec_withM h (exec_trap x s) (goesOn hact 9), exec_withM h (exec_brkpt x s) (goesOn hact 10)⟩⟩
end

section
/-! SUPPORT. Special registers (R132 to R135): what a reading writes, form by form, and a write outside a handler. -/
namespace Sys2Proof.Machine

theorem exec_srd_v (d n : Nat) (s : State) : exec (.srd 0 d n) s =
    s.group (fun clk c => c.retireWith c.m (fun t => t.setV d (BitVec.ofNat 32 (c.srValue clk t n)))) := rfl
theorem exec_srd_pair (d n : Nat) (s : State) : exec (.srd 1 d n) s =
    s.group (fun clk c => c.retireWith c.m (fun t => t.setVV d (BitVec.ofNat 64 (c.srValue clk t n)))) := rfl
theorem exec_srd_k (d n : Nat) (s : State) : exec (.srd 2 d n) s =
    s.group (fun clk c => c.retireWith c.m (fun t => t.setK d (BitVec.ofNat 64 (c.srValue clk c.leaderT n)))) := rfl
theorem exec_srd_a (d n : Nat) (s : State) : exec (.srd 3 d n) s =
    s.group (fun clk c => c.retireWith c.m (fun t => t.setA d (BitVec.ofNat 80 (c.srValue clk t n)))) := rfl
/-- The number a form of `swr` takes from a thread (R132). -/
def Ctx.swrSource (c : Ctx) (form a : Nat) (t : Thread) : Nat :=
  match form with | 0 => (t.getV a).toNat | 1 => (t.getVV a).toNat | 2 => c.leadK a | _ => (t.getA a).toNat
theorem exec_swr (form a n : Nat) (s : State) : exec (.swr form a n) s = s.group (fun clk c =>
    if 11 ≤ n ∧ c.act.any (fun i => !(c.wg.thread i).trapH) then c.trapAct clk c.m 1 0 c.ig.pc
    else c.retireWith c.m (fun t => t.swr n (c.swrSource form a t))) := rfl

/-- Some active thread stands outside its handler. -/
theorem Ctx.any_outside_iff (c : Ctx) : c.act.any (fun i => !(c.wg.thread i).trapH) = true ↔ ∃ j ∈ c.act, (c.wg.thread j).trapH = false := by
  simp
theorem Ctx.not_any_outside_iff (c : Ctx) : ¬c.act.any (fun i => !(c.wg.thread i).trapH) = true ↔ ∀ j ∈ c.act, (c.wg.thread j).trapH = true := by
  simp
/-- `sr.trapstate` (R134). -/
theorem bit_add_two_bit (x y : Bool) : bit x + 2 * bit y = (if x then 1 else 0) + (if y then 2 else 0) := by
  cases x <;> cases y <;> rfl

end Sys2Proof.Machine
namespace Sys2Proof.Claims
open Sys2Proof.Machine

theorem leaderT_eq_lead (c : Ctx) : c.leaderT = lead c := rfl
theorem retireK_each {s : State} {c : Ctx} (h : Issues s c) (k x : Nat) :
    c.retireK c.m k x = s.m.setWg c.core c.slot (each c (fun t => t.setK k (BitVec.ofNat 64 x))) := retireWith_each h _

end Sys2Proof.Claims
end

section
open Sys2Proof Sys2Proof.Machine Sys2Proof.Claims

/-- Settles O16: a reading is `Ctx.srValue` in the form's own register, a write is `Thread.swr`. -/
theorem specialRegisters : Obligations.SpecialRegisters := by
  intro s c h value
  have hvalue {n : Nat} (hn : n < 20) (t : Thread) : c.srValue s.clk t n = value t n := by
    simp only [Ctx.srValue, Mach.ctx?_m h, bit_add_two_bit]
    match n, hn with
    | 0, _ | 1, _ | 2, _ | 3, _ | 4, _ | 5, _ | 6, _ | 7, _ | 8, _ | 9, _ | 10, _ | 11, _ | 12, _ | 13, _ | 14, _ | 15, _ | 16, _ | 17, _ | 18, _
    | 19, _ => rfl
    | n + 20, hn => omega
  refine ⟨fun d n hn => ⟨exec_withM h (exec_srd_v d n s) ?_, exec_withM h (exec_srd_pair d n s) ?_, exec_withM h (exec_srd_k d n s) ?_,
    exec_withM h (exec_srd_a d n s) ?_⟩, fun form a n _ hn hin => exec_withM h (exec_swr form a n s) ?swr,
    fun form a n hn hout => exec_withM h (exec_swr form a n s) ?outside, fun k => exec_withM h (exec_clock k s) ?clock,
    fun k => exec_withM h (exec_clockTime k s) ?clockTime⟩
  case swr =>
    have hallowed : ¬(11 ≤ n ∧ c.act.any (fun i => !(c.wg.thread i).trapH) = true) :=
      fun ⟨hhandler, hany⟩ => c.not_any_outside_iff.2 (hin hhandler) hany
    rw [if_neg hallowed, retireWith_each h]
    rcases hn with rfl | rfl | rfl | rfl | rfl | rfl | rfl <;> rfl
  case outside => rw [if_pos ⟨hn, c.any_outside_iff.2 hout⟩, Mach.ctx?_m h]
  case clock =>
    rw [hvalue (by decide), retireK_each h]
    simp only [value, ofNat_mod_two_pow]
  case clockTime =>
    rw [hvalue (by decide), retireK_each h]
    simp only [value, ofNat_mod_two_pow]
  all_goals simp only [retireWith_each h, leaderT_eq_lead, hvalue hn]
end

section
/-! SUPPORT. Sorting by a key: the same elements, the least first. -/
namespace Sys2Proof.Machine

section
variable {α : Type} {key : α → Nat} {x y : α} {xs : List α}

theorem mem_insertBy' : y ∈ sortBy.insertBy' key x xs ↔ y = x ∨ y ∈ xs := by
  induction xs with
  | nil => simp [sortBy.insertBy']
  | cons z xs ih =>
    rw [sortBy.insertBy']
    split
    · rw [List.mem_cons]
    · rw [List.mem_cons, ih, List.mem_cons, or_left_comm]
theorem mem_sortBy : y ∈ sortBy key xs ↔ y ∈ xs := by
  induction xs with
  | nil => rfl
  | cons x xs ih => rw [sortBy, mem_insertBy', ih, List.mem_cons]
theorem pairwise_insertBy' (h : xs.Pairwise (key · ≤ key ·)) : (sortBy.insertBy' key x xs).Pairwise (key · ≤ key ·) := by
  induction xs with
  | nil => simp [sortBy.insertBy']
  | cons z xs ih =>
    obtain ⟨hz, hxs⟩ := List.pairwise_cons.1 h
    rw [sortBy.insertBy']
    split
    next hle => exact List.pairwise_cons.2 ⟨fun y hy => (List.mem_cons.1 hy).elim (fun e => e ▸ hle) fun hy => Nat.le_trans hle (hz y hy), h⟩
    next hlt => exact List.pairwise_cons.2 ⟨fun y hy => (mem_insertBy'.1 hy).elim (fun e => e ▸ by omega) (hz y), ih hxs⟩
theorem pairwise_sortBy (key : α → Nat) (xs : List α) : (sortBy key xs).Pairwise (key · ≤ key ·) := by
  induction xs with
  | nil => exact List.Pairwise.nil
  | cons x xs ih => exact pairwise_insertBy' ih
theorem sortBy_singleton (key : α → Nat) (x : α) : sortBy key [x] = [x] := rfl

/-- The first that `p` takes of a sorted list is the one of least key among those it takes. -/
theorem find?_sortBy_least {p : α → Bool} (hx : x ∈ xs) (hp : p x = true) (hleast : ∀ y ∈ xs, p y = true → y = x ∨ key x < key y) :
    (sortBy key xs).find? p = some x := by
  obtain ⟨y, hy⟩ := Option.isSome_iff_exists.1 (List.find?_isSome.2 ⟨x, (mem_sortBy (key := key)).2 hx, hp⟩)
  obtain ⟨hpy, as, bs, hsplit, hbefore⟩ := List.find?_eq_some_iff_append.1 hy
  have hyxs : y ∈ xs := mem_sortBy.1 (List.mem_of_find?_eq_some hy)
  rcases hleast y hyxs hpy with rfl | hlt
  · exact hy
  have hsorted := pairwise_sortBy key xs
  have hmem : x ∈ sortBy key xs := mem_sortBy.2 hx
  rw [hsplit] at hsorted hmem
  rcases List.mem_append.1 hmem with has | hbs
  · exact absurd hp (by simpa using hbefore x has)
  · rcases List.mem_cons.1 hbs with rfl | hbs
    · exact absurd hlt (Nat.lt_irrefl _)
    · obtain ⟨-, hfrom, -⟩ := List.pairwise_append.1 hsorted
      exact absurd hlt (Nat.not_lt.2 (List.rel_of_pairwise_cons hfrom hbs))
end

end Sys2Proof.Machine
end

section
/-! SUPPORT. Transfers (R123): the check of the targets, and where the group's threads then stand. A target is given by the thread's own
registers, as `goes` has it. -/
namespace Sys2Proof.Claims
open Sys2Proof.Machine

/-- A thread at its target, its block ended (R34). -/
def goTo (t : Thread) (a : Addr) : Thread := { t with pc := a, blk := none, since := none }
/-- A thread's target as the model numbers it. -/
def targetOf (c : Ctx) (tgt : Thread → Option Addr) (j : Nat) : Option Nat := (tgt (c.wg.thread j)).map BitVec.toNat

/-! ## The check of the targets (R13) -/

theorem badTarget_eq (c : Ctx) (tgt : Nat → Option Nat) : c.badTarget tgt =
    ((sortBy (fun i => (c.wg.thread i).lane) c.act).find? (fun i => (tgt i).any (fun a => a % 8 != 0))).bind
      (fun i => (tgt i).map (fun a => ((c.wg.thread i).lane, a))) := by
  rw [Ctx.badTarget, List.find?_filterMap]
  simp only [Option.any_map]
/-- A thread's target is misaligned. -/
theorem any_targetOf {c : Ctx} {tgt : Thread → Option Addr} {j : Nat} :
    (targetOf c tgt j).any (fun a => a % 8 != 0) = true ↔ ∃ a, tgt (c.wg.thread j) = some a ∧ a.toNat % 8 ≠ 0 := by
  cases htgt : tgt (c.wg.thread j) <;> simp [targetOf, htgt]
theorem badTarget_none {c : Ctx} {tgt : Thread → Option Addr} (h : Aligned c tgt) : c.badTarget (targetOf c tgt) = none := by
  rw [badTarget_eq, List.find?_eq_none.2, Option.bind_none]
  intro j hj hbad
  obtain ⟨a, ha, hmis⟩ := any_targetOf.1 hbad
  exact hmis (h j (mem_sortBy.1 hj) a ha)
theorem badTarget_first {c : Ctx} {tgt : Thread → Option Addr} {j : Nat} {a : Addr} (h : FirstMisaligned c tgt j a) :
    c.badTarget (targetOf c tgt) = some ((c.wg.thread j).lane, a.toNat) := by
  obtain ⟨hj, ha, hmis, hleast⟩ := h
  rw [badTarget_eq, find?_sortBy_least hj (any_targetOf.2 ⟨a, ha, hmis⟩), Option.bind_some, targetOf, ha]
  · rfl
  · intro i hi hbad
    obtain ⟨b, hb, hbmis⟩ := any_targetOf.1 hbad
    exact hleast i hi b hb hbmis

/-! ## The transfer -/

section
variable {s : State} {c : Ctx} (h : Issues s c) {tgt : Thread → Option Addr} {upd : Nat → Thread → Thread} {f : Thread → Thread}
include h

/-- Where the threads go it is enough that they differ in nothing that `goTo` sets. -/
theorem go_goes (hf : ∀ j ∈ c.act, ∀ a, goTo (upd j (c.wg.thread j)) a = goTo (f (c.wg.thread j)) a) :
    c.go c.m (targetOf c tgt) upd = s.m.setWg c.core c.slot (goes c tgt f) := by
  rw [Ctx.go, atWg_setWg h, goes]
  congr 3
  refine Wg.mapIdx_threads_congr fun i => ?_
  by_cases ha : c.act.contains i = true
  · simp only [act_sub h i ha, ha, Bool.not_true, Bool.false_eq_true, if_false, if_true, targetOf]
    cases tgt (c.wg.thread i) with
    | none => rfl
    | some a =>
      simp only [Option.map_some, ofNat_toNat_self]
      exact hf i (List.contains_iff_mem.1 ha) a
  · rw [if_neg ha, if_neg ha]
    cases c.ig.threads.contains i <;> rfl
theorem transfer_aligned (ha : Aligned c tgt) (hf : ∀ j ∈ c.act, ∀ a, goTo (upd j (c.wg.thread j)) a = goTo (f (c.wg.thread j)) a) :
    c.transfer s.clk c.m (targetOf c tgt) upd = s.m.setWg c.core c.slot (goes c tgt f) := by
  rw [Ctx.transfer, badTarget_none ha]
  exact go_goes h hf
theorem transfer_misaligned {j : Nat} {a : Addr} (hj : FirstMisaligned c tgt j a) :
    c.transfer s.clk c.m (targetOf c tgt) upd = c.trapAct s.clk s.m 3 (c.wg.thread j).lane a := by
  simp only [Ctx.transfer, badTarget_first hj, ofNat_toNat_self, Mach.ctx?_m h]
end

/-! ## Branches and jumps -/

/-- The instruction is a transfer to these targets that changes nothing else of the threads that go. -/
def TransfersTo (i : Instr) (tgt : Ctx → Thread → Option Addr) : Prop :=
  ∃ n : Ctx → Nat → Option Nat, (∀ c, n c = targetOf c (tgt c)) ∧
    ∀ s, exec i s = s.group (fun clk c => c.transfer clk c.m (n c) (fun _ t => t))

theorem targetOf_ite (c : Ctx) (p : Thread → Prop) [DecidablePred p] (a : Addr) (j : Nat) :
    targetOf c (fun t => if p t then some a else none) j = if p (c.wg.thread j) then some a.toNat else none := by
  simp only [targetOf, apply_ite (Option.map BitVec.toNat), Option.map_some, Option.map_none]

section
variable (r : Nat) (off : Int)

theorem transfersTo_bra : TransfersTo (.bra off) (fun c _ => some (rel c off)) := ⟨_, fun _ => rfl, exec_bra off⟩
theorem transfersTo_brc (inv : Bool) : TransfersTo (.brc r inv off) (fun c t => if t.getP r != inv then some (rel c off) else none) :=
  ⟨_, fun c => funext fun j => (targetOf_ite c (fun t => (t.getP r != inv) = true) (rel c off) j).symm, exec_brc r inv off⟩
theorem transfersTo_brkNz : TransfersTo (.brkNz r off) (fun c _ => if (lead c).getK r ≠ 0 then some (rel c off) else none) := by
  refine ⟨_, fun c => funext fun j => ?_, exec_brkNz r off⟩
  rw [targetOf_ite c (fun _ => (lead c).getK r ≠ 0)]
  simp only [leaderT_eq_lead, beq_true, bne_iff_ne]
  rfl
theorem transfersTo_brkZ : TransfersTo (.brkZ r off) (fun c _ => if (lead c).getK r = 0 then some (rel c off) else none) := by
  refine ⟨_, fun c => funext fun j => ?_, exec_brkZ r off⟩
  rw [targetOf_ite c (fun _ => (lead c).getK r = 0)]
  simp only [leaderT_eq_lead, beq_false, Bool.not_eq_true', bne_eq_false_iff_eq]
  rfl
theorem transfersTo_jmp : TransfersTo (.jmp r off) (fun _ t => some (relA r off t)) := ⟨_, fun _ => rfl, exec_jmp r off⟩
end

section
variable {i : Instr} {tgt : Ctx → Thread → Option Addr} (hi : TransfersTo i tgt)
include hi

theorem TransfersTo.transfers : Transfers i tgt := by
  obtain ⟨n, hn, he⟩ := hi
  intro s c h ha
  exact exec_withM h (he s) (by rw [hn]; exact transfer_aligned h ha fun _ _ _ => rfl)
theorem TransfersTo.misaligned {s : State} {c : Ctx} {j : Nat} {a : Addr} (h : Issues s c) (hj : FirstMisaligned c (tgt c) j a) :
    exec i s = .next (withM s (c.trapAct s.clk s.m 3 (c.wg.thread j).lane a)) := by
  obtain ⟨n, hn, he⟩ := hi
  exact exec_withM h (he s) (by rw [hn]; exact transfer_misaligned h hj)
end

end Sys2Proof.Claims
end

section
/-! SUPPORT. Calls and returns (R18, R19): the entries held on chip, and the trap of a push or pop that has no place. -/
namespace Sys2Proof.Claims
open Sys2Proof.Machine

theorem push_of_room {t : Thread} (a : Addr) (ht : t.rs.length < 16) : t.push a = { t with rs := a :: t.rs } := by
  rw [Thread.push, if_pos ht]
theorem pop_of_held {t : Thread} (ht : t.rs ≠ []) : t.pop = { t with rs := t.rs.tail } := by
  rw [Thread.pop, if_neg (mt List.isEmpty_iff.1 ht), List.drop_one]

section
variable {s : State} {c : Ctx} (h : Issues s c) (hact : c.act ≠ []) {tgt : Thread → Addr}
include h hact

theorem call_misaligned {j : Nat} {a : Addr} (hj : FirstMisaligned c (fun t => some (tgt t)) j a) :
    c.call s.clk (fun i => (tgt (c.wg.thread i)).toNat) = c.trapAct s.clk s.m 3 (c.wg.thread j).lane a := by
  have hbad : c.badTarget (fun i => some (tgt (c.wg.thread i)).toNat) = some ((c.wg.thread j).lane, a.toNat) := badTarget_first hj
  simp only [Ctx.call, List.isEmpty_iff, hact, if_false, hbad, ofNat_toNat_self, Mach.ctx?_m h]
theorem call_held (ha : Aligned c (fun t => some (tgt t))) (hroom : ∀ j ∈ c.act, (c.wg.thread j).rs.length < 16) :
    c.call s.clk (fun i => (tgt (c.wg.thread i)).toNat) =
      s.m.setWg c.core c.slot (goes c (fun t => some (tgt t)) (fun t => { t with rs := (c.ig.pc + BitVec.ofNat 80 c.len) :: t.rs })) := by
  have hbad : c.badTarget (fun i => some (tgt (c.wg.thread i)).toNat) = none := badTarget_none ha
  have hspill : c.act.filter (fun i => decide (16 ≤ (c.wg.thread i).rs.length)) = [] :=
    List.filter_eq_nil_iff.2 fun j hj => by simpa using hroom j hj
  simp only [Ctx.call, List.isEmpty_iff, hact, if_false, hbad, hspill, sortBy, List.find?_nil, if_true]
  refine go_goes h (tgt := fun t => some (tgt t)) fun j hj a => ?_
  exact congrArg (goTo · a) (push_of_room _ (hroom j hj))
/-- A push with no place for the oldest entry (R19). -/
theorem call_noSpill {j : Nat} (hone : c.act = [j]) (ha : Aligned c (fun t => some (tgt t))) (hfull : 16 ≤ (c.wg.thread j).rs.length)
    (hpriv : c.wg.hdr.priv = 0) : c.call s.clk (fun i => (tgt (c.wg.thread i)).toNat) =
      c.trapAct s.clk s.m 14 0 (BitVec.ofNat 80 (c.wg.thread j).spillAt) := by
  have hbad : c.badTarget (fun i => some (tgt (c.wg.thread i)).toNat) = none := badTarget_none ha
  have hfind : (sortBy (fun i => (c.wg.thread i).lane) (c.act.filter (fun i => decide (16 ≤ (c.wg.thread i).rs.length)))).find?
      (fun i => c.wg.hdr.priv == 0 || decide (4096 ≤ (c.wg.thread i).rsspill)) = some j := by
    simp [hone, hfull, hpriv, sortBy_singleton]
  simp only [Ctx.call, List.isEmpty_iff, hact, if_false, hbad, hfind, Mach.ctx?_m h]
theorem ret_held (hheld : ∀ j ∈ c.act, (c.wg.thread j).rs ≠ []) (ha : Aligned c (fun t => t.rs.head?)) :
    c.ret s.clk = s.m.setWg c.core c.slot (goes c (fun t => some (t.rs.headD 0)) (fun t => { t with rs := t.rs.tail })) := by
  have hempty : c.act.filter (fun i => (c.wg.thread i).rs.isEmpty) = [] :=
    List.filter_eq_nil_iff.2 fun j hj => by simpa using hheld j hj
  have ha' : Aligned c (fun t => some (t.rs.headD 0)) := by
    intro j hj a hja
    obtain ⟨b, rest, hrs⟩ := List.exists_cons_of_ne_nil (hheld j hj)
    exact ha j hj a (by simpa [hrs] using hja)
  simp only [Ctx.ret, List.isEmpty_iff, hact, if_false, hempty, sortBy, List.find?_nil, if_true]
  refine transfer_aligned h (tgt := fun t => some (t.rs.headD 0)) ha' fun j hj a => ?_
  exact congrArg (goTo · a) (pop_of_held (hheld j hj))
/-- A pop of an empty stack with nothing spilled (R19); the address is the model's choice (log 93). -/
theorem ret_empty {j : Nat} (hone : c.act = [j]) (hrs : (c.wg.thread j).rs = []) (hnone : c.wg.hdr.priv = 0 ∨ (c.wg.thread j).rsspill = 0) :
    c.ret s.clk = c.trapAct s.clk s.m 14 0 (BitVec.ofNat 80 (c.wg.thread j).refillAt) := by
  have hfind : (sortBy (fun i => (c.wg.thread i).lane) (c.act.filter (fun i => (c.wg.thread i).rs.isEmpty))).find?
      (fun i => c.wg.hdr.priv == 0 || (c.wg.thread i).rsspill == 0) = some j := by
    rw [hone, List.filter_cons_of_pos (by rw [hrs]; rfl), List.filter_nil, sortBy_singleton]
    exact List.find?_cons_of_pos (by simpa using hnone)
  simp only [Ctx.ret, List.isEmpty_iff, hact, if_false, hfind, Mach.ctx?_m h]
end

end Sys2Proof.Claims
end

section
open Sys2Proof Sys2Proof.Machine Sys2Proof.Claims

/-- Each branch and the jump is a transfer to its targets. -/
theorem branches : Branches := fun off r =>
  ⟨(transfersTo_bra off).transfers, fun inv => (transfersTo_brc r off inv).transfers, (transfersTo_brkNz r off).transfers,
    (transfersTo_brkZ r off).transfers, (transfersTo_jmp r off).transfers⟩

/-- The check of the targets comes first in every transfer, and before the push of a call. -/
theorem misalignedTransfersTrap : MisalignedTransfersTrap := by
  intro i off r tgt hi s c j a h hj
  have hact : c.act ≠ [] := List.ne_nil_of_mem hj.1
  rcases hi with ⟨rfl, rfl⟩ | ⟨inv, rfl, rfl⟩ | ⟨rfl, rfl⟩ | ⟨rfl, rfl⟩ | ⟨rfl, rfl⟩ | ⟨rfl, rfl⟩ | ⟨rfl, rfl⟩
  · exact (transfersTo_bra off).misaligned h hj
  · exact (transfersTo_brc r off inv).misaligned h hj
  · exact (transfersTo_brkNz r off).misaligned h hj
  · exact (transfersTo_brkZ r off).misaligned h hj
  · exact (transfersTo_jmp r off).misaligned h hj
  · exact exec_withM h (exec_call off s) (call_misaligned h hact (tgt := fun _ => rel c off) hj)
  · exact exec_withM h (exec_callr r off s) (call_misaligned h hact (tgt := relA r off) hj)

/-- A push or pop of entries held on chip, and the trap where none is held and none can be. -/
theorem callAndReturn : CallAndReturn := by
  intro off r s c h hact
  have aligned (ha : (rel c off).toNat % 8 = 0) : Aligned c (fun _ => some (rel c off)) := fun _ _ a e => Option.some.inj e ▸ ha
  refine ⟨fun hroom ha => exec_withM h (exec_call off s) (call_held h hact (tgt := fun _ => rel c off) (aligned ha) hroom),
    fun hroom ha => exec_withM h (exec_callr r off s) (call_held h hact (tgt := relA r off) ha hroom),
    fun hheld ha => exec_withM h (exec_ret s) (ret_held h hact hheld ha),
    fun j hone hrs hnone => exec_withM h (exec_ret s) (ret_empty h hact hone hrs hnone),
    fun j hone hfull hpriv ha => exec_withM h (exec_call off s) (call_noSpill h hact (tgt := fun _ => rel c off) hone (aligned ha) hfull hpriv)⟩

/-- Settles O12: transfers to given targets, and the return stack of a call and of `ret`. The address of a pop of an empty stack's trap
is the model's choice (log 93). -/
theorem controlTransfers : Obligations.ControlTransfers := ⟨branches, misalignedTransfersTrap, callAndReturn⟩
end

section
/-! SUPPORT. Taking a trap (R130, R372) and returning from a handler (R131, R35). -/
namespace Sys2Proof.Machine

/-! ## Taking a trap -/

section
variable {m : Mach} {clk : Clock} {core slot cause info : Nat} {w : Wg} {ts : List Nat} {addr : Addr} {long : Bool} (hw : m.wg? core slot = some w)
include hw

theorem Mach.takeTrap_handled (hh : w.hdr.handler ≠ 0) (hout : ∀ i ∈ ts, (w.thread i).trapH = false) :
    m.takeTrap clk core slot ts cause info addr long =
      m.setWg core slot (w.modThreads ts (fun t => t.enterHandler w.hdr.handler cause info addr long)).splitFused := by
  have hlost : ts.filter (fun i => (w.hdr.handler == 0) || (w.thread i).trapH) = [] :=
    List.filter_eq_nil_iff.2 fun i hi => by rw [hout i hi, beq_eq_false_iff_ne.2 hh]; decide
  have hall : ts.filter (fun i => !([] : List Nat).contains i) = ts := List.filter_eq_self.2 fun _ _ => rfl
  simp only [Mach.takeTrap, hw, hlost, hall]
/-- A trap that a thread of a launch still alive cannot handle ends with the launch killed. -/
theorem Mach.takeTrap_lost (hlost : ∃ i ∈ ts, w.hdr.handler = 0 ∨ (w.thread i).trapH = true) (halive : m.launchKilled w.vf w.launch = false) :
    ∃ m', m.takeTrap clk core slot ts cause info addr long = Mach.killLaunch m' w.vf w.launch := by
  obtain ⟨i, hi, hno⟩ := hlost
  have hmem : i ∈ ts.filter (fun i => (w.hdr.handler == 0) || (w.thread i).trapH) := List.mem_filter.2 ⟨hi, by simpa using hno⟩
  obtain ⟨j, rest, hcons⟩ := List.exists_cons_of_ne_nil (List.ne_nil_of_mem hmem)
  simp only [Mach.takeTrap, hw, hcons, halive, Bool.false_eq_true, if_false]
  exact ⟨_, rfl⟩
end
/-- A killed launch has no workgroup left that is neither ending nor killed (R372). -/
theorem Mach.killed_of_mem_killLaunch {m : Mach} {vf launch k : Nat} {w : Wg} (hw : (k, w) ∈ (m.killLaunch vf launch).wgs) (hend : w.ending = false)
    (hvf : w.vf = vf) (hlaunch : w.launch = launch) : w.killed = true ∧ ∀ t ∈ w.threads, t.status = .exited := by
  obtain ⟨e, -, he⟩ := List.mem_map.1 hw
  by_cases hmine : e.2.vf = vf ∧ e.2.launch = launch ∧ e.2.ending = false
  · rw [if_pos hmine] at he
    obtain ⟨-, rfl⟩ := Prod.mk.inj he
    refine ⟨rfl, fun t ht => ?_⟩
    obtain ⟨u, -, rfl⟩ := List.mem_map.1 ht
    rfl
  · rw [if_neg hmine] at he
    subst he
    exact absurd ⟨hvf, hlaunch, hend⟩ hmine

/-! ## Returning from a handler -/

/-- The fields of `sr.pblk` (R35). -/
theorem pblk_slot (x : BitVec 16) : (x >>> 8).toNat % 16 = (x.extractLsb' 8 4).toNat := by
  rw [BitVec.extractLsb'_toNat, BitVec.toNat_ushiftRight]
theorem pblk_count (x : BitVec 16) : (x >>> 12).toNat % 8 = (x.extractLsb' 12 3).toNat := by
  rw [BitVec.extractLsb'_toNat, BitVec.toNat_ushiftRight]
theorem pblk_guards (x : BitVec 16) : x.truncate 8 = x.extractLsb' 0 8 := by
  apply BitVec.eq_of_toNat_eq
  rw [BitVec.extractLsb'_toNat, BitVec.truncate_eq_setWidth, BitVec.toNat_setWidth, Nat.shiftRight_zero]

end Sys2Proof.Machine
namespace Sys2Proof.Claims
open Sys2Proof.Machine

/-- A valid `sr.pblk` is left to be re-entered, one slot on with a skip (R35). -/
theorem goTo_leaveHandler_of_valid {t : Thread} (skip : Bool) (a : Addr) (hvalid : t.pblk.getLsbD 15 = true) :
    goTo (t.leaveHandler skip) a =
      let slot := (if skip then (t.pblk.extractLsb' 8 4).toNat + 1 else (t.pblk.extractLsb' 8 4).toNat) % 16
      goTo { t with trapH := false, pblk := pblkWord false (t.pblk.extractLsb' 12 3).toNat slot (t.pblk.extractLsb' 0 8),
                    reenter := some ((t.pblk.extractLsb' 12 3).toNat, slot, t.pblk.extractLsb' 0 8) } a := by
  have hslot : (t.pblk.extractLsb' 8 4).toNat % 16 = (t.pblk.extractLsb' 8 4).toNat := Nat.mod_eq_of_lt (t.pblk.extractLsb' 8 4).isLt
  simp only [Thread.leaveHandler, hvalid, pblk_slot, pblk_count, pblk_guards]
  cases skip with
  | true => rfl
  | false => simp only [Bool.false_and, Bool.false_eq_true, if_false, if_true, hslot]; rfl
/-- Without one the trapped instruction is re-executed, or skipped (R131). -/
theorem goTo_leaveHandler_of_not_valid {t : Thread} (skip : Bool) (a : Addr) (hvalid : t.pblk.getLsbD 15 = false) :
    goTo (t.leaveHandler skip) a = goTo { t with trapH := false, reenter := none, trappc := (t.leaveHandler skip).pc } a := by
  simp only [Thread.leaveHandler, hvalid]
  cases skip <;> rfl

section
variable {s : State} {c : Ctx} (h : Issues s c) (hact : c.act ≠ [])
include h hact

theorem trapretRun_outside (skip : Bool) (hout : ∃ j ∈ c.act, (c.wg.thread j).trapH = false) :
    trapretRun skip s.clk c = c.trapAct s.clk s.m 1 0 c.ig.pc := by
  rw [trapretRun, if_neg (mt List.isEmpty_iff.1 hact), if_pos (c.any_outside_iff.2 hout), Mach.ctx?_m h]
theorem trapretRun_inside (skip : Bool) (hin : ∀ j ∈ c.act, (c.wg.thread j).trapH = true) {tgt : Thread → Addr} {left : Thread → Thread}
    (ha : Aligned c (fun t => some (tgt t))) (hpc : ∀ t, (t.leaveHandler skip).pc = tgt t)
    (hleft : ∀ t a, goTo (t.leaveHandler skip) a = goTo (left t) a) :
    trapretRun skip s.clk c = s.m.setWg c.core c.slot (goes c (fun t => some (tgt t)) left) := by
  rw [trapretRun, if_neg (mt List.isEmpty_iff.1 hact), if_neg (c.not_any_outside_iff.2 hin)]
  simp only [hpc]
  exact transfer_aligned h ha fun j _ a => hleft (c.wg.thread j) a
end

end Sys2Proof.Claims
end

section
open Sys2Proof Sys2Proof.Machine Sys2Proof.Claims

/-- Every thread that traps has its handler entered, or one has none to enter and its launch is killed. -/
theorem takingATrap : TakingATrap := by
  intro s core slot w ts cause info addr long hw
  refine ⟨fun ⟨hh, hout⟩ => Mach.takeTrap_handled hw hh hout, fun hlost halive w' hend hvf hlaunch k hmem => ?_⟩
  obtain ⟨m', hkill⟩ := Mach.takeTrap_lost hw hlost halive
  rw [hkill] at hmem
  exact Mach.killed_of_mem_killLaunch hmem hend hvf hlaunch

/-- A return is a transfer to `sr.trappc`; a skip past slot 15 goes on at slot 0, which is the model's choice (log 95). -/
theorem trapReturn : TrapReturn := by
  intro s c h hact tgt left
  have hpc (skip : Bool) (t : Thread) : (t.leaveHandler skip).pc = tgt skip t := rfl
  have hleft (skip : Bool) (t : Thread) (a : Addr) : goTo (t.leaveHandler skip) a = goTo (left skip t) a := by
    cases hvalid : t.pblk.getLsbD 15 with
    | true => exact (goTo_leaveHandler_of_valid skip a hvalid).trans (congrArg (goTo · a) (if_pos hvalid).symm)
    | false => exact (goTo_leaveHandler_of_not_valid skip a hvalid).trans (congrArg (goTo · a) (if_neg (by rw [hvalid]; decide)).symm)
  refine ⟨fun hin skip ha => ?_, fun hout => ⟨exec_withM h (exec_trapret s) (trapretRun_outside h hact false hout),
    exec_withM h (exec_trapretSkip s) (trapretRun_outside h hact true hout)⟩⟩
  have hrun := trapretRun_inside h hact skip hin ha (hpc skip) (hleft skip)
  cases skip with
  | false => exact exec_withM h (exec_trapret s) hrun
  | true => exact exec_withM h (exec_trapretSkip s) hrun

/-- Settles O15: the traps' entry into a handler or the end of the launch, and the transfer out of a handler. Slot 15 followed by slot 0
is the model's choice (log 95). -/
theorem trapsAndReturns : Obligations.TrapsAndReturns := ⟨takingATrap, trapReturn⟩
end

section
/-! SUPPORT. Loads and stores on the issue group (R138 to R141, R147): the meaning each form shares, which threads go on outside an ordered
launch, and what Check answers. -/
namespace Sys2Proof.Machine

/-! ## What waits for held operations (R400) -/

/-- No thread of a launch that is not ordered waits for a held operation. -/
theorem Ctx.heldLate_unordered {c : Ctx} (ho : c.wg.hdr.ordered = false) (ordered : Bool) (accs : List Acc) : c.heldLate ordered accs = [] := by
  rw [Ctx.heldLate, ho]; rfl
theorem Ctx.pastHeld_nil (c : Ctx) (clk : Clock) (k : Ctx → Mach) : c.pastHeld clk [] k = k c := rfl
theorem MemRun.pastHeld_unordered {r : MemRun} (ho : r.c.wg.hdr.ordered = false) (ha : r.c.act ≠ []) (uniform ordered : Bool) (accs : List Acc)
    (k : MemRun → Mach) : r.pastHeld uniform ordered accs k = k r := by
  rw [MemRun.pastHeld, if_neg (mt List.isEmpty_iff.1 ha), Ctx.heldLate_unordered ho]
  cases uniform <;> exact ite_self (k r)
theorem Mach.bumpKeys_unordered {c : Ctx} (ho : c.wg.hdr.ordered = false) (m : Mach) (ts : List Nat) : m.bumpKeys c ts = m := by
  rw [Mach.bumpKeys, ho]; rfl

/-! ## Check (R147) -/

theorem MemRun.checked_ok {r : MemRun} {m m' : Mach} {align code : Nat} {ks : List Access} {accs : List Acc} {ps : List Part}
    {k : List Part → Mach → Mach} (hparts : m.partsOf r.c.core r.c.vf ks (sortBy (·.lane) accs) = (ps, m'))
    (hcheck : checkParts m' align (sortBy (·.lane) accs) ps = .ok ps) : r.checked m align ks code accs k = k ps m' := by
  simp only [MemRun.checked, hparts, hcheck]
/-- A misaligned address is found before anything else; the pages have been translated by then. -/
theorem MemRun.checked_misaligned {r : MemRun} {m : Mach} {align code : Nat} {ks : List Access} {accs : List Acc} {a : Acc}
    {k : List Part → Mach → Mach} (ha : (sortBy (·.lane) accs).find? (fun a => a.va % align != 0) = some a) :
    r.checked m align ks code accs k = r.trap (m.partsOf r.c.core r.c.vf ks (sortBy (·.lane) accs)).2 3 a.lane a.va := by
  simp only [MemRun.checked, checkParts, ha]
  rfl
/-- Aligned accesses to pages of this device pass. -/
theorem checkParts_ok {m : Mach} {align : Nat} {accs : List Acc} {ps : List Part} (ha : ∀ a ∈ accs, a.va % align = 0)
    (hp : ∀ p ∈ ps, ∃ pa kind, p.tr = .ok pa kind) : checkParts m align accs ps = .ok ps := by
  have aligned : accs.find? (fun a => a.va % align != 0) = none := List.find?_eq_none.2 fun a h => by simp [ha a h]
  have none_is (f : Trans → Bool) (hf : ∀ pa kind, f (.ok pa kind) = false) : ps.find? (fun p => f p.tr) = none :=
    List.find?_eq_none.2 fun p h => by obtain ⟨pa, kind, e⟩ := hp p h; simp [e, hf]
  have no_fault : ps.filter (fun p => p.tr == .noTranslation || p.tr == .discarded) = [] :=
    List.filter_eq_nil_iff.2 fun p h => by obtain ⟨pa, kind, e⟩ := hp p h; simp [e]
  have reached : ps.find? (fun p => match p.tr with | .remote d _ _ => d != m.devnum && m.unreachable d | _ => false) = none :=
    List.find?_eq_none.2 fun p h => by obtain ⟨pa, kind, e⟩ := hp p h; simp [e]
  simp only [checkParts, aligned, none_is (· == .channelPage) fun _ _ => rfl, none_is (· == .violation) fun _ _ => rfl, no_fault]
  split
  · next h => exact absurd (h.symm.trans reached) (by simp)
  · rfl

/-! ## Translation changes translation caches only (R211) -/

/-- `m'` is `m` but for what its cores hold. -/
def Mach.OnlyCores (m m' : Mach) : Prop := m' = { m with cores := m'.cores }
theorem Mach.OnlyCores.refl (m : Mach) : m.OnlyCores m := rfl
theorem Mach.OnlyCores.trans {m m' m'' : Mach} (h : m.OnlyCores m') (h' : m'.OnlyCores m'') : m.OnlyCores m'' := by
  unfold Mach.OnlyCores at *; rw [h', h]
theorem Mach.onlyCores_modCore (m : Mach) (core : Nat) (f : Core → Core) : m.OnlyCores (m.modCore core f) := rfl
theorem Mach.coreTranslate_onlyCores (m : Mach) (core vf va : Nat) (k : Access) : m.OnlyCores (m.coreTranslate core vf va k).2 := by
  have fresh : m.OnlyCores (match walk m vf va with
      | .leaf p _ => m.modCore core (fun c => { c with tlb := tset c.tlb (va / 65536) p })
      | .none_ => m) := by
    cases walk m vf va with
    | leaf p a => exact m.onlyCores_modCore core _
    | none_ => exact .refl m
  unfold Mach.coreTranslate
  cases tget (m.core core).tlb (va / 65536) with
  | none => exact fresh
  | some p =>
    dsimp only
    split
    · exact .refl m
    · exact .refl m
    · exact .refl m
    · exact fresh
theorem Mach.transAll_onlyCores (m : Mach) (core vf va : Nat) (ks : List Access) : m.OnlyCores (m.transAll core vf va ks).2 := by
  induction ks generalizing m with
  | nil => exact .refl m
  | cons k ks ih =>
    cases ks with
    | nil => exact m.coreTranslate_onlyCores core vf va k
    | cons k' ks => exact (m.coreTranslate_onlyCores core vf va k).trans (ih _)
theorem Mach.partsOf_onlyCores (m : Mach) (core vf : Nat) (ks : List Access) (accs : List Acc) : m.OnlyCores (m.partsOf core vf ks accs).2 := by
  have pages (a : Acc) (pages : List (Nat × Nat)) (x : List Part × Mach) : x.2.OnlyCores (pages.foldl (fun (s : List Part × Mach) (p : Nat × Nat) =>
      (s.1 ++ [Part.mk a.thread a.lane p.1 p.2 (s.2.transAll core vf p.1 ks).1], (s.2.transAll core vf p.1 ks).2)) x).2 := by
    induction pages generalizing x with
    | nil => exact .refl _
    | cons p pages ih => exact (x.2.transAll_onlyCores core vf p.1 ks).trans (ih _)
  induction accs generalizing m with
  | nil => exact .refl m
  | cons a as ih => exact (pages a _ ([], m)).trans (ih _)

/-! ## Bytes of an access -/

theorem alignOf_tyBytes {t : Ty} (h : 0 < tyBytes t) : alignOf (tyBytes t) = min (tyBytes t) 4 := by
  cases t with
  | pred => exact absurd h (by decide)
  | _ => rfl
@[simp] theorem length_leBytes (n v : Nat) : (leBytes n v).length = n := by
  induction n generalizing v with
  | zero => rfl
  | succ n ih => rw [leBytes, List.length_cons, ih]
/-- The bytes of `n` registers. -/
theorem length_flatten_words (th : Thread) (r n : Nat) : ((upFrom r n).map (fun i => leBytes 4 (th.getV i).toNat)).flatten.length = n * 4 := by
  induction n generalizing r with
  | zero => rfl
  | succ n ih => rw [upFrom, List.map_cons, List.flatten_cons, List.length_append, ih, length_leBytes]; omega

end Sys2Proof.Machine
namespace Sys2Proof.Claims
open Sys2Proof.Machine

section
variable {i : Instr} {o : MemOp} {n align : Nat} {u : Bool}

/-- Every load form is one load. -/
theorem LoadForm.exec_eq {dst : LoadDst} (h : LoadForm i o n align dst u) (hn : 0 < n) (s : State) : exec i s = s.mem (loadRun o n align dst u) := by
  rcases h with ⟨t, rfl, rfl, rfl, rfl, rfl⟩ | ⟨t, rfl, rfl, rfl, rfl, rfl⟩ | ⟨t, rfl, rfl, rfl, rfl, rfl⟩ | ⟨rfl, rfl, rfl, rfl, rfl⟩
  · rw [← alignOf_tyBytes hn]; rfl
  · rfl
  · rw [← alignOf_tyBytes hn]; rfl
  · rfl
/-- Every store form is one store, of the bytes it names. -/
theorem StoreForm.exec_eq {bytes : Thread → List Byte} (h : StoreForm i o n align bytes u) (hn : 0 < n) (s : State) :
    ∃ src : StoreSrc, src.bytes = bytes ∧ exec i s = s.mem (storeRun o n align src u) := by
  rcases h with ⟨t, rfl, rfl, rfl, rfl, rfl⟩ | ⟨t, rfl, rfl, rfl, rfl, rfl⟩ | ⟨t, rfl, rfl, rfl, rfl, rfl⟩ | ⟨rfl, rfl, rfl, rfl, rfl⟩
  · exact ⟨.v t o.data, rfl, by rw [← alignOf_tyBytes hn]; rfl⟩
  · exact ⟨.wide o.data (wideBytes t), rfl, rfl⟩
  · exact ⟨.k t o.data, rfl, by rw [← alignOf_tyBytes hn]; rfl⟩
  · exact ⟨.a o.data, rfl, rfl⟩
theorem StoreForm.length_bytes {bytes : Thread → List Byte} (h : StoreForm i o n align bytes u) (th : Thread) : (bytes th).length = n := by
  rcases h with ⟨t, rfl, rfl, rfl, rfl, rfl⟩ | ⟨t, rfl, rfl, rfl, rfl, rfl⟩ | ⟨t, rfl, rfl, rfl, rfl, rfl⟩ | ⟨rfl, rfl, rfl, rfl, rfl⟩
  · exact length_leBytes _ _
  · rw [length_flatten_words]; split <;> rfl
  · exact length_leBytes _ _
  · rw [List.length_append, length_leBytes, List.length_replicate]
end

/-! ## Misaligned accesses trap -/

section
variable {s : State} {c : Ctx} (h : Issues s c) (ho : c.wg.hdr.ordered = false) (ha : c.act ≠ []) {i : Instr} {o : MemOp} {n align : Nat} {u : Bool}
include h ho ha

theorem exec_load_misaligned {dst : LoadDst} {a : Acc} (hi : LoadForm i o n align dst u) (hn : 0 < n)
    (hbad : (sortBy (·.lane) (c.accs o n u)).find? (fun a => a.va % align != 0) = some a) :
    exec i s = .next (withM s (c.trapAct s.clk (s.m.partsOf c.core c.vf [.read] (sortBy (·.lane) (c.accs o n u))).2 3 a.lane (BitVec.ofNat 80 a.va))) := by
  refine exec_withM h (hi.exec_eq hn s) ?_
  rw [loadRun, MemRun.pastHeld_unordered ho ha, MemRun.checked_misaligned hbad, Mach.ctx?_m h]
  rfl
theorem exec_store_misaligned {bytes : Thread → List Byte} {a : Acc} (hi : StoreForm i o n align bytes u) (hn : 0 < n)
    (hbad : (sortBy (·.lane) (c.accs o n u)).find? (fun a => a.va % align != 0) = some a) :
    exec i s = .next (withM s (c.trapAct s.clk (s.m.partsOf c.core c.vf [.write] (sortBy (·.lane) (c.accs o n u))).2 3 a.lane (BitVec.ofNat 80 a.va))) := by
  obtain ⟨src, -, he⟩ := hi.exec_eq hn s
  refine exec_withM h he ?_
  rw [storeRun, MemRun.pastHeld_unordered ho ha, MemRun.checked_misaligned hbad, Mach.bumpKeys_unordered ho, Mach.ctx?_m h]
  rfl
end

end Sys2Proof.Claims
end

section
/-! SUPPORT. The check of the warp's role (R152, R369), which comes first in every instruction bound to one. -/
namespace Sys2Proof.Claims
open Sys2Proof.Machine

/-- An instruction outside its role: every thread of the issue group traps. -/
theorem exec_badRole {s : State} {c : Ctx} (h : Issues s c) {i : Instr} {f : Clock → Ctx → Mach} (he : exec i s = s.group f)
    (hf : f s.clk c = c.badRole s.clk c.m) :
    exec i s = .next (withM s (s.m.takeTrap s.clk c.core c.slot c.ig.threads 2 c.role c.ig.pc c.ig.ext.isSome)) := by
  refine exec_withM h he (hf.trans ?_)
  rw [Ctx.badRole, Ctx.trapAll, Mach.ctx?_m h]

end Sys2Proof.Claims
end

section
open Sys2Proof Sys2Proof.Machine Sys2Proof.Claims

/-- The check of alignment comes first; only translation caches have changed by then. -/
theorem misalignedAccessesTrap : MisalignedAccessesTrap := by
  intro i o n align u s c a hi hn h ho ha hbad
  have frame (k : Access) : let m := (s.m.partsOf c.core c.vf [k] (sortBy (·.lane) (c.accs o n u))).2
      m.mem = s.m.mem ∧ m.wgs = s.m.wgs ∧ m.fns = s.m.fns := by
    intro m
    rw [show m = _ from s.m.partsOf_onlyCores c.core c.vf [k] _]
    exact ⟨rfl, rfl, rfl⟩
  rcases hi with ⟨dst, hi⟩ | ⟨bytes, hi⟩
  · exact ⟨_, exec_load_misaligned h ho ha hi hn hbad, frame .read⟩
  · exact ⟨_, exec_store_misaligned h ho ha hi hn hbad, frame .write⟩

/-- The check of the role comes first in each of them. -/
theorem roleViolations : RoleViolations := by
  intro t d r n v e k scale o b s c h bad
  refine ⟨fun hr => ?_, fun hr => ?_⟩ <;> and_intros <;> exact exec_badRole h rfl (if_pos hr)

/-- Settles O28: the check of alignment and the check of the role. -/
theorem whereInstructionsTrap : Obligations.WhereInstructionsTrap := ⟨misalignedAccessesTrap, roleViolations⟩
end

section
/-! SUPPORT. Accesses to strongly ordered pages (R214), made where the memory is: at addresses of which the core holds no line, and with no
monitor armed. -/
namespace Sys2Proof.Machine

/-! ## Tables and lists -/

theorem terase_of_tget_none {α : Type} {m : Sparse α} {k : Nat} (h : tget m k = none) : terase m k = m := by
  induction m with
  | nil => rfl
  | cons e m ih =>
    obtain ⟨j, x⟩ := e
    rw [tget] at h
    rw [terase]
    split at h
    · cases h
    · next hj =>
      rw [if_neg hj]
      split at h
      · next hlt => rw [if_pos hlt]
      · next hlt => rw [if_neg hlt, ih h]
theorem tset_of_tget {α : Type} {m : Sparse α} {k : Nat} {x : α} (h : tget m k = some x) : tset m k x = m := by
  induction m with
  | nil => cases h
  | cons e m ih =>
    obtain ⟨j, y⟩ := e
    rw [tget] at h
    rw [tset]
    split at h
    · next hj =>
      subst hj
      rw [if_neg (Nat.lt_irrefl j), if_pos rfl, Option.some.inj h]
    · next hj =>
      split at h
      · cases h
      · next hlt => rw [if_neg hlt, if_neg hj, ih h]
theorem sortBy_perm {α : Type} (key : α → Nat) (xs : List α) : (sortBy key xs).Perm xs := by
  have insert_perm (x : α) (ys : List α) : (sortBy.insertBy' key x ys).Perm (x :: ys) := by
    induction ys with
    | nil => exact .refl _
    | cons y ys ih =>
      rw [sortBy.insertBy']
      split
      · exact .refl _
      · exact (ih.cons y).trans (.swap x y ys)
  induction xs with
  | nil => exact .refl _
  | cons x xs ih => exact (insert_perm x _).trans (ih.cons x)
/-- Of records made for numbers that differ, one is `j`'s. -/
theorem filter_map_eq_singleton {α : Type} {f : Nat → α} {g : α → Nat} (hg : ∀ i, g (f i) = i) {js : List Nat} (hn : js.Nodup)
    {j : Nat} (hj : j ∈ js) : (js.map f).filter (fun x => g x == j) = [f j] := by
  have hcomp : (fun x => g x == j) ∘ f = (· == j) := by funext i; simp only [Function.comp_apply, hg]
  have hone : js.count j = 1 := by rw [hn.count, if_pos hj]
  rw [List.filter_map, hcomp, List.filter_beq, hone]
  rfl

/-! ## Lines that the core does not hold -/

theorem Mach.core_of_tget {m : Mach} {core : Nat} {x : Core} (h : tget m.cores core = some x) : m.core core = x := by simp [Mach.core, h]
/-- A core with a translation in its cache is listed. -/
theorem Mach.listed_of_tlb {m : Mach} {core k : Nat} {p : Pte} (h : tget (m.core core).tlb k = some p) : ∃ x, tget m.cores core = some x := by
  cases hx : tget m.cores core with
  | some x => exact ⟨x, rfl⟩
  | none => rw [Mach.core, hx] at h; cases h
theorem Mach.writeBack_absent {m : Mach} {core line : Nat} (h : tget (m.core core).l1 line = none) : m.writeBack core line = m := by
  rw [Mach.writeBack, h]
theorem Mach.dropLine_absent {m : Mach} {core line : Nat} (hc : ∃ x, tget m.cores core = some x) (h : tget (m.core core).l1 line = none) :
    m.dropLine core line = m := by
  obtain ⟨x, hx⟩ := hc
  have hcore := Mach.core_of_tget hx
  rw [Mach.dropLine, Mach.writeBack_absent h, Mach.modCore, terase_of_tget_none h, Mach.setCore, hcore, tset_of_tget hx]
/-- Dropping lines that are not held, as they are counted (R418), changes the counters alone. -/
theorem Mach.dropLines_absent {m : Mach} {core : Nat} (hc : ∃ x, tget m.cores core = some x) {ls : List Nat}
    (h : ∀ l ∈ ls, tget (m.core core).l1 l = none) :
    ∃ x, ls.foldl (fun m l => (m.dropLine core l).countLine core (l * 128)) m = { m with access := x } := by
  induction ls generalizing m with
  | nil => exact ⟨m.access, rfl⟩
  | cons l ls ih =>
    obtain ⟨hl, hrest⟩ := List.forall_mem_cons.1 h
    rw [List.foldl_cons, Mach.dropLine_absent hc hl]
    exact ih (m := m.countLine core (l * 128)) hc hrest
theorem Mach.coreBytes_absent {m : Mach} {core pa n : Nat} (h : ∀ l ∈ linesOf pa n, tget (m.core core).l1 l = none) :
    m.coreBytes core pa n = Memory.readN m.mem pa n := by
  have absent (k : Nat) (hk : k < n) := h _ (lineOf_mem_linesOf (pa := pa) hk)
  clear h
  induction n generalizing pa with
  | zero => rfl
  | succ n ih =>
    have hfirst : m.coreByte core pa = Memory.read m.mem pa := by rw [Mach.coreByte, show tget (m.core core).l1 (lineOf pa) = none from absent 0 (by omega)]
    have hrest := ih (pa := pa + 1) fun k hk => by rw [show pa + 1 + k = pa + (k + 1) by omega]; exact absent (k + 1) (by omega)
    rw [Mach.coreBytes, Memory.readN, hfirst, hrest]
theorem overlay_nil (dev : Option Nat) (pa : Nat) (bs : List Byte) : overlay [] dev pa bs = bs := by
  induction bs generalizing pa with
  | nil => rfl
  | cons b bs ih => rw [overlay, ih]; rfl

/-- No monitor is armed, so none is marked (R293). -/
theorem Mach.hitLines_unarmed {m : Mach} (hm : ∀ e ∈ m.wgs, ∀ t ∈ e.2.threads, t.mon = none) (ls : List Nat) : m.hitLines ls = m := by
  have hwgs : (m.hitLines ls).wgs = m.wgs := by
    refine Eq.trans (b := m.wgs.map id) (List.map_congr_left fun e he => Prod.ext rfl ?_) (List.map_id _)
    refine congrArg (fun ts => { e.2 with threads := ts }) (Eq.trans (b := e.2.threads.map id) (List.map_congr_left fun t ht => ?_) (List.map_id _))
    rw [hm e he t ht]; rfl
  exact congrArg (fun ws => { m with wgs := ws }) hwgs

/-- Runs of `n` bytes written one after another change no byte outside them. -/
theorem Memory.writeLs_frame {mem : List Host.Cell} {pa : Nat → Nat} {bytes : Nat → List Byte} {n : Nat} {js : List Nat} (hwf : Memory.wf mem = true)
    (hn : ∀ j ∈ js, (bytes j).length = n) :
    Memory.wf (js.foldl (fun mem j => Memory.writeL mem (pa j) (bytes j)) mem) = true ∧
      ∀ x, (∀ j ∈ js, x < pa j ∨ pa j + n ≤ x) →
        Memory.read (js.foldl (fun mem j => Memory.writeL mem (pa j) (bytes j)) mem) x = Memory.read mem x := by
  induction js generalizing mem with
  | nil => exact ⟨hwf, fun _ _ => rfl⟩
  | cons j js ih =>
    obtain ⟨hj, hjs⟩ := List.forall_mem_cons.1 hn
    obtain ⟨hwf', hout⟩ := ih (Memory.wf_writeL mem (pa j) (bytes j) hwf) hjs
    refine ⟨hwf', fun x hx => ?_⟩
    obtain ⟨hxj, hxs⟩ := List.forall_mem_cons.1 hx
    exact (hout x hxs).trans (Memory.read_writeL_out mem (pa j) (bytes j) x hwf (hj ▸ hxj))

/-! ## Reading and writing such a part -/

/-- A part stands at `pa`, on a strongly ordered page, where the core holds no line. -/
structure Part.DirectAt (p : Part) (x : Core) (pa : Nat) : Prop where
  tr : p.tr = .ok pa 0
  absent : ∀ l ∈ linesOf pa p.n, tget x.l1 l = none

theorem Mach.poisoned_direct {m : Mach} {p : Part} {pa : Nat} (hp : p.tr = .ok pa 0) (hl : ∀ l ∈ linesOf pa p.n, l ∉ m.poison) (clk : Clock)
    (core : Nat) (a : Attr) : m.poisoned clk core a p = none := by simpa [Mach.poisoned, hp] using hl
section
variable {m : Mach} {core slot : Nat} {clk : Clock} {a : Attr} {w : Wg} {js : List Nat} {ps : List Part} {q : Nat → Part} {pa : Nat → Nat}
  (hc : ∃ x, tget m.cores core = some x) (hw : m.wg? core slot = some w)
include hc hw

theorem Mach.loadPart_direct {p : Part} {pa : Nat} (hb : w.sbuf = []) (hp : p.DirectAt (m.core core) pa) :
    ∃ x, m.loadPart clk core slot a p = ([.got (Memory.readN m.mem pa p.n)], { m with access := x }) := by
  obtain ⟨x, hx⟩ := Mach.dropLines_absent hc hp.absent
  refine ⟨x, ?_⟩
  simp only [Mach.loadPart, hw, hp.tr, hb, decide_true, Bool.true_or, if_true, hx, overlay_nil]
  rw [Mach.coreBytes_absent (m := { m with access := x }) hp.absent]
/-- Each thread reads its own part's bytes. -/
theorem Mach.gather_direct (hb : w.sbuf = []) (hq : ∀ j ∈ js, ps.filter (fun p => p.thread == j) = [q j])
    (hp : ∀ j ∈ js, (q j).DirectAt (m.core core) (pa j)) :
    ∃ x, m.gather clk core slot a ps js = (js.map (fun j => (j, [.got (Memory.readN m.mem (pa j) (q j).n)])), { m with access := x }) := by
  induction js generalizing m with
  | nil => exact ⟨m.access, rfl⟩
  | cons j js ih =>
    obtain ⟨hqj, hqs⟩ := List.forall_mem_cons.1 hq
    obtain ⟨hpj, hps⟩ := List.forall_mem_cons.1 hp
    obtain ⟨x, hx⟩ := Mach.loadPart_direct (clk := clk) (a := a) hc hw hb hpj
    obtain ⟨y, hy⟩ := ih (m := { m with access := x }) hc hw hqs hps
    refine ⟨y, ?_⟩
    rw [Mach.gather, hqj]
    simp only [List.foldl_cons, List.foldl_nil, hx, hy, List.nil_append, List.map_cons]
theorem Mach.storePart_direct {p : Part} {pa : Nat} (hr : w.hdr.rollback = false) (hm : ∀ e ∈ m.wgs, ∀ t ∈ e.2.threads, t.mon = none)
    (hp : p.DirectAt (m.core core) pa) (bs : List Byte) :
    ∃ x y, m.storePart clk core slot a p bs = { m with mem := Memory.writeL m.mem pa bs, access := x, poison := y } := by
  obtain ⟨x, hx⟩ := Mach.dropLines_absent hc hp.absent
  refine ⟨x, (m.physWrite pa bs).poison, ?_⟩
  simp only [Mach.storePart, hw, hr, hp.tr, hx, Bool.false_and, Bool.false_eq_true, decide_true, Bool.true_or, if_true, if_false]
  exact Mach.hitLines_unarmed (m := { m with access := x }.physWrite pa bs) hm _
end

/-- Each thread's bytes go to its own part, in the order of the threads. -/
theorem Ctx.storeThreads_direct {c : Ctx} {m : Mach} {w : Wg} {clk : Clock} {a : Attr} {js : List Nat} {ps : List Part} {q : Nat → Part} {pa : Nat → Nat}
    {bytes : Nat → List Byte} (hc : ∃ x, tget m.cores c.core = some x) (hw : m.wg? c.core c.slot = some w) (ho : c.wg.hdr.ordered = false)
    (hr : w.hdr.rollback = false) (hm : ∀ e ∈ m.wgs, ∀ t ∈ e.2.threads, t.mon = none)
    (hq : ∀ j ∈ js, ps.filter (fun p => p.thread == j) = [q j]) (hp : ∀ j ∈ js, (q j).DirectAt (m.core c.core) (pa j))
    (hn : ∀ j ∈ js, (bytes j).length = (q j).n) :
    ∃ x y, js.foldl (fun m j => c.storeThread clk a ps (bytes j) j m) m =
      { m with mem := js.foldl (fun mem j => Memory.writeL mem (pa j) (bytes j)) m.mem, access := x, poison := y } := by
  induction js generalizing m with
  | nil => exact ⟨m.access, m.poison, rfl⟩
  | cons j js ih =>
    obtain ⟨hqj, hqs⟩ := List.forall_mem_cons.1 hq
    obtain ⟨hpj, hps⟩ := List.forall_mem_cons.1 hp
    obtain ⟨hnj, hns⟩ := List.forall_mem_cons.1 hn
    obtain ⟨x, y, hj⟩ := Mach.storePart_direct (clk := clk) (a := a) hc hw hr hm hpj (bytes j)
    have hfirst : c.storeThread clk a ps (bytes j) j m = { m with mem := Memory.writeL m.mem (pa j) (bytes j), access := x, poison := y } := by
      rw [Ctx.storeThread, hqj, ho, List.foldl_cons, List.foldl_nil, List.take_of_length_le (Nat.le_of_eq hnj)]
      exact hj
    rw [List.foldl_cons, hfirst, List.foldl_cons]
    exact ih (m := { m with mem := Memory.writeL m.mem (pa j) (bytes j), access := x, poison := y }) hc hw hm hqs hps hns

end Sys2Proof.Machine
end

section
/-! SUPPORT. The accesses that `Reaches` describes (R147, R214): one part a lane, which passes Check and stands where the memory is. -/
namespace Sys2Proof.Machine

/-- A load that is outstanding is its core's last (R140). -/
theorem Mach.pend_core (m : Mach) (core slot : Nat) (dst : LoadDst) (threads : List Nat) (lanes : List (Nat × List Piece)) (a : Attr) :
    (m.pend core slot dst threads lanes a).core core = { m.core core with loads := (m.core core).loads ++
      [{ id := m.nextId, slot, dst, threads, lanes, order := a.order, scope := a.scope }] } := Mach.setCore_core ..
theorem Mach.pend_core_other (m : Mach) {core k : Nat} (h : k ≠ core) (slot : Nat) (dst : LoadDst) (threads : List Nat) (lanes : List (Nat × List Piece))
    (a : Attr) : (m.pend core slot dst threads lanes a).core k = m.core k := Mach.setCore_core_other _ _ h
/-- Accesses that cross no page, on pages the core's cache translates, give one part each and change nothing. -/
theorem Mach.partsOf_cached {m : Mach} {core vf : Nat} {k : Access} {tr : Acc → Trans} {accs : List Acc}
    (h : ∀ a ∈ accs, a.va % 65536 + a.n ≤ 65536 ∧ m.coreTranslate core vf a.va k = (tr a, m)) :
    m.partsOf core vf [k] accs = (accs.map (fun a => Part.mk a.thread a.lane a.va a.n (tr a)), m) := by
  induction accs with
  | nil => rfl
  | cons a as ih =>
    obtain ⟨⟨hpage, htr⟩, has⟩ := List.forall_mem_cons.1 h
    have hsplit : splitPage a.va a.n = [(a.va, a.n)] := if_pos (by omega)
    simp only [Mach.partsOf, hsplit, List.foldl_cons, List.foldl_nil, Mach.transAll, htr, ih has, List.nil_append, List.map_cons, List.singleton_append]

end Sys2Proof.Machine
namespace Sys2Proof.Claims
open Sys2Proof.Machine

/-- The part that thread `j` accesses. -/
def partFor (c : Ctx) (o : MemOp) (n : Nat) (pa : Nat → Nat) (j : Nat) : Machine.Part := ⟨j, (c.wg.thread j).lane, eaOf c o j, n, .ok (pa j) 0⟩
/-- The parts of an access, by ascending lane. -/
def partsFor (c : Ctx) (o : MemOp) (n : Nat) (pa : Nat → Nat) (u : Bool) : List Machine.Part :=
  (sortBy (·.lane) (c.accs o n u)).map (fun a => partFor c o n pa a.thread)

theorem lanesOf_nodup {c : Ctx} (h : c.act.Nodup) (u : Bool) : (lanesOf c u).Nodup := by
  cases u with
  | false => exact h
  | true => exact h.sublist (List.take_sublist 1 c.act)
theorem lanesOf_ne_nil {c : Ctx} (h : c.act ≠ []) (u : Bool) : lanesOf c u ≠ [] := by
  cases u with
  | false => exact h
  | true => exact fun e => h ((List.take_eq_nil_iff.1 e).resolve_left (by decide))
theorem mem_accs {c : Ctx} {o : MemOp} {n : Nat} {u : Bool} {a : Acc} :
    a ∈ c.accs o n u ↔ ∃ j ∈ lanesOf c u, (⟨j, (c.wg.thread j).lane, eaOf c o j, n⟩ : Acc) = a := List.mem_map
theorem mem_partsFor {c : Ctx} {o : MemOp} {n : Nat} {pa : Nat → Nat} {u : Bool} {p : Machine.Part} (h : p ∈ partsFor c o n pa u) :
    ∃ j ∈ lanesOf c u, p = partFor c o n pa j := by
  obtain ⟨a, ha, rfl⟩ := List.mem_map.1 h
  obtain ⟨j, hj, rfl⟩ := mem_accs.1 (mem_sortBy.1 ha)
  exact ⟨j, hj, rfl⟩
/-- A thread that accesses has one part. -/
theorem partsFor_filter {c : Ctx} (o : MemOp) (n : Nat) (pa : Nat → Nat) {u : Bool} (h : c.act.Nodup) {j : Nat} (hj : j ∈ lanesOf c u) :
    (partsFor c o n pa u).filter (fun p => p.thread == j) = [partFor c o n pa j] := by
  have hperm : (partsFor c o n pa u).Perm ((lanesOf c u).map (partFor c o n pa)) := by
    refine ((sortBy_perm _ _).map _).trans (.of_eq ?_)
    rw [Ctx.accs, List.map_map]; rfl
  have hone := filter_map_eq_singleton (f := partFor c o n pa) (g := Machine.Part.thread) (fun _ => rfl) (lanesOf_nodup h u) hj
  exact List.perm_singleton.1 (hone ▸ hperm.filter _)

section
variable {s : State} {c : Ctx} {k : Access} {o : MemOp} {n align : Nat} {u : Bool} {pa : Nat → Nat}
  (hr : Reaches s c k n align (lanesOf c u) (eaOf c o) pa)
include hr

theorem Reaches.listed (h : c.act ≠ []) : ∃ x, tget s.m.cores c.core = some x := by
  obtain ⟨j, js, hjs⟩ := List.exists_cons_of_ne_nil (lanesOf_ne_nil h u)
  obtain ⟨-, -, ⟨p, hp, -⟩, -⟩ := hr j (hjs ▸ List.mem_cons_self)
  exact Mach.listed_of_tlb hp
theorem Reaches.partsOf : s.m.partsOf c.core c.vf [k] (sortBy (·.lane) (c.accs o n u)) = (partsFor c o n pa u, s.m) := by
  have hparts : partsFor c o n pa u = (sortBy (·.lane) (c.accs o n u)).map (fun a => Machine.Part.mk a.thread a.lane a.va a.n (.ok (pa a.thread) 0)) := by
    refine List.map_congr_left fun a ha => ?_
    obtain ⟨j, -, rfl⟩ := mem_accs.1 (mem_sortBy.1 ha)
    rfl
  rw [hparts]
  refine Mach.partsOf_cached (tr := fun a => .ok (pa a.thread) 0) fun a ha => ?_
  obtain ⟨j, hj, rfl⟩ := mem_accs.1 (mem_sortBy.1 ha)
  obtain ⟨-, hpage, ⟨p, hp, ht⟩, -⟩ := hr j hj
  exact ⟨hpage, Mach.coreTranslate_cached hp ht⟩
theorem Reaches.checkParts : checkParts s.m align (sortBy (·.lane) (c.accs o n u)) (partsFor c o n pa u) = .ok (partsFor c o n pa u) := by
  refine checkParts_ok (fun a ha => ?_) fun p hp => ?_
  · obtain ⟨j, hj, rfl⟩ := mem_accs.1 (mem_sortBy.1 ha)
    exact (hr j hj).1
  · obtain ⟨j, -, rfl⟩ := mem_partsFor hp
    exact ⟨pa j, 0, rfl⟩
theorem Reaches.direct : ∀ j ∈ lanesOf c u, (partFor c o n pa j).DirectAt (s.m.core c.core) (pa j) := by
  intro j hj
  obtain ⟨-, -, -, hlines⟩ := hr j hj
  exact ⟨rfl, fun l hl => (hlines l hl).1⟩
theorem Reaches.clean (a : Attr) : ∀ p ∈ partsFor c o n pa u, s.m.poisoned s.clk c.core a p = none := by
  intro p hp
  obtain ⟨j, hj, rfl⟩ := mem_partsFor hp
  obtain ⟨-, -, -, hlines⟩ := hr j hj
  exact Mach.poisoned_direct rfl (fun l hl => (hlines l hl).2) ..
end

/-! ## Going on after an access -/

theorem attrOf_on_plain {o : MemOp} (h : o.order = .plain) (ps : List Machine.Part) : (attrOf o).on ps = attrOf o := by
  rw [Attr.on, if_neg]
  rintro ⟨e, -⟩
  exact absurd (h.symm.trans e) (by decide)
theorem attrOf_before_plain {o : MemOp} (h : o.order = .plain) (isStore : Bool) (m : Mach) (clk : Clock) (core slot : Nat) :
    (attrOf o).before isStore m clk core slot = m := by rw [Attr.before, attrOf, h]
theorem attrOf_after_plain {o : MemOp} (h : o.order = .plain) (isLoad : Bool) (m : Mach) (core : Nat) : (attrOf o).after isLoad m core = m := by
  rw [Attr.after, attrOf, h]
theorem retire_core (c : Ctx) (m : Mach) (k : Nat) : (c.retire m).core k = m.core k := by rw [Mach.core, Ctx.retire_cores]; rfl
/-- The group goes on in a machine whose workgroups are as they were. -/
theorem retire_wgs {s : State} {c : Ctx} (h : Issues s c) {m : Mach} (hw : m.wgs = s.m.wgs) : (c.retire m).wgs = (put s c (each c id)).m.wgs := by
  have hwg : m.wg? c.core c.slot = some c.wg := by rw [Mach.wg?, hw]; exact Mach.ctx?_wg h
  rw [Ctx.retire_eq hwg, modThreads_each h, Mach.setWg, put, Mach.setWg, hw]
theorem wentOn_retire {s : State} {c : Ctx} (h : Issues s c) {m : Mach} (hw : m.wgs = s.m.wgs) (hf : m.fns = s.m.fns) (hh : m.host = s.m.host)
    (hs : (m.core c.core).scratch = (s.m.core c.core).scratch) (hk : ∀ k, k ≠ c.core → m.core k = s.m.core k) :
    WentOn s c (withM s (c.retire m)) :=
  ⟨rfl, rfl, retire_wgs h hw, (Ctx.retire_fns c m).trans hf, (Ctx.retire_host c m).trans hh, (congrArg Core.scratch (retire_core c m c.core)).trans hs,
    fun k hne => (retire_core c m k).trans (hk k hne)⟩

end Sys2Proof.Claims
end

section
open Sys2Proof Sys2Proof.Machine Sys2Proof.Claims

/-- With Check passed and nothing poisoned a load reads its parts, between what its order releases and acquires. -/
theorem loadsThatPassCheck : LoadsThatPassCheck := by
  intro i o n align dst u s c ps m hi hn h ho ha hparts hcheck hclean
  refine exec_withM h (hi.exec_eq hn s) ?_
  rw [← Mach.ctx?_m h] at hparts
  rw [loadRun, MemRun.pastHeld_unordered ho ha, MemRun.checked_ok hparts hcheck]
  simp only [List.findSome?_eq_none_iff.2 hclean]
  rfl

/-- With Check passed a store writes its parts, between what its order releases and acquires. -/
theorem storesThatPassCheck : StoresThatPassCheck := by
  intro i o n align bytes u s c ps m hi hn h ho ha hparts hcheck
  obtain ⟨src, rfl, he⟩ := hi.exec_eq hn s
  refine exec_withM h he ?_
  rw [← Mach.ctx?_m h, ← Mach.bumpKeys_unordered ho c.m (c.accLanes u)] at hparts
  rw [storeRun, MemRun.pastHeld_unordered ho ha]
  exact MemRun.checked_ok hparts hcheck

/-- A load that passes Check: each lane's part is read where the memory is. -/
theorem loadsReadMemory : LoadsReadMemory := by
  intro i o n align dst u s c pa hi hn h hord hproper hplain hr
  obtain ⟨hordered, -, hsbuf⟩ := hord
  obtain ⟨hact, hnodup⟩ := hproper
  obtain ⟨x, hx⟩ := Mach.gather_direct (clk := s.clk) (a := attrOf o) (hr.listed hact) (Mach.ctx?_wg h) hsbuf
    (fun j hj => partsFor_filter o n pa hnodup hj) hr.direct
  have he := loadsThatPassCheck i o n align dst u s c _ _ hi hn h hordered hact hr.partsOf hr.checkParts (hr.clean _)
  simp only [attrOf_on_plain hplain, attrOf_before_plain hplain, attrOf_after_plain hplain, hx] at he
  refine ⟨_, he, wentOn_retire h rfl rfl rfl ?scratch ?others, Ctx.retire_mem .., ?poison, ?loads⟩
  case scratch => rw [Mach.pend_core]; rfl
  case others => exact fun k hk => Mach.pend_core_other _ hk ..
  case poison => exact Mach.modWg_poison ..
  case loads =>
    refine (congrArg Core.loads ((retire_core c _ c.core).trans (Mach.pend_core ..))).trans ?_
    rw [attrOf, hplain]
    rfl

/-- A store that passes Check: each lane's part is written where the memory is. -/
theorem storesWriteMemory : StoresWriteMemory := by
  intro i o n align bytes u s c pa hi hn h hord hproper hmon hplain hr hwf
  obtain ⟨hordered, hrollback, -⟩ := hord
  obtain ⟨hact, hnodup⟩ := hproper
  obtain ⟨x, y, hx⟩ := Ctx.storeThreads_direct (clk := s.clk) (a := attrOf o) (bytes := fun j => bytes (c.wg.thread j)) (hr.listed hact)
    (Mach.ctx?_wg h) hordered hrollback hmon (fun j hj => partsFor_filter o n pa hnodup hj) hr.direct fun j _ => hi.length_bytes _
  have he := storesThatPassCheck i o n align bytes u s c _ _ hi hn h hordered hact hr.partsOf hr.checkParts
  simp only [attrOf_on_plain hplain, attrOf_before_plain hplain, attrOf_after_plain hplain, hx] at he
  obtain ⟨hwf', hout⟩ := Memory.writeLs_frame (pa := pa) (bytes := fun j => bytes (c.wg.thread j)) (js := lanesOf c u) hwf fun j _ => hi.length_bytes _
  refine ⟨_, he, wentOn_retire h rfl rfl rfl rfl fun _ _ => rfl, congrArg Core.loads (retire_core c _ c.core), ?wf, Ctx.retire_mem .., ?out⟩
  case wf => simpa only [withM, Ctx.retire_mem] using hwf'
  case out => simpa only [withM, Ctx.retire_mem] using hout

/-- Settles O18: a load that passes Check, and its reads on a strongly ordered page. That loads take their bytes at their issue is the
model's choice (log 5). -/
theorem loads : Obligations.Loads := ⟨loadsReadMemory, loadsThatPassCheck⟩

/-- Settles O19: a store that passes Check, and its writes on a strongly ordered page. That stores are performed at their issue is the
model's choice (log 5). -/
theorem stores : Obligations.Stores := ⟨storesWriteMemory, storesThatPassCheck⟩
end

section
/-! SUPPORT. A line of L1 written back (R215), releases with nothing buffered (R220, R384), and the meanings of the cache instructions (R143,
R251 to R255). -/
namespace Sys2Proof.Machine

/-! ## Writing a line back -/

@[simp] theorem length_mergeDirty (bs : List Byte) (ds : List Bool) (xs : List Byte) : (mergeDirty bs ds xs).length = xs.length := by
  induction bs generalizing ds xs with
  | nil => rfl
  | cons b bs ih =>
    cases ds with
    | nil => rfl
    | cons d ds =>
      cases xs with
      | nil => rfl
      | cons x xs => simp only [mergeDirty, List.length_cons, ih]
/-- A merged line takes a dirty byte from the first and any other from the second. -/
theorem getElem?_mergeDirty {bs : List Byte} {ds : List Bool} {xs : List Byte} (hb : bs.length = xs.length) (hd : ds.length = xs.length) {i : Nat}
    (hi : i < xs.length) : (mergeDirty bs ds xs)[i]? = if ds.getD i false then bs[i]? else xs[i]? := by
  induction xs generalizing bs ds i with
  | nil => exact absurd hi (Nat.not_lt_zero i)
  | cons x xs ih =>
    obtain ⟨b, bs, rfl⟩ := List.exists_cons_of_length_eq_add_one hb
    obtain ⟨d, ds, rfl⟩ := List.exists_cons_of_length_eq_add_one hd
    cases i with
    | zero => cases d <;> rfl
    | succ i => simpa [mergeDirty] using ih (Nat.succ.inj hb) (Nat.succ.inj hd) (Nat.lt_of_succ_lt_succ hi)

section
variable {m : Mach} {core line : Nat} {l : Line} (hl : tget (m.core core).l1 line = some l)
include hl

theorem Mach.writeBack_clean (hd : l.dirty.any id = false) : m.writeBack core line = m := by
  simp only [Mach.writeBack, hl, hd, Bool.false_eq_true, if_false]
theorem Mach.writeBack_mem (hd : l.dirty.any id = true) : (m.writeBack core line).mem =
    Memory.writeL m.mem (line * 128) (mergeDirty l.bytes l.dirty (Memory.readN m.mem (line * 128) 128)) := by
  simp only [Mach.writeBack, hl, hd, if_true, Mach.hitMonitors_mem, Mach.modCore_mem]
  split <;> rfl
/-- The line is clean in L1 now. -/
theorem Mach.writeBack_core (hd : l.dirty.any id = true) : (m.writeBack core line).core core =
    { m.core core with l1 := tset (m.core core).l1 line { l with dirty := List.replicate 128 false, firstWrite := none } } := by
  simp only [Mach.writeBack, hl, hd, if_true]
  refine (Mach.setCore_core _ core _).trans ?_
  split <;> rfl

theorem Mach.writeBack_read_out (hwf : Memory.wf m.mem = true) {x : Nat} (hx : x / 128 ≠ line) :
    Memory.read (m.writeBack core line).mem x = Memory.read m.mem x := by
  cases hd : l.dirty.any id with
  | false => rw [Mach.writeBack_clean hl hd]
  | true =>
    rw [Mach.writeBack_mem hl hd]
    refine Memory.read_writeL_out _ _ _ _ hwf ?_
    rw [length_mergeDirty, Memory.length_readN]
    omega
theorem Mach.writeBack_read_in (hwf : Memory.wf m.mem = true) (hb : l.bytes.length = 128) (hn : l.dirty.length = 128) {i : Nat} (hi : i < 128) :
    Memory.read (m.writeBack core line).mem (line * 128 + i) =
      if l.dirty.getD i false then l.bytes.getD i 0 else Memory.read m.mem (line * 128 + i) := by
  cases hd : l.dirty.any id with
  | false =>
    have hclean : l.dirty.getD i false = false := by
      rw [List.getD_eq_getElem?_getD, List.getElem?_eq_getElem (hn ▸ hi), Option.getD_some]
      exact Bool.eq_false_iff.2 (List.any_eq_false.1 hd _ (List.getElem_mem _))
    rw [Mach.writeBack_clean hl hd, hclean]; rfl
  | true =>
    have hlen : (Memory.readN m.mem (line * 128) 128).length = 128 := Memory.length_readN ..
    have hget := getElem?_mergeDirty (hb.trans hlen.symm) (hn.trans hlen.symm) (hlen ▸ hi)
    rw [Memory.readN_get _ _ _ _ hi, List.getElem?_eq_getElem (by simpa using hi)] at hget
    rw [Mach.writeBack_mem hl hd, Memory.read_writeL_in _ _ _ _ hwf (by simpa using hi)]
    refine Option.some.inj (hget.trans ?_)
    rw [List.getD_eq_getElem?_getD (l := l.bytes), List.getElem?_eq_getElem (hb ▸ hi), Option.getD_some, apply_ite some]
/-- What the core sees is what it saw. -/
theorem Mach.writeBack_coreByte (hwf : Memory.wf m.mem = true) (x : Nat) : (m.writeBack core line).coreByte core x = m.coreByte core x := by
  cases hd : l.dirty.any id with
  | false => rw [Mach.writeBack_clean hl hd]
  | true =>
    simp only [Mach.coreByte, Mach.writeBack_core hl hd]
    by_cases hx : lineOf x = line
    · rw [hx, tget_tset_same, hl]
    · rw [tget_tset_other _ _ hx, Mach.writeBack_read_out hl hwf hx]
end

/-! ## Nothing to write back, nothing buffered -/

theorem foldl_eq_self {α β : Type} {f : β → α → β} {b : β} {xs : List α} (h : ∀ x ∈ xs, f b x = b) : xs.foldl f b = b := by
  induction xs with
  | nil => rfl
  | cons x xs ih =>
    obtain ⟨hx, hxs⟩ := List.forall_mem_cons.1 h
    rw [List.foldl_cons, hx, ih hxs]
theorem Mach.writeBack_of_empty {m : Mach} {core : Nat} (h : (m.core core).l1 = []) (line : Nat) : m.writeBack core line = m :=
  Mach.writeBack_absent (by rw [h]; rfl)
theorem Mach.writeBackAll_of_empty {m : Mach} {core : Nat} (h : (m.core core).l1 = []) : m.writeBackAll core = m := by
  rw [Mach.writeBackAll, h]; rfl
theorem Mach.fillLine_present {m : Mach} {core line : Nat} (clk : Clock) (h : (tget (m.core core).l1 line).isSome = true) :
    m.fillLine clk core line = m := by
  obtain ⟨l, hl⟩ := Option.isSome_iff_exists.1 h
  rw [Mach.fillLine, hl]
/-- A release by a workgroup with no buffered store writes its core's lines back, where it reaches further than the core. -/
theorem Mach.release_unbuffered {m : Mach} {core slot scope : Nat} {w : Wg} {uo : Bool} (clk : Clock) (hw : m.wg? core slot = some w) (hb : w.sbuf = []) :
    m.release clk core slot scope uo = if 3 ≤ scope then m.writeBackAll core else m := by
  simp only [Mach.release, hw, hb, List.any_nil, Bool.false_eq_true, if_false, ite_self]

/-! ## The meanings -/

theorem exec_pf (o : MemOp) (s : State) : exec (.pf o) s = s.mem (pfRun o) := rfl
theorem exec_fence (order : Nat) (uo : Bool) (scope : Nat) (s : State) : exec (.fence order uo scope) s = s.group (fenceRun order uo scope) := rfl
theorem exec_icinv (a n scope : Nat) (s : State) : exec (.icinv a n scope) s = s.group (icinvRun a n scope) := rfl
theorem exec_dcwb (a n : Nat) (s : State) : exec (.dcwb a n) s = s.group (dcRun false a n) := rfl
theorem exec_dcinv (a n : Nat) (s : State) : exec (.dcinv a n) s = s.group (dcRun true a n) := rfl

/-- A core after `icinv` (R254): it loses its words when it is in scope and, with no lines named, the function's. -/
def icDropped (scope core vf : Nat) (lines : Option (List Nat)) (k : Nat) (x : Core) : Core :=
  if inScope scope core k && (lines.isSome || x.owner.all (· == vf)) then x.icDrop lines else x
/-- Every core after it. -/
def Mach.icDropAll (m : Mach) (scope core vf : Nat) (lines : Option (List Nat)) : Mach :=
  { m with cores := m.cores.map (fun e => (e.1, icDropped scope core vf lines e.1 e.2)) }
theorem Mach.icDropAll_core (m : Mach) (scope core vf : Nat) (lines : Option (List Nat)) (k : Nat) :
    (m.icDropAll scope core vf lines).core k = icDropped scope core vf lines k (m.core k) := by
  have hreset : icDropped scope core vf lines k {} = {} := by cases lines <;> exact ite_self _
  have hget := tget_map m.cores (fun e => (e.1, icDropped scope core vf lines e.1 e.2)) (fun _ => rfl) k
  rw [Mach.core, Mach.icDropAll, hget, Mach.core]
  cases tget m.cores k with
  | some x => rfl
  | none => exact hreset.symm
/-- Of a core, nothing but its instruction cache is touched. -/
theorem icDropped_eq (scope core vf : Nat) (lines : Option (List Nat)) (k : Nat) (x : Core) :
    icDropped scope core vf lines k x = { x with icache := (icDropped scope core vf lines k x).icache } := by
  unfold icDropped
  split
  · cases lines <;> rfl
  · rfl

/-- The words it loses: all of them, or those of the lines. -/
theorem icDropped_icache (scope core vf n : Nat) (ls : List Nat) (k : Nat) (x : Core) :
    (icDropped scope core vf (if n = 0 then none else some ls) k x).icache =
      if inScope scope core k = true ∧ (n ≠ 0 ∨ x.owner = some vf ∨ x.owner = none) then
        (if n = 0 then [] else x.icache.filter (fun e => !ls.contains (e.1 / 16))) else x.icache := by
  have howner : x.owner.all (· == vf) = true ↔ x.owner = some vf ∨ x.owner = none := by cases x.owner <;> simp
  have hdrops : (inScope scope core k && ((if n = 0 then none else some ls).isSome || x.owner.all (· == vf))) = true ↔
      inScope scope core k = true ∧ (n ≠ 0 ∨ x.owner = some vf ∨ x.owner = none) := by
    rw [Bool.and_eq_true, Bool.or_eq_true, howner]
    by_cases hn : n = 0 <;> simp [hn]
  rw [icDropped, apply_ite Core.icache]
  simp only [hdrops]
  by_cases hn : n = 0
  · rw [if_pos hn, if_pos hn]; rfl
  · rw [if_neg hn, if_neg hn]; rfl

end Sys2Proof.Machine
namespace Sys2Proof.Claims
open Sys2Proof.Machine

section
variable {s : State} {c : Ctx} (h : Issues s c) (ha : c.act ≠ [])
include h ha

theorem dcRun_lines (drop : Bool) (a : Nat) {n : Nat} (hn : 0 < n) (clk : Clock) : dcRun drop a n clk c =
    c.retire ((s.m.physLines c.vf ((lead c).getA a).toNat n).foldl (fun m l => if drop then m.dropLine c.core l else m.writeBack c.core l) s.m) := by
  rw [dcRun, if_neg (mt List.isEmpty_iff.1 ha), if_neg (Nat.ne_of_gt hn), Mach.ctx?_m h]
  rfl

variable (ho : c.wg.hdr.ordered = false) (hb : c.wg.sbuf = [])
include ho hb

/-- A fence: the release of every order but acquire, the acquire of every order but release (R224). -/
theorem fenceRun_unbuffered (order : Nat) (uo : Bool) (scope : Nat) (clk : Clock) : fenceRun order uo scope clk c =
    c.retire (
      let m := if order ≠ 0 ∧ 3 ≤ scope then s.m.writeBackAll c.core else s.m
      if order ≠ 1 ∧ 3 ≤ scope then m.dropAll c.core else m) := by
  rw [fenceRun, if_neg (mt List.isEmpty_iff.1 ha), Ctx.heldLate_unordered ho, Ctx.pastHeld_nil, Mach.ctx?_m h,
    Mach.release_unbuffered clk (Mach.ctx?_wg h) hb]
  by_cases hs : 3 ≤ scope <;> simp only [Mach.acquire, hs, and_true, and_false, if_true, if_false, ite_self]
/-- With no line in L1 there is nothing to write back first. -/
theorem icinvRun_noLines (hl : (s.m.core c.core).l1 = []) (a n scope : Nat) (clk : Clock) : icinvRun a n scope clk c =
    c.retire (s.m.icDropAll scope c.core c.vf (if n = 0 then none else some (s.m.physLines c.vf ((lead c).getA a).toNat n))) := by
  have hrel : s.m.release clk c.core c.slot scope = s.m := by
    rw [Mach.release_unbuffered clk (Mach.ctx?_wg h) hb, Mach.writeBackAll_of_empty hl, ite_self]
  rw [icinvRun, if_neg (mt List.isEmpty_iff.1 ha), Ctx.heldLate_unordered ho, Ctx.pastHeld_nil, Mach.ctx?_m h, hrel]
  by_cases hn : n = 0
  · subst hn
    simp only [if_true, Mach.writeBackAll_of_empty hl]
    rfl
  · have hwrite (ls : List Nat) : ls.foldl (fun m l => m.writeBack c.core l) s.m = s.m := foldl_eq_self fun l _ => Mach.writeBack_of_empty hl l
    simp only [hn, if_false, hwrite, bne_iff_ne.2 hn]
    rfl
end

end Sys2Proof.Claims
end

section
open Sys2Proof Sys2Proof.Machine Sys2Proof.Claims

/-- No thread brings a line in: the page is strongly ordered, the prefetch is into L2, or the line is there. -/
theorem prefetch : Prefetch := by
  intro o s c h hj
  refine exec_withM h (exec_pf o s) (Eq.trans (congrArg c.retire (foldl_eq_self fun j hact => ?_)) (retire_each h))
  obtain ⟨p, pa, kind, hp, ht, hcase⟩ := hj j hact
  have htranslate : s.m.coreTranslate c.core c.vf ((c.wg.thread j).ea o) .read = (.ok pa kind, s.m) := Mach.coreTranslate_cached hp ht
  simp only [Mach.ctx?_m h, htranslate]
  rcases hcase with rfl | hlevel | hline
  · simp
  · simp [hlevel]
  · rw [Mach.fillLine_present s.clk hline, ite_self]

/-- A clean line changes nothing; a dirty one is merged over memory and stays. -/
theorem writeBack : WriteBack := fun m core line _ hl hb hd hwf =>
  ⟨fun _ hi => Mach.writeBack_read_in hl hwf hb hd hi, fun _ hx => Mach.writeBack_read_out hl hwf hx, fun x => Mach.writeBack_coreByte hl hwf x,
    m.writeBack_wf core line hwf⟩

/-- With nothing held and nothing buffered each is what it does to the core's lines, or to the instruction caches in scope. -/
theorem fencesAndCaches : FencesAndCaches := by
  intro s c h ha ho hb
  have fence (order : Nat) (uo : Bool) (scope : Nat) := exec_withM h (exec_fence order uo scope s) (fenceRun_unbuffered h ha ho hb order uo scope s.clk)
  refine ⟨fun uo scope hs order => ?near, fun uo scope hs => ⟨?acquire, ?release, fun order horder => ?both⟩,
    fun a n scope hl => ?icinv, fun a n hn => ⟨?dcwb, ?dcinv⟩⟩
  case near =>
    have hnear : ¬3 ≤ scope := Nat.not_le.2 hs
    rw [fence]
    simp only [hnear, and_false, if_false]
    rw [← Mach.ctx?_m h, retire_each h]
    rfl
  case acquire => rw [fence]; simp [hs]
  case release => rw [fence]; simp [hs]
  case both =>
    rw [fence]
    simp only [hs, and_true, show order ≠ 0 by omega, show order ≠ 1 by omega, ne_eq, not_false_eq_true, if_true]
  case icinv =>
    refine ⟨_, exec_withM h (exec_icinv a n scope s) (icinvRun_noLines h ha ho hb hl a n scope s.clk), retire_wgs h rfl, Ctx.retire_mem ..,
      Ctx.retire_fns .., fun k => ?_⟩
    have hcore := (retire_core c _ k).trans
      (s.m.icDropAll_core scope c.core c.vf (if n = 0 then none else some (s.m.physLines c.vf ((lead c).getA a).toNat n)) k)
    refine ⟨(congrArg Core.l1 hcore).trans ?_, (congrArg Core.scratch hcore).trans ?_, (congrArg Core.icache hcore).trans (icDropped_icache ..)⟩
    · rw [icDropped_eq]
    · rw [icDropped_eq]
  case dcwb => exact exec_withM h (exec_dcwb a n s) (dcRun_lines h ha false a hn s.clk)
  case dcinv => exact exec_withM h (exec_dcinv a n s) (dcRun_lines h ha true a hn s.clk)

/-- Settles O22: prefetches, the line written back, fences and the cache instructions. That an acquire drops every line and a release writes
every line back is the model's choice (log 5). -/
theorem cacheInstructions : Obligations.CacheInstructions := ⟨prefetch, writeBack, fencesAndCaches⟩
end

section
/-! SUPPORT. A counterexample to O35. A `join` on a record whose counter is 0 writes an entry into its function's error log (R172), and the log
is a ring in the function's own memory (R382): where the host has set its address, memory does not stay as it was. -/
namespace Sys2Proof.Claims
open Sys2Proof.Machine

/-- One thread, whose a1 names a record at 0x20040. -/
def joiner : Wg := { launch := 5, threads := [{ a := [(1, 0x20040)], pc := 0x10000 }], warps := [{}] }
/-- The page tables that map the page at 0x20000 to frame 0x40000, strongly ordered, to read and write: a root entry and, in frame 0x50001, an
entry that names that frame again for the levels above the last, and the page's own. -/
def logTables : List Host.Cell :=
  [(0x0, 3), (0x2, 1), (0x4, 5), (0x500010000, 3), (0x500010002, 1), (0x500010004, 5), (0x500010020, 25), (0x500010024, 4)]
/-- Function 0 keeps its error log at 0x20000, in the page of the record. Every byte of the page is 0, the record's counter among them. -/
def countAtZero : State :=
  { m := { ig := some { core := 0, slot := 0, threads := [0], pc := 0x10000, w := 0, ext := none }, wgs := [(0, joiner)],
           fns := [(0, { state := 1, elog := 0x20000 })], cores := [(0, { tlb := [(2, { frame := 0x40000, rd := true, w := true })] })], mem := logTables } }
/-- The context in which its thread issues. -/
def joinCtx : Ctx := { m := countAtZero.m, ig := { core := 0, slot := 0, threads := [0], pc := 0x10000, w := 0, ext := none }, wg := joiner, act := [0] }
/-- A byte of memory after an instruction that answers a next state. -/
def byteAfter : Host.Outcome State Fault Refusal → Nat → Option Byte
  | .next t, a => some (Memory.read t.m.mem a)
  | _, _ => none

theorem countAtZero_issues : Issues countAtZero joinCtx := by rfl
theorem countAtZero_noMonitor : NoMonitor countAtZero := by
  intro e he t ht
  obtain rfl := List.mem_singleton.1 he
  obtain rfl := List.mem_singleton.1 ht
  rfl
/-- The counter may be read and written. -/
theorem countAtZero_reaches {k : Access} (hk : k = .read ∨ k = .write) :
    Reaches countAtZero joinCtx k 4 4 (joinCtx.act.take 1) (fun _ => aOf joinCtx 1 + 56) (fun _ => 0x400000078) := by
  intro j _
  have hva : aOf joinCtx 1 + 56 = 0x20078 := by decide
  simp only [hva]
  refine ⟨by decide, by decide, ⟨{ frame := 0x40000, rd := true, w := true }, rfl, ?_⟩, fun l _ => ⟨rfl, List.not_mem_nil⟩⟩
  rcases hk with rfl | rfl <;> rfl
theorem countAtZero_count : leNat (Memory.readN countAtZero.m.mem 0x400000078 4) = 0 := by decide +kernel
/-- Byte 12 of the entry is its source, 4 for a `join` (R382). -/
theorem countAtZero_logged : byteAfter (exec (.join 3 1) countAtZero) 0x40000000C = some 4 := by decide +kernel
theorem countAtZero_unlogged : Memory.read countAtZero.m.mem 0x40000000C = 0 := by decide +kernel

end Sys2Proof.Claims
end

section
open Sys2Proof Sys2Proof.Machine Sys2Proof.Claims

/-- Refutes O35: `join` on a counter that is already 0 does not leave memory unchanged where the function's error log is mapped. The entry that
R172 asks for is stored there. -/
theorem not_workInstructions : ¬Obligations.WorkInstructions := by
  unfold Obligations.WorkInstructions
  intro h
  obtain ⟨-, -, -, -, -, -, hjoin⟩ := h 3 1 0 0 countAtZero joinCtx countAtZero_issues
  obtain ⟨hzero, -, -⟩ := hjoin (fun _ => 0x400000078) ⟨rfl, rfl, rfl⟩ (.inl rfl) (List.cons_ne_nil _ _) countAtZero_noMonitor (by decide) (by decide)
    (countAtZero_reaches (.inl rfl)) (countAtZero_reaches (.inr rfl))
  obtain ⟨t, hnext, -, hmem⟩ := hzero countAtZero_count
  have hlogged : some (Memory.read t.m.mem 0x40000000C) = some 4 := (congrArg (byteAfter · 0x40000000C) hnext).symm.trans countAtZero_logged
  rw [hmem, countAtZero_unlogged] at hlogged
  exact absurd hlogged (by decide)
end

section
/-! SUPPORT. The timed events of a core (R155, R293, R140, R166, R215, R384, R400): what each does at its time, and that it is refused before
(log 28). -/
namespace Sys2Proof.Claims
open Sys2Proof.Machine

/-- An event that has a time: the machine it leaves, or its refusal. -/
theorem event_ite {s : State} {f : Clock → Mach → Option Mach} {p : Prop} [Decidable p] {m : Mach} (h : f s.clk s.m = if p then some m else none) :
    s.event f = if p then .next (withM s m) else .fault .notEnabled := by
  by_cases hp : p
  · rw [if_pos hp] at h ⊢; exact s.event_next f h
  · rw [if_neg hp] at h ⊢; exact s.event_fault f h
/-- One thread of a workgroup changes. -/
theorem withM_modThreads_one (s : State) (core slot : Nat) (w : Wg) (j : Nat) (f : Thread → Thread) :
    withM s (s.m.setWg core slot (w.modThreads [j] f)) = thread1 s core slot w j f := by
  simp only [thread1, Wg.modThreads, List.contains_cons, List.contains_nil, Bool.or_false, beq_iff_eq]

end Sys2Proof.Claims

namespace Sys2Proof.Machine

/-! ## The streak rescue (R155) -/

/-- With a second run to choose, a rescue takes the first above the mark of those after the head, else the second. -/
theorem rescueRun_cons (mark : Nat) (h0 h1 : IRun) (hs : List IRun) :
    rescueRun mark (h0 :: h1 :: hs) = some (((h1 :: hs).find? (fun r => decide (mark < r.pc.toNat))).getD h1) := by
  rw [rescueRun]
  cases (h1 :: hs).find? (fun r => decide (mark < r.pc.toNat)) <;> rfl
theorem Mach.rescueDue_iff (m : Mach) (core slot : Nat) (w : Wg) (x : Nat) :
    m.rescueDue core slot w x = true ↔ 4096 ≤ (w.warps.getD x {}).streak ∧ 2 ≤ (m.eligible core slot w x).length := by
  rw [Mach.rescueDue, Bool.and_eq_true, decide_eq_true_eq, decide_eq_true_eq]
/-- A warp in no fused group, of a slot that fuses none, issues its run alone. -/
theorem Mach.selectRun_alone {m : Mach} {w : Wg} {x : Nat} (clk : Clock) (core slot : Nat) (h : IRun) (hf : w.fusedOf x = none) :
    m.selectRun clk core slot w x h false = (m.noteGrant clk core w x [x], h.threads) := by
  simp only [Mach.selectRun, hf, Bool.false_eq_true, if_false]
/-- A warp's streak begins again from the run that a rescue chose. -/
def Wg.rescued (w : Wg) (x : Nat) (h : IRun) : Wg := w.setWarp x (fun y => { y with mark := h.pc.toNat, streak := 0 })
theorem Wg.num_rescued (w : Wg) (x : Nat) (h : IRun) : (w.rescued x h).num x = w.num x := by
  simp only [Wg.num, Wg.rescued, Wg.setWarp, List.getD_eq_getElem?_getD, List.getElem?_mapIdx, if_true]
  cases w.warps[x]? <;> rfl
/-- The core after a slot is granted: one more grant of this cycle, and the rotation moved to the warp unless its slot was owed to it. -/
theorem Mach.noteGrant_core (m : Mach) (clk : Clock) (core : Nat) (w : Wg) (x : Nat) (xs : List Nat) :
    ((m.noteGrant clk core w x xs).core core).granted = (m.core core).used clk ++ [xs.map w.num] ∧
      ((m.noteGrant clk core w x xs).core core).grantCycle = clk.cycle ∧
      ((m.core core).passed ≠ some (w.num x) → ((m.noteGrant clk core w x xs).core core).lastWarp = w.num x) := by
  simp only [Mach.noteGrant, Mach.modCore, Mach.setCore_core]
  refine ⟨trivial, trivial, fun h => if_neg ?_⟩
  simpa using h
theorem Mach.noteGrant_core_other (m : Mach) (clk : Clock) {core k : Nat} (h : k ≠ core) (w : Wg) (x : Nat) (xs : List Nat) :
    (m.noteGrant clk core w x xs).core k = m.core k := Mach.setCore_core_other m _ h

section
variable {s : State} {core slot x n : Nat} {w : Wg} (hw : s.m.wg? core slot = some w) (hn : s.m.nextWarp s.clk core = some (slot, x, n))
include hw hn
/-- The core's next slot goes to another warp, or the warp's streak calls for no rescue. -/
theorem execStreakRescue_fault {warp : Nat} (h : n ≠ warp ∨ s.m.rescueDue core slot w x = false) : execStreakRescue core warp s = .fault .notEnabled := by
  have hno : (n ≠ warp || !s.m.rescueDue core slot w x) = true := by simpa using h
  refine s.event_fault _ ?_
  simp only [hn, hw, Option.bind_eq_bind, Option.bind_some]
  exact if_pos hno
/-- The run that a rescue chooses issues next, and the warp's streak begins again from it. -/
theorem execStreakRescue_next (hd : s.m.rescueDue core slot w x = true) (hf : w.fusedOf x = none) {h : IRun}
    (hr : rescueRun (w.warps.getD x {}).mark (s.m.eligible core slot w x) = some h) :
    execStreakRescue core n s = .next (Claims.withM s
      { (s.m.setWg core slot (w.rescued x h)).noteGrant s.clk core (w.rescued x h) x [x] with pick := some (core, slot, h.threads) }) := by
  have hgo : ¬(n ≠ n || !s.m.rescueDue core slot w x) = true := by simp [hd]
  refine s.event_next _ ?_
  simp only [hn, hw, hr, Option.bind_eq_bind, Option.bind_some, if_neg hgo]
  exact congrArg (fun r : Mach × List Nat => some { r.1 with pick := some (core, slot, r.2) })
    (Mach.selectRun_alone (w := w.rescued x h) s.clk core slot h hf)
end

/-! ## Data that comes back (R140, R400) -/

/-- What another agent owes a lane in one piece, in bytes. -/
def Piece.owed? : Piece → Option Nat
  | .owed n => some n
  | _ => none
/-- The lengths of what a load is owed, in order. -/
def PendLoad.owed (p : PendLoad) : List Nat := (p.lanes.map (fun l => l.2.filterMap Piece.owed?)).flatten
/-- A lane's bytes join those of the lanes before it, and `r.2` is left of the data. -/
def takeLane (r : List (Nat × List Byte) × List (List Byte)) (l : Nat × List Piece) : List (Nat × List Byte) × List (List Byte) :=
  (r.1 ++ [(l.1, (fillLane l.2 r.2).1)], (fillLane l.2 r.2).2)
/-- Every lane's bytes when the data has come. -/
def PendLoad.filled (p : PendLoad) (data : List (List Byte)) : List (Nat × List Byte) := (p.lanes.foldl takeLane ([], data)).1
/-- The bytes of thread `i`: its lane's, or the first lane's where it has none (R140, R141). -/
def bytesFor (lanes : List (Nat × List Byte)) (i : Nat) : List Byte :=
  match lanes.find? (·.1 == i) with
  | some l => l.2
  | none => match lanes with
    | l :: _ => l.2
    | [] => []

/-- Lanes whose bytes have all been read need none of the data. -/
theorem foldl_takeLane_got (js : List Nat) (b : Nat → List Byte) (acc : List (Nat × List Byte)) (data : List (List Byte)) :
    (js.map (fun i => (i, [Piece.got (b i)]))).foldl takeLane (acc, data) = (acc ++ js.map (fun i => (i, b i)), data) := by
  induction js generalizing acc with
  | nil => simp
  | cons j js ih =>
    rw [List.map_cons, List.foldl_cons, List.map_cons, List.append_cons acc (j, b j)]
    exact ih (acc ++ [(j, b j)])
theorem bytesFor_of_mem {js : List Nat} (b : Nat → List Byte) {i : Nat} (h : i ∈ js) : bytesFor (js.map (fun j => (j, b j))) i = b i := by
  have hfind : (js.map (fun j => (j, b j))).find? (·.1 == i) = some (i, b i) := by
    induction js with
    | nil => cases h
    | cons j js ih =>
      by_cases hj : j = i
      · rw [hj]; simp
      · have hi : i ∈ js := (List.mem_cons.1 h).resolve_left (Ne.symm hj)
        simpa [hj] using ih hi
  unfold bytesFor
  rw [hfind]
theorem bytesFor_singleton (i : Nat) (bs : List Byte) (k : Nat) : bytesFor [(i, bs)] k = bs := by
  by_cases h : i = k <;> simp [bytesFor, h]
theorem Mach.acquire_of_empty {m : Mach} {core : Nat} (h : (m.core core).l1 = []) (scope : Nat) : m.acquire core scope = m := by
  rw [Mach.acquire, Mach.dropAll, h]
  exact ite_self m

/-- The machine in which the load is no longer outstanding. -/
def Mach.unload (m : Mach) (core id : Nat) : Mach := m.modCore core (fun c => { c with loads := c.loads.filter (·.id ≠ id) })
/-- Each of the load's threads that has not exited holds its bytes. -/
def Wg.loaded (w : Wg) (p : PendLoad) (f : Nat → List Byte) : Wg :=
  { w with threads := w.threads.mapIdx (fun i t => if i ∈ p.threads ∧ t.status ≠ .exited then (p.dst.upd (f i)).apply t else t) }
theorem Mach.modWg_loaded {m : Mach} {core : Nat} {w : Wg} {p : PendLoad} (hw : m.wg? core p.slot = some w) {f g : Nat → List Byte}
    (h : ∀ i ∈ p.threads, g i = f i) :
    m.modWg core p.slot (fun w => { w with threads := w.threads.mapIdx (fun i t =>
      if p.threads.contains i && t.status ≠ .exited then (p.dst.upd (g i)).apply t else t) }) = m.setWg core p.slot (w.loaded p f) := by
  rw [Mach.modWg_eq _ _ hw, Wg.loaded]
  refine congrArg (fun ts => m.setWg core p.slot { w with threads := ts }) (Wg.mapIdx_threads_congr fun i => ?_)
  by_cases hi : i ∈ p.threads
  · rw [h i hi]; simp [hi]
  · simp [hi]

section
variable {s : State} {core id : Nat} {p : PendLoad} {data : List (List Byte)} (hp : (s.m.core core).loads.find? (·.id == id) = some p)
include hp
/-- The data is not what is owed, or only the serial phase may bring it. -/
theorem execLoadReturn_fault (h : p.owed ≠ data.map (·.length) ∨ p.keyed = true ∧ p.owed ≠ []) :
    execLoadReturn core id data s = .fault .notEnabled := by
  have hno : (p.owed ≠ data.map (·.length) || (p.keyed && !p.owed.isEmpty)) = true := by simpa using h
  refine s.event_fault _ ?_
  simp only [hp, Option.bind_eq_bind, Option.bind_some]
  exact if_pos hno
/-- What is owed has come, where no older copy of a line is to be dropped for it (R221). -/
theorem execLoadReturn_next {w : Wg} {f : Nat → List Byte} (hw : s.m.wg? core p.slot = some w) (hd : p.dst ≠ .pc) (ho : p.owed = data.map (·.length))
    (hk : p.owed = [] ∨ p.keyed = false ∧ (p.order = .plain ∨ (s.m.core core).l1 = []))
    (hf : ∀ i ∈ p.threads, bytesFor (p.filled data) i = f i) :
    execLoadReturn core id data s = .next (Claims.withM s ((s.m.unload core id).setWg core p.slot (w.loaded p f))) := by
  have hgo : ¬(p.owed ≠ data.map (·.length) || (p.keyed && !p.owed.isEmpty)) = true := by
    rcases hk with hk | ⟨hk, -⟩ <;> simp [hk, ← ho]
  have hacquire : (if p.order ≠ .plain && !p.owed.isEmpty then (s.m.unload core id).acquire core p.scope else s.m.unload core id) = s.m.unload core id := by
    rcases hk with hk | ⟨-, hk | hk⟩
    · simp [hk]
    · simp [hk]
    · have hl1 : ((s.m.unload core id).core core).l1 = [] := by rw [Mach.unload, Mach.modCore, Mach.setCore_core]; exact hk
      rw [Mach.acquire_of_empty hl1, ite_self]
  refine s.event_next _ ?_
  simp only [hp, Option.bind_eq_bind, Option.bind_some]
  refine (if_neg hgo).trans ((if_neg hd).trans (congrArg some ?_))
  refine Eq.trans (congrArg (fun m : Mach => m.modWg core p.slot _) hacquire) ?_
  exact Mach.modWg_loaded (m := s.m.unload core id) hw hf
end

section
variable {s : State} {core id : Nat} {w : Wg} {p : PendLoad} (hw : s.m.wg? core p.slot = some w)
  (hp : (s.m.core core).loads.find? (·.id == id) = some p) (hd : p.dst ≠ .pc)
include hw hp hd
/-- Every lane has its bytes: each thread of the load takes those of its own lane. -/
theorem execLoadReturn_lanes {b : Nat → List Byte} (hl : p.lanes = p.threads.map (fun i => (i, [.got (b i)]))) :
    execLoadReturn core id [] s = .next (Claims.withM s ((s.m.unload core id).setWg core p.slot (w.loaded p b))) := by
  have howed : p.owed = [] := by rw [PendLoad.owed, hl]; simp [Piece.owed?]
  have hfilled : p.filled [] = p.threads.map (fun i => (i, b i)) := by rw [PendLoad.filled, hl, foldl_takeLane_got]; rfl
  exact execLoadReturn_next hp hw hd howed (.inl howed) fun i hi => by rw [hfilled, bytesFor_of_mem b hi]
/-- One lane has read for all the threads of the load. -/
theorem execLoadReturn_lane {i : Nat} {bs : List Byte} (hl : p.lanes = [(i, [.got bs])]) :
    execLoadReturn core id [] s = .next (Claims.withM s ((s.m.unload core id).setWg core p.slot (w.loaded p (fun _ => bs)))) := by
  have howed : p.owed = [] := by rw [PendLoad.owed, hl]; rfl
  have hfilled : p.filled [] = [(i, bs)] := by rw [PendLoad.filled, hl]; rfl
  exact execLoadReturn_next hp hw hd howed (.inl howed) fun k _ => by rw [hfilled, bytesFor_singleton]
/-- What the one lane is owed comes, unless it is not what is owed or the serial phase is to bring it. -/
theorem execLoadReturn_owed {i n : Nat} (hl : p.lanes = [(i, [.owed n])]) (ho : p.order = .plain ∨ (s.m.core core).l1 = []) (bs : List Byte) :
    execLoadReturn core id [bs] s = if bs.length = n ∧ p.keyed = false
      then .next (Claims.withM s ((s.m.unload core id).setWg core p.slot (w.loaded p (fun _ => bs)))) else .fault .notEnabled := by
  have howed : p.owed = [n] := by rw [PendLoad.owed, hl]; rfl
  have hfilled : p.filled [bs] = [(i, bs)] := by rw [PendLoad.filled, hl]; rfl
  split
  · next h =>
    obtain ⟨hlen, hkeyed⟩ := h
    exact execLoadReturn_next hp hw hd (by rw [howed, ← hlen]; rfl) (.inr ⟨hkeyed, ho⟩) fun k _ => by rw [hfilled, bytesFor_singleton]
  · next h =>
    refine execLoadReturn_fault hp ?_
    rw [howed]
    by_cases hlen : bs.length = n
    · exact .inr ⟨eq_true_of_ne_false fun hk => h ⟨hlen, hk⟩, List.cons_ne_nil _ _⟩
    · exact .inl fun e => hlen (List.cons.inj e).1.symm
end

/-! ## Sleeps, rebuilds and monitors (R127, R166, R293) -/

section
variable {s : State} {core slot j : Nat} {w : Wg} (hw : s.m.wg? core slot = some w)
include hw
theorem execSleepWake_eq {d : Nat} (hd : (w.thread j).status = .asleep d) : execSleepWake core slot j s =
    if d ≤ s.clk.time then .next (Claims.thread1 s core slot w j (fun t => { t with status := .ready })) else .fault .notEnabled := by
  unfold execSleepWake
  rw [← Claims.withM_modThreads_one]
  refine Claims.event_ite ?_
  simp only [hw, hd, Option.bind_eq_bind, Option.bind_some]
theorem execRegroupRebuildDone_eq {r d : Nat} (hr : w.rebuild.find? (fun e => e.1 == r) = some (r, d)) : execRegroupRebuildDone core slot r s =
    if d ≤ s.clk.cycle then .next (Claims.withM s (s.m.setWg core slot { w with
      rebuild := w.rebuild.filter (fun e => e.1 != r),
      threads := w.threads.map (fun t => if t.status = .rebuilding ∧ w.role t.warp = r then { t with status := .ready } else t) }))
    else .fault .notEnabled := by
  unfold execRegroupRebuildDone
  refine Claims.event_ite ?_
  simp only [hw, hr, Option.bind_eq_bind, Option.bind_some, Bool.and_eq_true, beq_iff_eq]
theorem Mach.endMonWait_eq (hs : (w.thread j).status = .waiting .monitor) (ok : Thread → Bool) : s.m.endMonWait core slot j ok =
    if ok (w.thread j) = true then some (s.m.setWg core slot (w.modThreads [j] (fun t => { t.advance 8 with status := .ready, mon := none }))) else none := by
  simp only [Mach.endMonWait, hw, hs, Option.bind_eq_bind, Option.bind_some, beq_self_eq_true, Bool.true_and]
theorem execMonitorWake_eq (hs : (w.thread j).status = .waiting .monitor) {l : Nat} {hit : Bool} (hm : (w.thread j).mon = some (l, hit)) :
    execMonitorWake core slot j s = if hit then .next (Claims.thread1 s core slot w j (fun t => { t.advance 8 with status := .ready, mon := none }))
      else .fault .notEnabled := by
  unfold execMonitorWake
  rw [← Claims.withM_modThreads_one]
  refine Claims.event_ite ?_
  simp only [Mach.endMonWait_eq hw hs, hm]
theorem execMonitorTimeout_eq (hs : (w.thread j).status = .waiting .monitor) {n t0 : Nat} (ht : (w.thread j).since = some (n, t0)) :
    execMonitorTimeout core slot j s =
      if t0 + 65536 ≤ s.clk.time then .next (Claims.thread1 s core slot w j (fun t => { t.advance 8 with status := .ready, mon := none }))
      else .fault .notEnabled := by
  unfold execMonitorTimeout
  rw [← Claims.withM_modThreads_one]
  refine Claims.event_ite ?_
  simp only [Mach.endMonWait_eq hw hs, ht, decide_eq_true_eq]
end

/-! ## A line's write-back (R215) -/

theorem execL1WritebackTimeout_eq {s : State} {core line : Nat} {l : Line} (hl : tget (s.m.core core).l1 line = some l) :
    execL1WritebackTimeout core line s = if l.dirty.any id then .next (Claims.withM s (s.m.writeBack core line)) else .fault .notEnabled := by
  unfold execL1WritebackTimeout
  refine Claims.event_ite ?_
  simp only [hl]
/-- A write-back changes memory, one line of its own core, and what the monitors saw. -/
theorem Mach.writeBack_frame (m : Mach) (core line : Nat) : (m.writeBack core line).fns = m.fns ∧ (m.writeBack core line).host = m.host ∧
    ∀ k, k ≠ core → (m.writeBack core line).core k = m.core k := by
  unfold Mach.writeBack
  split
  · exact ⟨rfl, rfl, fun _ _ => rfl⟩
  · dsimp only
    split
    · split
      · exact ⟨rfl, rfl, fun k hk => Mach.setCore_core_other _ _ hk⟩
      · exact ⟨rfl, rfl, fun k hk => Mach.setCore_core_other _ _ hk⟩
    · exact ⟨rfl, rfl, fun _ _ => rfl⟩

/-! ## The end of an aged interval (R384) -/

theorem Mach.dropLines_onlyCores {m : Mach} {core : Nat} (h : (m.core core).l1 = []) (ls : List Nat) :
    m.OnlyCores (ls.foldl (fun m l => m.dropLine core l) m) := by
  induction ls generalizing m with
  | nil => exact .refl m
  | cons l ls ih =>
    have hdrop : m.dropLine core l = m.modCore core (fun c => { c with l1 := terase c.l1 l }) := by rw [Mach.dropLine, Mach.writeBack_of_empty h]
    have hnone : ((m.dropLine core l).core core).l1 = [] := by rw [hdrop, Mach.modCore, Mach.setCore_core, h]; rfl
    have hfirst : m.OnlyCores (m.dropLine core l) := by rw [hdrop]; exact m.onlyCores_modCore core _
    exact hfirst.trans (ih hnone)
/-- A buffered store to this device's memory, on a core that holds no line and with no monitor armed, is its bytes in memory. -/
theorem Mach.performBuf_here {m : Mach} {core : Nat} {b : BufStore} (clk : Clock) (vf lid : Nat) (hd : b.dev = none) (ho : b.ord = none)
    (hl : (m.core core).l1 = []) (hm : ∀ e ∈ m.wgs, ∀ t ∈ e.2.threads, t.mon = none) :
    (m.performBuf clk core vf lid b).mem = Memory.writeL m.mem b.pa b.data ∧ (m.performBuf clk core vf lid b).wgs = m.wgs ∧
      (m.performBuf clk core vf lid b).fns = m.fns := by
  obtain ⟨cs, hdrop⟩ : ∃ cs, (linesOf b.pa b.data.length).foldl (fun m l => m.dropLine core l) m = { m with cores := cs } :=
    ⟨_, Mach.dropLines_onlyCores hl _⟩
  have hwrite : m.performBuf clk core vf lid b = ({ m with cores := cs } : Mach).physWrite b.pa b.data := by
    simp only [Mach.performBuf, ho, hd, hdrop]
    exact Mach.hitLines_unarmed (m := ({ m with cores := cs } : Mach).physWrite b.pa b.data) hm _
  rw [hwrite]
  exact ⟨rfl, rfl, rfl⟩
/-- No thread of the workgroup has armed a monitor. -/
def Wg.unarmed (w : Wg) : Bool := w.threads.all (fun t => t.mon.isNone)
theorem Wg.unarmed_iff (w : Wg) : w.unarmed = true ↔ ∀ t ∈ w.threads, t.mon = none := by simp [Wg.unarmed]
theorem mem_of_tget {α : Type} {m : Sparse α} {k : Nat} {x : α} (h : tget m k = some x) : (k, x) ∈ m := by
  induction m with
  | nil => cases h
  | cons e m ih =>
    obtain ⟨j, y⟩ := e
    rw [tget] at h
    split at h
    · next hj => rw [hj, Option.some.inj h]; exact List.mem_cons_self
    · split at h
      · cases h
      · exact List.mem_cons_of_mem _ (ih h)
/-- A workgroup put back with the threads it had arms no monitor. -/
theorem Mach.setWg_unarmed {m : Mach} {core slot : Nat} {w x : Wg} (hw : m.wg? core slot = some w) (ht : x.threads = w.threads)
    (hm : ∀ e ∈ m.wgs, ∀ t ∈ e.2.threads, t.mon = none) : ∀ e ∈ (m.setWg core slot x).wgs, ∀ t ∈ e.2.threads, t.mon = none := by
  have hall : m.wgs.all (fun e => e.2.unarmed) = true := List.all_eq_true.2 fun e he => e.2.unarmed_iff.2 (hm e he)
  have hx : x.unarmed = true := x.unarmed_iff.2 (ht ▸ hm _ (mem_of_tget hw))
  exact fun e he => e.2.unarmed_iff.1 (List.all_eq_true.1 (all_tset (fun e => e.2.unarmed) m.wgs _ x hall hx) e he)
/-- An interval with one buffered store is sealed: the store is performed, and the buffer stands empty (R384, R385). -/
theorem Mach.seal_one {m : Mach} {core slot : Nat} {w : Wg} {b : BufStore} (clk : Clock) (reason : Nat) (hw : m.wg? core slot = some w) (hb : w.sbuf = [b])
    (hd : b.dev = none) (ho : b.ord = none) (hr : w.hdr.rollback = true) (hs : w.sealed = 0) (hl : (m.core core).l1 = [])
    (hm : ∀ e ∈ m.wgs, ∀ t ∈ e.2.threads, t.mon = none) :
    (m.seal clk core slot reason).mem = Memory.writeL m.mem b.pa b.data ∧
      (m.seal clk core slot reason).wgs = (m.setWg core slot { w with sbuf := [], sealed := reason }).wgs ∧
      (m.seal clk core slot reason).fns = m.fns := by
  have hdrain : m.drainStores clk core slot = (m.setWg core slot { w with sbuf := [] }).performBuf clk core w.vf w.launch b := by
    simp only [Mach.drainStores, hw, hb, List.foldl_cons, List.foldl_nil]
  obtain ⟨hmem, hwgs, hfns⟩ := Mach.performBuf_here (m := m.setWg core slot { w with sbuf := [] }) clk w.vf w.launch hd ho hl
    (Mach.setWg_unarmed hw (x := { w with sbuf := [] }) rfl hm)
  rw [← hdrain] at hmem hwgs hfns
  have hleft : (m.drainStores clk core slot).wg? core slot = some { w with sbuf := [] } := by
    rw [Mach.wg?, hwgs]; exact Mach.setWg_wg? ..
  have hseal : m.seal clk core slot reason = (m.drainStores clk core slot).setWg core slot { w with sbuf := [], sealed := reason } := by
    simp only [Mach.seal, hw, hr, hs, beq_self_eq_true, Bool.and_self, if_true, Mach.modWg_eq _ _ hleft]
  rw [hseal]
  refine ⟨hmem, ?_, hfns⟩
  rw [Mach.setWg, hwgs, Mach.setWg, tset_tset]; rfl

theorem execStoreBufferAgeOverflow_eq {s : State} {core slot : Nat} {w : Wg} {b : BufStore} (hw : s.m.wg? core slot = some w) (hb : w.sbuf = [b]) :
    execStoreBufferAgeOverflow core slot s =
      if b.time + 1048576 ≤ s.clk.cycle then .next (Claims.withM s (s.m.seal s.clk core slot 3)) else .fault .notEnabled := by
  unfold execStoreBufferAgeOverflow
  refine Claims.event_ite ?_
  simp only [hw, hb, List.any_cons, List.any_nil, Bool.or_false, decide_eq_true_eq]

end Sys2Proof.Machine
end

section
open Sys2Proof Sys2Proof.Machine Sys2Proof.Claims

/-- Settles O37: each event by its own lemma, and the rescue and the write-back by what they leave of the core and of memory. That an event is
refused before its time is the model's choice (log 28). -/
theorem coreEvents : Obligations.CoreEvents := by
  intro core slot warp j s w hw
  refine ⟨fun x n hn => ⟨fun h => ?idle, fun h0 h1 hs hwarp hf he hstreak => ?rescue⟩, fun d hd => execSleepWake_eq hw hd,
    fun p b hp hslot hd => ?loads, fun r d hr => execRegroupRebuildDone_eq hw hr,
    fun hs => ⟨fun l hit hm => execMonitorWake_eq hw hs hm, fun n t0 ht => execMonitorTimeout_eq hw hs ht⟩,
    fun l hl hb hn hwf => ?line, fun b hb hdev hord hr hsealed hl1 hm => ?aged⟩
  case idle =>
    refine execStreakRescue_fault hw hn (h.imp_right fun h => ?_)
    rw [Bool.eq_false_iff, Ne, Mach.rescueDue_iff]
    omega
  case rescue =>
    subst hwarp
    have hdue : s.m.rescueDue core slot w x = true := (Mach.rescueDue_iff ..).2 ⟨hstreak, by rw [he]; simp⟩
    have hrun := (congrArg (rescueRun (w.warps.getD x {}).mark) he).trans (rescueRun_cons ..)
    obtain ⟨hgranted, hcycle, hlast⟩ := Mach.noteGrant_core (s.m.setWg core slot (w.rescued x _)) s.clk core (w.rescued x _) x [x]
    rw [Wg.num_rescued] at hlast
    rw [List.map_singleton, Wg.num_rescued] at hgranted
    exact ⟨_, execStreakRescue_next hw hn hdue hf hrun, rfl, rfl, rfl, rfl, rfl, rfl, rfl, fun k hk => Mach.noteGrant_core_other _ _ hk ..,
      hgranted, hcycle, hlast⟩
  case loads =>
    subst hslot
    obtain rfl : p.id = j := by simpa using List.find?_some hp
    exact ⟨fun hl => execLoadReturn_lanes hw hp hd hl, fun i hl => execLoadReturn_lane hw hp hd hl, fun i n bs hl ho => execLoadReturn_owed hw hp hd hl ho bs⟩
  case line =>
    have hexec : exec (.l1WritebackTimeout core j) s = _ := execL1WritebackTimeout_eq hl
    split
    · next hdirty =>
      obtain ⟨hfns, hhost, hcores⟩ := s.m.writeBack_frame core j
      refine ⟨_, hexec.trans (if_pos hdirty), hfns, hhost, hcores, ?_, fun a => ?_⟩
      · exact (congrArg (fun k => tget k.l1 j) (Mach.writeBack_core hl hdirty)).trans (tget_tset_same ..)
      · by_cases ha : a / 128 = j
        · subst ha
          have hread := Mach.writeBack_read_in hl hwf hb hn (Nat.mod_lt a (by decide : 0 < 128))
          rw [show a / 128 * 128 + a % 128 = a by omega] at hread
          exact hread.trans (by simp)
        · rw [if_neg fun h => ha h.1]
          exact Mach.writeBack_read_out hl hwf ha
    · next hclean => exact hexec.trans (if_neg hclean)
  case aged =>
    have hexec : exec (.storeBufferAgeOverflow core slot) s = _ := execStoreBufferAgeOverflow_eq hw hb
    split
    · next hage =>
      obtain ⟨hmem, hwgs, hfns⟩ := Mach.seal_one s.clk 3 hw hb hdev hord hr hsealed hl1 hm
      exact ⟨_, hexec.trans (if_pos hage), hwgs, hmem, hfns⟩
    · next hage => exact hexec.trans (if_neg hage)
end

section
/-! SUPPORT. Accesses of firmware (R168, R170, R176): what reading and writing a range through the I/O die does to the machine, and what
completions (R445) and log entries (R382) leave of it. -/
namespace Sys2Proof.Machine

/-! ## The I/O die's lines -/

/-- Lines dropped and counted for a core that holds none change the counters alone; every core stays as it was. -/
theorem Mach.dropLines_of_empty {m : Mach} {core : Nat} (h : (m.core core).l1 = []) (ls : List Nat) :
    ∃ cs x, ls.foldl (fun m l => (m.dropLine core l).countLine core (l * 128)) m = { m with cores := cs, access := x } ∧
      ∀ k, ({ m with cores := cs } : Mach).core k = m.core k := by
  induction ls generalizing m with
  | nil => exact ⟨m.cores, m.access, rfl, fun _ => rfl⟩
  | cons l ls ih =>
    have hdrop : m.dropLine core l = m.setCore core (m.core core) := by
      rw [Mach.dropLine, Mach.writeBack_of_empty h, Mach.modCore, h, terase, ← h]
    have hcore (k : Nat) : (m.setCore core (m.core core)).core k = m.core k := by
      by_cases hk : k = core
      · rw [hk, Mach.setCore_core]
      · exact Mach.setCore_core_other m _ hk
    rw [List.foldl_cons, hdrop]
    obtain ⟨cs, x, hfold, hcs⟩ := ih (m := (m.setCore core (m.core core)).countLine core (l * 128)) ((congrArg Core.l1 (hcore core)).trans h)
    exact ⟨cs, x, hfold, fun k => (hcs k).trans (hcore k)⟩
/-- Lines written back and counted for a core that holds none change the counters alone. -/
theorem Mach.writeBackLines_of_empty {m : Mach} {core : Nat} (h : (m.core core).l1 = []) (ls : List Nat) :
    ∃ x, ls.foldl (fun m l => (m.writeBack core l).countLine core (l * 128)) m = { m with access := x } := by
  induction ls generalizing m with
  | nil => exact ⟨m.access, rfl⟩
  | cons l ls ih =>
    rw [List.foldl_cons, Mach.writeBack_of_empty h]
    exact ih (m := m.countLine core (l * 128)) h

/-! ## One page of a range -/

theorem spansOf_one {va n : Nat} (h0 : 0 < n) (h : va % 65536 + n ≤ 65536) : spansOf va n = [(va, n)] := by
  rw [spansOf, pageSpans, if_neg (Nat.ne_of_gt h0)]
  exact if_pos (by omega)
/-- Answers that agree are the worst of them. -/
theorem foldl_worse_ok {ks : List Access} {f : Access → Trans} {pa kind : Nat} (h0 : ks ≠ []) (h : ∀ k ∈ ks, f k = .ok pa kind) :
    (ks.map f).foldl worse (.ok 0 0) = .ok pa kind := by
  have hsame (ts : List Trans) (ht : ∀ t ∈ ts, t = .ok pa kind) : ts.foldl worse (.ok pa kind) = .ok pa kind :=
    foldl_eq_self fun t hm => by rw [ht t hm]; rfl
  obtain ⟨k, ks, rfl⟩ := List.exists_cons_of_ne_nil h0
  obtain ⟨hk, hks⟩ := List.forall_mem_cons.1 h
  rw [List.map_cons, List.foldl_cons, hk]
  exact hsame _ fun t ht => by
    obtain ⟨k, hk, rfl⟩ := List.mem_map.1 ht
    exact hks k hk
/-- The part that firmware accesses: all of a range that lies on one page. -/
def fwPart (va n pa kind : Nat) : Part := { thread := 0, lane := 0, va, n, tr := .ok pa kind }
theorem Mach.bulkRead_fwPart {m : Mach} (h : (m.core ioDie).l1 = []) (va n pa kind : Nat) :
    ∃ x, m.bulkRead ioDie [fwPart va n pa kind] = (Memory.readN m.mem pa n, { m with access := x }) := by
  obtain ⟨x, hx⟩ := Mach.writeBackLines_of_empty h (linesOf pa n)
  refine ⟨x, ?_⟩
  simp only [Mach.bulkRead, fwPart, hx, List.append_nil]

/-- `m'` is `m` with `bs` stored at `pa` by firmware: the workgroups, the functions, host memory and what every core holds are as they were. -/
structure Mach.Stored (m m' : Mach) (pa : Nat) (bs : List Byte) : Prop where
  mem : m'.mem = Memory.writeL m.mem pa bs
  host : m'.host = m.host
  wgs : m'.wgs = m.wgs
  fns : m'.fns = m.fns
  nextId : m'.nextId = m.nextId
  core : ∀ k, m'.core k = m.core k
/-- The counters of line accesses do not matter. -/
theorem Mach.Stored.of_counted {m m' : Mach} {x : Sparse Nat} {pa : Nat} {bs : List Byte} (h : ({ m with access := x } : Mach).Stored m' pa bs) :
    m.Stored m' pa bs := ⟨h.mem, h.host, h.wgs, h.fns, h.nextId, h.core⟩
theorem Mach.bulkWrite_fwPart {m : Mach} (h : (m.core ioDie).l1 = []) (hm : ∀ e ∈ m.wgs, ∀ t ∈ e.2.threads, t.mon = none) (va pa kind : Nat)
    {n : Nat} {bs : List Byte} (hn : bs.length = n) : m.Stored (m.bulkWrite ioDie [fwPart va n pa kind] bs) pa bs := by
  subst hn
  obtain ⟨cs, x, hx, hcs⟩ := Mach.dropLines_of_empty h (linesOf pa bs.length)
  have hwrite : m.bulkWrite ioDie [fwPart va bs.length pa kind] bs = ({ m with cores := cs, access := x } : Mach).physWrite pa bs := by
    simp only [Mach.bulkWrite, fwPart, hx, List.take_length]
    exact Mach.hitLines_unarmed (m := ({ m with cores := cs, access := x } : Mach).physWrite pa bs) hm _
  rw [hwrite]
  exact ⟨rfl, rfl, rfl, rfl, rfl, hcs⟩

/-! ## Completions (R445) -/

theorem Mach.fn_congr {m m' : Mach} (hf : m'.fns = m.fns) (vf : Nat) : m'.fn vf = m.fn vf := by rw [Mach.fn, hf]; rfl
theorem Mach.modFn_fns_congr {m m' : Mach} (hf : m'.fns = m.fns) (vf : Nat) (g : Fn → Fn) : (m'.modFn vf g).fns = (m.modFn vf g).fns := by
  simp only [Mach.modFn, Mach.setFn, Mach.fn, hf]

/-- Writing completions changes the functions, host memory and what is posted to the host. -/
theorem Mach.writeCompls_frame (m : Mach) (vf n : Nat) :
    (m.writeCompls vf n).mem = m.mem ∧ (m.writeCompls vf n).wgs = m.wgs ∧ (m.writeCompls vf n).cores = m.cores := by
  induction n generalizing m with
  | zero => exact ⟨rfl, rfl, rfl⟩
  | succ n ih =>
    rw [Mach.writeCompls]
    dsimp only
    split
    · exact ⟨rfl, rfl, rfl⟩
    · split
      · exact ⟨rfl, rfl, rfl⟩
      · obtain ⟨hmem, hwgs, hcores⟩ := ih _
        rw [hmem, hwgs, hcores]
        split
        · unfold Mach.postHost; split <;> exact ⟨rfl, rfl, rfl⟩
        · exact ⟨rfl, rfl, rfl⟩
/-- What is written rests on the functions and host memory alone. -/
theorem Mach.writeCompls_congr {m m' : Mach} (hf : m'.fns = m.fns) (hh : m'.host = m.host) (vf n : Nat) :
    (m'.writeCompls vf n).fns = (m.writeCompls vf n).fns ∧ (m'.writeCompls vf n).host = (m.writeCompls vf n).host := by
  induction n generalizing m m' with
  | zero => exact ⟨hf, hh⟩
  | succ n ih =>
    have hfn := Mach.fn_congr hf vf
    have hpost (m : Mach) (vec : Nat) (bs : List Byte) : (m.postHost vf vec bs).fns = m.fns ∧ (m.postHost vf vec bs).host = m.host := by
      unfold Mach.postHost; split <;> exact ⟨rfl, rfl⟩
    rw [Mach.writeCompls, Mach.writeCompls]
    dsimp only
    rw [hfn]
    split
    · exact ⟨hf, hh⟩
    · split
      · exact ⟨hf, hh⟩
      · refine ih ?_ ?_
        · split <;> simp [(hpost _ _ _).1, Mach.setReg, Mach.modFn, Mach.setFn, Mach.fn, hf]
        · split <;> simp [(hpost _ _ _).2, Mach.setReg, hh]
theorem Mach.finish_frame (m : Mach) (c : Cmd) (op st v : Nat) :
    (m.finish c op st v).mem = m.mem ∧ (m.finish c op st v).wgs = m.wgs ∧ (m.finish c op st v).cores = m.cores :=
  Mach.writeCompls_frame ..
theorem Mach.finish_congr {m m' : Mach} (hf : m'.fns = m.fns) (hh : m'.host = m.host) (c : Cmd) (op st v : Nat) :
    (m'.finish c op st v).fns = (m.finish c op st v).fns ∧ (m'.finish c op st v).host = (m.finish c op st v).host := by
  have hmod := Mach.modFn_fns_congr hf c.ring
    (fun f => { f with compl := f.compl ++ [(leBytes 2 c.tag ++ leBytes 1 op ++ leBytes 1 st ++ leBytes 4 0 ++ leBytes 8 v, c.irq)] })
  have hwrite := Mach.writeCompls_congr hmod hh c.ring
  rw [Mach.finish, Mach.postCompl, Mach.fn_congr hmod]
  exact hwrite _

end Sys2Proof.Machine

namespace Sys2Proof.Claims
open Sys2Proof.Machine

/-! ## Accesses of firmware (R168) -/

/-- A walk reads memory alone. -/
theorem walkFrom_congr {m m' : Mach} (h : m'.mem = m.mem) (at_ : Nat) (idx : List Nat) : walkFrom m' at_ idx = walkFrom m at_ idx := by
  have hnat (a k : Nat) : m'.physNat a k = m.physNat a k := by rw [Mach.physNat, h]; rfl
  induction idx generalizing at_ with
  | nil => simp only [walkFrom, hnat]
  | cons i idx ih => simp only [walkFrom, hnat, ih]
theorem translate_congr {m m' : Mach} {vf : Nat} (h : m'.mem = m.mem) (hr : (m'.fn vf).root = (m.fn vf).root) (va : Nat) (k : Access) :
    Machine.translate m' vf va k = Machine.translate m vf va k := by
  rw [Machine.translate, Machine.walk, hr, walkFrom_congr h]; rfl

section
variable {s : State} {vf va n pa : Nat} {ks : List Access} (h : FwAt s vf va n ks pa)
include h

theorem FwAt.ioDie_empty : (s.m.core ioDie).l1 = [] := by
  obtain ⟨-, -, -, -, hl, -⟩ := h
  exact hl
/-- The range is one part, which firmware may access. -/
theorem FwAt.fwAccess : ∃ kind, s.m.fwAccess vf va n ks = .ok [fwPart va n pa kind] := by
  obtain ⟨hn, hpage, hks, ⟨kind, htr⟩, -, hclean⟩ := h
  have hpoison : bulkPoison s.m [fwPart va n pa kind] = none := by
    have hnone : (linesOf pa n).find? s.m.poison.contains = none := List.find?_eq_none.2 fun l hl => by simpa using hclean l hl
    simp only [bulkPoison, fwPart, List.findSome?_cons, hnone, Option.map_none, List.findSome?_nil]
  have hok : bulkRes s.m [fwPart va n pa kind] = .ok := rfl
  refine ⟨kind, ?_⟩
  rw [fwPart] at hpoison hok
  simp only [Mach.fwAccess, spansOf_one hn hpage, List.map_cons, List.map_nil, foldl_worse_ok hks htr, hok, hpoison, Option.isSome_none, Bool.and_false,
    Bool.false_eq_true, if_false]
  rfl
/-- It stays one in a machine with the same memory, the same page tables and no line in the I/O die. -/
theorem FwAt.of_same {m : Mach} (hmem : m.mem = s.m.mem) (hp : m.poison = s.m.poison) (hr : (m.fn vf).root = (s.m.fn vf).root)
    (hl : (m.core ioDie).l1 = []) : FwAt (withM s m) vf va n ks pa := by
  obtain ⟨hn, hpage, hks, ⟨kind, htr⟩, -, hclean⟩ := h
  exact ⟨hn, hpage, hks, ⟨kind, fun k hk => (translate_congr hmem hr va k).trans (htr k hk)⟩, hl, fun l hm => hp ▸ hclean l hm⟩
end
/-- Firmware writes a range that it may write. -/
theorem FwAt.write {s : State} {vf va n pa : Nat} {ks : List Access} {bs : List Byte} (h : FwAt s vf va n ks pa) (hm : NoMonitor s) (hn : bs.length = n) :
    ∃ ps, s.m.fwAccess vf va n ks = .ok ps ∧ s.m.Stored (s.m.bulkWrite ioDie ps bs) pa bs := by
  obtain ⟨kind, hps⟩ := h.fwAccess
  exact ⟨_, hps, Mach.bulkWrite_fwPart h.ioDie_empty hm va pa kind hn⟩

end Sys2Proof.Claims
end

section
/-! SUPPORT. The graph walker (R176, R177): what a node's kind makes of the machine, where its graph and what it names can be reached. -/
namespace Sys2Proof.Machine

/-! ## What a header's checks and a refusal rest on -/

theorem Mach.headerCheck_congr {m m' : Mach} {vf : Nat} (hg : (m'.fn vf).g = (m.fn vf).g) (hh : (m'.fn vf).held = (m.fn vf).held)
    (hl : (m'.fn vf).launches = (m.fn vf).launches) (r : List Byte) (h : Header) : m'.headerCheck vf r h = m.headerCheck vf r h := by
  rw [Mach.headerCheck, Fn.heldCount, hg, hh, hl]; rfl
/-- A launch that passes the checks finds a place among 64 (R168, check 8). -/
theorem Mach.launches_lt_of_headerCheck {m : Mach} {vf : Nat} {r : List Byte} {h : Header} (hc : m.headerCheck vf r h = 0) :
    (m.fn vf).launches.length < 64 := by
  refine Nat.lt_of_not_le fun hfull => ?_
  rw [Mach.headerCheck, if_pos hfull] at hc
  grind
theorem Mach.postHost_fns (m : Mach) (vf vec : Nat) (bs : List Byte) : (m.postHost vf vec bs).fns = m.fns := by
  unfold Mach.postHost; split <;> rfl
/-- A function after an entry has been written into its error log: the log and its numbering. -/
def Fn.logged (f : Fn) (clk : Clock) (source code info core aux addr : Nat) : Fn :=
  { f with seq := (f.seq + 1) % 4294967296,
           log := (f.log ++ [({ time := clk.time, seq := f.seq, source, code, info, core, aux, addr } : LogEntry)]).drop (f.log.length + 1 - 256) }
theorem Fn.logged_launches (f : Fn) (clk : Clock) (source code info core aux addr : Nat) :
    (f.logged clk source code info core aux addr).launches = f.launches := by rw [Fn.logged]
theorem Mach.logErr_fns (m : Mach) (clk : Clock) (vf source code info core aux addr : Nat) :
    (m.logErr clk vf source code info core aux addr).fns = (m.setFn vf ((m.fn vf).logged clk source code info core aux addr)).fns := by
  rw [Mach.logErr, Mach.postHost_fns]
  split
  · split <;> rfl
  · rfl
theorem Mach.logErr_fn (m : Mach) (clk : Clock) (vf source code info core aux addr : Nat) :
    (m.logErr clk vf source code info core aux addr).fn vf = (m.fn vf).logged clk source code info core aux addr :=
  (Mach.fn_congr (m.logErr_fns clk vf source code info core aux addr) vf).trans (Mach.setFn_fn ..)
/-- The log, a ring of 256 entries, ends with the newest. -/
theorem Fn.logged_getLast? (f : Fn) (clk : Clock) (source code info core aux addr : Nat) :
    (f.logged clk source code info core aux addr).log.getLast? = some { time := clk.time, seq := f.seq, source, code, info, core, aux, addr } := by
  rw [Fn.logged, List.drop_append_of_le_length (by omega), List.getLast?_concat]
@[simp] theorem Mach.setWalker_fn (m : Mach) (vf : Nat) (w : Option Walker) : (m.setWalker vf w).fn vf = { m.fn vf with walker := w } :=
  Mach.modFn_fn ..
theorem Mach.setWalker_launch? (m : Mach) (vf : Nat) (w : Option Walker) (id : Nat) : (m.setWalker vf w).launch? vf id = m.launch? vf id := by
  rw [Mach.launch?, Mach.setWalker_fn]; rfl
theorem Mach.setWalker_headerCheck (m : Mach) (vf : Nat) (w : Option Walker) (r : List Byte) (h : Header) :
    (m.setWalker vf w).headerCheck vf r h = m.headerCheck vf r h :=
  Mach.headerCheck_congr (by rw [Mach.setWalker_fn]) (by rw [Mach.setWalker_fn]) (by rw [Mach.setWalker_fn]) r h

end Sys2Proof.Machine
namespace Sys2Proof.Claims
open Sys2Proof.Machine

/-! ## Reaching a node and what it names -/

/-- The walker accesses a range that firmware may access. -/
theorem FwAt.walkerAccess {s : State} {vf va n pa : Nat} {ks : List Access} (h : FwAt s vf va n ks pa) :
    ∃ kind, ∀ clk w bad k, w.fault = 0 → s.m.walkerAccess clk vf w va n ks bad k = k [fwPart va n pa kind] s.m := by
  obtain ⟨kind, hps⟩ := h.fwAccess
  exact ⟨kind, fun clk w bad k hf => by simp [Mach.walkerAccess, hf, hps]⟩
/-- The walker reads a word that firmware may read. -/
theorem FwAt.walkerWord {s : State} {vf va pa : Nat} (h : FwAt s vf va 8 [.read] pa) :
    ∃ x, ∀ clk w k, w.fault = 0 → s.m.walkerWord clk vf w va k = k (leNat (Memory.readN s.m.mem pa 8)) { s.m with access := x } := by
  obtain ⟨kind, haccess⟩ := h.walkerAccess
  obtain ⟨x, hx⟩ := Mach.bulkRead_fwPart h.ioDie_empty va 8 pa kind
  refine ⟨x, fun clk w k hf => ?_⟩
  rw [Mach.walkerWord, haccess clk w _ _ hf, hx]
/-- Running the node at which the walker stands. -/
theorem AtNode.run {s : State} {vf kind : Nat} {w : Walker} {n : Node} (h : AtNode s vf w n kind) (hr : w.room = false) (clk : Clock)
    (k : Walker → Node → Mach → Option Mach) : s.m.atNode clk vf kind k = k w n s.m := by
  obtain ⟨hw, hfault, hnode, hkind, hbad, pa, hfw, hn⟩ := h
  obtain ⟨pk, hps⟩ := hfw.fwAccess
  obtain ⟨x, hx⟩ := Mach.bulkRead_fwPart hfw.ioDie_empty ((w.graph.toNat + 64 * w.node) % 2 ^ 80) 64 pa pk
  have hread : parseNode (s.m.bulkRead ioDie [fwPart ((w.graph.toNat + 64 * w.node) % 2 ^ 80) 64 pa pk]).1 = n := by rw [hx, hn]
  have hin : ¬w.count ≤ w.node := Nat.not_le.2 hnode
  have hnodeKind : s.m.nodeKind vf w = kind := by
    simp only [Mach.nodeKind, Walker.nodeAt, hin, if_false, hps, hread, hbad, hkind, Bool.false_eq_true]
  simp only [Mach.atNode, hw, Option.bind_eq_bind, Option.bind_some, hr, hnodeKind, hin, if_false, Bool.false_or, ne_eq, not_true, decide_false, Bool.false_eq_true,
    Mach.walkerAccess, hfault, Walker.nodeAt, hps, hread, hbad]
  rfl

theorem AtNode.fault_zero {s : State} {vf kind : Nat} {w : Walker} {n : Node} (h : AtNode s vf w n kind) : w.fault = 0 := by
  obtain ⟨-, hfault, -⟩ := h
  exact hfault
/-- The walker goes on in a machine that differs from the state's in memory and in counters alone. -/
theorem walks_of_next {i : Instr} {s : State} {vf : Nat} {w' : Walker} {mem : List Host.Cell} {m : Mach}
    (he : exec i s = .next (withM s (m.setWalker vf (some w')))) (hmem : m.mem = mem) (hh : m.host = s.m.host) (hw : m.wgs = s.m.wgs)
    (hfns : m.fns = s.m.fns) (hc : ∀ k, m.core k = s.m.core k) : Walks i s vf w' mem :=
  ⟨_, he, rfl, rfl, hmem, hh, hw, Mach.modFn_fns_congr hfns vf _, hc⟩

/-! ## Conditional, while, join, wait-stamp, signal-host and end nodes (R177) -/

section
variable {s : State} {vf : Nat} {w : Walker} {n : Node} (hr : w.room = false)
include hr

section
variable {pa : Nat} (hx : FwAt s vf n.addr 8 [.read] pa)
include hx

theorem conditionalNode_walks (h : AtNode s vf w n 2) : Walks (.gwConditionalNode vf) s vf
    (goto w (if n.holds (leNat (Memory.readN s.m.mem pa 8)) then n.next else n.alt)) s.m.mem := by
  obtain ⟨x, hword⟩ := hx.walkerWord
  have he : execGwConditionalNode vf s = .next (withM s (Mach.setWalker { s.m with access := x } vf _)) :=
    s.event_next _ ((h.run hr ..).trans (hword _ _ _ h.fault_zero))
  exact walks_of_next he rfl rfl rfl rfl fun _ => rfl
theorem whileNode_leaves (h : AtNode s vf w n 3) (hf : n.holds (leNat (Memory.readN s.m.mem pa 8)) = false) :
    Walks (.gwWhileNode vf) s vf (goto w n.alt) s.m.mem := by
  obtain ⟨x, hword⟩ := hx.walkerWord
  have he : execGwWhileNode vf s = .next (withM s (Mach.setWalker { s.m with access := x } vf (some (goto w n.alt)))) :=
    s.event_next _ ((h.run hr ..).trans ((hword _ _ _ h.fault_zero).trans (if_pos (by rw [hf]; rfl))))
  exact walks_of_next he rfl rfl rfl rfl fun _ => rfl
theorem whileNode_counts (h : AtNode s vf w n 3) (ht : n.holds (leNat (Memory.readN s.m.mem pa 8)) = true) (hm : NoMonitor s) {pc : Nat}
    (hc : FwAt s vf (((w.graph.toNat + 64 * w.node) % 2 ^ 80 + 48) % 2 ^ 80) 8 [.write] pc) :
    Walks (.gwWhileNode vf) s vf (goto w n.next) (Memory.writeL s.m.mem pc (leBytes 8 (n.count + 1))) := by
  obtain ⟨x, hword⟩ := hx.walkerWord
  have hc' : FwAt (withM s { s.m with access := x }) vf ((w.nodeAt + 48) % 2 ^ 80) 8 [.write] pc := hc.of_same rfl rfl rfl hc.ioDie_empty
  obtain ⟨kind, haccess⟩ := hc'.walkerAccess
  have hstored := Mach.bulkWrite_fwPart (m := { s.m with access := x }) hc.ioDie_empty hm ((w.nodeAt + 48) % 2 ^ 80) pc kind
    (length_leBytes 8 (n.count + 1))
  have he : execGwWhileNode vf s = .next (withM s ((Mach.bulkWrite { s.m with access := x } ioDie [fwPart ((w.nodeAt + 48) % 2 ^ 80) 8 pc kind]
      (leBytes 8 (n.count + 1))).setWalker vf (some (goto w n.next)))) := by
    refine s.event_next _ ((h.run hr ..).trans ((hword _ _ _ h.fault_zero).trans ?_))
    exact (if_neg (by rw [ht]; decide)).trans (haccess s.clk w _ _ h.fault_zero)
  exact walks_of_next he hstored.mem hstored.host hstored.wgs hstored.fns hstored.core
theorem waitStampNode_next (h : AtNode s vf w n 5) (hle : n.value ≤ leNat (Memory.readN s.m.mem pa 8)) :
    Walks (.gwWaitStampNode vf) s vf (goto w n.next) s.m.mem := by
  obtain ⟨x, hword⟩ := hx.walkerWord
  have he : execGwWaitStampNode vf s = .next (withM s (Mach.setWalker { s.m with access := x } vf _)) :=
    s.event_next _ ((h.run hr ..).trans ((hword _ _ _ h.fault_zero).trans (if_pos hle)))
  exact walks_of_next he rfl rfl rfl rfl fun _ => rfl
theorem waitStampNode_waits (h : AtNode s vf w n 5) (hle : ¬n.value ≤ leNat (Memory.readN s.m.mem pa 8)) :
    execGwWaitStampNode vf s = .fault .notEnabled := by
  obtain ⟨x, hword⟩ := hx.walkerWord
  exact s.event_fault _ ((h.run hr ..).trans ((hword _ _ _ h.fault_zero).trans (if_neg hle)))
end

theorem joinNode_next (h : AtNode s vf w n 4) (hd : ∀ e ∈ w.tracks, n.value.testBit e.1 = true → s.m.launch? vf e.2 = none) :
    Walks (.gwJoinNode vf) s vf (goto w n.next) s.m.mem := by
  have hnone : ¬(upFrom 0 16).any (fun t => n.value.testBit t && s.m.trackBusy vf w t) = true := by
    simp only [List.any_eq_true, Bool.and_eq_true, Mach.trackBusy, beq_iff_eq]
    rintro ⟨t, -, ht, e, he, rfl, hbusy⟩
    rw [hd e he ht] at hbusy
    cases hbusy
  have he : execGwJoinNode vf s = .next (withM s (s.m.setWalker vf (some (goto w n.next)))) := s.event_next _ ((h.run hr ..).trans (if_neg hnone))
  exact walks_of_next he rfl rfl rfl rfl fun _ => rfl
theorem joinNode_waits (h : AtNode s vf w n 4) {e : Nat × Nat} (he : e ∈ w.tracks) (ht : e.1 < 16) (hv : n.value.testBit e.1 = true)
    (hbusy : (s.m.launch? vf e.2).isSome = true) : execGwJoinNode vf s = .fault .notEnabled := by
  have hany : (upFrom 0 16).any (fun t => n.value.testBit t && s.m.trackBusy vf w t) = true := by
    simp only [List.any_eq_true, Bool.and_eq_true, Mach.trackBusy, beq_iff_eq]
    exact ⟨e.1, Machine.mem_upFrom.2 ⟨Nat.zero_le _, by omega⟩, hv, e, he, rfl, hbusy⟩
  exact s.event_fault _ ((h.run hr ..).trans (if_pos hany))
theorem signalHostNode (h : AtNode s vf w n 6) : execGwSignalHostNode vf s = .next (withM s
    ((s.m.postCompl vf [(leBytes 16 n.addr, false), (leBytes 8 n.value ++ leBytes 8 0, true)]).setWalker vf (some (goto w n.next)))) :=
  s.event_next _ (h.run hr ..)
theorem endNode_ends (h : AtNode s vf w n 0) (hd : ∀ id ∈ w.placed, s.m.launch? vf id = none) :
    execGwEndNode vf s = .next (withM s ((s.m.endWalker vf w).finish w.cmd 1 0 0)) := by
  have hnone : ¬w.placed.any (fun id => (s.m.launch? vf id).isSome) = true := by
    rw [List.any_eq_true]
    rintro ⟨id, hid, hbusy⟩
    rw [hd id hid] at hbusy
    cases hbusy
  exact s.event_next _ ((h.run hr ..).trans (if_neg hnone))
theorem endNode_waits (h : AtNode s vf w n 0) (hb : ∃ id ∈ w.placed, (s.m.launch? vf id).isSome = true) :
    execGwEndNode vf s = .fault .notEnabled :=
  s.event_fault _ ((h.run hr ..).trans (if_pos (List.any_eq_true.2 hb)))
omit hr in
/-- A run that has left its graph stops. -/
theorem endNode_outside (hw : (s.m.fn vf).walker = some w) (hr : w.room = false) (hn : w.count ≤ w.node) :
    execGwEndNode vf s = .next (withM s (s.m.stopRun s.clk vf w)) := by
  have hkind : s.m.nodeKind vf w = 0 := if_pos hn
  refine s.event_next _ ?_
  simp only [Mach.atNode, hw, Option.bind_eq_bind, Option.bind_some, hr, hkind, Bool.false_or, ne_eq, not_true, decide_false, Bool.false_eq_true, if_false, hn,
    if_true]
end

end Sys2Proof.Claims
end

section
/-! SUPPORT. Launch nodes (R168, R176): the header is written, and its checks decide whether the launch is placed, waits for room or is refused. -/
namespace Sys2Proof.Machine

/-- The machine in which a launch with the next number is placed. -/
def Mach.addLaunch (m : Mach) (vf : Nat) (l : Launch) : Mach :=
  ({ m with nextId := m.nextId + 1 } : Mach).modFn vf (fun f => { f with launches := f.launches ++ [l] })

/-- What the checks of a launch node's header `r` lead to, once it is written (R168). -/
def Mach.launchChecked (m : Mach) (clk : Clock) (vf : Nat) (w : Walker) (n : Node) (r : List Byte) : Option Mach :=
  match m.headerCheck vf r (parseHeader n.addr r) with
  | 0 =>
    match m.placeLaunch clk vf (parseHeader n.addr r) (BitVec.ofNat 64 n.value) n.track with
    | (some id, m) => m.toNode vf { w with placed := w.placed ++ [id], tracks := (n.track, id) :: w.tracks.filter (fun e => e.1 ≠ n.track) } n.next
    | (none, m) => m.toNode vf w n.next
  | 8 => some (m.setWalker vf (some { w with room := true, fault := 0 }))
  | c => (m.refuseLaunch clk vf c n.addr).toNode vf w n.next
theorem Mach.nodeLaunch_eq {m m' : Mach} {ps : List Part} {old : List Byte} (h : m.bulkRead ioDie ps = (old, m')) (clk : Clock) (vf : Nat) (w : Walker)
    (n : Node) : m.nodeLaunch clk vf w n ps =
      (m'.bulkWrite ioDie ps (Claims.nodeHeader n old)).launchChecked clk vf w n (Claims.nodeHeader n old) := by
  rw [Mach.nodeLaunch, h]; rfl
/-- Without a gang the launch takes the next number (R425). -/
theorem Mach.placeLaunch_alone (m : Mach) (clk : Clock) (vf : Nat) {h : Header} (hg : h.gang = 0) (stampVal : K64) (track : Nat) :
    m.placeLaunch clk vf h stampVal track =
      (some m.nextId, m.addLaunch vf { id := m.nextId, hdr := h, stampVal, track, count := h.groups, reserved := h.reservation }) := by
  simp only [Mach.placeLaunch, Mach.newId, hg, if_true]
  rfl

/-- The launch that a node places, under a number. -/
def nodeLaunched (n : Node) (h : Header) (id : Nat) : Launch :=
  { id, hdr := h, stampVal := BitVec.ofNat 64 n.value, track := n.track, count := h.groups, reserved := h.reservation }
/-- The walker once its node's launch is placed. -/
def afterLaunch (w : Walker) (n : Node) (id : Nat) : Walker :=
  { Claims.goto w n.next with placed := w.placed ++ [id], tracks := (n.track, id) :: w.tracks.filter (fun e => e.1 ≠ n.track) }

theorem Mach.Stored.headerCheck {m m' : Mach} {pa : Nat} {bs : List Byte} (h : m.Stored m' pa bs) (vf : Nat) (r : List Byte) (hd : Header) :
    m'.headerCheck vf r hd = m.headerCheck vf r hd := by
  have hfn := Mach.fn_congr h.fns vf
  exact Mach.headerCheck_congr (congrArg Fn.g hfn) (congrArg Fn.held hfn) (congrArg Fn.launches hfn) r hd

section
variable {m : Mach} {vf : Nat} {n : Node} {r : List Byte} {c : Nat} (hc : m.headerCheck vf r (parseHeader n.addr r) = c) (clk : Clock) (w : Walker)
include hc

theorem Mach.launchChecked_placed (h0 : c = 0) (hg : (parseHeader n.addr r).gang = 0) : m.launchChecked clk vf w n r =
    some ((m.addLaunch vf (nodeLaunched n (parseHeader n.addr r) m.nextId)).setWalker vf (some (afterLaunch w n m.nextId))) := by
  rw [Mach.launchChecked, hc, h0, Mach.placeLaunch_alone _ _ _ hg]; rfl
theorem Mach.launchChecked_full (h8 : c = 8) : m.launchChecked clk vf w n r = some (m.setWalker vf (some { w with room := true, fault := 0 })) := by
  rw [Mach.launchChecked, hc, h8]; rfl
theorem Mach.launchChecked_refused (h0 : 0 < c) (h8 : c < 8) :
    m.launchChecked clk vf w n r = some ((m.refuseLaunch clk vf c n.addr).setWalker vf (some (Claims.goto w n.next))) := by
  rw [Mach.launchChecked, hc]
  split
  · cases h0
  · omega
  · rfl
end

end Sys2Proof.Machine
namespace Sys2Proof.Claims
open Sys2Proof.Machine

theorem length_patched {r bs : List Byte} {at_ : Nat} (h : at_ + bs.length ≤ r.length) : (patched r at_ bs).length = r.length := by
  simp only [patched, List.length_append, List.length_take, List.length_drop]
  omega
/-- A launch node writes the whole of a header. -/
theorem length_nodeHeader (n : Node) {old : List Byte} (h : old.length = 256) : (nodeHeader n old).length = 256 := by
  have hstamp : (patched old 64 (leBytes 10 n.stamp ++ List.replicate 6 0)).length = 256 := (length_patched (by simp [h])).trans h
  have hcount : (if n.count = 0 then patched old 64 (leBytes 10 n.stamp ++ List.replicate 6 0)
      else patched (patched old 64 (leBytes 10 n.stamp ++ List.replicate 6 0)) 128 (leBytes 8 n.count)).length = 256 := by
    split
    · exact hstamp
    · exact (length_patched (by rw [hstamp, length_leBytes]; decide)).trans hstamp
  exact (length_patched (by rw [hcount, List.length_singleton]; decide)).trans hcount

/-- The header as the node leaves it, its fields, and the check that fails first, or 0 (R168, R176). -/
def writtenHeader (s : State) (n : Node) (pa : Nat) : List Byte := nodeHeader n (Memory.readN s.m.mem pa 256)
def writtenFields (s : State) (n : Node) (pa : Nat) : Header := parseHeader n.addr (writtenHeader s n pa)
def writtenCheck (s : State) (vf : Nat) (n : Node) (pa : Nat) : Nat := s.m.headerCheck vf (writtenHeader s n pa) (writtenFields s n pa)

section
variable {s : State} {vf pa : Nat} {w : Walker} {n : Node} (hn : AtNode s vf w n 1) (hr : w.room = false)
  (hf : FwAt s vf n.addr 256 [.read, .write] pa) (hm : NoMonitor s) (ht : ∀ e ∈ w.tracks, e.1 = n.track → s.m.launch? vf e.2 = none)
include hn hr hf hm ht

/-- The header stands in memory as the node leaves it, and its checks decide the rest. -/
theorem launchNode_eq : ∃ m, s.m.Stored m pa (writtenHeader s n pa) ∧
    launchNode s.clk vf s.m = m.launchChecked s.clk vf w n (writtenHeader s n pa) := by
  obtain ⟨kind, haccess⟩ := hf.walkerAccess
  obtain ⟨x, hx⟩ := Mach.bulkRead_fwPart hf.ioDie_empty n.addr 256 pa kind
  have hidle : s.m.trackBusy vf w n.track = false := by
    rw [Mach.trackBusy, List.any_eq_false]
    intro e he
    by_cases hk : e.1 = n.track
    · simp [ht e he hk]
    · simp [hk]
  refine ⟨_, (Mach.bulkWrite_fwPart (m := { s.m with access := x }) hf.ioDie_empty hm n.addr pa kind
    (length_nodeHeader n (Memory.length_readN s.m.mem pa 256))).of_counted, ?_⟩
  exact (hn.run hr ..).trans ((if_neg (by rw [hidle]; decide)).trans ((haccess _ _ _ _ hn.fault_zero).trans (Mach.nodeLaunch_eq hx ..)))
/-- The placed launch stands at the end of the function's, and the walker has gone on. -/
theorem launchNode_places (hc : writtenCheck s vf n pa = 0) (hg : (writtenFields s n pa).gang = 0) :
    ∃ m, launchNode s.clk vf s.m = some m ∧ m.mem = Memory.writeL s.m.mem pa (writtenHeader s n pa) ∧ m.wgs = s.m.wgs ∧
      (m.fn vf).launches = (s.m.fn vf).launches ++ [nodeLaunched n (writtenFields s n pa) s.m.nextId] ∧
      (m.fn vf).walker = some (afterLaunch w n s.m.nextId) := by
  obtain ⟨m, hstored, hlaunch⟩ := launchNode_eq hn hr hf hm ht
  refine ⟨_, hlaunch.trans (Mach.launchChecked_placed (hstored.headerCheck ..) _ _ hc hg), hstored.mem, hstored.wgs, ?_, ?_⟩
  · rw [Mach.setWalker_fn, Mach.addLaunch, Mach.modFn_fn, hstored.nextId]
    exact congrArg (fun f : Fn => f.launches ++ _) (Mach.fn_congr hstored.fns vf)
  · rw [Mach.setWalker_fn, hstored.nextId]
/-- The refusal stands in the function's error log, and the walker has gone on. -/
theorem launchNode_refuses (h0 : 0 < writtenCheck s vf n pa) (h8 : writtenCheck s vf n pa < 8) :
    ∃ u e, execGwLaunchNode vf s = .next u ∧ (u.m.fn vf).launches = (s.m.fn vf).launches ∧ (u.m.fn vf).walker = some (goto w n.next) ∧
      (u.m.fn vf).log.getLast? = some e ∧ e.source = 4 ∧ e.code = writtenCheck s vf n pa ∧ e.addr = n.addr := by
  obtain ⟨m, hstored, hlaunch⟩ := launchNode_eq hn hr hf hm ht
  refine ⟨_, { time := s.clk.time, seq := (m.fn vf).seq, source := 4, code := writtenCheck s vf n pa, info := 0, core := 65535, aux := 0, addr := n.addr },
    s.event_next _ (hlaunch.trans (Mach.launchChecked_refused (hstored.headerCheck ..) _ _ h0 h8)), ?launches, ?walker, ?log, rfl, rfl, rfl⟩
  all_goals
    dsimp only
    rw [Mach.setWalker_fn]
  case launches =>
    rw [Mach.refuseLaunch, Mach.logErr_fn, Fn.logged_launches, Mach.fn_congr hstored.fns]
  case log =>
    exact (congrArg (fun f : Fn => f.log.getLast?) (Mach.logErr_fn ..)).trans (Fn.logged_getLast? ..)
/-- With no room among the function's launches the walker waits at the node, its header written. -/
theorem launchNode_waits (hc : writtenCheck s vf n pa = 8) :
    Walks (.gwLaunchNode vf) s vf { w with room := true, fault := 0 } (Memory.writeL s.m.mem pa (writtenHeader s n pa)) := by
  obtain ⟨m, hstored, hlaunch⟩ := launchNode_eq hn hr hf hm ht
  have he : execGwLaunchNode vf s = .next (withM s (m.setWalker vf (some { w with room := true, fault := 0 }))) :=
    s.event_next _ (hlaunch.trans (Mach.launchChecked_full (hstored.headerCheck ..) _ _ hc))
  exact walks_of_next he hstored.mem hstored.host hstored.wgs hstored.fns hstored.core
end

/-- The walker that waited for room runs its node again. -/
theorem AtNode.retried {s : State} {vf kind : Nat} {w : Walker} {n : Node} (h : AtNode s vf w n kind) :
    AtNode (withM s (s.m.setWalker vf (some { w with room := false }))) vf { w with room := false } n kind := by
  obtain ⟨hw, hfault, hnode, hkind, hbad, pa, hfw, hn⟩ := h
  refine ⟨?_, hfault, hnode, hkind, hbad, pa, hfw.of_same rfl rfl ?_ hfw.ioDie_empty, hn⟩
  · exact congrArg Fn.walker (Mach.setWalker_fn ..)
  · rw [Mach.setWalker_fn]
/-- A launch whose header passes the checks is placed, whether the node is met for the first time or had waited for room (R168, check 8). -/
theorem launchNode_or_retry_places {s : State} {vf pa : Nat} {w : Walker} {n : Node} (hn : AtNode s vf w n 1)
    (hf : FwAt s vf n.addr 256 [.read, .write] pa) (hm : NoMonitor s) (ht : ∀ e ∈ w.tracks, e.1 = n.track → s.m.launch? vf e.2 = none)
    (hc : writtenCheck s vf n pa = 0) (hg : (writtenFields s n pa).gang = 0) :
    ∃ u, exec (if w.room then .launchPlaceRetry vf else .gwLaunchNode vf) s = .next u ∧
      u.m.mem = Memory.writeL s.m.mem pa (writtenHeader s n pa) ∧ u.m.wgs = s.m.wgs ∧
      (u.m.fn vf).launches = (s.m.fn vf).launches ++ [nodeLaunched n (writtenFields s n pa) s.m.nextId] ∧
      (u.m.fn vf).walker = some (afterLaunch w n s.m.nextId) := by
  cases hr : w.room with
  | false =>
    obtain ⟨m, hlaunch, hplaced⟩ := launchNode_places hn hr hf hm ht hc hg
    have he : execGwLaunchNode vf s = .next (withM s m) := s.event_next _ hlaunch
    exact ⟨_, he, hplaced⟩
  | true =>
    have hf' := hf.of_same (m := s.m.setWalker vf (some { w with room := false })) rfl rfl (by rw [Mach.setWalker_fn]) hf.ioDie_empty
    obtain ⟨m, hlaunch, hmem, hwgs, hlaunches, hwalker⟩ := launchNode_places hn.retried rfl hf' hm
      (fun e he hk => (Mach.setWalker_launch? ..).trans (ht e he hk)) ((Mach.setWalker_headerCheck ..).trans hc) hg
    have hroom : ¬(!w.room || decide (64 ≤ (s.m.fn vf).launches.length)) = true := by
      simp [hr, Mach.launches_lt_of_headerCheck hc]
    obtain ⟨hw, -⟩ := hn
    have he : execLaunchPlaceRetry vf s = .next (withM s m) := by
      refine s.event_next _ ?_
      simp only [hw, Option.bind_eq_bind, Option.bind_some, if_neg hroom]
      exact hlaunch
    refine ⟨_, he, hmem, hwgs, hlaunches.trans ?_, hwalker⟩
    dsimp only [withM]
    rw [Mach.setWalker_fn]
    rfl

end Sys2Proof.Claims
end

section
/-! SUPPORT. How a launch ends (R170, R372). -/
namespace Sys2Proof.Machine

theorem Launch.allDone_iff (l : Launch) :
    l.allDone = true ↔ l.running = 0 ∧ l.held = [] ∧ (l.killed = true ∨ l.records = 0 ∧ l.count ≤ l.nextGroup) := by
  simp [Launch.allDone, and_assoc]
/-- With no line in any L1 everything stands at L2. -/
theorem Mach.publish_of_empty {m : Mach} (h : ∀ e ∈ m.cores, e.2.l1 = []) : m.publish = m := by
  have hcore (k : Nat) : (m.core k).l1 = [] := by
    rw [Mach.core]
    cases hk : tget m.cores k with
    | none => rfl
    | some x => exact h (k, x) (mem_of_tget hk)
  exact foldl_eq_self fun e _ => Mach.writeBackAll_of_empty (hcore e.1)
theorem Mach.modFn_modFn (m : Mach) (vf : Nat) (g g' : Fn → Fn) : (m.modFn vf g).modFn vf g' = m.modFn vf (fun f => g' (g f)) := by
  rw [Mach.modFn, Mach.modFn_fn, Mach.modFn, Mach.modFn, Mach.setFn, Mach.setFn, Mach.setFn, tset_tset]
/-- A launch without a spill log, of a function that holds no frame, leaves nothing but its place. -/
theorem Mach.dropLaunch_eq {m : Mach} {vf : Nat} {l : Launch} (hl : m.launch? vf l.id = some l) (hp : l.logPages = []) (hh : (m.fn vf).held = []) :
    m.dropLaunch vf l.id = m.modFn vf (fun f => { f with launches := f.launches.filter (·.id ≠ l.id) }) := by
  simp only [Mach.dropLaunch, hl, hp, Mach.releasePages, List.append_nil]
  rw [Mach.dropEmpty, Mach.modFn_modFn, Mach.modFn_fn, hh]
  rfl

end Sys2Proof.Machine
namespace Sys2Proof.Claims
open Sys2Proof.Machine

/-- The launch's write has been made. -/
def closed (m : Mach) (vf id : Nat) : Mach := m.modLaunch vf id (fun l => { l with closing := l.closing + 1, fault := 0 })
/-- One of the writes at the end of a launch, where firmware may make it. -/
theorem closeWrite_stores {s : State} {vf va pa : Nat} {l : Launch} (hva : va ≠ 0) (hf : FwAt s vf va 8 [.write] pa) (hm : NoMonitor s) (v : Nat) :
    ∃ m, s.m.Stored m pa (leBytes 8 v) ∧ s.m.closeWrite s.clk vf l va v = some (closed m vf l.id) := by
  obtain ⟨ps, hps, hstored⟩ := hf.write hm (length_leBytes 8 v)
  refine ⟨_, hstored, ?_⟩
  rw [Mach.closeWrite, hps]
  exact if_neg hva

section
variable {vf : Nat} {s : State} {l : Launch} (hl : s.m.launch? vf l.id = some l)
include hl

theorem launchComplete_waits (hd : ¬l.allDone = true) : execLaunchComplete vf l.id s = .fault .notEnabled := by
  refine s.event_fault _ ?_
  simp only [hl, Option.bind_eq_bind, Option.bind_some]
  exact if_pos (by simp [hd])

variable (hfault : l.fault = 0) (hd : l.allDone = true)
include hfault hd

theorem launchComplete_eq : execLaunchComplete vf l.id s = s.event (fun clk m =>
    if l.closing = 0 then m.publish.closeWrite clk vf l (if l.silent then 0 else l.hdr.gcount.toNat) l.count
    else if l.closing = 1 then
      m.closeWrite clk vf l (if l.silent then 0 else l.hdr.stamp.toNat) (if l.killed then l.stampVal.toNat ||| 2 ^ 63 else l.stampVal.toNat)
    else some (m.dropLaunch vf l.id)) := by
  have hgo : ¬(!l.allDone || l.fault = 1) = true := by simp [hd, hfault]
  rw [execLaunchComplete, State.event, State.event]
  simp only [hl, Option.bind_eq_bind, Option.bind_some, if_neg hgo]

theorem launchComplete_counts (hc : l.closing = 0) (hs : l.silent = false) (hm : NoMonitor s) (he : ∀ e ∈ s.m.cores, e.2.l1 = []) {pa : Nat}
    (hg : l.hdr.gcount ≠ 0) (hf : FwAt s vf l.hdr.gcount.toNat 8 [.write] pa) :
    ∃ m, s.m.Stored m pa (leBytes 8 l.count) ∧ execLaunchComplete vf l.id s = .next (withM s (closed m vf l.id)) := by
  obtain ⟨m, hstored, hclose⟩ := closeWrite_stores (l := l) (fun h0 => hg (BitVec.eq_of_toNat_eq h0)) hf hm l.count
  refine ⟨m, hstored, (launchComplete_eq hl hfault hd).trans (s.event_next _ ?_)⟩
  simp only [hc, hs, Mach.publish_of_empty he, if_true, Bool.false_eq_true, if_false, hclose]
theorem launchComplete_stamps (hc : l.closing = 1) (hs : l.silent = false) (hm : NoMonitor s) {pa : Nat}
    (hg : l.hdr.stamp ≠ 0) (hf : FwAt s vf l.hdr.stamp.toNat 8 [.write] pa) :
    ∃ m, s.m.Stored m pa (leBytes 8 (if l.killed then l.stampVal.toNat ||| 2 ^ 63 else l.stampVal.toNat)) ∧
      execLaunchComplete vf l.id s = .next (withM s (closed m vf l.id)) := by
  obtain ⟨m, hstored, hclose⟩ := closeWrite_stores (l := l) (fun h0 => hg (BitVec.eq_of_toNat_eq h0)) hf hm
    (if l.killed then l.stampVal.toNat ||| 2 ^ 63 else l.stampVal.toNat)
  refine ⟨m, hstored, (launchComplete_eq hl hfault hd).trans (s.event_next _ ?_)⟩
  simp only [hc, hs, Nat.one_ne_zero, if_true, Bool.false_eq_true, if_false, hclose]
theorem launchComplete_drops (hc : l.closing = 2) (hp : l.logPages = []) (hh : (s.m.fn vf).held = []) : execLaunchComplete vf l.id s =
    .next (withM s (s.m.modFn vf (fun f => { f with launches := f.launches.filter (·.id ≠ l.id) }))) := by
  refine (launchComplete_eq hl hfault hd).trans (s.event_next _ ?_)
  rw [hc]
  exact congrArg some (Mach.dropLaunch_eq hl hp hh)
end

end Sys2Proof.Claims
end

section
open Sys2Proof Sys2Proof.Machine Sys2Proof.Claims

/-- Each node by its own lemma. That the walker goes on after a refused launch is the model's choice (log 50), and so is the signal as two
completion entries (log 53). -/
theorem graphWalker : GraphWalker := by
  intro vf s w n
  refine ⟨fun pa hn hf hm _ ht => ⟨fun hc hg => ?launch, fun c hc h0 h8 hr => ?refused, fun hc hr => ?room⟩, fun pa hr hx => ?word,
    fun hr hn => ⟨fun hd => joinNode_next hr hn hd, ?joins⟩, fun hr hn => signalHostNode hr hn, fun hr hn => ⟨fun hd => ?ends, fun hb => endNode_waits hr hn hb⟩,
    fun hw hr hn => endNode_outside hw hr hn⟩
  case launch => exact launchNode_or_retry_places hn hf hm ht hc hg
  case refused =>
    subst hc
    exact launchNode_refuses hn hr hf hm ht h0 h8
  case room => exact launchNode_waits hn hr hf hm ht hc
  case joins => exact fun ⟨e, he, h16, hv, hbusy⟩ => joinNode_waits hr hn he h16 hv hbusy
  case ends => exact ⟨_, endNode_ends hr hn hd, (Mach.finish_frame ..).1, rfl, rfl⟩
  case word =>
    intro x holds
    have hh : holds = n.holds x := by
      rw [Node.holds]
      simp only [holds]
      generalize n.test = t
      match t with
      | 0 => rfl
      | 1 => exact decide_not
      | 2 => rfl
      | _ + 3 => rfl
    rw [hh]
    refine ⟨fun hn => conditionalNode_walks hr hx hn, fun hn hf => whileNode_leaves hr hx hn hf, fun pc hn ht hm hc => whileNode_counts hr hx hn ht hm hc,
      fun hn => ?_⟩
    split
    · next hle => exact waitStampNode_next hr hx hn hle
    · next hle => exact waitStampNode_waits hr hx hn hle

theorem launchCompletion : LaunchCompletion := by
  intro vf s l hl hfault
  have hdone : l.allDone = true ↔ _ := l.allDone_iff
  refine ⟨fun hd => launchComplete_waits hl (mt hdone.1 hd), fun pa hd hm he hs => ⟨fun hc hg hf => ?count, fun hc hg hf => ?stamp⟩,
    fun hd hc hp hh => launchComplete_drops hl hfault (hdone.2 hd) hc hp hh⟩
  case count =>
    obtain ⟨m, hstored, hnext⟩ := launchComplete_counts hl hfault (hdone.2 hd) hc hs hm he hg hf
    exact ⟨_, hnext, hstored.mem, Mach.modFn_fns_congr hstored.fns vf _, hstored.wgs⟩
  case stamp =>
    obtain ⟨m, hstored, hnext⟩ := launchComplete_stamps hl hfault (hdone.2 hd) hc hs hm hg hf
    exact ⟨_, hnext, hstored.mem, Mach.modFn_fns_congr hstored.fns vf _, hstored.wgs⟩

/-- Settles O44: the nodes of the walker, and the writes at the end of a launch. -/
theorem walkerAndLaunches : Obligations.WalkerAndLaunches := ⟨graphWalker, launchCompletion⟩
end

section
/-! SUPPORT. The commands of a virtual function (R445, R446): their guard, and what each does for an active function. -/
namespace Sys2Proof.Machine

/-! ## Lengths of reports (R354, R451) -/

@[simp] theorem length_beBytes (n x : Nat) : (beBytes n x).length = n := by
  induction n with
  | zero => rfl
  | succ n ih => rw [beBytes, List.length_cons, ih]
theorem length_shaRound (h : List (BitVec 32)) (kw : BitVec 32 × BitVec 32) : (shaRound h kw).length = h.length := by
  unfold shaRound
  split <;> rfl
theorem length_shaBlock (h : List (BitVec 32)) (block : List Byte) : (shaBlock h block).length = h.length := by
  have hfold (kws : List (BitVec 32 × BitVec 32)) (x : List (BitVec 32)) : (kws.foldl shaRound x).length = x.length := by
    induction kws generalizing x with
    | nil => rfl
    | cons kw kws ih => rw [List.foldl_cons, ih, length_shaRound]
  rw [shaBlock, List.length_map, List.length_zip, hfold, Nat.min_self]
theorem length_shaBlocks (n : Nat) (h : List (BitVec 32)) (bs : List Byte) : (shaBlocks n h bs).length = h.length := by
  induction n generalizing h bs with
  | zero => rfl
  | succ n ih => rw [shaBlocks, ih, length_shaBlock]
/-- A digest is 32 bytes. -/
@[simp] theorem length_sha256 (bs : List Byte) : (sha256 bs).length = 32 := by
  have hword : (List.length ∘ fun w : BitVec 32 => beBytes 4 w.toNat) = fun _ => 4 := funext fun _ => length_beBytes ..
  rw [sha256, List.length_flatten, List.map_map, hword, List.map_const', List.sum_replicate_nat, length_shaBlocks]
  rfl

/-! ## Channels (R268, R269) -/

/-- The sizes that R268 and R269 allow, in bytes. -/
theorem Chan.sizesOk_iff {c : Chan} (he : 0 < c.esize) : c.sizesOk = true ↔
    (if c.t then 128 ∣ c.esize ∧ c.esize ≤ 4096 * 2 ^ c.bob else 4 ∣ c.esize ∧ c.esize ≤ 256 ∧ 32 * c.esize ≤ 4096 * 2 ^ c.bob) ∧
      c.bob ≤ 6 ∧ c.smax ≤ 19 ∧ c.scur ≤ c.smax ∧ (c.scur = 0 ∨ c.esize ≤ spoolBytes c.scur) ∧ c.spool.toNat % 65536 = 0 := by
  have h128 : 128 ∣ c.esize → 128 ≤ c.esize := Nat.le_of_dvd he
  have h4 : 4 ∣ c.esize → 4 ≤ c.esize := Nat.le_of_dvd he
  have hcap (k b : Nat) : k ≤ b / c.esize ↔ k * c.esize ≤ b := Nat.le_div_iff_mul_le he
  simp only [Chan.sizesOk, Chan.bcap, Chan.scap, Chan.bobbinBytes, Bool.and_eq_true, Bool.or_eq_true, decide_eq_true_eq, beq_iff_eq, hcap, Nat.one_mul,
    Nat.dvd_iff_mod_eq_zero] at h128 h4 ⊢
  cases c.t
  · simp only [Bool.false_eq_true, if_false, Bool.and_eq_true, decide_eq_true_eq, beq_iff_eq]
    rw [and_iff_left_of_imp h4]
    simp only [and_assoc]
  · simp only [if_true, Bool.and_eq_true, decide_eq_true_eq, beq_iff_eq]
    rw [and_iff_left_of_imp h128]
    simp only [and_assoc]

/-! ## Invalidations (R416, R417) -/

/-- A function of no domain asks no other device. -/
theorem Mach.submitInv_local {m : Mach} {r : InvReq} (h : (m.fn r.vf).domain = none) : m.submitInv r =
    { (m.modFn r.vf (fun f => { f with invSeq := f.invSeq + 1 })) with
      hub := m.hub ++ [{ r with seq := (m.fn r.vf).invSeq + 1, devs := [] }] } := by
  have hdevs : m.invDevices r = [] := by simp [Mach.invDevices, h]
  rw [Mach.submitInv, hdevs]
  rfl

end Sys2Proof.Machine
namespace Sys2Proof.Claims
open Sys2Proof.Machine

/-! ## The guard (R446) -/

section
variable {s : State} {c : Cmd} {op : Nat} {f : Clock → Mach → Mach} {o : Host.Outcome State Fault Refusal} (h : o = s.vfCmd c op f)
include h

theorem vfCmd_guarded : (128 ≤ c.ring → o = .next (withM s (s.m.finish c op 2 0))) ∧
    (c.ring < 128 → (s.m.fn c.ring).state ≠ 1 → o = .next (withM s (s.m.finish c op 3 0))) := by
  subst h
  refine ⟨fun hpf => ?_, fun hvf hstate => ?_⟩
  · simp only [State.vfCmd, State.always, hpf, if_true]; rfl
  · simp only [State.vfCmd, State.always, Nat.not_le.2 hvf, if_false, Mach.vfRefused, hvf, hstate, ne_eq, not_false_eq_true, and_self, if_true]; rfl
theorem vfCmd_active (ha : Active s c) : o = .next (withM s (f s.clk s.m)) := by
  obtain ⟨hring, hstate⟩ := ha
  subst h
  simp only [State.vfCmd, State.always, Nat.not_le.2 hring, if_false, Mach.vfRefused, hstate, ne_eq, not_true, and_false]
  rfl
end

/-! ## Graph runs, record loads, keys (R176, R345, R346) -/

section
variable {s : State} {c : Cmd} (ha : Active s c)
include ha

theorem graphRun_active (a b n : Nat) : if a % 64 ≠ 0 ∨ b = 0 ∨ 65536 < b then Ends (.graphRun c a b n) s c 0x01 1 0 s.m
    else if (s.m.fn c.ring).walker = none ∧ (s.m.fn c.ring).runs = [] then
      exec (.graphRun c a b n) s = .next (withM s (fnNow s c.ring { s.m.fn c.ring with
        walker := some { graph := BitVec.ofNat 80 a, count := b, node := n, cmd := c, tracks := (s.m.fn c.ring).tracks } }))
    else exec (.graphRun c a b n) s = .next (withM s (fnNow s c.ring { s.m.fn c.ring with runs := (s.m.fn c.ring).runs ++ [(c, a, b, n)] })) := by
  have he := vfCmd_active (o := execGraphRun c a b n s) rfl ha
  split
  · next hbad => exact he.trans (by rw [if_pos hbad])
  · next hgood =>
    have hidle : ((s.m.fn c.ring).walker.isNone && (s.m.fn c.ring).runs.isEmpty) = true ↔
        (s.m.fn c.ring).walker = none ∧ (s.m.fn c.ring).runs = [] := by simp
    rw [if_neg hgood, Mach.modFn] at he
    split
    · next hi => exact he.trans (by rw [if_pos (hidle.2 hi)]; rfl)
    · next hi => exact he.trans (by rw [if_neg (mt hidle.1 hi)]; rfl)
theorem formatRecordLoad_active (a n : Nat) : if n < 3 ∨ 15 < n ∨ a % 64 ≠ 0 then Ends (.formatRecordLoad c n a) s c 0x02 1 0 s.m
    else exec (.formatRecordLoad c n a) s = .next (withM s { (fnNow s c.ring { s.m.fn c.ring with
      loads := (s.m.fn c.ring).loads ++ [{ id := s.m.nextId, slot := n, addr := a % 2 ^ 80, cmd := some c }] }) with nextId := s.m.nextId + 1 }) := by
  have he := vfCmd_active (o := execFormatRecordLoad c n a s) rfl ha
  split
  · next hbad => exact he.trans (by rw [if_pos hbad])
  · next hgood => exact he.trans (by rw [if_neg hgood]; rfl)
theorem keys_active (n x : Nat) : if 7 < n then Ends (.keyEnrol c n x) s c 0x06 1 0 s.m ∧ Ends (.keyRemove c n) s c 0x07 1 0 s.m
    else Ends (.keyEnrol c n x) s c 0x06 0 0 (fnNow s c.ring { s.m.fn c.ring with keys := tset (s.m.fn c.ring).keys n x }) ∧
      Ends (.keyRemove c n) s c 0x07 0 0 (fnNow s c.ring { s.m.fn c.ring with keys := terase (s.m.fn c.ring).keys n }) := by
  have henrol := vfCmd_active (o := execKeyEnrol c n x s) rfl ha
  have hremove := vfCmd_active (o := execKeyRemove c n s) rfl ha
  split
  · next hbad => exact ⟨henrol.trans (by rw [if_pos hbad]), hremove.trans (by rw [if_pos hbad])⟩
  · next hgood => exact ⟨henrol.trans (by rw [if_neg hgood]; rfl), hremove.trans (by rw [if_neg hgood]; rfl)⟩

/-! ## Channels (R267 to R269) -/

/-- The channel that a config word describes. -/
def created (x a : Nat) : Chan :=
  { t := x.testBit 61, x := x.testBit 60, peer := x / 2 ^ 49 % 2048, esize := x / 2 ^ 32 % 65536 + 1, bob := x / 2 ^ 28 % 16,
    smax := x / 2 ^ 23 % 32, scur := x / 2 ^ 18 % 32, home := x / 2 ^ 15 % 8, spool := BitVec.ofNat 80 a,
    credits := 4096 * 2 ^ (x / 2 ^ 28 % 16) / (x / 2 ^ 32 % 65536 + 1) + spoolBytes (x / 2 ^ 18 % 32) / (x / 2 ^ 32 % 65536 + 1) }
omit ha in
theorem chanOf_eq_created (x a : Nat) : chanOf x a = created x a := by
  have hbit (i : Nat) : (field x i 1 == 1) = x.testBit i := by
    rw [field, Nat.testBit_eq_decide_div_mod_eq]; rfl
  rw [chanOf, created]
  simp only [hbit]
  rfl
theorem channelCreate_active (n x a : Nat) : exec (.channelCreate c n x a) s = .next (withM s (
    if 4095 < n then s.m.finish c 0x03 1 0
    else if (s.m.chan? c.ring n).isSome || !(created x a).sizesOk || 8388608 < s.m.bobbinsOn (created x a).home + (created x a).bobbinBytes then
      s.m.finish c 0x03 5 0
    else
      match s.m.mapSpool c.ring (created x a).spool.toNat (spoolPages (created x a).scur) with
      | none => s.m.finish c 0x03 4 0
      | some m => (m.setChan c.ring n (created x a)).finish c 0x03 0 0)) := by
  rw [← chanOf_eq_created]
  exact vfCmd_active (o := execChannelCreate c n x a s) rfl ha

omit ha in
/-- What the configuration must be for the command to be carried out. -/
theorem created_sizesOk_iff (x a : Nat) : (created x a).sizesOk = true ↔
    (if (created x a).t then 128 ∣ (created x a).esize ∧ (created x a).esize ≤ 4096 * 2 ^ (created x a).bob
      else 4 ∣ (created x a).esize ∧ (created x a).esize ≤ 256 ∧ 32 * (created x a).esize ≤ 4096 * 2 ^ (created x a).bob) ∧
      (created x a).bob ≤ 6 ∧ (created x a).smax ≤ 19 ∧ (created x a).scur ≤ (created x a).smax ∧
      ((created x a).scur = 0 ∨ (created x a).esize ≤ spoolBytes (created x a).scur) ∧ a % 2 ^ 80 % 65536 = 0 :=
  Chan.sizesOk_iff (Nat.succ_pos _)
theorem channelCreate_refused {n x a : Nat} (hn : n ≤ 4095) (h : s.m.chan? c.ring n ≠ none ∨ ¬(created x a).sizesOk = true ∨
    ¬s.m.bobbinsOn (created x a).home + (created x a).bobbinBytes ≤ 8388608) : Ends (.channelCreate c n x a) s c 0x03 5 0 s.m := by
  have hbad : ((s.m.chan? c.ring n).isSome || !(created x a).sizesOk ||
      decide (8388608 < s.m.bobbinsOn (created x a).home + (created x a).bobbinBytes)) = true := by
    simpa [or_assoc, Option.isSome_iff_ne_none] using h
  rw [Ends, channelCreate_active ha, if_neg (Nat.not_lt.2 hn), if_pos hbad]
/-- The channel is made when the pages of its spool can be mapped. -/
theorem channelCreate_accepted {n x a : Nat} (hn : n ≤ 4095) (hc : s.m.chan? c.ring n = none) (hs : (created x a).sizesOk = true)
    (hroom : s.m.bobbinsOn (created x a).home + (created x a).bobbinBytes ≤ 8388608) :
    (∀ m, s.m.mapSpool c.ring (a % 2 ^ 80) (spoolPages (created x a).scur) = some m →
      Ends (.channelCreate c n x a) s c 0x03 0 0 (m.setChan c.ring n (created x a))) ∧
    (s.m.mapSpool c.ring (a % 2 ^ 80) (spoolPages (created x a).scur) = none → Ends (.channelCreate c n x a) s c 0x03 4 0 s.m) := by
  have hgood : ¬((s.m.chan? c.ring n).isSome || !(created x a).sizesOk ||
      decide (8388608 < s.m.bobbinsOn (created x a).home + (created x a).bobbinBytes)) = true := by
    simpa [hc, hs] using hroom
  have he := channelCreate_active ha n x a
  rw [if_neg (Nat.not_lt.2 hn), if_neg hgood, show (created x a).spool.toNat = a % 2 ^ 80 from BitVec.toNat_ofNat ..] at he
  refine ⟨fun m hm => ?_, fun hm => ?_⟩
  all_goals
    rw [hm] at he
    exact he

/-- A channel that is not there can neither be opened again nor destroyed. -/
theorem channel_absent {n : Nat} (hn : s.m.chan? c.ring n = none) :
    Ends (.channelReopen c n) s c 0x04 5 0 s.m ∧ Ends (.channelDestroy c n) s c 0x05 5 0 s.m := by
  have hreopen := vfCmd_active (o := execChannelReopen c n s) rfl ha
  have hdestroy := vfCmd_active (o := execChannelDestroy c n s) rfl ha
  rw [hn] at hreopen hdestroy
  exact ⟨hreopen, hdestroy⟩
/-- Nor one with a bound endpoint. -/
theorem channel_bound {n : Nat} {ch : Chan} (hn : s.m.chan? c.ring n = some ch) (hb : ch.wbind ≠ none ∨ ch.rbind ≠ none) :
    Ends (.channelReopen c n) s c 0x04 5 0 s.m ∧ Ends (.channelDestroy c n) s c 0x05 5 0 s.m := by
  have hbound : (ch.wbind.isNone && ch.rbind.isNone) = false := by
    rw [Bool.eq_false_iff, Ne, Bool.and_eq_true, Option.isNone_iff_eq_none, Option.isNone_iff_eq_none]
    exact fun ⟨hw, hr⟩ => hb.elim (· hw) (· hr)
  have hreopen := vfCmd_active (o := execChannelReopen c n s) rfl ha
  have hdestroy := vfCmd_active (o := execChannelDestroy c n s) rfl ha
  simp only [hn, Bool.and_assoc, hbound, Bool.and_false, Bool.false_eq_true, if_false] at hreopen hdestroy
  exact ⟨hreopen, hdestroy⟩
section
variable {n : Nat} {ch : Chan} (hn : s.m.chan? c.ring n = some ch) (hw : ch.wbind = none) (hr : ch.rbind = none)
include hn hw hr

theorem channelReopen_ended (he : ch.state = 2 ∨ ch.state = 3) : Ends (.channelReopen c n) s c 0x04 0 0
    (fnNow s c.ring { s.m.fn c.ring with chans := tset (s.m.fn c.ring).chans n { ch with state := 1 } }) := by
  have hended : (ch.ended && ch.wbind.isNone && ch.rbind.isNone) = true := by simp [Chan.ended, hw, hr, he]
  have hreopen := vfCmd_active (o := execChannelReopen c n s) rfl ha
  simp only [hn, hended, if_true] at hreopen
  exact hreopen
omit hw hr in
theorem channelReopen_open (h2 : ch.state ≠ 2) (h3 : ch.state ≠ 3) : Ends (.channelReopen c n) s c 0x04 5 0 s.m := by
  have hended : ch.ended = false := by simp [Chan.ended, h2, h3]
  have hreopen := vfCmd_active (o := execChannelReopen c n s) rfl ha
  simp only [hn, hended, Bool.false_and, Bool.false_eq_true, if_false] at hreopen
  exact hreopen
theorem channelDestroy_unspooled (hs : ch.scur = 0) : Ends (.channelDestroy c n) s c 0x05 0 0
    (fnNow s c.ring { s.m.fn c.ring with chans := terase (s.m.fn c.ring).chans n }) := by
  have hdestroy := vfCmd_active (o := execChannelDestroy c n s) rfl ha
  simp only [hn, hw, hr, hs, Option.isNone_none, Bool.and_self, if_true] at hdestroy
  exact hdestroy
end

/-! ## Invalidation (R416) -/

theorem invalidate_active (a n b : Nat) : if a % 65536 ≠ 0 ∨ 4096 < n then Ends (.invalidate c a n b) s c 0x0B 1 0 s.m
    else (s.m.fn c.ring).domain = none → exec (.invalidate c a n b) s = .next (withM s
      { (fnNow s c.ring { s.m.fn c.ring with invSeq := (s.m.fn c.ring).invSeq + 1 }) with
        hub := s.m.hub ++ [{ vf := c.ring, base := a, count := n, seq := (s.m.fn c.ring).invSeq + 1, word := some b, cmd := some (c, 0x0B) }] }) := by
  have he := vfCmd_active (o := execInvalidate c a n b s) rfl ha
  split
  · next hbad => exact he.trans (by rw [if_pos hbad])
  · next hgood => exact fun hd => he.trans (by rw [if_neg hgood, Mach.submitInv_local hd]; rfl)

/-! ## Reports (R354, R451) -/

omit ha in
/-- A report that firmware may write is stored, and the command ends. -/
theorem reports_of_report {i : Instr} {op a v pa : Nat} {bs : List Byte} (hring : c.ring < 128)
    (he : exec i s = .next (withM s (s.m.report c op a bs v))) (hm : NoMonitor s) (hf : FwAt s c.ring a bs.length [.write] pa) :
    Reports i s c op pa v bs := by
  obtain ⟨ps, hps, hstored⟩ := hf.write hm rfl
  have hreport : s.m.report c op a bs v = (s.m.bulkWrite ioDie ps bs).finish c op 0 v := by
    rw [Mach.report, if_neg (Nat.not_le.2 hring), hps]
  obtain ⟨hmem, hwgs, -⟩ := (s.m.bulkWrite ioDie ps bs).finish_frame c op 0 v
  obtain ⟨hfns, hhost⟩ := Mach.finish_congr hstored.fns hstored.host c op 0 v
  rw [hreport] at he
  exact ⟨_, he, rfl, hmem.trans hstored.mem, hhost, hfns, hwgs.trans hstored.wgs⟩
theorem slotAttestation_reports (hm : NoMonitor s) {a n pa : Nat} {bs : List Byte}
    (hbs : bs = [0x41, 0x53, 1] ++ leBytes 1 c.ring ++ leBytes 4 0 ++ leBytes 8 s.clk.time ++ List.replicate 16 0 ++ leBytes 32 n ++
      ((upFrom 0 16).map (fun j => if j < 3 then slotReport (some (romFmt j)) 0
        else slotReport ((s.m.fn c.ring).slotEntry j).fmt ((s.m.fn c.ring).slotEntry j).gen)).flatten)
    (hf : FwAt s c.ring a (signedBy bs).length [.write] pa) : Reports (.slotAttestation c n a) s c 0x08 pa 0 (signedBy bs) := by
  have he := vfCmd_active (o := execSlotAttestation c n a s) rfl ha
  obtain ⟨hring, -⟩ := ha
  subst hbs
  exact reports_of_report hring he hm hf
/-- The report of the device, without its signature. -/
def deviceReport (s : State) (c : Cmd) (n : Nat) : List Byte :=
  [0x41, 0x44, 1] ++ leBytes 1 c.ring ++ leBytes 2 s.m.devnum ++ leBytes 2 (s.m.cores.filter (·.2.fenced)).length ++ leBytes 8 s.clk.time ++
    leBytes 8 Config.serialNumber ++ leBytes 4 Config.fwSecver ++ leBytes 4 (bit s.m.lastTestOk + 2 * bit (s.m.fn c.ring).scrubbed) ++ leBytes 32 n ++
    leBytes 32 Config.fwDigest ++ leBytes 32 Config.bootDigest ++ sha256 (keyBytes Config.identityKey) ++ List.replicate 32 0
omit ha in
theorem length_signed_deviceReport (n : Nat) : (signedBy (deviceReport s c n)).length = 256 := by
  simp only [signedBy, deviceReport, List.length_append, length_leBytes, length_beBytes, length_sha256, List.length_replicate, List.length_cons,
    List.length_nil]
theorem deviceAttestation_active (a n : Nat) :
    exec (.deviceAttestation c n a) s = .next (withM s (s.m.report c 0x09 a (signedBy (deviceReport s c n)) 0)) := by
  obtain ⟨hring, hstate⟩ := ha
  have hopen : s.m.vfRefused c = none := if_neg fun h => h.2 hstate
  have he : exec (.deviceAttestation c n a) s = execDeviceAttestation c n a s := rfl
  rw [he, execDeviceAttestation, State.always, hopen]
  simp only [Nat.not_le.2 hring, if_false]
  rfl
/-- A page that is not mapped cannot take the report. -/
theorem deviceAttestation_unmapped {a : Nat} (n : Nat) (hp : a % 65536 + 512 ≤ 65536) (ht : translate s.m c.ring a .write = .noTranslation) :
    Ends (.deviceAttestation c n a) s c 0x09 5 0 s.m := by
  have he := deviceAttestation_active ha a n
  obtain ⟨hring, -⟩ := ha
  have hmissing : s.m.fwAccess c.ring a (signedBy (deviceReport s c n)).length [.write] = .missing a 1 1 := by
    rw [length_signed_deviceReport, Mach.fwAccess, spansOf_one (by decide) (by omega)]
    simp only [List.map_cons, List.map_nil, List.foldl_cons, List.foldl_nil, ht]
    rfl
  rw [Mach.report, if_neg (Nat.not_le.2 hring), hmissing] at he
  exact he
omit ha in
theorem deviceAttestation_inactive (hring : c.ring < 128) (hstate : (s.m.fn c.ring).state ≠ 1) (a n : Nat) :
    Ends (.deviceAttestation c n a) s c 0x09 3 0 s.m := by
  have hrefused : s.m.vfRefused c = some 3 := if_pos ⟨hring, hstate⟩
  have he : exec (.deviceAttestation c n a) s = execDeviceAttestation c n a s := rfl
  rw [Ends, he, execDeviceAttestation, State.always, hrefused]
  rfl
end

end Sys2Proof.Claims
end

section
open Sys2Proof Sys2Proof.Machine Sys2Proof.Claims

/-- Settles O51: the guard of each command, and each command of an active function. The completion of an invalidation at its end (log 68), the
mapped pages of a spool (log 69), the status of a report that cannot be written (log 74) and the rows of read-counters (log 75) are the model's
choices. -/
theorem functionCommands : Obligations.FunctionCommands := by
  intro c a b n x s f
  refine ⟨⟨vfCmd_guarded (o := execGraphRun c a b n s) rfl, vfCmd_guarded (o := execFormatRecordLoad c n a s) rfl,
    vfCmd_guarded (o := execChannelCreate c n x a s) rfl, vfCmd_guarded (o := execChannelReopen c n s) rfl,
    vfCmd_guarded (o := execChannelDestroy c n s) rfl, vfCmd_guarded (o := execKeyEnrol c n x s) rfl,
    vfCmd_guarded (o := execKeyRemove c n s) rfl, vfCmd_guarded (o := execSlotAttestation c n a s) rfl,
    vfCmd_guarded (o := execReadCounters c a s) rfl, vfCmd_guarded (o := execInvalidate c a n b s) rfl⟩,
    fun ha => ⟨graphRun_active ha a b n, formatRecordLoad_active ha a n, ?create, fun hn => channel_absent ha hn, fun ch hn =>
      ⟨fun hb => channel_bound ha hn hb, fun hw hr => ⟨fun he => channelReopen_ended ha hn hw hr he, fun h2 h3 => channelReopen_open ha hn h2 h3,
        fun hs => channelDestroy_unspooled ha hn hw hr hs⟩⟩, keys_active ha n x, invalidate_active ha a n b,
      fun hm pa => ⟨fun bs hbs hf => slotAttestation_reports ha hm hbs hf, ?device, ?counters⟩,
      fun hp ht => deviceAttestation_unmapped ha n hp ht⟩,
    fun hring hstate => deviceAttestation_inactive hring hstate a n⟩
  case create =>
    intro ch sizes room
    have hsizes : (created x a).sizesOk = true ↔ sizes := created_sizesOk_iff x a
    refine ⟨fun hn => (channelCreate_active ha n x a).trans (by rw [if_pos hn]), fun hn h => channelCreate_refused ha hn (by rwa [hsizes]),
      fun hn hc hs hr => ?_⟩
    obtain ⟨hmapped, hunmapped⟩ := channelCreate_accepted ha hn hc (hsizes.2 hs) hr
    refine ⟨fun h0 => hmapped s.m ?_, hmapped, hunmapped⟩
    have h0' : (created x a).scur = 0 := h0
    rw [h0']
    rfl
  case device =>
    intro bs hbs hf
    have he := deviceAttestation_active ha a n
    obtain ⟨hring, -⟩ := ha
    subst hbs
    exact reports_of_report hring he hm hf
  case counters =>
    intro open_ pinned bs hbs hf
    have he : execReadCounters c a s = .next (withM s (s.m.report c 0x0A a bs (open_.length + 2 ^ 32 * pinned.length))) := by
      refine (vfCmd_active rfl ha).trans ?_
      dsimp only
      rw [List.length_map, List.length_map, hbs] <;> rfl
    obtain ⟨hring, -⟩ := ha
    exact reports_of_report hring he hm hf
end

section
/-! SUPPORT. A counterexample to O53. A pre-empt command waits for the workgroups marked 1, to be pre-empted (R389). `Wg.leaving` is a number, and
the statement leaves out only the mark 2, of a fetch fault: of a workgroup with any further mark it claims that the command waits, and it does not. -/
namespace Sys2Proof.Claims
open Sys2Proof.Machine

/-- The physical function's command, for function 0. -/
def preEmptCmd : Cmd := { ring := 128, target := 0, tag := 5, irq := false }
/-- Function 0 has one workgroup, in slot 0 of core 0, marked 3. -/
def markedThree : State := { m := { wgs := [(0, { leaving := 3 })], fns := [(0, { state := 1 })] } }
/-- The pre-empt commands of function 0 under way after an instruction that answers a next state. -/
def preemptsAfter : Host.Outcome State Fault Refusal → Option (List (Cmd × List Nat))
  | .next t => some (t.m.fn 0).preempts
  | _ => none
/-- The command has ended at once. -/
theorem markedThree_ended : preemptsAfter (exec (.preEmpt preEmptCmd 0) markedThree) = some [] := by decide +kernel

end Sys2Proof.Claims
end

section
open Sys2Proof Sys2Proof.Machine Sys2Proof.Claims

/-- Refutes O53: of a named workgroup whose mark `leaving` is 3 the statement says that the pre-empt command waits for it; the command waits for
marks of 1 alone and has ended. The model gives no workgroup that mark; the statement's states may. -/
theorem not_physicalCommands : ¬Obligations.PhysicalCommands := by
  unfold Obligations.PhysicalCommands
  intro h
  obtain ⟨-, -, htarget, -⟩ := h preEmptCmd 0 0 0 0 [] markedThree
  obtain ⟨-, -, -, -, -, -, hpreEmpt⟩ := htarget rfl (by decide)
  obtain ⟨u, hnext, -, -, -, -, hwaits⟩ := hpreEmpt (by decide) (by decide) (by decide) (by decide)
  obtain ⟨starts, hstarts, -⟩ := hwaits 0 0 { leaving := 3 } (by decide) rfl ⟨rfl, .inl rfl, rfl⟩ (by decide)
  have hended : some (u.m.fn 0).preempts = some [] := (congrArg preemptsAfter hnext).symm.trans markedThree_ended
  have hwaiting : (u.m.fn 0).preempts = [(preEmptCmd, starts)] := hstarts
  rw [hwaiting] at hended
  cases hended
end

section
/-! SUPPORT. What a lane instruction reads of the other active lanes (R178): the lane it names, the lanes that agree with it, and all of them
at once. -/
namespace Sys2Proof.Claims
open Sys2Proof.Machine

/-- The lane that `shfl` names, where it is active in the lane's own warp; else the lane itself (R179). -/
theorem apply_shflOp (mode d a : Nat) (b : Src) (c : Ctx) (j : Nat) (th : Thread) :
    ((shflOp mode d a b).upd (lanes c) (j, th)).apply th =
      th.setV d ((((shflLane mode th.lane (countB th b)).bind (fun i =>
        (lanes c).find? (fun e => e.2.warp == th.warp && e.2.lane == i))).map (fun e => e.2.getV a)).getD (th.getV a)) := by
  refine (apply_setV d _ th).trans ?_
  rw [srcCount_eq]
  cases shflLane mode th.lane (countB th b) with
  | none => rfl
  | some i => exact congrArg (th.setV d) (Option.getD_map (fun e : Lane => e.2.getV a) (j, th) _).symm
/-- Equal patterns are equal operands. -/
theorem pat_beq (t : Ty) (x y : Thread) (r : Nat) : (x.pat t r == y.pat t r) = (opnd t x r == opnd t y r) := by
  rw [pat_eq, pat_eq, Bool.eq_iff_iff, beq_iff_eq, beq_iff_eq, BitVec.toNat_inj]
/-- A reduction of the active lanes' values, with the flags of all its steps (R181). -/
theorem apply_reduxOp (op : Nat) (t : Ty) (d a : Nat) (c : Ctx) (l : Lane) (th : Thread) :
    let r := reduxTree (reduxStep op t) 6 ((lanes c).map (fun e => (opnd t e.2 a).toNat))
    ((reduxOp op t d a).upd (lanes c) l).apply th = { result t d (BitVec.ofNat t.bits r.1) th with fstat := th.fstat ||| r.2 } := by
  have hpats : (lanes c).map (fun e => e.2.pat t a) = (lanes c).map (fun e => (opnd t e.2 a).toNat) := List.map_congr_left fun e _ => pat_eq t e.2 a
  simp only [reduxOp, hpats]
  rw [apply_vf, result_fstat]
/-- The mask of the lanes that agree is the mask of those whose operand is the lane's own (R182). -/
theorem apply_matchOp (t : Ty) (d a : Nat) (c : Ctx) (j : Nat) (th : Thread) :
    ((matchOp t d a).upd (lanes c) (j, th)).apply th =
      th.setV d ((lanes c).foldl (fun x e => if e.2.warp == th.warp && opnd t e.2 a == opnd t th a then x ||| BitVec.ofNat 32 (2 ^ e.2.lane) else x) 0) := by
  refine (apply_setV d _ th).trans ?_
  simp only [peerMask, pat_beq]

end Sys2Proof.Claims
end

section
open Sys2Proof Sys2Proof.Machine Sys2Proof.Claims

/-- Settles O8: what each instruction writes in a lane, from the active lanes as they stand before any of them writes. -/
theorem laneInstructions : Obligations.LaneInstructions := by
  refine fun d a => ⟨fun mode b => ?shfl, ?voteAny, ?voteAll, ?voteBallot, ?voteEq, fun op t => ?redux, fun t => ?matchLanes⟩
  case shfl => exact lanewise _ (shflOp mode d a b) _ _ _ (fun _ => rfl) rfl rfl (apply_shflOp mode d a b)
  case voteAny => exact lanewise _ (voteAnyOp d a) _ _ _ (fun _ => rfl) rfl rfl fun _ _ th => apply_setP d _ th
  case voteAll => exact lanewise _ (voteAllOp d a) _ _ _ (fun _ => rfl) rfl rfl fun _ _ th => apply_setP d _ th
  case voteBallot => exact lanewise _ (voteBallotOp d a) _ _ _ (fun _ => rfl) rfl rfl fun _ _ th => apply_setV d _ th
  case voteEq => exact lanewise _ (voteEqOp d a) _ _ _ (fun _ => rfl) rfl rfl fun _ _ th => apply_setP d _ th
  case redux => exact lanewise _ (reduxOp op t d a) _ _ _ (fun _ => rfl) rfl rfl fun c j th => apply_reduxOp op t d a c (j, th) th
  case matchLanes => exact lanewise _ (matchOp t d a) _ _ _ (fun _ => rfl) rfl rfl (apply_matchOp t d a)
end

section
/-! SUPPORT. `barw` (R184), and a counterexample to O23. In an ordered launch `tbar.arrive`, which releases what its threads did before it
(R312), waits while an operation of one of them is held (R221, R400); the statement lets it count its arrival at once. -/
namespace Sys2Proof.Machine

theorem exec_barw (mask : Nat) (s : State) : exec (.barw mask) s = s.group (barwRun mask) := rfl

end Sys2Proof.Machine
namespace Sys2Proof.Claims
open Sys2Proof.Machine

/-- One thread of an ordered launch, which holds one of its operations; its k1 is 0, where a live barrier word stands. -/
def arriver : Wg := { hdr := { ordered := true, scratch := 1 }, launch := 5, threads := [{ pc := 0x10000 }], tags := [0], warps := [{}] }
/-- The thread's store to 0x20000, which its line's home holds. -/
def heldStore : OrdOp := { g := 0, e := 0, t := 0, s := 0, op := 0, type := .b32, va := 0x20000, pa := 0x400000000, data := [1], core := 0, slot := 0 }
/-- A phase of two arrivals, none of them made. -/
def twoAwaited : BarWord := { gen := 0, init := 2, pend := 2, goal := 0, landed := 0 }
def arriving : State :=
  { m := { ig := some { core := 0, slot := 0, threads := [0], pc := 0x10000, w := 0, ext := none }, wgs := [(0, arriver)],
           fns := [(0, { state := 1, launches := [{ id := 5, hdr := arriver.hdr, held := [heldStore] }] })],
           cores := [(0, { scratch := scratchPut [] 0 (leBytes 8 twoAwaited.toNat) })] } }
def arriveCtx : Ctx := { m := arriving.m, ig := { core := 0, slot := 0, threads := [0], pc := 0x10000, w := 0, ext := none }, wg := arriver, act := [0] }
/-- Arrivals still awaited at the word after an instruction that answers a next state. -/
def awaitedAfter : Host.Outcome State Fault Refusal → Option Nat
  | .next t => some (t.m.barWord 0 0 0).pend
  | _ => none

theorem arriving_issues : Issues arriving arriveCtx := by rfl
theorem arriving_barAt : BarAt arriveCtx 1 0 true := ⟨by decide, rfl, rfl, by decide, rfl⟩
theorem arriving_word : arriving.m.barWord 0 0 0 = twoAwaited := by decide +kernel
/-- The thread waits: both arrivals are awaited still. -/
theorem arriving_waits : awaitedAfter (exec (.tbarArrive 1) arriving) = some 2 := by decide +kernel
/-- An arrival counted leaves one awaited. -/
theorem arriving_counted : awaitedAfter (.next (withM arriving (arriveCtx.retire (arriving.m.setBar 0 0 0 { twoAwaited with pend := 1 })))) = some 1 := by
  decide +kernel

end Sys2Proof.Claims
end

section
open Sys2Proof Sys2Proof.Machine Sys2Proof.Claims

/-- R184: an arrival is a change of the active threads, which leave their fused group; the check of the mask comes first. -/
theorem workgroupBarrier : WorkgroupBarrier := by
  refine fun mask s c h => ⟨fun hm => exec_withM h (exec_barw mask s) ?_, fun hm => exec_badRole h (exec_barw mask s) ?_⟩
  · rw [barwRun, hm, retireWith_each h, setWg_atWg]
    rfl
  · rw [barwRun, hm]
    rfl

/-- The statement's clause of `tbar.arrive` asks for no more than a live word with two arrivals awaited. -/
theorem not_transactionBarriers : ¬TransactionBarriers := by
  intro h
  obtain ⟨-, harrive, -⟩ := h 1 0 arriving arriveCtx 0 arriving_issues
  have hword : arriving.m.barWord arriveCtx.core arriveCtx.slot 0 = twoAwaited := arriving_word
  rw [hword] at harrive
  have hnext := harrive arriving_barAt (by decide) (.inl (by decide))
  have hpend : some 2 = some 1 := arriving_waits.symm.trans ((congrArg awaitedAfter hnext).trans arriving_counted)
  cases hpend

/-- Refutes O23 by its second half: the clauses of `tbar.arrive` leave out that no operation of the group's threads is held (R400). The first
half holds (`workgroupBarrier`). -/
theorem not_barriers : ¬Obligations.Barriers := fun h => not_transactionBarriers h.2
end

section
/-! SUPPORT. The physical address space (R199 to R202): bits of a slice number, and places in the core windows. -/
namespace Sys2Proof.Machine

theorem testBit_field (w lo n i : Nat) : (field w lo n).testBit i = (decide (i < n) && w.testBit (lo + i)) := by
  rw [field, Nat.testBit_mod_two_pow, Nat.testBit_div_two_pow, Nat.add_comm i lo]
theorem field_lt (w lo n : Nat) : field w lo n < 2 ^ n := Nat.mod_lt _ (Nat.two_pow_pos n)
theorem l2Slice_lt (pa : Nat) : l2Slice pa < 16 :=
  Nat.xor_lt_two_pow (Nat.xor_lt_two_pow (Nat.xor_lt_two_pow (field_lt ..) (field_lt ..)) (field_lt ..)) (field_lt ..)
theorem testBit_l2Slice (pa : Nat) {i : Nat} (h : i < 4) :
    (l2Slice pa).testBit i = ((pa.testBit (7 + i) != pa.testBit (11 + i)) != (pa.testBit (15 + i) != pa.testBit (19 + i))) := by
  simp only [l2Slice, Nat.testBit_xor, testBit_field, h, decide_true, Bool.true_and, Bool.bne_eq_xor, Bool.xor_assoc]
theorem physPlace_hbm {pa : Nat} (h : pa < 2 ^ 40) : physPlace pa = .hbm := if_pos h
theorem physPlace_unpopulated {pa : Nat} (h : 2 ^ 40 ≤ pa) (h' : pa < 0xE000000000000) : physPlace pa = .unpopulated := by
  rw [physPlace, hbmBytes, windowBase, if_neg (Nat.not_lt.2 h), if_pos h']
theorem physPlace_firmware {pa : Nat} (h : 0xE000140000000 ≤ pa) : physPlace pa = .firmware := by
  rw [physPlace, hbmBytes, windowBase, windowBytes, if_neg (by omega), if_neg (by omega), if_neg (by omega)]
theorem physPlace_window {core off : Nat} (hc : core < 1280) (ho : off < 0x400000) :
    physPlace (0xE000000000000 + core * 0x400000 + off) = .window core off := by
  rw [physPlace, hbmBytes, windowBase, windowBytes, if_neg (by omega), if_neg (by omega), if_pos (by omega),
    show (0xE000000000000 + core * 0x400000 + off - 0xE000000000000) / 0x400000 = core by omega,
    show (0xE000000000000 + core * 0x400000 + off - 0xE000000000000) % 0x400000 = off by omega]
theorem windowPlace_scratch {off : Nat} (h : off < 0x80000) : windowPlace off = .scratch off := if_pos h
theorem windowPlace_register {row lane b : Nat} (hr : row < 4096) (hl : lane < 32) (hb : b < 4) :
    windowPlace (0x100000 + 128 * row + 4 * lane + b) = .register row lane b := by
  rw [windowPlace, if_neg (by omega), if_pos (by omega), show (0x100000 + 128 * row + 4 * lane + b - 0x100000) / 128 = row by omega,
    show (0x100000 + 128 * row + 4 * lane + b) % 128 / 4 = lane by omega, show (0x100000 + 128 * row + 4 * lane + b) % 4 = b by omega]
theorem windowPlace_accumulator {n b : Nat} (hn : n < 16) (hb : b < 0x2000) : windowPlace (0x200000 + 0x2000 * n + b) = .accumulator n b := by
  rw [windowPlace, if_neg (by omega), if_neg (by omega), if_pos (by omega), show (0x200000 + 0x2000 * n + b - 0x200000) / 8192 = n by omega,
    show (0x200000 + 0x2000 * n + b) % 8192 = b by omega]
theorem windowPlace_reserved {off : Nat} (h : (0x80000 ≤ off ∧ off < 0x100000) ∨ (0x180000 ≤ off ∧ off < 0x200000) ∨ 0x220000 ≤ off) :
    windowPlace off = .reserved := by
  rw [windowPlace, if_neg (by omega), if_neg (by omega), if_neg (by omega)]
/-- What copy engines and landing zones reach in a core's window: its scratchpad and its registers. -/
def WindowPlace.forEngines : WindowPlace → Bool
  | .scratch _ | .register .. => true
  | _ => false
/-- An access at a core's window is answered by what its offset names. -/
theorem physAnswers_window {pa core off : Nat} {p : WindowPlace} (h : physPlace pa = .window core off) (hp : windowPlace off = p) :
    physAnswers .translated pa = false ∧ physAnswers .firmware pa = (p != .reserved) ∧ physAnswers .window pa = p.forEngines := by
  simp only [physAnswers, h, hp]
  exact ⟨trivial, trivial, by cases p <;> rfl⟩
/-- A frame outside HBM makes an entry that names this device's memory malformed (R210). -/
theorem entryMalformed_of_frame {e : Nat} (hv : e % 2 = 1) (hd : e / 2 ^ 75 % 2 = 0) (hf : 2 ^ 24 ≤ e / 2 ^ 16 % 2 ^ 36) : entryMalformed e = true := by
  have hvalid : field e 0 1 = 1 := by rw [field]; omega
  have hhere : field e 75 1 = 0 := hd
  have hplace : physPlace (field e 16 36 * 65536) ≠ .hbm := by
    have : field e 16 36 = e / 2 ^ 16 % 2 ^ 36 := rfl
    rw [physPlace, hbmBytes, if_neg (by omega)]
    split
    · exact fun h => nomatch h
    · split <;> exact fun h => nomatch h
  have hanswer : physAnswers .translated (field e 16 36 * 65536) = false := by
    cases h : physPlace (field e 16 36 * 65536) with
    | hbm => exact absurd h hplace
    | unpopulated | window | firmware => simp [physAnswers, h]
  have hbad (large : Bool) : badPage large (field e 16 36 * 65536) = true := by cases large <;> simp [badPage, badFrame, hanswer]
  simp [entryMalformed, hvalid, hhere, hbad]

end Sys2Proof.Machine
end

section
open Sys2Proof Sys2Proof.Machine Sys2Proof.Claims

theorem physicalMap : PhysicalMap := by
  refine ⟨fun pa h => ⟨physPlace_hbm h, ?_, rfl, l2Slice_lt pa, fun i hi => testBit_l2Slice pa hi⟩,
    fun pa h h' => ⟨physPlace_unpopulated h h', fun a => ?_⟩, fun pa h => ⟨physPlace_firmware h, fun a => ?_⟩, ?window,
    fun e => entryMalformed_of_frame⟩
  · rw [homeDie, field, Nat.mod_eq_of_lt (by omega)]
  · simp only [physAnswers, physPlace_unpopulated h h']
  · simp only [physAnswers, physPlace_firmware h]
    rfl
  case window =>
    intro core off hc ho pa
    have hplace : physPlace pa = .window core off := physPlace_window hc ho
    refine ⟨hplace, (physAnswers_window hplace rfl).1, fun h => ?_, fun row lane b h hr hl hb => ?_, fun n b h hn hb => ?_, fun h => ?_⟩
    · obtain ⟨-, hfw, hw⟩ := physAnswers_window hplace (windowPlace_scratch h)
      exact ⟨windowPlace_scratch h, rfl, hw, hfw⟩
    · have hreg : windowPlace off = .register row lane b := h ▸ windowPlace_register hr hl hb
      obtain ⟨-, hfw, hw⟩ := physAnswers_window hplace hreg
      refine ⟨hreg, ?_, hw, hfw⟩
      simp only [pa, h, registerWindow, windowBase, windowBytes]
      omega
    · have hacc : windowPlace off = .accumulator n b := h ▸ windowPlace_accumulator hn hb
      obtain ⟨-, hfw, hw⟩ := physAnswers_window hplace hacc
      refine ⟨hacc, ?_, hw, hfw⟩
      simp only [pa, h, accWindow, windowBase, windowBytes]
      omega
    · have hres := windowPlace_reserved h
      obtain ⟨htr, hfw, hw⟩ := physAnswers_window hplace hres
      refine ⟨hres, fun a => ?_⟩
      cases a with
      | translated => exact htr
      | window => exact hw
      | firmware => exact hfw
end

section
/-! SUPPORT. Translated modules (R458, R459, R461): the fields of an operation record, the shapes two operations require, and the elements of a
matmul and of a reduction. -/
namespace Sys2Proof.Machine

theorem getD_args_ofBytes (b : List Byte) {j : Nat} (h : j < (TileOp.ofBytes b).args.length) :
    (TileOp.ofBytes b).args.getD j 0 = numAt b (8 + 4 * j) 4 := by
  rw [List.getD_eq_getElem _ _ h]
  simp [TileOp.ofBytes, upFrom_eq_range']
theorem length_args_ofBytes (b : List Byte) : (TileOp.ofBytes b).args.length = min 6 (TileOp.ofBytes b).nargs := by
  simp [TileOp.ofBytes, upFrom_eq_range', Nat.min_comm]

/-! ## What the translator refuses (R461) -/

/-- No slot of the function holds the format a type names. -/
def TileType.missing (fmts : List (Nat × Nat)) (t : TileType) : Bool :=
  match t.elem with | .digest d => !fmts.any (·.1 == d) | .code _ => false
theorem TileType.missing_iff (fmts : List (Nat × Nat)) (t : TileType) : t.missing fmts = true ↔ ∃ d, t.elem = .digest d ∧ ∀ f ∈ fmts, f.1 ≠ d := by
  unfold TileType.missing
  cases t.elem <;> simp
theorem Module.refusal_eq (m : Module) (syms : List Nat) (fmts : List (Nat × Nat)) : m.refusal syms fmts =
    if !m.wf then 1 else if m.used.any (fun t => (t.bind syms).isNone) then 2 else if m.used.any (·.missing fmts) then 6
    else if m.ops.any (fun o => !m.shapeOk syms fmts o) then 3 else 0 := rfl
theorem Module.refusal_malformed {m : Module} (h : m.wf = false) (syms : List Nat) (fmts : List (Nat × Nat)) : m.refusal syms fmts = 1 := by
  rw [Module.refusal_eq, h]; rfl
section
variable {m : Module} {syms : List Nat} {fmts : List (Nat × Nat)} (h : m.wf = true)
include h

theorem Module.refusal_unbound (hb : ∃ t ∈ m.used, t.bind syms = none) : m.refusal syms fmts = 2 := by
  have hany : m.used.any (fun t => (t.bind syms).isNone) = true := by simpa using hb
  rw [Module.refusal_eq, h, hany]; rfl
variable (hb : ∀ t ∈ m.used, t.bind syms ≠ none)
include hb

theorem Module.refusal_bound : m.refusal syms fmts =
    if m.used.any (·.missing fmts) then 6 else if ∀ o ∈ m.ops, m.shapeOk syms fmts o = true then 0 else 3 := by
  have hbound : m.used.any (fun t => (t.bind syms).isNone) = false := by simpa [Option.isSome_iff_ne_none] using hb
  have hshapes : m.ops.any (fun o => !m.shapeOk syms fmts o) = true ↔ ¬∀ o ∈ m.ops, m.shapeOk syms fmts o = true := by simp
  simp only [Module.refusal_eq, h, hbound, hshapes, Bool.not_true, Bool.false_eq_true, if_false, ite_not]
theorem Module.refusal_missing (hd : ∃ t ∈ m.used, ∃ d, t.elem = .digest d ∧ ∀ f ∈ fmts, f.1 ≠ d) : m.refusal syms fmts = 6 := by
  obtain ⟨t, ht, hm⟩ := hd
  rw [Module.refusal_bound h hb, if_pos (List.any_eq_true.2 ⟨t, ht, (TileType.missing_iff fmts t).2 hm⟩)]
theorem Module.refusal_held (hd : ∀ t ∈ m.used, ∀ d, t.elem = .digest d → ∃ f ∈ fmts, f.1 = d) :
    m.refusal syms fmts = if ∀ o ∈ m.ops, m.shapeOk syms fmts o = true then 0 else 3 := by
  rw [Module.refusal_bound h hb, if_neg]
  intro hany
  obtain ⟨t, ht, hm⟩ := List.any_eq_true.1 hany
  obtain ⟨d, he, hf⟩ := (TileType.missing_iff fmts t).1 hm
  obtain ⟨f, hmem, e⟩ := hd t ht d he
  exact hf f hmem e
end

/-! ## Shapes (R459) -/

theorem shapesOk_matmul_iff (x y z res : List Nat) (e : TileElem) (rb ab : Nat) : shapesOk 3 [x, y, z] res e rb ab = true ↔
    ∃ p k n, x = [p, k] ∧ y = [k, n] ∧ z = [p, n] ∧ res = [p, n] ∧ e = .code (Ty.f32).code := by
  constructor
  · intro h
    unfold shapesOk at h
    split at h
    case h_3 hargs =>
      cases hargs
      simp only [Bool.and_eq_true, beq_iff_eq] at h
      obtain ⟨⟨⟨rfl, rfl⟩, rfl⟩, rfl⟩ := h
      exact ⟨_, _, _, rfl, rfl, rfl, rfl, rfl⟩
    all_goals contradiction
  · rintro ⟨p, k, n, rfl, rfl, rfl, rfl, rfl⟩
    simp [shapesOk, Ty.code]
theorem shapesOk_reduce_iff (x res : List Nat) (e : TileElem) (rb ab : Nat) :
    shapesOk 5 [x] res e rb ab = true ↔ ∃ p k, x = [p, k] ∧ res = [p, 1] := by
  have hshape : shapesOk 5 [x] res e rb ab = (x.length == 2 && res == [x.headD 0, 1]) := rfl
  rw [hshape, Bool.and_eq_true, beq_iff_eq, beq_iff_eq]
  constructor
  · rintro ⟨hx, rfl⟩
    obtain ⟨p, k, rfl⟩ := List.length_eq_two.1 hx
    exact ⟨p, k, rfl, rfl⟩
  · rintro ⟨p, k, rfl, rfl⟩
    exact ⟨rfl, rfl⟩

/-! ## Rows padded to passes of 64 elements (R459) -/

theorem length_padK (xs : List FVal) : (padK xs).length = 64 * ((xs.length + 63) / 64) := by
  rw [padK, List.length_append, List.length_replicate]
  omega
theorem padK_append_zeros (xs : List FVal) :
    padK (xs ++ List.replicate ((64 - xs.length % 64) % 64) (FVal.zero false)) = padK xs := by
  have hlen := length_padK xs
  rw [padK] at hlen ⊢
  rw [hlen, show (64 - 64 * ((xs.length + 63) / 64) % 64) % 64 = 0 by omega, List.replicate_zero, List.append_nil, padK]
theorem padK_padK (xs : List FVal) : padK (padK xs) = padK xs := padK_append_zeros xs

/-- Column `j` of a matrix of rows: +0 where a row is short. -/
def colAt (b : List (List FVal)) (j : Nat) : List FVal := b.map (fun q => q.getD j (FVal.zero false))
/-- The element of a matmul (R459): the sum of the passes of a row and a column. -/
def matmulAt (b : List (List FVal)) (row : List FVal) (j x : Nat) : Nat := (dotAll ((padK row).length / 64) x (padK row) (padK (colAt b j))).1
theorem tileMatmul_eq (a b : List (List FVal)) (c : List (List Nat)) :
    tileMatmul a b c = (a.zip c).map (fun p => p.2.mapIdx (fun j x => matmulAt b p.1 j x)) := rfl
theorem length_tileMatmul {a : List (List FVal)} {c : List (List Nat)} (h : a.length = c.length) (b : List (List FVal)) :
    (tileMatmul a b c).length = c.length := by simp [tileMatmul_eq, h]
theorem getD_tileMatmul {a : List (List FVal)} {c : List (List Nat)} (b : List (List FVal)) (h : a.length = c.length) {i j : Nat} (hi : i < c.length)
    (hj : j < (c.getD i []).length) : ((tileMatmul a b c).getD i []).getD j 0 = matmulAt b (a.getD i []) j ((c.getD i []).getD j 0) := by
  have hrow : (tileMatmul a b c).getD i [] = (c.getD i []).mapIdx (fun j x => matmulAt b (a.getD i []) j x) := by
    simp [tileMatmul_eq, List.getD_eq_getElem?_getD, h, hi]
  rw [hrow, List.getD_eq_getElem _ _ (by simpa using hj), List.getElem_mapIdx, List.getD_eq_getElem _ _ hj]
theorem matmulAt_eq (b : List (List FVal)) {row : List FVal} {k : Nat} (hk : row.length = k) (j x : Nat) :
    matmulAt b row j x = (dotAll ((k + 63) / 64) x (padK row) (padK (colAt b j))).1 := by
  rw [matmulAt, length_padK, hk, Nat.mul_div_cancel_left _ (by decide)]
/-- Rows of +0 that fill up the last pass change no element. -/
theorem matmulAt_padded (b : List (List FVal)) (row : List FVal) (j x : Nat) :
    matmulAt (b ++ List.replicate ((64 - b.length % 64) % 64) []) (padK row) j x = matmulAt b row j x := by
  have hcol : padK (colAt (b ++ List.replicate ((64 - b.length % 64) % 64) []) j) = padK (colAt b j) := by
    have h := padK_append_zeros (colAt b j)
    rw [colAt, List.length_map] at h
    rw [colAt, List.map_append, List.map_replicate, colAt]
    exact h
  rw [matmulAt, matmulAt, hcol, padK_padK]
theorem tileMatmul_padded (a b : List (List FVal)) (c : List (List Nat)) :
    tileMatmul (a.map padK) (b ++ List.replicate ((64 - b.length % 64) % 64) []) c = tileMatmul a b c := by
  rw [tileMatmul_eq, List.zip_map_left, List.map_map, tileMatmul_eq]
  refine List.map_congr_left fun p _ => ?_
  simp only [Function.comp_apply, Prod.map_fst, Prod.map_snd, id_eq, matmulAt_padded]

theorem getD_tileReduce (op : Nat) (t : Ty) (rows : List (List Nat)) {i : Nat} (h : i < rows.length) :
    (tileReduce op t rows).getD i [] = [(reduxTree (reduxStep op t) (rows.getD i []).length (rows.getD i [])).1] := by
  simp [tileReduce, List.getD_eq_getElem?_getD, h]

end Sys2Proof.Machine
end

section
open Sys2Proof Sys2Proof.Machine Sys2Proof.Claims

theorem tileOperations : TileOperations := by
  refine ⟨fun b => ⟨rfl, rfl, rfl, rfl, length_args_ofBytes b, fun j => getD_args_ofBytes b⟩,
    fun m syms fmts => ⟨fun h => Module.refusal_malformed h .., Module.refusal_unbound,
      fun h hb => ⟨Module.refusal_missing h hb, Module.refusal_held h hb⟩⟩,
    shapesOk_matmul_iff, shapesOk_reduce_iff, fun a b c k ha hb hac => ⟨length_tileMatmul hac b, fun i j hi hj => ?_, ?_⟩,
    fun t rows op => ⟨List.length_map _, fun i => getD_tileReduce op t rows⟩⟩
  · have hrow : (a.getD i []).length = k := by
      rw [List.getD_eq_getElem _ _ (hac ▸ hi)]
      exact ha _ (List.getElem_mem _)
    exact (getD_tileMatmul b hac hi hj).trans (matmulAt_eq b hrow ..)
  · subst hb
    exact tileMatmul_padded a b c
end

section
/-! SUPPORT. The bytes of a save image (R391): numbers in a byte list, records of one length, sections one after another. -/
namespace Sys2Proof.Machine

/-! ## Numbers in a byte list -/

theorem leNat_leBytes (n v : Nat) : leNat (leBytes n v) = v % 256 ^ n := by
  induction n generalizing v with
  | zero => rw [pow_zero, Nat.mod_one]; rfl
  | succ n ih => rw [leBytes, leNat, ih, BitVec.toNat_ofNat, pow_succ' 256, Nat.mod_mul]
theorem toNat_mod_pow {w n : Nat} (x : BitVec w) (h : 2 ^ w ≤ 256 ^ n) : x.toNat % 256 ^ n = x.toNat := Nat.mod_eq_of_lt (x.isLt.trans_le h)
theorem numAt_append_left {xs : List Byte} (ys : List Byte) {i n : Nat} (h : i + n ≤ xs.length) : numAt (xs ++ ys) i n = numAt xs i n := by
  rw [numAt, numAt, List.drop_append_of_le_length (by omega), List.take_append_of_le_length (by rw [List.length_drop]; omega)]
theorem numAt_append_right {xs : List Byte} (ys : List Byte) (i n : Nat) : numAt (xs ++ ys) (xs.length + i) n = numAt ys i n := by
  rw [numAt, numAt, List.drop_append, List.drop_of_length_le (by omega), List.nil_append, Nat.add_sub_cancel_left]
/-- A field that comes first is passed over. -/
theorem numAt_leBytes_skip {k v i n : Nat} (ys : List Byte) (h : k ≤ i) : numAt (leBytes k v ++ ys) i n = numAt ys (i - k) n := by
  have hadd := numAt_append_right (xs := leBytes k v) ys (i - k) n
  rwa [length_leBytes, Nat.add_sub_cancel' h] at hadd
theorem leBytes_drop (k v i : Nat) : (leBytes k v).drop i = leBytes (k - i) (v / 256 ^ i) := by
  induction i generalizing k v with
  | zero => rw [List.drop_zero, pow_zero, Nat.div_one, Nat.sub_zero]
  | succ i ih =>
    cases k with
    | zero => rw [Nat.zero_sub]; rfl
    | succ k => rw [leBytes, List.drop_succ_cons, ih, Nat.div_div_eq_div_mul, pow_succ', Nat.add_sub_add_right]
theorem leBytes_take {n k : Nat} (v : Nat) (h : n ≤ k) : (leBytes k v).take n = leBytes n v := by
  induction n generalizing k v with
  | zero => rfl
  | succ n ih =>
    cases k with
    | zero => exact absurd h (Nat.not_succ_le_zero n)
    | succ k => rw [leBytes, List.take_succ_cons, ih _ (Nat.le_of_succ_le_succ h), leBytes]
/-- Bytes `i` to `i + n` of a field that comes first. -/
theorem numAt_leBytes_append {i n k : Nat} (v : Nat) (ys : List Byte) (h : i + n ≤ k) : numAt (leBytes k v ++ ys) i n = v / 256 ^ i % 256 ^ n := by
  rw [numAt_append_left ys (by rwa [length_leBytes]), numAt, leBytes_drop, leBytes_take _ (by omega), leNat_leBytes]
theorem numAt_leBytes (n v : Nat) : numAt (leBytes n v) 0 n = v % 256 ^ n := by
  rw [numAt, List.drop_zero, leBytes_take v le_rfl, leNat_leBytes]
theorem toNat_getD_eq_numAt (bs : List Byte) (i : Nat) : (bs.getD i 0).toNat = numAt bs i 1 := by
  rw [numAt, List.getD_eq_getElem?_getD, ← List.head?_drop]
  cases bs.drop i <;> simp [leNat]
/-- A number within a run of bytes. -/
theorem numAt_within (bs : List Byte) {at_ i n len : Nat} (h : i + n ≤ len) : numAt ((bs.drop at_).take len) i n = numAt bs (at_ + i) n := by
  rw [numAt, numAt, List.drop_take, List.drop_drop, List.take_take, Nat.min_eq_left (by omega)]

/-! ## Records of one length -/

theorem length_flatten_const {α : Type} {f : α → List Byte} {n : Nat} (h : ∀ x, (f x).length = n) (xs : List α) :
    (xs.map f).flatten.length = n * xs.length := by
  induction xs with
  | nil => rfl
  | cons x xs ih => rw [List.map_cons, List.flatten_cons, List.length_append, h, ih, List.length_cons, Nat.mul_succ, Nat.add_comm]
/-- Record `i` of records of `n` bytes each. -/
theorem record_flatten_const {α : Type} {f : α → List Byte} {n : Nat} (h : ∀ x, (f x).length = n) {xs : List α} {i : Nat} (hi : i < xs.length) :
    ((xs.map f).flatten.drop (n * i)).take n = f xs[i] := by
  induction xs generalizing i with
  | nil => exact absurd hi (Nat.not_lt_zero i)
  | cons x xs ih =>
    rw [List.map_cons, List.flatten_cons]
    cases i with
    | zero => rw [Nat.mul_zero, List.drop_zero, List.take_append_of_le_length (h x).ge, List.take_of_length_le (h x).le]; rfl
    | succ i =>
      rw [Nat.mul_succ, Nat.add_comm, ← h x, List.drop_append, List.drop_of_length_le (by omega), List.nil_append, Nat.add_sub_cancel_left, h x]
      exact ih (Nat.lt_of_succ_lt_succ hi)
theorem numAt_flatten_const {α : Type} {f : α → List Byte} {n : Nat} (h : ∀ x, (f x).length = n) {xs : List α} {i : Nat} (hi : i < xs.length) (o : Nat)
    {k : Nat} (hk : o + k ≤ n) : numAt (xs.map f).flatten (n * i + o) k = numAt (f xs[i]) o k := by
  rw [← record_flatten_const h hi, numAt_within _ hk]
@[simp] theorem length_upFrom (lo n : Nat) : (upFrom lo n).length = n := by rw [upFrom_eq_range', List.length_range']
theorem getElem_upFrom {lo n i : Nat} (h : i < (upFrom lo n).length) : (upFrom lo n)[i] = lo + i := by simp [upFrom_eq_range']
/-- Field `i` of numbered fields of `n` bytes each. -/
theorem numAt_fields (f : Nat → Nat) (ys : List Byte) {n c i : Nat} (h : i < c) :
    numAt (((upFrom 0 c).map (fun j => leBytes n (f j))).flatten ++ ys) (n * i) n = f i % 256 ^ n := by
  have hlen : ((upFrom 0 c).map (fun j => leBytes n (f j))).flatten.length = n * c := by
    rw [length_flatten_const (fun j => length_leBytes n (f j)), length_upFrom]
  have hfit : n * i + n ≤ n * c := (Nat.mul_succ n i).symm ▸ Nat.mul_le_mul_left n h
  have hi : i < (upFrom 0 c).length := (length_upFrom 0 c).symm ▸ h
  have hat := numAt_flatten_const (fun j => length_leBytes n (f j)) hi 0 (k := n) (by omega)
  rw [Nat.add_zero] at hat
  rw [numAt_append_left _ (hlen ▸ hfit), hat, getElem_upFrom, Nat.zero_add, numAt_leBytes]

@[simp] theorem length_padTo (n : Nat) (bs : List Byte) : (padTo n bs).length = n := by
  rw [padTo, List.length_append, List.length_take, List.length_replicate]; omega
theorem numAt_padTo {bs : List Byte} {m i n : Nat} (hm : i + n ≤ m) (hb : i + n ≤ bs.length) : numAt (padTo m bs) i n = numAt bs i n := by
  rw [padTo, numAt_append_left _ (by rw [List.length_take]; omega)]
  exact (numAt_within (at_ := 0) bs hm).trans (by rw [Nat.zero_add])
theorem take_padTo {bs : List Byte} {n : Nat} (h : bs.length ≤ n) : (padTo n bs).take bs.length = bs := by
  rw [padTo, List.take_of_length_le h, List.take_left']; rfl
theorem length_recordsOf {α : Type} (n : Nat) (f : α → List Byte) (xs : List α) : (recordsOf n f xs).length = n * xs.length :=
  length_flatten_const (fun _ => length_padTo n _) xs

/-! ## The place of a section -/

/-- Sections one after another, each filled up to a multiple of 256 bytes. -/
def sectionsBody (ss : List (List Byte)) : List Byte := (ss.map (fun s => padTo ((s.length + 255) / 256 * 256) s)).flatten
theorem sectionsBody_cons (s : List Byte) (ss : List (List Byte)) :
    sectionsBody (s :: ss) = padTo ((s.length + 255) / 256 * 256) s ++ sectionsBody ss := rfl
theorem length_sectionsBody_mod (ss : List (List Byte)) : (sectionsBody ss).length % 256 = 0 := by
  induction ss with
  | nil => rfl
  | cons s ss ih => rw [sectionsBody_cons, List.length_append, length_padTo]; omega
section
variable {ss : List (List Byte)} {k : Nat} (h : k < ss.length)
include h

/-- A section's bytes stand after those of the sections before it. -/
theorem section_sectionsBody : (sectionsBody (ss.take k)).length + ss[k].length ≤ (sectionsBody ss).length ∧
    ((sectionsBody ss).drop (sectionsBody (ss.take k)).length).take ss[k].length = ss[k] := by
  induction ss generalizing k with
  | nil => exact absurd h (Nat.not_lt_zero k)
  | cons s ss ih =>
    have hpad : s.length ≤ (s.length + 255) / 256 * 256 := by omega
    cases k with
    | zero =>
      rw [List.take_zero, sectionsBody_cons]
      refine ⟨by rw [List.length_append, length_padTo]; exact (Nat.zero_add _).trans_le (hpad.trans (Nat.le_add_right ..)), ?_⟩
      rw [List.getElem_cons_zero, show (sectionsBody []).length = 0 from rfl, List.drop_zero,
        List.take_append_of_le_length (by rw [length_padTo]; exact hpad), take_padTo hpad]
    | succ k =>
      obtain ⟨hfit, hsection⟩ := ih (Nat.lt_of_succ_lt_succ h)
      rw [List.take_succ_cons, sectionsBody_cons, sectionsBody_cons, List.getElem_cons_succ, List.length_append, List.length_append]
      refine ⟨by omega, ?_⟩
      rw [List.drop_append, List.drop_of_length_le (by omega), List.nil_append, Nat.add_sub_cancel_left, hsection]
theorem getElem?_placeSections (at_ : Nat) :
    (placeSections at_ ss)[k]? = some (if ss[k].isEmpty then 0 else at_ + (sectionsBody (ss.take k)).length, ss[k].length) := by
  induction ss generalizing k at_ with
  | nil => exact absurd h (Nat.not_lt_zero k)
  | cons s ss ih =>
    cases k with
    | zero => rfl
    | succ k =>
      rw [placeSections, List.getElem?_cons_succ, ih (Nat.lt_of_succ_lt_succ h), List.take_succ_cons, sectionsBody_cons, List.length_append, length_padTo,
        Nat.add_assoc]
      rfl
end
theorem length_placeSections (at_ : Nat) (ss : List (List Byte)) : (placeSections at_ ss).length = ss.length := by
  induction ss generalizing at_ with
  | nil => rfl
  | cons s ss ih => rw [placeSections, List.length_cons, ih, List.length_cons]

/-! ## The thread record -/

/-- A byte of flags, flag `n` in bit `n`. -/
theorem testBit_flags (f : Nat → Bool) {i : Nat} (h : i < 8) :
    ((((upFrom 0 8).map (fun n => bit (f n) * 2 ^ n)).foldl (· + ·) 0) % 256).testBit i = f i := by
  have hbits : ((upFrom 0 8).map (fun n => bit (f n) * 2 ^ n)).foldl (· + ·) 0 = Nat.ofBits (fun j : Fin 8 => f j) := by
    have hbit (b : Bool) : bit b = b.toNat := by cases b <;> rfl
    simp only [upFrom, List.map_cons, List.map_nil, List.foldl_cons, List.foldl_nil, Nat.ofBits_succ, Nat.ofBits_zero, hbit, Function.comp_apply,
      Nat.zero_add, Nat.reduceAdd]
    change _ = 2 * (2 * (2 * (2 * (2 * (2 * (2 * (2 * 0 + (f 7).toNat) + (f 6).toNat) + (f 5).toNat) + (f 4).toNat) + (f 3).toNat) + (f 2).toNat) +
      (f 1).toNat) + (f 0).toNat
    omega
  rw [hbits, show 256 = 2 ^ 8 from rfl, Nat.testBit_mod_two_pow, decide_eq_true h, Bool.true_and, Nat.testBit_ofBits_lt _ _ h]
theorem Thread.length_record (t : Thread) (logs : List Nat) : (t.record logs).length = 640 + 16 * t.rs.length := by
  have hrs : (t.rs.reverse.map (fun a => leBytes 16 a.toNat)).flatten.length = 16 * t.rs.length := by
    rw [length_flatten_const (fun a => length_leBytes 16 _), List.length_reverse]
  have hk : ((upFrom 0 32).map (fun n => leBytes 8 (t.getK n).toNat)).flatten.length = 256 := by
    rw [length_flatten_const (fun a => length_leBytes 8 _), length_upFrom]
  have ha : ((upFrom 0 16).map (fun n => leBytes 16 (t.getA n).toNat)).flatten.length = 256 := by
    rw [length_flatten_const (fun a => length_leBytes 16 _), length_upFrom]
  simp only [Thread.record, List.length_append, hrs, hk, ha, length_leBytes, List.map_cons, List.map_nil, List.flatten_cons, List.flatten_nil, List.length_nil]
section
variable (t : Thread) (logs : List Nat)

/-- The record's registers, its return stack apart. -/
def Thread.recordRegs : List Byte :=
  ((upFrom 0 32).map (fun n => leBytes 8 (t.getK n).toNat)).flatten ++ (((upFrom 0 16).map (fun n => leBytes 16 (t.getA n).toNat)).flatten ++
  (t.rs.reverse.map (fun a => leBytes 16 a.toNat)).flatten)
theorem Thread.record_eq : t.record logs =
    leBytes 16 t.pc.toNat ++ (leBytes 16 t.trappc.toNat ++ (leBytes 16 t.trapaddr.toNat ++ (leBytes 8 t.fstat.toNat ++ (leBytes 8 t.istat.toNat ++
    (leBytes 8 t.rnd.toNat ++ (leBytes 8 t.pblk.toNat ++ (leBytes 8 (t.cause.toNat + 65536 * t.info.toNat) ++
    (leBytes 8 (bit t.trapH + 2 * bit t.trapL) ++ (leBytes 8 t.rsspill ++ (leBytes 1 t.rs.length ++
    (leBytes 1 (((upFrom 0 8).map (fun n => bit (t.getP n) * 2 ^ n)).foldl (· + ·) 0) ++ (leBytes 1 t.lane ++ (leBytes 1 t.warp ++
    (leBytes 4 (t.imageState logs).1 ++ (leBytes 8 (t.imageState logs).2 ++ (leBytes 8 t.resblk ++ t.recordRegs)))))))))))))))) := by
  simp only [Thread.record, Thread.recordRegs, List.append_assoc, List.map_cons, List.map_nil, List.flatten_cons, List.flatten_nil, List.nil_append]
theorem Thread.numAt_record_special : numAt (t.record logs) 0 16 = t.pc.toNat ∧ numAt (t.record logs) 16 16 = t.trappc.toNat ∧
    numAt (t.record logs) 32 16 = t.trapaddr.toNat ∧ numAt (t.record logs) 48 8 = t.fstat.toNat ∧ numAt (t.record logs) 56 8 = t.istat.toNat ∧
    numAt (t.record logs) 64 8 = t.rnd.toNat ∧ numAt (t.record logs) 72 8 = t.pblk.toNat ∧ numAt (t.record logs) 96 8 = t.rsspill % 2 ^ 64 ∧
    numAt (t.record logs) 104 1 = t.rs.length % 256 := by
  rw [Thread.record_eq]
  simp (disch := decide) only [numAt_leBytes_skip, Nat.reduceSub, numAt_leBytes_append, pow_zero, Nat.div_one, toNat_mod_pow]
  exact ⟨trivial, trivial, trivial, trivial, trivial, trivial, trivial, rfl, rfl⟩
theorem Thread.testBit_record {n : Nat} (h : n < 8) : (numAt (t.record logs) 105 1).testBit n = t.getP n := by
  rw [Thread.record_eq]
  simp (disch := decide) only [numAt_leBytes_skip, Nat.reduceSub, numAt_leBytes_append, pow_zero, Nat.div_one]
  exact testBit_flags t.getP h
theorem Thread.numAt_record_place : numAt (t.record logs) 106 1 = t.lane % 256 ∧ numAt (t.record logs) 107 1 = t.warp % 256 := by
  rw [Thread.record_eq]
  simp (disch := decide) only [numAt_leBytes_skip, Nat.reduceSub, numAt_leBytes_append, pow_zero, Nat.div_one, Nat.reducePow, and_self]
theorem Thread.numAt_record_state : numAt (t.record logs) 108 1 = (t.imageState logs).1 % 256 ∧ numAt (t.record logs) 112 8 = (t.imageState logs).2 % 2 ^ 64 ∧
    numAt (t.record logs) 112 4 = (t.imageState logs).2 % 2 ^ 32 ∧ numAt (t.record logs) 116 4 = (t.imageState logs).2 / 2 ^ 32 % 2 ^ 32 := by
  rw [Thread.record_eq]
  simp (disch := decide) only [numAt_leBytes_skip, Nat.reduceSub, numAt_leBytes_append, pow_zero, Nat.div_one, Nat.reducePow, and_self]
theorem Thread.numAt_record_regs (n k : Nat) : numAt (t.record logs) (128 + n) k = numAt t.recordRegs n k := by
  rw [Thread.record_eq]
  have hskip (k v i n m : Nat) (ys : List Byte) : numAt (leBytes k v ++ ys) (k + m + i) n = numAt ys (m + i) n := by
    rw [numAt_leBytes_skip _ (by omega), show k + m + i - k = m + i by omega]
  rw [hskip 16 _ n k 112, hskip 16 _ n k 96, hskip 16 _ n k 80, hskip 8 _ n k 72, hskip 8 _ n k 64, hskip 8 _ n k 56, hskip 8 _ n k 48, hskip 8 _ n k 40,
    hskip 8 _ n k 32, hskip 8 _ n k 24, hskip 1 _ n k 23, hskip 1 _ n k 22, hskip 1 _ n k 21, hskip 1 _ n k 20, hskip 4 _ n k 16, hskip 8 _ n k 8,
    hskip 8 _ n k 0, Nat.zero_add]
theorem Thread.numAt_record_k {n : Nat} (h : n < 32) : numAt (t.record logs) (128 + 8 * n) 8 = (t.getK n).toNat := by
  rw [Thread.numAt_record_regs, Thread.recordRegs, numAt_fields (fun n => (t.getK n).toNat) _ h]
  exact toNat_mod_pow _ (by decide)
theorem Thread.numAt_record_a {n : Nat} (h : n < 16) : numAt (t.record logs) (384 + 16 * n) 16 = (t.getA n).toNat := by
  have hk : ((upFrom 0 32).map (fun n => leBytes 8 (t.getK n).toNat)).flatten.length = 256 := by
    rw [length_flatten_const (fun a => length_leBytes 8 _), length_upFrom]
  rw [show 384 + 16 * n = 128 + (256 + 16 * n) by omega, Thread.numAt_record_regs, Thread.recordRegs, ← hk, numAt_append_right,
    numAt_fields (fun n => (t.getA n).toNat) _ h]
  exact toNat_mod_pow _ (by decide)
theorem Thread.numAt_record_rs {n : Nat} (h : n < t.rs.length) : numAt (t.record logs) (640 + 16 * n) 16 = (t.rs.reverse.getD n 0).toNat := by
  have hk : ((upFrom 0 32).map (fun n => leBytes 8 (t.getK n).toNat)).flatten.length = 256 := by
    rw [length_flatten_const (fun a => length_leBytes 8 _), length_upFrom]
  have ha : ((upFrom 0 16).map (fun n => leBytes 16 (t.getA n).toNat)).flatten.length = 256 := by
    rw [length_flatten_const (fun a => length_leBytes 16 _), length_upFrom]
  have hn : n < t.rs.reverse.length := by rwa [List.length_reverse]
  have hat := numAt_flatten_const (fun a : Addr => length_leBytes 16 a.toNat) hn 0 (k := 16) le_rfl
  rw [show 640 + 16 * n = 128 + (256 + (256 + (16 * n + 0))) by omega, Thread.numAt_record_regs, Thread.recordRegs]
  nth_rw 1 [← hk]
  rw [numAt_append_right]
  nth_rw 1 [← ha]
  rw [numAt_append_right, hat, numAt_leBytes, List.getD_eq_getElem _ _ hn]
  exact toNat_mod_pow _ (by decide)
/-- The record as it lies in the image's first section. -/
def Thread.savedRecord : List Byte := padTo 1024 (t.record logs)
theorem Thread.numAt_savedRecord {i n : Nat} (h : i + n ≤ 640) : numAt (t.savedRecord logs) i n = numAt (t.record logs) i n :=
  numAt_padTo (by omega) (by rw [Thread.length_record]; omega)
theorem Thread.numAt_savedRecord_rs {n : Nat} (h : n < t.rs.length) (h16 : n < 16) :
    numAt (t.savedRecord logs) (640 + 16 * n) 16 = (t.rs.reverse.getD n 0).toNat :=
  (numAt_padTo (by omega) (by rw [Thread.length_record]; omega)).trans (t.numAt_record_rs logs h)
/-- The state fields of a saved thread (R391). -/
theorem Thread.numAt_savedRecord_state : numAt (t.savedRecord logs) 108 1 = (t.imageState logs).1 % 256 ∧
    numAt (t.savedRecord logs) 112 8 = (t.imageState logs).2 % 2 ^ 64 ∧ numAt (t.savedRecord logs) 112 4 = (t.imageState logs).2 % 2 ^ 32 ∧
    numAt (t.savedRecord logs) 116 4 = (t.imageState logs).2 / 2 ^ 32 % 2 ^ 32 := by
  simp (disch := decide) only [Thread.numAt_savedRecord]
  exact t.numAt_record_state logs
theorem Thread.savedRecord_state {x y : Nat} (h : t.imageState logs = (x, y)) (hx : x < 256) :
    numAt (t.savedRecord logs) 108 1 = x ∧ numAt (t.savedRecord logs) 112 8 = y % 2 ^ 64 := by
  obtain ⟨hstate, hwait, -, -⟩ := t.numAt_savedRecord_state logs
  rw [h] at hstate hwait
  exact ⟨hstate.trans (Nat.mod_eq_of_lt hx), hwait⟩
theorem Thread.savedRecord_gathered {key g : Nat} (h : t.status = .gathered key g) (hk : key < 2 ^ 32) (hg : g < 64) :
    numAt (t.savedRecord logs) 108 1 = 4 ∧ numAt (t.savedRecord logs) 112 4 = key ∧ numAt (t.savedRecord logs) 116 4 = g := by
  have hst : t.imageState logs = (4, key + g * 2 ^ 32) := by rw [Thread.imageState, h]
  obtain ⟨hstate, -, hlow, hhigh⟩ := t.numAt_savedRecord_state logs
  rw [hst] at hstate hlow hhigh
  refine ⟨hstate, hlow.trans ?_, hhigh.trans ?_⟩ <;> dsimp only <;> omega
theorem Thread.imageState_waiting {p : Wait} (h : t.status = .waiting p) (hp : ∀ id, p ≠ .fault id) : t.imageState logs = (6, 0) := by
  rw [Thread.imageState, h]
  cases p with
  | fault id => exact absurd rfl (hp id)
  | _ => rfl
end

/-! ## Header and sections -/

/-- The first 64 bytes of an image's header, and its section table. -/
def Image.headFields (i : Image) : List Byte :=
  leBytes 2 0x5349 ++ (leBytes 1 1 ++ (leBytes 1 (bit i.fetchFault.isSome + 2 * bit i.wg.hdr.rollback + 4 * bit i.wg.hdr.cspan) ++
  (leBytes 4 (256 + (sectionsBody i.sections).length) ++ (leBytes 8 i.time ++ (leBytes 16 i.wg.hdr.addr ++ (leBytes 8 i.wg.base ++
  (leBytes 2 i.wg.threads.length ++ (leBytes 1 i.wg.hdr.warpCount ++ (leBytes 1 i.core ++
  (leBytes 2 ((i.wg.pins.map (fun n => 2 ^ n)).foldl (· ||| ·) 0) ++ (leBytes 2 i.core ++ (leBytes 8 i.wg.rollbackWord ++ leBytes 8 0))))))))))))
def Image.table (i : Image) : List Byte := ((placeSections 256 i.sections).map (fun s => leBytes 4 s.1 ++ leBytes 4 s.2)).flatten
theorem Image.bytes_eq (i : Image) : i.bytes = padTo 256 (i.headFields ++ i.table) ++ sectionsBody i.sections := by
  simp only [Image.bytes, Image.headFields, Image.table, sectionsBody, List.append_assoc]
section
variable (i : Image)

theorem Image.length_sections : i.sections.length = 15 := rfl
theorem Image.length_headFields : i.headFields.length = 64 := by simp only [Image.headFields, List.length_append, length_leBytes]
theorem length_tableEntry (s : Nat × Nat) : (leBytes 4 s.1 ++ leBytes 4 s.2).length = 8 := by rw [List.length_append, length_leBytes, length_leBytes]
theorem Image.length_table : i.table.length = 120 := by
  rw [Image.table, length_flatten_const length_tableEntry, length_placeSections, Image.length_sections]
theorem Image.length_bytes : i.bytes.length = 256 + (sectionsBody i.sections).length := by rw [Image.bytes_eq, List.length_append, length_padTo]
theorem Image.numAt_header {k n : Nat} (h : k + n ≤ 184) : numAt i.bytes k n = numAt (i.headFields ++ i.table) k n := by
  rw [Image.bytes_eq, numAt_append_left _ (by rw [length_padTo]; omega), numAt_padTo (by omega)]
  rw [List.length_append, Image.length_headFields, Image.length_table]
  omega
theorem Image.numAt_headFields {k n : Nat} (h : k + n ≤ 64) : numAt i.bytes k n = numAt i.headFields k n := by
  rw [Image.numAt_header _ (by omega), numAt_append_left _ (by rwa [Image.length_headFields])]
theorem Image.header : (i.bytes.getD 3 0).toNat = bit i.fetchFault.isSome + 2 * bit i.wg.hdr.rollback + 4 * bit i.wg.hdr.cspan ∧
    numAt i.bytes 8 8 = i.time % 2 ^ 64 ∧ numAt i.bytes 16 16 = i.wg.hdr.addr % 2 ^ 128 ∧ numAt i.bytes 32 8 = i.wg.base % 2 ^ 64 ∧
    numAt i.bytes 40 2 = i.wg.threads.length % 2 ^ 16 ∧ numAt i.bytes 43 1 = i.core % 256 ∧ numAt i.bytes 46 2 = i.core % 2 ^ 16 ∧
    numAt i.bytes 56 8 = 0 ∧ numAt i.bytes 4 4 = i.bytes.length % 2 ^ 32 := by
  have hflags : (bit i.fetchFault.isSome + 2 * bit i.wg.hdr.rollback + 4 * bit i.wg.hdr.cspan) % 256 ^ 1 =
      bit i.fetchFault.isSome + 2 * bit i.wg.hdr.rollback + 4 * bit i.wg.hdr.cspan := by
    have hbit (b : Bool) : bit b ≤ 1 := by cases b <;> decide
    have := hbit i.fetchFault.isSome
    have := hbit i.wg.hdr.rollback
    have := hbit i.wg.hdr.cspan
    omega
  have hzero : numAt (leBytes 8 0) 0 8 = 0 := numAt_leBytes 8 0
  simp (disch := decide) only [toNat_getD_eq_numAt, Image.numAt_headFields, Image.length_bytes]
  simp (disch := decide) only [Image.headFields, numAt_leBytes_skip, Nat.reduceSub, numAt_leBytes_append, pow_zero, Nat.div_one, hflags, hzero]
  exact ⟨trivial, rfl, rfl, rfl, rfl, rfl, rfl, trivial, rfl⟩
theorem Image.take_bytes : i.bytes.take 3 = [0x49, 0x53, 1] := by
  rw [Image.bytes_eq, List.take_append_of_le_length (by rw [length_padTo]; decide), padTo,
    List.take_append_of_le_length (by rw [List.length_take, List.length_append, Image.length_headFields]; omega), List.take_take]
  rfl
/-- Entry `k` of the section table. -/
theorem Image.numAt_table {k : Nat} (hk : k < 15) {e : Nat × Nat} (he : (placeSections 256 i.sections)[k]? = some e) :
    numAt i.bytes (64 + 8 * k) 4 = e.1 % 2 ^ 32 ∧ numAt i.bytes (68 + 8 * k) 4 = e.2 % 2 ^ 32 := by
  obtain ⟨hp, hentry⟩ := List.getElem?_eq_some_iff.1 he
  have hfield (o : Nat) (ho : o + 4 ≤ 8) : numAt i.bytes (64 + (8 * k + o)) 4 = numAt (leBytes 4 e.1 ++ leBytes 4 e.2) o 4 := by
    rw [Image.numAt_header _ (by omega), ← i.length_headFields, numAt_append_right, Image.table, ← hentry]
    exact numAt_flatten_const length_tableEntry hp o ho
  refine ⟨(hfield 0 (by decide)).trans ?_, ?_⟩
  · rw [numAt_leBytes_append _ _ (by decide), pow_zero, Nat.div_one]
    rfl
  · rw [show 68 + 8 * k = 64 + (8 * k + 4) by omega, hfield 4 (by decide), numAt_leBytes_skip _ (by decide), Nat.sub_self, numAt_leBytes]
    rfl
/-- A section stands where the table says, in as many bytes as it says (R391). -/
theorem Image.placed (h : i.bytes.length < 2 ^ 32) {k : Nat} (hk : k < 15) :
    numAt i.bytes (64 + 8 * k) 4 % 256 = 0 ∧ numAt i.bytes (68 + 8 * k) 4 = (i.sections.getD k []).length ∧
      (numAt i.bytes (68 + 8 * k) 4 = 0 → numAt i.bytes (64 + 8 * k) 4 = 0) ∧
      (0 < numAt i.bytes (68 + 8 * k) 4 → 256 ≤ numAt i.bytes (64 + 8 * k) 4 ∧
        (i.bytes.drop (numAt i.bytes (64 + 8 * k) 4)).take (numAt i.bytes (68 + 8 * k) 4) = i.sections.getD k []) := by
  have hs : k < i.sections.length := hk
  obtain ⟨hat, hlen⟩ := i.numAt_table hk (getElem?_placeSections hs 256)
  obtain ⟨hfit, hsection⟩ := section_sectionsBody hs
  have hmod := length_sectionsBody_mod (i.sections.take k)
  have htotal := i.length_bytes
  rw [Nat.mod_eq_of_lt (show i.sections[k].length < 2 ^ 32 by omega)] at hlen
  rw [hat, hlen, List.getD_eq_getElem _ _ hs]
  by_cases hempty : i.sections[k] = []
  · simp [hempty]
  · have hsome : i.sections[k].isEmpty = false := by simpa using hempty
    have hpos := List.length_pos_of_ne_nil hempty
    rw [hsome, if_neg Bool.false_ne_true, Nat.mod_eq_of_lt (show 256 + (sectionsBody (i.sections.take k)).length < 2 ^ 32 by omega)]
    refine ⟨by omega, rfl, fun h0 => absurd h0 (by omega), fun _ => ⟨by omega, ?_⟩⟩
    rw [Image.bytes_eq, List.drop_append, length_padTo, List.drop_of_length_le (by rw [length_padTo]; omega), List.nil_append,
      Nat.add_sub_cancel_left, hsection]
theorem Image.length_threadSection : (i.sections.getD 0 []).length = 1024 * i.wg.threads.length := length_recordsOf ..
theorem Image.length_scratchSection : (i.sections.getD 2 []).length = 32768 * i.wg.hdr.scratch := by
  change ((upFrom 0 (i.wg.hdr.scratch * 32768)).map (fun o => sget 0 i.scratch o)).length = _
  rw [List.length_map, length_upFrom, Nat.mul_comm]
theorem Image.length_accSection : (i.sections.getD 6 []).length = 8192 * i.wg.hdr.accs := by
  change ((upFrom 0 (i.wg.hdr.accs * 2048)).map (fun k => leBytes 4 (sget 0 i.wg.acc k).toNat)).flatten.length = _
  rw [length_flatten_const (fun k => length_leBytes 4 _), length_upFrom]
  omega
theorem Image.length_epiSection : (i.sections.getD 8 []).length = 2056 := by
  change (leBytes 8 _ ++ ((upFrom 0 8).map (fun ps => padTo 256 _)).flatten).length = _
  rw [List.length_append, length_flatten_const (fun ps => length_padTo 256 _), length_leBytes, length_upFrom]
theorem Image.getD_scratchSection {o : Nat} (h : o < 32768 * i.wg.hdr.scratch) : (i.sections.getD 2 []).getD o 0 = sget 0 i.scratch o := by
  change ((upFrom 0 (i.wg.hdr.scratch * 32768)).map (fun o => sget 0 i.scratch o)).getD o 0 = _
  rw [List.getD_eq_getElem _ _ (by rw [List.length_map, length_upFrom]; omega), List.getElem_map, getElem_upFrom, Nat.zero_add]
theorem Image.numAt_accSection {k : Nat} (h : k < 2048 * i.wg.hdr.accs) : numAt (i.sections.getD 6 []) (4 * k) 4 = (sget 0 i.wg.acc k).toNat := by
  change numAt ((upFrom 0 (i.wg.hdr.accs * 2048)).map (fun k => leBytes 4 (sget 0 i.wg.acc k).toNat)).flatten (4 * k) 4 = _
  have hfield := numAt_fields (fun k => (sget 0 i.wg.acc k).toNat) [] (n := 4) (show k < i.wg.hdr.accs * 2048 by omega)
  rw [List.append_nil] at hfield
  exact hfield.trans (toNat_mod_pow _ (by decide))
/-- The log entries of the image, in their order. -/
def Image.logs : List Nat := (i.faults.filter (·.log.isSome)).map (·.id)
theorem Image.threadRecord {j : Nat} (h : j < i.wg.threads.length) :
    ((i.sections.getD 0 []).drop (1024 * j)).take 1024 = (i.wg.thread j).savedRecord i.logs := by
  rw [Wg.thread_getElem _ _ h]
  exact record_flatten_const (fun t : Thread => length_padTo 1024 (t.record i.logs)) h
end

end Sys2Proof.Machine
end

section
open Sys2Proof Sys2Proof.Machine Sys2Proof.Claims

theorem imageLayout : ImageLayout := by
  intro i
  obtain ⟨hflags, htime, haddr, hbase, hthreads, hcore, hcore2, hzero, hlength⟩ := i.header
  have hmod := length_sectionsBody_mod i.sections
  refine ⟨by rw [i.length_bytes]; omega, i.take_bytes, i.length_sections, hflags, htime, haddr, hbase, hthreads, hcore, hcore2, hzero,
    fun h => ⟨hlength.trans (Nat.mod_eq_of_lt h), fun k hk => i.placed h hk⟩, i.length_threadSection, i.length_scratchSection, i.length_accSection,
    i.length_epiSection, fun o ho => i.getD_scratchSection ho, fun k hk => i.numAt_accSection hk, fun j hj => ?_⟩
  intro t r
  obtain ⟨hpc, htrappc, htrapaddr, hfstat, histat, hrnd, hpblk, hspill, hrs⟩ := t.numAt_record_special i.logs
  obtain ⟨hlane, hwarp⟩ := t.numAt_record_place i.logs
  have hr : r = t.savedRecord i.logs := i.threadRecord hj
  have hfield {k n : Nat} (h : k + n ≤ 640) : numAt r k n = numAt (t.record i.logs) k n := hr ▸ t.numAt_savedRecord i.logs h
  have hstate {x y : Nat} (h : t.imageState i.logs = (x, y)) (hx : x < 256) : numAt r 108 1 = x ∧ numAt r 112 8 = y % 2 ^ 64 :=
    hr ▸ t.savedRecord_state i.logs h hx
  refine ⟨(hfield (by decide)).trans hpc, (hfield (by decide)).trans htrappc, (hfield (by decide)).trans htrapaddr, (hfield (by decide)).trans hfstat,
    (hfield (by decide)).trans histat, (hfield (by decide)).trans hrnd, (hfield (by decide)).trans hpblk, (hfield (by decide)).trans hspill,
    (hfield (by decide)).trans hrs, fun n hn => ?_, (hfield (by decide)).trans hlane, (hfield (by decide)).trans hwarp,
    fun n hn => (hfield (by omega)).trans (t.numAt_record_k i.logs hn), fun n hn => (hfield (by omega)).trans (t.numAt_record_a i.logs hn),
    fun n hn h16 => hr ▸ t.numAt_savedRecord_rs i.logs hn h16, fun h => ?_, fun h => ?_, fun d h => ?_,
    fun key g h hk hg => hr ▸ t.savedRecord_gathered i.logs h hk hg, fun mask h hmask => ?_,
    fun p h hp => hstate (t.imageState_waiting i.logs h hp) (by decide)⟩
  · rw [hfield (by decide), t.testBit_record i.logs hn]
  · exact hstate (by rw [Thread.imageState, h]) (by decide)
  · exact hstate (by rw [Thread.imageState, h]) (by decide)
  · exact hstate (by rw [Thread.imageState, h]) (by decide)
  · obtain ⟨hat, hwait⟩ := hstate (x := 5) (y := mask) (by rw [Thread.imageState, h]) (by decide)
    exact ⟨hat, hwait.trans (Nat.mod_eq_of_lt (hmask.trans (by decide)))⟩

/-- Settles O60: the physical map, the save image and a translated module's operations, each by the lemmas on its own definitions. What lies in
the sections that the spec does not lay out is the model's choice (log 16), and so is what the translator reads of a module (log 11). -/
theorem layouts : Obligations.Layouts := ⟨physicalMap, imageLayout, tileOperations⟩
end

section
/-! SUPPORT. A tile that lies past the twelve bits of the base field (R204). -/
namespace Sys2Proof.Claims
open Sys2Proof.Machine

/-- A workgroup of one thread whose tile is ready, of 128 bytes at 128-byte unit 4096. -/
def farTiled : Wg :=
  { hdr := { tiles := 1 }, launch := 5, threads := [{ pc := 0x10000 }], tiles := [{ state := .ready, size := 1, base := 4096 }], warps := [{}] }
/-- Its thread is about to issue `tstate`. -/
def readsFarTile : State :=
  { m := { ig := some { core := 0, slot := 0, threads := [0], pc := 0x10000, w := 0, ext := none }, wgs := [(0, farTiled)] } }
def farCtx : Ctx := { m := readsFarTile.m, ig := { core := 0, slot := 0, threads := [0], pc := 0x10000, w := 0, ext := none }, wg := farTiled, act := [0] }
/-- Register k1 of thread 0 of the workgroup in slot 0 of core 0. -/
def k1After : Host.Outcome State Fault Refusal → Option Nat
  | .next t => (t.m.wg? 0 0).map (fun w => ((w.thread 0).getK 1).toNat)
  | _ => none

theorem readsFarTile_issues : Issues readsFarTile farCtx := by rfl
theorem farTile_ready : TileReady farCtx 0 { state := .ready, size := 1, base := 4096 } := by
  refine ⟨by decide, by decide, rfl, rfl, rfl, fun id h => ?_⟩
  cases h
/-- The model's word holds the base whole. -/
theorem readsFarTile_reads : k1After (exec (.tstate 1 0) readsFarTile) = some (2 + 1048576 * 4096) := by decide +kernel

end Sys2Proof.Claims
end

section
/-! # Tiles (R204, R205) -/
open Sys2Proof Sys2Proof.Machine Sys2Proof.Claims

/-- The clause of `tstate` takes a tile's base and its size less one modulo 4096; the model packs both whole into k1. They differ at the base 4096,
which no tile that lies in a scratchpad (at most 512 KiB, R198) has. -/
theorem not_tileControl : ¬TileControl := by
  intro h
  obtain ⟨-, hready, -⟩ := h 0 1 0 0 0 readsFarTile farCtx readsFarTile_issues
  obtain ⟨-, hstate, -⟩ := hready _ farTile_ready
  have hword : some (2 + 1048576 * 4096) = some 2 := readsFarTile_reads.symm.trans (congrArg k1After hstate)
  exact absurd hword (by decide)
/-- Refutes O26: its conjunct TileControl gives `tstate` of a ready tile at 128-byte unit 4096 the base 0, and the model's word holds 4096. -/
theorem not_tiles : ¬Obligations.Tiles := fun h => not_tileControl h.1
end

section
/-! SUPPORT. Ranges of one strongly ordered page as tiles and engines move them (R206, R214, R261, R317), on a core that holds no line: what
translating, reading and storing them leave of the machine. -/
namespace Sys2Proof.Machine

/-! ## Bytes of a scratchpad -/

@[simp] theorem Core.length_scratchN (c : Core) (at_ n : Nat) : (c.scratchN at_ n).length = n := by
  induction n generalizing at_ with
  | zero => rfl
  | succ n ih => rw [Core.scratchN, List.length_cons, ih]
theorem Mach.length_scratchRead {m : Mach} {core slot : Nat} {w : Wg} (hw : m.wg? core slot = some w) (off n : Nat) :
    (m.scratchRead core slot off n).length = n := by simp [Mach.scratchRead, hw]
/-- A core whose scratchpad took bytes, which take the poison off the words they cover (R378). -/
def Core.putScratch (c : Core) (at_ : Nat) (bs : List Byte) : Core :=
  { c with scratch := scratchPut c.scratch at_ bs, poison := c.poison.filter (fun p => !(at_ ≤ p * 4 && p * 4 + 4 ≤ at_ + bs.length)) }
theorem Mach.scratchWrite_eq {m : Mach} {core slot : Nat} {w : Wg} (hw : m.wg? core slot = some w) (off : Nat) (bs : List Byte) :
    m.scratchWrite core slot off bs = m.setCore core ((m.core core).putScratch (w.scratchAt off) bs) := by
  rw [Mach.scratchWrite, hw]; rfl
theorem Mach.setTile_eq {m : Mach} {core slot : Nat} {w : Wg} (hw : m.wg? core slot = some w) (t : Nat) (x : Tile) :
    m.setTile core slot t x = m.setWg core slot (w.setTile t x) := Mach.modWg_eq m _ hw

/-! ## A page, and a workgroup that buffers nothing -/

/-- `n` bytes at `va` lie on one page, which the core's translations give as this device's, strongly ordered, at `pa`; none of their lines is
poisoned. -/
structure Mach.PageAt (m : Mach) (core : Nat) (k : Access) (va n pa : Nat) : Prop where
  fits : va % 65536 + n ≤ 65536
  trans : ∀ vf, m.coreTranslate core vf va k = (.ok pa 0, m)
  listed : ∃ x, tget m.cores core = some x
  clean : ∀ l ∈ linesOf pa n, l ∉ m.poison
theorem Mach.PageAt.of_tlb {m : Mach} {core va n pa : Nat} {k : Access} (hfit : va % 65536 + n ≤ 65536)
    (ht : ∃ p, tget (m.core core).tlb (va / 65536) = some p ∧ transPte p va k = .ok pa 0) (hc : ∀ l ∈ linesOf pa n, l ∉ m.poison) :
    m.PageAt core k va n pa := by
  obtain ⟨p, hp, htr⟩ := ht
  exact ⟨hfit, fun vf => Mach.coreTranslate_cached hp htr, Mach.listed_of_tlb hp, hc⟩
/-- The workgroup in the slot buffers no store, and its core holds no line. -/
structure Mach.Unbuffered (m : Mach) (core slot : Nat) (w : Wg) : Prop where
  wg : m.wg? core slot = some w
  rollback : w.hdr.rollback = false
  sbuf : w.sbuf = []
  l1 : (m.core core).l1 = []
/-- No monitor is armed (R293). -/
def Mach.Unarmed (m : Mach) : Prop := ∀ e ∈ m.wgs, ∀ t ∈ e.2.threads, t.mon = none

theorem Mach.PageAt.bulkTrans {m : Mach} {core va n pa : Nat} {k : Access} (h : m.PageAt core k va n pa) (h0 : 0 < n) (vf : Nat) :
    m.bulkTrans core vf k (spansOf va n) = ([fwPart va n pa 0], m) := by
  simp only [spansOf_one h0 h.fits, Mach.bulkTrans, h.trans, fwPart]
theorem Mach.PageAt.verPart {m : Mach} {core va n pa : Nat} (hr : m.PageAt core .read va n pa) (hw : m.PageAt core .write va n pa) (vf : Nat) :
    m.verPart core vf va = (fwPart va 8 pa 0, m) := by
  simp only [Mach.verPart, Mach.transAll, hr.trans, hw.trans, fwPart, worse]
theorem bulkRes_fwPart (m : Mach) (va n pa : Nat) : bulkRes m [fwPart va n pa 0] = .ok := rfl
theorem Mach.poisoned_page {m : Mach} {core va n pa : Nat} {k : Access} (h : m.PageAt core k va n pa) {p : Part} (hp : p.tr = .ok pa 0) (hn : p.n = n)
    (clk : Clock) (a : Attr) : m.poisoned clk core a p = none := Mach.poisoned_direct hp (hn ▸ h.clean) clk core a
theorem Mach.findSome?_poisoned {m : Mach} {core va n pa : Nat} {k : Access} (h : m.PageAt core k va n pa) {p : Part} (hp : p.tr = .ok pa 0)
    (hn : p.n = n) (clk : Clock) (a : Attr) : [p].findSome? (m.poisoned clk core a) = none := by
  rw [List.findSome?_cons, Mach.poisoned_page h hp hn]; rfl

section
variable {m : Mach} {core slot : Nat} {w : Wg} (h : m.Unbuffered core slot w)
include h

/-! ## Nothing to release or to drop -/

theorem Mach.Unbuffered.release (clk : Clock) (scope : Nat) (uo : Bool) : m.release clk core slot scope uo = m := by
  have hb : w.sbuf.any (fun b => uo || !b.uo) = false := by rw [h.sbuf]; rfl
  simp [Mach.release, h.wg, hb, Mach.writeBackAll_of_empty h.l1]
theorem Mach.Unbuffered.before (clk : Clock) (a : Attr) (isStore : Bool) : a.before isStore m clk core slot = m := by
  unfold Attr.before
  cases a.order with
  | plain => rfl
  | acqRel => cases isStore <;> [rfl; exact h.release ..]
  | strong => exact h.release ..
theorem Mach.Unbuffered.after (a : Attr) (isLoad : Bool) : a.after isLoad m core = m := by
  unfold Attr.after
  cases a.order with
  | plain => rfl
  | acqRel => cases isLoad <;> [rfl; exact Mach.acquire_of_empty h.l1 _]
  | strong => exact Mach.acquire_of_empty h.l1 _
/-- It stays so whatever memory, the counters of line accesses and the poisoned lines are. -/
theorem Mach.Unbuffered.of_mem (mem : List Host.Cell) (x : Sparse Nat) (y : List Nat) :
    ({ m with mem := mem, access := x, poison := y } : Mach).Unbuffered core slot w := ⟨h.wg, h.rollback, h.sbuf, h.l1⟩

/-! ## Reading and storing -/

theorem Mach.Unbuffered.direct {p : Part} {pa : Nat} (hp : p.tr = .ok pa 0) : p.DirectAt (m.core core) pa := ⟨hp, fun l _ => by rw [h.l1]; rfl⟩
section
variable (hc : ∃ x, tget m.cores core = some x) {p : Part} {pa : Nat} (hp : p.tr = .ok pa 0)
include hc hp

theorem Mach.Unbuffered.readNow (clk : Clock) (a : Attr) :
    ∃ x, m.readNow clk core slot a [p] = (Memory.readN m.mem pa p.n, { m with access := x }) := by
  obtain ⟨x, hx⟩ := Mach.loadPart_direct (clk := clk) (a := a) hc h.wg h.sbuf (h.direct hp)
  refine ⟨x, ?_⟩
  simp only [Mach.readNow, List.foldl_cons, List.foldl_nil, hx, List.nil_append]
variable (hm : m.Unarmed)
include hm

theorem Mach.Unbuffered.storePart (clk : Clock) (a : Attr) (bs : List Byte) :
    ∃ x y, m.storePart clk core slot a p bs = { m with mem := Memory.writeL m.mem pa bs, access := x, poison := y } :=
  Mach.storePart_direct hc h.wg h.rollback hm (h.direct hp) bs
theorem Mach.Unbuffered.storeNow (clk : Clock) (a : Attr) {bs : List Byte} (hn : bs.length = p.n) :
    ∃ x y, m.storeNow clk core slot a [p] bs = { m with mem := Memory.writeL m.mem pa bs, access := x, poison := y } := by
  obtain ⟨x, y, hxy⟩ := h.storePart hc hp hm clk a bs
  refine ⟨x, y, ?_⟩
  rw [Mach.storeNow, List.foldl_cons, List.foldl_nil, List.take_of_length_le hn.le, hxy]
theorem Mach.Unbuffered.tilePut (clk : Clock) {x : Tile} (o : Ord) (scope : Nat) (hn : p.n = x.bytes) :
    ∃ a y, m.tilePut clk core slot x o scope [p] =
      { m with mem := Memory.writeL m.mem pa (m.scratchRead core slot x.off x.bytes), access := a, poison := y } := by
  obtain ⟨a, y, hay⟩ := h.storeNow hc hp hm clk (tileAttr o scope) ((Mach.length_scratchRead h.wg x.off x.bytes).trans hn.symm)
  refine ⟨a, y, ?_⟩
  simp only [Mach.tilePut, h.before, hay, (h.of_mem _ a y).after]
end

/-! ## Version words (R231) -/

section
variable (hc : ∃ x, tget m.cores core = some x) (va pa : Nat)
include hc

theorem Mach.Unbuffered.verLoad (clk : Clock) :
    ∃ x, m.verLoad clk core slot (fwPart va 8 pa 0) = (leNat (Memory.readN m.mem pa 8), { m with access := x }) := by
  obtain ⟨x, hx⟩ := h.readNow (p := fwPart va 8 pa 0) hc rfl clk ⟨.strong, 5⟩
  refine ⟨x, ?_⟩
  simp only [Mach.verLoad, hx]
  rw [Mach.acquire_of_empty (m := { m with access := x }) h.l1]; rfl
variable (hm : m.Unarmed)
include hm

theorem Mach.Unbuffered.verSet (clk : Clock) (v : Nat) :
    ∃ x y, m.verSet clk core slot (fwPart va 8 pa 0) v = { m with mem := Memory.writeL m.mem pa (leBytes 8 v), access := x, poison := y } :=
  h.storePart hc rfl hm clk ⟨.strong, 5⟩ (leBytes 8 v)
/-- A writer takes a free word, and leaves another as it is. -/
theorem Mach.Unbuffered.verTake (clk : Clock) : let v := leNat (Memory.readN m.mem pa 8)
    ∃ x y, m.verTake clk core slot (fwPart va 8 pa 0) = if verFree v then
      (some (BitVec.ofNat 64 v), { m with mem := Memory.writeL m.mem pa (leBytes 8 (v + 1)), access := x, poison := y })
      else (none, { m with access := x }) := by
  obtain ⟨x, hx⟩ := h.verLoad hc va pa clk
  obtain ⟨x', y', hset⟩ := Mach.Unbuffered.verSet (m := { m with access := x }) (h.of_mem m.mem x m.poison) hc va pa hm clk
    (leNat (Memory.readN m.mem pa 8) + 1)
  intro v
  by_cases hv : verFree v = true
  · refine ⟨x', y', ?_⟩
    simp only [Mach.verTake, h.release, hx, hset]
    rw [if_pos hv, if_pos hv]
  · refine ⟨x, m.poison, ?_⟩
    simp only [Mach.verTake, h.release, hx]
    rw [if_neg hv, if_neg hv]
end
end

/-- A word of eight bytes is below 2⁶⁴. -/
theorem leNat_lt (bs : List Byte) : leNat bs < 256 ^ bs.length := by
  induction bs with
  | nil => exact Nat.one_pos
  | cons b bs ih =>
    rw [leNat, List.length_cons, pow_succ']
    have := b.isLt
    omega
theorem leNat_readN_lt (mem : List Host.Cell) (pa : Nat) : leNat (Memory.readN mem pa 8) < 2 ^ 64 := by
  simpa using leNat_lt (Memory.readN mem pa 8)
theorem verFree_iff {v : Nat} (h : v < 2 ^ 64) : verFree v = true ↔ v < 2 ^ 63 ∧ v % 2 = 0 := by
  have htop : v.testBit 63 = decide (2 ^ 63 ≤ v) := by
    rw [Nat.testBit_eq_decide_div_mod_eq]
    exact decide_eq_decide.2 (by omega)
  rw [verFree, htop, Bool.and_eq_true, Bool.not_eq_true', decide_eq_false_iff_not, beq_iff_eq, Nat.not_le]

end Sys2Proof.Machine
end

section
/-! SUPPORT. What a tile's engine does of itself (R205, R206, R231, R261, R262): the machine a fill or a write-back leaves. -/
namespace Sys2Proof.Machine

section
variable {m : Mach} {core slot : Nat} {w : Wg} (hw : m.wg? core slot = some w) (t : Nat) (x : Tile)
include hw

/-- Bytes put into a tile's region, and the tile changed. -/
theorem Mach.scratchWrite_setTile (off : Nat) (bs : List Byte) (y : Tile) : (m.scratchWrite core slot off bs).setTile core slot t y =
    (m.setCore core ((m.core core).putScratch (w.scratchAt off) bs)).setWg core slot (w.setTile t y) := by
  rw [Mach.scratchWrite_eq hw, Mach.setTile_eq (m := m.setCore core _) hw]
end
section
variable {m : Mach} {core slot : Nat} {w : Wg} (h : m.Unbuffered core slot w)
include h

/-- A workgroup whose tile has changed, or whose core's scratchpad has taken bytes, buffers nothing. -/
theorem Mach.Unbuffered.setTile (t : Nat) (y : Tile) : (m.setWg core slot (w.setTile t y)).Unbuffered core slot (w.setTile t y) :=
  ⟨Mach.setWg_wg? .., h.rollback, h.sbuf, h.l1⟩
theorem Mach.Unbuffered.putScratch (at_ : Nat) (bs : List Byte) : (m.setCore core ((m.core core).putScratch at_ bs)).Unbuffered core slot w :=
  ⟨h.wg, h.rollback, h.sbuf, (congrArg Core.l1 (Mach.setCore_core ..)).trans h.l1⟩
variable {vf va pa : Nat} (t : Nat) (x : Tile)

/-- A fill from one page reads its bytes and puts them into the region. -/
theorem Mach.Unbuffered.tileFill (h0 : 0 < x.bytes) (hp : m.PageAt core .read va x.bytes pa) (clk : Clock) (after : Mach → Mach) :
    ∃ a, m.tileFill clk core slot t w x va after =
      some (after (({ m with access := a } : Mach).setCore core ((m.core core).putScratch (w.scratchAt x.off) (Memory.readN m.mem pa x.bytes))
        |>.setWg core slot (w.setTile t x.filled))) := by
  obtain ⟨a, ha⟩ := h.readNow hp.listed (p := fwPart va x.bytes pa 0) rfl clk ⟨.plain, 1⟩
  refine ⟨a, ?_⟩
  rw [Mach.tileFill, hp.bulkTrans h0]
  dsimp only
  rw [bulkRes_fwPart, Mach.findSome?_poisoned hp rfl rfl]
  dsimp only
  rw [ha]
  dsimp only
  rw [Mach.scratchWrite_setTile (m := { m with access := a }) h.wg]
  rfl
/-- A write-back to one page is one store of the region. -/
theorem Mach.Unbuffered.tileStore (h0 : 0 < x.bytes) (hp : m.PageAt core .write va x.bytes pa) (hm : m.Unarmed)
    (hs : m.scratchPoison core slot x.off x.bytes = none) (clk : Clock) (o : Ord) (scope : Nat) (done : Mach → Mach) :
    ∃ a y, m.tileStore clk core slot t w x va o scope done =
      some (done { m with mem := Memory.writeL m.mem pa (m.scratchRead core slot x.off x.bytes), access := a, poison := y }) := by
  obtain ⟨a, y, hay⟩ := h.tilePut hp.listed (p := fwPart va x.bytes pa 0) rfl hm clk (x := x) o scope rfl
  refine ⟨a, y, ?_⟩
  rw [Mach.tileStore, hp.bulkTrans h0]
  dsimp only
  rw [bulkRes_fwPart, hs]
  dsimp only
  rw [hay]
end
theorem Mach.Unarmed.setTile {m : Mach} {core slot : Nat} {w : Wg} (hm : m.Unarmed) (hw : m.wg? core slot = some w) (t : Nat) (y : Tile) :
    (m.setWg core slot (w.setTile t y)).Unarmed := Mach.setWg_unarmed hw rfl hm

end Sys2Proof.Machine
end

section
/-! SUPPORT. The tile events (R205, R206, R231, R261 to R263, R265), each at the job it finds. -/
namespace Sys2Proof.Claims
open Sys2Proof.Machine

/-- What a tile's event leaves: memory `mem`, the tile standing as `y`, the core's scratchpad `sp`. -/
structure TileLeft (s : State) (core slot : Nat) (w : Wg) (t : Nat) (y : Tile) (mem : List Host.Cell) (sp : Sparse Byte) (m : Mach) : Prop where
  host : m.host = s.m.host
  fns : m.fns = s.m.fns
  mem : m.mem = mem
  wgs : m.wgs = withTile s core slot w t y
  scratch : (m.core core).scratch = sp
/-- The machine in which tile `t` of the workgroup stands as `y`. -/
def retiled (m : Mach) (core slot : Nat) (w : Wg) (t : Nat) (y : Tile) : Mach := m.setWg core slot (w.setTile t y)
/-- And its core's scratchpad has taken bytes at `at_`. -/
def refilled (m : Mach) (core slot : Nat) (w : Wg) (t : Nat) (y : Tile) (at_ : Nat) (bs : List Byte) : Mach :=
  retiled (m.setCore core ((m.core core).putScratch at_ bs)) core slot w t y
theorem retiled_left (s : State) (core slot : Nat) (w : Wg) (t : Nat) (y : Tile) (mem : List Host.Cell) (a : Sparse Nat) (b : List Nat) :
    TileLeft s core slot w t y mem (s.m.core core).scratch (retiled { s.m with mem := mem, access := a, poison := b } core slot w t y) :=
  ⟨rfl, rfl, rfl, rfl, rfl⟩
theorem refilled_left (s : State) (core slot : Nat) (w : Wg) (t : Nat) (x y : Tile) (bs : List Byte) (mem : List Host.Cell) (a : Sparse Nat)
    (b : List Nat) :
    TileLeft s core slot w t y mem (tileGets s core w x bs)
      { refilled s.m core slot w t y (w.scratchAt x.off) bs with mem := mem, access := a, poison := b } :=
  ⟨rfl, rfl, rfl, rfl, congrArg Core.scratch (Mach.setCore_core ..)⟩

section
variable {s : State} {core slot tile : Nat} {w : Wg} {x : Tile} (hw : s.m.wg? core slot = some w)
include hw

/-! ## The end of a fill -/

section
variable {j : TileJob} (hj : TileJobIs w tile x .filling j)
include hj

theorem fill_load {bs : List Byte} (he : j = .load bs) : execTileFillComplete core slot tile s =
    .next (withM s (refilled s.m core slot w tile x.filled (w.scratchAt x.off) bs)) := by
  obtain ⟨hx, hs, hf, hjob⟩ := hj
  have hx : w.tile tile = x := hx.symm
  refine s.event_next _ ?_
  simp only [hw, hx, hs, hf, hjob, he, Option.bind_eq_bind, Option.bind_some, ne_eq, not_true_eq_false, decide_false, Bool.or_false, Bool.false_eq_true,
    if_false, Mach.scratchWrite_setTile hw]
  rfl
theorem fill_touch {m : Mach} (he : j = .touch) (h : s.m.tileFill s.clk core slot tile w x x.map.toNat id = some m) :
    execTileFillComplete core slot tile s = .next (withM s m) := by
  obtain ⟨hx, hs, hf, hjob⟩ := hj
  have hx : w.tile tile = x := hx.symm
  refine s.event_next _ ?_
  simp only [hw, hx, hs, hf, hjob, he, h, Option.bind_eq_bind, Option.bind_some, ne_eq, not_true_eq_false, decide_false, Bool.or_false, Bool.false_eq_true,
    if_false]
/-- A `tldv` reads its version word, and the range when no write is in progress. -/
theorem fill_loadVer {a ver : Addr} {ts : List Nat} {k v : Nat} {p : Machine.Part} {m : Mach} (he : j = .loadVer a ver ts k none)
    (hp : s.m.verPart core w.vf ver.toNat = (p, s.m)) (hok : bulkRes s.m [p] = .ok) (hv : s.m.verLoad s.clk core slot p = (v, m)) :
    execTileFillComplete core slot tile s = s.event (fun clk _ =>
      if v % 2 = 1 then none
      else m.tileFill clk core slot tile w x a.toNat (fun m => if 16 ≤ k then m.verSet clk core slot p (v % 2 ^ 63) else m)) := by
  obtain ⟨hx, hs, hf, hjob⟩ := hj
  have hx : w.tile tile = x := hx.symm
  unfold execTileFillComplete State.event
  simp only [hw, hx, hs, hf, hjob, he, hp, hok, hv, Option.bind_eq_bind, Option.bind_some, ne_eq, not_true_eq_false, decide_false, Bool.or_false,
    Bool.false_eq_true, if_false]
end

/-! ## The end of a drain -/

/-- The tile when its bytes have been read out. -/
def drainedTile (x : Tile) : Tile := { x with state := .ready, version := x.version + 1, job := none }
section
variable {j : TileJob} (hj : TileJobIs w tile x .draining j)
include hj

theorem drain_store (he : j = .store) : execTileDrainComplete core slot tile s = .next (withM s (retiled s.m core slot w tile (drainedTile x))) := by
  obtain ⟨hx, hs, hf, hjob⟩ := hj
  have hx : w.tile tile = x := hx.symm
  refine s.event_next _ ?_
  simp only [hw, hx, hs, hjob, he, Option.bind_eq_bind, Option.bind_some, ne_eq, not_true_eq_false, decide_false, Bool.false_or]
  rw [if_neg (hf ▸ Bool.false_ne_true), Mach.setTile_eq hw]
  rfl
theorem drain_unmapped {ts : List Nat} {o : Ord} {scope : Nat} (he : j = .unmap ts o scope true) : execTileDrainComplete core slot tile s =
    .next (withM s (retiled s.m core slot w tile x.unmapped)) := by
  obtain ⟨hx, hs, hf, hjob⟩ := hj
  have hx : w.tile tile = x := hx.symm
  refine s.event_next _ ?_
  simp only [hw, hx, hs, hf, hjob, he, Option.bind_eq_bind, Option.bind_some, ne_eq, not_true_eq_false, decide_false, Bool.or_false, Bool.false_eq_true,
    if_false, Mach.setTile_eq hw]
  rfl
theorem drain_unmap {ts : List Nat} {o : Ord} {scope : Nat} {m : Mach} (he : j = .unmap ts o scope false)
    (h : s.m.tileStore s.clk core slot tile w x x.map.toNat o scope (·.setTile core slot tile x.unmapped) = some m) :
    execTileDrainComplete core slot tile s = .next (withM s m) := by
  obtain ⟨hx, hs, hf, hjob⟩ := hj
  have hx : w.tile tile = x := hx.symm
  refine s.event_next _ ?_
  simp only [hw, hx, hs, hf, hjob, he, h, Option.bind_eq_bind, Option.bind_some, ne_eq, not_true_eq_false, decide_false, Bool.or_false, Bool.false_eq_true,
    if_false]
/-- A `tst.aon` that holds its version word writes its payload, and then the word (R231). -/
theorem drain_storeAon {a ver : Addr} {ts : List Nat} {took : K64} {p : Machine.Part} {m : Mach} (he : j = .storeAon a ver ts (some took))
    (hp : s.m.verPart core w.vf ver.toNat = (p, s.m)) (hok : bulkRes s.m [p] = .ok)
    (h : s.m.tileStore s.clk core slot tile w x a.toNat .plain 0 (fun m =>
      ((m.release s.clk core slot 5).verSet s.clk core slot p ((took.toNat % 2 ^ 63 + 2) % 2 ^ 63)).setTile core slot tile (drainedTile x)) = some m) :
    execTileDrainComplete core slot tile s = .next (withM s m) := by
  obtain ⟨hx, hs, hf, hjob⟩ := hj
  have hx : w.tile tile = x := hx.symm
  refine s.event_next _ (Eq.trans ?_ h)
  simp only [hw, hx, hs, hjob, he, hp, hok, Option.bind_eq_bind, Option.bind_some, ne_eq, not_true_eq_false, decide_false, Bool.false_or]
  rw [if_neg (hf ▸ Bool.false_ne_true)]
  rfl
end

/-! ## Waiting for a version word (R231) -/

section
variable {st : TileState} {j : TileJob} (hj : TileJobIs w tile x st j) {a ver : Addr} {ts : List Nat} {p : Machine.Part}
  (hp : s.m.verPart core w.vf ver.toNat = (p, s.m)) (hok : bulkRes s.m [p] = .ok)
include hj hp hok

theorem retry_storeAon {took : Option K64} {m : Mach} (he : j = .storeAon a ver ts none) (hv : s.m.verTake s.clk core slot p = (took, m)) :
    execVersionWordRetry core slot tile s = s.event (fun _ _ =>
      took.map (fun v => m.setTile core slot tile { x with job := some (.storeAon a ver ts (some v)) })) := by
  obtain ⟨hx, -, hf, hjob⟩ := hj
  have hx : w.tile tile = x := hx.symm
  unfold execVersionWordRetry State.event
  simp only [hw, hx, hjob, he, hp, hok, hv, Option.bind_eq_bind, Option.bind_some]
  rw [if_neg (hf ▸ Bool.false_ne_true)]
  cases took <;> rfl
theorem retry_loadVer {k v : Nat} {m : Mach} (he : j = .loadVer a ver ts k none) (hv : s.m.verLoad s.clk core slot p = (v, m)) :
    execVersionWordRetry core slot tile s = s.event (fun _ _ =>
      if v % 2 = 1 then some (m.setTile core slot tile { x with job := some (.loadVer a ver ts k (some (BitVec.ofNat 64 v))) }) else none) := by
  obtain ⟨hx, -, hf, hjob⟩ := hj
  have hx : w.tile tile = x := hx.symm
  unfold execVersionWordRetry State.event
  simp only [hw, hx, hjob, he, hp, hok, hv, Option.bind_eq_bind, Option.bind_some]
  rw [if_neg (hf ▸ Bool.false_ne_true)]
theorem retry_loadVer_seen {k v : Nat} {seen : K64} {m : Mach} (he : j = .loadVer a ver ts k (some seen))
    (hv : s.m.verLoad s.clk core slot p = (v, m)) : execVersionWordRetry core slot tile s = s.event (fun clk _ =>
      if seen.toNat = v then none
      else some ((if 16 ≤ k + 1 then m.verSet clk core slot p (v ||| 2 ^ 63) else m).setTile core slot tile
        { x with job := some (.loadVer a ver ts (k + 1) none) })) := by
  obtain ⟨hx, -, hf, hjob⟩ := hj
  have hx : w.tile tile = x := hx.symm
  unfold execVersionWordRetry State.event
  simp only [hw, hx, hjob, he, hp, hok, hv, Option.bind_eq_bind, Option.bind_some]
  rw [if_neg (hf ▸ Bool.false_ne_true)]
end
end

/-! ## What they leave -/

/-- The outcome of a tile's event as the statements give it. -/
def Leaves (o : Host.Outcome State Fault Refusal) (s : State) (core slot : Nat) (w : Wg) (t : Nat) (y : Tile) (mem : List Host.Cell)
    (sp : Sparse Byte) : Prop :=
  ∃ m, o = .next (withM s m) ∧ TileLeft s core slot w t y mem sp m
theorem EngineAt.pos {s : State} {core va n pa : Nat} {k : Machine.Access} (h : EngineAt s core k va n pa) : 0 < n := h.1
theorem EngineAt.page {s : State} {core va n pa : Nat} {k : Machine.Access} (h : EngineAt s core k va n pa) : s.m.PageAt core k va n pa := by
  obtain ⟨-, hfit, ht, -, hc⟩ := h
  exact .of_tlb hfit ht hc
theorem EngineAt.l1 {s : State} {core va n pa : Nat} {k : Machine.Access} (h : EngineAt s core k va n pa) : (s.m.core core).l1 = [] := by
  obtain ⟨-, -, -, hl, -⟩ := h
  exact hl
theorem Plain.unbuffered {s : State} {core slot : Nat} {w : Wg} (h : Plain s core slot w) (hl : (s.m.core core).l1 = []) :
    s.m.Unbuffered core slot w := by
  obtain ⟨hw, -, hr, hb⟩ := h
  exact ⟨hw, hr, hb, hl⟩
theorem refilled_unbuffered {m : Mach} {core slot : Nat} {w : Wg} (h : m.Unbuffered core slot w) (t : Nat) (y : Tile) (at_ : Nat) (bs : List Byte) :
    (refilled m core slot w t y at_ bs).Unbuffered core slot (w.setTile t y) := (h.putScratch at_ bs).setTile t y
theorem refilled_unarmed {m : Mach} {core slot : Nat} {w : Wg} (hm : m.Unarmed) (hw : m.wg? core slot = some w) (t : Nat) (y : Tile) (at_ : Nat)
    (bs : List Byte) : (refilled m core slot w t y at_ bs).Unarmed :=
  Mach.Unarmed.setTile (m := m.setCore core ((m.core core).putScratch at_ bs)) hm hw t y
theorem listed_setCore (m : Mach) (core : Nat) (x : Core) : ∃ y, tget (m.setCore core x).cores core = some y := ⟨x, tget_tset_same ..⟩

section
variable {s : State} {core slot tile : Nat} {w : Wg} {x : Tile} (hpl : Plain s core slot w)
include hpl

theorem fill_load_leaves {bs : List Byte} (hj : TileJobIs w tile x .filling (.load bs)) :
    Leaves (execTileFillComplete core slot tile s) s core slot w tile (ended x) s.m.mem (tileGets s core w x bs) :=
  ⟨_, fill_load hpl.1 hj rfl, refilled_left s core slot w tile x (ended x) bs s.m.mem s.m.access s.m.poison⟩
theorem fill_touch_leaves {pa : Nat} (hj : TileJobIs w tile x .filling .touch) (ha : EngineAt s core .read x.map.toNat (x.size * 128) pa) :
    Leaves (execTileFillComplete core slot tile s) s core slot w tile (ended x) s.m.mem
      (tileGets s core w x (Memory.readN s.m.mem pa (x.size * 128))) := by
  obtain ⟨a, hfill⟩ := (hpl.unbuffered ha.l1).tileFill tile x ha.pos ha.page s.clk id
  exact ⟨_, fill_touch hpl.1 hj rfl hfill, refilled_left s core slot w tile x (ended x) _ s.m.mem a s.m.poison⟩
theorem drain_store_leaves (hj : TileJobIs w tile x .draining .store) :
    Leaves (execTileDrainComplete core slot tile s) s core slot w tile (drainedTile x) s.m.mem (s.m.core core).scratch :=
  ⟨_, drain_store hpl.1 hj rfl, retiled_left s core slot w tile (drainedTile x) s.m.mem s.m.access s.m.poison⟩
theorem drain_unmapped_leaves {ts : List Nat} {o : Ord} {sc : Nat} (hj : TileJobIs w tile x .draining (.unmap ts o sc true)) :
    Leaves (execTileDrainComplete core slot tile s) s core slot w tile x.unmapped s.m.mem (s.m.core core).scratch :=
  ⟨_, drain_unmapped hpl.1 hj rfl, retiled_left s core slot w tile x.unmapped s.m.mem s.m.access s.m.poison⟩
theorem drain_unmap_leaves {ts : List Nat} {o : Ord} {sc pa : Nat} (hj : TileJobIs w tile x .draining (.unmap ts o sc false))
    (ha : EngineAt s core .write x.map.toNat (x.size * 128) pa) (hm : NoMonitor s)
    (hs : s.m.scratchPoison core slot (x.base * 128) (x.size * 128) = none) :
    Leaves (execTileDrainComplete core slot tile s) s core slot w tile x.unmapped (Memory.writeL s.m.mem pa (tileBytes s core slot x))
      (s.m.core core).scratch := by
  obtain ⟨a, b, hstore⟩ := (hpl.unbuffered ha.l1).tileStore tile x ha.pos ha.page hm hs s.clk o sc (·.setTile core slot tile x.unmapped)
  rw [Mach.setTile_eq (m := { s.m with mem := _, access := a, poison := b }) hpl.1] at hstore
  exact ⟨_, drain_unmap hpl.1 hj rfl hstore, retiled_left s core slot w tile x.unmapped _ a b⟩

/-! ### At a version word (R231) -/

section
variable {a ver : Addr} {ts : List Nat} {pv : Nat} (hr : EngineAt s core .read ver.toNat 8 pv) (hwr : EngineAt s core .write ver.toNat 8 pv)
include hr hwr

omit hpl in
theorem verPart_engine : s.m.verPart core w.vf ver.toNat = (fwPart ver.toNat 8 pv 0, s.m) := hr.page.verPart hwr.page w.vf
variable (hm : NoMonitor s)
include hm

theorem drain_storeAon_leaves {took : K64} {pa : Nat} (hj : TileJobIs w tile x .draining (.storeAon a ver ts (some took)))
    (ha : EngineAt s core .write a.toNat (x.size * 128) pa) (hs : s.m.scratchPoison core slot (x.base * 128) (x.size * 128) = none) :
    Leaves (execTileDrainComplete core slot tile s) s core slot w tile (drainedTile x)
      (Memory.writeL (Memory.writeL s.m.mem pa (tileBytes s core slot x)) pv (leBytes 8 ((took.toNat % 2 ^ 63 + 2) % 2 ^ 63)))
      (s.m.core core).scratch := by
  have hu := hpl.unbuffered ha.l1
  obtain ⟨a', b', hstore⟩ := hu.tileStore tile x ha.pos ha.page hm hs s.clk .plain 0 (fun m =>
    ((m.release s.clk core slot 5).verSet s.clk core slot (fwPart ver.toNat 8 pv 0) ((took.toNat % 2 ^ 63 + 2) % 2 ^ 63)).setTile core slot tile
      (drainedTile x))
  have hu' := hu.of_mem (Memory.writeL s.m.mem pa (s.m.scratchRead core slot x.off x.bytes)) a' b'
  obtain ⟨a'', b'', hset⟩ := hu'.verSet ha.page.listed ver.toNat pv hm s.clk ((took.toNat % 2 ^ 63 + 2) % 2 ^ 63)
  refine ⟨_, drain_storeAon hpl.1 hj rfl (verPart_engine hr hwr) (bulkRes_fwPart ..) (hstore.trans (congrArg some ?_)),
    retiled_left s core slot w tile (drainedTile x) _ a'' b''⟩
  rw [hu'.release, hset]
  exact Mach.setTile_eq (m := { s.m with mem := _, access := a'', poison := b'' }) hpl.1 ..
theorem fill_loadVer_leaves {k pa : Nat} (hj : TileJobIs w tile x .filling (.loadVer a ver ts k none))
    (ha : EngineAt s core .read a.toNat (x.size * 128) pa) (hv : leNat (Memory.readN s.m.mem pv 8) % 2 = 0) :
    Leaves (execTileFillComplete core slot tile s) s core slot w tile (ended x)
      (if 16 ≤ k then Memory.writeL s.m.mem pv (leBytes 8 (leNat (Memory.readN s.m.mem pv 8) % 2 ^ 63)) else s.m.mem)
      (tileGets s core w x (Memory.readN s.m.mem pa (x.size * 128))) := by
  have hu := hpl.unbuffered ha.l1
  obtain ⟨b, hload⟩ := hu.verLoad ha.page.listed ver.toNat pv s.clk
  have hu' := hu.of_mem s.m.mem b s.m.poison
  have hp' : ({ s.m with access := b } : Mach).PageAt core .read a.toNat (x.size * 128) pa := EngineAt.page (s := withM s { s.m with access := b }) ha
  obtain ⟨b', hfill⟩ := Mach.Unbuffered.tileFill (m := { s.m with access := b }) hu' tile x ha.pos hp' s.clk
    (fun m => if 16 ≤ k then m.verSet s.clk core slot (fwPart ver.toNat 8 pv 0) (leNat (Memory.readN s.m.mem pv 8) % 2 ^ 63) else m)
  have hexec := fill_loadVer hpl.1 hj rfl (verPart_engine hr hwr) (bulkRes_fwPart ..) hload
  rw [State.event_next s _ ((if_neg (by omega)).trans hfill)] at hexec
  by_cases hk : 16 ≤ k
  · obtain ⟨b'', c'', hset⟩ := (refilled_unbuffered (hu.of_mem s.m.mem b' s.m.poison) tile x.filled (w.scratchAt x.off)
      (Memory.readN s.m.mem pa (x.size * 128))).verSet (listed_setCore ..) ver.toNat pv
      (refilled_unarmed (m := { s.m with access := b' }) hm hpl.1 _ _ _ _) s.clk (leNat (Memory.readN s.m.mem pv 8) % 2 ^ 63)
    rw [if_pos hk]
    refine ⟨_, hexec.trans (congrArg (fun m => Host.Outcome.next (withM s m)) ((if_pos hk).trans hset)), ?_⟩
    exact refilled_left s core slot w tile x (ended x) _ _ b'' c''
  · rw [if_neg hk]
    exact ⟨_, hexec.trans (congrArg (fun m => Host.Outcome.next (withM s m)) (if_neg hk)),
      refilled_left s core slot w tile x (ended x) _ s.m.mem b' s.m.poison⟩
end
end

end Sys2Proof.Claims
end

section
/-! SUPPORT. Waiting for a version word (R231) and the rotation of a block (R257, R263). -/
namespace Sys2Proof.Claims
open Sys2Proof.Machine

/-! ## Waiting for a version word (R231) -/

/-- A retry that goes on changes the tile's job, and memory. -/
def Retries (s : State) (core slot : Nat) (w : Wg) (t : Nat) (y : Tile) (mem : List Host.Cell) : Prop :=
  Leaves (execVersionWordRetry core slot t s) s core slot w t y mem (s.m.core core).scratch

theorem setTile_left {s : State} {core slot : Nat} {w : Wg} (hw : s.m.wg? core slot = some w) (t : Nat) (y : Tile) (mem : List Host.Cell) (a : Sparse Nat)
    (b : List Nat) : TileLeft s core slot w t y mem (s.m.core core).scratch
      (({ s.m with mem := mem, access := a, poison := b } : Mach).setTile core slot t y) := by
  rw [Mach.setTile_eq (m := { s.m with mem := mem, access := a, poison := b }) hw]
  exact retiled_left s core slot w t y mem a b
section
variable {s : State} {core slot tile : Nat} {w : Wg} {x : Tile} (hpl : Plain s core slot w) {a ver : Addr} {ts : List Nat} {pv : Nat}
  (hr : EngineAt s core .read ver.toNat 8 pv) (hwr : EngineAt s core .write ver.toNat 8 pv)
include hpl hr hwr

theorem retry_storeAon_free (hm : NoMonitor s) (hj : TileJobIs w tile x .draining (.storeAon a ver ts none))
    (hv : leNat (Memory.readN s.m.mem pv 8) < 2 ^ 63 ∧ leNat (Memory.readN s.m.mem pv 8) % 2 = 0) :
    Retries s core slot w tile { x with job := some (.storeAon a ver ts (some (BitVec.ofNat 64 (leNat (Memory.readN s.m.mem pv 8))))) }
      (Memory.writeL s.m.mem pv (leBytes 8 (leNat (Memory.readN s.m.mem pv 8) + 1))) := by
  obtain ⟨b, c, htake⟩ := (hpl.unbuffered hr.l1).verTake hr.page.listed ver.toNat pv hm s.clk
  rw [if_pos ((verFree_iff (leNat_readN_lt ..)).2 hv)] at htake
  exact ⟨_, (retry_storeAon hpl.1 hj (verPart_engine hr hwr) (bulkRes_fwPart ..) rfl htake).trans (State.event_next _ _ rfl),
    setTile_left hpl.1 tile _ _ b c⟩
theorem retry_storeAon_taken (hm : NoMonitor s) (hj : TileJobIs w tile x .draining (.storeAon a ver ts none))
    (hv : ¬(leNat (Memory.readN s.m.mem pv 8) < 2 ^ 63 ∧ leNat (Memory.readN s.m.mem pv 8) % 2 = 0)) :
    execVersionWordRetry core slot tile s = .fault .notEnabled := by
  obtain ⟨b, c, htake⟩ := (hpl.unbuffered hr.l1).verTake hr.page.listed ver.toNat pv hm s.clk
  rw [if_neg (fun h => hv ((verFree_iff (leNat_readN_lt ..)).1 h))] at htake
  exact (retry_storeAon hpl.1 hj (verPart_engine hr hwr) (bulkRes_fwPart ..) rfl htake).trans (State.event_fault _ _ rfl)
theorem fill_loadVer_busy {k : Nat} (hj : TileJobIs w tile x .filling (.loadVer a ver ts k none)) (hv : leNat (Memory.readN s.m.mem pv 8) % 2 = 1) :
    execTileFillComplete core slot tile s = .fault .notEnabled := by
  obtain ⟨b, hload⟩ := (hpl.unbuffered hr.l1).verLoad hr.page.listed ver.toNat pv s.clk
  exact (fill_loadVer hpl.1 hj rfl (verPart_engine hr hwr) (bulkRes_fwPart ..) hload).trans (State.event_fault _ _ (if_pos hv))
theorem retry_loadVer_odd {k : Nat} (hj : TileJobIs w tile x .filling (.loadVer a ver ts k none)) (hv : leNat (Memory.readN s.m.mem pv 8) % 2 = 1) :
    Retries s core slot w tile { x with job := some (.loadVer a ver ts k (some (BitVec.ofNat 64 (leNat (Memory.readN s.m.mem pv 8))))) } s.m.mem := by
  obtain ⟨b, hload⟩ := (hpl.unbuffered hr.l1).verLoad hr.page.listed ver.toNat pv s.clk
  exact ⟨_, (retry_loadVer hpl.1 hj (verPart_engine hr hwr) (bulkRes_fwPart ..) rfl hload).trans (State.event_next _ _ (if_pos hv)),
    setTile_left hpl.1 tile _ s.m.mem b s.m.poison⟩
theorem retry_loadVer_even {k : Nat} (hj : TileJobIs w tile x .filling (.loadVer a ver ts k none)) (hv : ¬leNat (Memory.readN s.m.mem pv 8) % 2 = 1) :
    execVersionWordRetry core slot tile s = .fault .notEnabled := by
  obtain ⟨b, hload⟩ := (hpl.unbuffered hr.l1).verLoad hr.page.listed ver.toNat pv s.clk
  exact (retry_loadVer hpl.1 hj (verPart_engine hr hwr) (bulkRes_fwPart ..) rfl hload).trans (State.event_fault _ _ (if_neg hv))
theorem retry_loadVer_unchanged {k : Nat} {seen : K64} (hj : TileJobIs w tile x .filling (.loadVer a ver ts k (some seen)))
    (hv : seen.toNat = leNat (Memory.readN s.m.mem pv 8)) : execVersionWordRetry core slot tile s = .fault .notEnabled := by
  obtain ⟨b, hload⟩ := (hpl.unbuffered hr.l1).verLoad hr.page.listed ver.toNat pv s.clk
  exact (retry_loadVer_seen hpl.1 hj (verPart_engine hr hwr) (bulkRes_fwPart ..) rfl hload).trans (State.event_fault _ _ (if_pos hv))
/-- From the sixteenth retry on, a reader holds off new writers by bit 63. -/
theorem retry_loadVer_changed (hm : NoMonitor s) {k : Nat} {seen : K64} (hj : TileJobIs w tile x .filling (.loadVer a ver ts k (some seen)))
    (hv : ¬seen.toNat = leNat (Memory.readN s.m.mem pv 8)) : Retries s core slot w tile { x with job := some (.loadVer a ver ts (k + 1) none) }
      (if k < 15 then s.m.mem else Memory.writeL s.m.mem pv (leBytes 8 (leNat (Memory.readN s.m.mem pv 8) ||| 2 ^ 63))) := by
  have hu := hpl.unbuffered hr.l1
  obtain ⟨b, hload⟩ := hu.verLoad hr.page.listed ver.toNat pv s.clk
  have hexec := (retry_loadVer_seen hpl.1 hj (verPart_engine hr hwr) (bulkRes_fwPart ..) rfl hload).trans (State.event_next _ _ (if_neg hv))
  by_cases hk : k < 15
  · rw [if_neg (by omega)] at hexec
    exact ⟨_, hexec, (if_pos hk).symm ▸ setTile_left hpl.1 tile _ s.m.mem b s.m.poison⟩
  · obtain ⟨b', c', hset⟩ := (hu.of_mem s.m.mem b s.m.poison).verSet hr.page.listed ver.toNat pv hm s.clk
      (leNat (Memory.readN s.m.mem pv 8) ||| 2 ^ 63)
    rw [if_pos (by omega), hset] at hexec
    exact ⟨_, hexec, (if_neg hk).symm ▸ setTile_left hpl.1 tile _ _ b' c'⟩
end

end Sys2Proof.Claims
end

section
/-! SUPPORT. The rotation of a block (R257, R263): every tile takes its neighbour's bytes. -/
namespace Sys2Proof.Machine

/-! ## Bytes put into a scratchpad and read back -/

theorem swf_sorted {s : Sparse Byte} (h : swf 0 s = true) : sortedFrom none s = true := by
  rw [swf, Bool.and_eq_true] at h
  exact h.1
theorem sget_scratchPut_below {s : Sparse Byte} (h : swf 0 s = true) {a at_ : Nat} (ha : a < at_) (bs : List Byte) :
    sget 0 (scratchPut s at_ bs) a = sget 0 s a := by
  induction bs generalizing s at_ with
  | nil => rfl
  | cons b bs ih => rw [scratchPut, ih (swf_sset 0 s at_ b h) (by omega), sget_sset_other 0 s b (swf_sorted h) (by omega)]
theorem Core.scratchN_of_scratchPut {c : Core} {s : Sparse Byte} (h : swf 0 s = true) (at_ : Nat) (bs : List Byte)
    (hc : c.scratch = scratchPut s at_ bs) : c.scratchN at_ bs.length = bs := by
  induction bs generalizing s at_ with
  | nil => rfl
  | cons b bs ih =>
    rw [List.length_cons, Core.scratchN, ih (swf_sset 0 s at_ b h) (at_ + 1) hc, hc, scratchPut,
      sget_scratchPut_below (swf_sset 0 s at_ b h) (Nat.lt_succ_self at_), sget_sset_same 0 s at_ b (swf_sorted h)]

end Sys2Proof.Machine

namespace Sys2Proof.Claims
open Sys2Proof.Machine

/-! ## The tiles of workgroups on different cores, each given bytes -/

/-- One workgroup's tile takes the bytes `src` gives it. -/
def rotStep (tile : Nat) (src : Nat × Nat × Wg → List Byte) (m : Mach) (e : Nat × Nat × Wg) : Mach :=
  (m.scratchWrite e.1 e.2.1 (e.2.2.tile tile).off (src e)).setTile e.1 e.2.1 tile (e.2.2.tile tile).filled
section
variable (tile : Nat) (src : Nat × Nat × Wg → List Byte)

theorem rotStep_eq {m : Mach} {e : Nat × Nat × Wg} (hw : m.wg? e.1 e.2.1 = some e.2.2) : rotStep tile src m e =
    refilled m e.1 e.2.1 e.2.2 tile (e.2.2.tile tile).filled (e.2.2.scratchAt (e.2.2.tile tile).off) (src e) := Mach.scratchWrite_setTile hw ..
theorem refilled_core (m : Mach) (core slot : Nat) (w : Wg) (t : Nat) (y : Tile) (at_ : Nat) (bs : List Byte) :
    (refilled m core slot w t y at_ bs).core core = (m.core core).putScratch at_ bs := Mach.setCore_core ..
theorem refilled_core_other (m : Mach) {core k : Nat} (h : k ≠ core) (slot : Nat) (w : Wg) (t : Nat) (y : Tile) (at_ : Nat) (bs : List Byte) :
    (refilled m core slot w t y at_ bs).core k = m.core k := Mach.setCore_core_other m _ h
theorem refilled_wg?_other (m : Mach) {core k slot j : Nat} (h : k ≠ core) (hs : slot < 64) (hj : j < 64) (w : Wg) (t : Nat) (y : Tile) (at_ : Nat)
    (bs : List Byte) : (refilled m core slot w t y at_ bs).wg? k j = m.wg? k j := by
  rw [refilled, retiled, Mach.setWg_wg?_other _ _ (by omega), Mach.setCore_wg?]

/-- What the steps over `es` leave of `m`. -/
structure Rotated (m : Mach) (es : List (Nat × Nat × Wg)) (n : Mach) : Prop where
  host : n.host = m.host
  fns : n.fns = m.fns
  mem : n.mem = m.mem
  core_other : ∀ k, (∀ e ∈ es, k ≠ e.1) → n.core k = m.core k
  wg_other : ∀ k j, j < 64 → (∀ e ∈ es, k ≠ e.1) → n.wg? k j = m.wg? k j
  core : ∀ e ∈ es, n.core e.1 = (m.core e.1).putScratch (e.2.2.scratchAt (e.2.2.tile tile).off) (src e)
  wg : ∀ e ∈ es, n.wg? e.1 e.2.1 = some (e.2.2.setTile tile (e.2.2.tile tile).filled)

theorem rotated_foldl {m : Mach} {es : List (Nat × Nat × Wg)} (hn : (es.map (·.1)).Nodup)
    (h : ∀ e ∈ es, m.wg? e.1 e.2.1 = some e.2.2 ∧ e.2.1 < 64) : Rotated tile src m es (es.foldl (rotStep tile src) m) := by
  induction es generalizing m with
  | nil => exact ⟨rfl, rfl, rfl, fun _ _ => rfl, fun _ _ _ _ => rfl, fun _ he => absurd he List.not_mem_nil,
      fun _ he => absurd he List.not_mem_nil⟩
  | cons e es ih =>
    obtain ⟨⟨hw, hs⟩, hes⟩ := List.forall_mem_cons.1 h
    obtain ⟨hfresh, hn⟩ := List.nodup_cons.1 hn
    have hne : ∀ f ∈ es, e.1 ≠ f.1 := fun f hf he => hfresh (List.mem_map.2 ⟨f, hf, he.symm⟩)
    rw [List.foldl_cons, rotStep_eq tile src hw]
    have hr := ih hn (m := refilled m e.1 e.2.1 e.2.2 tile (e.2.2.tile tile).filled (e.2.2.scratchAt (e.2.2.tile tile).off) (src e))
      fun f hf => ⟨(refilled_wg?_other m (hne f hf).symm hs (hes f hf).2 ..).trans (hes f hf).1, (hes f hf).2⟩
    refine ⟨hr.host, hr.fns, hr.mem, fun k hk => ?_, fun k j hj hk => ?_, List.forall_mem_cons.2 ⟨?_, fun f hf => ?_⟩,
      List.forall_mem_cons.2 ⟨?_, hr.wg⟩⟩
    · obtain ⟨hke, hk⟩ := List.forall_mem_cons.1 hk
      exact (hr.core_other k hk).trans (refilled_core_other m hke ..)
    · obtain ⟨hke, hk⟩ := List.forall_mem_cons.1 hk
      exact (hr.wg_other k j hj hk).trans (refilled_wg?_other m hke hs hj ..)
    · exact (hr.core_other e.1 hne).trans (refilled_core ..)
    · rw [hr.core f hf, refilled_core_other m (hne f hf).symm]
    · exact (hr.wg_other e.1 e.2.1 hs hne).trans (Mach.setWg_wg? ..)
end

/-! ## The rotation -/

theorem block_slot_lt {m : Mach} {vf launch g : Nat} {e : Nat × Nat × Wg} (h : e ∈ m.block vf launch g) : e.2.1 < 64 := by
  obtain ⟨k, -, rfl⟩ := List.mem_map.1 (mem_sortBy.1 h)
  exact Nat.mod_lt _ (by decide)
/-- The place in the block from which a workgroup's tile takes its bytes. -/
def rotFrom (rev : Bool) (g : Nat) : Nat := if rev then (g + 1) % 16 else (g + 15) % 16
/-- The bytes of the block's tiles before the rotation, each with its place. -/
def blockBytes (m : Mach) (tile : Nat) (block : List (Nat × Nat × Wg)) : List (Nat × List Byte) :=
  block.map (fun e => (e.2.2.g % 16, m.scratchRead e.1 e.2.1 (e.2.2.tile tile).off (e.2.2.tile tile).bytes))
/-- The bytes that stand at a place. -/
def bytesFrom (old : List (Nat × List Byte)) (g : Nat) : List Byte := ((old.find? (fun o => o.1 == g)).map (·.2)).getD []

theorem find?_key {α : Type} {l : List (Nat × α)} (hn : (l.map (·.1)).Nodup) {o : Nat × α} (h : o ∈ l) :
    l.find? (fun p => p.1 == o.1) = some o := by
  induction l with
  | nil => exact absurd h List.not_mem_nil
  | cons p l ih =>
    obtain ⟨hfresh, hn⟩ := List.nodup_cons.1 hn
    rcases List.mem_cons.1 h with rfl | h
    · rw [List.find?_cons_of_pos (by simp)]
    · have hne : p.1 ≠ o.1 := fun he => hfresh (List.mem_map.2 ⟨o, h, he.symm⟩)
      exact (List.find?_cons_of_neg (by simpa using hne)).trans (ih hn h)
section
variable {m : Mach} {tile : Nat} {block : List (Nat × Nat × Wg)} (hn : (block.map (fun e => e.2.2.g % 16)).Nodup)
include hn

theorem find?_blockBytes {f : Nat × Nat × Wg} (hf : f ∈ block) : (blockBytes m tile block).find? (fun o => o.1 == f.2.2.g % 16) =
    some (f.2.2.g % 16, m.scratchRead f.1 f.2.1 (f.2.2.tile tile).off (f.2.2.tile tile).bytes) :=
  find?_key (l := blockBytes m tile block) (by rw [blockBytes, List.map_map]; exact hn) (List.mem_map_of_mem hf)
theorem bytesFrom_blockBytes {f : Nat × Nat × Wg} (hf : f ∈ block) {g : Nat} (hg : f.2.2.g % 16 = g) :
    bytesFrom (blockBytes m tile block) g = m.scratchRead f.1 f.2.1 (f.2.2.tile tile).off (f.2.2.tile tile).bytes := by
  rw [bytesFrom, ← hg, find?_blockBytes hn hf]; rfl
end

section
variable {s : State} {core slot tile : Nat} {w : Wg} {x : Tile} (hw : s.m.wg? core slot = some w) {rev : Bool} {until_ : Nat}
  (hj : TileJobIs w tile x .filling (.rotate rev until_))
include hw hj

theorem trot_early (ht : s.clk.cycle < until_) : execTrotComplete core slot tile s = .fault .notEnabled := by
  obtain ⟨hx, -, -, hjob⟩ := hj
  have hx : w.tile tile = x := hx.symm
  refine State.event_fault _ _ ?_
  simp only [hw, hx, hjob, Option.bind_eq_bind, Option.bind_some, if_pos ht]
theorem trot_rotates (ht : until_ ≤ s.clk.cycle) (hn : ((s.m.block w.vf w.launch w.g).map (fun e => e.2.2.g % 16)).Nodup)
    (hall : ∀ e ∈ s.m.block w.vf w.launch w.g, ∃ f ∈ s.m.block w.vf w.launch w.g, f.2.2.g % 16 = rotFrom rev e.2.2.g) :
    execTrotComplete core slot tile s = .next (withM s ((s.m.block w.vf w.launch w.g).foldl
      (rotStep tile (fun e => bytesFrom (blockBytes s.m tile (s.m.block w.vf w.launch w.g)) (rotFrom rev e.2.2.g))) s.m)) := by
  obtain ⟨hx, -, -, hjob⟩ := hj
  have hx : w.tile tile = x := hx.symm
  refine State.event_next _ _ ?_
  simp only [hw, hx, hjob, Option.bind_eq_bind, Option.bind_some, if_neg (Nat.not_lt.2 ht)]
  refine congrArg some (List.foldl_ext _ _ _ fun m e he => ?_)
  obtain ⟨f, hf, hg⟩ := hall e he
  have hfind := find?_blockBytes (m := s.m) (tile := tile) hn hf
  rw [hg] at hfind
  rw [rotStep, bytesFrom, hfind]
  simp only [rotFrom, blockBytes] at hfind
  rw [hfind]
  rfl
end

/-- What a tile's bytes are once its region took as many. -/
theorem tileBytes_of_put {s t : State} {core slot : Nat} {w w' : Wg} (hw : t.m.wg? core slot = some w') (hg : w'.gran = w.gran) {x : Tile}
    {bs : List Byte} (hs : swf 0 (s.m.core core).scratch = true) (hlen : bs.length = x.size * 128)
    (hc : t.m.core core = (s.m.core core).putScratch (w.scratchAt x.off) bs) : tileBytes t core slot x = bs := by
  rw [tileBytes, Mach.scratchRead, hw, ← hlen]
  exact Core.scratchN_of_scratchPut hs _ bs ((congrArg Core.scratch hc).trans (by rw [Wg.scratchAt, Wg.scratchAt, hg]; rfl))

end Sys2Proof.Claims
end

section
/-! # The engines' own events (R205, R206, R231, R261 to R263, R265, R290, R291, R318 to R320, R438) -/
open Sys2Proof Sys2Proof.Machine Sys2Proof.Claims

/-- Each clause in the order of the statement: fills, drains, version words, the rotation. -/
theorem tileEngineEvents : TileEvents := by
  intro core slot tile s w x hpl n filled drained readyNow unmappedNow
  have hfill {bs mem} (h : Leaves (execTileFillComplete core slot tile s) s core slot w tile (ended x) mem (tileGets s core w x bs)) :
      filled bs mem := by
    obtain ⟨m, hexec, hleft⟩ := h
    exact ⟨_, hexec, ⟨rfl, rfl, hleft.host, hleft.fns⟩, hleft.mem, hleft.wgs, hleft.scratch⟩
  have hdrain {y mem} (h : Leaves (execTileDrainComplete core slot tile s) s core slot w tile y mem (s.m.core core).scratch) : drained y mem := by
    obtain ⟨m, hexec, hleft⟩ := h
    exact ⟨_, hexec, ⟨rfl, rfl, hleft.host, hleft.fns⟩, hleft.wgs, hleft.mem, hleft.scratch⟩
  refine ⟨fun bs hj => hfill (fill_load_leaves hpl hj), fun pa hj ha => hfill (fill_touch_leaves hpl hj ha),
    fun hj => hdrain (drain_store_leaves hpl hj), fun ts o sc hj => hdrain (drain_unmapped_leaves hpl hj),
    fun ts o sc pa hj ha hm hs => hdrain (drain_unmap_leaves hpl hj ha hm hs),
    ?_, ?_⟩
  · intro a ver ts pv hr hwr hm v retried
    have hretry {job mem} (h : Retries s core slot w tile { x with job := some job } mem) : retried job mem := by
      obtain ⟨m, hexec, hleft⟩ := h
      exact ⟨_, hexec, hleft.mem, hleft.wgs⟩
    refine ⟨fun hj => ?_, fun pa took hj ha hs => hdrain (drain_storeAon_leaves hpl hr hwr hm hj ha hs),
      fun k hj => ⟨fun pa ha hv => hfill (fill_loadVer_leaves hpl hr hwr hm hj ha hv), fill_loadVer_busy hpl hr hwr hj, ?_⟩,
      fun k seen hj => ?_⟩
    · rw [ite_prop_iff_and]
      exact ⟨fun hv => hretry (retry_storeAon_free hpl hr hwr hm hj hv), retry_storeAon_taken hpl hr hwr hm hj⟩
    · rw [ite_prop_iff_and]
      exact ⟨fun hv => hretry (retry_loadVer_odd hpl hr hwr hj hv), retry_loadVer_even hpl hr hwr hj⟩
    · rw [ite_prop_iff_and]
      exact ⟨retry_loadVer_unchanged hpl hr hwr hj, fun hv => hretry (retry_loadVer_changed hpl hr hwr hm hj hv)⟩
  · intro rev until_ hj block from_ at_
    refine ⟨trot_early hpl.1 hj, fun ht hcores hplaces hall => ?_⟩
    have hexec := trot_rotates hpl.1 hj ht hplaces fun e he => (hall e he).2.2.2
    have hrot := rotated_foldl tile (fun e => bytesFrom (blockBytes s.m tile block) (rotFrom rev e.2.2.g)) hcores
      fun e he => ⟨(hall e he).1, block_slot_lt he⟩
    refine ⟨_, hexec, ⟨rfl, rfl, hrot.host, hrot.fns⟩, hrot.mem, fun e he f hf hfrom => ⟨hrot.wg e he, ?_⟩⟩
    have hbytes : bytesFrom (blockBytes s.m tile block) (rotFrom rev e.2.2.g) = tileBytes s f.1 f.2.1 (at_ f) := bytesFrom_blockBytes hplaces hf hfrom
    obtain ⟨-, hsize, hswf, -⟩ := hall e he
    obtain ⟨hwf, hsize', -⟩ := hall f hf
    have hlen : (tileBytes s f.1 f.2.1 (at_ f)).length = (at_ e).size * 128 := (Mach.length_scratchRead hwf ..).trans (by rw [hsize, hsize'])
    exact tileBytes_of_put (hrot.wg e he) rfl hswf hlen (hbytes ▸ hrot.core e he)
end

section
/-! SUPPORT. What the copy engine reads and writes on one strongly ordered page, and what a command that ends leaves (R290, R318 to R320). -/
namespace Sys2Proof.Machine

/-! ## One page of a range, for a core's engine -/

theorem goodParts_nil (m : Mach) : goodParts m [] = ([], none) := rfl
theorem goodParts_page (m : Mach) (va n pa : Nat) : goodParts m [fwPart va n pa 0] = ([fwPart va n pa 0], none) := rfl
theorem bulkPoison_page {m : Mach} {va n pa : Nat} (h : ∀ l ∈ linesOf pa n, l ∉ m.poison) : bulkPoison m [fwPart va n pa 0] = none := by
  have hfind : (linesOf pa n).find? m.poison.contains = none := List.find?_eq_none.2 fun l hl => by simpa using h l hl
  simp only [bulkPoison, List.findSome?_cons, List.findSome?_nil, fwPart, hfind, Option.map_none]
theorem Mach.bulkRead_page {m : Mach} {core : Nat} (h : (m.core core).l1 = []) (va n pa : Nat) :
    ∃ a, m.bulkRead core [fwPart va n pa 0] = (Memory.readN m.mem pa n, { m with access := a }) := by
  obtain ⟨a, ha⟩ := Mach.writeBackLines_of_empty h (linesOf pa n)
  refine ⟨a, ?_⟩
  simp only [Mach.bulkRead, fwPart, ha, List.append_nil]
theorem Mach.bulkWrite_page {m : Mach} {core : Nat} (h : (m.core core).l1 = []) (hc : ∃ x, tget m.cores core = some x) (hm : m.Unarmed) (va pa : Nat)
    {n : Nat} {bs : List Byte} (hn : bs.length = n) :
    ∃ a b, m.bulkWrite core [fwPart va n pa 0] bs = { m with mem := Memory.writeL m.mem pa bs, access := a, poison := b } := by
  obtain ⟨a, ha⟩ := Mach.dropLines_absent hc (ls := linesOf pa n) fun l _ => by rw [h]; rfl
  refine ⟨a, (m.physWrite pa bs).poison, ?_⟩
  simp only [Mach.bulkWrite, fwPart, ha, List.take_of_length_le hn.le]
  exact Mach.hitLines_unarmed (m := Mach.physWrite { m with access := a } pa bs) hm _
/-- An engine's word, on a page of its own. -/
theorem Mach.storeWord_page {m : Mach} {core va pa : Nat} (h : (m.core core).l1 = []) (hp : m.PageAt core .write va 8 pa) (hm : m.Unarmed) (vf v : Nat) :
    ∃ a b, m.storeWord core vf va v = (.ok, { m with mem := Memory.writeL m.mem pa (leBytes 8 v), access := a, poison := b }) := by
  obtain ⟨a, b, hab⟩ := Mach.bulkWrite_page h hp.listed hm va pa (length_leBytes 8 v)
  refine ⟨a, b, ?_⟩
  have htrans := hp.bulkTrans (by decide) vf
  rw [spansOf_one (by decide) hp.fits] at htrans
  rw [Mach.storeWord, htrans]
  dsimp only
  rw [bulkRes_fwPart]
  dsimp only
  rw [hab]
/-- With no live barrier word nothing is refused (R295). -/
theorem Mach.deliver_untagged {m : Mach} {core slot : Nat} {w : Wg} (hw : m.wg? core slot = some w) (ht : w.tags = []) (off : Nat) (bs : List Byte) :
    m.deliver core slot off bs = (none, m.scratchWrite core slot off bs) := by
  have hlive (k : Nat) : w.live k = false := by rw [Wg.live, ht]; rfl
  have hnone : (upFrom 0 bs.length).find? (fun _ => false) = none := List.find?_eq_none.2 fun _ _ => Bool.false_ne_true
  have hsame : bs.mapIdx (fun _ b => b) = bs := List.mapIdx_eq_iff.2 fun i => (Option.map_id' ..).symm
  simp only [Mach.deliver, hw, hlive, Bool.false_eq_true, if_false, hnone, hsame, Option.map_none]

end Sys2Proof.Machine
end

section
/-! SUPPORT. What a copy command that moves a tile's bytes leaves (R290, R318). -/
namespace Sys2Proof.Machine

/-- A command with no barrier leaves the engine: its sources are ready, its destinations filled. -/
theorem Mach.endCopy_unbarred {m : Mach} {core : Nat} {c : Copy} (hb : c.bar = none) (clk : Clock) : m.endCopy clk core c none =
    c.fillTiles.foldl (fun m t => m.modWg core c.slot (fun w => w.setTile t (w.tile t).filled))
      (c.drainTiles.foldl (fun m t => m.drained core c.slot c.id t) (m.dropCopy core c.id)) := by
  rw [Mach.endCopy, hb]
  cases c.kind <;> rfl

section
variable {m : Mach} {core t : Nat} {w : Wg} {c : Copy} (hb : c.bar = none)
include hb

theorem Mach.endCopy_fills (hw : m.wg? core c.slot = some w) (hf : c.fillTiles = [t]) (hd : c.drainTiles = []) (clk : Clock) :
    m.endCopy clk core c none = (m.dropCopy core c.id).setWg core c.slot (w.setTile t (w.tile t).filled) := by
  rw [Mach.endCopy_unbarred hb, hf, hd]
  exact Mach.modWg_eq (m.dropCopy core c.id) _ hw
/-- The tile it has read out is ready again, as it was. -/
theorem Mach.endCopy_drains (hw : m.wg? core c.slot = some w) (hf : c.fillTiles = []) (hd : c.drainTiles = [t])
    (hj : (w.tile t).job = some (.command c.id)) (clk : Clock) :
    m.endCopy clk core c none = (m.dropCopy core c.id).setWg core c.slot (w.setTile t { (w.tile t) with state := .ready, job := none }) := by
  rw [Mach.endCopy_unbarred hb, hf, hd]
  refine (Mach.modWg_eq (m.dropCopy core c.id) _ hw).trans (congrArg _ (if_pos ?_))
  rw [Tile.isOf, hj]
  exact beq_self_eq_true _
end

theorem Mach.performCopy_fillTile {m : Mach} {core t : Nat} {w : Wg} {c : Copy} (hw : m.wg? core c.slot = some w) (ht : w.tags = []) {v : K64}
    (hk : c.kind = .fillTile t v) (clk : Clock) :
    m.performCopy clk core c w = some ((m.scratchWrite core c.slot (w.tile t).off (fillBytes v c.size)).endCopy clk core c none) := by
  have hreads : c.reads = [] := by rw [Copy.reads, hk]
  have hwrites : c.writes = [] := by rw [Copy.writes, hk]
  have htiles : c.drainTiles = [] := by rw [Copy.drainTiles, hk]
  have hdst : c.scratchDst w = some (w.tile t).off := by rw [Copy.scratchDst, hk]
  have hsource : m.copySource core w c = fillBytes v c.size := by rw [Mach.copySource, hk]
  have hdeliver := Mach.deliver_untagged hw ht (w.tile t).off (fillBytes v c.size)
  rw [Mach.performCopy, hreads, hwrites, htiles, hdst]
  dsimp only [Mach.bulkTrans, goodParts_nil, bulkPoison, List.findSome?_nil, List.find?_nil, Mach.bulkRead, List.isEmpty]
  rw [if_pos rfl, hsource, hdeliver]
section
variable {m : Mach} {core t : Nat} {w : Wg} {c : Copy} (h : m.Unbuffered core c.slot w)
include h

theorem Mach.performCopy_g2t (ht : w.tags = []) {a : Addr} {pa : Nat} (hk : c.kind = .g2t t a) (h0 : 0 < c.size)
    (hp : m.PageAt core .read a.toNat c.size pa) (clk : Clock) : ∃ x, m.performCopy clk core c w =
      some ((Mach.scratchWrite { m with access := x } core c.slot (w.tile t).off (Memory.readN m.mem pa c.size)).endCopy clk core c none) := by
  obtain ⟨x, hx⟩ := Mach.bulkRead_page h.l1 a.toNat c.size pa
  have hreads : c.reads = spansOf a.toNat c.size := by rw [Copy.reads, hk]
  have hwrites : c.writes = [] := by rw [Copy.writes, hk]
  have htiles : c.drainTiles = [] := by rw [Copy.drainTiles, hk]
  have hdst : c.scratchDst w = some (w.tile t).off := by rw [Copy.scratchDst, hk]
  have hdeliver := Mach.deliver_untagged (m := { m with access := x }) h.wg ht (w.tile t).off (Memory.readN m.mem pa c.size)
  refine ⟨x, ?_⟩
  rw [Mach.performCopy, hreads, hwrites, htiles, hdst, hp.bulkTrans h0]
  dsimp only [Mach.bulkTrans]
  rw [goodParts_page, bulkPoison_page hp.clean]
  dsimp only [goodParts_nil]
  rw [hx, spansOf_one h0 hp.fits]
  dsimp only [List.isEmpty]
  rw [if_neg Bool.false_ne_true, hdeliver]
  rfl
theorem Mach.performCopy_t2g {a : Addr} {pa : Nat} (hk : c.kind = .t2g a t) (h0 : 0 < c.size) (hp : m.PageAt core .write a.toNat c.size pa)
    (hbd : c.bd = none) (hm : m.Unarmed) (hs : (m.core core).poison = []) (clk : Clock) : ∃ x y, m.performCopy clk core c w =
      some (Mach.endCopy { m with mem := Memory.writeL m.mem pa (m.scratchRead core c.slot (w.tile t).off c.size), access := x, poison := y }
        clk core c none) := by
  obtain ⟨x, y, hxy⟩ := Mach.bulkWrite_page h.l1 hp.listed hm a.toNat pa (Mach.length_scratchRead h.wg (w.tile t).off c.size)
  have hreads : c.reads = [] := by rw [Copy.reads, hk]
  have hwrites : c.writes = spansOf a.toNat c.size := by rw [Copy.writes, hk]
  have htiles : c.drainTiles = [t] := by rw [Copy.drainTiles, hk]
  have hdst : c.scratchDst w = none := by rw [Copy.scratchDst, hk]
  have hsource : m.copySource core w c = m.scratchRead core c.slot (w.tile t).off c.size := by rw [Mach.copySource, hk]
  have hlen := Mach.length_scratchRead h.wg (w.tile t).off c.size
  have htake : (m.scratchRead core c.slot (w.tile t).off c.size).take (fwPart a.toNat c.size pa 0).n =
      m.scratchRead core c.slot (w.tile t).off c.size := List.take_of_length_le hlen.le
  have hclean (off n : Nat) : m.scratchPoison core c.slot off n = none := by rw [Mach.scratchPoison, h.wg, hs]; rfl
  refine ⟨x, y, ?_⟩
  rw [Mach.performCopy, hreads, hwrites, htiles, hdst]
  dsimp only [Mach.bulkTrans]
  rw [hp.bulkTrans h0]
  dsimp only [goodParts_nil, goodParts_page, bulkPoison, List.findSome?_nil, List.find?_nil, Mach.bulkRead, List.isEmpty]
  rw [List.findSome?_cons, hclean, if_pos rfl, hsource, hbd, List.foldl_cons, List.foldl_nil, if_neg (by rw [hlen]; exact Nat.lt_irrefl _)]
  dsimp only [List.nil_append, Option.map_none, writeChecked]
  rw [htake, hxy]
  rfl
end

end Sys2Proof.Machine
end

section
/-! SUPPORT. The copy engine's events (R290, R318 to R320, R438), each at the command it finds. -/
namespace Sys2Proof.Claims
open Sys2Proof.Machine

/-! ## The start of a command (R290, R318) -/

theorem start_other {s : State} {core n : Nat} {c : Copy} (hnext : s.m.nextCopy core = some c) (hn : c.id ≠ n) :
    execCopyCommandStart core n s = .fault .notEnabled := by
  refine State.event_fault _ _ ?_
  rw [hnext]
  cases hw : s.m.wg? core c.slot with
  | none => simp [hw]
  | some w => simp [hw, hn]
/-- The command's one tile is its destination, which fills, or its source, which drains. -/
def OneTile (c : Copy) (t : Nat) (st : TileState) : Prop :=
  (c.fillTiles = [t] ∧ c.drainTiles = [] ∧ st = .filling) ∨ (c.fillTiles = [] ∧ c.drainTiles = [t] ∧ st = .draining)
section
variable {s : State} {core t : Nat} {w : Wg} {c : Copy} (hw : s.m.wg? core c.slot = some w) (hnext : s.m.nextCopy core = some c)
  (hj : (w.tile t).job = some (.command c.id))
include hw hj

/-- The command's tile changes state. -/
theorem startTiles_eq {st : TileState} (h : OneTile c t st) (f : Copy → Copy) : (s.m.modCopy core c.id f).startTiles core c =
    (s.m.modCopy core c.id f).setWg core c.slot (w.setTile t { (w.tile t) with state := st }) := by
  have hone (st : TileState) : (s.m.modCopy core c.id f).modWg core c.slot (fun w =>
      if (w.tile t).isOf c.id then w.setTile t { (w.tile t) with state := st } else w) =
      (s.m.modCopy core c.id f).setWg core c.slot (w.setTile t { (w.tile t) with state := st }) := by
    refine (Mach.modWg_eq (s.m.modCopy core c.id f) _ hw).trans (congrArg _ (if_pos ?_))
    rw [Tile.isOf, hj]
    exact beq_self_eq_true _
  rcases h with ⟨hf, hd, rfl⟩ | ⟨hf, hd, rfl⟩
  · rw [Mach.startTiles, hf, hd]
    exact hone .filling
  · rw [Mach.startTiles, hf, hd]
    exact hone .draining
include hnext
theorem start_tile {st : TileState}
    (hk : (st = .filling ∧ ((∃ v, c.kind = .fillTile t v) ∨ ∃ a, c.kind = .g2t t a)) ∨ (st = .draining ∧ ∃ a, c.kind = .t2g a t)) :
    execCopyCommandStart core c.id s = .next (withM s ((s.m.modCopy core c.id (fun c => { c with started := true })).setWg core c.slot
      (w.setTile t { (w.tile t) with state := st }))) := by
  have hstart (h : OneTile c t st) := congrArg some (startTiles_eq hw hj h (fun c => { c with started := true }))
  refine State.event_next _ _ ?_
  rw [hnext]
  rcases hk with ⟨rfl, ⟨v, hk⟩ | ⟨a, hk⟩⟩ | ⟨rfl, a, hk⟩
  · refine Eq.trans ?_ (hstart (.inl ⟨by rw [Copy.fillTiles, hk], by rw [Copy.drainTiles, hk], rfl⟩))
    simp only [hw, hk, Option.bind_eq_bind, Option.bind_some, ne_eq, not_true_eq_false, if_false]
  · refine Eq.trans ?_ (hstart (.inl ⟨by rw [Copy.fillTiles, hk], by rw [Copy.drainTiles, hk], rfl⟩))
    simp only [hw, hk, Option.bind_eq_bind, Option.bind_some, ne_eq, not_true_eq_false, if_false]
  · refine Eq.trans ?_ (hstart (.inr ⟨by rw [Copy.fillTiles, hk], by rw [Copy.drainTiles, hk], rfl⟩))
    simp only [hw, hk, Option.bind_eq_bind, Option.bind_some, ne_eq, not_true_eq_false, if_false]
end

/-! ## Its end -/

theorem dropCopy_core (m : Mach) (core id : Nat) :
    (m.dropCopy core id).core core = { m.core core with copies := (m.core core).copies.filter (·.id ≠ id) } := Mach.setCore_core ..
/-- What a command that ends leaves: a tile standing as `y`, memory, the core's scratchpad, and the engine without it. -/
structure CopyLeft (s : State) (core id slot : Nat) (w : Wg) (t : Nat) (y : Tile) (mem : List Host.Cell) (sp : Sparse Byte) (m : Mach) : Prop
    extends TileLeft s core slot w t y mem sp m where
  copies : (m.core core).copies = (s.m.core core).copies.filter (·.id ≠ id)
theorem dropped_left (s : State) (core id slot : Nat) (w : Wg) (t : Nat) (y : Tile) (mem : List Host.Cell) (a : Sparse Nat) (b : List Nat) :
    CopyLeft s core id slot w t y mem (s.m.core core).scratch
      ((Mach.dropCopy { s.m with mem := mem, access := a, poison := b } core id).setWg core slot (w.setTile t y)) :=
  ⟨⟨rfl, rfl, rfl, rfl, (congrArg Core.scratch (dropCopy_core ..)).trans rfl⟩, (congrArg Core.copies (dropCopy_core ..)).trans rfl⟩
theorem filledDropped_left (s : State) (core id slot : Nat) (w : Wg) (t : Nat) (x y : Tile) (bs : List Byte) (a : Sparse Nat) :
    CopyLeft s core id slot w t y s.m.mem (tileGets s core w x bs)
      ((Mach.dropCopy (Mach.setCore { s.m with access := a } core ((s.m.core core).putScratch (w.scratchAt x.off) bs)) core id).setWg core slot
        (w.setTile t y)) := by
  have hcore : (Mach.setCore { s.m with access := a } core ((s.m.core core).putScratch (w.scratchAt x.off) bs)).core core =
      (s.m.core core).putScratch (w.scratchAt x.off) bs := Mach.setCore_core ..
  refine ⟨⟨rfl, rfl, rfl, rfl, (congrArg Core.scratch (dropCopy_core ..)).trans ?_⟩, (congrArg Core.copies (dropCopy_core ..)).trans ?_⟩
  · exact congrArg Core.scratch hcore
  · exact congrArg (fun k : Core => k.copies.filter (·.id ≠ id)) hcore

section
variable {s : State} {core t : Nat} {w : Wg} {c : Copy} (hw : s.m.wg? core c.slot = some w) (hb : c.bar = none)
include hw hb

theorem endCopy_fills_left (hf : c.fillTiles = [t]) (hd : c.drainTiles = []) (bs : List Byte) (a : Sparse Nat) :
    CopyLeft s core c.id c.slot w t (ended (w.tile t)) s.m.mem (tileGets s core w (w.tile t) bs)
      ((Mach.scratchWrite { s.m with access := a } core c.slot (w.tile t).off bs).endCopy s.clk core c none) := by
  rw [Mach.scratchWrite_eq (m := { s.m with access := a }) hw,
    Mach.endCopy_fills (m := Mach.setCore { s.m with access := a } core _) hb hw hf hd]
  exact filledDropped_left s core c.id c.slot w t (w.tile t) (ended (w.tile t)) bs a
theorem endCopy_drains_left (hf : c.fillTiles = []) (hd : c.drainTiles = [t]) (hj : (w.tile t).job = some (.command c.id)) (mem : List Host.Cell)
    (a : Sparse Nat) (b : List Nat) : CopyLeft s core c.id c.slot w t { (w.tile t) with state := .ready, job := none } mem (s.m.core core).scratch
      (Mach.endCopy { s.m with mem := mem, access := a, poison := b } s.clk core c none) := by
  rw [Mach.endCopy_drains (m := { s.m with mem := mem, access := a, poison := b }) hb hw hf hd hj]
  exact dropped_left s core c.id c.slot w t _ mem a b
end

section
variable {s : State} {core t : Nat} {w : Wg} {c : Copy} (hpl : Plain s core c.slot w) (hc : s.m.copy? core c.id = some c)
  (hwait : c.waitFault = none) (hb : c.bar = none)
include hpl hc hwait

theorem complete_performs (hs : c.started = true) (hk : (∃ a, c.kind = .g2t t a) ∨ (∃ v, c.kind = .fillTile t v) ∨ ∃ a, c.kind = .t2g a t)
    {m : Mach} (h : s.m.performCopy s.clk core c w = some m) : execCopyCommandComplete core c.id s = .next (withM s m) := by
  obtain ⟨hw, -⟩ := hpl
  refine State.event_next _ _ ?_
  rcases hk with ⟨a, hk⟩ | ⟨v, hk⟩ | ⟨a, hk⟩ <;>
    simp only [hc, hw, hs, hwait, hk, h, Option.bind_eq_bind, Option.bind_some, Bool.not_true, Option.isSome_none, Bool.or_self,
      Bool.false_eq_true, if_false]
include hb
theorem complete_g2t (hs : c.started = true) {a : Addr} {pa : Nat} (hk : c.kind = .g2t t a)
    (ha : EngineAt s core .read a.toNat c.size pa) : ∃ m, execCopyCommandComplete core c.id s = .next (withM s m) ∧
      CopyLeft s core c.id c.slot w t (ended (w.tile t)) s.m.mem (tileGets s core w (w.tile t) (Memory.readN s.m.mem pa c.size)) m := by
  obtain ⟨hw, htags, -⟩ := id hpl
  obtain ⟨x, hperf⟩ := Mach.performCopy_g2t (hpl.unbuffered ha.l1) htags hk ha.pos ha.page s.clk
  exact ⟨_, complete_performs hpl hc hwait hs (.inl ⟨a, hk⟩) hperf,
    endCopy_fills_left hw hb (by rw [Copy.fillTiles, hk]) (by rw [Copy.drainTiles, hk]) _ x⟩
theorem complete_fillTile (hs : c.started = true) {v : K64} (hk : c.kind = .fillTile t v) :
    ∃ m, execCopyCommandComplete core c.id s = .next (withM s m) ∧
      CopyLeft s core c.id c.slot w t (ended (w.tile t)) s.m.mem (tileGets s core w (w.tile t) (fillBytes v c.size)) m := by
  obtain ⟨hw, htags, -⟩ := id hpl
  have hperf := Mach.performCopy_fillTile hw htags hk s.clk
  exact ⟨_, complete_performs hpl hc hwait hs (.inr (.inl ⟨v, hk⟩)) hperf,
    endCopy_fills_left hw hb (by rw [Copy.fillTiles, hk]) (by rw [Copy.drainTiles, hk]) _ s.m.access⟩
theorem complete_t2g (hs : c.started = true) (hbd : c.bd = none) {a : Addr} {pa : Nat} (hk : c.kind = .t2g a t) (hsize : c.size = (w.tile t).size * 128)
    (hj : (w.tile t).job = some (.command c.id)) (ha : EngineAt s core .write a.toNat c.size pa) (hp : (s.m.core core).poison = []) (hm : NoMonitor s) :
    ∃ m, execCopyCommandComplete core c.id s = .next (withM s m) ∧
      CopyLeft s core c.id c.slot w t { (w.tile t) with state := .ready, job := none } (Memory.writeL s.m.mem pa (tileBytes s core c.slot (w.tile t)))
        (s.m.core core).scratch m := by
  obtain ⟨hw, -⟩ := id hpl
  obtain ⟨x, y, hperf⟩ := Mach.performCopy_t2g (hpl.unbuffered ha.l1) hk ha.pos ha.page hbd hm hp s.clk
  rw [hsize] at hperf
  exact ⟨_, complete_performs hpl hc hwait hs (.inr (.inr ⟨a, hk⟩)) hperf,
    endCopy_drains_left hw hb (by rw [Copy.fillTiles, hk]) (by rw [Copy.drainTiles, hk]) hj _ x y⟩
end

/-! ## A target's registers (R320) -/

theorem targetWrite_registers {s : State} {core r g warp reg k : Nat} {w y : Wg} {c : Copy} (hw : s.m.wg? core c.slot = some w)
    (hc : s.m.copy? core c.id = some c) (hk : c.kind = .t2tReg r g warp reg) (hs : c.started = true) (hd : c.done = []) (hb : c.bar = none)
    (hbad : c.bad = none) (hg : s.m.groupEnded w.vf w.launch g = false)
    (hy : s.m.wgs.find? (fun e => e.2.vf == w.vf && e.2.launch == w.launch && e.2.g == g && e.2.isGroup) = some (k, y)) :
    execT2tTargetWrite core c.id g s =
      .next (withM s ((s.m.modCopy core c.id (fun c => { c with done := c.done ++ [g] })).setWg (k / 64) (k % 64) (writeRegs y warp reg c.data))) := by
  have htargets : c.targets = [g] := by rw [Copy.targets, hk]
  have hgroup : (s.m.modCopy core c.id (fun c => { c with done := c.done ++ [g] })).groupEnded w.vf w.launch g = false := hg
  have hfind : (s.m.modCopy core c.id (fun c => { c with done := c.done ++ [g] })).wgs = s.m.wgs := rfl
  refine State.event_next _ _ ?_
  simp only [hc, hw, hs, hd, htargets, hgroup, hfind, hy, hk, hb, hbad, Option.bind_eq_bind, Option.bind_some, Bool.not_true, List.contains_cons,
    List.contains_nil, beq_self_eq_true, Bool.or_false, Bool.false_eq_true, if_false]

/-! ## The words an engine stores (R319, R438) -/

section
variable {s : State} {core pa : Nat} {w : Wg} {c : Copy} (hpl : Plain s core c.slot w) (hc : s.m.copy? core c.id = some c) (hwait : c.waitFault = none)
  {a : Addr}
include hpl hc

theorem stamp_waits {v : K64} {mask : Nat} {sys : Bool} (hk : c.kind = .stamp a v mask sys)
    (h : ∃ x ∈ (s.m.core core).copies, x.slot = c.slot ∧ x.seq < c.seq ∧ mask.testBit x.tag = true) :
    execCpStampStore core c.id s = .fault .notEnabled := by
  obtain ⟨hw, -⟩ := hpl
  obtain ⟨x, hx, hslot, hseq, hmask⟩ := h
  have hbefore : ((s.m.core core).copies.filter (fun x => x.slot == c.slot && decide (x.seq < c.seq))).any
      (fun x => x.kind.isStamp || mask.testBit x.tag) = true :=
    List.any_eq_true.2 ⟨x, List.mem_filter.2 ⟨hx, by simp [hslot, hseq]⟩, by simp [hmask]⟩
  refine State.event_fault _ _ ?_
  simp only [hc, hw, hk, hbefore, Option.bind_eq_bind, Option.bind_some, Bool.or_true, if_true]
variable (ha : EngineAt s core .write a.toNat 8 pa) (hm : NoMonitor s)
include hwait ha hm

theorem stamp_stored {v : K64} {mask : Nat} {sys : Bool} (hk : c.kind = .stamp a v mask sys)
    (h : ∀ x ∈ (s.m.core core).copies, x.slot = c.slot → x.seq < c.seq → x.kind.isStamp = false ∧ mask.testBit x.tag = false) :
    ∃ b d, execCpStampStore core c.id s = .next (withM s (Mach.dropCopy { s.m with
      mem := Memory.writeL s.m.mem pa (leBytes 8 (if c.failed then v.toNat ||| 2 ^ 63 else v.toNat)), access := b, poison := d } core c.id)) := by
  obtain ⟨hw, -⟩ := hpl
  obtain ⟨b, d, hstore⟩ := Mach.storeWord_page ha.l1 ha.page hm w.vf (if c.failed then v.toNat ||| 2 ^ 63 else v.toNat)
  have hbefore : ((s.m.core core).copies.filter (fun x => x.slot == c.slot && decide (x.seq < c.seq))).any
      (fun x => x.kind.isStamp || mask.testBit x.tag) = false := by
    refine List.any_eq_false.2 fun x hx => ?_
    obtain ⟨hx, hb⟩ := List.mem_filter.1 hx
    rw [Bool.and_eq_true, beq_iff_eq, decide_eq_true_eq] at hb
    obtain ⟨hstamp, hmask⟩ := h x hx hb.1 hb.2
    simp [hstamp, hmask]
  refine ⟨b, d, State.event_next _ _ ?_⟩
  simp only [hc, hw, hk, hbefore, hwait, hstore, Option.bind_eq_bind, Option.bind_some, Option.isSome_none, Bool.or_self, Bool.false_eq_true, if_false]
/-- The status word of a send: its status, the zone's slot and the port it left by. -/
theorem status_stored {name i t p st : Nat} {any : Bool} (hk : c.kind = .lzSend name i t a p any) (hs : c.started = true) (hb : c.bar = none)
    (hd : c.done = [st]) (hst : st ≠ 1) (hj : (w.tile t).job = some (.command c.id)) :
    ∃ m, execLzStatusStore core c.id st s = .next (withM s m) ∧
      CopyLeft s core c.id c.slot w t { (w.tile t) with state := .ready, job := none }
        (Memory.writeL s.m.mem pa (leBytes 8 (st + 2 ^ 8 * i + 2 ^ 16 * c.port))) (s.m.core core).scratch m := by
  obtain ⟨hw, -⟩ := hpl
  obtain ⟨b, d, hstore⟩ := Mach.storeWord_page ha.l1 ha.page hm w.vf (st + 2 ^ 8 * i + 2 ^ 16 * c.port)
  have hpack : pack [(8, st), (6, i), (2, 0), (8, c.port)] = st + 2 ^ 8 * i + 2 ^ 16 * c.port := by
    simp only [pack]
    ring
  have hexec : execLzStatusStore core c.id st s = .next (withM s (Mach.endCopy { s.m with
      mem := Memory.writeL s.m.mem pa (leBytes 8 (st + 2 ^ 8 * i + 2 ^ 16 * c.port)), access := b, poison := d } s.clk core c none)) := by
    refine State.event_next _ _ ?_
    simp only [lzStatus, hc, hw, hk, hs, hwait, hd, hpack, hstore, Option.bind_eq_bind, Option.bind_some, Option.isSome_none, Bool.not_true, Bool.or_self,
      beq_self_eq_true, Bool.true_or, Bool.false_eq_true, if_false, if_neg hst]
  exact ⟨_, hexec, endCopy_drains_left hw hb (by rw [Copy.fillTiles, hk]) (by rw [Copy.drainTiles, hk]) hj _ b d⟩
end

end Sys2Proof.Claims
end

section
open Sys2Proof Sys2Proof.Machine Sys2Proof.Claims

/-- Each clause in the order of the statement: the start, the three kinds of copy, a target's registers, a stamp, a status word. -/
theorem copyEngineEvents : CopyEvents := by
  rintro core id s c w hpl rfl
  obtain ⟨hw, -⟩ := id hpl
  refine ⟨fun hnext => ⟨fun t st hk hj => start_tile hw hnext hj hk, fun n hn => start_other hnext hn.symm⟩, fun hc hwait =>
    ⟨fun hs hb hbd => ⟨?_, ?_, ?_⟩, fun r g warp reg k y hk hs hd hb hbad hg hy => targetWrite_registers hw hc hk hs hd hb hbad hg hy, ?_, ?_⟩⟩
  · intro t a pa hk x hsize ha
    obtain ⟨m, hexec, hleft⟩ := complete_g2t hpl hc hwait hb hs hk ha
    exact ⟨_, hexec, ⟨rfl, rfl, hleft.host, hleft.fns⟩, hleft.mem, hleft.wgs, hleft.scratch, hleft.copies⟩
  · intro t v hk x hsize
    obtain ⟨m, hexec, hleft⟩ := complete_fillTile hpl hc hwait hb hs hk
    exact ⟨_, hexec, ⟨rfl, rfl, hleft.host, hleft.fns⟩, hleft.mem, hleft.wgs, hleft.scratch⟩
  · intro t a pa hk x hsize hj ha hp hm
    obtain ⟨m, hexec, hleft⟩ := complete_t2g hpl hc hwait hb hs hbd hk hsize hj ha hp hm
    exact ⟨_, hexec, ⟨rfl, rfl, hleft.host, hleft.fns⟩, hleft.wgs, hleft.mem, hleft.copies⟩
  · intro a v mask sys pa hk ha hm earlier
    refine ⟨fun h => ?_, fun ⟨x, ⟨hx, hslot, hseq⟩, hmask⟩ => stamp_waits hpl hc hk ⟨x, hx, hslot, hseq, hmask⟩⟩
    obtain ⟨b, d, hexec⟩ := stamp_stored hpl hc hwait ha hm hk fun x hx hslot hseq => h x ⟨hx, hslot, hseq⟩
    exact ⟨_, hexec, ⟨rfl, rfl, rfl, rfl⟩, rfl, rfl, (congrArg Core.copies (dropCopy_core ..)).trans rfl⟩
  · intro name i t a p any pa st hk hs hb hd hst _ _ _ ha hm x hj
    obtain ⟨m, hexec, hleft⟩ := status_stored hpl hc hwait ha hm hk hs hb hd hst hj
    exact ⟨_, hexec, ⟨rfl, rfl, hleft.host, hleft.fns⟩, hleft.mem, hleft.wgs⟩

/-- Settles O38. Choices of the model it rests on: a store is performed at once (log 5), a copy's bytes move at its completion (log 19), the rights
on a version word (log 67). -/
theorem engineEvents : Obligations.EngineEvents := ⟨tileEngineEvents, copyEngineEvents⟩
end

section
/-! SUPPORT. The clock (R421): no meaning but a device reset sets it back, and the passing of cycles only moves it on. -/
namespace Sys2Proof.Machine

/-! ## Meanings leave the clock -/

theorem State.next_clk {s t : State} {m : Mach} (h : (Host.Outcome.next { s with m } : Host.Outcome State Fault Refusal) = .next t) :
    t.clk = s.clk := (congrArg State.clk (Host.Outcome.next.inj h)).symm
theorem State.reg_clk {s t : State} {op : RegOp} (h : s.reg op = .next t) : t.clk = s.clk := (State.group_clk h).1
theorem State.mem_clk {s t : State} {f : MemRun → Mach} (h : s.mem f = .next t) : t.clk = s.clk := (State.group_clk h).1
theorem State.epi_clk {s t : State} {f : Clock → Mach → Nat → Wg → Drain → EpiRes} (h : s.epi f = .next t) : t.clk = s.clk :=
  (State.event_clk h).1
theorem State.epi1_clk {s t : State} {d a : Nat} {f : Nat → Nat × BitVec 5} (h : s.epi1 d a f = .next t) : t.clk = s.clk := State.epi_clk h
theorem State.epi2_clk {s t : State} {d a b : Nat} {f : Nat → Nat → Nat × BitVec 5} (h : s.epi2 d a b f = .next t) : t.clk = s.clk :=
  State.epi_clk h
theorem State.epi3_clk {s t : State} {d a b c : Nat} {f : Nat → Nat → Nat → Nat × BitVec 5} (h : s.epi3 d a b c f = .next t) :
    t.clk = s.clk := State.epi_clk h
/-- A candidate for the next step that leaves the clock where it is. -/
def KeepsClock (f : Try) : Prop := ∀ s t, f s = .next t → t.clk = s.clk
/-- Of all meanings only a peer's reading of the time and a device reset move the clock. -/
theorem exec_keepsClock {i : Instr} (hsync : ∀ dev r, i ≠ .timeSync dev r) (hreset : i ≠ .deviceReset) : KeepsClock (exec i) := by
  intro s t h
  unfold exec at h
  cases i with
  | timeSync dev r => exact absurd rfl (hsync dev r)
  | deviceReset => exact absurd rfl hreset
  | flitReceive | remoteAccessRequest | gangDigest | lzReservationArrive | lzAbortArrive | lzPayloadFlit | channelFlitArrive
  | channelCreditReturn | cqtailDoorbell | cpheadWrite | registerWrite | deviceAttestation | fusedMinimumRaise | graphRun | formatRecordLoad
  | channelCreate | channelReopen | channelDestroy | keyEnrol | keyRemove | slotAttestation | readCounters | invalidate | translate
  | setEntries | setWeight | setFrames | setQueues | joinDomain | preEmpt | assign | reset | setRoute | setLimit | setIdle =>
    exact State.next_clk h
  | eLd | eSt | eBias | eCvt | eBound =>
    exact State.epi_clk h
  | eAbs | eExp2 | eRcp | eRsq | eTanh | eScale =>
    exact State.epi1_clk h
  | eAdd | eSub | eMul | eMax | eMin | eCmp =>
    exact State.epi2_clk h
  | eFma | eSel =>
    exact State.epi3_clk h
  | eEnd | streakRescue | sleepWake | loadReturn | regroupRebuildDone | trotComplete | tileFillComplete | tileDrainComplete
  | versionWordRetry | copyCommandStart | copyCommandComplete | t2tTargetWrite | cpStampStore | monitorWake | monitorTimeout | mbLoadRun
  | mbFreeEffect | passStart | passComplete | macroIdlePowerOff | tokenBurstEnd | tokenHoldTimeout | tokenArrive | drainStart
  | drainComplete | epiStoreWrite | l1WritebackTimeout | storeBufferAgeOverflow | blockedSendProceed | blockedRecvProceed | channelRefill
  | stalemateScan | faultQueueRetry | faultService | faultReplay | fetchFaultSwapOut | preemptPriorityTimeout | workgroupResume
  | globalDispatch | digestMismatchRetry | launchComplete | launchPlaceRetry | gwLaunchNode | gwConditionalNode | gwWhileNode | gwJoinNode
  | gwWaitStampNode | gwSignalHostNode | gwEndNode | loaderRequest | formatInstall | coreFunctionChange | serialPhaseApply | coreFence
  | migrationWindow | migSettle | invalidationBroadcast | invalidationComplete | powerSample | portDown | portUp | gangDeadline | gangStart
  | lzStatusStore | translateDelayedComplete | healthTestComplete | lzReservationReply => exact (State.event_clk h).1
  | add | sub | mul | mulhi | mad | div | rem | abs | min | max | and | or | xor | andn | shl | shr | sar | rotl | clz | popc | brev | bfx |
  bfi | sel | cmp | mov | movi | fadd | fsub | fmul | ffma | fmin | fmax | fdiv | frcp | frsq | fsqrt | fexp2 | flog2 | fsin | fcos | fcmp |
  fclass | fclassAny | cvt | fscale | fscaleStored | shfl | voteAny | voteAll | voteBallot | voteEq | redux | matchLanes | kadd | ksub |
  kmul | kand | kor | kxor | kshl | kshr | ksar | kmin | kmax | kcmp | ksel | kmov | kmovi | kbfx | kpopc | kclz | kbcast | kpick | amov |
  aset | aget | agetHi | aadd | aaddv | acmp | adiff | aalignDn | aalignUp => exact State.reg_clk h
  | ld | st | ldw | stw | ldk | stk | lda | sta | pf | atom | atomcas | atomf | atomord | red => exact State.mem_clk h
  | _ => exact (State.group_clk h).1
/-- A command's meaning answers a next state with the clock as it was, whatever its bytes say. -/
theorem runCmd_next (ring : Nat) (b : List Byte) (s : State) : ∃ m, runCmd ring b s = .next { s with m } := by
  dsimp only [runCmd]
  split
  · exact ⟨_, rfl⟩
  · split
    case h_19 =>
      split
      · exact ⟨_, rfl⟩
      · split <;> exact ⟨_, rfl⟩
    all_goals exact ⟨_, rfl⟩
theorem ringCommand_keepsClock (ring : Nat) : KeepsClock (ringCommand ring) := by
  intro s t h
  dsimp only [ringCommand] at h
  split at h
  case h_1 => cases h
  case h_2 b rest _ =>
    split at h
    · obtain ⟨m, hm⟩ := runCmd_next ring b { s with m := s.m.setFn ring { s.m.fn ring with cmds := rest } }
      rw [hm] at h
      cases h
      rfl
    · cases h

/-! ## The candidates for the next step -/

/-- Every candidate of the list leaves the clock. -/
def AllKeepClock (fs : List Try) : Prop := ∀ f ∈ fs, KeepsClock f
@[simp] theorem allKeepClock_nil : AllKeepClock [] := nofun
@[simp] theorem allKeepClock_cons (f : Try) (fs : List Try) : AllKeepClock (f :: fs) ↔ KeepsClock f ∧ AllKeepClock fs := List.forall_mem_cons
@[simp] theorem allKeepClock_append (fs gs : List Try) : AllKeepClock (fs ++ gs) ↔ AllKeepClock fs ∧ AllKeepClock gs := List.forall_mem_append
@[simp] theorem allKeepClock_map {α : Type} (l : List α) (g : α → Try) : AllKeepClock (l.map g) ↔ ∀ x ∈ l, KeepsClock (g x) := List.forall_mem_map
@[simp] theorem allKeepClock_flatMap {α : Type} (l : List α) (g : α → List Try) :
    AllKeepClock (l.flatMap g) ↔ ∀ x ∈ l, AllKeepClock (g x) := List.forall_mem_flatMap
theorem firstEnabled_clk {s t : State} {fs : List Try} (hfs : AllKeepClock fs) (h : firstEnabled s fs = some t) : t.clk = s.clk := by
  induction fs with
  | nil => cases h
  | cons f fs ih =>
    obtain ⟨hf, hfs⟩ := (allKeepClock_cons f fs).1 hfs
    unfold firstEnabled at h
    split at h
    case h_1 t' ht =>
      cases h
      exact hf s t ht
    case h_2 => exact ih hfs h
@[simp] theorem allKeepClock_ite (p : Prop) [Decidable p] (fs gs : List Try) :
    AllKeepClock (if p then fs else gs) ↔ (p → AllKeepClock fs) ∧ (¬ p → AllKeepClock gs) := by
  split <;> simp [*]
theorem threadEvents_keepClock (m : Mach) : AllKeepClock (threadEvents m) := by
  simp only [threadEvents, allKeepClock_append, allKeepClock_map, allKeepClock_flatMap]
  refine ⟨fun e _ p _ => ?_, fun e _ => ⟨fun t _ => ?_, fun r _ => ?_⟩⟩
  case refine_2 => split <;> simp only [allKeepClock_cons, allKeepClock_nil, and_true] <;> and_intros <;> exact fun _ _ h => (State.event_clk h).1
  all_goals exact fun _ _ h => (State.event_clk h).1
theorem tileEvents_keepClock (m : Mach) : AllKeepClock (tileEvents m) := by
  simp only [tileEvents, allKeepClock_flatMap]
  intro e _ t _
  split <;> simp only [allKeepClock_cons, allKeepClock_nil, and_true] <;> and_intros <;> exact fun _ _ h => (State.event_clk h).1
theorem chanEvents_keepClock (m : Mach) : AllKeepClock (chanEvents m) := by
  simp only [chanEvents, allKeepClock_flatMap, allKeepClock_cons, allKeepClock_nil, and_true]
  intro f _ c _
  and_intros <;> exact fun _ _ h => (State.event_clk h).1
theorem replayEvents_keepClock (m : Mach) : AllKeepClock (replayEvents m) := by
  simp only [replayEvents, allKeepClock_flatMap, allKeepClock_map]
  intro e _ r _
  exact fun _ _ h => (State.event_clk h).1
theorem copyEvents_keepClock (m : Mach) : AllKeepClock (copyEvents m) := by
  simp only [copyEvents, allKeepClock_flatMap, allKeepClock_append]
  intro e _
  and_intros
  · split <;> simp only [allKeepClock_cons, allKeepClock_nil, and_true]
    exact fun _ _ h => (State.event_clk h).1
  · intro c _
    split <;> simp only [allKeepClock_append, allKeepClock_map, allKeepClock_cons, allKeepClock_nil, and_true]
    case h_2 => exact fun _ _ _ _ h => (State.event_clk h).1
    all_goals and_intros
    all_goals intros
    all_goals exact fun _ _ h => (State.event_clk h).1
theorem matrixEvents_keepClock (m : Mach) : AllKeepClock (matrixEvents m) := by
  simp only [matrixEvents, allKeepClock_append, allKeepClock_flatMap, allKeepClock_map, allKeepClock_ite, allKeepClock_cons, allKeepClock_nil, and_true]
  refine ⟨⟨fun e _ => ⟨⟨fun _ => trivial, fun _ k _ => ?_⟩, fun x _ => ?_⟩, fun r _ t _ => ?_⟩, fun d _ => ?_⟩
  all_goals and_intros <;> exact fun _ _ h => (State.event_clk h).1
theorem drainEvents_keepClock (m : Mach) : AllKeepClock (drainEvents m) := by
  simp only [drainEvents, allKeepClock_append, allKeepClock_flatMap, allKeepClock_map, allKeepClock_ite, allKeepClock_cons, allKeepClock_nil, and_true]
  refine fun e _ => ⟨⟨fun _ => trivial, fun _ => ?_⟩, fun p _ => ?_⟩
  all_goals and_intros <;> exact fun _ _ h => (State.event_clk h).1
theorem memoryEvents_keepClock (clk : Clock) (m : Mach) : AllKeepClock (memoryEvents clk m) := by
  simp only [memoryEvents, allKeepClock_append, allKeepClock_flatMap, allKeepClock_map]
  refine ⟨⟨fun e _ => ⟨fun l _ => ?_, fun p _ => ?_⟩, fun e _ => ?_⟩, fun f _ l _ => ?_⟩
  all_goals exact fun _ _ h => (State.event_clk h).1
theorem hardwareEvents_keepClock (clk : Clock) (m : Mach) : AllKeepClock (m.hardwareEvents clk) := by
  simp only [Mach.hardwareEvents, allKeepClock_append, threadEvents_keepClock, replayEvents_keepClock, chanEvents_keepClock, tileEvents_keepClock,
    drainEvents_keepClock, copyEvents_keepClock, matrixEvents_keepClock, memoryEvents_keepClock, and_true]

theorem resumeEvents_keepClock (m : Mach) (fns : List (Nat × Fn)) (least : Nat → Nat) : AllKeepClock (resumeEvents m fns least) := by
  simp only [resumeEvents, allKeepClock_flatMap, allKeepClock_ite, allKeepClock_nil]
  refine fun f _ => ⟨fun _ => trivial, fun _ => ?_⟩
  split
  · exact allKeepClock_nil
  · split
    · exact (allKeepClock_cons _ _).2 ⟨fun _ _ h => (State.event_clk h).1, allKeepClock_nil⟩
    · exact allKeepClock_nil
theorem placeEvents_keepClock (m : Mach) (fns : List (Nat × Fn)) : AllKeepClock (placeEvents m fns) := by
  simp only [placeEvents, allKeepClock_append, allKeepClock_flatMap, allKeepClock_ite, allKeepClock_cons, allKeepClock_nil, resumeEvents_keepClock,
    implies_true, and_true]
  refine ⟨⟨fun f _ l _ => ?_, ?_⟩, fun f _ => ⟨fun _ => ?_, fun _ => ?_⟩⟩
  all_goals and_intros <;> exact fun _ _ h => (State.event_clk h).1
theorem faultEvents_keepClock (m : Mach) (fns : List (Nat × Fn)) : AllKeepClock (faultEvents m fns) := by
  simp only [faultEvents, allKeepClock_append, allKeepClock_flatMap, allKeepClock_map, allKeepClock_cons, allKeepClock_nil, and_true]
  refine ⟨fun f _ => ?_, fun e _ => ?_⟩
  all_goals and_intros <;> exact fun _ _ h => (State.event_clk h).1
theorem walkEvents_keepClock (m : Mach) (fns : List (Nat × Fn)) : AllKeepClock (walkEvents m fns) := by
  simp only [walkEvents, allKeepClock_append, allKeepClock_flatMap, allKeepClock_map]
  refine ⟨⟨fun f _ l _ => fun _ _ h => (State.event_clk h).1, ?_⟩, fun f _ => ?_⟩
  · split
    · exact (allKeepClock_cons _ _).2 ⟨fun _ _ h => (State.event_clk h).1, allKeepClock_nil⟩
    · exact allKeepClock_nil
  · split
    · exact allKeepClock_nil
    · simp only [allKeepClock_cons, allKeepClock_nil, and_true]
      and_intros <;> exact fun _ _ h => (State.event_clk h).1
theorem samplePower_keepsClock : KeepsClock samplePower := by
  intro s t h
  change execPowerSample (s.m.free.1 % 4096) { s with m := s.m.free.2 } = .next t at h
  exact (State.event_clk h).1
theorem endTest_keepsClock (core : Nat) : KeepsClock (endTest core) := by
  intro s t h
  change execHealthTestComplete core (s.m.free.1 % 2 = 0) { s with m := s.m.free.2 } = .next t at h
  exact (State.event_clk h).1
theorem hostEvents_keepClock (m : Mach) (fns : List (Nat × Fn)) : AllKeepClock (hostEvents m fns) := by
  simp only [hostEvents, allKeepClock_append, allKeepClock_flatMap, allKeepClock_map, allKeepClock_ite, allKeepClock_cons, allKeepClock_nil,
    ringCommand_keepsClock, samplePower_keepsClock, endTest_keepsClock, implies_true, and_true, true_and]
  refine ⟨⟨⟨⟨⟨fun _ => ⟨fun d _ => ?_, ?_⟩, fun f _ t _ => ?_⟩, fun p _ => ?_⟩, fun e _ => ?_⟩, fun e _ => ?_⟩, ?_, ?_⟩
  case refine_4 =>
    split
    · exact (allKeepClock_cons _ _).2 ⟨fun _ _ h => (State.event_clk h).1, allKeepClock_nil⟩
    · exact allKeepClock_nil
  all_goals exact fun _ _ h => (State.event_clk h).1
theorem firmwareEvents_keepClock (clk : Clock) (m : Mach) : AllKeepClock (m.firmwareEvents clk) := by
  intro f hf
  dsimp only [Mach.firmwareEvents] at hf
  obtain ⟨fs, hfs, hf⟩ := List.mem_flatten.1 hf
  have hmem : fs ∈ [placeEvents m (m.fnTurn clk), faultEvents m (m.fnTurn clk), walkEvents m (m.fnTurn clk), hostEvents m (m.fnTurn clk)] :=
    (List.mem_append.1 hfs).elim List.mem_of_mem_drop List.mem_of_mem_take
  simp only [List.mem_cons, List.not_mem_nil, or_false] at hmem
  rcases hmem with rfl | rfl | rfl | rfl
  · exact placeEvents_keepClock _ _ f hf
  · exact faultEvents_keepClock _ _ f hf
  · exact walkEvents_keepClock _ _ f hf
  · exact hostEvents_keepClock _ _ f hf

/-! ## Cycles pass (R421) -/

/-- The clock goes on: the ninths of a nanosecond stay below 9, and neither counter goes back. -/
structure Clock.GoesOn (a b : Clock) : Prop where
  frac : a.frac < 9 → b.frac < 9
  time : a.time ≤ b.time
  cycle : a.cycle ≤ b.cycle
theorem Clock.GoesOn.of_eq {a b : Clock} (h : b = a) : a.GoesOn b := h ▸ ⟨id, Nat.le_refl _, Nat.le_refl _⟩
/-- Slewing takes the time counter back by no more than it has gone on. -/
theorem tick_slewed_goesOn (clk : Clock) (n : Nat) (slew : Int) : clk.GoesOn (slewed clk (clk.tick n) slew).1 :=
  ⟨fun _ => Nat.mod_lt _ (by decide), Nat.le_max_left _ _, Nat.le_add_right _ _⟩
theorem State.pass_clk (s : State) (n : Nat) : (s.pass n).clk = (slewed s.clk (s.clk.tick n) s.m.slew).1 := rfl
theorem State.pass_goesOn (s : State) (n : Nat) : s.clk.GoesOn (s.pass n).clk := by
  rw [State.pass_clk]
  exact tick_slewed_goesOn _ _ _
theorem State.settled_clk (s : State) : s.settled.clk = s.clk := by simp only [State.settled]
theorem State.cycleEnd_goesOn (s : State) : s.clk.GoesOn s.cycleEnd.clk := by
  unfold State.cycleEnd
  split
  case h_1 t ht =>
    rw [← firstEnabled_clk (firmwareEvents_keepClock _ _) ht, ← t.settled_clk]
    exact t.settled.pass_goesOn 1
  case h_2 => exact s.pass_goesOn 1

/-! ## A step (R421) -/

/-- A peer's reading of the time sets the counter forward only. -/
theorem execTimeSync_goesOn {dev r : Nat} {s t : State} (h : execTimeSync dev r s = .next t) : s.clk.GoesOn t.clk := by
  unfold execTimeSync at h
  split at h
  · cases h
    exact .of_eq rfl
  · split at h
    case isTrue hfirst =>
      cases h
      exact ⟨id, hfirst.2.2, Nat.le_refl _⟩
    case isFalse =>
      cases h
      exact .of_eq rfl
theorem exec_goesOn {i : Instr} {s t : State} (hreset : i ≠ .deviceReset) (h : exec i s = .next t) : s.clk.GoesOn t.clk := by
  by_cases hsync : ∃ dev r, i = .timeSync dev r
  · obtain ⟨dev, r, rfl⟩ := hsync
    exact execTimeSync_goesOn h
  · exact .of_eq (exec_keepsClock (fun dev r hi => hsync ⟨dev, r, hi⟩) hreset s t h)
theorem settledOutcome_clk {o : Host.Outcome State Fault Refusal} {t : State} (h : settledOutcome o = .next t) :
    ∃ u, o = .next u ∧ t.clk = u.clk := by
  cases o with
  | next u =>
    cases h
    exact ⟨u, rfl, u.settled_clk⟩
  | fault r => cases h
  | refused r => cases h
theorem settled_exec_goesOn {i : Instr} {s t : State} (hreset : i ≠ .deviceReset) (h : settledOutcome (exec i s) = .next t) :
    s.clk.GoesOn t.clk := by
  obtain ⟨u, hu, hclk⟩ := settledOutcome_clk h
  rw [hclk]
  exact exec_goesOn hreset hu
/-- What passes a check was answered behind it. -/
theorem ok_of_error_else {ε α : Type} {p : Prop} [Decidable p] {e : ε} {x : Except ε α} {a : α} (h : (if p then .error e else x) = .ok a) :
    x = .ok a := by
  split at h
  · cases h
  · exact h
theorem then_of_ok {ε α : Type} {p : Prop} [Decidable p] {e : ε} {a b : α} (h : (if p then Except.ok a else .error e) = .ok b) : p ∧ a = b := by
  split at h
  case isTrue hp => exact ⟨hp, Except.ok.inj h⟩
  case isFalse => cases h
/-- An instruction that is decoded has words. -/
theorem decodeWord_encode {w : Nat} {ext : Option Nat} {i : Instr} (h : decodeWord w ext = .ok i) : encode i ≠ [] := by
  unfold decodeWord at h
  replace h := ok_of_error_else (ok_of_error_else h)
  split at h
  case h_1 => cases h
  case h_2 =>
    obtain ⟨hwords, rfl⟩ := then_of_ok (ok_of_error_else (ok_of_error_else h))
    rw [beq_iff_eq.1 hwords]
    split <;> exact List.cons_ne_nil _ _
theorem decodeEp_encodeEp {w : Nat} {i : Instr} (h : decodeEp w = .ok i) : encodeEp i = some w := by
  unfold decodeEp at h
  split at h
  case h_1 => cases h
  case h_2 =>
    obtain ⟨hword, rfl⟩ := then_of_ok (ok_of_error_else h)
    exact beq_iff_eq.1 hword
/-- No word of a program is a device reset, which has no encoding. -/
theorem decode?_ne_deviceReset {w : Nat} {ext : Option Nat} {i : Instr} (h : decode? w ext = some i) : i ≠ .deviceReset := by
  rintro rfl
  unfold decode? at h
  split at h
  case h_1 hi => 
    cases h
    exact decodeWord_encode hi rfl
  case h_2 => cases h
theorem epiWord?_ne_deviceReset {m : Mach} {i : Instr} (h : m.epiWord? = some i) : i ≠ .deviceReset := by
  rintro rfl
  unfold Mach.epiWord? at h
  split at h
  case h_1 core d _ =>
    cases hd : decodeEp (d.words.getD d.pc 0).toNat with
    | ok i =>
      rw [hd] at h
      cases h
      cases decodeEp_encodeEp hd
    | error e =>
      rw [hd] at h
      cases h
  case h_2 => cases h

/-- What an issue executes is decoded from the words fetched. -/
theorem Mach.beginIssue_decode? {m m' : Mach} {clk : Clock} {core slot : Nat} {ts : List Nat} {i : Instr}
    (h : m.beginIssue clk core slot ts = (m', some i)) : ∃ w ext, decode? w ext = some i := by
  dsimp only [Mach.beginIssue] at h
  split at h
  case h_1 => cases h
  case h_2 => cases h
  case h_3 =>
    split at h
    case h_2 => cases h
    case h_1 word ext _ _ =>
      refine ⟨word, ext, ?_⟩
      split at h
      · cases h
      · split at h
        · cases h
        · split at h
          · cases h
          case h_2 j hj =>
            split at h <;> cases h
            exact hj
theorem issueOn_goesOn {s t : State} {core slot : Nat} {ts : List Nat} (h : issueOn s core slot ts = .next t) : s.clk.GoesOn t.clk := by
  unfold issueOn at h
  split at h
  case h_1 m hm =>
    cases h
    exact .of_eq (State.settled_clk _)
  case h_2 m i hi =>
    obtain ⟨w, ext, hd⟩ := Mach.beginIssue_decode? hi
    exact settled_exec_goesOn (s := { s with m }) (decode?_ne_deviceReset hd) h
theorem grantTo_goesOn {s t : State} {core slot warp : Nat} (h : grantTo s core slot warp = .next t) : s.clk.GoesOn t.clk := by
  unfold grantTo at h
  split at h
  case h_1 =>
    cases h
    exact .of_eq rfl
  case h_2 w _ =>
    split at h
    case isTrue => exact settled_exec_goesOn (i := .streakRescue core (w.num warp)) nofun h
    case isFalse =>
      split at h
      case h_1 =>
        cases h
        exact .of_eq rfl
      case h_2 m _ _ => exact issueOn_goesOn (s := { s with m }) h
theorem runMove_goesOn {s t : State} {mv : Move} (hreset : mv ≠ .event .deviceReset) (h : runMove s mv = .next t) : s.clk.GoesOn t.clk := by
  cases mv with
  | event i => exact settled_exec_goesOn (fun hi => hreset (congrArg _ hi)) h
  | elapse n =>
    cases h
    rw [State.settled_clk]
    exact s.pass_goesOn n
  | grant core =>
    dsimp only [runMove] at h
    split at h
    case h_1 => exact grantTo_goesOn h
    case h_2 =>
      cases h
      exact .of_eq rfl
  | poisonMem | poisonScratch | poisonAcc =>
    cases h
    exact .of_eq rfl
theorem runSelf_goesOn {s t : State} (h : runSelf s = .next t) : s.clk.GoesOn t.clk := by
  unfold runSelf at h
  split at h
  case h_1 => exact issueOn_goesOn (s := { s with m := { s.m with pick := none } }) h
  case h_2 =>
    split at h
    case h_1 i hi => exact settled_exec_goesOn (epiWord?_ne_deviceReset hi) h
    case h_2 =>
      split at h
      case h_1 u hu =>
        cases h
        exact .of_eq ((State.settled_clk u).trans (firstEnabled_clk (hardwareEvents_keepClock _ _) hu))
      case h_2 =>
        split at h
        case h_1 => exact grantTo_goesOn h
        case h_2 =>
          cases h
          exact s.cycleEnd_goesOn
/-- A device reset leaves the clock at 0, whatever it was. -/
theorem deviceReset_clk {s t : State} (h : settledOutcome (exec .deviceReset s) = .next t) : t.clk = {} := by
  cases h
  exact State.settled_clk _

end Sys2Proof.Machine
end

section
open Sys2Proof Sys2Proof.Machine

/-- Settles O59: what the machine does of itself and what the environment brings leave the clock or move it on; of all a device reset alone sets
it back, and no program holds one. -/
theorem timeNeverGoesBack : Obligations.TimeNeverGoesBack := by
  intro s t h
  unfold step at h
  split at h
  case h_1 mv rest hagenda =>
    by_cases hreset : mv = .event .deviceReset
    · subst hreset
      exact ⟨fun _ => by rw [deviceReset_clk h]; decide, fun hno => absurd hagenda (hno rest)⟩
    · obtain ⟨hfrac, htime, hcycle⟩ := runMove_goesOn hreset h
      exact ⟨hfrac, fun _ => ⟨htime, hcycle⟩⟩
  case h_2 =>
    obtain ⟨hfrac, htime, hcycle⟩ := runSelf_goesOn h
    exact ⟨hfrac, fun _ => ⟨htime, hcycle⟩⟩

/-- Settles O58: device reset is the state whose every field has its default. -/
theorem resetState : Obligations.ResetState := by
  refine ⟨rfl, rfl, by decide, rfl, rfl, rfl, rfl, rfl, rfl, rfl, rfl, fun core mac => rfl, fun core => rfl, fun vf => ?_⟩
  exact ⟨rfl, rfl⟩
end

section
/-! SUPPORT. The scratchpad forms and the atomics (R241 to R248), in a launch that is not ordered, by a workgroup that buffers no store. -/
namespace Sys2Proof.Machine

theorem tyBytes_pos {t : Ty} (ht : t ≠ .pred) : 0 < tyBytes t := by
  cases t with
  | pred => exact absurd rfl ht
  | _ => decide

/-! ## Orders that reach no further than the core (R225) -/

section
variable {m : Mach} {core slot : Nat} {w : Wg} {a : Attr} (ha : a.order = .plain ∨ a.scope < 3)
include ha
theorem Attr.after_near (isLoad : Bool) : a.after isLoad m core = m := by
  rcases ha with ho | hs
  · rw [Attr.after, ho]
  · unfold Attr.after
    split
    · rfl
    · rw [Mach.acquire_near hs, ite_self]
    · exact Mach.acquire_near hs
theorem Attr.before_near (hw : m.wg? core slot = some w) (hb : w.sbuf = []) (isStore : Bool) (clk : Clock) : a.before isStore m clk core slot = m := by
  rcases ha with ho | hs
  · rw [Attr.before, ho]
  · have hrel (uo : Bool) : m.release clk core slot a.scope uo = m := by
      rw [Mach.release_unbuffered clk hw hb, if_neg (by omega)]
    unfold Attr.before
    split
    · rfl
    · rw [hrel, ite_self]
    · exact hrel true
end

/-! ## Check for the scratchpad (R243) -/

/-- Every active lane's offset is aligned and lies within the grant. -/
def Ctx.SWithin (c : Ctx) (o : MemOp) (n align : Nat) : Prop :=
  ∀ j ∈ c.act, 0 ≤ c.soff o j ∧ c.soff o j + n ≤ c.wg.scratchBytes ∧ c.soff o j % (align : Int) = 0
theorem Ctx.mem_saccs {c : Ctx} {o : MemOp} {n : Nat} {a : SAcc} (h : a ∈ sortBy (·.lane) (c.saccs o n)) :
    ∃ j ∈ c.act, a = ⟨j, (c.wg.thread j).lane, c.soff o j, n⟩ := by
  obtain ⟨j, hj, rfl⟩ := List.mem_map.1 (mem_sortBy.1 h)
  exact ⟨j, hj, rfl⟩
section
variable {c : Ctx} {o : MemOp} {n align : Nat} (hin : c.SWithin o n align)
include hin
theorem Ctx.saccs_aligned : (sortBy (·.lane) (c.saccs o n)).find? (fun a => a.off % (align : Int) != 0) = none :=
  List.find?_eq_none.2 fun a ha => by
    obtain ⟨j, hj, rfl⟩ := Ctx.mem_saccs ha
    simp [(hin j hj).2.2]
theorem Ctx.saccs_within :
    (sortBy (·.lane) (c.saccs o n)).find? (fun a => a.off < 0 || (c.wg.scratchBytes : Int) < a.off + a.n) = none :=
  List.find?_eq_none.2 fun a ha => by
    obtain ⟨j, hj, rfl⟩ := Ctx.mem_saccs ha
    obtain ⟨hlo, hhi, -⟩ := hin j hj
    simp only [Bool.or_eq_true, decide_eq_true_eq]
    omega
/-- Aligned accesses within the grant, none of them a store over a live word or a read of a poisoned one, pass. -/
theorem Ctx.scratchChecked_ok {isStore isLoad : Bool} (hdead : isStore = true → ∀ j ∈ c.act, c.wg.liveIn (c.soff o j).toNat n = false)
    (hclean : isLoad = true → ∀ j ∈ c.act, c.m.scratchPoison c.core c.slot (c.soff o j).toNat n = none) (clk : Clock) (k : Mach → Mach) :
    c.scratchChecked clk align (c.saccs o n) isStore isLoad k = k c.m := by
  have hlive : (if isStore then (sortBy (·.lane) (c.saccs o n)).find? (fun a => c.wg.liveIn a.off.toNat a.n) else none) = none := by
    split
    case isTrue hs =>
      refine List.find?_eq_none.2 fun a ha => ?_
      obtain ⟨j, hj, rfl⟩ := Ctx.mem_saccs ha
      simp [hdead hs j hj]
    case isFalse => rfl
  have hpoison : (if isLoad then (sortBy (·.lane) (c.saccs o n)).findSome? (fun a => c.m.scratchPoison c.core c.slot a.off.toNat a.n) else none) =
      none := by
    split
    case isTrue hs =>
      refine List.findSome?_eq_none_iff.2 fun a ha => ?_
      obtain ⟨j, hj, rfl⟩ := Ctx.mem_saccs ha
      exact hclean hs j hj
    case isFalse => rfl
  simp only [Ctx.scratchChecked, Ctx.saccs_aligned hin, Ctx.saccs_within hin, hlive, hpoison]
end

end Sys2Proof.Machine
namespace Sys2Proof.Claims
open Sys2Proof.Machine

/-! ## The scratchpad forms (R241 to R244) -/

section
variable {s : State} {c : Ctx} {o : MemOp} {n : Nat} (h : Issues s c) (ho : c.wg.hdr.ordered = false) (hb : c.wg.sbuf = []) (ha : c.act ≠ [])
  (hnear : (attrOf o).order = .plain ∨ (attrOf o).scope < 3) (hin : c.SWithin o n (alignOf n))
include h ho hb ha hnear hin

theorem scratchLoad_reads (hclean : ∀ j ∈ c.act, s.m.scratchPoison c.core c.slot (c.soff o j).toNat n = none) (dst : LoadDst) :
    scratchLoad o n dst s.clk c = c.retire (s.m.pend c.core c.slot dst c.act
      (c.act.map (fun j => (j, [.got (s.m.scratchRead c.core c.slot (c.soff o j).toNat n)])))) := by
  have hm := Mach.ctx?_m h
  rw [scratchLoad, if_neg (mt List.isEmpty_iff.1 ha), Ctx.heldLate_unordered ho, Ctx.pastHeld_nil,
    Ctx.scratchChecked_ok hin (isStore := false) (isLoad := true) nofun (fun _ => hm ▸ hclean)]
  simp only [Attr.after_near hnear, hm, Attr.before_near hnear (Mach.ctx?_wg h) hb]
theorem scratchStoreRun_writes (hdead : ∀ j ∈ c.act, c.wg.liveIn (c.soff o j).toNat n = false) (src : StoreSrc) :
    scratchStoreRun o n src s.clk c =
      c.retire (c.act.foldl (fun m j => m.scratchStore c.core c.slot (c.soff o j).toNat (src.bytes (c.wg.thread j))) s.m) := by
  have hm := Mach.ctx?_m h
  rw [scratchStoreRun, if_neg (mt List.isEmpty_iff.1 ha), Ctx.heldLate_unordered ho, Ctx.pastHeld_nil,
    Ctx.scratchChecked_ok hin (isStore := true) (isLoad := false) (fun _ => hdead) nofun]
  simp only [Attr.after_near hnear, hm, Attr.before_near hnear (Mach.ctx?_wg h) hb]
end

/-! ## `atoms` (R248) -/

theorem atomsRun_eq {op : Nat} {o : MemOp} {t : Ty} {s : State} {c : Ctx} (h : Issues s c) (ho : Ordinary c) (ha : c.act ≠ [])
    (hnear : (attrOf o).order = .plain ∨ (attrOf o).scope < 3) (hin : c.SWithin o (tyBytes t) (tyBytes t))
    (hclean : ∀ j ∈ c.act, s.m.scratchPoison c.core c.slot (c.soff o j).toNat (tyBytes t) = none)
    (hdead : ∀ j ∈ c.act, c.wg.liveIn (c.soff o j).toNat (tyBytes t) = false) :
    atomsRun op t o s.clk c =
      let r := c.act.foldl (fun (x : List (Nat × List Piece) × Mach) j =>
        let old := x.2.scratchRead c.core c.slot (c.soff o j).toNat (tyBytes t)
        (x.1 ++ [(j, [.got old])], x.2.scratchStore c.core c.slot (c.soff o j).toNat
          (leBytes (tyBytes t) (atomStep op t (leNat old) ((c.wg.thread j).pat t o.data))))) ([], s.m)
      c.retire (r.2.pend c.core c.slot (.v t o.data) c.act r.1) := by
  obtain ⟨hordered, hrollback, hb⟩ := ho
  have hm := Mach.ctx?_m h
  have hw := Mach.ctx?_wg h
  rw [atomsRun, if_neg (mt List.isEmpty_iff.1 ha), Ctx.heldLate_unordered hordered, Ctx.pastHeld_nil,
    Ctx.scratchChecked_ok hin (isStore := true) (isLoad := true) (fun _ => hdead) (fun _ => hm ▸ hclean)]
  simp only [Attr.after_near hnear, hm, Mach.seal_off _ _ hw hrollback, Attr.before_near hnear hw hb]

end Sys2Proof.Claims
end

section
/-! SUPPORT. Atomics on a strongly ordered page (R226, R248): each active thread acts where the memory is, on what the one before it left. -/
namespace Sys2Proof.Machine

/-- An atomic's pages, which the core's cache translates for both rights, give one part each. -/
theorem Mach.partsOf_readWrite {m : Mach} {core vf : Nat} {pa : Acc → Nat} {accs : List Acc}
    (h : ∀ a ∈ accs, a.va % 65536 + a.n ≤ 65536 ∧ m.coreTranslate core vf a.va .read = (.ok (pa a) 0, m) ∧
      m.coreTranslate core vf a.va .write = (.ok (pa a) 0, m)) :
    m.partsOf core vf [.read, .write] accs = (accs.map (fun a => Part.mk a.thread a.lane a.va a.n (.ok (pa a) 0)), m) := by
  induction accs with
  | nil => rfl
  | cons a as ih =>
    obtain ⟨⟨hpage, hread, hwrite⟩, has⟩ := List.forall_mem_cons.1 h
    have hsplit : splitPage a.va a.n = [(a.va, a.n)] := if_pos (by omega)
    simp only [Mach.partsOf, hsplit, List.foldl_cons, List.foldl_nil, Mach.transAll, hread, hwrite, worse, ih has, List.nil_append, List.map_cons,
      List.singleton_append]

/-- A write at L2 with no monitor armed changes memory, and which lines are poisoned. -/
theorem Mach.l2Write_unarmed {m : Mach} (hm : ∀ e ∈ m.wgs, ∀ t ∈ e.2.threads, t.mon = none) (pa : Nat) (bs : List Byte) :
    ∃ y, m.l2Write pa bs = { m with mem := Memory.writeL m.mem pa bs, poison := y } :=
  ⟨(m.physWrite pa bs).poison, Mach.hitLines_unarmed (m := m.physWrite pa bs) hm _⟩
/-- What an atomic makes of memory at `pa`, and the bytes it found there (R245, R246). -/
def atomMem (mem : List Host.Cell) (pa n : Nat) (t : Ty) (k : AtomKind) : List Host.Cell :=
  match k.result t (leNat (Memory.readN mem pa n)) with | some y => Memory.writeL mem pa (leBytes n y) | none => mem
theorem Mach.atomPart_direct {m : Mach} {core pa : Nat} {p : Part} (hc : ∃ x, tget m.cores core = some x)
    (hm : ∀ e ∈ m.wgs, ∀ t ∈ e.2.threads, t.mon = none) (hn : 0 < p.n) (hp : p.DirectAt (m.core core) pa) (clk : Clock) (a : Attr) (t : Ty) (k : AtomKind) :
    ∃ x y, m.atomPart clk core a t k p =
      (.got (Memory.readN m.mem pa p.n), { m with mem := atomMem m.mem pa p.n t k, access := x, poison := y }) := by
  have hline : tget (m.core core).l1 (lineOf pa) = none := hp.absent _ (lineOf_mem_linesOf (k := 0) hn)
  have hdrop := Mach.dropLine_absent hc hline
  unfold Mach.atomPart atomMem
  simp only [hp.tr, decide_true, Bool.true_or, if_true, hdrop]
  have hmem : (m.countLine core pa).mem = m.mem := rfl
  rw [hmem]
  cases k.result t (leNat (Memory.readN m.mem pa p.n)) with
  | none => exact ⟨_, _, rfl⟩
  | some x =>
    obtain ⟨y, hy⟩ := Mach.l2Write_unarmed (m := m.countLine core pa) hm pa (leBytes p.n x)
    exact ⟨_, y, Prod.ext rfl hy⟩

/-- One lane's turn of an atomic whose operations are not keyed. -/
def Ctx.atomLane (c : Ctx) (clk : Clock) (o : MemOp) (t : Ty) (kindOf : Thread → AtomKind) (ps : List Part) (s : List (Nat × List Piece) × Mach) (i : Nat) :
    List (Nat × List Piece) × Mach :=
  match ps.find? (fun p => p.thread == i) with
  | none => s
  | some p =>
    let r := s.2.atomPart clk c.core (atomAttr o) t (kindOf (c.wg.thread i)) p
    (s.1 ++ [(i, [r.1])], r.2)
theorem Ctx.atomLanes_unkeyed (c : Ctx) (clk : Clock) (o : MemOp) (t : Ty) (kindOf : Thread → AtomKind) (ps : List Part) (m : Mach) :
    c.atomLanes clk o t false kindOf ps m =
      let r := c.act.foldl (c.atomLane clk o t kindOf ps) ([], m.newId.2)
      ([{ id := m.nextId, slot := c.slot, dst := .v t o.data, threads := c.act, lanes := r.1, order := o.order, scope := o.scope }], r.2) := rfl
/-- A lane's atomic on memory and what the lanes before it have read. -/
def Ctx.atomStepAt (c : Ctx) (t : Ty) (kindOf : Thread → AtomKind) (pa : Nat → Nat) (x : List Host.Cell × List (Nat × List Piece)) (j : Nat) :
    List Host.Cell × List (Nat × List Piece) :=
  (atomMem x.1 (pa j) (tyBytes t) t (kindOf (c.wg.thread j)), x.2 ++ [(j, [.got (Memory.readN x.1 (pa j) (tyBytes t))])])
/-- Each thread's atomic in turn acts on its own part. -/
theorem Ctx.atomLane_foldl {c : Ctx} {clk : Clock} {o : MemOp} {t : Ty} {kindOf : Thread → AtomKind} {ps : List Part} {q : Nat → Part}
    {pa : Nat → Nat} {js : List Nat} {m : Mach} (hc : ∃ x, tget m.cores c.core = some x) (hm : ∀ e ∈ m.wgs, ∀ t ∈ e.2.threads, t.mon = none)
    (ht : 0 < tyBytes t) (hq : ∀ j ∈ js, ps.find? (fun p => p.thread == j) = some (q j)) (hn : ∀ j ∈ js, (q j).n = tyBytes t)
    (hp : ∀ j ∈ js, (q j).DirectAt (m.core c.core) (pa j)) (xs : List (Nat × List Piece)) :
    let r := js.foldl (c.atomStepAt t kindOf pa) (m.mem, xs)
    ∃ x y, js.foldl (c.atomLane clk o t kindOf ps) (xs, m) = (r.2, { m with mem := r.1, access := x, poison := y }) := by
  induction js generalizing m xs with
  | nil => exact ⟨m.access, m.poison, rfl⟩
  | cons j js ih =>
    obtain ⟨hqj, hqs⟩ := List.forall_mem_cons.1 hq
    obtain ⟨hnj, hns⟩ := List.forall_mem_cons.1 hn
    obtain ⟨hpj, hps⟩ := List.forall_mem_cons.1 hp
    obtain ⟨x, y, hj⟩ := Mach.atomPart_direct hc hm (hnj ▸ ht) hpj clk (atomAttr o) t (kindOf (c.wg.thread j))
    have hlane : c.atomLane clk o t kindOf ps (xs, m) j = ((c.atomStepAt t kindOf pa (m.mem, xs) j).2,
        { m with mem := (c.atomStepAt t kindOf pa (m.mem, xs) j).1, access := x, poison := y }) := by
      simp only [Ctx.atomLane, hqj, hj, Ctx.atomStepAt, hnj]
    simp only [List.foldl_cons, hlane]
    exact ih (m := { m with mem := _, access := x, poison := y }) hc hm hqs hns hps _

end Sys2Proof.Machine
namespace Sys2Proof.Claims
open Sys2Proof.Machine

section
variable {s : State} {c : Ctx} {o : MemOp} {n : Nat} {pa : Nat → Nat} (hread : Reaches s c .read n n c.act (eaOf c o) pa)
  (hwrite : Reaches s c .write n n c.act (eaOf c o) pa)
include hread hwrite
theorem Reaches.partsOf_readWrite :
    s.m.partsOf c.core c.vf [.read, .write] (sortBy (·.lane) (c.accs o n false)) = (partsFor c o n pa false, s.m) := by
  have hparts : partsFor c o n pa false =
      (sortBy (·.lane) (c.accs o n false)).map (fun a => Machine.Part.mk a.thread a.lane a.va a.n (.ok (pa a.thread) 0)) := by
    refine List.map_congr_left fun a ha => ?_
    obtain ⟨j, -, rfl⟩ := mem_accs.1 (mem_sortBy.1 ha)
    rfl
  rw [hparts]
  refine Mach.partsOf_readWrite (pa := fun a => pa a.thread) fun a ha => ?_
  obtain ⟨j, hj, rfl⟩ := mem_accs.1 (mem_sortBy.1 ha)
  obtain ⟨-, hpage, ⟨p, hp, hr⟩, -⟩ := hread j hj
  obtain ⟨-, -, ⟨q, hq, hw⟩, -⟩ := hwrite j hj
  exact ⟨hpage, Mach.coreTranslate_cached hp hr, Mach.coreTranslate_cached hq hw⟩

/-- An atomic whose pages are reached: its parts, the seal that is none, and each lane in turn (R248). -/
theorem atomRun_direct {ord returns : Bool} {t : Ty} {kindOf : Thread → AtomKind} (h : Issues s c) (ho : Ordinary c) (hproper : Proper c)
    (hmon : NoMonitor s) (hplain : o.order = .plain) (ht : 0 < tyBytes t) (hn : n = tyBytes t) :
    let r := c.act.foldl (c.atomStepAt t kindOf pa) (s.m.mem, [])
    ∃ x y, atomRun ord returns t o kindOf { c, clk := s.clk, replay := false } =
      c.retire (let m : Mach := { s.m with nextId := s.m.nextId + 1, mem := r.1, access := x, poison := y }
        if returns then m.modCore c.core (fun k => { k with loads := k.loads ++
          [{ id := s.m.nextId, slot := c.slot, dst := .v t o.data, threads := c.act, lanes := r.2, order := o.order, scope := o.scope }] }) else m) := by
  subst hn
  obtain ⟨hordered, hrollback, hb⟩ := ho
  obtain ⟨hact, hnodup⟩ := hproper
  have hm := Mach.ctx?_m h
  have hdirect := Reaches.direct (u := false) hread
  have hfind (j : Nat) (hj : j ∈ c.act) : (partsFor c o (tyBytes t) pa false).find? (fun p => p.thread == j) = some (partFor c o (tyBytes t) pa j) := by
    rw [← List.head?_filter, partsFor_filter o (tyBytes t) pa hnodup (u := false) hj]
    rfl
  obtain ⟨x, y, hxy⟩ := Ctx.atomLane_foldl (m := s.m.newId.2) (clk := s.clk) (o := o) (kindOf := kindOf) (Reaches.listed (u := false) hread hact) hmon ht
    hfind (fun _ _ => rfl) hdirect []
  refine ⟨x, y, ?_⟩
  rw [atomRun, MemRun.pastHeld_unordered hordered hact]
  simp only [hordered, Bool.and_false, Bool.false_and, Bool.false_eq_true, if_false, hm]
  rw [MemRun.checked_ok (Reaches.partsOf_readWrite hread hwrite) (Reaches.checkParts (u := false) hread)]
  simp only [List.findSome?_eq_none_iff.2 (Reaches.clean (u := false) hread (atomAttr o)), Mach.seal_off _ _ (Mach.ctx?_wg h) hrollback,
    attrOf_on_plain hplain, attrOf_before_plain hplain, attrOf_after_plain hplain, Ctx.atomLanes_unkeyed, hxy]
  rfl
end

end Sys2Proof.Claims
end

section
open Sys2Proof Sys2Proof.Machine Sys2Proof.Claims

/-- Settles O20: each form passes the checks of R243, then reads or writes lane by lane. That the bytes are read and written at issue is the
model's choice (log 5). -/
theorem scratchpadAccesses : Obligations.ScratchpadAccesses := by
  intro o t s c h ho hb ha hnear Within Clean Dead w read wrote
  have halign (ht : t ≠ .pred) : min (tyBytes t) 4 = alignOf (tyBytes t) := (alignOf_tyBytes (tyBytes_pos ht)).symm
  have hwide : (4 : Nat) = alignOf w := by
    dsimp only [w]
    split <;> rfl
  refine ⟨fun hin hclean ht => ?_, fun hin hclean => ?_, fun hin hdead ht => ?_, fun hin hdead => ?_⟩
  · rw [halign ht] at hin
    exact exec_withM h rfl (scratchLoad_reads h ho hb ha hnear hin hclean _)
  · rw [hwide] at hin
    exact exec_withM h rfl (scratchLoad_reads h ho hb ha hnear hin hclean _)
  · rw [halign ht] at hin
    exact exec_withM h rfl (scratchStoreRun_writes h ho hb ha hnear hin hdead (.v t o.data))
  · rw [hwide] at hin
    exact exec_withM h rfl (scratchStoreRun_writes h ho hb ha hnear hin hdead (.wide o.data w))

/-- Every atomic form on memory is one atomic; of them `red` alone returns nothing. -/
theorem memoryAtomics : MemoryAtomics := by
  intro i o t kindOf returns s c pa hi ht h ho hproper hmon hplain hread hwrite step
  have hpos : 0 < tyBytes t := by
    cases t with
    | pred => exact absurd ht (by decide)
    | _ => decide
  obtain ⟨ord, he⟩ : ∃ ord, exec i s = s.mem (atomRun ord returns t o kindOf) := by
    rcases hi with ⟨op, rfl | rfl | rfl, rfl, rfl⟩ | ⟨op, rfl, rfl, rfl⟩ | ⟨rfl, rfl, rfl⟩
    · exact ⟨false, rfl⟩
    · exact ⟨false, rfl⟩
    · exact ⟨true, rfl⟩
    · exact ⟨false, rfl⟩
    · exact ⟨false, rfl⟩
  obtain ⟨x, y, hrun⟩ := atomRun_direct (ord := ord) (returns := returns) (kindOf := kindOf) hread hwrite h ho hproper hmon hplain hpos rfl
  have hfold : c.act.foldl step (s.m.mem, []) = c.act.foldl (c.atomStepAt t kindOf pa) (s.m.mem, []) := rfl
  refine ⟨_, exec_withM h he hrun, ?_⟩
  rw [hfold]
  cases returns with
  | false =>
    simp only [Bool.false_eq_true, if_false, List.append_nil]
    exact ⟨wentOn_retire h rfl rfl rfl rfl fun _ _ => rfl, Ctx.retire_mem .., congrArg Core.loads (retire_core ..)⟩
  | true =>
    simp only [if_true, hplain]
    refine ⟨wentOn_retire h rfl rfl rfl ?_ fun k hk => Mach.setCore_core_other _ _ hk, Ctx.retire_mem .., ?_⟩
    · exact (congrArg Core.scratch (Mach.setCore_core ..)).trans rfl
    · exact congrArg Core.loads ((retire_core ..).trans (Mach.setCore_core ..))

/-- `atoms` passes the checks of R243, then acts lane by lane. -/
theorem scratchpadAtomics : ScratchpadAtomics := by
  intro op o t s c h ho ha hnear hin step r
  refine exec_withM h rfl (atomsRun_eq h ho ha hnear (fun j hj => ?_) (fun j hj => ?_) fun j hj => ?_) <;>
    obtain ⟨hlo, hhi, halign, hclean, hdead⟩ := hin j hj
  · exact ⟨hlo, hhi, halign⟩
  · exact hclean
  · exact hdead

/-- Settles O21. That an atomic acts when it issues, where R226 places it, is the model's choice (log 5). -/
theorem atomics : Obligations.Atomics := ⟨memoryAtomics, scratchpadAtomics⟩
end

section
/-! SUPPORT. Monitors (R293, R313): the load that arms, and what a wait finds. -/
namespace Sys2Proof.Claims
open Sys2Proof.Machine

/-- The part that `mon.arm` reads. -/
def monPart (c : Ctx) (va pa : Nat) : Machine.Part := ⟨c.act.headD 0, c.leaderT.lane, va, 8, .ok pa 0⟩
theorem headD_mem {xs : List Nat} (h : xs ≠ []) : xs.headD 0 ∈ xs := by
  obtain ⟨x, xs, rfl⟩ := List.exists_cons_of_ne_nil h
  exact List.mem_cons_self
theorem take_one_eq {xs : List Nat} (h : xs ≠ []) : xs.take 1 = [xs.headD 0] := by
  obtain ⟨x, xs, rfl⟩ := List.exists_cons_of_ne_nil h
  rfl
/-- `mon.arm` reads its 8 bytes where the memory is and arms every active thread on their line. -/
theorem monArmRun_reads {s : State} {c : Ctx} {d a : Nat} {pa : Nat → Nat} (h : Issues s c) (ha : c.act ≠ []) (ho : Ordinary c)
    (hl1 : (s.m.core c.core).l1 = []) (hr : Reaches s c .read 8 8 (c.act.take 1) (fun _ => aOf c a) pa) :
    let line := pa (c.act.headD 0)
    ∃ x, monArmRun d a s.clk c = c.retireWith (({ s.m with access := x } : Mach).pend c.core c.slot (.k .z64 d) c.act
      [(c.act.headD 0, [.got (Memory.readN s.m.mem line 8)])] ⟨.acqRel, 5⟩) (fun t => { t with mon := some (line / 128, false) }) := by
  intro line
  obtain ⟨-, -, hb⟩ := ho
  obtain ⟨halign, hpage, ⟨p, hp, htr⟩, hlines⟩ := hr _ (take_one_eq ha ▸ List.mem_singleton_self _)
  have hlisted := Mach.listed_of_tlb hp
  have hparts : s.m.partsOf c.core c.vf [.read] [{ thread := c.act.headD 0, lane := c.leaderT.lane, va := aOf c a, n := 8 }] =
      ([monPart c (aOf c a) line], s.m) := by
    refine Mach.partsOf_cached (tr := fun _ => .ok line 0) fun x hx => ?_
    rw [List.mem_singleton.1 hx]
    exact ⟨hpage, Mach.coreTranslate_cached hp htr⟩
  have hcheck : checkParts s.m 8 [{ thread := c.act.headD 0, lane := c.leaderT.lane, va := aOf c a, n := 8 }] [monPart c (aOf c a) line] =
      .ok [monPart c (aOf c a) line] :=
    checkParts_ok (fun x hx => by rw [List.mem_singleton.1 hx]; exact halign) (fun q hq => by rw [List.mem_singleton.1 hq]; exact ⟨line, 0, rfl⟩)
  have hclean : s.m.poisoned s.clk c.core ⟨.acqRel, 5⟩ (monPart c (aOf c a) line) = none :=
    Mach.poisoned_direct rfl (fun l hl => (hlines l hl).2) ..
  obtain ⟨x, hgather⟩ := Mach.gather_direct (clk := s.clk) (a := ⟨.acqRel, 5⟩) (js := c.act.take 1) (ps := [monPart c (aOf c a) line])
    (q := fun _ => monPart c (aOf c a) line) (pa := fun _ => line) hlisted (Mach.ctx?_wg h) hb
    (fun j hj => by
      rw [take_one_eq ha, List.mem_singleton] at hj
      rw [hj, monPart, List.filter_cons_of_pos (by simp), List.filter_nil])
    (fun j _ => ⟨rfl, fun l hl => (hlines l hl).1⟩)
  rw [take_one_eq ha] at hgather
  refine ⟨x, ?_⟩
  have hacquire : ({ s.m with access := x } : Mach).acquire c.core 5 = { s.m with access := x } :=
    Mach.acquire_of_empty (m := { s.m with access := x }) hl1 5
  have hlead : c.leadA a = aOf c a := rfl
  rw [monArmRun, if_neg (mt List.isEmpty_iff.1 ha), hlead, Mach.ctx?_m h]
  simp only [Ctx.checkedStop, hparts, hcheck, List.findSome?_cons, hclean, List.findSome?_nil, hgather, Attr.after, if_true, hacquire, take_one_eq ha,
    List.map_cons, List.map_nil]
  rfl

/-- The threads that `mon.wait` keeps: those whose monitor stands on a line that no store has hit. -/
def stays (c : Ctx) (i : Nat) : Bool := match (c.wg.thread i).mon with | some (_, false) => true | _ => false
theorem monWaitRun_eq (clk : Clock) (c : Ctx) : monWaitRun clk c =
    let stay := c.act.filter (stays c)
    let m := c.m.atWg c (fun w => w.modThreads (c.act.filter (fun i => !stay.contains i)) (fun t => { t with mon := none }))
    if stay.isEmpty then c.retire m else c.wait clk m stay .monitor := rfl
theorem stays_iff (c : Ctx) (i : Nat) : stays c i = true ↔ ∃ l, (c.wg.thread i).mon = some (l, false) := by
  unfold stays
  split <;> simp_all
theorem modThreads_nil (w : Wg) (f : Thread → Thread) : w.modThreads [] f = w := by
  have hself : w.threads.mapIdx (fun i t => if ([] : List Nat).contains i then f t else t) = w.threads := List.ext_getElem (by simp) (by simp)
  rw [Wg.modThreads, hself]
theorem retireWith_wgs {s : State} {c : Ctx} (h : Issues s c) {m : Mach} (hw : m.wgs = s.m.wgs) (f : Thread → Thread) :
    (c.retireWith m f).wgs = (put s c (each c f)).m.wgs := by
  have hwg : m.wg? c.core c.slot = some c.wg := by rw [Mach.wg?, hw]; exact Mach.ctx?_wg h
  rw [Ctx.retireWith_eq f hwg, each_eq c f (act_sub h), Mach.setWg, put, Mach.setWg, hw]
theorem retireWith_core (c : Ctx) (m : Mach) (f : Thread → Thread) (k : Nat) : (c.retireWith m f).core k = m.core k := by
  rw [Mach.core, Ctx.retireWith_cores]
  rfl
theorem exec_monWait (s : State) : exec .monWait s = s.group monWaitRun := rfl
theorem exec_monArm (d a : Nat) (s : State) : exec (.monArm d a) s = s.group (monArmRun d a) := rfl

end Sys2Proof.Claims
end

section
open Sys2Proof Sys2Proof.Machine Sys2Proof.Claims

/-- Settles O24. `mon.arm` is an acquire of scope 5, the device's (R293, R313); that it reads when it issues is the model's choice (log 5). -/
theorem monitors : Obligations.Monitors := by
  intro d a s c h ha
  refine ⟨fun pa ho hl1 hr => ?_, fun hgo => exec_withM h (exec_monWait s) ?_, fun hstay => exec_withM h (exec_monWait s) ?_⟩
  · obtain ⟨x, hrun⟩ := monArmRun_reads (d := d) h ha ho hl1 hr
    refine ⟨_, exec_withM h (exec_monArm d a s) hrun, Ctx.retireWith_mem .., ?_, (congrArg Core.loads ((retireWith_core ..).trans (Mach.pend_core ..))).trans rfl⟩
    refine retireWith_wgs h ?_ _
    rfl
  · have hnone : c.act.filter (stays c) = [] := List.filter_eq_nil_iff.2 fun j hj hs => by
      obtain ⟨l, hl⟩ := (stays_iff c j).1 hs
      exact hgo j hj l hl
    have hall : c.act.filter (fun i => !([] : List Nat).contains i) = c.act := List.filter_eq_self.2 fun _ _ => rfl
    simp only [monWaitRun_eq, hnone, hall, List.isEmpty_nil, if_true]
    rw [atWg_setWg h, Ctx.retire, setWg_atWg, each_eq c _ (act_sub h)]
  · have hall : c.act.filter (stays c) = c.act := List.filter_eq_self.2 fun j hj => (stays_iff c j).2 (hstay j hj)
    have hnone : c.act.filter (fun i => !c.act.contains i) = [] := List.filter_eq_nil_iff.2 fun j hj => by simp [hj]
    simp only [monWaitRun_eq, hall, hnone, List.isEmpty_iff, ha, if_false, modThreads_nil, atWg_setWg h]
    rfl
end

section
/-! SUPPORT. A counterexample to O25. In an ordered launch `stg.commit`, which releases what its threads did before it (R314), waits while an
operation of one of them is held (R221, R400); the statement lets it commit its stage at once. -/
namespace Sys2Proof.Claims
open Sys2Proof.Machine

/-- One thread of an ordered launch, which holds one of its operations, and holds stage 0 of ring 0, which has one stage. -/
def committer : Wg :=
  { hdr := { ordered := true, rings := [1, 0, 0, 0] }, launch := 5, threads := [{ pc := 0x10000 }], rings := [{ full := [false], heldP := [true] }], warps := [{}] }
def committing : State :=
  { m := { ig := some { core := 0, slot := 0, threads := [0], pc := 0x10000, w := 0, ext := none }, wgs := [(0, committer)],
           fns := [(0, { state := 1, launches := [{ id := 5, hdr := committer.hdr, held := [heldStore] }] })] } }
def commitCtx : Ctx :=
  { m := committing.m, ig := { core := 0, slot := 0, threads := [0], pc := 0x10000, w := 0, ext := none }, wg := committer, act := [0] }
/-- Whether stage 0 of ring 0 is full after an instruction that answers a next state. -/
def fullAfter : Host.Outcome State Fault Refusal → Option Bool
  | .next t => (t.m.wg? 0 0).map (fun w => (w.rings.getD 0 {}).full.getD 0 false)
  | _ => none

theorem committing_issues : Issues committing commitCtx := by rfl
theorem committing_ringIs : RingIs commitCtx 0 1 { full := [false], heldP := [true] } := ⟨by decide, rfl, by decide, rfl⟩
/-- The thread waits: its stage is not full. -/
theorem committing_waits : fullAfter (exec (.stgCommit 0) committing) = some false := by decide +kernel

end Sys2Proof.Claims
end

section
open Sys2Proof Sys2Proof.Machine Sys2Proof.Claims

/-- Refutes O25: its clause of `stg.commit` leaves out that no operation of the group's threads is held (R400). -/
theorem not_stageRings : ¬Obligations.StageRings := by
  intro h
  obtain ⟨-, -, hcommit, -⟩ := h 1 0 1 { full := [false], heldP := [true] } committing commitCtx committing_issues committing_ringIs
  have hfull := congrArg fullAfter (hcommit rfl)
  rw [committing_waits] at hfull
  exact absurd hfull (by decide +kernel)
end

section
/-! SUPPORT. A counterexample to O33. R338 gives the status word's counts of queued passes and drains 8 bits each; the statement takes them modulo
256, and the model's word holds them as they are. A workgroup with 256 passes queued tells the two apart. -/
namespace Sys2Proof.Claims
open Sys2Proof.Machine

/-- One thread that reads the matrix status, with 256 passes of its workgroup queued. -/
def poller : Wg := { threads := [{ pc := 0x10000 }], warps := [{}] }
def queuedPass : MatItem := { id := 1, seq := 1, slot := 0, mac := 0, work := .pass 0 false 3 0 { kind := 2, ebits := 16, w := 8, flags := 7 } 0 [] none }
def polling : State :=
  { m := { ig := some { core := 0, slot := 0, threads := [0], pc := 0x10000, w := 0, ext := none }, wgs := [(0, poller)],
           cores := [(0, { mats := List.replicate 256 queuedPass })] } }
def pollCtx : Ctx := { m := polling.m, ig := { core := 0, slot := 0, threads := [0], pc := 0x10000, w := 0, ext := none }, wg := poller, act := [0] }
/-- Register k0 of the thread after an instruction that answers a next state. -/
def k0After : Host.Outcome State Fault Refusal → Option K64
  | .next t => (t.m.wg? 0 0).map (fun w => (w.thread 0).getK 0)
  | _ => none

theorem polling_issues : Issues polling pollCtx := by rfl
theorem polling_reads : k0After (exec (.mstat 0) polling) = some (BitVec.ofNat 64 (2 ^ 40)) := by decide +kernel

end Sys2Proof.Claims
end

section
open Sys2Proof Sys2Proof.Machine Sys2Proof.Claims

theorem not_matrixStatus : ¬MatrixStatus := by
  intro h
  have hread := congrArg k0After (h 0 polling pollCtx polling_issues (by decide) (by decide)).1
  rw [polling_reads] at hread
  exact absurd hread (by decide +kernel)
/-- Refutes O33 by its conjunct MatrixStatus: of a workgroup with 256 passes queued the model's status word holds the count 256, and the statement's
the count modulo 256, which is 0. -/
theorem not_accumulators : ¬Obligations.Accumulators := fun h => not_matrixStatus h.2
end

section
/-! SUPPORT. A counterexample to O54. The statement says that the root table of an assigned function reads as zeros whatever list memory was; the
model's memory is a list in rising order (`Memory.wf`), and in one that lists an address twice a byte outlives the write of 0 to it. -/
namespace Sys2Proof.Claims
open Sys2Proof.Machine

/-- A command of the physical function for function 0. -/
def assignZero : Cmd := { ring := 128, target := 0, tag := 0, irq := false }
/-- Function 0 is ready, with five free pages; memory lists byte 0 twice. -/
def assigning : State := { m := { fns := [(0, { state := 3, freePages := [16, 17, 18, 19, 20] })], mem := [(0, 5), (0, 7)] } }
/-- Byte 0 of memory after an instruction that answers a next state. -/
def byte0After : Host.Outcome State Fault Refusal → Option Byte
  | .next t => some (Memory.read t.m.mem 0)
  | _ => none
theorem assigning_leaves : byte0After (exec (.assign assignZero) assigning) = some 7 := by decide +kernel

end Sys2Proof.Claims
end

section
open Sys2Proof Sys2Proof.Machine Sys2Proof.Claims

/-- Refutes O54: the clause of the assign command leaves out that memory lists each address once; where it lists one of the root table's twice, a
byte of the table is not 0 after the command. -/
theorem not_functionLifecycle : ¬Obligations.FunctionLifecycle := by
  intro h
  obtain ⟨-, hassign, -⟩ := (h assignZero 0 0 assigning).1 rfl (by decide)
  obtain ⟨u, hu, -, -, -, -, -, -, hzero⟩ := hassign rfl rfl rfl [16, 17, 18, 19, 20] [] rfl rfl rfl
  have hbyte := assigning_leaves
  rw [hu, byte0After, hzero 0 (by decide) (by decide)] at hbyte
  exact absurd hbyte (by decide)
end

section
/-! SUPPORT. A counterexample to O43. A save takes the workgroup's stores out of L1 (R16, R390), so the swap-out of a fetch fault writes the core's
dirty lines back; the statement says that memory stays as it was. -/
namespace Sys2Proof.Claims
open Sys2Proof.Machine

/-- A pinned workgroup whose fetch at 0x90000 found no translation, and which has settled. -/
def faulted : Wg := { hdr := { pinned := true }, threads := [{ pc := 0x90000 }], warps := [{}], leaving := 2, fetchAt := some ([0], 0x90000) }
/-- Byte 0 of line 8 has been stored to, and stands in L1 alone. -/
def dirtyLine : Line := { bytes := 5 :: List.replicate 127 0, dirty := true :: List.replicate 127 false, filled := 0, firstWrite := some 0 }
def swapping : State := { m := { wgs := [(0, faulted)], cores := [(0, { l1 := [(8, dirtyLine)] })], fns := [(0, { state := 1 })] } }
/-- Byte 1024 of memory, the first of line 8, after an instruction that answers a next state. -/
def byte1024After : Host.Outcome State Fault Refusal → Option Byte
  | .next t => some (Memory.read t.m.mem 1024)
  | _ => none
theorem swapping_writes : byte1024After (exec (.fetchFaultSwapOut 0 0) swapping) = some 5 := by decide +kernel

end Sys2Proof.Claims
end

section
open Sys2Proof Sys2Proof.Machine Sys2Proof.Claims

/-- Refutes O43: its clause of the fetch-fault swap-out leaves out that the core's L1 holds no dirty line; one that it holds is written back. -/
theorem not_preemptionEvents : ¬Obligations.PreemptionEvents := by
  intro h
  obtain ⟨hswap, -⟩ := h 0 0 0 swapping faulted
  obtain ⟨u, img, e, hu, hmem, -⟩ := hswap rfl rfl rfl rfl rfl rfl (by decide +kernel) (by decide) (by decide) [0] 0x90000 rfl (by decide)
  have hbyte := swapping_writes
  rw [hu, byte1024After, hmem] at hbyte
  exact absurd hbyte (by decide +kernel)
end

section
/-! SUPPORT. A counterexample to O42. The statement says that a page mapped under fault policy 2 reads as zeros, whatever page the function had free; a
page of the capability mirror (R414), were it free, reads as the mirror does at reset (log 1). -/
namespace Sys2Proof.Claims
open Sys2Proof.Machine

/-- A read of 0x20010 waits for its page, whose entry stands at 0x500050020. -/
def zeroRead : FaultEntry :=
  { va := 0x20010, time := 0, core := 0, slot := 0, warp := 0, kind := 1, access := 0, olog := 255, flags := 0, lanes := 1, wid := 0, launch := 0, rec_ := 4 }
/-- The function's one table points at itself, and its entry 2 asks for a page that reads as zeros; the mirror's first page stands among the function's free
ones. -/
def mirroring : State :=
  { m := { fns := [(0, { state := 1, root := 0x500050000, faults := [zeroRead], freePages := [512] })],
           mem := [(0x500050000, 3), (0x500050002, 5), (0x500050004, 5), (0x500050020, 24), (0x500050029, 32)] } }
/-- The machine when that page has been taken. -/
def mirrorTaken : Mach := { mirroring.m with fns := [(0, { state := 1, root := 0x500050000, faults := [zeroRead], freePages := [] })] }
theorem mirroring_takes : mirroring.m.takePage 0 = some (512, mirrorTaken) := by decide +kernel
theorem mirroring_entry : entryAt mirroring.m 0 0x20010 = some 0x500050020 ∧ mirroring.m.physNat 0x500050020 16 = 2 * 2 ^ 76 + 24 := by decide +kernel

end Sys2Proof.Claims
end

section
open Sys2Proof Sys2Proof.Machine Sys2Proof.Claims

/-- Refutes O42: its clause of fault policy 2 leaves out that the page taken is none of the capability mirror's; the first byte of the mirror is 0x42. -/
theorem not_faultEvents : ¬Obligations.FaultEvents := by
  intro h
  obtain ⟨hentry, hold⟩ := mirroring_entry
  obtain ⟨-, -, hservice, -⟩ := h 0 mirroring
  obtain ⟨-, -, hmissing⟩ := hservice zeroRead [] rfl ⟨.inl rfl, by decide, by decide⟩ rfl
  obtain ⟨-, hzeros, -⟩ := hmissing 0x500050020 (by decide +kernel) hentry rfl (by rw [hold]; decide) (by rw [hold]; decide)
  obtain ⟨hread, -⟩ := hzeros 512 mirrorTaken (by rw [hold]; decide) mirroring_takes rfl rfl (by simp)
  exact absurd (hread (2 ^ 25) (by decide)) (by decide +kernel)
end

section
/-! SUPPORT. Landing zones (R431, R435 to R439): an instruction on a zone the header has, the searches for a free entry, and the parts of a zone word. -/
namespace Sys2Proof.Claims
open Sys2Proof.Machine

/-- The lowest number that satisfies `p` is the one that a search from below finds. -/
theorem firstFrom_eq_some {p : Nat → Bool} {k : Nat} (hk : p k = true) : ∀ (fuel n : Nat), n ≤ k → k < n + fuel →
    (∀ j, n ≤ j → j < k → p j = false) → firstFrom p fuel n = some k := by
  intro fuel
  induction fuel with
  | zero => intro n hn hlt; omega
  | succ fuel ih =>
    intro n hn hlt hlow
    rw [firstFrom]
    by_cases he : n = k
    · rw [he, if_pos hk]
    · rw [if_neg (by rw [hlow n le_rfl (by omega)]; decide)]
      exact ih (n + 1) (by omega) (by omega) fun j hj => hlow j (by omega)
/-- A search through numbers none of which satisfies `p` finds none. -/
theorem firstFrom_eq_none {p : Nat → Bool} : ∀ (fuel n : Nat), (∀ j, n ≤ j → j < n + fuel → p j = false) → firstFrom p fuel n = none := by
  intro fuel
  induction fuel with
  | zero => intro n _; rfl
  | succ fuel ih =>
    intro n h
    rw [firstFrom, if_neg (by rw [h n le_rfl (by omega)]; decide)]
    exact ih (n + 1) fun j hj hlt => h j (by omega) (by omega)

section
variable {s : State} {c : Ctx} {z : Nat} {zn : Zone} (hz : ZoneIs c z zn)
include hz

theorem withZone_eq (clk : Clock) (k : Zone → Mach) : c.withZone clk z k = k zn := by
  obtain ⟨hlt, rfl⟩ := hz
  exact if_neg (by omega)
end

theorem seal_quiet {s : State} {c : Ctx} (h : Issues s c) (hq : Quiet s c) (reason : Nat) : c.m.seal s.clk c.core c.slot reason = s.m := by
  rw [Mach.ctx?_m h]
  exact Mach.seal_off _ _ (Mach.ctx?_wg h) hq.1

theorem exec_lzStatus (d z sel : Nat) (s : State) : exec (.lzStatus d z sel) s = s.group (lzStatusRun d z sel) := rfl
theorem exec_lzOpen (d z b k h : Nat) (s : State) : exec (.lzOpen d z b k h) s = s.group (lzOpenRun d z b k h) := rfl
theorem exec_lzClose (z : Nat) (s : State) : exec (.lzClose z) s = s.group (lzCloseRun z) := rfl
theorem exec_lzWait (z p : Nat) (s : State) : exec (.lzWait z p) s = s.group (lzWaitRun z p) := rfl
theorem exec_lzAck (z k : Nat) (s : State) : exec (.lzAck z k) s = s.group (lzFreeRun .arrived false z k) := rfl
theorem exec_lzClean (z k : Nat) (s : State) : exec (.lzClean z k) s = s.group (lzFreeRun .torn true z k) := rfl
theorem exec_lzReserve (d k : Nat) (s : State) : exec (.lzReserve d k) s = s.group (lzReserveRun false d k) := rfl
theorem exec_lzReserveWait (d k : Nat) (s : State) : exec (.lzReserveWait d k) s = s.group (lzReserveRun true d k) := rfl
theorem exec_lzAbort (d k q : Nat) (s : State) : exec (.lzAbort d k q) s = s.group (lzAbortRun d k q) := rfl

/-- The value that `lz.status` reads. -/
def zoneValue (zn : Zone) (sel : Nat) : Nat :=
  if !zn.open_ then 0
  else match sel with
    | 0 => zn.word
    | 1 => zn.bitmap (· == .arrived)
    | 2 => zn.bitmap (· == .torn)
    | 3 => zn.bitmap (fun s => s == .reserved || s == .filling)
    | _ => zn.name
theorem lzStatusRun_eq {s : State} {c : Ctx} {z : Nat} {zn : Zone} (h : Issues s c) (hz : ZoneIs c z zn) (hq : Quiet s c) (d sel : Nat) :
    lzStatusRun d z sel s.clk c = s.m.setWg c.core c.slot (each c (fun t => t.setK d (BitVec.ofNat 64 (zoneValue zn sel)))) := by
  have hacquire : (if sel = 1 then c.m.acquire c.core 6 else c.m) = c.m := by
    rw [Mach.ctx?_m h, Mach.acquire_of_empty hq.2.2, ite_self]
  rw [lzStatusRun, withZone_eq hz, hacquire]
  exact retireK_each h d _
/-- The configuration word of `lz.open` (R435): its reserved bits are 0. -/
theorem zoneConfig_eq (n size a : Nat) : pack [(6, n), (2, 0), (3, size), (5, 0), (6, a)] = n + 256 * size + 65536 * a := by
  simp only [pack]
  omega

end Sys2Proof.Claims
end

section
open Sys2Proof Sys2Proof.Machine Sys2Proof.Claims

/-- Settles O29. The group is quiet in the statement, so that the acquire of selector 1 finds no line to drop (log 5). -/
theorem zoneStatus : Obligations.ZoneStatus := by
  intro d z sel zn s c h hz hq
  refine ⟨fun hsel => exec_withM h (exec_lzStatus d z sel s) ?_, fun hsel => ?_⟩
  · rw [lzStatusRun_eq h hz hq]
    refine congrArg (fun v => s.m.setWg c.core c.slot (each c (fun t => t.setK d (BitVec.ofNat 64 v)))) ?_
    unfold zoneValue
    cases zn.open_ with
    | false => rfl
    | true => match sel, hsel with | 0, _ | 1, _ | 2, _ | 3, _ | 4, _ => rfl
  · exact Bool.eq_false_iff.2 fun hw => by
      rw [show wellFormed (.lzStatus d z sel) = (isK d && decide (z < 8) && decide (sel < 5)) from rfl, Bool.and_eq_true, decide_eq_true_eq] at hw
      omega
end

section
/-! SUPPORT. Group N (R435, R437, R439): each instruction on a zone whose state the statement names. -/
namespace Sys2Proof.Claims
open Sys2Proof.Machine

/-- The zone that `lz.open` makes: `n` free slots of `1024 * 2 ^ size` bytes at `base`, with the arrivals of its first phase still to come. -/
def freshZone (name : Nat) (backing : Addr) (base n size target : Nat) : Zone :=
  { open_ := true, name, backing, base, size, target, phase := false, pend := target, slots := List.replicate n {} }

/-- A zone whose slots are closed with it. -/
def closedZone (zn : Zone) : Zone := { zn with open_ := false, slots := zn.slots.map (fun x => { x with state := .closed }) }

section
variable {s : State} {c : Ctx} {z : Nat} {zn : Zone} (h : Issues s c) (hz : ZoneIs c z zn) (ha : c.act ≠ [])

include h ha hz in
/-- `lz.open` of a closed zone with a configuration that passes its checks takes the lowest free directory entry (log 38). -/
theorem lzOpenRun_opens (hq : Quiet s c) {d b k r id : Nat} (ho : zn.open_ = false) (hsize : kOf c k / 256 % 8 ≠ 7)
    (hle : kOf c k / 65536 % 64 + 1 ≤ kOf c k % 64 + 1)
    (hcfg : kOf c k = kOf c k % 64 + 256 * (kOf c k / 256 % 8) + 65536 * (kOf c k / 65536 % 64)) (hb : kOf c b % 1024 = 0)
    (hr : aOf c r % 65536 = 0) (hfit : kOf c b + (kOf c k % 64 + 1) * 1024 * 2 ^ (kOf c k / 256 % 8) ≤ c.wg.scratchBytes) (hid : id < 4096)
    (hfree : ((tget (s.m.fn c.vf).zdir id).getD {}).taken = false) (hlow : ∀ j, j < id → ((tget (s.m.fn c.vf).zdir j).getD {}).taken = true) :
    let gen := (((tget (s.m.fn c.vf).zdir id).getD {}).gen + 1) % 2 ^ 32
    let name := gen * 2 ^ 32 + c.vf * 2 ^ 23 + id * 2 ^ 11 + s.m.devnum
    let f := s.m.fn c.vf
    lzOpenRun d z b k r s.clk c = c.retireK ((s.m.setFn c.vf { f with zdir := tset f.zdir id { gen, taken := true } }).atWg c (·.setZone z
      (freshZone name ((lead c).getA r) (kOf c b) (kOf c k % 64 + 1) (kOf c k / 256 % 8) (kOf c k / 65536 % 64 + 1)))) d name := by
  have hn : field (kOf c k) 0 6 = kOf c k % 64 := congrArg (· % 64) (Nat.div_one _)
  have hs : field (kOf c k) 8 3 = kOf c k / 256 % 8 := rfl
  have htarget : field (kOf c k) 16 6 = kOf c k / 65536 % 64 := rfl
  have hword : c.leadK k = kOf c k := rfl
  have hbase : c.leadK b = kOf c b := rfl
  have hback : c.leadA r = aOf c r := rfl
  have hfrom : firstFrom (fun i => !((tget (s.m.fn c.vf).zdir i).getD {}).taken) 4096 0 = some id :=
    firstFrom_eq_some (by rw [hfree]; rfl) 4096 0 (by omega) (by omega) fun j _ hj => by rw [hlow j hj]; rfl
  rw [lzOpenRun, withZone_eq hz]
  simp only [ho, hn, hs, htarget, hword, hbase, hback, Nat.add_sub_cancel, zoneConfig_eq, List.isEmpty_iff, ha, hsize, Nat.not_lt.2 hle,
    ← hcfg, hb, hr, Nat.not_lt.2 hfit, seal_quiet h hq, hfrom, if_false, decide_false, Bool.or_self, Bool.false_eq_true, ne_eq, not_true]
  rw [aOf, BitVec.ofNat_toNat, BitVec.setWidth_eq]
  rfl

include h ha hz in
/-- `lz.close` of an open zone closes its slots and releases its directory entry; the group goes on. -/
theorem lzCloseRun_closes (hq : Quiet s c) (ho : zn.open_ = true) :
    lzCloseRun z s.clk c = c.retire ((s.m.setWg c.core c.slot (c.wg.setZone z (closedZone zn))).modFn c.vf (fun f =>
      { f with zdir := tmod f.zdir (field zn.name 11 12) (fun x => { x with taken := false }) })) := by
  have hput : s.m.modWg c.core c.slot (·.setZone z (closedZone zn)) = s.m.setWg c.core c.slot (c.wg.setZone z (closedZone zn)) :=
    Mach.modWg_eq _ _ (Mach.ctx?_wg h)
  rw [lzCloseRun, withZone_eq hz, if_neg (mt List.isEmpty_iff.1 ha), seal_quiet h hq, Mach.zClose, ho, ← hput]
  rfl
omit hz in
include h in
/-- The group goes on after a change of its zones and of its function's directory. -/
theorem retire_zones (zs : List Zone) (g : Fn → Fn) :
    (c.retire ((s.m.setWg c.core c.slot { c.wg with zones := zs }).modFn c.vf g)).wgs = (put s c { each c id with zones := zs }).m.wgs := by
  have hwg : ((s.m.setWg c.core c.slot { c.wg with zones := zs }).modFn c.vf g).wg? c.core c.slot = some { c.wg with zones := zs } := by
    rw [Mach.wg?, Mach.modFn_wgs]
    exact Mach.setWg_wg? ..
  have heach : ({ c.wg with zones := zs } : Wg).modThreads c.ig.threads (·.advance c.len) = { each c id with zones := zs } :=
    congrArg (fun w : Wg => { w with zones := zs }) (modThreads_each h)
  rw [Ctx.retire_eq hwg, heach]
  exact tset_tset ..
include h ha hz in
theorem lzRuns_closed (hq : Quiet s c) (ho : zn.open_ = false) (b : Nat) :
    lzCloseRun z s.clk c = c.retire c.m ∧ lzWaitRun z b s.clk c = c.retire c.m := by
  refine ⟨?_, ?_⟩
  · rw [lzCloseRun, withZone_eq hz, if_neg (mt List.isEmpty_iff.1 ha), seal_quiet h hq, Mach.zClose, ho, Mach.ctx?_m h]
    rfl
  · rw [lzWaitRun, withZone_eq hz, if_neg (mt List.isEmpty_iff.1 ha), ho]
    rfl
include h ha hz in
theorem lzWaitRun_open (hq : Quiet s c) (ho : zn.open_ = true) (b : Nat) :
    lzWaitRun z b s.clk c = if zn.phase = ((lead c).getK b).getLsbD 0 then c.retire s.m
      else c.wait s.clk s.m c.act (.zone z (((lead c).getK b).getLsbD 0)) := by
  rw [lzWaitRun, withZone_eq hz, if_neg (mt List.isEmpty_iff.1 ha), ho, Mach.ctx?_m h, Mach.acquire_of_empty hq.2.2]
  simp only [beq_iff_eq]
  rfl
include h ha hz in
/-- A slot that is open and in the state its instruction requires is freed; one in another state is refused. -/
theorem lzFreeRun_eq (hq : Quiet s c) (ho : zn.open_ = true) {k : Nat} (hi : kOf c k % 64 < zn.slots.length) (st : ZState) (zero : Bool) :
    lzFreeRun st zero z k s.clk c = if (zn.slots.getD (kOf c k % 64) {}).state ≠ st then c.badValue s.clk s.m 3
      else c.retire ((if zero then s.m.scratchWrite c.core c.slot (zn.slotAt (kOf c k % 64))
          (List.replicate zn.slotBytes 0) else s.m).atWg c (·.setZone z (zn.setSlot (kOf c k % 64) {}))) := by
  have hk : c.leadK k = kOf c k := rfl
  rw [lzFreeRun, withZone_eq hz, if_neg (mt List.isEmpty_iff.1 ha), seal_quiet h hq, Mach.ctx?_m h]
  simp only [ho, hk, Nat.not_le.2 hi]
  simp only [Bool.not_true, decide_false, Bool.or_false, Bool.false_or, decide_eq_true_eq]
end

/-! ## Reservations (R431, R437) -/

/-- The sender that a group is. -/
theorem sender_eq {s : State} {c : Ctx} (h : Issues s c) :
    c.sender = { dev := s.m.devnum, vf := c.vf, header := c.wg.hdr.addr, group := c.wg.g } := by
  rw [Ctx.sender, Mach.ctx?_m h]
theorem nameDev_eq (name : Nat) : field name 0 11 = name % 2048 := congrArg (· % 2048) (Nat.div_one _)

section
variable {m : Mach} {name : Nat} {me : Sender} {p : ZPlace} {zn : Zone} (hreach : m.zoneReach name me = true)
    (hfind : m.findZone (name / 2 ^ 23 % 128) name = .at_ p zn)
include hreach hfind

theorem zReserve_takes {i : Nat} (clk : Clock) (hi : i < zn.slots.length) (hfree : (zn.slots.getD i {}).state = .free)
    (hlow : ∀ x, x < i → (zn.slots.getD x {}).state ≠ .free) :
    m.zReserve clk name me = ((0, i), m.putZone (name / 2 ^ 23 % 128) p (zn.setSlot i { state := .reserved, sender := some me })) := by
  have hfrom : firstFrom (fun i => (zn.slots.getD i {}).state == .free) zn.slots.length 0 = some i :=
    firstFrom_eq_some (p := fun i => (zn.slots.getD i {}).state == .free) (beq_iff_eq.2 hfree) zn.slots.length 0 (Nat.zero_le i) (by omega)
      fun x _ hx => beq_eq_false_iff_ne.2 (hlow x hx)
  have hfind' : m.findZone (field name 23 7) name = .at_ p zn := hfind
  rw [Mach.zReserve, hreach, hfind']
  simp only [hfrom]
  rfl
theorem zReserve_none (clk : Clock) (hfull : ∀ i, i < zn.slots.length → (zn.slots.getD i {}).state ≠ .free) : m.zReserve clk name me = ((1, 0), m) := by
  have hfrom : firstFrom (fun i => (zn.slots.getD i {}).state == .free) zn.slots.length 0 = none :=
    firstFrom_eq_none _ 0 fun x _ hx => beq_eq_false_iff_ne.2 (hfull x (by omega))
  have hfind' : m.findZone (field name 23 7) name = .at_ p zn := hfind
  rw [Mach.zReserve, hreach, hfind']
  simp only [hfrom]
  rfl
/-- Whether slot `i` is one that the sender has reserved. -/
theorem zAbort_eq (i : Nat) : m.zAbort name i me =
    if i < zn.slots.length ∧ (zn.slots.getD i {}).state = .reserved ∧ (zn.slots.getD i {}).sender = some me
    then (0, m.putZone (name / 2 ^ 23 % 128) p (zn.setSlot i {})) else (3, m) := by
  have hfind' : m.findZone (field name 23 7) name = .at_ p zn := hfind
  rw [Mach.zAbort, hreach, hfind']
  simp only [Bool.and_eq_true, decide_eq_true_eq, beq_iff_eq, and_assoc]
  rfl
end

section
variable {s : State} {c : Ctx} {k : Nat} (h : Issues s c) (hrole : c.role = 0) (ha : c.act ≠ [])
include h hrole ha

theorem lzReserveRun_here (hdev : kOf c k % 2048 = s.m.devnum) {st i d : Nat} {m : Mach} {wait : Bool}
    (hr : s.m.zReserve s.clk (kOf c k) { dev := s.m.devnum, vf := c.vf, header := c.wg.hdr.addr, group := c.wg.g } = ((st, i), m)) :
    lzReserveRun wait d k s.clk c =
      if wait && st == 1 then c.wait s.clk m c.act (.zone (8 + kOf c k) false) else c.retireK m d (zstatus st i) := by
  have hk : c.leadK k = kOf c k := rfl
  simp only [lzReserveRun, hrole, hk, nameDev_eq, Mach.ctx?_m h, hdev, sender_eq h, hr, List.isEmpty_iff, ha, ne_eq, not_true, if_false, if_true]
theorem lzAbortRun_here (hdev : kOf c k % 2048 = s.m.devnum) {q st d : Nat} {m : Mach}
    (hr : s.m.zAbort (kOf c k) (kOf c q % 64) { dev := s.m.devnum, vf := c.vf, header := c.wg.hdr.addr, group := c.wg.g } = (st, m)) :
    lzAbortRun d k q s.clk c = c.retireK m d (zstatus st 0) := by
  have hk : c.leadK k = kOf c k := rfl
  have hq : c.leadK q = kOf c q := rfl
  simp only [lzAbortRun, hrole, hk, hq, nameDev_eq, Mach.ctx?_m h, hdev, sender_eq h, hr, List.isEmpty_iff, ha, ne_eq, not_true, if_false, if_true]
theorem lzReserveRun_away (hdev : kOf c k % 2048 ≠ s.m.devnum) (d : Nat) (wait : Bool) :
    lzReserveRun wait d k s.clk c = if s.m.unreachable (kOf c k % 2048) then
        c.retireK (s.m.logErr s.clk c.vf 8 4 0 c.core 0 (s.m.firstPort (kOf c k % 2048))) d (zstatus 4 0)
      else c.askPeer s.clk s.m (kOf c k % 2048) (askCode d wait (kOf c k % 2048)) (leBytes 1 5 ++ leBytes 8 (kOf c k) ++ senderBytes c.sender) := by
  have hk : c.leadK k = kOf c k := rfl
  simp only [lzReserveRun, hrole, hk, nameDev_eq, Mach.ctx?_m h, hdev, List.isEmpty_iff, ha, ne_eq, not_true, if_false]
end

theorem unfuse_thread (w : Wg) (ts : List Nat) (j : Nat) : (w.unfuse ts).thread j = w.thread j := rfl
/-- A question to a peer is sent as it is, and the active threads wait for the answer. -/
theorem askPeer_asks {s : State} {c : Ctx} (h : Issues s c) (dev kd : Nat) (msg : List Byte) :
    let m := c.askPeer s.clk s.m dev kd msg
    m.mem = s.m.mem ∧ m.cores = s.m.cores ∧ m.fns = s.m.fns ∧ m.linkOut = s.m.linkOut ++ [(dev, msg)] ∧
      ∀ w, m.wg? c.core c.slot = some w → ∀ j ∈ c.act, j < c.wg.threads.length → ∃ x, (w.thread j).status = .zoneWait none x := by
  have hrun : c.askPeer s.clk s.m dev kd msg = ({ s.m with seq := s.m.seq + 1, linkOut := s.m.linkOut ++ [(dev, msg)] } : Mach).setWg c.core c.slot
      (((c.wg.modThreads c.act (fun t => { t with status := .zoneWait none kd, since := some (s.m.seq + 1, s.clk.time) })).modThreads
        (c.ig.threads.filter (fun t => !c.act.contains t)) (·.advance c.len)).unfuse c.act) := 
    Mach.atWg_eq (m := { s.m with seq := s.m.seq + 1, linkOut := s.m.linkOut ++ [(dev, msg)] }) _
      (show Mach.wg? s.m c.core c.slot = some c.wg from Mach.ctx?_wg h)
  dsimp only
  rw [hrun]
  refine ⟨rfl, rfl, rfl, rfl, fun w hw j hj hlt => ⟨kd, ?_⟩⟩
  rw [Mach.setWg_wg?, Option.some_inj] at hw
  have hnot : j ∉ c.ig.threads.filter (fun t => !c.act.contains t) := fun hm => by simp [hj] at hm
  rw [← hw, unfuse_thread, Wg.thread_modThreads, if_neg (fun hm => hnot hm.2), Wg.thread_modThreads, if_pos ⟨hlt, hj⟩]

end Sys2Proof.Claims
end

section
open Sys2Proof Sys2Proof.Machine Sys2Proof.Claims

/-- Settles the first part of O30, an instruction at a time. -/
theorem zoneInstructions : ZoneInstructions := by
  intro d z b k r zn s c h hz hq ha
  refine ⟨fun id ho hsize hle hcfg hb hr hfit hid hfree hlow => ?_, fun ho => ?_, fun ho => ?_, fun ho => ?_, fun ho hi => ?_⟩
  · exact exec_withM h (exec_lzOpen d z b k r s) (lzOpenRun_opens h hz ha hq ho hsize hle hcfg hb hr hfit hid hfree hlow)
  · refine ⟨_, exec_withM h (exec_lzClose z s) (lzCloseRun_closes h hz ha hq ho), Ctx.retire_mem .., Ctx.retire_cores .., ?_, ?_⟩
    · exact retire_zones h _ _
    · refine (congrArg Fn.zdir (Mach.fn_congr (Ctx.retire_fns ..) c.vf)).trans ?_
      rw [Mach.modFn_fn]
      rfl
  · obtain ⟨hclose, hwait⟩ := lzRuns_closed h hz ha hq ho b
    exact ⟨exec_withM h (exec_lzClose z s) (hclose.trans (retire_each h)), exec_withM h (exec_lzWait z b s) (hwait.trans (retire_each h))⟩
  · rw [exec_withM h (exec_lzWait z b s) (lzWaitRun_open h hz ha hq ho b), ← Mach.ctx?_m h]
    split
    · rw [retire_each h]; rfl
    · rfl
  · refine ⟨fun hst => exec_withM h (exec_lzAck z k s) ?_, fun hst => exec_withM h (exec_lzClean z k s) ?_,
      fun hst => exec_withM h (exec_lzAck z k s) ?_⟩
    · rw [lzFreeRun_eq h hz ha hq ho hi, if_neg (not_not.2 hst)]; rfl
    · rw [lzFreeRun_eq h hz ha hq ho hi, if_neg (not_not.2 hst)]; rfl
    · rw [lzFreeRun_eq h hz ha hq ho hi, if_pos hst]

/-- Settles the second part of O30: a zone of this device, then an unreachable device, then any other. -/
theorem zoneReservations : ZoneReservations := by
  intro d k q s c h hrole ha
  refine ⟨fun core slot j zn hdev hreach hfind => ⟨fun i hi hfree hlow => ?_, fun hfull => ?_, fun hi hmine => ?_⟩, fun hdev hun => ?_,
    fun hdev hun => ?_⟩
  · have hr := zReserve_takes hreach hfind s.clk hi hfree hlow
    exact ⟨exec_withM h (exec_lzReserve d k s) ((lzReserveRun_here h hrole ha hdev hr).trans (by rw [zstatus, Nat.zero_mul, Nat.zero_add]; rfl)),
      exec_withM h (exec_lzReserveWait d k s) ((lzReserveRun_here h hrole ha hdev hr).trans (by rw [zstatus, Nat.zero_mul, Nat.zero_add]; rfl))⟩
  · have hr := zReserve_none hreach hfind s.clk hfull
    have hst : zstatus 1 0 = 2 ^ 56 := by rw [zstatus, Nat.one_mul, Nat.add_zero]
    exact ⟨exec_withM h (exec_lzReserve d k s) ((lzReserveRun_here h hrole ha hdev hr).trans (by rw [hst]; exact if_neg (by decide))),
      exec_withM h (exec_lzReserveWait d k s) (lzReserveRun_here h hrole ha hdev hr)⟩
  · exact exec_withM h (exec_lzAbort d k q s) 
      ((lzAbortRun_here h hrole ha hdev ((zAbort_eq hreach hfind _).trans (if_pos ⟨hi, by rw [hmine], by rw [hmine]⟩))).trans (by rw [zstatus, Nat.zero_mul]; rfl))
  · refine exec_withM h (exec_lzReserve d k s) ?_
    rw [lzReserveRun_away h hrole ha hdev, if_pos hun, zstatus, Nat.add_zero]
  · obtain ⟨hmem, hcores, hfns, hsent, hwait⟩ := askPeer_asks h (kOf c k % 2048) (askCode d false (kOf c k % 2048))
      (leBytes 1 5 ++ leBytes 8 (kOf c k) ++ senderBytes c.sender)
    refine ⟨_, exec_withM h (exec_lzReserve d k s) ((lzReserveRun_away h hrole ha hdev d false).trans (if_neg (by rw [hun]; decide))),
      hmem, hcores, hfns, ⟨_, hsent, hwait⟩⟩

/-- Settles O30. A zone takes the lowest free entry of the directory (log 38); what a request that is refused logs is log 65. -/
theorem zones : Obligations.Zones := ⟨zoneInstructions, zoneReservations⟩
end

section
/-! SUPPORT. What peers bring to a landing zone (R431, R432, R437, R440), and the answer a waiting thread takes. -/
namespace Sys2Proof.Claims
open Sys2Proof.Machine

theorem exec_lzReservationArrive (name : Nat) (x : Sender) (s : State) :
    exec (.lzReservationArrive name x) s = .next (withM s (lzReservation name x s.clk s.m)) := rfl
theorem exec_lzAbortArrive (name i : Nat) (x : Sender) (s : State) : exec (.lzAbortArrive name i x) s = .next (withM s (lzAbort name i x s.m)) := rfl
theorem exec_lzPayloadFlit (name i offset total : Nat) (data : List Byte) (x : Sender) (s : State) :
    exec (.lzPayloadFlit name i offset total data x) s = .next (withM s (lzPayload name i offset total data x s.clk s.m)) := rfl
theorem exec_lzReservationReply (core slot j st i : Nat) (s : State) :
    exec (.lzReservationReply core slot j st i) s = s.event (fun _ m => lzReply core slot j st i m) := rfl

/-- The answers that the machine sends are those of log 23. -/
theorem lzReservation_eq {m m' : Mach} {name st i : Nat} {x : Sender} {clk : Clock} (h : m.zReserve clk name x = ((st, i), m')) :
    lzReservation name x clk m = tells m' x.dev (answer name st i) := by
  rw [lzReservation, h]
  rfl
theorem lzAbort_eq {m m' : Mach} {name i st : Nat} {x : Sender} (h : m.zAbort name i x = (st, m')) :
    lzAbort name i x m = tells m' x.dev (answer name st 0) := by
  rw [lzAbort, h]
  rfl
theorem lzPayload_refused {m m' : Mach} {name i offset total st : Nat} {data : List Byte} {x : Sender} {clk : Clock}
    (h : m.zPayload clk name i offset total data x = (.refused st, m')) :
    lzPayload name i offset total data x clk m = tells m' x.dev (receipt name i st) := by
  rw [lzPayload, h]
  rfl

/-! ## Names that name no open zone -/

section
variable {m : Mach} {name : Nat} {x : Sender} (clk : Clock)

theorem zone_stale (h : m.zoneReach name x = false ∨ m.findZone (name / 2 ^ 23 % 128) name = .stale) (i offset total : Nat) (data : List Byte) :
    let m' := m.logErr clk (name / 2 ^ 23 % 128) 8 3 0 65535 0 name
    m.zReserve clk name x = ((3, 0), m') ∧ m.zAbort name i x = (3, m) ∧ m.zPayload clk name i offset total data x = (.refused 3, m') := by
  have hfind : ∀ g : ZFind, m.findZone (name / 2 ^ 23 % 128) name = g → m.findZone (field name 23 7) name = g := fun _ => id
  by_cases hreach : m.zoneReach name x = true
  · have hstale := hfind _ (h.resolve_left (by rw [hreach]; decide))
    exact ⟨by rw [Mach.zReserve, hreach, hstale]; rfl, by rw [Mach.zAbort, hreach, hstale]; rfl, by rw [Mach.zPayload, hreach, if_pos rfl, hstale]; rfl⟩
  · have hnot := Bool.not_eq_true _ ▸ hreach
    exact ⟨by rw [Mach.zReserve, hnot]; rfl, by rw [Mach.zAbort, hnot]; rfl, by rw [Mach.zPayload, hnot]; rfl⟩
theorem zone_closed (hreach : m.zoneReach name x = true) (h : m.findZone (name / 2 ^ 23 % 128) name = .closed) (i offset total : Nat)
    (data : List Byte) :
    m.zReserve clk name x = ((2, 0), m) ∧ m.zAbort name i x = (2, m) ∧ m.zPayload clk name i offset total data x =
      (.refused 2, m.logErr clk (name / 2 ^ 23 % 128) 8 2 0 65535 0 (m.closedSlotAt (name / 2 ^ 23 % 128) name i)) := by
  have hclosed : m.findZone (field name 23 7) name = .closed := h
  exact ⟨by rw [Mach.zReserve, hreach, hclosed]; rfl, by rw [Mach.zAbort, hreach, hclosed]; rfl, by rw [Mach.zPayload, hreach, if_pos rfl, hclosed]; rfl⟩
end

/-! ## A payload (R431, R432, R440) -/

/-- The slot is the sender's and may be filled. -/
def fillable (z : Zone) (i : Nat) (x : Sender) : Prop :=
  (z.slots.getD i {}).sender = some x ∧ ((z.slots.getD i {}).state = .reserved ∨ (z.slots.getD i {}).state = .filling)
theorem fillable_iff (z : Zone) (i : Nat) (x : Sender) :
    ((z.slots.getD i {}).sender == some x && ((z.slots.getD i {}).state == .reserved || (z.slots.getD i {}).state == .filling)) = true ↔ fillable z i x := by
  simp only [fillable, Bool.and_eq_true, Bool.or_eq_true, beq_iff_eq]

section
variable {m : Mach} {name i offset total : Nat} {data : List Byte} {x : Sender} {p : ZPlace} {z : Zone} (clk : Clock)
    (hreach : m.zoneReach name x = true) (hfind : m.findZone (name / 2 ^ 23 % 128) name = .at_ p z)
include hreach hfind

theorem zPayload_refused (h : z.slots.length ≤ i ∨ ¬fillable z i x ∨ 1024 * 2 ^ z.size < total ∨ total < offset + data.length) :
    m.zPayload clk name i offset total data x =
      (.refused 3, m.logErr clk (name / 2 ^ 23 % 128) 8 3 0 65535 0 (z.base + i * (1024 * 2 ^ z.size))) := by
  have hfind' : m.findZone (field name 23 7) name = .at_ p z := hfind
  rw [Mach.zPayload, hreach, if_pos rfl, hfind']
  refine if_pos ?_
  simp only [Bool.or_eq_true, decide_eq_true_eq, Bool.not_eq_true', ← Bool.not_eq_true, fillable_iff, or_assoc]
  exact h
/-- Bytes for a zone of a resident workgroup with no live barrier word (R295) land in its scratchpad, and count. -/
theorem zPayload_lands {core slot k : Nat} (hp : p = .live core slot k) (hi : i < z.slots.length) (hmine : fillable z i x)
    (hsize : total ≤ 1024 * 2 ^ z.size) (hfits : offset + data.length ≤ total) (htags : ∀ w, m.wg? core slot = some w → w.tags = []) :
    let y := z.slots.getD i {}
    let m' := m.scratchWrite core slot (z.base + i * (1024 * 2 ^ z.size) + offset) data
    m.zPayload clk name i offset total data x =
      if total ≤ y.got + data.length then
        (.arrived (!y.marred), m'.putZone (name / 2 ^ 23 % 128) p (z.setSlot i { y with state := .arrived, got := 0 }).arrive)
      else (.more, m'.putZone (name / 2 ^ 23 % 128) p (z.setSlot i { y with state := .filling, got := y.got + data.length })) := by
  have hfind' : m.findZone (field name 23 7) name = .at_ p z := hfind
  have hdeliver : m.zDeliver clk (field name 23 7) core slot (z.slotAt i + offset) data =
      (false, m.scratchWrite core slot (z.base + i * (1024 * 2 ^ z.size) + offset) data) := by
    rw [Mach.zDeliver]
    cases hw : m.wg? core slot with
    | none => simp only [Mach.deliver, Mach.scratchWrite, hw]
    | some w =>
      rw [Mach.deliver_untagged hw (htags w hw)]
      rfl
  have hgo : ¬(decide (z.slots.length ≤ i) || !((z.slots.getD i {}).sender == some x &&
      ((z.slots.getD i {}).state == .reserved || (z.slots.getD i {}).state == .filling)) || decide (z.slotBytes < total) ||
      decide (total < offset + data.length)) = true := by
    simp only [(fillable_iff z i x).2 hmine, Nat.not_le.2 hi, Nat.not_lt.2 hfits, Nat.not_lt.2 (show total ≤ z.slotBytes from hsize), decide_false,
      Bool.not_true, Bool.or_self, Bool.false_eq_true, not_false_iff]
  rw [Mach.zPayload, hreach, if_pos rfl, hfind']
  refine (if_neg hgo).trans ?_
  subst hp
  dsimp only
  rw [hdeliver]
  dsimp only
  rw [Bool.or_false]
  split <;> rfl
end

/-- An arrival counts, and flips the phase when its target is reached (R430). -/
theorem setSlot_arrive (z : Zone) (i : Nat) (y : ZSlot) : (z.setSlot i y).arrive =
    { z with slots := setAt z.slots i y, phase := if z.pend ≤ 1 then !z.phase else z.phase, pend := if z.pend ≤ 1 then z.target else z.pend - 1 } := by
  by_cases h : z.pend ≤ 1
  · rw [Zone.arrive, if_pos (show (z.setSlot i y).pend ≤ 1 from h), if_pos h, if_pos h]; rfl
  · rw [Zone.arrive, if_neg (show ¬(z.setSlot i y).pend ≤ 1 from h), if_neg h, if_neg h]; rfl

/-! ## The answer that waiting threads take (R437) -/

/-- What a thread that waits for a peer's answer does with it. -/
def takesAnswer (kd status i : Nat) (t : Thread) : Thread :=
  if kd / 32 % 2 = 1 ∧ status = 1 then { t with status := .ready }
  else ({ t with status := .ready }.setK (kd % 32) (BitVec.ofNat 64 (status * 2 ^ 56 + i))).advance 8
theorem lzReply_eq {m : Mach} {core slot j kd : Nat} {w : Wg} (hw : m.wg? core slot = some w) (hs : (w.thread j).status = .zoneWait none kd)
    (status i : Nat) : lzReply core slot j status i m = some (m.setWg core slot { w with threads := w.threads.map (fun t =>
      if t.status = .zoneWait none kd ∧ t.since = (w.thread j).since then takesAnswer kd status i t else t) }) := by
  have hbit : kd.testBit 5 = true ↔ kd / 32 % 2 = 1 := by rw [Nat.testBit_eq_decide_div_mod_eq, decide_eq_true_eq]
  have hsame (n : Nat) (hn : n < w.threads.length) :
      ((upFrom 0 w.threads.length).filter (fun i => (w.thread i).status == (w.thread j).status && (w.thread i).since == (w.thread j).since)).contains n =
        decide (w.threads[n].status = .zoneWait none kd ∧ w.threads[n].since = (w.thread j).since) := by
    have hthread : w.thread n = w.threads[n] := by rw [Wg.thread, List.getD_eq_getElem _ _ hn]
    rw [Bool.eq_iff_iff, List.contains_iff_mem, List.mem_filter, decide_eq_true_eq, Bool.and_eq_true, beq_iff_eq, beq_iff_eq, hthread, hs, mem_upFrom]
    exact ⟨fun h => h.2, fun h => ⟨⟨Nat.zero_le n, by omega⟩, h⟩⟩
  have hthreads (g : Thread → Thread) : w.threads.mapIdx (fun n x => if ((upFrom 0 w.threads.length).filter (fun i =>
        (w.thread i).status == (w.thread j).status && (w.thread i).since == (w.thread j).since)).contains n then g x else x) =
      w.threads.map (fun t => if t.status = .zoneWait none kd ∧ t.since = (w.thread j).since then g t else t) :=
    List.ext_getElem (by simp only [List.length_mapIdx, List.length_map]) fun n hn _ => by
      rw [List.getElem_mapIdx, List.getElem_map, hsame n (by rwa [List.length_mapIdx] at hn)]
      simp only [decide_eq_true_eq]
  rw [hs] at hthreads
  rw [lzReply]
  simp only [hw, hs, Option.bind_eq_bind, Option.bind_some, hbit, hthreads]
  unfold takesAnswer
  split <;> rfl
theorem lzReply_none {m : Mach} {core slot j : Nat} {w : Wg} (hw : m.wg? core slot = some w) (hs : ∀ kd, (w.thread j).status ≠ .zoneWait none kd)
    (status i : Nat) : lzReply core slot j status i m = none := by
  rw [lzReply, hw]
  dsimp only [Option.bind_eq_bind, Option.bind_some]
  split
  · exact absurd ‹_› (hs _)
  · rfl

end Sys2Proof.Claims
end

section
open Sys2Proof Sys2Proof.Machine Sys2Proof.Claims

/-- Settles O47: names that name no open zone, then one that does, then the reply. The requests that are logged are those of log 65, the messages'
form is log 23's, and a slot some bytes of which were refused is answered with status 3 (log 99). -/
theorem peerZones : Obligations.PeerZones := by
  intro name i offset total data x s
  refine ⟨fun hstale => ?_, fun hreach hclosed => ?_, fun p z hreach hfind => ⟨fun hi hfree hlow => ?_, fun hfull => ?_, fun hi hres hmine => ?_,
    fun hnot => ?_, fun hnot => ?_, fun core slot k hp hi hmine hst hsize hfits htags => ?_⟩, fun core slot j w kd hw hs status _ => ?_,
    fun core slot j w hw hs status => ?_⟩
  · obtain ⟨hreserve, habort, hpayload⟩ := zone_stale s.clk hstale i offset total data
    rw [exec_lzReservationArrive, exec_lzAbortArrive, exec_lzPayloadFlit, lzReservation_eq hreserve, lzAbort_eq habort, lzPayload_refused hpayload]
    exact ⟨rfl, rfl, rfl⟩
  · obtain ⟨hreserve, habort, hpayload⟩ := zone_closed s.clk hreach hclosed i offset total data
    rw [exec_lzReservationArrive, exec_lzAbortArrive, exec_lzPayloadFlit, lzReservation_eq hreserve, lzAbort_eq habort, lzPayload_refused hpayload]
    exact ⟨rfl, rfl, rfl⟩
  · rw [exec_lzReservationArrive, lzReservation_eq (zReserve_takes hreach hfind s.clk hi hfree hlow)]
    rfl
  · have hnone (j : Nat) (hj : j < z.slots.length) : (z.slots.getD j {}).state ≠ .free := by
      rw [List.getD_eq_getElem _ _ hj]
      exact hfull _ (List.getElem_mem hj)
    rw [exec_lzReservationArrive, lzReservation_eq (zReserve_none hreach hfind s.clk hnone)]
  · rw [exec_lzAbortArrive, lzAbort_eq ((zAbort_eq hreach hfind i).trans (if_pos ⟨hi, hres, hmine⟩))]
    rfl
  · have hother : ¬(i < z.slots.length ∧ (z.slots.getD i {}).state = .reserved ∧ (z.slots.getD i {}).sender = some x) := by
      rintro ⟨hi, hres, hmine⟩
      rcases hnot with h | h | h
      exacts [absurd hi (Nat.not_lt.2 h), h hres, h hmine]
    rw [exec_lzAbortArrive, lzAbort_eq ((zAbort_eq hreach hfind i).trans (if_neg hother))]
  · have hbad : z.slots.length ≤ i ∨ ¬fillable z i x ∨ 1024 * 2 ^ z.size < total ∨ total < offset + data.length := by
      rcases hnot with h | h | ⟨hr, hf⟩ | h
      · exact .inl h
      · exact .inr (.inl fun hmine => h hmine.1)
      · exact .inr (.inl fun hmine => hmine.2.elim hr hf)
      · exact .inr (.inr h)
    rw [exec_lzPayloadFlit, lzPayload_refused (zPayload_refused s.clk hreach hfind hbad)]
  · have hlands := zPayload_lands s.clk hreach hfind hp hi ⟨hmine, hst⟩ hsize hfits htags
    refine ⟨fun hmore => ?_, fun hlast => ?_⟩
    · rw [exec_lzPayloadFlit, lzPayload, hlands, if_neg (Nat.not_le.2 hmore)]
      rfl
    · rw [exec_lzPayloadFlit, lzPayload, hlands, if_pos hlast, setSlot_arrive]
      cases (z.slots.getD i {}).marred <;> rfl
  · rw [exec_lzReservationReply]
    exact s.event_next _ (lzReply_eq hw hs status i)
  · rw [exec_lzReservationReply]
    exact s.event_fault _ (lzReply_none hw hs status i)
end

section
/-! SUPPORT. Sparse files written in a run, the drains of a core by their number, and the words a program store takes. -/
namespace Sys2Proof.Claims
open Sys2Proof.Machine

theorem sorted_sset {α : Type} [DecidableEq α] (d : α) (m : Sparse α) (k : Nat) (x : α) (h : sortedFrom none m = true) :
    sortedFrom none (sset d m k x) = true := by
  unfold sset
  split
  · exact sorted_terase m k h
  · exact sorted_tset m k x h
/-- Values written at `b + n` upward of a sorted file: each reads back, every other value stays. -/
theorem sget_writeRun {α : Type} [DecidableEq α] (d : α) (b : Nat) (xs : List α) : ∀ (n : Nat) (m : Sparse α), sortedFrom none m = true →
    let r := (xs.mapIdx (fun i x => (n + i, x))).foldl (fun s e => sset d s (b + e.1) e.2) m
    sortedFrom none r = true ∧ ∀ k, sget d r k = if b + n ≤ k ∧ k < b + n + xs.length then xs.getD (k - (b + n)) d else sget d m k := by
  induction xs with
  | nil => exact fun n m h => ⟨h, fun k => (if_neg (by rw [List.length_nil]; omega)).symm⟩
  | cons x xs ih =>
    intro n m h
    have hshift : (fun i (y : α) => (n + (i + 1), y)) = fun i y => (n + 1 + i, y) := by funext i y; rw [Nat.add_right_comm, Nat.add_assoc]
    obtain ⟨hsorted, hget⟩ := ih (n + 1) (sset d m (b + n) x) (sorted_sset d m _ x h)
    simp only [List.mapIdx_cons, List.foldl_cons, Nat.add_zero, hshift]
    refine ⟨hsorted, fun k => (hget k).trans ?_⟩
    rw [List.length_cons]
    by_cases he : k = b + n
    · rw [if_neg (by omega), if_pos (by omega), he, sget_sset_same d m _ x h, Nat.sub_self, List.getD_cons_zero]
    · rw [sget_sset_other d m x h he]
      by_cases hk : b + (n + 1) ≤ k ∧ k < b + (n + 1) + xs.length
      · rw [if_pos hk, if_pos (by omega), show k - (b + n) = k - (b + (n + 1)) + 1 by omega, List.getD_cons_succ]
      · rw [if_neg hk, if_neg (by omega)]
theorem setStore_get {c : Core} (h : sortedFrom none c.stores = true) {ps q j : Nat} {ws : List V32} (hlen : ws.length = 64) (hj : j < 64) :
    sget 0 (c.setStore ps ws).stores (q * 64 + j) = if q = ps then ws.getD j 0 else sget 0 c.stores (q * 64 + j) := by
  obtain ⟨-, hget⟩ := sget_writeRun (0 : V32) (ps * 64) ws 0 c.stores h
  simp only [Nat.zero_add, Nat.add_zero] at hget
  rw [Core.setStore, hget, hlen]
  by_cases he : q = ps
  · rw [if_pos (by omega), if_pos he, he, Nat.add_sub_cancel_left]
  · rw [if_neg (by omega), if_neg he]

/-! ## The drains of a core -/

theorem modCore_congr {m : Mach} {core : Nat} {f g : Core → Core} (h : f (m.core core) = g (m.core core)) : m.modCore core f = m.modCore core g :=
  congrArg (m.setCore core) h
/-- Without a queued accumulator write nothing goes on when a drain or a pass has gone (R332). -/
theorem settleAccs_onMac {m : Mach} {core : Nat} (h : ∀ i ∈ (m.core core).mats, i.onMac = true) : m.settleAccs core = m := by
  rw [Mach.settleAccs]
  cases (m.core core).mats.length with
  | zero => rfl
  | succ n =>
    rw [Mach.settleAcc]
    split
    · rfl
    next i hi =>
      have hon := List.find?_some hi
      rw [h i (List.mem_of_find?_eq_some hi)] at hon
      exact absurd hon Bool.false_ne_true

section
variable {m : Mach} {core : Nat} {d : Drain} {ds : List Drain} (hd : (m.core core).drains = d :: ds) (hother : ∀ e ∈ ds, e.id ≠ d.id)
include hd hother

theorem setDrain_head {d' : Drain} (hid : d'.id = d.id) : m.setDrain core d' = m.modCore core (fun k => { k with drains := d' :: ds }) := by
  refine modCore_congr ?_
  have hmap : ds.map (fun x => if x.id = d'.id then d' else x) = ds :=
    (List.map_congr_left fun x hx => if_neg (by rw [hid]; exact hother x hx)).trans (List.map_id' ds)
  rw [hd, List.map_cons, if_pos hid.symm, hmap]
theorem dropDrain_head (hacc : ∀ i ∈ (m.core core).mats, i.onMac = true) (htv : d.tv = none) :
    m.dropDrain core d = m.modCore core (fun k => { k with drains := ds }) := by
  have hfilter : (m.core core).drains.filter (·.id ≠ d.id) = ds := by
    rw [hd, List.filter_cons_of_neg (by simp)]
    exact List.filter_eq_self.2 fun x hx => by simpa using hother x hx
  have hcore : m.modCore core (fun c => { c with drains := c.drains.filter (·.id ≠ d.id) }) = m.modCore core (fun k => { k with drains := ds }) :=
    modCore_congr (congrArg (fun l => { m.core core with drains := l }) hfilter)
  rw [Mach.dropDrain, htv]
  dsimp only
  rw [hcore, settleAccs_onMac]
  intro i hi
  rw [Mach.modCore, Mach.setCore_core] at hi
  exact hacc i hi
end

theorem exec_drainStart (core : Nat) (s : State) : exec (.drainStart core) s = execDrainStart core s := rfl
theorem exec_drainComplete (core : Nat) (s : State) : exec (.drainComplete core) s = execDrainComplete core s := rfl
theorem exec_epiStoreWrite (core ps : Nat) (s : State) : exec (.epiStoreWrite core ps) s = execEpiStoreWrite core ps s := rfl
/-- The drain as it starts: row 0 in e0, and the program at its first word. -/
def begun (d : Drain) (w : Wg) : Drain := { (d.beginRow w 0) with running := true }
theorem begun_words (d : Drain) (w : Wg) : (begun d w).words = d.words := by rw [begun, Drain.beginRow, Drain.setReg]
theorem begun_id (d : Drain) (w : Wg) : (begun d w).id = d.id := by rw [begun, Drain.beginRow, Drain.setReg]
theorem begun_pc (d : Drain) (w : Wg) : (begun d w).pc = 0 := by rw [begun, Drain.beginRow]
/-- A drain whose first word is an epilogue word starts at it. -/
theorem drainAt_decodes {m : Mach} {core : Nat} {d d' : Drain} (hpc : d'.pc = 0) (hwords : d'.words = d.words) {i : Instr}
    (h : decodeEp (d.words.getD 0 0).toNat = .ok i) : m.drainAt core d' = m.setDrain core d' := by
  rw [Mach.drainAt, hpc, hwords, if_pos (Nat.zero_lt_succ 63), h]
  rfl

end Sys2Proof.Claims
end

section
open Sys2Proof Sys2Proof.Machine Sys2Proof.Claims

/-- Settles O40. -/
theorem drainEvents : Obligations.DrainEvents := by
  intro core s w hacc
  refine ⟨fun d ds hd hw htv hother => ⟨fun hrun hbefore hword hpoison => ?_, fun hrun hbefore => ?_, fun hrun hrow => ?_⟩,
    fun ps e he hw hlen hsorted hold => ?_⟩
  · obtain ⟨i, hi⟩ := hword
    have hreads : s.m.drainReads core d w 0 = s.m := by rw [Mach.drainReads, hpoison]; rfl
    rw [exec_drainStart]
    refine s.event_next _ ?_
    simp only [hd, hw, hrun, hbefore, htv, hreads, List.head?_cons, Option.bind_eq_bind, Option.bind_some, Bool.or_self, Bool.false_eq_true, if_false]
    rw [← begun, drainAt_decodes (begun_pc d w) (begun_words d w) hi, setDrain_head hd hother (begun_id d w), begun, Drain.beginRow, Wg.accRow]
  · rw [exec_drainStart]
    refine s.event_fault _ ?_
    simp only [hd, hw, hbefore, List.head?_cons, Option.bind_eq_bind, Option.bind_some, Bool.or_true, if_true]
  · rw [exec_drainComplete]
    refine s.event_next _ ?_
    have hfind : (s.m.core core).drains.find? (fun d => d.running && d.row == 32) = some d := by
      rw [hd, List.find?_cons_of_pos (by rw [hrun, hrow]; rfl)]
    rw [hfind]
    refine congrArg some ?_
    rw [Mach.modWg_eq _ _ hw]
    exact dropDrain_head (m := s.m.setWg core d.slot _) hd hother hacc htv
  · have hnone : (s.m.core core).drains.any (fun d => d.ps == ps && decide (d.seq < e.seq)) = false := by
      refine List.any_eq_false.2 fun d hdm => ?_
      rw [Bool.and_eq_true, beq_iff_eq, decide_eq_true_eq]
      exact fun ⟨hps, hlt⟩ => absurd (hold d hdm hps) (Nat.not_le.2 hlt)
    rw [exec_epiStoreWrite]
    refine ⟨_, s.event_next _ (m := (s.m.modCore core (fun c => { (c.setStore ps e.words) with epis := c.epis.filter (·.id ≠ e.id) })).setWg core e.slot
      { w with epiLoaded := (w.epiLoaded.filter (fun x => x.1 ≠ ps)) ++ [(ps, e.words)] }) ?_, rfl, ?_, fun q j hj => ?_⟩
    · simp only [he, hnone, Option.bind_eq_bind, Option.bind_some, Bool.false_eq_true, if_false]
      exact congrArg some (Mach.modWg_eq _ _ hw)
    · exact congrArg Core.epis (Mach.setCore_core ..)
    · refine Eq.trans ?_ (setStore_get hsorted hlen hj)
      exact congrArg (fun l : Sparse V32 => sget 0 l (q * 64 + j)) ((congrArg Core.stores (Mach.setCore_core ..)).trans rfl)
end

section
/-! SUPPORT. A function's registers, its command ring and its completion ring (R444, R445). -/
namespace Sys2Proof.Claims
open Sys2Proof.Machine

theorem setFn_setFn (m : Mach) (vf : Nat) (x y : Fn) : (m.setFn vf x).setFn vf y = m.setFn vf y := by
  rw [Mach.setFn, Mach.setFn, tset_tset]
  rfl
theorem modFn_setFn (m : Mach) (vf : Nat) (x : Fn) (g : Fn → Fn) : (m.setFn vf x).modFn vf g = m.setFn vf (g x) := by
  rw [Mach.modFn, Mach.setFn_fn, setFn_setFn]
theorem setReg_eq (m : Mach) (vf off v : Nat) :
    m.setReg vf off v = m.setFn vf { m.fn vf with regs := tset (m.fn vf).regs off (BitVec.ofNat 64 v) } := rfl
theorem exec_registerWrite (fn off v : Nat) (s : State) : exec (.registerWrite fn off v) s = execRegisterWrite fn off v s := rfl
theorem exec_cqtailDoorbell (fn v : Nat) (s : State) : exec (.cqtailDoorbell fn v) s = execCqtailDoorbell fn v s := rfl
theorem exec_cpheadWrite (fn v : Nat) (s : State) : exec (.cpheadWrite fn v) s = execCpheadWrite fn v s := rfl
theorem always_eq {s : State} {f : Clock → Mach → Mach} {m : Mach} (h : f s.clk s.m = m) : s.always f = .next (withM s m) := by
  rw [State.always, h]
  rfl

/-! ## Rings -/

/-- A ring of size code `k` has `2 ^ k` entries. -/
theorem ringLen_code {x : BitVec 64} {k : Nat} (h4 : 4 ≤ k) (h12 : k ≤ 12) (h : x = BitVec.ofNat 64 k) : ringLen x.toNat = 2 ^ k := by
  have hk : x.toNat % 16 = k := by rw [h, BitVec.toNat_ofNat]; omega
  rw [ringLen, hk, if_pos ⟨h4, h12⟩]
theorem ringLen_none {x : Nat} (h : x % 16 < 4 ∨ 12 < x % 16) : ringLen x = 0 := if_neg (by omega)
theorem ringDist_eq {n tail i : Nat} (ht : tail < n) (hi : i < n) : (tail + n - i) % n = if i ≤ tail then tail - i else tail + n - i := by
  by_cases h : i ≤ tail
  · rw [if_pos h, show tail + n - i = tail - i + n by omega, Nat.add_mod_right, Nat.mod_eq_of_lt (by omega)]
  · rw [if_neg h, Nat.mod_eq_of_lt (by omega)]
/-- The next place of the ring is one nearer to the tail. -/
theorem ringDist_next {n tail i : Nat} (ht : tail < n) (hi : i < n) (h : i ≠ tail) :
    (tail + n - i) % n = (tail + n - (i + 1) % n) % n + 1 := by
  rw [ringDist_eq ht hi]
  by_cases hlast : i + 1 = n
  · rw [hlast, Nat.mod_self, Nat.sub_zero, Nat.add_mod_right, Nat.mod_eq_of_lt ht, if_neg (by omega)]
    omega
  · rw [Nat.mod_eq_of_lt (show i + 1 < n by omega), ringDist_eq ht (by omega)]
    by_cases hle : i ≤ tail
    · rw [if_pos hle, if_pos (by omega)]; omega
    · rw [if_neg hle, if_neg (by omega)]; omega
/-- The device reads the commands from its head up to the tail, in ring order. -/
theorem readRing_eq (m : Mach) (base : Nat) {n tail : Nat} (hn : 0 < n) (ht : tail < n) : ∀ (fuel i : Nat), i < n → (tail + n - i) % n ≤ fuel →
    m.readRing base n fuel i tail = (List.range ((tail + n - i) % n)).map (fun j => HostMem.readN m.host (base + 64 * ((i + j) % n)) 64) := by
  intro fuel
  induction fuel with
  | zero =>
    intro i _ hf
    rw [Nat.le_zero.1 hf]
    rfl
  | succ fuel ih =>
    intro i hi hf
    rw [Mach.readRing]
    by_cases he : i = tail
    · rw [if_pos he, he, Nat.add_sub_cancel_left, Nat.mod_self]
      rfl
    · have hnext := ringDist_next ht hi he
      have hhere : (i + 0) % n = i := Nat.mod_eq_of_lt hi
      rw [if_neg he, ih ((i + 1) % n) (Nat.mod_lt _ hn) (by omega), hnext, List.range_succ_eq_map, List.map_cons, List.map_map,
        hhere]
      refine congrArg _ (List.map_congr_left fun j _ => ?_)
      rw [Function.comp_apply, Nat.mod_add_mod, Nat.add_right_comm, Nat.add_assoc]

/-! ## Completions (R445) -/

/-- The function with one more completion waiting, and the function once the first has been written. -/
def waits (f : Fn) (bs : List Byte) (irq : Bool) : Fn := { f with compl := f.compl ++ [(bs, irq)] }
def wrote (f : Fn) (rest : List (List Byte × Bool)) (t : Nat) : Fn := { f with compl := rest, regs := tset f.regs rCptail (BitVec.ofNat 64 t) }

section
variable {f : Fn} {k t : Nat} (h4 : 4 ≤ k) (h12 : k ≤ 12) (hsize : (tget f.regs 0x38).getD 0 = BitVec.ofNat 64 k)
    (htail : (tget f.regs 0x48).getD 0 = BitVec.ofNat 64 t) (ht : t < 2 ^ k)
include h4 h12 hsize htail ht

omit h4 hsize in
theorem cptail_eq : f.reg rCptail = t := by
  have hpow : 2 ^ k ≤ 2 ^ 12 := Nat.pow_le_pow_right (by decide) h12
  rw [Fn.reg, show rCptail = 0x48 from rfl, htail, BitVec.toNat_ofNat, Nat.mod_eq_of_lt (by omega)]
theorem complRoom_iff : f.complRoom = true ↔ (t + 1) % 2 ^ k ≠ ((tget f.regs 0x40).getD 0).toNat % 2 ^ k := by
  have hlen : ringLen (f.reg rCpsize) = 2 ^ k := ringLen_code h4 h12 hsize
  have hpos : 2 ^ k ≠ 0 := Nat.pos_iff_ne_zero.1 (Nat.two_pow_pos k)
  rw [Fn.complRoom, hlen, cptail_eq h12 htail ht, Bool.and_eq_true, bne_iff_ne, bne_iff_ne, and_iff_right hpos]
  rfl
/-- The oldest completion is written in its place, and the tail moves, where the ring has room. -/
theorem writeCompls_writes {m : Mach} {vf n : Nat} (hf : m.fn vf = f) {bs : List Byte} {irq : Bool} {rest : List (List Byte × Bool)}
    (hc : f.compl = (bs, irq) :: rest) (hroom : (t + 1) % 2 ^ k ≠ ((tget f.regs 0x40).getD 0).toNat % 2 ^ k) :
    let m' := ({ m with host := HostMem.writeL m.host (((tget f.regs 0x30).getD 0).toNat + 16 * t) bs } : Mach).setFn vf (wrote f rest ((t + 1) % 2 ^ k))
    m.writeCompls vf (n + 1) = (if irq then m'.postHost vf 0 [] else m').writeCompls vf n := by
  have hlen : ringLen (f.reg rCpsize) = 2 ^ k := ringLen_code h4 h12 hsize
  rw [Mach.writeCompls]
  simp only [hf, hc, (complRoom_iff h4 h12 hsize htail ht).2 hroom, hlen, cptail_eq h12 htail ht, Bool.not_true, Bool.false_eq_true, if_false,
    Mach.setReg, modFn_setFn]
  rfl
/-- A full ring keeps what waits. -/
theorem writeCompls_full {m : Mach} {vf : Nat} (hf : m.fn vf = f) (hroom : (t + 1) % 2 ^ k = ((tget f.regs 0x40).getD 0).toNat % 2 ^ k) (n : Nat) :
    m.writeCompls vf n = m := by
  have hfull : f.complRoom = false := Bool.eq_false_iff.2 fun hr => (complRoom_iff h4 h12 hsize htail ht).1 hr hroom
  cases n with
  | zero => rfl
  | succ n =>
    rw [Mach.writeCompls]
    simp only [hf, hfull, Bool.not_false, if_true]
    split <;> rfl
end

theorem finish_eq (m : Mach) (c : Cmd) (op st x : Nat) : m.finish c op st x =
    (m.setFn c.ring (waits (m.fn c.ring) (completion c op st x) c.irq)).writeCompls c.ring ((m.fn c.ring).compl.length + 1) := by
  have hpost : m.finish c op st x = (m.setFn c.ring (waits (m.fn c.ring) (completion c op st x) c.irq)).writeCompls c.ring
      ((m.setFn c.ring (waits (m.fn c.ring) (completion c op st x) c.irq)).fn c.ring).compl.length := rfl
  rw [hpost, Mach.setFn_fn, waits, List.length_append]
  rfl
theorem wrote_waits {f : Fn} (h : f.compl = []) (bs : List Byte) (irq : Bool) (t : Nat) :
    wrote (waits f bs irq) [] t = { f with regs := tset f.regs rCptail (BitVec.ofNat 64 t) } := by
  rw [← h]
  rfl
/-- A function set again, and the host's memory with it. -/
theorem setFn_host_setFn (m : Mach) (vf : Nat) (x y : Fn) (host : List Host.Cell) :
    ({ m.setFn vf x with host } : Mach).setFn vf y = { m.setFn vf y with host } :=
  congrArg (fun m : Mach => { m with host }) (setFn_setFn m vf x y)

end Sys2Proof.Claims
end

section
open Sys2Proof Sys2Proof.Machine Sys2Proof.Claims

/-- Settles O50. A completion is written when its command ends (log 31), and its interrupt is the message of vector 0 with no bytes (log 53). -/
theorem hostRegisters : Obligations.HostRegisters := by
  intro fn off v k t s
  dsimp only
  refine ⟨fun h => ?_, fun h => ?_, fun h => ?_, fun h => ?_, fun h4 h12 hsize => ?_, fun h => ?_, fun h => ?_,
    fun c op st x hring h4 h12 hsize htail ht => ⟨fun hempty hroom => ?_, fun hfull => ?_, fun hfull hone hroom hv => ?_⟩⟩
  · rw [exec_registerWrite]
    refine always_eq ?_
    rcases h with rfl | rfl <;> rfl
  · rw [exec_registerWrite]
    refine always_eq ?_
    rcases h with rfl | rfl <;> rfl
  · rw [exec_registerWrite, h]
    exact always_eq rfl
  · simp only [List.mem_cons, List.not_mem_nil, or_false, not_or] at h
    obtain ⟨h1, h2, h3, h4, h5⟩ := h
    rw [exec_registerWrite]
    exact always_eq ((if_neg (not_or_intro h1 h3)).trans ((if_neg (not_or_intro h2 h4)).trans (if_neg h5)))
  · have hlen : ringLen ((s.m.fn fn).reg rCqsize) = 2 ^ k := ringLen_code h4 h12 hsize
    have hpos : 0 < 2 ^ k := Nat.two_pow_pos k
    rw [exec_cqtailDoorbell]
    refine always_eq ?_
    simp only [hlen, Nat.pos_iff_ne_zero.1 hpos, if_false, setReg_eq, modFn_setFn]
    rw [readRing_eq s.m _ hpos (Nat.mod_lt _ hpos) _ _ (Nat.mod_lt _ hpos) (Nat.le_of_lt (Nat.mod_lt _ hpos))]
    rfl
  · rw [exec_cqtailDoorbell]
    exact always_eq (if_pos (ringLen_none h))
  · rw [exec_cpheadWrite]
    refine always_eq ?_
    simp only [setReg_eq, Mach.setFn_fn, h, List.length_nil]
    rfl
  · subst hring
    have hwrites := writeCompls_writes (f := waits (s.m.fn c.ring) (completion c op st x) c.irq) h4 h12 hsize htail ht
      (m := s.m.setFn c.ring (waits (s.m.fn c.ring) (completion c op st x) c.irq)) (n := 0) (Mach.setFn_fn ..) (rest := [])
      (by rw [waits, hempty]; rfl) hroom
    rw [wrote_waits hempty, setFn_host_setFn] at hwrites
    rw [finish_eq, List.length_eq_zero_iff.2 hempty]
    exact ⟨fun hirq => hwrites.trans (by rw [hirq]; rfl), fun hirq => hwrites.trans (by rw [hirq]; rfl)⟩
  · subst hring
    rw [finish_eq, writeCompls_full (f := waits (s.m.fn c.ring) (completion c op st x) c.irq) h4 h12 hsize htail ht (Mach.setFn_fn ..) hfull]
    rfl
  · rw [exec_cpheadWrite]
    refine always_eq ?_
    have htoNat : (BitVec.ofNat 64 v).toNat = v := by rw [BitVec.toNat_ofNat, Nat.mod_eq_of_lt hv]
    have hget (off : Nat) (hne : off ≠ 0x40) : tget (tset (s.m.fn fn).regs 0x40 (BitVec.ofNat 64 v)) off = tget (s.m.fn fn).regs off :=
      tget_tset_other _ _ hne
    have hwrites := writeCompls_writes (f := { s.m.fn fn with regs := tset (s.m.fn fn).regs 0x40 (BitVec.ofNat 64 v) }) h4 h12
      (by rw [hget _ (by decide)]; exact hsize) (by rw [hget _ (by decide)]; exact htail) ht
      (m := s.m.setReg fn rCphead v) (n := 0) (Mach.setFn_fn ..) (rest := []) hone
      (by rw [tget_tset_same, Option.getD_some, htoNat]; exact hroom)
    rw [setReg_eq, setFn_host_setFn] at hwrites
    have hlen : ((s.m.setReg fn rCphead v).fn fn).compl.length = 1 := by rw [setReg_eq, Mach.setFn_fn, hone]; rfl
    dsimp only
    rw [hlen, setReg_eq]
    refine hwrites.trans ?_
    dsimp only
    rw [hget 0x30 (by decide)]
    rfl
end

section
/-! SUPPORT. A quiet group (R397, R400): nothing held, nothing buffered, no line in its L1, so nothing precedes an instruction that releases. -/
namespace Sys2Proof.Claims
open Sys2Proof.Machine

theorem heldLate_none {c : Ctx} (hn : NoneHeld c) (ordered : Bool) (accs : List Acc) : c.heldLate ordered accs = [] := by
  rcases hn with ho | hheld
  · exact Ctx.heldLate_unordered ho ordered accs
  · rw [Ctx.heldLate]
    split
    · rfl
    · split
      · rfl
      next l hl =>
        refine List.filter_eq_nil_iff.2 fun i _ hi => ?_
        obtain ⟨o, ho, hg⟩ := List.any_eq_true.1 hi
        simp only [Bool.and_eq_true, beq_iff_eq] at hg
        exact hheld l hl o ho hg.1.1
theorem afterHeld_none {c : Ctx} (hn : NoneHeld c) (clk : Clock) (k : Mach) : c.afterHeld clk k = k := by
  rw [Ctx.afterHeld, heldLate_none hn]
  rfl

section
variable {s : State} {c : Ctx} (h : Issues s c)
include h

theorem release_quiet (hq : Quiet s c) (clk : Clock) (scope : Nat) (uo : Bool) : s.m.release clk c.core c.slot scope uo = s.m := by
  rw [Mach.release_unbuffered clk (Mach.ctx?_wg h) hq.2.1, Mach.writeBackAll_of_empty hq.2.2, ite_self]
/-- The group goes on after one more change of its workgroup that leaves its threads alone. -/
theorem retire_setWg {w : Wg} {g : Wg → Wg} (hg : (g c.wg).modThreads c.ig.threads (·.advance c.len) = w) : c.retire (c.m.atWg c g) = s.m.setWg c.core c.slot w := by
  rw [atWg_setWg h, Ctx.retire, setWg_atWg, hg]
end
/-- Threads that wait while the rest of the group goes on. -/
theorem modThreads_waits (w : Wg) (ts is : List Nat) (f g : Thread → Thread) :
    (w.modThreads ts f).modThreads (is.filter (fun t => !ts.contains t)) g =
      { w with threads := w.threads.mapIdx (fun i x => if ts.contains i then f x else if is.contains i then g x else x) } := by
  simp only [Wg.modThreads, List.mapIdx_mapIdx]
  congr 1
  refine List.mapIdx_eq_mapIdx_iff.2 fun i _ => ?_
  by_cases ht : ts.contains i = true
  · simp [List.contains_iff_mem.1 ht]
  · simp [mt List.contains_iff_mem.2 ht]

end Sys2Proof.Claims
end

section
/-! SUPPORT. The slot descriptor (R356), and the instructions of group Q and group R. -/
namespace Sys2Proof.Claims
open Sys2Proof.Machine

theorem exec_fsQuery (d slot sel : Nat) (s : State) : exec (.fsQuery d slot sel) s = s.group (fsQueryRun d slot sel) := rfl
theorem exec_fsLoad (d slot a : Nat) (s : State) : exec (.fsLoad d slot a) s = s.group (fsLoadRun d slot a) := rfl
theorem exec_fsFence (slot : Nat) (s : State) : exec (.fsFence slot) s = s.group (fsFenceRun false slot) := rfl
theorem exec_fsFenceDev (slot : Nat) (s : State) : exec (.fsFenceDev slot) s = s.group (fsFenceRun true slot) := rfl
theorem exec_fsPin (slot : Nat) (s : State) : exec (.fsPin slot) s = s.group (fsPinRun slot) := rfl
theorem exec_fsUnpin (slot : Nat) (s : State) : exec (.fsUnpin slot) s = s.group (fsUnpinRun slot) := rfl
theorem exec_bdSet (bd pol type lo hi : Nat) (s : State) : exec (.bdSet bd pol type lo hi) s = s.group (bdSetRun bd pol type lo hi) := rfl
theorem exec_bdClr (bd : Nat) (s : State) :
    exec (.bdClr bd) s = s.group (fun _ c => c.retire (if c.act.isEmpty then c.m else c.setBd bd {})) := rfl
theorem exec_bdStat (d bd sel : Nat) (s : State) : exec (.bdStat d bd sel) s = s.group (fun _ c => c.retireK c.m d ((c.bd bd).stat sel)) := rfl
theorem exec_bdStatClr (d bd sel : Nat) (s : State) : exec (.bdStatClr d bd sel) s =
    s.group (fun _ c => c.retireK (if c.act.isEmpty then c.m else c.setBd bd (c.bd bd).cleared) d ((c.bd bd).stat sel)) := rfl

/-- What the descriptor of a slot says beside its plane's format. -/
def slotRest (s : State) (c : Ctx) (slot : Nat) : Nat := if slot < 3 then 2 ^ 10 else
  2 ^ 8 * (s.m.planes c.core slot).cv + 2 ^ 9 * bit ((s.m.core c.core).boundTo slot (1 - (s.m.planes c.core slot).cv) none) +
    2 ^ 31 * (s.m.pinners c.vf slot).length + 2 ^ 48 * ((tget (s.m.fn c.vf).slots slot).getD {}).gen

/-- The fields of a slot descriptor lie where R356 puts them. -/
theorem slotTail_eq (cv shadow rom : Nat) : pack [(8, 0), (1, cv), (1, shadow), (1, rom)] = 2 ^ 8 * cv + 2 ^ 9 * shadow + 2 ^ 10 * rom := by
  simp only [pack]
  omega
theorem slotHead_eq (key kilvas flags kind ebits w pins gen : Nat) :
    pack [(11, 0), (3, key), (1, kilvas), (4, flags), (3, kind), (5, ebits), (4, w), (17, pins), (16, gen)] =
      2 ^ 11 * key + 2 ^ 14 * kilvas + 2 ^ 15 * flags + 2 ^ 19 * kind + 2 ^ 22 * ebits + 2 ^ 27 * w + (2 ^ 31 * pins + 2 ^ 48 * gen) := by
  simp only [pack]
  omega

section
variable {s : State} {c : Ctx} (h : Issues s c)
include h

theorem slotWord_none {slot : Nat} (hp : s.m.plane c.core slot = none) : c.slotWord slot = 2 ^ 19 * 7 + slotRest s c slot := by
  have hslot : ¬slot < 3 := fun hlt => by rw [Mach.plane, if_pos hlt] at hp; exact Option.some_ne_none _ hp
  rw [Ctx.slotWord, Mach.ctx?_m h, hp, slotRest, if_neg hslot]
  simp only [slotTail_eq, slotHead_eq, hslot, if_false, Planes.shadow, Fn.slotEntry, decide_false, Bool.not_false, Bool.true_and]
  rw [show bit false = 0 from rfl]
  ring
theorem slotWord_some {slot : Nat} {f : Fmt} (hp : s.m.plane c.core slot = some f) : c.slotWord slot =
    (if f.kilvas then 0 else 2 ^ 11 * f.keyidx) + 2 ^ 14 * bit f.kilvas + 2 ^ 15 * f.flags + 2 ^ 19 * f.kind + 2 ^ 22 * (f.ebits % 16) + 2 ^ 27 * f.w +
      slotRest s c slot := by
  have hkey : 2 ^ 11 * (if f.kilvas then 0 else f.keyidx) = if f.kilvas then 0 else 2 ^ 11 * f.keyidx := by rw [mul_ite, Nat.mul_zero]
  rw [Ctx.slotWord, Mach.ctx?_m h, hp, slotRest]
  by_cases hslot : slot < 3
  · simp only [slotTail_eq, slotHead_eq, hkey, hslot, if_true, decide_true, Bool.not_true, Bool.false_and]
    rw [show bit false = 0 from rfl, show bit true = 1 from rfl]
    ring
  · simp only [slotTail_eq, slotHead_eq, hkey, hslot, if_false, Planes.shadow, Fn.slotEntry, decide_false, Bool.not_false, Bool.true_and]
    rw [show bit false = 0 from rfl]
    ring
end

/-- The machine with one more request of the function's before its loader. -/
def asksLoader (m : Mach) (vf slot addr : Nat) : Mach := ({ m with nextId := m.nextId + 1, seq := m.seq + 1 } : Mach).modFn vf (fun f =>
  { f with loads := f.loads ++ [{ id := m.nextId, slot, addr, cmd := none }] })
theorem asksLoader_loads (m : Mach) (vf slot addr : Nat) :
    ((asksLoader m vf slot addr).fn vf).loads = (m.fn vf).loads ++ [{ id := m.nextId, slot, addr, cmd := none }] := by
  rw [asksLoader, Mach.modFn_fn]
  rfl

section
variable {s : State} {c : Ctx} (h : Issues s c)
include h

/-- A value is written to kD of every active lane. -/
theorem exec_answersK {i : Instr} {f : Clock → Ctx → Mach} (he : exec i s = s.group f) {d x : Nat} (hf : f s.clk c = c.retireK c.m d x) :
    exec i s = .next (put s c (each c (fun t => t.setK d (BitVec.ofNat 64 x)))) :=
  exec_withM h he (hf.trans (retireK_each h d x))
/-- The whole group goes on. -/
theorem exec_goesOn {i : Instr} {f : Clock → Ctx → Mach} (he : exec i s = s.group f) (hf : f s.clk c = c.retire c.m) :
    exec i s = .next (put s c (each c id)) := exec_withM h he (hf.trans (retire_each h))
theorem fsQueryRun_word {d slot sel : Nat} {f : Fmt} (hp : s.m.plane c.core slot = some f) (hsel : sel ≠ 0) :
    fsQueryRun d slot sel s.clk c =
      c.retireK c.m d (if sel ≤ 4 then field f.digest (64 * (sel - 1)) 64 else if sel = 5 then f.serial else f.keyid % 2 ^ 64) := by
  rw [fsQueryRun, if_neg hsel, Mach.ctx?_m h, hp]
variable (ha : c.act ≠ [])
include ha

/-- `fs.load` by a quiet group hands the loader its request, and the active threads wait for it. -/
theorem fsLoadRun_queues {d slot a : Nat} (hslot : 3 ≤ slot) (hq : Quiet s c) (hn : NoneHeld c) (hal : aOf c a % 64 = 0) :
    fsLoadRun d slot a s.clk c = (asksLoader s.m c.vf slot (aOf c a)).setWg c.core c.slot
        (Wg.unfuse { c.wg with threads := c.wg.threads.mapIdx (fun i x =>
          if c.act.contains i then { x with status := .fsLoad s.m.nextId none d } else if c.ig.threads.contains i then x.advance c.len else x) } c.act) := by
  have haddr : c.leadA a = aOf c a := rfl
  rw [fsLoadRun, if_neg (Nat.not_lt.2 hslot), if_neg (mt List.isEmpty_iff.1 ha), haddr, if_neg (not_not.2 hal), afterHeld_none hn,
    seal_quiet h hq, release_quiet h hq]
  refine (Mach.atWg_eq (m := asksLoader s.m c.vf slot (aOf c a)) _ (show Mach.wg? s.m c.core c.slot = some c.wg from Mach.ctx?_wg h)).trans
    (congrArg _ ?_)
  rw [modThreads_waits]
theorem fsFenceRun_free {slot : Nat} (hslot : 3 ≤ slot) (hfree : ∀ core, (s.m.core core).mats = [] ∧ (s.m.core core).drains = []) (dev : Bool) :
    fsFenceRun dev slot s.clk c = c.retire c.m := by
  have hbound : c.m.fenceHeld slot (c.fencePlanes dev slot) none = false := List.any_eq_false.2 fun p _ => by
    obtain ⟨hm, hd⟩ := hfree p.1
    rw [Mach.ctx?_m h, Core.boundTo, hm, hd]
    exact Bool.false_ne_true
  have hgo : (slot < 3 || c.act.isEmpty) = false := by simp [ha, hslot]
  rw [fsFenceRun, hgo]
  simp only [hbound, Bool.false_eq_true, if_false]
/-- A queued pass that is bound to the slot's shadow plane holds the fence. -/
theorem fsFenceRun_held {slot acc bver : Nat} {ov : Bool} {f : Fmt} {rows : List ARow} {t : Option Nat} {i : MatItem} (hslot : 3 ≤ slot)
    (hi : i ∈ (s.m.core c.core).mats) (hw : i.work = .pass acc ov slot (1 - (s.m.planes c.core slot).cv) f bver rows t) :
    fsFenceRun false slot s.clk c = c.wait s.clk s.m c.act (.fsFence slot [(c.core, 1 - (s.m.planes c.core slot).cv)]) := by
  have hplanes : c.fencePlanes false slot = [(c.core, 1 - (s.m.planes c.core slot).cv)] := by rw [Ctx.fencePlanes, Mach.ctx?_m h]; rfl
  have hbound : (s.m.core c.core).boundTo slot (1 - (s.m.planes c.core slot).cv) none = true := by
    rw [Core.boundTo]
    refine Bool.or_eq_true_iff.2 (.inl (List.any_eq_true.2 ⟨i, hi, ?_⟩))
    simp only [hw, beq_self_eq_true, Bool.and_self]
  have hheld : s.m.fenceHeld slot [(c.core, 1 - (s.m.planes c.core slot).cv)] none = true := by
    rw [Mach.fenceHeld, List.any_cons, hbound, Bool.true_or]
  have hgo : (slot < 3 || c.act.isEmpty) = false := by simp [ha, hslot]
  rw [fsFenceRun, hgo, hplanes, Mach.ctx?_m h]
  simp only [hheld, Bool.false_eq_true, if_false, if_true]
theorem fsPinRun_pins {slot : Nat} (hslot : 3 ≤ slot) (hf : ((tget (s.m.fn c.vf).slots slot).getD {}).fmt ≠ none) (hnot : slot ∉ c.wg.pins) :
    fsPinRun slot s.clk c = s.m.setWg c.core c.slot { each c id with pins := c.wg.pins ++ [slot] } := by
  have hsome : ¬((c.m.fn c.vf).slotEntry slot).fmt.isNone = true := fun hn => hf (Option.isNone_iff_eq_none.1 (Mach.ctx?_m h ▸ hn))
  have hgo : (c.act.isEmpty || c.wg.pins.contains slot) = false := by simp [ha, hnot]
  rw [fsPinRun, if_neg (Nat.not_lt.2 hslot), if_neg hsome, hgo]
  refine (if_neg Bool.false_ne_true).trans (retire_setWg h ?_)
  exact congrArg (fun w : Wg => { w with pins := c.wg.pins ++ [slot] }) (modThreads_each h)
theorem fsUnpinRun_unpins (slot : Nat) :
    fsUnpinRun slot s.clk c = s.m.setWg c.core c.slot { each c id with pins := c.wg.pins.filter (· ≠ slot) } := by
  rw [fsUnpinRun, if_neg (mt List.isEmpty_iff.1 ha)]
  refine retire_setWg h ?_
  exact congrArg (fun w : Wg => { w with pins := c.wg.pins.filter (· ≠ slot) }) (modThreads_each h)

/-! ## Bound registers (R379, R380) -/

omit ha in
theorem retire_setBd (bd : Nat) (b : Bound) :
    c.retire (c.setBd bd b) = s.m.setWg c.core c.slot { each c id with bds := setAt c.wg.bds bd b } := by
  refine retire_setWg h ?_
  exact congrArg (fun w : Wg => { w with bds := setAt c.wg.bds bd b }) (modThreads_each h)
omit ha in
theorem retireK_setBd (bd d x : Nat) (b : Bound) : c.retireK (c.setBd bd b) d x =
    s.m.setWg c.core c.slot { each c (fun t => t.setK d (BitVec.ofNat 64 x)) with bds := setAt c.wg.bds bd b } := by
  rw [Ctx.setBd, atWg_setWg h, Ctx.retireK, Ctx.retireWith, setWg_atWg]
  exact congrArg (fun w : Wg => s.m.setWg c.core c.slot { w with bds := setAt c.wg.bds bd b })
    (each_eq c (fun t => t.setK d (BitVec.ofNat 64 x)) (act_sub h))
omit h in
theorem bdSetRun_eq (bd pol type lo hi : Nat) (clk : Clock) :
    let w := if type < 3 then 2 ^ 32 else 2 ^ 16
    let l := kOf c lo % w
    let h := kOf c hi % w
    bdSetRun bd pol type lo hi clk c =
      if (boundVal type l).isNan = false ∧ (boundVal type h).isNan = false ∧ (boundVal type h).lessThan (boundVal type l) = false
      then c.retire (c.setBd bd { policy := pol, type, lo := l, hi := h }) else c.badValue clk c.m 8 := by
  intro w l h
  have hbad : ((boundVal type l).isNan || (boundVal type h).isNan || (boundVal type h).lessThan (boundVal type l)) = true ↔
      ¬((boundVal type l).isNan = false ∧ (boundVal type h).isNan = false ∧ (boundVal type h).lessThan (boundVal type l) = false) := by
    simp only [Bool.or_eq_true, ← Bool.not_eq_true, not_and_or, not_not, or_assoc]
  rw [bdSetRun, if_neg (mt List.isEmpty_iff.1 ha)]
  by_cases hok : (boundVal type l).isNan = false ∧ (boundVal type h).isNan = false ∧ (boundVal type h).lessThan (boundVal type l) = false
  · rw [if_pos hok]
    exact if_neg fun hb => hbad.1 hb hok
  · rw [if_neg hok]
    exact if_pos (hbad.2 hok)
end
/-- The value of `bd.stat` (R380). -/
theorem boundStat_eq (b : Bound) (sel : Nat) : b.stat sel = match sel with
    | 0 => b.policy + 4 * b.type + 256 * bit b.v + 2 ^ 48 * b.count
    | 1 => b.lo + 2 ^ 32 * b.hi
    | 2 => b.first.toNat % 2 ^ 64
    | _ => b.first.toNat / 2 ^ 64 + 65536 * bit b.f := by
  match sel with
  | 0 =>
    simp only [Bound.stat, pack]
    omega
  | 1 | 2 | _ + 3 => rfl

end Sys2Proof.Claims
end

section
open Sys2Proof Sys2Proof.Machine Sys2Proof.Claims

/-- Settles the first part of O34, an instruction at a time. -/
theorem formatSlots : FormatSlots := by
  intro d slot a sel s c h
  refine ⟨fun hp => ⟨fun hsel => ?_, fun _ _ _ => ?_⟩, fun f hp => ⟨fun j hj => ?_, ?_, ?_, fun _ _ _ _ _ _ _ => ?_⟩, fun ha hslot hq hn hal => ?_,
    fun hslot => ⟨?_, ?_, ?_, ?_⟩, fun ha hslot hfree => ⟨?_, ?_⟩, fun i acc ov f bver rows t ha hslot hi hw => ?_, fun ha hslot hf hnot => ?_,
    fun hslot hf => ?_, fun ha => ?_⟩
  · exact exec_answersK h (exec_fsQuery d slot sel s) (by rw [fsQueryRun, if_neg (Nat.pos_iff_ne_zero.1 hsel), Mach.ctx?_m h, hp])
  · exact exec_answersK h (exec_fsQuery d slot 0 s) (by rw [fsQueryRun, if_pos rfl, slotWord_none h hp]; rfl)
  · exact exec_answersK h (exec_fsQuery d slot (j + 1) s) (by rw [fsQueryRun_word h hp (Nat.succ_ne_zero j), if_pos (by omega)]; rfl)
  · exact exec_answersK h (exec_fsQuery d slot 5 s) (by rw [fsQueryRun_word h hp (by decide)]; rfl)
  · have hkey : BitVec.ofNat 64 (f.keyid % 2 ^ 64) = BitVec.ofNat 64 f.keyid :=
      BitVec.eq_of_toNat_eq (by rw [BitVec.toNat_ofNat, BitVec.toNat_ofNat, Nat.mod_mod])
    rw [← hkey]
    exact exec_answersK h (exec_fsQuery d slot 6 s) (by rw [fsQueryRun_word h hp (by decide)]; rfl)
  · exact exec_answersK h (exec_fsQuery d slot 0 s) (by rw [fsQueryRun, if_pos rfl, slotWord_some h hp]; rfl)
  · refine ⟨_, exec_withM h (exec_fsLoad d slot a s) (fsLoadRun_queues h ha hslot hq hn hal), rfl, rfl, ?_, rfl⟩
    exact asksLoader_loads s.m c.vf slot (aOf c a)
  · exact exec_withM h (exec_fsLoad d slot a s) (by rw [fsLoadRun, if_pos hslot, Mach.ctx?_m h])
  · exact exec_goesOn h (exec_fsPin slot s) (by rw [fsPinRun, if_pos hslot])
  · exact exec_goesOn h (exec_fsFence slot s) (by rw [fsFenceRun, decide_eq_true hslot]; rfl)
  · exact exec_goesOn h (exec_fsFenceDev slot s) (by rw [fsFenceRun, decide_eq_true hslot]; rfl)
  · exact exec_goesOn h (exec_fsFence slot s) (fsFenceRun_free h ha hslot hfree false)
  · exact exec_goesOn h (exec_fsFenceDev slot s) (fsFenceRun_free h ha hslot hfree true)
  · exact exec_withM h (exec_fsFence slot s) (fsFenceRun_held h ha hslot hi hw)
  · exact exec_withM h (exec_fsPin slot s) (fsPinRun_pins h ha hslot hf hnot)
  · have hnone : ((s.m.fn c.vf).slotEntry slot).fmt.isNone = true := Option.isNone_iff_eq_none.2 hf
    exact exec_withM h (exec_fsPin slot s) (by rw [fsPinRun, if_neg (Nat.not_lt.2 hslot), Mach.ctx?_m h, if_pos hnone])
  · exact exec_withM h (exec_fsUnpin slot s) (fsUnpinRun_unpins h ha slot)

/-- Settles the second part of O34. -/
theorem boundRegisters : BoundRegisters := by
  intro bd pol type lo hi d sel s c h ha
  have hact : ¬c.act.isEmpty = true := mt List.isEmpty_iff.1 ha
  refine ⟨fun hok => ?_, fun hbad => ?_, ?_, fun _ _ _ => ⟨?_, ?_⟩⟩
  · exact exec_withM h (exec_bdSet bd pol type lo hi s) ((bdSetRun_eq ha bd pol type lo hi s.clk).trans ((if_pos hok).trans (retire_setBd h bd _)))
  · exact exec_withM h (exec_bdSet bd pol type lo hi s) ((bdSetRun_eq ha bd pol type lo hi s.clk).trans ((if_neg hbad).trans (by rw [Mach.ctx?_m h])))
  · exact exec_withM h (exec_bdClr bd s) ((congrArg c.retire (if_neg hact)).trans (retire_setBd h bd _))
  · exact exec_answersK h (exec_bdStat d bd sel s) (by rw [boundStat_eq]; rfl)
  · refine exec_withM h (exec_bdStatClr d bd sel s) ((congrArg (fun m => c.retireK m d _) (if_neg hact)).trans ((retireK_setBd h bd d _ _).trans ?_))
    rw [boundStat_eq]
    rfl

/-- Settles O34. -/
theorem slotsAndBoundRegisters : Obligations.SlotsAndBoundRegisters := ⟨formatSlots, boundRegisters⟩
end

section
/-! SUPPORT. A word of the running drain (R335, R339): what runs it, its operands element by element, and the vectors of tV. -/
namespace Sys2Proof.Claims
open Sys2Proof.Machine

theorem setReg_fields (d : Drain) (r : Nat) (xs : List V32) :
    (d.setReg r xs).slot = d.slot ∧ (d.setReg r xs).pc = d.pc ∧ (d.setReg r xs).words = d.words ∧ (d.setReg r xs).id = d.id := by
  refine ⟨?_, ?_, ?_, ?_⟩ <;> rw [Drain.setReg]

section
variable {s : State} {core : Nat} {d : Drain} {w : Wg} (hd : DrainAt s core d w) {f : Clock → Mach → Nat → Wg → Drain → EpiRes}
include hd

/-- A word that ends well: its flags are noted, and the drain stands at the next word. -/
theorem epi_ok {m : Mach} {d' : Drain} {fl : BitVec 5} (hf : f s.clk s.m core w d = .ok m d' fl) (hslot : d'.slot = d.slot) (hpc : d'.pc = d.pc)
    (hwords : d'.words = d.words) : s.epi f = .next (stepped (withM s m) core d d' fl) := by
  obtain ⟨hrun, hw, hlt, i, hi⟩ := hd
  refine s.event_next _ ?_
  simp only [hrun, hw, hf, Option.bind_eq_bind, Option.bind_some, hslot]
  refine congrArg some ?_
  rw [Mach.drainAt, hpc, if_pos hlt]
  dsimp only
  rw [hwords, hi]
  rfl
theorem epi_setReg {m : Mach} {r : Nat} {xs : List V32} {fl : BitVec 5} (hf : f s.clk s.m core w d = .ok m (d.setReg r xs) fl) :
    s.epi f = .next (stepped (withM s m) core d (d.setReg r xs) fl) := by
  obtain ⟨hslot, hpc, hwords, -⟩ := setReg_fields d r xs
  exact epi_ok hd hf hslot hpc hwords
theorem epi_elementwise {ed : Nat} {xs : List (Nat × BitVec 5)} (hf : f s.clk s.m core w d = elementwise ed xs s.m d) :
    s.epi f = .next (stepped s core d (d.setReg ed (xs.map (fun x => BitVec.ofNat 32 x.1))) (xs.foldl (fun fl x => fl ||| x.2) 0)) :=
  epi_setReg hd hf
end

theorem rne_eq (r : FRes) : rne r = f32Out r := rfl
theorem moved_eq (x : Nat) (seen : List Nat) : moved x seen = f32Move x seen := rfl
/-- A word of one, two or three operands writes its function of them, an element at a time. -/
theorem elements_epi1 {i : Instr} {ed ea : Nat} {f : Nat → Nat × BitVec 5} {g : List Nat → Nat × BitVec 5}
    (he : ∀ s, exec i s = s.epi1 ed ea f) (hg : ∀ x, g [x] = f x) : Elements i ed [ea] g := by
  intro s core d w hd
  rw [he]
  refine epi_elementwise hd ?_
  rw [Drain.reg, List.map_map]
  refine congrArg (fun l => elementwise ed l s.m d) (List.map_congr_left fun k _ => ?_)
  exact (hg _).symm
theorem elements_epi2 {i : Instr} {ed ea eb : Nat} {f : Nat → Nat → Nat × BitVec 5} {g : List Nat → Nat × BitVec 5}
    (he : ∀ s, exec i s = s.epi2 ed ea eb f) (hg : ∀ x y, g [x, y] = f x y) : Elements i ed [ea, eb] g := by
  intro s core d w hd
  rw [he]
  refine epi_elementwise hd ?_
  rw [Drain.reg, Drain.reg, List.zip_map', List.map_map]
  refine congrArg (fun l => elementwise ed l s.m d) (List.map_congr_left fun k _ => ?_)
  exact (hg _ _).symm
theorem elements_epi3 {i : Instr} {ed ea eb ec : Nat} {f : Nat → Nat → Nat → Nat × BitVec 5} {g : List Nat → Nat × BitVec 5}
    (he : ∀ s, exec i s = s.epi3 ed ea eb ec f) (hg : ∀ x y z, g [x, y, z] = f x y z) : Elements i ed [ea, eb, ec] g := by
  intro s core d w hd
  rw [he]
  refine epi_elementwise hd ?_
  rw [Drain.reg, Drain.reg, Drain.reg, List.zip_map', List.zip_map', List.map_map]
  refine congrArg (fun l => elementwise ed l s.m d) (List.map_congr_left fun k _ => ?_)
  exact (hg _ _ _).symm

end Sys2Proof.Claims
end

section
open Sys2Proof Sys2Proof.Machine Sys2Proof.Claims

/-- Settles the first part of O36, a word at a time. -/
theorem epilogueArithmetic : EpilogueArithmetic := by
  intro ed ea eb ec
  refine ⟨?_, ?_, ?_, ?_, ?_, ?_, ?_, ?_, fun cond hc => ?_, fun t => ?_, ?_, ?_, ?_, ?_⟩
  · exact elements_epi2 (f := fun a b => f32Out (addF (f32In a) (f32In b) .rne)) (fun _ => rfl) fun x y => rne_eq (addF (f32In x) (f32In y) .rne)
  · exact elements_epi2 (f := fun a b => f32Out (subF (f32In a) (f32In b) .rne)) (fun _ => rfl) fun x y => rne_eq (subF (f32In x) (f32In y) .rne)
  · exact elements_epi2 (f := fun a b => f32Out (mulF (f32In a) (f32In b))) (fun _ => rfl) fun x y => rne_eq (mulF (f32In x) (f32In y))
  · exact elements_epi3 (f := fun a b c => f32Out (fmaF (f32In a) (f32In b) (f32In c) .rne)) (fun _ => rfl)
      fun x y z => rne_eq (fmaF (f32In x) (f32In y) (f32In z) .rne)
  · exact elements_epi2 (f := minMaxF .f32 false false) (fun _ => rfl) fun _ _ => rfl
  · exact elements_epi2 (f := minMaxF .f32 true false) (fun _ => rfl) fun _ _ => rfl
  · exact elements_epi1 (f := fun a => f32Move (a % 2 ^ 31) [a]) (fun _ => rfl) fun x => moved_eq (x % 2 ^ 31) [x]
  · exact elements_epi3 (f := fun a b c => f32Move (if c % 2 ^ 31 ≠ 0 then a else b) [a, b, c]) (fun _ => rfl)
      fun x y z => moved_eq (if z % 2 ^ 31 ≠ 0 then x else y) [x, y, z]
  · have hcode : [Cmp.eq, .ne, .lt, .le, .gt, .ge, .un, .ord].getD cond .eq = cmpOfCode cond := by
      match cond, hc with
      | 0, _ | 1, _ | 2, _ | 3, _ | 4, _ | 5, _ | 6, _ | 7, _ => rfl
    rw [hcode]
    exact elements_epi2 (f := fun a b => let r := cmpF (cmpOfCode cond) (f32In a) (f32In b); (if r.1 then 0x3F800000 else 0, r.2)) (fun _ => rfl)
      fun _ _ => rfl
  · exact elements_epi1 (f := fun a => f32Out (scaleF (f32In a) t)) (fun _ => rfl) fun x => rne_eq (scaleF (f32In x) t)
  · exact elements_epi1 (f := approxF .exp2 .f32) (fun _ => rfl) fun _ => rfl
  · exact elements_epi1 (f := approxF .rsq .f32) (fun _ => rfl) fun _ => rfl
  · exact elements_epi1 (f := fun a => f32Faithful 6 a (rcpF (f32In a))) (fun _ => rfl) fun _ => rfl
  · exact elements_epi1 (f := fun a => f32Faithful 7 a (tanhF (f32In a))) (fun _ => rfl) fun _ => rfl
end

section
/-! SUPPORT. The moving words of the epilogue (R335, R337, R340, R379): vectors of tV, and a row checked against a range. -/
namespace Sys2Proof.Claims
open Sys2Proof.Machine

/-! ## Parts of a range of the scratchpad -/

theorem scratchN_part (c : Core) : ∀ (n at_ i j : Nat), i + j ≤ n → ((c.scratchN at_ n).drop i).take j = c.scratchN (at_ + i) j := by
  intro n
  induction n with
  | zero =>
    intro at_ i j h
    rw [Nat.eq_zero_of_add_eq_zero_left (Nat.le_zero.1 h), Nat.eq_zero_of_add_eq_zero_right (Nat.le_zero.1 h)]
    rfl
  | succ n ih =>
    intro at_ i j h
    cases i with
    | zero =>
      cases j with
      | zero => rw [List.take_zero]; rfl
      | succ j =>
        have hrest := ih (at_ + 1) 0 j (by omega)
        rw [List.drop_zero, Nat.add_zero] at hrest
        rw [List.drop_zero, Core.scratchN, Core.scratchN, List.take_succ_cons, hrest]
        rfl
    | succ i => rw [Core.scratchN, List.drop_succ_cons, ih (at_ + 1) i j (by omega), Nat.add_assoc, Nat.add_comm 1 i]
theorem take_upFrom {n k : Nat} (h : n ≤ k) {i : Nat} : (upFrom i k).take n = upFrom i n := by
  induction n generalizing i k with
  | zero => rfl
  | succ n ih =>
    obtain ⟨k, rfl⟩ := Nat.exists_eq_add_of_lt (Nat.lt_of_lt_of_le (Nat.succ_pos n) h)
    rw [Nat.zero_add, upFrom, upFrom, List.take_succ_cons, ih (by omega)]
theorem scratchRead_part {m : Mach} {core slot : Nat} {w : Wg} (hw : m.wg? core slot = some w) {off n i j : Nat} (h : i + j ≤ n) :
    ((m.scratchRead core slot off n).drop i).take j = m.scratchRead core slot (off + i) j := by
  simp only [Mach.scratchRead, hw]
  rw [scratchN_part _ n _ i j h, Wg.scratchAt, Wg.scratchAt, Nat.add_assoc]

section
variable {s : State} {core : Nat} {d : Drain} {w : Wg} (hd : DrainAt s core d w)
include hd

theorem epiVector_some {t v : Nat} (ht : d.tv = some t) (hfit : 256 * v + 256 ≤ (w.tiles.getD t {}).size * 128) :
    s.m.epiVector core w d v = some ((upFrom 0 64).map (fun k => BitVec.ofNat 32 (vectorOf s core d (w.tiles.getD t {}) v k))) := by
  obtain ⟨-, hw, -, -⟩ := hd
  have hbytes : ¬(w.tile t).bytes < 256 * v + 256 := Nat.not_lt.2 hfit
  rw [Mach.epiVector, ht]
  refine (if_neg hbytes).trans (congrArg some (List.map_congr_left fun k hk => ?_))
  have hlt : k < 64 := by have := mem_upFrom.1 hk; omega
  rw [scratchRead_part hw (by omega)]
  rfl
theorem vectorOf_lt (x : Tile) (v k : Nat) : vectorOf s core d x v k < 2 ^ 32 := by
  obtain ⟨-, hw, -, -⟩ := hd
  have hlt := leNat_lt (s.m.scratchRead core d.slot (x.base * 128 + 256 * v + 4 * k) 4)
  rw [Mach.length_scratchRead hw] at hlt
  exact hlt
/-- A word that finds an error stops the drain, which leaves its trap on tD (R337). -/
theorem epi_error {f : Clock → Mach → Nat → Wg → Drain → EpiRes} (hf : f s.clk s.m core w d = .error) (htv : d.tv = none) :
    let y := w.tiles.getD d.td {}
    s.epi f = .next (withM s (((s.m.modWg core d.slot (fun w => { w with
        tiles := setAt w.tiles d.td { y with job := some .failed, fault := false, trap := some ⟨15, y.base * 128 + d.row * d.stride, d.ps + 256 * d.pc⟩ },
        drainErr := true, errps := d.ps })).modCore core (fun c => { c with drains := c.drains.filter (·.id ≠ d.id) })).settleAccs core)) := by
  obtain ⟨hrun, hw, hlt, -⟩ := hd
  have hpc : d.ps + 256 * min d.pc 63 + (if d.pc = 64 then 16384 else 0) = d.ps + 256 * d.pc := by
    rw [if_neg (by omega), Nat.min_eq_left (by omega), Nat.add_zero]
  refine s.event_next _ ?_
  simp only [hrun, hw, hf, Option.bind_eq_bind, Option.bind_some]
  refine congrArg some ?_
  rw [Mach.drainError, hw, hpc, Mach.stopDrain, Mach.dropDrain, htv, Mach.modWg_eq _ _ hw, Mach.modWg_eq _ _ hw]
  rfl
end

/-! ## A row checked against a range (R379) -/

/-- An element above the range, outside the range, and what is written for it. -/
def isAbove (b : Bound) (x : V32) : Bool := !(boundVal b.type x.toNat).isNan && (boundVal b.type b.hi).lessThan (boundVal b.type x.toNat)
def isOutside (b : Bound) (x : V32) : Bool := (boundVal b.type x.toNat).isNan || (boundVal b.type x.toNat).lessThan (boundVal b.type b.lo) || isAbove b x
def bounded (b : Bound) (x : V32) : V32 := if b.policy = 2 ∧ isOutside b x then BitVec.ofNat 32 (if isAbove b x then b.hi else b.lo) else x
/-- The register after `n` violations, the first at `addr`. -/
def noted (b : Bound) (n addr : Nat) : Bound :=
  { b with v := true, count := min (b.count + n) 65535, first := if b.count = 0 then BitVec.ofNat 80 addr else b.first,
           f := if b.count = 0 then true else b.f }

theorem noted_one (b : Bound) (addr : Nat) : noted b 1 addr =
    { b with v := true, count := min (b.count + 1) 65535, first := if b.count == 0 then BitVec.ofNat 80 addr else b.first,
             f := if b.count == 0 then true else b.f } := by
  simp only [noted, beq_iff_eq]
theorem check_inside {b : Bound} {x : V32} (h : b.policy = 0 ∨ isOutside b x = false) (addr : Nat) :
    b.check x.toNat addr true = (b, x.toNat, false) := by
  by_cases hp : b.policy = 0
  · exact if_pos hp
  · refine (if_neg hp).trans (if_pos ?_)
    have hin := h.resolve_left hp
    rw [isOutside, Bool.or_eq_false_iff] at hin
    rw [hin.1]
    change (!false && !isAbove b x) = true
    rw [hin.2]
    rfl
theorem check_outside {b : Bound} {x : V32} (h0 : b.policy ≠ 0) (h : isOutside b x = true) (addr : Nat) : b.check x.toNat addr true =
    (noted b 1 addr, if b.policy = 2 then (if isAbove b x then b.hi else b.lo) else x.toNat, decide (3 ≤ b.policy)) := by
  have hout : ¬(!((boundVal b.type x.toNat).isNan || (boundVal b.type x.toNat).lessThan (boundVal b.type b.lo)) && !isAbove b x) = true := by
    rw [← Bool.not_or, show (_ || _) = isOutside b x from rfl, h]
    decide
  rw [noted_one]
  refine (if_neg h0).trans ((if_neg hout).trans ?_)
  split
  next hp =>
    have hwrites : (if b.policy = 2 then (if isAbove b x then b.hi else b.lo) else x.toNat) = x.toNat := if_neg (by omega)
    rw [hwrites, show decide (3 ≤ b.policy) = false from decide_eq_false (by omega)]
  next hp =>
    have hwrites : (if b.policy = 2 then (if isAbove b x then b.hi else b.lo) else x.toNat) = if isAbove b x then b.hi else b.lo := if_pos hp
    rw [hwrites, show decide (3 ≤ b.policy) = false from decide_eq_false (by omega)]
    rfl
  next h1 h2 =>
    have hwrites : (if b.policy = 2 then (if isAbove b x then b.hi else b.lo) else x.toNat) = x.toNat := if_neg h2
    have h3 : 3 ≤ b.policy := by
      have h1' : b.policy ≠ 1 := h1
      have h2' : b.policy ≠ 2 := h2
      omega
    rw [hwrites, decide_eq_true h3]

/-- A row of which nothing is outside the range, or that is not checked, stays as it is. -/
theorem elems_inside {b : Bound} {g : Nat → V32} (a : Nat) : ∀ (n i : Nat), (b.policy = 0 ∨ (upFrom i n).find? (fun k => isOutside b (g k)) = none) →
    b.elems (a + 4 * i) ((upFrom i n).map g) = (b, (upFrom i n).map g, none) := by
  intro n
  induction n with
  | zero => intro i _; rfl
  | succ n ih =>
    intro i h
    have hhead : b.policy = 0 ∨ isOutside b (g i) = false := h.imp_right fun hf => by
      simpa using List.find?_eq_none.1 hf i List.mem_cons_self
    have htail : b.policy = 0 ∨ (upFrom (i + 1) n).find? (fun k => isOutside b (g k)) = none := h.imp_right fun hf =>
      List.find?_eq_none.2 fun k hk => List.find?_eq_none.1 hf k (List.mem_cons_of_mem _ hk)
    have hrest := ih (i + 1) htail
    rw [Nat.mul_add, ← Nat.add_assoc] at hrest
    simp only [upFrom, List.map_cons, Bound.elems, check_inside hhead, Bool.false_eq_true, if_false, hrest, BitVec.ofNat_toNat, BitVec.setWidth_eq]
/-- What a register becomes under a row's violations, the first of which is `k`. -/
def notedAll (b : Bound) (a : Nat) (bad : List Nat) : Bound := match bad with | [] => b | k :: ks => noted b (ks.length + 1) (a + 4 * k)
theorem noted_noted (b : Bound) (n x y : Nat) : noted (noted b 1 x) n y = noted b (n + 1) x := by
  have hcount : min (min (b.count + 1) 65535 + n) 65535 = min (b.count + (n + 1)) 65535 := by omega
  have hne : ¬min (b.count + 1) 65535 = 0 := by omega
  simp only [noted, hcount, hne, if_false]
theorem notedAll_of_find {b : Bound} {a k : Nat} {bad : Nat → Bool} {xs : List Nat} (h : xs.find? bad = some k) :
    notedAll b a (xs.filter bad) = noted b (xs.filter bad).length (a + 4 * k) := by
  rw [← List.head?_filter] at h
  obtain ⟨ks, hks⟩ := List.head?_eq_some_iff.1 h
  rw [hks]
  rfl
theorem notedAll_noted (b : Bound) (a : Nat) (k : Nat) (ks : List Nat) : notedAll (noted b 1 (a + 4 * k)) a ks = notedAll b a (k :: ks) := by
  cases ks with
  | nil => rfl
  | cons x ks => exact noted_noted b _ _ _
/-- A row that is counted or clamped is checked to its end. -/
theorem elems_counts {g : Nat → V32} (a : Nat) : ∀ (n i : Nat) (b : Bound), (b.policy = 1 ∨ b.policy = 2) →
    b.elems (a + 4 * i) ((upFrom i n).map g) =
      (notedAll b a ((upFrom i n).filter (fun k => isOutside b (g k))), (upFrom i n).map (fun k => bounded b (g k)), none) := by
  intro n
  induction n with
  | zero => intro i b _; rfl
  | succ n ih =>
    intro i b h
    have h0 : b.policy ≠ 0 := by omega
    have h3 : decide (3 ≤ b.policy) = false := decide_eq_false (by omega)
    have hnext : a + 4 * i + 4 = a + 4 * (i + 1) := by omega
    cases hx : isOutside b (g i) with
    | false =>
      have hsame : bounded b (g i) = g i := if_neg fun hb => absurd hb.2 (by rw [hx]; decide)
      have hfilter : (upFrom i (n + 1)).filter (fun k => isOutside b (g k)) = (upFrom (i + 1) n).filter (fun k => isOutside b (g k)) :=
        List.filter_cons_of_neg (by rw [hx]; decide)
      simp only [hfilter]
      simp only [upFrom, List.map_cons, Bound.elems, check_inside (.inr hx), Bool.false_eq_true, if_false, hnext, ih (i + 1) b h, BitVec.ofNat_toNat,
        BitVec.setWidth_eq, hsame]
    | true =>
      have hwrites : BitVec.ofNat 32 (if b.policy = 2 then (if isAbove b (g i) then b.hi else b.lo) else (g i).toNat) = bounded b (g i) := by
        rw [bounded]
        by_cases h2 : b.policy = 2
        · rw [if_pos h2]
          exact (if_pos ⟨h2, hx⟩).symm
        · rw [if_neg h2, BitVec.ofNat_toNat, BitVec.setWidth_eq]
          exact (if_neg fun hb => h2 hb.1).symm
      have hfilter : (upFrom i (n + 1)).filter (fun k => isOutside b (g k)) = i :: (upFrom (i + 1) n).filter (fun k => isOutside b (g k)) :=
        List.filter_cons_of_pos hx
      have hrest := ih (i + 1) (noted b 1 (a + 4 * i)) h
      simp only [hfilter]
      simp only [upFrom, List.map_cons, Bound.elems, check_outside h0 hx, h3, Bool.false_eq_true, if_false, hnext, hrest, hwrites]
      rw [← notedAll_noted]
      rfl
/-- In trap mode the row stops at its first violation. -/
theorem elems_stops {b : Bound} {g : Nat → V32} (a : Nat) (hp : 3 ≤ b.policy) {k : Nat} : ∀ (n i : Nat),
    (upFrom i n).find? (fun k => isOutside b (g k)) = some k →
    ∃ ys, b.elems (a + 4 * i) ((upFrom i n).map g) = (noted b 1 (a + 4 * k), ys, some (a + 4 * k)) := by
  intro n
  induction n with
  | zero => intro i h; exact absurd h (by rw [upFrom]; exact fun h => by cases h)
  | succ n ih =>
    intro i h
    have hnext : a + 4 * i + 4 = a + 4 * (i + 1) := by omega
    cases hx : isOutside b (g i) with
    | false =>
      rw [upFrom, List.find?_cons_of_neg (by rw [hx]; decide)] at h
      obtain ⟨ys, hys⟩ := ih (i + 1) h
      refine ⟨BitVec.ofNat 32 (g i).toNat :: ys, ?_⟩
      simp only [upFrom, List.map_cons, Bound.elems, check_inside (.inr hx), Bool.false_eq_true, if_false, hnext, hys]
    | true =>
      rw [upFrom, List.find?_cons_of_pos (p := fun k => isOutside b (g k)) hx, Option.some_inj] at h
      subst h
      refine ⟨[], ?_⟩
      simp only [upFrom, List.map_cons, Bound.elems, check_outside (by omega) hx, decide_eq_true hp, if_true]

/-! ## The moving words -/

theorem exec_eLd (ed v : Nat) (s : State) : exec (.eLd ed v) s = execELd ed v s := rfl
theorem exec_eBias (ed ea v : Nat) (s : State) : exec (.eBias ed ea v) s = execEBias ed ea v s := rfl
theorem exec_eSt (ea o n : Nat) (s : State) : exec (.eSt ea o n) s = execESt ea o n s := rfl
theorem exec_eCvt (ed ea slot rm : Nat) (s : State) : exec (.eCvt ed ea slot rm) s = execECvt ed ea slot rm s := rfl
theorem exec_eBound (ed ea bd : Nat) (s : State) : exec (.eBound ed ea bd) s = execEBound ed ea bd s := rfl
theorem exec_eEnd (s : State) : exec .eEnd s = execEEnd s := rfl

section
variable {s : State} {core : Nat} {d : Drain} {w : Wg} (hd : DrainAt s core d w)
include hd

theorem eBound_ok {ed ea bd : Nat} {b b' : Bound} {ys : List V32} (hb : d.bds.find? (·.1 == bd) = some (bd, b))
    (h : b.elems (d.row * d.stride) (d.reg ea) = (b', ys, none)) :
    exec (.eBound ed ea bd) s = .next (stepped (withM s (s.m.foldBound core d.slot bd b b')) core d (d.setReg ed ys) 0) := by
  rw [exec_eBound, execEBound]
  refine epi_setReg hd ?_
  simp only [hb, Option.map_some, Option.getD_some, h]
theorem eBound_stops {ed ea bd : Nat} {b b' : Bound} {ys : List V32} {addr : Nat} (hb : d.bds.find? (·.1 == bd) = some (bd, b))
    (h : b.elems (d.row * d.stride) (d.reg ea) = (b', ys, some addr)) :
    exec (.eBound ed ea bd) s = .next (withM s ((s.m.foldBound core d.slot bd b b').stopDrain core d 8 addr bd)) := by
  obtain ⟨hrun, hw, -, -⟩ := hd
  rw [exec_eBound, execEBound]
  refine s.event_next _ ?_
  simp only [hrun, hw, hb, Option.bind_eq_bind, Option.bind_some, Option.map_some, Option.getD_some, h]
end
/-- An accumulator row without errors has none after it is written. -/
theorem setAccRow_poison {w : Wg} (h : w.accPoison = []) (acc row : Nat) (xs : List V32) : (w.setAccRow acc row xs).accPoison = [] := by
  rw [Wg.setAccRow]
  generalize xs.mapIdx (fun k x => (k, x)) = es
  induction es generalizing w with
  | nil => exact h
  | cons e es ih =>
    rw [List.foldl_cons]
    exact ih (by rw [Wg.setAcc, h]; rfl)
theorem setWg_self {m : Mach} {core slot : Nat} {w : Wg} (hw : m.wg? core slot = some w) : m.setWg core slot w = m := by
  rw [Mach.setWg, tset_of_tget hw]
/-- The drain goes to its next row, whose first word is an epilogue word. -/
theorem nextRow_at {m : Mach} {core : Nat} {d : Drain} {w : Wg} (hpoison : w.accPoison = []) {i : Instr}
    (hi : decodeEp (d.words.getD 0 0).toNat = .ok i) : (m.drainReads core d w (d.row + 1)).drainAt core (d.beginRow w (d.row + 1)) =
      m.setDrain core { d.setReg 0 ((upFrom 0 64).map (w.accAt d.acc (d.row + 1))) with row := d.row + 1, pc := 0 } := by
  have hreads : m.drainReads core d w (d.row + 1) = m := by rw [Mach.drainReads, hpoison]; rfl
  have hpc : (d.beginRow w (d.row + 1)).pc = 0 := by rw [Drain.beginRow]
  have hwords : (d.beginRow w (d.row + 1)).words = d.words := by rw [Drain.beginRow, Drain.setReg]
  rw [hreads, drainAt_decodes hpc hwords hi, Drain.beginRow, Wg.accRow]

end Sys2Proof.Claims
end

section
open Sys2Proof Sys2Proof.Machine Sys2Proof.Claims

/-- Settles the second part of O36, a word at a time. -/
theorem epilogueMoves : EpilogueMoves := by
  intro ed ea v o n slot rm bd s core d w hd
  have hw : s.m.wg? core d.slot = some w := hd.2.1
  refine ⟨fun t ht hfit => ⟨?_, ?_⟩, fun htv => ⟨?_, ?_⟩, fun hn hfit htags => ?_, fun p f r hf hr => ?_, fun b hb hcount => ⟨fun h => ?_, fun k hk => ⟨fun hp => ?_, fun hp => ?_⟩⟩,
    fun hrow hpoison hword => ?_, fun hrow => ?_⟩
  · rw [exec_eLd, execELd]
    refine epi_setReg hd ?_
    rw [epiVector_some hd ht hfit]
  · rw [exec_eBias, execEBias]
    refine epi_elementwise hd ?_
    rw [epiVector_some hd ht hfit]
    dsimp only
    rw [Drain.reg, List.zip_map', List.map_map]
    refine congrArg (fun l => elementwise ed l s.m d) (List.map_congr_left fun k _ => ?_)
    rw [Function.comp_apply, BitVec.toNat_ofNat, Nat.mod_eq_of_lt (vectorOf_lt hd _ v k)]
    exact (rne_eq (addF (f32In (d.row? ea k).toNat) (f32In (vectorOf s core d (w.tiles.getD t {}) v k)) .rne)).symm
  · rw [exec_eLd, execELd]
    refine epi_error hd ?_ htv
    rw [Mach.epiVector, htv]
  · rw [exec_eBias, execEBias]
    refine epi_error hd ?_ htv
    rw [Mach.epiVector, htv]
  · rw [exec_eSt, execESt]
    have hgo : ¬(decide (64 < n) || decide ((w.tile d.td).bytes < d.row * d.stride + 4 * o + 4 * n)) = true := by
      simp only [Nat.not_lt.2 hn, Nat.not_lt.2 (show _ ≤ (w.tile d.td).bytes from hfit), decide_false, Bool.or_self, Bool.false_eq_true, not_false_iff]
    have htake : (d.reg ea).take n = (upFrom 0 n).map (d.row? ea) := by rw [Drain.reg, ← List.map_take, take_upFrom hn]
    refine epi_ok hd ((if_neg hgo).trans ?_) rfl rfl rfl
    rw [htake, List.map_map]
    exact congrArg (fun r : Option Nat × Mach => EpiRes.ok (match r.1 with | some o => r.2.logErr s.clk w.vf 2 1 0 core 0 o | none => r.2) d 0)
      (Mach.deliver_untagged hw htags _ _)
  · dsimp only
    intro h
    rw [exec_eCvt, execECvt]
    refine epi_setReg hd ?_
    have hxs : (d.reg ea).map (fun x => (f32In x.toNat, x.getLsbD 31)) =
        (upFrom 0 64).map (fun k => (val (d.row? ea k).toNat, (d.row? ea k).getLsbD 31)) := by rw [Drain.reg, List.map_map]; rfl
    simp only [hf, hr, hxs]
    generalize f.encodeRow _ r _ = e at h ⊢
    rcases h with h | h
    · rw [h]
    · rw [h]
      cases e.subs <;> rfl
  · have h' := elems_inside (g := d.row? ea) (d.row * d.stride) 64 0 h
    exact eBound_ok hd hb h'
  · have h' := elems_counts (g := d.row? ea) (d.row * d.stride) 64 0 b hp
    rw [notedAll_of_find (bad := fun k => isOutside b (d.row? ea k)) hk] at h'
    exact eBound_ok hd hb h'
  · obtain ⟨ys, h'⟩ := elems_stops (g := d.row? ea) (d.row * d.stride) hp 64 0 hk
    exact eBound_stops hd hb h'
  · obtain ⟨hrun, -, -, -⟩ := hd
    obtain ⟨i, hi⟩ := hword
    rw [exec_eEnd]
    refine s.event_next _ ?_
    have hzero (w' : Wg) : s.m.modWg core d.slot (fun _ => w') = s.m.setWg core d.slot w' := Mach.modWg_eq _ _ hw
    cases hz : d.z with
    | true =>
      have hclean : (w.setAccRow d.acc d.row (List.replicate 64 0)).accPoison = [] := setAccRow_poison hpoison _ _ _
      simp only [hrun, hz, hrow, hzero, Option.bind_eq_bind, Option.bind_some, if_true, Mach.modWg_eq _ _ hw, Mach.setWg_wg?]
      rw [nextRow_at hclean hi]
    | false =>
      simp only [hrun, hw, hz, hrow, hzero, setWg_self hw, Option.bind_eq_bind, Option.bind_some, Bool.false_eq_true, if_false, if_true]
      rw [nextRow_at hpoison hi]
  · obtain ⟨hrun, -, -, -⟩ := hd
    rw [exec_eEnd]
    refine s.event_next _ ?_
    cases hz : d.z with
    | true =>
      simp only [hrun, hz, hrow, Option.bind_eq_bind, Option.bind_some, if_true, Mach.modWg_eq _ _ hw, Mach.setWg_wg?]
      rfl
    | false =>
      simp only [hrun, hw, hz, hrow, Option.bind_eq_bind, Option.bind_some, Bool.false_eq_true, if_false]
      rfl

/-- Settles O36. Which neighbour the four approximate words answer is the model's choice (log 7); a bound of a 16-bit type compares and clamps the low
half of an element (log 40), and a drain that stops logs nothing (log 45). -/
theorem epilogueWords : Obligations.EpilogueWords := ⟨epilogueArithmetic, epilogueMoves⟩
end

section
/-! SUPPORT. Tables with rising keys, an entry at a time: what stands before an entry has lower keys, so the entry is the one found and set. -/
namespace Sys2Proof.Claims
open Sys2Proof.Machine

variable {α β : Type}

theorem keys_above : ∀ {m : Sparse α} {lo : Nat}, sortedFrom (some lo) m = true → ∀ e ∈ m, lo < e.1
  | [], _, _, e, he => absurd he List.not_mem_nil
  | (j, y) :: m, lo, h, e, he => by
    simp only [sortedFrom, Bool.and_eq_true, decide_eq_true_eq] at h
    rcases List.mem_cons.1 he with rfl | hm
    · exact h.1
    · exact Nat.lt_trans h.1 (keys_above h.2 e hm)
/-- The entries before one have lower keys, those behind it higher ones. -/
theorem keys_split {k : Nat} {x : α} {post : Sparse α} : ∀ {pre : Sparse α} {lo : Option Nat}, sortedFrom lo (pre ++ (k, x) :: post) = true →
    (∀ e ∈ pre, e.1 < k) ∧ sortedFrom (some k) post = true
  | [], lo, h => by
    simp only [List.nil_append, sortedFrom, Bool.and_eq_true] at h
    exact ⟨fun e he => absurd he List.not_mem_nil, h.2⟩
  | (j, y) :: pre, lo, h => by
    simp only [List.cons_append, sortedFrom, Bool.and_eq_true] at h
    obtain ⟨hlow, hpost⟩ := keys_split h.2
    refine ⟨fun e he => ?_, hpost⟩
    rcases List.mem_cons.1 he with rfl | hm
    · exact keys_above h.2 (k, x) (List.mem_append_right _ List.mem_cons_self)
    · exact hlow e hm
theorem tget_mid {k : Nat} {x : α} {post : Sparse α} : ∀ {pre : Sparse α}, (∀ e ∈ pre, e.1 < k) → tget (pre ++ (k, x) :: post) k = some x
  | [], _ => by rw [List.nil_append, tget, if_pos rfl]
  | (j, y) :: pre, h => by
    have hj : j < k := h (j, y) List.mem_cons_self
    rw [List.cons_append, tget, if_neg (by omega), if_neg (by omega)]
    exact tget_mid fun e he => h e (List.mem_cons_of_mem _ he)
theorem tset_mid {k : Nat} {x y : α} {post : Sparse α} : ∀ {pre : Sparse α}, (∀ e ∈ pre, e.1 < k) →
    tset (pre ++ (k, x) :: post) k y = pre ++ (k, y) :: post
  | [], _ => by rw [List.nil_append, tset, if_neg (Nat.lt_irrefl k), if_pos rfl]; rfl
  | (j, z) :: pre, h => by
    have hj : j < k := h (j, z) List.mem_cons_self
    rw [List.cons_append, tset, if_neg (by omega), if_neg (by omega), tset_mid fun e he => h e (List.mem_cons_of_mem _ he)]
    rfl
theorem tget_of_mem {m : Sparse α} (h : sortedFrom none m = true) {e : Nat × α} (he : e ∈ m) : tget m e.1 = some e.2 := by
  obtain ⟨pre, post, rfl⟩ := List.append_of_mem he
  exact tget_mid (keys_split h).1
/-- A table whose records are changed one after the other, each by itself. -/
theorem foldl_records {σ : Type} {F : σ → Nat × α → σ} {at_ : Sparse α → σ} {g : Nat × α → α} {table : Sparse α} (hs : sortedFrom none table = true)
    (hF : ∀ (pre : Sparse α) (e : Nat × α) (post : Sparse α), pre ++ e :: post = table → (∀ x ∈ pre, x.1 < e.1) →
      F (at_ (pre.map (fun x => (x.1, g x)) ++ e :: post)) e = at_ (pre.map (fun x => (x.1, g x)) ++ (e.1, g e) :: post)) :
    table.foldl F (at_ table) = at_ (table.map (fun x => (x.1, g x))) := by
  suffices ∀ post pre : Sparse α, pre ++ post = table →
      post.foldl F (at_ (pre.map (fun x => (x.1, g x)) ++ post)) = at_ (table.map (fun x => (x.1, g x))) from this table [] rfl
  intro post
  induction post with
  | nil => intro pre h; rw [List.foldl_nil, List.append_nil, ← h, List.append_nil]
  | cons e post ih =>
    intro pre h
    have hlow := (keys_split (x := e.2) (by rw [show (e.1, e.2) = e from rfl, h]; exact hs)).1
    have hnext := ih (pre ++ [e]) (by rw [List.append_assoc]; exact h)
    rw [List.map_append, List.map_cons, List.map_nil, List.append_assoc] at hnext
    rw [List.foldl_cons, hF pre e post h hlow]
    exact hnext
/-- What a change of records keeps reads as before. -/
theorem tget_mapped {γ : Type} {f : α → γ} {g : Nat × α → α} (hf : ∀ x, f (g x) = f x.2) (d : α) (k : Nat) (rest : Sparse α) : ∀ pre : Sparse α,
    f ((tget (pre.map (fun x => (x.1, g x)) ++ rest) k).getD d) = f ((tget (pre ++ rest) k).getD d)
  | [] => rfl
  | (j, y) :: pre => by
    rw [List.map_cons, List.cons_append, List.cons_append, tget, tget]
    split
    · exact hf (j, y)
    · split
      · rfl
      · exact tget_mapped hf d k rest pre
theorem mapped_below {g : Nat × α → α} {pre : Sparse α} {k : Nat} (h : ∀ x ∈ pre, x.1 < k) : ∀ x ∈ pre.map (fun x => (x.1, g x)), x.1 < k := by
  intro x hx
  obtain ⟨y, hy, rfl⟩ := List.mem_map.1 hx
  exact h y hy

end Sys2Proof.Claims
end

section
/-! SUPPORT. What the channel machinery does of itself (R272, R273, R285, R428): a waiting group's instruction, refill, arrivals, and the scan. -/
namespace Sys2Proof.Claims
open Sys2Proof.Machine

theorem exec_blockedSend (vf ch : Nat) (s : State) : exec (.blockedSendProceed vf ch) s =
    s.event (fun clk m => (m.chanNext vf ch true).bind fun w => some (m.proceed clk w)) := rfl
theorem exec_blockedRecv (vf ch : Nat) (s : State) : exec (.blockedRecvProceed vf ch) s =
    s.event (fun clk m => (m.chanNext vf ch false).bind fun w => some (m.proceed clk w)) := rfl

theorem exec_channelRefill (vf ch : Nat) (s : State) : exec (.channelRefill vf ch) s =
    s.event (fun clk m => (m.chan? vf ch).bind fun c => if c.canRefill then some (m.refill clk vf ch c.spooled.length) else none) := rfl
theorem exec_channelFlitArrive (vf ch : Nat) (bs : List Byte) (s : State) :
    exec (.channelFlitArrive vf ch bs) s = .next (withM s (channelFlit vf ch bs s.clk s.m)) := rfl
theorem exec_channelCreditReturn (vf ch n : Nat) (s : State) :
    exec (.channelCreditReturn vf ch n) s = .next (withM s (channelCredit vf ch n s.m)) := rfl
theorem exec_stalemateScan (s : State) : exec .stalemateScan s = s.event (fun clk m =>
    if clk.time / 20000 ≤ (tget m.due 0).getD 0 then none
    else some (m.fns.foldl (fun (m : Mach) e => m.scanFn clk e.1) { m with due := tset m.due 0 (clk.time / 20000) })) := rfl
/-- A waiting group whose instruction may wait on a channel executes it (R272). -/
theorem proceeds_of_run {ev i : Instr} {s : State} {g : ChanWaiter} {run : Clock → Ctx → Mach} (hexec : ∀ s, exec i s = s.group run)
    (hrun : chanRunOf i = some run) (hev : exec ev s = .next (withM s (s.m.proceed s.clk g))) : Proceeds ev i s g := by
  intro x word ext m hx hfetch hdecode hsome
  obtain ⟨w, hw⟩ := Option.isSome_iff_exists.1 hsome
  have hdec : (decode? word ext).bind chanRunOf = some run := by rw [decode?, hdecode]; exact hrun
  have hctx : ({ m with ig := some { core := g.core, slot := g.slot, threads := g.threads, pc := (x.thread (g.threads.headD 0)).pc, w := word, ext } } : Mach).ctx? =
      some { m := { m with ig := some { core := g.core, slot := g.slot, threads := g.threads, pc := (x.thread (g.threads.headD 0)).pc, w := word, ext } },
             ig := { core := g.core, slot := g.slot, threads := g.threads, pc := (x.thread (g.threads.headD 0)).pc, w := word, ext }, wg := w,
             act := g.threads.filter (fun t => (w.thread t).guard) } := by
    have hw' : ({ m with ig := some { core := g.core, slot := g.slot, threads := g.threads, pc := (x.thread (g.threads.headD 0)).pc, w := word, ext } } : Mach).wg?
        g.core g.slot = some w := hw
    simp only [Mach.ctx?, hw']
  refine ⟨_, (hexec _).trans (State.group_next _ run hctx), hev.trans ?_⟩
  unfold readied at hx hfetch
  rw [Mach.proceed]
  simp only [hx, hfetch, hdec, hctx]
  rfl

/-! ## Refill (R273) -/

/-- The number of an element of the spool is unchanged while those ahead of it go, up to the numbers' wrap. -/
theorem spoolNum_shift {sent L j : Nat} (hj : j < L) :
    ∃ i, i < L ∧ (sent + (2 ^ 32 - (L - j))) % 2 ^ 32 = (sent + (2 ^ 32 - L) + i) % 2 ^ 32 := by
  by_cases hL : L ≤ 2 ^ 32
  · exact ⟨j, hj, by congr 1; omega⟩
  · by_cases hfar : 2 ^ 32 ≤ L - j
    · exact ⟨0, by omega, by congr 1; omega⟩
    · exact ⟨2 ^ 32 - (L - j), by omega, by congr 1; omega⟩
theorem spoolAt_setChan (m : Mach) (vf ch : Nat) (c : Chan) (va n : Nat) (write : Bool) :
    (m.setChan vf ch c).spoolAt vf va n write = m.spoolAt vf va n write := by
  have hroot : ((m.setChan vf ch c).fn vf).root = (m.fn vf).root := by rw [Mach.setChan, Mach.modFn_fn]
  have hpart (va n : Nat) : (m.setChan vf ch c).spoolPart vf va n write = m.spoolPart vf va n write := by
    rw [Mach.spoolPart, translate_congr (m' := m.setChan vf ch c) (m := m) rfl hroot]
    rfl
  simp only [Mach.spoolAt, hpart]
theorem setChan_chan? (m : Mach) (vf ch : Nat) (c : Chan) : (m.setChan vf ch c).chan? vf ch = some c := by
  rw [Mach.chan?, Mach.setChan, Mach.modFn_fn]
  exact tget_tset_same ..
theorem setChan_setChan (m : Mach) (vf ch : Nat) (c c' : Chan) : (m.setChan vf ch c).setChan vf ch c' = m.setChan vf ch c' := by
  rw [Mach.setChan, Mach.setChan, Mach.modFn_modFn]
  simp only [tset_tset]
  rfl
theorem modChan_eq {m : Mach} {vf ch : Nat} {c : Chan} (h : m.chan? vf ch = some c) (g : Chan → Chan) : m.modChan vf ch g = m.setChan vf ch (g c) := by
  have hmod : tmod (m.fn vf).chans ch g = tset (m.fn vf).chans ch (g c) := by
    unfold tmod
    rw [show tget (m.fn vf).chans ch = some c from h]
  exact congrArg (fun l => m.setFn vf { m.fn vf with chans := l }) hmod
theorem setChan_self {m : Mach} {vf ch : Nat} {c : Chan} (h : m.chan? vf ch = some c) : m.setChan vf ch c = m := by
  have hfn : tget m.fns vf = some (m.fn vf) := by
    cases hf : tget m.fns vf with
    | some x => rw [Mach.fn_of_tget hf]
    | none =>
      have hempty : m.fn vf = {} := by rw [Mach.fn, hf]; rfl
      rw [Mach.chan?, hempty] at h
      exact absurd h (Option.some_ne_none c).symm
  have hchans : tset (m.fn vf).chans ch c = (m.fn vf).chans := tset_of_tget h
  rw [Mach.setChan, Mach.modFn, hchans]
  exact congrArg (fun t => ({ m with fns := t } : Mach)) (tset_of_tget hfn)
/-- The channel once the spool's `j` oldest elements have moved. -/
def unspool (c : Chan) (j : Nat) : Chan := { c with bobbin := c.bobbin ++ c.spooled.take j, spooled := c.spooled.drop j }
theorem spoolAddr_unspool (c : Chan) (j n : Nat) : (unspool c j).spoolAddr n = c.spoolAddr n := rfl
theorem bcap_unspool (c : Chan) (j : Nat) : (unspool c j).bcap = c.bcap := rfl

section
variable {m : Mach} {vf ch : Nat} {c : Chan} (hwait : c.spoolWait = false)
    (hok : ∀ i, i < c.spooled.length → m.spoolAt vf (c.spoolAddr ((c.sent + (2 ^ 32 - c.spooled.length) + i) % 2 ^ 32)) c.esize false = .ok)
include hwait hok

/-- One turn of refill moves the oldest element that is left, while the bobbin has room. -/
theorem refillOne_moves (clk : Clock) {j : Nat} (hj : j < c.spooled.length) (hroom : c.bobbin.length + j < c.bcap) :
    (m.setChan vf ch (unspool c j)).refillOne clk vf ch = m.setChan vf ch (unspool c (j + 1)) := by
  obtain ⟨i, hi, hnum⟩ := spoolNum_shift (sent := c.sent) hj
  have hspool : (m.setChan vf ch (unspool c j)).spoolAt vf ((unspool c j).spoolAddr ((unspool c j).spoolNum 0)) (unspool c j).esize false = .ok := by
    have hlen : (unspool c j).spoolNum 0 = (c.sent + (2 ^ 32 - (c.spooled.length - j))) % 2 ^ 32 := by
      rw [Chan.spoolNum, Nat.add_zero, unspool, List.length_drop]
      rfl
    rw [spoolAt_setChan, hlen, hnum]
    exact hok i hi
  have hmore : ((unspool c j).bobbin.length < (unspool c j).bcap && !(unspool c j).spoolWait) = true := by
    rw [show (unspool c j).spoolWait = c.spoolWait from rfl, hwait, bcap_unspool, unspool, List.length_append, List.length_take,
      Nat.min_eq_left hj.le]
    simpa using hroom
  have hdrop : (unspool c j).spooled = c.spooled[j] :: c.spooled.drop (j + 1) := List.drop_eq_getElem_cons hj
  rw [Mach.refillOne, setChan_chan?]
  simp only [hdrop, hmore, hspool, if_true, setChan_setChan]
  refine congrArg (m.setChan vf ch) ?_
  rw [unspool, unspool, List.append_assoc, ← List.take_concat_get' _ _ hj]
omit hwait hok in
/-- It moves no more than the spool holds, or the bobbin takes. -/
theorem refillOne_stops (clk : Clock) {j : Nat} (hj : c.spooled.length ≤ j ∨ c.bcap ≤ c.bobbin.length + j) (hle : j ≤ c.spooled.length) :
    (m.setChan vf ch (unspool c j)).refillOne clk vf ch = m.setChan vf ch (unspool c j) := by
  rw [Mach.refillOne, setChan_chan?]
  dsimp only
  split
  · rfl
  next x xs hx =>
    have hlt : j < c.spooled.length := by
      refine Nat.lt_of_not_le fun hn => ?_
      rw [unspool, List.drop_eq_nil_iff.2 hn] at hx
      exact absurd hx (List.cons_ne_nil _ _).symm
    have hfull : ¬((unspool c j).bobbin.length < (unspool c j).bcap && !(unspool c j).spoolWait) = true := by
      rw [Bool.and_eq_true, decide_eq_true_eq, bcap_unspool, unspool, List.length_append, List.length_take, Nat.min_eq_left hle]
      exact fun hb => by omega
    rw [if_neg hfull]
theorem refill_moves (clk : Clock) : ∀ (k j : Nat), j ≤ min c.spooled.length (c.bcap - c.bobbin.length) → c.bobbin.length ≤ c.bcap →
    min c.spooled.length (c.bcap - c.bobbin.length) ≤ j + k →
    (m.setChan vf ch (unspool c j)).refill clk vf ch k = m.setChan vf ch (unspool c (min c.spooled.length (c.bcap - c.bobbin.length))) := by
  intro k
  induction k with
  | zero =>
    intro j hj _ hk
    rw [Nat.le_antisymm hj (Nat.add_zero j ▸ hk)]
    rfl
  | succ k ih =>
    intro j hj hb hk
    rw [Mach.refill]
    by_cases hlt : j < min c.spooled.length (c.bcap - c.bobbin.length)
    · rw [refillOne_moves hwait hok clk (by omega) (by omega)]
      exact ih (j + 1) hlt hb (by omega)
    · rw [refillOne_stops clk (by omega) (by omega)]
      exact ih j hj hb (by omega)
end

/-! ## A scan that finds no stuck workgroup (R285) -/

/-- What a scan looks at: the workgroups, resident and saved, and the channels. -/
structure SameStalemate (m m' : Mach) : Prop where
  wgs : m'.wgs = m.wgs
  images : ∀ vf, (m'.fn vf).images = (m.fn vf).images
  chans : ∀ vf, (m'.fn vf).chans = (m.fn vf).chans
section
variable {m m' : Mach} (h : SameStalemate m m')
include h

theorem blockedOn_same (w : Wg) (t : Thread) : m'.blockedOn w t = m.blockedOn w t := by
  have hchan (vf ch : Nat) : m'.chan? vf ch = m.chan? vf ch := by rw [Mach.chan?, h.chans]; rfl
  have hends (vf n : Nat) (b : QBind) : m'.endBlocks vf n b = m.endBlocks vf n b := by rw [Mach.endBlocks, hchan]; rfl
  simp only [Mach.blockedOn, hends]
theorem shrink_same (ws : List Wg) : ∀ (n : Nat) (d : List Nat), m'.shrink ws n d = m.shrink ws n d := by
  have hchan (vf ch : Nat) : m'.chan? vf ch = m.chan? vf ch := by rw [Mach.chan?, h.chans]; rfl
  intro n
  induction n with
  | zero => intro d; rfl
  | succ n ih =>
    intro d
    rw [Mach.shrink, Mach.shrink]
    simp only [blockedOn_same h, hchan, ih]
theorem stalemate_same (vf : Nat) : m'.stalemate vf = m.stalemate vf := by
  have hwgs : m'.wgsOfFn vf = m.wgsOfFn vf := by rw [Mach.wgsOfFn, h.wgs, h.images]; rfl
  have hstuck : m'.stuck = m.stuck := by
    funext w
    simp only [Mach.stuck, blockedOn_same h]
  rw [Mach.stalemate, hwgs, shrink_same h, hstuck]
  rfl
end

/-- The scan of a function with no stuck workgroup forgets what the scan before it found. -/
theorem scanFn_none {m : Mach} {vf : Nat} (clk : Clock) (h : m.stalemate vf = []) : m.scanFn clk vf = m.setFn vf { m.fn vf with scan := none } := by
  rw [Mach.scanFn, h]
  rfl
/-- A function that knows of no stuck workgroup. -/
def forgets (e : Nat × Fn) : Fn := { e.2 with scan := none }
/-- A scan that finds no stuck workgroup anywhere: every function forgets what the scan before it found. -/
theorem scanAll_none {m : Mach} (clk : Clock) (hs : sortedFrom none m.fns = true) (hnone : ∀ e ∈ m.fns, m.stalemate e.1 = []) :
    m.fns.foldl (fun m e => m.scanFn clk e.1) m = { m with fns := m.fns.map (fun e => (e.1, forgets e)) } := by
  refine foldl_records (at_ := fun t => { m with fns := t }) (g := forgets) hs fun pre e post he hlow => ?_
  have hbelow := mapped_below (g := forgets) hlow
  have hget := tget_mid (x := e.2) (post := post) hbelow
  have hsame : SameStalemate m { m with fns := pre.map (fun x => (x.1, forgets x)) ++ e :: post } := by
    refine ⟨rfl, fun vf => ?_, fun vf => ?_⟩
    · rw [Mach.fn, Mach.fn, ← he]
      exact tget_mapped (f := Fn.images) (g := forgets) (fun _ => rfl) _ vf _ pre
    · rw [Mach.fn, Mach.fn, ← he]
      exact tget_mapped (f := Fn.chans) (g := forgets) (fun _ => rfl) _ vf _ pre
  rw [scanFn_none clk ((stalemate_same hsame e.1).trans (hnone e (he ▸ List.mem_append_right _ List.mem_cons_self)))]
  rw [Mach.fn_of_tget hget]
  exact congrArg (fun t => ({ m with fns := t } : Mach)) (tset_mid hbelow)

end Sys2Proof.Claims
end

section
open Sys2Proof Sys2Proof.Machine Sys2Proof.Claims

/-- Settles O41. Where a spooled element stands is log 18, and that an empty message closes a channel and one of one byte breaks it is log 23. -/
theorem channelEvents : Obligations.ChannelEvents := by
  intro vf ch s
  refine ⟨fun g hg q v t => ?_, fun hg => ?_, fun g hg q v t p r => ?_, fun hg => ?_, fun c hc => ⟨fun hok hne hroom hwait => ?_, fun hstop => ?_,
    fun bs hst hx hlen hsp hroom => ?_, fun hst => ⟨?_, fun b => ?_⟩, fun bs hst => ?_, fun n => ?_⟩, fun hs hnone => ?_⟩
  · have hev : exec (.blockedSendProceed vf ch) s = .next (withM s (s.m.proceed s.clk g)) := by
      rw [exec_blockedSend]
      exact s.event_next _ (by rw [hg]; rfl)
    exact ⟨proceeds_of_run (fun _ => rfl) rfl hev, proceeds_of_run (fun _ => rfl) rfl hev⟩
  · rw [exec_blockedSend]
    exact s.event_fault _ (by rw [hg]; rfl)
  · have hev : exec (.blockedRecvProceed vf ch) s = .next (withM s (s.m.proceed s.clk g)) := by
      rw [exec_blockedRecv]
      exact s.event_next _ (by rw [hg]; rfl)
    exact ⟨proceeds_of_run (fun _ => rfl) rfl hev, proceeds_of_run (fun _ => rfl) rfl hev, proceeds_of_run (fun _ => rfl) rfl hev⟩
  · rw [exec_blockedRecv]
    exact s.event_fault _ (by rw [hg]; rfl)
  · have hrefill := refill_moves (m := s.m) (ch := ch) hwait hok s.clk c.spooled.length 0 (Nat.zero_le _) hroom.le (by omega)
    have hnow : s.m.setChan vf ch (unspool c 0) = s.m := by
      rw [unspool, List.take_zero, List.append_nil, List.drop_zero]
      exact setChan_self hc
    rw [hnow] at hrefill
    have hcan : c.canRefill = true := by
      rw [Chan.canRefill, hwait, Bool.and_eq_true, Bool.and_eq_true, decide_eq_true_eq, Bool.not_eq_true', List.isEmpty_eq_false_iff]
      exact ⟨⟨hne, hroom⟩, rfl⟩
    rw [exec_channelRefill]
    refine s.event_next _ ?_
    rw [hc]
    exact (if_pos hcan).trans (congrArg some hrefill)
  · have hcannot : ¬c.canRefill = true := by
      rw [Chan.canRefill, Bool.and_eq_true, Bool.and_eq_true, decide_eq_true_eq, Bool.not_eq_true', List.isEmpty_eq_false_iff]
      rintro ⟨⟨hne, hroom⟩, hwait⟩
      rcases hstop with h | h | h
      · exact hne h
      · exact absurd hroom (Nat.not_lt.2 h)
      · rw [h] at hwait
        exact absurd hwait (by decide)
    rw [exec_channelRefill]
    refine s.event_fault _ ?_
    rw [hc]
    exact if_neg hcannot
  · have hgo : ¬bs.isEmpty = true := by rw [List.isEmpty_iff]; rintro rfl; exact absurd hlen (by decide)
    have hhere : (c.x && c.wbind.isSome) = false := by
      rcases hx with h | h
      · rw [h]; rfl
      · rw [h]; exact Bool.and_false _
    have hroom' : (c.spooled.isEmpty && decide (c.bobbin.length < c.bcap)) = true := by rw [hsp, decide_eq_true hroom]; rfl
    refine ⟨{ c with bobbin := c.bobbin ++ [bs], sent := (c.sent + 1) % 4294967296 }, ?_, ?_, rfl, rfl, hst⟩
    · rw [exec_channelFlitArrive, channelFlit, hc]
      simp only [hst, not_true, if_false, ne_eq, hgo, Nat.ne_of_gt hlen]
      rw [Mach.enqueue, hc]
      simp only [hst, hhere, hroom', Bool.false_eq_true, if_false, if_true, show ¬(1 : Nat) = 3 by decide]
    · rw [elements, elements, hsp, List.append_nil, List.append_nil]
  · rw [exec_channelFlitArrive, channelFlit, hc]
    simp only [hst, not_true, if_false, ne_eq, List.isEmpty_nil, if_true]
  · rw [exec_channelFlitArrive, channelFlit, hc]
    simp only [hst, not_true, if_false, ne_eq]
    rfl
  · rw [exec_channelFlitArrive, channelFlit, hc]
    exact congrArg (fun m => Host.Outcome.next (withM s m)) (if_pos hst)
  · rw [exec_channelCreditReturn, channelCredit, modChan_eq hc]
  · rw [exec_stalemateScan]
    by_cases hdue : s.clk.time / 20000 ≤ (tget s.m.due 0).getD 0
    · rw [if_pos hdue]
      exact s.event_fault _ (if_pos hdue)
    · rw [if_neg hdue]
      refine s.event_next _ ((if_neg hdue).trans (congrArg some ?_))
      exact scanAll_none (m := { s.m with due := tset s.m.due 0 (s.clk.time / 20000) }) s.clk hs fun e he =>
        (stalemate_same (m := s.m) (m' := { s.m with due := tset s.m.due 0 (s.clk.time / 20000) }) ⟨rfl, fun _ => rfl, fun _ => rfl⟩ e.1).trans (hnone e he)
end

section
/-! SUPPORT. Channel instructions (R276 to R283): a bound endpoint, a tile that is ready, elements pushed and popped in order. -/
namespace Sys2Proof.Claims
open Sys2Proof.Machine

/-! ## Endpoints and tiles that pass their checks -/

section
variable {s : State} {c : Ctx} (h : Issues s c)
include h

theorem endpoint_bound {q : Nat} {b : QBind} {ch : Chan} {reader tile : Option Bool} (hq : q < c.wg.hdr.qregs) (hb : c.wg.qs.getD q none = some b)
    (hch : s.m.chan? c.vf b.chan = some ch) (hr : reader = none ∨ reader = some b.reader) (ht : tile = none ∨ tile = some ch.t) {sends : Bool}
    (hs : sends = true → ch.state ≠ 3) (clk : Clock) (k : QBind → Chan → Mach) : c.endpoint clk q reader tile sends k = k b ch := by
  have hq' : c.wg.q q = some b := hb
  have hsend : (sends && ch.state == 3) = false := by
    cases sends with
    | false => rfl
    | true => exact beq_eq_false_iff_ne.2 (hs rfl)
  rw [Ctx.endpoint, if_neg (Nat.not_le.2 hq), hq', Mach.ctx?_m h]
  simp only [hch, hsend]
  rcases hr with rfl | rfl <;> rcases ht with rfl | rfl <;> simp only [bne_self_eq_false, Bool.or_self, Bool.false_eq_true, if_false]
theorem endpoint_boundTo {q : Nat} {b : QBind} {ch : Chan} {reader tile : Bool} (hb : BoundTo s c q b ch reader tile) {sends : Bool}
    (hs : sends = true → ch.state ≠ 3) (clk : Clock) (k : QBind → Chan → Mach) : c.endpoint clk q (some reader) (some tile) sends k = k b ch := by
  obtain ⟨hq, hbind, rfl, hch, rfl⟩ := hb
  exact endpoint_bound h hq hbind hch (.inr rfl) (.inr rfl) hs clk k
end

section
variable {c : Ctx} {t : Nat} {x : Tile} (ht : TileReady c t x)
include ht

theorem tileHandle_ready (clk : Clock) (k : Tile → Mach) : c.tileHandle clk t k = k x := by
  obtain ⟨-, hlt, rfl, hst, -, -⟩ := ht
  have hne : ¬((c.wg.tile t).state = .empty ∧ (c.wg.tile t).m = false) := fun he => TileState.noConfusion (hst.symm.trans he.1)
  rw [Ctx.tileHandle, if_neg (Nat.not_le.2 hlt), if_neg hne]
  rfl
theorem tileReady_ready (clk : Clock) (k : Tile → Mach) : c.tileReady clk t k = k x := by
  obtain ⟨-, -, rfl, hst, htrap, hjob⟩ := ht
  have hx : c.wg.tile t = c.wg.tiles.getD t {} := rfl
  have hbusy : (c.wg.tiles.getD t {}).busy = false := by
    rw [Tile.busy, hst]
    generalize c.wg.tiles.getD t {} = x at hjob
    cases hj : x.job with
    | none => rfl
    | some j =>
      cases j with
      | command id => exact absurd hj (hjob id)
      | _ => rfl
  have hne : ¬(c.wg.tiles.getD t {}).state = .empty := fun he => TileState.noConfusion (hst.symm.trans he)
  simp only [Ctx.tileReady, hx, htrap, hbusy, hne, Bool.false_eq_true, if_false]
end
theorem elementTile_fits {c : Ctx} {t esize : Nat} {x : Tile} (ht : CopyTile c t x) (he : esize = x.size * 128) (clk : Clock) (k : Mach) :
    c.elementTile clk t esize k = k := by
  obtain ⟨hready, hm⟩ := ht
  have hsize : decide (x.bytes ≠ esize) = false := decide_eq_false (not_not.2 he.symm)
  have hfit : ¬(x.m || decide (x.bytes ≠ esize)) = true := by rw [hm, hsize]; decide
  rw [Ctx.elementTile, tileHandle_ready hready]
  exact if_neg hfit

/-! ## Elements, in order -/

section
variable {m : Mach} {vf n : Nat} {ch : Chan} (hch : m.chan? vf n = some ch)
include hch

theorem enqueue_fits (hst : ch.state ≠ 3) (hx : ch.x = false) (hsp : ch.spooled = []) (hroom : ch.bobbin.length < ch.bcap) (clk : Clock) (x : List Byte) :
    m.enqueue clk vf n x = m.setChan vf n { ch with bobbin := ch.bobbin ++ [x], sent := (ch.sent + 1) % 2 ^ 32 } := by
  have hhere : (ch.x && ch.wbind.isSome) = false := by rw [hx]; rfl
  have hfits : (ch.spooled.isEmpty && decide (ch.bobbin.length < ch.bcap)) = true := by rw [hsp, decide_eq_true hroom]; rfl
  rw [Mach.enqueue, hch]
  simp only [hst, hhere, hfits, Bool.false_eq_true, if_false, if_true]
  rfl
omit hch in
/-- Elements that all fit the bobbin stand behind what it holds. -/
theorem enqueueL_fits (clk : Clock) : ∀ (xs : List (List Byte)) {m : Mach} {ch : Chan}, m.chan? vf n = some ch → xs ≠ [] → ch.state ≠ 3 → ch.x = false →
    ch.spooled = [] → ch.bobbin.length + xs.length ≤ ch.bcap →
    m.enqueueL clk vf n xs = m.setChan vf n { ch with bobbin := ch.bobbin ++ xs, sent := (ch.sent + xs.length) % 2 ^ 32 } := by
  intro xs
  induction xs with
  | nil => intro m ch _ hne; exact absurd rfl hne
  | cons x xs ih =>
    intro m ch hch _ hst hx hsp hroom
    rw [List.length_cons] at hroom
    rw [Mach.enqueueL, enqueue_fits hch hst hx hsp (by omega)]
    cases xs with
    | nil => rfl
    | cons y ys =>
      have hrest := ih (m := m.setChan vf n { ch with bobbin := ch.bobbin ++ [x], sent := (ch.sent + 1) % 2 ^ 32 }) (setChan_chan? ..) (List.cons_ne_nil y ys)
        hst hx hsp (by
          show (ch.bobbin ++ [x]).length + (y :: ys).length ≤ ch.bcap
          rw [List.length_append, List.length_singleton]; omega)
      rw [hrest, setChan_setChan]
      refine congrArg (m.setChan vf n) ?_
      dsimp only
      rw [List.append_assoc, Nat.mod_add_mod, Nat.add_assoc, Nat.add_comm 1]
      rfl
theorem dequeue_takes (hx : ch.x = false) {x : List Byte} {xs : List (List Byte)} (hb : ch.bobbin = x :: xs) :
    m.dequeue vf n = (x, m.setChan vf n { ch with bobbin := xs, recvd := (ch.recvd + 1) % 2 ^ 32 }) := by
  rw [Mach.dequeue, hch]
  simp only [hb, hx, Bool.false_eq_true, if_false]
  rfl
omit hch in
/-- The oldest elements leave the bobbin, the oldest first. -/
theorem dequeueN_takes : ∀ (k : Nat) {m : Mach} {ch : Chan}, m.chan? vf n = some ch → 0 < k → ch.x = false → k ≤ ch.bobbin.length →
    m.dequeueN vf n k = (ch.bobbin.take k, m.setChan vf n { ch with bobbin := ch.bobbin.drop k, recvd := (ch.recvd + k) % 2 ^ 32 }) := by
  intro k
  induction k with
  | zero => intro m ch _ hk; exact absurd hk (Nat.lt_irrefl 0)
  | succ k ih =>
    intro m ch hch _ hx hle
    obtain ⟨x, xs, hb⟩ := List.exists_cons_of_length_pos (l := ch.bobbin) (by omega)
    rw [Mach.dequeueN, dequeue_takes hch hx hb]
    cases k with
    | zero => rw [hb]; rfl
    | succ k =>
      have hrest := ih (m := m.setChan vf n { ch with bobbin := xs, recvd := (ch.recvd + 1) % 2 ^ 32 }) (setChan_chan? ..) (Nat.succ_pos k) hx (by
        show k + 1 ≤ xs.length
        rw [hb, List.length_cons] at hle
        omega)
      dsimp only
      rw [hrest, setChan_setChan, hb, List.take_succ_cons, List.drop_succ_cons]
      dsimp only
      rw [Nat.mod_add_mod, Nat.add_assoc, Nat.add_comm 1]
end

/-! ## Sends and receives -/

theorem setChan_other (m : Mach) (vf n : Nat) (ch : Chan) {k : Nat} (hk : k ≠ n) : (m.setChan vf n ch).chan? vf k = m.chan? vf k := by
  rw [Mach.chan?, Mach.setChan, Mach.modFn_fn]
  exact tget_tset_other _ _ hk
theorem retireWith_chan? (c : Ctx) (m : Mach) (f : Thread → Thread) (vf k : Nat) : (c.retireWith m f).chan? vf k = m.chan? vf k := by
  rw [Mach.chan?, Mach.fn_congr (Ctx.retireWith_fns c m f)]
  rfl
theorem retire_atWg_frame (c : Ctx) (m : Mach) (g : Wg → Wg) :
    (c.retire (m.atWg c g)).mem = m.mem ∧ (c.retire (m.atWg c g)).cores = m.cores ∧ (c.retire (m.atWg c g)).fns = m.fns := by
  simp [Mach.atWg]
theorem popState_go {ch : Chan} {n : Nat} (h : n ≤ ch.bobbin.length) : ch.popState n = .go n := by
  rw [Chan.popState, if_pos (show n ≤ ch.avail from Nat.le_add_right_of_le h), if_pos h]
theorem popState_block {ch : Chan} {n : Nat} (h : ch.avail < n) (hst : ch.state = 1) : ch.popState n = .block := by
  have hopen : ch.ended = false := by rw [Chan.ended, hst]; rfl
  rw [Chan.popState, if_neg (Nat.not_le.2 h), hopen]
  rfl
theorem free_within {ch : Chan} (hx : ch.x = false) : ch.free = (ch.bcap - ch.bobbin.length) + (ch.scap - ch.spooled.length) := by
  rw [Chan.free, hx]
  rfl
theorem free_room {ch : Chan} {n : Nat} (hx : ch.x = false) (hroom : ch.bobbin.length + n ≤ ch.bcap) : ¬ch.free < n := by
  rw [free_within hx]
  omega

/-- The elements that the active threads push, in ascending order. -/
def pushed (c : Ctx) (v : Nat) (ch : Chan) : List (List Byte) := c.act.map (fun i => (c.wg.thread i).element v ch.esize)

section
variable {s : State} {c : Ctx} {b : QBind} {ch : Chan} {v : Nat} (h : Issues s c) (hq : Quiet s c) (hch : s.m.chan? c.vf b.chan = some ch) (hx : ch.x = false)
include h hq hch hx

theorem sendNow_fits (ha : c.act ≠ []) (hst : ch.state ≠ 3) (hsp : ch.spooled = []) (hroom : ch.bobbin.length + c.act.length ≤ ch.bcap) (f : Thread → Thread) :
    c.sendNow s.clk v b ch f = c.retireWith
      (s.m.setChan c.vf b.chan { ch with bobbin := ch.bobbin ++ pushed c v ch, sent := (ch.sent + c.act.length) % 2 ^ 32 }) f := by
  have hlen : (pushed c v ch).length = c.act.length := List.length_map ..
  have hpush := enqueueL_fits s.clk (pushed c v ch) hch (mt List.map_eq_nil_iff.1 ha) hst hx hsp (by rw [hlen]; exact hroom)
  rw [hlen] at hpush
  rw [Ctx.sendNow, seal_quiet h hq, release_quiet h hq]
  exact congrArg (fun m => c.retireWith m f) hpush

/-- Thread `i` after a receive: the `j`-th active thread takes the `j`-th oldest element. -/
def received (c : Ctx) (v : Nat) (ch : Chan) (f : Thread → Thread) (i : Nat) (x : Thread) : Thread :=
  match c.act.findIdx? (· == i) with
  | some j => f (x.putElement v ch.esize (ch.bobbin.getD j []))
  | none => x
omit h hq hch hx in
theorem findIdx?_some_lt {i j : Nat} (hj : c.act.findIdx? (· == i) = some j) : j < c.act.length ∧ c.act.contains i = true := by
  obtain ⟨hlt, hp, -⟩ := List.findIdx?_eq_some_iff_getElem.1 hj
  exact ⟨hlt, List.contains_iff_mem.2 (eq_of_beq hp ▸ List.getElem_mem hlt)⟩
omit hq hch hx in
theorem retire_mapIdx {m : Mach} (hw : m.wgs = s.m.wgs) (g : Nat → Thread → Thread) :
    (c.retire (m.atWg c (fun w => { w with threads := w.threads.mapIdx g }))).wgs =
      (put s c { c.wg with threads := c.wg.threads.mapIdx (fun i t => if c.ig.threads.contains i then (g i t).advance c.len else g i t) }).m.wgs := by
  have hwg : m.wg? c.core c.slot = some c.wg := by rw [Mach.wg?, hw]; exact Mach.ctx?_wg h
  rw [Mach.atWg_eq _ hwg, Ctx.retire_eq (Mach.setWg_wg? ..), Mach.setWg_setWg, Wg.modThreads]
  dsimp only
  rw [List.mapIdx_mapIdx, Mach.setWg, put, Mach.setWg, hw]
  rfl
/-- The receive that finds enough elements, each as long as an element is. -/
theorem recvNow_takes (ha : c.act ≠ []) (hn : c.act.length ≤ ch.bobbin.length) (hlen : ∀ e ∈ ch.bobbin, e.length = ch.esize) {p : Option Nat}
    {f : Thread → Thread} (hf : f = match p with | some p => fun t => t.setP p true | none => id) :
    c.recvNow s.clk v c.act.length b ch p = c.retire
      ((s.m.setChan c.vf b.chan { ch with bobbin := ch.bobbin.drop c.act.length, recvd := (ch.recvd + c.act.length) % 2 ^ 32 }).atWg c
        (fun w => { w with threads := w.threads.mapIdx (received c v ch f) })) := by
  have hpos : 0 < c.act.length := List.length_pos_iff.2 ha
  have hfull : ¬(ch.state = 3 ∧ ch.avail = 0) := fun ⟨_, hav⟩ => by rw [Chan.avail] at hav; omega
  have hl1 (m : Mach) (hm : m.cores = s.m.cores) : m.acquire c.core (if ch.x then 6 else 5) = m :=
    Mach.acquire_of_empty (by rw [Mach.core, hm]; exact hq.2.2) _
  rw [Ctx.recvNow, if_neg (Nat.pos_iff_ne_zero.1 hpos), if_neg hfull, seal_quiet h hq, dequeueN_takes _ hch hpos hx hn]
  dsimp only
  rw [hl1 (s.m.setChan ..) rfl]
  refine congrArg (fun g : Wg → Wg => c.retire (Mach.atWg _ c g)) (funext fun w => ?_)
  refine congrArg (fun ts => { w with threads := ts }) (List.mapIdx_eq_mapIdx_iff.2 fun i hi => ?_)
  unfold received
  cases hj : c.act.findIdx? (· == i) with
  | none => rfl
  | some j =>
    have hlt := (findIdx?_some_lt hj).1
    have hel : (ch.bobbin.take c.act.length).getD j [] = ch.bobbin.getD j [] := by
      rw [List.getD_eq_getElem?_getD, List.getElem?_take_of_lt hlt, ← List.getD_eq_getElem?_getD]
    have hsize : ((ch.bobbin.getD j []).length) = ch.esize := by
      rw [List.getD_eq_getElem _ _ (Nat.lt_of_lt_of_le hlt hn)]
      exact hlen _ (List.getElem_mem _)
    subst hf
    cases p with
    | none => simp only [hel, hsize, Nat.sub_self, List.replicate_zero, List.append_nil, id]
    | some p => simp only [hel, hsize, Nat.sub_self, List.replicate_zero, List.append_nil, Option.getD_some, decide_eq_true hlt]
omit hq hch hx in
/-- Each receiving thread goes on with its element, the rest of the group goes on, and no other thread changes. -/
theorem received_advance (f : Thread → Thread) (i : Nat) (x : Thread) :
    (if c.ig.threads.contains i then (received c v ch f i x).advance c.len else received c v ch f i x) =
      match c.act.findIdx? (· == i) with
      | some j => (f (x.putElement v ch.esize (ch.bobbin.getD j []))).advance c.len
      | none => if c.ig.threads.contains i then x.advance c.len else x := by
  unfold received
  cases hj : c.act.findIdx? (· == i) with
  | none => rfl
  | some j => exact if_pos (act_sub h i (findIdx?_some_lt hj).2)
end

/-- The group goes on in a machine where a tile of its workgroup has changed. -/
theorem retireWith_setTile {s : State} {c : Ctx} (h : Issues s c) {m : Mach} (hw : m.wgs = s.m.wgs) (t : Nat) (x : Tile) (f : Thread → Thread) :
    (c.retireWith (m.setTile c.core c.slot t x) f).wgs = (put s c { each c f with tiles := setAt c.wg.tiles t x }).m.wgs := by
  have hwg : m.wg? c.core c.slot = some c.wg := by rw [Mach.wg?, hw]; exact Mach.ctx?_wg h
  rw [Mach.setTile_eq hwg, Ctx.retireWith_eq f (Mach.setWg_wg? ..), Mach.setWg_setWg, ← each_eq c f (act_sub h), Mach.setWg, put, Mach.setWg, hw]
  rfl

/-! ## Bindings -/

theorem trapWaiters_none {m : Mach} {core slot q : Nat} {w : Wg} (hw : m.wg? core slot = some w) (hq : w.waitsOn q = []) (clk : Clock) :
    m.trapWaiters clk core slot q = m := by
  rw [Mach.trapWaiters, hw]
  simp only [hq]
  rfl
theorem waitsOn_retire (w : Wg) (ts : List Nat) (n q : Nat) (hq : w.waitsOn q = []) : (w.modThreads ts (·.advance n)).waitsOn q = [] := by
  rw [Wg.waitsOn, List.filter_eq_nil_iff] at hq ⊢
  intro i hi
  have hi' : i ∈ upFrom 0 w.threads.length := by rwa [Wg.modThreads, List.length_mapIdx] at hi
  have hst : ((w.modThreads ts (·.advance n)).thread i).status = (w.thread i).status := by
    rw [Wg.thread_modThreads]
    split <;> rfl
  rw [hst]
  exact hq i hi'
theorem isMapped_false {w : Wg} {v : Nat} (hv : ∀ e ∈ w.qs, ∀ x, e = some x → x.map ≠ some v) : w.isMapped v = false := by
  refine List.any_eq_false.2 fun e he => ?_
  cases e with
  | none => exact Bool.false_ne_true
  | some x => exact fun hm => hv _ he x rfl (eq_of_beq hm)

theorem exec_chSend (q v : Nat) (s : State) : exec (.chSend q v) s = s.group (chSendRun q v) := rfl
theorem exec_chTrySend (q v p : Nat) (s : State) : exec (.chTrySend q v p) s = s.group (chTrySendRun q v p) := rfl
theorem exec_chRecv (q v : Nat) (p : Option Nat) (s : State) : exec (.chRecv q v p) s = s.group (chRecvRun q v p) := rfl
theorem exec_chTryRecv (q v p : Nat) (s : State) : exec (.chTryRecv q v p) s = s.group (chTryRecvRun q v p) := rfl
theorem exec_chSendt (q t : Nat) (s : State) : exec (.chSendt q t) s = s.group (chSendtRun q t) := rfl
theorem exec_chRecvt (q t : Nat) (p : Option Nat) (s : State) : exec (.chRecvt q t p) s = s.group (chRecvtRun q t p) := rfl
theorem exec_chBind (q k : Nat) (map : Option Nat) (s : State) :
    exec (.chBindW q k map) s = s.group (chBindRun false q k map) ∧ exec (.chBindR q k map) s = s.group (chBindRun true q k map) := ⟨rfl, rfl⟩
theorem exec_chUnbind (q : Nat) (s : State) : exec (.chUnbind q) s = s.group (chUnbindRun q) := rfl
theorem exec_chClose (q : Nat) (s : State) : exec (.chClose q) s = s.group (chCloseRun q) := rfl
theorem exec_chStat (d q sel : Nat) (s : State) : exec (.chStat d q sel) s = s.group (chStatRun d q sel) := rfl
theorem exec_chStatNum (d k sel : Nat) (s : State) : exec (.chStatNum d k sel) s = s.group (chStatNumRun d k sel) := rfl

section
variable {s : State} {c : Ctx} {q v : Nat} {b : QBind} {ch : Chan} (h : Issues s c) (hp : Proper c) (hspan : v + ch.esize / 4 ≤ c.wg.alloc)
include h hp hspan

theorem chSendRuns_bound (hb : BoundTo s c q b ch false false) (hst : ch.state ≠ 3) (hn : NoneHeld c) (p : Nat) :
    chSendRun q v s.clk c = (if ch.free < c.act.length then c.waitChan s.clk c.m q b true true c.act.length
      else if c.behind [q] then c.waitChan s.clk c.m q b true false c.act.length else c.sendNow s.clk v b ch id) ∧
    chTrySendRun q v p s.clk c = (if ch.free < c.act.length || c.behind [q] then c.retireWith c.m (fun t => t.setP p false)
      else c.sendNow s.clk v b ch (fun t => t.setP p true)) := by
  have hfits : (!c.elementSpan v ch.esize) = false := by rw [Ctx.elementSpan, decide_eq_true hspan]; rfl
  have hact : c.act.isEmpty = false := Bool.eq_false_iff.2 (mt List.isEmpty_iff.1 hp.1)
  constructor
  · rw [chSendRun, endpoint_boundTo h hb fun _ => hst]
    simp only [hfits, hact, afterHeld_none hn, Bool.false_eq_true, if_false]
  · rw [chTrySendRun, endpoint_boundTo h hb fun _ => hst]
    simp only [hfits, hact, afterHeld_none hn, Bool.false_eq_true, if_false]
theorem chRecvRuns_bound (hb : BoundTo s c q b ch true false) (p : Nat) (p' : Option Nat) :
    chRecvRun q v p' s.clk c = (match ch.popState c.act.length with
      | .go k => if c.behind [q] then c.waitChan s.clk c.m q b false false c.act.length else c.recvNow s.clk v k b ch p'
      | .refill => c.waitChan s.clk c.m q b false false c.act.length
      | .block => c.waitChan s.clk c.m q b false true c.act.length) ∧
    chTryRecvRun q v p s.clk c = (if ch.avail < c.act.length || c.behind [q] then c.retireWith c.m (fun t => t.setP p false)
      else match ch.popState c.act.length with
        | .go k => c.recvNow s.clk v k b ch (some p)
        | _ => c.waitChan s.clk c.m q b false false c.act.length) := by
  have hfits : (!c.elementSpan v ch.esize) = false := by rw [Ctx.elementSpan, decide_eq_true hspan]; rfl
  have hact : c.act.isEmpty = false := Bool.eq_false_iff.2 (mt List.isEmpty_iff.1 hp.1)
  have hno : (false = true → ch.state ≠ 3) := fun hf => absurd hf Bool.false_ne_true
  constructor
  · rw [chRecvRun, endpoint_boundTo h hb hno]
    simp only [hfits, hact, Bool.false_eq_true, if_false] <;> rfl
  · rw [chTryRecvRun, endpoint_boundTo h hb hno]
    simp only [hfits, hact, Bool.false_eq_true, if_false] <;> rfl
end

end Sys2Proof.Claims
end

section
open Sys2Proof Sys2Proof.Machine Sys2Proof.Claims

/-- Settles the first part of O31. -/
theorem channelTransfers : ChannelTransfers := by
  intro q v p b ch s c h hq hn hp hbehind hspan n element sent got
  refine ⟨fun hb hst hx => ⟨fun hsp hroom => ?_, fun hfull => ?_⟩, fun hb hx => ⟨fun havail hlen => ?_, fun hfew => ?_⟩⟩
  · obtain ⟨-, -, -, hch, -⟩ := id hb
    obtain ⟨hsend, htry⟩ := chSendRuns_bound h hp hspan hb hst hn p
    have hroom' := free_room hx hroom
    have hsent (i : Instr) (run : Clock → Ctx → Mach) (f : Thread → Thread) (he : exec i s = s.group run) (hrun : run s.clk c = c.sendNow s.clk v b ch f) :
        sent i f :=
      ⟨_, _, exec_withM h he (hrun.trans (sendNow_fits h hq hch hx hp.1 hst hsp hroom f)), Ctx.retireWith_mem .., Ctx.retireWith_cores ..,
        retireWith_wgs (m := s.m.setChan ..) h rfl f, (retireWith_chan? ..).trans (setChan_chan? ..), rfl, rfl, hsp, fun k hk => (retireWith_chan? ..).trans (setChan_other _ _ _ _ hk)⟩
    refine ⟨hsent _ _ _ (exec_chSend q v s) (hsend.trans ?_), hsent _ _ _ (exec_chTrySend q v p s) (htry.trans ?_)⟩
    · rw [if_neg hroom', hbehind]; rfl
    · rw [decide_eq_false hroom', hbehind]; rfl
  · obtain ⟨hsend, htry⟩ := chSendRuns_bound h hp hspan hb hst hn p
    refine ⟨exec_withM h (exec_chSend q v s) (hsend.trans ((if_pos hfull).trans ?_)), exec_withM h (exec_chTrySend q v p s) (htry.trans ?_)⟩
    · rw [Mach.ctx?_m h]; rfl
    · rw [decide_eq_true hfull]; exact retireWith_each h _
  · obtain ⟨-, -, -, hch, -⟩ := id hb
    have hgo := popState_go havail
    have hgot (i : Instr) (run : Clock → Ctx → Mach) (p : Option Nat) (f : Thread → Thread) (hf : f = match p with | some p => fun t => t.setP p true | none => id)
        (he : exec i s = s.group run) (hrun : run s.clk c = c.recvNow s.clk v c.act.length b ch p) : got i f := by
      obtain ⟨hmem, hcores, hfns⟩ := retire_atWg_frame c
        (s.m.setChan c.vf b.chan { ch with bobbin := ch.bobbin.drop c.act.length, recvd := (ch.recvd + c.act.length) % 2 ^ 32 })
        (fun w => { w with threads := w.threads.mapIdx (received c v ch f) })
      refine ⟨_, _, exec_withM h he (hrun.trans (recvNow_takes h hq hch hx hp.1 havail hlen hf)), hmem, hcores,
        (congrArg (fun f => tget (Fn.chans f) b.chan) (Mach.fn_congr hfns c.vf)).trans (setChan_chan? ..), rfl, rfl, rfl,
        (retire_mapIdx (m := s.m.setChan ..) h rfl _).trans ?_⟩
      simp only [received_advance h] <;> rfl
    obtain ⟨hrecv, htry⟩ := chRecvRuns_bound h hp hspan hb p (some p)
    obtain ⟨hrecv', -⟩ := chRecvRuns_bound h hp hspan hb p none
    rw [hgo, hbehind] at hrecv hrecv' htry
    have hav : ¬ch.avail < c.act.length := by rw [Chan.avail]; omega
    rw [decide_eq_false hav] at htry
    exact ⟨hgot _ _ none id rfl (exec_chRecv q v none s) hrecv', hgot _ _ (some p) _ rfl (exec_chRecv q v (some p) s) hrecv,
      hgot _ _ (some p) _ rfl (exec_chTryRecv q v p s) htry⟩
  · refine ⟨exec_withM h (exec_chTryRecv q v p s) ((chRecvRuns_bound h hp hspan hb p none).2.trans ?_), fun hst p' =>
      exec_withM h (exec_chRecv q v p' s) ((chRecvRuns_bound h hp hspan hb p p').1.trans ?_)⟩
    · rw [decide_eq_true hfew]; exact retireWith_each h _
    · rw [popState_block hfew hst, Mach.ctx?_m h]; rfl
end

section
open Sys2Proof Sys2Proof.Machine Sys2Proof.Claims

/-- Settles the second part of O31. An element of whole tiles moves when its instruction issues, and no tile is busy with it (log 64). -/
theorem tileElements : TileElements := by
  intro q t b ch x s c h hq hn htile hbehind hsize hx
  have hready := htile.1
  have hact : ¬c.act.isEmpty = true := mt List.isEmpty_iff.1 hready.1
  refine ⟨fun hb hst hsp hroom => ?_, fun e es p hb hbob => ?_⟩
  · obtain ⟨-, -, -, hch, -⟩ := id hb
    have hfree : ¬ch.free < 1 := free_room hx hroom
    have hrun : chSendtRun q t s.clk c = c.retire (s.m.setChan c.vf b.chan
        { ch with bobbin := ch.bobbin ++ [s.m.scratchRead c.core c.slot x.off x.bytes], sent := (ch.sent + 1) % 2 ^ 32 }) := by
      rw [chSendtRun, endpoint_boundTo h hb fun _ => hst, elementTile_fits htile hsize, if_neg hact, tileReady_ready hready, if_neg hfree, hbehind,
        if_neg Bool.false_ne_true, afterHeld_none hn]
      dsimp only
      rw [seal_quiet h hq, release_quiet h hq, enqueue_fits hch hst hx hsp hroom]
    exact ⟨_, _, exec_withM h (exec_chSendt q t s) hrun, Ctx.retire_mem .., Ctx.retire_cores .., retire_wgs (m := s.m.setChan ..) h rfl,
      (congrArg (fun f => tget (Fn.chans f) b.chan) (Mach.fn_congr (Ctx.retire_fns ..) c.vf)).trans (setChan_chan? ..), rfl⟩
  · obtain ⟨-, -, -, hch, -⟩ := id hb
    have hgo : ch.popState 1 = .go 1 := popState_go (by rw [hbob]; exact Nat.succ_pos _)
    have hrun : chRecvtRun q t p s.clk c = c.retireWith
        (((s.m.setChan c.vf b.chan { ch with bobbin := es, recvd := (ch.recvd + 1) % 2 ^ 32 }).scratchWrite c.core c.slot x.off e).setTile
          c.core c.slot t x.filled) (fun y => match p with | some p => y.setP p true | none => y) := by
      rw [chRecvtRun, endpoint_boundTo h hb fun hf => absurd hf Bool.false_ne_true, elementTile_fits htile hsize, if_neg hact, tileReady_ready hready]
      dsimp only
      rw [hgo]
      dsimp only
      rw [hbehind, if_neg Bool.false_ne_true, if_neg Nat.one_ne_zero, seal_quiet h hq, dequeue_takes hch hx hbob]
      dsimp only
      rw [Mach.acquire_of_empty (m := s.m.setChan ..) hq.2.2] <;> rfl
    have hwrite (m : Mach) (hw : m.wgs = s.m.wgs) : m.scratchWrite c.core c.slot x.off e = m.setCore c.core ((m.core c.core).putScratch (c.wg.scratchAt x.off) e) :=
      Mach.scratchWrite_eq (by rw [Mach.wg?, hw]; exact Mach.ctx?_wg h) _ _
    rw [hwrite (s.m.setChan ..) rfl] at hrun
    refine ⟨_, _, exec_withM h (exec_chRecvt q t p s) hrun, (Ctx.retireWith_mem ..).trans (Mach.modWg_mem ..),
      (congrArg (fun f => tget (Fn.chans f) b.chan) (Mach.fn_congr ((Ctx.retireWith_fns ..).trans (Mach.modWg_fns ..)) c.vf)).trans (setChan_chan? s.m ..),
      rfl, congrArg Core.scratch ?_, ?_⟩
    swap
    · exact retireWith_setTile (m := (s.m.setChan ..).setCore ..) h rfl t _ _
    have hsame : s.m.scratchWrite c.core c.slot (x.base * 128) e = s.m.setCore c.core ((s.m.core c.core).putScratch (c.wg.scratchAt x.off) e) := hwrite _ rfl
    rw [hsame, Mach.setCore_core]
    refine (retireWith_core ..).trans ?_
    rw [Mach.core, Mach.setTile, Mach.modWg_cores]
    exact Mach.setCore_core ..
/-- Settles the third part of O31. -/
theorem channelControl : ChannelControl := by
  intro q k d sel map s c h hq hn ha
  have hact : ¬c.act.isEmpty = true := mt List.isEmpty_iff.1 ha
  have hlead : c.leadK k = kOf c k := rfl
  have hlist (hk : kOf c k < 4096) : (if c.leadK k < 4096 then c.m.chan? c.vf (c.leadK k) else none) = s.m.chan? c.vf (kOf c k) := by
    rw [hlead, if_pos hk, Mach.ctx?_m h]
  refine ⟨fun ch hq' hfree hk hch hmap => ?_, fun b ch hq' hb hch hwait => ?_, fun ch hk hch => ?_, fun hnone => ?_⟩
  · have hunbound : ¬(c.wg.q q).isSome = true := by rw [show c.wg.q q = none from hfree]; exact Bool.false_ne_true
    have hok (v : Nat) (hv : map = some v) : (ch.t || ch.esize ≠ 4 || c.wg.isMapped v) = false := by
      obtain ⟨ht, hsz, hnot⟩ := hmap v hv
      simp [ht, hsz, isMapped_false hnot]
    constructor
    · intro hwb hst
      refine exec_withM h (exec_chBind q k map s).1 ?_
      rw [chBindRun, if_neg (Nat.not_le.2 hq'), if_neg hunbound, if_neg hact]
      simp only [hlist hk, hch]
      refine (if_neg ?_).trans (by rw [Mach.ctx?_m h]; rfl)
      rw [hwb, hst]
      cases map with
      | none => exact Bool.false_ne_true
      | some v => exact Bool.eq_false_iff.1 (hok v rfl)
    · intro hrb
      refine exec_withM h (exec_chBind q k map s).2 ?_
      rw [chBindRun, if_neg (Nat.not_le.2 hq'), if_neg hunbound, if_neg hact]
      simp only [hlist hk, hch]
      refine (if_neg ?_).trans (by rw [Mach.ctx?_m h]; rfl)
      rw [hrb]
      cases map with
      | none => exact Bool.false_ne_true
      | some v => exact Bool.eq_false_iff.1 (hok v rfl)
  · have hretire (m : Mach) (hw : m.wgs = s.m.wgs) : (c.retire m).trapWaiters s.clk c.core c.slot q = c.retire m := by
      have hwg : m.wg? c.core c.slot = some c.wg := by rw [Mach.wg?, hw]; exact Mach.ctx?_wg h
      refine trapWaiters_none (w := c.wg.modThreads c.ig.threads (·.advance c.len)) ?_ (waitsOn_retire _ _ _ _ hwait) _
      rw [Ctx.retire_eq hwg]
      exact Mach.setWg_wg? ..
    have hunbind : chUnbindRun q s.clk c = (c.retire s.m).dropBinding c.core c.slot c.vf q b := by
      rw [chUnbindRun, endpoint_bound h hq' hb hch (.inl rfl) (.inl rfl) fun hf => absurd hf Bool.false_ne_true, if_neg hact, Mach.ctx?_m h, hretire _ rfl]
    refine ⟨fun hr => exec_withM h (exec_chUnbind q s) (hunbind.trans ?_), fun hr => exec_withM h (exec_chUnbind q s) (hunbind.trans ?_),
      fun hr hx => exec_withM h (exec_chClose q s) ?_, exec_answersK h (exec_chStat d q sel s) ?_⟩
    · rw [Mach.dropBinding, hr]; rfl
    · rw [Mach.dropBinding, hr]; rfl
    · rw [chCloseRun, endpoint_bound h hq' hb hch (.inr (by rw [hr])) (.inl rfl) fun hf => absurd hf Bool.false_ne_true, if_neg hact, afterHeld_none hn]
      dsimp only
      rw [seal_quiet h hq, release_quiet h hq, Mach.closeChan, hch]
      simp only [hx, Bool.false_eq_true, if_false]
      rw [hretire (s.m.setChan ..) rfl, Mach.dropBinding, hr]
      rfl
    · rw [chStatRun, if_neg (Nat.not_le.2 hq'), show c.wg.q q = some b from hb]
      simp only [Mach.ctx?_m h, hch]
  · refine exec_answersK h (exec_chStatNum d k sel s) ?_
    rw [chStatNumRun, hlist hk, hch]
  · refine exec_answersK (x := 0) h (exec_chStatNum d k sel s) ?_
    have hno : (if c.leadK k < 4096 then c.m.chan? c.vf (c.leadK k) else none) = none := by
      rw [hlead, Mach.ctx?_m h]
      rcases hnone with hk | hno
      · exact if_neg (Nat.not_lt.2 hk)
      · rw [hno, ite_self]
    rw [chStatNumRun, hno]

/-- Settles O31. -/
theorem channels : Obligations.Channels := ⟨channelTransfers, tileElements, channelControl⟩
end

section
/-! SUPPORT. The copy queue (R290, R315 to R320): what a command that passes its checks leaves behind. -/
namespace Sys2Proof.Claims
open Sys2Proof.Machine

theorem getD_setAt_other {α : Type} {x y : α} : ∀ {xs : List α} {i j : Nat}, i ≠ j → (setAt xs i x).getD j y = xs.getD j y
  | [], _, _, _ => rfl
  | _ :: _, 0, 0, h => absurd rfl h
  | _ :: _, 0, _ + 1, _ => rfl
  | _ :: _, _ + 1, 0, _ => rfl
  | _ :: xs, _ + 1, _ + 1, h => getD_setAt_other (xs := xs) (fun e => h (congrArg Nat.succ e))
theorem leadA_eq (c : Ctx) (a : Nat) : BitVec.ofNat 80 (c.leadA a) = (lead c).getA a := by
  rw [Ctx.leadA, BitVec.ofNat_toNat, BitVec.setWidth_eq]; rfl
theorem leadK_eq (c : Ctx) (k : Nat) : BitVec.ofNat 64 (c.leadK k) = (lead c).getK k := by
  rw [Ctx.leadK, BitVec.ofNat_toNat, BitVec.setWidth_eq]; rfl

/-! ## The checks -/

theorem copyBar_ok {c : Ctx} {o : CopyOpts} (hb : BarOk c o) (clk : Clock) (here : Bool) (k : Option Nat → Mach) :
    c.copyBar clk o.bar here k = k (o.bar.map (fun r => kOf c r % 2 ^ 32)) := by
  cases hr : o.bar with
  | none => rfl
  | some r =>
    obtain ⟨halign, hfit, hlive⟩ := hb r hr
    have hlead : c.leadK r % 4294967296 = kOf c r % 2 ^ 32 := rfl
    have hdead : ¬(here && !c.wg.live (kOf c r % 2 ^ 32)) = true := by rw [Wg.live, hlive, Bool.not_true, Bool.and_false]; exact Bool.false_ne_true
    rw [Ctx.copyBar]
    simp only [hlead]
    rw [if_neg (not_not.2 halign), if_neg (Nat.not_lt.2 hfit), if_neg hdead]
    rfl
theorem copyAlign_ok (c : Ctx) (clk : Clock) {n : Nat} {as : List (Nat × Nat)} (ha : ∀ a ∈ as, a.2 % n = 0) (k : Mach) : c.copyAlign clk n as k = k := by
  have hnone : (sortBy (·.1) as).find? (fun a => a.2 % n != 0) = none := List.find?_eq_none.2 fun a h => by simp [ha a (mem_sortBy.1 h)]
  rw [Ctx.copyAlign, hnone]
theorem copyTile_ok {c : Ctx} {t : Nat} {x : Tile} (ht : CopyTile c t x) (clk : Clock) (k : Mach) : c.copyTile clk t k = k := by
  rw [Ctx.copyTile, tileHandle_ready ht.1]
  exact if_neg (by rw [ht.2]; exact Bool.false_ne_true)
theorem tile_eq {c : Ctx} {t : Nat} {x : Tile} (ht : CopyTile c t x) : c.wg.tile t = x := ht.1.2.2.1.symm

section
variable {c : Ctx} (hrole : c.role = 0) (ha : c.act ≠ [])
include hrole ha

theorem copyIssue_none (clk : Clock) (k : Mach) : c.copyIssue clk [] k = k := by
  rw [Ctx.copyIssue, if_neg (not_not.2 hrole)]
  exact if_neg (mt List.isEmpty_iff.1 ha)
theorem copyIssue_one {t : Nat} {x : Tile} (ht : CopyTile c t x) (clk : Clock) (k : Mach) : c.copyIssue clk [t] k = k := by
  rw [Ctx.copyIssue, if_neg (not_not.2 hrole)]
  refine (copyTile_ok ht clk _).trans ((if_neg (mt List.isEmpty_iff.1 ha)).trans ?_)
  exact tileReady_ready ht.1 clk (fun _ => k)
end

/-! ## The queue -/

/-- The machine with one more command at the end of a core's copy queue. -/
def enqueued (m : Mach) (core : Nat) (x : Copy) : Mach :=
  ({ m with nextId := m.nextId + 1, seq := m.seq + 1 } : Mach).modCore core (fun k => { k with copies := k.copies ++ [x] })
/-- The tiles that a command names are its own. -/
def holdTiles (ts : List Nat) (id : Nat) (w : Wg) : Wg := ts.foldl (fun v t => v.setTile t { w.tile t with job := some (.command id) }) w
theorem foldl_setTile {core slot id : Nat} {w : Wg} : ∀ (ts : List Nat) {m : Mach} {v : Wg}, m.wg? core slot = some v →
    ts.foldl (fun m t => m.setTile core slot t { w.tile t with job := some (.command id) }) m =
      if ts = [] then m else m.setWg core slot (ts.foldl (fun v t => v.setTile t { w.tile t with job := some (.command id) }) v) := by
  intro ts
  induction ts with
  | nil => intro m v _; rfl
  | cons t ts ih =>
    intro m v hv
    rw [List.foldl_cons, Mach.setTile_eq hv, ih (Mach.setWg_wg? ..), if_neg (List.cons_ne_nil t ts), List.foldl_cons]
    split
    · next he => rw [he]; rfl
    · rw [Mach.setWg_setWg]

section
variable {s : State} {c : Ctx} (h : Issues s c)
include h

theorem queueCopy_full (hfull : 32 ≤ (s.m.core c.core).copies.length) (reason : Option Nat) (kind : CopyKind) (size : Nat) (bar : Option Nat)
    (o : CopyOpts) (ts : List Nat) (tag : Nat) (failed : Bool) : c.queueCopy s.clk reason kind size bar o ts tag failed = s.m := by
  unfold Ctx.queueCopy
  rw [Mach.ctx?_m h]
  exact if_pos hfull
theorem retire_held (x : Copy) (ts : List Nat) :
    c.retire (ts.foldl (fun m t => m.setTile c.core c.slot t { c.wg.tile t with job := some (.command s.m.nextId) }) (enqueued s.m c.core x)) =
      (enqueued s.m c.core x).setWg c.core c.slot ((holdTiles ts s.m.nextId c.wg).modThreads c.ig.threads (·.advance c.len)) := by
  have hwg : (enqueued s.m c.core x).wg? c.core c.slot = some c.wg :=
    show s.m.wg? c.core c.slot = some c.wg from Mach.ctx?_wg h
  rw [foldl_setTile ts hwg]
  split
  · next he => rw [he, Ctx.retire_eq hwg]; rfl
  · rw [Ctx.retire_eq (Mach.setWg_wg? ..), Mach.setWg_setWg]; rfl
theorem queueCopy_eq (hq : Quiet s c) (hn : NoneHeld c) (hroom : (s.m.core c.core).copies.length < 32) (reason : Option Nat) (kind : CopyKind) (size : Nat)
    (bar : Option Nat) (o : CopyOpts) (ts : List Nat) (tag : Nat) (failed : Bool) : c.queueCopy s.clk reason kind size bar o ts tag failed =
      (enqueued s.m c.core { id := s.m.nextId, slot := c.slot, seq := s.m.seq + 1, kind, size, bar, tag, bd := o.bd.map (fun b => (b, c.bd b)),
                              failed }).setWg c.core c.slot ((holdTiles ts s.m.nextId c.wg).modThreads c.ig.threads (·.advance c.len)) := by
  have hcore : ¬32 ≤ (c.m.core c.core).copies.length := by rw [Mach.ctx?_m h]; exact Nat.not_le.2 hroom
  unfold Ctx.queueCopy
  rw [if_neg hcore, afterHeld_none hn]
  cases reason with
  | none =>
    dsimp only
    rw [Mach.ctx?_m h, Mach.writeBackAll_of_empty hq.2.2]
    exact retire_held h (x := _) ts
  | some r =>
    dsimp only
    rw [seal_quiet h hq, release_quiet h hq]
    exact retire_held h (x := _) ts
/-- An instruction that comes to `queueCopy` queues its command. -/
theorem queues_of_run {i : Instr} {f : Clock → Ctx → Mach} (he : exec i s = s.group f) (hr : CopyReady s c) {reason : Option Nat} {kind : CopyKind}
    {size : Nat} {bar : Option Nat} {o : CopyOpts} {ts : List Nat} {tag : Nat} {failed : Bool} {w : Wg → Wg}
    (hf : f s.clk c = c.queueCopy s.clk reason kind size bar o ts tag failed)
    (hw : (holdTiles ts s.m.nextId c.wg).modThreads c.ig.threads (·.advance c.len) = w (each c id)) :
    Queues i s c kind size bar tag (o.bd.map (fun b => (b, c.wg.bds.getD b {}))) failed w := by
  obtain ⟨hq, hn, -, -, hroom⟩ := hr
  have hrun := hf.trans (queueCopy_eq h hq hn hroom reason kind size bar o ts tag failed)
  rw [hw] at hrun
  refine ⟨_, exec_withM h he hrun, rfl, rfl, rfl, rfl, rfl, rfl, fun k hk => Mach.setCore_core_other _ _ hk, ?_, ?_⟩
  · exact (congrArg Core.scratch (Mach.setCore_core ..)).trans rfl
  · exact (congrArg Core.copies (Mach.setCore_core ..)).trans rfl
theorem hold_none (id' : Nat) : (holdTiles [] id' c.wg).modThreads c.ig.threads (·.advance c.len) = id (each c id) := modThreads_each h
theorem hold_one (t id' : Nat) : (holdTiles [t] id' c.wg).modThreads c.ig.threads (·.advance c.len) = tileOf t id' (each c id) := by
  rw [← modThreads_each h]
  rfl
theorem hold_two {d t : Nat} (hne : d ≠ t) (id' : Nat) :
    (holdTiles [d, t] id' c.wg).modThreads c.ig.threads (·.advance c.len) = (tileOf t id' ∘ tileOf d id') (each c id) := by
  rw [← modThreads_each h, Function.comp_apply]
  unfold tileOf
  dsimp only
  rw [getD_setAt_other hne]
  rfl
end

theorem groupCount_eq {s : State} {c : Ctx} (h : Issues s c) : c.groupCount = groupsOf s c := by
  rw [Ctx.groupCount, Mach.ctx?_m h]
  rfl
theorem elemAddrs_eq (c : Ctx) (a v scale : Nat) : c.elemAddrs a v scale = c.act.map (fun j => ((c.wg.thread j).lane,
    ((lead c).getA a + BitVec.ofInt 80 (((c.wg.thread j).getV v).toInt * (2 ^ scale : Nat))).toNat)) := by
  refine List.map_congr_left fun j _ => ?_
  dsimp only
  rw [leadA_eq, sext_eq_toInt, BitVec.ofNat_toNat, BitVec.setWidth_eq]

/-! ## The instructions -/

theorem exec_cpG2t (t a : Nat) (o : CopyOpts) (s : State) : exec (.cpG2t t a o) s = s.group (cpG2tRun t a o) := rfl
theorem exec_cpT2g (a t : Nat) (o : CopyOpts) (s : State) : exec (.cpT2g a t o) s = s.group (cpT2gRun a t o) := rfl
theorem exec_cpFillTile (t v : Nat) (o : CopyOpts) (s : State) : exec (.cpFillTile t v o) s = s.group (cpFillTileRun t v o) := rfl
theorem exec_cpG2g (d r n : Nat) (o : CopyOpts) (s : State) : exec (.cpG2g d r n o) s = s.group (cpG2gRun d r n o) := rfl
theorem exec_cpFill (d v n : Nat) (o : CopyOpts) (s : State) : exec (.cpFill d v n o) s = s.group (cpFillRun d v n o) := rfl
theorem exec_cpGather (e t a v scale k : Nat) (o : CopyOpts) (s : State) : exec (.cpGather e t a v scale k o) s = s.group (cpElemRun false e t a v scale k o) := rfl
theorem exec_cpScatter (e a v scale t k : Nat) (o : CopyOpts) (s : State) : exec (.cpScatter e a v scale t k o) s = s.group (cpElemRun true e t a v scale k o) := rfl
theorem exec_cpT2t (d t n : Nat) (o : CopyOpts) (s : State) : exec (.cpT2t d t n o) s = s.group (cpT2tRun d t n o) := rfl
theorem exec_cpMcast (d t n k : Nat) (o : CopyOpts) (s : State) : exec (.cpMcast d t n k o) s = s.group (cpMcastRun d t n k o) := rfl
theorem exec_cpT2tReg (t n k : Nat) (o : CopyOpts) (s : State) : exec (.cpT2tReg t n k o) s = s.group (cpT2tRegRun t n k o) := rfl
theorem exec_cpStamp (a v mask : Nat) (sys : Bool) (s : State) : exec (.cpStamp a v mask sys) s = s.group (cpStampRun a v mask sys) := rfl
theorem exec_lzSend (z k t a path : Nat) (s : State) : exec (.lzSend z k t a path) s = s.group (lzSendRun false z k t a path) := rfl
theorem exec_lzSendAny (z k t a path : Nat) (s : State) : exec (.lzSendAny z k t a path) s = s.group (lzSendRun true z k t a path) := rfl

section
variable {s : State} {c : Ctx} {o : CopyOpts} (h : Issues s c) (hr : CopyReady s c) (hb : BarOk c o)
include h hr hb

/-- Aligned single-address commands between memory and a tile. -/
theorem tileCopies_queue {t d : Nat} {x : Tile} (ht : CopyTile c t x) (hd : aOf c d % 16 = 0) :
    QueuesO (.cpG2t t d o) s c (.g2t t ((lead c).getA d)) (x.size * 128) o (tileOf t s.m.nextId) ∧
      QueuesO (.cpT2g d t o) s c (.t2g ((lead c).getA d) t) (x.size * 128) o (tileOf t s.m.nextId) := by
  obtain ⟨-, -, hrole, ha, -⟩ := id hr
  have hal : ∀ a ∈ [(c.lane0, c.leadA d)], a.2 % 16 = 0 := fun a hm => List.mem_singleton.1 hm ▸ hd
  constructor
  · refine queues_of_run (reason := none) h (exec_cpG2t t d o s) hr ?_ (hold_one h t _)
    rw [cpG2tRun, copyIssue_one hrole ha ht, copyBar_ok hb, copyAlign_ok c _ hal, tile_eq ht, leadA_eq]
    rfl
  · refine queues_of_run (reason := some 4) h (exec_cpT2g d t o s) hr ?_ (hold_one h t _)
    rw [cpT2gRun, copyIssue_one hrole ha ht, copyBar_ok hb, copyAlign_ok c _ hal, tile_eq ht, leadA_eq]
    rfl
theorem fillTile_queues {t v : Nat} {x : Tile} (ht : CopyTile c t x) :
    QueuesO (.cpFillTile t v o) s c (.fillTile t ((lead c).getK v)) (x.size * 128) o (tileOf t s.m.nextId) := by
  obtain ⟨-, -, hrole, ha, -⟩ := id hr
  refine queues_of_run (reason := none) h (exec_cpFillTile t v o s) hr ?_ (hold_one h t _)
  rw [cpFillTileRun, copyIssue_one hrole ha ht, copyBar_ok hb, tile_eq ht, leadK_eq]
  rfl
theorem memoryCopies_queue {d r v n : Nat} (hd : aOf c d % 16 = 0) (hn : kOf c n % 2 ^ 32 % 16 = 0) :
    (aOf c r % 16 = 0 →
      QueuesO (.cpG2g d r n o) s c (.g2g ((lead c).getA d) ((lead c).getA r) (kOf c n % 2 ^ 32)) (kOf c n % 2 ^ 32) o id) ∧
    QueuesO (.cpFill d v n o) s c (.fill ((lead c).getA d) ((lead c).getK v) (kOf c n % 2 ^ 32)) (kOf c n % 2 ^ 32) o id := by
  obtain ⟨-, -, hrole, ha, -⟩ := id hr
  constructor
  · intro hsrc
    have hal : ∀ a ∈ [(c.lane0, c.leadA r), (c.lane0, c.leadA d), (c.lane0, c.leadK n % 4294967296)], a.2 % 16 = 0 :=
      List.forall_mem_cons.2 ⟨hsrc, List.forall_mem_cons.2 ⟨hd, List.forall_mem_singleton.2 hn⟩⟩
    refine queues_of_run (reason := some 4) h (exec_cpG2g d r n o s) hr ?_ (hold_none h _)
    rw [cpG2gRun, copyIssue_none hrole ha, copyBar_ok hb]
    dsimp only
    rw [copyAlign_ok c _ hal, leadA_eq, leadA_eq]
    rfl
  · have hal : ∀ a ∈ [(c.lane0, c.leadA d), (c.lane0, c.leadK n % 4294967296)], a.2 % 16 = 0 :=
      List.forall_mem_cons.2 ⟨hd, List.forall_mem_singleton.2 hn⟩
    refine queues_of_run (reason := some 4) h (exec_cpFill d v n o s) hr ?_ (hold_none h _)
    rw [cpFillRun, copyIssue_none hrole ha, copyBar_ok hb]
    dsimp only
    rw [copyAlign_ok c _ hal, leadA_eq, leadK_eq]
    rfl
theorem elementCopies_queue {t d v e k scale : Nat} {x : Tile} (ht : CopyTile c t x) {at_ : Nat → Addr}
    (hat : at_ = fun j => (lead c).getA d + BitVec.ofInt 80 (((c.wg.thread j).getV v).toInt * (2 ^ scale : Nat)))
    (hal : ∀ j ∈ c.act, (at_ j).toNat % min (4 * 2 ^ e) 16 = 0) (hk : kOf c k % 4 = 0) (hfit : kOf c k + c.act.length * (4 * 2 ^ e) ≤ x.size * 128) :
    QueuesO (.cpGather e t d v scale k o) s c (.gather t (c.act.map at_) (kOf c k) (4 * 2 ^ e)) (c.act.length * (4 * 2 ^ e)) o (tileOf t s.m.nextId) ∧
      QueuesO (.cpScatter e d v scale t k o) s c (.scatter (c.act.map at_) t (kOf c k) (4 * 2 ^ e)) (c.act.length * (4 * 2 ^ e)) o
        (tileOf t s.m.nextId) := by
  obtain ⟨-, -, hrole, ha, -⟩ := id hr
  have haddrs : c.elemAddrs d v scale = c.act.map (fun j => ((c.wg.thread j).lane, (at_ j).toNat)) := hat ▸ elemAddrs_eq c d v scale
  have hal' : ∀ a ∈ c.elemAddrs d v scale, a.2 % min (4 * 2 ^ e) 16 = 0 := by
    rw [haddrs]
    exact List.forall_mem_map.2 hal
  have hoff : ∀ a ∈ [(c.lane0, c.leadK k)], a.2 % 4 = 0 := List.forall_mem_singleton.2 hk
  have hlist : (c.elemAddrs d v scale).map (fun x => BitVec.ofNat 80 x.2) = c.act.map at_ := by
    rw [haddrs, List.map_map]
    exact List.map_congr_left fun j _ => by rw [Function.comp_apply, BitVec.ofNat_toNat, BitVec.setWidth_eq]
  have hrun (scatter : Bool) : cpElemRun scatter e t d v scale k o s.clk c =
      if scatter then c.queueCopy s.clk (some 4) (.scatter (c.act.map at_) t (kOf c k) (4 * 2 ^ e)) (c.act.length * (4 * 2 ^ e))
          (o.bar.map (fun r => kOf c r % 2 ^ 32)) o [t] o.tag false
        else c.queueCopy s.clk none (.gather t (c.act.map at_) (kOf c k) (4 * 2 ^ e)) (c.act.length * (4 * 2 ^ e))
          (o.bar.map (fun r => kOf c r % 2 ^ 32)) o [t] o.tag false := by
    rw [cpElemRun, copyIssue_one hrole ha ht, copyBar_ok hb]
    dsimp only
    rw [copyAlign_ok c _ hal', copyAlign_ok c _ hoff, tile_eq ht]
    refine (if_neg (Nat.not_lt.2 hfit)).trans ?_
    rw [hlist]
    rfl
  exact ⟨queues_of_run h (exec_cpGather e t d v scale k o s) hr ((hrun false).trans (if_neg Bool.false_ne_true)) (hold_one h t _),
    queues_of_run h (exec_cpScatter e d v scale t k o s) hr ((hrun true).trans (if_pos rfl)) (hold_one h t _)⟩

omit hr in
/-- A tile copied to workgroups of the launch that exist; the own workgroup's destination tile is held too. -/
theorem tileTargets_queues {d t : Nat} {x : Tile} (ht : CopyTile c t x) {ts : List Nat} (hne : ts ≠ []) (hts : ∀ g ∈ ts, g < groupsOf s c) (here : Bool) :
    (c.wg.g ∉ ts ∨ d = t → ∃ reason, c.tileTargets s.clk d t ts here o =
      c.queueCopy s.clk reason (.t2t d t ts) (x.size * 128) (o.bar.map (fun r => kOf c r % 2 ^ 32)) o [t] o.tag false) ∧
    (∀ y, c.wg.g ∈ ts → d ≠ t → CopyTile c d y → ∃ reason, c.tileTargets s.clk d t ts here o =
      c.queueCopy s.clk reason (.t2t d t ts) (x.size * 128) (o.bar.map (fun r => kOf c r % 2 ^ 32)) o [d, t] o.tag false) := by
  have hgood : (ts.isEmpty || ts.any (fun g => c.groupCount ≤ g)) = false := by
    rw [Bool.or_eq_false_iff]
    refine ⟨Bool.eq_false_iff.2 (mt List.isEmpty_iff.1 hne), List.any_eq_false.2 fun g hg => ?_⟩
    rw [groupCount_eq h, decide_eq_true_eq]
    exact Nat.not_le.2 (hts g hg)
  constructor
  · intro hnot
    have hown : (ts.contains c.wg.g && d != t) = false := by
      rw [Bool.and_eq_false_iff]
      rcases hnot with hnot | rfl
      · exact .inl (Bool.eq_false_iff.2 (mt List.contains_iff_mem.1 hnot))
      · exact .inr (bne_self_eq_false d)
    refine ⟨if ts == [c.wg.g] then none else some 4, ?_⟩
    rw [Ctx.tileTargets]
    simp only [hown, copyBar_ok hb, hgood, tile_eq ht, Bool.false_eq_true, if_false]
    rfl
  · intro y hmem hdt hy
    have hown : (ts.contains c.wg.g && d != t) = true := by rw [List.contains_iff_mem.2 hmem, bne_iff_ne.2 hdt]; rfl
    have hready : ((c.wg.tile d).m || (c.wg.tile d).state == .empty) = false := by
      rw [tile_eq hy, hy.2, hy.1.2.2.2.1]
      rfl
    refine ⟨if ts == [c.wg.g] then none else some 4, ?_⟩
    rw [Ctx.tileTargets]
    simp only [hown, copyBar_ok hb, hgood, hready, tile_eq ht, Bool.false_eq_true, if_false, if_true]
    exact tileReady_ready hy.1 _ _
theorem tileToRegs_queues {t n k : Nat} {x : Tile} (ht : CopyTile c t x) (hbar : o.bar ≠ none) (hwin : c.wg.hdr.win = true) (hg : kOf c n < groupsOf s c)
    (hwarp : kOf c k % 32 < (c.wg.hdr.threads + 31) / 32) (hreg : kOf c k / 256 % 256 + x.size ≤ c.wg.alloc) :
    QueuesO (.cpT2tReg t n k o) s c (.t2tReg t (kOf c n) (kOf c k % 32) (kOf c k / 256 % 256)) (x.size * 128) o (tileOf t s.m.nextId) := by
  obtain ⟨-, -, hrole, ha, -⟩ := id hr
  have hwarp' : field (c.leadK k) 0 5 = kOf c k % 32 := congrArg (· % 2 ^ 5) (Nat.div_one _)
  have hreg' : field (c.leadK k) 8 8 = kOf c k / 256 % 256 := rfl
  have hbarred : (o.bar.isNone || !c.wg.hdr.win) = false := by
    rw [hwin, Bool.or_eq_false_iff]
    exact ⟨Bool.eq_false_iff.2 (mt Option.isNone_iff_eq_none.1 hbar), rfl⟩
  have hgood : ((c.wg.hdr.threads + 31) / 32 ≤ kOf c k % 32 || c.wg.alloc < kOf c k / 256 % 256 + x.size || groupsOf s c ≤ kOf c n : Bool) = false := by
    rw [decide_eq_false (Nat.not_le.2 hwarp), decide_eq_false (Nat.not_lt.2 hreg), decide_eq_false (Nat.not_le.2 hg)]
    rfl
  have hlead : c.leadK n = kOf c n := rfl
  refine queues_of_run (reason := some 4) h (exec_cpT2tReg t n k o s) hr ?_ (hold_one h t _)
  rw [cpT2tRegRun]
  simp only [hrole, ne_eq, not_true_eq_false, if_false, copyTile_ok ht, mt List.isEmpty_iff.1 ha, tileReady_ready ht.1, copyBar_ok hb, hbarred, hwarp', hreg',
    tile_eq ht, groupCount_eq h, hlead, hgood, Bool.false_eq_true]
  rfl
end

section
variable {s : State} {c : Ctx} (h : Issues s c) (hrole : c.role = 0) (ha : c.act ≠ [])
include h hrole ha

/-- A stamp whose address passes Check comes to the queue. -/
theorem cpStampRun_checked {a v mask : Nat} {sys : Bool} {pa : Nat → Nat} (hreach : Reaches s c .write 8 8 (c.act.take 1) (fun _ => aOf c a) pa)
    (hpage : s.m.stampPage c.vf (aOf c a) = false) :
    cpStampRun a v mask sys s.clk c = c.queueCopy s.clk (some 4) (.stamp ((lead c).getA a) ((lead c).getK v) mask sys) 0 none
      { bar := none, tag := 0, bd := none } [] 8 (c.wg.failTags &&& mask != 0) := by
  obtain ⟨halign, hfit, ⟨p, hp, htr⟩, -⟩ := hreach _ (take_one_eq ha ▸ List.mem_singleton_self _)
  have hparts : s.m.partsOf c.core c.vf [.write] [{ thread := c.act.headD 0, lane := c.lane0, va := aOf c a, n := 8 }] =
      ([⟨c.act.headD 0, c.lane0, aOf c a, 8, .ok (pa (c.act.headD 0)) 0⟩], s.m) :=
    Mach.partsOf_cached (tr := fun _ => .ok (pa (c.act.headD 0)) 0) fun x hx => by
      rw [List.mem_singleton.1 hx]
      exact ⟨hfit, Mach.coreTranslate_cached hp htr⟩
  have hcheck : checkParts s.m 8 [{ thread := c.act.headD 0, lane := c.lane0, va := aOf c a, n := 8 }]
      [⟨c.act.headD 0, c.lane0, aOf c a, 8, .ok (pa (c.act.headD 0)) 0⟩] = .ok [⟨c.act.headD 0, c.lane0, aOf c a, 8, .ok (pa (c.act.headD 0)) 0⟩] :=
    checkParts_ok (fun x hx => by rw [List.mem_singleton.1 hx]; exact halign) (fun q hq => by rw [List.mem_singleton.1 hq]; exact ⟨_, _, rfl⟩)
  have hlead : c.leadA a = aOf c a := rfl
  rw [cpStampRun, copyIssue_none hrole ha]
  dsimp only
  rw [leadA_eq, leadK_eq, hlead]
  refine (if_neg ?_).trans ?_
  · rw [Mach.ctx?_m h, hpage]
    exact fun hbad => absurd hbad.2 Bool.false_ne_true
  · simp only [Ctx.checkedStop, Mach.ctx?_m h, hparts, hcheck]
    rw [← Mach.ctx?_m h]
/-- A payload whose tile and signal address pass their checks comes to the queue. -/
theorem lzSendRun_checked {a z k t path : Nat} {x : Tile} (ht : CopyTile c t x) (hal : aOf c a % 8 = 0) (hpage : s.m.stampPage c.vf (aOf c a) = false)
    (any : Bool) : lzSendRun any z k t a path s.clk c = c.queueCopy s.clk (some 2) (.lzSend (kOf c z) (kOf c k % 64) t ((lead c).getA a) path any)
      (x.size * 128) none { bar := none, tag := 0, bd := none } [t] 8 false := by
  have hlead : c.leadA a = aOf c a := rfl
  rw [lzSendRun, copyIssue_one hrole ha ht]
  dsimp only
  rw [leadA_eq, tile_eq ht, hlead]
  refine (if_neg (not_not.2 hal)).trans ((if_neg ?_).trans rfl)
  rw [Mach.ctx?_m h, hpage]
  exact Bool.false_ne_true
theorem lzSendRun_misaligned {a z k t path : Nat} {x : Tile} (ht : CopyTile c t x) (hal : aOf c a % 8 ≠ 0) (any : Bool) :
    lzSendRun any z k t a path s.clk c = c.trapAct s.clk s.m 3 (lead c).lane ((lead c).getA a) := by
  have hlead : c.leadA a = aOf c a := rfl
  rw [lzSendRun, copyIssue_one hrole ha ht]
  dsimp only
  rw [leadA_eq, hlead, Mach.ctx?_m h]
  exact if_pos hal
end

end Sys2Proof.Claims
end

section
open Sys2Proof Sys2Proof.Machine Sys2Proof.Claims

/-- Settles the first part of O27. A tile that a queued command names is the command's from its issue on (log 98). -/
theorem copyCommandsQueue : CopyCommandsQueue := by
  intro t d r n v e k scale o s c h hr hb id'
  obtain ⟨-, -, hrole, ha, -⟩ := id hr
  refine ⟨fun x ht hd => tileCopies_queue h hr hb ht hd, fun x ht => fillTile_queues h hr hb ht, fun hd hn => memoryCopies_queue h hr hb hd hn,
    fun x ht hal hk hfit => elementCopies_queue h hr hb ht rfl hal hk hfit, fun x ht hdt hd hg => ?_, fun x ht hd hne hts => ?_,
    fun x ht hbar hwin hg hwarp hreg => tileToRegs_queues h hr hb ht hbar hwin hg hwarp hreg⟩
  · have hall : ∀ g ∈ [kOf c n], g < groupsOf s c := List.forall_mem_singleton.2 hg
    have hgrant : (c.wg.hdr.tiles ≤ d || d == t : Bool) = false := by rw [decide_eq_false (Nat.not_le.2 hd), beq_eq_false_iff_ne.2 hdt]; rfl
    have hrun : cpT2tRun d t n o s.clk c = c.tileTargets s.clk d t [kOf c n] (kOf c n == c.wg.g) o := by
      rw [cpT2tRun, if_neg (not_not.2 hrole), hgrant, if_neg Bool.false_ne_true, copyIssue_one hrole ha ht]
      rfl
    obtain ⟨hother, hown⟩ := tileTargets_queues h hb ht (d := d) (List.cons_ne_nil _ _) hall (kOf c n == c.wg.g)
    refine ⟨fun hne => ?_, fun y he hy => ?_⟩
    · obtain ⟨reason, hq⟩ := hother (.inl fun hm => hne (List.mem_singleton.1 hm).symm)
      exact queues_of_run h (exec_cpT2t d t n o s) hr (hrun.trans hq) (hold_one h t _)
    · obtain ⟨reason, hq⟩ := hown y (List.mem_singleton.2 he.symm) hdt hy
      rw [← he]
      exact queues_of_run h (exec_cpT2t d t n o s) hr (hrun.trans hq) (hold_two h hdt _)
  · have hrun : cpMcastRun d t n k o s.clk c = c.tileTargets s.clk d t
        ((upFrom 0 16).filterMap (fun i => if (kOf c k).testBit i then some (kOf c n + i) else none)) false o := by
      rw [cpMcastRun, if_neg (not_not.2 hrole), if_neg (Nat.not_le.2 hd), copyIssue_one hrole ha ht]
      rfl
    obtain ⟨hother, hown⟩ := tileTargets_queues h hb ht (d := d) hne hts false
    refine ⟨fun hnot => ?_, fun y hmem hdt hy => ?_⟩
    · obtain ⟨reason, hq⟩ := hother hnot
      exact queues_of_run h (exec_cpMcast d t n k o s) hr (hrun.trans hq) (hold_one h t _)
    · obtain ⟨reason, hq⟩ := hown y hmem hdt hy
      exact queues_of_run h (exec_cpMcast d t n k o s) hr (hrun.trans hq) (hold_two h hdt _)

/-- Settles the second part of O27. An instruction that finds 32 commands queued leaves the state as it was, and issues again (log 27). -/
theorem stampsAndSends : StampsAndSends := by
  intro a v mask s c h
  refine ⟨fun hr => ?_, fun hrole ha hfull => ⟨fun pa sys hreach hpage => ?_, fun z k t path x ht hal hpage => ?_⟩⟩
  · obtain ⟨-, -, hrole, ha, -⟩ := id hr
    exact ⟨fun pa sys hreach hpage => queues_of_run h (exec_cpStamp a v mask sys s) hr (cpStampRun_checked h hrole ha hreach hpage) (hold_none h _),
      fun z k t path x ht hal hpage =>
        ⟨queues_of_run h (exec_lzSend z k t a path s) hr (lzSendRun_checked h hrole ha ht hal hpage false) (hold_one h t _),
          queues_of_run h (exec_lzSendAny z k t a path s) hr (lzSendRun_checked h hrole ha ht hal hpage true) (hold_one h t _)⟩,
      fun z k t path x ht hal => exec_withM h (exec_lzSend z k t a path s) (lzSendRun_misaligned h hrole ha ht hal false)⟩
  · exact exec_withM h (exec_cpStamp a v mask sys s) ((cpStampRun_checked h hrole ha hreach hpage).trans (queueCopy_full h hfull ..))
  · exact exec_withM h (exec_lzSend z k t a path s) ((lzSendRun_checked h hrole ha ht hal hpage false).trans (queueCopy_full h hfull ..))

/-- Settles O27. -/
theorem copyQueue : Obligations.CopyQueue := ⟨copyCommandsQueue, stampsAndSends⟩
end

section
/-! SUPPORT. The matrix work queues (R301, R325 to R329, R334, R335): what passes its checks, and what is queued. -/
namespace Sys2Proof.Claims
open Sys2Proof.Machine

/-! ## The checks (R325) -/

theorem matRole_ok {c : Ctx} (hr : MatReady c) (clk : Clock) (k : Mach) : c.matRole clk k = k := if_neg (not_not.2 hr.1)
theorem matTile_ok {c : Ctx} {t : Nat} {x : Tile} (ht : CopyTile c t x) (clk : Clock) (k : Tile → Mach) : c.matTile clk t k = k x := by
  rw [Ctx.matTile, tileHandle_ready ht.1]
  exact if_neg (by rw [ht.2]; exact Bool.false_ne_true)
theorem withMac_ok {c : Ctx} {h mac : Nat} (hm : MacIs c h mac) (clk : Clock) (k : Nat → Mach) : c.withMac clk h k = k mac := by
  rw [Ctx.withMac, show c.wg.macs.find? (fun e => e.1 == h) = some (h, mac) from hm]
theorem withSlot_ok {s : State} {c : Ctx} (h : Issues s c) {n plane : Nat} {f : Fmt} (hs : SlotIs s c n plane f) (clk : Clock) (k : Nat → Fmt → Mach) :
    c.withSlot clk n k = k plane f := by
  obtain ⟨hf, hholds, rfl⟩ := hs
  rw [Ctx.withSlot, Mach.ctx?_m h, hf]
  exact if_pos hholds
theorem withAcc_ok {c : Ctx} {acc : Nat} (ha : AccIs c acc) (clk : Clock) (k : Mach) : c.withAcc clk acc k = k := if_neg (Nat.not_le.2 ha.1)
theorem accTrapped_ok {c : Ctx} {acc : Nat} (ha : AccIs c acc) (clk : Clock) (k : Mach) : c.accTrapped clk acc k = k := by
  have hnone : c.wg.accTrap.find? (fun e => e.1 == acc) = none := List.find?_eq_none.2 fun e he => by simpa using ha.2 e he
  rw [Ctx.accTrapped, hnone]
theorem not_tiles_le {c : Ctx} {t : Nat} {x : Tile} (ht : CopyTile c t x) : ¬c.wg.hdr.tiles ≤ t := Nat.not_le.2 ht.1.2.1

/-! ## The queue -/

/-- The machine with one more piece of work at the end of a core's matrix queue. -/
def matQueued (m : Mach) (core slot mac : Nat) (work : MatWork) : Mach :=
  ({ m with nextId := m.nextId + 1, seq := m.seq + 1 } : Mach).modMats core (· ++ [{ id := m.nextId, seq := m.seq + 1, slot, mac, work }])
theorem queueMat_eq (c : Ctx) (m : Mach) (mac : Nat) (work : MatWork) : c.queueMat m mac work = matQueued m c.core c.slot mac work := rfl
theorem matQueued_mats (m : Mach) (core slot mac : Nat) (work : MatWork) : ((matQueued m core slot mac work).core core).mats =
    (m.core core).mats ++ [{ id := m.nextId, seq := m.seq + 1, slot, mac, work }] := (congrArg Core.mats (Mach.setCore_core ..)).trans rfl
theorem matQueued_other {k core : Nat} (hk : k ≠ core) (m : Mach) (slot mac : Nat) (work : MatWork) :
    (matQueued m core slot mac work).core k = m.core k := (Mach.setCore_core_other _ _ hk).trans rfl
theorem matQueued_scratch (m : Mach) (core slot mac : Nat) (work : MatWork) : ((matQueued m core slot mac work).core core).scratch = (m.core core).scratch :=
  (congrArg Core.scratch (Mach.setCore_core ..)).trans rfl

section
variable {s : State} {c : Ctx} (h : Issues s c)
include h

/-- An instruction that goes on with one more piece of work, its workgroup's tiles changed as `v`, queues it. -/
theorem queuesMat_of_run {i : Instr} {f : Clock → Ctx → Mach} (he : exec i s = s.group f) {mac : Nat} {work : MatWork} {v : Wg} {w : Wg → Wg}
    (hf : f s.clk c = c.retire (c.queueMat (s.m.setWg c.core c.slot v) mac work)) (hw : v.modThreads c.ig.threads (·.advance c.len) = w (each c id)) :
    QueuesMat i s c mac work w := by
  rw [queueMat_eq] at hf
  have hwg : (matQueued (s.m.setWg c.core c.slot v) c.core c.slot mac work).wg? c.core c.slot = some v :=
    show (s.m.setWg c.core c.slot v).wg? c.core c.slot = some v from Mach.setWg_wg? ..
  have hwgs : (c.retire (matQueued (s.m.setWg c.core c.slot v) c.core c.slot mac work)).wgs = (put s c (w (each c id))).m.wgs := by
    rw [Ctx.retire_eq hwg, hw]
    exact (congrArg Mach.wgs (Mach.setWg_setWg s.m c.core c.slot v (w (each c id))) :)
  exact ⟨_, exec_withM h he hf, rfl, (Ctx.retire_mem ..).trans rfl, (Ctx.retire_fns ..).trans rfl, hwgs,
    fun k hk => (retire_core ..).trans (matQueued_other hk ..), (congrArg Core.scratch (retire_core ..)).trans (matQueued_scratch ..),
    (congrArg Core.mats (retire_core ..)).trans (matQueued_mats ..)⟩
/-- It queues it and changes no tile. -/
theorem queuesMat_of_run_self {i : Instr} {f : Clock → Ctx → Mach} (he : exec i s = s.group f) {mac : Nat} {work : MatWork}
    (hf : f s.clk c = c.retire (c.queueMat c.m mac work)) : QueuesMat i s c mac work id := by
  refine queuesMat_of_run (v := c.wg) h he (hf.trans ?_) (modThreads_each h)
  rw [Mach.ctx?_m h, setWg_self (Mach.ctx?_wg h)]

/-- A tile that changes state as the group goes on. -/
theorem tileTo_each (t : Nat) (st : TileState) (id' : Nat) :
    ({ c.wg with tiles := setAt c.wg.tiles t { (c.wg.tiles.getD t {}) with state := st, job := some (.command id') } } : Wg).modThreads c.ig.threads (·.advance c.len) =
      tileTo t st id' (each c id) := by
  rw [← modThreads_each h]
  rfl
end

/-! ## Quarters (R300, R301) -/

theorem eraseDups_const {α β : Type} [BEq β] [LawfulBEq β] {b : β} {g : α → β} : ∀ {xs : List α}, xs ≠ [] → (∀ x ∈ xs, g x = b) → (xs.map g).eraseDups = [b]
  | x :: xs, _, hb => by
    have hrest : (xs.map g).filter (fun y => !y == b) = [] := List.filter_eq_nil_iff.2 fun y hy => by
      obtain ⟨z, hz, rfl⟩ := List.mem_map.1 hy
      rw [hb z (List.mem_cons_of_mem x hz), beq_self_eq_true]
      exact Bool.false_ne_true
    rw [List.map_cons, List.eraseDups_cons, hb x List.mem_cons_self, hrest]
    rfl
theorem one_of_four {α : Type} {q : Nat} (hq : q < 4) {g : Nat → List α} (hother : ∀ p, p ≠ q → g p = []) (hne : (g q).isEmpty = false) :
    ((upFrom 0 4).map g).filter (fun x => !x.isEmpty) = [g q] := by
  have hlist : (upFrom 0 4).map g = [g 0, g 1, g 2, g 3] := rfl
  rw [hlist]
  match q, hq with
  | 0, _ | 1, _ | 2, _ | 3, _ => simp [hother, hne]
/-- The rows of the active threads, by lane. -/
def quarterRows (c : Ctx) (f : Fmt) (v vs sel : Nat) : List ARow := (sortBy (fun j => (c.wg.thread j).lane) c.act).map (fun j => rowOf f v vs sel (c.wg.thread j))
theorem quarters_one {c : Ctx} (ha : c.act ≠ []) (hone : OneQuarter c) (f : Fmt) (v vs sel : Nat) : c.quarters f v vs sel = [quarterRows c f v vs sel] := by
  obtain ⟨w, q, hq, hw⟩ := hone
  have hwarps : (c.act.map (fun i => (c.wg.thread i).warp)).eraseDups = [w] := eraseDups_const ha fun j hj => (hw j hj).1
  have hmine : c.act.filter (fun i => (c.wg.thread i).warp == w && (c.wg.thread i).lane / 8 == q) = c.act := List.filter_eq_self.2 fun j hj => by
    obtain ⟨h1, h2⟩ := hw j hj
    rw [h1, h2, beq_self_eq_true, beq_self_eq_true]
    rfl
  have hother {p : Nat} (hp : p ≠ q) : c.act.filter (fun i => (c.wg.thread i).warp == w && (c.wg.thread i).lane / 8 == p) = [] :=
    List.filter_eq_nil_iff.2 fun j hj => by
      rw [(hw j hj).2, beq_eq_false_iff_ne.2 (Ne.symm hp), Bool.and_false]
      exact Bool.false_ne_true
  have hrows : (quarterRows c f v vs sel).isEmpty = false := by
    rw [quarterRows, List.isEmpty_map]
    exact Bool.eq_false_iff.2 fun he => ha (List.eq_nil_of_length_eq_zero (by rw [← (sortBy_perm _ _).length_eq, List.isEmpty_iff.1 he]; rfl))
  unfold Ctx.quarters
  rw [hwarps]
  refine (one_of_four hq (g := fun p => (sortBy (fun i => (c.wg.thread i).lane) (c.act.filter (fun i => (c.wg.thread i).warp == w && (c.wg.thread i).lane / 8 == p))).map
    (fun i => (c.wg.thread i).aRow f v vs sel)) ?_ ?_).trans ?_
  · intro p hp
    rw [hother hp]
    rfl
  · rw [hmine]
    exact hrows
  · rw [hmine]
    rfl

section
variable {s : State} {c : Ctx} {acc h' slot v vs sel mac plane : Nat} {ov : Bool} {f : Fmt} (h : Issues s c) (hr : MatReady c) (hacc : AccIs c acc)
  (hmac : MacIs c h' mac) (hslot : SlotIs s c slot plane f) (hB : (s.m.core c.core).willHoldB mac = true)
include h hr hacc hmac hslot hB

/-- One quarter operation that passes its checks goes to the queue of its macro. -/
theorem mmaQRun_emits (hspan : v + f.rowBytes / 4 ≤ c.wg.alloc) (hscale : f.kind = 1 → vs + (sel + 1) / 4 < c.wg.alloc) (hone : OneQuarter c) {m : Mach}
    (hm : c.emit mac acc ov slot plane f ((s.m.core c.core).nextBver mac) s.m (quarterRows c f v vs sel) = m) (hroom : (m.core c.core).passes mac ≤ 8) :
    mmaQRun acc h' slot v vs sel ov s.clk c = c.retire m := by
  have hall : c.emitAll mac acc ov slot f v vs sel = m := by
    rw [Ctx.emitAll, quarters_one hr.2 hone, Mach.ctx?_m h, ← hslot.2.2]
    exact hm
  have hbad : (c.wg.alloc < v + f.rowBytes / 4 || (f.kind == 1 && decide (c.wg.alloc ≤ vs + (sel + 1) / 4)) : Bool) = false := by
    rw [decide_eq_false (Nat.not_lt.2 hspan), Bool.false_or, Bool.and_eq_false_iff]
    by_cases hk : f.kind = 1
    · exact .inr (decide_eq_false (Nat.not_le.2 (hscale hk)))
    · exact .inl (beq_eq_false_iff_ne.2 hk)
  have hheld : (!(c.m.core c.core).willHoldB mac) = false := by rw [Mach.ctx?_m h, hB]; rfl
  rw [mmaQRun, matRole_ok hr, withAcc_ok hacc, withMac_ok hmac, withSlot_ok h hslot, hheld, if_neg Bool.false_ne_true, hbad, if_neg Bool.false_ne_true,
    if_neg (mt List.isEmpty_iff.1 hr.2), accTrapped_ok hacc, hall]
  exact if_neg (Nat.not_lt.2 hroom)
end

theorem modCore_passes (m : Mach) (core : Nat) (g : Core → Core) (mac : Nat) : ((m.modCore core g).core core).passes mac = (g (m.core core)).passes mac :=
  congrArg (Core.passes · mac) (Mach.setCore_core ..)
theorem passes_append (its : List MatItem) (i : MatItem) (mac : Nat) {k k' : Core} (hk : k.mats = its) (hk' : k'.mats = its ++ [i]) :
    k'.passes mac ≤ k.passes mac + 1 := by
  rw [Core.passes, Core.passes, hk, hk', List.filter_append, List.length_append]
  exact Nat.add_le_add_left (List.length_filter_le _ [i]) _
/-- A macro with no pass queued: the quarter forms one. -/
theorem emit_forms {m : Mach} {c : Ctx} {mac : Nat} (hnone : (m.core c.core).passes mac = 0) (acc : Nat) (ov : Bool) (fs plane : Nat) (f : Fmt) (bver : Nat)
    (rows : List ARow) : c.emit mac acc ov fs plane f bver m rows = matQueued m c.core c.slot mac (.pass acc ov fs plane f bver rows none) := by
  have hlast : ((m.core c.core).mats.filter (fun i => i.isPass && i.mac == mac)).getLast? = none := by
    rw [List.eq_nil_of_length_eq_zero hnone]
    rfl
  rw [Ctx.emit, hlast]
  rfl
/-- The item with more rows. -/
def joined (i : MatItem) (acc : Nat) (ov : Bool) (fs plane : Nat) (f : Fmt) (bver : Nat) (rs : List ARow) : MatItem :=
  { i with work := .pass acc ov fs plane f bver rs none }
/-- A quarter joins the youngest pass of its macro (R301). -/
theorem emit_joins {m : Mach} {c : Ctx} {mac acc fs plane bver : Nat} {ov : Bool} {f : Fmt} {rows rs : List ARow} {i : MatItem} {its : List MatItem}
    (hmats : (m.core c.core).mats = its ++ [i]) (hmac : i.mac = mac) (hwork : i.work = .pass acc ov fs plane f bver rs none) (hslot : i.slot = c.slot)
    (hnew : i.started = false) (hids : ∀ j ∈ its, j.id ≠ i.id ∧ j.seq ≤ i.seq) (hdrains : ∀ d ∈ (m.core c.core).drains, d.seq ≤ i.seq)
    (hrows : ∀ r ∈ rows, ∀ q ∈ rs, r.row ≠ q.row) (hfit : rs.length + rows.length ≤ 32) :
    c.emit mac acc ov fs plane f bver m rows = m.modCore c.core (fun k => { k with mats := its ++ [joined i acc ov fs plane f bver (rs ++ rows)] }) := by
  have hpass : (i.isPass && i.mac == mac) = true := by rw [MatItem.isPass, hwork, hmac, beq_self_eq_true]; rfl
  have hlast : ((m.core c.core).mats.filter (fun i => i.isPass && i.mac == mac)).getLast? = some i := by
    rw [hmats, List.filter_append, List.filter_cons_of_pos (p := fun i : MatItem => i.isPass && i.mac == mac) hpass, List.filter_nil, List.getLast?_concat]
  have hfresh : (rows.any (fun r => rs.any (fun x => x.row == r.row))) = false := List.any_eq_false.2 fun r hr => by
    rw [List.any_eq_true]
    rintro ⟨q, hq, he⟩
    exact hrows r hr q hq (eq_of_beq he).symm
  have hwrites : ((m.core c.core).mats.any (fun j => j.slot == c.slot && j.acc? == some acc && !j.isPass && decide (i.seq < j.seq))) = false := by
    rw [hmats]
    refine List.any_eq_false.2 fun j hj => ?_
    have hle : j.seq ≤ i.seq := by
      rcases List.mem_append.1 hj with hj | hj
      · exact (hids j hj).2
      · rw [List.mem_singleton.1 hj]
    rw [decide_eq_false (Nat.not_lt.2 hle), Bool.and_false]
    exact Bool.false_ne_true
  have hnodrain : ((m.core c.core).drains.any (fun d => d.slot == c.slot && d.acc == acc && decide (i.seq < d.seq))) = false :=
    List.any_eq_false.2 fun d hd => by
      rw [decide_eq_false (Nat.not_lt.2 (hdrains d hd)), Bool.and_false]
      exact Bool.false_ne_true
  have hjoin : (m.core c.core).joinable i c.slot mac acc ov fs plane bver rows = true := by
    rw [Core.joinable, hwork]
    simp only [hnew, hslot, hmac, hfresh, hwrites, hnodrain, decide_eq_true hfit, beq_self_eq_true, Bool.not_false, Bool.and_self]
  rw [Ctx.emit, hlast]
  dsimp only
  rw [if_pos hjoin]
  refine modCore_congr ?_
  refine congrArg (fun ms => { m.core c.core with mats := ms }) ?_
  dsimp only
  rw [hmats, List.map_append, List.map_singleton, if_pos rfl, hwork]
  refine congrArg (· ++ [joined i acc ov fs plane f bver (rs ++ rows)]) ?_
  refine (List.map_congr_left fun j hj => ?_).trans (List.map_id its)
  exact if_neg (hids j hj).1

/-! ## Tiles, drains and program stores -/

section
variable {s : State} {c : Ctx} {t : Nat} {x : Tile} (h : Issues s c) (ht : CopyTile c t x)
include h ht

theorem setTile_to (st : TileState) (id' : Nat) : c.m.setTile c.core c.slot t { x with state := st, job := some (.command id') } =
    s.m.setWg c.core c.slot (tileTo t st id' c.wg) := by
  rw [Mach.ctx?_m h, Mach.setTile_eq (Mach.ctx?_wg h), ← tile_eq ht]
  rfl
theorem mmaTRun_checked {acc h' slot mac plane : Nat} {ov : Bool} {f : Fmt} (hr : MatReady c) (hacc : AccIs c acc) (hmac : MacIs c h' mac)
    (hslot : SlotIs s c slot plane f) (hB : (s.m.core c.core).willHoldB mac = true) (hfit : f.tileBytes 32 ≤ x.size * 128) :
    mmaTRun acc h' slot t ov s.clk c = if 8 ≤ (s.m.core c.core).passes mac then s.m
      else c.retire (c.queueMat (s.m.setWg c.core c.slot (tileTo t .draining s.m.nextId c.wg)) mac (.pass acc ov slot plane f ((s.m.core c.core).nextBver mac)
        ((upFrom 0 32).map (fun r => let y := f.tileRow (s.m.scratchRead c.core c.slot (x.base * 128) (f.tileBytes 32)) 32 r; ARow.mk r y.1 y.2)) (some t))) := by
  have hbytes : ¬x.bytes < f.tileBytes 32 := Nat.not_lt.2 hfit
  have hheld : (!(c.m.core c.core).willHoldB mac) = false := by rw [Mach.ctx?_m h, hB]; rfl
  rw [mmaTRun, matRole_ok hr, withAcc_ok hacc, withMac_ok hmac, if_neg (not_tiles_le ht), withSlot_ok h hslot, matTile_ok ht, if_neg hbytes, hheld,
    if_neg Bool.false_ne_true, if_neg (mt List.isEmpty_iff.1 hr.2), accTrapped_ok hacc, tileReady_ready ht.1]
  dsimp only
  rw [setTile_to h ht, Mach.ctx?_m h]
  rfl
theorem mbLoadRun_checked {h' slot mac plane : Nat} {f : Fmt} (hr : MatReady c) (hmac : MacIs c h' mac) (hslot : SlotIs s c slot plane f)
    (hfit : f.tileBytes 64 ≤ x.size * 128) : mbLoadRunI h' t slot s.clk c = c.retire (c.queueMat c.m mac (.load t slot plane f)) := by
  have hbytes : ¬x.bytes < f.tileBytes 64 := Nat.not_lt.2 hfit
  rw [mbLoadRunI, matRole_ok hr, withMac_ok hmac, if_neg (not_tiles_le ht), withSlot_ok h hslot, matTile_ok ht, if_neg hbytes,
    if_neg (mt List.isEmpty_iff.1 hr.2), tileReady_ready ht.1]
end

/-- The drain that `acc.drain` queues. -/
def drainOf (s : State) (c : Ctx) (t acc ps : Nat) (tv : Option Nat) (kr : Nat) (z : Bool) : Drain :=
  { id := s.m.nextId, seq := s.m.seq + 1, slot := c.slot, acc, ps, words := (s.m.core c.core).store ps, td := t, tv, stride := kOf c kr % 65536, z,
    fmts := c.bindPlanes (epiWords ((s.m.core c.core).store ps)), bds := c.bindBounds (epiWords ((s.m.core c.core).store ps)),
    seed := (rndSeed c.wg.hdr.seed (BitVec.ofNat 64 c.leaderT.wid) >>> 32).truncate 32 }
/-- The machine with one more drain at the end of a core's queue. -/
def drainQueued (m : Mach) (core : Nat) (d : Drain) : Mach :=
  ({ m with nextId := m.nextId + 1, seq := m.seq + 1 } : Mach).modCore core (fun k => { k with drains := k.drains ++ [d] })
theorem drainQueued_drains (m : Mach) (core : Nat) (d : Drain) : ((drainQueued m core d).core core).drains = (m.core core).drains ++ [d] :=
  (congrArg Core.drains (Mach.setCore_core ..)).trans rfl
/-- The tiles that a drain names, its vector tile's turn first. -/
def drainTiles (t : Nat) (tv : Option Nat) (id' : Nat) (w : Wg) : Wg :=
  tileTo t .filling id' ((match tv with | some u => tileTo u .draining id' | none => id) w)

section
variable {s : State} {c : Ctx} {t acc ps kr : Nat} {z : Bool} {x : Tile} (h : Issues s c) (hr : MatReady c) (hacc : AccIs c acc) (ht : CopyTile c t x)
  (hstride : kOf c kr % 65536 % 4 = 0) (hepi : ∀ e ∈ (s.m.core c.core).epis, e.slot = c.slot → e.ps ≠ ps)
include h hr hacc ht hstride hepi

theorem accDrainRun_checked {tv : Option Nat} (htv : tv = none ∨ ∃ u y, tv = some u ∧ u ≠ t ∧ CopyTile c u y) :
    accDrainRun t acc ps tv kr z s.clk c = c.retire ((drainQueued s.m c.core (drainOf s c t acc ps tv kr z)).setWg c.core c.slot (drainTiles t tv s.m.nextId c.wg)) := by
  have hnone : ((s.m.core c.core).epis.any (fun e => e.slot == c.slot && e.ps == ps)) = false := List.any_eq_false.2 fun e he hb => by
    rw [Bool.and_eq_true, beq_iff_eq, beq_iff_eq] at hb
    exact hepi e he hb.1 hb.2
  have hact : ¬c.act.isEmpty = true := mt List.isEmpty_iff.1 hr.2
  have hlead : c.leadK kr = kOf c kr := rfl
  have hwg (m : Mach) (v : Wg) (d : Drain) (hm : m.wg? c.core c.slot = some v) : (drainQueued m c.core d).wg? c.core c.slot = some v := hm
  rw [accDrainRun, matRole_ok hr, withAcc_ok hacc, matTile_ok ht]
  rcases htv with rfl | ⟨u, y, rfl, hne, hu⟩
  · dsimp only
    rw [if_neg (Option.some_ne_none t).symm, if_neg hact, hlead, if_neg (not_not.2 hstride), accTrapped_ok hacc, tileReady_ready ht.1, Mach.ctx?_m h, hnone,
      if_neg Bool.false_ne_true]
    refine congrArg c.retire ((Mach.setTile_eq (hwg s.m c.wg (drainOf s c t acc ps none kr z) (Mach.ctx?_wg h)) ..).trans ?_)
    rw [drainTiles, ← tile_eq ht]
    rfl
  · dsimp only
    rw [matTile_ok hu, if_neg fun he => hne (Option.some.inj he), if_neg hact, hlead, if_neg (not_not.2 hstride), accTrapped_ok hacc, tileReady_ready ht.1,
      tileReady_ready hu.1, Mach.ctx?_m h, hnone, if_neg Bool.false_ne_true]
    have hvec : s.m.setTile c.core c.slot u { y with state := .draining, job := some (.command s.m.nextId) } =
        s.m.setWg c.core c.slot (tileTo u .draining s.m.nextId c.wg) := by
      rw [← setTile_to h hu, Mach.ctx?_m h]
    rw [hvec]
    refine congrArg c.retire ((Mach.setTile_eq (hwg (s.m.setWg c.core c.slot (tileTo u .draining s.m.nextId c.wg)) _
      (drainOf s c t acc ps (some u) kr z) (Mach.setWg_wg? ..)) ..).trans ?_)
    refine (Mach.setWg_setWg (drainQueued s.m c.core (drainOf s c t acc ps (some u) kr z)) c.core c.slot (tileTo u .draining s.m.nextId c.wg) _).trans ?_
    refine congrArg ((drainQueued s.m c.core (drainOf s c t acc ps (some u) kr z)).setWg c.core c.slot) ?_
    have hsame : (setAt c.wg.tiles u { (c.wg.tiles.getD u {}) with state := .draining, job := some (.command s.m.nextId) }).getD t {} = x :=
      (getD_setAt_other hne).trans (tile_eq ht)
    rw [drainTiles, tileTo, tileTo]
    dsimp only
    rw [hsame]
    rfl
omit hr hacc ht hstride hepi in
theorem drainTiles_each (tv : Option Nat) (id' : Nat) :
    (drainTiles t tv id' c.wg).modThreads c.ig.threads (·.advance c.len) = drainTiles t tv id' (each c id) := by
  rw [← modThreads_each h]
  cases tv <;> rfl
end

/-- The machine with one more load of a program store in a core's queue. -/
def epiQueued (m : Mach) (core : Nat) (e : EpiLoad) : Mach :=
  ({ m with nextId := m.nextId + 1, seq := m.seq + 1 } : Mach).modCore core (fun k => { k with epis := k.epis ++ [e] })
theorem epiQueued_epis (m : Mach) (core : Nat) (e : EpiLoad) : ((epiQueued m core e).core core).epis = (m.core core).epis ++ [e] :=
  (congrArg Core.epis (Mach.setCore_core ..)).trans rfl
theorem epiQueued_poison (m : Mach) (core slot off n : Nat) (e : EpiLoad) : (epiQueued m core e).scratchPoison core slot off n = m.scratchPoison core slot off n := by
  have hp : ((epiQueued m core e).core core).poison = (m.core core).poison := (congrArg Core.poison (Mach.setCore_core ..)).trans rfl
  have hw : (epiQueued m core e).wg? core slot = m.wg? core slot := rfl
  rw [Mach.scratchPoison, Mach.scratchPoison, hp, hw]
theorem tilePoison_none {m : Mach} {core slot t : Nat} {w : Wg} (hw : m.wg? core slot = some w)
    (hp : m.scratchPoison core slot (w.tile t).off (w.tile t).bytes = none) : m.tilePoison core slot t = m := by
  rw [Mach.tilePoison, Mach.modWg_eq _ _ hw]
  dsimp only
  rw [hp]
  exact setWg_self hw
theorem epiLoadRun_checked {s : State} {c : Ctx} {t ps : Nat} {x : Tile} (h : Issues s c) (hr : MatReady c) (ht : CopyTile c t x)
    (hfit : 256 ≤ x.size * 128) (hclean : s.m.scratchPoison c.core c.slot (x.base * 128) (x.size * 128) = none) :
    epiLoadRun ps t s.clk c = c.retire (epiQueued s.m c.core
      { id := s.m.nextId, seq := s.m.seq + 1, slot := c.slot, ps, tile := some t,
        words := (upFrom 0 64).map (fun i => BitVec.ofNat 32 (leNat (s.m.scratchRead c.core c.slot (x.base * 128 + 4 * i) 4))) }) := by
  have hbytes : ¬x.bytes < 256 := Nat.not_lt.2 hfit
  have hwords : (upFrom 0 64).map (fun i => BitVec.ofNat 32 (leNat (((s.m.scratchRead c.core c.slot x.off 256).drop (4 * i)).take 4))) =
      (upFrom 0 64).map (fun i => BitVec.ofNat 32 (leNat (s.m.scratchRead c.core c.slot (x.base * 128 + 4 * i) 4))) :=
    List.map_congr_left fun i hi => by
      have hlt : i < 64 := by have := mem_upFrom.1 hi; omega
      rw [scratchRead_part (Mach.ctx?_wg h) (by omega)]
      rfl
  rw [epiLoadRun, matRole_ok hr, matTile_ok ht, if_neg hbytes, if_neg (mt List.isEmpty_iff.1 hr.2), tileReady_ready ht.1]
  dsimp only
  rw [Mach.ctx?_m h, hwords]
  refine congrArg c.retire (tilePoison_none (m := epiQueued ..) (show s.m.wg? c.core c.slot = some c.wg from Mach.ctx?_wg h) ?_)
  rw [epiQueued_poison, tile_eq ht]
  exact hclean

theorem exec_mbLoad (h t slot : Nat) (s : State) : exec (.mbLoad h t slot) s = s.group (mbLoadRunI h t slot) := rfl
theorem exec_mbFree (h : Nat) (s : State) : exec (.mbFree h) s = s.group (mbFreeRunI h) := rfl
theorem exec_mmaT (acc h slot t : Nat) (ov : Bool) (s : State) : exec (.mmaT acc h slot t ov) s = s.group (mmaTRun acc h slot t ov) := rfl
theorem exec_mmaQ (acc h slot v vs sel : Nat) (ov : Bool) (s : State) : exec (.mmaQ acc h slot v vs sel ov) s = s.group (mmaQRun acc h slot v vs sel ov) := rfl
theorem exec_accDrain (t acc ps : Nat) (tv : Option Nat) (kr : Nat) (z : Bool) (s : State) :
    exec (.accDrain t acc ps tv kr z) s = s.group (accDrainRun t acc ps tv kr z) := rfl
theorem exec_epiLoad (ps t : Nat) (s : State) : exec (.epiLoad ps t) s = s.group (epiLoadRun ps t) := rfl

end Sys2Proof.Claims
end

section
open Sys2Proof Sys2Proof.Machine Sys2Proof.Claims

/-- Settles O32. Operands of a pass are sampled at issue (log 20); `mma.t` on a macro with eight passes leaves the state as it was and issues again
(log 27); a drain waits for an `epi.load` of its store (log 47). -/
theorem matrixWorkQueues : Obligations.MatrixWorkQueues := by
  intro h' t slot acc v vs sel kr ps ov z s c mac plane f x h hr
  refine ⟨fun hmac hslot ht hfit => queuesMat_of_run_self h (exec_mbLoad h' t slot s) (mbLoadRun_checked h ht hr hmac hslot hfit),
    fun hmac => queuesMat_of_run_self h (exec_mbFree h' s) ?_, fun hacc hmac hslot ht hfit hB hroom => ?_, fun hacc hmac hslot ht hfit hB hfull => ?_,
    fun hacc hmac hslot hB hspan hscale hone => ⟨fun hnone => ?_, ?_⟩, fun hacc ht hstride hepi tv y htv => ?_, fun ht hfit hclean => ?_⟩
  · rw [mbFreeRunI, matRole_ok hr, withMac_ok hmac]
    exact if_neg (mt List.isEmpty_iff.1 hr.2)
  · refine queuesMat_of_run h (exec_mmaT acc h' slot t ov s) ((mmaTRun_checked h ht hr hacc hmac hslot hB hfit).trans (if_neg (Nat.not_le.2 hroom))) ?_
    rw [← modThreads_each h]
    rfl
  · exact exec_withM h (exec_mmaT acc h' slot t ov s) ((mmaTRun_checked h ht hr hacc hmac hslot hB hfit).trans (if_pos hfull))
  · refine queuesMat_of_run_self h (exec_mmaQ acc h' slot v vs sel ov s) ((mmaQRun_emits h hr hacc hmac hslot hB hspan hscale hone
      (emit_forms hnone acc ov slot plane f _ _) ?_).trans (by rw [queueMat_eq, Mach.ctx?_m h]; rfl))
    refine (passes_append _ _ mac rfl (matQueued_mats ..)).trans ?_
    rw [hnone]
    decide
  · intro i its rs hmats hmac' hwork hslot' hnew hids hdrains hrows hfit hpasses
    refine exec_withM h (exec_mmaQ acc h' slot v vs sel ov s) (mmaQRun_emits h hr hacc hmac hslot hB hspan hscale hone
      (emit_joins hmats hmac' hwork hslot' hnew hids hdrains hrows hfit) ?_)
    rw [modCore_passes]
    refine Nat.le_trans (Nat.le_of_eq ?_) hpasses
    rw [Core.passes, Core.passes, hmats, List.filter_append, List.filter_append, List.length_append, List.length_append]
    refine congrArg (_ + ·) ?_
    rw [← List.countP_eq_length_filter, ← List.countP_eq_length_filter, List.countP_singleton, List.countP_singleton]
    have hpass : i.isPass = true := by rw [MatItem.isPass, hwork]
    rw [hpass]
    rfl
  · have htv' : tv = none ∨ ∃ u y, tv = some u ∧ u ≠ t ∧ CopyTile c u y := htv.imp_right fun ⟨u, he, hne, hu⟩ => ⟨u, y, he, hne, hu⟩
    have hrun := accDrainRun_checked (z := z) h hr hacc ht hstride hepi htv'
    refine ⟨_, drainOf s c t acc ps tv kr z, exec_withM h (exec_accDrain t acc ps tv kr z s) hrun, (Ctx.retire_mem ..).trans rfl,
      (congrArg Core.drains (retire_core ..)).trans (drainQueued_drains ..), rfl, rfl, rfl, rfl, rfl, rfl, rfl, rfl, rfl, rfl, rfl, rfl, rfl, rfl, ?_⟩
    have hwg : ((drainQueued s.m c.core (drainOf s c t acc ps tv kr z)).setWg c.core c.slot (drainTiles t tv s.m.nextId c.wg)).wg? c.core c.slot = some _ :=
      Mach.setWg_wg? ..
    refine (congrArg Mach.wgs ((Ctx.retire_eq hwg).trans (Mach.setWg_setWg ..))).trans ?_
    rw [drainTiles_each h]
    rfl
  · refine ⟨_, exec_withM h (exec_epiLoad ps t s) (epiLoadRun_checked h hr ht hfit hclean), Ctx.retire_mem c (epiQueued ..), retire_wgs (m := epiQueued ..) h rfl,
      (congrArg Core.epis (retire_core ..)).trans (epiQueued_epis ..)⟩
end

section
/-! SUPPORT. The matrix unit (R299 to R307, R326 to R329, R332): a macro and its queue change together, and a pass's rows are written. -/
namespace Sys2Proof.Claims
open Sys2Proof.Machine

/-! ## Macros and queues -/

theorem modCore_modCore (m : Mach) (core : Nat) (f g : Core → Core) : (m.modCore core f).modCore core g = m.modCore core (fun c => g (f c)) := by
  simp only [Mach.modCore, Mach.setCore_core, Mach.setCore_setCore]
theorem modCore_core (m : Mach) (core : Nat) (f : Core → Core) : (m.modCore core f).core core = f (m.core core) := Mach.setCore_core ..
theorem setMac_mac (m : Mach) (core p : Nat) (x : Mac) : (m.setMac core p x).mac core p = x := by
  rw [Mach.mac, Mach.setMac, modCore_core, tget_tset_same]
  rfl
theorem modMats_mac (m : Mach) (core p : Nat) (q : List MatItem → List MatItem) : (m.modMats core q).mac core p = m.mac core p := by
  rw [Mach.mac, Mach.modMats, modCore_core]
  rfl
theorem setMac_core (m : Mach) (core p : Nat) (x : Mac) : ((m.setMac core p x).core core).mats = (m.core core).mats ∧
    ((m.setMac core p x).core core).scratch = (m.core core).scratch := by
  rw [Mach.setMac, modCore_core]
  exact ⟨rfl, rfl⟩
theorem modMats_core (m : Mach) (core : Nat) (q : List MatItem → List MatItem) : ((m.modMats core q).core core).mats = q (m.core core).mats ∧
    ((m.modMats core q).core core).scratch = (m.core core).scratch := by
  rw [Mach.modMats, modCore_core]
  exact ⟨rfl, rfl⟩
/-- A macro and its queue change, in either order. -/
theorem modMats_setMac (s : State) (core p : Nat) (q : List MatItem → List MatItem) (x : Mac) : (s.m.modMats core q).setMac core p x = macNow s core p x q :=
  modCore_modCore ..
theorem setMac_modMats (s : State) (core p : Nat) (q : List MatItem → List MatItem) (x : Mac) : (s.m.setMac core p x).modMats core q = macNow s core p x q :=
  modCore_modCore ..
theorem macClear_of {c : Core} {clk : Clock} {p : Nat} (hbusy : ((tget c.macs p).getD {}).busy ≤ clk.cycle)
    (hpass : ∀ j ∈ c.mats, j.isPass = true → j.mac = p → j.started = false) : c.macClear clk p = true := by
  rw [Core.macClear, Core.macFree, decide_eq_true hbusy, Bool.true_and, Bool.not_eq_true']
  refine List.any_eq_false.2 fun j hj hb => ?_
  rw [Bool.and_eq_true, Bool.and_eq_true, beq_iff_eq] at hb
  rw [hpass j hj hb.1.1 hb.1.2] at hb
  exact absurd hb.2 Bool.false_ne_true
theorem tile_notBusy {y : Tile} (hst : y.state = .ready ∨ y.state = .empty) (hjob : ∀ id, y.job ≠ some (.command id)) : y.busy = false := by
  have hfree : (match y.job with | some (.command _) => true | _ => false) = false := by
    split
    · next id hj => exact absurd hj (hjob id)
    · rfl
  unfold Tile.busy
  rcases hst with hst | hst
  all_goals
    rw [hst]
    exact hfree
theorem scratchPoison_clean {m : Mach} {core slot : Nat} (hp : (m.core core).poison = []) (off n : Nat) : m.scratchPoison core slot off n = none := by
  unfold Mach.scratchPoison
  rw [hp]
  cases m.wg? core slot <;> rfl
theorem tilePoison_clean {m : Mach} {core slot : Nat} {w : Wg} (hw : m.wg? core slot = some w) (hp : (m.core core).poison = []) (t : Nat) :
    m.tilePoison core slot t = m := tilePoison_none hw (scratchPoison_clean hp _ _)
/-- A source tile of a command is ready again. -/
theorem drained_own {m : Mach} {core slot id : Nat} {w : Wg} (hw : m.wg? core slot = some w) {t : Nat} (hj : (w.tile t).job = some (.command id)) :
    m.drained core slot id t = m.setWg core slot (w.setTile t { (w.tile t) with state := .ready, job := none }) := by
  rw [Mach.drained, Mach.modWg_eq _ _ hw]
  exact congrArg (m.setWg core slot) (if_pos (by rw [Tile.isOf, hj, beq_self_eq_true]))
theorem drained_other {m : Mach} {core slot id : Nat} {w : Wg} (hw : m.wg? core slot = some w) {t : Nat} (hj : (w.tile t).job ≠ some (.command id)) :
    m.drained core slot id t = m := by
  rw [Mach.drained, Mach.modWg_eq _ _ hw]
  refine (congrArg (m.setWg core slot) (if_neg ?_)).trans (setWg_self hw)
  rw [Tile.isOf, beq_iff_eq]
  exact hj

/-! ## Loads and frees of B -/

theorem exec_mbLoadRun (core p : Nat) (s : State) : exec (.mbLoadRun core p) s = execMbLoadRun core p s := rfl
theorem exec_mbFreeEffect (core p : Nat) (s : State) : exec (.mbFreeEffect core p) s = execMbFreeEffect core p s := rfl
theorem exec_passStart (core p : Nat) (s : State) : exec (.passStart core p) s = execPassStart core p s := rfl
theorem exec_passComplete (core p : Nat) (s : State) : exec (.passComplete core p) s = execPassComplete core p s := rfl
theorem exec_macroIdlePowerOff (core p : Nat) (s : State) : exec (.macroIdlePowerOff core p) s = execMacroIdlePowerOff core p s := rfl
theorem exec_tokenBurstEnd (k : Nat) (s : State) : exec (.tokenBurstEnd k) s = execTokenBurstEnd k s := rfl
theorem exec_tokenHoldTimeout (k : Nat) (s : State) : exec (.tokenHoldTimeout k) s = execTokenHoldTimeout k s := rfl
theorem exec_tokenArrive (die : Nat) (s : State) : exec (.tokenArrive die) s = execTokenArrive die s := rfl

section
variable {s : State} {core p : Nat} {w : Wg} {i : MatItem} (hw : s.m.wg? core i.slot = some w) {t n pl : Nat} {f : Fmt} (hwork : i.work = .load t n pl f)
include hw hwork

/-- The item as it starts. -/
def loadStarted (now : Nat) (i : MatItem) (js : List MatItem) : List MatItem :=
  js.map (fun j => if j.id = i.id then { j with started := true, doneAt := now + 96 } else j)
theorem mbLoadRun_starts (hon : (s.m.core core).loadOn p = none) (hnext : (s.m.core core).nextOn p = some i) (hbusy : (s.m.mac core p).busy ≤ s.clk.cycle)
    (hpass : ∀ j ∈ (s.m.core core).mats, j.isPass = true → j.mac = p → j.started = false)
    (hst : (w.tiles.getD t {}).state = .ready ∨ (w.tiles.getD t {}).state = .empty) (hjob : ∀ id, (w.tiles.getD t {}).job ≠ some (.command id)) :
    exec (.mbLoadRun core p) s = .next (withM s (((s.m.setWg core i.slot (w.setTile t { (w.tile t) with state := .draining, job := some (.command i.id) })).modMats core
      (loadStarted s.clk.cycle i)).setMac core p { s.m.mac core p with busy := s.clk.cycle + 96, lastUse := s.clk.cycle + 96 })) := by
  have hfree : (!(s.m.core core).macClear s.clk p || (w.tile t).busy) = false := by
    rw [macClear_of hbusy hpass, show (w.tile t).busy = false from tile_notBusy hst hjob]
    rfl
  rw [exec_mbLoadRun]
  refine s.event_next _ ?_
  simp only [hon, hnext, hw, hwork, hfree, Option.bind_eq_bind, Option.bind_some, Bool.false_eq_true, if_false]
  rw [Mach.setTile_eq hw, modMats_mac]
  rfl
theorem mbLoadRun_reads (hon : (s.m.core core).loadOn p = some i) (hjob : (w.tiles.getD t {}).job = some (.command i.id))
    (hpoison : (s.m.core core).poison = []) (hdone : i.doneAt + (f.tileBytes 64 + 127) / 128 ≤ s.clk.cycle + 96) :
    exec (.mbLoadRun core p) s = .next (withM s ((s.m.setWg core i.slot (w.setTile t { (w.tile t) with state := .ready, job := none })).setMac core p
      { s.m.mac core p with b := some { fmt := f, bytes := s.m.scratchRead core i.slot (w.tile t).off (f.tileBytes 64) } })) := by
  rw [exec_mbLoadRun]
  refine s.event_next _ ?_
  simp only [hon, hw, hwork, show (w.tile t).job = some (.command i.id) from hjob, hdone, Option.bind_eq_bind, Option.bind_some, if_true]
  rw [drained_own hw hjob, tilePoison_clean (Mach.setWg_wg? ..) hpoison]
theorem mbLoadRun_waits (hon : (s.m.core core).loadOn p = some i) (hjob : (w.tiles.getD t {}).job = some (.command i.id))
    (hdone : ¬i.doneAt + (f.tileBytes 64 + 127) / 128 ≤ s.clk.cycle + 96) : exec (.mbLoadRun core p) s = .fault .notEnabled := by
  rw [exec_mbLoadRun]
  refine s.event_fault _ ?_
  simp only [hon, hw, hwork, show (w.tile t).job = some (.command i.id) from hjob, hdone, Option.bind_eq_bind, Option.bind_some, if_true, if_false]
theorem mbLoadRun_ends (hon : (s.m.core core).loadOn p = some i) (hjob : (w.tiles.getD t {}).job ≠ some (.command i.id)) : exec (.mbLoadRun core p) s =
    if i.doneAt ≤ s.clk.cycle then .next (withM s (macNow s core p { s.m.mac core p with bver := (s.m.mac core p).bver + 1 } (·.filter (·.id ≠ i.id))))
    else .fault .notEnabled := by
  rw [exec_mbLoadRun]
  split
  · next hdone =>
    refine s.event_next _ ?_
    simp only [hon, hw, hwork, show (w.tile t).job ≠ some (.command i.id) from hjob, hdone, Option.bind_eq_bind, Option.bind_some, if_true, if_false]
    rw [← modMats_setMac]
  · next hdone =>
    refine s.event_fault _ ?_
    simp only [hon, hw, hwork, show (w.tile t).job ≠ some (.command i.id) from hjob, hdone, Option.bind_eq_bind, Option.bind_some, if_false]
end

/-- A free of B, behind every pass of its version. -/
theorem mbFreeEffect_frees {s : State} {core p : Nat} {i : MatItem} (hwork : i.work = .free) (hnext : (s.m.core core).nextOn p = some i)
    (hon : (s.m.core core).loadOn p = none) (hbusy : (s.m.mac core p).busy ≤ s.clk.cycle)
    (hpass : ∀ j ∈ (s.m.core core).mats, j.isPass = true → j.mac = p → j.started = false) :
    exec (.mbFreeEffect core p) s = .next (withM s (macNow s core p { s.m.mac core p with b := none, lastUse := s.clk.cycle } (·.filter (·.id ≠ i.id)))) := by
  have hfree : (!(s.m.core core).macClear s.clk p || ((s.m.core core).loadOn p).isSome) = false := by
    rw [macClear_of hbusy hpass, hon]
    rfl
  rw [exec_mbFreeEffect]
  refine s.event_next _ ?_
  simp only [hnext, hwork, hfree, Option.bind_eq_bind, Option.bind_some, Bool.false_eq_true, if_false]
  rw [← modMats_setMac]

/-! ## Passes -/

section
variable {s : State} {core p acc n pl bv : Nat} {ov : Bool} {f : Fmt} {rows : List ARow} {t : Option Nat} {i : MatItem}
  (hwork : i.work = .pass acc ov n pl f bv rows t)

/-- What a pass needs to start: no drain of its accumulator before it, and a token where its width asks for one (R306). -/
def mayStart (s : State) (core acc : Nat) (f : Fmt) (i : MatItem) : Prop :=
  (s.m.core core).drainBefore i.slot acc i.seq = false ∧ (f.w < 7 ∨ ∃ k, s.m.clusterToken (core / 16) = some k ∧ k.closed = false)
/-- The pass's start, as the model tests it. -/
def heldBack (s : State) (core acc : Nat) (f : Fmt) (i : MatItem) : Bool :=
  (s.m.core core).drainBefore i.slot acc i.seq || (decide (7 ≤ f.w) && !(match s.m.clusterToken (core / 16) with | some t => !t.closed | none => false))
theorem heldBack_iff (s : State) (core acc : Nat) (f : Fmt) (i : MatItem) : heldBack s core acc f i = false ↔ mayStart s core acc f i := by
  have htoken : (match s.m.clusterToken (core / 16) with | some t => !t.closed | none => false) = true ↔
      ∃ k, s.m.clusterToken (core / 16) = some k ∧ k.closed = false := by
    cases s.m.clusterToken (core / 16) with
    | none => simp
    | some k => simp
  rw [heldBack, mayStart, Bool.or_eq_false_iff, Bool.and_eq_false_iff, Bool.not_eq_false', decide_eq_false_iff_not, Nat.not_le, htoken]

include hwork

theorem wantsToken_pass : i.wantsToken = decide (7 ≤ f.w) := by rw [MatItem.wantsToken, hwork]
theorem passStart_stands (hnext : (s.m.core core).nextOn p = some i) (hnot : s.clk.cycle < (s.m.mac core p).busy ∨ (s.m.core core).loadOn p ≠ none) :
    exec (.passStart core p) s = .fault .notEnabled := by
  have hbusy : (!(s.m.core core).macFree s.clk p || ((s.m.core core).loadOn p).isSome) = true := by
    rw [Bool.or_eq_true, Bool.not_eq_true', Core.macFree, decide_eq_false_iff_not, Nat.not_le, Option.isSome_iff_ne_none]
    exact hnot
  rw [exec_passStart]
  refine s.event_fault _ ?_
  simp only [hnext, hwork, hbusy, Option.bind_eq_bind, Option.bind_some, if_true]
variable (hnext : (s.m.core core).nextOn p = some i) (hbusy : (s.m.mac core p).busy ≤ s.clk.cycle) (hon : (s.m.core core).loadOn p = none)
include hnext hbusy hon

/-- The head pass of a free macro. -/
theorem passStart_eq : exec (.passStart core p) s =
    if heldBack s core acc f i then
      (if (s.m.mac core p).waking then .next (withM s (s.m.setMac core p { s.m.mac core p with powered := true, waking := false, lastUse := s.clk.cycle }))
        else .fault .notEnabled)
    else if !(s.m.mac core p).powered && !(s.m.mac core p).waking then
      .next (withM s (s.m.setMac core p { s.m.mac core p with waking := true, busy := s.clk.cycle + 180, lastUse := s.clk.cycle + 180 }))
    else .next (withM s (macNow s core p
      { s.m.mac core p with powered := true, waking := false, busy := s.clk.cycle + 4 + rows.length * f.w, lastUse := s.clk.cycle + 4 + rows.length * f.w }
      (·.map (fun j => if j.id = i.id then { j with started := true, doneAt := s.clk.cycle + 4 + rows.length * f.w + 16, onToken := decide (7 ≤ f.w) } else j)))) := by
  have hfree : (!(s.m.core core).macFree s.clk p || ((s.m.core core).loadOn p).isSome) = false := by
    rw [Core.macFree, hon, decide_eq_true (show ((tget (s.m.core core).macs p).getD {}).busy ≤ s.clk.cycle from hbusy)]
    rfl
  have hheld : ((s.m.core core).drainBefore i.slot acc i.seq ||
      (decide (7 ≤ f.w) && !(match s.m.clusterToken (core / 16) with | some t => !t.closed | none => false))) = heldBack s core acc f i := rfl
  rw [exec_passStart]
  by_cases hb : heldBack s core acc f i = true
  · rw [if_pos hb]
    by_cases hwake : (s.m.mac core p).waking = true
    · rw [if_pos hwake]
      refine s.event_next _ ?_
      simp only [hnext, hwork, hfree, Option.bind_eq_bind, Option.bind_some, Bool.false_eq_true, if_false, wantsToken_pass hwork]
      exact (if_pos hb).trans (if_pos hwake)
    · rw [if_neg hwake]
      refine s.event_fault _ ?_
      simp only [hnext, hwork, hfree, Option.bind_eq_bind, Option.bind_some, Bool.false_eq_true, if_false, wantsToken_pass hwork]
      exact (if_pos hb).trans (if_neg hwake)
  · rw [if_neg hb]
    by_cases hoff : (!(s.m.mac core p).powered && !(s.m.mac core p).waking) = true
    · rw [if_pos hoff]
      refine s.event_next _ ?_
      simp only [hnext, hwork, hfree, Option.bind_eq_bind, Option.bind_some, Bool.false_eq_true, if_false, wantsToken_pass hwork]
      exact (if_neg hb).trans (if_pos hoff)
    · rw [if_neg hoff]
      refine s.event_next _ ?_
      simp only [hnext, hwork, hfree, Option.bind_eq_bind, Option.bind_some, Bool.false_eq_true, if_false, wantsToken_pass hwork]
      exact (if_neg hb).trans ((if_neg hoff).trans (congrArg some (setMac_modMats ..)))
end

/-! ## The rows of a pass (R328, R332) -/

/-- A workgroup that differs from another in its accumulators' files alone. -/
def SameButAcc (w' w : Wg) : Prop := w'.threads = w.threads ∧ w'.tiles = w.tiles ∧ w'.pflags = w.pflags
theorem SameButAcc.trans {a b c : Wg} (h : SameButAcc a b) (h' : SameButAcc b c) : SameButAcc a c := by
  obtain ⟨h1, h2, h3⟩ := h
  obtain ⟨h1', h2', h3'⟩ := h'
  exact ⟨h1.trans h1', h2.trans h2', h3.trans h3'⟩
theorem readAcc_same (w : Wg) (acc : Nat) (rows cols : List Nat) : SameButAcc (w.readAcc acc rows cols) w ∧ (w.readAcc acc rows cols).acc = w.acc := by
  unfold Wg.readAcc
  split <;> exact ⟨⟨rfl, rfl, rfl⟩, rfl⟩
theorem accKey_add (acc row j : Nat) : accKey acc row j = accKey acc row 0 + j := by rw [accKey, accKey, Nat.add_zero]
theorem foldl_setAcc (acc row : Nat) : ∀ (es : List (Nat × V32)) (w : Wg), SameButAcc (es.foldl (fun w e => w.setAcc acc row e.1 e.2) w) w ∧
    (es.foldl (fun w e => w.setAcc acc row e.1 e.2) w).acc = es.foldl (fun m e => sset 0 m (accKey acc row 0 + e.1) e.2) w.acc := by
  intro es
  induction es with
  | nil => exact fun w => ⟨⟨rfl, rfl, rfl⟩, rfl⟩
  | cons e es ih =>
    intro w
    obtain ⟨hsame, hacc⟩ := ih (w.setAcc acc row e.1 e.2)
    refine ⟨hsame.trans ⟨rfl, rfl, rfl⟩, hacc.trans ?_⟩
    rw [List.foldl_cons, ← accKey_add]
    rfl
/-- A row written: its 64 elements read back, every other element stays. -/
theorem setAccRow_at {w : Wg} (hs : sortedFrom none w.acc = true) (acc : Nat) {row : Nat} (hrow : row < 32) {xs : List V32} (hlen : xs.length = 64) :
    SameButAcc (w.setAccRow acc row xs) w ∧ sortedFrom none (w.setAccRow acc row xs).acc = true ∧ ∀ a r j, r < 32 → j < 64 →
      (w.setAccRow acc row xs).accAt a r j = if a = acc ∧ r = row then xs.getD j 0 else w.accAt a r j := by
  obtain ⟨hsame, hacc⟩ := foldl_setAcc acc row (xs.mapIdx (fun k x => (k, x))) w
  obtain ⟨hsorted, hget⟩ := sget_writeRun (0 : V32) (accKey acc row 0) xs 0 w.acc hs
  simp only [Nat.zero_add, Nat.add_zero] at hsorted hget
  refine ⟨hsame, hacc ▸ hsorted, fun a r j hr hj => ?_⟩
  rw [Wg.accAt, Wg.setAccRow, hacc, hget, hlen]
  have hkey : accKey a r j = a * 2048 + r * 64 + j := rfl
  have hbase : accKey acc row 0 = acc * 2048 + row * 64 := by rw [accKey, Nat.add_zero]
  by_cases he : a = acc ∧ r = row
  · rw [if_pos he, if_pos (by rw [hkey, hbase, he.1, he.2]; omega), hkey, hbase, he.1, he.2, Nat.add_sub_cancel_left]
  · rw [if_neg he, if_neg (by rw [hkey, hbase]; omega), Wg.accAt]
/-- Rows written one after another, each once. -/
theorem setAccRows_at {α : Type} {f : α → Nat} {g : α → List V32} (acc : Nat) (hlen : ∀ e, (g e).length = 64) : ∀ {es : List α} {w : Wg},
    sortedFrom none w.acc = true → (es.map f).Nodup → (∀ e ∈ es, f e < 32) →
    let w' := es.foldl (fun w e => w.setAccRow acc (f e) (g e)) w
    SameButAcc w' w ∧ (∀ e ∈ es, ∀ j, j < 64 → w'.accAt acc (f e) j = (g e).getD j 0) ∧
      ∀ a r j, r < 32 → j < 64 → (a ≠ acc ∨ ∀ e ∈ es, f e ≠ r) → w'.accAt a r j = w.accAt a r j := by
  intro es
  induction es with
  | nil => exact fun _ _ _ => ⟨⟨rfl, rfl, rfl⟩, fun _ he => absurd he List.not_mem_nil, fun _ _ _ _ _ _ => rfl⟩
  | cons e es ih =>
    intro w hs hnodup hrows
    obtain ⟨hhead, htail⟩ := List.forall_mem_cons.1 hrows
    obtain ⟨hnot, hnodup'⟩ := List.nodup_cons.1 hnodup
    obtain ⟨hsame1, hs1, hat1⟩ := setAccRow_at hs acc hhead (hlen e)
    obtain ⟨hsame, hin, hout⟩ := ih hs1 hnodup' htail
    refine ⟨hsame.trans hsame1, List.forall_mem_cons.2 ⟨fun j hj => ?_, hin⟩, fun a r j hr hj hother => ?_⟩
    · refine (hout acc (f e) j hhead hj (.inr fun e' he' heq => hnot (heq ▸ List.mem_map_of_mem he'))).trans ?_
      rw [hat1 acc (f e) j hhead hj, if_pos ⟨rfl, rfl⟩]
    · refine (hout a r j hr hj (hother.imp_right fun hne e' he' => hne e' (List.mem_cons_of_mem e he'))).trans ?_
      rw [hat1 a r j hr hj, if_neg fun hb => hother.elim (fun hne => hne hb.1) fun hne => hne e List.mem_cons_self hb.2.symm]
theorem mapIdx_upFrom {α β : Type} (d : α) (xs : List α) (g : Nat → α → β) : xs.mapIdx g = (upFrom 0 xs.length).map (fun j => g j (xs.getD j d)) := by
  refine List.ext_getElem (by simp [upFrom_eq_range']) fun j h1 h2 => ?_
  have hj : j < xs.length := by simpa using h1
  simp [upFrom_eq_range', hj]

/-- The element of a pass at a row and a column: its dot product on what the accumulator holds. -/
def passOut (w : Wg) (acc : Nat) (ov : Bool) (f : Fmt) (b : BTile) (r : ARow) (j : Nat) : Nat × BitVec 5 :=
  dotStep (if ov then 0 else (w.accAt acc r.row j).toNat) (f.rowVals r.bytes r.scales) (b.cols.getD j [])
theorem cols_length (b : BTile) : b.cols.length = 64 := by rw [BTile.cols, List.length_map, upFrom_eq_range', List.length_range']
theorem passRow_eq (w : Wg) (acc : Nat) (ov : Bool) (f : Fmt) (b : BTile) (r : ARow) : passRow w acc ov f b.cols r =
    ((upFrom 0 64).map (fun j => BitVec.ofNat 32 (passOut w acc ov f b r j).1), (upFrom 0 64).foldl (fun fl j => fl ||| (passOut w acc ov f b r j).2) 0) := by
  have hrow : b.cols.mapIdx (fun j col => dotStep (if ov then 0 else (w.accAt acc r.row j).toNat) (f.rowVals r.bytes r.scales) col) =
      (upFrom 0 64).map (passOut w acc ov f b r) := by
    rw [mapIdx_upFrom [], cols_length]
    rfl
  rw [passRow]
  simp only [hrow, List.map_map, List.foldl_map]
  rfl
theorem passOut_congr {w w' : Wg} (h : w'.acc = w.acc) (acc : Nat) (ov : Bool) (f : Fmt) (b : BTile) (r : ARow) (j : Nat) :
    passOut w' acc ov f b r j = passOut w acc ov f b r j := by rw [passOut, passOut, Wg.accAt, Wg.accAt, h]
/-- The workgroup when the rows of a pass are written. -/
def passed (w : Wg) (acc : Nat) (ov : Bool) (f : Fmt) (b : BTile) (rows : List ARow) : Wg :=
  let v := if ov then w else w.readAcc acc (rows.map (·.row)) (upFrom 0 64)
  { (rows.foldl (fun x r => x.setAccRow acc r.row (passRow v acc ov f b.cols r).1) v) with
    pflags := rows.foldl (fun fl r => fl ||| (passRow v acc ov f b.cols r).2) v.pflags }
theorem passed_spec {w : Wg} (hs : sortedFrom none w.acc = true) (acc : Nat) (ov : Bool) (f : Fmt) (b : BTile) {rows : List ARow}
    (hnodup : (rows.map (·.row)).Nodup) (hrows : ∀ r ∈ rows, r.row < 32) : let w' := passed w acc ov f b rows
    w'.threads = w.threads ∧ w'.tiles = w.tiles ∧
      w'.pflags = rows.foldl (fun fl r => fl ||| (upFrom 0 64).foldl (fun fl j => fl ||| (passOut w acc ov f b r j).2) 0) w.pflags ∧
      (∀ r ∈ rows, ∀ j, j < 64 → w'.accAt acc r.row j = BitVec.ofNat 32 (passOut w acc ov f b r j).1) ∧
      ∀ a row j, row < 32 → j < 64 → (a ≠ acc ∨ ∀ r ∈ rows, r.row ≠ row) → w'.accAt a row j = w.accAt a row j := by
  have hread : SameButAcc (if ov then w else w.readAcc acc (rows.map (·.row)) (upFrom 0 64)) w ∧
      (if ov then w else w.readAcc acc (rows.map (·.row)) (upFrom 0 64)).acc = w.acc := by
    split
    · exact ⟨⟨rfl, rfl, rfl⟩, rfl⟩
    · exact readAcc_same ..
  unfold passed
  generalize (if ov then w else w.readAcc acc (rows.map (·.row)) (upFrom 0 64)) = v at hread
  obtain ⟨⟨hthreads, htiles, hflags⟩, hacc⟩ := hread
  have hrow (r : ARow) : passRow v acc ov f b.cols r = passRow w acc ov f b.cols r := by
    simp only [passRow_eq, passOut_congr hacc]
  have hlen (r : ARow) : (passRow v acc ov f b.cols r).1.length = 64 := by
    rw [passRow_eq, List.length_map, upFrom_eq_range', List.length_range']
  obtain ⟨⟨hthreads', htiles', -⟩, hin, hout⟩ := setAccRows_at (f := ARow.row) (g := fun r => (passRow v acc ov f b.cols r).1) acc hlen
    (w := v) (hacc ▸ hs) hnodup hrows
  refine ⟨hthreads'.trans hthreads, htiles'.trans htiles, ?_, fun r hr j hj => (hin r hr j hj).trans ?_, fun a row j hrow hj hother =>
    (hout a row j hrow hj hother).trans (by rw [Wg.accAt, hacc]; rfl)⟩
  · simp only [hrow, hflags, passRow_eq]
  · rw [hrow, passRow_eq]
    simp [upFrom_eq_range', hj]

/-- The pass's tile, if it still holds it, is ready. -/
def tileLeft (t : Option Nat) (id : Nat) (w : Wg) : Wg :=
  match t with
  | some k => if (w.tile k).job = some (.command id) then w.setTile k { (w.tile k) with state := .ready, job := none } else w
  | none => w
theorem tileLeft_frame (t : Option Nat) (id : Nat) (w : Wg) : (tileLeft t id w).threads = w.threads ∧ (tileLeft t id w).pflags = w.pflags ∧
    (tileLeft t id w).acc = w.acc ∧ (tileLeft t id w).tiles = (match t with
      | some k => if (w.tiles.getD k {}).job = some (.command id) then setAt w.tiles k { (w.tiles.getD k {}) with state := .ready, job := none } else w.tiles
      | none => w.tiles) := by
  unfold tileLeft
  cases t with
  | none => exact ⟨rfl, rfl, rfl, rfl⟩
  | some k =>
    have hk : w.tile k = w.tiles.getD k {} := rfl
    dsimp only
    rw [hk]
    split <;> exact ⟨rfl, rfl, rfl, rfl⟩
theorem drained_tile {m : Mach} {core slot id : Nat} {w : Wg} (hw : m.wg? core slot = some w) (hp : (m.core core).poison = []) (t : Option Nat) :
    (match t with | some k => (m.drained core slot id k).tilePoison core slot k | none => m) = m.setWg core slot (tileLeft t id w) := by
  cases t with
  | none => exact (setWg_self hw).symm
  | some k =>
    by_cases hj : (w.tile k).job = some (.command id)
    · dsimp only
      rw [drained_own hw hj, tilePoison_clean (Mach.setWg_wg? ..) hp, tileLeft, if_pos hj]
    · dsimp only
      rw [drained_other hw hj, tilePoison_clean hw hp, tileLeft, if_neg hj, setWg_self hw]

section
variable {s : State} {core p acc n pl bv : Nat} {ov : Bool} {f : Fmt} {rows : List ARow} {t : Option Nat} {i : MatItem} {w : Wg}
  (hw : s.m.wg? core i.slot = some w) (hwork : i.work = .pass acc ov n pl f bv rows t)
  (hhead : (s.m.core core).mats.find? (fun j => j.isPass && j.mac == p && j.started) = some i)
include hw hwork hhead

theorem passComplete_stands (hearly : s.clk.cycle < i.doneAt) : exec (.passComplete core p) s = .fault .notEnabled := by
  rw [exec_passComplete]
  refine s.event_fault _ ?_
  simp only [hhead, hw, hwork, Option.bind_eq_bind, Option.bind_some]
  cases (s.m.mac core p).b with
  | none => rfl
  | some b => exact if_pos (by rw [decide_eq_true hearly]; rfl)
theorem passComplete_writes {b : BTile} (hb : (s.m.mac core p).b = some b) (hdone : i.doneAt ≤ s.clk.cycle)
    (hfirst : (s.m.core core).accBefore i.slot acc i.seq = false) (hacc : NoAccWrite s core) (hp : (s.m.core core).poison = []) :
    exec (.passComplete core p) s = .next (withM s (((s.m.setWg core i.slot (passed w acc ov f b rows)).modMats core (·.filter (·.id ≠ i.id))).setWg core i.slot
      (tileLeft t i.id (passed w acc ov f b rows)))) := by
  have hgo : ¬(decide (s.clk.cycle < i.doneAt) || (s.m.core core).accBefore i.slot acc i.seq) = true := by
    rw [hfirst, Bool.or_false, decide_eq_true_eq]
    exact Nat.not_lt.2 hdone
  have hwg : ((s.m.setWg core i.slot (passed w acc ov f b rows)).modMats core (·.filter (·.id ≠ i.id))).wg? core i.slot = some (passed w acc ov f b rows) :=
    show (s.m.setWg core i.slot (passed w acc ov f b rows)).wg? core i.slot = some _ from Mach.setWg_wg? ..
  have hclean : (((s.m.setWg core i.slot (passed w acc ov f b rows)).modMats core (·.filter (·.id ≠ i.id))).core core).poison = [] := by
    rw [Mach.modMats, modCore_core]
    exact hp
  rw [exec_passComplete]
  refine s.event_next _ ?_
  simp only [hhead, hw, hwork, hb, Option.bind_eq_bind, Option.bind_some]
  refine (if_neg hgo).trans (congrArg some ?_)
  rw [List.foldl_map, List.foldl_map]
  refine (congrArg (Mach.settleAccs · core) (drained_tile hwg hclean t)).trans (settleAccs_onMac fun j hj => ?_)
  have hmats : (((s.m.setWg core i.slot (passed w acc ov f b rows)).modMats core (·.filter (·.id ≠ i.id))).core core).mats =
      (s.m.core core).mats.filter (·.id ≠ i.id) := (modMats_core _ core _).1
  exact hacc j (List.mem_of_mem_filter ((congrArg (j ∈ ·) hmats).mp hj))
end

/-! ## Power -/

theorem macroIdlePowerOff_eq (core p : Nat) (s : State) : exec (.macroIdlePowerOff core p) s =
    if ((s.m.mac core p).powered = true ∨ (s.m.mac core p).waking = true) ∧ (∀ j ∈ (s.m.core core).mats, j.onMac = true → j.mac ≠ p) ∧
        (s.m.mac core p).lastUse + s.m.idle ≤ s.clk.cycle then
      .next (withM s (s.m.setMac core p { s.m.mac core p with powered := false, waking := false }))
    else .fault .notEnabled := by
  have hiff : (((s.m.mac core p).powered || (s.m.mac core p).waking) && !(s.m.core core).mats.any (fun i => i.onMac && i.mac == p) &&
      decide ((s.m.mac core p).lastUse + s.m.idle ≤ s.clk.cycle)) = true ↔
      ((s.m.mac core p).powered = true ∨ (s.m.mac core p).waking = true) ∧ (∀ j ∈ (s.m.core core).mats, j.onMac = true → j.mac ≠ p) ∧
        (s.m.mac core p).lastUse + s.m.idle ≤ s.clk.cycle := by
    rw [Bool.and_eq_true, Bool.and_eq_true, Bool.or_eq_true, decide_eq_true_eq, Bool.not_eq_true', List.any_eq_false, and_assoc]
    simp only [Bool.and_eq_true, beq_iff_eq, not_and, ne_eq]
  rw [exec_macroIdlePowerOff]
  split
  · next h => exact s.event_next _ (if_pos (hiff.2 h))
  · next h => exact s.event_fault _ (if_neg (mt hiff.1 h))

section
variable {s : State} {k : Nat}

theorem clusterIdle_iff : s.m.clusterIdle s.clk k = true ↔
    ∀ e ∈ s.m.cores, e.1 / 16 = k → ∀ p, p < 4 → ((tget e.2.macs p).getD {}).busy + 64 ≤ s.clk.cycle := by
  rw [Mach.clusterIdle, Mach.clusterCores, List.all_eq_true]
  simp only [List.mem_filter, beq_iff_eq, and_imp, List.all_eq_true, mem_upFrom, decide_eq_true_eq, Nat.zero_le, Nat.zero_add, true_and]
theorem otherWaits_iff : ((upFrom (k / 10 * 10) 10).filter (· ≠ k)).any s.m.clusterWaits = true ↔ ∃ j, j / 10 = k / 10 ∧ j ≠ k ∧ s.m.clusterWaits j = true := by
  rw [List.any_eq_true]
  simp only [List.mem_filter, mem_upFrom, decide_eq_true_eq]
  constructor
  · rintro ⟨j, ⟨⟨hlo, hhi⟩, hne⟩, hw⟩
    exact ⟨j, by omega, hne, hw⟩
  · rintro ⟨j, hd, hne, hw⟩
    exact ⟨j, ⟨⟨by omega, by omega⟩, hne⟩, hw⟩
variable {t : Token} (ht : s.m.clusterToken k = some t)
include ht

theorem tokenBurstEnd_eq : exec (.tokenBurstEnd k) s =
    if (s.m.clusterIdle s.clk k && decide (t.since + 64 ≤ s.clk.cycle)) || (t.closed && !s.m.tokenBusy s.clk k) then
      .next (ringNow s (k / 10) (if 0 < (ringOf s (k / 10)).retire then
          { ringOf s (k / 10) with held := (ringOf s (k / 10)).held.filter (fun x => x.cluster ≠ k), retire := (ringOf s (k / 10)).retire - 1 }
        else { ringOf s (k / 10) with held := (ringOf s (k / 10)).held.filter (fun x => x.cluster ≠ k), ring := (ringOf s (k / 10)).ring ++ [(k + 1) % 10] }))
    else .fault .notEnabled := by
  rw [exec_tokenBurstEnd]
  split
  · next h =>
    refine s.event_next _ ?_
    simp only [ht, Option.bind_eq_bind, Option.bind_some]
    exact if_pos h
  · next h =>
    refine s.event_fault _ ?_
    simp only [ht, Option.bind_eq_bind, Option.bind_some]
    exact if_neg h
theorem tokenHoldTimeout_eq : exec (.tokenHoldTimeout k) s =
    if !t.closed && decide (t.since + 20000 ≤ s.clk.cycle) && ((upFrom (k / 10 * 10) 10).filter (· ≠ k)).any s.m.clusterWaits then
      .next (ringNow s (k / 10) { ringOf s (k / 10) with
        held := (ringOf s (k / 10)).held.map (fun x => if x.cluster = k then { x with closed := true } else x) })
    else .fault .notEnabled := by
  rw [exec_tokenHoldTimeout]
  split
  · next h =>
    refine s.event_next _ ?_
    simp only [ht, Option.bind_eq_bind, Option.bind_some]
    exact if_pos h
  · next h =>
    refine s.event_fault _ ?_
    simp only [ht, Option.bind_eq_bind, Option.bind_some]
    exact if_neg h
end

end Sys2Proof.Claims
end

section
open Sys2Proof Sys2Proof.Machine Sys2Proof.Claims

/-- Settles the first part of O39. A load of B takes effect in three parts (log 86); `mb.load` and `mb.free` wait for the passes before them (log 48). -/
theorem matrixEvents : MatrixEvents := by
  intro core p s w i hw c x now
  refine ⟨fun t n pl f hwork => ⟨fun hon hnext hbusy hpass hst hjob => ?_, fun hon hjob hst hp => ?_, fun hon hjob => mbLoadRun_ends hw hwork hon hjob⟩,
    fun hwork hnext hon hbusy hpass => mbFreeEffect_frees hwork hnext hon hbusy hpass,
    fun acc ov n pl f bv rows t hwork => ⟨fun hnext hnot => passStart_stands hwork hnext hnot, fun hnext hbusy hon => ?_,
      fun hhead hearly => passComplete_stands hw hwork hhead hearly, fun b hhead hb hdone hfirst hacc hp hnodup hrows hs => ?_⟩,
    macroIdlePowerOff_eq core p s⟩
  · refine ⟨_, mbLoadRun_starts hw hwork hon hnext hbusy hpass hst hjob, rfl, ?_, setMac_mac .., rfl, ?_⟩
    · exact (setMac_core ..).1.trans (modMats_core (s.m.setWg core i.slot _) core _).1
    · exact (setMac_core ..).2.trans (modMats_core (s.m.setWg core i.slot _) core _).2
  · split
    · next hdone => exact ⟨_, mbLoadRun_reads hw hwork hon hjob hp hdone, rfl, setMac_mac .., (setMac_core ..).1⟩
    · next hdone => exact mbLoadRun_waits hw hwork hon hjob hdone
  · have hheld : heldBack s core acc f i = false ↔ mayStart s core acc f i := heldBack_iff ..
    have hstart := passStart_eq (ov := ov) (n := n) (pl := pl) (bv := bv) (t := t) hwork hnext hbusy hon
    refine ⟨fun hmay hon' => ?_, fun hmay hoff hasleep => ?_, fun hnot => ?_⟩
    · have hawake : ¬(!(s.m.mac core p).powered && !(s.m.mac core p).waking) = true := by
        rw [Bool.and_eq_true, Bool.not_eq_true', Bool.not_eq_true']
        rintro ⟨h1, h2⟩
        exact hon'.elim (fun h => Bool.false_ne_true (h1.symm.trans h)) fun h => Bool.false_ne_true (h2.symm.trans h)
      rw [hstart, hheld.2 hmay, if_neg Bool.false_ne_true, if_neg hawake]
    · have hdark : (!(s.m.mac core p).powered && !(s.m.mac core p).waking) = true := by
        rw [Bool.and_eq_true, Bool.not_eq_true', Bool.not_eq_true']
        exact ⟨hoff, hasleep⟩
      rw [hstart, hheld.2 hmay, if_neg Bool.false_ne_true, if_pos hdark]
    · rw [hstart, if_pos (Bool.eq_true_of_not_eq_false (mt hheld.1 hnot))]
  · obtain ⟨hthreads, htiles, hflags, hin, hout⟩ := passed_spec hs acc ov f b hnodup hrows
    refine ⟨_, tileLeft t i.id (passed w acc ov f b rows), passComplete_writes hw hwork hhead hb hdone hfirst hacc hp, Mach.setWg_wg? .., ?_, rfl, ?_⟩
    · exact (modMats_core (s.m.setWg core i.slot _) core _).1
    · obtain ⟨hth, hpf, hac, hti⟩ := tileLeft_frame t i.id (passed w acc ov f b rows)
      rw [hth, hpf, hti, htiles]
      refine ⟨hthreads, rfl, hflags, fun r hr j hj => ?_, fun a row j hrow hj hother => ?_⟩
      · exact (congrArg (fun l => sget 0 l (accKey acc r.row j)) hac).trans (hin r hr j hj)
      · exact (congrArg (fun l => sget 0 l (accKey a row j)) hac).trans (hout a row j hrow hj hother)

/-- Settles the second part of O39. -/
theorem powerTokens : PowerTokens := by
  intro k s die r
  refine ⟨fun t ht => ⟨⟨fun hdone => ?_, fun hnot => ?_⟩, fun hopen hold => ⟨fun hwait => ?_, fun hnone => ?_⟩, fun hopen hearly => ?_⟩, fun q ps j hring hj hw hfirst => ?_⟩
  · have hgives : ((s.m.clusterIdle s.clk k && decide (t.since + 64 ≤ s.clk.cycle)) || (t.closed && !s.m.tokenBusy s.clk k)) = true := by
      rw [Bool.or_eq_true, Bool.and_eq_true, Bool.and_eq_true, clusterIdle_iff, decide_eq_true_eq, Bool.not_eq_true']
      exact hdone
    rw [tokenBurstEnd_eq ht, if_pos hgives]
    by_cases hr : r.retire = 0
    · rw [if_pos hr, if_neg (by rw [show (ringOf s (k / 10)).retire = 0 from hr]; exact Nat.lt_irrefl 0)]
    · rw [if_neg hr, if_pos (Nat.pos_of_ne_zero hr)]
  · have hkeeps : ¬((s.m.clusterIdle s.clk k && decide (t.since + 64 ≤ s.clk.cycle)) || (t.closed && !s.m.tokenBusy s.clk k)) = true := by
      rw [Bool.or_eq_true, Bool.and_eq_true, Bool.and_eq_true, clusterIdle_iff, decide_eq_true_eq, Bool.not_eq_true']
      exact hnot
    rw [tokenBurstEnd_eq ht, if_neg hkeeps]
  · rw [tokenHoldTimeout_eq ht, hopen, decide_eq_true hold, otherWaits_iff.2 hwait]
    rfl
  · have hno : ((upFrom (k / 10 * 10) 10).filter (· ≠ k)).any s.m.clusterWaits = false :=
      Bool.eq_false_iff.2 fun h => by
        obtain ⟨j, hd, hne, hw⟩ := otherWaits_iff.1 h
        exact Bool.false_ne_true ((hnone j hd hne).symm.trans hw)
    rw [tokenHoldTimeout_eq ht, hno, Bool.and_false]
    rfl
  · rw [tokenHoldTimeout_eq ht, decide_eq_false (by omega), Bool.and_false, Bool.false_and]
    rfl
  · have hfind : (upFrom 0 10).find? (fun j => s.m.clusterWaits (die * 10 + (q + j) % 10)) = some j := by
      rw [upFrom_eq_range', ← List.range_eq_range', List.find?_range_eq_some]
      exact ⟨hw, List.mem_range.2 hj, fun i hi => by rw [hfirst i hi]; rfl⟩
    rw [exec_tokenArrive]
    refine s.event_next _ ?_
    have hring' : (s.m.ring die).ring = q :: ps := hring
    simp only [hring', hfind]
    rfl

/-- Settles O39. A token that a cluster gives up goes to the next cluster of the ring (log 46). -/
theorem matrixUnit : Obligations.MatrixUnit := ⟨matrixEvents, powerTokens⟩
end

section
/-! SUPPORT. The loader (R346 to R350), the planes of a core, and the serial phase of an ordered launch (R400). -/
namespace Sys2Proof.Claims
open Sys2Proof.Machine

/-! ## What answering a request leaves unchanged -/

/-- Memory, workgroups, cores, the loader's place and every function's requests, slots and log are as they were. -/
def KeepsSlots (m m' : Mach) : Prop :=
  m'.mem = m.mem ∧ m'.wgs = m.wgs ∧ m'.cores = m.cores ∧ m'.lastLoader = m.lastLoader ∧
    ∀ k, (m'.fn k).loads = (m.fn k).loads ∧ (m'.fn k).slots = (m.fn k).slots ∧ (m'.fn k).log = (m.fn k).log
theorem KeepsSlots.refl (m : Mach) : KeepsSlots m m := ⟨rfl, rfl, rfl, rfl, fun _ => ⟨rfl, rfl, rfl⟩⟩
theorem KeepsSlots.trans {a b c : Mach} (h : KeepsSlots a b) (h' : KeepsSlots b c) : KeepsSlots a c := by
  obtain ⟨h1, h2, h3, h4, h5⟩ := h
  obtain ⟨k1, k2, k3, k4, k5⟩ := h'
  refine ⟨k1.trans h1, k2.trans h2, k3.trans h3, k4.trans h4, fun k => ?_⟩
  obtain ⟨a1, a2, a3⟩ := h5 k
  obtain ⟨b1, b2, b3⟩ := k5 k
  exact ⟨b1.trans a1, b2.trans a2, b3.trans a3⟩
theorem KeepsSlots.setFn {m : Mach} {vf : Nat} {f : Fn} (hl : f.loads = (m.fn vf).loads) (hs : f.slots = (m.fn vf).slots) (hg : f.log = (m.fn vf).log) :
    KeepsSlots m (m.setFn vf f) := by
  refine ⟨rfl, rfl, rfl, rfl, fun k => ?_⟩
  by_cases hk : k = vf
  · rw [hk, Mach.setFn_fn]
    exact ⟨hl, hs, hg⟩
  · rw [Mach.setFn_fn_other _ _ hk]
    exact ⟨rfl, rfl, rfl⟩
theorem KeepsSlots.modFn {m : Mach} {vf : Nat} {g : Fn → Fn} (hl : (g (m.fn vf)).loads = (m.fn vf).loads) (hs : (g (m.fn vf)).slots = (m.fn vf).slots)
    (hg : (g (m.fn vf)).log = (m.fn vf).log) : KeepsSlots m (m.modFn vf g) := .setFn hl hs hg
theorem KeepsSlots.setReg (m : Mach) (vf off v : Nat) : KeepsSlots m (m.setReg vf off v) := .setFn rfl rfl rfl
theorem KeepsSlots.postHost (m : Mach) (vf vec : Nat) (bs : List Byte) : KeepsSlots m (m.postHost vf vec bs) := by
  unfold Mach.postHost
  split <;> exact .refl m
theorem KeepsSlots.writeCompls (vf : Nat) : ∀ (n : Nat) (m : Mach), KeepsSlots m (m.writeCompls vf n) := by
  intro n
  induction n with
  | zero => exact KeepsSlots.refl
  | succ n ih =>
    intro m
    rw [Mach.writeCompls]
    split
    · exact .refl m
    · next bs irq rest _ =>
      split
      · exact .refl m
      · refine KeepsSlots.trans ?_ (ih _)
        have hhost (h : List Host.Cell) : KeepsSlots m { m with host := h } := ⟨rfl, rfl, rfl, rfl, fun _ => ⟨rfl, rfl, rfl⟩⟩
        have hset := ((hhost _).trans (.setFn (m := { m with host := HostMem.writeL m.host ((m.fn vf).reg rCpbase + 16 * (m.fn vf).reg rCptail) bs })
          (vf := vf) (f := { m.fn vf with compl := rest }) rfl rfl rfl)).trans (.setReg _ vf rCptail (((m.fn vf).reg rCptail + 1) % ringLen ((m.fn vf).reg rCpsize)))
        split
        · exact hset.trans (.postHost ..)
        · exact hset
theorem KeepsSlots.finish (m : Mach) (c : Cmd) (op st x : Nat) : KeepsSlots m (m.finish c op st x) :=
  (KeepsSlots.modFn rfl rfl rfl).trans (.writeCompls ..)

/-! ## The loader -/

section
variable {m : Mach} (hw : m.wgs = [])
include hw

/-- With no workgroup resident, answering a request completes its command and tells the saved workgroups. -/
theorem answerLoadReq_keeps (vf : Nat) (q : LoadReq) (st : Nat) : KeepsSlots m (m.answerLoadReq vf q st) := by
  unfold Mach.answerLoadReq
  cases q.cmd with
  | none =>
    dsimp only
    rw [hw]
    exact .modFn rfl rfl rfl
  | some c =>
    have hkeeps := KeepsSlots.finish m c 2 (if st = 0 then 0 else 5) st
    dsimp only
    rw [hkeeps.2.1, hw]
    exact hkeeps.trans (.modFn rfl rfl rfl)
/-- An entry in a log reaches no workgroup where there is none. -/
theorem logErr_wgs_nil (clk : Clock) (vf source code info core aux addr : Nat) : (m.logErr clk vf source code info core aux addr).wgs = [] := by
  have hpost (m : Mach) (vec : Nat) (bs : List Byte) : (m.postHost vf vec bs).wgs = m.wgs := (KeepsSlots.postHost m vf vec bs).2.1
  have hwrite (m : Mach) (hw : m.wgs = []) (pa : Nat) (bs : List Byte) : (m.l2Write pa bs).wgs = [] := by
    obtain ⟨y, hy⟩ := Mach.l2Write_unarmed (m := m) (fun e he => absurd (hw ▸ he) List.not_mem_nil) pa bs
    rw [hy]
    exact hw
  rw [Mach.logErr, hpost]
  split
  · split
    · exact hw
    · exact hwrite _ hw _ _
  · exact hw
end

theorem logged_loads (f : Fn) (clk : Clock) (source code info core aux addr : Nat) : (f.logged clk source code info core aux addr).loads = f.loads := by
  rw [Fn.logged]
theorem logged_slots (f : Fn) (clk : Clock) (source code info core aux addr : Nat) : (f.logged clk source code info core aux addr).slots = f.slots := by
  rw [Fn.logged]
/-- The loader reads a record's bytes where it may. -/
theorem FwAt.loaderRead {s : State} {vf va n pa : Nat} (h : FwAt s vf va n [.read] pa) :
    ∃ x, s.m.loaderRead vf va n = (.bytes (Memory.readN s.m.mem pa n), { s.m with access := x }) := by
  obtain ⟨hn, hpage, hks, ⟨kind, htr⟩, hl1, hclean⟩ := h
  have hread := htr .read (List.mem_singleton_self _)
  have hpoison : bulkPoison s.m [fwPart va n pa kind] = none := by
    have hnone : (linesOf pa n).find? s.m.poison.contains = none := List.find?_eq_none.2 fun l hl => by simpa using hclean l hl
    simp only [bulkPoison, fwPart, List.findSome?_cons, hnone, Option.map_none, List.findSome?_nil]
  obtain ⟨x, hx⟩ := Mach.bulkRead_fwPart hl1 va n pa kind
  refine ⟨x, ?_⟩
  have hok : bulkRes s.m [fwPart va n pa kind] = .ok := rfl
  rw [Mach.loaderRead, spansOf_one hn hpage]
  simp only [List.foldl_cons, List.foldl_nil, List.nil_append, hread]
  rw [← fwPart, hok]
  simp only [hpoison, Option.isSome_none, Bool.false_eq_true, if_false]
  rw [show s.m.bulkRead 1280 [fwPart va n pa kind] = _ from hx]

theorem exec_loaderRequest (vf : Nat) (s : State) : exec (.loaderRequest vf) s = execLoaderRequest vf s := rfl
theorem exec_formatInstall (core slot : Nat) (s : State) : exec (.formatInstall core slot) s = execFormatInstall core slot s := rfl
theorem exec_coreFunctionChange (core vf : Nat) (s : State) : exec (.coreFunctionChange core vf) s = execCoreFunctionChange core vf s := rfl
theorem exec_serialPhaseApply (vf launch : Nat) (s : State) : exec (.serialPhaseApply vf launch) s = execSerialPhaseApply vf launch s := rfl

/-- The machine with the loader's place at `vf` and other counters of line accesses. -/
def loaderAt (m : Mach) (vf : Nat) (x : Sparse Nat) : Mach := { m with lastLoader := vf, access := x }
theorem FwAt.loaderAt {s : State} {vf va n pa : Nat} (h : FwAt s vf va n [.read] pa) (k : Nat) (x : Sparse Nat) :
    ∃ y, (loaderAt s.m k x).loaderRead vf va n = (.bytes (Memory.readN s.m.mem pa n), loaderAt s.m k y) := by
  obtain ⟨y, hy⟩ := (h.of_same (m := Claims.loaderAt s.m k x) rfl rfl rfl h.ioDie_empty).loaderRead
  exact ⟨y, hy⟩

section
variable {s : State} {vf : Nat} {q : LoadReq} {qs : List LoadReq} {pa : Nat} (hl : (s.m.fn vf).loads = q :: qs) (hturn : s.m.loaderTurn = some vf) (hq : q.fault = 0)
include hl hturn hq

/-- The loader takes its request when it has read and judged the record. -/
theorem loaderRequest_judged {r : Except Nat Fmt} {m : Mach} (hr : (loaderAt s.m vf s.m.access).readRecord vf q = (r, none, m)) :
    exec (.loaderRequest vf) s = .next (withM s (match r with
      | .error code => ((m.dropLoad vf q.id).logErr s.clk vf 3 code 0 65535 0 q.addr).answerLoadReq vf q code
      | .ok f => m.acceptLoad vf q f)) := by
  have hq2 : ¬q.fault = 2 := by rw [hq]; decide
  rw [exec_loaderRequest]
  refine s.event_next _ ?_
  simp only [hl, List.head?_cons, Option.bind_eq_bind, Option.bind_some]
  refine (if_neg (not_not.2 hturn)).trans ?_
  rw [if_neg hq2, show Mach.readRecord { s.m with lastLoader := vf } vf q = (r, none, m) from hr]
  cases r <;> rfl
end

section
variable {s : State} {vf : Nat} {q : LoadReq} {pa : Nat} (hfw : FwAt s vf q.addr 256 [.read] pa)
include hfw

theorem readRecord_headless (hhead : recordLen (Memory.readN s.m.mem pa 256) = none) :
    ∃ y, (loaderAt s.m vf s.m.access).readRecord vf q = (.error 2, none, loaderAt s.m vf y) := by
  obtain ⟨y, hy⟩ := hfw.loaderAt vf s.m.access
  refine ⟨y, ?_⟩
  rw [Mach.readRecord, hy]
  simp only [hhead]
theorem readRecord_reads {n : Nat} (hhead : recordLen (Memory.readN s.m.mem pa 256) = some n) (hfw' : FwAt s vf q.addr n [.read] pa) :
    ∃ y, (loaderAt s.m vf s.m.access).readRecord vf q = (s.m.checkRecord vf q (Memory.readN s.m.mem pa n), none, loaderAt s.m vf y) := by
  obtain ⟨x, hx⟩ := hfw.loaderAt vf s.m.access
  obtain ⟨y, hy⟩ := hfw'.loaderAt vf x
  refine ⟨y, ?_⟩
  rw [Mach.readRecord, hx]
  simp only [hhead, hy]
  rfl
end

/-- The machine whose slot table has taken a record. -/
def tableTakes (m : Mach) (vf : Nat) (q : LoadReq) (f : Fmt) : Mach := (m.dropLoad vf q.id).modFn vf (fun x =>
  { x with slots := tset x.slots q.slot { fmt := some f, gen := ((x.slotEntry q.slot).gen + 1) % 65536 } })
theorem tableTakes_fn (m : Mach) (vf : Nat) (q : LoadReq) (f : Fmt) : ((tableTakes m vf q f).fn vf).loads = (m.fn vf).loads.filter (·.id ≠ q.id) ∧
    tget ((tableTakes m vf q f).fn vf).slots q.slot = some { fmt := some f, gen := (((tget (m.fn vf).slots q.slot).getD {}).gen + 1) % 65536 } := by
  rw [tableTakes, Mach.modFn_fn, Mach.dropLoad, Mach.modFn_fn]
  exact ⟨rfl, tget_tset_same ..⟩
/-- A record is accepted where no core holds the function's planes. -/
theorem acceptLoad_table {m : Mach} {vf : Nat} (hw : m.wgs = []) (hcores : m.planeCores vf = []) (q : LoadReq) (f : Fmt) : let u := m.acceptLoad vf q f
    (u.fn vf).loads = (m.fn vf).loads.filter (·.id ≠ q.id) ∧ u.mem = m.mem ∧ u.lastLoader = m.lastLoader ∧
      tget (u.fn vf).slots q.slot = some { fmt := some f, gen := (((tget (m.fn vf).slots q.slot).getD {}).gen + 1) % 65536 } := by
  intro u
  have hu : u = ((tableTakes m vf q f).answerLoadReq vf q 0).wakeReturned vf := if_pos (List.isEmpty_iff.2 hcores)
  obtain ⟨hmem, -, -, hlast, hfn⟩ := (answerLoadReq_keeps (m := tableTakes m vf q f) hw vf q 0).trans (KeepsSlots.modFn (vf := vf)
    (g := fun f => { f with launches := f.launches.map (fun l => { l with mism := l.mism.map (fun _ => true) }) }) rfl rfl rfl)
  obtain ⟨hloads, hslots⟩ := tableTakes_fn m vf q f
  obtain ⟨hl, hs, -⟩ := hfn vf
  rw [hu]
  exact ⟨hl.trans hloads, hmem, hlast, (congrArg (tget · q.slot) hs).trans hslots⟩

/-! ## Planes -/

/-- An install that no request in progress waits for changes nothing but its plane. -/
theorem flipped_none {m : Mach} {core req : Nat} (h : ∀ x ∈ m.installs, x.req.id ≠ req) : m.flipped core req = m := by
  have hmap : m.installs.map (fun (x : Install) => if x.req.id = req then { x with cores := x.cores.filter (· ≠ core) } else x) = m.installs :=
    (List.map_congr_left fun x hx => if_neg (h x hx)).trans (List.map_id _)
  have hfind : m.installs.find? (fun (x : Install) => x.req.id == req && x.cores.isEmpty) = none := List.find?_eq_none.2 fun x hx hb => by
    rw [Bool.and_eq_true, beq_iff_eq] at hb
    exact h x hx hb.1
  rw [Mach.flipped]
  simp only [hmap, hfind]
/-- The machine with planes of a slot changed. -/
theorem setPlanes_eq (m : Mach) (core slot : Nat) (x : Planes) :
    m.setPlanes core slot x = m.modCore core (fun c => { c with planes := tset c.planes slot x }) := rfl
theorem flat_todo {ps : List (Nat × Planes)} (h : ∀ e ∈ ps, e.2.todo = []) : ((ps.map (fun e => e.2.todo)).flatten).map (·.1) = [] := by
  rw [List.map_eq_nil_iff, List.flatten_eq_nil_iff]
  intro l hl
  obtain ⟨e, he, rfl⟩ := List.mem_map.1 hl
  exact h e he

section
variable {core slot : Nat} {s : State} {req : Nat} {f : Fmt} {rest : List (Nat × Fmt)} (ht : (s.m.planes core slot).todo = (req, f) :: rest)
include ht

theorem formatInstall_begins (hw : (s.m.planes core slot).writing = none) : exec (.formatInstall core slot) s =
    if (s.m.core core).boundTo slot (1 - (s.m.planes core slot).cv) none then .fault .notEnabled
    else .next (withM s (s.m.setPlanes core slot { s.m.planes core slot with writing := some (s.clk.cycle + 2048) })) := by
  rw [exec_formatInstall]
  split
  · next hb =>
    refine s.event_fault _ ?_
    simp only [ht, List.head?_cons, Option.bind_eq_bind, Option.bind_some, hw]
    exact if_pos hb
  · next hb =>
    refine s.event_next _ ?_
    simp only [ht, List.head?_cons, Option.bind_eq_bind, Option.bind_some, hw]
    exact if_neg hb
theorem formatInstall_flips {till : Nat} (hw : (s.m.planes core slot).writing = some till) (hi : ∀ x ∈ s.m.installs, x.req.id ≠ req) :
    exec (.formatInstall core slot) s = if s.clk.cycle < till then .fault .notEnabled
      else .next (withM s (s.m.setPlanes core slot (if (s.m.planes core slot).cv = 0
        then { s.m.planes core slot with p1 := some f, cv := 1, todo := rest, writing := none }
        else { s.m.planes core slot with p0 := some f, cv := 0, todo := rest, writing := none }))) := by
  rw [exec_formatInstall]
  split
  · next hearly =>
    refine s.event_fault _ ?_
    simp only [ht, List.head?_cons, Option.bind_eq_bind, Option.bind_some, hw]
    exact if_pos hearly
  · next hdone =>
    refine s.event_next _ ?_
    simp only [ht, List.head?_cons, Option.bind_eq_bind, Option.bind_some, hw]
    refine (if_neg hdone).trans (congrArg some ?_)
    rw [flipped_none (m := s.m.setPlanes ..) hi]
    refine congrArg (s.m.setPlanes core slot) ?_
    split <;> rfl
end
theorem coreFunctionChange_passes {core vf : Nat} {s : State} (hvf : vf < 128) (hof : (s.m.core core).planesOf ≠ some vf) (hwg : ∀ e ∈ s.m.wgs, e.1 / 64 ≠ core)
    (hmats : (s.m.core core).mats = []) (hdrains : (s.m.core core).drains = []) (hcopies : (s.m.core core).copies = [])
    (htodo : ∀ e ∈ (s.m.core core).planes, e.2.todo = []) :
    exec (.coreFunctionChange core vf) s = .next (withM s (s.m.modCore core (fun c => { c with
      planes := ((s.m.fn vf).slots.filter (fun e => e.2.fmt.isSome)).map (fun e => (e.1, { p0 := e.2.fmt })), planesOf := some vf, stores := [], tlb := [] }))) := by
  have hidle : (s.m.wgsOf core).isEmpty = true := by
    rw [List.isEmpty_iff, Mach.wgsOf, List.map_eq_nil_iff, List.filter_eq_nil_iff]
    intro e he hb
    exact hwg e he (eq_of_beq hb)
  rw [exec_coreFunctionChange]
  refine s.event_next _ ?_
  simp only [hmats, hdrains, hcopies, hidle, hof, hvf, decide_true, List.isEmpty_nil, Bool.and_self, if_true, ne_eq, not_false_eq_true]
  unfold Mach.passCore
  simp only [flat_todo htodo, List.foldl_nil]
  exact congrArg some (if_neg hof)

/-! ## The serial phase (R400) -/

/-- A line whose bytes from `off` on are replaced reads as it did but there. -/
theorem onLine_read {mem : List Host.Cell} (hwf : Memory.wf mem = true) {pa : Nat} {data : List Byte} (hfit : pa % 128 + data.length ≤ 128) (a : Nat) :
    Memory.read (Memory.writeL mem (pa / 128 * 128) ((Memory.readN mem (pa / 128 * 128) 128).take (pa % 128) ++ data ++
      (Memory.readN mem (pa / 128 * 128) 128).drop (pa % 128 + data.length))) a =
      if pa ≤ a ∧ a < pa + data.length then data.getD (a - pa) 0 else Memory.read mem a := by
  have hlen : ((Memory.readN mem (pa / 128 * 128) 128).take (pa % 128) ++ data ++
      (Memory.readN mem (pa / 128 * 128) 128).drop (pa % 128 + data.length)).length = 128 := by
    simp only [List.length_append, List.length_take, List.length_drop, Memory.length_readN]
    omega
  by_cases hin : pa / 128 * 128 ≤ a ∧ a < pa / 128 * 128 + 128
  · obtain ⟨i, hi, rfl⟩ : ∃ i, i < 128 ∧ a = pa / 128 * 128 + i := ⟨a - pa / 128 * 128, by omega, by omega⟩
    have hget (j : Nat) (hj : j < 128) : (Memory.readN mem (pa / 128 * 128) 128)[j]? = some (Memory.read mem (pa / 128 * 128 + j)) :=
      Memory.readN_get mem _ 128 j hj
    refine Option.some.inj ?_
    rw [Memory.read_writeL_in mem _ _ i hwf (by rw [hlen]; exact hi), ← List.getElem?_eq_getElem, List.append_assoc, List.getElem?_append, List.length_take,
      Memory.length_readN, Nat.min_eq_left (by omega), List.getElem?_append]
    by_cases hlow : i < pa % 128
    · rw [if_pos hlow, List.getElem?_take_of_lt hlow, hget i hi, if_neg (by omega)]
    · rw [if_neg hlow]
      by_cases hmid : i - pa % 128 < data.length
      · rw [if_pos hmid, if_pos (by omega), List.getElem?_eq_getElem hmid, List.getD_eq_getElem _ _ (by omega)]
        congr 2
        omega
      · rw [if_neg hmid, if_neg (by omega), List.getElem?_drop, show pa % 128 + data.length + (i - pa % 128 - data.length) = i by omega, hget i hi]
  · rw [Memory.read_writeL_out mem _ _ a hwf (by rw [hlen]; omega), if_neg (by omega)]

/-- Threads of a launch that wait for held operations look again. -/
def lookAgain (m : Mach) (vf launch : Nat) : Mach := { m with wgs := m.wgs.map (fun (e : Nat × Wg) =>
  if e.2.vf = vf ∧ e.2.launch = launch then
    (e.1, { e.2 with threads := e.2.threads.map (fun t => if t.status == .waiting .held then { t with status := .ready } else t) })
  else e) }
/-- The line of a store as the serial phase leaves it. -/
def storedLine (mem : List Host.Cell) (o : OrdOp) : List Byte :=
  (Memory.readN mem (o.pa / 128 * 128) 128).take (o.pa % 128) ++ o.data ++ (Memory.readN mem (o.pa / 128 * 128) 128).drop (o.pa % 128 + o.data.length)

/-- A store of a launch that owns no line goes to memory. -/
theorem applyOp_store {m : Mach} {vf id : Nat} {l : Launch} {o : OrdOp} (hl : m.launch? vf id = some l) (hown : l.own = []) (hop : o.op = 0)
    (hm : m.Unarmed) (hnone : tget (m.core o.core).l1 (lineOf o.pa) = none) :
    ∃ old cs, m.applyOp vf id o = (old, { m with cores := cs, mem := Memory.writeL m.mem (o.pa / 128 * 128) (storedLine m.mem o) }) := by
  have hdrop : ∃ cs, m.dropLine o.core (lineOf o.pa) = { m with cores := cs } := by
    rw [Mach.dropLine, Mach.writeBack, hnone]
    exact ⟨_, rfl⟩
  obtain ⟨cs, hcs⟩ := hdrop
  have hl' : ({ m with cores := cs } : Mach).launch? vf id = some l := hl
  have hget : tget l.own (lineOf o.pa) = none := by rw [hown]; rfl
  have hline : (o.onLine (Memory.readN m.mem (o.pa / 128 * 128) 128)).1 = storedLine m.mem o := by
    rw [OrdOp.onLine]
    simp only [hop, if_true]
    rfl
  refine ⟨(o.onLine (Memory.readN m.mem (o.pa / 128 * 128) 128)).2, cs, ?_⟩
  unfold Mach.applyOp
  simp only [hcs, hl', hget, Option.getD_none]
  refine Prod.ext rfl ?_
  rw [← hline]
  exact Mach.hitLines_unarmed (m := { m with cores := cs, mem := _ }) hm _

section
variable {vf : Nat} {s : State} {l : Launch} {o : OrdOp} (hl : s.m.launch? vf l.id = some l) (hheld : l.held = [o]) (hown : l.own = [])
include hl hheld hown

omit hheld in
theorem serialApply_stores (hload : o.load = none) (hop : o.op = 0) (hm : NoMonitor s) (hl1 : (s.m.core o.core).l1 = []) :
    ∃ cs, s.m.serialApply vf l.id o = { s.m.modLaunch vf l.id (fun l => { l with held := unspill (l.held.filter (· ≠ o)) (o.pa / 2 ^ 37) }) with
        cores := cs, mem := Memory.writeL s.m.mem (o.pa / 128 * 128) (storedLine s.m.mem o) } := by
  have hlaunch := Mach.launch?_modLaunch (fun l => { l with held := unspill (l.held.filter (· ≠ o)) (o.pa / 2 ^ 37) }) (fun _ => rfl) hl
  obtain ⟨old, cs, happly⟩ := applyOp_store (m := s.m.modLaunch ..) hlaunch hown hop hm (show tget (s.m.core o.core).l1 (lineOf o.pa) = none by rw [hl1]; rfl)
  refine ⟨cs, ?_⟩
  unfold Mach.serialApply
  dsimp only
  rw [happly, hload]
  rfl

omit hown hl in
theorem unheld_next (hmay : s.m.canPrecede vf l.id l o = false) : s.m.serialNext? vf l = some o := by
  rw [Mach.serialNext?, hheld]
  simp only [List.foldl_nil, hmay, Bool.false_eq_true, if_false]
omit hl hown in
theorem unspill_last : unspill (l.held.filter (· ≠ o)) (o.pa / 2 ^ 37) = [] := by
  rw [hheld, List.filter_cons_of_neg (by simp)]
  rfl
/-- The one held operation of a launch is performed, and the launch holds none. -/
theorem serialPhaseApply_last (hload : o.load = none) (hop : o.op = 0) (hmay : s.m.canPrecede vf l.id l o = false) (hm : NoMonitor s)
    (hl1 : (s.m.core o.core).l1 = []) : ∃ u l', exec (.serialPhaseApply vf l.id) s = .next u ∧ u.m.launch? vf l.id = some l' ∧ l'.held = [] ∧
      u.m.mem = Memory.writeL s.m.mem (o.pa / 128 * 128) (storedLine s.m.mem o) := by
  obtain ⟨cs, hcs⟩ := serialApply_stores hl hown hload hop hm hl1
  have hlaunch := Mach.launch?_modLaunch (fun l => { l with held := unspill (l.held.filter (· ≠ o)) (o.pa / 2 ^ 37) }) (fun _ => rfl) hl
  have hprune := Mach.launch?_modLaunch (m := s.m.serialApply vf l.id o) Launch.prune (fun _ => rfl) (by rw [hcs]; exact hlaunch)
  have hgrow : ((s.m.serialApply vf l.id o).modLaunch vf l.id Launch.prune).growLog s.clk vf l.id = (s.m.serialApply vf l.id o).modLaunch vf l.id Launch.prune := by
    rw [Mach.growLog, hprune]
    refine if_pos ?_
    rw [Launch.logRecords, Launch.prune]
    simp only [unspill_last hheld, hown, List.filter_nil, List.map_nil, List.length_nil, List.foldl_nil]
    exact Nat.zero_le _
  have hrun : exec (.serialPhaseApply vf l.id) s = .next (withM s (lookAgain ((s.m.serialApply vf l.id o).modLaunch vf l.id Launch.prune) vf l.id)) := by
    rw [exec_serialPhaseApply]
    refine s.event_next _ ?_
    simp only [hl, unheld_next hheld hmay, Option.bind_eq_bind, Option.bind_some, hgrow]
    rfl
  exact ⟨_, _, hrun, hprune, unspill_last hheld, congrArg Mach.mem hcs⟩
end

end Sys2Proof.Claims
end

section
open Sys2Proof Sys2Proof.Machine Sys2Proof.Claims

/-- Settles O46. -/
theorem slotEvents : Obligations.SlotEvents := by
  intro vf core slot s
  refine ⟨fun q qs pa hl hturn hq hfw => ⟨fun c hhead hc hw => ?_, fun n f hhead hfw' hcheck hcores hw => ?_⟩, fun hne hturn => ?_,
    ⟨fun req f rest ht => ⟨fun hw => formatInstall_begins ht hw, fun till hw hi => formatInstall_flips ht hw hi⟩, fun ht => ?_⟩,
    fun hvf hof hwg hmats hdrains hcopies htodo => coreFunctionChange_passes hvf hof hwg hmats hdrains hcopies htodo,
    fun l o hl hheld hown hload hop hmay hm hl1 hfit hne hwf => ?_, fun l hl hheld => ?_⟩
  · obtain ⟨y, hy⟩ := readRecord_headless (q := q) hfw hhead
    obtain ⟨-, -, -, -, hfn⟩ := answerLoadReq_keeps (m := ((loaderAt s.m vf y).dropLoad vf q.id).logErr s.clk vf 3 2 0 65535 0 q.addr)
      (logErr_wgs_nil (m := (loaderAt s.m vf y).dropLoad vf q.id) hw ..) vf q 2
    obtain ⟨hloads, hslots, hlog⟩ := hfn vf
    have hlogged := Mach.logErr_fn ((loaderAt s.m vf y).dropLoad vf q.id) s.clk vf 3 2 0 65535 0 q.addr
    have hdrop : ((loaderAt s.m vf y).dropLoad vf q.id).fn vf = { s.m.fn vf with loads := (s.m.fn vf).loads.filter (·.id ≠ q.id) } :=
      (Mach.modFn_fn ..).trans rfl
    refine ⟨_, _, loaderRequest_judged hl hturn hq hy, hloads.trans ?_, hslots.trans ?_, (congrArg List.getLast? hlog).trans ((congrArg (fun f => List.getLast? (Fn.log f)) hlogged).trans (Fn.logged_getLast? ..)), rfl, rfl, rfl⟩
    · rw [hlogged, logged_loads, hdrop, ← hl]
    · rw [hlogged, logged_slots, hdrop]
  · obtain ⟨y, hy⟩ := readRecord_reads (q := q) hfw hhead hfw'
    rw [hcheck] at hy
    obtain ⟨hloads, hmem, hlast, hslots⟩ := acceptLoad_table (m := loaderAt s.m vf y) (vf := vf) hw hcores q f
    exact ⟨_, loaderRequest_judged hl hturn hq hy, hloads.trans (congrArg (List.filter _) hl), hmem, hlast, hslots⟩
  · obtain ⟨q, qs, hq⟩ := List.exists_cons_of_ne_nil hne
    rw [exec_loaderRequest]
    refine s.event_fault _ ?_
    simp only [hq, List.head?_cons, Option.bind_eq_bind, Option.bind_some]
    exact if_pos hturn
  · rw [exec_formatInstall]
    refine s.event_fault _ ?_
    simp only [show (s.m.planes core slot).todo = [] from ht, List.head?_nil, Option.bind_eq_bind, Option.bind_none]
  · obtain ⟨u, l', hu, hl', hnone, hmem⟩ := serialPhaseApply_last hl hheld hown hload hop hmay hm hl1
    exact ⟨u, hu, ⟨l', hl', hnone⟩, fun a => (congrArg (Memory.read · a) hmem).trans (onLine_read hwf hfit a)⟩
  · rw [exec_serialPhaseApply]
    refine s.event_fault _ ?_
    simp only [hl, Mach.serialNext?, hheld, Option.bind_eq_bind, Option.bind_some, Option.bind_none]
end

section
/-! SUPPORT. The table commands: set entries (R447) and translate (R460 to R463). -/
namespace Sys2Proof.Claims
open Sys2Proof.Machine

theorem exec_setEntries (c : Cmd) (base count flags array : Nat) (s : State) :
    exec (.setEntries c base count flags array) s = execSetEntries c base count flags array s := rfl
theorem exec_translate (c : Cmd) (module binding code : Nat) (s : State) :
    exec (.translate c module binding code) s = execTranslate c module binding code s := rfl
theorem exec_translateDelayedComplete (c : Cmd) (s : State) :
    exec (.translateDelayedComplete c) s = execTranslateDelayedComplete c s := rfl

/-! ## One entry (R447) -/

theorem bit_eq_mod (e i : Nat) : (field e i 1 == 1) = decide (e / 2 ^ i % 2 = 1) := rfl
theorem takesAway_of_invalid {old : Nat} (new : Nat) (h : old % 2 = 0) : takesAway old new = false := by
  have hv : eV old = false := by rw [eV, bit_eq_mod, pow_zero, Nat.div_one, h]; rfl
  rw [takesAway, hv, Bool.false_and]
theorem takesAway_of_invalidated {old new : Nat} (h : old % 2 = 1) (hn : new % 2 = 0) : takesAway old new = true := by
  have hv : eV old = true := by rw [eV, bit_eq_mod, pow_zero, Nat.div_one, h]; rfl
  have hgone : eV new = false := by rw [eV, bit_eq_mod, pow_zero, Nat.div_one, hn]; rfl
  simp only [takesAway, hv, hgone, Bool.not_false, Bool.true_and, Bool.true_or]
/-- The pages that a written entry names are no longer free. -/
theorem namesPage_eq (e p : Nat) : namesPage e p = decide ((e % 2 = 1 ∨ e / 2 ^ 76 % 4 = 1) ∧ e / 2 ^ 75 % 2 = 0 ∧
    if e / 4 % 2 = 1 then p / 512 = e / 2 ^ 16 % 2 ^ 36 / 512 else p = e / 2 ^ 16 % 2 ^ 36) := by
  rw [Bool.eq_iff_iff, decide_eq_true_iff, namesPage, eStands, eV, eRM, eL, ePol, eFrame]
  simp only [Bool.and_eq_true, Bool.or_eq_true, beq_iff_eq, Bool.not_eq_true', beq_eq_false_iff_ne, field, pow_zero, Nat.div_one, and_assoc]
  refine and_congr Iff.rfl (and_congr ?_ ?_)
  · rw [pow_one]; omega
  · rw [show e / 4 = e / 2 ^ 2 from rfl, pow_one]
    split <;> simp
/-- An entry keeps its frame when none is allocated. -/
theorem entry_own_frame (e : Nat) : e - eFrame e * 65536 + eFrame e * 65536 = e := by
  have hle : eFrame e * 65536 ≤ e := by
    have hmod : e / 2 ^ 16 % 2 ^ 36 ≤ e / 2 ^ 16 := Nat.mod_le ..
    rw [eFrame, field]
    omega
  omega

/-- The machine after entry `e` has been written at `a`. -/
def entryWritten (m : Mach) (vf a e : Nat) : Mach :=
  (m.putEntry a e).modFn vf (fun f => { f with evicted := terase f.evicted a, freePages := f.freePages.filter (fun p => !namesPage e p) })
theorem entryWritten_fn (m : Mach) (vf a e : Nat) : (entryWritten m vf a e).fn vf =
    { m.fn vf with evicted := terase (m.fn vf).evicted a, freePages := (m.fn vf).freePages.filter (fun p => !namesPage e p) } := Mach.modFn_fn ..
theorem entryWritten_physNat {m : Mach} (h : Memory.wf m.mem = true) (vf a : Nat) {e : Nat} (he : e < 256 ^ 16) :
    (entryWritten m vf a e).physNat a 16 = e := by
  have hread : Memory.readN (Memory.writeL m.mem a (leBytes 16 e)) a 16 = leBytes 16 e := by
    have h16 := Memory.readN_writeL m.mem a (leBytes 16 e) h
    rwa [length_leBytes] at h16
  have hnat : (entryWritten m vf a e).physNat a 16 = leNat (Memory.readN (Memory.writeL m.mem a (leBytes 16 e)) a 16) := rfl
  rw [hnat, hread, leNat_leBytes, Nat.mod_eq_of_lt he]
/-- One entry is written where its page's stands. -/
theorem writeEntries_one {m : Mach} {vf basePage a : Nat} (e : Nat) (hb : m.buildTo vf (basePage * 65536 % 2 ^ 80) = some (a, m)) :
    m.writeEntries vf basePage false 0 0 [e] = some (takesAway (m.physNat a 16) e, [(0, m.physNat a 16)], entryWritten m vf a e) := by
  simp only [Mach.writeEntries, Nat.add_zero, hb, Option.bind_eq_bind, Option.bind_some, Bool.false_and, Bool.not_false, if_true, entry_own_frame,
    Bool.or_false]
  rfl
/-- A page whose entry counts no migration is not noted. -/
theorem noteMoves_one {m : Mach} {vf basePage a : Nat} (clk : Clock) (ha : entryAt m vf (basePage * 65536 % 2 ^ 80) = some a)
    (hc : m.physNat a 16 / 2 ^ 10 % 8 = 0) : m.noteMoves clk vf basePage 1 = m := by
  have hcount : (eV (m.physNat a 16) && field (m.physNat a 16) 10 3 != 0) = false := by
    rw [show field (m.physNat a 16) 10 3 = 0 from hc]
    exact Bool.and_false _
  simp only [Mach.noteMoves, upFrom, List.foldl_cons, List.foldl_nil, Nat.add_zero, ha, hcount, Bool.false_eq_true, if_false]

/-! ## Set entries (R234, R447) -/

section
variable {s : State} {c : Cmd} (ha : Active s c)
include ha

theorem setEntries_malformed {base count flags : Nat} (array : Nat) (h : base % 65536 ≠ 0 ∨ count = 0 ∨ 4096 < count ∨ 3 < flags) :
    Ends (.setEntries c base count flags array) s c 0x0D 1 0 s.m := by
  have hbad : base % 65536 ≠ 0 ∨ count = 0 ∨ 4096 < count ∨ 4 ≤ flags := h
  exact (vfCmd_active (o := execSetEntries c base count flags array s) rfl ha).trans (by rw [if_pos hbad])

/-- The entries that a command names. -/
def entriesOf (s : State) (count array : Nat) : List Nat :=
  (List.range count).map (fun i => leNat (HostMem.readN s.m.host (array + 16 * i) 16))
omit ha in
theorem upFrom_zero (n : Nat) : upFrom 0 n = List.range n := by rw [upFrom_eq_range', List.range_eq_range']
omit ha in
theorem testBit_zero_eq (n : Nat) : n.testBit 0 = decide (n % 2 = 1) := by rw [Nat.testBit_zero]

section
variable {base count flags array : Nat} (hb : base % 65536 = 0) (h0 : 0 < count) (hc : count ≤ 4096) (hf : flags ≤ 3)
include hb h0 hc hf

theorem setEntries_wellFormed : exec (.setEntries c base count flags array) s = .next (withM s (
    match (List.range count).find? (fun i => !s.m.entryOk c.ring (decide (flags % 2 = 1)) (entriesOf s count array) (base / 65536) i) with
    | some i => s.m.finish c 0x0D 5 i
    | none =>
      match s.m.writeEntries c.ring (base / 65536) (decide (flags % 2 = 1)) 0 0 (entriesOf s count array) with
      | none => s.m.finish c 0x0D 4 0
      | some (gone, olds, m) =>
        let m := m.noteMoves s.clk c.ring (base / 65536) count
        let release := if flags.testBit 1 then m.unmapped c.ring (base / 65536) olds else []
        if gone then m.submitInv { vf := c.ring, base, count, seq := 0, word := none, cmd := some (c, 0x0D), release }
        else (if release.isEmpty then m else m.releasePages c.ring release).finish c 0x0D 0 0)) := by
  have hgood : ¬(base % 65536 ≠ 0 ∨ count = 0 ∨ 4096 < count ∨ 4 ≤ flags) := by omega
  refine (vfCmd_active (o := execSetEntries c base count flags array s) rfl ha).trans ?_
  rw [if_neg hgood]
  simp only [upFrom_zero, testBit_zero_eq] <;> rfl
/-- The first entry that fails its checks is named. -/
theorem setEntries_refused {i : Nat} (hi : i < count)
    (hbad : s.m.entryOk c.ring (decide (flags % 2 = 1)) (entriesOf s count array) (base / 65536) i = false)
    (hgood : ∀ j, j < i → s.m.entryOk c.ring (decide (flags % 2 = 1)) (entriesOf s count array) (base / 65536) j = true) :
    Ends (.setEntries c base count flags array) s c 0x0D 5 i s.m := by
  have hfind : (List.range count).find? (fun i => !s.m.entryOk c.ring (decide (flags % 2 = 1)) (entriesOf s count array) (base / 65536) i) = some i := by
    rw [List.find?_range_eq_some]
    exact ⟨by rw [hbad]; rfl, List.mem_range.2 hi, fun j hj => by rw [hgood j hj]; rfl⟩
  rw [Ends, setEntries_wellFormed ha hb h0 hc hf, hfind]
end

section
variable {base array a e : Nat} (hb : base % 65536 = 0) (he : entriesOf s 1 array = [e]) (hok : s.m.entryOk c.ring false [e] (base / 65536) 0 = true)
  (hbuild : s.m.buildTo c.ring (base % 2 ^ 80) = some (a, s.m)) (hcount : e / 2 ^ 10 % 8 = 0) (hwf : Memory.wf s.m.mem = true)
  (hat : entryAt (entryWritten s.m c.ring a e) c.ring (base % 2 ^ 80) = some a)
include hb he hok hbuild hcount hwf hat

/-- One entry that passes its checks is written; taking something away goes through the hub. -/
theorem setEntries_one : exec (.setEntries c base 1 0 array) s = .next (withM s (
    if takesAway (s.m.physNat a 16) e then
      (entryWritten s.m c.ring a e).submitInv { vf := c.ring, base, count := 1, seq := 0, word := none, cmd := some (c, 0x0D), release := [] }
    else (entryWritten s.m c.ring a e).finish c 0x0D 0 0)) := by
  have hpage : base / 65536 * 65536 = base := by omega
  have hsmall : e < 256 ^ 16 := by
    have hbytes (n x : Nat) : (HostMem.readN s.m.host x n).length = n := by
      induction n generalizing x with
      | zero => rfl
      | succ n ih => rw [HostMem.readN, List.length_cons, ih]
    have hlt := leNat_lt (HostMem.readN s.m.host (array + 16 * 0) 16)
    rw [hbytes] at hlt
    have hval : [leNat (HostMem.readN s.m.host (array + 16 * 0) 16)] = [e] := he
    rwa [List.singleton_inj.1 hval] at hlt
  have hwrite := writeEntries_one e (hpage.symm ▸ hbuild : s.m.buildTo c.ring (base / 65536 * 65536 % 2 ^ 80) = some (a, s.m))
  have hnote : (entryWritten s.m c.ring a e).noteMoves s.clk c.ring (base / 65536) 1 = entryWritten s.m c.ring a e := by
    refine noteMoves_one s.clk (by rw [hpage]; exact hat) ?_
    rw [entryWritten_physNat hwf _ _ hsmall, hcount]
  have hfind : (List.range 1).find? (fun i => !s.m.entryOk c.ring (decide (0 % 2 = 1)) [e] (base / 65536) i) = none :=
    List.find?_eq_none.2 fun i hi => by
      obtain rfl : i = 0 := by rw [List.mem_range] at hi; omega
      rw [show decide (0 % 2 = 1) = false from rfl, hok]
      decide
  rw [setEntries_wellFormed ha hb (by decide) (by decide) (by decide), he, hfind]
  dsimp only
  rw [show decide (0 % 2 = 1) = false from rfl, hwrite]
  dsimp only
  rw [hnote]
  rfl
end
end

/-! ## What a completion and a write of firmware's leave of the images and the hub -/

theorem writeCompls_images_hub (vf : Nat) : ∀ (n : Nat) (m : Mach), (m.writeCompls vf n).images = m.images ∧ (m.writeCompls vf n).hub = m.hub := by
  intro n
  induction n with
  | zero => exact fun _ => ⟨rfl, rfl⟩
  | succ n ih =>
    intro m
    rw [Mach.writeCompls]
    split
    · exact ⟨rfl, rfl⟩
    · split
      · exact ⟨rfl, rfl⟩
      · rw [(ih _).1, (ih _).2]
        split
        · unfold Mach.postHost
          split <;> exact ⟨rfl, rfl⟩
        · exact ⟨rfl, rfl⟩
theorem finish_images (m : Mach) (c : Cmd) (op st x : Nat) : (m.finish c op st x).images = m.images := (writeCompls_images_hub ..).1
theorem finish_hub (m : Mach) (c : Cmd) (op st x : Nat) : (m.finish c op st x).hub = m.hub := (writeCompls_images_hub ..).2
theorem bulkWrite_fwPart_images_hub {m : Mach} (h : (m.core ioDie).l1 = []) (hm : m.Unarmed) (va pa kind : Nat) (bs : List Byte) :
    (m.bulkWrite ioDie [fwPart va bs.length pa kind] bs).images = m.images ∧ (m.bulkWrite ioDie [fwPart va bs.length pa kind] bs).hub = m.hub := by
  obtain ⟨cs, x, hx, -⟩ := Mach.dropLines_of_empty h (linesOf pa bs.length)
  obtain ⟨y, hy⟩ := Mach.l2Write_unarmed (m := { m with cores := cs, access := x }) hm pa bs
  simp only [Mach.bulkWrite, fwPart, hx, List.take_length]
  rw [hy]
  exact ⟨rfl, rfl⟩

/-! ## Translation (R460 to R463) -/

/-- What firmware reads of a readable range. -/
theorem Readable.fwBytesAt {s : State} {vf va n : Nat} {bs : List Byte} (h : Readable s vf va n bs) : s.m.fwBytesAt vf va n = some bs := by
  obtain ⟨pa, hat, rfl⟩ := h
  obtain ⟨kind, hps⟩ := hat.fwAccess
  obtain ⟨x, hx⟩ := Mach.bulkRead_fwPart hat.ioDie_empty va n pa kind
  rw [Mach.fwBytesAt, hps]
  dsimp only
  rw [hx]
theorem fwBytesAt_unmapped {m : Mach} {vf va n : Nat} (hn : 0 < n) (hp : va % 65536 + n ≤ 65536) (ht : Machine.translate m vf va .read = .noTranslation) :
    m.fwBytesAt vf va n = none := by
  have hmissing : m.fwAccess vf va n [.read] = .missing va 1 0 := by
    rw [Mach.fwAccess, spansOf_one hn hp]
    simp only [List.map_cons, List.map_nil, List.foldl_cons, List.foldl_nil, ht]
    rfl
  rw [Mach.fwBytesAt, hmissing]

/-- The machine with an image that function `vf` sees from now on. -/
def imageUsed (m : Mach) (clk : Clock) (vf : Nat) (img : TrImage) : Mach :=
  { m with images := { img with mask := img.mask ||| 2 ^ vf, used := clk.time } :: m.images.filter (fun i => i.key ≠ img.key) }

section
variable {s : State} {c : Cmd} (ha : Active s c) {module binding code : Nat}
include ha

/-- A module that is not mapped cannot be read. -/
theorem translate_unmapped (ht : Machine.translate s.m c.ring module .read = .noTranslation) (hp : module % 65536 + 64 ≤ 65536) :
    Ends (.translate c module binding code) s c 0x0C 5 1 s.m := by
  refine (vfCmd_active (o := execTranslate c module binding code s) rfl ha).trans ?_
  dsimp only
  rw [fwBytesAt_unmapped (by decide) hp ht]

section
variable {h block md : List Byte} (hh : Readable s c.ring module 64 h) (hb : Readable s c.ring binding 536 block)
  (hmd : Readable s c.ring module (max 64 (Config.moduleLength h)) md)
include hh hb

theorem translate_misaligned (hcode : code % 65536 ≠ 0) : Ends (.translate c module binding code) s c 0x0C 5 1 s.m := by
  refine (vfCmd_active (o := execTranslate c module binding code s) rfl ha).trans ?_
  dsimp only
  rw [hh.fwBytesAt, hb.fwBytesAt]
  dsimp only
  rw [if_neg hcode]

include hmd
/-- What the translator refuses is refused under its number. -/
theorem translate_refused (hcode : code % 65536 = 0) (hr : s.m.translateRefusal c.ring md block ≠ 0) :
    Ends (.translate c module binding code) s c 0x0C 5 (s.m.translateRefusal c.ring md block) s.m := by
  refine (vfCmd_active (o := execTranslate c module binding code s) rfl ha).trans ?_
  dsimp only
  rw [hh.fwBytesAt, hb.fwBytesAt]
  dsimp only
  rw [if_pos hcode, hmd.fwBytesAt]
  dsimp only
  split
  · next hzero => exact absurd hzero hr
  · rfl

section
variable (hcode : code % 65536 = 0) (hr : s.m.translateRefusal c.ring md block = 0) (hm : NoMonitor s) {img : TrImage}
  (hfind : s.m.images.find? (fun i => i.key == leNat (sha256 (sha256 md ++ block.take 528 ++ leBytes 8 Config.translatorVersion))) = some img)
  (himg : img.code = []) {pa : Nat}
  (hat : FwAt s c.ring (leNat ((block.drop 512).take 16) % 2 ^ 80) (Config.translateHeaders md block (slotDigests s c.ring) code).length [.write] pa)
include hcode hr hm hfind himg hat

/-- An image that stands already is used: its headers are written, and the answer waits when the function has not seen it yet. -/
theorem translate_hit : ∃ m, s.m.Stored m pa (Config.translateHeaders md block (slotDigests s c.ring) code) ∧ m.images = s.m.images ∧
    exec (.translate c module binding code) s = .next (withM s (
      if img.mask.testBit c.ring then (imageUsed m s.clk c.ring img).finish c 0x0C 0 0
      else (imageUsed m s.clk c.ring img).modFn c.ring (fun f => { f with translating := f.translating ++ [(c, s.clk.time + img.took)] }))) := by
  obtain ⟨kind, hps⟩ := hat.fwAccess
  have hkey : img.key = leNat (sha256 (sha256 md ++ block.take 528 ++ leBytes 8 Config.translatorVersion)) := by
    simpa using List.find?_some hfind
  have hmap : s.m.mapCode c.ring code ((img.code.length + 65535) / 65536) img.code = some s.m := by rw [himg]; rfl
  have hslots : (upFrom 0 16).map (fun n => if n < 3 then some (Config.romDigest n) else ((s.m.fn c.ring).slotEntry n).fmt.map (·.digest)) =
      slotDigests s c.ring := rfl
  have hva : numAt block 512 16 % 2 ^ 80 = leNat ((block.drop 512).take 16) % 2 ^ 80 := rfl
  refine ⟨_, Mach.bulkWrite_fwPart hat.ioDie_empty hm (numAt block 512 16 % 2 ^ 80) pa kind rfl,
    (bulkWrite_fwPart_images_hub hat.ioDie_empty hm _ pa kind _).1, ?_⟩
  refine (vfCmd_active (o := execTranslate c module binding code s) rfl ha).trans ?_
  dsimp only
  rw [hh.fwBytesAt, hb.fwBytesAt]
  dsimp only
  rw [if_pos hcode, hmd.fwBytesAt]
  dsimp only
  rw [hr, hfind]
  simp only [Option.isSome_some, if_true, Option.getD_some, hmap, hslots, hva, hps]
  rw [imageUsed, hkey]
  cases img.mask.testBit c.ring <;> rfl
end
end
end

end Sys2Proof.Claims
end

section
/-! SUPPORT. What a translation that found its image leaves, and the answer that waited (R460, R463). -/
namespace Sys2Proof.Claims
open Sys2Proof.Machine

/-- Host memory and the functions after an image has been used: the answer is given, or waits its stored translation time. -/
theorem imageUsed_answers {m m' : Mach} {pa : Nat} {bs : List Byte} (h : m.Stored m' pa bs) (hi : m'.images = m.images) (clk : Clock) (c : Cmd) (img : TrImage) :
    let n := if img.mask.testBit c.ring then (imageUsed m' clk c.ring img).finish c 0x0C 0 0
      else (imageUsed m' clk c.ring img).modFn c.ring (fun f => { f with translating := f.translating ++ [(c, clk.time + img.took)] })
    n.mem = Memory.writeL m.mem pa bs ∧
      n.images = { img with mask := img.mask ||| 2 ^ c.ring, used := clk.time } :: m.images.filter (fun i => i.key ≠ img.key) ∧
      (img.mask.testBit c.ring = true → n.fns = (m.finish c 0x0C 0 0).fns ∧ n.host = (m.finish c 0x0C 0 0).host) ∧
      (img.mask.testBit c.ring = false →
        n.fns = (m.setFn c.ring { m.fn c.ring with translating := (m.fn c.ring).translating ++ [(c, clk.time + img.took)] }).fns ∧ n.host = m.host) := by
  intro n
  have himages : (imageUsed m' clk c.ring img).images =
      { img with mask := img.mask ||| 2 ^ c.ring, used := clk.time } :: m.images.filter (fun i => i.key ≠ img.key) := by
    rw [imageUsed, hi]
  by_cases hseen : img.mask.testBit c.ring = true
  · have hn : n = (imageUsed m' clk c.ring img).finish c 0x0C 0 0 := if_pos hseen
    obtain ⟨hmem, -, -⟩ := Mach.finish_frame (imageUsed m' clk c.ring img) c 0x0C 0 0
    refine ⟨?_, ?_, fun _ => ?_, fun hnew => absurd (hseen.symm.trans hnew) (by decide)⟩
    · rw [hn, hmem]
      exact h.mem
    · rw [hn, finish_images, himages]
    · rw [hn]
      exact Mach.finish_congr (m := m) (m' := imageUsed m' clk c.ring img) h.fns h.host c 0x0C 0 0
  · have hn : n = (imageUsed m' clk c.ring img).modFn c.ring (fun f => { f with translating := f.translating ++ [(c, clk.time + img.took)] }) :=
      if_neg hseen
    refine ⟨?_, ?_, fun hs => absurd hs hseen, fun _ => ?_⟩
    · rw [hn]
      exact h.mem
    · rw [hn]
      exact himages
    · rw [hn]
      exact ⟨Mach.modFn_fns_congr (m := m) (m' := imageUsed m' clk c.ring img) h.fns c.ring _, h.host⟩

section
variable {s : State} {c : Cmd}

/-- A delayed answer is given when its time has passed. -/
theorem translateDelayedComplete_one {t : Nat} (h : (s.m.fn c.ring).translating = [(c, t)]) :
    (t ≤ s.clk.time → Ends (.translateDelayedComplete c) s c 0x0C 0 0 (fnNow s c.ring { s.m.fn c.ring with translating := [] })) ∧
    (s.clk.time < t → exec (.translateDelayedComplete c) s = .fault .notEnabled) := by
  rw [Ends, exec_translateDelayedComplete]
  refine ⟨fun ht => s.event_next _ ?_, fun ht => s.event_fault _ ?_⟩
  · have hfind : [(c, t)].find? (fun e => e.1 == c && decide (e.2 ≤ s.clk.time)) = some (c, t) := by simp [ht]
    have hrest : [(c, t)].filter (· ≠ (c, t)) = [] := by simp
    rw [h, hfind]
    simp only [Option.bind_eq_bind, Option.bind_some, Mach.modFn, h, hrest]
    rfl
  · have hfind : [(c, t)].find? (fun e => e.1 == c && decide (e.2 ≤ s.clk.time)) = none := by simp [ht]
    rw [h, hfind]
    rfl
/-- A command that waits for no translation has none to end. -/
theorem translateDelayedComplete_absent (h : ∀ e ∈ (s.m.fn c.ring).translating, e.1 ≠ c) :
    exec (.translateDelayedComplete c) s = .fault .notEnabled := by
  rw [exec_translateDelayedComplete]
  refine s.event_fault _ ?_
  have hfind : (s.m.fn c.ring).translating.find? (fun e => e.1 == c && decide (e.2 ≤ s.clk.time)) = none :=
    List.find?_eq_none.2 fun e he => by simp [h e he]
  rw [hfind]
  rfl
end

end Sys2Proof.Claims
end

section
open Sys2Proof Sys2Proof.Machine Sys2Proof.Claims

/-- Settles O52. The statuses for what R447 and R461 do not number (log 81) are the model's, and the translator stays an opaque function of the
module's and the bindings' bytes (log 11). -/
theorem tableCommands : Obligations.TableCommands := by
  intro c base count flags array module binding code s f
  refine ⟨vfCmd_guarded (o := execSetEntries c base count flags array s) rfl, vfCmd_guarded (o := execTranslate c module binding code s) rfl,
    fun ha => ⟨setEntries_malformed ha array, fun hb h0 hc hf => ⟨fun i hi hbad hgood => setEntries_refused ha hb h0 hc hf hi hbad hgood, ?_⟩,
      translate_unmapped ha, fun h block md hh hbl hmd => ⟨translate_misaligned ha hh hbl, translate_refused ha hh hbl hmd, ?_⟩⟩,
    fun t ht => translateDelayedComplete_one ht, translateDelayedComplete_absent⟩
  · rintro a e rfl rfl he hok hbuild hcount hwf
    intro old page names wrote hat
    have hwrote : entryWritten s.m c.ring a e = wrote := by
      have hnames (p : Nat) : (!namesPage e p) = decide (¬names p = true) := by rw [namesPage_eq, decide_not, Bool.decide_eq_true]
      simp only [entryWritten, hnames]
      rfl
    have hrun := setEntries_one ha hb he (he ▸ hok) hbuild hcount hwf (hwrote ▸ hat)
    rw [hwrote] at hrun
    refine ⟨fun hkeep => hrun.trans (by rw [hkeep]; rfl), fun hgone hd => ?_, takesAway_of_invalid e, takesAway_of_invalidated⟩
    rw [hgone, if_pos rfl] at hrun
    have hfn : wrote.fn c.ring = { f with evicted := terase f.evicted a, freePages := f.freePages.filter (fun p => ¬names p) } := Mach.setFn_fn ..
    rw [hrun, Mach.submitInv_local (by rw [hfn]; exact hd)]
    dsimp only
    rw [hfn]
    rfl
  · intro img pa hcode hr hm hfind himg headers hat
    obtain ⟨m, hstored, himages, hrun⟩ := translate_hit ha hh hbl hmd hcode hr hm hfind himg hat
    exact ⟨_, hrun, imageUsed_answers hstored himages s.clk c img⟩
end

section
/-! SUPPORT. Invalidations (R234, R235, R416): what a die drops and walks again, and the end of a request. -/
namespace Sys2Proof.Claims
open Sys2Proof.Machine

theorem exec_invalidationBroadcast (die : Nat) (s : State) : exec (.invalidationBroadcast die) s = execInvalidationBroadcast die s := rfl
theorem exec_invalidationComplete (s : State) : exec .invalidationComplete s = execInvalidationComplete s := rfl

/-- What a table with rising keys holds after some of its entries have gone. -/
theorem tget_filter {α : Type} {m : Sparse α} (h : sortedFrom none m = true) (p : Nat × α → Bool) {k : Nat} {x : α} (hk : tget m k = some x) :
    tget (m.filter p) k = if p (k, x) then some x else none := by
  cases hp : p (k, x) with
  | true => exact tget_of_mem (sorted_filter p m h) (e := (k, x)) (List.mem_filter.2 ⟨mem_of_tget hk, hp⟩)
  | false =>
    refine Option.eq_none_iff_forall_ne_some.2 fun y hy => ?_
    obtain ⟨hm, hpy⟩ := List.mem_filter.1 (mem_of_tget hy)
    have hx : tget m k = some y := tget_of_mem h hm
    obtain rfl : x = y := Option.some.inj (hk.symm.trans hx)
    exact Bool.false_ne_true (hp.symm.trans hpy)

/-! ## What the walks find anew (R235) -/

/-- The same machine but for its table of functions, and each function as it was. -/
def SameButTable (m m' : Mach) : Prop := (∃ fs, m' = { m with fns := fs }) ∧ ∀ k, m'.fn k = m.fn k
theorem SameButTable.trans {a b c : Mach} (h : SameButTable a b) (h' : SameButTable b c) : SameButTable a c := by
  obtain ⟨⟨fs, rfl⟩, hfn⟩ := h
  obtain ⟨⟨gs, rfl⟩, hgn⟩ := h'
  exact ⟨⟨gs, rfl⟩, fun k => (hgn k).trans (hfn k)⟩
/-- A change that leaves a function as it was. -/
theorem SameButTable.modFn {m : Mach} {vf : Nat} {g : Fn → Fn} (hg : g (m.fn vf) = m.fn vf) : SameButTable m (m.modFn vf g) := by
  refine ⟨⟨_, rfl⟩, fun k => ?_⟩
  by_cases hk : k = vf
  · rw [hk, Mach.modFn_fn, hg]
  · exact Mach.modFn_fn_other _ _ hk
/-- The workgroups after the stores that a die's cores have buffered have been walked again. -/
def rewalkedWgs (m : Mach) (r : InvReq) (die : Nat) : Sparse Wg :=
  m.wgs.map (fun e => if e.2.vf = r.vf ∧ e.1 / 64 / 160 = die then (e.1, { e.2 with sbuf := e.2.sbuf.map (fun b => b.rewalked m r (e.1 / 64)) }) else e)
/-- A saved workgroup with no buffered store stays as it is. -/
theorem rewalkImage_empty {i : Image} (h : i.wg.sbuf = []) (m : Mach) (clk : Clock) (r : InvReq) : m.rewalkImage clk r i = (i, m) := by
  have hwg : { i.wg with sbuf := [] } = i.wg := by rw [← h]
  rw [Mach.rewalkImage, h]
  simp only [List.any_nil, Bool.false_eq_true, if_false, List.map_nil, hwg]
theorem rewalkImages_empty {is : List Image} (h : ∀ i ∈ is, i.wg.sbuf = []) (m : Mach) (clk : Clock) (r : InvReq) : ∀ done : List Image,
    is.foldl (fun (s : List Image × Mach) i => let (i, m) := s.2.rewalkImage clk r i; (s.1 ++ [i], m)) (done, m) = (done ++ is, m) := by
  induction is with
  | nil => intro done; rw [List.foldl_nil, List.append_nil]
  | cons i is ih =>
    intro done
    obtain ⟨hi, his⟩ := List.forall_mem_cons.1 h
    rw [List.foldl_cons]
    dsimp only
    rw [rewalkImage_empty hi]
    dsimp only
    rw [ih his, List.append_assoc]
    rfl
/-- With no held operation and no store in a saved workgroup, the walks change the resident workgroups alone. -/
theorem rewalk_resident {m : Mach} {r : InvReq} {die : Nat} (clk : Clock) (hi : ∀ i ∈ (m.fn r.vf).images, i.wg.sbuf = [])
    (hl : ∀ l ∈ (m.fn r.vf).launches, l.held = []) : SameButTable { m with wgs := rewalkedWgs m r die } (m.rewalk clk r die) := by
  have hheld : (m.fn r.vf).launches.map (fun l => { l with held := l.held.map (fun o => o.rewalked m r die) }) = (m.fn r.vf).launches := by
    refine (List.map_congr_left fun l hm => ?_).trans (List.map_id _)
    have hl' : { l with held := [] } = l := by rw [← hl l hm]
    rw [hl l hm, List.map_nil, hl']
    rfl
  have hstep : SameButTable { m with wgs := rewalkedWgs m r die } (Mach.modFn { m with wgs := rewalkedWgs m r die } r.vf
      (fun f => { f with launches := f.launches.map (fun l => { l with held := l.held.map (fun o => o.rewalked m r die) }) })) := by
    refine .modFn ?_
    have hfn : (Mach.fn { m with wgs := rewalkedWgs m r die } r.vf) = m.fn r.vf := rfl
    rw [hfn, hheld]
  rw [Mach.rewalk]
  dsimp only
  split
  · exact hstep
  · have hsame := hstep.2 r.vf
    have himages : ((Mach.modFn { m with wgs := rewalkedWgs m r die } r.vf
        (fun f => { f with launches := f.launches.map (fun l => { l with held := l.held.map (fun o => o.rewalked m r die) }) })).fn r.vf).images =
        (m.fn r.vf).images := congrArg Fn.images hsame
    have hfold := rewalkImages_empty (m := Mach.modFn { m with wgs := rewalkedWgs m r die } r.vf
      (fun f => { f with launches := f.launches.map (fun l => { l with held := l.held.map (fun o => o.rewalked m r die) }) })) (clk := clk) (r := r) hi []
    refine hstep.trans ?_
    rw [← rewalkedWgs, himages, hfold]
    refine .modFn ?_
    rw [List.nil_append, ← himages]

/-! ## What the cores drop (R416) -/

/-- A core without the translations that a request names, and without the lines of their pages. -/
def dropped (r : InvReq) (c : Core) : Core :=
  { c with tlb := c.tlb.filter (fun t => !r.names t.1 t.2), icache := c.icache.filter (fun x =>
      !((c.tlb.filter (fun t => r.names t.1 t.2 && !t.2.rm)).map (fun t => t.2.pa (t.1 * 65536) / 65536)).contains (x.1 / 8192)) }
theorem dropNamed_empty {m : Mach} {core : Nat} (h : (m.core core).l1 = []) (r : InvReq) :
    m.dropNamed core r.names = m.setCore core (dropped r (m.core core)) := by
  rw [Mach.dropNamed, h]
  simp only [List.filter_nil, List.foldl_nil, Mach.modCore, dropped, List.filter_filter, Bool.and_comm]
/-- A core of the die after the request: one with the function's planes drops what the request names. -/
def answered (r : InvReq) (die : Nat) (e : Nat × Core) : Core := if e.1 / 160 = die ∧ e.2.planesOf = some r.vf then dropped r e.2 else e.2
theorem dropAll_eq {m : Mach} {r : InvReq} {die : Nat} (hs : sortedFrom none m.cores = true) (hl : ∀ e ∈ m.cores, e.2.l1 = []) :
    m.cores.foldl (fun m c => if c.1 / 160 = die ∧ c.2.planesOf = some r.vf then m.dropNamed c.1 r.names else m) m =
      { m with cores := m.cores.map (fun e => (e.1, answered r die e)) } := by
  refine foldl_records (at_ := fun t => { m with cores := t }) (g := answered r die) hs fun pre e post he hlow => ?_
  have hbelow := mapped_below (g := answered r die) hlow
  by_cases hc : e.1 / 160 = die ∧ e.2.planesOf = some r.vf
  · have hcore : Mach.core { m with cores := pre.map (fun x => (x.1, answered r die x)) ++ e :: post } e.1 = e.2 := by
      rw [Mach.core, show e = (e.1, e.2) from rfl, tget_mid hbelow]
      rfl
    have hempty : e.2.l1 = [] := hl e (he ▸ List.mem_append_right _ List.mem_cons_self)
    have hanswer : answered r die e = dropped r e.2 := if_pos hc
    rw [if_pos hc, dropNamed_empty (by rw [hcore]; exact hempty), hcore, hanswer, Mach.setCore]
    dsimp only
    rw [show e = (e.1, e.2) from rfl, tset_mid hbelow]
  · have hanswer : answered r die e = e.2 := if_neg hc
    rw [if_neg hc, hanswer]
/-- A range names a base page that lies in it. -/
theorem names_small {r : InvReq} {p : Pte} (hr : r.move = none) (hp : p.large = false) (page : Nat) :
    r.names page p = decide (r.count = 0 ∨ (page + 2 ^ 64 - r.base / 65536) % 2 ^ 64 < r.count) := by
  rw [InvReq.names, hr, hp, Bool.eq_iff_iff]
  simp
theorem answered_core {m m' : Mach} {r : InvReq} {die : Nat} (h : m'.cores = m.cores.map (fun e => (e.1, answered r die e))) (k : Nat) :
    m'.core k = answered r die (k, m.core k) := by
  rw [Mach.core, h, tget_map m.cores (fun e => (e.1, answered r die e)) (fun _ => rfl) k, Mach.core]
  cases tget m.cores k with
  | some x => rfl
  | none => exact (if_neg fun h => nomatch h.2).symm

/-! ## The broadcast (R416) -/

section
variable {s : State} {r : InvReq} {die : Nat} {a b : List InvReq} (hhub : s.m.hub = a ++ r :: b) (ha : a.length < 16) (hacked : ∀ x ∈ a, die ∈ x.acks)
  (hr : die ∉ r.acks)
include hhub ha hacked hr

/-- The die takes the earliest request of the hub's that it has not acknowledged. -/
theorem invalidationBroadcast_finds : (s.m.hub.take hubRoom).find? (fun r => !r.acks.contains die) = some r := by
  have htake : s.m.hub.take hubRoom = a ++ r :: b.take (15 - a.length) := by
    rw [hhub, List.take_append, List.take_of_length_le (by rw [hubRoom]; omega), hubRoom, show 16 - a.length = (15 - a.length) + 1 by omega,
      List.take_succ_cons]
  rw [htake, List.find?_append, List.find?_eq_none.2 fun x hx => by simpa using hacked x hx, Option.none_or, List.find?_cons_of_pos (by simpa using hr)]
theorem invalidationBroadcast_drains (hdrain : s.m.mustDrain r die = true) : exec (.invalidationBroadcast die) s = .fault .notEnabled := by
  rw [exec_invalidationBroadcast]
  refine s.event_fault _ ?_
  rw [invalidationBroadcast_finds hhub ha hacked hr]
  simp only [Option.bind_eq_bind, Option.bind_some, hdrain, Bool.or_true, if_true]
theorem invalidationBroadcast_acknowledges (hd : die < 8) (hother : ∀ x ∈ a ++ b, x.vf ≠ r.vf ∨ x.seq ≠ r.seq) (hdrain : s.m.mustDrain r die = false)
    (hl : ∀ e ∈ s.m.cores, e.2.l1 = []) (hs : sortedFrom none s.m.cores = true) (hi : ∀ i ∈ (s.m.fn r.vf).images, i.wg.sbuf = [])
    (hheld : ∀ l ∈ (s.m.fn r.vf).launches, l.held = []) :
    ∃ fs, (∀ k, Mach.fn { s.m with fns := fs } k = s.m.fn k) ∧ exec (.invalidationBroadcast die) s = .next (withM s
      { s.m with fns := fs, wgs := rewalkedWgs s.m r die, cores := s.m.cores.map (fun e => (e.1, answered r die e)),
                 hub := a ++ { r with acks := r.acks ++ [die] } :: b }) := by
  obtain ⟨⟨fs, hwalk⟩, hfn⟩ := rewalk_resident (die := die) s.clk hi hheld
  have hkeep (xs : List InvReq) (hxs : ∀ x ∈ xs, x ∈ a ++ b) :
      xs.map (fun x => if x.vf = r.vf ∧ x.seq = r.seq then { x with acks := x.acks ++ [die] } else x) = xs := by
    refine (List.map_congr_left fun x hx => ?_).trans (List.map_id _)
    exact if_neg fun h => (hother x (hxs x hx)).elim (· h.1) (· h.2)
  have hmap : s.m.hub.map (fun x => if x.vf = r.vf ∧ x.seq = r.seq then { x with acks := x.acks ++ [die] } else x) =
      a ++ { r with acks := r.acks ++ [die] } :: b := by
    rw [hhub, List.map_append, List.map_cons, hkeep a fun x hx => List.mem_append_left _ hx, hkeep b fun x hx => List.mem_append_right _ hx,
      if_pos ⟨rfl, rfl⟩]
  have hgo : (decide (8 ≤ die) || s.m.mustDrain r die) = false := by rw [hdrain, decide_eq_false (by omega)]; rfl
  refine ⟨fs, fun k => ?_, ?_⟩
  · have hk := hfn k
    rw [hwalk] at hk
    exact hk
  · rw [exec_invalidationBroadcast]
    refine s.event_next _ ?_
    rw [invalidationBroadcast_finds hhub ha hacked hr]
    simp only [Option.bind_eq_bind, Option.bind_some, hgo, Bool.false_eq_true, if_false, hwalk]
    rw [dropAll_eq (m := { s.m with wgs := rewalkedWgs s.m r die, fns := fs }) hs hl]
    simp only [hmap]
end
theorem invalidationBroadcast_idle {s : State} {die : Nat} (h : 8 ≤ die ∨ ∀ x ∈ s.m.hub, die ∈ x.acks) :
    exec (.invalidationBroadcast die) s = .fault .notEnabled := by
  rw [exec_invalidationBroadcast]
  refine s.event_fault _ ?_
  cases hf : (s.m.hub.take hubRoom).find? (fun r => !r.acks.contains die) with
  | none => rfl
  | some r =>
    have hlate : 8 ≤ die := by
      refine h.resolve_right fun hall => ?_
      have hno := List.find?_some hf
      rw [List.contains_iff_mem.2 (hall r (List.mem_of_mem_take (List.mem_of_find?_eq_some hf)))] at hno
      cases hno
    simp only [Option.bind_eq_bind, Option.bind_some, decide_eq_true hlate, Bool.true_or, if_true]

/-! ## The end of a request (R234, R416) -/

section
variable {s : State} {r : InvReq} (hhub : s.m.hub = [r]) (hplain : plainInv r)
include hhub

theorem invalidationComplete_waits (h : (∃ d, d < 8 ∧ d ∉ r.acks) ∨ ∃ d ∈ r.devs, s.m.unreachable d = false) :
    exec .invalidationComplete s = .fault .notEnabled := by
  have hopen : ((upFrom 0 8).all r.acks.contains && r.devs.all s.m.unreachable) = false := by
    rw [Bool.eq_false_iff, Ne, Bool.and_eq_true, List.all_eq_true, List.all_eq_true]
    rintro ⟨hacks, hdevs⟩
    rcases h with ⟨d, hd, hno⟩ | ⟨d, hd, hreach⟩
    · exact hno (List.contains_iff_mem.1 (hacks d (mem_upFrom.2 ⟨Nat.zero_le d, by omega⟩)))
    · exact Bool.false_ne_true (hreach.symm.trans (hdevs d hd))
  rw [exec_invalidationComplete]
  refine s.event_fault _ ?_
  have hfind : (s.m.hub.take hubRoom).find? (fun r => (upFrom 0 8).all r.acks.contains && r.devs.all s.m.unreachable &&
      !s.m.hub.any (fun x => x.vf == r.vf && decide (x.seq < r.seq))) = none := by
    rw [hhub]
    refine List.find?_eq_none.2 fun x hx => ?_
    obtain rfl : x = r := List.mem_singleton.1 (List.mem_of_mem_take hx)
    rw [hopen, Bool.false_and]
    exact Bool.false_ne_true
  rw [hfind]
  rfl

include hplain
/-- With every acknowledgement, the number goes to the completion word and the command ends. -/
theorem invalidationComplete_ends (hacks : ∀ d, d < 8 → d ∈ r.acks) (hdevs : r.devs = []) {a pa : Nat} (hword : r.word = some a)
    (hat : FwAt s r.vf a 8 [.write] pa) (hm : NoMonitor s) : ∃ m, m.hub = [] ∧ m.mem = Memory.writeL s.m.mem pa (leBytes 8 r.seq) ∧ m.wgs = s.m.wgs ∧
      m.fns = s.m.fns ∧ m.host = s.m.host ∧
      exec .invalidationComplete s = .next (withM s (match r.cmd with | some (c, op) => m.finish c op 0 0 | none => m)) := by
  obtain ⟨hmove, hrelease⟩ := hplain
  obtain ⟨kind, hps⟩ := (hat.of_same (m := { s.m with hub := [] }) rfl rfl rfl hat.ioDie_empty).fwAccess
  have hstored := Mach.bulkWrite_fwPart (m := { s.m with hub := [] }) hat.ioDie_empty hm a pa kind (length_leBytes 8 r.seq)
  have hkept := bulkWrite_fwPart_images_hub (m := { s.m with hub := [] }) hat.ioDie_empty hm a pa kind (leBytes 8 r.seq)
  rw [length_leBytes] at hkept
  have hfind : (s.m.hub.take hubRoom).find? (fun r => (upFrom 0 8).all r.acks.contains && r.devs.all s.m.unreachable &&
      !s.m.hub.any (fun x => x.vf == r.vf && decide (x.seq < r.seq))) = some r := by
    have hall : (upFrom 0 8).all r.acks.contains = true := List.all_eq_true.2 fun d hd =>
      List.contains_iff_mem.2 (hacks d (by have := (mem_upFrom.1 hd).2; omega))
    have hfirst : [r].any (fun x => x.vf == r.vf && decide (x.seq < r.seq)) = false := by simp
    rw [hhub, show [r].take hubRoom = [r] from rfl]
    refine List.find?_cons_of_pos ?_
    rw [hall, hdevs, hfirst]
    rfl
  have hnone : s.m.hub.filter (fun x => !(x.vf == r.vf && x.seq == r.seq)) = [] := by rw [hhub]; simp
  refine ⟨_, hkept.2, hstored.mem, hstored.wgs, hstored.fns, hstored.host, ?_⟩
  rw [exec_invalidationComplete]
  refine s.event_next _ ?_
  rw [hfind]
  simp only [Option.bind_eq_bind, Option.bind_some, hnone, hword, hmove, hrelease, List.isEmpty_nil, if_true]
  rw [show Mach.fwAccess { s.m with hub := [] } r.vf a 8 [.write] = _ from hps] <;> rfl
end

end Sys2Proof.Claims
end

section
/-! SUPPORT. Pages that move (R236, R237, R418), package power (R419, R420) and fenced cores (R388, R414). -/
namespace Sys2Proof.Claims
open Sys2Proof.Machine

theorem exec_migrationWindow (s : State) : exec .migrationWindow s = execMigrationWindow s := rfl
theorem exec_migSettle (vf page : Nat) (s : State) : exec (.migSettle vf page) s = execMigSettle vf page s := rfl
theorem exec_powerSample (watts : Nat) (s : State) : exec (.powerSample watts) s = execPowerSample watts s := rfl
theorem exec_coreFence (core : Nat) (s : State) : exec (.coreFence core) s = execCoreFence core s := rfl

/-! ## The migration window (R236, R418) -/

section
variable {s : State}

theorem migrationWindow_early (h : s.clk.time / 1000000 ≤ (tget s.m.due 1).getD 0) : exec .migrationWindow s = .fault .notEnabled := by
  rw [exec_migrationWindow]
  exact s.event_fault _ (if_pos h)

/-- The counts of a window begin anew. -/
def windowEnded (s : State) (m : Mach) : Mach := { m with access := [], due := tset m.due 1 (s.clk.time / 1000000) }
/-- What the end of a window makes of one page. -/
def pageMoved (m : Mach) (p : Nat) : Mach :=
  match tget m.frameOf (p / 512), m.dueFor p with
  | some vf, some agent => m.migrate vf p agent
  | _, _ => m
section
variable (hdue : (tget s.m.due 1).getD 0 < s.clk.time / 1000000)
include hdue

theorem migrationWindow_ends : exec .migrationWindow s = .next (withM s (windowEnded s
    (((s.m.access.map (fun a => a.1 / 4096)).eraseDups).foldl pageMoved s.m))) := by
  rw [exec_migrationWindow]
  exact s.event_next _ (if_neg (Nat.not_le.2 hdue))
/-- With no page due, the counts begin anew. -/
theorem migrationWindow_quiet (h : ∀ e ∈ s.m.access, s.m.dueFor (e.1 / 4096) = none) :
    exec .migrationWindow s = .next (withM s { s.m with access := [], due := tset s.m.due 1 (s.clk.time / 1000000) }) := by
  rw [migrationWindow_ends hdue, foldl_eq_self fun p hp => ?_]
  · rfl
  · obtain ⟨e, he, rfl⟩ := List.mem_map.1 (List.mem_eraseDups.1 hp)
    rw [pageMoved, h e he]
    cases tget s.m.frameOf (e.1 / 4096 / 512) <;> rfl

/-- One page due to move within the device takes a place on the die that uses it. -/
theorem migrationWindow_moves {page vf agent a new : Nat} {m : Mach} (hpage : ∀ e ∈ s.m.access, e.1 / 4096 = page)
    (hframe : tget s.m.frameOf (page / 512) = some vf) (hdueFor : s.m.dueFor page = some agent) (hagent : agent < 16) (hat : s.m.entriesOf vf page = [a])
    (hpinned : s.m.physNat a 16 / 2 ^ 9 % 2 = 0) (hcount : s.m.physNat a 16 / 2 ^ 10 % 8 ≠ 4) (hhub : s.m.hub = [])
    (hplace : s.m.pageOn vf agent = some (new, m)) (hd : (m.fn vf).domain = none) : exec .migrationWindow s = .next (withM s
      { m.modFn vf (fun f => { f with invSeq := f.invSeq + 1 }) with
        hub := m.hub ++ [{ vf, base := 0, count := 0, seq := (m.fn vf).invSeq + 1, word := none, cmd := none, move := some (page, new) }],
        access := [], due := tset m.due 1 (s.clk.time / 1000000) }) := by
  have hsome : s.m.access ≠ [] := by
    intro hnil
    rw [Mach.dueFor, hnil] at hdueFor
    cases hdueFor
  have hpages : (s.m.access.map (fun a => a.1 / 4096)).eraseDups = [page] := eraseDups_const hsome hpage
  have hstays : ((([a].map (fun a => s.m.physNat a 16)).isEmpty || ([a].map (fun a => s.m.physNat a 16)).any (fun e => field e 9 1 == 1)) ||
      s.m.hub.any (fun r => match r.move with | some (o, _) => o == page | none => false)) = false := by
    have hopen : (field (s.m.physNat a 16) 9 1 == 1) = false := by
      rw [field, pow_one, hpinned]
      rfl
    simp only [hhub, List.map_cons, List.map_nil, List.isEmpty_cons, List.any_cons, List.any_nil, hopen, Bool.or_false]
  have hfew : ([a].map (fun a => s.m.physNat a 16)).any (fun e => field e 10 3 == 4) = false := by
    simp only [List.map_cons, List.map_nil, List.any_cons, List.any_nil, Bool.or_false]
    exact beq_eq_false_iff_ne.2 hcount
  have hmove : s.m.migrate vf page agent =
      m.submitInv { vf, base := 0, count := 0, seq := 0, word := none, cmd := none, move := some (page, new) } := by
    rw [Mach.migrate, hat]
    refine (if_neg (Bool.eq_false_iff.1 hstays)).trans ((if_neg (Bool.eq_false_iff.1 hfew)).trans ((if_neg (Nat.not_le.2 hagent)).trans ?_))
    rw [hplace]
  have hmoved : pageMoved s.m page = m.submitInv { vf, base := 0, count := 0, seq := 0, word := none, cmd := none, move := some (page, new) } := by
    rw [pageMoved, hframe, hdueFor]
    exact hmove
  rw [migrationWindow_ends hdue, hpages, List.foldl_cons, List.foldl_nil, hmoved, Mach.submitInv_local hd]
  rfl
end

/-! ## A page that stays (R237) -/

theorem migSettle_absent {vf page : Nat} (h : tget s.m.lastMove page = none) : exec (.migSettle vf page) s = .fault .notEnabled := by
  rw [exec_migSettle]
  refine s.event_fault _ ?_
  rw [h]
  rfl
section
variable {vf page t : Nat} (h : tget s.m.lastMove page = some t)
include h

theorem migSettle_early (ht : s.clk.time < t + 10000000) : exec (.migSettle vf page) s = .fault .notEnabled := by
  rw [exec_migSettle]
  refine s.event_fault _ ?_
  rw [h, Option.bind_eq_bind, Option.bind_some, if_pos ht]
/-- Memory after a page's entry has its migration counter cleared; one that is pinned keeps it. -/
def settledCells (s : State) (a : Nat) : List Host.Cell :=
  if s.m.physNat a 16 / 512 % 2 = 1 then s.m.mem
  else Memory.writeL s.m.mem a (leBytes 16 (s.m.physNat a 16 - s.m.physNat a 16 / 1024 % 8 * 1024))
theorem migSettle_clears (ht : t + 10000000 ≤ s.clk.time) {a : Nat} (ha : s.m.entriesOf vf page = [a]) :
    exec (.migSettle vf page) s = .next (withM s { s.m with lastMove := terase s.m.lastMove page, mem := settledCells s a }) := by
  rw [exec_migSettle]
  refine s.event_next _ ?_
  rw [h, Option.bind_eq_bind, Option.bind_some, if_neg (Nat.not_lt.2 ht), ha, List.foldl_cons, List.foldl_nil, settledCells]
  dsimp only
  by_cases hp : s.m.physNat a 16 / 512 % 2 = 1
  · have hpinned : field (s.m.physNat a 16) 9 1 = 1 := hp
    rw [if_pos hp, if_pos hpinned]
  · have hopen : ¬field (s.m.physNat a 16) 9 1 = 1 := hp
    rw [if_neg hp, if_neg hopen]
    rfl
end

/-! ## Power (R419, R420) -/

theorem setRing_ring (m : Mach) (d : Nat) (r : TokenRing) : (m.setRing d r).ring d = r := by simp [Mach.setRing, Mach.ring]
theorem setRing_ring_other (m : Mach) {d e : Nat} (r : TokenRing) (h : d ≠ e) : (m.setRing e r).ring d = m.ring d := by
  simp [Mach.setRing, Mach.ring, tget_tset_other _ _ h]
/-- Each die's ring is changed once. -/
theorem eachRing_ring (m : Mach) (f : TokenRing → TokenRing) {d : Nat} (hd : d < 8) : (m.eachRing f).ring d = f (m.ring d) := by
  have hfold : ∀ (ds : List Nat) (m : Mach), ds.Nodup →
      (ds.foldl (fun (m : Mach) d => m.setRing d (f (m.ring d))) m).ring d = if d ∈ ds then f (m.ring d) else m.ring d := by
    intro ds
    induction ds with
    | nil => exact fun m _ => rfl
    | cons e ds ih =>
      intro m hnd
      obtain ⟨hout, hrest⟩ := List.nodup_cons.1 hnd
      rw [List.foldl_cons, ih _ hrest]
      by_cases he : d = e
      · rw [if_neg (he ▸ hout), if_pos (he ▸ List.mem_cons_self), he, setRing_ring]
      · rw [setRing_ring_other m _ he]
        simp only [List.mem_cons, he, false_or]
  rw [Mach.eachRing, hfold _ m (by rw [upFrom_eq_range']; exact List.nodup_range'), if_pos (mem_upFrom.2 ⟨Nat.zero_le d, by omega⟩)]
theorem eachRing_frame (m : Mach) (f : TokenRing → TokenRing) : ∃ rs, m.eachRing f = { m with rings := rs } := by
  have hfold (ds : List Nat) : ∀ m : Mach, ∃ rs, ds.foldl (fun (m : Mach) d => m.setRing d (f (m.ring d))) m = { m with rings := rs } := by
    induction ds with
    | nil => exact fun m => ⟨m.rings, rfl⟩
    | cons d ds ih => exact fun m => ih (m.setRing d (f (m.ring d)))
  exact hfold _ m
/-- The samples of the last millisecond. -/
def samples (s : State) (watts : Nat) : List Nat := (s.m.powerSum ++ [watts]).drop (s.m.powerSum.length + 1 - 100)
/-- The machine with a sample noted. -/
def sampled (s : State) (watts : Nat) : Mach := { s.m with powerSum := samples s watts, due := tset s.m.due 2 (s.clk.time / 10000) }
theorem powerSample_early (watts : Nat) (h : s.clk.time / 10000 ≤ (tget s.m.due 2).getD 0) : exec (.powerSample watts) s = .fault .notEnabled := by
  rw [exec_powerSample]
  exact s.event_fault _ (if_pos h)
section
variable {watts : Nat} (hdue : (tget s.m.due 2).getD 0 < s.clk.time / 10000)
include hdue

theorem powerSample_due : exec (.powerSample watts) s = .next (withM s (
    if s.m.limit * (samples s watts).length < (samples s watts).foldl (· + ·) 0 ∧ s.m.powerStage < s.m.lastStage then
      { (if s.m.powerStage < s.m.tokens - 1 then (sampled s watts).eachRing (·.fewer 1) else sampled s watts) with powerStage := s.m.powerStage + 1 }
    else if (samples s watts).foldl (· + ·) 0 < (s.m.limit - 50) * (samples s watts).length ∧ 0 < s.m.powerStage then
      { (if s.m.powerStage ≤ s.m.tokens - 1 then (sampled s watts).eachRing (·.more 1) else sampled s watts) with powerStage := s.m.powerStage - 1 }
    else sampled s watts)) := by
  rw [exec_powerSample]
  exact s.event_next _ (if_neg (Nat.not_le.2 hdue))
/-- An average within 50 W below the limit changes nothing but the samples. -/
theorem powerSample_within (hlo : (s.m.limit - 50) * (samples s watts).length ≤ (samples s watts).foldl (· + ·) 0)
    (hhi : (samples s watts).foldl (· + ·) 0 ≤ s.m.limit * (samples s watts).length) :
    exec (.powerSample watts) s = .next (withM s (sampled s watts)) := by
  rw [powerSample_due hdue, if_neg fun h => Nat.not_le.2 h.1 hhi, if_neg fun h => Nat.not_le.2 h.1 hlo]
/-- What a stage of throttling that changes every die's tokens leaves. -/
def Throttled (s : State) (watts stage : Nat) (f : TokenRing → TokenRing) : Prop :=
  ∃ u, exec (.powerSample watts) s = .next u ∧ u.m.powerStage = stage ∧ u.m.powerSum = samples s watts ∧ u.m.mem = s.m.mem ∧ u.m.cores = s.m.cores ∧
    ∀ d, d < 8 → u.m.ring d = f (s.m.ring d)
omit hdue in
theorem throttled_of_next {stage : Nat} {f : TokenRing → TokenRing}
    (h : exec (.powerSample watts) s = .next (withM s { (sampled s watts).eachRing f with powerStage := stage })) : Throttled s watts stage f := by
  obtain ⟨rs, hrs⟩ := eachRing_frame (sampled s watts) f
  have hring (d : Nat) (hd : d < 8) := eachRing_ring (sampled s watts) f hd
  rw [hrs] at h hring
  exact ⟨_, h, rfl, rfl, rfl, rfl, hring⟩
theorem powerSample_above (hover : s.m.limit * (samples s watts).length < (samples s watts).foldl (· + ·) 0) (hstage : s.m.powerStage < s.m.tokens - 1) :
    Throttled s watts (s.m.powerStage + 1) (·.fewer 1) := by
  refine throttled_of_next ?_
  have hlast : s.m.powerStage < s.m.lastStage := by rw [Mach.lastStage]; omega
  rw [powerSample_due hdue, if_pos ⟨hover, hlast⟩, if_pos hstage]
theorem powerSample_below (hunder : (samples s watts).foldl (· + ·) 0 < (s.m.limit - 50) * (samples s watts).length) (h0 : 0 < s.m.powerStage)
    (hstage : s.m.powerStage ≤ s.m.tokens - 1) : Throttled s watts (s.m.powerStage - 1) (·.more 1) := by
  refine throttled_of_next ?_
  have hle : (s.m.limit - 50) * (samples s watts).length ≤ s.m.limit * (samples s watts).length := Nat.mul_le_mul_right _ (Nat.sub_le ..)
  rw [powerSample_due hdue, if_neg (fun h => by omega), if_pos ⟨hunder, h0⟩, if_pos hstage]
end

/-! ## A core with too many errors (R388, R414) -/

/-- A workgroup that leaves a core with its fence. -/
def evicted (core : Nat) (e : Nat × Wg) : Wg :=
  if e.1 / 64 = core ∧ e.2.killed = false ∧ e.2.ending = false ∧ e.2.leaving = 0 then { e.2 with leaving := 1 } else e.2
/-- Whether a fence makes a workgroup leave. -/
def leavesCore (core : Nat) (e : Nat × Wg) : Bool := (e.1 / 64 == core && !e.2.killed) && !e.2.ending
theorem leavesCore_iff (core : Nat) (e : Nat × Wg) : leavesCore core e = true ↔ e.1 / 64 = core ∧ e.2.killed = false ∧ e.2.ending = false := by
  simp [leavesCore, and_assoc]
/-- The workgroups that are to leave, each a block of its own. -/
theorem evict_blocks {m : Mach} {core : Nat} (hspan : ∀ e ∈ m.wgs, e.1 / 64 = core → e.2.hdr.cspan = false) :
    ((m.wgs.filter (leavesCore core)).map (fun e => m.blockWith (e.1 / 64) (e.1 % 64) e.2)).flatten =
      (m.wgs.filter (leavesCore core)).map (fun e => (e.1 / 64, e.1 % 64, e.2)) := by
  rw [List.map_congr_left (g := fun e => [(e.1 / 64, e.1 % 64, e.2)]) fun e he => ?_, ← List.flatMap_def, List.map_eq_flatMap]
  obtain ⟨hm, hleaves⟩ := List.mem_filter.1 he
  rw [Mach.blockWith, hspan e hm ((leavesCore_iff core e).1 hleaves).1]
  rfl
/-- The workgroups of a core that are not killed are to leave it. -/
theorem evict_core {m : Mach} {core : Nat} (hs : sortedFrom none m.wgs = true) (hspan : ∀ e ∈ m.wgs, e.1 / 64 = core → e.2.hdr.cspan = false) :
    m.evict (fun c _ w => c == core && !w.killed) = { m with wgs := m.wgs.map (fun e => (e.1, evicted core e)) } := by
  have hchosen : m.evict (fun c _ w => c == core && !w.killed) =
      (((m.wgs.filter (leavesCore core)).map (fun e => m.blockWith (e.1 / 64) (e.1 % 64) e.2)).flatten).foldl
        (fun (m : Mach) b => m.modWg b.1 b.2.1 (fun w => if w.leaving = 0 then { w with leaving := 1 } else w)) m := rfl
  rw [hchosen, evict_blocks hspan, List.foldl_map, List.foldl_filter]
  refine foldl_records (at_ := fun t => { m with wgs := t }) (g := evicted core) hs fun pre e post he hlow => ?_
  have hbelow := mapped_below (g := evicted core) hlow
  by_cases hleaves : leavesCore core e = true
  · have hkey : e.1 / 64 * 64 + e.1 % 64 = e.1 := Nat.div_add_mod' ..
    have hwg : Mach.wg? { m with wgs := pre.map (fun x => (x.1, evicted core x)) ++ e :: post } (e.1 / 64) (e.1 % 64) = some e.2 := by
      rw [Mach.wg?, hkey, show e = (e.1, e.2) from rfl]
      exact tget_mid hbelow
    have hevicted : evicted core e = if e.2.leaving = 0 then { e.2 with leaving := 1 } else e.2 := by
      obtain ⟨hcore, hkilled, hending⟩ := (leavesCore_iff core e).1 hleaves
      simp only [evicted, hcore, hkilled, hending, true_and]
    rw [if_pos hleaves, Mach.modWg_eq _ _ hwg, ← hevicted, Mach.setWg, hkey]
    dsimp only
    rw [show e = (e.1, e.2) from rfl, tset_mid hbelow]
  · have hstays : evicted core e = e.2 := if_neg fun h => hleaves ((leavesCore_iff core e).2 ⟨h.1, h.2.1, h.2.2.1⟩)
    rw [if_neg hleaves, hstays]

/-- Above the threshold the core is fenced, its bit is set, and its workgroups leave. -/
theorem coreFence_fences {core : Nat} (hcore : core < 1280) (hopen : (s.m.core core).fenced = false)
    (herrors : Config.errorThreshold < (s.m.core core).errors) (hm : NoMonitor s) (hown : ∀ e ∈ s.m.fns, core ∉ e.2.ownedCores)
    (hs : sortedFrom none s.m.wgs = true) (hplain : ∀ e ∈ s.m.wgs, e.1 / 64 = core → e.2.hdr.pinned = false ∧ e.2.hdr.cspan = false) :
    ∃ y, exec (.coreFence core) s = .next (withM s { s.m.setCore core { s.m.core core with fenced := true } with
      mem := Memory.writeL s.m.mem (mirrorBase + 256 + core / 8)
        [BitVec.ofNat 8 ((Memory.read s.m.mem (mirrorBase + 256 + core / 8)).toNat ||| 2 ^ (core % 8))],
      poison := y, wgs := s.m.wgs.map (fun e => (e.1, evicted core e)) }) := by
  obtain ⟨y, hy⟩ := Mach.l2Write_unarmed (m := s.m.setCore core { s.m.core core with fenced := true }) hm (mirrorBase + 256 + core / 8)
    [BitVec.ofNat 8 ((Memory.read s.m.mem (mirrorBase + 256 + core / 8)).toNat ||| 2 ^ (core % 8))]
  have hmark : (s.m.modCore core (fun c => { c with fenced := true })).markFenced core = _ := hy
  have hnone : s.m.fns.filter (fun e => e.2.ownedCores.contains core) = [] :=
    List.filter_eq_nil_iff.2 fun e he h => hown e he (List.contains_iff_mem.1 h)
  have hstay : (s.m.wgsOf core).filter (fun e => e.2.hdr.pinned || e.2.hdr.cspan) = [] := by
    refine List.filter_eq_nil_iff.2 fun e he => ?_
    obtain ⟨x, hx, rfl⟩ := List.mem_map.1 he
    obtain ⟨hxm, hxc⟩ := List.mem_filter.1 hx
    obtain ⟨hpin, hspan⟩ := hplain x hxm (beq_iff_eq.1 hxc)
    simp [hpin, hspan]
  have hgo : ¬(decide (coreCount ≤ core) || (s.m.core core).fenced || decide ((s.m.core core).errors ≤ Config.errorThreshold)) = true := by
    rw [hopen, decide_eq_false (by rw [coreCount]; omega), decide_eq_false (by omega)]
    exact Bool.false_ne_true
  refine ⟨y, ?_⟩
  rw [exec_coreFence]
  refine s.event_next _ ((if_neg hgo).trans (congrArg some ?_))
  rw [Mach.fenceCore, hmark]
  dsimp only
  rw [show (s.m.setCore core { s.m.core core with fenced := true }).fns.filter (fun e => e.2.ownedCores.contains core) = [] from hnone, List.foldl_nil]
  refine (congrArg (fun es : List (Nat × Wg) => Mach.evict (es.foldl (fun (m : Mach) e => m.killLaunch e.2.vf e.2.launch) _) _) hstay).trans ?_
  exact evict_core (m := { s.m.setCore core { s.m.core core with fenced := true } with
    mem := Memory.writeL s.m.mem (mirrorBase + 256 + core / 8)
      [BitVec.ofNat 8 ((Memory.read s.m.mem (mirrorBase + 256 + core / 8)).toNat ||| 2 ^ (core % 8))], poison := y }) hs fun e he hc => (hplain e he hc).2
theorem coreFence_idle {core : Nat} (h : (s.m.core core).fenced = true ∨ (s.m.core core).errors ≤ Config.errorThreshold) :
    exec (.coreFence core) s = .fault .notEnabled := by
  rw [exec_coreFence]
  refine s.event_fault _ (if_pos ?_)
  rcases h with h | h
  · rw [h, Bool.or_true, Bool.true_or]
  · rw [decide_eq_true h, Bool.or_true]
end

end Sys2Proof.Claims
end

section
open Sys2Proof Sys2Proof.Machine Sys2Proof.Claims

/-- Settles O49. A token that is withheld or enters goes as log 46 has it, a page's home among dies that tie is the lower one's (log 76), and a
buffered store that a request names goes where a fresh walk takes it (log 103). -/
theorem deviceUpkeep : Obligations.DeviceUpkeep := by
  intro die vf page watts core s
  refine ⟨fun a r b hhub ha hacked hr hother hd => ⟨invalidationBroadcast_drains hhub ha hacked hr, fun hdrain hl hs hi hheld => ?_⟩,
    invalidationBroadcast_idle, fun r hhub hplain => ⟨invalidationComplete_waits hhub, fun hacks hdevs a pa hword hat hm => ?_⟩,
    migrationWindow_early, fun hdue => ⟨migrationWindow_quiet hdue, fun agent a new m hpage hframe hdueFor hagent hat hpinned hcount hhub hplace hd =>
      migrationWindow_moves hdue hpage hframe hdueFor hagent hat hpinned hcount hhub hplace hd⟩,
    fun t ht => ⟨migSettle_early ht, fun hlate a ha => migSettle_clears ht hlate ha⟩, migSettle_absent, powerSample_early watts,
    fun hdue => ⟨powerSample_within hdue, powerSample_above hdue, powerSample_below hdue⟩,
    fun hcore hopen herrors hm hown hs hplain => ?_, coreFence_idle⟩
  · obtain ⟨fs, hfn, hrun⟩ := invalidationBroadcast_acknowledges hhub ha hacked hr hd hother hdrain hl hs hi hheld
    refine ⟨_, hrun, rfl, rfl, hfn, rfl, fun k => ⟨fun hno => ?_, fun hk hp => ?_, fun hsorted hk hp hmove p hpage hlarge => ?_⟩⟩
    · refine (answered_core (m := s.m) rfl k).trans (if_neg fun h => ?_)
      obtain ⟨hk, hp⟩ := h
      exact hno.elim (· hk) (· hp)
    · exact (answered_core (m := s.m) rfl k).trans (if_pos ⟨hk, hp⟩)
    · have hdropped : answered r die (k, s.m.core k) = dropped r (s.m.core k) := if_pos ⟨hk, hp⟩
      refine (congrArg (fun c : Core => tget c.tlb page) ((answered_core (m := s.m) rfl k).trans hdropped)).trans ((tget_filter hsorted _ hpage).trans ?_)
      simp only [names_small hmove hlarge, Bool.not_eq_true', decide_eq_false_iff_not, ite_not]
  · obtain ⟨m, hempty, hmem, hwgs, hfns, hhost, hrun⟩ := invalidationComplete_ends hhub hplain hacks hdevs hword hat hm
    cases hcmd : r.cmd with
    | none =>
      rw [hcmd] at hrun
      exact ⟨_, hrun, hempty, hmem, hwgs, fun _ => ⟨hfns, hhost⟩, fun _ _ h => nomatch h⟩
    | some x =>
      obtain ⟨c, op⟩ := x
      rw [hcmd] at hrun
      obtain ⟨kmem, kwgs, -⟩ := Mach.finish_frame m c op 0 0
      refine ⟨_, hrun, (finish_hub ..).trans hempty, kmem.trans hmem, kwgs.trans hwgs, fun h => (nomatch h), fun c' op' h => ?_⟩
      obtain ⟨rfl, rfl⟩ := Prod.mk.inj (Option.some.inj h)
      exact Mach.finish_congr hfns hhost c op 0 0
  · obtain ⟨y, hrun⟩ := coreFence_fences hcore hopen herrors hm hown hs hplain
    exact ⟨_, hrun, Mach.setCore_core .., rfl, rfl, rfl⟩
end
